-- ==== Sys2Proof/Word.lean ====
section
/-! DEFINITION. The word types of the VJ-5120 and the sparse maps that hold its state (R8, R64). -/

namespace Sys2Proof

/-- A 64-bit register, address or doubleword (R64). -/
abbrev Word := BitVec 64

/-- One byte of memory. -/
abbrev Byte := BitVec 8

/-- A 512-byte vector register, queue entry or block of registers: byte j is bits 8j to 8j + 7 (R8, R238). -/
abbrev Wide := BitVec 4096

/-- A sparse map from natural numbers: keys strictly rising, no entry equal to the default that an unlisted key
reads as. Memory is the map of bytes. -/
abbrev SMap (α : Type) := List (Nat × α)

end Sys2Proof
end

