-- ==== Sys2Proof/Syntax.lean ====
section
/-! DEFINITION. The instructions and events of the VJ-5120: one constructor per row of spec/opcode_table.json.

An instruction word carries the tag of its engine, four dependence bits and a major opcode (R76, Table 3-5). A
shared-subset instruction has the engine `t` as its first operand; a private one belongs to the engine of its map
(R82 to R84). `p` holds the dependence bits [29:26] (R77). The other operands are the instruction's fields, as the
encoding tables of spec/ name them. The events are the steps of the table that no word encodes: the acts of the host,
the tundishes, the ladles, the walkers and the other units, each with the numbers that say which unit acts. -/

namespace Sys2Proof

/-- The four program-counter engines of a core (R1, R76). -/
inductive Eng where
  | C | A | X | F
  deriving DecidableEq, Repr, Inhabited

/-- Which part of an eight-byte register a host access touches (R376). -/
inductive HalfSel where
  | whole | low | high
  deriving DecidableEq, Repr, Inhabited

/-- What a host access names: an offset in one of the three BARs (R374), the host's own memory, or the configuration of a link's
function, of which only AtomicOp Requester Enable is modelled (R375), or a byte of the MSI-X table (R374); `bar0Half` is an access of 4 bytes
(R376). -/
inductive HostTarget where
  | bar0 (off : Nat) | bar0Half (off : Nat) | bar2 (off : Nat) | bar4 (off : Nat) | hostMem (addr : Nat) | config (l : Nat) | msix (off : Nat)
  deriving DecidableEq, Repr, Inhabited

/-- A unit that asks for translations (R151, R152). Conductor core c is core 1024 + c. -/
inductive Client where
  | coreC (k : Nat) | coreA (k : Nat) | ladle (l : Nat) | loader (d : Nat) | tundish (d : Nat) | shakeout (d : Nat)
  deriving DecidableEq, Repr, Inhabited

/-- A unit that a machine check can name (Table 19-3, UNIT). -/
inductive UnitId where
  | core (k : Nat) | ladle (l : Nat) | walker (d : Nat) | bank (b : Nat) | channel (c : Nat) | tundish (d : Nat) | shakeout (d : Nat)
  deriving DecidableEq, Repr, Inhabited

/-- What a peer device's request does at its location (R121, R309). -/
inductive PeerOp where
  | read | write (bytes : Nat) | atomic (op : Nat) (w32 : Bool)
  deriving DecidableEq, Repr, Inhabited

/-- What is offered as firmware (R381): an image, the public key that it carries, and its signature (r, s). -/
structure Firmware where
  image : List Byte
  key : List Byte
  r : Nat
  s : Nat
  deriving DecidableEq, Repr, Inhabited

/-- The instructions and events, one constructor per row of spec/opcode_table.json. -/
inductive Instr where
  /-- NOP. Shared-subset no-operation that acts only on its dependence bits (R100) -/
  | nop (t : Eng) (p : BitVec 4)
  /-- DONE. Ends the executing engine's walk after acting on its dependence bits, discarding its loops and return entries; the last DONE runs the residue check (R100) -/
  | done (t : Eng) (p : BitVec 4)
  /-- B. Unconditional branch by a signed 19-bit word offset (R103) -/
  | b (t : Eng) (p : BitVec 4) (off19 : BitVec 19)
  /-- CALL. Pushes the return address on the return store and branches; traps on overflow (R103) -/
  | call (t : Eng) (p : BitVec 4) (off19 : BitVec 19)
  /-- RET. Pops the return store into the program counter; traps on underflow (R103) -/
  | ret (t : Eng) (p : BitVec 4)
  /-- BTK. Waits for a filled queue head and, when it is terminal, removes it and branches (R105) -/
  | btk (t : Eng) (p : BitVec 4) (q : BitVec 5) (imm14 : BitVec 14)
  /-- BRKL. Pops the innermost hardware loop and continues at its end word (R108) -/
  | brkl (t : Eng) (p : BitVec 4)
  /-- BEQ. Branches when the two registers are equal (R104) -/
  | beq (t : Eng) (p : BitVec 4) (gx gy : BitVec 5) (imm9 : BitVec 9)
  /-- BNE. Branches when the two registers differ (R104) -/
  | bne (t : Eng) (p : BitVec 4) (gx gy : BitVec 5) (imm9 : BitVec 9)
  /-- BLT. Branches when gd is less than ga, signed (R104) -/
  | blt (t : Eng) (p : BitVec 4) (gx gy : BitVec 5) (imm9 : BitVec 9)
  /-- BGE. Branches when gd is at least ga, signed (R104) -/
  | bge (t : Eng) (p : BitVec 4) (gx gy : BitVec 5) (imm9 : BitVec 9)
  /-- BLO. Branches when gd is less than ga, natural (R104) -/
  | blo (t : Eng) (p : BitVec 4) (gx gy : BitVec 5) (imm9 : BitVec 9)
  /-- BHS. Branches when gd is at least ga, natural (R104) -/
  | bhs (t : Eng) (p : BitVec 4) (gx gy : BitVec 5) (imm9 : BitVec 9)
  /-- LOOP. Pushes a hardware loop with its trip count taken from a register (R106) -/
  | loop (t : Eng) (p : BitVec 4) (ga : BitVec 5) (imm9 : BitVec 9)
  /-- LOOPI. Pushes a hardware loop with an immediate trip count (R106) -/
  | loopi (t : Eng) (p : BitVec 4) (n : BitVec 10) (imm9 : BitVec 9)
  /-- ADD. 64-bit sum of ga and gb (R109) -/
  | add (t : Eng) (p : BitVec 4) (gd ga gb : BitVec 5)
  /-- SUB. 64-bit difference of ga and gb (R109) -/
  | sub (t : Eng) (p : BitVec 4) (gd ga gb : BitVec 5)
  /-- MUL. Low 64 bits of the product (R109) -/
  | mul (t : Eng) (p : BitVec 4) (gd ga gb : BitVec 5)
  /-- MULH. High 64 bits of the signed 128-bit product (R109) -/
  | mulh (t : Eng) (p : BitVec 4) (gd ga gb : BitVec 5)
  /-- AND. Bitwise AND (R109) -/
  | andg (t : Eng) (p : BitVec 4) (gd ga gb : BitVec 5)
  /-- OR. Bitwise OR (R109) -/
  | org (t : Eng) (p : BitVec 4) (gd ga gb : BitVec 5)
  /-- XOR. Bitwise XOR (R109) -/
  | xorg (t : Eng) (p : BitVec 4) (gd ga gb : BitVec 5)
  /-- SHL. Shift left by gb[5:0] (R109) -/
  | shl (t : Eng) (p : BitVec 4) (gd ga gb : BitVec 5)
  /-- SHR. Logical shift right by gb[5:0] (R109) -/
  | shr (t : Eng) (p : BitVec 4) (gd ga gb : BitVec 5)
  /-- SRA. Arithmetic shift right by gb[5:0] (R109) -/
  | sra (t : Eng) (p : BitVec 4) (gd ga gb : BitVec 5)
  /-- SLT. Sets 1 when ga is less than gb, signed (R109) -/
  | slt (t : Eng) (p : BitVec 4) (gd ga gb : BitVec 5)
  /-- SLTN. Sets 1 when ga is less than gb, natural (R109) -/
  | sltn (t : Eng) (p : BitVec 4) (gd ga gb : BitVec 5)
  /-- MIN. Signed minimum (R109) -/
  | min (t : Eng) (p : BitVec 4) (gd ga gb : BitVec 5)
  /-- MAX. Signed maximum (R109) -/
  | max (t : Eng) (p : BitVec 4) (gd ga gb : BitVec 5)
  /-- MOV. Copies ga to gd (R109) -/
  | mov (t : Eng) (p : BitVec 4) (gd ga : BitVec 5)
  /-- ADDI. Adds a sign-extended 9-bit immediate (R110) -/
  | addi (t : Eng) (p : BitVec 4) (gd ga : BitVec 5) (imm9 : BitVec 9)
  /-- ANDI. ANDs with a sign-extended 9-bit immediate (R110) -/
  | andi (t : Eng) (p : BitVec 4) (gd ga : BitVec 5) (imm9 : BitVec 9)
  /-- ORI. ORs with a sign-extended 9-bit immediate (R110) -/
  | ori (t : Eng) (p : BitVec 4) (gd ga : BitVec 5) (imm9 : BitVec 9)
  /-- XORI. XORs with a sign-extended 9-bit immediate (R110) -/
  | xori (t : Eng) (p : BitVec 4) (gd ga : BitVec 5) (imm9 : BitVec 9)
  /-- SHLI. Shift left by an immediate amount (R110) -/
  | shli (t : Eng) (p : BitVec 4) (gd ga : BitVec 5) (sh : BitVec 6)
  /-- SHRI. Logical shift right by an immediate amount (R110) -/
  | shri (t : Eng) (p : BitVec 4) (gd ga : BitVec 5) (sh : BitVec 6)
  /-- SRAI. Arithmetic shift right by an immediate amount (R110) -/
  | srai (t : Eng) (p : BitVec 4) (gd ga : BitVec 5) (sh : BitVec 6)
  /-- SPL. Loads a register from the engine's spill window (R112) -/
  | spl (t : Eng) (p : BitVec 4) (gd : BitVec 5) (imm14 : BitVec 14)
  /-- SPS. Stores a register to the engine's spill window (R112) -/
  | sps (t : Eng) (p : BitVec 4) (gd : BitVec 5) (imm14 : BitVec 14)
  /-- SVRA. Moves the oldest n return-store entries to spill memory (R113) -/
  | svra (t : Eng) (p : BitVec 4) (n : BitVec 5) (imm14 : BitVec 14)
  /-- LDRA. Reloads n return-store entries from spill memory below the existing ones (R113) -/
  | ldra (t : Eng) (p : BitVec 4) (n : BitVec 5) (imm14 : BitVec 14)
  /-- WAITT. Pops n tokens from a token FIFO before issue (R114) -/
  | waitt (t : Eng) (p : BitVec 4) (f : BitVec 5) (n : BitVec 6)
  /-- SIGT. Pushes n tokens to a token FIFO at retirement (R114) -/
  | sigt (t : Eng) (p : BitVec 4) (f : BitVec 5) (n : BitVec 6)
  /-- QDROP. Discards queue entries, either a count or through the first terminal entry (R115) -/
  | qdrop (t : Eng) (p : BitVec 4) (q : BitVec 5) (imm14 : BitVec 14)
  /-- LI. Two-word load of a 46-bit signed immediate (R111) -/
  | li (t : Eng) (p : BitVec 4) (gd : BitVec 5) (immh : BitVec 14) (imml : BitVec 32)
  /-- CSRR. Reads a control and status register, clearing RC fields (R128) -/
  | csrr (p : BitVec 4) (gd : BitVec 5) (csr : BitVec 14)
  /-- CSRW. Writes a CSR field by field according to its access codes (R128) -/
  | csrw (p : BitVec 4) (gd : BitVec 5) (csr : BitVec 14)
  /-- CSRS. Sets bits of the RW fields of a CSR (R128) -/
  | csrs (p : BitVec 4) (gd : BitVec 5) (csr : BitVec 14)
  /-- CSRC. Clears bits of the RW fields of a CSR (R128) -/
  | csrc (p : BitVec 4) (gd : BitVec 5) (csr : BitVec 14)
  /-- AMOADD_ACQ. Atomic add at the location's point of serialisation, then refresh (R121) -/
  | amoaddAcq (p : BitVec 4) (gd ga gb : BitVec 5) (w32 : BitVec 1)
  /-- AMOADD_REL. Publishes pending stores, then atomic add (R121) -/
  | amoaddRel (p : BitVec 4) (gd ga gb : BitVec 5) (w32 : BitVec 1)
  /-- AMOADD_AR. Publish, atomic add, then refresh (R121) -/
  | amoaddAr (p : BitVec 4) (gd ga gb : BitVec 5) (w32 : BitVec 1)
  /-- AMOAND_ACQ. Atomic AND with acquire ordering (R121) -/
  | amoandAcq (p : BitVec 4) (gd ga gb : BitVec 5) (w32 : BitVec 1)
  /-- AMOAND_REL. Atomic AND with release ordering (R121) -/
  | amoandRel (p : BitVec 4) (gd ga gb : BitVec 5) (w32 : BitVec 1)
  /-- AMOAND_AR. Atomic AND with acquire-release ordering (R121) -/
  | amoandAr (p : BitVec 4) (gd ga gb : BitVec 5) (w32 : BitVec 1)
  /-- AMOOR_ACQ. Atomic OR with acquire ordering (R121) -/
  | amoorAcq (p : BitVec 4) (gd ga gb : BitVec 5) (w32 : BitVec 1)
  /-- AMOOR_REL. Atomic OR with release ordering (R121) -/
  | amoorRel (p : BitVec 4) (gd ga gb : BitVec 5) (w32 : BitVec 1)
  /-- AMOOR_AR. Atomic OR with acquire-release ordering (R121) -/
  | amoorAr (p : BitVec 4) (gd ga gb : BitVec 5) (w32 : BitVec 1)
  /-- AMOMIN_ACQ. Atomic signed minimum with acquire ordering (R121) -/
  | amominAcq (p : BitVec 4) (gd ga gb : BitVec 5) (w32 : BitVec 1)
  /-- AMOMIN_REL. Atomic signed minimum with release ordering (R121) -/
  | amominRel (p : BitVec 4) (gd ga gb : BitVec 5) (w32 : BitVec 1)
  /-- AMOMIN_AR. Atomic signed minimum with acquire-release ordering (R121) -/
  | amominAr (p : BitVec 4) (gd ga gb : BitVec 5) (w32 : BitVec 1)
  /-- AMOMAX_ACQ. Atomic signed maximum with acquire ordering (R121) -/
  | amomaxAcq (p : BitVec 4) (gd ga gb : BitVec 5) (w32 : BitVec 1)
  /-- AMOMAX_REL. Atomic signed maximum with release ordering (R121) -/
  | amomaxRel (p : BitVec 4) (gd ga gb : BitVec 5) (w32 : BitVec 1)
  /-- AMOMAX_AR. Atomic signed maximum with acquire-release ordering (R121) -/
  | amomaxAr (p : BitVec 4) (gd ga gb : BitVec 5) (w32 : BitVec 1)
  /-- AMOSWP_ACQ. Atomic swap with acquire ordering (R121) -/
  | amoswpAcq (p : BitVec 4) (gd ga gb : BitVec 5) (w32 : BitVec 1)
  /-- AMOSWP_REL. Atomic swap with release ordering (R121) -/
  | amoswpRel (p : BitVec 4) (gd ga gb : BitVec 5) (w32 : BitVec 1)
  /-- AMOSWP_AR. Atomic swap with acquire-release ordering (R121) -/
  | amoswpAr (p : BitVec 4) (gd ga gb : BitVec 5) (w32 : BitVec 1)
  /-- AMOCAS_ACQ. Atomic compare-and-swap with acquire ordering (R121) -/
  | amocasAcq (p : BitVec 4) (gd ga gb : BitVec 5) (w32 : BitVec 1)
  /-- AMOCAS_REL. Atomic compare-and-swap with release ordering (R121) -/
  | amocasRel (p : BitVec 4) (gd ga gb : BitVec 5) (w32 : BitVec 1)
  /-- AMOCAS_AR. Atomic compare-and-swap with acquire-release ordering (R121) -/
  | amocasAr (p : BitVec 4) (gd ga gb : BitVec 5) (w32 : BitVec 1)
  /-- FENCE_ACQ. Refreshes the core's snapshot after every earlier C instruction has retired (R123) -/
  | fenceAcq (p : BitVec 4)
  /-- FENCE_REL. Publishes the store buffer to the outbound queue and retires without waiting (R123) -/
  | fenceRel (p : BitVec 4)
  /-- PHASE. Runs the residue check, publishes and arrives at the domain of the given level, then stalls until the boundary (R124) -/
  | phase (p : BitVec 4) (lvl : BitVec 3)
  /-- TRAP. Raises a class 5 software trap with the immediate code (R132) -/
  | trap (p : BitVec 4) (code : BitVec 14)
  /-- ERET. Returns from the local handler to TEPC, discarding loops pushed since entry (R132) -/
  | eret (p : BitVec 4)
  /-- WFE. Waits until EVT is set or the wait is otherwise ended, then clears EVT (R133) -/
  | wfe (p : BitVec 4)
  /-- FADD. FP32 addition rounded to nearest even (R125) -/
  | fadd (p : BitVec 4) (gd ga gb : BitVec 5)
  /-- FSUB. FP32 subtraction (R125) -/
  | fsub (p : BitVec 4) (gd ga gb : BitVec 5)
  /-- FMUL. FP32 multiplication (R125) -/
  | fmul (p : BitVec 4) (gd ga gb : BitVec 5)
  /-- FMIN. FP32 minimum (R125) -/
  | fmin (p : BitVec 4) (gd ga gb : BitVec 5)
  /-- FMAX. FP32 maximum (R125) -/
  | fmax (p : BitVec 4) (gd ga gb : BitVec 5)
  /-- FEQ. FP32 equality compare (R125) -/
  | feq (p : BitVec 4) (gd ga gb : BitVec 5)
  /-- FLT. FP32 less-than compare (R125) -/
  | flt (p : BitVec 4) (gd ga gb : BitVec 5)
  /-- FLE. FP32 less-or-equal compare (R125) -/
  | fle (p : BitVec 4) (gd ga gb : BitVec 5)
  /-- FCVT. Converts the low bits of ga from the source type to the destination type (R126) -/
  | fcvt (p : BitVec 4) (gd ga : BitVec 5) (t2 t1 : BitVec 4)
  /-- WQPUSH. Reads a record and pushes it to a device-fed work queue, releasing, or is held in the overflow state (R135) -/
  | wqpush (p : BitVec 4) (gd ga gb : BitVec 5)
  /-- SPAWN. Enters a segment read from a record into the pool, inheriting the spawner's chain (R329) -/
  | spawn (p : BitVec 4) (gd gb : BitVec 5)
  /-- RESOLVE. Resolves a condition variable, trains the predictor, prunes losers and renormalises winners (R331) -/
  | resolve (p : BitVec 4) (gd ga : BitVec 5) (v : BitVec 1)
  /-- CVNEW. Allocates the lowest-numbered free condition variable (R325) -/
  | cvnew (p : BitVec 4) (gd : BitVec 5)
  /-- CVFREE. Frees a resolved condition variable of the partition or sets CVERR (R325) -/
  | cvfree (p : BitVec 4) (ga : BitVec 5)
  /-- YIELD. Gives up the core, saving the segment and returning it to the pool (R335) -/
  | yield (p : BitVec 4)
  /-- MBSEND. Appends a 32-byte message to a conductor mailbox, waiting for room, as a release (R134) -/
  | mbsend (p : BitVec 4) (gd ga gb : BitVec 5)
  /-- MBRECV. Takes the head message of a conductor mailbox into the store buffer, as an acquire (R134) -/
  | mbrecv (p : BitVec 4) (gd ga gb : BitVec 5)
  /-- MBPOLL. Returns the filled or free entries of a conductor mailbox (R134) -/
  | mbpoll (p : BitVec 4) (gd ga gb : BitVec 5)
  /-- NESTW. Writes two doublewords of the shadow loop-nest table (R137) -/
  | nestw (p : BitVec 4) (gd ga gb : BitVec 5)
  /-- NGO. Validates the shadow table, swaps the tables and starts the nest (R138) -/
  | ngo (p : BitVec 4)
  /-- NWAIT. Waits until the matrix array is idle (R138) -/
  | nwait (p : BitVec 4)
  /-- FMTQ. Pushes a format word onto the format queue, waiting while it is full (R137) -/
  | fmtq (p : BitVec 4) (ga : BitVec 5)
  /-- TLBIR. Publishes pending stores, then invalidates translations of a range in every cache of the partition (R139) -/
  | tlbir (p : BitVec 4) (gd ga gb : BitVec 5)
  /-- TLBACK. Waits for the acknowledgement of earlier TLBIRs, then refreshes the snapshot (R140) -/
  | tlback (p : BitVec 4)
  /-- LD. Two-word load from the core's snapshot and its own pending stores (R120) -/
  | ld (p : BitVec 4) (gd ga : BitVec 5) (sz : BitVec 4) (off : BitVec 32)
  /-- ST. Two-word store appended to the store buffer (R120) -/
  | st (p : BitVec 4) (ga gb : BitVec 5) (sz : BitVec 4) (off : BitVec 32)
  /-- FFMA. Two-word FP32 fused multiply-add with one rounding (R125) -/
  | ffma (p : BitVec 4) (gd ga gb gc : BitVec 5)
  /-- SPAWNC. Two-word conditional spawn entering a speculative segment valid on one side of a condition (R329) -/
  | spawnc (p : BitVec 4) (gd ga gb : BitVec 5) (pr : BitVec 16) (side : BitVec 1)
  /-- LDQ. Pushes one 512-byte entry read from scratchpad, a ring or expanded VBC blocks to a load queue (R174) -/
  | ldq (p : BitVec 4) (rg : BitVec 1) (gd ga q : BitVec 5) (xe xc : BitVec 1) (aty : BitVec 4) (imm18 : BitVec 18)
  /-- LDQ_TERM. Pushes a terminal entry to a load queue (R174) -/
  | ldqTerm (p : BitVec 4) (q : BitVec 5) (xe xc : BitVec 1)
  /-- STQ. Pops a store-queue entry and writes its bytes to scratchpad or a ring (R175) -/
  | stq (p : BitVec 4) (rg : BitVec 1) (gd ga q : BitVec 5) (xc : BitVec 1) (imm18 : BitVec 18)
  /-- RINIT. Initialises a scratchpad ring after the array and outstanding COPYs are done with it (R170) -/
  | rinit (p : BitVec 4) (ga gb q : BitVec 5) (pe : BitVec 1) (n1 : BitVec 10)
  /-- RADV_HEAD. Advances a ring's HEAD by n (R172) -/
  | radvHead (p : BitVec 4) (q : BitVec 5) (imm18 : BitVec 18)
  /-- RADV_TAIL. Advances a ring's TAIL by n (R172) -/
  | radvTail (p : BitVec 4) (q : BitVec 5) (imm18 : BitVec 18)
  /-- RWAIT_HEAD. Waits until a ring holds at least n filled slots (R172) -/
  | rwaitHead (p : BitVec 4) (q : BitVec 5) (imm18 : BitVec 18)
  /-- RWAIT_TAIL. Waits until a ring holds at least n free slots (R172) -/
  | rwaitTail (p : BitVec 4) (q : BitVec 5) (imm18 : BitVec 18)
  /-- SWZ. Sets the pitch and span of a ring's swizzled layout (R171) -/
  | swz (p : BitVec 4) (ga q : BitVec 5) (span : BitVec 3)
  /-- GLD. Copies bytes from virtual memory to scratchpad or a ring (R179) -/
  | gld (p : BitVec 4) (rg : BitVec 1) (gd ga gb : BitVec 5) (imm18 : BitVec 18)
  /-- GST. Appends scratchpad bytes to the store buffer as 16-byte stores (R179) -/
  | gst (p : BitVec 4) (rg : BitVec 1) (gd ga gb : BitVec 5) (imm18 : BitVec 18)
  /-- LCHAIN. Hands a chain to a ladle's queue as a release and returns a ticket (R184) -/
  | lchain (p : BitVec 4) (gd ga : BitVec 5) (lad : BitVec 1)
  /-- PREFT. Asks tier controllers to replicate the read-only pages of a range (R180) -/
  | preft (p : BitVec 4) (ga gb : BitVec 5) (dies : BitVec 4)
  /-- SHDW_DEF. Defines and arms a publish-map handle with a window and twin (R182) -/
  | shdwDef (p : BitVec 4) (gd ga gb : BitVec 5) (imm18 : BitVec 18)
  /-- SHDW_ARM. Arms a defined handle for the work (R182) -/
  | shdwArm (p : BitVec 4) (gd : BitVec 5)
  /-- SHDW_FREE. Frees a defined, unarmed handle owned by the work (R182) -/
  | shdwFree (p : BitVec 4) (gd : BitVec 5)
  /-- PUBL. Releases pending stores and flips the handle's current side (R183) -/
  | publ (p : BitVec 4) (ga : BitVec 5)
  /-- ASTAT_ECUR. Reads the expand cursor (R194) -/
  | astatEcur (p : BitVec 4) (gd : BitVec 5)
  /-- ASTAT_SCUR. Reads the store cursor (R194) -/
  | astatScur (p : BitVec 4) (gd : BitVec 5)
  /-- ASTAT_SETEC. Sets the expand cursor (R194) -/
  | astatSetec (p : BitVec 4) (ga : BitVec 5)
  /-- ASTAT_SETSC. Sets the store cursor (R194) -/
  | astatSetsc (p : BitVec 4) (ga : BitVec 5)
  /-- ASTAT_RING. Reads a ring's TAIL and HEAD (R194) -/
  | astatRing (p : BitVec 4) (gd : BitVec 5) (rk : BitVec 4)
  /-- ASTAT_SWAIT. Waits on a cluster semaphore, takes the count and acquires (R194) -/
  | astatSwait (p : BitVec 4) (gd : BitVec 5) (n : BitVec 10) (sem : BitVec 8)
  /-- ASTAT_SSIG. Signals a cluster semaphore as a release, optionally poisoned (R194) -/
  | astatSsig (p : BitVec 4) (gd : BitVec 5) (po : BitVec 1) (n : BitVec 10) (sem : BitVec 8)
  /-- ASTAT_SREAD. Reads a cluster semaphore's COUNT, POISON and OVF (R194) -/
  | astatSread (p : BitVec 4) (gd : BitVec 5) (sem : BitVec 8)
  /-- ASTAT_SSET. Sets a cluster semaphore's COUNT and clears POISON and OVF (R194) -/
  | astatSset (p : BitVec 4) (ga : BitVec 5) (sem : BitVec 8)
  /-- ASTAT_CHAIN. Reads the state of the chain named by a ticket (R194) -/
  | astatChain (p : BitVec 4) (gd ga : BitVec 5)
  /-- KVW. Appends one KV entry and files it on the wheel (R210) -/
  | kvw (p : BitVec 4) (gd ga gb : BitVec 5) (imm18 : BitVec 18)
  /-- KVRN. Renews an entry's expiry, copying it on renew from an ancestor when needed (R211) -/
  | kvrn (p : BitVec 4) (gd ga gb : BitVec 5)
  /-- KVADV. Moves COMMIT forward and queues a drain request (R212) -/
  | kvadv (p : BitVec 4) (ga gb : BitVec 5)
  /-- KVRWD. Rewinds the speculative tail of a context (R214) -/
  | kvrwd (p : BitVec 4) (ga gb : BitVec 5)
  /-- KVFORK. Opens a root context or forks a child from a parent (R208) -/
  | kvfork (p : BitVec 4) (ga gb : BitVec 5)
  /-- KVEND. Ends a context, freeing its pages, or marks it ending while children live (R209) -/
  | kvend (p : BitVec 4) (ga : BitVec 5)
  /-- KVGATH. Pins the context and gathers the view at a query position into rings, group by group (R216) -/
  | kvgath (p : BitVec 4) (gd ga gb q : BitVec 5) (vr : BitVec 4) (pp : BitVec 1) (pr : BitVec 4)
  /-- KVSTAT. Reads one doubleword of a context record (R217) -/
  | kvstat (p : BitVec 4) (gd ga : BitVec 5) (n : BitVec 4)
  /-- KVSTAT_DRAIN. Waits until the context is drained or its drains halt, then reads doubleword 10 (R217) -/
  | kvstatDrain (p : BitVec 4) (gd ga : BitVec 5)
  /-- VADD. Element-wise addition (R245) -/
  | vadd (p : BitVec 4) (sat : BitVec 1) (vd va vb : BitVec 6) (ex : BitVec 3) (mk : BitVec 1) (ty : BitVec 4)
  /-- VSUB. Element-wise subtraction (R245) -/
  | vsub (p : BitVec 4) (sat : BitVec 1) (vd va vb : BitVec 6) (ex : BitVec 3) (mk : BitVec 1) (ty : BitVec 4)
  /-- VMUL. Element-wise multiplication (R245) -/
  | vmul (p : BitVec 4) (sat : BitVec 1) (vd va vb : BitVec 6) (ex : BitVec 3) (mk : BitVec 1) (ty : BitVec 4)
  /-- VFMA. Element-wise fused multiply-add (R245) -/
  | vfma (p : BitVec 4) (sat : BitVec 1) (vd va vb vc : BitVec 6) (ex : BitVec 3) (mk : BitVec 1) (ty : BitVec 4)
  /-- VFMS. Element-wise fused multiply-subtract (R245) -/
  | vfms (p : BitVec 4) (sat : BitVec 1) (vd va vb vc : BitVec 6) (ex : BitVec 3) (mk : BitVec 1) (ty : BitVec 4)
  /-- VMIN. Element-wise minimum (R245) -/
  | vmin (p : BitVec 4) (vd va vb : BitVec 6) (ex : BitVec 3) (mk : BitVec 1) (ty : BitVec 4)
  /-- VMAX. Element-wise maximum (R245) -/
  | vmax (p : BitVec 4) (vd va vb : BitVec 6) (ex : BitVec 3) (mk : BitVec 1) (ty : BitVec 4)
  /-- VABS. Element-wise absolute value (R245) -/
  | vabs (p : BitVec 4) (sat : BitVec 1) (vd va : BitVec 6) (ex : BitVec 3) (mk : BitVec 1) (ty : BitVec 4)
  /-- VNEG. Element-wise negation (R245) -/
  | vneg (p : BitVec 4) (sat : BitVec 1) (vd va : BitVec 6) (ex : BitVec 3) (mk : BitVec 1) (ty : BitVec 4)
  /-- VAND. Element-wise bitwise AND (R245) -/
  | vand (p : BitVec 4) (vd va vb : BitVec 6) (ex : BitVec 3) (mk : BitVec 1) (ty : BitVec 4)
  /-- VOR. Element-wise bitwise OR (R245) -/
  | vor (p : BitVec 4) (vd va vb : BitVec 6) (ex : BitVec 3) (mk : BitVec 1) (ty : BitVec 4)
  /-- VXOR. Element-wise bitwise XOR (R245) -/
  | vxor (p : BitVec 4) (vd va vb : BitVec 6) (ex : BitVec 3) (mk : BitVec 1) (ty : BitVec 4)
  /-- VNOT. Element-wise bitwise NOT (R245) -/
  | vnot (p : BitVec 4) (vd va : BitVec 6) (ex : BitVec 3) (mk : BitVec 1) (ty : BitVec 4)
  /-- VSHL. Element-wise shift left (R246) -/
  | vshl (p : BitVec 4) (im : BitVec 1) (n vd va vb : BitVec 6) (ex : BitVec 3) (mk : BitVec 1) (ty : BitVec 4)
  /-- VSHR. Element-wise logical shift right (R246) -/
  | vshr (p : BitVec 4) (im : BitVec 1) (n vd va vb : BitVec 6) (ex : BitVec 3) (mk : BitVec 1) (ty : BitVec 4)
  /-- VSRA. Element-wise arithmetic shift right (R246) -/
  | vsra (p : BitVec 4) (im : BitVec 1) (n vd va vb : BitVec 6) (ex : BitVec 3) (mk : BitVec 1) (ty : BitVec 4)
  /-- VCMP. Element-wise compare writing all ones or zero (R247) -/
  | vcmp (p : BitVec 4) (cc : BitVec 3) (vd va vb : BitVec 6) (ex : BitVec 3) (mk : BitVec 1) (ty : BitVec 4)
  /-- VSEL. Element-wise select by the selector's bit pattern (R248) -/
  | vsel (p : BitVec 4) (vd va vb vc : BitVec 6) (ex : BitVec 3) (mk : BitVec 1) (ty : BitVec 4)
  /-- VMOV. Element-wise move (R248) -/
  | vmov (p : BitVec 4) (vd va : BitVec 6) (ex : BitVec 3) (mk : BitVec 1) (ty : BitVec 4)
  /-- VMOV_TERM. Pushes one terminal entry to an X-to-F queue (R248) -/
  | vmovTerm (p : BitVec 4) (vd : BitVec 6) (ex : BitVec 3)
  /-- VBCAST. Broadcasts a scalar or a register element to every active element (R248) -/
  | vbcast (p : BitVec 4) (gs : BitVec 5) (lf : BitVec 1) (j : BitVec 13) (vd va : BitVec 6) (ex : BitVec 3) (mk : BitVec 1) (ty : BitVec 4)
  /-- VIOTA. Writes an arithmetic sequence (R248) -/
  | viota (p : BitVec 4) (gs : BitVec 5) (imm14 : BitVec 14) (vd : BitVec 6) (ex : BitVec 3) (mk : BitVec 1) (ty : BitVec 4)
  /-- VCVT. Converts elements element-wise, widening or narrowing (R249) -/
  | vcvt (p : BitVec 4) (st : BitVec 4) (vd va : BitVec 6) (ex : BitVec 3) (mk : BitVec 1) (ty : BitVec 4)
  /-- VPERM. Permutes bytes by an index pair (R250) -/
  | vperm (p : BitVec 4) (vd va vb : BitVec 6) (ex : BitVec 3) (mk : BitVec 1) (ty : BitVec 4)
  /-- VNIB. Splits nibbles into bytes across a pair (R251) -/
  | vnib (p : BitVec 4) (vd va : BitVec 6) (ex : BitVec 3) (mk : BitVec 1) (ty : BitVec 4)
  /-- VZIP. Interleaves two registers into a sequential pair (R252) -/
  | vzip (p : BitVec 4) (vd va vb : BitVec 6) (ex : BitVec 3) (mk : BitVec 1) (ty : BitVec 4)
  /-- VUNZIP. De-interleaves a sequential pair (R252) -/
  | vunzip (p : BitVec 4) (vd va : BitVec 6) (ex : BitVec 3) (mk : BitVec 1) (ty : BitVec 4)
  /-- VSLIDE. Slides the concatenation of two groups by a signed shift (R253) -/
  | vslide (p : BitVec 4) (gs : BitVec 5) (vd va vb : BitVec 6) (ex : BitVec 3) (mk : BitVec 1) (ty : BitVec 4)
  /-- VGATH. Gathers table elements by index (R254) -/
  | vgath (p : BitVec 4) (x32 : BitVec 1) (n1 : BitVec 3) (vd va vb : BitVec 6) (ex : BitVec 3) (mk : BitVec 1) (ty : BitVec 4)
  /-- VSCAT. Scatters elements into a table by index (R254) -/
  | vscat (p : BitVec 4) (x32 : BitVec 1) (n1 : BitVec 3) (vd va vb : BitVec 6) (ex : BitVec 3) (mk : BitVec 1) (ty : BitVec 4)
  /-- VBMP. Sets bitmap bits named by indices (R255) -/
  | vbmp (p : BitVec 4) (orr : BitVec 1) (n1 : BitVec 3) (vd va : BitVec 6) (ex : BitVec 3) (mk : BitVec 1) (ty : BitVec 4)
  /-- VPOPC. Counts nonzero elements or set mask bits into a register (R256) -/
  | vpopc (p : BitVec 4) (gs : BitVec 5) (mm : BitVec 1) (va : BitVec 6) (ex : BitVec 3) (mk : BitVec 1) (ty : BitVec 4)
  /-- VEXP2. Correctly rounded 2 to the x (R265) -/
  | vexp2 (p : BitVec 4) (vd va : BitVec 6) (ex : BitVec 3) (mk : BitVec 1) (ty : BitVec 4)
  /-- VLOG2. Correctly rounded log2 (R265) -/
  | vlog2 (p : BitVec 4) (vd va : BitVec 6) (ex : BitVec 3) (mk : BitVec 1) (ty : BitVec 4)
  /-- VRCPA. Truncated approximate reciprocal (R266) -/
  | vrcpa (p : BitVec 4) (vd va : BitVec 6) (ex : BitVec 3) (mk : BitVec 1) (ty : BitVec 4)
  /-- VRSQA. Truncated approximate reciprocal square root (R266) -/
  | vrsqa (p : BitVec 4) (vd va : BitVec 6) (ex : BitVec 3) (mk : BitVec 1) (ty : BitVec 4)
  /-- VRSUM. Tree sum reduction to a register (R267) -/
  | vrsum (p : BitVec 4) (gs : BitVec 5) (va : BitVec 6) (ex : BitVec 3) (mk : BitVec 1) (ty : BitVec 4)
  /-- VRMAX. Tree maximum reduction (R267) -/
  | vrmax (p : BitVec 4) (gs : BitVec 5) (va : BitVec 6) (ex : BitVec 3) (mk : BitVec 1) (ty : BitVec 4)
  /-- VRMIN. Tree minimum reduction (R267) -/
  | vrmin (p : BitVec 4) (gs : BitVec 5) (va : BitVec 6) (ex : BitVec 3) (mk : BitVec 1) (ty : BitVec 4)
  /-- VDRAW. Folds logits into one draw record by a heap-ordered merge tree (R271) -/
  | vdraw (p : BitVec 4) (idx : BitVec 1) (slot : BitVec 5) (vd va vb vc : BitVec 6) (ex : BitVec 3) (mk : BitVec 1) (ty : BitVec 4)
  /-- VDMERGE. Merges draw records pairwise or in one tree (R272) -/
  | vdmerge (p : BitVec 4) (tree : BitVec 1) (vd va vb vc : BitVec 6)
  /-- SELINIT. Initialises the selection unit (R274) -/
  | selinit (p : BitVec 4) (gs : BitVec 5) (mass dir : BitVec 1) (k1 : BitVec 8) (ty : BitVec 4)
  /-- SELFEED. Offers key-index pairs to the selection unit and folds leaf mass (R275) -/
  | selfeed (p : BitVec 4) (gs : BitVec 5) (va : BitVec 6) (ex : BitVec 3) (mk : BitVec 1) (ty : BitVec 4)
  /-- SELDRAIN. Writes the selection block, computing SLOW (R276) -/
  | seldrain (p : BitVec 4) (th : BitVec 14) (vd vc : BitVec 6)
  /-- SELMRG. Merges a selection block into the unit (R277) -/
  | selmrg (p : BitVec 4) (n1 : BitVec 3) (va : BitVec 6) (ty : BitVec 4)
  /-- VDOTQ. Scores rows against a query by dot product (R278) -/
  | vdotq (p : BitVec 4) (dim : BitVec 12) (vd va vb : BitVec 6) (ex : BitVec 3) (mk : BitVec 1) (ty : BitVec 4)
  /-- VL2Q. Scores rows against a query by squared distance (R278) -/
  | vl2q (p : BitVec 4) (dim : BitVec 12) (vd va vb : BitVec 6) (ex : BitVec 3) (mk : BitVec 1) (ty : BitVec 4)
  /-- MPUSH. Pushes a mask level formed by a condition (R258) -/
  | mpush (p : BitVec 4) (cc : BitVec 3) (va vb : BitVec 6) (ex : BitVec 3) (ty : BitVec 4)
  /-- MINV. Inverts the top mask against the level below (R258) -/
  | minv (p : BitVec 4)
  /-- MPOP. Pops a mask level (R258) -/
  | mpop (p : BitVec 4)
  /-- BMZ. Branches when the top mask is all zero (R259) -/
  | bmz (p : BitVec 4) (imm14 : BitVec 14)
  /-- EXTS. Writes an extent register (R257) -/
  | exts (p : BitVec 4) (gs : BitVec 5) (im : BitVec 1) (n : BitVec 13) (ex : BitVec 3) (ty : BitVec 4)
  /-- MLOOP. Runs a body through the modulo sequencer with overlapped iterations (R260) -/
  | mloop (p : BitVec 4) (gs : BitVec 5) (ii : BitVec 6) (endo : BitVec 12)
  /-- ZCNV. Converts rows of a held tile into one store-queue entry (R295) -/
  | zcnv (p : BitVec 4) (gs : BitVec 5) (zt : BitVec 7) (q : BitVec 5) (ty : BitVec 4) (rnd : BitVec 2) (rel sb : BitVec 1) (n1 off : BitVec 6)
  /-- ZCNV_TERM. Pushes a terminal entry to a store queue (R295) -/
  | zcnvTerm (p : BitVec 4) (q : BitVec 5)
  /-- ZCOMP. Compresses an fq entry into two VBC blocks (R296) -/
  | zcomp (p : BitVec 4) (fq : BitVec 1) (q : BitVec 5) (ty : BitVec 4)
  /-- ZCOMP_TERM. Pushes a terminal entry without popping (R296) -/
  | zcompTerm (p : BitVec 4) (q : BitVec 5)
  /-- ZCLR. Clears a held tile and releases it (R297) -/
  | zclr (p : BitVec 4) (zt : BitVec 7)
  /-- ZRD. Copies FP32 rows of a held tile without conversion (R295) -/
  | zrd (p : BitVec 4) (gs : BitVec 5) (zt : BitVec 7) (q : BitVec 5) (rel : BitVec 1) (n1 off : BitVec 6)
  /-- FPRT_TILE. Absorbs a held tile into the fingerprint state (R299) -/
  | fprtTile (p : BitVec 4) (zt : BitVec 7)
  /-- FPRT_PASS. Absorbs an fq entry and passes it on unchanged (R299) -/
  | fprtPass (p : BitVec 4) (fq : BitVec 1) (q : BitVec 5) (ty : BitVec 4)
  /-- FPRT_EMIT. Pushes a fingerprint completion record and resets the state (R299) -/
  | fprtEmit (p : BitVec 4) (q : BitVec 5)
  /-- FSQA. Pushes the row sums of squares of a held tile (R297) -/
  | fsqa (p : BitVec 4) (zt : BitVec 7) (q : BitVec 5) (rel : BitVec 1)
  /-- FSCL. Loads channel scales and biases from an fq entry (R298) -/
  | fscl (p : BitVec 4) (fq : BitVec 1)
  /-- FSCL_RNG. Loads the generator's KEY and CTR from an fq entry (R298) -/
  | fsclRng (p : BitVec 4) (fq : BitVec 1)
  /-- FMV. Passes an fq entry to a store queue with a given LEN (R300) -/
  | fmv (p : BitVec 4) (fq : BitVec 1) (q len : BitVec 5)
  /-- FMV_TERM. Pushes a terminal entry to a store queue (R300) -/
  | fmvTerm (p : BitVec 4) (q : BitVec 5)
  /-- FWAIT. Waits for a tile to be READY, takes it as HELD and returns its status (R301) -/
  | fwait (p : BitVec 4) (gs : BitVec 5) (zt : BitVec 7)
  /-- TILE_COMMAND. The array issues one tile command of the running nest, accumulating one step into a tile (R287) -/
  | tileCommand (k : Nat) (sumOk : Bool)
  /-- RING_ADVANCE. Once earlier reads complete and slots are filled, the array pops HEAD of its operand and scale rings (R288) -/
  | ringAdvance (k : Nat)
  /-- WQTAIL_WRITE. Host tail doorbell: accepted, ignored or halts with ERR 2; on a disabled queue it sets head and tail and writes the head word (R30) -/
  | wqtailWrite (q : Nat) (v : BitVec 64)
  /-- WQ_ENABLE. Writing WQCFG.EN from 0 to 1 checks the configuration and activates the queue or sets ERR 1 (R27) -/
  | wqEnable (q : Nat) (v : BitVec 64)
  /-- WQ_DISABLE. Writing WQCFG.EN to 0 stops dispatch and completes held pushes with status 1 (R27) -/
  | wqDisable (q : Nat) (v : BitVec 64)
  /-- PARTITION_ENABLE. Writing PARTCFG.EN from 0 to 1 checks the configuration and starts the domain phase numbers (R46) -/
  | partitionEnable (p : Nat) (v : BitVec 64)
  /-- PARTITION_DISABLE. Writing PARTCFG.EN to 0, when allowed, releases the partition's remaining resources in one step (R47) -/
  | partitionDisable (p : Nat) (v : BitVec 64)
  /-- TIERCTL_ENABLE. Writing TIERCTL.EN to 1 reads and checks the layer schedule header (R154) -/
  | tierctlEnable (p : Nat) (v : BitVec 64)
  /-- FLTACK. Resumes, or with DROP discards, every source halted by faults in records up to SEQ (R160) -/
  | fltack (p : Nat) (v : BitVec 64)
  /-- INVCMD_GO. Host-issued invalidation of a range under an ASID, acknowledged as TLBIR and TLBACK (R377) -/
  | invcmdGo (p : Nat) (v : BitVec 64)
  /-- PREEMPT_REQUEST. Setting PREEMPT.REQ starts pre-emption of a core's work or sets ERR (R363) -/
  | preemptRequest (p : Nat) (v : BitVec 64)
  /-- PREEMPT_SAVE. Once the engines have stopped and OB is empty, the work's state is written to a save slot and the core freed (R363) -/
  | preemptSave (p : Nat)
  /-- DESCHEDULE. Work waiting for a save slot takes the first one that frees and is descheduled (R364) -/
  | deschedule (p : Nat)
  /-- CONDUCTOR_START. Writing CONDCTL.EN while RUN is 0 checks the record and starts conductor work, or sets FLT (R338) -/
  | conductorStart (c : Nat) (v : BitVec 64)
  /-- TRPACK_RETRY. Re-issues the held instruction or command, or resumes as the machine check allows (R351) -/
  | trpackRetry (p : Nat) (v : BitVec 64)
  /-- TRPACK_ABORT. Ends held work without SIGM, discarding its store buffer (R351) -/
  | trpackAbort (p : Nat) (v : BitVec 64)
  /-- TRPACK_DISCARD. Removes residue for a class 10 trap, then acts as RETRY (R351) -/
  | trpackDiscard (p : Nat) (v : BitVec 64)
  /-- TRPACK_RESERVED. An acknowledgement with a reserved or disallowed action sets BADACT and leaves the work held (R351) -/
  | trpackReserved (p : Nat) (v : BitVec 64)
  /-- ATTEST_REQUEST. Writing 1 to mailbox offset 0xFF8 starts a signed attestation report (R382) -/
  | attestRequest
  /-- ATTEST_REPORT_COMPLETE. The signed report is written and offset 0xFF8 reads 2 (R382) -/
  | attestReportComplete
  /-- SPANSTAT_READ. Reading SPANSTAT returns and clears the RC retry count (R378) -/
  | spanstatRead (n : Nat)
  /-- REGISTER_WRITE. A host write to any register without a row of its own acts per the access codes of its fields (R10) -/
  | registerWrite (off : Nat) (v : BitVec 64) (half : HalfSel)
  /-- HOST_READ. A host read through a BAR acts on global memory at its point of serialisation (R310) -/
  | hostRead (t : HostTarget)
  /-- HOST_WRITE. A host posted write acts on global memory in 8-byte parts in PCI Express order (R308) -/
  | hostWrite (t : HostTarget) (v : BitVec 64) (n : Nat)
  /-- FRONT_REFILL. The tundish reads ring slots from the head into its front store, halting the queue on a translation fault (R32) -/
  | frontRefill (q : Nat)
  /-- PLACEMENT_GRANT. A free core is granted an iteration or segment: checks, WAITM decrement, text load and start registers (R41) -/
  | placementGrant (k : Nat)
  /-- NEST_EMPTY_RETIRE. A loop-nest record with an empty nest leaves its queue and retires at once, applying WAITM and SIGM (R19) -/
  | nestEmptyRetire (q : Nat)
  /-- SPEC_RECORD_MOVE. A speculative record at the queue front is moved into the segment pool when a place is free (R21) -/
  | specRecordMove (q : Nat)
  /-- POOL_TAKE. A free core with no eligible queue takes the pending segment of greatest likelihood (R58) -/
  | poolTake (k : Nat)
  /-- HEAD_WORD_WRITE. The device writes the queue's head index to the head word within 2 µs of advances (R31) -/
  | headWordWrite (q : Nat)
  /-- HELD_PUSH_ENQUEUE. On leaving the overflow state, held pushes are enqueued in arrival order and complete with status 0 (R38) -/
  | heldPushEnqueue (q : Nat)
  /-- WORK_RETIRE. Work retires once all engines are done and the residue check passes: publish, SIGM, leave active sets, core free (R101) -/
  | workRetire (k : Nat)
  /-- WORK_RESUME. Descheduled or pre-empted work is placed again and its save slot restored, or machine check 7 is raised (R365) -/
  | workResume (k : Nat)
  /-- PHASE_BOUNDARY. Once every member of a domain's active set has arrived and their OBs are empty, P advances and arrived cores refresh and resume (R53) -/
  | phaseBoundary (p : Nat) (lvl : Nat) (idx : Nat)
  /-- SLIP_BOUND_LIFT. When every live engine is stalled and one by the slip bound alone, the bound is lifted and DL set (R75) -/
  | slipBoundLift (k : Nat)
  /-- PERFORM. The oldest outbound-queue entry of a core is written to memory (R310) -/
  | perform (k : Nat)
  /-- DELIVER. An eligible beat in a reorder buffer is written to memory (R315) -/
  | deliver (i : Nat)
  /-- CHAIN_START. A ladle starts the next chain of its queue, taking its flow modes (R185) -/
  | chainStart (l : Nat)
  /-- COPY. Ladle COPY entry moves bytes, optionally expanding, swizzling, fingerprinting and advancing a ring (R186) -/
  | copy (l : Nat)
  /-- LADLE_LOOP. Ladle LOOP entry repeats the body, incrementing working addresses (R188) -/
  | ladleLoop (l : Nat)
  /-- COND. Ladle COND entry skips entries when its condition holds (R188) -/
  | cond (l : Nat)
  /-- SEMWAIT. Ladle entry waiting on a cluster semaphore (R189) -/
  | semwait (l : Nat)
  /-- SEMAPHORE_TAKE. The oldest waiter whose count is met takes it from the cluster semaphore, reporting POISON (R189) -/
  | semaphoreTake (cl : Nat) (sem : Nat)
  /-- SEMSIG. Ladle entry signalling a cluster semaphore, poisoned if the chain is bad (R189) -/
  | semsig (l : Nat)
  /-- LADLE_PUBL. Ladle PUBL entry releases the starting core's stores and flips a handle, or is withheld (R188) -/
  | ladlePubl (l : Nat)
  /-- FPRINT. Ladle entry fingerprinting bytes and optionally comparing with an expected record (R192) -/
  | fprint (l : Nat)
  /-- LADLE_END. Ladle END entry writes the chain record and sets the starting core's EVT (R191) -/
  | ladleEnd (l : Nat)
  /-- WALK. A walker serves a translation miss, walking the tree, setting A and D, filling or faulting (R151) -/
  | walk (cl : Client) (part : Nat) (asid : Nat) (va : BitVec 64) (wr : Bool)
  /-- MIGRATION_RETRY. Each 1 µs the walker re-reads an entry under migration (R151) -/
  | migrationRetry (i : Nat)
  /-- MIGRATION_TIMEOUT. After 64 µs of migration the walk raises cause 5 (R151) -/
  | migrationTimeout (i : Nat)
  /-- TLBIR_ACK. A TLBIR is acknowledged once caches, in-flight accesses, stores and replicas meet its conditions (R162) -/
  | tlbirAck (i : Nat)
  /-- REPLICATION. A tier controller copies a read-only D-stack page into its crucible as a replica (R155) -/
  | replication (d : Nat)
  /-- FAULT_RECORD_WRITE. A translation fault record is written to the fault ring when there is space, then MSI-X (R157) -/
  | faultRecordWrite (p : Nat)
  /-- FAULT_BATCH_CLOSE. 20 µs after its first fault a batch closes, is sorted, merged and written (R157) -/
  | faultBatchClose (p : Nat)
  /-- SHAKEOUT_DRAIN. The shakeout engine drains one wheel slot of a context once PIN is zero, reclaiming, holding or keeping records (R213) -/
  | shakeoutDrain (d : Nat)
  /-- TRAP_RECORD_WRITE. A delivered trap's record is written to the trap ring when there is space, then MSI-X (R349) -/
  | trapRecordWrite (p : Nat)
  /-- SELF_TEST_COMPLETE. A unit's self-test ends: transient errors replay in place, lasting ones fence the unit (R356) -/
  | selfTestComplete (u : UnitId) (passed : Bool)
  /-- FENCED_WORK_TIMEOUT. No core of the domain frees within 1 ms for fenced work, so a cause 6 record is written (R356) -/
  | fencedWorkTimeout (k : Nat)
  /-- PHASE_WATCHDOG. 1 ms after the first arrival with no boundary, machine check 5 records are written (R354) -/
  | phaseWatchdog (p : Nat) (lvl : Nat) (idx : Nat)
  /-- CORE_STALL_WATCHDOG. A core whose engines pass no instruction for 1 ms without a permitted wait raises machine check 5 (R354) -/
  | coreStallWatchdog (k : Nat)
  /-- PATROL_SCRUB. Periodic scrub of the crucible and D-stacks corrects or poisons lines (R354) -/
  | patrolScrub (line : Nat) (bad : Bool)
  /-- WFE_TIMEOUT. TMO cycles pass in WFE with no event and WFE retires (R133) -/
  | wfeTimeout (k : Nat)
  /-- THROTTLE_WINDOW. At each 64-pulse window boundary a new swallow count takes effect (R62) -/
  | throttleWindow (d : Nat)
  /-- POWER_MEASURE. Every 10 µs the package power controller adjusts the dies' PWR counts to meet LIMIT (R380) -/
  | powerMeasure (draw : List Nat) (n : List Nat)
  /-- THERMAL_SENSE. A die's junction temperature from 95 °C raises its THERM count (R380) -/
  | thermalSense (d : Nat) (n : Nat)
  /-- THERMAL_TRIP. At 115 °C the package removes its own power (R380) -/
  | thermalTrip
  /-- LINK_DOWN. A host link goes down; its traffic moves to the other link and DOWNEV is set (R375) -/
  | linkDown (l : Nat)
  /-- LINK_UP. A host link trains up and carries its dies' traffic again (R375) -/
  | linkUp (l : Nat) (rate : Nat) (width : Nat)
  /-- SPAN_PORT_DOWN. A SpanasLink port whose retry fails 64 times in a row goes down (R378) -/
  | spanPortDown (n : Nat)
  /-- PEER_ROUTE_TIMEOUT. After 1 ms without a route to a peer, accesses to it raise machine checks (R378) -/
  | peerRouteTimeout (rank : Nat)
  /-- DEVICE_RESET. Reset puts the device at stage 0 and clears fences and registers (R383) -/
  | deviceReset
  /-- BRINGUP_STAGE. A bring-up stage completes and STAGE advances (R383) -/
  | bringupStage (fw : Firmware)
  /-- PEER_REQUEST. A read, write or atomic from a peer device's core or ladle arrives over SpanasLink and acts on this device's global memory at its point of serialisation (R309) -/
  | peerRequest (op : PeerOp) (a : Nat) (v : BitVec 64) (u : BitVec 64)
  /-- SPAN_PORT_UP. A SpanasLink port comes up, sets UP in SPANSTAT and again carries routes to its peer (R378) -/
  | spanPortUp (n : Nat) (rank : Nat)
  /-- FLIT_RETRY. A SpanasLink flit fails its CRC, is retried at link level and adds one to the saturating SPANSTAT RETRY count (R378) -/
  | flitRetry (n : Nat)
  deriving DecidableEq, Repr, Inhabited

end Sys2Proof
end

