-- ==== Sys2Proof/WellFormed.lean ====
section
/-! DEFINITION. The limits on operand fields: for each instruction, the lowest illegal-instruction cause among 2, 3
and 4 that its field values earn (Table 3-19, R86, R99, R118, R166, R205, R244, R263, R293). Causes that fixed bits or
a reserved function code earn are the decoder's; cause 5 depends on the text and is the machine's. -/

namespace Sys2Proof

/-- The width in bits of an element type code 0 to 14 (Table 3-9). -/
def typeBits (ty : BitVec 4) : Nat :=
  match ty.toNat with
  | 0 | 4 | 8 => 4
  | 1 | 5 | 9 | 10 | 11 => 8
  | 2 | 6 | 12 | 13 => 16
  | _ => 32

/-- Elements of `w` bits in one 512-byte register (R238). -/
def epr (w : Nat) : Nat := 4096 / w

/-- The integer types of 8, 16 and 32 bits (R244, IA). -/
def isIA (ty : BitVec 4) : Bool := [1, 2, 3, 5, 6, 7].contains ty.toNat

/-- The float types `.f16`, `.bf16`, `.f32` (R244, FA). -/
def isFA (ty : BitVec 4) : Bool := 12 ≤ ty.toNat && ty.toNat ≤ 14

/-- The size of an engine's spill window in doublewords (R99). -/
def spillWords : Eng → Nat
  | .X => 5120
  | _ => 1024

/-- The consumer of queue code `q` (Table 4-4). -/
def queueConsumer (q : Nat) : Option Eng :=
  if q < 4 then some .X else if q < 6 then some .F else if q < 10 then some .A else none

/-- The producer and the consumer of each token FIFO (Table 4-2). -/
def fifoParties : Nat → Option (Eng × Eng)
  | 0 => some (.A, .X) | 1 => some (.X, .F) | 2 => some (.F, .A) | 3 => some (.X, .A)
  | 4 => some (.F, .X) | 5 => some (.A, .F) | 6 => some (.C, .A) | 7 => some (.C, .X)
  | 8 => some (.C, .F) | 9 => some (.A, .C) | 10 => some (.X, .C) | 11 => some (.F, .C)
  | _ => none

/-- The FIFOs that an instruction's dependence bits pop, one token each (Table 4-3, R91). -/
def depPops (e : Eng) (p : BitVec 4) : List Nat :=
  match e with
  | .C => match (p.extractLsb' 0 2).toNat with | 1 => [9] | 2 => [10] | 3 => [11] | _ => []
  | .A => (if p.getLsbD 3 then [2] else []) ++ (if p.getLsbD 1 then [3] else [])
  | .X => (if p.getLsbD 3 then [0] else []) ++ (if p.getLsbD 1 then [4] else [])
  | .F => (if p.getLsbD 3 then [1] else []) ++ (if p.getLsbD 1 then [5] else [])

/-- The FIFOs that an instruction's dependence bits push, one token each (Table 4-3, R91). -/
def depPushes (e : Eng) (p : BitVec 4) : List Nat :=
  match e with
  | .C => match (p.extractLsb' 2 2).toNat with | 1 => [6] | 2 => [7] | 3 => [8] | _ => []
  | .A => (if p.getLsbD 2 then [0] else []) ++ (if p.getLsbD 0 then [5] else [])
  | .X => (if p.getLsbD 2 then [1] else []) ++ (if p.getLsbD 0 then [3] else [])
  | .F => (if p.getLsbD 2 then [2] else []) ++ (if p.getLsbD 0 then [4] else [])

/-- Whether a number names a CSR of Table 5-5. -/
def isCsr (n : Nat) : Bool :=
  [0x000, 0x001, 0x008, 0x010, 0x011, 0x012, 0x013, 0x014, 0x020, 0x030, 0x040, 0x041, 0x042, 0x050].contains n
    || (0x100 ≤ n && n ≤ 0x11F)

namespace Illegal

/-- `c` when the condition holds: one reason to be illegal. -/
def on (b : Bool) (c : Nat) : List Nat := if b then [c] else []

/-- The lowest cause of a list (R86). -/
def least (l : List Nat) : Option Nat := l.foldl (fun a c => match a with | none => some c | some b => some (min b c)) none

/-- A ring number of an address form: the field is used by the ring form alone (R166). -/
def ringForm (rg : BitVec 1) (gd : BitVec 5) : List Nat :=
  on (rg = 0 && gd ≠ 0) 2 ++ on (rg = 1 && 16 ≤ gd.toNat) 3

/-- A queue named by BTK or QDROP is one the engine consumes (R99). -/
def consumed (t : Eng) (q : BitVec 5) : List Nat := on (queueConsumer q.toNat ≠ some t) 4

/-- A loop's end offset lies in 2 to 255 (R99). -/
def loopOff (i : BitVec 9) : List Nat := on (!(2 ≤ i.toInt && i.toInt ≤ 255)) 3

/-- WAITT and SIGT: the FIFO code, the engine's role in it, the count, and the total with a dependence bit (R90, R92). -/
def tokens (role : Option Eng) (t : Eng) (dep : List Nat) (f : BitVec 5) (n : BitVec 6) : List Nat :=
  on (12 ≤ f.toNat) 3 ++ on (n = 0) 3 ++ on (f.toNat < 12 && role ≠ some t) 4
    ++ on (63 < n.toNat + (dep.filter (· == f.toNat)).length) 3

/-- A window access of the return store: 1 to 16 entries inside the window (R99). -/
def window (t : Eng) (n : BitVec 5) (i : BitVec 14) : List Nat :=
  on (!(1 ≤ n.toNat && n.toNat ≤ 16 && i.toNat + n.toNat ≤ spillWords t)) 3

/-- An X destination code: a register or a push (R81). -/
def dst (v : BitVec 6) : List Nat := on (42 ≤ v.toNat) 3 ++ on (32 ≤ v.toNat && v.toNat < 40) 4

/-- An X source code: a register, a pop or a peek (R81). -/
def src (v : BitVec 6) : List Nat := on (42 ≤ v.toNat) 3 ++ on (40 ≤ v.toNat && v.toNat < 42) 4

/-- A reserved-zero use of a field. -/
def zero {w : Nat} (v : BitVec w) : List Nat := on (v ≠ 0) 2

/-- A type outside the listed ones (R244). -/
def types (ok : Bool) : List Nat := on (!ok) 3

/-- The saturate bit exists for the integer types alone (R244). -/
def satBit (sat : BitVec 1) (ty : BitVec 4) : List Nat := on (sat = 1 && !isIA ty) 2

/-- A type code other than the reserved 15. -/
def anyType (ty : BitVec 4) : List Nat := types (ty ≠ 15)

/-- The types that a condition of Table 11-5 takes, and its unused operand. -/
def condition (cc : BitVec 3) (vb : BitVec 6) (ty : BitVec 4) : List Nat :=
  match cc.toNat with
  | 7 => zero vb ++ anyType ty
  | 6 => src vb ++ types (isFA ty)
  | _ => src vb ++ types (ty.toNat ≤ 7 || isFA ty)

/-- A ring code of an A word (R166, R205). -/
def ring (q : BitVec 5) : List Nat := on (q.toNat < 16) 4

/-- A store-queue code (R166, R293). -/
def sq (q : BitVec 5) : List Nat := on (!(6 ≤ q.toNat && q.toNat ≤ 9)) 4

/-- A load-queue code (R166). -/
def lq (q : BitVec 5) : List Nat := on (4 ≤ q.toNat) 4

/-- A granule count of GLD and GST, and an advance of RADV and RWAIT (R166). -/
def count (n : BitVec 18) (top : Nat) : List Nat := on (!(1 ≤ n.toNat && n.toNat ≤ top)) 3

/-- The types of the selection unit (R263). -/
def selType (ty : BitVec 4) : List Nat := types (ty = 3 || ty = 7 || isFA ty)

/-- The reasons that the first word alone decides (R86). -/
def firstWord : Instr → List Nat
  | .btk t _ q _ | .qdrop t _ q _ => consumed t q
  | .loop _ _ _ i | .loopi _ _ _ i => loopOff i
  | .spl t _ _ i | .sps t _ _ i => on (spillWords t ≤ i.toNat) 3
  | .svra t _ n i | .ldra t _ n i => window t n i
  | .waitt t p f n => tokens ((fifoParties f.toNat).map (·.2)) t (depPops t p) f n
  | .sigt t p f n => tokens ((fifoParties f.toNat).map (·.1)) t (depPushes t p) f n
  | .csrr _ _ c | .csrw _ _ c | .csrs _ _ c | .csrc _ _ c => on (!isCsr c.toNat) 3
  | .phase _ l => on (5 ≤ l.toNat) 3
  | .fcvt _ _ _ t2 t1 => anyType t1 ++ anyType t2
  | .ld _ _ _ sz _ => on (7 ≤ sz.toNat) 3
  | .st _ _ _ sz _ => on (!([1, 3, 5, 6] : List Nat).contains sz.toNat) 3
  | .ldq _ rg gd _ _ _ _ _ _ | .stq _ rg gd _ _ _ _ | .gld _ rg gd _ _ _ | .gst _ rg gd _ _ _ => ringForm rg gd
  | .vshl _ im n _ _ _ _ _ _ | .vshr _ im n _ _ _ _ _ _ | .vsra _ im n _ _ _ _ _ _ => on (im = 0 && n ≠ 0) 2
  | .vbcast _ gs lf j _ _ _ _ _ => on (lf = 1 && gs ≠ 0) 2 ++ on (lf = 0 && j ≠ 0) 2
  | .vcvt _ st _ _ _ _ _ => anyType st
  | .vgath _ _ n1 _ _ _ _ _ _ | .vscat _ _ n1 _ _ _ _ _ _ => on (6 ≤ n1.toNat) 3
  | .vbmp _ _ n1 _ _ _ _ _ => on (6 ≤ n1.toNat) 3
  | .selinit _ _ mass dir _ _ => on (mass = 1 && dir = 1) 3
  | .selmrg _ n1 _ _ => on (4 < n1.toNat) 3
  | .vdotq _ d _ _ _ _ _ _ | .vl2q _ d _ _ _ _ _ _ => on (d = 0) 3
  | .exts _ gs im n _ _ => on (im = 1 && gs ≠ 0) 2 ++ on (im = 0 && n ≠ 0) 2
  | .mloop _ _ ii _ => on (ii = 0) 3
  | _ => []

/-- The reasons that need a field of the second word. -/
def secondWord : Instr → List Nat
  | .ldq _ rg _ _ q xe xc ty _ =>
    lq q ++ (if rg = 1 then on (xe = 1 || xc = 1) 3 ++ zero ty else if xe = 1 then anyType ty else zero ty)
  | .ldqTerm _ q xe xc => lq q ++ on (xe = 1 || xc = 1) 3
  | .stq _ rg _ _ q xc _ => sq q ++ on (rg = 1 && xc = 1) 2
  | .rinit _ _ _ q _ _ => ring q
  | .radvHead _ q n | .radvTail _ q n | .rwaitHead _ q n | .rwaitTail _ q n => ring q ++ count n 1024
  | .swz _ _ q _ => ring q
  | .gld _ _ _ _ _ n | .gst _ _ _ _ _ n => count n 49152
  | .shdwDef _ _ _ _ n => count n 16384
  | .astatSwait _ _ n _ => on (n = 0) 3
  | .astatSsig _ _ _ n _ => on (n = 0) 3
  | .kvgath _ _ _ _ q _ _ _ => ring q
  | .vadd _ s d a b _ _ ty | .vsub _ s d a b _ _ ty | .vmul _ s d a b _ _ ty =>
    satBit s ty ++ dst d ++ src a ++ src b ++ types (isFA ty || isIA ty)
  | .vfma _ s d a b c _ _ ty | .vfms _ s d a b c _ _ ty =>
    satBit s ty ++ dst d ++ src a ++ src b ++ src c ++ types (isFA ty || isIA ty)
  | .vmin _ d a b _ _ ty | .vmax _ d a b _ _ ty => dst d ++ src a ++ src b ++ types (isFA ty || isIA ty)
  | .vabs _ s d a _ _ ty | .vneg _ s d a _ _ ty => satBit s ty ++ dst d ++ src a ++ types (isFA ty || isIA ty)
  | .vand _ d a b _ _ ty | .vor _ d a b _ _ ty | .vxor _ d a b _ _ ty => dst d ++ src a ++ src b ++ anyType ty
  | .vnot _ d a _ _ ty => dst d ++ src a ++ anyType ty
  | .vshl _ im _ d a b _ _ ty | .vshr _ im _ d a b _ _ ty | .vsra _ im _ d a b _ _ ty =>
    dst d ++ src a ++ (if im = 1 then zero b else src b) ++ types (ty.toNat ≤ 7)
  | .vcmp _ cc d a b _ _ ty => dst d ++ src a ++ condition cc b ty
  | .vsel _ d a b c _ _ ty => dst d ++ src a ++ src b ++ src c ++ anyType ty
  | .vmov _ d a _ _ ty => dst d ++ src a ++ anyType ty
  | .vmovTerm _ d _ => dst d ++ on (d.toNat < 32) 3
  | .vbcast _ _ lf j d a _ _ ty =>
    dst d ++ (if lf = 1 then src a ++ on (epr (typeBits ty) ≤ j.toNat) 3 else zero a) ++ anyType ty
  | .viota _ _ _ d _ _ ty => dst d ++ types (ty.toNat ≤ 7)
  | .vcvt _ st d a _ _ ty =>
    dst d ++ src a ++ anyType ty
      ++ on (st ≠ 15 && (typeBits ty = 8 * typeBits st || typeBits st = 8 * typeBits ty)) 3
  | .vperm _ d a b _ _ ty => dst d ++ src a ++ src b ++ types (ty = 1 || ty = 5)
  | .vnib _ d a _ _ ty => dst d ++ src a ++ types (ty = 0 || ty = 4)
  | .vzip _ d a b _ _ ty => dst d ++ src a ++ src b ++ anyType ty
  | .vunzip _ d a _ _ ty => dst d ++ src a ++ anyType ty
  | .vslide _ _ d a b _ _ ty => dst d ++ src a ++ src b ++ anyType ty
  | .vgath _ _ _ d a b _ _ ty | .vscat _ _ _ d a b _ _ ty => dst d ++ src a ++ src b ++ anyType ty
  | .vbmp _ _ _ d a _ _ ty => dst d ++ src a ++ types (ty = 2 || ty = 3)
  | .vpopc _ _ m a _ mk ty => (if m = 1 then zero a ++ zero mk else src a) ++ anyType ty
  | .vexp2 _ d a _ _ ty | .vlog2 _ d a _ _ ty | .vrcpa _ d a _ _ ty | .vrsqa _ d a _ _ ty =>
    dst d ++ src a ++ types (isFA ty)
  | .vrsum _ _ a _ _ ty | .vrmax _ _ a _ _ ty | .vrmin _ _ a _ _ ty => src a ++ types (isFA ty || isIA ty)
  | .vdraw _ idx _ d a b c _ _ ty =>
    dst d ++ src a ++ src b ++ (if idx = 1 then src c else zero c) ++ types (isFA ty)
  | .vdmerge _ tree d a b c => dst d ++ src a ++ (if tree = 1 then zero b else src b) ++ src c
  | .selinit _ _ mass _ _ ty => selType ty ++ on (mass = 1 && ty.toNat ≤ 7) 3
  | .selfeed _ _ a _ _ ty => src a ++ selType ty
  | .seldrain _ _ d c => dst d ++ src c
  | .selmrg _ _ a ty => src a ++ selType ty
  | .vdotq _ dim d a b _ _ ty | .vl2q _ dim d a b _ _ ty =>
    dst d ++ src a ++ src b ++ types (ty = 4 || ty = 5 || ty = 9 || ty = 10) ++ on (epr (typeBits ty) < dim.toNat) 3
  | .mpush _ cc a b _ ty => src a ++ condition cc b ty
  | .exts _ _ _ _ ex ty => on (ex = 0) 3 ++ anyType ty
  | .mloop _ _ _ e => on (e.toNat < 3) 3
  | .zcnv _ _ _ q ty rnd _ _ _ _ =>
    sq q ++ types (ty.toNat ≤ 14 && ty ≠ 11) ++ on (2 ≤ rnd.toNat) 3 ++ on (rnd = 1 && ty.toNat ≤ 7) 3
  | .zcnvTerm _ q | .zcompTerm _ q | .fmvTerm _ q | .fprtEmit _ q => sq q
  | .zcomp _ _ q ty | .fprtPass _ _ q ty => sq q ++ anyType ty
  | .zrd _ _ _ q _ _ _ => sq q
  | .fsqa _ _ q _ => sq q
  | .fmv _ _ q _ => sq q
  | _ => []

end Illegal

/-- The lowest illegal-instruction cause that the field values of an instruction earn, if any (R86). -/
def illegalCause (i : Instr) : Option Nat := Illegal.least (Illegal.firstWord i ++ Illegal.secondWord i)

/-- Whether every field of an instruction holds a value that its encoding table allows. -/
def WellFormed (i : Instr) : Bool := (illegalCause i).isNone

end Sys2Proof
end

