-- ==== Sys2Proof/Decode.lean ====
section
/-! DEFINITION. The decoder and the encoder of instruction words, from the encoding tables of spec/ (R76 to R85,
R99, R118, R166, R205, R244, R263, R293). Decoding is total: a pair of words is an instruction, or it is rejected by
name, with the illegal-instruction cause of Table 3-19 that the name stands for. -/

namespace Sys2Proof

/-- Why a pair of words is no instruction. -/
inductive Reject where
  /-- Cause 1: the (tag, major) cell is reserved-trap. -/
  | unassigned
  /-- Cause 2: a reserved-zero field is nonzero. -/
  | reservedZero
  /-- Cause 3: a minor function holds a reserved value. -/
  | reservedCode
  deriving DecidableEq, Repr, Inhabited

/-- The cause of Table 3-19 that a rejection stands for. -/
def Reject.cause : Reject → Nat
  | .unassigned => 1
  | .reservedZero => 2
  | .reservedCode => 3

/-- The tag of an engine (Table 3-5). -/
def Eng.tag : Eng → BitVec 2
  | .C => 0
  | .A => 1
  | .X => 2
  | .F => 3

/-- The engine of a tag (Table 3-5). -/
def engOf (t : BitVec 2) : Eng :=
  if t = 0 then .C else if t = 1 then .A else if t = 2 then .X else .F

/-- The length in words of the instruction whose first word has this tag and major (R70). -/
def wordLength (t : Eng) (major : Nat) : Nat :=
  if major ≤ 0x3F then (if major = 0x3E then 2 else 1)
  else if t = .C ∧ major ≤ 0x5F then 1
  else 2

/-- The instruction, when its reserved-zero bits are zero (cause 2). -/
def zeros (z : Prop) [Decidable z] (i : Instr) : Except Reject Instr := if z then .ok i else .error .reservedZero

/-- A reserved function code: cause 3, unless a field that is reserved-zero under every function is nonzero (R86). -/
def reserved (z : Prop) [Decidable z] : Except Reject Instr := if z then .error .reservedCode else .error .reservedZero

/-- SHDW with fn 1 or 2: the fields that only fn 0 uses must be zero, with cause 3, where a field that is reserved-zero under every
function is zero (R166). -/
def shadowZeros (y z : Prop) [Decidable y] [Decidable z] (i : Instr) : Except Reject Instr :=
  if y then zeros z i else reserved z

/-- The shared control subset map of the opcodes (R82, R99). -/
def decodeShared (t : Eng) (p : BitVec 4) (mj : Nat) (w0 w1 : BitVec 32) : Except Reject Instr :=
  match mj with
  | 0x00 => zeros (w0.extractLsb' 0 19 = 0) (.nop t p)
  | 0x01 => zeros (w0.extractLsb' 0 19 = 0) (.done t p)
  | 0x02 => .ok (.b t p (w0.extractLsb' 0 19))
  | 0x03 => .ok (.call t p (w0.extractLsb' 0 19))
  | 0x04 => zeros (w0.extractLsb' 0 19 = 0) (.ret t p)
  | 0x05 => .ok (.btk t p (w0.extractLsb' 14 5) (w0.extractLsb' 0 14))
  | 0x06 => zeros (w0.extractLsb' 0 19 = 0) (.brkl t p)
  | 0x08 => .ok (.beq t p (w0.extractLsb' 14 5) (w0.extractLsb' 9 5) (w0.extractLsb' 0 9))
  | 0x09 => .ok (.bne t p (w0.extractLsb' 14 5) (w0.extractLsb' 9 5) (w0.extractLsb' 0 9))
  | 0x0a => .ok (.blt t p (w0.extractLsb' 14 5) (w0.extractLsb' 9 5) (w0.extractLsb' 0 9))
  | 0x0b => .ok (.bge t p (w0.extractLsb' 14 5) (w0.extractLsb' 9 5) (w0.extractLsb' 0 9))
  | 0x0c => .ok (.blo t p (w0.extractLsb' 14 5) (w0.extractLsb' 9 5) (w0.extractLsb' 0 9))
  | 0x0d => .ok (.bhs t p (w0.extractLsb' 14 5) (w0.extractLsb' 9 5) (w0.extractLsb' 0 9))
  | 0x0e => zeros (w0.extractLsb' 14 5 = 0) (.loop t p (w0.extractLsb' 9 5) (w0.extractLsb' 0 9))
  | 0x0f => .ok (.loopi t p (w0.extractLsb' 9 10) (w0.extractLsb' 0 9))
  | 0x10 => 
    if w0.extractLsb' 0 4 = 0 then .ok (.add t p (w0.extractLsb' 14 5) (w0.extractLsb' 9 5) (w0.extractLsb' 4 5))
    else
    if w0.extractLsb' 0 4 = 1 then .ok (.sub t p (w0.extractLsb' 14 5) (w0.extractLsb' 9 5) (w0.extractLsb' 4 5))
    else
    if w0.extractLsb' 0 4 = 2 then .ok (.mul t p (w0.extractLsb' 14 5) (w0.extractLsb' 9 5) (w0.extractLsb' 4 5))
    else
    if w0.extractLsb' 0 4 = 3 then .ok (.mulh t p (w0.extractLsb' 14 5) (w0.extractLsb' 9 5) (w0.extractLsb' 4 5))
    else
    if w0.extractLsb' 0 4 = 4 then .ok (.andg t p (w0.extractLsb' 14 5) (w0.extractLsb' 9 5) (w0.extractLsb' 4 5))
    else
    if w0.extractLsb' 0 4 = 5 then .ok (.org t p (w0.extractLsb' 14 5) (w0.extractLsb' 9 5) (w0.extractLsb' 4 5))
    else
    if w0.extractLsb' 0 4 = 6 then .ok (.xorg t p (w0.extractLsb' 14 5) (w0.extractLsb' 9 5) (w0.extractLsb' 4 5))
    else
    if w0.extractLsb' 0 4 = 7 then .ok (.shl t p (w0.extractLsb' 14 5) (w0.extractLsb' 9 5) (w0.extractLsb' 4 5))
    else
    if w0.extractLsb' 0 4 = 8 then .ok (.shr t p (w0.extractLsb' 14 5) (w0.extractLsb' 9 5) (w0.extractLsb' 4 5))
    else
    if w0.extractLsb' 0 4 = 9 then .ok (.sra t p (w0.extractLsb' 14 5) (w0.extractLsb' 9 5) (w0.extractLsb' 4 5))
    else
    if w0.extractLsb' 0 4 = 10 then .ok (.slt t p (w0.extractLsb' 14 5) (w0.extractLsb' 9 5) (w0.extractLsb' 4 5))
    else
    if w0.extractLsb' 0 4 = 11 then .ok (.sltn t p (w0.extractLsb' 14 5) (w0.extractLsb' 9 5) (w0.extractLsb' 4 5))
    else
    if w0.extractLsb' 0 4 = 12 then .ok (.min t p (w0.extractLsb' 14 5) (w0.extractLsb' 9 5) (w0.extractLsb' 4 5))
    else
    if w0.extractLsb' 0 4 = 13 then .ok (.max t p (w0.extractLsb' 14 5) (w0.extractLsb' 9 5) (w0.extractLsb' 4 5))
    else
    if w0.extractLsb' 0 4 = 14 then zeros (w0.extractLsb' 4 5 = 0) (.mov t p (w0.extractLsb' 14 5) (w0.extractLsb' 9 5))
    else reserved (True)
  | 0x11 => .ok (.addi t p (w0.extractLsb' 14 5) (w0.extractLsb' 9 5) (w0.extractLsb' 0 9))
  | 0x12 => .ok (.andi t p (w0.extractLsb' 14 5) (w0.extractLsb' 9 5) (w0.extractLsb' 0 9))
  | 0x13 => .ok (.ori t p (w0.extractLsb' 14 5) (w0.extractLsb' 9 5) (w0.extractLsb' 0 9))
  | 0x14 => .ok (.xori t p (w0.extractLsb' 14 5) (w0.extractLsb' 9 5) (w0.extractLsb' 0 9))
  | 0x15 => zeros (w0.extractLsb' 6 3 = 0) (.shli t p (w0.extractLsb' 14 5) (w0.extractLsb' 9 5) (w0.extractLsb' 0 6))
  | 0x16 => zeros (w0.extractLsb' 6 3 = 0) (.shri t p (w0.extractLsb' 14 5) (w0.extractLsb' 9 5) (w0.extractLsb' 0 6))
  | 0x17 => zeros (w0.extractLsb' 6 3 = 0) (.srai t p (w0.extractLsb' 14 5) (w0.extractLsb' 9 5) (w0.extractLsb' 0 6))
  | 0x18 => .ok (.spl t p (w0.extractLsb' 14 5) (w0.extractLsb' 0 14))
  | 0x19 => .ok (.sps t p (w0.extractLsb' 14 5) (w0.extractLsb' 0 14))
  | 0x1a => .ok (.svra t p (w0.extractLsb' 14 5) (w0.extractLsb' 0 14))
  | 0x1b => .ok (.ldra t p (w0.extractLsb' 14 5) (w0.extractLsb' 0 14))
  | 0x1c => zeros (w0.extractLsb' 6 8 = 0) (.waitt t p (w0.extractLsb' 14 5) (w0.extractLsb' 0 6))
  | 0x1d => zeros (w0.extractLsb' 6 8 = 0) (.sigt t p (w0.extractLsb' 14 5) (w0.extractLsb' 0 6))
  | 0x1e => .ok (.qdrop t p (w0.extractLsb' 14 5) (w0.extractLsb' 0 14))
  | 0x3e => .ok (.li t p (w0.extractLsb' 14 5) (w0.extractLsb' 0 14) (w1.extractLsb' 0 32))
  | _ => .error .unassigned

/-- The C-private map of the opcodes (R83, R118). -/
def decodeC (p : BitVec 4) (mj : Nat) (w0 w1 : BitVec 32) : Except Reject Instr :=
  match mj with
  | 0x40 => .ok (.csrr p (w0.extractLsb' 14 5) (w0.extractLsb' 0 14))
  | 0x41 => .ok (.csrw p (w0.extractLsb' 14 5) (w0.extractLsb' 0 14))
  | 0x42 => .ok (.csrs p (w0.extractLsb' 14 5) (w0.extractLsb' 0 14))
  | 0x43 => .ok (.csrc p (w0.extractLsb' 14 5) (w0.extractLsb' 0 14))
  | 0x44 => 
    if w0.extractLsb' 0 3 = 0 then .ok (.amoaddAcq p (w0.extractLsb' 14 5) (w0.extractLsb' 9 5) (w0.extractLsb' 4 5) (w0.extractLsb' 3 1))
    else
    if w0.extractLsb' 0 3 = 1 then .ok (.amoandAcq p (w0.extractLsb' 14 5) (w0.extractLsb' 9 5) (w0.extractLsb' 4 5) (w0.extractLsb' 3 1))
    else
    if w0.extractLsb' 0 3 = 2 then .ok (.amoorAcq p (w0.extractLsb' 14 5) (w0.extractLsb' 9 5) (w0.extractLsb' 4 5) (w0.extractLsb' 3 1))
    else
    if w0.extractLsb' 0 3 = 3 then .ok (.amominAcq p (w0.extractLsb' 14 5) (w0.extractLsb' 9 5) (w0.extractLsb' 4 5) (w0.extractLsb' 3 1))
    else
    if w0.extractLsb' 0 3 = 4 then .ok (.amomaxAcq p (w0.extractLsb' 14 5) (w0.extractLsb' 9 5) (w0.extractLsb' 4 5) (w0.extractLsb' 3 1))
    else
    if w0.extractLsb' 0 3 = 5 then .ok (.amoswpAcq p (w0.extractLsb' 14 5) (w0.extractLsb' 9 5) (w0.extractLsb' 4 5) (w0.extractLsb' 3 1))
    else
    if w0.extractLsb' 0 3 = 6 then .ok (.amocasAcq p (w0.extractLsb' 14 5) (w0.extractLsb' 9 5) (w0.extractLsb' 4 5) (w0.extractLsb' 3 1))
    else reserved (True)
  | 0x45 => 
    if w0.extractLsb' 0 3 = 0 then .ok (.amoaddRel p (w0.extractLsb' 14 5) (w0.extractLsb' 9 5) (w0.extractLsb' 4 5) (w0.extractLsb' 3 1))
    else
    if w0.extractLsb' 0 3 = 1 then .ok (.amoandRel p (w0.extractLsb' 14 5) (w0.extractLsb' 9 5) (w0.extractLsb' 4 5) (w0.extractLsb' 3 1))
    else
    if w0.extractLsb' 0 3 = 2 then .ok (.amoorRel p (w0.extractLsb' 14 5) (w0.extractLsb' 9 5) (w0.extractLsb' 4 5) (w0.extractLsb' 3 1))
    else
    if w0.extractLsb' 0 3 = 3 then .ok (.amominRel p (w0.extractLsb' 14 5) (w0.extractLsb' 9 5) (w0.extractLsb' 4 5) (w0.extractLsb' 3 1))
    else
    if w0.extractLsb' 0 3 = 4 then .ok (.amomaxRel p (w0.extractLsb' 14 5) (w0.extractLsb' 9 5) (w0.extractLsb' 4 5) (w0.extractLsb' 3 1))
    else
    if w0.extractLsb' 0 3 = 5 then .ok (.amoswpRel p (w0.extractLsb' 14 5) (w0.extractLsb' 9 5) (w0.extractLsb' 4 5) (w0.extractLsb' 3 1))
    else
    if w0.extractLsb' 0 3 = 6 then .ok (.amocasRel p (w0.extractLsb' 14 5) (w0.extractLsb' 9 5) (w0.extractLsb' 4 5) (w0.extractLsb' 3 1))
    else reserved (True)
  | 0x46 => 
    if w0.extractLsb' 0 3 = 0 then .ok (.amoaddAr p (w0.extractLsb' 14 5) (w0.extractLsb' 9 5) (w0.extractLsb' 4 5) (w0.extractLsb' 3 1))
    else
    if w0.extractLsb' 0 3 = 1 then .ok (.amoandAr p (w0.extractLsb' 14 5) (w0.extractLsb' 9 5) (w0.extractLsb' 4 5) (w0.extractLsb' 3 1))
    else
    if w0.extractLsb' 0 3 = 2 then .ok (.amoorAr p (w0.extractLsb' 14 5) (w0.extractLsb' 9 5) (w0.extractLsb' 4 5) (w0.extractLsb' 3 1))
    else
    if w0.extractLsb' 0 3 = 3 then .ok (.amominAr p (w0.extractLsb' 14 5) (w0.extractLsb' 9 5) (w0.extractLsb' 4 5) (w0.extractLsb' 3 1))
    else
    if w0.extractLsb' 0 3 = 4 then .ok (.amomaxAr p (w0.extractLsb' 14 5) (w0.extractLsb' 9 5) (w0.extractLsb' 4 5) (w0.extractLsb' 3 1))
    else
    if w0.extractLsb' 0 3 = 5 then .ok (.amoswpAr p (w0.extractLsb' 14 5) (w0.extractLsb' 9 5) (w0.extractLsb' 4 5) (w0.extractLsb' 3 1))
    else
    if w0.extractLsb' 0 3 = 6 then .ok (.amocasAr p (w0.extractLsb' 14 5) (w0.extractLsb' 9 5) (w0.extractLsb' 4 5) (w0.extractLsb' 3 1))
    else reserved (True)
  | 0x47 => 
    if w0.extractLsb' 0 4 = 0 then zeros (w0.extractLsb' 4 15 = 0) (.fenceAcq p)
    else
    if w0.extractLsb' 0 4 = 1 then zeros (w0.extractLsb' 4 15 = 0) (.fenceRel p)
    else reserved (w0.extractLsb' 4 15 = 0)
  | 0x48 => zeros (w0.extractLsb' 3 16 = 0) (.phase p (w0.extractLsb' 0 3))
  | 0x49 => zeros (w0.extractLsb' 14 5 = 0) (.trap p (w0.extractLsb' 0 14))
  | 0x4a => zeros (w0.extractLsb' 0 19 = 0) (.eret p)
  | 0x4b => zeros (w0.extractLsb' 0 19 = 0) (.wfe p)
  | 0x4c => 
    if w0.extractLsb' 0 4 = 0 then .ok (.fadd p (w0.extractLsb' 14 5) (w0.extractLsb' 9 5) (w0.extractLsb' 4 5))
    else
    if w0.extractLsb' 0 4 = 1 then .ok (.fsub p (w0.extractLsb' 14 5) (w0.extractLsb' 9 5) (w0.extractLsb' 4 5))
    else
    if w0.extractLsb' 0 4 = 2 then .ok (.fmul p (w0.extractLsb' 14 5) (w0.extractLsb' 9 5) (w0.extractLsb' 4 5))
    else
    if w0.extractLsb' 0 4 = 3 then .ok (.fmin p (w0.extractLsb' 14 5) (w0.extractLsb' 9 5) (w0.extractLsb' 4 5))
    else
    if w0.extractLsb' 0 4 = 4 then .ok (.fmax p (w0.extractLsb' 14 5) (w0.extractLsb' 9 5) (w0.extractLsb' 4 5))
    else
    if w0.extractLsb' 0 4 = 5 then .ok (.feq p (w0.extractLsb' 14 5) (w0.extractLsb' 9 5) (w0.extractLsb' 4 5))
    else
    if w0.extractLsb' 0 4 = 6 then .ok (.flt p (w0.extractLsb' 14 5) (w0.extractLsb' 9 5) (w0.extractLsb' 4 5))
    else
    if w0.extractLsb' 0 4 = 7 then .ok (.fle p (w0.extractLsb' 14 5) (w0.extractLsb' 9 5) (w0.extractLsb' 4 5))
    else reserved (True)
  | 0x4d => zeros (w0.extractLsb' 8 1 = 0) (.fcvt p (w0.extractLsb' 14 5) (w0.extractLsb' 9 5) (w0.extractLsb' 4 4) (w0.extractLsb' 0 4))
  | 0x4e => zeros (w0.extractLsb' 0 4 = 0) (.wqpush p (w0.extractLsb' 14 5) (w0.extractLsb' 9 5) (w0.extractLsb' 4 5))
  | 0x4f => zeros (w0.extractLsb' 0 4 = 0 ∧ w0.extractLsb' 9 5 = 0) (.spawn p (w0.extractLsb' 14 5) (w0.extractLsb' 4 5))
  | 0x50 => zeros (w0.extractLsb' 1 8 = 0) (.resolve p (w0.extractLsb' 14 5) (w0.extractLsb' 9 5) (w0.extractLsb' 0 1))
  | 0x51 => zeros (w0.extractLsb' 0 14 = 0) (.cvnew p (w0.extractLsb' 14 5))
  | 0x52 => zeros (w0.extractLsb' 0 9 = 0 ∧ w0.extractLsb' 14 5 = 0) (.cvfree p (w0.extractLsb' 9 5))
  | 0x53 => zeros (w0.extractLsb' 0 19 = 0) (.yield p)
  | 0x54 => zeros (w0.extractLsb' 0 4 = 0) (.mbsend p (w0.extractLsb' 14 5) (w0.extractLsb' 9 5) (w0.extractLsb' 4 5))
  | 0x55 => zeros (w0.extractLsb' 0 4 = 0) (.mbrecv p (w0.extractLsb' 14 5) (w0.extractLsb' 9 5) (w0.extractLsb' 4 5))
  | 0x56 => zeros (w0.extractLsb' 0 4 = 0) (.mbpoll p (w0.extractLsb' 14 5) (w0.extractLsb' 9 5) (w0.extractLsb' 4 5))
  | 0x57 => zeros (w0.extractLsb' 0 4 = 0) (.nestw p (w0.extractLsb' 14 5) (w0.extractLsb' 9 5) (w0.extractLsb' 4 5))
  | 0x58 => zeros (w0.extractLsb' 0 19 = 0) (.ngo p)
  | 0x59 => zeros (w0.extractLsb' 0 19 = 0) (.nwait p)
  | 0x5a => zeros (w0.extractLsb' 0 9 = 0 ∧ w0.extractLsb' 14 5 = 0) (.fmtq p (w0.extractLsb' 9 5))
  | 0x5b => zeros (w0.extractLsb' 0 4 = 0) (.tlbir p (w0.extractLsb' 14 5) (w0.extractLsb' 9 5) (w0.extractLsb' 4 5))
  | 0x5c => zeros (w0.extractLsb' 0 19 = 0) (.tlback p)
  | 0x60 => zeros (w0.extractLsb' 4 5 = 0) (.ld p (w0.extractLsb' 14 5) (w0.extractLsb' 9 5) (w0.extractLsb' 0 4) (w1.extractLsb' 0 32))
  | 0x61 => zeros (w0.extractLsb' 14 5 = 0) (.st p (w0.extractLsb' 9 5) (w0.extractLsb' 4 5) (w0.extractLsb' 0 4) (w1.extractLsb' 0 32))
  | 0x62 => zeros (w0.extractLsb' 0 4 = 0 ∧ w1.extractLsb' 0 27 = 0) (.ffma p (w0.extractLsb' 14 5) (w0.extractLsb' 9 5) (w0.extractLsb' 4 5) (w1.extractLsb' 27 5))
  | 0x63 => zeros (w0.extractLsb' 0 4 = 0 ∧ w1.extractLsb' 0 15 = 0) (.spawnc p (w0.extractLsb' 14 5) (w0.extractLsb' 9 5) (w0.extractLsb' 4 5) (w1.extractLsb' 16 16) (w1.extractLsb' 15 1))
  | _ => .error .unassigned

/-- The A-private map of the opcodes (R84, R166, R205). -/
def decodeA (p : BitVec 4) (mj : Nat) (w0 w1 : BitVec 32) : Except Reject Instr :=
  match mj with
  | 0x40 => 
    if w0.extractLsb' 1 3 = 0 then zeros (w0.extractLsb' 4 5 = 0 ∧ w1.extractLsb' 24 3 = 0) (.ldq p (w0.extractLsb' 0 1) (w0.extractLsb' 14 5) (w0.extractLsb' 9 5) (w1.extractLsb' 27 5) (w1.extractLsb' 22 1) (w1.extractLsb' 23 1) (w1.extractLsb' 18 4) (w1.extractLsb' 0 18))
    else
    if w0.extractLsb' 0 4 = 2 then zeros (w0.extractLsb' 4 15 = 0 ∧ w1.extractLsb' 0 22 = 0 ∧ w1.extractLsb' 24 3 = 0) (.ldqTerm p (w1.extractLsb' 27 5) (w1.extractLsb' 22 1) (w1.extractLsb' 23 1))
    else reserved (w0.extractLsb' 4 5 = 0 ∧ w1.extractLsb' 24 3 = 0)
  | 0x41 => 
    if w0.extractLsb' 1 3 = 0 then zeros (w0.extractLsb' 4 5 = 0 ∧ w1.extractLsb' 18 5 = 0 ∧ w1.extractLsb' 24 3 = 0) (.stq p (w0.extractLsb' 0 1) (w0.extractLsb' 14 5) (w0.extractLsb' 9 5) (w1.extractLsb' 27 5) (w1.extractLsb' 23 1) (w1.extractLsb' 0 18))
    else reserved (w0.extractLsb' 4 5 = 0 ∧ w1.extractLsb' 18 5 = 0 ∧ w1.extractLsb' 24 3 = 0)
  | 0x42 => zeros (w0.extractLsb' 0 4 = 0 ∧ w0.extractLsb' 14 5 = 0 ∧ w1.extractLsb' 10 12 = 0 ∧ w1.extractLsb' 23 4 = 0) (.rinit p (w0.extractLsb' 9 5) (w0.extractLsb' 4 5) (w1.extractLsb' 27 5) (w1.extractLsb' 22 1) (w1.extractLsb' 0 10))
  | 0x43 => 
    if w1.extractLsb' 22 1 = 0 then zeros (w0.extractLsb' 0 19 = 0 ∧ w1.extractLsb' 18 4 = 0 ∧ w1.extractLsb' 23 4 = 0) (.radvHead p (w1.extractLsb' 27 5) (w1.extractLsb' 0 18))
    else
    if w1.extractLsb' 22 1 = 1 then zeros (w0.extractLsb' 0 19 = 0 ∧ w1.extractLsb' 18 4 = 0 ∧ w1.extractLsb' 23 4 = 0) (.radvTail p (w1.extractLsb' 27 5) (w1.extractLsb' 0 18))
    else reserved (w0.extractLsb' 0 19 = 0 ∧ w1.extractLsb' 18 4 = 0 ∧ w1.extractLsb' 23 4 = 0)
  | 0x44 => 
    if w1.extractLsb' 22 1 = 0 then zeros (w0.extractLsb' 0 19 = 0 ∧ w1.extractLsb' 18 4 = 0 ∧ w1.extractLsb' 23 4 = 0) (.rwaitHead p (w1.extractLsb' 27 5) (w1.extractLsb' 0 18))
    else
    if w1.extractLsb' 22 1 = 1 then zeros (w0.extractLsb' 0 19 = 0 ∧ w1.extractLsb' 18 4 = 0 ∧ w1.extractLsb' 23 4 = 0) (.rwaitTail p (w1.extractLsb' 27 5) (w1.extractLsb' 0 18))
    else reserved (w0.extractLsb' 0 19 = 0 ∧ w1.extractLsb' 18 4 = 0 ∧ w1.extractLsb' 23 4 = 0)
  | 0x45 => zeros (w0.extractLsb' 0 9 = 0 ∧ w0.extractLsb' 14 5 = 0 ∧ w1.extractLsb' 3 24 = 0) (.swz p (w0.extractLsb' 9 5) (w1.extractLsb' 27 5) (w1.extractLsb' 0 3))
  | 0x46 => 
    if w0.extractLsb' 1 3 = 0 then zeros (w1.extractLsb' 18 14 = 0) (.gld p (w0.extractLsb' 0 1) (w0.extractLsb' 14 5) (w0.extractLsb' 9 5) (w0.extractLsb' 4 5) (w1.extractLsb' 0 18))
    else reserved (w1.extractLsb' 18 14 = 0)
  | 0x47 => 
    if w0.extractLsb' 1 3 = 0 then zeros (w1.extractLsb' 18 14 = 0) (.gst p (w0.extractLsb' 0 1) (w0.extractLsb' 14 5) (w0.extractLsb' 9 5) (w0.extractLsb' 4 5) (w1.extractLsb' 0 18))
    else reserved (w1.extractLsb' 18 14 = 0)
  | 0x48 => zeros (w0.extractLsb' 0 9 = 0 ∧ w1.extractLsb' 0 22 = 0 ∧ w1.extractLsb' 23 9 = 0) (.lchain p (w0.extractLsb' 14 5) (w0.extractLsb' 9 5) (w1.extractLsb' 22 1))
  | 0x49 => zeros (w0.extractLsb' 0 4 = 0 ∧ w0.extractLsb' 14 5 = 0 ∧ w1.extractLsb' 4 28 = 0) (.preft p (w0.extractLsb' 9 5) (w0.extractLsb' 4 5) (w1.extractLsb' 0 4))
  | 0x4a => 
    if w0.extractLsb' 0 4 = 0 then zeros (w1.extractLsb' 18 14 = 0) (.shdwDef p (w0.extractLsb' 14 5) (w0.extractLsb' 9 5) (w0.extractLsb' 4 5) (w1.extractLsb' 0 18))
    else
    if w0.extractLsb' 0 4 = 1 then shadowZeros (w0.extractLsb' 4 10 = 0 ∧ w1.extractLsb' 0 18 = 0) (w1.extractLsb' 18 14 = 0) (.shdwArm p (w0.extractLsb' 14 5))
    else
    if w0.extractLsb' 0 4 = 2 then shadowZeros (w0.extractLsb' 4 10 = 0 ∧ w1.extractLsb' 0 18 = 0) (w1.extractLsb' 18 14 = 0) (.shdwFree p (w0.extractLsb' 14 5))
    else reserved (w1.extractLsb' 18 14 = 0)
  | 0x4b => zeros (w0.extractLsb' 0 9 = 0 ∧ w0.extractLsb' 14 5 = 0 ∧ w1.extractLsb' 0 32 = 0) (.publ p (w0.extractLsb' 9 5))
  | 0x4c => 
    if w0.extractLsb' 0 4 = 0 then zeros (w0.extractLsb' 4 10 = 0 ∧ w1.extractLsb' 0 32 = 0) (.astatEcur p (w0.extractLsb' 14 5))
    else
    if w0.extractLsb' 0 4 = 1 then zeros (w0.extractLsb' 4 10 = 0 ∧ w1.extractLsb' 0 32 = 0) (.astatScur p (w0.extractLsb' 14 5))
    else
    if w0.extractLsb' 0 4 = 2 then zeros (w0.extractLsb' 4 5 = 0 ∧ w0.extractLsb' 14 5 = 0 ∧ w1.extractLsb' 0 32 = 0) (.astatSetec p (w0.extractLsb' 9 5))
    else
    if w0.extractLsb' 0 4 = 3 then zeros (w0.extractLsb' 4 5 = 0 ∧ w0.extractLsb' 14 5 = 0 ∧ w1.extractLsb' 0 32 = 0) (.astatSetsc p (w0.extractLsb' 9 5))
    else
    if w0.extractLsb' 0 4 = 4 then zeros (w0.extractLsb' 4 10 = 0 ∧ w1.extractLsb' 4 28 = 0) (.astatRing p (w0.extractLsb' 14 5) (w1.extractLsb' 0 4))
    else
    if w0.extractLsb' 0 4 = 5 then zeros (w0.extractLsb' 4 10 = 0 ∧ w1.extractLsb' 18 14 = 0) (.astatSwait p (w0.extractLsb' 14 5) (w1.extractLsb' 8 10) (w1.extractLsb' 0 8))
    else
    if w0.extractLsb' 0 4 = 6 then zeros (w0.extractLsb' 4 10 = 0 ∧ w1.extractLsb' 18 4 = 0 ∧ w1.extractLsb' 23 9 = 0) (.astatSsig p (w0.extractLsb' 14 5) (w1.extractLsb' 22 1) (w1.extractLsb' 8 10) (w1.extractLsb' 0 8))
    else
    if w0.extractLsb' 0 4 = 7 then zeros (w0.extractLsb' 4 10 = 0 ∧ w1.extractLsb' 8 24 = 0) (.astatSread p (w0.extractLsb' 14 5) (w1.extractLsb' 0 8))
    else
    if w0.extractLsb' 0 4 = 8 then zeros (w0.extractLsb' 4 5 = 0 ∧ w0.extractLsb' 14 5 = 0 ∧ w1.extractLsb' 8 24 = 0) (.astatSset p (w0.extractLsb' 9 5) (w1.extractLsb' 0 8))
    else
    if w0.extractLsb' 0 4 = 9 then zeros (w0.extractLsb' 4 5 = 0 ∧ w1.extractLsb' 0 32 = 0) (.astatChain p (w0.extractLsb' 14 5) (w0.extractLsb' 9 5))
    else reserved (w0.extractLsb' 4 5 = 0 ∧ w1.extractLsb' 18 4 = 0 ∧ w1.extractLsb' 23 9 = 0)
  | 0x50 => zeros (w0.extractLsb' 0 4 = 0 ∧ w1.extractLsb' 18 14 = 0) (.kvw p (w0.extractLsb' 14 5) (w0.extractLsb' 9 5) (w0.extractLsb' 4 5) (w1.extractLsb' 0 18))
  | 0x51 => zeros (w0.extractLsb' 0 4 = 0 ∧ w1.extractLsb' 0 32 = 0) (.kvrn p (w0.extractLsb' 14 5) (w0.extractLsb' 9 5) (w0.extractLsb' 4 5))
  | 0x52 => zeros (w0.extractLsb' 0 4 = 0 ∧ w0.extractLsb' 14 5 = 0 ∧ w1.extractLsb' 0 32 = 0) (.kvadv p (w0.extractLsb' 9 5) (w0.extractLsb' 4 5))
  | 0x53 => zeros (w0.extractLsb' 0 4 = 0 ∧ w0.extractLsb' 14 5 = 0 ∧ w1.extractLsb' 0 32 = 0) (.kvrwd p (w0.extractLsb' 9 5) (w0.extractLsb' 4 5))
  | 0x54 => zeros (w0.extractLsb' 0 4 = 0 ∧ w0.extractLsb' 14 5 = 0 ∧ w1.extractLsb' 0 32 = 0) (.kvfork p (w0.extractLsb' 9 5) (w0.extractLsb' 4 5))
  | 0x55 => zeros (w0.extractLsb' 0 9 = 0 ∧ w0.extractLsb' 14 5 = 0 ∧ w1.extractLsb' 0 32 = 0) (.kvend p (w0.extractLsb' 9 5))
  | 0x56 => zeros (w0.extractLsb' 0 4 = 0 ∧ w1.extractLsb' 5 17 = 0 ∧ w1.extractLsb' 26 1 = 0) (.kvgath p (w0.extractLsb' 14 5) (w0.extractLsb' 9 5) (w0.extractLsb' 4 5) (w1.extractLsb' 27 5) (w1.extractLsb' 22 4) (w1.extractLsb' 4 1) (w1.extractLsb' 0 4))
  | 0x57 => 
    if w0.extractLsb' 0 4 = 0 then zeros (w0.extractLsb' 4 5 = 0 ∧ w1.extractLsb' 4 28 = 0) (.kvstat p (w0.extractLsb' 14 5) (w0.extractLsb' 9 5) (w1.extractLsb' 0 4))
    else
    if w0.extractLsb' 0 4 = 1 then zeros (w0.extractLsb' 4 5 = 0 ∧ w1.extractLsb' 0 32 = 0) (.kvstatDrain p (w0.extractLsb' 14 5) (w0.extractLsb' 9 5))
    else reserved (w0.extractLsb' 4 5 = 0 ∧ w1.extractLsb' 4 28 = 0)
  | _ => .error .unassigned

/-- The X-private map of the opcodes (R84, R244, R263). -/
def decodeX (p : BitVec 4) (mj : Nat) (w0 w1 : BitVec 32) : Except Reject Instr :=
  match mj with
  | 0x40 => zeros (w0.extractLsb' 1 18 = 0 ∧ w1.extractLsb' 8 6 = 0) (.vadd p (w0.extractLsb' 0 1) (w1.extractLsb' 26 6) (w1.extractLsb' 20 6) (w1.extractLsb' 14 6) (w1.extractLsb' 5 3) (w1.extractLsb' 4 1) (w1.extractLsb' 0 4))
  | 0x41 => zeros (w0.extractLsb' 1 18 = 0 ∧ w1.extractLsb' 8 6 = 0) (.vsub p (w0.extractLsb' 0 1) (w1.extractLsb' 26 6) (w1.extractLsb' 20 6) (w1.extractLsb' 14 6) (w1.extractLsb' 5 3) (w1.extractLsb' 4 1) (w1.extractLsb' 0 4))
  | 0x42 => zeros (w0.extractLsb' 1 18 = 0 ∧ w1.extractLsb' 8 6 = 0) (.vmul p (w0.extractLsb' 0 1) (w1.extractLsb' 26 6) (w1.extractLsb' 20 6) (w1.extractLsb' 14 6) (w1.extractLsb' 5 3) (w1.extractLsb' 4 1) (w1.extractLsb' 0 4))
  | 0x43 => zeros (w0.extractLsb' 1 18 = 0) (.vfma p (w0.extractLsb' 0 1) (w1.extractLsb' 26 6) (w1.extractLsb' 20 6) (w1.extractLsb' 14 6) (w1.extractLsb' 8 6) (w1.extractLsb' 5 3) (w1.extractLsb' 4 1) (w1.extractLsb' 0 4))
  | 0x44 => zeros (w0.extractLsb' 1 18 = 0) (.vfms p (w0.extractLsb' 0 1) (w1.extractLsb' 26 6) (w1.extractLsb' 20 6) (w1.extractLsb' 14 6) (w1.extractLsb' 8 6) (w1.extractLsb' 5 3) (w1.extractLsb' 4 1) (w1.extractLsb' 0 4))
  | 0x45 => zeros (w0.extractLsb' 0 19 = 0 ∧ w1.extractLsb' 8 6 = 0) (.vmin p (w1.extractLsb' 26 6) (w1.extractLsb' 20 6) (w1.extractLsb' 14 6) (w1.extractLsb' 5 3) (w1.extractLsb' 4 1) (w1.extractLsb' 0 4))
  | 0x46 => zeros (w0.extractLsb' 0 19 = 0 ∧ w1.extractLsb' 8 6 = 0) (.vmax p (w1.extractLsb' 26 6) (w1.extractLsb' 20 6) (w1.extractLsb' 14 6) (w1.extractLsb' 5 3) (w1.extractLsb' 4 1) (w1.extractLsb' 0 4))
  | 0x47 => zeros (w0.extractLsb' 1 18 = 0 ∧ w1.extractLsb' 8 12 = 0) (.vabs p (w0.extractLsb' 0 1) (w1.extractLsb' 26 6) (w1.extractLsb' 20 6) (w1.extractLsb' 5 3) (w1.extractLsb' 4 1) (w1.extractLsb' 0 4))
  | 0x48 => zeros (w0.extractLsb' 1 18 = 0 ∧ w1.extractLsb' 8 12 = 0) (.vneg p (w0.extractLsb' 0 1) (w1.extractLsb' 26 6) (w1.extractLsb' 20 6) (w1.extractLsb' 5 3) (w1.extractLsb' 4 1) (w1.extractLsb' 0 4))
  | 0x49 => zeros (w0.extractLsb' 0 19 = 0 ∧ w1.extractLsb' 8 6 = 0) (.vand p (w1.extractLsb' 26 6) (w1.extractLsb' 20 6) (w1.extractLsb' 14 6) (w1.extractLsb' 5 3) (w1.extractLsb' 4 1) (w1.extractLsb' 0 4))
  | 0x4a => zeros (w0.extractLsb' 0 19 = 0 ∧ w1.extractLsb' 8 6 = 0) (.vor p (w1.extractLsb' 26 6) (w1.extractLsb' 20 6) (w1.extractLsb' 14 6) (w1.extractLsb' 5 3) (w1.extractLsb' 4 1) (w1.extractLsb' 0 4))
  | 0x4b => zeros (w0.extractLsb' 0 19 = 0 ∧ w1.extractLsb' 8 6 = 0) (.vxor p (w1.extractLsb' 26 6) (w1.extractLsb' 20 6) (w1.extractLsb' 14 6) (w1.extractLsb' 5 3) (w1.extractLsb' 4 1) (w1.extractLsb' 0 4))
  | 0x4c => zeros (w0.extractLsb' 0 19 = 0 ∧ w1.extractLsb' 8 12 = 0) (.vnot p (w1.extractLsb' 26 6) (w1.extractLsb' 20 6) (w1.extractLsb' 5 3) (w1.extractLsb' 4 1) (w1.extractLsb' 0 4))
  | 0x4d => zeros (w0.extractLsb' 6 7 = 0 ∧ w0.extractLsb' 14 5 = 0 ∧ w1.extractLsb' 8 6 = 0) (.vshl p (w0.extractLsb' 13 1) (w0.extractLsb' 0 6) (w1.extractLsb' 26 6) (w1.extractLsb' 20 6) (w1.extractLsb' 14 6) (w1.extractLsb' 5 3) (w1.extractLsb' 4 1) (w1.extractLsb' 0 4))
  | 0x4e => zeros (w0.extractLsb' 6 7 = 0 ∧ w0.extractLsb' 14 5 = 0 ∧ w1.extractLsb' 8 6 = 0) (.vshr p (w0.extractLsb' 13 1) (w0.extractLsb' 0 6) (w1.extractLsb' 26 6) (w1.extractLsb' 20 6) (w1.extractLsb' 14 6) (w1.extractLsb' 5 3) (w1.extractLsb' 4 1) (w1.extractLsb' 0 4))
  | 0x4f => zeros (w0.extractLsb' 6 7 = 0 ∧ w0.extractLsb' 14 5 = 0 ∧ w1.extractLsb' 8 6 = 0) (.vsra p (w0.extractLsb' 13 1) (w0.extractLsb' 0 6) (w1.extractLsb' 26 6) (w1.extractLsb' 20 6) (w1.extractLsb' 14 6) (w1.extractLsb' 5 3) (w1.extractLsb' 4 1) (w1.extractLsb' 0 4))
  | 0x50 => zeros (w0.extractLsb' 3 16 = 0 ∧ w1.extractLsb' 8 6 = 0) (.vcmp p (w0.extractLsb' 0 3) (w1.extractLsb' 26 6) (w1.extractLsb' 20 6) (w1.extractLsb' 14 6) (w1.extractLsb' 5 3) (w1.extractLsb' 4 1) (w1.extractLsb' 0 4))
  | 0x51 => zeros (w0.extractLsb' 0 19 = 0) (.vsel p (w1.extractLsb' 26 6) (w1.extractLsb' 20 6) (w1.extractLsb' 14 6) (w1.extractLsb' 8 6) (w1.extractLsb' 5 3) (w1.extractLsb' 4 1) (w1.extractLsb' 0 4))
  | 0x52 => 
    if w0.extractLsb' 13 1 = 0 then zeros (w0.extractLsb' 0 13 = 0 ∧ w0.extractLsb' 14 5 = 0 ∧ w1.extractLsb' 8 12 = 0) (.vmov p (w1.extractLsb' 26 6) (w1.extractLsb' 20 6) (w1.extractLsb' 5 3) (w1.extractLsb' 4 1) (w1.extractLsb' 0 4))
    else
    if w0.extractLsb' 13 1 = 1 then zeros (w0.extractLsb' 0 13 = 0 ∧ w0.extractLsb' 14 5 = 0 ∧ w1.extractLsb' 0 5 = 0 ∧ w1.extractLsb' 8 18 = 0) (.vmovTerm p (w1.extractLsb' 26 6) (w1.extractLsb' 5 3))
    else reserved (w0.extractLsb' 0 13 = 0 ∧ w0.extractLsb' 14 5 = 0 ∧ w1.extractLsb' 8 12 = 0)
  | 0x53 => zeros (w1.extractLsb' 8 12 = 0) (.vbcast p (w0.extractLsb' 14 5) (w0.extractLsb' 13 1) (w0.extractLsb' 0 13) (w1.extractLsb' 26 6) (w1.extractLsb' 20 6) (w1.extractLsb' 5 3) (w1.extractLsb' 4 1) (w1.extractLsb' 0 4))
  | 0x54 => zeros (w1.extractLsb' 8 18 = 0) (.viota p (w0.extractLsb' 14 5) (w0.extractLsb' 0 14) (w1.extractLsb' 26 6) (w1.extractLsb' 5 3) (w1.extractLsb' 4 1) (w1.extractLsb' 0 4))
  | 0x55 => zeros (w0.extractLsb' 4 15 = 0 ∧ w1.extractLsb' 8 12 = 0) (.vcvt p (w0.extractLsb' 0 4) (w1.extractLsb' 26 6) (w1.extractLsb' 20 6) (w1.extractLsb' 5 3) (w1.extractLsb' 4 1) (w1.extractLsb' 0 4))
  | 0x56 => zeros (w0.extractLsb' 0 19 = 0 ∧ w1.extractLsb' 8 6 = 0) (.vperm p (w1.extractLsb' 26 6) (w1.extractLsb' 20 6) (w1.extractLsb' 14 6) (w1.extractLsb' 5 3) (w1.extractLsb' 4 1) (w1.extractLsb' 0 4))
  | 0x57 => zeros (w0.extractLsb' 0 19 = 0 ∧ w1.extractLsb' 8 12 = 0) (.vnib p (w1.extractLsb' 26 6) (w1.extractLsb' 20 6) (w1.extractLsb' 5 3) (w1.extractLsb' 4 1) (w1.extractLsb' 0 4))
  | 0x58 => zeros (w0.extractLsb' 0 19 = 0 ∧ w1.extractLsb' 8 6 = 0) (.vzip p (w1.extractLsb' 26 6) (w1.extractLsb' 20 6) (w1.extractLsb' 14 6) (w1.extractLsb' 5 3) (w1.extractLsb' 4 1) (w1.extractLsb' 0 4))
  | 0x59 => zeros (w0.extractLsb' 0 19 = 0 ∧ w1.extractLsb' 8 12 = 0) (.vunzip p (w1.extractLsb' 26 6) (w1.extractLsb' 20 6) (w1.extractLsb' 5 3) (w1.extractLsb' 4 1) (w1.extractLsb' 0 4))
  | 0x5a => zeros (w0.extractLsb' 0 14 = 0 ∧ w1.extractLsb' 8 6 = 0) (.vslide p (w0.extractLsb' 14 5) (w1.extractLsb' 26 6) (w1.extractLsb' 20 6) (w1.extractLsb' 14 6) (w1.extractLsb' 5 3) (w1.extractLsb' 4 1) (w1.extractLsb' 0 4))
  | 0x5b => zeros (w0.extractLsb' 4 15 = 0 ∧ w1.extractLsb' 8 6 = 0) (.vgath p (w0.extractLsb' 3 1) (w0.extractLsb' 0 3) (w1.extractLsb' 26 6) (w1.extractLsb' 20 6) (w1.extractLsb' 14 6) (w1.extractLsb' 5 3) (w1.extractLsb' 4 1) (w1.extractLsb' 0 4))
  | 0x5c => zeros (w0.extractLsb' 4 15 = 0 ∧ w1.extractLsb' 8 6 = 0) (.vscat p (w0.extractLsb' 3 1) (w0.extractLsb' 0 3) (w1.extractLsb' 26 6) (w1.extractLsb' 20 6) (w1.extractLsb' 14 6) (w1.extractLsb' 5 3) (w1.extractLsb' 4 1) (w1.extractLsb' 0 4))
  | 0x5d => zeros (w0.extractLsb' 4 15 = 0 ∧ w1.extractLsb' 8 12 = 0) (.vbmp p (w0.extractLsb' 3 1) (w0.extractLsb' 0 3) (w1.extractLsb' 26 6) (w1.extractLsb' 20 6) (w1.extractLsb' 5 3) (w1.extractLsb' 4 1) (w1.extractLsb' 0 4))
  | 0x5e => zeros (w0.extractLsb' 1 13 = 0 ∧ w1.extractLsb' 8 12 = 0 ∧ w1.extractLsb' 26 6 = 0) (.vpopc p (w0.extractLsb' 14 5) (w0.extractLsb' 0 1) (w1.extractLsb' 20 6) (w1.extractLsb' 5 3) (w1.extractLsb' 4 1) (w1.extractLsb' 0 4))
  | 0x60 => zeros (w0.extractLsb' 0 19 = 0 ∧ w1.extractLsb' 8 12 = 0) (.vexp2 p (w1.extractLsb' 26 6) (w1.extractLsb' 20 6) (w1.extractLsb' 5 3) (w1.extractLsb' 4 1) (w1.extractLsb' 0 4))
  | 0x61 => zeros (w0.extractLsb' 0 19 = 0 ∧ w1.extractLsb' 8 12 = 0) (.vlog2 p (w1.extractLsb' 26 6) (w1.extractLsb' 20 6) (w1.extractLsb' 5 3) (w1.extractLsb' 4 1) (w1.extractLsb' 0 4))
  | 0x62 => zeros (w0.extractLsb' 0 19 = 0 ∧ w1.extractLsb' 8 12 = 0) (.vrcpa p (w1.extractLsb' 26 6) (w1.extractLsb' 20 6) (w1.extractLsb' 5 3) (w1.extractLsb' 4 1) (w1.extractLsb' 0 4))
  | 0x63 => zeros (w0.extractLsb' 0 19 = 0 ∧ w1.extractLsb' 8 12 = 0) (.vrsqa p (w1.extractLsb' 26 6) (w1.extractLsb' 20 6) (w1.extractLsb' 5 3) (w1.extractLsb' 4 1) (w1.extractLsb' 0 4))
  | 0x64 => zeros (w0.extractLsb' 0 14 = 0 ∧ w1.extractLsb' 8 12 = 0 ∧ w1.extractLsb' 26 6 = 0) (.vrsum p (w0.extractLsb' 14 5) (w1.extractLsb' 20 6) (w1.extractLsb' 5 3) (w1.extractLsb' 4 1) (w1.extractLsb' 0 4))
  | 0x65 => zeros (w0.extractLsb' 0 14 = 0 ∧ w1.extractLsb' 8 12 = 0 ∧ w1.extractLsb' 26 6 = 0) (.vrmax p (w0.extractLsb' 14 5) (w1.extractLsb' 20 6) (w1.extractLsb' 5 3) (w1.extractLsb' 4 1) (w1.extractLsb' 0 4))
  | 0x66 => zeros (w0.extractLsb' 0 14 = 0 ∧ w1.extractLsb' 8 12 = 0 ∧ w1.extractLsb' 26 6 = 0) (.vrmin p (w0.extractLsb' 14 5) (w1.extractLsb' 20 6) (w1.extractLsb' 5 3) (w1.extractLsb' 4 1) (w1.extractLsb' 0 4))
  | 0x68 => zeros (w0.extractLsb' 6 13 = 0) (.vdraw p (w0.extractLsb' 5 1) (w0.extractLsb' 0 5) (w1.extractLsb' 26 6) (w1.extractLsb' 20 6) (w1.extractLsb' 14 6) (w1.extractLsb' 8 6) (w1.extractLsb' 5 3) (w1.extractLsb' 4 1) (w1.extractLsb' 0 4))
  | 0x69 => zeros (w0.extractLsb' 1 18 = 0 ∧ w1.extractLsb' 0 8 = 0) (.vdmerge p (w0.extractLsb' 0 1) (w1.extractLsb' 26 6) (w1.extractLsb' 20 6) (w1.extractLsb' 14 6) (w1.extractLsb' 8 6))
  | 0x6a => zeros (w0.extractLsb' 10 4 = 0 ∧ w1.extractLsb' 4 28 = 0) (.selinit p (w0.extractLsb' 14 5) (w0.extractLsb' 9 1) (w0.extractLsb' 8 1) (w0.extractLsb' 0 8) (w1.extractLsb' 0 4))
  | 0x6b => zeros (w0.extractLsb' 0 14 = 0 ∧ w1.extractLsb' 8 12 = 0 ∧ w1.extractLsb' 26 6 = 0) (.selfeed p (w0.extractLsb' 14 5) (w1.extractLsb' 20 6) (w1.extractLsb' 5 3) (w1.extractLsb' 4 1) (w1.extractLsb' 0 4))
  | 0x6c => zeros (w0.extractLsb' 14 5 = 0 ∧ w1.extractLsb' 0 8 = 0 ∧ w1.extractLsb' 14 12 = 0) (.seldrain p (w0.extractLsb' 0 14) (w1.extractLsb' 26 6) (w1.extractLsb' 8 6))
  | 0x6d => zeros (w0.extractLsb' 3 16 = 0 ∧ w1.extractLsb' 4 16 = 0 ∧ w1.extractLsb' 26 6 = 0) (.selmrg p (w0.extractLsb' 0 3) (w1.extractLsb' 20 6) (w1.extractLsb' 0 4))
  | 0x6e => zeros (w0.extractLsb' 12 7 = 0 ∧ w1.extractLsb' 8 6 = 0) (.vdotq p (w0.extractLsb' 0 12) (w1.extractLsb' 26 6) (w1.extractLsb' 20 6) (w1.extractLsb' 14 6) (w1.extractLsb' 5 3) (w1.extractLsb' 4 1) (w1.extractLsb' 0 4))
  | 0x6f => zeros (w0.extractLsb' 12 7 = 0 ∧ w1.extractLsb' 8 6 = 0) (.vl2q p (w0.extractLsb' 0 12) (w1.extractLsb' 26 6) (w1.extractLsb' 20 6) (w1.extractLsb' 14 6) (w1.extractLsb' 5 3) (w1.extractLsb' 4 1) (w1.extractLsb' 0 4))
  | 0x70 => zeros (w0.extractLsb' 3 16 = 0 ∧ w1.extractLsb' 4 1 = 0 ∧ w1.extractLsb' 8 6 = 0 ∧ w1.extractLsb' 26 6 = 0) (.mpush p (w0.extractLsb' 0 3) (w1.extractLsb' 20 6) (w1.extractLsb' 14 6) (w1.extractLsb' 5 3) (w1.extractLsb' 0 4))
  | 0x71 => zeros (w0.extractLsb' 0 19 = 0 ∧ w1.extractLsb' 0 32 = 0) (.minv p)
  | 0x72 => zeros (w0.extractLsb' 0 19 = 0 ∧ w1.extractLsb' 0 32 = 0) (.mpop p)
  | 0x73 => zeros (w0.extractLsb' 14 5 = 0 ∧ w1.extractLsb' 0 32 = 0) (.bmz p (w0.extractLsb' 0 14))
  | 0x74 => zeros (w1.extractLsb' 4 1 = 0 ∧ w1.extractLsb' 8 24 = 0) (.exts p (w0.extractLsb' 14 5) (w0.extractLsb' 13 1) (w0.extractLsb' 0 13) (w1.extractLsb' 5 3) (w1.extractLsb' 0 4))
  | 0x75 => zeros (w0.extractLsb' 6 8 = 0 ∧ w1.extractLsb' 0 20 = 0) (.mloop p (w0.extractLsb' 14 5) (w0.extractLsb' 0 6) (w1.extractLsb' 20 12))
  | _ => .error .unassigned

/-- The F-private map of the opcodes (R84, R293). -/
def decodeF (p : BitVec 4) (mj : Nat) (w0 w1 : BitVec 32) : Except Reject Instr :=
  match mj with
  | 0x40 => 
    if w0.extractLsb' 13 1 = 0 then zeros (w0.extractLsb' 0 13 = 0) (.zcnv p (w0.extractLsb' 14 5) (w1.extractLsb' 25 7) (w1.extractLsb' 20 5) (w1.extractLsb' 16 4) (w1.extractLsb' 14 2) (w1.extractLsb' 13 1) (w1.extractLsb' 12 1) (w1.extractLsb' 6 6) (w1.extractLsb' 0 6))
    else
    if w0.extractLsb' 13 1 = 1 then zeros (w0.extractLsb' 0 13 = 0 ∧ w0.extractLsb' 14 5 = 0 ∧ w1.extractLsb' 0 20 = 0 ∧ w1.extractLsb' 25 7 = 0) (.zcnvTerm p (w1.extractLsb' 20 5))
    else reserved (w0.extractLsb' 0 13 = 0)
  | 0x41 => 
    if w0.extractLsb' 13 1 = 0 then zeros (w0.extractLsb' 1 12 = 0 ∧ w0.extractLsb' 14 5 = 0 ∧ w1.extractLsb' 0 16 = 0 ∧ w1.extractLsb' 25 7 = 0) (.zcomp p (w0.extractLsb' 0 1) (w1.extractLsb' 20 5) (w1.extractLsb' 16 4))
    else
    if w0.extractLsb' 13 1 = 1 then zeros (w0.extractLsb' 0 13 = 0 ∧ w0.extractLsb' 14 5 = 0 ∧ w1.extractLsb' 0 20 = 0 ∧ w1.extractLsb' 25 7 = 0) (.zcompTerm p (w1.extractLsb' 20 5))
    else reserved (w0.extractLsb' 1 12 = 0 ∧ w0.extractLsb' 14 5 = 0 ∧ w1.extractLsb' 0 16 = 0 ∧ w1.extractLsb' 25 7 = 0)
  | 0x42 => zeros (w0.extractLsb' 0 19 = 0 ∧ w1.extractLsb' 0 25 = 0) (.zclr p (w1.extractLsb' 25 7))
  | 0x43 => zeros (w0.extractLsb' 0 14 = 0 ∧ w1.extractLsb' 12 1 = 0 ∧ w1.extractLsb' 14 6 = 0) (.zrd p (w0.extractLsb' 14 5) (w1.extractLsb' 25 7) (w1.extractLsb' 20 5) (w1.extractLsb' 13 1) (w1.extractLsb' 6 6) (w1.extractLsb' 0 6))
  | 0x44 => 
    if w0.extractLsb' 0 2 = 0 then zeros (w0.extractLsb' 2 17 = 0 ∧ w1.extractLsb' 0 25 = 0) (.fprtTile p (w1.extractLsb' 25 7))
    else
    if w0.extractLsb' 0 2 = 1 then zeros (w0.extractLsb' 3 16 = 0 ∧ w1.extractLsb' 0 16 = 0 ∧ w1.extractLsb' 25 7 = 0) (.fprtPass p (w0.extractLsb' 2 1) (w1.extractLsb' 20 5) (w1.extractLsb' 16 4))
    else
    if w0.extractLsb' 0 2 = 2 then zeros (w0.extractLsb' 2 17 = 0 ∧ w1.extractLsb' 0 20 = 0 ∧ w1.extractLsb' 25 7 = 0) (.fprtEmit p (w1.extractLsb' 20 5))
    else reserved (w0.extractLsb' 3 16 = 0 ∧ w1 = 0)
  | 0x45 => zeros (w0.extractLsb' 0 19 = 0 ∧ w1.extractLsb' 0 13 = 0 ∧ w1.extractLsb' 14 6 = 0) (.fsqa p (w1.extractLsb' 25 7) (w1.extractLsb' 20 5) (w1.extractLsb' 13 1))
  | 0x46 => 
    if w0.extractLsb' 1 1 = 0 then zeros (w0.extractLsb' 2 17 = 0 ∧ w1.extractLsb' 0 32 = 0) (.fscl p (w0.extractLsb' 0 1))
    else
    if w0.extractLsb' 1 1 = 1 then zeros (w0.extractLsb' 2 17 = 0 ∧ w1.extractLsb' 0 32 = 0) (.fsclRng p (w0.extractLsb' 0 1))
    else reserved (w0.extractLsb' 2 17 = 0 ∧ w1.extractLsb' 0 32 = 0)
  | 0x47 => 
    if w0.extractLsb' 13 1 = 0 then zeros (w0.extractLsb' 1 12 = 0 ∧ w0.extractLsb' 14 5 = 0 ∧ w1.extractLsb' 5 15 = 0 ∧ w1.extractLsb' 25 7 = 0) (.fmv p (w0.extractLsb' 0 1) (w1.extractLsb' 20 5) (w1.extractLsb' 0 5))
    else
    if w0.extractLsb' 13 1 = 1 then zeros (w0.extractLsb' 0 13 = 0 ∧ w0.extractLsb' 14 5 = 0 ∧ w1.extractLsb' 0 20 = 0 ∧ w1.extractLsb' 25 7 = 0) (.fmvTerm p (w1.extractLsb' 20 5))
    else reserved (w0.extractLsb' 1 12 = 0 ∧ w0.extractLsb' 14 5 = 0 ∧ w1.extractLsb' 5 15 = 0 ∧ w1.extractLsb' 25 7 = 0)
  | 0x48 => zeros (w0.extractLsb' 0 14 = 0 ∧ w1.extractLsb' 0 25 = 0) (.fwait p (w0.extractLsb' 14 5) (w1.extractLsb' 25 7))
  | _ => .error .unassigned

/-- The instruction that two words hold (the second is ignored by a one-word instruction). -/
def decode (w0 w1 : BitVec 32) : Except Reject Instr :=
  let t := engOf (w0.extractLsb' 30 2)
  let p := w0.extractLsb' 26 4
  let mj := (w0.extractLsb' 19 7).toNat
  if mj ≤ 0x3F then decodeShared t p mj w0 w1
  else match t with
    | .C => decodeC p mj w0 w1
    | .A => decodeA p mj w0 w1
    | .X => decodeX p mj w0 w1
    | .F => decodeF p mj w0 w1

/-- The instruction and its length in words. -/
def decodeWords : List (BitVec 32) → Except Reject (Instr × List (BitVec 32))
  | [] => .error .unassigned
  | w0 :: ws =>
    match decode w0 (ws.headD 0) with
    | .error r => .error r
    | .ok i => .ok (i, ws.drop (wordLength (engOf (w0.extractLsb' 30 2)) (w0.extractLsb' 19 7).toNat - 1))

/-- The lowest cause among 1 to 5 that the first word decides alone, when the second word lies beyond the text (R86).
The target of BMZ, which is cause 5, is the machine's to check. -/
def firstWordCause (w0 : BitVec 32) : Option Nat :=
  match decode w0 0 with
  | .error r => some r.cause
  | .ok i => Illegal.least (Illegal.firstWord i)

/-- The words of an instruction, from the layouts of Tables 3-5, 3-7 and 3-8. An event has no words. -/
def encode : Instr → List (BitVec 32)
  | .nop t p => [Eng.tag t ++ p ++ 0x00#7 ++ 0#19]
  | .done t p => [Eng.tag t ++ p ++ 0x01#7 ++ 0#19]
  | .b t p off19 => [Eng.tag t ++ p ++ 0x02#7 ++ off19]
  | .call t p off19 => [Eng.tag t ++ p ++ 0x03#7 ++ off19]
  | .ret t p => [Eng.tag t ++ p ++ 0x04#7 ++ 0#19]
  | .btk t p q imm14 => [Eng.tag t ++ p ++ 0x05#7 ++ q ++ imm14]
  | .brkl t p => [Eng.tag t ++ p ++ 0x06#7 ++ 0#19]
  | .beq t p gx gy imm9 => [Eng.tag t ++ p ++ 0x08#7 ++ gx ++ gy ++ imm9]
  | .bne t p gx gy imm9 => [Eng.tag t ++ p ++ 0x09#7 ++ gx ++ gy ++ imm9]
  | .blt t p gx gy imm9 => [Eng.tag t ++ p ++ 0x0a#7 ++ gx ++ gy ++ imm9]
  | .bge t p gx gy imm9 => [Eng.tag t ++ p ++ 0x0b#7 ++ gx ++ gy ++ imm9]
  | .blo t p gx gy imm9 => [Eng.tag t ++ p ++ 0x0c#7 ++ gx ++ gy ++ imm9]
  | .bhs t p gx gy imm9 => [Eng.tag t ++ p ++ 0x0d#7 ++ gx ++ gy ++ imm9]
  | .loop t p ga imm9 => [Eng.tag t ++ p ++ 0x0e#7 ++ 0#5 ++ ga ++ imm9]
  | .loopi t p n imm9 => [Eng.tag t ++ p ++ 0x0f#7 ++ n ++ imm9]
  | .add t p gd ga gb => [Eng.tag t ++ p ++ 0x10#7 ++ gd ++ ga ++ gb ++ 0#4]
  | .sub t p gd ga gb => [Eng.tag t ++ p ++ 0x10#7 ++ gd ++ ga ++ gb ++ 1#4]
  | .mul t p gd ga gb => [Eng.tag t ++ p ++ 0x10#7 ++ gd ++ ga ++ gb ++ 2#4]
  | .mulh t p gd ga gb => [Eng.tag t ++ p ++ 0x10#7 ++ gd ++ ga ++ gb ++ 3#4]
  | .andg t p gd ga gb => [Eng.tag t ++ p ++ 0x10#7 ++ gd ++ ga ++ gb ++ 4#4]
  | .org t p gd ga gb => [Eng.tag t ++ p ++ 0x10#7 ++ gd ++ ga ++ gb ++ 5#4]
  | .xorg t p gd ga gb => [Eng.tag t ++ p ++ 0x10#7 ++ gd ++ ga ++ gb ++ 6#4]
  | .shl t p gd ga gb => [Eng.tag t ++ p ++ 0x10#7 ++ gd ++ ga ++ gb ++ 7#4]
  | .shr t p gd ga gb => [Eng.tag t ++ p ++ 0x10#7 ++ gd ++ ga ++ gb ++ 8#4]
  | .sra t p gd ga gb => [Eng.tag t ++ p ++ 0x10#7 ++ gd ++ ga ++ gb ++ 9#4]
  | .slt t p gd ga gb => [Eng.tag t ++ p ++ 0x10#7 ++ gd ++ ga ++ gb ++ 10#4]
  | .sltn t p gd ga gb => [Eng.tag t ++ p ++ 0x10#7 ++ gd ++ ga ++ gb ++ 11#4]
  | .min t p gd ga gb => [Eng.tag t ++ p ++ 0x10#7 ++ gd ++ ga ++ gb ++ 12#4]
  | .max t p gd ga gb => [Eng.tag t ++ p ++ 0x10#7 ++ gd ++ ga ++ gb ++ 13#4]
  | .mov t p gd ga => [Eng.tag t ++ p ++ 0x10#7 ++ gd ++ ga ++ 0#5 ++ 14#4]
  | .addi t p gd ga imm9 => [Eng.tag t ++ p ++ 0x11#7 ++ gd ++ ga ++ imm9]
  | .andi t p gd ga imm9 => [Eng.tag t ++ p ++ 0x12#7 ++ gd ++ ga ++ imm9]
  | .ori t p gd ga imm9 => [Eng.tag t ++ p ++ 0x13#7 ++ gd ++ ga ++ imm9]
  | .xori t p gd ga imm9 => [Eng.tag t ++ p ++ 0x14#7 ++ gd ++ ga ++ imm9]
  | .shli t p gd ga sh => [Eng.tag t ++ p ++ 0x15#7 ++ gd ++ ga ++ 0#3 ++ sh]
  | .shri t p gd ga sh => [Eng.tag t ++ p ++ 0x16#7 ++ gd ++ ga ++ 0#3 ++ sh]
  | .srai t p gd ga sh => [Eng.tag t ++ p ++ 0x17#7 ++ gd ++ ga ++ 0#3 ++ sh]
  | .spl t p gd imm14 => [Eng.tag t ++ p ++ 0x18#7 ++ gd ++ imm14]
  | .sps t p gd imm14 => [Eng.tag t ++ p ++ 0x19#7 ++ gd ++ imm14]
  | .svra t p n imm14 => [Eng.tag t ++ p ++ 0x1a#7 ++ n ++ imm14]
  | .ldra t p n imm14 => [Eng.tag t ++ p ++ 0x1b#7 ++ n ++ imm14]
  | .waitt t p f n => [Eng.tag t ++ p ++ 0x1c#7 ++ f ++ 0#8 ++ n]
  | .sigt t p f n => [Eng.tag t ++ p ++ 0x1d#7 ++ f ++ 0#8 ++ n]
  | .qdrop t p q imm14 => [Eng.tag t ++ p ++ 0x1e#7 ++ q ++ imm14]
  | .li t p gd immh imml => [Eng.tag t ++ p ++ 0x3e#7 ++ gd ++ immh, imml]
  | .csrr p gd csr => [0b00#2 ++ p ++ 0x40#7 ++ gd ++ csr]
  | .csrw p gd csr => [0b00#2 ++ p ++ 0x41#7 ++ gd ++ csr]
  | .csrs p gd csr => [0b00#2 ++ p ++ 0x42#7 ++ gd ++ csr]
  | .csrc p gd csr => [0b00#2 ++ p ++ 0x43#7 ++ gd ++ csr]
  | .amoaddAcq p gd ga gb w32 => [0b00#2 ++ p ++ 0x44#7 ++ gd ++ ga ++ gb ++ w32 ++ 0#3]
  | .amoaddRel p gd ga gb w32 => [0b00#2 ++ p ++ 0x45#7 ++ gd ++ ga ++ gb ++ w32 ++ 0#3]
  | .amoaddAr p gd ga gb w32 => [0b00#2 ++ p ++ 0x46#7 ++ gd ++ ga ++ gb ++ w32 ++ 0#3]
  | .amoandAcq p gd ga gb w32 => [0b00#2 ++ p ++ 0x44#7 ++ gd ++ ga ++ gb ++ w32 ++ 1#3]
  | .amoandRel p gd ga gb w32 => [0b00#2 ++ p ++ 0x45#7 ++ gd ++ ga ++ gb ++ w32 ++ 1#3]
  | .amoandAr p gd ga gb w32 => [0b00#2 ++ p ++ 0x46#7 ++ gd ++ ga ++ gb ++ w32 ++ 1#3]
  | .amoorAcq p gd ga gb w32 => [0b00#2 ++ p ++ 0x44#7 ++ gd ++ ga ++ gb ++ w32 ++ 2#3]
  | .amoorRel p gd ga gb w32 => [0b00#2 ++ p ++ 0x45#7 ++ gd ++ ga ++ gb ++ w32 ++ 2#3]
  | .amoorAr p gd ga gb w32 => [0b00#2 ++ p ++ 0x46#7 ++ gd ++ ga ++ gb ++ w32 ++ 2#3]
  | .amominAcq p gd ga gb w32 => [0b00#2 ++ p ++ 0x44#7 ++ gd ++ ga ++ gb ++ w32 ++ 3#3]
  | .amominRel p gd ga gb w32 => [0b00#2 ++ p ++ 0x45#7 ++ gd ++ ga ++ gb ++ w32 ++ 3#3]
  | .amominAr p gd ga gb w32 => [0b00#2 ++ p ++ 0x46#7 ++ gd ++ ga ++ gb ++ w32 ++ 3#3]
  | .amomaxAcq p gd ga gb w32 => [0b00#2 ++ p ++ 0x44#7 ++ gd ++ ga ++ gb ++ w32 ++ 4#3]
  | .amomaxRel p gd ga gb w32 => [0b00#2 ++ p ++ 0x45#7 ++ gd ++ ga ++ gb ++ w32 ++ 4#3]
  | .amomaxAr p gd ga gb w32 => [0b00#2 ++ p ++ 0x46#7 ++ gd ++ ga ++ gb ++ w32 ++ 4#3]
  | .amoswpAcq p gd ga gb w32 => [0b00#2 ++ p ++ 0x44#7 ++ gd ++ ga ++ gb ++ w32 ++ 5#3]
  | .amoswpRel p gd ga gb w32 => [0b00#2 ++ p ++ 0x45#7 ++ gd ++ ga ++ gb ++ w32 ++ 5#3]
  | .amoswpAr p gd ga gb w32 => [0b00#2 ++ p ++ 0x46#7 ++ gd ++ ga ++ gb ++ w32 ++ 5#3]
  | .amocasAcq p gd ga gb w32 => [0b00#2 ++ p ++ 0x44#7 ++ gd ++ ga ++ gb ++ w32 ++ 6#3]
  | .amocasRel p gd ga gb w32 => [0b00#2 ++ p ++ 0x45#7 ++ gd ++ ga ++ gb ++ w32 ++ 6#3]
  | .amocasAr p gd ga gb w32 => [0b00#2 ++ p ++ 0x46#7 ++ gd ++ ga ++ gb ++ w32 ++ 6#3]
  | .fenceAcq p => [0b00#2 ++ p ++ 0x47#7 ++ 0#15 ++ 0#4]
  | .fenceRel p => [0b00#2 ++ p ++ 0x47#7 ++ 0#15 ++ 1#4]
  | .phase p lvl => [0b00#2 ++ p ++ 0x48#7 ++ 0#16 ++ lvl]
  | .trap p code => [0b00#2 ++ p ++ 0x49#7 ++ 0#5 ++ code]
  | .eret p => [0b00#2 ++ p ++ 0x4a#7 ++ 0#19]
  | .wfe p => [0b00#2 ++ p ++ 0x4b#7 ++ 0#19]
  | .fadd p gd ga gb => [0b00#2 ++ p ++ 0x4c#7 ++ gd ++ ga ++ gb ++ 0#4]
  | .fsub p gd ga gb => [0b00#2 ++ p ++ 0x4c#7 ++ gd ++ ga ++ gb ++ 1#4]
  | .fmul p gd ga gb => [0b00#2 ++ p ++ 0x4c#7 ++ gd ++ ga ++ gb ++ 2#4]
  | .fmin p gd ga gb => [0b00#2 ++ p ++ 0x4c#7 ++ gd ++ ga ++ gb ++ 3#4]
  | .fmax p gd ga gb => [0b00#2 ++ p ++ 0x4c#7 ++ gd ++ ga ++ gb ++ 4#4]
  | .feq p gd ga gb => [0b00#2 ++ p ++ 0x4c#7 ++ gd ++ ga ++ gb ++ 5#4]
  | .flt p gd ga gb => [0b00#2 ++ p ++ 0x4c#7 ++ gd ++ ga ++ gb ++ 6#4]
  | .fle p gd ga gb => [0b00#2 ++ p ++ 0x4c#7 ++ gd ++ ga ++ gb ++ 7#4]
  | .fcvt p gd ga t2 t1 => [0b00#2 ++ p ++ 0x4d#7 ++ gd ++ ga ++ 0#1 ++ t2 ++ t1]
  | .wqpush p gd ga gb => [0b00#2 ++ p ++ 0x4e#7 ++ gd ++ ga ++ gb ++ 0#4]
  | .spawn p gd gb => [0b00#2 ++ p ++ 0x4f#7 ++ gd ++ 0#5 ++ gb ++ 0#4]
  | .resolve p gd ga v => [0b00#2 ++ p ++ 0x50#7 ++ gd ++ ga ++ 0#8 ++ v]
  | .cvnew p gd => [0b00#2 ++ p ++ 0x51#7 ++ gd ++ 0#14]
  | .cvfree p ga => [0b00#2 ++ p ++ 0x52#7 ++ 0#5 ++ ga ++ 0#9]
  | .yield p => [0b00#2 ++ p ++ 0x53#7 ++ 0#19]
  | .mbsend p gd ga gb => [0b00#2 ++ p ++ 0x54#7 ++ gd ++ ga ++ gb ++ 0#4]
  | .mbrecv p gd ga gb => [0b00#2 ++ p ++ 0x55#7 ++ gd ++ ga ++ gb ++ 0#4]
  | .mbpoll p gd ga gb => [0b00#2 ++ p ++ 0x56#7 ++ gd ++ ga ++ gb ++ 0#4]
  | .nestw p gd ga gb => [0b00#2 ++ p ++ 0x57#7 ++ gd ++ ga ++ gb ++ 0#4]
  | .ngo p => [0b00#2 ++ p ++ 0x58#7 ++ 0#19]
  | .nwait p => [0b00#2 ++ p ++ 0x59#7 ++ 0#19]
  | .fmtq p ga => [0b00#2 ++ p ++ 0x5a#7 ++ 0#5 ++ ga ++ 0#9]
  | .tlbir p gd ga gb => [0b00#2 ++ p ++ 0x5b#7 ++ gd ++ ga ++ gb ++ 0#4]
  | .tlback p => [0b00#2 ++ p ++ 0x5c#7 ++ 0#19]
  | .ld p gd ga sz off => [0b00#2 ++ p ++ 0x60#7 ++ gd ++ ga ++ 0#5 ++ sz, off]
  | .st p ga gb sz off => [0b00#2 ++ p ++ 0x61#7 ++ 0#5 ++ ga ++ gb ++ sz, off]
  | .ffma p gd ga gb gc => [0b00#2 ++ p ++ 0x62#7 ++ gd ++ ga ++ gb ++ 0#4, gc ++ 0#27]
  | .spawnc p gd ga gb pr side => [0b00#2 ++ p ++ 0x63#7 ++ gd ++ ga ++ gb ++ 0#4, pr ++ side ++ 0#15]
  | .ldq p rg gd ga q xe xc aty imm18 => [0b01#2 ++ p ++ 0x40#7 ++ gd ++ ga ++ 0#5 ++ 0#3 ++ rg, q ++ 0#3 ++ xc ++ xe ++ aty ++ imm18]
  | .ldqTerm p q xe xc => [0b01#2 ++ p ++ 0x40#7 ++ 0#15 ++ 2#4, q ++ 0#3 ++ xc ++ xe ++ 0#22]
  | .stq p rg gd ga q xc imm18 => [0b01#2 ++ p ++ 0x41#7 ++ gd ++ ga ++ 0#5 ++ 0#3 ++ rg, q ++ 0#3 ++ xc ++ 0#5 ++ imm18]
  | .rinit p ga gb q pe n1 => [0b01#2 ++ p ++ 0x42#7 ++ 0#5 ++ ga ++ gb ++ 0#4, q ++ 0#4 ++ pe ++ 0#12 ++ n1]
  | .radvHead p q imm18 => [0b01#2 ++ p ++ 0x43#7 ++ 0#19, q ++ 0#4 ++ 0#1 ++ 0#4 ++ imm18]
  | .radvTail p q imm18 => [0b01#2 ++ p ++ 0x43#7 ++ 0#19, q ++ 0#4 ++ 1#1 ++ 0#4 ++ imm18]
  | .rwaitHead p q imm18 => [0b01#2 ++ p ++ 0x44#7 ++ 0#19, q ++ 0#4 ++ 0#1 ++ 0#4 ++ imm18]
  | .rwaitTail p q imm18 => [0b01#2 ++ p ++ 0x44#7 ++ 0#19, q ++ 0#4 ++ 1#1 ++ 0#4 ++ imm18]
  | .swz p ga q span => [0b01#2 ++ p ++ 0x45#7 ++ 0#5 ++ ga ++ 0#9, q ++ 0#24 ++ span]
  | .gld p rg gd ga gb imm18 => [0b01#2 ++ p ++ 0x46#7 ++ gd ++ ga ++ gb ++ 0#3 ++ rg, 0#14 ++ imm18]
  | .gst p rg gd ga gb imm18 => [0b01#2 ++ p ++ 0x47#7 ++ gd ++ ga ++ gb ++ 0#3 ++ rg, 0#14 ++ imm18]
  | .lchain p gd ga lad => [0b01#2 ++ p ++ 0x48#7 ++ gd ++ ga ++ 0#9, 0#9 ++ lad ++ 0#22]
  | .preft p ga gb dies => [0b01#2 ++ p ++ 0x49#7 ++ 0#5 ++ ga ++ gb ++ 0#4, 0#28 ++ dies]
  | .shdwDef p gd ga gb imm18 => [0b01#2 ++ p ++ 0x4a#7 ++ gd ++ ga ++ gb ++ 0#4, 0#14 ++ imm18]
  | .shdwArm p gd => [0b01#2 ++ p ++ 0x4a#7 ++ gd ++ 0#10 ++ 1#4, 0#32]
  | .shdwFree p gd => [0b01#2 ++ p ++ 0x4a#7 ++ gd ++ 0#10 ++ 2#4, 0#32]
  | .publ p ga => [0b01#2 ++ p ++ 0x4b#7 ++ 0#5 ++ ga ++ 0#9, 0#32]
  | .astatEcur p gd => [0b01#2 ++ p ++ 0x4c#7 ++ gd ++ 0#10 ++ 0#4, 0#32]
  | .astatScur p gd => [0b01#2 ++ p ++ 0x4c#7 ++ gd ++ 0#10 ++ 1#4, 0#32]
  | .astatSetec p ga => [0b01#2 ++ p ++ 0x4c#7 ++ 0#5 ++ ga ++ 0#5 ++ 2#4, 0#32]
  | .astatSetsc p ga => [0b01#2 ++ p ++ 0x4c#7 ++ 0#5 ++ ga ++ 0#5 ++ 3#4, 0#32]
  | .astatRing p gd rk => [0b01#2 ++ p ++ 0x4c#7 ++ gd ++ 0#10 ++ 4#4, 0#28 ++ rk]
  | .astatSwait p gd n sem => [0b01#2 ++ p ++ 0x4c#7 ++ gd ++ 0#10 ++ 5#4, 0#14 ++ n ++ sem]
  | .astatSsig p gd po n sem => [0b01#2 ++ p ++ 0x4c#7 ++ gd ++ 0#10 ++ 6#4, 0#9 ++ po ++ 0#4 ++ n ++ sem]
  | .astatSread p gd sem => [0b01#2 ++ p ++ 0x4c#7 ++ gd ++ 0#10 ++ 7#4, 0#24 ++ sem]
  | .astatSset p ga sem => [0b01#2 ++ p ++ 0x4c#7 ++ 0#5 ++ ga ++ 0#5 ++ 8#4, 0#24 ++ sem]
  | .astatChain p gd ga => [0b01#2 ++ p ++ 0x4c#7 ++ gd ++ ga ++ 0#5 ++ 9#4, 0#32]
  | .kvw p gd ga gb imm18 => [0b01#2 ++ p ++ 0x50#7 ++ gd ++ ga ++ gb ++ 0#4, 0#14 ++ imm18]
  | .kvrn p gd ga gb => [0b01#2 ++ p ++ 0x51#7 ++ gd ++ ga ++ gb ++ 0#4, 0#32]
  | .kvadv p ga gb => [0b01#2 ++ p ++ 0x52#7 ++ 0#5 ++ ga ++ gb ++ 0#4, 0#32]
  | .kvrwd p ga gb => [0b01#2 ++ p ++ 0x53#7 ++ 0#5 ++ ga ++ gb ++ 0#4, 0#32]
  | .kvfork p ga gb => [0b01#2 ++ p ++ 0x54#7 ++ 0#5 ++ ga ++ gb ++ 0#4, 0#32]
  | .kvend p ga => [0b01#2 ++ p ++ 0x55#7 ++ 0#5 ++ ga ++ 0#9, 0#32]
  | .kvgath p gd ga gb q vr pp pr => [0b01#2 ++ p ++ 0x56#7 ++ gd ++ ga ++ gb ++ 0#4, q ++ 0#1 ++ vr ++ 0#17 ++ pp ++ pr]
  | .kvstat p gd ga n => [0b01#2 ++ p ++ 0x57#7 ++ gd ++ ga ++ 0#5 ++ 0#4, 0#28 ++ n]
  | .kvstatDrain p gd ga => [0b01#2 ++ p ++ 0x57#7 ++ gd ++ ga ++ 0#5 ++ 1#4, 0#32]
  | .vadd p sat vd va vb ex mk ty => [0b10#2 ++ p ++ 0x40#7 ++ 0#18 ++ sat, vd ++ va ++ vb ++ 0#6 ++ ex ++ mk ++ ty]
  | .vsub p sat vd va vb ex mk ty => [0b10#2 ++ p ++ 0x41#7 ++ 0#18 ++ sat, vd ++ va ++ vb ++ 0#6 ++ ex ++ mk ++ ty]
  | .vmul p sat vd va vb ex mk ty => [0b10#2 ++ p ++ 0x42#7 ++ 0#18 ++ sat, vd ++ va ++ vb ++ 0#6 ++ ex ++ mk ++ ty]
  | .vfma p sat vd va vb vc ex mk ty => [0b10#2 ++ p ++ 0x43#7 ++ 0#18 ++ sat, vd ++ va ++ vb ++ vc ++ ex ++ mk ++ ty]
  | .vfms p sat vd va vb vc ex mk ty => [0b10#2 ++ p ++ 0x44#7 ++ 0#18 ++ sat, vd ++ va ++ vb ++ vc ++ ex ++ mk ++ ty]
  | .vmin p vd va vb ex mk ty => [0b10#2 ++ p ++ 0x45#7 ++ 0#19, vd ++ va ++ vb ++ 0#6 ++ ex ++ mk ++ ty]
  | .vmax p vd va vb ex mk ty => [0b10#2 ++ p ++ 0x46#7 ++ 0#19, vd ++ va ++ vb ++ 0#6 ++ ex ++ mk ++ ty]
  | .vabs p sat vd va ex mk ty => [0b10#2 ++ p ++ 0x47#7 ++ 0#18 ++ sat, vd ++ va ++ 0#12 ++ ex ++ mk ++ ty]
  | .vneg p sat vd va ex mk ty => [0b10#2 ++ p ++ 0x48#7 ++ 0#18 ++ sat, vd ++ va ++ 0#12 ++ ex ++ mk ++ ty]
  | .vand p vd va vb ex mk ty => [0b10#2 ++ p ++ 0x49#7 ++ 0#19, vd ++ va ++ vb ++ 0#6 ++ ex ++ mk ++ ty]
  | .vor p vd va vb ex mk ty => [0b10#2 ++ p ++ 0x4a#7 ++ 0#19, vd ++ va ++ vb ++ 0#6 ++ ex ++ mk ++ ty]
  | .vxor p vd va vb ex mk ty => [0b10#2 ++ p ++ 0x4b#7 ++ 0#19, vd ++ va ++ vb ++ 0#6 ++ ex ++ mk ++ ty]
  | .vnot p vd va ex mk ty => [0b10#2 ++ p ++ 0x4c#7 ++ 0#19, vd ++ va ++ 0#12 ++ ex ++ mk ++ ty]
  | .vshl p im n vd va vb ex mk ty => [0b10#2 ++ p ++ 0x4d#7 ++ 0#5 ++ im ++ 0#7 ++ n, vd ++ va ++ vb ++ 0#6 ++ ex ++ mk ++ ty]
  | .vshr p im n vd va vb ex mk ty => [0b10#2 ++ p ++ 0x4e#7 ++ 0#5 ++ im ++ 0#7 ++ n, vd ++ va ++ vb ++ 0#6 ++ ex ++ mk ++ ty]
  | .vsra p im n vd va vb ex mk ty => [0b10#2 ++ p ++ 0x4f#7 ++ 0#5 ++ im ++ 0#7 ++ n, vd ++ va ++ vb ++ 0#6 ++ ex ++ mk ++ ty]
  | .vcmp p cc vd va vb ex mk ty => [0b10#2 ++ p ++ 0x50#7 ++ 0#16 ++ cc, vd ++ va ++ vb ++ 0#6 ++ ex ++ mk ++ ty]
  | .vsel p vd va vb vc ex mk ty => [0b10#2 ++ p ++ 0x51#7 ++ 0#19, vd ++ va ++ vb ++ vc ++ ex ++ mk ++ ty]
  | .vmov p vd va ex mk ty => [0b10#2 ++ p ++ 0x52#7 ++ 0#5 ++ 0#1 ++ 0#13, vd ++ va ++ 0#12 ++ ex ++ mk ++ ty]
  | .vmovTerm p vd ex => [0b10#2 ++ p ++ 0x52#7 ++ 0#5 ++ 1#1 ++ 0#13, vd ++ 0#18 ++ ex ++ 0#5]
  | .vbcast p gs lf j vd va ex mk ty => [0b10#2 ++ p ++ 0x53#7 ++ gs ++ lf ++ j, vd ++ va ++ 0#12 ++ ex ++ mk ++ ty]
  | .viota p gs imm14 vd ex mk ty => [0b10#2 ++ p ++ 0x54#7 ++ gs ++ imm14, vd ++ 0#18 ++ ex ++ mk ++ ty]
  | .vcvt p st vd va ex mk ty => [0b10#2 ++ p ++ 0x55#7 ++ 0#15 ++ st, vd ++ va ++ 0#12 ++ ex ++ mk ++ ty]
  | .vperm p vd va vb ex mk ty => [0b10#2 ++ p ++ 0x56#7 ++ 0#19, vd ++ va ++ vb ++ 0#6 ++ ex ++ mk ++ ty]
  | .vnib p vd va ex mk ty => [0b10#2 ++ p ++ 0x57#7 ++ 0#19, vd ++ va ++ 0#12 ++ ex ++ mk ++ ty]
  | .vzip p vd va vb ex mk ty => [0b10#2 ++ p ++ 0x58#7 ++ 0#19, vd ++ va ++ vb ++ 0#6 ++ ex ++ mk ++ ty]
  | .vunzip p vd va ex mk ty => [0b10#2 ++ p ++ 0x59#7 ++ 0#19, vd ++ va ++ 0#12 ++ ex ++ mk ++ ty]
  | .vslide p gs vd va vb ex mk ty => [0b10#2 ++ p ++ 0x5a#7 ++ gs ++ 0#14, vd ++ va ++ vb ++ 0#6 ++ ex ++ mk ++ ty]
  | .vgath p x32 n1 vd va vb ex mk ty => [0b10#2 ++ p ++ 0x5b#7 ++ 0#15 ++ x32 ++ n1, vd ++ va ++ vb ++ 0#6 ++ ex ++ mk ++ ty]
  | .vscat p x32 n1 vd va vb ex mk ty => [0b10#2 ++ p ++ 0x5c#7 ++ 0#15 ++ x32 ++ n1, vd ++ va ++ vb ++ 0#6 ++ ex ++ mk ++ ty]
  | .vbmp p orr n1 vd va ex mk ty => [0b10#2 ++ p ++ 0x5d#7 ++ 0#15 ++ orr ++ n1, vd ++ va ++ 0#12 ++ ex ++ mk ++ ty]
  | .vpopc p gs mm va ex mk ty => [0b10#2 ++ p ++ 0x5e#7 ++ gs ++ 0#13 ++ mm, 0#6 ++ va ++ 0#12 ++ ex ++ mk ++ ty]
  | .vexp2 p vd va ex mk ty => [0b10#2 ++ p ++ 0x60#7 ++ 0#19, vd ++ va ++ 0#12 ++ ex ++ mk ++ ty]
  | .vlog2 p vd va ex mk ty => [0b10#2 ++ p ++ 0x61#7 ++ 0#19, vd ++ va ++ 0#12 ++ ex ++ mk ++ ty]
  | .vrcpa p vd va ex mk ty => [0b10#2 ++ p ++ 0x62#7 ++ 0#19, vd ++ va ++ 0#12 ++ ex ++ mk ++ ty]
  | .vrsqa p vd va ex mk ty => [0b10#2 ++ p ++ 0x63#7 ++ 0#19, vd ++ va ++ 0#12 ++ ex ++ mk ++ ty]
  | .vrsum p gs va ex mk ty => [0b10#2 ++ p ++ 0x64#7 ++ gs ++ 0#14, 0#6 ++ va ++ 0#12 ++ ex ++ mk ++ ty]
  | .vrmax p gs va ex mk ty => [0b10#2 ++ p ++ 0x65#7 ++ gs ++ 0#14, 0#6 ++ va ++ 0#12 ++ ex ++ mk ++ ty]
  | .vrmin p gs va ex mk ty => [0b10#2 ++ p ++ 0x66#7 ++ gs ++ 0#14, 0#6 ++ va ++ 0#12 ++ ex ++ mk ++ ty]
  | .vdraw p idx slot vd va vb vc ex mk ty => [0b10#2 ++ p ++ 0x68#7 ++ 0#13 ++ idx ++ slot, vd ++ va ++ vb ++ vc ++ ex ++ mk ++ ty]
  | .vdmerge p tree vd va vb vc => [0b10#2 ++ p ++ 0x69#7 ++ 0#18 ++ tree, vd ++ va ++ vb ++ vc ++ 0#8]
  | .selinit p gs mass dir k1 ty => [0b10#2 ++ p ++ 0x6a#7 ++ gs ++ 0#4 ++ mass ++ dir ++ k1, 0#28 ++ ty]
  | .selfeed p gs va ex mk ty => [0b10#2 ++ p ++ 0x6b#7 ++ gs ++ 0#14, 0#6 ++ va ++ 0#12 ++ ex ++ mk ++ ty]
  | .seldrain p th vd vc => [0b10#2 ++ p ++ 0x6c#7 ++ 0#5 ++ th, vd ++ 0#12 ++ vc ++ 0#8]
  | .selmrg p n1 va ty => [0b10#2 ++ p ++ 0x6d#7 ++ 0#16 ++ n1, 0#6 ++ va ++ 0#16 ++ ty]
  | .vdotq p dim vd va vb ex mk ty => [0b10#2 ++ p ++ 0x6e#7 ++ 0#7 ++ dim, vd ++ va ++ vb ++ 0#6 ++ ex ++ mk ++ ty]
  | .vl2q p dim vd va vb ex mk ty => [0b10#2 ++ p ++ 0x6f#7 ++ 0#7 ++ dim, vd ++ va ++ vb ++ 0#6 ++ ex ++ mk ++ ty]
  | .mpush p cc va vb ex ty => [0b10#2 ++ p ++ 0x70#7 ++ 0#16 ++ cc, 0#6 ++ va ++ vb ++ 0#6 ++ ex ++ 0#1 ++ ty]
  | .minv p => [0b10#2 ++ p ++ 0x71#7 ++ 0#19, 0#32]
  | .mpop p => [0b10#2 ++ p ++ 0x72#7 ++ 0#19, 0#32]
  | .bmz p imm14 => [0b10#2 ++ p ++ 0x73#7 ++ 0#5 ++ imm14, 0#32]
  | .exts p gs im n ex ty => [0b10#2 ++ p ++ 0x74#7 ++ gs ++ im ++ n, 0#24 ++ ex ++ 0#1 ++ ty]
  | .mloop p gs ii endo => [0b10#2 ++ p ++ 0x75#7 ++ gs ++ 0#8 ++ ii, endo ++ 0#20]
  | .zcnv p gs zt q ty rnd rel sb n1 off => [0b11#2 ++ p ++ 0x40#7 ++ gs ++ 0#1 ++ 0#13, zt ++ q ++ ty ++ rnd ++ rel ++ sb ++ n1 ++ off]
  | .zcnvTerm p q => [0b11#2 ++ p ++ 0x40#7 ++ 0#5 ++ 1#1 ++ 0#13, 0#7 ++ q ++ 0#20]
  | .zcomp p fq q ty => [0b11#2 ++ p ++ 0x41#7 ++ 0#5 ++ 0#1 ++ 0#12 ++ fq, 0#7 ++ q ++ ty ++ 0#16]
  | .zcompTerm p q => [0b11#2 ++ p ++ 0x41#7 ++ 0#5 ++ 1#1 ++ 0#13, 0#7 ++ q ++ 0#20]
  | .zclr p zt => [0b11#2 ++ p ++ 0x42#7 ++ 0#19, zt ++ 0#25]
  | .zrd p gs zt q rel n1 off => [0b11#2 ++ p ++ 0x43#7 ++ gs ++ 0#14, zt ++ q ++ 0#6 ++ rel ++ 0#1 ++ n1 ++ off]
  | .fprtTile p zt => [0b11#2 ++ p ++ 0x44#7 ++ 0#17 ++ 0#2, zt ++ 0#25]
  | .fprtPass p fq q ty => [0b11#2 ++ p ++ 0x44#7 ++ 0#16 ++ fq ++ 1#2, 0#7 ++ q ++ ty ++ 0#16]
  | .fprtEmit p q => [0b11#2 ++ p ++ 0x44#7 ++ 0#17 ++ 2#2, 0#7 ++ q ++ 0#20]
  | .fsqa p zt q rel => [0b11#2 ++ p ++ 0x45#7 ++ 0#19, zt ++ q ++ 0#6 ++ rel ++ 0#13]
  | .fscl p fq => [0b11#2 ++ p ++ 0x46#7 ++ 0#17 ++ 0#1 ++ fq, 0#32]
  | .fsclRng p fq => [0b11#2 ++ p ++ 0x46#7 ++ 0#17 ++ 1#1 ++ fq, 0#32]
  | .fmv p fq q len => [0b11#2 ++ p ++ 0x47#7 ++ 0#5 ++ 0#1 ++ 0#12 ++ fq, 0#7 ++ q ++ 0#15 ++ len]
  | .fmvTerm p q => [0b11#2 ++ p ++ 0x47#7 ++ 0#5 ++ 1#1 ++ 0#13, 0#7 ++ q ++ 0#20]
  | .fwait p gs zt => [0b11#2 ++ p ++ 0x48#7 ++ gs ++ 0#14, zt ++ 0#25]
  | .tileCommand _ _ => []
  | .ringAdvance _ => []
  | .wqtailWrite _ _ => []
  | .wqEnable _ _ => []
  | .wqDisable _ _ => []
  | .partitionEnable _ _ => []
  | .partitionDisable _ _ => []
  | .tierctlEnable _ _ => []
  | .fltack _ _ => []
  | .invcmdGo _ _ => []
  | .preemptRequest _ _ => []
  | .preemptSave _ => []
  | .deschedule _ => []
  | .conductorStart _ _ => []
  | .trpackRetry _ _ => []
  | .trpackAbort _ _ => []
  | .trpackDiscard _ _ => []
  | .trpackReserved _ _ => []
  | .attestRequest => []
  | .attestReportComplete => []
  | .spanstatRead _ => []
  | .registerWrite _ _ _ => []
  | .hostRead _ => []
  | .hostWrite _ _ _ => []
  | .frontRefill _ => []
  | .placementGrant _ => []
  | .nestEmptyRetire _ => []
  | .specRecordMove _ => []
  | .poolTake _ => []
  | .headWordWrite _ => []
  | .heldPushEnqueue _ => []
  | .workRetire _ => []
  | .workResume _ => []
  | .phaseBoundary _ _ _ => []
  | .slipBoundLift _ => []
  | .perform _ => []
  | .deliver _ => []
  | .chainStart _ => []
  | .copy _ => []
  | .ladleLoop _ => []
  | .cond _ => []
  | .semwait _ => []
  | .semaphoreTake _ _ => []
  | .semsig _ => []
  | .ladlePubl _ => []
  | .fprint _ => []
  | .ladleEnd _ => []
  | .walk _ _ _ _ _ => []
  | .migrationRetry _ => []
  | .migrationTimeout _ => []
  | .tlbirAck _ => []
  | .replication _ => []
  | .faultRecordWrite _ => []
  | .faultBatchClose _ => []
  | .shakeoutDrain _ => []
  | .trapRecordWrite _ => []
  | .selfTestComplete _ _ => []
  | .fencedWorkTimeout _ => []
  | .phaseWatchdog _ _ _ => []
  | .coreStallWatchdog _ => []
  | .patrolScrub _ _ => []
  | .wfeTimeout _ => []
  | .throttleWindow _ => []
  | .powerMeasure _ _ => []
  | .thermalSense _ _ => []
  | .thermalTrip => []
  | .linkDown _ => []
  | .linkUp _ _ _ => []
  | .spanPortDown _ => []
  | .peerRouteTimeout _ => []
  | .deviceReset => []
  | .bringupStage _ => []
  | .peerRequest _ _ _ _ => []
  | .spanPortUp _ _ => []
  | .flitRetry _ => []

/-- The instruction that the decoder reads from bits numbered as spec/opcode_table.json numbers them: the first word in
bits 31 to 0, the second in bits 63 to 32. -/
def decodeTableWord (_nbits w : Nat) : Option Instr :=
  match decode (BitVec.ofNat 32 w) (BitVec.ofNat 32 (w >>> 32)) with
  | .ok i => some i
  | .error _ => none

end Sys2Proof
end

