-- ==== Sys2Proof/Machine/Sparse.lean ====
section
/-! DEFINITION. The operations of sparse maps: one canonical form, keys strictly rising and no entry equal to the value
that an unlisted key reads as. -/

namespace Sys2Proof

/-- The entry listed at a key. -/
def SMap.find {α : Type} (m : SMap α) (k : Nat) : Option α :=
  match m with
  | [] => none
  | (j, a) :: r => if j = k then some a else SMap.find r k

/-- What a key reads as: `d` when it is not listed. -/
def SMap.get {α : Type} (m : SMap α) (d : α) (k : Nat) : α := (m.find k).getD d

/-- The map with an entry at a key, in place. -/
def SMap.put {α : Type} (m : SMap α) (k : Nat) (a : α) : SMap α :=
  match m with
  | [] => [(k, a)]
  | (j, b) :: r => if k < j then (k, a) :: (j, b) :: r else if k = j then (k, a) :: r else (j, b) :: SMap.put r k a

/-- The map without a key. -/
def SMap.drop {α : Type} (m : SMap α) (k : Nat) : SMap α := m.filter (fun e => e.1 ≠ k)

/-- Writing a value: the value that an unlisted key reads as removes the entry. -/
def SMap.set {α : Type} [DecidableEq α] (m : SMap α) (d : α) (k : Nat) (a : α) : SMap α :=
  if a = d then m.drop k else m.put k a

/-- Writing consecutive keys from `k`. -/
def SMap.setList {α : Type} [DecidableEq α] (m : SMap α) (d : α) (k : Nat) (l : List α) : SMap α :=
  match l with
  | [] => m
  | a :: r => SMap.setList (m.set d k a) d (k + 1) r

/-- The canonical form: keys strictly rising, no entry equal to the default. -/
def SMap.wf {α : Type} [DecidableEq α] (d : α) (m : SMap α) : Bool :=
  match m with
  | [] => true
  | (j, a) :: r => a ≠ d && r.all (fun e => j < e.1) && SMap.wf d r

/-- The first element that satisfies a test, changed. -/
def mapFirst {α : Type} (p : α → Bool) (f : α → α) : List α → List α
  | [] => []
  | a :: r => if p a then f a :: r else a :: mapFirst p f r

/-- The list without the first element that satisfies a test. -/
def dropFirst {α : Type} (p : α → Bool) : List α → List α
  | [] => []
  | a :: r => if p a then r else a :: dropFirst p r

/-- The element at a position replaced. -/
def setAt {α : Type} : List α → Nat → (α → α) → List α
  | [], _, _ => []
  | a :: r, 0, f => f a :: r
  | a :: r, n + 1, f => a :: setAt r n f

/-- The list without the element at a position. -/
def dropAt {α : Type} : List α → Nat → List α
  | [], _ => []
  | _ :: r, 0 => r
  | a :: r, n + 1 => a :: dropAt r n

/-- An element put into a sorted list, after those that are not greater. -/
def insertBy {α : Type} (le : α → α → Bool) (x : α) : List α → List α
  | [] => [x]
  | a :: r => if le x a && !le a x then x :: a :: r else a :: insertBy le x r

/-- A list sorted; equal elements keep their order. -/
def sortBy {α : Type} (le : α → α → Bool) (l : List α) : List α := l.foldl (fun m x => insertBy le x m) []

end Sys2Proof
end

