-- ==== Sys2Proof/Machine/Bits.lean ====
section
/-! DEFINITION. Bit fields, sign extension and byte order (R8, R10). -/

namespace Sys2Proof

/-- Bits [hi:lo] of a word, as a number. -/
def bits {w : Nat} (v : BitVec w) (hi lo : Nat) : Nat := (v.extractLsb' lo (hi - lo + 1)).toNat

/-- Bits [hi:lo] of a number. -/
def fieldOf (v hi lo : Nat) : Nat := v / 2 ^ lo % 2 ^ (hi - lo + 1)

/-- A word with bits [hi:lo] replaced. -/
def putBits (v : Word) (hi lo x : Nat) : Word :=
  (v &&& ~~~(BitVec.ofNat 64 (2 ^ (hi - lo + 1) - 1) <<< lo)) ||| (BitVec.ofNat 64 (x % 2 ^ (hi - lo + 1)) <<< lo)

/-- One bit as a number. -/
def bit (b : Bool) : Nat := if b then 1 else 0

/-- Sign extension to a register. -/
def sext {w : Nat} (v : BitVec w) : Word := v.signExtend 64

/-- Zero extension to a register. -/
def zext {w : Nat} (v : BitVec w) : Word := v.setWidth 64

/-- The bytes of a number, least significant first (R8). -/
def toBytes (v : Nat) : Nat → List Byte
  | 0 => []
  | n + 1 => BitVec.ofNat 8 v :: toBytes (v / 256) n

/-- The number that bytes hold, least significant first (R8). -/
def ofBytes : List Byte → Nat
  | [] => 0
  | b :: r => b.toNat + 256 * ofBytes r

/-- The bytes at `n` addresses from `k` of a byte map whose unlisted bytes read 0. -/
def bytesAt (m : SMap Byte) (k : Nat) : Nat → List Byte
  | 0 => []
  | n + 1 => m.get 0 k :: bytesAt m (k + 1) n

/-- The little-endian number in `n` bytes from `k` (R8). -/
def numAt (m : SMap Byte) (k n : Nat) : Nat := ofBytes (bytesAt m k n)

/-- A signed value truncated to a width. -/
def ofInt (w : Nat) (i : Int) : BitVec w := BitVec.ofInt w i

/-- The number of bits that a natural number needs. -/
def bitLength (n : Nat) : Nat := if n = 0 then 0 else Nat.log2 n + 1

/-- The signed reading of a 32-bit difference (R73, R160). -/
def diff32 (a b : BitVec 32) : Int := (a - b).toInt

/-- `f` applied to each number below `n`, left to right. -/
def upTo {α : Type} (n : Nat) (f : Nat → α) : List α := (List.range n).map f

/-- A list cut into pieces of `n`. -/
def chunks {α : Type} (n : Nat) (l : List α) : Nat → List (List α)
  | 0 => []
  | k + 1 => l.take n :: chunks n (l.drop n) k

end Sys2Proof
end

