-- ==== Sys2Proof/Config.lean ====
section
/-! DEFINITION. What an implementation fixes and the spec leaves open: the order in which the units of the device act,
and the values that no rule states. Each is a constant without a body, so no proof can lean on a value of it
(notes/assumptions/1.md to 4.md). -/

namespace Sys2Proof

/-- What acts at one turn of the device: an engine of a core at its boundary, with the number of granules that an
instruction of many may do in the turn (none: all), an event of the opcode table, an access of the host with the link over which
it comes (R375), or an error that arises in a unit (Table 19-5, causes 1 to 4, 9 and 12), in a core's datapath that of an engine. -/
inductive Deed where
  | engine (core : Nat) (e : Eng) (budget : Option Nat)
  | event (i : Instr) (link : Nat := 0)
  | upset (u : UnitId) (cause : Nat) (e : Eng)
  deriving DecidableEq, Repr, Inhabited

/-- One turn: who acts, and how long before it the device was idle, in ticks of 1/700 µs (one core cycle, R2). -/
structure Turn where
  dt : Nat
  deed : Deed
  deriving DecidableEq, Repr, Inhabited

namespace Config

/-- The order in which the device's units act is not fixed (R307, Table 4-10): turn n of the device. DESIGN CHOICE: a
free value (log 1). -/
opaque schedule : Nat → Turn

/-- Whether a cached translation is still held at its n-th use: the number of entries is not architectural (R152).
DESIGN CHOICE: a free value (log 2). -/
opaque tlbHolds : Nat → Bool

/-- Bits that the spec gives a place but no value: the parts of a save slot whose layout Table 19-8 does not give, the
fields of an attestation report (R382), poisoned data (R378). DESIGN CHOICE: free values (log 3). -/
opaque freeByte : Nat → BitVec 8

/-- The address space under which a partition's layer schedule header is read at an enable: the header names the ASID of
the table, and no register names one (R154). DESIGN CHOICE: a free value (log 4). -/
opaque tableAsid : Nat → BitVec 16

/-- The SHA-512 digest of the firmware root key in the boot ROM, and the private identity key of the device (R381): free values
(log 36). -/
opaque rootKeyDigest : List Byte
opaque identityKey : Nat

/-- The point that the key of a firmware image encodes, and the version of an image (R381): no form is given. DESIGN CHOICE: free
values (log 36). -/
opaque keyPoint : List Byte → Nat × Nat
opaque imageVersion : List Byte → Nat

/-- A report's fields as the bytes that are signed, and those bytes with their signature as the report (R382): no form is given.
DESIGN CHOICE: free values (log 36). -/
opaque reportBody : List Byte → List Byte
opaque signedReport : List Byte → Nat × Nat → List Byte

end Config

end Sys2Proof
end

