-- ==== Sys2Proof/Machine/State.lean ====
section
/-! DEFINITION. Everything the spec gives the machine, as plain data (R23 to R47, R61, R64, R90, R95, R106, R129, R137,
R144 to R162, R169, R181 to R191, R280, R298, R299, R307, R324 to R338, R348 to R365, R373 to R383), its value at
reset, and the ways a step can stop. A field's own comment names the rule; the model's own fields are marked so. -/

namespace Sys2Proof.Machine

/-- Why a step stops with a fault: for nothing. Every access that the spec refuses is taken as the translation fault, trap or
status that it names. -/
inductive Fault where
  deriving DecidableEq, Repr

/-- Why a step refuses. -/
inductive Refusal where
  /-- No meaning yet for the instruction of this mnemonic. Raised by an arm of exec only. Safe. -/
  | notModelled (mnemonic : String)
  deriving DecidableEq, Repr

/-! ### A core's engines -/

/-- One hardware loop (R106): start S, end LE, remaining count c. -/
structure Loop where
  start : Nat
  last : Nat
  count : Nat
  deriving DecidableEq, Repr, Inhabited

/-- An instruction that has issued and not retired: how far it has come (R93, R115, R159, R363). `stage` numbers the
parts of its meaning, `count` its granules, entries, iterations or groups done, `data` what it carries between them,
`mark` when it was issued (R133). -/
structure Prog where
  stage : Nat := 0
  count : Nat := 0
  data : List Nat := []
  mark : Nat := 0
  /-- Store-buffer entries that the instruction's publication has moved in this replay interval (R357). -/
  pub : Nat := 0
  /-- The instruction can be saved between its parts (R363). -/
  soft : Bool := false
  /-- When the work leaves its core, the instruction is taken back: it is saved before its issue (R363). -/
  undo : Bool := false
  /-- A trap leaves it in progress: it goes on from there (R216). -/
  keep : Bool := false
  /-- The tokens it has popped, and those it will push, by FIFO (R92). -/
  pops : List (Nat × Nat) := []
  pushes : List (Nat × Nat) := []
  /-- The words that it passed at its issue (R71), and the queue slots that it allocated then (R95). -/
  words : Nat := 0
  slots : List (Nat × Nat) := []
  /-- All that is left to do is to fill those slots (R95). -/
  fill : Bool := false
  /-- The program counter of an MLOOP in progress; a trap of a body instruction leaves the engine's own at that one (R242). -/
  home : Option Nat := none
  deriving DecidableEq, Repr, Inhabited

/-- Why an engine is stopped until software acts (R159, R348). -/
inductive Hold where
  /-- A delivered trap holds the work (R348): class and cause. -/
  | trap (cls cause : Nat)
  /-- A translation fault waits for FLTACK (R156). -/
  | fault
  deriving DecidableEq, Repr, Inhabited

/-- The private state of one engine (Table 3-1, R72, R73). -/
structure Engine where
  /-- Word offset into the text. DESIGN CHOICE (log 25): it is not cut to 14 bits, so that a walk past word 16,383 of a text of
  16,384 words finds cause 6 (R71) and not word 0. -/
  pc : Nat := 0
  /-- Walk count (R73). -/
  wc : BitVec 32 := 0
  /-- g1 to g31; an unlisted register, and g0, read zero. -/
  g : SMap Word := []
  /-- Hardware loops, innermost first (R106). -/
  loops : List Loop := []
  /-- Return-address store, oldest first (R103). -/
  ras : List Nat := []
  /-- Spill window by doubleword (R112). -/
  spill : SMap Word := []
  /-- DONE has been executed (R72). -/
  done : Bool := false
  prog : Option Prog := none
  hold : Option Hold := none
  /-- When the engine last passed an instruction, for the core stall watchdog (R354). -/
  passed : Nat := 0
  /-- A store of the engine has met a full store buffer, which no publish step has emptied since (R179). -/
  stuck : Bool := false
  deriving DecidableEq, Repr, Inhabited

/-- What an engine that cannot go on waits for (R92, R354, R373). -/
inductive Wait where
  | token | queue | tokenQueue | slip | ring | memory | mailbox | semaphore | ladle | event | phase | buffer | array | format | other
  deriving DecidableEq, Repr, Inhabited

/-- A slot of a queue that is not free: filled or only allocated (R95), terminal (R97), LEN of a store-queue entry
(R175), its bytes. -/
structure Slot where
  full : Bool
  term : Bool := false
  len : Nat := 32
  data : Wide := 0
  deriving DecidableEq, Repr, Inhabited

/-- One scratchpad ring (Table 7-4). -/
structure Ring where
  init : Bool := false
  base : Nat := 0
  slot : Nat := 0
  n : Nat := 0
  pers : Bool := false
  pitch : Nat := 0
  span : Nat := 0
  head : BitVec 32 := 0
  tail : BitVec 32 := 0
  deriving DecidableEq, Repr, Inhabited

/-- The selection unit (R274): uninitialised, or its type, k, DIR, MASS, β, list of (key, index), running mass
(m, s), and counters. -/
structure Sel where
  ty : BitVec 4
  k : Nat
  dir : Bool
  mass : Bool
  beta : BitVec 32
  list : List (BitVec 32 × BitVec 32) := []
  m : BitVec 32 := 0
  s : BitVec 32 := 0
  fed : Nat := 0
  nank : Nat := 0
  trunc : Bool := false
  invb : Bool := false
  deriving DecidableEq, Repr, Inhabited

/-- An extent register (R257): element count and element width in bits. -/
structure Ext where
  n : Nat := 0
  w : Nat := 8
  deriving DecidableEq, Repr, Inhabited

/-- The execute engine's own state (R64, R257, R258). -/
structure XUnit where
  /-- v0 to v31; an unlisted register reads zero. -/
  v : SMap Wide := []
  /-- e1 to e7. -/
  ext : SMap Ext := []
  /-- The mask stack, top first; the bottom level is all ones (R258). -/
  masks : List (BitVec 1024) := [BitVec.allOnes 1024]
  sel : Option Sel := none
  deriving DecidableEq, Repr, Inhabited

/-- The state of an accumulator tile (R289). -/
inductive TileState where
  | array | ready | held
  deriving DecidableEq, Repr, Inhabited

/-- An accumulator tile (R280, R289, R291): element (i, j) is key 64·i + j, an unlisted element is +0; `live` once it
has been written since the grant (Table 19-8). A tile is reserved for a run from the issue of the run's last command
until F releases it; commands complete in order, so the state says all that the reservation says (R289). -/
structure Tile where
  z : SMap (BitVec 32) := []
  st : TileState := .array
  status : Word := 0
  live : Bool := false
  deriving DecidableEq, Repr, Inhabited

/-- A tile command that has issued: the table it reads, its index vector, its format word (R283, R287). -/
structure Cmd where
  table : SMap Word
  idx : List Nat
  fw : Word
  deriving DecidableEq, Repr, Inhabited

/-- A running nest (R283): its table and the index vector of the next command to issue. -/
structure Nest where
  table : SMap Word
  idx : List Nat
  deriving DecidableEq, Repr, Inhabited

/-- An NGO that has issued and waits for the array (R138, R141): where C stood at it, and the tokens that it took and owes. -/
structure Start where
  pc : Nat
  wc : BitVec 32
  loops : List Loop
  pops : List (Nat × Nat)
  pushes : List (Nat × Nat)
  deriving DecidableEq, Repr, Inhabited

/-- The matrix array (R137, R280). `swapped`: N1 is the active table. -/
structure MArray where
  n0 : SMap Word := []
  n1 : SMap Word := []
  swapped : Bool := false
  /-- An NGO that waits; C goes on with the NESTWs after it (R141). -/
  start : Option Start := none
  /-- The nest whose last command has not issued. -/
  nest : Option Nest := none
  /-- Commands issued and not retired, oldest first. -/
  cmds : List Cmd := []
  /-- The ring advance that the last retired command triggered (R288). -/
  adv : Option Cmd := none
  fq : List Word := []
  tiles : SMap Tile := []
  /-- Commands retired since the sums were last checked (R354). -/
  unchecked : Nat := 0
  /-- Halted by a matrix fault of this cause (R290). -/
  hold : Option Nat := none
  deriving DecidableEq, Repr, Inhabited

/-- A fingerprint (R192, R299): FP64 values as bits. -/
structure Fp where
  bytes : Nat := 0
  nans : Nat := 0
  maxmag : BitVec 64 := 0
  sum : BitVec 64 := 0
  sumsq : BitVec 64 := 0
  deriving DecidableEq, Repr, Inhabited

/-- The finishing engine's own state (R298, R299). An unlisted CS is 1.0, an unlisted CB is +0. -/
structure FUnit where
  cs : SMap (BitVec 32) := []
  cb : SMap (BitVec 32) := []
  key : Word := 0
  ctr : Word := 0
  fp : Fp := {}
  ecnt : BitVec 32 := 0
  deriving DecidableEq, Repr, Inhabited

/-- The control and status registers of a core that are not derived from other state (Tables 2-6, 3-4, 5-4, 5-6,
19-9, 21-2). -/
structure Csrs where
  /-- PN0 to PN4, as the work has seen them (R56). -/
  pn : SMap Nat := []
  cycle : Word := 0
  inh : Bool := false
  en : Bool := false
  off : Nat := 0
  tepc : Nat := 0
  cls : Nat := 0
  cause : Nat := 0
  tval : Word := 0
  tscratch : Word := 0
  /-- FSTAT.SAT and the flags NV, OF, UF, NX (R127). -/
  sat : Bool := true
  nv : Bool := false
  of : Bool := false
  uf : Bool := false
  nx : Bool := false
  evt : Bool := false
  tmo : BitVec 32 := 0
  dl : Bool := false
  win : Nat := 0x200
  /-- FAULTCTL (R361): RCNT, NRP, WDEN, RPLD; LOGN is the length of the work's log. -/
  rcnt : Nat := 0
  nrp : Bool := false
  wden : Bool := true
  rpld : Bool := false
  evsel : SMap Word := []
  evcnt : SMap Word := []
  /-- Loops active at entry of the local handler (R131). -/
  hidden : Nat := 0
  /-- Engines for which the slip bound is lifted until they pass or end (R75). -/
  lifted : List Eng := []
  deriving DecidableEq, Repr, Inhabited

/-- The state of a core that a pre-emption saves (Table 19-8). -/
structure Ctx where
  c : Engine := {}
  a : Engine := {}
  x : Engine := {}
  f : Engine := {}
  /-- Token counts and reservations by FIFO code (R92). -/
  fifo : SMap Nat := []
  resv : SMap Nat := []
  /-- Queues by queue code 0 to 9, slots from the head (R95). -/
  queues : SMap (List Slot) := []
  rings : SMap Ring := []
  ecur : Nat := 0
  scur : Nat := 0
  xu : XUnit := {}
  ar : MArray := {}
  fu : FUnit := {}
  csr : Csrs := {}
  /-- A machine check holds the work as a whole: none of its engines acts (R348, R352, R356). -/
  held : Bool := false
  /-- Scratchpad bytes; an unlisted byte reads 0. -/
  spad : SMap Byte := []
  deriving DecidableEq, Repr, Inhabited

/-! ### Work -/

/-- A store in a store buffer or an outbound queue (R308, R161): its address before translation, its location, its
bytes, the engine that made it and the word offset of its instruction, its address space, and the mark of R161; in an outbound
queue the mark says that a TLBIR has dropped the translation it went out with (R162). -/
structure Store where
  va : Nat
  key : Nat
  size : Nat
  data : BitVec 256
  eng : Eng := .C
  pc : Nat := 0
  part : Nat := 0
  asid : Nat := 0
  mark : Bool := false
  deriving DecidableEq, Repr, Inhabited

/-- A snapshot V (R307): memory, and the definitions of handles of the partition whose CUR is 1. -/
structure Snap where
  mem : SMap Byte := []
  flips : List Nat := []
  deriving DecidableEq, Repr, Inhabited

/-- The acts that enter the effect log (Table 19-7). -/
inductive ActKind where
  | amo | fenceRel | wqpush | spawn | spawnc | resolve | cvfree | cvnew | mbsend | mbrecv | lchain | publ
  | ssig | sset | swait | tlbir | phase | tlback | kvw | kvadv | kvrwd | kvfork | kvend | kvrn
  deriving DecidableEq, Repr, Inhabited

/-- An entry of the effect log (R357). -/
structure LogEntry where
  kind : ActKind
  pc : Nat
  result : BitVec 256 := 0
  pub : Nat := 0
  deriving DecidableEq, Repr, Inhabited

/-- A checkpoint (R357). -/
structure Checkpoint where
  ctx : Ctx
  snap : Snap
  sb : List Store
  deriving DecidableEq, Repr, Inhabited

/-- An entry of a segment's chain (R326). -/
structure ChainEntry where
  cv : Nat
  side : Bool
  factor : Nat
  site : Nat
  inherited : Bool
  deriving DecidableEq, Repr, Inhabited

/-- What a piece of work is. A loop-nest iteration names its record in flight. -/
inductive WorkKind where
  | iteration (nest : Nat)
  | segment
  | conductor (c : Nat)
  deriving DecidableEq, Repr, Inhabited

/-- A piece of placed, pending or descheduled work. -/
structure Work where
  /-- The work's identity (the model's own number). -/
  id : Nat
  kind : WorkKind := .segment
  part : Nat := 0
  asid : Nat := 0
  /-- Code image descriptor, and the entry, GEN, LEN and TEXT it started with (R15, R66, R68). -/
  desc : Nat := 0
  entry : Nat := 0
  gen : BitVec 32 := 0
  len : Nat := 0
  text : Nat := 0
  /-- Source queue; none for a spawned segment and conductor work. -/
  queue : Option Nat := none
  iter : Nat := 0
  /-- Start registers (Table 1-4). -/
  args : List Word := []
  idx : List Nat := []
  sigm : Word := 0
  /-- Placement domain: level and index (R50). -/
  lvl : Nat := 3
  dom : Nat := 0
  /-- Carried priority and creation number (R57). -/
  prio : Nat := 0
  created : Nat := 0
  /-- Chain of conditions, oldest first; not empty exactly for a speculative segment (R326). -/
  chain : List ChainEntry := []
  /-- The segment holds a pool place (R329). -/
  place : Bool := false
  /-- Store buffer, oldest first (R308). -/
  sb : List Store := []
  snap : Snap := {}
  /-- Effect log of the current interval, replay position when it is being replayed, checkpoint (R357, R358). -/
  log : List LogEntry := []
  replay : Option Nat := none
  ckpt : Option Checkpoint := none
  /-- The level at which the work has arrived, and when (R53, R354). -/
  arrived : Option Nat := none
  arrivedAt : Nat := 0
  /-- A record has been written for the arrival's watchdog (R354). -/
  watched : Bool := false
  /-- The tick after that in which it joined the active sets of its domains: a boundary of the same cycle is before it (R53). -/
  joined : Nat := 0
  deriving DecidableEq, Repr, Inhabited

/-- Where work off a core stands (R332, R334, R364, R365). -/
inductive OffState where
  /-- Pending, never placed. -/
  | fresh
  /-- Saved and offered again: pre-empted, yielded, or its wait has ended. -/
  | saved
  /-- Descheduled at a held WQPUSH (R39). -/
  | push
  /-- Suspended at an irrevocable act (R334). -/
  | suspended
  /-- Parked after its last DONE (R334). -/
  | parked
  /-- Its core was fenced: it is replayed on the next free core of its domain (R356). -/
  | fenced
  deriving DecidableEq, Repr, Inhabited

/-- Work that is on no core: its saved state, its save slot, the core it was last placed on and since when, and the stores that
a parked segment has published as it retires, oldest first (R332). -/
structure Seg where
  work : Work
  ctx : Option Ctx := none
  st : OffState := .fresh
  slot : Option Nat := none
  core : Option Nat := none
  since : Nat := 0
  /-- The machine check for which its core was fenced, and the tag of the engine at fault (R350, R356). -/
  cause : Nat := 0
  eng : Nat := 0
  ob : List Store := []
  deriving DecidableEq, Repr, Inhabited

/-! ### Cores and translation caches -/

/-- A cached translation (R152): partition, ASID, virtual page, page size, location of the page, permissions, D, and the full
leaf. -/
structure Tlb where
  part : Nat
  asid : Nat
  va : Nat
  size : Nat
  key : Nat
  r : Bool
  w : Bool
  x : Bool
  d : Bool
  leaf : Word := 0
  deriving DecidableEq, Repr, Inhabited

/-- The tag of the copy in instruction memory (R66). -/
structure ImemTag where
  part : Nat
  asid : Nat
  desc : Nat
  gen : BitVec 32
  len : Nat
  text : Nat
  deriving DecidableEq, Repr, Inhabited

/-- One of the 1,024 cores, or conductor core c as core 1024 + c (R1, R338). -/
structure Core where
  ctx : Ctx := {}
  work : Option Work := none
  /-- Outbound queue, oldest first (R307). -/
  ob : List Store := []
  /-- Instruction memory, its first-word marks in ascending order, and its tag (R65, R66, R70). -/
  imem : SMap (BitVec 32) := []
  marks : List Nat := []
  tag : Option ImemTag := none
  /-- C's cached TLB and A's stream TLB (R152). -/
  tlbC : List Tlb := []
  tlbA : List Tlb := []
  fenced : Bool := false
  /-- A machine check is being tested: cause, start and the engine whose datapath it is (R350, R356). -/
  test : Option (Nat × Nat × Eng) := none
  /-- Errors that no check has met yet (Table 19-6): of an engine's datapath, found at that engine's next retirement; of the
  token counts, found at the next PHASE or last DONE; of the array's sums, found at its next check (R355). -/
  badPath : Option Eng := none
  badTokens : Bool := false
  badSums : Bool := false
  /-- The work is leaving the core, as what, and its place among those that wait for a save slot (R363, R364). -/
  leaving : Option OffState := none
  leaveNo : Nat := 0
  /-- A host's pre-emption of the work is in progress (R363). -/
  preempt : Bool := false
  /-- The work is ended: pruned or aborted; the core is freed when OB is empty (R332, R351). -/
  ending : Bool := false
  deriving DecidableEq, Repr, Inhabited

/-! ### Work queues and records in flight -/

/-- A held push (R37): the record, the pushing work, and the register that takes the status. -/
structure Held where
  record : BitVec 1024
  work : Nat
  gd : BitVec 5
  deriving DecidableEq, Repr, Inhabited

/-- The walk position of the loop-nest record at the head of a queue (R42, R44): the record in flight, the next
iteration, and the next Morton code. -/
structure Walk where
  nest : Nat
  k : Nat := 0
  code : Nat := 0
  deriving DecidableEq, Repr, Inhabited

/-- One hardware work queue (Tables 1-7 to 1-9). -/
structure WQ where
  ring : Word := 0
  cfg : Word := 0
  heada : Word := 0
  head : BitVec 32 := 0
  tail : BitVec 32 := 0
  /-- STATE: 0 disabled, 1 active, 2 halted. -/
  st : Nat := 0
  err : Nat := 0
  ovf : Bool := false
  cfgign : Bool := false
  held : List Held := []
  walk : Option Walk := none
  /-- The head has advanced since the last head-word write (R31). -/
  dirty : Bool := false
  /-- Front-store copies of the HOME tundish, at most 8: index and record (R32). -/
  front : List (BitVec 32 × BitVec 1024) := []
  /-- A head-word write has met a translation fault: it is made again at the next enable (R29). -/
  headBad : Bool := false
  /-- The records in the queue that WQPUSH has enqueued, with their indices; any other is written by the host (R24). -/
  pushed : List (BitVec 32 × BitVec 1024) := []
  /-- The front record has had its check of R24. -/
  checked : Bool := false
  deriving DecidableEq, Repr, Inhabited

/-- A loop-nest record some of whose iterations have been handed out (R33, R372). -/
structure NestRec where
  part : Nat
  record : BitVec 1024
  /-- The priority that its iterations carry (R57). -/
  prio : Nat := 0
  /-- Iterations placed and not yet retired or aborted. -/
  live : Nat := 0
  /-- Every iteration has been handed out. -/
  all : Bool := false
  aborted : Bool := false
  deriving DecidableEq, Repr, Inhabited

/-! ### Partitions -/

/-- A handle of the publish map (R181); `made` numbers its definition (the model's own). -/
structure Handle where
  made : Nat := 0
  window : Nat
  twin : Nat
  len : Nat
  cur : Bool := false
  armed : Bool := true
  owner : Nat
  deriving DecidableEq, Repr, Inhabited

/-- What a translation fault stopped (Table 6-6). -/
inductive FaultSource where
  | engine (work : Nat) (e : Eng)
  | store (work : Nat)
  | ladle (l : Nat)
  | shakeout (d ctx asid : Nat)
  | other
  deriving DecidableEq, Repr, Inhabited

/-- A translation fault with the fields of its record (Table 6-8); `seq` once its record is written. -/
structure FaultRec where
  src : FaultSource
  cause : Nat
  level : Nat := 0
  access : Nat
  srcCode : Nat
  core : Nat := 0
  va : Nat
  asid : Nat
  part : Nat := 0
  extent : Nat := 0
  unit : Nat := 0
  cmd : Nat := 0
  loops : List Nat := []
  seq : Option (BitVec 32) := none
  since : Nat := 0
  /-- The fault's number in its partition, and whether its batch has closed (R157). -/
  no : Nat := 0
  batched : Bool := false
  deriving DecidableEq, Repr, Inhabited

/-- Who raised a trap: an engine of a piece of work, its array, the work as a whole, a ladle, the shakeout engine of a die
in a context's drain, or nobody that an acknowledgement could act on any more. -/
inductive TrapSource where
  | engine (work : Nat) (e : Eng)
  | array (work : Nat)
  | work (work : Nat)
  | ladle (l : Nat)
  | shakeout (d ctx asid : Nat)
  | gone
  deriving DecidableEq, Repr, Inhabited

/-- A delivered trap with the fields of its record (Table 19-3); `seq` once its record is written; `reads` what the
instruction would have popped or peeked, for a class 10 cause 1 trap (R351). A trap that is acknowledged leaves the list, and
so does one that is written and that nothing acknowledges. -/
structure TrapRec where
  src : TrapSource
  cls : Nat
  cause : Nat
  eng : Nat := 0
  info : Bool := false
  cont : Bool := false
  cond : Bool := false
  arr : Bool := false
  core : Nat := 0
  part : Nat := 0
  test : Nat := 0
  unit : Nat := 0
  pcs : List Nat := []
  val : Word := 0
  iter : Nat := 0
  queue : Nat := 0
  rcnt : Nat := 0
  reads : List (Nat × Nat) := []
  /-- The cycle in which it arose (R348). -/
  since : Nat := 0
  seq : Option (BitVec 32) := none
  /-- The action that software has acknowledged it with while its work is saved, to be taken at the resumption (R363). -/
  acked : Option Nat := none
  deriving DecidableEq, Repr, Inhabited

/-- A replica, or a page to be replicated (R145): its D-stack frame as a key divided by 4,096, the page through which
it is made, and whether for the layer schedule. -/
structure Replica where
  frame : Nat
  part : Nat
  asid : Nat
  va : Nat
  layer : Bool := false
  deriving DecidableEq, Repr, Inhabited

/-- A layer notice or PREFT in progress on a die (R155, R180): the pages still to replicate. -/
structure Notice where
  part : Nat
  layer : Bool
  pages : List Replica
  deriving DecidableEq, Repr, Inhabited

/-- The schedule header as an enable of TIERCTL read it (Table 6-5). -/
structure Sched where
  asid : Nat
  count : Nat
  dist : Nat
  wrap : Bool
  deriving DecidableEq, Repr, Inhabited

/-- One of the 16 partitions: its host-window registers (Tables 1-5, 2-3, 6-3, 6-5, 6-7, 18-2, 19-2, 19-10, 21-6) and
what the device keeps for it. -/
structure Part where
  cfg : Word := 0
  ptbase : Word := 0
  tierctl : Word := 0
  sched : Option Sched := none
  poolfull : Bool := false
  cverr : Bool := false
  fltbase : Word := 0
  fltcfg : Word := 0
  flthead : BitVec 32 := 0
  flttail : BitVec 32 := 0
  invstart : Word := 0
  invlen : Word := 0
  invasid : BitVec 16 := 0
  /-- The host's invalidation in progress (INVCMD.BUSY). -/
  inv : Option Nat := none
  trpbase : Word := 0
  trpcfg : Word := 0
  trphead : BitVec 32 := 0
  trptail : BitVec 32 := 0
  preempt : Word := 0
  savecfg : Word := 0
  /-- WSEM[n]: COUNT in bits 15:0, OVF in bit 16. -/
  wsem : SMap Word := []
  /-- Translation faults whose sources are halted, oldest first; the next SEQ. -/
  faults : List FaultRec := []
  fseq : BitVec 32 := 0
  /-- Faults given numbers so far (the model's own). -/
  faultNo : Nat := 0
  /-- Closed batches not yet written, oldest first: their ranges, in order, by fault number (R157). -/
  batches : List (List (List Nat)) := []
  /-- Delivered traps, oldest first; the next SEQ. -/
  traps : List TrapRec := []
  tseq : BitVec 32 := 0
  /-- Publish map (R181). -/
  handles : SMap Handle := []
  /-- Spawn-site predictor; an unlisted entry is 0x8000 (R327). -/
  pred : SMap (BitVec 16) := []
  /-- Phase numbers of the domains at levels 0 to 3, by 1024·level + index (R52). -/
  phase : SMap (BitVec 32) := []
  /-- Save slots in use (R362). -/
  slots : List Nat := []
  deriving DecidableEq, Repr, Inhabited

/-! ### Dies, ladles and the other units -/

/-- A drain request of the shakeout engine (R212, R213): the context's record, the positions from the next one to drain,
its pool's location, and the core that issued the KVADV. -/
structure Drain where
  ctx : Nat
  lo : Nat
  hi : Nat
  part : Nat
  asid : Nat
  core : Nat
  pool : Nat
  /-- The block of the slot's chain that the drain has reached, the place of its next record there, and the records kept. -/
  block : Option Nat := none
  doneRecs : Nat := 0
  kept : List Nat := []
  /-- Halted by a translation fault or a machine check. -/
  halted : Bool := false
  deriving DecidableEq, Repr, Inhabited

/-- A node entry or root descriptor in a walker cache (R147, R151): level 4 is the root descriptor. -/
structure NodeEnt where
  part : Nat
  asid : Nat
  level : Nat
  /-- The address bits that select the entry. -/
  tag : Nat
  entry : Word
  deriving DecidableEq, Repr, Inhabited

/-- One die: its clock (Table 2-9, R62), tundish pointers (R34), shakeout engine (R212), replicas (R145), walkers. -/
structure Die where
  hostmin : Nat := 0
  pwr : Nat := 0
  therm : Nat := 0
  throt : Bool := false
  /-- The swallow count in force in the current window, and the pulse within it. -/
  force : Nat := 0
  pulse : Nat := 0
  /-- The tundish's round-robin pointer over queue numbers, per priority level. -/
  qptr : SMap Nat := []
  /-- The die's pointer over the four tundishes, per priority level. -/
  dptr : SMap Nat := []
  drains : List Drain := []
  /-- The replicas held, the first in line for eviction first (R146). -/
  replicas : List Replica := []
  /-- Notices and PREFTs whose copies are not finished. -/
  notices : List Notice := []
  /-- The walker caches (R152). -/
  nodes : List NodeEnt := []
  fenceWalk : Nat := 0
  /-- A walker's error is being tested (R356). -/
  test : Option (Nat × Nat) := none
  deriving DecidableEq, Repr, Inhabited

/-- A chain in a ladle's queue (R184); `lad` is the ladle of its ticket. -/
structure Chain where
  lad : Nat
  addr : Nat
  core : Nat
  work : Nat
  part : Nat
  asid : Nat
  seq : BitVec 32
  deriving DecidableEq, Repr, Inhabited

/-- A COPY or an FPRINT that a ladle has begun (R185, R186): its entry index and working fields, bytes done and source
bytes read, the bytes of the expanded block still to write, its fingerprint, status, whether all its beats are issued,
and the beats not yet delivered. -/
structure CopyOp where
  idx : Nat
  fprint : Bool := false
  dw0 : Word
  src : Nat
  dst : Nat
  len : Nat
  pitch : Nat
  recAddr : Nat
  /-- The expected record of an FPRINT with CMP. -/
  exp : Nat := 0
  off : Nat := 0
  soff : Nat := 0
  buf : List Byte := []
  fp : Fp := {}
  status : Nat := 0
  compared : Bool := false
  issued : Bool := false
  beats : Nat := 0
  deriving DecidableEq, Repr, Inhabited

/-- The chain that a ladle runs (R185 to R190). -/
structure Run where
  chain : Chain
  idx : Nat := 0
  /-- Remaining counts of the LOOP entries reached, by entry index. -/
  loops : SMap Nat := []
  /-- Accumulated increments of SRC, DST and REC, by entry index (R188). -/
  incs : SMap (Int × Int × Int) := []
  /-- First failure: status and entry index (R190). -/
  bad : Option (Nat × Nat) := none
  bytes : Nat := 0
  /-- COPYs and FPRINTs begun and not complete, oldest first. -/
  copies : List CopyOp := []
  /-- The entry whose fault FLTACK has discarded (R190). -/
  dropped : Option Nat := none
  /-- Stores that a PUBL entry has still to publish, once it has begun (R188). -/
  publ : Option Nat := none
  /-- Its partition has been disabled: it stops at its next entry boundary, and writes no record (R47). -/
  abandoned : Bool := false
  /-- The flow modes taken at the start (R316). -/
  ordp : Bool := true
  ordd : BitVec 4 := 0xF
  deriving DecidableEq, Repr, Inhabited

/-- One of the 128 ladles (R184, R316). -/
structure Ladle where
  queue : List Chain := []
  /-- Chains accepted since the partition was enabled. -/
  seq : BitVec 32 := 0
  run : Option Run := none
  /-- Chains that a fenced ladle of the cluster had begun, to be gone on with (R356). -/
  resume : List Run := []
  /-- Completed chains: sequence number and whether bad (Table 7-10). -/
  ended : List (BitVec 32 × Bool) := []
  ordp : Bool := true
  ordd : BitVec 4 := 0xF
  tlb : List Tlb := []
  /-- Halted at its entry by a translation fault or a machine check. -/
  halted : Bool := false
  fenced : Bool := false
  test : Option (Nat × Nat) := none
  /-- The address whose poison halted it, while it is tested (R356). -/
  poisonAt : Option Word := none
  deriving DecidableEq, Repr, Inhabited

/-- A ladle write beat in flight (R315). -/
structure Beat where
  ladle : Nat
  /-- Destination: die 0 to 3, or 4 + rank of a peer. -/
  dest : Nat
  seq : BitVec 32
  key : Nat
  data : BitVec 128
  /-- The entry of the chain whose COPY issued it, and the chain's ladle and sequence number. -/
  entry : Nat
  lad : Nat
  chain : BitVec 32
  ordered : Bool
  /-- The virtual address, the address space it was translated in, and whether a TLBIR has dropped that translation (R162). -/
  va : Nat
  part : Nat
  asid : Nat
  mark : Bool := false
  deriving DecidableEq, Repr, Inhabited

/-- A waiter of a cluster semaphore (R189): the work whose A engine waits, or the ladle. -/
inductive Waiter where
  | core (work : Nat) (n : Nat)
  | ladle (l : Nat) (n : Nat)
  deriving DecidableEq, Repr, Inhabited

/-- A cluster semaphore (R189); `taken` holds the waiters that have taken and not yet gone on, with the POISON they
found. -/
structure Sem where
  count : Nat := 0
  poison : Bool := false
  ovf : Bool := false
  waiters : List Waiter := []
  taken : List (Waiter × Bool) := []
  deriving DecidableEq, Repr, Inhabited

/-- An allocated condition variable (R324, R325): its partition, its value once resolved, the segment it is tied to. -/
structure Cv where
  part : Nat
  val : Option Bool := none
  tie : Option Nat := none
  deriving DecidableEq, Repr, Inhabited

/-- CONDREC[c] and CONDCTL[c] (Table 18-9). -/
structure Cond where
  record : Word := 0
  asid : BitVec 16 := 0
  part : BitVec 4 := 0
  flt : Bool := false
  run : Bool := false
  en : Bool := false
  /-- A start waits for WAITM of its record (R23, R338). -/
  waits : Bool := false
  deriving DecidableEq, Repr, Inhabited

/-- A host link (Table 21-6, R374). `atomic`: AtomicOp Requester Enable of its function. -/
structure Link where
  rate : Nat := 0
  width : Nat := 0
  up : Bool := false
  downev : Bool := false
  atomic : Bool := false
  deriving DecidableEq, Repr, Inhabited

/-- A SpanasLink port (Table 21-7). -/
structure Span where
  peer : Nat := 0
  up : Bool := false
  downev : Bool := false
  retry : Nat := 0
  deriving DecidableEq, Repr, Inhabited

/-- A TLBIR not yet acknowledged (R139, R162): the core that sent it, or none for INVCMD of its partition; whether its replay
counts as its acknowledgement (Table 19-7); and the locations that the dropped translations named. -/
structure Inval where
  id : Nat
  part : Nat
  asid : Nat
  lo : Nat
  hi : Nat
  core : Option Nat
  waived : Bool := false
  keys : List (Nat × Nat) := []
  deriving DecidableEq, Repr, Inhabited

/-- A miss that waits, in the order of arrival (R151): for a free walker, or with its walker for an entry under migration: who waits, the
access, the level and location of the entry, since when, and whether an invalidation has restarted the walk (R153). -/
structure Stalled where
  client : Client
  part : Nat
  asid : Nat
  va : Nat
  access : Nat
  level : Nat
  entry : Nat := 0
  since : Nat
  restarted : Bool := false
  /-- 64 µs have passed and the entry is still under migration: the access takes cause 5. -/
  expired : Bool := false
  deriving DecidableEq, Repr, Inhabited

/-- An MSI-X message sent (R157, R349, R375): its function, its vector, and the table entry it was sent with. -/
structure Msi where
  fn : Nat
  vec : Nat
  entry : BitVec 128
  deriving DecidableEq, Repr, Inhabited

/-- A level-4 domain by MDID (R52). -/
structure Group where
  p : BitVec 32 := 0
  deriving DecidableEq, Repr, Inhabited

/-- What the device's fuses hold (R381, R382): serial number and rollback counter. The spec gives no value. DESIGN CHOICE
(log 36): 0. -/
structure Fuses where
  serial : Word := 0
  rollback : Nat := 0
  deriving DecidableEq, Repr, Inhabited

/-- What an attestation report holds (R382): the fuses' fields, the firmware's version and the digest of its image, the nonce, and
the digest of every PARTCFG. -/
structure Report where
  fuses : Fuses
  version : Nat
  digest : List Byte
  nonce : List Byte
  parts : List (List Byte)
  deriving DecidableEq, Repr, Inhabited

/-- The machine. -/
structure State where
  /-- Global memory M by key (location), R307: crucible, D-stacks, host tier, peers. An unlisted byte reads 0. -/
  mem : SMap Byte := []
  cores : SMap Core := []
  /-- The core that executes the next engine instruction (the model's own). -/
  cur : Nat := 0
  queues : SMap WQ := []
  nests : SMap NestRec := []
  parts : SMap Part := []
  groups : SMap Group := []
  dies : SMap Die := []
  ladles : SMap Ladle := []
  flows : List Beat := []
  /-- Next sequence number of a flow, by 2^20 · ladle + destination (R315). -/
  flowSeq : SMap (BitVec 32) := []
  /-- Cluster semaphores by 256 · cluster + number. -/
  sems : SMap Sem := []
  /-- Work on no core, in the order it came there. -/
  off : List Seg := []
  cvs : SMap Cv := []
  conds : SMap Cond := []
  mboxes : SMap (List (BitVec 256)) := []
  links : SMap Link := []
  spans : SMap Span := []
  /-- Peers to which no route has existed for 1 ms (R378), and since when no route has existed. -/
  lost : List Nat := []
  noRoute : SMap Nat := []
  invals : List Inval := []
  stalled : List Stalled := []
  /-- Open KV contexts (R208): partition, ASID and record address. -/
  kvOpen : List (Nat × Nat × Nat) := []
  /-- Poisoned 64-byte lines, as keys (R354). -/
  poison : List Nat := []
  /-- MSI-X messages sent, newest first (R157, R349), and the table of 2,048 vectors that both functions show (R374). -/
  msix : List Msi := []
  msixTable : SMap (BitVec 128) := []
  pwrcap : Nat := 2200
  /-- When the package power controller last measured (R380). -/
  measured : Nat := 0
  stage : Nat := 0
  fwerr : Bool := false
  /-- The fuses; the version and image digest of the firmware accepted since the reset (R381). -/
  fuses : Fuses := {}
  fwVersion : Nat := 0
  fwDigest : List Byte := []
  thermtrip : Bool := false
  /-- The package has removed its own power (R380). -/
  power : Bool := true
  /-- Security mailbox (R382), whether a report is being made, and what the last one holds. -/
  secbox : SMap Byte := []
  attesting : Bool := false
  report : Option Report := none
  /-- What the last host read returned (R310), and the last peer read or atomic. -/
  hostData : Word := 0
  peerData : Word := 0
  /-- Device time since reset, in ticks of 1/700 µs. -/
  now : Nat := 0
  /-- Creation numbers given (R57). -/
  creation : Nat := 0
  /-- The model's own counters: work, nest, invalidation, handle and leaving numbers; free values used; turns taken from Config. -/
  leaveNo : Nat := 0
  workNo : Nat := 1
  nestNo : Nat := 0
  invNo : Nat := 0
  handleNo : Nat := 0
  freeNo : Nat := 0
  turnNo : Nat := 0
  /-- The model's own: turns already decided; engines whose last turn ended in a wait with nothing changed since. -/
  agenda : List Turn := []
  /-- How many granules, entries, iterations or groups the instruction of this turn may do (the model's own): none is
  all that remain (log 5). -/
  budget : Option Nat := none
  quiet : List (Nat × Eng × Wait) := []
  /-- The model's own: cores whose array has waited at its last turn for a ring or a tile state, with nothing changed since. -/
  arrayQuiet : List Nat := []
  /-- The model's own: the places in the cycle of the deeds that have acted in the present one. -/
  cycle : List Nat := []
  /-- Cores whose refresh is due at the end of the present cycle (R310). -/
  due : List Nat := []
  /-- The model's own: the page-table entries that the fills of this turn have marked, and the accesses (R150). -/
  fills : List (Nat × Nat) := []
  deriving DecidableEq, Repr, Inhabited

/-- The machine right after reset (R383): DEVSTAT.STAGE 0, every register at the value its table gives, PWRCAP 2,200
and LADLEFLOW 0x1F among them, nothing placed, queued or in flight, and memory with nothing listed. DESIGN CHOICE (log 8), since
the spec gives no value: the contents of the crucible, the D-stacks, the host's memory, the scratchpads, the tiles, the vector and
general registers and every other part of a core before its first grant read 0. DESIGN CHOICE (log 9): the round-robin pointers over
queues and over tundishes start at 0 (R34). -/
def State.reset : State := {}

end Sys2Proof.Machine
end

