-- ==== Sys2Proof/Machine/Ops.lean ====
section
/-! DEFINITION. The named operations over the machine's state: registers, cores, partitions, global memory, the store
buffer and the outbound queue, time, taking a trap and returning from one. Every meaning is written over them. -/

namespace Sys2Proof.Machine

/-! ### Meanings as state transformers -/

/-- Why an instruction does not go on at this turn. -/
inductive Stop where
  /-- A precise trap: class, cause, TVAL. -/
  | trap (cls cause : Nat) (val : Word)
  /-- A translation fault (Table 6-6): cause, level, access kind, address, bytes still to transfer. -/
  | xlate (cause level access va extent : Nat)
  /-- The walk met an entry under migration (R151). -/
  | migrate (level access va : Nat)
  /-- A wait: nothing is taken. -/
  | wait (w : Wait)
  /-- A read met poison, or an access a peer with no route, at a location: machine check 9, with VAL (Table 19-5, R378). -/
  | poison (key : Nat) (val : Word)
  /-- A terminal entry would be popped or peeked as data: class 10 cause 1 (R97). -/
  | terminal (reads : List (Nat × Nat))
  /-- A speculative segment has reached an irrevocable act (R334). -/
  | suspend
  /-- A check of Table 19-6 has found an error of this cause: nothing of the instruction is kept. -/
  | detected (cause : Nat)
  deriving DecidableEq, Repr

/-- A stop, and the page-table entries marked until then: a completed fill stands, whatever stops the access after it (R150). -/
abbrev Stopped := Stop × List (Nat × Nat)

/-- What an instruction does to the state: a result and a next state, or a stop that leaves the state as it was but for the fills. -/
abbrev Act (α : Type) := StateT State (Except Stopped) α

/-- Stop with a reason. -/
def stop {α : Type} (x : Stop) : Act α := fun s => .error (x, s.fills)

/-- Stop with a precise trap. -/
def trap {α : Type} (cls cause : Nat) (val : Word := 0) : Act α := stop (.trap cls cause val)

/-- Wait when a condition holds. -/
def waitIf (b : Bool) (w : Wait) : Act Unit := if b then stop (.wait w) else pure ()

/-- Trap when a condition holds. -/
def trapIf (b : Bool) (cls cause : Nat) (val : Word := 0) : Act Unit := if b then trap cls cause val else pure ()

/-- Stop at poison when a condition holds. -/
def poisonIf (b : Bool) (key : Nat) (val : Word) : Act Unit := if b then stop (.poison key val) else pure ()

/-! ### Cores, engines, registers -/

/-- Core k (conductor core c is core 1024 + c). -/
def State.core (s : State) (k : Nat) : Core := s.cores.get {} k

/-- Core k changed. -/
def State.modCore (s : State) (k : Nat) (f : Core → Core) : State := { s with cores := s.cores.put k (f (s.core k)) }

/-- The core that executes the instruction. -/
def State.cc (s : State) : Core := s.core s.cur

/-- The saved state of the executing core. -/
def State.ctx (s : State) : Ctx := s.cc.ctx

/-- The executing core changed. -/
def State.modCC (s : State) (f : Core → Core) : State := s.modCore s.cur f

/-- The saved state of core k changed. -/
def State.modCtxOf (s : State) (k : Nat) (f : Ctx → Ctx) : State := s.modCore k fun c => { c with ctx := f c.ctx }

/-- The saved state of the executing core changed. -/
def State.modCtx (s : State) (f : Ctx → Ctx) : State := s.modCtxOf s.cur f

/-- The work of core k changed, if it holds any. -/
def State.modWorkOf (s : State) (k : Nat) (f : Work → Work) : State := s.modCore k fun c => { c with work := c.work.map f }

/-- The work of the executing core changed. -/
def State.modWork (s : State) (f : Work → Work) : State := s.modWorkOf s.cur f

/-- The work of the executing core; an empty one when it holds none. -/
def State.work (s : State) : Work := s.cc.work.getD { id := 0 }

/-- An engine of a core. -/
def Ctx.eng (c : Ctx) : Eng → Engine
  | .C => c.c
  | .A => c.a
  | .X => c.x
  | .F => c.f

/-- An engine of a core changed. -/
def Ctx.modEng (c : Ctx) (e : Eng) (f : Engine → Engine) : Ctx :=
  match e with
  | .C => { c with c := f c.c }
  | .A => { c with a := f c.a }
  | .X => { c with x := f c.x }
  | .F => { c with f := f c.f }

/-- A general register: g0 reads zero (R64). -/
def Engine.reg (e : Engine) (r : BitVec 5) : Word := if r = 0 then 0 else e.g.get 0 r.toNat

/-- A write of a general register: a write to g0 is discarded (R109). -/
def Engine.setReg (e : Engine) (r : BitVec 5) (v : Word) : Engine := if r = 0 then e else { e with g := e.g.set 0 r.toNat v }

/-- A general register of an engine of the executing core. -/
def State.reg (s : State) (e : Eng) (r : BitVec 5) : Word := (s.ctx.eng e).reg r

/-- A write of a general register of an engine of the executing core. -/
def State.setReg (s : State) (e : Eng) (r : BitVec 5) (v : Word) : State :=
  s.modCtx fun c => c.modEng e fun g => g.setReg r v

/-- Write a general register. -/
def setReg (e : Eng) (r : BitVec 5) (v : Word) : Act Unit := modify fun s => s.setReg e r v

/-- The engines in the order in which traps of one cycle are recorded (R348). -/
def engines : List Eng := [.C, .A, .X, .F]

/-- Whether core k is a conductor core (R338). -/
def isConductor (k : Nat) : Bool := 1024 ≤ k

/-- The die of a core; conductor pair p lies on die p (R1, R49). -/
def dieOf (k : Nat) : Nat := if isConductor k then (k - 1024) / 2 else k / 256

/-- Whether work is speculative: its chain is not empty (R326). -/
def Work.spec (w : Work) : Bool := !w.chain.isEmpty

/-- The engines that have not executed DONE (R74). -/
def Ctx.live (c : Ctx) : List Eng := engines.filter fun e => !(c.eng e).done

/-! ### Queues, FIFOs, rings -/

/-- The sum of the numbers that a list gives to one FIFO, or to one ring. -/
def total (l : List (Nat × Nat)) (f : Nat) : Nat := ((l.filter fun x => x.1 = f).map (·.2)).sum

/-- The slots of a queue, from its head. -/
def Ctx.queue (c : Ctx) (q : Nat) : List Slot := c.queues.get [] q

/-- A queue replaced. -/
def Ctx.setQueue (c : Ctx) (q : Nat) (l : List Slot) : Ctx := { c with queues := c.queues.set [] q l }

/-- The run of filled slots at the head of a queue (R95). -/
def Ctx.filledRun (c : Ctx) (q : Nat) : List Slot := (c.queue q).takeWhile (·.full)

/-- Free slots of a queue (R95). -/
def Ctx.freeSlots (c : Ctx) (q : Nat) : Nat := 32 - (c.queue q).length

/-- An entry pushed to a queue, at its tail (R95). -/
def Ctx.push (c : Ctx) (q : Nat) (d : Slot) : Ctx := c.setQueue q (c.queue q ++ [d])

/-- The last slots of queues, whose data are still to be written: they are allocated only (R95). -/
def Ctx.empty (c : Ctx) (l : List (Nat × Nat)) : Ctx :=
  l.foldl (fun c x =>
    let k := (c.queue x.1).length - x.2
    c.setQueue x.1 ((c.queue x.1).take k ++ ((c.queue x.1).drop k).map fun d => { d with full := false })) c

/-- Such slots are filled: a queue has one producer, so they are all of one instruction (R95). -/
def Ctx.fillSlots (c : Ctx) (l : List (Nat × Nat)) : Ctx :=
  l.foldl (fun c x => c.setQueue x.1 ((c.queue x.1).map fun d => { d with full := true })) c

/-- Such slots are free again. -/
def Ctx.deallocate (c : Ctx) (l : List (Nat × Nat)) : Ctx :=
  l.foldl (fun c x => c.setQueue x.1 ((c.queue x.1).filter (·.full))) c

/-- A ring. -/
def Ctx.ring (c : Ctx) (n : Nat) : Ring := c.rings.get {} n

/-- Filled slots of a ring (R169). -/
def Ring.filled (r : Ring) : Nat := (r.tail - r.head).toNat

/-- Free slots of a ring (R169). -/
def Ring.free (r : Ring) : Nat := r.n - r.filled

/-- Whether a core holds residue (R98). -/
def Ctx.residue (c : Ctx) : Bool :=
  c.queues.any (fun e => !e.2.isEmpty) || c.fifo.any (fun e => e.2 ≠ 0) || c.resv.any (fun e => e.2 ≠ 0)
    || c.rings.any (fun e => e.2.filled ≠ 0 && !e.2.pers)

/-! ### Partitions and domains -/

/-- Partition p. -/
def State.part (s : State) (p : Nat) : Part := s.parts.get {} p

/-- Partition p changed. -/
def State.modPart (s : State) (p : Nat) (f : Part → Part) : State := { s with parts := s.parts.put p (f (s.part p)) }

/-- PARTCFG fields (Table 2-3). -/
def Part.en (p : Part) : Bool := p.cfg.getLsbD 0
def Part.fmode (p : Part) : Bool := p.cfg.getLsbD 1
def Part.baseCl (p : Part) : Nat := bits p.cfg 12 7
def Part.ncl (p : Part) : Nat := bits p.cfg 19 13
def Part.mdrank (p : Part) : Nat := bits p.cfg 33 20
def Part.mdnm1 (p : Part) : Nat := bits p.cfg 47 34
def Part.mdid (p : Part) : Nat := bits p.cfg 63 48

/-- Whether an enabled partition holds a cluster (R45). -/
def Part.holds (p : Part) (cl : Nat) : Bool := p.en && p.baseCl ≤ cl && cl < p.baseCl + p.ncl

/-- The enabled partition of a cluster (R46: at most one). -/
def State.partOfCluster (s : State) (cl : Nat) : Option Nat := (List.range 16).find? fun p => (s.part p).holds cl

/-- The partition of a core: that of its cluster; of a conductor, that of its work (R338). -/
def State.partOf (s : State) (k : Nat) : Nat :=
  if isConductor k then ((s.core k).work.map (·.part)).getD 0 else (s.partOfCluster (k / 16)).getD 0

/-- Whether core k lies in a domain of a partition (Table 2-4). -/
def State.inDomain (s : State) (p lvl idx k : Nat) : Bool :=
  !isConductor k && (s.part p).holds (k / 16)
    && (match lvl with | 0 => k == idx | 1 => k / 16 == idx | 2 => k / 256 == idx | _ => true)

/-- Die d, ladle l, queue q. -/
def State.die (s : State) (d : Nat) : Die := s.dies.get {} d
def State.modDie (s : State) (d : Nat) (f : Die → Die) : State := { s with dies := s.dies.put d (f (s.die d)) }
def State.ladle (s : State) (l : Nat) : Ladle := s.ladles.get {} l
def State.modLadle (s : State) (l : Nat) (f : Ladle → Ladle) : State := { s with ladles := s.ladles.put l (f (s.ladle l)) }
def State.wq (s : State) (q : Nat) : WQ := s.queues.get {} q
def State.modWQ (s : State) (q : Nat) (f : WQ → WQ) : State := { s with queues := s.queues.put q (f (s.wq q)) }
def State.sem (s : State) (n : Nat) : Sem := s.sems.get {} n
def State.modSem (s : State) (n : Nat) (f : Sem → Sem) : State := { s with sems := s.sems.put n (f (s.sem n)) }

/-! ### Global memory M -/

/-- The span of keys of one tier. -/
def tierSpan : Nat := 2 ^ 47

/-- The key of a tier address (Table 6-1): tiers 0 to 2, then one span for each peer rank. -/
def keyOf (tier peer addr : Nat) : Nat := (if tier = 3 then 3 + peer else tier) * tierSpan + addr % tierSpan

/-- Whether a tier address lies beyond its tier (R144). -/
def beyondTier (tier addr : Nat) : Bool :=
  match tier with
  | 0 => 1120 * 2 ^ 20 ≤ addr
  | 1 => 2 ^ 39 ≤ addr
  | 3 => if addr / 2 ^ 46 % 2 = 1 then 1120 * 2 ^ 20 ≤ addr % 2 ^ 46 else 2 ^ 39 ≤ addr % 2 ^ 46
  | _ => tierSpan ≤ addr

/-- The tier of a key. -/
def tierOfKey (k : Nat) : Nat := min 3 (k / tierSpan)

/-- The peer rank of a key of tier 3. -/
def peerOfKey (k : Nat) : Nat := k / tierSpan - 3

/-- The die that holds a location of the crucible or of a D-stack; none for the host and peers (R144). -/
def dieOfKey (k : Nat) : Option Nat :=
  let a := k % tierSpan
  match k / tierSpan with
  | 0 => some (min 3 (a / (280 * 2 ^ 20)))
  | 1 => some (a / 4096 % 8 / 2)
  | _ => none

/-- The canonical form of a byte memory: addresses strictly rising, no entry equal to the 0 that an unlisted byte reads
as. -/
abbrev Memory.wf (m : SMap Byte) : Bool := SMap.wf 0 m

/-- A read of M: `n` bytes from a key, little-endian. -/
def State.readM (s : State) (key n : Nat) : Nat := numAt s.mem key n

/-- Bytes of M. -/
def State.bytesM (s : State) (key n : Nat) : List Byte := bytesAt s.mem key n

/-- Every replica of the frames that a write touches is dropped in the write's own step (R145). -/
def dropReplicas (key n : Nat) (d : Die) : Die :=
  { d with replicas := d.replicas.filter fun r => !(key / 4096 ≤ r.frame && r.frame ≤ (key + n - 1) / 4096) }

/-- A write of bytes to M in one step: it drops the replicas it covers and the poison of the lines it rewrites. -/
def State.writeM (s : State) (key : Nat) (l : List Byte) : State :=
  { s with
    mem := s.mem.setList 0 key l
    dies := s.dies.map fun e => (e.1, dropReplicas key l.length e.2)
    poison := s.poison.filter fun f => !(key / 64 ≤ f && f ≤ (key + l.length - 1) / 64) }

/-- A little-endian write of `n` bytes to M. -/
def State.writeN (s : State) (key n v : Nat) : State := s.writeM key (toBytes v n)

/-- Whether a port that is up leads to a peer. -/
def State.routed (s : State) (rank : Nat) : Bool := s.spans.any fun e => e.2.up && e.2.peer = rank

/-- Ticks in one microsecond (R2: 700 MHz). -/
def usTicks : Nat := 700

/-- One millisecond (R354, R356, R378). -/
def msTicks : Nat := 1000 * usTicks

/-- Whether a peer has had no route for 1 ms (R378). -/
def State.isLost (s : State) (rank : Nat) : Bool :=
  s.lost.contains rank || (!s.routed rank && decide (s.noRoute.get 0 rank + msTicks ≤ s.now))

/-- Whether a location lies on a peer with no route for 1 ms. -/
def State.lostPeer (s : State) (key : Nat) : Bool := tierOfKey key = 3 && s.isLost (peerOfKey key)

/-- Whether a location lies on a peer with no route at present, so that an access waits (R378). -/
def State.noPath (s : State) (key : Nat) : Bool := tierOfKey key = 3 && !s.routed (peerOfKey key) && !s.isLost (peerOfKey key)

/-- Whether a read meets poison: a poisoned line (R354), or a peer with no route for 1 ms (R378). -/
def State.poisoned (s : State) (key n : Nat) : Bool :=
  s.poison.any (fun f => key / 64 ≤ f && f ≤ (key + n - 1) / 64) || s.lostPeer key

/-! ### Store buffer, outbound queue, snapshot -/

/-- The byte of a store at a location, if it covers it. -/
def Store.byteAt (t : Store) (key : Nat) : Option Byte :=
  if t.key ≤ key ∧ key < t.key + t.size then some (t.data.extractLsb' (8 * (key - t.key)) 8) else none

/-- The newest covering store of a buffer, oldest first. -/
def newest (l : List Store) (key : Nat) : Option Byte := l.reverse.findSome? (·.byteAt key)

/-- A core read of one byte: the newest own pending store, then the outbound queue, then the snapshot (R309). -/
def State.snapByte (s : State) (key : Nat) : Byte :=
  match newest s.work.sb key with
  | some b => b
  | none => match newest s.cc.ob key with
    | some b => b
    | none => s.work.snap.mem.get 0 key

/-- A core read of `n` bytes. -/
def State.snapRead (s : State) (key : Nat) : Nat → List Byte
  | 0 => []
  | n + 1 => s.snapByte key :: State.snapRead s (key + 1) n

/-- Whether a die's replica serves a read of a D-stack location (R145). -/
def State.replicaOn (s : State) (d key : Nat) : Bool := (s.die d).replicas.any fun r => r.frame = key / 4096

/-- Whether a read from a die meets poison: a replica on the die serves it in place of the D-stack line (R145). -/
def State.readPoisoned (s : State) (d key n : Nat) : Bool := s.poisoned key n && !s.replicaOn d key

/-- A replica that serves a read has been used most recently (R146). -/
def State.useReplica (s : State) (d key : Nat) : State :=
  if s.replicaOn d key then
    s.modDie d fun x => { x with replicas :=
      (x.replicas.filter fun r => r.frame ≠ key / 4096) ++ x.replicas.filter fun r => r.frame = key / 4096 }
  else s

/-- The snapshot of M as a partition sees it (R181, R307). -/
def State.snapshot (s : State) (p : Nat) : Snap :=
  { mem := s.mem, flips := (((s.part p).handles).filter fun e => e.2.cur).map (·.2.made) }

/-- The refresh step: V becomes M, a replay interval begins, and its log is empty (R310, R357). The checkpoint
is that of the core as it then is. -/
def Work.refresh (w : Work) (v : Snap) : Work := { w with snap := v, log := [], replay := none, ckpt := none }

/-- The engines' instructions in progress count the entries of their publications afresh (R357). -/
def Ctx.freshPub (c : Ctx) : Ctx :=
  let f := fun (g : Engine) => { g with prog := g.prog.map fun p => { p with pub := min p.pub p.count } }
  { c with c := f c.c, a := f c.a }

/-- A refresh of core k's work is due: it acts at the end of the cycle, after every other step of the cycle (R310). -/
def State.refreshOf (s : State) (k : Nat) : State := { s with due := k :: s.due.filter (· ≠ k) }

/-- A refresh of the executing core's work is due. -/
def State.refresh (s : State) : State := s.refreshOf s.cur

/-- The checkpoint of an interval that has just begun (R357). -/
def State.checkpoint (s : State) (k : Nat) : State :=
  s.modCore k fun c => { c with work := c.work.map fun w =>
    if w.ckpt.isNone then { w with ckpt := some { ctx := c.ctx, snap := w.snap, sb := w.sb } } else w }

/-- The refresh step of core k's work, and the checkpoint of the interval that it begins (R310, R357). -/
def State.takeRefresh (s : State) (k : Nat) : State :=
  ((s.modWorkOf k fun w => w.refresh (s.snapshot w.part)).modCtxOf k fun c =>
    { c.freshPub with csr := { c.csr with nrp := false } }).checkpoint k

/-- The refresh steps of a cycle, which act last in it (R310). -/
def State.takeRefreshes (s : State) : State := s.due.foldl State.takeRefresh { s with due := [] }

/-- Write an outbound-queue entry to M: the perform step's effect (R310). Nothing reaches a lost peer (R378). -/
def State.perform (s : State) (t : Store) : State := if s.lostPeer t.key then s else s.writeN t.key t.size t.data.toNat

/-- Perform every entry of core k's outbound queue, oldest first. -/
def State.drainOb (s : State) (k : Nat) : State :=
  ((s.core k).ob).foldl (fun s t => s.perform t) (s.modCore k fun c => { c with ob := [] })

/-! ### Time -/

/-- Pulses swallowed among the first j of a window with count n (R62): one at each j with floor((j+1)n/64) > floor(jn/64). -/
def swallowed (n j : Nat) : Nat := j * n / 64

/-- EFF: the count that comes into force at the next window boundary (Table 2-9). -/
def Die.eff (d : Die) : Nat := min (max (max d.hostmin d.pwr) d.therm) 56

/-- A window boundary: the count of DIECLK comes into force, and THROT notes a count above 0 (R61, R62). -/
def Die.boundary (d : Die) : Die := { d with force := d.eff, pulse := 0, throt := d.throt || 0 < d.eff }

/-- A die after `dt` pulses, and how many of them were not swallowed (R62, R63). -/
def Die.advance (d : Die) (dt : Nat) : Die × Nat :=
  if d.pulse + dt < 64 then
    ({ d with pulse := d.pulse + dt }, dt - (swallowed d.force (d.pulse + dt) - swallowed d.force d.pulse))
  else
    let rest := d.pulse + dt - 64
    let b := d.boundary
    ({ b with pulse := rest % 64 },
      (64 - d.pulse) - (swallowed d.force 64 - swallowed d.force d.pulse)
        + (rest - (rest / 64 * b.force + swallowed b.force (rest % 64))))

/-- The event codes that a wait counts under (Table 21-3). -/
def Wait.codes : Wait → List Nat
  | .token => [4]
  | .queue | .ring => [5]
  | .tokenQueue => [4, 5]
  | .slip => [6]
  | _ => []

/-- Event counters: each enabled pair whose EVENT is `ev` and, for an event of one engine, whose ENG holds the engine,
adds n (R373). -/
def Csrs.count (r : Csrs) (ev : Nat) (e : Option Eng) (n : Nat) : Csrs :=
  let sel := fun (v : Word) => v.getLsbD 15 && bits v 7 0 == ev
    && (match e with | none => true | some .C => v.getLsbD 16 | some .A => v.getLsbD 17 | some .X => v.getLsbD 18 | some .F => v.getLsbD 19)
  { r with evcnt := r.evsel.foldl (fun m x => if sel x.2 then m.set 0 x.1 (m.get 0 x.1 + BitVec.ofNat 64 n) else m) r.evcnt }

/-- Count events on core k. -/
def State.countOn (s : State) (k ev : Nat) (e : Option Eng) (n : Nat) : State :=
  s.modCtxOf k fun c => { c with csr := c.csr.count ev e n }

/-- One core after `n` cycles (Table 5-6 CYCLE, R373): its cycle counter, and its events of a cycle, of the engines' stalls and of
the array's. -/
def Core.advance (c : Core) (n : Nat) (waits : List (Eng × Wait)) (array : Bool) : Core :=
  if c.work.isNone then c else
  let r := { c.ctx.csr with cycle := c.ctx.csr.cycle + BitVec.ofNat 64 n }.count 1 none n
  let r := waits.foldl (fun r x => x.2.codes.foldl (fun r v => r.count v (some x.1) n) r) r
  let r := if array then r.count 8 none n else r
  { c with ctx := { c.ctx with csr := r } }

/-- The device after `dt` ticks in which nothing else happens. -/
def State.tick (s : State) (dt : Nat) : State :=
  if dt = 0 then s else
  { s with
    now := s.now + dt
    cores := s.cores.map fun e => (e.1, e.2.advance ((s.die (dieOf e.1)).advance dt).2
      ((s.quiet.filter fun q => q.1 = e.1).map (·.2)) (s.arrayQuiet.contains e.1))
    dies := (List.range 4).map fun d => (d, ((s.die d).advance dt).1) }

/-- Device time in ns since reset (Table 19-3, TSTAMP). -/
def State.ns (s : State) : Nat := s.now * 1000 / 700

/-! ### Loops -/

/-- The loops of an engine that it sees: under INH, C sees those pushed since entry (R131). -/
def Ctx.seenLoops (c : Ctx) (e : Eng) : List Loop :=
  let l := (c.eng e).loops
  if e = .C ∧ c.csr.inh then l.take (l.length - c.csr.hidden) else l

/-- The loops of an engine hidden by the local handler. -/
def Ctx.hiddenLoops (c : Ctx) (e : Eng) : List Loop :=
  let l := (c.eng e).loops
  if e = .C ∧ c.csr.inh then l.drop (l.length - c.csr.hidden) else []

/-- ApplyLoopEnd (R106): the loops left and the program counter. -/
def applyLoopEnd : List Loop → Nat → List Loop × Nat
  | [], pc => ([], pc)
  | l :: r, pc =>
    if l.last = pc then (if 1 < l.count then ({ l with count := l.count - 1 } :: r, l.start) else applyLoopEnd r pc)
    else (l :: r, pc)

/-- A taken branch to t pops the innermost loops that do not contain t (R107). -/
def popOutside (l : List Loop) (t : Nat) : List Loop := l.dropWhile fun x => !(x.start ≤ t && t ≤ x.last)

/-- An engine arrives at a program counter, its seen loops being `l`: ApplyLoopEnd acts (R106). -/
def Ctx.arrive (c : Ctx) (e : Eng) (l : List Loop) (pc : Nat) : Ctx :=
  let (l', pc') := applyLoopEnd l pc
  let h := c.hiddenLoops e
  c.modEng e fun g => { g with loops := l' ++ h, pc := pc' }

/-! ### Traps: taking one, and returning from the local handler -/

/-- The first word at a program counter, 0 at or beyond LEN (Table 5-6, TVAL). -/
def Core.wordAt (c : Core) (pc len : Nat) : Word := if pc < len then zext (c.imem.get 0 pc) else 0

/-- Whether a word offset is a first word of the text (R70, R86). -/
def Core.firstWord (c : Core) (pc : Nat) : Bool := c.marks.contains pc

/-- Whether a C trap is taken by the local handler (R131). -/
def Core.takesLocally (c : Core) (len : Nat) (e : Eng) (cls cause : Nat) : Bool :=
  e = .C && 1 ≤ cls && cls ≤ 5 && c.ctx.csr.en && !c.ctx.csr.inh && c.ctx.csr.off < len && c.firstWord c.ctx.csr.off
    && !(cls == 2 && cause == 4)

/-- Local trap entry (R131): TEPC takes the program counter, one more for TRAP; TCAUSE and TVAL are set; the loops
active are hidden; the handler is entered. -/
def Ctx.enterLocal (c : Ctx) (cls cause : Nat) (val : Word) : Ctx :=
  { c with
    csr := { c.csr with
      tepc := (if cls = 5 then c.c.pc + 1 else c.c.pc) % 2 ^ 14, cls := cls, cause := cause, tval := val, inh := true
      hidden := c.c.loops.length }
    c := { c.c with pc := c.csr.off, prog := none } }

/-- The return from the local handler (R132): the loops pushed since entry are discarded. -/
def Ctx.leaveLocal (c : Ctx) : Ctx :=
  { c with
    csr := { c.csr with inh := false, hidden := 0 }
    c := { c.c with loops := c.hiddenLoops .C, pc := c.csr.tepc } }

/-- The engine tag of a trap record (Table 3-5). -/
def engTag : Eng → Nat
  | .C => 0
  | .A => 1
  | .X => 2
  | .F => 3

/-- Machine checks that are contained (Table 19-5, R353). -/
def contained (cause : Nat) : Bool := [1, 2, 3, 4, 6, 9, 12].contains cause

/-- The unit that holds a location: the crucible bank of a die, the channel of a stack (Table 6-1, Table 19-3); for any other
location, core k. -/
def unitOfKey (k key : Nat) : Nat :=
  match tierOfKey key with
  | 0 => 3 * 2 ^ 24 + (dieOfKey key).getD 0
  | 1 => 4 * 2 ^ 24 + key / 4096 % 8
  | _ => k % 1024

/-- The fields of a trap record that the core and its work give (Table 19-3). -/
def trapRecOf (k : Nat) (c : Core) (w : Work) (src : TrapSource) (cls cause : Nat) (val : Word) : TrapRec :=
  { src, cls, cause, val
    cont := cls = 13 && contained cause, unit := if cls = 13 then k % 1024 else 0
    cond := isConductor k, core := if isConductor k then k - 1024 else k, part := w.part
    pcs := [c.ctx.c.pc, c.ctx.a.pc, c.ctx.x.pc, c.ctx.f.pc], iter := w.iter
    queue := w.queue.getD 0x7FFF, rcnt := c.ctx.csr.rcnt }

/-- Whether a trap is of the same core and cycle, of its array and not yet written: an engine's record comes before it (R348). -/
def TrapRec.after (y t : TrapRec) : Bool :=
  y.arr && !t.arr && decide (y.since = t.since) && decide (y.core = t.core) && y.cond == t.cond && y.seq.isNone

/-- A trap in its place among those delivered. -/
def placeTrap (t : TrapRec) (l : List TrapRec) : List TrapRec :=
  let n := (l.reverse.takeWhile fun y => y.after t).length
  l.take (l.length - n) ++ t :: l.drop (l.length - n)

/-- A trap joins the partition's delivered traps, to be written by TRAP_RECORD_WRITE (R349). -/
def State.addTrap (s : State) (t : TrapRec) : State :=
  s.modPart t.part fun p => { p with traps := placeTrap { t with since := s.now } p.traps }

/-- Taking a trap of an engine of core k: locally, or delivered with the work held (R131, R348); `f` completes the record. -/
def State.takeTrapWith (s : State) (k : Nat) (e : Eng) (cls cause : Nat) (val : Word) (f : TrapRec → TrapRec) : State :=
  let c := s.core k
  match c.work with
  | none => s
  | some w =>
    if c.takesLocally w.len e cls cause then s.modCtxOf k fun x => x.enterLocal cls cause val
    else
      (s.modCtxOf k fun x => x.modEng e fun g => { g with hold := some (.trap cls cause) }).addTrap
        (f { trapRecOf k c w (.engine w.id e) cls cause val with eng := engTag e })

/-- Taking a trap of an engine of core k. -/
def State.takeTrap (s : State) (k : Nat) (e : Eng) (cls cause : Nat) (val : Word) : State := s.takeTrapWith k e cls cause val id

/-- A machine check that holds the work of core k as a whole (Table 19-5). -/
def State.machineCheck (s : State) (k cause test : Nat) : State :=
  let c := s.core k
  match c.work with
  | none => s
  | some w => (s.modCtxOf k fun x => { x with held := true }).addTrap { trapRecOf k c w (.work w.id) 13 cause 0 with test }

/-- The level of the PHASE in which a core is stalled, having arrived (R53, R56). -/
def Core.phaseAt (c : Core) : Option Nat :=
  (c.work.bind (·.arrived)).filter fun l => c.ctx.c.prog.any fun p => p.stage = 2 && p.data = [l]

/-- Work off every core, as its last core held it. -/
def Seg.asCore (g : Seg) : Nat × Core := (g.core.getD 0, { ctx := g.ctx.getD {}, work := some g.work })

/-- The machine check of a published store whose peer is lost, with its address (R378); cause 11 in an interval that cannot be replayed
(R359). -/
def lostStore (k : Nat) (c : Core) (w : Work) (t : Store) : TrapRec :=
  { trapRecOf k c w (.work w.id) 13 (if c.ctx.csr.nrp then 11 else 9) (BitVec.ofNat 64 t.va) with unit := unitOfKey k t.key }

/-- Perform the oldest entry of core k's outbound queue (R310), once there is a route to it. To a lost peer it is
machine check 9 of the work, and the store stays until the work goes on (R378, log 33); a store that ended work has left behind is gone. -/
def State.performOldest (s : State) (k : Nat) : State :=
  let c := s.core k
  match c.ob, c.work with
  | [], _ => s
  | t :: r, w =>
    if s.noPath t.key then s
    else match s.lostPeer t.key && !c.ending, w with
    | true, some w =>
      if c.ctx.held then s else (s.modCtxOf k fun x => { x with held := true }).addTrap (lostStore k c w t)
    | _, _ => (s.modCore k fun c => { c with ob := r }).perform t

/-- A translation fault joins the partition's faults, to be written by FAULT_RECORD_WRITE or FAULT_BATCH_CLOSE (R156,
R157). -/
def State.addFault (s : State) (f : FaultRec) : State :=
  s.modPart f.part fun p => { p with faults := p.faults ++ [{ f with since := s.now, no := p.faultNo }], faultNo := p.faultNo + 1 }

/-- Remaining counts of loops 0 to 3, innermost first (Table 6-8). -/
def Engine.loopCounts (g : Engine) : List Nat := (g.loops.take 4).map (·.count)

/-- A translation fault of an engine of core k: the engine halts with its program counter at the instruction, and the
fault awaits its record (R119, R156, R159). DESIGN CHOICE (log 15): CORE of a conductor core is the conductor's number, k % 1024
(Table 6-8). -/
def State.engineFault (s : State) (k : Nat) (e : Eng) (cause level access va extent : Nat) : State :=
  match (s.core k).work with
  | none => s
  | some w =>
    let g := (s.core k).ctx.eng e
    (s.modCtxOf k fun x => x.modEng e fun g => { g with hold := some .fault }).addFault
      { src := .engine w.id e, cause, level, access, srcCode := engTag e, core := k % 1024, va, asid := w.asid
        part := w.part, extent, unit := engTag e, cmd := g.pc, loops := g.loopCounts }

/-! ### Small state changes that several meanings share -/

/-- The action of an instruction of core k. -/
def State.asCore (s : State) (k : Nat) (f : State → State) : State := { f { s with cur := k } with cur := s.cur }

/-- The event flag of core k is set (R133). -/
def State.setEvt (s : State) (k : Nat) : State := s.modCtxOf k fun c => { c with csr := { c.csr with evt := true } }

/-- A detected error of a core, in the datapath of engine e where it is one (R354): its unit is tested while the work is held
(R356). -/
def State.detect (s : State) (k cause : Nat) (e : Eng := .C) : State :=
  s.modCore k fun c =>
    if c.work.isSome && !c.ending && c.test.isNone then
      { c with test := some (cause, s.now, e), badPath := none, badTokens := false, badSums := false }
    else c

/-- The core that holds a piece of work. -/
def State.coreOfWork (s : State) (id : Nat) : Option Nat :=
  (s.cores.find? fun e => e.2.work.any fun w => w.id = id).map (·.1)

/-- A free value of the model: the n-th byte of Config, and the counter advanced (notes/assumptions/3.md). -/
def State.freeByte (s : State) : Byte × State := (Config.freeByte s.freeNo, { s with freeNo := s.freeNo + 1 })

/-- `n` free bytes. -/
def State.freeBytes (s : State) : Nat → List Byte × State
  | 0 => ([], s)
  | n + 1 => let (b, s') := s.freeByte
             let (l, s'') := State.freeBytes s' n
             (b :: l, s'')

end Sys2Proof.Machine
end

