-- ==== Sys2Proof/Machine/Translate.lean ====
section
/-! DEFINITION. Address translation: the publish map's redirection (R181), the walk of the page tables (R147 to R151),
the translation caches (R152), and what a TLBIR drops (R139, R153, R162). -/

namespace Sys2Proof.Machine

/-- Access kinds of a fault record (Table 6-8): read, write or atomic, execute. -/
def accRead : Nat := 1
def accWrite : Nat := 2
def accExec : Nat := 4

/-- Where an access to a window goes (R181): `who` is the work that accesses, or that started the chain; a work other
than the owner that reads through a snapshot takes CUR from it. -/
def State.redirect (s : State) (p who : Nat) (flips : Option (List Nat)) (va : Nat) : Nat :=
  match (s.part p).handles.find? fun e => e.2.window ≤ va && va < e.2.window + e.2.len with
  | none => va
  | some (_, hd) =>
    let cur := if hd.owner = who then hd.cur else match flips with | some l => l.contains hd.made | none => hd.cur
    let side := if hd.armed && hd.owner == who then !cur else cur
    if side then hd.twin + (va - hd.window) else va

/-! ### Page-table entries (Tables 6-3, 6-4) -/

/-- Shift of the index at a level (Table 6-2); the bytes that an entry of that level maps. -/
def levelShift (level : Nat) : Nat := 12 + 9 * level

/-- Index into a node at a level (Table 6-2). -/
def levelIndex (level va : Nat) : Nat := va / 2 ^ levelShift level % (if level = 3 then 8192 else 512)

def pteV (e : Word) : Bool := e.getLsbD 0
def pteR (e : Word) : Bool := e.getLsbD 1
def pteW (e : Word) : Bool := e.getLsbD 2
def pteX (e : Word) : Bool := e.getLsbD 3
def pteLeaf (e : Word) : Bool := e.getLsbD 4
def pteG64 (e : Word) : Bool := e.getLsbD 5
def pteD (e : Word) : Bool := e.getLsbD 7
def pteTier (e : Word) : Nat := bits e 49 47
def ptePeer (e : Word) : Nat := bits e 63 50
def pteFrame (e : Word) : Nat := bits e 46 12 * 4096

/-- Whether a valid entry is malformed at its level (R149). -/
def pteMalformed (e : Word) (level : Nat) : Bool :=
  e.getLsbD 8 || 6 ≤ pteTier e || (pteTier e ≠ 3 && ptePeer e ≠ 0)
    || (level = 0 && !pteLeaf e) || (level = 3 && pteLeaf e)
    || (pteW e && !pteR e)
    || (if pteLeaf e then pteFrame e % 2 ^ levelShift level ≠ 0
        else pteTier e = 3)
    || (pteG64 e && level ≠ 0)

/-- Whether the sixteen entries from `key` form a group (R149). -/
def State.groupOk (s : State) (key : Nat) : Bool :=
  let e0 := BitVec.ofNat 64 (s.readM key 8)
  pteFrame e0 % 65536 = 0 && (List.range 16).all fun i =>
    let e := BitVec.ofNat 64 (s.readM (key + 8 * i) 8)
    pteG64 e && pteTier e = pteTier e0 && ptePeer e = ptePeer e0 && pteW e = pteW e0 && pteR e = pteR e0
      && pteX e = pteX e0 && pteFrame e = pteFrame e0 + 4096 * i

/-- What a walk finds. -/
inductive WalkRes where
  /-- A leaf: the translation, and the key of its entry. -/
  | leaf (t : Tlb) (entry : Nat)
  /-- A fault: cause and level. -/
  | fail (cause level : Nat)
  /-- An entry under migration, at a level, and its location. -/
  | stall (level entry : Nat)
  deriving DecidableEq, Repr

/-- The translation that a leaf gives. -/
def leafTlb (part asid va level : Nat) (e : Word) (group : Bool) (groupFrame : Nat) : Tlb :=
  let size := if group then 65536 else 2 ^ levelShift level
  { part, asid, va := va / size * size, size, key := keyOf (pteTier e) (ptePeer e) (if group then groupFrame else pteFrame e)
    r := pteR e, w := pteW e, x := pteX e, d := pteD e, leaf := e }

/-- A cached node entry, if one is held (R152). -/
def State.cachedNode (s : State) (d part asid level tag : Nat) : Option Word :=
  if Config.tlbHolds s.freeNo then
    ((s.die d).nodes.find? fun n => n.part = part && n.asid = asid && n.level = level && n.tag = tag).map (·.entry)
  else none

/-- A walker caches a valid node entry or root descriptor (R151). -/
def State.cacheNode (s : State) (d part asid level tag : Nat) (e : Word) : State :=
  { s.modDie d (fun x => { x with nodes :=
      ⟨part, asid, level, tag, e⟩ :: x.nodes.filter fun n => !(n.part = part && n.asid = asid && n.level = level && n.tag = tag) })
    with freeNo := s.freeNo + 1 }

/-- The walk from the node at `node` whose level is `level` (R147 to R151), on die d. -/
def walkFrom (d part asid va : Nat) : (level : Nat) → (node : Nat) → State → WalkRes × State
  | 0, node, s =>
    let key := node + 8 * levelIndex 0 va
    let e := BitVec.ofNat 64 (s.readM key 8)
    if !pteV e then (.fail 1 0, s)
    else if pteMalformed e 0 then (.fail 6 0, s)
    else
      let k0 := key - 8 * (levelIndex 0 va % 16)
      if pteG64 e && !s.groupOk k0 then (.fail 6 0, s)
      else if pteTier e = 4 then (.fail 4 0, s)
      else if pteTier e = 5 then (.stall 0 key, s)
      else if pteG64 e then (.leaf (leafTlb part asid va 0 e true (pteFrame (BitVec.ofNat 64 (s.readM k0 8)))) key, s)
      else (.leaf (leafTlb part asid va 0 e false 0) key, s)
  | level + 1, node, s =>
    let key := node + 8 * levelIndex (level + 1) va
    let tag := va / 2 ^ levelShift (level + 1)
    let hit := s.cachedNode d part asid (level + 1) tag
    let e := hit.getD (BitVec.ofNat 64 (s.readM key 8))
    if !pteV e then (.fail 1 (level + 1), s)
    else if pteMalformed e (level + 1) then (.fail 6 (level + 1), s)
    else if pteTier e = 4 then (.fail 4 (level + 1), s)
    else if pteTier e = 5 then (.stall (level + 1) key, s)
    else if pteLeaf e then (.leaf (leafTlb part asid va (level + 1) e false 0) key, s)
    else if beyondTier (pteTier e) (pteFrame e) then (.fail 7 0, s)
    else walkFrom d part asid va level (keyOf (pteTier e) 0 (pteFrame e)) (s.cacheNode d part asid (level + 1) tag e)

/-- The root descriptor of an ASID (Table 6-3), through the walker cache. -/
def State.rootOf (s : State) (d part asid : Nat) : Word :=
  (s.cachedNode d part asid 4 0).getD
    (BitVec.ofNat 64 (s.readM (keyOf 2 0 (bits (s.part part).ptbase 63 12 * 4096 + 8 * asid)) 8))

/-- A whole walk for an address under a partition and an ASID, on die d (R147, R151). DESIGN CHOICE (log 27): a root table beyond the
host bus addresses of bits [46:0] is cause 7. -/
def State.walk (s : State) (d part asid va : Nat) : WalkRes × State :=
  let r := s.rootOf d part asid
  if tierSpan ≤ bits (s.part part).ptbase 63 12 * 4096 + 8 * asid then (.fail 7 0, s)
  else if !r.getLsbD 0 then (.fail 8 0, s)
  else if bits r 63 50 ≠ 0 || bits r 15 1 ≠ 0 || 2 < bits r 49 47 then (.fail 6 4, s)
  else if beyondTier (bits r 49 47) (bits r 46 16 * 65536) then (.fail 7 0, s)
  else walkFrom d part asid va 3 (keyOf (bits r 49 47) 0 (bits r 46 16 * 65536)) (s.cacheNode d part asid 4 0 r)

/-- Whether a permission is missing (R149): a read needs R, a write R and W, the loader X. -/
def Tlb.lacks (t : Tlb) (acc : Nat) : Bool :=
  if acc = accExec then !t.x else if acc = accWrite then !(t.r && t.w) else !t.r

/-- A and D are set by an OR at the entry, when it lies in the crucible or a D-stack (R150). -/
def State.touchEntry (s : State) (entry acc : Nat) : State :=
  if tierOfKey entry ≤ 1 then
    let b := s.readM entry 1
    { s.writeN entry 1 ((BitVec.ofNat 8 b ||| 0x40 ||| (if acc = accWrite then 0x80 else 0)).toNat) with
      fills := s.fills ++ [(entry, acc)] }
  else s

/-- The fills of an act that has stopped stand, in the state from which it began (R150). -/
def State.keepFills (s : State) (l : List (Nat × Nat)) : State :=
  (l.drop s.fills.length).foldl (fun s x => s.touchEntry x.1 x.2) s

/-! ### The clients of translation and their caches -/

/-- The die of a client (R151). -/
def clientDie : Client → Nat
  | .coreC k | .coreA k => dieOf k
  | .ladle l => l / 32
  | .loader d | .tundish d | .shakeout d => d

/-- The translations a client holds. -/
def State.tlbOf (s : State) : Client → List Tlb
  | .coreC k => (s.core k).tlbC
  | .coreA k => (s.core k).tlbA
  | .ladle l => (s.ladle l).tlb
  | _ => []

/-- A client's cache changed. -/
def State.modTlb (s : State) (cl : Client) (f : List Tlb → List Tlb) : State :=
  match cl with
  | .coreC k => s.modCore k fun c => { c with tlbC := f c.tlbC }
  | .coreA k => s.modCore k fun c => { c with tlbA := f c.tlbA }
  | .ladle l => s.modLadle l fun x => { x with tlb := f x.tlb }
  | _ => s

/-- Whether a cached translation serves an address. -/
def Tlb.covers (t : Tlb) (part asid va : Nat) : Bool := t.part = part && t.asid = asid && t.va ≤ va && va < t.va + t.size

/-- Whether an access that faults was a miss of its client's cache (R150, R373). -/
def State.missed (s : State) (cl : Client) (part asid va acc : Nat) : Bool :=
  decide (va < 2 ^ 52) && !(s.tlbOf cl).any fun t => t.covers part asid va && !(acc = accWrite && !t.d)

/-- What a translation gives. -/
inductive XRes where
  | ok (key : Nat)
  | fail (cause level : Nat)
  /-- An entry under migration at a level, or, at level `noWalker`, no free walker. -/
  | stall (level : Nat)
  deriving DecidableEq, Repr

/-- The location that a translation gives to an address; a tier address beyond its tier is cause 7 (R144). -/
def Tlb.locate (t : Tlb) (va : Nat) : XRes :=
  let key := t.key + (va - t.va)
  if beyondTier (tierOfKey key) (key % tierSpan) then .fail 7 0 else .ok key

/-- The level that stands for a miss without a walker: it waits for one in the order of arrival (R151). -/
def noWalker : Nat := 5

/-- The walkers of a die that wait for entries under migration. -/
def State.busyWalkers (s : State) (d : Nat) : Nat :=
  (s.stalled.filter fun x => clientDie x.client = d && x.level ≠ noWalker && !x.expired).length

/-- Whether a walker of a die is free (R151, R356). -/
def State.walkerFree (s : State) (d : Nat) : Bool := decide (s.busyWalkers d + (s.die d).fenceWalk < 96)

/-- The misses of a die that wait for a walker, in the order in which they have arrived. -/
def State.misses (s : State) (d : Nat) : List Stalled := s.stalled.filter fun x => clientDie x.client = d && x.level = noWalker

/-- The walk that serves a miss: the fill sets A and D and enters the client's cache (R150, R151). A translation that
lacks the permission, or is invalid, non-resident or migrating, is never cached. -/
def State.fill (s : State) (cl : Client) (part asid va acc : Nat) : XRes × State :=
  let s := match cl with
    | .coreC k => s.countOn k 0x0B (some .C) 1
    | .coreA k => s.countOn k 0x0B (some .A) 1
    | _ => s
  match s.walk (clientDie cl) part asid va with
  | (.fail c l, s) => (.fail c l, s)
  | (.stall l _, s) => (.stall l, s)
  | (.leaf t entry, s) =>
    if t.lacks acc then (.fail 2 0, s)
    else match t.locate va with
      | .ok key =>
        let t := if acc = accWrite ∧ tierOfKey entry ≤ 1 then { t with d := true } else t
        (.ok key, (s.touchEntry entry acc).modTlb cl fun l => t :: l.filter fun x => !(x.covers part asid va))
      | x => (x, s)

/-- The location of the entry under migration that a walk meets, 0 when it meets none. -/
def State.migratingEntry (s : State) (d part asid va : Nat) : Nat :=
  match (s.walk d part asid va).1 with
  | .stall _ key => key
  | _ => 0

/-- A walker serves a miss that waits (R151): its client finds the translation when it goes on, or, without a cache, walks again; an entry
under migration keeps the walker. A fault is met again by the access itself. DEDUCED (log 113). -/
def State.serveMiss (s : State) (x : Stalled) : State :=
  match ({ s with stalled := s.stalled.filter fun y => y ≠ x } : State).fill x.client x.part x.asid x.va x.access with
  | (.stall l, t) => { t with stalled := s.stalled.map fun y => if y = x then { x with
    level := l, since := s.now, entry := s.migratingEntry (clientDie x.client) x.part x.asid x.va } else y }
  | (_, t) => t

/-- The misses that wait are served in the order of their arrival, each while a walker of its die is free (R151). -/
def State.serveMisses (s : State) : State :=
  (s.stalled.filter fun x => x.level = noWalker).foldl (fun s x => if s.walkerFree (clientDie x.client) then s.serveMiss x else s) s

/-- A miss takes a walker when one is free and no earlier miss of its die waits for one (R151). -/
def State.miss (s : State) (cl : Client) (part asid va acc : Nat) : XRes × State :=
  if s.walkerFree (clientDie cl) && (s.misses (clientDie cl)).isEmpty then s.fill cl part asid va acc else (.stall noWalker, s)

/-- Translation of one address for a client (R142, R150 to R152): a hit whose leaf has D = 0 is a miss for a write. -/
def State.translate (s : State) (cl : Client) (part asid va acc : Nat) : XRes × State :=
  if 2 ^ 52 ≤ va then (.fail 3 0, s)
  else match s.stalled.find? fun x => x.client = cl && x.va = va && x.part = part && x.asid = asid with
  | some x =>
    let rest : State := { s with stalled := s.stalled.filter fun y => y ≠ x }
    if x.expired then (.fail 5 x.level, rest)
    else if x.level = noWalker then
      if s.walkerFree (clientDie cl) && ((s.misses (clientDie cl)).takeWhile fun y => y ≠ x).isEmpty then rest.fill cl part asid va acc
      else (.stall noWalker, s)
    else (.stall x.level, s)
  | none =>
    match (s.tlbOf cl).find? fun t => t.covers part asid va with
    | some t =>
      if Config.tlbHolds s.freeNo && !(acc = accWrite && !t.d) then
        (if t.lacks acc then .fail 2 0 else t.locate va, { s with freeNo := s.freeNo + 1 })
      else { s with freeNo := s.freeNo + 1 }.miss cl part asid va acc
    | none => s.miss cl part asid va acc

/-- A client's access begins to wait, for a walker or for an entry under migration (R151). -/
def State.addStalled (s : State) (cl : Client) (part asid va acc level : Nat) : State :=
  if s.stalled.any fun x => x.client = cl && x.va = va && x.part = part && x.asid = asid && (x.level ≠ noWalker || level = noWalker) then s
  else
    let rest := s.stalled.filter fun x => !(x.client = cl && x.va = va && x.part = part && x.asid = asid)
    { s with stalled := rest ++ [{ client := cl, part, asid, va, access := acc, level, since := s.now
                                   entry := s.migratingEntry (clientDie cl) part asid va }] }

/-- Translation within a step of a unit, under a partition and an ASID. -/
def xlateAs (cl : Client) (part asid va acc extent : Nat) : Act Nat := fun s =>
  match s.translate cl part asid va acc with
  | (.ok key, s) => .ok (key, s)
  | (.fail c l, t) => .error (.xlate c l acc va extent, t.fills)
  | (.stall l, t) => .error (.migrate l acc va, t.fills)

/-- Translation within an instruction of the executing core, for its work. -/
def xlate (cl : Client) (va acc extent : Nat) : Act Nat := fun s => xlateAs cl s.work.part s.work.asid va acc extent s

/-! ### Invalidation -/

/-- Whether two ranges meet. -/
def meets (lo hi a n : Nat) : Bool := a < hi && lo < a + n

/-- Whether an invalidation covers a cached translation (R139). -/
def Inval.coversTlb (v : Inval) (t : Tlb) : Bool := t.part = v.part && t.asid = v.asid && meets v.lo v.hi t.va t.size

/-- Whether an invalidation covers an address of an address space. -/
def Inval.coversVa (v : Inval) (part asid va n : Nat) : Bool := part = v.part && asid = v.asid && meets v.lo v.hi va n

/-- Whether an invalidation drops a cached node: a root descriptor of the ASID, or a node entry that maps a byte of the
range (R139, R147). -/
def Inval.coversNode (v : Inval) (n : NodeEnt) : Bool :=
  n.part = v.part && n.asid = v.asid
    && (n.level = 4 || meets v.lo v.hi (n.tag * 2 ^ levelShift n.level) (2 ^ levelShift n.level))

/-- A store under a covered translation is marked (R161). -/
def Inval.markStore (v : Inval) (t : Store) : Store :=
  if v.coversVa t.part t.asid t.va t.size then { t with mark := true } else t

/-- The stores of a piece of work, its checkpoint's among them, under an invalidation. -/
def Inval.markWork (v : Inval) (w : Work) : Work :=
  { w with sb := w.sb.map v.markStore, ckpt := w.ckpt.map fun c => { c with sb := c.sb.map v.markStore } }

/-- Whether the tables from a node on, which maps from `base`, map a page of an invalidation's range to the frame at a location. -/
def State.mapsTo (s : State) (v : Inval) (frame : Nat) : (level : Nat) → (node base : Nat) → Bool
  | 0, node, base => (List.range 512).any fun i =>
    meets v.lo v.hi (base + 4096 * i) 4096 &&
      let e := BitVec.ofNat 64 (s.readM (node + 8 * i) 8)
      pteV e && !pteMalformed e 0 && pteTier e ≤ 3 && keyOf (pteTier e) (ptePeer e) (pteFrame e) = frame
  | level + 1, node, base => (List.range (if level = 2 then 8192 else 512)).any fun i =>
    let size := 2 ^ levelShift (level + 1)
    let a := base + size * i
    meets v.lo v.hi a size &&
      let e := BitVec.ofNat 64 (s.readM (node + 8 * i) 8)
      pteV e && !pteMalformed e (level + 1) && pteTier e ≤ 3 &&
        if pteLeaf e then
          let key := keyOf (pteTier e) (ptePeer e) (pteFrame e)
          decide (key ≤ frame) && decide (frame < key + size) && meets v.lo v.hi (a + (frame - key)) 4096
        else s.mapsTo v frame level (keyOf (pteTier e) 0 (pteFrame e)) a

/-- Whether the page tables map a page of an invalidation's range to the frame at a location (R145). -/
def State.coversFrame (s : State) (v : Inval) (frame : Nat) : Bool :=
  let r := BitVec.ofNat 64 (s.readM (keyOf 2 0 (bits (s.part v.part).ptbase 63 12 * 4096 + 8 * v.asid)) 8)
  r.getLsbD 0 && s.mapsTo v frame 3 (keyOf (bits r 49 47) 0 (bits r 46 16 * 65536)) 0

/-- The replicas of pages that an invalidation covers, as the page tables stand (R145). DEDUCED (log 115). -/
def State.coveredReplicas (s : State) (v : Inval) : List Nat :=
  ((s.dies.map fun e => e.2.replicas.map (·.frame)).flatten).filter fun f => s.coversFrame v (4096 * f)

/-- The locations of the translations that an invalidation drops, and of the replicated frames that the tables give to its pages. -/
def State.droppedKeys (s : State) (v : Inval) : List (Nat × Nat) :=
  let l := (s.cores.map fun e => e.2.tlbC ++ e.2.tlbA).flatten ++ (s.ladles.map fun e => e.2.tlb).flatten
  ((l.filter v.coversTlb).map fun t => (t.key, t.size)) ++ (s.coveredReplicas v).map fun f => (4096 * f, 4096)

/-- Sending an invalidation: every cache of the partition drops the covered entries, covered stores and beats are marked,
and walks in progress for covered addresses restart from the root (R139, R153, R161, R162). -/
def State.invalidate (s : State) (v : Inval) : State :=
  { s with
    cores := s.cores.map fun e => (e.1, { e.2 with
      tlbC := e.2.tlbC.filter fun t => !v.coversTlb t
      tlbA := e.2.tlbA.filter fun t => !v.coversTlb t
      work := e.2.work.map v.markWork
      ob := e.2.ob.map v.markStore })
    flows := s.flows.map fun b => if v.coversVa b.part b.asid b.va 16 then { b with mark := true } else b
    off := s.off.map fun g => { g with work := v.markWork g.work, ob := g.ob.map v.markStore }
    ladles := s.ladles.map fun e => (e.1, { e.2 with tlb := e.2.tlb.filter fun t => !v.coversTlb t })
    dies := s.dies.map fun e => (e.1, { e.2 with nodes := e.2.nodes.filter fun n => !v.coversNode n })
    stalled := s.stalled.map fun x =>
      if v.coversVa x.part x.asid x.va 1 && x.level ≠ noWalker then { x with restarted := true, expired := false, since := s.now } else x
    invals := s.invals ++ [{ v with keys := s.droppedKeys v }] }

/-- The range of a TLBIR (R139): from the start to the lesser of start plus length and 2^52, empty when the length is
0 or the start lies at or beyond 2^52. -/
def invalRange (start len : Nat) : Option (Nat × Nat) :=
  if len = 0 ∨ 2 ^ 52 ≤ start then none else some (start, min (start + len) (2 ^ 52))

end Sys2Proof.Machine
end

