-- ==== Sys2Proof/Machine/Memory.lean ====
section
/-! DEFINITION. A core's accesses to memory: loads, stores, publication, the store buffer and the outbound queue
(R119, R120, R161, R179, R308 to R312). -/

namespace Sys2Proof.Machine

/-- The translation client of an engine of a core: C's cached TLB, A's stream TLB (R119, R179). -/
def engClient (k : Nat) (e : Eng) : Client := if e = .A then .coreA k else .coreC k

/-- The address that a read of the executing core's work goes to: a reader takes CUR from its snapshot (R181). -/
def State.window (s : State) (va : Nat) : Nat := s.redirect s.work.part s.work.id (some s.work.snap.flips) va

/-- The address that any other access of the executing core's work goes to (R181). -/
def State.windowNow (s : State) (va : Nat) : Nat := s.redirect s.work.part s.work.id none va

/-- A read of `n` bytes by an engine (R120, R309): redirected, translated, and taken from the store buffer, the outbound
queue or the snapshot. Poisoned data raise machine check 9 (Table 19-5), unless a replica serves the read (R145). -/
def coreRead (e : Eng) (va n : Nat) (extent : Nat := n) : Act (List Byte) := do
  let s ← get
  let key ← xlate (engClient s.cur e) (s.window va) accRead extent
  let s ← get
  waitIf (s.noPath key) .memory
  poisonIf (s.readPoisoned (dieOf s.cur) key n) key (BitVec.ofNat 64 va)
  set (s.useReplica (dieOf s.cur) key)
  pure (s.snapRead key n)

/-- The most entries that the store buffer of one work holds (R179). -/
def sbLimit : Nat := 16384

/-- A store joins the tail of the work's store buffer (R120, R308); a full buffer stalls it until a publish step has emptied the
buffer (R179). -/
def storeAppend (e : Eng) (va n v : Nat) (extent : Nat := n) : Act Unit := do
  let s ← get
  let va' := s.windowNow va
  let key ← xlate (engClient s.cur e) va' accWrite extent
  poisonIf (s.lostPeer key) key (BitVec.ofNat 64 va)
  waitIf (decide (sbLimit ≤ s.work.sb.length) || (s.ctx.eng e).stuck) .buffer
  let pc := (s.ctx.eng e).pc
  modify fun s => s.modWork fun w =>
    { w with sb := w.sb ++ [{ va := va', key, size := n, data := BitVec.ofNat 256 v, eng := e, pc, part := w.part, asid := w.asid }] }

/-- Whether a late store of a piece of work is held, its record not yet acknowledged (R161). -/
def State.lateHeld (s : State) (w : Work) : Bool := (s.part w.part).faults.any fun f => f.src = .store w.id

/-- No store of a core is stopped by a full store buffer any more (R179). -/
def Ctx.unstick (c : Ctx) : Ctx :=
  if c.c.stuck || c.a.stuck then { c with c := { c.c with stuck := false }, a := { c.a with stuck := false } } else c

/-- The oldest store of core k's work moves to the tail of the core's outbound queue. -/
def State.moveStore (s : State) (k : Nat) (t : Store) : State :=
  (s.modCore k fun c => { c with
    work := c.work.map fun w => { w with sb := w.sb.tail }
    ctx := if c.work.all (fun w => w.sb.length ≤ 1) then c.ctx.unstick else c.ctx
    ob := c.ob ++ [t] }).countOn k 0x0A none 1

/-- The record of a late store (R161, Table 6-6 cause 9). -/
def lateFault (k : Nat) (w : Work) (t : Store) : FaultRec :=
  { src := .store w.id, cause := 9, access := accWrite, srcCode := 5, core := k % 1024, va := t.va, asid := t.asid
    part := w.part, extent := t.size, unit := engTag t.eng, cmd := t.pc }

/-- The publish step over the oldest n entries of core k's work (R310): every entry moves in order to the outbound
queue. A marked entry is translated again; when that fails it is held, and nothing more is published while it is (R161). The second
result is how many of the n are left. A speculative segment publishes nothing (R314). -/
def State.publishN (k : Nat) : Nat → State → State × Nat
  | 0, s => (s, 0)
  | n + 1, s =>
    match (s.core k).work with
    | none => (s, 0)
    | some w =>
      if w.spec then (s, 0)
      else match w.sb with
        | [] => (s, 0)
        | t :: _ =>
          if s.lateHeld w then (s, n + 1)
          else if t.mark then
            match s.translate (engClient k t.eng) t.part t.asid t.va accWrite with
              | (.ok key, s) => State.publishN k n (s.moveStore k { t with key, mark := false })
              | (.stall l, s) => (s.addStalled (engClient k t.eng) t.part t.asid t.va accWrite l, n + 1)
              | (.fail _ _, s) => (s.addFault (lateFault k w t), n + 1)
          else State.publishN k n (s.moveStore k t)

/-- Whether a store covers a byte of a range of locations. -/
def Store.covers (t : Store) (key n : Nat) : Bool := meets key (key + n) t.key t.size

/-- Of the first `m` entries of a store buffer, those that cover a location move to the outbound queue, in order, and the others
stay (R311 step 2); `kept` are those passed over. A marked one is translated again as at a publication, and nothing moves while
one is held (R161): the second result is how many entries are then still to be looked at. -/
def State.publishCovering (k key n : Nat) : (m : Nat) → (left kept : List Store) → State → State × Nat
  | 0, _, _, s => (s, 0)
  | _, [], _, s => (s, 0)
  | m + 1, t :: r, kept, s =>
    if t.covers key n then
      let move := fun (s : State) (t' : Store) =>
        State.publishCovering k key n m r kept
          ((s.modCore k fun c => { c with
            work := c.work.map fun w => { w with sb := kept ++ r }
            ob := c.ob ++ [t'] }).countOn k 0x0A none 1)
      let held := kept.length + m + 1
      match (s.core k).work with
      | none => (s, 0)
      | some w =>
        if s.lateHeld w then (s, held)
        else if t.mark then
          match s.translate (engClient k t.eng) t.part t.asid t.va accWrite with
          | (.ok key', s) => move s { t with key := key', mark := false }
          | (.stall l, s) => (s.addStalled (engClient k t.eng) t.part t.asid t.va accWrite l, held)
          | (.fail _ _, s) => (s.addFault (lateFault k w t), held)
        else move s t
    else State.publishCovering k key n m r (kept ++ [t]) s

end Sys2Proof.Machine
end

