-- ==== Sys2Proof/Machine/Flags.lean ====
section
/-! DEFINITION. Number formats, exact arithmetic, the one rounding function, and the flags NV, OF, UF and NX (R125 to
R127, R221 to R235). Values are exact; a result is rounded where a rounding is called, and nowhere else. -/

namespace Sys2Proof.Machine

/-- The four flags (Table 5-4). -/
structure Flags where
  nv : Bool := false
  of : Bool := false
  uf : Bool := false
  nx : Bool := false
  deriving DecidableEq, Repr, Inhabited

/-- Flags gathered. -/
def Flags.or (a b : Flags) : Flags := ⟨a.nv || b.nv, a.of || b.of, a.uf || b.uf, a.nx || b.nx⟩

/-- Flags ORed into FSTAT (R127, R243, R302). -/
def Csrs.raise (r : Csrs) (f : Flags) : Csrs :=
  { r with nv := r.nv || f.nv, of := r.of || f.of, uf := r.uf || f.uf, nx := r.nx || f.nx }

/-- Flags raised in the executing core. -/
def State.raise (s : State) (f : Flags) : State := s.modCtx fun c => { c with csr := c.csr.raise f }

/-- An exact value: a NaN (signalling or not), an infinity, or (−1)^neg · m · 2^e (R224, R225). -/
inductive Val where
  | nan (sig : Bool)
  | inf (neg : Bool)
  | fin (neg : Bool) (m : Nat) (e : Int)
  deriving DecidableEq, Repr, Inhabited

/-- A binary floating-point format (Tables 10-2, 10-3): fraction bits, exponent of the least normal, width, encoding
of the largest finite value, whether it has infinities, and its canonical NaN if it has one. -/
structure Fmt where
  m : Nat
  emin : Int
  w : Nat
  maxEnc : Nat
  hasInf : Bool
  nan : Option Nat
  deriving DecidableEq, Repr, Inhabited

def fmtF32 : Fmt := ⟨23, -126, 32, 0x7F7FFFFF, true, some 0x7FC00000⟩
def fmtF16 : Fmt := ⟨10, -14, 16, 0x7BFF, true, some 0x7E00⟩
def fmtBf16 : Fmt := ⟨7, -126, 16, 0x7F7F, true, some 0x7FC0⟩
def fmtE5m2 : Fmt := ⟨2, -14, 8, 0x7B, true, some 0x7E⟩
def fmtE4m3 : Fmt := ⟨3, -6, 8, 0x7E, false, some 0x7F⟩
def fmtE2m1 : Fmt := ⟨1, 0, 4, 7, false, none⟩
/-- FP64, in which fingerprints are kept (R192). -/
def fmtF64 : Fmt := ⟨52, -1022, 64, 0x7FEFFFFFFFFFFFFF, true, some 0x7FF8000000000000⟩

/-- The format of a float type code (Table 3-9); `.e8m0` is apart (R230). -/
def fmtOf (ty : Nat) : Fmt :=
  match ty with
  | 8 => fmtE2m1
  | 9 => fmtE4m3
  | 10 => fmtE5m2
  | 12 => fmtF16
  | 13 => fmtBf16
  | _ => fmtF32

/-- Whether a type code is an integer type, and whether that is signed (R221). -/
def isIntTy (ty : Nat) : Bool := ty ≤ 7
def isSignedTy (ty : Nat) : Bool := 4 ≤ ty && ty ≤ 7

/-- The width of a type code. -/
def tyBits (ty : Nat) : Nat := typeBits (BitVec.ofNat 4 ty)

/-- The exact value of an integer. -/
def Val.ofInt (i : Int) : Val := .fin (i < 0) i.natAbs 0

/-- The value that an encoding of a format stands for (R224, R225, R226). -/
def Fmt.decode (f : Fmt) (v : Nat) : Val :=
  let neg := v / 2 ^ (f.w - 1) % 2 = 1
  let a := v % 2 ^ (f.w - 1)
  if f.maxEnc < a then
    if f.hasInf && a = f.maxEnc + 1 then .inf neg
    else .nan (decide (f.m = 23 ∨ f.m = 10 ∨ f.m = 7 ∨ f.m = 52) && a / 2 ^ (f.m - 1) % 2 = 0)
  else
    let ex := a / 2 ^ f.m
    if ex = 0 then .fin neg a (f.emin - f.m) else .fin neg (a % 2 ^ f.m + 2 ^ f.m) (f.emin - f.m + (ex - 1 : Nat))

/-- The value of an element of a type (R221, R224, R227). -/
def decodeTy (ty v : Nat) : Val :=
  if isIntTy ty then .ofInt (if isSignedTy ty then (BitVec.ofNat (tyBits ty) v).toInt else (v % 2 ^ tyBits ty : Nat))
  else if ty = 11 then (if v % 256 = 255 then .nan false else .fin false 1 ((v % 256 : Nat) - 127))
  else (fmtOf ty).decode (v % 2 ^ tyBits ty)

/-- Rounding mode: nearest even, or stochastic with 16 generator bits (R229). -/
abbrev Mode := Option Nat

/-- The integer nearest to m · 2^(−sh) under a mode, and whether it is exact (R229). -/
def roundShift (m sh : Nat) (mode : Mode) : Nat × Bool :=
  let i := m / 2 ^ sh
  let rem := m % 2 ^ sh
  let up := match mode with
    | none => decide (2 ^ sh < 2 * rem ∨ (2 * rem = 2 ^ sh ∧ i % 2 = 1))
    | some r => decide (2 ^ 16 ≤ rem * 2 ^ 16 / 2 ^ sh + r)
  (if up && rem ≠ 0 then i + 1 else i, rem = 0)

/-- m · 2^e as a multiple of 2^q under a mode, and whether it is exact. -/
def roundTo (m : Nat) (e q : Int) (mode : Mode) : Nat × Bool :=
  if q ≤ e then (m * 2 ^ (e - q).toNat, true) else roundShift m (q - e).toNat mode

/-- floor(log2(m · 2^e)) for m > 0. -/
def log2Val (m : Nat) (e : Int) : Int := (Nat.log2 m : Int) + e

/-- Tiny after rounding (R229). -/
def tiny (f : Fmt) (m : Nat) (e : Int) (mode : Mode) : Bool :=
  let k := log2Val m e
  if f.emin ≤ k then false
  else
    let q := k - f.m
    let i := (roundTo m e q mode).1
    decide ((Nat.log2 i : Int) + q < f.emin)

/-- The sign bit of a format. -/
def Fmt.sign (f : Fmt) (neg : Bool) : Nat := if neg then 2 ^ (f.w - 1) else 0

/-- RoundToFormat (R229). -/
def Fmt.round (f : Fmt) (mode : Mode) (sat : Bool) : Val → Nat × Flags
  | .nan sig => match f.nan with
    | none => (0, { nv := true })
    | some c => (c, { nv := sig })
  | .inf neg =>
    if f.hasInf then (f.sign neg + (f.maxEnc + 1), {})
    else match f.nan with
      | none => (f.sign neg + f.maxEnc, { of := true })
      | some c => if sat then (f.sign neg + f.maxEnc, { of := true }) else (c, { nv := true })
  | .fin neg m e =>
    if m = 0 then (f.sign neg, {}) else
    let qmin := f.emin - f.m
    let q := max (log2Val m e - f.m) qmin
    let (i, exact) := roundTo m e q mode
    let enc := ((q - qmin).toNat) * 2 ^ f.m + i
    if f.maxEnc < enc then
      (if sat || f.nan.isNone then f.sign neg + f.maxEnc
       else if f.hasInf then f.sign neg + (f.maxEnc + 1) else (f.nan).getD 0, { of := true, nx := true })
    else (f.sign neg + enc, { nx := !exact, uf := !exact && tiny f m e mode })

/-- Conversion to `.e8m0` (R230). -/
def roundE8m0 (sat : Bool) : Val → Nat × Flags
  | .nan _ => (0xFF, { nv := true })
  | .inf true => (0xFF, { nv := true })
  | .inf false => if sat then (0xFE, { of := true }) else (0xFF, { nv := true })
  | .fin neg m e =>
    if neg || m = 0 then (0xFF, { nv := true }) else
    let k := log2Val m e
    -- g = x / 2^k as g / 2^log2 m
    let one := 2 ^ Nat.log2 m
    let up := decide (3 * one < 2 * m ∨ (3 * one = 2 * m ∧ (k + 127) % 2 = 1))
    let k' := if up then k + 1 else k
    let nx := m ≠ one
    if k' + 127 < 0 then (0, { uf := true, nx := true })
    else if 254 < k' + 127 then (if sat then 0xFE else 0xFF, { of := true, nx := true })
    else ((k' + 127).toNat, { nx })

/-- The range ends of an integer type. -/
def intMin (ty : Nat) : Int := if isSignedTy ty then -(2 ^ (tyBits ty - 1) : Int) else 0
def intMax (ty : Nat) : Int := if isSignedTy ty then 2 ^ (tyBits ty - 1) - 1 else 2 ^ tyBits ty - 1

/-- An integer as an encoding of a width. -/
def encInt (w : Nat) (i : Int) : Nat := (i % (2 ^ w : Int)).toNat

/-- Conversion to an integer type: nearest even, saturating (R223). -/
def roundInt (ty : Nat) : Val → Nat × Flags
  | .nan _ => (0, { nv := true })
  | .inf neg => (encInt (tyBits ty) (if neg then intMin ty else intMax ty), { nv := true })
  | .fin neg m e =>
    let (i, exact) := roundTo m e 0 none
    let v : Int := if neg then -(i : Int) else i
    if v < intMin ty then (encInt (tyBits ty) (intMin ty), { nv := true })
    else if intMax ty < v then (encInt (tyBits ty) (intMax ty), { nv := true })
    else (encInt (tyBits ty) v, { nx := !exact })

/-- A value converted to a type (R223, R229, R230). -/
def encodeTy (ty : Nat) (mode : Mode) (sat : Bool) (v : Val) : Nat × Flags :=
  if isIntTy ty then roundInt ty v else if ty = 11 then roundE8m0 sat v else (fmtOf ty).round mode sat v

/-! ### Exact arithmetic -/

/-- The sign of a value. -/
def Val.neg : Val → Val
  | .nan s => .nan s
  | .inf n => .inf (!n)
  | .fin n m e => .fin (!n) m e

def Val.isNeg : Val → Bool
  | .nan _ => false
  | .inf n => n
  | .fin n _ _ => n

def Val.isNan : Val → Bool
  | .nan _ => true
  | _ => false

def Val.isZero : Val → Bool
  | .fin _ 0 _ => true
  | _ => false

def Val.isSig : Val → Bool
  | .nan s => s
  | _ => false

/-- A finite value's signed mantissa at exponent q, which lies at or below its own. -/
def mantAt (neg : Bool) (m : Nat) (e q : Int) : Int :=
  let a : Int := (m * 2 ^ (e - q).toNat : Nat)
  if neg then -a else a

/-- The exact sum of two values; the flag is an invalid operation (R125). -/
def Val.add : Val → Val → Val × Bool
  | .nan s, .nan t => (.nan (s || t), false)
  | .nan s, _ => (.nan s, false)
  | _, .nan t => (.nan t, false)
  | .inf a, .inf b => if a = b then (.inf a, false) else (.nan false, true)
  | .inf a, _ => (.inf a, false)
  | _, .inf b => (.inf b, false)
  | .fin a m e, .fin b n f =>
    let q := min e f
    let x := mantAt a m e q + mantAt b n f q
    if x = 0 then (.fin (a && b) 0 0, false) else (.fin (x < 0) x.natAbs q, false)

/-- The exact product of two values. -/
def Val.mul : Val → Val → Val × Bool
  | .nan s, .nan t => (.nan (s || t), false)
  | .nan s, _ => (.nan s, false)
  | _, .nan t => (.nan t, false)
  | .inf a, .inf b => (.inf (a != b), false)
  | .inf a, .fin b n _ => if n = 0 then (.nan false, true) else (.inf (a != b), false)
  | .fin a m _, .inf b => if m = 0 then (.nan false, true) else (.inf (a != b), false)
  | .fin a m e, .fin b n f => (.fin (a != b) (m * n) (e + f), false)

/-- The exact value of x · y + z; 0 · ∞ + NaN is invalid (R125). -/
def Val.fma (x y z : Val) : Val × Bool :=
  let (p, i) := x.mul y
  match i, z with
  | true, .nan t => (.nan t, true)
  | _, _ => let (r, j) := p.add z
            (r, i || j)

/-- x < y for values that are no NaN. -/
def Val.lt (x y : Val) : Bool :=
  match x, y with
  | .nan _, _ | _, .nan _ => false
  | .inf a, .inf b => a && !b
  | .inf a, _ => a
  | _, .inf b => !b
  | .fin a m e, .fin b n f => let q := min e f
                              mantAt a m e q < mantAt b n f q

/-- Equality of values; +0 = −0, and a NaN equals nothing (Table 5-3). -/
def Val.feq (x y : Val) : Bool :=
  match x, y with
  | .nan _, _ | _, .nan _ => false
  | .inf a, .inf b => a = b
  | .inf _, _ | _, .inf _ => false
  | .fin a m e, .fin b n f => let q := min e f
                              mantAt a m e q = mantAt b n f q

/-- The lesser or greater of two encodings of a format: −0 < +0, one NaN gives the other operand, two give the canonical
NaN; NV on a signalling NaN (Table 5-3). -/
def Fmt.minmax (f : Fmt) (greater : Bool) (a b : Nat) : Nat × Flags :=
  let x := f.decode a
  let y := f.decode b
  let fl : Flags := { nv := x.isSig || y.isSig }
  match x, y with
  | .nan _, .nan _ => ((f.nan).getD 0, fl)
  | .nan _, _ => (b, fl)
  | _, .nan _ => (a, fl)
  | _, _ =>
    let less := x.lt y || (x.feq y && x.isNeg && !y.isNeg)
    (if less != greater then a else b, fl)

/-- A value rounded to a format, with an invalid operation's flag added. -/
def Fmt.finish (f : Fmt) (mode : Mode) (sat : Bool) (r : Val × Bool) : Nat × Flags :=
  let (v, fl) := f.round mode sat r.1
  (v, { fl with nv := fl.nv || r.2 })

/-- The exact sum of a list of products (R233): NaN when any is NaN or infinities of both signs meet, an infinity of one
sign, −0 only when every one is −0. The flag is an invalid operation: of a term, or infinities of both signs (R278). -/
def exactSum (l : List (Val × Bool)) : Val × Bool :=
  let vs := l.map (·.1)
  let both := vs.any (fun v => decide (v = .inf false)) && vs.any fun v => decide (v = .inf true)
  let inv := l.any (·.2) || both
  if vs.any Val.isNan then (.nan (vs.any Val.isSig), inv)
  else if both then (.nan false, inv)
  else if vs.any (fun v => decide (v = .inf false)) then (.inf false, inv)
  else if vs.any (fun v => decide (v = .inf true)) then (.inf true, inv)
  else
    let q := vs.foldl (fun q v => match v with | .fin _ _ e => min q e | _ => q) 0
    let t := vs.foldl (fun (t : Int) v => match v with | .fin n m e => t + mantAt n m e q | _ => t) 0
    if t = 0 then (.fin (vs.all fun v => v.isZero && v.isNeg) 0 0, inv) else (.fin (t < 0) t.natAbs q, inv)

/-- FP32 addition of encodings, rounded to nearest with IEEE overflow. -/
def addF32 (a b : Nat) : Nat × Flags := fmtF32.finish none false ((fmtF32.decode a).add (fmtF32.decode b))

/-- One level of a tree sum: adjacent pairs added. -/
def pairSums : List Nat → List Nat × Flags
  | a :: b :: r =>
    let (x, f) := addF32 a b
    let (l, g) := pairSums r
    (x :: l, f.or g)
  | l => (l, {})

/-- TreeSum over 2^n positions (R234). -/
def treeSum : Nat → List Nat → Nat × Flags
  | 0, l => ((l.head?).getD 0, {})
  | n + 1, l =>
    let (l', f) := pairSums l
    let (x, g) := treeSum n l'
    (x, f.or g)

/-- Conversion of an element between types (R126, R249). -/
def convertTy (dst src v : Nat) (mode : Mode) (sat : Bool) : Nat × Flags := encodeTy dst mode sat (decodeTy src v)

/-- An absorbed element of a fingerprint (R192). -/
def Fp.absorb (p : Fp) (v : Val) : Fp :=
  match v with
  | .nan _ => { p with nans := p.nans + 1 }
  | v =>
    let mag := match v with | .fin _ m e => Val.fin false m e | .inf _ => .inf false | x => x
    let cur := fmtF64.decode p.maxmag.toNat
    { p with
      maxmag := if cur.lt mag then BitVec.ofNat 64 (fmtF64.round none false mag).1 else p.maxmag
      sum := BitVec.ofNat 64 (fmtF64.finish none false ((fmtF64.decode p.sum.toNat).add v)).1
      sumsq := BitVec.ofNat 64 (fmtF64.finish none false ((fmtF64.decode p.sumsq.toNat).add (v.mul v).1)).1 }

/-- The elements of a list of bytes under a type, in ascending order (R192, R221). -/
def elementsOf (ty : Nat) (l : List Byte) : List Nat :=
  match tyBits ty with
  | 4 => (l.map fun b => [b.toNat % 16, b.toNat / 16]).flatten
  | 8 => l.map (·.toNat)
  | 16 => (chunks 2 l (l.length / 2)).map ofBytes
  | _ => (chunks 4 l (l.length / 4)).map ofBytes

/-- Bytes absorbed as elements of a type (R192). -/
def Fp.absorbBytes (p : Fp) (ty : Nat) (l : List Byte) : Fp :=
  (elementsOf ty l).foldl (fun p e => p.absorb (decodeTy ty e)) p

end Sys2Proof.Machine
end

