-- ==== Sys2Proof/Machine/Nest.lean ====
section
/-! DEFINITION. A loop nest of the matrix array as its table gives it (R137, R281 to R283): layout and format words, the index
vector, the operands' places in their rings, and what a command waits for (R284 to R289). -/

namespace Sys2Proof.Machine

/-! ### Layout and format words (R171, R284, R285) -/

/-- Swizzle of a logical offset, for a pitch and a span in bytes (R171). -/
def swizzle (o pitch span : Nat) : Nat :=
  if pitch = 0 then o
  else
    let row := o / pitch
    let c := o % pitch / 16
    let q := span / 16
    row * pitch + (c / q * q + (c % q ^^^ row % q)) * 16 + o % 16

/-- The scratchpad address of the byte at offset `o` of a slot position of a ring (R169, R171). The position is a sum
HEAD + j or TAIL + j that is not reduced mod 2^32 (R11: integer arithmetic is exact unless a width is named). -/
def Ring.byteAt (r : Ring) (pos : Nat) (o pitch span : Nat) : Nat :=
  r.base + r.slot * (pos % r.n) + swizzle o pitch (16 * 2 ^ span)

def layOff (l : Word) : Nat := bits l 43 24
def layPitch (l : Word) : Nat := bits l 19 3
def laySpan (l : Word) : Nat := bits l 2 0

/-- A layout word is valid (R285). -/
def layValid (l : Word) : Bool :=
  bits l 63 44 = 0 && bits l 23 20 = 0 && layPitch l ≤ 65536 && layPitch l % (16 * 2 ^ laySpan l) = 0

/-- The element and scale codes that a format word may pair (Table 10-8, R284). -/
def pairOk (ty sc : Nat) : Bool :=
  ([8, 9, 10, 0, 4, 1, 5].contains ty && sc ≤ 2) || ((ty = 12 || ty = 13) && sc ≤ 1)

/-- Whether a format word is invalid (R284). -/
def formatInvalid (f : Word) : Bool :=
  bits f 63 26 ≠ 0 || bits f 13 12 = 3
    || !pairOk (bits f 3 0) (bits f 9 8) || !pairOk (bits f 7 4) (bits f 11 10)
    || (f.getLsbD 14 && !([0, 1, 4, 5].contains (bits f 3 0))) || (f.getLsbD 15 && !([0, 1, 4, 5].contains (bits f 7 4)))

/-! ### The nest table (Table 13-1) -/

/-- Doubleword j of a table. -/
def tdw (t : SMap Word) (j : Nat) : Word := t.get 0 j

/-- NLEV (R281). -/
def nlev (t : SMap Word) : Nat := bits (tdw t 0) 2 0 + 1

/-- TRIP of level l. -/
def nestTrip (t : SMap Word) (l : Nat) : Nat := bits (tdw t (8 + 3 * l)) 31 0

def nestRal (t : SMap Word) : Nat := bits (tdw t 0) 6 4
def nestCl (t : SMap Word) : Nat := bits (tdw t 0) 9 7
def nestKA (t : SMap Word) : Nat := bits (tdw t 0) 22 19
def nestKB (t : SMap Word) : Nat := bits (tdw t 0) 26 23
def nestPA (t : SMap Word) : Nat := bits (tdw t 0) 43 34
def nestPB (t : SMap Word) : Nat := bits (tdw t 0) 53 44
def nestPSA (t : SMap Word) : Nat := bits (tdw t 5) 9 0
def nestPSB (t : SMap Word) : Nat := bits (tdw t 5) 19 10

/-- NestTableValid (R282). -/
def Ctx.tableValid (c : Ctx) (t : SMap Word) : Bool :=
  let d := tdw t 0
  let n := nlev t
  bits d 63 54 = 0 && bits d 18 11 = 0 && bits d 3 3 = 0 && bits (tdw t 5) 63 20 = 0
    && [6, 7, 26, 27, 28, 29, 30, 31].all (fun j => tdw t j = 0)
    && n ≤ 6 && nestRal t < n && nestCl t < n
    && (List.range 6).all (fun l => if l < n then 1 ≤ nestTrip t l
        else tdw t (8 + 3 * l) = 0 && tdw t (9 + 3 * l) = 0 && tdw t (10 + 3 * l) = 0)
    && (c.ring (nestKA t)).init && (c.ring (nestKB t)).init
    && nestPA t ≤ (c.ring (nestKA t)).n && nestPB t ≤ (c.ring (nestKB t)).n
    && [1, 2, 3, 4].all fun j => layValid (tdw t j)

/-- The sum over the levels of i[l] times a signed or natural field of the level (R283). -/
def levelSum (t : SMap Word) (idx : List Nat) (f : Nat → Int) : Int :=
  ((List.range (nlev t)).map fun l => (idx.getD l 0 : Int) * f l).sum

/-- A signed 32-bit stride. -/
def stride (t : SMap Word) (j : Nat) (high : Bool) : Int :=
  ((tdw t j).extractLsb' (if high then 32 else 0) 32).toInt

/-- The index vector after one, level 0 fastest; none after the last (R283). -/
def nextIdx (t : SMap Word) : Nat → List Nat → Option (List Nat)
  | _, [] => none
  | l, i :: r => if i + 1 < nestTrip t l then some ((i + 1) :: r) else (nextIdx t (l + 1) r).map fun r => 0 :: r

/-- Whether every index up to a level is at its end, or at its start (R283). -/
def Cmd.ends (c : Cmd) (lvl : Nat) : Bool := (List.range (lvl + 1)).all fun l => c.idx.getD l 0 + 1 = nestTrip c.table l
def Cmd.first (c : Cmd) : Bool := (List.range (nestCl c.table + 1)).all fun l => c.idx.getD l 0 = 0
def Cmd.last (c : Cmd) : Bool := c.ends (nestCl c.table)

/-- The tile of a command (R283). -/
def Cmd.tile (c : Cmd) : Nat :=
  (((bits (tdw c.table 0) 33 27 : Nat) + levelSum c.table c.idx fun l =>
    ((tdw c.table (8 + 3 * l)).extractLsb' 32 16).toInt) % 128).toNat

/-- The K position of a command (R283). -/
def Cmd.kpos (c : Cmd) : Nat := (levelSum c.table c.idx fun l => (bits (tdw c.table (8 + 3 * l)) 63 48 : Nat)).toNat

/-! ### Operands (R286) -/

/-- One operand of a command: A, or B when `b` holds. -/
structure Side where
  b : Bool
  cmd : Cmd
  deriving DecidableEq, Repr

def Side.type (x : Side) : Nat := if x.b then bits x.cmd.fw 7 4 else bits x.cmd.fw 3 0
def Side.scale (x : Side) : Nat := if x.b then bits x.cmd.fw 11 10 else bits x.cmd.fw 9 8
def Side.zp (x : Side) : Bool := x.cmd.fw.getLsbD (if x.b then 15 else 14)
def Side.ring (x : Side) : Nat := if x.b then nestKB x.cmd.table else nestKA x.cmd.table
def Side.scaleRing (x : Side) : Nat := if x.b then bits x.cmd.fw 23 20 else bits x.cmd.fw 19 16
def Side.lay (x : Side) : Word := tdw x.cmd.table (if x.b then 2 else 1)
def Side.scaleLay (x : Side) : Word := tdw x.cmd.table (if x.b then 4 else 3)
def Side.scaled (x : Side) : Bool := x.scale ≠ 0 || x.zp

/-- The operand's starting offset (R283). -/
def Side.off (x : Side) : Int := layOff x.lay + levelSum x.cmd.table x.cmd.idx fun l => stride x.cmd.table (9 + 3 * l) x.b
def Side.scaleOff (x : Side) : Int :=
  layOff x.scaleLay + levelSum x.cmd.table x.cmd.idx fun l => stride x.cmd.table (10 + 3 * l) x.b

/-- Whether the outer index, that the pitch multiplies, is k: A transposed, or B not transposed (R286). -/
def Side.kOuter (x : Side) : Bool := if x.b then !x.cmd.fw.getLsbD 25 else x.cmd.fw.getLsbD 24

/-- The logical offset of the first byte of element (i, k), i the row of A or the column of B (R286). -/
def Side.elemOff (x : Side) (i k : Nat) : Int :=
  let (outer, inner) := if x.kOuter then (k, i) else (i, k)
  x.off + (outer * layPitch x.lay + inner * tyBits x.type / 8 : Nat)

/-- Whether a 4-bit element lies in the upper half of its byte (R221). -/
def Side.odd (x : Side) (i k : Nat) : Bool := (if x.kOuter then i else k) % 2 = 1

/-- The scale group of K element k (R286). -/
def Side.group (x : Side) (k : Nat) : Nat := (x.cmd.kpos + k) / (32 * 2 ^ bits x.cmd.fw 13 12)

/-- The size of a scale entry (R286). -/
def Side.entry (x : Side) : Nat := if x.zp then 4 else x.scale

/-- The logical offset of the scale entry of (i, k). -/
def Side.scaleAt (x : Side) (i k : Nat) : Int := x.scaleOff + (i * layPitch x.scaleLay + x.group k * x.entry : Nat)

/-- The offsets of the first and last bytes that the operand reads from its ring: they rise with both indices. -/
def Side.span (x : Side) : Int × Int :=
  (x.elemOff 0 0, x.elemOff 63 31 + ((max 1 (tyBits x.type / 8) - 1 : Nat) : Int))

/-- The same for its scale ring. -/
def Side.scaleSpan (x : Side) : Int × Int := (x.scaleAt 0 0, x.scaleAt 63 31 + ((x.entry - 1 : Nat) : Int))

/-- The rings that a side reads, with its layout words and the offsets of the first and last bytes. -/
def Side.reads (x : Side) : List (Nat × Word × Int × Int) :=
  (x.ring, x.lay, x.span.1, x.span.2) :: (if x.scaled then [(x.scaleRing, x.scaleLay, x.scaleSpan.1, x.scaleSpan.2)] else [])

/-- All that a command reads. -/
def Cmd.reads (c : Cmd) : List (Nat × Word × Int × Int) := Side.reads ⟨false, c⟩ ++ Side.reads ⟨true, c⟩

/-- Matrix cause 3: a ring not initialised, or an offset outside its slots (R286, R290). -/
def Ctx.badReads (x : Ctx) (c : Cmd) : Bool :=
  c.reads.any fun r =>
    let g := x.ring r.1
    !g.init || r.2.2.1 < 0 || decide (((g.slot * g.n : Nat) : Int) ≤ r.2.2.2)

/-- Every slot that a command reads is filled (R287). -/
def Ctx.readsFilled (x : Ctx) (c : Cmd) : Bool :=
  c.reads.all fun r => r.2.2.2.toNat / (x.ring r.1).slot < (x.ring r.1).filled

/-- Tile t. -/
def Ctx.tile (c : Ctx) (t : Nat) : Tile := c.ar.tiles.get {} t

/-- The waits of a command: every slot filled, and its tile ARRAY when it begins a run (R287, R289). -/
def Ctx.cmdReady (x : Ctx) (c : Cmd) : Bool := x.readsFilled c && (!c.first || (x.tile c.tile).st = .array)

/-- Slots popped from each ring by a command's advance (R288). -/
def Cmd.pops (c : Cmd) : List (Nat × Nat) :=
  [(nestKA c.table, nestPA c.table), (nestKB c.table, nestPB c.table)]
    ++ (if Side.scaled ⟨false, c⟩ then [(Side.scaleRing ⟨false, c⟩, nestPSA c.table)] else [])
    ++ (if Side.scaled ⟨true, c⟩ then [(Side.scaleRing ⟨true, c⟩, nestPSB c.table)] else [])

/-- Whether every ring that an advance pops holds as many filled slots (R288). -/
def Ctx.advReady (x : Ctx) (c : Cmd) : Bool := c.pops.all fun p => total c.pops p.1 ≤ (x.ring p.1).filled

/-- Whether the array has a command that can retire, or an advance that can be made, now. -/
def Ctx.arrayBusy (x : Ctx) : Bool :=
  match x.ar.adv, x.ar.cmds with
  | some c, _ => x.advReady c
  | none, c :: _ => x.cmdReady c
  | none, [] => false

end Sys2Proof.Machine
end

