-- ==== Sys2Proof/Machine/Leave.lean ====
section
/-! DEFINITION. How work leaves a core: the save slot (Table 19-8), descheduling (R364), suspension and parking (R334),
pre-emption (R363), and the end of a work's stay (R40). -/

namespace Sys2Proof.Machine

/-- The first free save slot of a partition (R362). -/
def Part.freeSlot (p : Part) : Option Nat := (List.range (bits p.savecfg 15 0)).find? fun i => !p.slots.contains i

/-- How many save slots of a partition are free. -/
def Part.freeSlots (p : Part) : Nat := bits p.savecfg 15 0 - (p.slots.filter fun i => decide (i < bits p.savecfg 15 0)).length

/-- Whether the work of a core leaves it of its own accord, and so has a claim on the next free slot ahead of any request of the
host (R364). -/
def Core.claims (c : Core) : Bool := c.leaving.isSome && !(c.preempt && c.leaving = some .saved) && !c.ending

/-- Claims on the slots of a partition that began before number n. -/
def State.claimsBefore (s : State) (p n : Nat) : Nat :=
  (s.cores.filter fun e => e.2.claims && decide (e.2.leaveNo < n) && e.2.work.any fun w => w.part = p).length

/-- The save slot that a work of partition p takes whose claim has number n: earlier claims come first (R364). -/
def State.slotFor (s : State) (p n : Nat) : Option Nat :=
  if s.claimsBefore p n < (s.part p).freeSlots then (s.part p).freeSlot else none

/-- The tier address of a save slot (R362). -/
def Part.slotAddr (p : Part) (i : Nat) : Nat := bits p.savecfg 46 21 * 2 ^ 21 + i * 2 ^ 22

/-- The bytes of an engine's spill window. -/
def Engine.spillBytes (g : Engine) (n : Nat) : List Byte := (upTo n fun i => toBytes (g.spill.get 0 i).toNat 8).flatten

/-- The data of the slots of a queue, from its head: those that are not there are zero. -/
def Ctx.queueBytes (c : Ctx) (q : Nat) : List Byte := (upTo 32 fun i => toBytes (((c.queue q).getD i default).data).toNat 512).flatten

/-- The parts of a save slot whose place and layout Table 19-8 gives: spill memory, vector registers, queue slots, scratchpad,
live tiles, and the count of store-buffer entries. DESIGN CHOICE (log 31): a queue's head is its slot 0 there. -/
def Ctx.savedPieces (c : Ctx) (sb : List Store) : List (Nat × List Byte) :=
  [(0x00FC0, toBytes sb.length 8),
   (0x04000, c.c.spillBytes 1024 ++ c.a.spillBytes 1024 ++ c.x.spillBytes 5120 ++ c.f.spillBytes 1024),
   (0x14000, (upTo 32 fun i => toBytes (c.xu.v.get 0 i).toNat 512).flatten),
   (0x18000, (upTo 10 c.queueBytes).flatten),
   (0x40000, upTo 786432 fun i => c.spad.get 0 i)]
  ++ (c.ar.tiles.filter fun t => t.2.live).map fun t => (0x100000 + 0x4000 * t.1, (upTo 4096 fun i => toBytes (t.2.z.get 0 i).toNat 4).flatten)

/-- The parts of a save slot whose layout the spec does not give: they are written with free values (log 3). -/
def savedFree (sb : List Store) : List (Nat × Nat) :=
  [(0, 0xFC0), (0xFC8, 0x38), (0x1000, 0x3000), (0x300000, 64 * sb.length)]

/-- A save slot written to the D-stack (R363, Table 19-8). -/
def State.writeSlot (s : State) (addr : Nat) (c : Ctx) (sb : List Store) : State :=
  let s := (savedFree sb).foldl (fun s x =>
    let (l, s) := s.freeBytes x.2
    s.writeM (keyOf 1 0 (addr + x.1)) l) s
  (c.savedPieces sb).foldl (fun s x => s.writeM (keyOf 1 0 (addr + x.1)) x.2) s

/-- Words of n bytes each that lie in M from a key on. -/
def State.wordsM (s : State) (w key n : Nat) : Nat → BitVec w := fun i => BitVec.ofNat w (s.readM (key + n * i) n)

/-- An engine's spill window read back. -/
def Engine.respill (g : Engine) (s : State) (key n : Nat) : Engine := { g with spill := SMap.setList [] 0 0 (upTo n (s.wordsM 64 key 8)) }

/-- The state of saved work with what its save slot holds at its resumption, in the parts whose layout Table 19-8 gives (R365). A
tile that is not live reads +0. -/
def Ctx.reloaded (c : Ctx) (s : State) (addr : Nat) : Ctx :=
  let k := fun (o : Nat) => keyOf 1 0 (addr + o)
  { c with
    c := c.c.respill s (k 0x04000) 1024, a := c.a.respill s (k 0x06000) 1024
    x := c.x.respill s (k 0x08000) 5120, f := c.f.respill s (k 0x12000) 1024
    xu := { c.xu with v := SMap.setList [] 0 0 (upTo 32 (s.wordsM 4096 (k 0x14000) 512)) }
    queues := c.queues.map fun e => (e.1, e.2.zipIdx.map fun x => { x.1 with data := s.wordsM 4096 (k (0x18000 + 0x4000 * e.1)) 512 x.2 })
    spad := (s.mem.filter fun e => k 0x40000 ≤ e.1 && e.1 < k 0x40000 + 786432).map fun e => (e.1 - k 0x40000, e.2)
    ar := { c.ar with tiles := c.ar.tiles.map fun e =>
      (e.1, if e.2.live then { e.2 with z := SMap.setList [] 0 0 (upTo 4096 (s.wordsM 32 (k (0x100000 + 0x4000 * e.1)) 4)) } else { e.2 with z := [] }) } }

/-- Whether an instruction that must run to retirement has issued (R363). -/
def Core.hard (c : Core) : Bool := engines.any fun e => (c.ctx.eng e).prog.any fun p => !p.soft

/-- Whether the work of a core can leave it: no such instruction, an empty outbound queue, no self-test and no replay under way, and
the array has finished what it can of the command that has issued (R314, R363, R367). DEDUCED (log 32): a command whose waits
are not met is saved as it is. -/
def Core.canLeave (c : Core) : Bool :=
  !c.hard && c.ob.isEmpty && c.test.isNone && !c.ctx.arrayBusy
    && (c.ctx.live.isEmpty || !c.work.any fun w => w.replay.isSome)

/-- A core that holds no work (R40): instruction memory, caches and fences stay, and so do scratchpad and rings (R372);
the rest is set anew at a grant. -/
def Core.emptied (c : Core) : Core :=
  { c with ctx := { spad := c.ctx.spad, rings := c.ctx.rings }, work := none, leaving := none, preempt := false, ending := false }

/-- A host's request for the work of core k is over: BUSY clears (R363). -/
def State.endRequest (s : State) (k : Nat) : State :=
  match (s.core k).work with
  | some w =>
    if (s.core k).preempt then
      (s.modPart w.part fun p => { p with preempt := putBits p.preempt 17 16 0 }).modCore k fun c => { c with preempt := false }
    else s
  | none => s

/-- Whether an access that waits is that of a store which a segment, parked by core k, publishes as it retires (R161, R332). -/
def State.parkedWait (s : State) (k : Nat) (x : Stalled) : Bool :=
  s.off.any fun g => g.core = some k && g.st = .parked && g.work.sb.any fun t =>
    t.mark && x.client = engClient k t.eng && t.va = x.va && t.part = x.part && t.asid = x.asid

/-- No access of the engines of core k waits any more; those of segments that it has parked go on. -/
def State.dropCoreWaits (s : State) (k : Nat) : State :=
  { s with stalled := s.stalled.filter fun x => (x.client ≠ .coreC k && x.client ≠ .coreA k) || s.parkedWait k x }

/-- Core k is emptied, a host's request for its work is over, and no access of its engines waits any more. -/
def State.vacate (s : State) (k : Nat) : State := ((s.endRequest k).dropCoreWaits k).modCore k Core.emptied

/-- The next creation number (R57). -/
def State.nextCreation (s : State) : Nat × State := (s.creation, { s with creation := s.creation + 1 })

/-- An instruction that has issued is as if it had not: its tokens, reservations, allocated slots and words go back (R86, R93,
R95, R97, R363). -/
def Ctx.unissue (c : Ctx) (e : Eng) : Ctx :=
  match (c.eng e).prog with
  | some p =>
    let c := { c with
      fifo := p.pops.foldl (fun (m : SMap Nat) (x : Nat × Nat) => m.set 0 x.1 (m.get 0 x.1 + x.2)) c.fifo
      resv := p.pushes.foldl (fun (m : SMap Nat) (x : Nat × Nat) => m.set 0 x.1 (m.get 0 x.1 - x.2)) c.resv }
    (c.deallocate p.slots).modEng e fun g => { g with prog := none, wc := g.wc - BitVec.ofNat 32 p.words }
  | none => c

/-- An instruction that is saved before its issue (R363). -/
def Ctx.takeBack (c : Ctx) (e : Eng) : Ctx := if (c.eng e).prog.any (·.undo) then c.unissue e else c

/-- The state of a core's work as it is saved (R363). -/
def Ctx.saved (c : Ctx) : Ctx := engines.foldl (fun c e => c.takeBack e) c

/-- The work of core k leaves it into save slot i (R363 to R365): pre-empted and yielded work takes a new creation
number and is offered again. -/
def State.leaveInto (s : State) (k i : Nat) (st : OffState) : State :=
  let c := s.core k
  match c.work with
  | none => s
  | some w =>
    let (n, s) := if st = .saved then s.nextCreation else ((w.created, s) : Nat × State)
    let x := c.ctx.saved
    let s := s.writeSlot ((s.part w.part).slotAddr i) x w.sb
    let s := s.modPart w.part fun p => { p with slots := i :: p.slots }
    let g : Seg := { work := { w with created := n, arrived := none }, ctx := some x, st, slot := some i, core := some k, since := s.now }
    ({ s with off := s.off ++ [g] } : State).vacate k

/-- Work of core k begins to leave it: at once when it can and a slot is free for it, otherwise it waits on the core with its
engines stopped; without a free slot NOSLOT is set (R364). -/
def State.startLeave (s : State) (k : Nat) (st : OffState) : State :=
  let c := s.core k
  match c.work with
  | none => s
  | some w =>
    let wait := fun (s : State) => ({ s.modCore k (fun c => { c with leaving := some st, leaveNo := s.leaveNo }) with leaveNo := s.leaveNo + 1 } : State)
    match s.slotFor w.part s.leaveNo with
    | some i => if c.canLeave then s.leaveInto k i st else wait s
    | none => wait (s.modPart w.part fun p => { p with savecfg := putBits p.savecfg 16 16 1 })

/-- Handles armed by a piece of work are disarmed without a flip when it ends (R182). -/
def State.disarm (s : State) (w : Work) : State :=
  s.modPart w.part fun p => { p with handles := p.handles.map fun e =>
    (e.1, if e.2.owner = w.id ∧ e.2.armed then { e.2 with armed := false } else e.2) }

/-- A fault or a trap of a piece of work. -/
def FaultRec.of (f : FaultRec) (id : Nat) : Bool := match f.src with | .engine i _ | .store i => i = id | _ => false
def TrapRec.of (t : TrapRec) (id : Nat) : Bool := match t.src with | .engine i _ | .array i | .work i => i = id | _ => false

/-- The faults and traps of some kind of a piece of work can be acknowledged no more: those whose records are not written
yet are still written (R157, R349). -/
def State.void (s : State) (w : Work) (fs : FaultRec → Bool) (ts : TrapRec → Bool) : State :=
  s.modPart w.part fun p => { p with
    faults := p.faults.filterMap fun f =>
      if f.of w.id && fs f then (if f.seq.isSome then none else some { f with src := .other }) else some f
    traps := p.traps.filterMap fun t =>
      if t.of w.id && ts t then (if t.seq.isSome then none else some { t with src := .gone }) else some t }

/-- A piece of work that is gone leaves no trap, fault or wait that could be acted on (R360). -/
def State.forget (s : State) (w : Work) : State :=
  { s.void w (fun _ => true) (fun _ => true) with
    sems := s.sems.map fun e => (e.1, { e.2 with
      waiters := e.2.waiters.filter fun x => match x with | .core i _ => i ≠ w.id | _ => true
      taken := e.2.taken.filter fun x => match x.1 with | .core i _ => i ≠ w.id | _ => true }) }

/-- The tags of condition variables tied to a pruned segment: the variables are freed (R325, R332). -/
def State.freeTied (s : State) (id : Nat) : State := { s with cvs := s.cvs.filter fun e => e.2.tie ≠ some id }

/-- The contexts that a gather in progress pins (R216); `keep` marks a gather. -/
def Ctx.pins (c : Ctx) : List Nat :=
  match c.a.prog with
  | some p => if p.keep then (p.data.drop 4).take (p.data.getD 3 0) else []
  | none => []

/-- PIN of a context's record changed by a gather of work w (Table 8-1). A record that cannot be translated keeps its count. -/
def State.addPin (cl : Client) (w : Work) (d : Nat) (s : State) (va : Nat) : State :=
  match s.translate cl w.part w.asid (s.redirect w.part w.id none (va + 84)) accWrite with
  | (.ok key, s) => s.writeN key 4 (s.readM key 4 + d)
  | (_, s) => s

/-- A gather that is in flight no more gives its pins back. -/
def State.unpin (cl : Client) (w : Work) (s : State) (va : Nat) : State := State.addPin cl w (2 ^ 32 - 1) s va

/-- The work of core k is ended: its buffered stores, queues, FIFOs, tiles and nest are discarded, with `rings` its rings too, and the
core becomes free once its outbound queue is empty (R332, R351, R372). -/
def State.endWork (s : State) (k : Nat) (rings : Bool) : State :=
  match (s.core k).work with
  | none => s
  | some w =>
    let s := (s.forget w).endRequest k
    let s := (s.core k).ctx.pins.foldl (State.unpin (.coreA k) w) s
    let s := s.modCore k fun c => { c with ctx := { spad := c.ctx.spad, rings := if rings then [] else c.ctx.rings } }
    if (s.core k).ob.isEmpty then s.vacate k
    else s.modCore k fun c => { c with work := some { w with sb := [], chain := [] }, ending := true, leaving := none }

end Sys2Proof.Machine
end

