-- ==== Sys2Proof/Machine/Issue.lean ====
section
/-! DEFINITION. Issue and retirement: the order of checks and waits of R92, the slip bound (R74), the token FIFOs and
the queues as an instruction takes them (R90 to R98), retirement (R93), replay from the effect log (R357, R358), and
how work leaves its core (R334, R363, R364). -/

namespace Sys2Proof.Machine

/-- What an instruction needs before it can issue, beside its dependence bits: tokens by FIFO, filled entries at queue
heads (looked at as data, or only tested), free slots, and any other wait. -/
structure Needs where
  pops : List (Nat × Nat) := []
  pushes : List (Nat × Nat) := []
  /-- Queue code and entries read as data from its head: none of them may be terminal (R97). -/
  reads : List (Nat × Nat) := []
  /-- Queue code and entries that must be filled, terminal or not (R105, R115). -/
  tests : List (Nat × Nat) := []
  /-- Queue code and free slots (R95). -/
  frees : List (Nat × Nat) := []
  /-- The first of these conditions that holds is waited for. -/
  waits : List (Bool × Wait) := []
  /-- It may act while an NGO before it still waits (R141). -/
  overlaps : Bool := false
  deriving Repr, Inhabited

/-- What an instruction leaves for its engine. -/
inductive Next where
  /-- On to the next word (R71). -/
  | seq
  /-- A taken branch to a word: loops are popped and checked (R107). -/
  | branch (t : Nat)
  /-- CALL, RET, ERET: loops are neither popped nor checked (R107). -/
  | jump (t : Nat)
  /-- The loops seen are replaced and the engine arrives at a word, where ApplyLoopEnd acts (R106, R108). -/
  | loops (l : List Loop) (t : Nat)
  /-- The engine's walk ends (R100). -/
  | done
  /-- On to the next word, and the work gives up its core (R335). -/
  | yield
  /-- On to the next word, and not yet retired: its tokens are pushed later (R141). -/
  | later
  /-- Not retired: its progress. -/
  | more (p : Prog)
  /-- The work has left the core, or the engine's state is already as it must be: nothing more happens here. -/
  | gone
  deriving Repr, DecidableEq, Inhabited

/-! ### Tokens -/

/-- All tokens that an instruction pops: its dependence bits and its explicit ones together (R92). -/
def Needs.allPops (n : Needs) (e : Eng) (p : BitVec 4) : List (Nat × Nat) := (depPops e p).map (·, 1) ++ n.pops

/-- All tokens that an instruction pushes. -/
def Needs.allPushes (n : Needs) (e : Eng) (p : BitVec 4) : List (Nat × Nat) := (depPushes e p).map (·, 1) ++ n.pushes

/-- Tokens that instructions in progress have taken and would give back if they were taken back or trapped (R93, R363). DEDUCED
(log 101): they keep their place in the FIFO, so that no count can pass 63 (R94). -/
def Ctx.lent (c : Ctx) (f : Nat) : Nat :=
  let l := (engines.map fun e => match (c.eng e).prog with | some p => if p.fill then [] else p.pops | none => []).flatten
  total (l ++ (match c.ar.start with | some w => w.pops | none => [])) f

/-- Whether the tokens are there and there is room for those to come (R92). -/
def Ctx.tokensReady (c : Ctx) (pops pushes : List (Nat × Nat)) : Bool :=
  pops.all (fun x => total pops x.1 ≤ c.fifo.get 0 x.1)
    && pushes.all (fun x => c.fifo.get 0 x.1 + c.resv.get 0 x.1 + c.lent x.1 + total pushes x.1 ≤ 63)

/-- Tokens popped (R92). -/
def Ctx.popTokens (c : Ctx) (l : List (Nat × Nat)) : Ctx :=
  { c with fifo := l.foldl (fun m x => m.set 0 x.1 (m.get 0 x.1 - x.2)) c.fifo }

/-- Places reserved for tokens (R92). -/
def Ctx.reserve (c : Ctx) (l : List (Nat × Nat)) : Ctx :=
  { c with resv := l.foldl (fun m x => m.set 0 x.1 (m.get 0 x.1 + x.2)) c.resv }

/-- Reservations released (R93). -/
def Ctx.unreserve (c : Ctx) (l : List (Nat × Nat)) : Ctx :=
  { c with resv := l.foldl (fun m x => m.set 0 x.1 (m.get 0 x.1 - x.2)) c.resv }

/-- Tokens pushed at retirement (R93). -/
def Ctx.pushTokens (c : Ctx) (l : List (Nat × Nat)) : Ctx :=
  { c with fifo := l.foldl (fun m x => m.set 0 x.1 (m.get 0 x.1 + x.2)) c.fifo }

/-- Entries removed from the head of a queue (R95). -/
def State.popQueue (s : State) (q n : Nat) : State := s.modCtx fun c => c.setQueue q ((c.queue q).drop n)

/-! ### The slip bound -/

/-- How far an engine is ahead of the trailing live engine (R73, R74). -/
def Ctx.lead (c : Ctx) (e : Eng) : Int :=
  c.live.foldl (fun m x => max m (diff32 (c.eng e).wc (c.eng x).wc)) 0

/-- Whether an engine may pass n words under the bound (R74, R75). -/
def Ctx.slipOk (c : Ctx) (e : Eng) (n : Nat) : Bool :=
  c.csr.win = 0 || !c.csr.lifted.isEmpty || decide (c.lead e + n ≤ c.csr.win)

/-! ### The state of a core as an engine finds it -/

/-- Whether an engine may act now: it has work that is not ended or under test, it has not executed DONE, it is not
held, and, when the work is leaving the core, it is inside an instruction that runs to retirement, or a replay is still under way
(R348, R363, R367). -/
def Core.runnable (c : Core) (e : Eng) : Bool :=
  c.work.isSome && !(c.ctx.eng e).done && (c.ctx.eng e).hold.isNone && !c.ctx.held && !c.ending && c.test.isNone
    && (c.leaving.isNone || c.work.any (fun w => w.replay.isSome) || (c.ctx.eng e).prog.any fun p => !p.soft)

/-- The target that a transfer's words fix, checked with the encoding at every issue (R86, R102). -/
def fixedTarget (pc : Nat) : Instr → Option Int
  | .b _ _ o | .call _ _ o => some (pc + o.toInt)
  | .btk _ _ _ i => some (pc + i.toInt)
  | .beq _ _ _ _ i | .bne _ _ _ _ i | .blt _ _ _ _ i | .bge _ _ _ _ i | .blo _ _ _ _ i | .bhs _ _ _ _ i => some (pc + i.toInt)
  | .bmz _ i => some (pc + i.toInt)
  | .mloop _ _ _ e => some (pc + e.toNat)
  | _ => none

/-- Whether a target is a first word of the text (R86). -/
def Core.goodTarget (c : Core) (t : Int) : Bool := 0 ≤ t && c.firstWord t.toNat

/-- CheckEncoding as far as the decoded instruction, at a word, decides it: field limits (R86), and the target of a transfer
fixed by its words. -/
def encodingCauseAt (i : Instr) (c : Core) (pc : Nat) : Option Nat :=
  match illegalCause i with
  | some n => some n
  | none => match fixedTarget pc i with
    | some t => if c.goodTarget t then none else some 5
    | none => none

/-- CheckEncoding of an instruction at an engine's program counter. -/
def encodingCause (i : Instr) (c : Core) (e : Eng) : Option Nat := encodingCauseAt i c (c.ctx.eng e).pc

/-- The waits of an instruction, met together (R92): C retires in order, so that an NGO that waits holds back what does not act beside
it (R93, R141); tokens, queue entries and slots, and its own conditions. -/
def gateWaits (c : Ctx) (e : Eng) (p : BitVec 4) (n : Needs) : Option Wait :=
  let token := !c.tokensReady (n.allPops e p) (n.allPushes e p)
  let own := (n.waits.find? (·.1)).map (·.2)
  let queue := !((n.reads ++ n.tests).all (fun x => x.2 ≤ (c.filledRun x.1).length) && n.frees.all fun x => x.2 ≤ c.freeSlots x.1)
  if e = .C && c.ar.start.isSome && !n.overlaps then some .array
  else if token then some (if queue || own = some .queue || own = some .ring then .tokenQueue else .token)
  else if queue then some .queue
  else own

/-- Whether an instruction would pop or peek a terminal entry as data (R97). -/
def terminalUse (c : Ctx) (n : Needs) : Bool := n.reads.any fun x => ((c.filledRun x.1).take x.2).any (·.term)

/-- An engine passes `len` words (R71): its walk count moves on, and a slip bound lifted for it applies to it again (R75). -/
def Ctx.pass (c : Ctx) (e : Eng) (len now : Nat) : Ctx :=
  let c := c.modEng e fun g => { g with wc := g.wc + BitVec.ofNat 32 len, passed := now }
  { c with csr := { c.csr with lifted := c.csr.lifted.filter fun x => x ≠ e } }

/-- Taking the tokens at issue (R92), and the count of issued instructions (R373). -/
def State.take (s : State) (e : Eng) (p : BitVec 4) (n : Needs) : State :=
  (s.modCtx fun c => (c.popTokens (n.allPops e p)).reserve (n.allPushes e p)).countOn s.cur 2 (some e) 1

/-- Issue of an instruction of `len` words: the engine passes it and takes its tokens (R71, R92). -/
def State.issued (s : State) (e : Eng) (p : BitVec 4) (n : Needs) (len : Nat) : State :=
  (s.modCtx fun c => c.pass e len s.now).take e p n

/-- The program counter after an instruction (R71, R103, R106, R107). -/
def Ctx.moveTo (c : Ctx) (e : Eng) (len : Nat) : Next → Ctx
  | .seq | .yield | .later => c.arrive e (c.seenLoops e) ((c.eng e).pc + len)
  | .branch t => c.arrive e (popOutside (c.seenLoops e) t) t
  | .jump t => c.modEng e fun g => { g with pc := t }
  | .loops l t => c.arrive e l t
  | .done => c.modEng e fun g => { g with done := true, loops := [], ras := [] }
  | .more _ | .gone => c

/-- Retirement (R93): tokens pushed and reservations released, the program counter moved on. -/
def Ctx.retire (c : Ctx) (e : Eng) (pushes : List (Nat × Nat)) (len : Nat) (nx : Next) : Ctx :=
  ((((c.unreserve pushes).pushTokens pushes).moveTo e len nx).modEng e fun g => { g with prog := none })

/-- Retirement in the executing core. -/
def State.retire (s : State) (e : Eng) (p : BitVec 4) (n : Needs) (len : Nat) (nx : Next) : State :=
  s.modCtx fun c => c.retire e (n.allPushes e p) len nx

/-- The length in words of an instruction (R70). -/
def instrWords (i : Instr) : Nat := (encode i).length

/-! ### What becomes of a turn -/

/-- Something has changed: no engine is known to wait any more (the model's own notes). -/
def State.stir (s : State) : State := { s with quiet := [], arrayQuiet := [] }

/-- An engine of the executing core waits, with nothing changed. -/
def State.waitNote (s : State) (e : Eng) (w : Wait) : State :=
  { s with quiet := (s.quiet.filter fun q => !(q.1 = s.cur && q.2.1 = e)) ++ [(s.cur, e, w)] }

/-- An instruction that had issued and traps is given up: it takes no token and releases its reservations (R93, R97). A
KVGATH that has begun stays in progress (R216). -/
def State.giveUp (s : State) (e : Eng) : State :=
  if (s.ctx.eng e).prog.any (·.keep) then s else s.modCtx fun c => c.unissue e

/-- What an engine's stop leaves: a trap is taken, a fault halts the engine, a wait is noted, a speculative segment at an irrevocable
act is suspended (R92, R119, R151, R334); a contained fault in an interval that cannot be replayed is cause 11 (R359). DESIGN CHOICE
(log 18): a trap taken locally, TRAP among them, leaves the walk count as before the instruction. -/
def State.stopped (s : State) (e : Eng) : Stop → State
  | .trap c n v => ((s.giveUp e).takeTrap s.cur e c n v).stir
  | .poison key v =>
    ((s.giveUp e).takeTrapWith s.cur e 13 (if s.ctx.csr.nrp then 11 else 9) v fun t => { t with unit := unitOfKey s.cur key }).stir
  | .terminal l => ((s.giveUp e).takeTrapWith s.cur e 10 1 0 fun t => { t with reads := l }).stir
  | .xlate c l acc va ext =>
    let s := { s with stalled := s.stalled.filter fun x => !(x.client = engClient s.cur e && (x.expired || x.level = noWalker) && !s.parkedWait s.cur x) }
    let s := if s.missed (engClient s.cur e) s.work.part s.work.asid va acc then s.countOn s.cur 0x0B (some e) 1 else s
    (s.engineFault s.cur e c l acc va ext).stir
  | .migrate l acc va => (s.addStalled (engClient s.cur e) s.work.part s.work.asid va acc l).waitNote e .memory
  | .wait w => (if w = .buffer then s.modCtx fun c => c.modEng e fun g => { g with stuck := true } else s).waitNote e w
  | .suspend => (s.startLeave s.cur .suspended).stir
  | .detected n => (s.detect s.cur n e).stir

/-- The illegal-instruction trap of an engine of the executing core: TVAL is the first word (Table 5-6). -/
def State.illegal (s : State) (e : Eng) (cause : Nat) : State :=
  s.stopped e (.trap 1 cause (s.cc.wordAt (s.ctx.eng e).pc s.work.len))

/-- Whether a core's array is idle: no nest running or started, every command retired (R138). -/
def MArray.idle (a : MArray) : Bool := a.nest.isNone && a.cmds.isEmpty && a.adv.isNone

/-- After a DONE of engine e: the last one checks the token counts (R354) and runs the residue check, which holds the work at
that DONE; a speculative segment that passes both parks (R98, R100, R334). -/
def State.afterDone (s : State) (e : Eng) : State :=
  let c := s.cc
  if !c.ctx.live.isEmpty then s
  else if c.badTokens then s.detect s.cur 4
  else if c.ctx.residue then s.takeTrap s.cur e 10 3 0
  else if s.work.spec && c.ctx.ar.idle then s.startLeave s.cur .parked
  else s

/-- The progress of an instruction with what it took at its issue. -/
def Prog.taken (pr : Prog) (e : Eng) (p : BitVec 4) (n : Needs) (len : Nat) : Prog :=
  { pr with pops := n.allPops e p, pushes := n.allPushes e p, words := len }

/-- What an instruction's body leaves: a stop of an instruction leaves the state that the turn began with, but for its fills (R150). -/
def State.concluded (s : State) (e : Eng) (p : BitVec 4) (n : Needs) (len : Nat) (r : Except Stopped (Next × State)) : State :=
  match r with
  | .error (x, f) => (s.keepFills f).stopped e x
  | .ok (.gone, t) => t.stir
  | .ok (.more pr, t) => (t.modCtx fun c => c.modEng e fun g => { g with prog := some (pr.taken e p n len) }).stir
  | .ok (.yield, t) => ((t.retire e p n len .seq).startLeave s.cur .saved).stir
  | .ok (.later, t) => (t.modCtx fun c => c.moveTo e len .later).stir
  | .ok (.done, t) => ((t.retire e p n len .done).afterDone e).stir
  | .ok (nx, t) => (t.retire e p n len nx).stir

/-- The residue codes of a datapath are checked at retirement, before any result leaves the engine (R354). -/
def State.settle (s : State) (e : Eng) (p : BitVec 4) (n : Needs) (len : Nat) (r : Except Stopped (Next × State)) : State :=
  match r with
  | .ok (.more _, _) | .error _ => s.concluded e p n len r
  | _ => if s.cc.badPath = some e then s.stopped e (.detected 2) else s.concluded e p n len r

/-- Issue of an instruction whose queue slots are filled in a later turn (R95): its checks have been made, its sources are read and
taken, and its results, formed with what stands at its issue (R174, R240, R243, R302), wait in slots that are only allocated. -/
def State.issuedOnly (s : State) (e : Eng) (p : BitVec 4) (n : Needs) (len : Nat) (r : Except Stopped (Next × State)) : State :=
  match r with
  | .ok (.seq, t) => (t.modCtx fun c => (c.empty n.frees).modEng e fun g =>
      { g with prog := some { Prog.taken {} e p n len with slots := n.frees, fill := true } }).stir
  | r => s.settle e p n len r

/-- Issue of instruction i on engine e of the executing core (R71, R86, R92): CheckEncoding; the checks of state that
come before any wait; the waits, all met together; the slip bound, noted only when it alone stops the engine (R75); the use of
terminal entries; then the tokens are taken and the body acts. A turn without budget leaves the queue slots of an instruction that
has some to be filled. An instruction that has issued goes on from its progress. -/
def issueOn (i : Instr) (e : Eng) (p : BitVec 4) (n : State → Needs) (pre : Act Unit) (body : Prog → Act Next) (s : State) : State :=
  if !s.cc.runnable e then s
  else match (s.ctx.eng e).prog with
  | some pr =>
    if pr.fill then s.settle e p (n s) (instrWords i) (.ok (.seq, s.modCtx fun c => c.fillSlots pr.slots))
    else s.settle e p (n s) (instrWords i) (body pr s)
  | none =>
    match encodingCause i s.cc e with
    | some c => s.illegal e c
    | none => match pre s with
      | .error (x, f) => (s.keepFills f).stopped e x
      | .ok _ =>
        match gateWaits s.ctx e p (n s) with
        | some w => s.waitNote e w
        | none =>
          if !s.ctx.slipOk e (instrWords i) then s.waitNote e .slip
          else if terminalUse s.ctx (n s) then s.stopped e (.terminal (n s).reads)
          else
            let r := body {} (s.issued e p (n s) (instrWords i))
            if s.budget = some 0 && !(n s).frees.isEmpty then s.issuedOnly e p (n s) (instrWords i) r
            else s.settle e p (n s) (instrWords i) r

/-- A meaning's outcome: an engine instruction always leaves a next state. -/
abbrev Out := Host.Outcome State Fault Refusal

/-- Issue as an outcome. -/
def issue (i : Instr) (e : Eng) (p : BitVec 4) (n : State → Needs) (pre : Act Unit) (body : Prog → Act Next) (s : State) : Out :=
  .next (issueOn i e p n pre body s)

/-- Issue of an instruction that needs nothing but its dependence bits, checks nothing before its waits, and retires as
it issues. -/
def issueSimple (i : Instr) (e : Eng) (p : BitVec 4) (body : Act Next) (s : State) : Out :=
  issue i e p (fun _ => {}) (pure ()) (fun _ => body) s

/-! ### Releases, irrevocable acts and the effect log -/

/-- A speculative segment goes no further at an irrevocable act (R333, R334). -/
def irrevocable : Act Unit := do
  let s ← get
  if s.work.spec then stop .suspend else pure ()

/-- An effect-log entry is appended; past the 256th, NRP is set instead (R357, R359). -/
def logEffect (e : Eng) (kind : ActKind) (result : BitVec 256) (pub : Nat) : Act Unit := modify fun s =>
  let pc := (s.ctx.eng e).pc
  if s.work.log.length < 256 then
    (s.modWork fun w => { w with log := w.log ++ [{ kind, pc, result, pub }] }).countOn s.cur 0x0C none 1
  else s.modCtx fun c => { c with csr := { c.csr with nrp := true } }

/-- An act of Table 19-7: live, or, while the work replays, satisfied from the log, the entries that it published being
dropped from the store buffer (R358). A log entry of another act or place is machine check 10. -/
def logged (e : Eng) (kind : ActKind) (redo : BitVec 256 → Act Next) (live : Prog → Act Next) (pr : Prog) : Act Next := do
  let s ← get
  match s.work.replay with
  | none => live pr
  | some i =>
    match s.work.log[i]? with
    | none => do
      modify fun s => s.modWork fun w => { w with replay := none }
      live pr
    | some x =>
      if x.kind ≠ kind ∨ x.pc ≠ (s.ctx.eng e).pc then trap 13 10
      else do
        modify fun s => s.modWork fun w =>
          { w with sb := w.sb.drop x.pub, replay := if i + 1 < w.log.length then some (i + 1) else none }
        redo x.result

/-- A publication, of what the store buffer holds at the act, and what waits for it (R311, R312). With `full`, a
publish step over every entry and then a wait until the outbound queue is empty; without, the entries that cover [key, key + n) move, and the outbound queue must hold none
that covers those bytes. Then the effect acts, which is told how many entries were published. -/
def publishing (pr : Prog) (full : Bool) (key n : Nat) (effect : Nat → Act Next) : Act Next := do
  let s ← get
  let first := pr.stage = 0
  let todo := if first then s.work.sb.length else pr.count
  let (t, left) := if full then s.publishN s.cur todo else State.publishCovering s.cur key n todo s.work.sb [] s
  set t
  let pub := (if first then 0 else pr.pub) + (s.work.sb.length - t.work.sb.length)
  let ob := t.cc.ob
  if left = 0 && (if full then ob.isEmpty else !ob.any fun x => x.covers key n) then effect pub
  else if first || s.work.sb.length ≠ t.work.sb.length || (s.part s.work.part).faults.length ≠ (t.part s.work.part).faults.length
    || s.stalled.length ≠ t.stalled.length then pure (.more { pr with stage := 1, count := left, pub })
  else stop (.wait .memory)

/-- A releasing act (R312): a publish step, then a wait until the outbound queue is empty, then the effect. -/
def releasing (pr : Prog) (effect : Nat → Act Next) : Act Next := publishing pr true 0 0 effect

end Sys2Proof.Machine
end

