-- ==== Sys2Proof/Machine/Array.lean ====
section
/-! DEFINITION. The matrix array (R137, R138, R280 to R291): the nest tables, the walk of a nest, the tile command, the
ring advance, and the C instructions that drive them. A tile command issues (its checks, the pop of FQ) and later
retires, when its waits are met; both are events of the array, in the order of the walk. -/

namespace Sys2Proof.Machine

/-- The byte at a logical offset of a ring through a layout word (R286). -/
def Ctx.ringByte (x : Ctx) (ring : Nat) (lay : Word) (o : Nat) : Nat :=
  let r := x.ring ring
  (x.spad.get 0 (r.byteAt (r.head.toNat + o / r.slot) (o % r.slot) (layPitch lay) (laySpan lay))).toNat

/-- The encoding of element (i, k) of a side. -/
def Ctx.element (x : Ctx) (p : Side) (i k : Nat) : Nat :=
  let o := (p.elemOff i k).toNat
  let b := x.ringByte p.ring p.lay o
  match tyBits p.type with
  | 4 => if p.odd i k then b / 16 else b % 16
  | 8 => b
  | _ => b + 256 * x.ringByte p.ring p.lay (o + 1)

/-- Expand(A(i, k)) or Expand(B(k, i)): (q − z) · s, or q · s for a float; every NaN quiet (R222, R232). -/
def Ctx.expand (x : Ctx) (p : Side) (i k : Nat) : Val :=
  let q := decodeTy p.type (x.element p i k)
  let o := (p.scaleAt i k).toNat
  let byte (j : Nat) := x.ringByte p.scaleRing p.scaleLay (o + j)
  let d := if p.zp then
      let z := decodeTy p.type (if tyBits p.type = 4 then byte 2 % 16 else byte 2)
      (q.add z.neg).1
    else q
  let v := match p.scale with
    | 1 => (d.mul (decodeTy 11 (byte 0))).1
    | 2 => (d.mul (decodeTy 13 (byte 0 + 256 * byte 1))).1
    | _ => d
  match v with
  | .nan _ => .nan false
  | v => v

/-! ### The tile command (R287) and the ring advance (R288) -/

/-- The active and the shadow table (R137). -/
def MArray.active (a : MArray) : SMap Word := if a.swapped then a.n1 else a.n0
def MArray.shadow (a : MArray) : SMap Word := if a.swapped then a.n0 else a.n1

/-- The array changed. -/
def Ctx.modAr (c : Ctx) (f : MArray → MArray) : Ctx := { c with ar := f c.ar }

/-- Tile t changed. -/
def Ctx.setTile (c : Ctx) (t : Nat) (x : Tile) : Ctx := c.modAr fun a => { a with tiles := a.tiles.set {} t x }

/-- What keeps the next command of the nest from issuing, or the command (R284, R287, R290). -/
def Ctx.tryIssue (x : Ctx) (n : Nest) : Nat ⊕ Cmd :=
  match x.ar.fq with
  | [] => .inl 1
  | fw :: _ =>
    let c : Cmd := ⟨n.table, n.idx, fw⟩
    if formatInvalid fw then .inl 2 else if x.badReads c then .inl 3 else .inr c

/-- Issue of the next command of core k's nest: a matrix fault halts the array with FQ and the walk position left
(R290), else FQ is popped. -/
def State.issueCmd (s : State) (k : Nat) : State :=
  let x := (s.core k).ctx
  match x.ar.nest, (s.core k).work with
  | some n, some w =>
    match x.tryIssue n with
    | .inl cause =>
      (s.modCtxOf k fun c => c.modAr fun a => { a with hold := some cause }).addTrap
        { trapRecOf k (s.core k) w (.array w.id) 11 cause 0 with arr := true }
    | .inr c => s.modCtxOf k fun x => x.modAr fun a => { a with
        fq := a.fq.tail
        cmds := a.cmds ++ [c]
        nest := (nextIdx n.table 0 n.idx).map fun i => { n with idx := i } }
  | _, _ => s

/-- The step sum and the accumulation of one element (R233), and its flags. -/
def stepElem (acc : Nat) (a b : List Val) : Nat × Flags :=
  let (g, f) := fmtF32.finish none false (exactSum ((List.zip a b).map fun p => p.1.mul p.2))
  let (z, h) := addF32 acc g
  (z, f.or h)

/-- A command's effect on its tile: the elements and the flags (R287). -/
def Ctx.runCmd (x : Ctx) (c : Cmd) (z : SMap (BitVec 32)) : SMap (BitVec 32) × Flags :=
  let rows := upTo 64 fun i => upTo 32 fun k => x.expand ⟨false, c⟩ i k
  let cols := upTo 64 fun j => upTo 32 fun k => x.expand ⟨true, c⟩ j k
  let fresh := c.first && (tdw c.table 0).getLsbD 10
  let all := (rows.zipIdx.map fun r => cols.zipIdx.map fun q =>
    stepElem (if fresh then 0 else (z.get 0 (64 * r.2 + q.2)).toNat) r.1 q.1).flatten
  (SMap.setList [] 0 0 (all.map fun e => BitVec.ofNat 32 e.1), all.foldl (fun f e => f.or e.2) {})

/-- The modulus of the tile check (R355). -/
def sumModulus : Int := 2 ^ 61 - 1

/-- The residue of an exact value scaled by 2^544 (R355); 0 of a NaN or an infinity, which are left out. -/
def residueOf : Val → Int
  | .fin n m e => mantAt n m e (-544) % sumModulus
  | _ => 0

/-- Whether a product is finite. -/
def finiteProduct (p : Val × Val) : Bool := match (p.1.mul p.2).1 with | .fin _ _ _ => true | _ => false

/-- For every line b of one side, the sum of the residues of its steps with the lines of the other, and the residue formed apart
from their sum, agree; steps with a NaN or infinite product are left out (R355). -/
def linesAgree (l : List (List Val)) (lines : List (List Val)) : Bool :=
  lines.all fun b =>
    let kept := l.filter fun a => (List.zip a b).all finiteProduct
    let steps := kept.map fun a => residueOf (exactSum ((List.zip a b).map fun p => p.1.mul p.2)).1
    let apart := exactSum (b.zipIdx.map fun y =>
      ((exactSum (kept.map fun a => (a.getD y.2 (.fin false 0 0), false))).1).mul y.1)
    steps.sum % sumModulus = residueOf apart.1

/-- The two sums of a command's column and row checks agree (R355). They always do of exact sums: a faulty array is one whose
TILE_COMMAND says so, or whose sums an error has altered before (`Core.badSums`). -/
def Ctx.sumsAgree (x : Ctx) (c : Cmd) : Bool :=
  let rows := upTo 64 fun i => upTo 32 fun k => x.expand ⟨false, c⟩ i k
  let cols := upTo 64 fun j => upTo 32 fun k => x.expand ⟨true, c⟩ j k
  linesAgree rows cols && linesAgree cols rows

/-- A layout mismatch: the defined misread (R285). -/
def Ctx.misread (x : Ctx) (c : Cmd) : Bool :=
  c.reads.any fun r =>
    let g := x.ring r.1
    g.span ≠ laySpan r.2.1 || (g.span ≠ 0 && g.pitch ≠ 0 && g.pitch ≠ layPitch r.2.1)

/-- A tile's status after a command: flags ORed, one more command (R287, R291). -/
def statusAfter (st : Word) (f : Flags) (mis : Bool) : Word :=
  (st ||| BitVec.ofNat 64 (bit f.nx + 2 * bit f.uf + 4 * bit f.of + 8 * bit f.nv + 16 * bit mis)) + 0x100000000#64

/-- A command's retirement: the tile, its state and status, and the ring advance that it triggers. -/
def Ctx.finishCmd (x : Ctx) (c : Cmd) : Ctx :=
  let t := x.tile c.tile
  let t := if c.first then { t with status := 0 } else t
  let (z, f) := x.runCmd c t.z
  let x' := x.setTile c.tile
    { z, live := true, status := statusAfter t.status f (x.misread c), st := if c.last then .ready else t.st }
  x'.modAr fun a => { a with cmds := a.cmds.tail, adv := if c.ends (nestRal c.table) then some c else none }

/-- EVT is set when the array has become idle (R133). -/
def State.idleEvent (s : State) (k : Nat) : State := if (s.core k).ctx.ar.idle then s.setEvt k else s

/-- Whether the array of a core may act: its work is neither ended, held as a whole nor under test (R348). Halted, or with the
work leaving the core, it still finishes the commands that have issued (R290, R363). -/
def Core.arrayRuns (c : Core) : Bool := c.work.isSome && !c.ctx.held && !c.ending && c.test.isNone

/-- Whether it may issue its next command: the one before has retired with its ring advance, and the array is neither halted nor
stopped because the work leaves the core (R283, R290, R363). -/
def Core.arrayIssues (c : Core) : Bool :=
  c.ctx.ar.cmds.isEmpty && c.ctx.ar.adv.isNone && c.ctx.ar.hold.isNone && (c.leaving.isNone || c.work.any fun w => w.replay.isSome)

/-- Commands that retire between two checks of the sums at most (Table 19-6). -/
def checkLimit : Nat := 1024

/-- The array waits for a ring or a tile state (R373, event 0x08). -/
def State.arrayWaits (s : State) (k : Nat) : State := { s with arrayQuiet := k :: s.arrayQuiet.filter (· ≠ k) }

/-- The oldest command retires: `ok` says that its sums agree. They are checked when its run completes and after 1,024 commands,
before the tile becomes READY (R354, R355). -/
def State.retireCmd (s : State) (k : Nat) (c : Cmd) (ok : Bool) : State :=
  let bad := (s.core k).badSums || !(ok && (s.core k).ctx.sumsAgree c)
  let n := (s.core k).ctx.ar.unchecked + 1
  let check := c.last || decide (checkLimit ≤ n)
  if bad && check then s.detect k 3
  else
    ((s.modCore k fun y => { y with
      badSums := bad
      ctx := (y.ctx.finishCmd c).modAr fun a => { a with unchecked := if check then 0 else n } }).countOn k 0x07 none 1).idleEvent k

/-- TILE_COMMAND (R287): the next command issues when the one before it has retired with its ring advance; the oldest
command retires when its waits are met. -/
def execTileCommand (k : Nat) (sumOk : Bool) (s : State) : Out :=
  .next (
    if !(s.core k).arrayRuns then s
    else
      let s := if (s.core k).arrayIssues then s.issueCmd k else s
      let x := (s.core k).ctx
      match x.ar.cmds with
      | c :: _ =>
        if x.ar.adv.isSome then s.stir
        else if !x.cmdReady c then s.stir.arrayWaits k
        else (s.retireCmd k c sumOk).stir
      | [] => s.stir)

/-- RING_ADVANCE (R288): the sums are checked at each (Table 19-6). -/
def execRingAdvance (k : Nat) (s : State) : Out :=
  .next (
    let x := (s.core k).ctx
    match x.ar.adv with
    | some c =>
      if !(s.core k).arrayRuns then s
      else if !x.advReady c then s.arrayWaits k
      else if (s.core k).badSums then (s.detect k 3).stir
      else
        ((s.modCtxOf k fun x => { x with
          rings := c.pops.foldl (fun m p => m.set {} p.1
            { m.get {} p.1 with head := (m.get {} p.1).head + BitVec.ofNat 32 p.2 }) x.rings
          ar := { x.ar with adv := none, unchecked := 0 } }).idleEvent k).stir
    | none => s)

/-! ### The C instructions (R137, R138, R338) -/

/-- NESTW: two doublewords of the shadow table; behind an NGO that waits it writes the table which that NGO will start (R141). DEDUCED
(log 38): one that moves tokens waits for the NGO to retire. A conductor has no array, and nothing happens there (R338). -/
def execNestw (p : BitVec 4) (gd ga gb : BitVec 5) (s : State) : Out :=
  issue (.nestw p gd ga gb) .C p (fun _ => { overlaps := decide (p = 0) }) (pure ()) (fun _ => do
    let s ← get
    let j := 2 * bits (s.reg .C gd) 3 0
    let put (t : SMap Word) := (t.set 0 j (s.reg .C ga)).set 0 (j + 1) (s.reg .C gb)
    set (if isConductor s.cur then s
      else s.modCtx fun c => c.modAr fun a => if a.swapped then { a with n0 := put a.n0 } else { a with n1 := put a.n1 })
    return .seq) s

/-- Whether a nest can start: the array is idle, or its running nest has issued its last command, and it is not halted (R138, R290). -/
def MArray.open' (a : MArray) : Bool := a.nest.isNone && a.hold.isNone

/-- The tables swap their roles, and the nest of the new active one starts: its first command issues (R138, R283). -/
def State.startNest (s : State) (k : Nat) : State :=
  (s.modCtxOf k fun c => c.modAr fun a =>
    { a with swapped := !a.swapped, nest := some ⟨a.shadow, List.replicate (nlev a.shadow) 0⟩ }).issueCmd k

/-- An NGO that has issued waits for the array: C goes on after it (R141). -/
def State.awaitArray (s : State) (p : BitVec 4) : State :=
  s.modCtx fun c =>
    let w : Start := { pc := c.c.pc, wc := c.c.wc - 1, loops := c.c.loops
                       pops := (depPops .C p).map (·, 1), pushes := (depPushes .C p).map (·, 1) }
    c.modAr fun a => { a with start := some w }

/-- NGO: an invalid table is class 2 cause 3 with nothing swapped or started; while no nest can start, it waits (R138). -/
def execNgo (p : BitVec 4) (s : State) : Out :=
  issue (.ngo p) .C p (fun _ => {}) (pure ())
    (fun _ => do
      let s ← get
      trapIf (isConductor s.cur) 2 3
      if s.ctx.ar.open' then do
        trapIf (!s.ctx.tableValid s.ctx.ar.shadow) 2 3
        set (s.startNest s.cur)
        return .seq
      else
        set (s.awaitArray p)
        return .later) s

/-- Whether an NGO of the executing core need wait no longer. -/
def State.ngoDue (s : State) : Bool := s.cc.runnable .C && s.ctx.ar.start.isSome && s.ctx.ar.open'

/-- The end of an NGO's wait: the nest starts and NGO retires; an invalid table is the trap of NGO, at which C then stands (R138). -/
def State.endNgo (s : State) : State :=
  match s.ctx.ar.start with
  | none => s
  | some w =>
    let s := s.modCtx fun c => (c.unreserve w.pushes).modAr fun a => { a with start := none }
    if s.ctx.tableValid s.ctx.ar.shadow then ((s.startNest s.cur).modCtx fun c => c.pushTokens w.pushes).stir
    else ((s.modCtx fun c => (c.pushTokens w.pops).modEng .C fun g => { g with pc := w.pc, wc := w.wc, loops := w.loops }).takeTrap
      s.cur .C 2 3 0).stir

/-- NWAIT (R138): a halted array is waited for too; on a conductor it retires at once. -/
def execNwait (p : BitVec 4) (s : State) : Out :=
  issue (.nwait p) .C p (fun s => { waits := [(!isConductor s.cur && !s.ctx.ar.idle, .array)] }) (pure ())
    (fun _ => return .seq) s

/-- FMTQ: waits while FQ is full (R137). -/
def execFmtq (p : BitVec 4) (ga : BitVec 5) (s : State) : Out :=
  issue (.fmtq p ga) .C p (fun s => { waits := [(!isConductor s.cur && decide (16 ≤ s.ctx.ar.fq.length), .format)] }) (pure ())
    (fun _ => do
      let s ← get
      set (if isConductor s.cur then s else s.modCtx fun c => c.modAr fun a => { a with fq := a.fq ++ [s.reg .C ga] })
      return .seq) s

end Sys2Proof.Machine
end

