-- ==== Sys2Proof/Machine/Blocks.lean ====
section
/-! DEFINITION. Vexfer block compression: the decoder of the access engine and the ladles, and the encoder of the
finishing engine (R177, R178, R296). -/

namespace Sys2Proof.Machine

/-- The element width of a block: a 4-bit type is treated as bytes (R177). -/
def vbcWidth (ty : Nat) : Nat := max 8 (tyBits ty)

/-- A block's header (Table 7-5). -/
structure VbcHead where
  kind : Nat
  k : Nat
  base : Nat
  deriving DecidableEq, Repr

/-- The header in 16 bytes, or none when it is malformed (R178): a bit that must be zero is set, K lies outside its range
for KIND, or BASE has a bit at or above w. -/
def vbcHead (ty : Nat) (l : List Byte) : Option VbcHead :=
  let h := ofBytes l
  let w := vbcWidth ty
  let x : VbcHead := ⟨fieldOf h 7 6, fieldOf h 5 0, fieldOf h 63 32⟩
  if fieldOf h 31 8 ≠ 0 || fieldOf h 127 64 ≠ 0 || 2 ^ w ≤ x.base then none
  else if x.kind ≤ 1 && x.base ≠ 0 then none
  else if (if x.kind = 3 then x.k = 0 || w ≤ x.k else x.k ≠ 0) then none
  else some x

/-- Bytes of a payload. -/
def VbcHead.payload (x : VbcHead) (ty : Nat) : Nat :=
  match x.kind with
  | 0 => 256
  | 3 => 16 * ((2048 / vbcWidth ty * x.k + 127) / 128)
  | _ => 0

/-- The encoded length of a block (R177). -/
def VbcHead.len (x : VbcHead) (ty : Nat) : Nat := 16 + x.payload ty

/-- The 256 data bytes of a block (R177). -/
def VbcHead.data (x : VbcHead) (ty : Nat) (payload : List Byte) : List Byte :=
  let w := vbcWidth ty
  let n := 2048 / w
  match x.kind with
  | 0 => payload
  | 1 => List.replicate 256 0
  | 2 => (List.replicate n (toBytes x.base (w / 8))).flatten
  | _ =>
    let p := ofBytes payload
    (upTo n fun i => toBytes ((x.base + p / 2 ^ (x.k * i) % 2 ^ x.k) % 2 ^ w) (w / 8)).flatten

/-- The encoding of 256 bytes (R296). -/
def vbcEncode (ty : Nat) (l : List Byte) : List Byte :=
  let w := vbcWidth ty
  let e := (chunks (w / 8) l (2048 / w)).map ofBytes
  let head (kind k base : Nat) : List Byte := toBytes (k + 64 * kind + 2 ^ 32 * base) 16
  let e0 := e.headD 0
  if e.all (· = 0) then head 1 0 0
  else if e.all (· = e0) then head 2 0 e0
  else
    let lo := e.foldl min e0
    let k := bitLength (e.foldl max e0 - lo)
    if k ≤ w - 1 then
      head 3 k lo ++ toBytes (e.foldr (fun x a => x - lo + 2 ^ k * a) 0) (16 * ((e.length * k + 127) / 128))
    else head 0 0 0 ++ l

end Sys2Proof.Machine
end

