-- ==== Sys2Proof/Machine/Operands.lean ====
section
/-! DEFINITION. The operands of the execute engine: elements of vector registers, register groups, pairs and quads,
extents, masks and queue operands (R221, R236 to R242), and the issue of an X instruction over them. -/

namespace Sys2Proof.Machine

/-! ### Elements of registers -/

/-- The elements of w bits of one register (R238). -/
def unpack (w : Nat) (r : Wide) : List Nat := upTo (4096 / w) fun j => (r.extractLsb' (w * j) w).toNat

/-- A register from its elements of w bits. -/
def pack (w : Nat) (l : List Nat) : Wide := BitVec.ofNat 4096 (l.foldr (fun x a => x % 2 ^ w + 2 ^ w * a) 0)

/-- The elements of a group in sequential order (R238). -/
def elems (w : Nat) (l : List Wide) : List Nat := (l.map (unpack w)).flatten

/-- A group of n registers from its elements in sequential order. -/
def regsOf (w n : Nat) (l : List Nat) : List Wide := (chunks (4096 / w) l n).map (pack w)

/-- Lists taken in turn, one element each: the interleaved order of a pair or a quad (R238). -/
def weave {α : Type} (ls : List (List α)) : Nat → List α
  | 0 => []
  | n + 1 => ls.filterMap List.head? ++ weave (ls.map List.tail) n

/-- The inverse of `weave` over r lists. -/
def unweave (r : Nat) (l : List Nat) : List (List Nat) :=
  let rows := chunks r l (l.length / r)
  upTo r fun j => rows.map fun x => x.getD j 0

/-- The elements of a pair or quad in interleaved order. -/
def wovenElems (w : Nat) (l : List Wide) : List Nat := weave (l.map (unpack w)) (4096 / w)

/-- A pair or quad of r registers from its elements in interleaved order. -/
def wovenRegs (w r : Nat) (l : List Nat) : List Wide := (unweave r l).map (pack w)

/-- Each element i of a destination whose old elements are `old`: where `on` holds, `f` of the source elements. -/
def each (on : Nat → Bool) (f : Nat → Nat → Nat → Nat × Flags) : Nat → List Nat → List Nat → List Nat → List Nat → List Nat × Flags
  | _, [], _, _, _ => ([], {})
  | i, o :: os, a, b, c =>
    let (r, g) := each on f (i + 1) os a.tail b.tail c.tail
    if on i then
      let (v, h) := f (a.headD 0) (b.headD 0) (c.headD 0)
      (v :: r, h.or g)
    else (o :: r, g)

/-- The elements of a destination, replaced by `new` where `on` holds. -/
def blend (on : Nat → Bool) (old new : List Nat) : List Nat :=
  (each on (fun a _ _ => (a, {})) 0 old new [] []).1

/-! ### Operand codes (Table 3-10) -/

/-- An operand: its code, the registers it covers, and the multiple that names it (1, 2 for a pair, 4 for a quad). -/
structure XOperand where
  code : BitVec 6
  n : Nat
  align : Nat := 1
  deriving DecidableEq, Repr, Inhabited

/-- Where a source comes from: registers, or entries of a queue from a position (R96, R240). -/
inductive Place where
  | regs (b n : Nat)
  | entries (q pos n : Nat)
  deriving DecidableEq, Repr

/-- The places of the sources in order, and the entries taken from each load queue: a peek reads from the position that
the pops before it have reached (R96). -/
def planSources : List XOperand → SMap Nat → List Place × SMap Nat
  | [], m => ([], m)
  | o :: r, m =>
    let c := o.code.toNat
    let (p, m') : Place × SMap Nat :=
      if c < 32 then (.regs c o.n, m)
      else if c < 36 then (.entries (c - 32) (m.get 0 (c - 32)) o.n, m.set 0 (c - 32) (m.get 0 (c - 32) + o.n))
      else (.entries ((c - 36) % 4) (m.get 0 ((c - 36) % 4)) o.n, m)
    let (l, m'') := planSources r m'
    (p :: l, m'')

/-- Filled entries that a plan needs at the head of each load queue. -/
def readsOf (l : List Place) : List (Nat × Nat) :=
  l.filterMap fun p => match p with
    | .entries q pos n => some (q, pos + n)
    | .regs _ _ => none

/-- The registers at a place. -/
def Ctx.registersAt (c : Ctx) : Place → List Wide
  | .regs b n => upTo n fun i => c.xu.v.get 0 (b + i)
  | .entries q pos n => (((c.queue q).drop pos).take n).map (·.data)

/-- The queue that a destination code pushes to, if it is a push (Table 3-10). -/
def XOperand.pushQueue (o : XOperand) : Option Nat := if 40 ≤ o.code.toNat then some (o.code.toNat - 36) else none

/-- A destination written: registers, or entries pushed in register order (R240). -/
def Ctx.writeDst (c : Ctx) (o : XOperand) (term : Bool) (l : List Wide) : Ctx :=
  match o.pushQueue with
  | some q => l.foldl (fun c d => c.push q { full := true, term, data := d }) c
  | none => { c with xu := { c.xu with v := c.xu.v.setList 0 o.code.toNat l } }

/-! ### X instructions -/

/-- Registers in a group of A elements of w bits (R239). -/
def groupSize (w A : Nat) : Nat := max 1 ((A + epr w - 1) / epr w)

/-- The active count under an extent register (R239). -/
def Ctx.active (c : Ctx) (ex : BitVec 3) (iw : Nat) : Nat := if ex = 0 then epr iw else (c.xu.ext.get {} ex.toNat).n

/-- The top of the mask stack (R258). -/
def Ctx.topMask (c : Ctx) : BitVec 1024 := (c.xu.masks.head?).getD (BitVec.allOnes 1024)

/-- What an X instruction's body finds: the active count, the elements that may be written, its sources' registers, the
destination's old registers (zero for a push). -/
structure XArgs where
  A : Nat
  on : Nat → Bool
  srcs : List (List Wide)
  old : List Wide

/-- The sources by place in the word: va, vb, vc. -/
def XArgs.a (x : XArgs) : List Wide := x.srcs.getD 0 []
def XArgs.b (x : XArgs) : List Wide := x.srcs.getD 1 []
def XArgs.c (x : XArgs) : List Wide := x.srcs.getD 2 []

/-- An X instruction: its extent register, index width (0 for one that no extent governs) and limit on A, whether the
mask applies, whether it pushes a terminal entry, its destination and sources for an active count, further state traps,
and what it computes. -/
structure XSem where
  ex : BitVec 3 := 0
  iw : Nat := 0
  limit : Nat := 0
  masked : Bool := false
  term : Bool := false
  dst : Nat → Option XOperand := fun _ => none
  srcs : Nat → List XOperand := fun _ => []
  extra : Act Unit := pure ()
  body : XArgs → Act (List Wide)

/-- The active count of an X instruction. -/
def XSem.count (x : XSem) (s : State) : Nat := if x.iw = 0 then 0 else s.ctx.active x.ex x.iw

/-- The precise traps of Table 11-2, in the table's order, before any wait (R242). -/
def XSem.check (x : XSem) : Act Unit := do
  let s ← get
  let A := x.count s
  let ops := (x.dst A).toList ++ x.srcs A
  let named := ops.filter fun o => o.code.toNat < 32
  trapIf (named.any fun o => decide (32 < o.code.toNat + o.n)) 7 1
  trapIf (named.any fun o => decide (o.code.toNat % o.align ≠ 0)) 7 2
  trapIf (decide (x.iw ≠ 0) && decide (x.ex ≠ 0) && decide ((s.ctx.xu.ext.get {} x.ex.toNat).w ≠ x.iw)) 7 3
  trapIf (decide (x.iw ≠ 0) && (decide (x.limit < A) || (x.masked && decide (1024 < A)))) 7 4
  x.extra

/-- What an X instruction needs: entries at the heads of the load queues, and free slots (R92, R240). -/
def XSem.needs (x : XSem) (s : State) : Needs :=
  let A := x.count s
  { reads := readsOf (planSources (x.srcs A) []).1
    frees := match x.dst A with
      | some o => (o.pushQueue.map fun q => (q, o.n)).toList
      | none => [] }

/-- The effect of an X instruction: sources are read and taken, then the destination is written (R240, R241). -/
def XSem.run (x : XSem) : Act Unit := do
  let s ← get
  let A := x.count s
  let (places, taken) := planSources (x.srcs A) []
  let top := s.ctx.topMask
  let old := match x.dst A with
    | some o => if o.pushQueue.isSome then List.replicate o.n 0 else s.ctx.registersAt (.regs o.code.toNat o.n)
    | none => []
  let args : XArgs := { A, on := fun i => i < A && (!x.masked || top.getLsbD i), srcs := places.map s.ctx.registersAt, old }
  set (taken.foldl (fun s e => s.popQueue e.1 e.2) s)
  let r ← x.body args
  match x.dst A with
  | some o => modify fun s => s.modCtx fun c => c.writeDst o x.term r
  | none => pure ()

/-- Issue of an X instruction (R92, R242). -/
def xIssue (i : Instr) (p : BitVec 4) (x : XSem) (s : State) : Out :=
  issue i .X p x.needs x.check (fun _ => do
    x.run
    return .seq) s

end Sys2Proof.Machine
end

