-- ==== Sys2Proof/Machine/Vector.lean ====
section
/-! DEFINITION. The vector instructions of the execute engine: arithmetic, shifts, compares, selection, conversion,
rearrangement, tables, bitmaps, extents and the mask stack (R245 to R259). Each has its own description (`sem…`), which
its meaning issues and which the modulo sequencer issues too (R260). -/

namespace Sys2Proof.Machine

/-! ### Element operations (Table 11-4) -/

/-- The integer that an element of an integer type stands for. -/
def intOf (ty v : Nat) : Int := if isSignedTy ty then (BitVec.ofNat (tyBits ty) v).toInt else (v : Int)

/-- An exact integer result, wrapped, or clamped with SAT (R245). -/
def intResult (ty : Nat) (sat : Bool) (i : Int) : Nat :=
  encInt (tyBits ty) (if sat then max (intMin ty) (min (intMax ty) i) else i)

/-- An element operation given by its float and integer forms. -/
def arith (ty : Nat) (sat : Bool) (f : Val → Val → Val → Val × Bool) (g : Int → Int → Int → Int) (a b c : Nat) : Nat × Flags :=
  if isIntTy ty then (intResult ty sat (g (intOf ty a) (intOf ty b) (intOf ty c)), {})
  else
    let t := fmtOf ty
    t.finish none false (f (t.decode a) (t.decode b) (t.decode c))

/-- The lesser or greater of two elements (Table 11-4). -/
def minmaxElem (ty : Nat) (greater : Bool) (a b : Nat) : Nat × Flags :=
  if isIntTy ty then (if (decide (intOf ty a < intOf ty b)) != greater then a else b, {}) else (fmtOf ty).minmax greater a b

/-- A float element with its sign bit changed; a NaN gives the canonical NaN (Table 11-4). -/
def signElem (ty : Nat) (f : Nat → Nat) (a : Nat) : Nat × Flags :=
  let t := fmtOf ty
  match t.decode a with
  | .nan s => ((t.nan).getD 0, { nv := s })
  | _ => (f a, {})

/-- VABS of an element. -/
def absElem (ty : Nat) (sat : Bool) (a : Nat) : Nat × Flags :=
  if isIntTy ty then (intResult ty sat ((intOf ty a).natAbs : Int), {}) else signElem ty (fun a => a % 2 ^ (tyBits ty - 1)) a

/-- VNEG of an element. -/
def negElem (ty : Nat) (sat : Bool) (a : Nat) : Nat × Flags :=
  if isIntTy ty then (intResult ty sat (-(intOf ty a)), {}) else signElem ty (fun a => a ^^^ 2 ^ (tyBits ty - 1)) a

/-- A shift of a w-bit pattern (R246). -/
def shiftElem (kind w a n : Nat) : Nat :=
  match kind with
  | 0 => if w ≤ n then 0 else a * 2 ^ n % 2 ^ w
  | 1 => if w ≤ n then 0 else a / 2 ^ n
  | _ => ((BitVec.ofNat w a).sshiftRight (min n w)).toNat

/-- A condition of Table 11-5 other than `.bit`, and its flags. -/
def condElem (cc ty a b : Nat) : Bool × Flags :=
  if isIntTy ty then
    let x := intOf ty a
    let y := intOf ty b
    (match cc with
     | 0 => decide (x = y) | 1 => decide (x ≠ y) | 2 => decide (x < y) | 3 => decide (x ≤ y) | 4 => decide (y < x) | _ => decide (y ≤ x), {})
  else
    let x := (fmtOf ty).decode a
    let y := (fmtOf ty).decode b
    let sig : Flags := { nv := x.isSig || y.isSig }
    let any : Flags := { nv := x.isNan || y.isNan }
    match cc with
    | 0 => (x.feq y, sig)
    | 1 => (!x.feq y, sig)
    | 2 => (x.lt y, any)
    | 3 => (x.lt y || x.feq y, any)
    | 4 => (y.lt x, any)
    | 5 => (y.lt x || x.feq y, any)
    | _ => (x.isNan || y.isNan, sig)

/-! ### Element-wise instructions -/

/-- An element-wise instruction over groups (R245). -/
def elementwise (vd : BitVec 6) (srcs : List (BitVec 6)) (ex : BitVec 3) (mk : BitVec 1) (ty : BitVec 4)
    (f : Nat → Nat → Nat → Nat × Flags) : XSem :=
  let w := typeBits ty
  { ex, iw := w, limit := 6 * epr w, masked := mk = 1
    dst := fun A => some { code := vd, n := groupSize w A }
    srcs := fun A => srcs.map fun v => { code := v, n := groupSize w A }
    body := fun x => do
      let (l, fl) := each x.on f 0 (elems w x.old) (elems w x.a) (elems w x.b) (elems w x.c)
      modify fun s => s.raise fl
      return regsOf w x.old.length l }

def semVadd (sat : BitVec 1) (vd va vb : BitVec 6) (ex : BitVec 3) (mk : BitVec 1) (ty : BitVec 4) : XSem :=
  elementwise vd [va, vb] ex mk ty (arith ty.toNat (sat = 1) (fun a b _ => a.add b) (fun a b _ => a + b))
def semVsub (sat : BitVec 1) (vd va vb : BitVec 6) (ex : BitVec 3) (mk : BitVec 1) (ty : BitVec 4) : XSem :=
  elementwise vd [va, vb] ex mk ty (arith ty.toNat (sat = 1) (fun a b _ => a.add b.neg) (fun a b _ => a - b))
def semVmul (sat : BitVec 1) (vd va vb : BitVec 6) (ex : BitVec 3) (mk : BitVec 1) (ty : BitVec 4) : XSem :=
  elementwise vd [va, vb] ex mk ty (arith ty.toNat (sat = 1) (fun a b _ => a.mul b) (fun a b _ => a * b))
def semVfma (sat : BitVec 1) (vd va vb vc : BitVec 6) (ex : BitVec 3) (mk : BitVec 1) (ty : BitVec 4) : XSem :=
  elementwise vd [va, vb, vc] ex mk ty (arith ty.toNat (sat = 1) (fun a b c => a.fma b c) (fun a b c => a * b + c))
def semVfms (sat : BitVec 1) (vd va vb vc : BitVec 6) (ex : BitVec 3) (mk : BitVec 1) (ty : BitVec 4) : XSem :=
  elementwise vd [va, vb, vc] ex mk ty (arith ty.toNat (sat = 1) (fun a b c => a.fma b c.neg) (fun a b c => a * b - c))
def semVmin (vd va vb : BitVec 6) (ex : BitVec 3) (mk : BitVec 1) (ty : BitVec 4) : XSem :=
  elementwise vd [va, vb] ex mk ty (fun a b _ => minmaxElem ty.toNat false a b)
def semVmax (vd va vb : BitVec 6) (ex : BitVec 3) (mk : BitVec 1) (ty : BitVec 4) : XSem :=
  elementwise vd [va, vb] ex mk ty (fun a b _ => minmaxElem ty.toNat true a b)
def semVabs (sat : BitVec 1) (vd va : BitVec 6) (ex : BitVec 3) (mk : BitVec 1) (ty : BitVec 4) : XSem :=
  elementwise vd [va] ex mk ty (fun a _ _ => absElem ty.toNat (sat = 1) a)
def semVneg (sat : BitVec 1) (vd va : BitVec 6) (ex : BitVec 3) (mk : BitVec 1) (ty : BitVec 4) : XSem :=
  elementwise vd [va] ex mk ty (fun a _ _ => negElem ty.toNat (sat = 1) a)
def semVand (vd va vb : BitVec 6) (ex : BitVec 3) (mk : BitVec 1) (ty : BitVec 4) : XSem :=
  elementwise vd [va, vb] ex mk ty (fun a b _ => (a &&& b, {}))
def semVor (vd va vb : BitVec 6) (ex : BitVec 3) (mk : BitVec 1) (ty : BitVec 4) : XSem :=
  elementwise vd [va, vb] ex mk ty (fun a b _ => (a ||| b, {}))
def semVxor (vd va vb : BitVec 6) (ex : BitVec 3) (mk : BitVec 1) (ty : BitVec 4) : XSem :=
  elementwise vd [va, vb] ex mk ty (fun a b _ => (a ^^^ b, {}))
def semVnot (vd va : BitVec 6) (ex : BitVec 3) (mk : BitVec 1) (ty : BitVec 4) : XSem :=
  elementwise vd [va] ex mk ty (fun a _ _ => (2 ^ typeBits ty - 1 - a, {}))

/-- A shift: amounts from vb, or the immediate (R246). -/
def shiftSem (kind : Nat) (im : BitVec 1) (n vd va vb : BitVec 6) (ex : BitVec 3) (mk : BitVec 1) (ty : BitVec 4) : XSem :=
  if im = 1 then elementwise vd [va] ex mk ty (fun a _ _ => (shiftElem kind (typeBits ty) a n.toNat, {}))
  else elementwise vd [va, vb] ex mk ty (fun a b _ => (shiftElem kind (typeBits ty) a b, {}))

def semVshl (im : BitVec 1) (n vd va vb : BitVec 6) (ex : BitVec 3) (mk : BitVec 1) (ty : BitVec 4) : XSem :=
  shiftSem 0 im n vd va vb ex mk ty
def semVshr (im : BitVec 1) (n vd va vb : BitVec 6) (ex : BitVec 3) (mk : BitVec 1) (ty : BitVec 4) : XSem :=
  shiftSem 1 im n vd va vb ex mk ty
def semVsra (im : BitVec 1) (n vd va vb : BitVec 6) (ex : BitVec 3) (mk : BitVec 1) (ty : BitVec 4) : XSem :=
  shiftSem 2 im n vd va vb ex mk ty

/-- Registers of the bitmap group that `.bit` reads (R255). -/
def bitmapRegs (A : Nat) : Nat := max 1 ((A + 4095) / 4096)

/-- The condition of each element, and its flags (Table 11-5, R247): sources as elements, or a bitmap for `.bit`. -/
def condList (cc : BitVec 3) (ty : BitVec 4) (x : XArgs) : List Nat × Flags :=
  let w := typeBits ty
  if cc = 7 then (elems 1 x.a, {})
  else
    let a := elems w x.a
    each x.on (fun a b _ => let (r, f) := condElem cc.toNat ty.toNat a b; (bit r, f)) 0 (a.map fun _ => 0) a (elems w x.b) []

/-- The sources of a condition. -/
def condSrcs (cc : BitVec 3) (va vb : BitVec 6) (w A : Nat) : List XOperand :=
  if cc = 7 then [{ code := va, n := bitmapRegs A }]
  else [{ code := va, n := groupSize w A }, { code := vb, n := groupSize w A }]

def semVcmp (cc : BitVec 3) (vd va vb : BitVec 6) (ex : BitVec 3) (mk : BitVec 1) (ty : BitVec 4) : XSem :=
  let w := typeBits ty
  { ex, iw := w, limit := 6 * epr w, masked := mk = 1
    dst := fun A => some { code := vd, n := groupSize w A }
    srcs := condSrcs cc va vb w
    body := fun x => do
      let (l, fl) := condList cc ty x
      modify fun s => s.raise fl
      return regsOf w x.old.length (blend x.on (elems w x.old) (l.map fun b => if b = 1 then 2 ^ w - 1 else 0)) }

/-! ### Selection and movement (R248) -/

def semVsel (vd va vb vc : BitVec 6) (ex : BitVec 3) (mk : BitVec 1) (ty : BitVec 4) : XSem :=
  elementwise vd [va, vb, vc] ex mk ty (fun a b c => (if c ≠ 0 then a else b, {}))
def semVmov (vd va : BitVec 6) (ex : BitVec 3) (mk : BitVec 1) (ty : BitVec 4) : XSem :=
  elementwise vd [va] ex mk ty (fun a _ _ => (a, {}))

/-- VMOV with T: one terminal entry, whatever the extent (R248). -/
def semVmovTerm (vd : BitVec 6) (_ex : BitVec 3) : XSem :=
  { term := true
    dst := fun _ => some { code := vd, n := 1 }
    body := fun _ => pure [0] }

def semVbcast (gs : BitVec 5) (lf : BitVec 1) (j : BitVec 13) (vd va : BitVec 6) (ex : BitVec 3) (mk : BitVec 1) (ty : BitVec 4) : XSem :=
  let w := typeBits ty
  { ex, iw := w, limit := 6 * epr w, masked := mk = 1
    dst := fun A => some { code := vd, n := groupSize w A }
    srcs := fun _ => if lf = 1 then [{ code := va, n := 1 }] else []
    body := fun x => do
      let s ← get
      let v := if lf = 1 then (elems w x.a).getD j.toNat 0 else (s.reg .X gs).toNat % 2 ^ w
      return regsOf w x.old.length (each x.on (fun _ _ _ => (v, {})) 0 (elems w x.old) [] [] []).1 }

def semViota (gs : BitVec 5) (imm14 : BitVec 14) (vd : BitVec 6) (ex : BitVec 3) (mk : BitVec 1) (ty : BitVec 4) : XSem :=
  let w := typeBits ty
  { ex, iw := w, limit := 6 * epr w, masked := mk = 1
    dst := fun A => some { code := vd, n := groupSize w A }
    body := fun x => do
      let s ← get
      let start := (s.reg .X gs).toInt
      return regsOf w x.old.length (blend x.on (elems w x.old) (upTo x.A fun i => encInt w (start + i * imm14.toInt))) }

/-! ### Conversion (Table 11-6) -/

/-- The forms of VCVT: registers of a widened or narrowed group are interleaved (R249). -/
def semVcvt (st : BitVec 4) (vd va : BitVec 6) (ex : BitVec 3) (mk : BitVec 1) (ty : BitVec 4) : XSem :=
  let w1 := typeBits ty
  let w2 := typeBits st
  let iw := min w1 w2
  let wide := w1 / w2
  let narrow := w2 / w1
  { ex, iw, limit := if w1 = w2 then 6 * epr iw else epr iw, masked := mk = 1
    dst := fun A => some (if w1 = w2 then { code := vd, n := groupSize iw A } else { code := vd, n := max 1 wide, align := max 1 wide })
    srcs := fun A => [if w1 = w2 then { code := va, n := groupSize iw A } else { code := va, n := max 1 narrow, align := max 1 narrow }]
    body := fun x => do
      let s ← get
      let src := if 1 < narrow then wovenElems w2 x.a else elems w2 x.a
      let old := if 1 < wide then wovenElems w1 x.old else elems w1 x.old
      let (l, fl) := each x.on (fun a _ _ => convertTy ty.toNat st.toNat a none s.ctx.csr.sat) 0 old src [] []
      set (s.raise fl)
      return if 1 < wide then wovenRegs w1 wide l else regsOf w1 x.old.length l }

/-! ### Rearrangement (R250 to R253) -/

def semVperm (vd va vb : BitVec 6) (ex : BitVec 3) (mk : BitVec 1) (_ty : BitVec 4) : XSem :=
  { ex, iw := 8, limit := 512, masked := mk = 1
    dst := fun _ => some { code := vd, n := 1 }
    srcs := fun _ => [{ code := va, n := 1 }, { code := vb, n := 2, align := 2 }]
    body := fun x => do
      let t := elems 8 x.a
      let l := (wovenElems 16 x.b).map fun i => if i / 2 ^ 15 % 2 = 1 then 0 else t.getD (i % 512) 0
      return regsOf 8 1 (blend x.on (elems 8 x.old) l) }

def semVnib (vd va : BitVec 6) (ex : BitVec 3) (mk : BitVec 1) (ty : BitVec 4) : XSem :=
  { ex, iw := 4, limit := 1024, masked := mk = 1
    dst := fun _ => some { code := vd, n := 2, align := 2 }
    srcs := fun _ => [{ code := va, n := 1 }]
    body := fun x => do
      let l := (elems 4 x.a).map fun n => encInt 8 (intOf ty.toNat n)
      return regsOf 8 2 (blend x.on (elems 8 x.old) l) }

def semVzip (vd va vb : BitVec 6) (ex : BitVec 3) (mk : BitVec 1) (ty : BitVec 4) : XSem :=
  let w := typeBits ty
  { ex, iw := w, limit := epr w, masked := mk = 1
    dst := fun _ => some { code := vd, n := 2, align := 2 }
    srcs := fun _ => [{ code := va, n := 1 }, { code := vb, n := 1 }]
    body := fun x => do
      let l := weave [elems w x.a, elems w x.b] (epr w)
      return regsOf w 2 (blend (fun i => x.on (i / 2)) (elems w x.old) l) }

def semVunzip (vd va : BitVec 6) (ex : BitVec 3) (mk : BitVec 1) (ty : BitVec 4) : XSem :=
  let w := typeBits ty
  { ex, iw := w, limit := epr w, masked := mk = 1
    dst := fun _ => some { code := vd, n := 2, align := 2 }
    srcs := fun _ => [{ code := va, n := 2, align := 2 }]
    body := fun x => do
      let halves := unweave 2 (elems w x.a)
      return (List.zip x.old halves).map fun y => pack w (blend x.on (unpack w y.1) y.2) }

/-- The element at a signed position of a list, 0 outside it. -/
def atInt (l : List Nat) (t : Int) : Nat := if 0 ≤ t then l.getD t.toNat 0 else 0

def semVslide (gs : BitVec 5) (vd va vb : BitVec 6) (ex : BitVec 3) (mk : BitVec 1) (ty : BitVec 4) : XSem :=
  let w := typeBits ty
  { ex, iw := w, limit := 6 * epr w, masked := mk = 1
    dst := fun A => some { code := vd, n := groupSize w A }
    srcs := fun A => [{ code := va, n := groupSize w A }, { code := vb, n := groupSize w A }]
    body := fun x => do
      let s ← get
      let l := elems w x.a ++ elems w x.b
      let sh := (s.reg .X gs).toInt
      return regsOf w x.old.length (blend x.on (elems w x.old) (upTo x.A fun i => atInt l (i + sh))) }

/-! ### Tables and bitmaps (R254, R255) -/

/-- The registers of an index group. -/
def indexRegs (x32 : BitVec 1) (A : Nat) : Nat := groupSize (if x32 = 1 then 32 else 16) A

def semVgath (x32 : BitVec 1) (n1 : BitVec 3) (vd va vb : BitVec 6) (ex : BitVec 3) (mk : BitVec 1) (ty : BitVec 4) : XSem :=
  let w := typeBits ty
  { ex, iw := w, limit := 6 * epr w, masked := mk = 1
    dst := fun A => some { code := vd, n := groupSize w A }
    srcs := fun A => [{ code := va, n := n1.toNat + 1 }, { code := vb, n := indexRegs x32 A }]
    body := fun x => do
      let t := elems w x.a
      let l := (elems (if x32 = 1 then 32 else 16) x.b).map fun i => t.getD i 0
      return regsOf w x.old.length (blend x.on (elems w x.old) l) }

/-- Scattered elements, in ascending i: a later one wins (R254). -/
def scatter (on : Nat → Bool) : Nat → List Nat → List Nat → List Nat → List Nat
  | i, a :: as, x :: xs, t => scatter on (i + 1) as xs (if on i then setAt t x fun _ => a else t)
  | _, _, _, t => t

def semVscat (x32 : BitVec 1) (n1 : BitVec 3) (vd va vb : BitVec 6) (ex : BitVec 3) (mk : BitVec 1) (ty : BitVec 4) : XSem :=
  let w := typeBits ty
  { ex, iw := w, limit := 6 * epr w, masked := mk = 1
    dst := fun _ => some { code := vd, n := n1.toNat + 1 }
    srcs := fun A => [{ code := va, n := groupSize w A }, { code := vb, n := indexRegs x32 A }]
    body := fun x => do
      let l := scatter x.on 0 (elems w x.a) (elems (if x32 = 1 then 32 else 16) x.b) (elems w x.old)
      return regsOf w (n1.toNat + 1) l }

def semVbmp (orr : BitVec 1) (n1 : BitVec 3) (vd va : BitVec 6) (ex : BitVec 3) (mk : BitVec 1) (ty : BitVec 4) : XSem :=
  let w := typeBits ty
  { ex, iw := w, limit := 6 * epr w, masked := mk = 1
    dst := fun _ => some { code := vd, n := n1.toNat + 1 }
    srcs := fun A => [{ code := va, n := groupSize w A }]
    body := fun x => do
      let start := if orr = 1 then elems 1 x.old else (elems 1 x.old).map fun _ => 0
      let idx := elems w x.a
      return regsOf 1 (n1.toNat + 1) (scatter x.on 0 (idx.map fun _ => 1) idx start) }

/-- How many elements satisfy a test where `on` holds. -/
def countOn (on : Nat → Bool) (f : Nat → Bool) : Nat → List Nat → Nat
  | _, [] => 0
  | i, a :: r => bit (on i && f a) + countOn on f (i + 1) r

def semVpopc (gs : BitVec 5) (mm : BitVec 1) (va : BitVec 6) (ex : BitVec 3) (mk : BitVec 1) (ty : BitVec 4) : XSem :=
  let w := typeBits ty
  { ex, iw := w, limit := 6 * epr w, masked := mk = 1
    srcs := fun A => if mm = 1 then [] else [{ code := va, n := groupSize w A }]
    body := fun x => do
      let s ← get
      let n := if mm = 1 then countOn (fun i => decide (i < x.A)) (fun b => b = 1) 0 (upTo 1024 fun i => bit (s.ctx.topMask.getLsbD i))
        else countOn x.on (fun a => a ≠ 0) 0 (elems w x.a)
      setReg .X gs (BitVec.ofNat 64 n)
      return [] }

/-! ### The mask stack, BMZ and extents (R257 to R259) -/

/-- A bit mask from the bits of a list, from bit 0. -/
def maskOf (l : List Nat) : BitVec 1024 := BitVec.ofNat 1024 (l.foldr (fun b a => b % 2 + 2 * a) 0)

/-- A mask pushed, or the stack changed. -/
def State.modMasks (s : State) (f : List (BitVec 1024) → List (BitVec 1024)) : State :=
  s.modCtx fun c => { c with xu := { c.xu with masks := f c.xu.masks } }

def semMpush (cc : BitVec 3) (va vb : BitVec 6) (ex : BitVec 3) (ty : BitVec 4) : XSem :=
  let w := typeBits ty
  { ex, iw := w, limit := 1024
    srcs := condSrcs cc va vb w
    extra := do trapIf (decide (16 ≤ (← get).ctx.xu.masks.length)) 8 1
    body := fun x => do
      let (l, fl) := condList cc ty x
      modify fun s => (s.raise fl).modMasks fun m => (s.ctx.topMask &&& maskOf (l.take x.A)) :: m
      return [] }

/-- MINV and MPOP need a level above the base (R258). -/
def needsLevel : Act Unit := do trapIf (decide ((← get).ctx.xu.masks.length ≤ 1)) 8 2

def semMinv : XSem :=
  { extra := needsLevel
    body := fun _ => do
      modify fun s => s.modMasks fun m => match m with
        | top :: below :: r => (below &&& ~~~top) :: below :: r
        | l => l
      return [] }

def semMpop : XSem :=
  { extra := needsLevel
    body := fun _ => do
      modify fun s => s.modMasks List.tail
      return [] }

/-- The count that EXTS writes (R257). -/
def State.extsCount (s : State) (gs : BitVec 5) (im : BitVec 1) (n : BitVec 13) : Nat := if im = 1 then n.toNat else (s.reg .X gs).toNat

def semExts (gs : BitVec 5) (im : BitVec 1) (n : BitVec 13) (ex : BitVec 3) (ty : BitVec 4) : XSem :=
  let w := typeBits ty
  { extra := do trapIf (decide (6 * epr w < (← get).extsCount gs im n)) 7 4
    body := fun _ => do
      modify fun s => s.modCtx fun c => { c with xu := { c.xu with ext := c.xu.ext.set {} ex.toNat { n := s.extsCount gs im n, w } } }
      return [] }

/-! ### The meanings -/

/-- VADD (R245). -/
def execVadd (p : BitVec 4) (sat : BitVec 1) (vd va vb : BitVec 6) (ex : BitVec 3) (mk : BitVec 1) (ty : BitVec 4) (s : State) : Out :=
  xIssue (.vadd p sat vd va vb ex mk ty) p (semVadd sat vd va vb ex mk ty) s

/-- VSUB (R245). -/
def execVsub (p : BitVec 4) (sat : BitVec 1) (vd va vb : BitVec 6) (ex : BitVec 3) (mk : BitVec 1) (ty : BitVec 4) (s : State) : Out :=
  xIssue (.vsub p sat vd va vb ex mk ty) p (semVsub sat vd va vb ex mk ty) s

/-- VMUL (R245). -/
def execVmul (p : BitVec 4) (sat : BitVec 1) (vd va vb : BitVec 6) (ex : BitVec 3) (mk : BitVec 1) (ty : BitVec 4) (s : State) : Out :=
  xIssue (.vmul p sat vd va vb ex mk ty) p (semVmul sat vd va vb ex mk ty) s

/-- VFMA (R245). -/
def execVfma (p : BitVec 4) (sat : BitVec 1) (vd va vb vc : BitVec 6) (ex : BitVec 3) (mk : BitVec 1) (ty : BitVec 4) (s : State) : Out :=
  xIssue (.vfma p sat vd va vb vc ex mk ty) p (semVfma sat vd va vb vc ex mk ty) s

/-- VFMS (R245). -/
def execVfms (p : BitVec 4) (sat : BitVec 1) (vd va vb vc : BitVec 6) (ex : BitVec 3) (mk : BitVec 1) (ty : BitVec 4) (s : State) : Out :=
  xIssue (.vfms p sat vd va vb vc ex mk ty) p (semVfms sat vd va vb vc ex mk ty) s

/-- VMIN (R245). -/
def execVmin (p : BitVec 4) (vd va vb : BitVec 6) (ex : BitVec 3) (mk : BitVec 1) (ty : BitVec 4) (s : State) : Out :=
  xIssue (.vmin p vd va vb ex mk ty) p (semVmin vd va vb ex mk ty) s

/-- VMAX (R245). -/
def execVmax (p : BitVec 4) (vd va vb : BitVec 6) (ex : BitVec 3) (mk : BitVec 1) (ty : BitVec 4) (s : State) : Out :=
  xIssue (.vmax p vd va vb ex mk ty) p (semVmax vd va vb ex mk ty) s

/-- VABS (R245). -/
def execVabs (p : BitVec 4) (sat : BitVec 1) (vd va : BitVec 6) (ex : BitVec 3) (mk : BitVec 1) (ty : BitVec 4) (s : State) : Out :=
  xIssue (.vabs p sat vd va ex mk ty) p (semVabs sat vd va ex mk ty) s

/-- VNEG (R245). -/
def execVneg (p : BitVec 4) (sat : BitVec 1) (vd va : BitVec 6) (ex : BitVec 3) (mk : BitVec 1) (ty : BitVec 4) (s : State) : Out :=
  xIssue (.vneg p sat vd va ex mk ty) p (semVneg sat vd va ex mk ty) s

/-- VAND (R245). -/
def execVand (p : BitVec 4) (vd va vb : BitVec 6) (ex : BitVec 3) (mk : BitVec 1) (ty : BitVec 4) (s : State) : Out :=
  xIssue (.vand p vd va vb ex mk ty) p (semVand vd va vb ex mk ty) s

/-- VOR (R245). -/
def execVor (p : BitVec 4) (vd va vb : BitVec 6) (ex : BitVec 3) (mk : BitVec 1) (ty : BitVec 4) (s : State) : Out :=
  xIssue (.vor p vd va vb ex mk ty) p (semVor vd va vb ex mk ty) s

/-- VXOR (R245). -/
def execVxor (p : BitVec 4) (vd va vb : BitVec 6) (ex : BitVec 3) (mk : BitVec 1) (ty : BitVec 4) (s : State) : Out :=
  xIssue (.vxor p vd va vb ex mk ty) p (semVxor vd va vb ex mk ty) s

/-- VNOT (R245). -/
def execVnot (p : BitVec 4) (vd va : BitVec 6) (ex : BitVec 3) (mk : BitVec 1) (ty : BitVec 4) (s : State) : Out :=
  xIssue (.vnot p vd va ex mk ty) p (semVnot vd va ex mk ty) s

/-- VSHL (R246). -/
def execVshl (p : BitVec 4) (im : BitVec 1) (n vd va vb : BitVec 6) (ex : BitVec 3) (mk : BitVec 1) (ty : BitVec 4) (s : State) : Out :=
  xIssue (.vshl p im n vd va vb ex mk ty) p (semVshl im n vd va vb ex mk ty) s

/-- VSHR (R246). -/
def execVshr (p : BitVec 4) (im : BitVec 1) (n vd va vb : BitVec 6) (ex : BitVec 3) (mk : BitVec 1) (ty : BitVec 4) (s : State) : Out :=
  xIssue (.vshr p im n vd va vb ex mk ty) p (semVshr im n vd va vb ex mk ty) s

/-- VSRA (R246). -/
def execVsra (p : BitVec 4) (im : BitVec 1) (n vd va vb : BitVec 6) (ex : BitVec 3) (mk : BitVec 1) (ty : BitVec 4) (s : State) : Out :=
  xIssue (.vsra p im n vd va vb ex mk ty) p (semVsra im n vd va vb ex mk ty) s

/-- VCMP (R247). -/
def execVcmp (p : BitVec 4) (cc : BitVec 3) (vd va vb : BitVec 6) (ex : BitVec 3) (mk : BitVec 1) (ty : BitVec 4) (s : State) : Out :=
  xIssue (.vcmp p cc vd va vb ex mk ty) p (semVcmp cc vd va vb ex mk ty) s

/-- VSEL (R248). -/
def execVsel (p : BitVec 4) (vd va vb vc : BitVec 6) (ex : BitVec 3) (mk : BitVec 1) (ty : BitVec 4) (s : State) : Out :=
  xIssue (.vsel p vd va vb vc ex mk ty) p (semVsel vd va vb vc ex mk ty) s

/-- VMOV (R248). -/
def execVmov (p : BitVec 4) (vd va : BitVec 6) (ex : BitVec 3) (mk : BitVec 1) (ty : BitVec 4) (s : State) : Out :=
  xIssue (.vmov p vd va ex mk ty) p (semVmov vd va ex mk ty) s

/-- VBCAST (R248). -/
def execVbcast (p : BitVec 4) (gs : BitVec 5) (lf : BitVec 1) (j : BitVec 13) (vd va : BitVec 6) (ex : BitVec 3) (mk : BitVec 1) (ty : BitVec 4) (s : State) : Out :=
  xIssue (.vbcast p gs lf j vd va ex mk ty) p (semVbcast gs lf j vd va ex mk ty) s

/-- VIOTA (R248). -/
def execViota (p : BitVec 4) (gs : BitVec 5) (imm14 : BitVec 14) (vd : BitVec 6) (ex : BitVec 3) (mk : BitVec 1) (ty : BitVec 4) (s : State) : Out :=
  xIssue (.viota p gs imm14 vd ex mk ty) p (semViota gs imm14 vd ex mk ty) s

/-- VCVT (R249). -/
def execVcvt (p : BitVec 4) (st : BitVec 4) (vd va : BitVec 6) (ex : BitVec 3) (mk : BitVec 1) (ty : BitVec 4) (s : State) : Out :=
  xIssue (.vcvt p st vd va ex mk ty) p (semVcvt st vd va ex mk ty) s

/-- VPERM (R250). -/
def execVperm (p : BitVec 4) (vd va vb : BitVec 6) (ex : BitVec 3) (mk : BitVec 1) (ty : BitVec 4) (s : State) : Out :=
  xIssue (.vperm p vd va vb ex mk ty) p (semVperm vd va vb ex mk ty) s

/-- VNIB (R251). -/
def execVnib (p : BitVec 4) (vd va : BitVec 6) (ex : BitVec 3) (mk : BitVec 1) (ty : BitVec 4) (s : State) : Out :=
  xIssue (.vnib p vd va ex mk ty) p (semVnib vd va ex mk ty) s

/-- VZIP (R252). -/
def execVzip (p : BitVec 4) (vd va vb : BitVec 6) (ex : BitVec 3) (mk : BitVec 1) (ty : BitVec 4) (s : State) : Out :=
  xIssue (.vzip p vd va vb ex mk ty) p (semVzip vd va vb ex mk ty) s

/-- VUNZIP (R252). -/
def execVunzip (p : BitVec 4) (vd va : BitVec 6) (ex : BitVec 3) (mk : BitVec 1) (ty : BitVec 4) (s : State) : Out :=
  xIssue (.vunzip p vd va ex mk ty) p (semVunzip vd va ex mk ty) s

/-- VSLIDE (R253). -/
def execVslide (p : BitVec 4) (gs : BitVec 5) (vd va vb : BitVec 6) (ex : BitVec 3) (mk : BitVec 1) (ty : BitVec 4) (s : State) : Out :=
  xIssue (.vslide p gs vd va vb ex mk ty) p (semVslide gs vd va vb ex mk ty) s

/-- VGATH (R254). -/
def execVgath (p : BitVec 4) (x32 : BitVec 1) (n1 : BitVec 3) (vd va vb : BitVec 6) (ex : BitVec 3) (mk : BitVec 1) (ty : BitVec 4) (s : State) : Out :=
  xIssue (.vgath p x32 n1 vd va vb ex mk ty) p (semVgath x32 n1 vd va vb ex mk ty) s

/-- VSCAT (R254). -/
def execVscat (p : BitVec 4) (x32 : BitVec 1) (n1 : BitVec 3) (vd va vb : BitVec 6) (ex : BitVec 3) (mk : BitVec 1) (ty : BitVec 4) (s : State) : Out :=
  xIssue (.vscat p x32 n1 vd va vb ex mk ty) p (semVscat x32 n1 vd va vb ex mk ty) s

/-- VBMP (R255). -/
def execVbmp (p : BitVec 4) (orr : BitVec 1) (n1 : BitVec 3) (vd va : BitVec 6) (ex : BitVec 3) (mk : BitVec 1) (ty : BitVec 4) (s : State) : Out :=
  xIssue (.vbmp p orr n1 vd va ex mk ty) p (semVbmp orr n1 vd va ex mk ty) s

/-- VPOPC (R256). -/
def execVpopc (p : BitVec 4) (gs : BitVec 5) (mm : BitVec 1) (va : BitVec 6) (ex : BitVec 3) (mk : BitVec 1) (ty : BitVec 4) (s : State) : Out :=
  xIssue (.vpopc p gs mm va ex mk ty) p (semVpopc gs mm va ex mk ty) s

/-- MPUSH (R258). -/
def execMpush (p : BitVec 4) (cc : BitVec 3) (va vb : BitVec 6) (ex : BitVec 3) (ty : BitVec 4) (s : State) : Out :=
  xIssue (.mpush p cc va vb ex ty) p (semMpush cc va vb ex ty) s

/-- MINV (R258). -/
def execMinv (p : BitVec 4) (s : State) : Out :=
  xIssue (.minv p) p semMinv s

/-- MPOP (R258). -/
def execMpop (p : BitVec 4) (s : State) : Out :=
  xIssue (.mpop p) p semMpop s

/-- EXTS (R257). -/
def execExts (p : BitVec 4) (gs : BitVec 5) (im : BitVec 1) (n : BitVec 13) (ex : BitVec 3) (ty : BitVec 4) (s : State) : Out :=
  xIssue (.exts p gs im n ex ty) p (semExts gs im n ex ty) s

/-- VMOV with T (R248). -/
def execVmovTerm (p : BitVec 4) (vd : BitVec 6) (ex : BitVec 3) (s : State) : Out :=
  xIssue (.vmovTerm p vd ex) p (semVmovTerm vd ex) s

/-- BMZ: a taken branch when every bit of the top mask is 0 (R259). -/
def execBmz (p : BitVec 4) (imm14 : BitVec 14) (s : State) : Out :=
  issueSimple (.bmz p imm14) .X p (do
    let s ← get
    return if s.ctx.topMask = 0 then .branch ((s.ctx.x.pc + imm14.toInt).toNat) else .seq) s

end Sys2Proof.Machine
end

