-- ==== Sys2Proof/Machine/Special.lean ====
section
/-! DEFINITION. The special functions, reductions, draws, selection and distances of the execute engine, majors 0x60 to
0x6F (R262 to R279). A transcendental value is held between two bounds, which are narrowed until both round alike. -/

namespace Sys2Proof.Machine

/-! ### 2^x and log2 x between bounds (R265) -/

/-- Newton's iteration down to the integer square root. -/
def sqrtIter (n : Nat) : Nat → Nat → Nat
  | 0, x => x
  | f + 1, x =>
    let y := (x + n / x) / 2
    if y < x then sqrtIter n f y else x

/-- The greatest natural number whose square is at most n. -/
def sqrtFloor (n : Nat) : Nat := if n = 0 then 0 else sqrtIter n (Nat.log2 n + 2) (2 ^ (Nat.log2 n / 2 + 1))

/-- The factors 2^(1/2), 2^(1/4), … whose bit of the fraction `r` of k bits is set, multiplied: bounds with p bits below the
point. -/
def exp2Bounds (p r : Nat) : Nat → Nat → Nat → Nat → Nat → Nat × Nat
  | 0, _, _, lo, hi => (lo, hi)
  | k + 1, cl, ch, lo, hi =>
    let cl := sqrtFloor (cl * 2 ^ p)
    let ch := sqrtFloor (ch * 2 ^ p) + 1
    if r / 2 ^ k % 2 = 1 then exp2Bounds p r k cl ch (lo * cl / 2 ^ p) (hi * ch / 2 ^ p + 1)
    else exp2Bounds p r k cl ch lo hi

/-- Bounds of 2^(±m · 2^e) with p bits below the point, and the power of two that scales them. An exponent beyond ±1,024
is cut off there: no format reaches so far. -/
def exp2Approx (neg : Bool) (m : Nat) (e : Int) (p : Nat) : Nat × Nat × Int :=
  let k := (-e).toNat
  let v : Int := mantAt neg m e (min e 0)
  let n : Int := v / (2 ^ k : Nat)
  if n < -1024 ∨ 1024 < n then (2 ^ p, 2 ^ p, max (-1024) (min 1024 n))
  else
    let (lo, hi) := exp2Bounds p (v % (2 ^ k : Nat)).toNat k (2 * 2 ^ p) (2 * 2 ^ p) (2 ^ p) (2 ^ p)
    (lo, hi, n)

/-- Digits of log2 of a number between 1 and 2, given by bounds with p bits below the point: the digits found, as long as
both bounds agree on them, and how many. -/
def log2Digits (p : Nat) : Nat → Nat → Nat → Nat → Nat → Nat × Nat
  | 0, _, _, d, c => (d, c)
  | k + 1, lo, hi, d, c =>
    let lo := lo * lo / 2 ^ p
    let hi := hi * hi / 2 ^ p + 1
    if 2 * 2 ^ p ≤ lo then log2Digits p k (lo / 2) (hi / 2 + 1) (2 * d + 1) (c + 1)
    else if hi ≤ 2 * 2 ^ p then log2Digits p k lo hi (2 * d) (c + 1)
    else (d, c)

/-- The value of (lo + hi) / 2 · 2^(q), when both ends round alike. -/
def roundBetween (f : Fmt) (lo hi : Int) (q : Int) : Option (Nat × Flags) :=
  let v (x : Int) : Val := .fin (x < 0) x.natAbs q
  let a := f.round none false (v lo)
  let b := f.round none false (v hi)
  if a = b then some b else none

/-- The first precision, of those tried, whose bounds round alike (log 13). -/
def narrow (f : Nat → Option (Nat × Flags)) : List Nat → Nat × Flags
  | [] => (0, {})
  | p :: r => (f p).getD (narrow f r)

/-- The precisions tried. -/
def precisions : List Nat := [64, 192, 384, 768, 1536]

/-- 2^x, correctly rounded (R265). -/
def exp2Elem (f : Fmt) (a : Nat) : Nat × Flags :=
  match f.decode a with
  | .nan s => f.round none false (.nan s)
  | .inf neg => f.round none false (if neg then .fin false 0 0 else .inf false)
  | .fin neg m e =>
    let v := mantAt neg m e (min e 0)
    let k := (-e).toNat
    if v % (2 ^ k : Nat) = 0 then f.round none false (.fin false 1 (max (-1024) (min 1024 (v / (2 ^ k : Nat)))))
    else narrow (fun p => let (lo, hi, n) := exp2Approx neg m e p; roundBetween f lo hi (n - p)) precisions

/-- log2 x, correctly rounded (R265). -/
def log2Elem (f : Fmt) (a : Nat) : Nat × Flags :=
  match f.decode a with
  | .nan s => f.round none false (.nan s)
  | .inf neg => if neg then ((f.nan).getD 0, { nv := true }) else f.round none false (.inf false)
  | .fin neg m e =>
    if m = 0 then f.round none false (.inf true)
    else if neg then ((f.nan).getD 0, { nv := true })
    else
      let l := Nat.log2 m
      let k := (l : Int) + e
      if m = 2 ^ l then f.round none false (.ofInt k)
      else narrow (fun p =>
        let g := m * 2 ^ p / 2 ^ l
        let (d, c) := log2Digits p p g (g + (if g * 2 ^ l = m * 2 ^ p then 0 else 1)) 0 0
        let t := k * (2 ^ c : Nat) + d
        roundBetween f t (t + 1) (-(c : Int))) precisions

/-- The leading P bits of N · 2^q (N > 0). -/
def leading (P N : Nat) (q : Int) : Val :=
  let d := Nat.log2 N + 1 - P
  .fin false (N / 2 ^ d) (q + d)

/-- An approximation t of a positive value, with its range checks (R266): `big` and `small` are exact comparisons of t. -/
def approximate (f : Fmt) (neg big small : Bool) (t : Val) : Nat × Flags :=
  if big then (f.sign neg + (f.maxEnc + 1), { of := true })
  else if small then (f.sign neg, { uf := true })
  else (f.sign neg + (f.round none false t).1, {})

/-- The largest finite value of a format, and its least normal. -/
def Fmt.maxVal (f : Fmt) : Val := f.decode f.maxEnc
def Fmt.minVal (f : Fmt) : Val := .fin false 1 f.emin

/-- VRCPA of an element (R266, Table 12-3). -/
def rcpaElem (f : Fmt) (a : Nat) : Nat × Flags :=
  match f.decode a with
  | .nan s => f.round none false (.nan s)
  | .inf neg => (f.sign neg, {})
  | .fin neg m e =>
    if m = 0 then (f.sign neg + (f.maxEnc + 1), {})
    else
      let x : Val := .fin false m e
      let one : Val := .fin false 1 0
      let h := Nat.log2 m + 64
      approximate f neg ((x.mul f.maxVal).1.lt one) (one.lt (x.mul f.minVal).1)
        (leading (min 13 (f.m + 1)) (2 ^ h / m) (-(h : Int) - e))

/-- VRSQA of an element (R266, Table 12-3). -/
def rsqaElem (f : Fmt) (a : Nat) : Nat × Flags :=
  match f.decode a with
  | .nan s => f.round none false (.nan s)
  | .inf neg => if neg then ((f.nan).getD 0, { nv := true }) else (0, {})
  | .fin neg m e =>
    if m = 0 then (f.sign neg + (f.maxEnc + 1), {})
    else if neg then ((f.nan).getD 0, { nv := true })
    else
      let x : Val := .fin false m e
      let one : Val := .fin false 1 0
      let h := Nat.log2 m + 64
      let h := if ((h : Int) + e) % 2 = 0 then h else h + 1
      approximate f false ((x.mul (f.maxVal.mul f.maxVal).1).1.lt one) (one.lt (x.mul (f.minVal.mul f.minVal).1).1)
        (leading (min 13 (f.m + 1)) (sqrtFloor (2 ^ h / m)) (-(((h : Int) + e) / 2)))

/-- A special function over a group. -/
def specialSem (f : Fmt → Nat → Nat × Flags) (vd va : BitVec 6) (ex : BitVec 3) (mk : BitVec 1) (ty : BitVec 4) : XSem :=
  elementwise vd [va] ex mk ty (fun a _ _ => f (fmtOf ty.toNat) a)

def semVexp2 (vd va : BitVec 6) (ex : BitVec 3) (mk : BitVec 1) (ty : BitVec 4) : XSem := specialSem exp2Elem vd va ex mk ty
def semVlog2 (vd va : BitVec 6) (ex : BitVec 3) (mk : BitVec 1) (ty : BitVec 4) : XSem := specialSem log2Elem vd va ex mk ty
def semVrcpa (vd va : BitVec 6) (ex : BitVec 3) (mk : BitVec 1) (ty : BitVec 4) : XSem := specialSem rcpaElem vd va ex mk ty
def semVrsqa (vd va : BitVec 6) (ex : BitVec 3) (mk : BitVec 1) (ty : BitVec 4) : XSem := specialSem rsqaElem vd va ex mk ty

/-! ### Reductions (R267) -/

/-- The exponent of the least power of two at or above n. -/
def log2Up (n : Nat) : Nat := if n ≤ 1 then 0 else Nat.log2 (n - 1) + 1

/-- The elements that take part, by position: none for an absent one. -/
def present (on : Nat → Bool) : Nat → List Nat → List (Option Nat)
  | _, [] => []
  | i, a :: r => (if on i then some a else none) :: present on (i + 1) r

/-- A list made 2^n long with a filler. -/
def padTo {α : Type} (n : Nat) (d : α) (l : List α) : List α := l ++ List.replicate (2 ^ n - l.length) d

/-- An element of a float type as FP32: exact, a NaN becoming the canonical one with NV when it signals. -/
def toF32 (ty v : Nat) : Nat × Flags := fmtF32.round none false (decodeTy ty v)

/-- A tree of FMAX or FMIN: an absent side gives the other (R267). -/
def pairBest (greater : Bool) : List (Option Nat) → List (Option Nat) × Flags
  | a :: b :: r =>
    let (l, g) := pairBest greater r
    match a, b with
    | some x, some y => let (v, f) := fmtF32.minmax greater x y
                        (some v :: l, f.or g)
    | some x, none | none, some x => (some x :: l, g)
    | none, none => (none :: l, g)
  | l => (l, {})

/-- The tree over 2^n positions. -/
def treeBest (greater : Bool) : Nat → List (Option Nat) → Option Nat × Flags
  | 0, l => ((l.head?).getD none, {})
  | n + 1, l =>
    let (l', f) := pairBest greater l
    let (x, g) := treeBest greater n l'
    (x, f.or g)

/-- The FP32 forms of the elements that take part, and the flags of the conversion. -/
def presentF32 (ty : Nat) : List (Option Nat) → List (Option Nat) × Flags
  | [] => ([], {})
  | none :: r => let (l, g) := presentF32 ty r
                 (none :: l, g)
  | some a :: r =>
    let (l, g) := presentF32 ty r
    let (v, f) := toF32 ty a
    (some v :: l, f.or g)

/-- VRSUM of the elements that take part, over 2^n positions. -/
def sumOf (ty n : Nat) (l : List (Option Nat)) : Word × Flags :=
  if isIntTy ty then (BitVec.ofInt 64 (l.foldl (fun (t : Int) x => match x with | some a => t + intOf ty a | none => t) 0), {})
  else
    let (f, g) := presentF32 ty l
    let (v, h) := treeSum n (padTo n 0x80000000 (f.map fun x => x.getD 0x80000000))
    (BitVec.ofNat 64 v, g.or h)

/-- VRMAX or VRMIN of the elements that take part. -/
def bestOf (greater : Bool) (ty n : Nat) (l : List (Option Nat)) : Word × Flags :=
  if isIntTy ty then
    let start := if greater then intMin ty else intMax ty
    (BitVec.ofInt 64 (l.foldl (fun (t : Int) x => match x with
      | some a => if greater then max t (intOf ty a) else min t (intOf ty a)
      | none => t) start), {})
  else
    let (f, g) := presentF32 ty l
    let (v, h) := treeBest greater n (padTo n none f)
    (BitVec.ofNat 64 (v.getD (if greater then 0xFF800000 else 0x7F800000)), { nv := g.nv || h.nv })

/-- A reduction into X's register gs. -/
def reduceSem (f : Nat → Nat → List (Option Nat) → Word × Flags) (gs : BitVec 5) (va : BitVec 6) (ex : BitVec 3)
    (mk : BitVec 1) (ty : BitVec 4) : XSem :=
  let w := typeBits ty
  { ex, iw := w, limit := 6 * epr w, masked := mk = 1
    srcs := fun A => [{ code := va, n := groupSize w A }]
    body := fun x => do
      let (v, fl) := f ty.toNat (log2Up (groupSize w x.A * epr w)) (present x.on 0 (elems w x.a))
      modify fun s => s.raise fl
      setReg .X gs v
      return [] }

def semVrsum (gs : BitVec 5) (va : BitVec 6) (ex : BitVec 3) (mk : BitVec 1) (ty : BitVec 4) : XSem := reduceSem sumOf gs va ex mk ty
def semVrmax (gs : BitVec 5) (va : BitVec 6) (ex : BitVec 3) (mk : BitVec 1) (ty : BitVec 4) : XSem :=
  reduceSem (bestOf true) gs va ex mk ty
def semVrmin (gs : BitVec 5) (va : BitVec 6) (ex : BitVec 3) (mk : BitVec 1) (ty : BitVec 4) : XSem :=
  reduceSem (bestOf false) gs va ex mk ty

/-! ### Draw records and the coin (R268 to R270) -/

/-- A draw record (Table 12-4): index, flags of bits 35:32, and m and s as FP32 encodings. -/
structure DrawRec where
  index : Nat
  flags : Nat
  m : Nat
  s : Nat
  deriving DecidableEq, Repr, Inhabited

/-- FP32 negative infinity and 1.0. -/
def negInf32 : Nat := 0xFF800000
def one32 : Nat := 0x3F800000

/-- ZeroRec (R268, R270). -/
def zeroRec (flags : Nat) : DrawRec := ⟨0xFFFFFFFF, flags, negInf32, 0⟩

/-- RN: rounded to FP32, no flag (R270). -/
def rn (v : Val × Bool) : Nat := (fmtF32.round none false v.1).1

/-- Zero mass (R268). -/
def DrawRec.zero (r : DrawRec) : Bool := (fmtF32.decode r.s).isZero || r.m = negInf32

/-- m NaN, or s NaN, infinite or below zero (R270). -/
def DrawRec.invalid (r : DrawRec) : Bool :=
  (fmtF32.decode r.m).isNan ||
    match fmtF32.decode r.s with
    | .nan _ | .inf _ => true
    | .fin neg m _ => neg && m ≠ 0

/-- Mix64 (R270). -/
def mix64 (key ctr : Word) : Nat :=
  let z := key ^^^ (ctr * 0xA24BAED4963EE407#64)
  let z := (z ^^^ (z >>> 29)) * 0x9FB21C651E98DF25#64
  bits (z ^^^ (z >>> 32)) 63 40

/-- Combine: m, the second scaled mass, and the sum (R270). -/
def combine (a b : DrawRec) : Nat × Nat × Nat :=
  let ma := fmtF32.decode a.m
  let mb := fmtF32.decode b.m
  let m := (fmtF32.minmax true a.m b.m).1
  let top := fmtF32.decode m
  let scale (r : DrawRec) (v : Val) : Nat :=
    let d := if v.feq top then 0 else rn (v.add top.neg)
    rn ((fmtF32.decode r.s).mul (fmtF32.decode (exp2Elem fmtF32 d).1))
  let sa := scale a ma
  let sb := scale b mb
  (m, sb, rn ((fmtF32.decode sa).add (fmtF32.decode sb)))

/-- Merge (R270); the flag is NV. -/
def merge (a b : DrawRec) (key ctr : Word) : DrawRec × Bool :=
  let fl := (a.flags ||| b.flags) &&& 0b1110
  if a.invalid || b.invalid then (zeroRec (fl ||| 0b1001), true)
  else if a.zero && b.zero then (zeroRec (fl ||| 0b0001), false)
  else if b.zero then ({ a with flags := fl }, false)
  else if a.zero then ({ b with flags := fl }, false)
  else if fl / 4 % 2 = 1 then
    (if (fmtF32.decode a.m).lt (fmtF32.decode b.m) then { b with flags := fl } else { a with flags := fl }, false)
  else
    let (m, sb, s) := combine a b
    let u := mix64 key ctr
    let second := s ≠ 0x7F800000 &&
      ((Val.fin false u 0).mul (fmtF32.decode s)).1.lt ((fmtF32.decode sb).mul (.fin false 1 24)).1
    (⟨if second then b.index else a.index, fl, m, s⟩, false)

/-- One level of a tree of merges: adjacent records, the j-th pair from `k` on being node k + j. -/
def mergePairs (f : DrawRec → DrawRec → Nat → DrawRec × Bool) : Nat → List DrawRec → List DrawRec × Bool
  | k, a :: b :: r =>
    let (x, v) := f a b k
    let (l, v') := mergePairs f (k + 1) r
    (x :: l, v || v')
  | _, l => (l, false)

/-- The heap-ordered tree over 2^n leaves: node k merges nodes 2k and 2k + 1 (R271). -/
def mergeTree (f : DrawRec → DrawRec → Nat → DrawRec × Bool) : Nat → List DrawRec → DrawRec × Bool
  | 0, l => ((l.head?).getD (zeroRec 1), false)
  | n + 1, l =>
    let (l', v) := mergePairs f (2 ^ n) l
    let (x, v') := mergeTree f n l'
    (x, v || v')

/-- The parameter block of a register (Table 12-5). -/
structure DrawPar where
  key : Word
  sid : Nat
  nodeb : Nat
  beta : Nat
  deriving DecidableEq, Repr

def drawPar (r : Wide) : DrawPar :=
  ⟨r.extractLsb' 0 64, (r.extractLsb' 64 32).toNat, (r.extractLsb' 96 32).toNat, (r.extractLsb' 128 32).toNat⟩

/-- The counter of a node (R271). -/
def DrawPar.ctr (p : DrawPar) (k : Nat) : Word := BitVec.ofNat 64 (p.sid * 2 ^ 32 + (p.nodeb + k) % 2 ^ 32)

/-- Record j of a register (R268). -/
def recordAt (r : Wide) (j : Nat) : DrawRec :=
  let v := (r.extractLsb' (128 * j) 128).toNat
  ⟨v % 2 ^ 32, v / 2 ^ 32 % 16, v / 2 ^ 64 % 2 ^ 32, v / 2 ^ 96⟩

/-- A record's 16 bytes as a number. -/
def DrawRec.code (r : DrawRec) : Nat := r.index % 2 ^ 32 + 2 ^ 32 * r.flags + 2 ^ 64 * r.m + 2 ^ 96 * r.s

/-- Records written from slot 0 on, where `on` holds. -/
def writeRecords (old : Wide) (on : Nat → Bool) (l : List DrawRec) : Wide :=
  pack 128 (blend on (unpack 128 old) (l.map DrawRec.code))

/-- A leaf of VDRAW from logit x of lane `id` (R271), and NV. -/
def drawLeaf (ty beta id x : Nat) : DrawRec × Bool :=
  let v := decodeTy ty x
  let b := fmtF32.decode beta
  match v with
  | .nan sig => (zeroRec 3, sig)
  | .inf true => (zeroRec 1, false)
  | v =>
    if b = .inf false then (⟨id, 4, (fmtF32.round none false v).1, one32⟩, false)
    else if b.isZero then (⟨id, 0, 0, one32⟩, false)
    else
      let y := rn (v.mul b)
      (if y = negInf32 then zeroRec 1 else ⟨id, 0, y, one32⟩, false)

/-- The leaves of VDRAW in lane order. -/
def drawLeaves (ty beta : Nat) : List (Option Nat) → List Nat → List DrawRec × Bool
  | [], _ => ([], false)
  | o :: r, ids =>
    let (l, v) := drawLeaves ty beta r ids.tail
    match o with
    | none => (zeroRec 1 :: l, v)
    | some x => let (d, w) := drawLeaf ty beta (ids.headD 0) x
                (d :: l, v || w)

/-- β that is NaN or below zero (−0 counts as 0). -/
def badBeta (beta : Nat) : Bool :=
  match fmtF32.decode beta with
  | .nan _ => true
  | .inf neg => neg
  | .fin neg m _ => neg && m ≠ 0

def semVdraw (idx : BitVec 1) (slot : BitVec 5) (vd va vb vc : BitVec 6) (ex : BitVec 3) (mk : BitVec 1) (ty : BitVec 4) : XSem :=
  let w := typeBits ty
  { ex, iw := w, limit := 6 * epr w, masked := mk = 1
    dst := fun _ => some { code := vd, n := 1 }
    srcs := fun A => [{ code := va, n := groupSize w A }, { code := vb, n := 1 }]
      ++ (if idx = 1 then [{ code := vc, n := max 1 ((A + 127) / 128) }] else [])
    body := fun x => do
      let p := drawPar (x.b.headD 0)
      let n := log2Up (groupSize w x.A * epr w)
      let ids := if idx = 1 then elems 32 x.c else List.range (2 ^ n)
      let (r, nv) : DrawRec × Bool :=
        if badBeta p.beta then (zeroRec 0b1001, true)
        else
          let (l, v) := drawLeaves ty.toNat p.beta (present x.on 0 (elems w x.a)) ids
          let (r, v') := mergeTree (fun a b k => merge a b p.key (p.ctr k)) n (padTo n (zeroRec 1) l)
          (r, v || v')
      modify fun s => s.raise { nv }
      return [writeRecords (x.old.headD 0) (fun j => j = slot.toNat) (List.replicate 32 r)] }

def semVdmerge (tree : BitVec 1) (vd va vb vc : BitVec 6) : XSem :=
  { dst := fun _ => some { code := vd, n := 1 }
    srcs := fun _ => [{ code := va, n := 1 }] ++ (if tree = 1 then [] else [{ code := vb, n := 1 }]) ++ [{ code := vc, n := 1 }]
    body := fun x => do
      let p := drawPar ((if tree = 1 then x.b else x.c).headD 0)
      let a := upTo 32 (recordAt (x.a.headD 0))
      let f := fun a b k => merge a b p.key (p.ctr k)
      if tree = 1 then
        let (r, nv) := mergeTree f 5 a
        modify fun s => s.raise { nv }
        return [writeRecords (x.old.headD 0) (fun j => j = 0) [r]]
      else
        let (l, nv) := mergePairs f 0 (weave [a, upTo 32 (recordAt (x.b.headD 0))] 32)
        modify fun s => s.raise { nv }
        return [writeRecords (x.old.headD 0) (fun _ => true) l] }

/-! ### The selection unit (R274 to R277) -/

/-- The unit's type as a number. -/
def Sel.code (u : Sel) : Nat := u.ty.toNat

/-- MASSV (Table 12-6). -/
def Sel.massv (u : Sel) : Bool := u.mass && !u.invb

/-- A key's value: FP32 for a float type, else the 32-bit integer (R275). -/
def Sel.value (u : Sel) (k : BitVec 32) : Val := if isIntTy u.code then .ofInt (intOf u.code k.toNat) else fmtF32.decode k.toNat

/-- Pair a is better than pair b that was offered before it (R275). -/
def Sel.better (u : Sel) (a b : BitVec 32 × BitVec 32) : Bool :=
  let x := u.value a.1
  let y := u.value b.1
  if x.feq y then a.2.ult b.2 else if u.dir then x.lt y else y.lt x

/-- A pair put in its place in the order of betterness. -/
def Sel.insert (u : Sel) (a : BitVec 32 × BitVec 32) : List (BitVec 32 × BitVec 32) → List (BitVec 32 × BitVec 32)
  | [] => [a]
  | b :: r => if u.better a b then a :: b :: r else b :: u.insert a r

/-- A pair offered (R275). -/
def Sel.offer (u : Sel) (key idx : BitVec 32) : Sel :=
  let u := { u with fed := (u.fed + 1) % 2 ^ 32 }
  if (u.value key).isNan then { u with nank := 1 }
  else { u with trunc := u.trunc || decide (u.list.length = u.k), list := (u.insert (key, idx) u.list).take u.k }

/-- MassMerge: Merge with no coin and no index (R275); the flag is NV. -/
def massMerge (a b : DrawRec) : DrawRec × Bool := merge a b 0 0

/-- A mass as a record. -/
def massRec (m s : Nat) : DrawRec := ⟨0, 0, m, s⟩

/-- The mass leaf of a key (R275). -/
def Sel.leaf (u : Sel) (key : BitVec 32) : DrawRec :=
  match u.value key with
  | .nan _ | .inf true => zeroRec 1
  | v =>
    let b := fmtF32.decode u.beta.toNat
    massRec (if b.isZero then 0 else rn (v.mul b)) one32

/-- The running mass. -/
def Sel.running (u : Sel) : DrawRec := massRec u.m.toNat u.s.toNat

/-- The running mass merged with another. -/
def Sel.addMass (u : Sel) (r : DrawRec) : Sel × Bool :=
  let (x, nv) := massMerge u.running r
  ({ u with m := BitVec.ofNat 32 x.m, s := BitVec.ofNat 32 x.s }, nv)

/-- The unit changed. -/
def State.setSel (s : State) (u : Sel) : State := s.modCtx fun c => { c with xu := { c.xu with sel := some u } }

def semSelinit (gs : BitVec 5) (mass dir : BitVec 1) (k1 : BitVec 8) (ty : BitVec 4) : XSem :=
  { body := fun _ => do
      let s ← get
      let beta := (s.reg .X gs).setWidth 32
      set (s.setSel { ty, k := k1.toNat + 1, dir := dir = 1, mass := mass = 1, beta, m := BitVec.ofNat 32 negInf32
                      invb := mass = 1 && (badBeta beta.toNat || beta = 0x7F800000#32) })
      return [] }

/-- X engine cause 6 (R264): the unit uninitialised, or of another type. -/
def needsSel (ty : Option (BitVec 4)) : Act Unit := do
  match (← get).ctx.xu.sel, ty with
  | none, _ => trap 7 6
  | some u, some t => trapIf (u.ty ≠ t) 7 6
  | some _, none => pure ()

/-- Keys offered from a base index, in ascending position. -/
def Sel.feed (ty base : Nat) : Nat → List (Option Nat) → Sel → Sel
  | _, [], u => u
  | i, none :: r, u => Sel.feed ty base (i + 1) r u
  | i, some k :: r, u => Sel.feed ty base (i + 1) r (u.offer (BitVec.ofNat 32 k) (BitVec.ofNat 32 (base + i)))

def semSelfeed (gs : BitVec 5) (va : BitVec 6) (ex : BitVec 3) (mk : BitVec 1) (ty : BitVec 4) : XSem :=
  let w := typeBits ty
  { ex, iw := w, limit := 6 * epr w, masked := mk = 1
    srcs := fun A => [{ code := va, n := groupSize w A }]
    extra := needsSel (some ty)
    body := fun x => do
      let s ← get
      match s.ctx.xu.sel with
      | none => trap 7 6
      | some u =>
        let keys := present x.on 0 (elems w x.a)
        let keys := if isIntTy ty.toNat then keys else (presentF32 ty.toNat keys).1
        let u := Sel.feed ty.toNat (bits (s.reg .X gs) 31 0) 0 keys u
        let n := log2Up (groupSize w x.A * epr w)
        let leaves := padTo n (zeroRec 1) (keys.map fun k => match k with
          | some k => u.leaf (BitVec.ofNat 32 k)
          | none => zeroRec 1)
        let u := if u.massv then (u.addMass (mergeTree (fun a b _ => massMerge a b) n leaves).1).1 else u
        set (s.setSel u)
        return [] }

/-- s_a · 2^(m_a) < θ · s_b · 2^(m_b) on exact values, for two masses and θ = th / 2^14 (R276). -/
def massBelow (a b : DrawRec) (th : Nat) : Bool :=
  if th = 0 || b.zero then false
  else if a.zero then true
  else
    let right := ((fmtF32.decode b.s).mul (.fin false th (-14))).1
    match (fmtF32.decode a.m).add (fmtF32.decode b.m).neg with
    | (.fin neg m e, _) =>
      let left := fmtF32.decode a.s
      let v := mantAt neg m e (min e 0)
      let k := (-e).toNat
      if v % (2 ^ k : Nat) = 0 then (left.mul (.fin false 1 (max (-1024) (min 1024 (v / (2 ^ k : Nat)))))).1.lt right
      else
        match left, right with
        | .fin _ x f, .fin _ y g => scaledBelow x f y g neg m e precisions
        | .fin _ _ _, .inf neg => !neg
        | _, _ => false
    | (.inf neg, _) => neg
    | (.nan _, _) => false
where
  /-- x · 2^f · 2^(±m · 2^e) < y · 2^g by bounds. -/
  scaledBelow (x : Nat) (f : Int) (y : Nat) (g : Int) (neg : Bool) (m : Nat) (e : Int) : List Nat → Bool
    | [] => false
    | p :: r =>
      let (lo, hi, n) := exp2Approx neg m e p
      let side (z : Nat) : Val := .fin false (x * z) (f + (n - p))
      let right : Val := .fin false y g
      if (side hi).lt right then true else if right.lt (side lo) then false else scaledBelow x f y g neg m e r

/-- Registers of the block of a capacity (R276). -/
def blockRegs (k : Nat) : Nat := (16 + 8 * k + 511) / 512

/-- The first doubleword of a selection block (Table 12-6). -/
def Sel.head (u : Sel) (slow : Bool) : Nat :=
  u.list.length + 2 ^ 11 * bit slow + 2 ^ 12 * u.nank + 2 ^ 13 * bit u.trunc + 2 ^ 14 * bit u.massv + 2 ^ 15 * bit u.invb + 2 ^ 32 * u.fed

def semSeldrain (s : State) (th : BitVec 14) (vd vc : BitVec 6) : XSem :=
  let regs := blockRegs ((s.ctx.xu.sel.map (·.k)).getD 1)
  { dst := fun _ => some { code := vd, n := regs }
    srcs := fun _ => [{ code := vc, n := 1 }]
    extra := needsSel none
    body := fun x => do
      match (← get).ctx.xu.sel with
      | none => trap 7 6
      | some u =>
        let old := (x.a.headD 0).getLsbD 11
        let short := padTo 6 (zeroRec 1) ((u.list.take 64).map fun p => u.leaf p.1)
        let positive := match fmtF32.decode u.s.toNat with
          | .fin neg m _ => !neg && m ≠ 0
          | .inf neg => !neg
          | .nan _ => false
        let (mass, nv) := mergeTree (fun a b _ => massMerge a b) 6 short
        let tested := u.massv && positive
        if tested then modify fun s => s.raise { nv } else pure ()
        let slow := old || (tested && massBelow mass u.running th.toNat)
        let dw1 := if u.massv then u.m.toNat + 2 ^ 32 * u.s.toNat else negInf32
        return regsOf 64 regs (u.head slow :: dw1 :: u.list.map fun p => p.1.toNat + 2 ^ 32 * p.2.toNat) }

/-- The pairs of a block offered in order (R277). -/
def Sel.offerAll (u : Sel) (l : List Nat) : Sel :=
  l.foldl (fun u x => u.offer (BitVec.ofNat 32 x) (BitVec.ofNat 32 (x / 2 ^ 32))) u

def semSelmrg (n1 : BitVec 3) (va : BitVec 6) (ty : BitVec 4) : XSem :=
  { srcs := fun _ => [{ code := va, n := n1.toNat + 1 }]
    extra := needsSel (some ty)
    body := fun x => do
      let s ← get
      match s.ctx.xu.sel with
      | none => trap 7 6
      | some u =>
        let dws := elems 64 x.a
        let h := dws.getD 0 0
        let n := min (h % 512) (64 * (n1.toNat + 1) - 2)
        let u := u.offerAll ((dws.drop 2).take n)
        let u := { u with nank := max u.nank (fieldOf h 12 12), trunc := u.trunc || fieldOf h 13 13 = 1, invb := u.invb || fieldOf h 15 15 = 1 }
        let d := dws.getD 1 0
        let (u, nv) := if u.massv && fieldOf h 14 14 = 1 then u.addMass (massRec (d % 2 ^ 32) (d / 2 ^ 32)) else (u, false)
        set ((s.setSel u).raise { nv })
        return [] }

/-! ### Distances (R278) -/

/-- One score of a row against the query. -/
def score (ty : Nat) (square : Bool) (row query : List Nat) : Nat × Flags :=
  let terms := (List.zip row query).map fun p =>
    let a := decodeTy ty p.1
    let b := decodeTy ty p.2
    if square then
      let (d, i) := a.add b.neg
      let (q, j) := d.mul d
      (q, i || j)
    else a.mul b
  if isIntTy ty then
    match (exactSum terms).1 with
    | .fin neg m e => (encInt 32 (mantAt neg m e (min e 0)), {})
    | _ => (0, {})
  else fmtF32.finish none false (exactSum terms)

def distance (square : Bool) (dim : BitVec 12) (vd va vb : BitVec 6) (ex : BitVec 3) (mk : BitVec 1) (ty : BitVec 4) : XSem :=
  let w := typeBits ty
  let D := dim.toNat
  { ex, iw := 32, limit := min (6 * epr 32) (6 * epr w / D), masked := mk = 1
    dst := fun A => some { code := vd, n := max 1 ((A + 127) / 128) }
    srcs := fun A => [{ code := va, n := max 1 ((A * D + epr w - 1) / epr w) }, { code := vb, n := 1 }]
    body := fun x => do
      let query := (elems w x.b).take D
      let rows := chunks D (elems w x.a) x.A
      let scores := rows.map fun r => score ty.toNat square r query
      modify fun s => s.raise ((scores.zipIdx.filter fun y => x.on y.2).foldl (fun f y => f.or y.1.2) {})
      return regsOf 32 x.old.length (blend x.on (elems 32 x.old) (scores.map (·.1))) }

def semVdotq (dim : BitVec 12) (vd va vb : BitVec 6) (ex : BitVec 3) (mk : BitVec 1) (ty : BitVec 4) : XSem :=
  distance false dim vd va vb ex mk ty
def semVl2q (dim : BitVec 12) (vd va vb : BitVec 6) (ex : BitVec 3) (mk : BitVec 1) (ty : BitVec 4) : XSem :=
  distance true dim vd va vb ex mk ty

/-! ### The meanings -/

/-- VEXP2 (R265). -/
def execVexp2 (p : BitVec 4) (vd va : BitVec 6) (ex : BitVec 3) (mk : BitVec 1) (ty : BitVec 4) (s : State) : Out :=
  xIssue (.vexp2 p vd va ex mk ty) p (semVexp2 vd va ex mk ty) s

/-- VLOG2 (R265). -/
def execVlog2 (p : BitVec 4) (vd va : BitVec 6) (ex : BitVec 3) (mk : BitVec 1) (ty : BitVec 4) (s : State) : Out :=
  xIssue (.vlog2 p vd va ex mk ty) p (semVlog2 vd va ex mk ty) s

/-- VRCPA (R266). -/
def execVrcpa (p : BitVec 4) (vd va : BitVec 6) (ex : BitVec 3) (mk : BitVec 1) (ty : BitVec 4) (s : State) : Out :=
  xIssue (.vrcpa p vd va ex mk ty) p (semVrcpa vd va ex mk ty) s

/-- VRSQA (R266). -/
def execVrsqa (p : BitVec 4) (vd va : BitVec 6) (ex : BitVec 3) (mk : BitVec 1) (ty : BitVec 4) (s : State) : Out :=
  xIssue (.vrsqa p vd va ex mk ty) p (semVrsqa vd va ex mk ty) s

/-- VRSUM (R267). -/
def execVrsum (p : BitVec 4) (gs : BitVec 5) (va : BitVec 6) (ex : BitVec 3) (mk : BitVec 1) (ty : BitVec 4) (s : State) : Out :=
  xIssue (.vrsum p gs va ex mk ty) p (semVrsum gs va ex mk ty) s

/-- VRMAX (R267). -/
def execVrmax (p : BitVec 4) (gs : BitVec 5) (va : BitVec 6) (ex : BitVec 3) (mk : BitVec 1) (ty : BitVec 4) (s : State) : Out :=
  xIssue (.vrmax p gs va ex mk ty) p (semVrmax gs va ex mk ty) s

/-- VRMIN (R267). -/
def execVrmin (p : BitVec 4) (gs : BitVec 5) (va : BitVec 6) (ex : BitVec 3) (mk : BitVec 1) (ty : BitVec 4) (s : State) : Out :=
  xIssue (.vrmin p gs va ex mk ty) p (semVrmin gs va ex mk ty) s

/-- VDRAW (R271). -/
def execVdraw (p : BitVec 4) (idx : BitVec 1) (slot : BitVec 5) (vd va vb vc : BitVec 6) (ex : BitVec 3) (mk : BitVec 1)
    (ty : BitVec 4) (s : State) : Out :=
  xIssue (.vdraw p idx slot vd va vb vc ex mk ty) p (semVdraw idx slot vd va vb vc ex mk ty) s

/-- VDMERGE (R272). -/
def execVdmerge (p : BitVec 4) (tree : BitVec 1) (vd va vb vc : BitVec 6) (s : State) : Out :=
  xIssue (.vdmerge p tree vd va vb vc) p (semVdmerge tree vd va vb vc) s

/-- SELINIT (R274). -/
def execSelinit (p : BitVec 4) (gs : BitVec 5) (mass dir : BitVec 1) (k1 : BitVec 8) (ty : BitVec 4) (s : State) : Out :=
  xIssue (.selinit p gs mass dir k1 ty) p (semSelinit gs mass dir k1 ty) s

/-- SELFEED (R275). -/
def execSelfeed (p : BitVec 4) (gs : BitVec 5) (va : BitVec 6) (ex : BitVec 3) (mk : BitVec 1) (ty : BitVec 4) (s : State) : Out :=
  xIssue (.selfeed p gs va ex mk ty) p (semSelfeed gs va ex mk ty) s

/-- SELDRAIN (R276). -/
def execSeldrain (p : BitVec 4) (th : BitVec 14) (vd vc : BitVec 6) (s : State) : Out :=
  xIssue (.seldrain p th vd vc) p (semSeldrain s th vd vc) s

/-- SELMRG (R277). -/
def execSelmrg (p : BitVec 4) (n1 : BitVec 3) (va : BitVec 6) (ty : BitVec 4) (s : State) : Out :=
  xIssue (.selmrg p n1 va ty) p (semSelmrg n1 va ty) s

/-- VDOTQ (R278). -/
def execVdotq (p : BitVec 4) (dim : BitVec 12) (vd va vb : BitVec 6) (ex : BitVec 3) (mk : BitVec 1) (ty : BitVec 4) (s : State) : Out :=
  xIssue (.vdotq p dim vd va vb ex mk ty) p (semVdotq dim vd va vb ex mk ty) s

/-- VL2Q (R278). -/
def execVl2q (p : BitVec 4) (dim : BitVec 12) (vd va vb : BitVec 6) (ex : BitVec 3) (mk : BitVec 1) (ty : BitVec 4) (s : State) : Out :=
  xIssue (.vl2q p dim vd va vb ex mk ty) p (semVl2q dim vd va vb ex mk ty) s

end Sys2Proof.Machine
end

