-- ==== Sys2Proof/Machine/Finish.lean ====
section
/-! DEFINITION. The finishing engine F (R292 to R302). -/

namespace Sys2Proof.Machine

/-- F cause 1: a tile that is not HELD (R294). -/
def needsHeld (zt : BitVec 7) : Act Unit := do trapIf (decide (((← get).ctx.tile zt.toNat).st ≠ .held)) 9 1

/-- The first row that an instruction reads: gs + off, taken as a natural 64-bit value (R294). -/
def State.row0 (s : State) (gs : BitVec 5) (off : BitVec 6) : Nat := (s.reg .F gs + off.setWidth 64).toNat

/-- F cause 2: the rows are out of range (R294). -/
def needsRows (gs : BitVec 5) (off n1 : BitVec 6) (perEntry : Nat) : Act Unit := do
  trapIf (decide (perEntry < n1.toNat + 1) || decide (64 < (← get).row0 gs off + n1.toNat + 1)) 9 2

/-- A tile is released (R289). -/
def Ctx.release (c : Ctx) (zt : BitVec 7) : Ctx := c.setTile zt.toNat { c.tile zt.toNat with st := .array }

/-- A register that holds bytes, the rest zero. -/
def wideOf (l : List Byte) : Wide := BitVec.ofNat 4096 (ofBytes l)

/-- The bytes of a register. -/
def wideBytes (w : Wide) : List Byte := upTo 512 fun i => w.extractLsb' (8 * i) 8

/-- An entry of LEN granules (R175). -/
def entryOf (len : Nat) (d : Wide) : Slot := { full := true, len, data := d }

/-- Element (r, j) of a tile. -/
def Tile.elem (t : Tile) (r j : Nat) : Nat := (t.z.get 0 (64 * r + j)).toNat

/-- The elements of n rows, row by row. -/
def Tile.rows (t : Tile) (row0 n : Nat) : List (Nat × Nat) := (upTo n fun r => upTo 64 fun j => (j, t.elem (row0 + r) j)).flatten

/-- The next 16 bits of the generator (R298). -/
def FUnit.draw (f : FUnit) : Nat × FUnit := (mix64 f.key f.ctr / 2 ^ 8 % 2 ^ 16, { f with ctr := f.ctr + 1 })

/-- Elements converted in order: channel scale and bias, then the conversion, which takes generator bits when the rounding
is stochastic (R295). -/
def convertRows (ty : Nat) (sr sb sat : Bool) : List (Nat × Nat) → FUnit → List Nat × Flags × FUnit
  | [], f => ([], {}, f)
  | (j, e) :: r, f =>
    let z := fmtF32.decode e
    let (v, inv) : Val × Bool :=
      if sb then z.fma (fmtF32.decode (f.cs.get 0x3F800000#32 j).toNat) (fmtF32.decode (f.cb.get 0 j).toNat) else (z, false)
    let (mode, f) : Mode × FUnit := if sr then (some f.draw.1, f.draw.2) else (none, f)
    let (y, g) := encodeTy ty mode sat v
    let (l, h, f) := convertRows ty sr sb sat r f
    (y :: l, (({ g with nv := g.nv || inv } : Flags).or h), f)

/-- ZCNV (R295, R302). -/
def execZcnv (p : BitVec 4) (gs : BitVec 5) (zt : BitVec 7) (q : BitVec 5) (ty : BitVec 4) (rnd : BitVec 2) (rel sb : BitVec 1)
    (n1 off : BitVec 6) (s : State) : Out :=
  let w := typeBits ty
  issue (.zcnv p gs zt q ty rnd rel sb n1 off) .F p (fun _ => { frees := [(q.toNat, 1)] })
    (do needsHeld zt
        needsRows gs off n1 (64 / w))
    (fun _ => do
      let s ← get
      let c := s.ctx
      let n := n1.toNat + 1
      let (l, fl, fu) := convertRows ty.toNat (rnd = 1) (sb = 1) c.csr.sat ((c.tile zt.toNat).rows (s.row0 gs off) n) c.fu
      let c := ({ c with fu } : Ctx).push q.toNat (entryOf (n * w / 2) (pack w l))
      set ((s.modCtx fun _ => if rel = 1 then c.release zt else c).raise fl)
      return .seq) s

/-- A terminal entry pushed to a store queue (R97, R300). -/
def pushTerminal (i : Instr) (p : BitVec 4) (q : BitVec 5) (s : State) : Out :=
  issue i .F p (fun _ => { frees := [(q.toNat, 1)] }) (pure ()) (fun _ => do
    modify fun s => s.modCtx fun c => c.push q.toNat ({ full := true, term := true } : Slot)
    return .seq) s

/-- ZCNV.term (R295). -/
def execZcnvTerm (p : BitVec 4) (q : BitVec 5) (s : State) : Out := pushTerminal (.zcnvTerm p q) p q s

/-- An instruction that pops one fq entry and acts on its register. -/
def fqIssue (i : Instr) (p : BitVec 4) (fq : BitVec 1) (frees : List (Nat × Nat)) (f : Wide → Ctx → Ctx) (s : State) : Out :=
  let q := 4 + fq.toNat
  issue i .F p (fun _ => { reads := [(q, 1)], frees }) (pure ()) (fun _ => do
    let s ← get
    let d := ((s.ctx.queue q).head?.map (·.data)).getD 0
    set ((s.popQueue q 1).modCtx (f d))
    return .seq) s

/-- ZCOMP: two blocks, of bytes 0 to 255 and of bytes 256 to 511 (R296). -/
def execZcomp (p : BitVec 4) (fq : BitVec 1) (q : BitVec 5) (ty : BitVec 4) (s : State) : Out :=
  fqIssue (.zcomp p fq q ty) p fq [(q.toNat, 2)] (fun d c =>
    let b := wideBytes d
    let blk (l : List Byte) : Slot := let e := vbcEncode ty.toNat l
                                      entryOf (e.length / 16) (wideOf e)
    (c.push q.toNat (blk (b.take 256))).push q.toNat (blk (b.drop 256))) s

/-- ZCOMP.term (R296). -/
def execZcompTerm (p : BitVec 4) (q : BitVec 5) (s : State) : Out := pushTerminal (.zcompTerm p q) p q s

/-- ZCLR (R297). -/
def execZclr (p : BitVec 4) (zt : BitVec 7) (s : State) : Out :=
  issue (.zclr p zt) .F p (fun _ => {}) (needsHeld zt) (fun _ => do
    modify fun s => s.modCtx fun c => (c.setTile zt.toNat { c.tile zt.toNat with z := [], live := true }).release zt
    return .seq) s

/-- ZRD: FP32 patterns of at most two rows (R295). -/
def execZrd (p : BitVec 4) (gs : BitVec 5) (zt : BitVec 7) (q : BitVec 5) (rel : BitVec 1) (n1 off : BitVec 6) (s : State) : Out :=
  issue (.zrd p gs zt q rel n1 off) .F p (fun _ => { frees := [(q.toNat, 1)] })
    (do needsHeld zt
        needsRows gs off n1 2)
    (fun _ => do
      let s ← get
      let n := n1.toNat + 1
      let l := ((s.ctx.tile zt.toNat).rows (s.row0 gs off) n).map (·.2)
      let c := s.ctx.push q.toNat (entryOf (16 * n) (pack 32 l))
      set (s.modCtx fun _ => if rel = 1 then c.release zt else c)
      return .seq) s

/-- The finishing engine's fingerprint with bytes absorbed (R299). -/
def Ctx.absorb (c : Ctx) (ty : Nat) (l : List Byte) (n : Nat) : Ctx :=
  let fp := c.fu.fp.absorbBytes ty l
  { c with fu := { c.fu with fp := { fp with bytes := (fp.bytes + n) % 2 ^ 64 } } }

/-- FPRT.tile (R299). -/
def execFprtTile (p : BitVec 4) (zt : BitVec 7) (s : State) : Out :=
  issue (.fprtTile p zt) .F p (fun _ => {}) (needsHeld zt) (fun _ => do
    modify fun s => s.modCtx fun c =>
      c.absorb 14 ((c.tile zt.toNat).rows 0 64 |>.map fun e => toBytes e.2 4).flatten 16384
    return .seq) s

/-- FPRT.pass (R299). -/
def execFprtPass (p : BitVec 4) (fq : BitVec 1) (q : BitVec 5) (ty : BitVec 4) (s : State) : Out :=
  fqIssue (.fprtPass p fq q ty) p fq [(q.toNat, 1)] (fun d c =>
    (c.absorb ty.toNat (wideBytes d) 512).push q.toNat (entryOf 32 d)) s

/-- A completion record (Table 7-9). -/
def completionRecord (seq : BitVec 32) (entry status bytes : Nat) (fp : Fp) : List Byte :=
  ([status + 2 ^ 16 * (entry % 2 ^ 16) + 2 ^ 32 * seq.toNat, bytes, fp.nans, fp.maxmag.toNat, fp.sum.toNat, fp.sumsq.toNat, 0, 1].map
    fun v => toBytes v 8).flatten

/-- FPRT.emit (R299). -/
def execFprtEmit (p : BitVec 4) (q : BitVec 5) (s : State) : Out :=
  issue (.fprtEmit p q) .F p (fun _ => { frees := [(q.toNat, 1)] }) (pure ()) (fun _ => do
    modify fun s => s.modCtx fun c =>
      ({ c with fu := { c.fu with fp := {}, ecnt := c.fu.ecnt + 1 } } : Ctx).push q.toNat
        (entryOf 4 (wideOf (completionRecord c.fu.ecnt 0 0 c.fu.fp.bytes c.fu.fp)))
    return .seq) s

/-- The sum of squares of each row (R297). -/
def Tile.squares (t : Tile) : List (Nat × Flags) :=
  upTo 64 fun r => fmtF32.finish none false (exactSum (upTo 64 fun j => let v := fmtF32.decode (t.elem r j)
                                                                        v.mul v))

/-- FSQA (R297). -/
def execFsqa (p : BitVec 4) (zt : BitVec 7) (q : BitVec 5) (rel : BitVec 1) (s : State) : Out :=
  issue (.fsqa p zt q rel) .F p (fun _ => { frees := [(q.toNat, 1)] }) (needsHeld zt) (fun _ => do
    let s ← get
    let l := (s.ctx.tile zt.toNat).squares
    let c := s.ctx.push q.toNat (entryOf 16 (pack 32 (l.map (·.1))))
    set ((s.modCtx fun _ => if rel = 1 then c.release zt else c).raise (l.foldl (fun f x => f.or x.2) {}))
    return .seq) s

/-- FSCL: the channel scales and biases (R298). -/
def execFscl (p : BitVec 4) (fq : BitVec 1) (s : State) : Out :=
  fqIssue (.fscl p fq) p fq [] (fun d c => { c with fu := { c.fu with
    cs := SMap.setList [] 0x3F800000#32 0 (upTo 64 fun j => d.extractLsb' (32 * j) 32)
    cb := SMap.setList [] 0 0 (upTo 64 fun j => d.extractLsb' (2048 + 32 * j) 32) } }) s

/-- FSCL.rng: the generator (R298). -/
def execFsclRng (p : BitVec 4) (fq : BitVec 1) (s : State) : Out :=
  fqIssue (.fsclRng p fq) p fq [] (fun d c => { c with fu := { c.fu with key := d.extractLsb' 0 64, ctr := d.extractLsb' 64 64 } }) s

/-- FMV (R300). -/
def execFmv (p : BitVec 4) (fq : BitVec 1) (q len : BitVec 5) (s : State) : Out :=
  fqIssue (.fmv p fq q len) p fq [(q.toNat, 1)] (fun d c => c.push q.toNat (entryOf (len.toNat + 1) d)) s

/-- FMV.term (R300). -/
def execFmvTerm (p : BitVec 4) (q : BitVec 5) (s : State) : Out := pushTerminal (.fmvTerm p q) p q s

/-- FWAIT (R301). -/
def execFwait (p : BitVec 4) (gs : BitVec 5) (zt : BitVec 7) (s : State) : Out :=
  issue (.fwait p gs zt) .F p (fun s => { waits := [(decide ((s.ctx.tile zt.toNat).st ≠ .ready), .array)] })
    (do trapIf (decide (((← get).ctx.tile zt.toNat).st = .held)) 9 1)
    (fun _ => do
      let s ← get
      let t := s.ctx.tile zt.toNat
      set ((s.modCtx fun c => c.setTile zt.toNat { t with st := .held }).setReg .F gs t.status)
      return .seq) s

end Sys2Proof.Machine
end

