-- ==== Sys2Proof/Machine/Tier.lean ====
section
/-! DEFINITION. The tier controllers: replicas of read-only D-stack pages, made on a layer notice or a PREFT (R145, R146,
R154, R155, R180). -/

namespace Sys2Proof.Machine

/-- TIERCTL fields (Table 6-5). -/
def Part.tierEn (p : Part) : Bool := p.tierctl.getLsbD 0
def Part.tierTbl (p : Part) : Nat := bits p.tierctl 63 6 * 64

/-- Whether a page can be replicated under an address space: a read-only translation to a D-stack frame (R155). The
second result says that it is mapped writable. -/
def State.replicable (s : State) (d part asid va : Nat) : Option Replica × Bool :=
  if 2 ^ 52 ≤ va then (none, false) else
  match (s.walk d part asid va).1 with
  | .leaf t _ =>
    let key := t.key + (va - t.va)
    if t.w then (none, true)
    else if tierOfKey key = 1 && t.r then (some { frame := key / 4096, part, asid, va }, false) else (none, false)
  | _ => (none, false)

/-- The pages of a range of an address space that a die can replicate, and whether one is mapped writable (R155). -/
def State.replicaPages (s : State) (d part asid start len : Nat) : List Replica × Bool :=
  let l := upTo (len / 4096) fun i => s.replicable d part asid (start + 4096 * i)
  (l.filterMap (·.1), l.any (·.2))

/-- Whether a die holds, or is asked for, the replica of a frame. -/
def hasFrame (l : List Replica) (f : Nat) : Bool := l.any fun r => r.frame = f

/-- A schedule entry (Table 6-5). -/
structure LayerEntry where
  start : Nat
  len : Nat
  dies : Nat
  deriving DecidableEq, Repr, Inhabited

/-- The doubleword of a schedule table, through translation on a die; 0 where it does not translate. -/
def State.tableWord (s : State) (d part asid va : Nat) : Word :=
  match (s.walk d part asid va).1 with
  | .leaf t _ => match t.locate va with
    | .ok key => BitVec.ofNat 64 (s.readM key 8)
    | _ => 0
  | _ => 0

/-- Entry n of the schedule at `tbl`. -/
def State.layerEntry (s : State) (d part asid tbl n : Nat) : LayerEntry :=
  let w := fun i => s.tableWord d part asid (tbl + 64 + 32 * n + 8 * i)
  ⟨(w 0).toNat, (w 1).toNat, bits (w 2) 3 0⟩

/-- The layers in use after layer n: n itself, then the d that follow (R155). -/
def layersAfter (n dist count : Nat) (wrap : Bool) : List Nat :=
  (upTo dist fun i => n + 1 + i).filterMap fun i => if wrap then some (i % count) else if i < count then some i else none

/-- A die's controller hears of layer n (R155): the copies of an earlier notice are cancelled, the pages of the layers
that follow are to be replicated, and the replicas of the partition's other layers come first for eviction. DESIGN CHOICE (log 104): a
controller acts when the DIES of one of the entries n + 1 to n + d names its die; that of entry n alone makes it do nothing. -/
def State.noticeOn (s : State) (part : Nat) (h : Sched) (n d : Nat) : State :=
  let tbl := (s.part part).tierTbl
  let entries := (layersAfter n h.dist h.count h.wrap).map fun i => s.layerEntry d part h.asid tbl i
  let mine := entries.filter fun e => e.dies / 2 ^ d % 2 = 1
  let s := s.modDie d fun x => { x with notices := x.notices.filter fun q => !(q.part = part && q.layer) }
  if mine.isEmpty then s else
  let found := mine.map fun e => s.replicaPages d part h.asid e.start e.len
  let pages := ((found.map (·.1)).flatten).map fun r => { r with layer := true }
  let now := s.layerEntry d part h.asid tbl (n % h.count)
  let keep := pages ++ (s.replicaPages d part h.asid now.start now.len).1
  let s := if found.any (·.2) then s.modPart part fun p => { p with tierctl := putBits p.tierctl 2 2 1 } else s
  let old := fun (r : Replica) => r.layer && r.part = part && !hasFrame keep r.frame
  s.modDie d fun x => { x with
    notices := x.notices
      ++ [({ part, layer := true, pages := pages.filter fun f => !hasFrame x.replicas f.frame } : Notice)]
    replicas := x.replicas.filter old ++ x.replicas.filter fun r => !old r }

/-- The location of a partition's LAYER word. -/
def State.layerKey (s : State) (part : Nat) (h : Sched) : Option Nat :=
  let va := (s.part part).tierTbl + 32
  match (s.walk 0 part h.asid va).1 with
  | .leaf t _ => match t.locate va with
    | .ok key => some key
    | _ => none
  | _ => none

/-- An atomic has written a location: when it is the LAYER word of an active schedule, the tier controllers hear of it
(R155). -/
def State.layerNotice (s : State) (key : Nat) : State :=
  (List.range 16).foldl (fun s p =>
    match (s.part p).sched with
    | none => s
    | some h =>
      if (s.part p).tierEn && s.layerKey p h = some key then
        (List.range 4).foldl (fun s d => s.noticeOn p h (s.readM key 8) d) s
      else s) s

/-- PREFT's request to a die (R180): the read-only D-stack pages of a range. -/
def State.preftOn (s : State) (part asid start len d : Nat) : State :=
  let (pages, writable) := s.replicaPages d part asid start len
  let s := if writable then s.modPart part fun p => { p with tierctl := putBits p.tierctl 2 2 1 } else s
  s.modDie d fun x => { x with
    notices := x.notices ++ [({ part, layer := false, pages := pages.filter fun f => !hasFrame x.replicas f.frame } : Notice)] }

end Sys2Proof.Machine
end

