-- ==== Sys2Proof/Machine/Access.lean ====
section
/-! DEFINITION. The access engine A without the KV store (R165 to R195): scratchpad, rings, load and store queues, bulk
copies, shadows and publication, chains, cluster semaphores and ASTAT. Its checks are made at issue, when its waits are
met; a ring wait counts only for an instruction that passes them (R167, R174, R175). -/

namespace Sys2Proof.Machine

/-- Scratchpad bytes of a core (R168). -/
def spadSize : Nat := 786432

/-- A's register plus an immediate, as a scratchpad address or a ring offset (R168, R174). -/
def State.aAddr {w : Nat} (s : State) (g : BitVec 5) (off : BitVec w) : Nat := (s.reg .A g + off.setWidth 64).toNat

/-- Scratchpad bytes from an address. -/
def Ctx.spadBytes (c : Ctx) (a n : Nat) : List Byte := bytesAt c.spad a n

/-- Scratchpad bytes written from an address. -/
def Ctx.setSpad (c : Ctx) (a : Nat) (l : List Byte) : Ctx := { c with spad := c.spad.setList 0 a l }

/-- The scratchpad addresses of the 16-byte chunks of [o, o + 16·n) from a slot position of a ring, each placed through
Swizzle in its slot (R171). -/
def Ring.chunkAddrs (r : Ring) (pos : BitVec 32) (o n : Nat) : List Nat :=
  upTo n fun i => let x := o + 16 * i
                  r.byteAt (pos.toNat + x / r.slot) (x % r.slot) r.pitch r.span

/-- Chunks read. -/
def Ctx.chunksAt (c : Ctx) (l : List Nat) : List Byte := (l.map fun a => c.spadBytes a 16).flatten

/-- Chunks written. -/
def Ctx.setChunks (c : Ctx) : List Nat → List Byte → Ctx
  | [], _ => c
  | a :: r, l => (c.setSpad a (l.take 16)).setChunks r (l.drop 16)

/-! ### Queues from and to scratchpad (R174, R175) -/

/-- The checks of a 512-byte entry at offset o of a ring (R174): causes 5, 1, 6 and 4. -/
def entryCheck (r : Ring) (o : Nat) : Act Unit := do
  trapIf (!r.init) 6 5
  trapIf (decide (o % 16 ≠ 0)) 6 1
  trapIf (decide (r.slot < 512) || decide (r.slot < o % r.slot + 512)) 6 6
  trapIf (decide (r.n ≤ o / r.slot)) 6 4

/-- Whether an entry at offset o passes its checks and waits for slots: `have` of them are there. -/
def entryWaits (r : Ring) (o slots : Nat) : Bool :=
  r.init && o % 16 = 0 && 512 ≤ r.slot && o % r.slot + 512 ≤ r.slot && o / r.slot < r.n && slots ≤ o / r.slot

/-- VbcDecode of scratchpad (R178): cause 2 beyond the scratchpad, cause 7 malformed; the data and the encoded length. -/
def decodeSpad (a ty : Nat) : Act (List Byte × Nat) := do
  let c := (← get).ctx
  trapIf (decide (spadSize < a + 16)) 6 2
  match vbcHead ty (c.spadBytes a 16) with
  | none => trap 6 7
  | some h =>
    trapIf (decide (spadSize < a + h.len ty)) 6 2
    return (h.data ty (c.spadBytes (a + 16) (h.payload ty)), h.len ty)

/-- LDQ (R174). -/
def execLdq (p : BitVec 4) (rg : BitVec 1) (gd ga q : BitVec 5) (xe xc : BitVec 1) (aty : BitVec 4) (imm18 : BitVec 18)
    (s : State) : Out :=
  let push (d : List Byte) (c : Ctx) : Ctx := c.push q.toNat (entryOf 32 (wideOf d))
  issue (.ldq p rg gd ga q xe xc aty imm18) .A p
    (fun s =>
      let r := s.ctx.ring gd.toNat
      { frees := [(q.toNat, 1)], waits := [(rg = 1 && entryWaits r (s.aAddr ga imm18) r.filled, .ring)] })
    (pure ())
    (fun _ => do
      let s ← get
      if rg = 1 then
        let r := s.ctx.ring gd.toNat
        let o := s.aAddr ga imm18
        entryCheck r o
        set (s.modCtx fun c => push (c.chunksAt (r.chunkAddrs r.head o 32)) c)
      else
        let a := if xc = 1 then s.ctx.ecur else s.aAddr ga imm18
        trapIf (decide (a % 16 ≠ 0)) 6 1
        if xe = 1 then
          let (b0, l0) ← decodeSpad a aty.toNat
          let (b1, l1) ← decodeSpad (a + l0) aty.toNat
          set (s.modCtx fun c => push (b0 ++ b1) { c with ecur := (a + l0 + l1) % 2 ^ 20 })
        else
          trapIf (decide (spadSize < a + 512)) 6 2
          set (s.modCtx fun c => push (c.spadBytes a 512) { c with ecur := (a + 512) % 2 ^ 20 })
      return .seq) s

/-- LDQ.term (R97, R174). -/
def execLdqTerm (p : BitVec 4) (q : BitVec 5) (xe xc : BitVec 1) (s : State) : Out :=
  issue (.ldqTerm p q xe xc) .A p (fun _ => { frees := [(q.toNat, 1)] }) (pure ()) (fun _ => do
    modify fun s => s.modCtx fun c => c.push q.toNat ({ full := true, term := true } : Slot)
    return .seq) s

/-- STQ: the scratchpad bound depends on the entry's LEN (R175). -/
def execStq (p : BitVec 4) (rg : BitVec 1) (gd ga q : BitVec 5) (xc : BitVec 1) (imm18 : BitVec 18) (s : State) : Out :=
  issue (.stq p rg gd ga q xc imm18) .A p
    (fun s =>
      let r := s.ctx.ring gd.toNat
      { reads := [(q.toNat, 1)], waits := [(rg = 1 && entryWaits r (s.aAddr ga imm18) r.free, .ring)] })
    (pure ())
    (fun _ => do
      let s ← get
      let e := ((s.ctx.queue q.toNat).head?).getD { full := true }
      let data := (wideBytes e.data).take (16 * e.len)
      if rg = 1 then
        let r := s.ctx.ring gd.toNat
        let o := s.aAddr ga imm18
        entryCheck r o
        set ((s.popQueue q.toNat 1).modCtx fun c => c.setChunks (r.chunkAddrs r.tail o e.len) data)
      else
        let a := if xc = 1 then s.ctx.scur else s.aAddr ga imm18
        trapIf (decide (a % 16 ≠ 0)) 6 1
        trapIf (decide (spadSize < a + 16 * e.len)) 6 2
        set ((s.popQueue q.toNat 1).modCtx fun c => { c.setSpad a data with scur := (a + 16 * e.len) % 2 ^ 20 })
      return .seq) s

/-! ### Rings (R169 to R173) -/

/-- A ring changed; `q` is its operand code. -/
def Ctx.setRing (c : Ctx) (q : BitVec 5) (r : Ring) : Ctx := { c with rings := c.rings.set {} (q.toNat - 16) r }

/-- The ring of an operand code. -/
def Ctx.ringOf (c : Ctx) (q : BitVec 5) : Ring := c.ring (q.toNat - 16)

/-- Whether a COPY that a ladle has read and not completed names ring n of core k for an advance (R170). -/
def State.copyPending (s : State) (k n : Nat) : Bool :=
  s.ladles.any fun e => (e.2.run.toList ++ e.2.resume).any fun r => r.copies.any fun c =>
    c.dw0.getLsbD 29 && e.1 / 2 * 16 + bits c.dw0 33 30 = k && bits c.dw0 37 34 = n

/-- RINIT (R170): waits for the array and for outstanding COPYs, then checks the geometry. DESIGN CHOICE (log 109): a misaligned base is
reported before an invalid geometry. -/
def execRinit (p : BitVec 4) (ga gb q : BitVec 5) (pe : BitVec 1) (n1 : BitVec 10) (s : State) : Out :=
  issue (.rinit p ga gb q pe n1) .A p
    (fun s => { waits := [(!s.ctx.ar.idle, .array), (s.copyPending s.cur (q.toNat - 16), .ladle)] }) (pure ())
    (fun _ => do
      let s ← get
      let a := (s.reg .A ga).toNat
      let b := (s.reg .A gb).toNat
      let n := n1.toNat + 1
      trapIf (decide (a % 64 ≠ 0)) 6 1
      trapIf (decide (b % 64 ≠ 0) || decide (b < 64) || decide (65536 < b) || decide (spadSize < a + b * n)) 6 5
      set (s.modCtx fun c => c.setRing q { init := true, base := a, slot := b, n, pers := pe = 1, pitch := b })
      return .seq) s

/-- The checks of RADV and RWAIT on a ring and a count: cause 5, then cause 4 (R172). -/
def ringCheck (q : BitVec 5) (n : BitVec 18) : Act Unit := do
  let r := (← get).ctx.ringOf q
  trapIf (!r.init) 6 5
  trapIf (decide (r.n < n.toNat)) 6 4

/-- RADV.head (R172). -/
def execRadvHead (p : BitVec 4) (q : BitVec 5) (imm18 : BitVec 18) (s : State) : Out :=
  issueSimple (.radvHead p q imm18) .A p (do
    ringCheck q imm18
    let s ← get
    let r := s.ctx.ringOf q
    trapIf (decide (r.filled < imm18.toNat)) 6 3
    set (s.modCtx fun c => c.setRing q { r with head := r.head + imm18.setWidth 32 })
    return .seq) s

/-- RADV.tail (R172). -/
def execRadvTail (p : BitVec 4) (q : BitVec 5) (imm18 : BitVec 18) (s : State) : Out :=
  issueSimple (.radvTail p q imm18) .A p (do
    ringCheck q imm18
    let s ← get
    let r := s.ctx.ringOf q
    trapIf (decide (r.free < imm18.toNat)) 6 3
    set (s.modCtx fun c => c.setRing q { r with tail := r.tail + imm18.setWidth 32 })
    return .seq) s

/-- RWAIT: a ring that passes the checks is waited for (R172). -/
def ringWait (i : Instr) (p : BitVec 4) (q : BitVec 5) (n : BitVec 18) (slots : Ring → Nat) (s : State) : Out :=
  issue i .A p
    (fun s => let r := s.ctx.ringOf q
              { waits := [(r.init && decide (n.toNat ≤ r.n) && decide (slots r < n.toNat), .ring)] })
    (pure ()) (fun _ => do
      ringCheck q n
      return .seq) s

/-- RWAIT.head (R172). -/
def execRwaitHead (p : BitVec 4) (q : BitVec 5) (imm18 : BitVec 18) (s : State) : Out :=
  ringWait (.rwaitHead p q imm18) p q imm18 Ring.filled s

/-- RWAIT.tail (R172). -/
def execRwaitTail (p : BitVec 4) (q : BitVec 5) (imm18 : BitVec 18) (s : State) : Out :=
  ringWait (.rwaitTail p q imm18) p q imm18 Ring.free s

/-- SWZ (R171). -/
def execSwz (p : BitVec 4) (ga q : BitVec 5) (span : BitVec 3) (s : State) : Out :=
  issueSimple (.swz p ga q span) .A p (do
    let s ← get
    let r := s.ctx.ringOf q
    let v := (s.reg .A ga).toNat
    trapIf (!r.init || decide (v % 16 ≠ 0) || decide (v < 16) || decide (r.slot < v) || decide (r.slot % v ≠ 0)
      || decide (v % (16 * 2 ^ span.toNat) ≠ 0)) 6 5
    set (s.modCtx fun c => c.setRing q { r with pitch := v, span := span.toNat })
    return .seq) s

/-! ### Bulk copies (R179) -/

/-- Granules in order, from the progress on, as many as the turn may do: a stop at the first of a turn stops the
instruction; a stop further on ends the turn, and the granules before it stand (R159, R179, R363). -/
def granules (n : Nat) (pr : Prog) (act : Nat → Act Unit) : Nat → Nat → Act Next
  | 0, i => fun s => .ok (if n ≤ i then .seq else .more { pr with stage := 1, count := i, soft := true }, s)
  | f + 1, i => fun s =>
    if n ≤ i then .ok (.seq, s)
    else match act i s with
      | .ok (_, t) => granules n pr act f (i + 1) t
      | .error x =>
        if i = pr.count then .error x else .ok (.more { pr with stage := 1, count := i, soft := true }, s.keepFills x.2)

/-- The granules that this turn may do. -/
def State.share (s : State) (n : Nat) : Nat := max 1 (s.budget.getD n)

/-- Where a bulk copy's granule i lies in scratchpad: a plain address, or a place in a ring from a slot position fixed at
issue (R179). -/
def granuleAddr (r : Ring) (ring : Bool) (o pos i : Nat) : Nat :=
  if ring then ((r.chunkAddrs (BitVec.ofNat 32 pos) (o + 16 * i) 1).head?).getD 0 else o + 16 * i

/-- The checks of GLD and GST (R167, R179). DESIGN CHOICE (log 108): of several causes, a misaligned virtual address comes first, then
the ring, then a misaligned offset, then the bound. -/
def copyCheck (r : Ring) (ring : Bool) (va o n : Nat) : Act Unit := do
  trapIf (decide (va % 16 ≠ 0)) 6 1
  if ring then
    trapIf (!r.init) 6 5
    trapIf (decide (o % 16 ≠ 0)) 6 1
    trapIf (decide (r.n ≤ (o + 16 * n - 1) / r.slot)) 6 4
  else
    trapIf (decide (o % 16 ≠ 0)) 6 1
    trapIf (decide (spadSize < o + 16 * n)) 6 2

/-- Whether a ring-form copy passes its checks and waits for slots. -/
def copyWaits (r : Ring) (va o n slots : Nat) : Bool :=
  va % 16 = 0 && r.init && o % 16 = 0 && (o + 16 * n - 1) / r.slot < r.n && slots ≤ (o + 16 * n - 1) / r.slot

/-- GLD and GST: `move` moves one granule between the virtual address and the scratchpad address. -/
def bulkCopy (i : Instr) (p : BitVec 4) (rg : BitVec 1) (gd ga gb : BitVec 5) (n : Nat) (pos : Ring → BitVec 32)
    (slots : Ring → Nat) (move : Nat → Nat → Nat → Act Unit) (s : State) : Out :=
  let va (s : State) := (s.reg .A ga).toNat
  let o (s : State) := (s.reg .A gb).toNat
  issue i .A p
    (fun s => { waits := [(rg = 1 && copyWaits (s.ctx.ring gd.toNat) (va s) (o s) n (slots (s.ctx.ring gd.toNat)), .ring)] })
    (pure ())
    (fun pr => do
      let s ← get
      let r := s.ctx.ring gd.toNat
      if pr.stage = 0 then copyCheck r (rg = 1) (va s) (o s) n
      let start := if pr.stage = 0 then (pos r).toNat else pr.data.headD 0
      granules n { pr with data := [start] }
        (fun i => move ((va s + 16 * i) % 2 ^ 64) (granuleAddr r (rg = 1) (o s) start i) (16 * (n - i)))
        (s.share n) pr.count) s

/-- GLD (R179): each granule reads the snapshot and the core's own stores. -/
def execGld (p : BitVec 4) (rg : BitVec 1) (gd ga gb : BitVec 5) (imm18 : BitVec 18) (s : State) : Out :=
  bulkCopy (.gld p rg gd ga gb imm18) p rg gd ga gb imm18.toNat Ring.tail Ring.free
    (fun va a ext => do
      let l ← coreRead .A va 16 ext
      modify fun s => s.modCtx fun c => c.setSpad a l) s

/-- GST (R179): each granule is one 16-byte store. -/
def execGst (p : BitVec 4) (rg : BitVec 1) (gd ga gb : BitVec 5) (imm18 : BitVec 18) (s : State) : Out :=
  bulkCopy (.gst p rg gd ga gb imm18) p rg gd ga gb imm18.toNat Ring.head Ring.filled
    (fun va a ext => do
      let l := (← get).ctx.spadBytes a 16
      storeAppend .A va 16 (ofBytes l) ext) s

/-- PREFT (R180): a mask of 0 names the core's own die. -/
def execPreft (p : BitVec 4) (ga gb : BitVec 5) (dies : BitVec 4) (s : State) : Out :=
  issueSimple (.preft p ga gb dies) .A p (do
    let s ← get
    let lo := (s.reg .A ga).toNat
    let hi := min (lo + (s.reg .A gb).toNat) (2 ^ 52)
    let start := lo / 4096 * 4096
    let len := if (s.reg .A gb).toNat = 0 ∨ hi ≤ lo then 0 else (hi + 4095) / 4096 * 4096 - start
    let on := (List.range 4).filter fun d => if dies = 0 then decide (d = dieOf s.cur) else dies.getLsbD d
    set (on.foldl (fun t d => t.preftOn s.work.part s.work.asid start len d) s)
    return .seq) s

/-! ### Shadows and publication (R181 to R183) -/

/-- Cause 10: a handle number above 1,023 (R182, R183). -/
def handleCheck (h : Word) : Act Unit := trapIf (decide (1023 < h.toNat)) 6 10

/-- A handle of the work's partition. -/
def State.handle (s : State) (h : Nat) : Option Handle := (s.part s.work.part).handles.find h

/-- A handle changed. -/
def State.setHandle (s : State) (part h : Nat) (x : Handle) : State :=
  s.modPart part fun p => { p with handles := p.handles.put h x }

/-- SHDW.def (R182). -/
def execShdwDef (p : BitVec 4) (gd ga gb : BitVec 5) (imm18 : BitVec 18) (s : State) : Out :=
  issueSimple (.shdwDef p gd ga gb imm18) .A p (do
    let s ← get
    let h := s.reg .A gd
    let w := (s.reg .A ga).toNat
    let t := (s.reg .A gb).toNat
    let len := 65536 * imm18.toNat
    handleCheck h
    let clash := fun (a b n : Nat) => meets a (a + len) b n
    trapIf ((s.handle h.toNat).isSome || decide (w % 65536 ≠ 0) || decide (t % 65536 ≠ 0) || clash w t len
      || (s.part s.work.part).handles.any fun e =>
        clash w e.2.window e.2.len || clash w e.2.twin e.2.len || clash t e.2.window e.2.len || clash t e.2.twin e.2.len) 6 8
    set (({ s with handleNo := s.handleNo + 1 } : State).setHandle s.work.part h.toNat
      { made := s.handleNo, window := w, twin := t, len, owner := s.work.id })
    return .seq) s

/-- SHDW.arm (R182). -/
def execShdwArm (p : BitVec 4) (gd : BitVec 5) (s : State) : Out :=
  issueSimple (.shdwArm p gd) .A p (do
    let s ← get
    let h := s.reg .A gd
    handleCheck h
    match s.handle h.toNat with
    | none => trap 6 9
    | some x => do
      trapIf x.armed 6 9
      set (s.setHandle s.work.part h.toNat { x with armed := true, owner := s.work.id })
      return .seq) s

/-- SHDW.free (R182). -/
def execShdwFree (p : BitVec 4) (gd : BitVec 5) (s : State) : Out :=
  issueSimple (.shdwFree p gd) .A p (do
    let s ← get
    let h := s.reg .A gd
    handleCheck h
    match s.handle h.toNat with
    | none => trap 6 9
    | some x => do
      trapIf (x.armed || x.owner ≠ s.work.id) 6 9
      set (s.modPart s.work.part fun p => { p with handles := p.handles.drop h.toNat })
      return .seq) s

/-- Whether a piece of work may publish a handle (R183). -/
def State.mayPublish (s : State) (part work h : Nat) : Bool :=
  match (s.part part).handles.find h with
  | some x => x.armed && x.owner = work
  | none => false

/-- Whether an access that waits names the window of a handle or its twin. -/
def Handle.waitIn (x : Handle) (part : Nat) (y : Stalled) : Bool :=
  y.part = part && ((x.window ≤ y.va && y.va < x.window + x.len) || (x.twin ≤ y.va && y.va < x.twin + x.len))

/-- The flip: CUR changes side and the handle is disarmed, in one step (R183). DESIGN CHOICE (log 113): accesses to
its window that wait for a translation begin afresh. -/
def State.flip (s : State) (part h : Nat) : State :=
  match (s.part part).handles.find h with
  | some x => { s.setHandle part h { x with cur := !x.cur, armed := false } with stalled := s.stalled.filter fun y => !x.waitIn part y }
  | none => s

/-- PUBL (R183, R193). -/
def execPubl (p : BitVec 4) (ga : BitVec 5) (s : State) : Out :=
  issue (.publ p ga) .A p (fun _ => {}) (pure ())
    (logged .A .publ (fun _ => pure .seq) fun pr => do
      let s ← get
      let h := s.reg .A ga
      if pr.stage = 0 then do
        handleCheck h
        trapIf (!s.mayPublish s.work.part s.work.id h.toNat) 6 9
      irrevocable
      releasing pr fun pub => do
        modify fun s => s.flip s.work.part h.toNat
        logEffect .A .publ 0 pub
        return .seq) s

/-! ### Chains (R184) -/

/-- Cause 11: a conductor core lies in no cluster (Table 7-3). -/
def clusterCheck : Act Unit := do trapIf (isConductor (← get).cur) 6 11

/-- The ladle that takes a chain of core k: a fenced one's chains go to the other of the cluster; none when both are
fenced (R356). -/
def State.takingLadle (s : State) (k : Nat) (lad : BitVec 1) : Option Nat :=
  let l := 2 * (k / 16) + lad.toNat
  let m := 2 * (k / 16) + 1 - lad.toNat
  if !(s.ladle l).fenced then some l else if !(s.ladle m).fenced then some m else none

/-- LCHAIN (R184): the ticket is the ladle's number and its sequence number. -/
def execLchain (p : BitVec 4) (gd ga : BitVec 5) (lad : BitVec 1) (s : State) : Out :=
  issue (.lchain p gd ga lad) .A p (fun _ => {}) (pure ())
    (fun pr => do
      let s ← get
      let a := (s.reg .A ga).toNat
      trapIf (decide (a % 64 ≠ 0)) 6 1
      trapIf (decide (spadSize < a + 64)) 6 2
      clusterCheck
      logged .A .lchain
        (fun r => do
          setReg .A gd (r.setWidth 64)
          return .seq)
        (fun pr => do
          irrevocable
          match s.takingLadle s.cur lad with
          | none => trap 13 12
          | some l =>
            waitIf (pr.stage = 0 && decide (64 ≤ (s.ladle l).queue.length)) .ladle
            releasing pr fun pub => do
              let s ← get
              let x := s.ladle l
              if 64 ≤ x.queue.length then
                if pr.stage = 0 then return .more { stage := 1, pub }
                else stop (.wait .ladle)
              else do
                let ticket : Word := BitVec.ofNat 64 (l * 2 ^ 32) + x.seq.setWidth 64
                set (s.modLadle l fun x => { x with
                  seq := x.seq + 1
                  queue := x.queue ++ [⟨l, a, s.cur, s.work.id, s.work.part, s.work.asid, x.seq⟩] })
                logEffect .A .lchain (ticket.setWidth 256) pub
                setReg .A gd ticket
                return .seq) pr) s

/-! ### ASTAT (R189, R194) -/

/-- ASTAT.ecur. -/
def execAstatEcur (p : BitVec 4) (gd : BitVec 5) (s : State) : Out :=
  issueSimple (.astatEcur p gd) .A p (do
    setReg .A gd (BitVec.ofNat 64 (← get).ctx.ecur)
    return .seq) s

/-- ASTAT.scur. -/
def execAstatScur (p : BitVec 4) (gd : BitVec 5) (s : State) : Out :=
  issueSimple (.astatScur p gd) .A p (do
    setReg .A gd (BitVec.ofNat 64 (← get).ctx.scur)
    return .seq) s

/-- A cursor value from a register: cause 2 beyond the scratchpad. -/
def cursorValue (ga : BitVec 5) : Act Nat := do
  let v := bits ((← get).reg .A ga) 19 0
  trapIf (decide (spadSize ≤ v)) 6 2
  return v

/-- ASTAT.setec. -/
def execAstatSetec (p : BitVec 4) (ga : BitVec 5) (s : State) : Out :=
  issueSimple (.astatSetec p ga) .A p (do
    let v ← cursorValue ga
    modify fun s => s.modCtx fun c => { c with ecur := v }
    return .seq) s

/-- ASTAT.setsc. -/
def execAstatSetsc (p : BitVec 4) (ga : BitVec 5) (s : State) : Out :=
  issueSimple (.astatSetsc p ga) .A p (do
    let v ← cursorValue ga
    modify fun s => s.modCtx fun c => { c with scur := v }
    return .seq) s

/-- ASTAT.ring. -/
def execAstatRing (p : BitVec 4) (gd : BitVec 5) (rk : BitVec 4) (s : State) : Out :=
  issueSimple (.astatRing p gd rk) .A p (do
    let r := (← get).ctx.ring rk.toNat
    trapIf (!r.init) 6 5
    setReg .A gd (r.tail ++ r.head)
    return .seq) s

/-- The number of a semaphore of a cluster. -/
def semKey (cluster sem : Nat) : Nat := 256 * cluster + sem

/-- The executing core's cluster's semaphore. -/
def State.ownSem (s : State) (sem : BitVec 8) : Nat := semKey (s.cur / 16) sem.toNat

/-- A signal (R189). -/
def Sem.signal (x : Sem) (n : Nat) (poison : Bool) : Sem :=
  { x with count := min (x.count + n) 65535, ovf := x.ovf || decide (65535 < x.count + n), poison := x.poison || poison }

/-- What a waiter waits for. -/
def Waiter.count : Waiter → Nat
  | .core _ n | .ladle _ n => n

/-- The oldest waiter takes when COUNT meets it; it finds POISON as the take finds it (R189). -/
def Sem.take (x : Sem) : Sem :=
  match x.waiters with
  | w :: r => if w.count ≤ x.count then { x with count := x.count - w.count, waiters := r, taken := x.taken ++ [(w, x.poison)] } else x
  | [] => x

/-- ASTAT.swait: the wait arrives at the semaphore; once its turn has taken, POISON is the result, and the snapshot is
refreshed (R189, R194). -/
def execAstatSwait (p : BitVec 4) (gd : BitVec 5) (n : BitVec 10) (sem : BitVec 8) (s : State) : Out :=
  issue (.astatSwait p gd n sem) .A p (fun _ => {}) (pure ())
    (fun pr => do
      clusterCheck
      logged .A .swait
        (fun r => do
          setReg .A gd (r.setWidth 64)
          return .seq)
        (fun pr => do
          irrevocable
          let s ← get
          let me := Waiter.core s.work.id n.toNat
          let x := s.sem (s.ownSem sem)
          let there := x.waiters.contains me || x.taken.any fun t => t.1 = me
          let s := if there then s else s.modSem (s.ownSem sem) fun x => ({ x with waiters := x.waiters ++ [me] } : Sem).take
          match (s.sem (s.ownSem sem)).taken.find? fun t => t.1 = me with
          | some t => do
            set (s.modSem (s.ownSem sem) fun x => { x with taken := dropFirst (fun t => t.1 = me) x.taken })
            logEffect .A .swait (BitVec.ofNat 256 (bit t.2)) 0
            modify State.refresh
            setReg .A gd (BitVec.ofNat 64 (bit t.2))
            return .seq
          | none => do
            set s
            if there then stop (.wait .semaphore) else return .more { pr with stage := 1 }) pr) s

/-- A releasing change of a semaphore (R193, R194). -/
def semChange (i : Instr) (kind : ActKind) (p : BitVec 4) (sem : BitVec 8) (f : State → Sem → Sem) (s : State) : Out :=
  issue i .A p (fun _ => {}) (pure ())
    (fun pr => do
      clusterCheck
      logged .A kind (fun _ => pure .seq)
        (fun pr => do
          irrevocable
          releasing pr fun pub => do
            modify fun s => s.modSem (s.ownSem sem) (f s)
            logEffect .A kind 0 pub
            return .seq) pr) s

/-- ASTAT.ssig. -/
def execAstatSsig (p : BitVec 4) (gd : BitVec 5) (po : BitVec 1) (n : BitVec 10) (sem : BitVec 8) (s : State) : Out :=
  semChange (.astatSsig p gd po n sem) .ssig p sem (fun _ x => x.signal n.toNat (po = 1)) s

/-- ASTAT.sread. -/
def execAstatSread (p : BitVec 4) (gd : BitVec 5) (sem : BitVec 8) (s : State) : Out :=
  issueSimple (.astatSread p gd sem) .A p (do
    clusterCheck
    let s ← get
    let x := s.sem (s.ownSem sem)
    setReg .A gd (BitVec.ofNat 64 (x.count + 2 ^ 16 * bit x.poison + 2 ^ 17 * bit x.ovf))
    return .seq) s

/-- ASTAT.sset. -/
def execAstatSset (p : BitVec 4) (ga : BitVec 5) (sem : BitVec 8) (s : State) : Out :=
  semChange (.astatSset p ga sem) .sset p sem
    (fun s x => { x with count := bits (s.reg .A ga) 15 0, poison := false, ovf := false }) s

/-- Whether a chain is that of a ticket. -/
def Chain.named (c : Chain) (l : Nat) (seq : BitVec 32) : Bool := c.lad = l && c.seq = seq

/-- The state of the chain of a ticket (Table 7-10). -/
def State.chainState (s : State) (ticket : Word) : Nat :=
  let l := bits ticket 63 32
  let seq : BitVec 32 := ticket.setWidth 32
  if s.ladles.any fun e => e.2.queue.any fun c => c.named l seq then 0
  else if s.ladles.any fun e => (e.2.run.toList ++ e.2.resume).any fun r => r.chain.named l seq then 1
  else match (s.ladle l).ended.find? fun e => e.1 = seq with
    | some e => if e.2 then 3 else 2
    | none => 4

/-- ASTAT.chain: on a conductor every ticket is unknown (R194). -/
def execAstatChain (p : BitVec 4) (gd ga : BitVec 5) (s : State) : Out :=
  issueSimple (.astatChain p gd ga) .A p (do
    let s ← get
    setReg .A gd (BitVec.ofNat 64 (if isConductor s.cur then 4 else s.chainState (s.reg .A ga)))
    return .seq) s

end Sys2Proof.Machine
end

