-- ==== Sys2Proof/Machine/Control.lean ====
section
/-! DEFINITION. The control engine's private instructions: loads, stores, atomics, fences, phases, traps, waiting for an
event, scalar floating point, and translation maintenance (R119 to R133, R139, R140). -/

namespace Sys2Proof.Machine

/-! ### Loads and stores -/

/-- The address of a two-word C access: modulo 2^64 (R120). -/
def offAddr (base : Word) (off : BitVec 32) : Nat := (base + sext off).toNat

/-- The width in bytes of a size code (Table 3-14). -/
def sizeBytes (sz : Nat) : Nat := if sz < 2 then 1 else if sz < 4 then 2 else if sz < 6 then 4 else 8

/-- A loaded value: even codes below 6 are signed (Table 3-14, R120). -/
def loadValue (sz v : Nat) : Word :=
  match sz with
  | 0 => sext (BitVec.ofNat 8 v)
  | 2 => sext (BitVec.ofNat 16 v)
  | 4 => sext (BitVec.ofNat 32 v)
  | _ => BitVec.ofNat 64 v

/-- A misaligned data address is class 2 cause 1 (R119). -/
def checkAlign (a n : Nat) : Act Unit := trapIf (decide (a % n ≠ 0)) 2 1 (BitVec.ofNat 64 a)

/-- LD (R120). -/
def execLd (p : BitVec 4) (gd ga : BitVec 5) (sz : BitVec 4) (off : BitVec 32) (s : State) : Out :=
  issueSimple (.ld p gd ga sz off) .C p (do
    let a := offAddr ((← get).reg .C ga) off
    let n := sizeBytes sz.toNat
    checkAlign a n
    let l ← coreRead .C a n
    setReg .C gd (loadValue sz.toNat (ofBytes l))
    return .seq) s

/-- ST (R120). -/
def execSt (p : BitVec 4) (ga gb : BitVec 5) (sz : BitVec 4) (off : BitVec 32) (s : State) : Out :=
  issueSimple (.st p ga gb sz off) .C p (do
    let s ← get
    let a := offAddr (s.reg .C ga) off
    let n := sizeBytes sz.toNat
    checkAlign a n
    storeAppend .C a n ((s.reg .C gb).toNat % 2 ^ (8 * n))
    return .seq) s

/-! ### Atomics -/

/-- The new value of an atomic of W bits (R121). -/
def amoNew (fn W : Nat) (old gb gd : Nat) : Nat :=
  let less := (BitVec.ofNat W old).slt (BitVec.ofNat W gb)
  match fn with
  | 0 => (old + gb) % 2 ^ W
  | 1 => old &&& gb
  | 2 => old ||| gb
  | 3 => if less then old else gb
  | 4 => if less then gb else old
  | 5 => gb
  | _ => if old = gd then gb else old

/-- The link that carries a die's host accesses (R375). -/
def State.linkOf (s : State) (d : Nat) : Link :=
  let l := d / 2
  if (s.links.get {} l).up then s.links.get {} l else if (s.links.get {} (1 - l)).up then s.links.get {} (1 - l) else s.links.get {} l

/-- Whether the target tier supports an atomic (R122). -/
def State.amoSupported (s : State) (key fn : Nat) : Bool :=
  tierOfKey key ≠ 2 || ((fn = 0 || fn ≥ 5) && (s.linkOf (dieOf s.cur)).atomic)

/-- The atomic step (R121): the old value; AMOCAS that fails writes nothing. -/
def State.amoStep (s : State) (key fn W gb gd : Nat) : Nat × State :=
  let old := s.readM key (W / 8)
  (old, if fn = 6 ∧ old ≠ gd then s else (s.writeN key (W / 8) (amoNew fn W old gb gd)).layerNotice key)

/-- An atomic (R121, R122, R311): function `fn`, of 32 bits with `w32`, releasing with `rel`, acquiring with `acq`. -/
def amo (i : Instr) (fn : Nat) (rel acq : Bool) (p : BitVec 4) (gd ga gb : BitVec 5) (w32 : BitVec 1) (s : State) : Out :=
  let W := if w32 = 1 then 32 else 64
  let result := fun (old : Nat) => if w32 = 1 then sext (BitVec.ofNat 32 old) else BitVec.ofNat 64 old
  issue i .C p (fun _ => {}) (pure ()) (fun pr => do
    let s ← get
    let a := (s.reg .C ga).toNat
    checkAlign a (W / 8)
    let key ← xlate (.coreC s.cur) (s.windowNow a) accWrite (W / 8)
    trapIf (!s.amoSupported key fn) 2 2 (BitVec.ofNat 64 a)
    irrevocable
    waitIf (s.noPath key) .memory
    poisonIf (s.poisoned key (W / 8)) key (BitVec.ofNat 64 a)
    logged .C .amo
      (fun r => do
        setReg .C gd (result r.toNat)
        return .seq)
      (fun pr => publishing pr rel key (W / 8) fun pub => do
        let s ← get
        let (old, t) := s.amoStep key fn W ((s.reg .C gb).toNat % 2 ^ W) ((s.reg .C gd).toNat % 2 ^ W)
        set t
        logEffect .C .amo (BitVec.ofNat 256 old) pub
        if acq then modify State.refresh
        setReg .C gd (result old)
        return .seq) pr) s

def execAmoaddAcq (p : BitVec 4) (gd ga gb : BitVec 5) (w32 : BitVec 1) (s : State) : Out :=
  amo (.amoaddAcq p gd ga gb w32) 0 false true p gd ga gb w32 s
def execAmoaddRel (p : BitVec 4) (gd ga gb : BitVec 5) (w32 : BitVec 1) (s : State) : Out :=
  amo (.amoaddRel p gd ga gb w32) 0 true false p gd ga gb w32 s
def execAmoaddAr (p : BitVec 4) (gd ga gb : BitVec 5) (w32 : BitVec 1) (s : State) : Out :=
  amo (.amoaddAr p gd ga gb w32) 0 true true p gd ga gb w32 s
def execAmoandAcq (p : BitVec 4) (gd ga gb : BitVec 5) (w32 : BitVec 1) (s : State) : Out :=
  amo (.amoandAcq p gd ga gb w32) 1 false true p gd ga gb w32 s
def execAmoandRel (p : BitVec 4) (gd ga gb : BitVec 5) (w32 : BitVec 1) (s : State) : Out :=
  amo (.amoandRel p gd ga gb w32) 1 true false p gd ga gb w32 s
def execAmoandAr (p : BitVec 4) (gd ga gb : BitVec 5) (w32 : BitVec 1) (s : State) : Out :=
  amo (.amoandAr p gd ga gb w32) 1 true true p gd ga gb w32 s
def execAmoorAcq (p : BitVec 4) (gd ga gb : BitVec 5) (w32 : BitVec 1) (s : State) : Out :=
  amo (.amoorAcq p gd ga gb w32) 2 false true p gd ga gb w32 s
def execAmoorRel (p : BitVec 4) (gd ga gb : BitVec 5) (w32 : BitVec 1) (s : State) : Out :=
  amo (.amoorRel p gd ga gb w32) 2 true false p gd ga gb w32 s
def execAmoorAr (p : BitVec 4) (gd ga gb : BitVec 5) (w32 : BitVec 1) (s : State) : Out :=
  amo (.amoorAr p gd ga gb w32) 2 true true p gd ga gb w32 s
def execAmominAcq (p : BitVec 4) (gd ga gb : BitVec 5) (w32 : BitVec 1) (s : State) : Out :=
  amo (.amominAcq p gd ga gb w32) 3 false true p gd ga gb w32 s
def execAmominRel (p : BitVec 4) (gd ga gb : BitVec 5) (w32 : BitVec 1) (s : State) : Out :=
  amo (.amominRel p gd ga gb w32) 3 true false p gd ga gb w32 s
def execAmominAr (p : BitVec 4) (gd ga gb : BitVec 5) (w32 : BitVec 1) (s : State) : Out :=
  amo (.amominAr p gd ga gb w32) 3 true true p gd ga gb w32 s
def execAmomaxAcq (p : BitVec 4) (gd ga gb : BitVec 5) (w32 : BitVec 1) (s : State) : Out :=
  amo (.amomaxAcq p gd ga gb w32) 4 false true p gd ga gb w32 s
def execAmomaxRel (p : BitVec 4) (gd ga gb : BitVec 5) (w32 : BitVec 1) (s : State) : Out :=
  amo (.amomaxRel p gd ga gb w32) 4 true false p gd ga gb w32 s
def execAmomaxAr (p : BitVec 4) (gd ga gb : BitVec 5) (w32 : BitVec 1) (s : State) : Out :=
  amo (.amomaxAr p gd ga gb w32) 4 true true p gd ga gb w32 s
def execAmoswpAcq (p : BitVec 4) (gd ga gb : BitVec 5) (w32 : BitVec 1) (s : State) : Out :=
  amo (.amoswpAcq p gd ga gb w32) 5 false true p gd ga gb w32 s
def execAmoswpRel (p : BitVec 4) (gd ga gb : BitVec 5) (w32 : BitVec 1) (s : State) : Out :=
  amo (.amoswpRel p gd ga gb w32) 5 true false p gd ga gb w32 s
def execAmoswpAr (p : BitVec 4) (gd ga gb : BitVec 5) (w32 : BitVec 1) (s : State) : Out :=
  amo (.amoswpAr p gd ga gb w32) 5 true true p gd ga gb w32 s
def execAmocasAcq (p : BitVec 4) (gd ga gb : BitVec 5) (w32 : BitVec 1) (s : State) : Out :=
  amo (.amocasAcq p gd ga gb w32) 6 false true p gd ga gb w32 s
def execAmocasRel (p : BitVec 4) (gd ga gb : BitVec 5) (w32 : BitVec 1) (s : State) : Out :=
  amo (.amocasRel p gd ga gb w32) 6 true false p gd ga gb w32 s
def execAmocasAr (p : BitVec 4) (gd ga gb : BitVec 5) (w32 : BitVec 1) (s : State) : Out :=
  amo (.amocasAr p gd ga gb w32) 6 true true p gd ga gb w32 s

/-! ### Fences and phases -/

/-- FENCE.acq: C retires in order, so every earlier instruction of C has retired (R123). -/
def execFenceAcq (p : BitVec 4) (s : State) : Out :=
  issueSimple (.fenceAcq p) .C p (do
    modify State.refresh
    return .seq) s

/-- A publish step that retires without waiting for the outbound queue; a held store makes it wait (R123, R161, R312). -/
def publishOnly (pr : Prog) (effect : Nat → Act Next) : Act Next := do
  let s ← get
  let first := pr.stage = 0
  let (t, left) := s.publishN s.cur (if first then s.work.sb.length else pr.count)
  set t
  let pub := (if first then 0 else pr.pub) + (s.work.sb.length - t.work.sb.length)
  if left = 0 then effect pub
  else if first || s.work.sb.length ≠ t.work.sb.length then pure (.more { pr with stage := 1, count := left, pub })
  else stop (.wait .memory)

/-- FENCE.rel: in a speculative segment it moves nothing (R123, R314). -/
def execFenceRel (p : BitVec 4) (s : State) : Out :=
  issue (.fenceRel p) .C p (fun _ => {}) (pure ())
    (logged .C .fenceRel (fun _ => pure .seq) fun pr => publishOnly pr fun pub => do
      logEffect .C .fenceRel 0 pub
      return .seq) s

/-- PHASE waits at its domain until the boundary: `lvl` (R124, R313). When the work leaves its core, the instruction is
taken back, and PHASE is issued again (R363). -/
def phaseWait (lvl pub : Nat) : Prog := { stage := 2, data := [lvl], pub, soft := true, undo := true }

/-- 1 is added to the phase number of the executing core's own domain (R52, R54). A conductor is in no domain (R338): DESIGN CHOICE
(log 24), its number starts at 0 with its work. -/
def State.ownPhase (s : State) : State :=
  let shown := fun (n : Nat) (s : State) => s.modCtx fun c => { c with csr := { c.csr with pn := c.csr.pn.set 0 0 n } }
  if isConductor s.cur then shown ((s.ctx.csr.pn.get 0 0 + 1) % 2 ^ 32) s
  else
    let n := (s.part s.work.part).phase.get 0 s.cur + 1
    shown n.toNat (s.modPart s.work.part fun p => { p with phase := p.phase.set 0 s.cur n })

/-- PHASE (R54, R98, R124): the token counts are checked (R354); the residue check does not count the instruction's own reservations. -/
def execPhase (p : BitVec 4) (lvl : BitVec 3) (s : State) : Out :=
  issue (.phase p lvl) .C p (fun _ => {}) (pure ()) (fun pr => do
    let s ← get
    let l := lvl.toNat
    let local' := decide (l = 0) || isConductor s.cur
    if pr.stage = 2 then stop (.wait .phase)
    if !local' then irrevocable
    let own := (depPushes .C p).map (·, 1)
    if pr.stage = 0 && s.cc.badTokens then stop (.detected 4)
    trapIf (pr.stage = 0 && (s.ctx.unreserve own).residue) 10 2
    if local' then do
      modify State.ownPhase
      return .seq
    else
      logged .C .phase (fun _ => pure (.more (phaseWait l 0)))
        (fun pr => do
          let next ← publishOnly pr fun pub => do
            modify fun s => s.modWork fun w => { w with arrived := some l, arrivedAt := s.now, watched := false }
            logEffect .C .phase 0 pub
            return .more (phaseWait l pub)
          return match next with
            | .more q => .more { q with soft := true, undo := true }
            | x => x) pr) s

/-! ### Traps and waiting for an event -/

/-- TRAP: class 5 with the code (R132). -/
def execTrap (p : BitVec 4) (code : BitVec 14) (s : State) : Out :=
  issueSimple (.trap p code) .C p (Sys2Proof.Machine.trap 5 code.toNat) s

/-- ERET (R132): a loop that ends at its target goes round again (R106). INH = 0 is the engine's own state and is
checked before any wait; the target when it issues. -/
def execEret (p : BitVec 4) (s : State) : Out :=
  issue (.eret p) .C p (fun _ => {})
    (do trapIf (!(← get).ctx.csr.inh) 2 4)
    (fun _ => do
      let s ← get
      let t := s.ctx.csr.tepc
      trapIf (!s.cc.firstWord t) 1 5 (s.cc.wordAt s.ctx.c.pc s.work.len)
      set (s.modCtx Ctx.leaveLocal)
      return .loops (s.ctx.hiddenLoops .C) t) s

/-- Whether a WFE that issued at cycle `since` is over (R133). -/
def Core.wfeOver (c : Core) (since : Nat) : Bool :=
  c.ctx.csr.evt || (c.ctx.csr.tmo ≠ 0 && since + c.ctx.csr.tmo.toNat ≤ c.ctx.csr.cycle.toNat) || c.preempt || c.leaving.isSome

/-- WFE: EVT is cleared as it retires (R133). -/
def execWfe (p : BitVec 4) (s : State) : Out :=
  issue (.wfe p) .C p (fun _ => {}) (pure ()) (fun pr => do
    let s ← get
    let since := if pr.stage = 0 then s.ctx.csr.cycle.toNat else pr.mark
    if s.cc.wfeOver since then do
      set (s.modCtx fun c => { c with csr := { c.csr with evt := false } })
      return .seq
    else if pr.stage = 0 then return .more { stage := 1, mark := since }
    else stop (.wait .event)) s

/-! ### Scalar floating point (Table 5-3) -/

/-- The FP32 value in a register (R125). -/
def f32Of (w : Word) : Nat := bits w 31 0

/-- An instruction that writes an FP32 or integer result, zero-extended, and raises flags (R125). -/
def floatOp (i : Instr) (p : BitVec 4) (gd : BitVec 5) (f : State → Nat × Flags) (s : State) : Out :=
  issueSimple i .C p (do
    let s ← get
    let (v, fl) := f s
    set ((s.raise fl).setReg .C gd (BitVec.ofNat 64 v))
    return .seq) s

/-- The value of an FP32 operand. -/
def State.f32 (s : State) (r : BitVec 5) : Val := fmtF32.decode (f32Of (s.reg .C r))

/-- FADD (Table 5-3). -/
def execFadd (p : BitVec 4) (gd ga gb : BitVec 5) (s : State) : Out :=
  floatOp (.fadd p gd ga gb) p gd (fun s => fmtF32.finish none false ((s.f32 ga).add (s.f32 gb))) s

/-- FSUB (Table 5-3). -/
def execFsub (p : BitVec 4) (gd ga gb : BitVec 5) (s : State) : Out :=
  floatOp (.fsub p gd ga gb) p gd (fun s => fmtF32.finish none false ((s.f32 ga).add (s.f32 gb).neg)) s

/-- FMUL (Table 5-3). -/
def execFmul (p : BitVec 4) (gd ga gb : BitVec 5) (s : State) : Out :=
  floatOp (.fmul p gd ga gb) p gd (fun s => fmtF32.finish none false ((s.f32 ga).mul (s.f32 gb))) s

/-- FMIN (Table 5-3). -/
def execFmin (p : BitVec 4) (gd ga gb : BitVec 5) (s : State) : Out :=
  floatOp (.fmin p gd ga gb) p gd (fun s => fmtF32.minmax false (f32Of (s.reg .C ga)) (f32Of (s.reg .C gb))) s

/-- FMAX (Table 5-3). -/
def execFmax (p : BitVec 4) (gd ga gb : BitVec 5) (s : State) : Out :=
  floatOp (.fmax p gd ga gb) p gd (fun s => fmtF32.minmax true (f32Of (s.reg .C ga)) (f32Of (s.reg .C gb))) s

/-- FEQ: NV on a signalling NaN (Table 5-3). -/
def execFeq (p : BitVec 4) (gd ga gb : BitVec 5) (s : State) : Out :=
  floatOp (.feq p gd ga gb) p gd (fun s =>
    (bit ((s.f32 ga).feq (s.f32 gb)), { nv := (s.f32 ga).isSig || (s.f32 gb).isSig })) s

/-- FLT: NV on any NaN (Table 5-3). -/
def execFlt (p : BitVec 4) (gd ga gb : BitVec 5) (s : State) : Out :=
  floatOp (.flt p gd ga gb) p gd (fun s =>
    (bit ((s.f32 ga).lt (s.f32 gb)), { nv := (s.f32 ga).isNan || (s.f32 gb).isNan })) s

/-- FLE: NV on any NaN (Table 5-3). -/
def execFle (p : BitVec 4) (gd ga gb : BitVec 5) (s : State) : Out :=
  floatOp (.fle p gd ga gb) p gd (fun s =>
    (bit ((s.f32 ga).lt (s.f32 gb) || (s.f32 ga).feq (s.f32 gb)), { nv := (s.f32 ga).isNan || (s.f32 gb).isNan })) s

/-- FFMA: one rounding of the exact value (Table 5-3). -/
def execFfma (p : BitVec 4) (gd ga gb gc : BitVec 5) (s : State) : Out :=
  floatOp (.ffma p gd ga gb gc) p gd (fun s => fmtF32.finish none false ((s.f32 ga).fma (s.f32 gb) (s.f32 gc))) s

/-- A converted value as a register holds it: sign-extended for a signed integer type (R126). -/
def extendTy (ty v : Nat) : Word :=
  if isSignedTy ty then sext (BitVec.ofNat (tyBits ty) v) else BitVec.ofNat 64 v

/-- FCVT: from type t2 to type t1 (R126). -/
def execFcvt (p : BitVec 4) (gd ga : BitVec 5) (t2 t1 : BitVec 4) (s : State) : Out :=
  issueSimple (.fcvt p gd ga t2 t1) .C p (do
    let s ← get
    let (v, fl) := convertTy t1.toNat t2.toNat ((s.reg .C ga).toNat % 2 ^ tyBits t2.toNat) none s.ctx.csr.sat
    set ((s.raise fl).setReg .C gd (extendTy t1.toNat v))
    return .seq) s

/-! ### Translation maintenance -/

/-- TLBIRs of core k not yet acknowledged (R139). -/
def State.openInvals (s : State) (k : Nat) : Nat := (s.invals.filter fun v => v.core = some k).length

/-- TLBIRs of core k that a TLBACK waits for: not those whose replay counts as their acknowledgement (R140, Table 19-7). -/
def State.unacked (s : State) (k : Nat) : Nat := (s.invals.filter fun v => v.core = some k && !v.waived).length

/-- The replay of the TLBIR that sent an invalidation counts as acknowledged (Table 19-7). -/
def State.waive (s : State) (id : Nat) : State :=
  { s with invals := s.invals.map fun v => if v.id = id then { v with waived := true } else v }

/-- TLBIR: a release, which stalls a speculative segment (R314), then the invalidation is sent; an empty range is acknowledged at
once (R139). Its log entry keeps one more than the number of the invalidation, or 0 for an empty range (the model's own). -/
def execTlbir (p : BitVec 4) (gd ga gb : BitVec 5) (s : State) : Out :=
  issue (.tlbir p gd ga gb) .C p
    (fun s => { waits := [(decide (16 ≤ s.openInvals s.cur), .memory)] }) (pure ())
    (fun pr => do
      irrevocable
      logged .C .tlbir
        (fun r => do
          if r ≠ 0 then modify fun s => s.waive (r.toNat - 1)
          return .seq)
        (fun pr => releasing pr fun pub => do
          let s ← get
          match invalRange (s.reg .C ga).toNat (s.reg .C gb).toNat with
          | none => logEffect .C .tlbir 0 pub
          | some (lo, hi) => do
            set ({ s.invalidate { id := s.invNo, part := s.work.part, asid := bits (s.reg .C gd) 15 0, lo, hi, core := some s.cur }
              with invNo := s.invNo + 1 } : State)
            logEffect .C .tlbir (BitVec.ofNat 256 (s.invNo + 1)) pub
          return .seq) pr) s

/-- TLBACK: an irrevocable act that waits for every earlier TLBIR of the core, then refreshes (R140). -/
def execTlback (p : BitVec 4) (s : State) : Out :=
  issue (.tlback p) .C p (fun _ => {}) (pure ()) (fun pr => do
    irrevocable
    logged .C .tlback (fun _ => pure .seq)
      (fun pr => do
        let s ← get
        if s.unacked s.cur = 0 then do
          logEffect .C .tlback 0 0
          modify State.refresh
          return .seq
        else if pr.stage = 0 then return .more { stage := 1 }
        else stop (.wait .memory)) pr) s

end Sys2Proof.Machine
end

