-- ==== Sys2Proof/Machine/Csr.lean ====
section
/-! DEFINITION. The control and status registers of the C engine, and CSRR, CSRW, CSRS and CSRC (R10, R128, R129, R361,
R373). -/

namespace Sys2Proof.Machine

/-- A register assembled from fields: value and lowest bit. -/
def fields (l : List (Nat × Nat)) : Word := BitVec.ofNat 64 (l.foldl (fun a x => a + x.1 * 2 ^ x.2) 0)

/-- DOMAIN (Table 2-5). A conductor shows its own number (log 12). -/
def State.domainCsr (s : State) : Word :=
  let p := s.partOf s.cur
  let q := s.part p
  fields [(s.cur % 1024, 0), (p, 46), (q.mdrank, 50)]

/-- PHASECTL (Table 2-6). -/
def State.phaseCsr (s : State) : Word :=
  let r := s.ctx.csr
  fields (upTo 5 (fun i => (r.pn.get 0 i % 256, 8 * i)) ++ [(s.cc.phaseAt.getD 7, 40), (bit s.cc.phaseAt.isSome, 43)])

/-- WALKCNT (Table 3-3). -/
def Ctx.walkCsr (c : Ctx) : Word :=
  fields [(bits c.c.wc 15 0, 0), (bits c.a.wc 15 0, 16), (bits c.x.wc 15 0, 32), (bits c.f.wc 15 0, 48)]

/-- IMEMTAG (Table 3-2). -/
def Core.tagCsr (c : Core) : Word :=
  match c.tag with
  | some t => fields [(t.len, 0), (t.gen.toNat, 32)]
  | none => 0

/-- FSTAT (Table 5-4). -/
def Csrs.fstat (r : Csrs) : Word := fields [(bit r.nx, 0), (bit r.uf, 1), (bit r.of, 2), (bit r.nv, 3), (bit r.sat, 4)]

/-- FAULTCTL (Table 19-9). -/
def State.faultCsr (s : State) : Word :=
  let r := s.ctx.csr
  fields [(bit r.rpld, 0), (bit r.wden, 1), (bit r.nrp, 2), (min r.rcnt 255, 24), (s.work.log.length, 32)]

/-- The value of a CSR (Table 5-5). -/
def State.readCsr (s : State) (n : Nat) : Word :=
  let r := s.ctx.csr
  match n with
  | 0x000 => s.domainCsr
  | 0x001 => s.phaseCsr
  | 0x008 => r.cycle
  | 0x010 => fields [(r.off, 0), (bit r.en, 14), (bit r.inh, 15)]
  | 0x011 => fields [(r.tepc, 0)]
  | 0x012 => fields [(r.cause, 0), (r.cls, 24)]
  | 0x013 => r.tval
  | 0x014 => r.tscratch
  | 0x020 => r.fstat
  | 0x030 => fields [(r.tmo.toNat, 0), (bit r.evt, 32)]
  | 0x040 => fields [(r.win, 0), (bit r.dl, 16)]
  | 0x041 => s.ctx.walkCsr
  | 0x042 => s.cc.tagCsr
  | 0x050 => s.faultCsr
  | _ => if n % 2 = 0 then r.evsel.get 0 ((n - 0x100) / 2) else r.evcnt.get 0 ((n - 0x101) / 2)

/-- The RW bits of a CSR (R10; Tables 3-4, 5-4, 5-6, 19-9, 21-2). -/
def csrRw (n : Nat) : Word :=
  match n with
  | 0x010 => 0x7FFF
  | 0x011 => 0x3FFF
  | 0x014 => BitVec.allOnes 64
  | 0x020 => 0x10
  | 0x030 => 0xFFFFFFFF
  | 0x040 => 0xFFFF
  | 0x050 => 0x2
  | _ => if 0x100 ≤ n && n ≤ 0x11F then (if n % 2 = 0 then 0xF80FF else BitVec.allOnes 64) else 0

/-- A write of a CSR, field by field: RW fields take the value, a 1 clears a W1C field and sets EVT; a WIN of 1 stores 2
(R10, R74, R128). -/
def Csrs.write (r : Csrs) (n : Nat) (v : Word) : Csrs :=
  match n with
  | 0x010 => { r with off := bits v 13 0, en := v.getLsbD 14 }
  | 0x011 => { r with tepc := bits v 13 0 }
  | 0x014 => { r with tscratch := v }
  | 0x020 => { r with
      sat := v.getLsbD 4, nv := r.nv && !v.getLsbD 3, of := r.of && !v.getLsbD 2, uf := r.uf && !v.getLsbD 1, nx := r.nx && !v.getLsbD 0 }
  | 0x030 => { r with tmo := v.setWidth 32, evt := r.evt || v.getLsbD 32 }
  | 0x040 => { r with win := if bits v 15 0 = 1 then 2 else bits v 15 0, dl := r.dl && !v.getLsbD 16 }
  | 0x050 => { r with wden := v.getLsbD 1, rpld := r.rpld && !v.getLsbD 0 }
  | _ =>
    if 0x100 ≤ n && n ≤ 0x11F then
      if n % 2 = 0 then { r with evsel := r.evsel.set 0 ((n - 0x100) / 2) (v &&& csrRw n) }
      else { r with evcnt := r.evcnt.set 0 ((n - 0x101) / 2) v }
    else r

/-- A CSR of the executing core written. -/
def State.writeCsr (s : State) (n : Nat) (v : Word) : State := s.modCtx fun c => { c with csr := c.csr.write n v }

/-- CSRR (R128): no CSR of Table 5-5 has an RC field. -/
def execCsrr (p : BitVec 4) (gd : BitVec 5) (csr : BitVec 14) (s : State) : Out :=
  issueSimple (.csrr p gd csr) .C p (do
    let s ← get
    set (s.setReg .C gd (s.readCsr csr.toNat))
    return .seq) s

/-- CSRW (R128). -/
def execCsrw (p : BitVec 4) (gd : BitVec 5) (csr : BitVec 14) (s : State) : Out :=
  issueSimple (.csrw p gd csr) .C p (do
    modify fun s => s.writeCsr csr.toNat (s.reg .C gd)
    return .seq) s

/-- CSRS: only RW fields change (R128). -/
def execCsrs (p : BitVec 4) (gd : BitVec 5) (csr : BitVec 14) (s : State) : Out :=
  issueSimple (.csrs p gd csr) .C p (do
    modify fun s => s.writeCsr csr.toNat ((s.readCsr csr.toNat ||| s.reg .C gd) &&& csrRw csr.toNat)
    return .seq) s

/-- CSRC: only RW fields change (R128). -/
def execCsrc (p : BitVec 4) (gd : BitVec 5) (csr : BitVec 14) (s : State) : Out :=
  issueSimple (.csrc p gd csr) .C p (do
    modify fun s => s.writeCsr csr.toNat ((s.readCsr csr.toNat &&& ~~~(s.reg .C gd)) &&& csrRw csr.toNat)
    return .seq) s

end Sys2Proof.Machine
end

