-- ==== Sys2Proof/Machine/Fetch.lean ====
section
/-! DEFINITION. What an engine finds at its program counter (R70, R71, R86): nothing to do, a word of another engine, an
instruction, or no instruction. -/

namespace Sys2Proof.Machine

/-- What an engine finds at its boundary. -/
inductive Fetch where
  /-- It may not act now. -/
  | idle
  /-- An illegal instruction, by its cause (Table 3-19). -/
  | illegal (cause : Nat)
  /-- Another engine's instruction of n words. -/
  | skip (n : Nat)
  | run (i : Instr)
  deriving DecidableEq, Repr

/-- The cause of a two-word instruction whose second word lies beyond LEN: the lowest that the first word decides alone (R86).
BMZ's target stands in its first word. -/
def Core.halfCause (c : Core) (pc : Nat) (w0 : BitVec 32) : Nat :=
  match firstWordCause w0, decode w0 0 with
  | some n, _ => n
  | none, .ok (.bmz p i) => ((fixedTarget pc (.bmz p i)).bind fun t => if c.goodTarget t then none else some 5).getD 6
  | none, _ => 6

/-- The fetch of an engine of the executing core (R71, R86). -/
def State.fetch (s : State) (e : Eng) : Fetch :=
  let c := s.cc
  let g := c.ctx.eng e
  let pc := (g.prog.bind (·.home)).getD g.pc
  if !c.runnable e then .idle
  else if s.work.len ≤ pc then .illegal 6
  else if !c.firstWord pc then .illegal 5   -- DESIGN CHOICE (log 26) where pc is not ENTRY
  else
    let w0 := c.imem.get 0 pc
    let t := engOf (w0.extractLsb' 30 2)
    let n := wordLength t (bits w0 25 19)
    if t ≠ e then .skip n
    else if n = 2 && s.work.len ≤ pc + 1 then .illegal (c.halfCause pc w0)
    else match decode w0 (c.imem.get 0 (pc + 1)) with
      | .ok i => .run i
      | .error r => .illegal r.cause

/-- A skip (R71, R74): only the program counter and the walk count move. -/
def State.skip (s : State) (e : Eng) (n : Nat) : State :=
  if !s.ctx.slipOk e n then s.waitNote e .slip
  else ((s.modCtx fun c => (c.pass e n s.now).moveTo e n .seq).countOn s.cur 3 (some e) 1).stir

end Sys2Proof.Machine
end

