-- ==== Sys2Proof/Machine/Ladle.lean ====
section
/-! DEFINITION. The ladles (R184 to R192, R315, R316): the start of a chain, its entries one step at a time, the delivery of
their beats, and the cluster semaphores' takes. A COPY or an FPRINT moves 16 bytes a step. -/

namespace Sys2Proof.Machine

/-! ### Entries -/

/-- Doubleword j of entry i of a chain, in scratchpad of the core that started it (R184). -/
def State.entryDw (s : State) (c : Chain) (i j : Nat) : Word :=
  BitVec.ofNat 64 (numAt (s.core c.core).ctx.spad (c.addr + 64 * i + 8 * j) 8)

/-- The OP of entry i, or none when the entry does not lie in scratchpad (R184, R187). -/
def State.entryOp (s : State) (c : Chain) (i : Nat) : Option Nat :=
  if spadSize < c.addr + 64 * i + 64 then none else some (bits (s.entryDw c i 0) 7 0)

/-- The bits of an entry's doublewords that are not reserved, by OP (Tables 7-6, 7-7). -/
def entryBits (op : Nat) : List Word :=
  let all : Word := BitVec.allOnes 64
  match op with
  | 1 => [0x0000FFFFFFFC00FF, all, all, all, all, all, 0, 0]
  | 2 => [0xFF, 0xFFFFFFFF, 0x3F, all, all, all, 0, 0]
  | 3 => [0x00000003C01007FF, all, all, 0x3F, 0, 0, 0, 0]
  | 4 | 5 => [0xFF, 0x03FF00FF, 0, 0, 0, 0, 0, 0]
  | 6 => [0xFF, 0x3FF, 0, 0, 0, 0, 0, 0]
  | 7 => [0x00000003DE1800FF, all, 0, all, all, all, 0, 0]
  | 8 => [0xFF, all, 0, 0, 0, 0, 0, 0]
  | _ => [0, 0, 0, 0, 0, 0, 0, 0]

/-- Whether an entry has a reserved bit set (R187). -/
def State.entryReserved (s : State) (c : Chain) (i op : Nat) : Bool :=
  ((entryBits op).zipIdx).any fun x => (s.entryDw c i x.2 &&& ~~~x.1) ≠ 0

/-! ### A ladle's accesses (R185) -/

/-- A ladle's translation under the partition and ASID of the starting work. -/
def ladleXlate (l : Nat) (c : Chain) (va acc extent : Nat) : Act Nat := xlateAs (.ladle l) c.part c.asid va acc extent

/-- The address that a chain's access goes to (R181). -/
def State.chainWindow (s : State) (c : Chain) (va : Nat) : Nat := s.redirect c.part c.work none (va % 2 ^ 64)

/-- A read of n bytes at the tier: poison is machine check 12, with the line's address (Table 19-5, Table 19-11), unless a replica
serves the read (R145). -/
def ladleRead (l : Nat) (c : Chain) (va n extent : Nat) : Act (List Byte) := do
  let va' := (← get).chainWindow c va
  let key ← ladleXlate l c va' accRead extent
  let s ← get
  waitIf (s.noPath key) .memory
  trapIf (s.readPoisoned (l / 32) key n) 13 12 (BitVec.ofNat 64 (va' / 64 * 64))
  set (s.useReplica (l / 32) key)
  return s.bytesM key n

/-- The location of a write at the tier; to a lost peer it is machine check 9, with the address (R378). -/
def ladleTarget (l : Nat) (c : Chain) (va extent : Nat) : Act Nat := do
  let va' := (← get).chainWindow c va
  let key ← ladleXlate l c va' accWrite extent
  waitIf ((← get).noPath key) .memory
  trapIf ((← get).lostPeer key) 13 9 (BitVec.ofNat 64 va')
  return key

/-- The location of a record, if the entry names one. -/
def recordTarget (l : Nat) (c : Chain) (va : Nat) : Act (Option Nat) := do
  if va = 0 then return none else return some (← ladleTarget l c va 64)

/-- A record written in one step (R191). -/
def State.writeRecord (s : State) (key : Option Nat) (d : List Byte) : State :=
  match key with
  | some k => s.writeM k d
  | none => s

/-! ### What becomes of a turn -/

/-- A trap that halts a ladle at its entry. -/
def State.ladleTrap (s : State) (l : Nat) (c : Chain) (cls cause : Nat) (val : Word) (test : Nat) : State :=
  (s.modLadle l fun x => { x with halted := true }).addTrap
    { src := .ladle l, cls, cause, val, test, cont := true, core := c.core, part := c.part, unit := 2 ^ 24 + l }

/-- The chain that a ladle runs is given up, and its accesses wait no more (R47). -/
def State.dropRun (s : State) (l : Nat) : State :=
  { s.modLadle l fun x => { x with run := none } with stalled := s.stalled.filter fun x => x.client ≠ Client.ladle l }

/-- A stop of a ladle at an entry (R156, R151, R352): it halts there; after poisoned source data it is tested (R356). -/
def State.ladleStopped (s : State) (l : Nat) (c : Chain) (idx : Nat) (loops : List Nat) : Stop → State
  | .xlate n lv acc va ext =>
    let s := { s with stalled := s.stalled.filter fun x => !(x.client = Client.ladle l && (x.expired || x.level = noWalker)) }
    ((s.modLadle l fun x => { x with halted := true }).addFault
      { src := .ladle l, cause := n, level := lv, access := acc, srcCode := 2, core := c.core, va, asid := c.asid
        part := c.part, extent := ext, unit := l, cmd := idx, loops }).stir
  | .migrate lv acc va => s.addStalled (.ladle l) c.part c.asid va acc lv
  | .trap cls cause val =>
    (if cause = 12 then s.modLadle l fun x => { x with halted := true, test := some (12, s.now), poisonAt := some val }
     else s.ladleTrap l c cls cause val 0).stir
  | _ => s

/-- Whether a stop is a fault or a trap, and no wait. -/
def Stop.isFailure : Stop → Bool
  | .xlate .. | .trap .. => true
  | _ => false

/-- A step of a ladle on the chain that it runs; an abandoned chain ends with the COPYs that it has begun (R47); `idx` is the entry that it is for. -/
def ladleTurn (l : Nat) (idx : Run → Nat) (act : Run → Act Unit) (s : State) : Out :=
  let x := s.ladle l
  match x.run with
  | none => .next s
  | some r =>
    if x.halted || x.fenced || x.test.isSome then .next s
    else if r.abandoned && r.copies.isEmpty then .next (s.dropRun l).stir
    else match act r s with
      | .ok (_, t) => .next t.stir
      | .error (e, f) =>
        let s := s.keepFills f
        if r.abandoned && e.isFailure then .next (s.dropRun l).stir
        else .next (s.ladleStopped l r.chain (idx r) ((r.loops.take 4).map (·.2)) e)

/-- The running chain changed. -/
def setRun (l : Nat) (r : Run) : Act Unit := modify fun s => s.modLadle l fun x => { x with run := some r }

/-- An entry fails: a chain becomes bad at its first failing entry (R190). -/
def Run.fail (r : Run) (status idx : Nat) : Run := { r with bad := some (r.bad.getD (status, idx)) }

/-- A COPY or FPRINT fails: among COPYs in progress together, the first failing entry is the earliest. -/
def Run.failOp (r : Run) (status idx : Nat) : Run :=
  match r.bad with
  | some (st, i) => if idx < i then { r with bad := some (status, idx) } else { r with bad := some (st, i) }
  | none => { r with bad := some (status, idx) }

/-- On to the next entry; a discarded fault of this one is done with. -/
def Run.next (r : Run) : Run :=
  { r with idx := r.idx + 1, publ := none, dropped := if r.dropped = some r.idx then none else r.dropped }

/-- A publication is withheld in a bad chain: the chain record takes status 5 (R190), and still names the entry that failed first
(R191, R366). DEDUCED (log 60). -/
def Run.withhold (r : Run) : Run := { r with bad := r.bad.map fun b => (5, b.2) }

/-- A step of an entry that is no COPY: it waits for every earlier entry (R185). A malformed entry has no effect beyond
its status 7; one whose fault is discarded ends with status 9 (R187, R190). -/
def plainEntry (l op : Nat) (act : Run → (Nat → Word) → Act Unit) (s : State) : Out :=
  ladleTurn l (·.idx) (fun r => do
    let s ← get
    waitIf (s.entryOp r.chain r.idx ≠ some op || !r.copies.isEmpty) .ladle
    if r.dropped = some r.idx then setRun l (r.fail 9 r.idx).next
    else if s.entryReserved r.chain r.idx op then setRun l (r.fail 7 r.idx).next
    else act r (s.entryDw r.chain r.idx)) s

/-- A malformed entry. -/
def malformed (l : Nat) (r : Run) : Act Unit := setRun l (r.fail 7 r.idx).next

/-! ### The start of a chain -/

/-- CHAIN_START: the ladle takes the next chain, and the flow modes (R185, R316). -/
def execChainStart (l : Nat) (s : State) : Out :=
  let x := s.ladle l
  if x.run.isSome || x.fenced || x.test.isSome || x.halted then .next s
  else match x.resume, x.queue with
    | r :: rest, _ => .next (s.modLadle l fun x => { x with run := some r, resume := rest }).stir
    | [], c :: rest =>
      .next (s.modLadle l fun x => { x with run := some { chain := c, ordp := x.ordp, ordd := x.ordd }, queue := rest }).stir
    | [], [] => .next s

/-! ### COPY and FPRINT (R186, R190 to R192) -/

/-- The core whose scratchpad an entry of ladle l names (R186). -/
def ladleCore (l : Nat) (dw0 : Word) : Nat := l / 2 * 16 + bits dw0 33 30

/-- Whether a COPY entry's working fields are malformed (Table 7-6, R186). DESIGN CHOICE (log 105): of a PITCH "as R171", where no
ring gives a SLOT, the range 16 to 65,536 and the multiple of the span are asked for. -/
def copyMalformed (o : CopyOp) : Bool :=
  let ty := bits o.dw0 28 25
  let span := bits o.dw0 24 22
  let dsp := o.dw0.getLsbD 21
  let ssp := o.dw0.getLsbD 20
  let fp := o.dw0.getLsbD 19
  let xp := o.dw0.getLsbD 18
  o.src % 16 ≠ 0 || o.dst % 16 ≠ 0 || o.recAddr % 64 ≠ 0
    || o.len < 16 || 2 ^ 32 - 16 < o.len || o.len % 16 ≠ 0 || (xp && o.len % 256 ≠ 0)
    || ((xp || fp) && ty = 15)
    || (span ≠ 0 && !dsp)
    || (if span = 0 then o.pitch ≠ 0 else o.pitch < 16 || 65536 < o.pitch || o.pitch % (16 * 2 ^ span) ≠ 0)
    || (dsp && (spadSize < o.dst + o.len
      || (span ≠ 0 && !(List.range (o.len / 16)).all fun i => o.dst + swizzle (16 * i) o.pitch (16 * 2 ^ span) + 16 ≤ spadSize)))
    || (ssp && !xp && spadSize < o.src + o.len)

/-- Whether an FPRINT entry's working fields are malformed (Table 7-7). -/
def fprintMalformed (o : CopyOp) : Bool :=
  o.src % 16 ≠ 0 || o.recAddr % 64 ≠ 0 || o.len < 16 || 2 ^ 32 - 16 < o.len || o.len % 16 ≠ 0
    || bits o.dw0 28 25 = 15 || (o.dw0.getLsbD 20 && spadSize < o.src + o.len)
    || (if o.dw0.getLsbD 19 then o.exp % 64 ≠ 0 else o.exp ≠ 0)

/-- The entry that a ladle has reached, as a COPY or FPRINT with its working fields (R188). -/
def Run.entryOp (r : Run) (f : Nat → Word) (fprint : Bool) : CopyOp :=
  let (a, b, c) := r.incs.get (0, 0, 0) r.idx
  let plus (w : Word) (i : Int) : Nat := (w + BitVec.ofInt 64 i).toNat
  { idx := r.idx, fprint, dw0 := f 0, src := plus (f 1) a, dst := if fprint then 0 else plus (f 2) b, len := (f 3).toNat
    pitch := if fprint then 0 else (f 4).toNat, exp := if fprint then (f 4).toNat else 0, recAddr := plus (f 5) c }

/-- A COPY or FPRINT begins: skipped in a bad chain with status 6, malformed with status 7 (R190). -/
def beginOp (l : Nat) (r : Run) (fprint : Bool) : Act Unit := do
  let s ← get
  let o := r.entryOp (s.entryDw r.chain r.idx) fprint
  let bad := s.entryReserved r.chain r.idx (if fprint then 7 else 1) || (if fprint then fprintMalformed o else copyMalformed o)
  let ended (st : Nat) : CopyOp := { o with status := st, issued := true, recAddr := if o.recAddr % 64 = 0 then o.recAddr else 0 }
  if r.bad.isSome then setRun l { r.next with copies := r.copies ++ [ended 6] }
  else if bad then setRun l { (r.failOp 7 r.idx).next with copies := r.copies ++ [ended 7] }
  else setRun l { r.next with copies := r.copies ++ [o] }

/-- Source bytes of an entry, in scratchpad or at the tier; none beyond the scratchpad. -/
def sourceBytes (l : Nat) (c : Chain) (o : CopyOp) (a : Nat) (n : Nat) : Act (Option (List Byte)) := do
  if o.dw0.getLsbD 20 then
    if spadSize < a + 16 * n then return none
    else return some (((← get).core (ladleCore l o.dw0)).ctx.spadBytes a (16 * n))
  else
    let d ← (List.range n).mapM fun i => ladleRead l c (a + 16 * i) 16 (o.len - o.off)
    return some d.flatten

/-- The next block of a COPY with XP, or none when it is malformed or passes the scratchpad (R178, R186): its data and its
encoded length. -/
def nextBlock (l : Nat) (c : Chain) (o : CopyOp) : Act (Option (List Byte × Nat)) := do
  let ty := bits o.dw0 28 25
  match ← sourceBytes l c o (o.src + o.soff) 1 with
  | none => return none
  | some h => match vbcHead ty h with
    | none => return none
    | some x => match ← sourceBytes l c o (o.src + o.soff + 16) (x.payload ty / 16) with
      | none => return none
      | some d => return some (x.data ty d, x.len ty)

/-- The next 16 bytes of an entry's data: the entry after them, and the bytes; none when a block ends the COPY with status
4. -/
def nextData (l : Nat) (c : Chain) (o : CopyOp) : Act (Option (CopyOp × List Byte)) := do
  if !o.fprint && o.dw0.getLsbD 18 then
    if o.buf.isEmpty then
      match ← nextBlock l c o with
      | none => return none
      | some (d, n) => return some ({ o with buf := d.drop 16, soff := o.soff + n }, d.take 16)
    else return some ({ o with buf := o.buf.drop 16 }, o.buf.take 16)
  else
    match ← sourceBytes l c o (o.src + o.off) 1 with
    | none => return none
    | some d => return some (o, d)

/-- The next sequence number of a flow (R315). -/
def State.flowNext (s : State) (l dest : Nat) : BitVec 32 × State :=
  let k := 2 ^ 20 * l + dest
  (s.flowSeq.get 0 k, { s with flowSeq := s.flowSeq.set 0 k (s.flowSeq.get 0 k + 1) })

/-- A beat is written (R315): to scratchpad, the ladle's own die or the host at once, otherwise into its flow. The result
says whether it is in flight. -/
def writeBeat (l : Nat) (r : Run) (o : CopyOp) (d : List Byte) : Act Bool := do
  if o.dw0.getLsbD 21 then
    let a := o.dst + (if bits o.dw0 24 22 = 0 then o.off else swizzle o.off o.pitch (16 * 2 ^ bits o.dw0 24 22))
    modify fun s => s.modCtxOf (ladleCore l o.dw0) fun c => c.setSpad a d
    return false
  else
    let va := (← get).chainWindow r.chain (o.dst + o.off)
    let key ← ladleTarget l r.chain (o.dst + o.off) (o.len - o.off)
    let s ← get
    let flow (dest : Nat) (ordered : Bool) : Act Bool := do
      let (seq, s) := s.flowNext l dest
      set ({ s with flows := s.flows ++ [{
        ladle := l, dest, seq, key, data := BitVec.ofNat 128 (ofBytes d), entry := o.idx, lad := r.chain.lad
        chain := r.chain.seq, ordered, va, part := r.chain.part, asid := r.chain.asid }] } : State)
      return true
    match dieOfKey key with
    | some dst =>
      if dst = l / 32 then do
        set (s.writeM key d)
        return false
      else flow dst (r.ordd.getLsbD dst)
    | none =>
      if tierOfKey key = 3 then flow (4 + peerOfKey key) r.ordp
      else do
        set (s.writeM key d)
        return false

/-- One step of an entry that is not yet through: 16 bytes read, fingerprinted, and written by a COPY. -/
def moveData (l : Nat) (r : Run) (o : CopyOp) : Act Unit := do
  let put (r : Run) (o : CopyOp) : Act Unit := setRun l { r with copies := mapFirst (fun x => x.idx = o.idx) (fun _ => o) r.copies }
  if r.dropped = some o.idx then
    put { r.failOp 9 o.idx with dropped := none } { o with status := 9, issued := true }
  else match ← nextData l r.chain o with
    | none => put (r.failOp 4 o.idx) { o with status := 4, issued := true }
    | some (o', d) => do
      let flying ← if o.fprint then pure false else writeBeat l r o d
      if !o.fprint then modify fun s => match s.coreOfWork r.chain.work with
        | some k => s.countOn k 0x09 none 1
        | none => s
      let fp := if o.fprint || o.dw0.getLsbD 19 then o.fp.absorbBytes (bits o.dw0 28 25) d else o.fp
      put r { o' with fp, off := o.off + 16, issued := decide (o.len ≤ o.off + 16), beats := o.beats + bit flying }

/-- The ring advance of a COPY (R173, R186): status 8 when it cannot be made. -/
def advanceRing (l : Nat) (dw0 : Word) (s : State) : Nat × State :=
  let k := ladleCore l dw0
  let n := bits dw0 37 34
  let r := (s.core k).ctx.ring n
  if !r.init || r.free < bits dw0 47 38 + 1 then (8, s)
  else (0, s.modCtxOf k fun c => { c with rings := c.rings.set {} n { r with tail := r.tail + BitVec.ofNat 32 (bits dw0 47 38 + 1) } })

/-- Whether an FPRINT that has read its bytes has still to compare its fingerprint (R192). -/
def CopyOp.mustCompare (o : CopyOp) : Bool := o.fprint && o.status = 0 && o.dw0.getLsbD 19 && !o.compared

/-- The comparison: status 2 for a difference, 9 when the fault of the expected record has been discarded (R190). -/
def compareExpected (l : Nat) (r : Run) (o : CopyOp) : Act Unit := do
  let put (r : Run) (st : Nat) : Act Unit :=
    setRun l { r with copies := mapFirst (fun x => x.idx = o.idx) (fun _ => { o with status := st, compared := true }) r.copies }
  if r.dropped = some o.idx then put { r.failOp 9 o.idx with dropped := none } 9
  else
    let e ← ladleRead l r.chain o.exp 64 64
    put r (if (e.drop 16).take 32 = ([o.fp.nans, o.fp.maxmag.toNat, o.fp.sum.toNat, o.fp.sumsq.toNat].map fun v => toBytes v 8).flatten
      then 0 else 2)

/-- An entry whose beats are all delivered completes (R185, R191): the ring advance, then the record. -/
def completeOp (l : Nat) (r : Run) (o : CopyOp) : Act Unit := do
  let left := dropFirst (fun (x : CopyOp) => x.idx = o.idx) r.copies
  let bytes := r.bytes + (if o.fprint then 0 else o.off)
  if o.mustCompare && !r.abandoned then compareExpected l r o
  else if r.dropped = some o.idx then setRun l { r.failOp 9 o.idx with copies := left, bytes, dropped := none }
  else if r.abandoned then setRun l { r with copies := left }
  else do
    let key ← recordTarget l r.chain o.recAddr
    let s ← get
    let (st, s) := if !o.fprint && o.status = 0 && o.dw0.getLsbD 29 then advanceRing l o.dw0 s else (o.status, s)
    set (s.writeRecord key (completionRecord r.chain.seq o.idx st o.off o.fp))
    setRun l { (if st = 0 || st = 6 then r else r.failOp st o.idx) with copies := left, bytes }

/-- What a ladle can do for its COPYs: begin one, go on with one, complete one (R185). -/
inductive CopyStep where
  | start
  | move (o : CopyOp)
  | complete (o : CopyOp)
  deriving DecidableEq, Repr

/-- The steps that COPYs can take now. -/
def State.copySteps (s : State) (r : Run) : List CopyStep :=
  (if s.entryOp r.chain r.idx = some 1 && !r.abandoned && r.copies.all (fun o => o.issued && !o.fprint) then [.start] else [])
    ++ (r.copies.filter fun o => !o.issued && !o.fprint).map .move
    ++ (r.copies.filter fun o => o.issued && !o.fprint && o.beats = 0).map .complete

/-- Which step is taken: the first, or with several the one that a free value names. -/
def State.chooseStep (s : State) (r : Run) : Option CopyStep × State :=
  match s.copySteps r with
  | [] => (none, s)
  | [x] => (some x, s)
  | l => let (b, s) := s.freeByte
         (l[b.toNat % l.length]?, s)

/-- A step for one COPY: a fault halts the ladle only once every earlier entry has completed (Table 6-6). -/
def stepOp (r : Run) (o : CopyOp) (act : Act Unit) : Act Unit := fun s =>
  match act s with
  | .ok x => .ok x
  | .error e => if r.copies.head?.any (fun x => x.idx = o.idx) then .error e else .error (.wait .ladle, e.2)

/-- COPY (R185, R186): one step of the COPYs of ladle l's chain. -/
def execCopy (l : Nat) (s : State) : Out :=
  ladleTurn l (fun r => match (s.chooseStep r).1 with
      | some (.move o) | some (.complete o) => o.idx
      | _ => r.idx)
    (fun r => do
      let (x, s) := (← get).chooseStep r
      set s
      match x with
      | none => stop (.wait .ladle)
      | some .start => beginOp l r false
      | some (.move o) => stepOp r o (moveData l r o)
      | some (.complete o) => stepOp r o (completeOp l r o)) s

/-- FPRINT (R187, R192): one step of the FPRINT that ladle l has reached. -/
def execFprint (l : Nat) (s : State) : Out :=
  ladleTurn l (fun r => ((r.copies.find? (·.fprint)).map (·.idx)).getD r.idx)
    (fun r => do
      match r.copies.find? (·.fprint) with
      | some o => if o.issued then completeOp l r o else moveData l r o
      | none =>
        waitIf ((← get).entryOp r.chain r.idx ≠ some 7 || !r.copies.isEmpty) .ladle
        beginOp l r true) s

/-- DELIVER: beat i of those in flight is written to M when its flow lets it (R315); to a lost peer it is machine check 9 of its
ladle's entry, once every earlier entry has completed (R378). -/
def execDeliver (i : Nat) (s : State) : Out :=
  match s.flows[i]? with
  | none => .next s
  | some b =>
    if b.ordered && s.flows.any fun x => x.ladle = b.ladle && x.dest = b.dest && diff32 x.seq b.seq < 0 then .next s
    else
      let done := fun (r : Run) =>
        if r.chain.named b.lad b.chain then
          { r with copies := mapFirst (fun o => o.idx = b.entry && o.beats ≠ 0) (fun o => { o with beats := o.beats - 1 }) r.copies }
        else r
      let gone : State := { s with
        flows := dropAt s.flows i
        ladles := s.ladles.map fun e => (e.1, { e.2 with run := e.2.run.map done, resume := e.2.resume.map done }) }
      if s.noPath b.key then .next s
      else if s.lostPeer b.key then
        let mine := fun (r : Run) => r.chain.named b.lad b.chain && !r.abandoned
        match s.ladles.find? fun e => (e.2.run.toList ++ e.2.resume).any mine with
        | none => .next gone.stir
        | some (l, x) =>
          if !x.run.any mine then .next s else
          if x.halted || x.test.isSome || !x.run.any fun r => r.copies.head?.any fun o => o.idx = b.entry then .next s
          else .next (gone.ladleTrap l ((x.run.map (·.chain)).getD default) 13 9 (BitVec.ofNat 64 b.va) 0).stir
      else .next (gone.writeM b.key (toBytes b.data.toNat 16)).stir

/-! ### The other entries (R187 to R190) -/

/-- LADLE_LOOP (R188). -/
def execLadleLoop (l : Nat) (s : State) : Out :=
  plainEntry l 2 (fun r f => do
    let s ← get
    let count := (f 1).toNat
    let body := (f 2).toNat
    let ops := upTo body fun j => (s.entryOp r.chain (r.idx - body + j)).getD 0
    if count = 0 || body = 0 || r.idx < body || ops.any (fun o => o = 2 || o = 8) then malformed l r
    else
      let left := (r.loops.find r.idx).getD count
      if 1 < left then
        let incs := (ops.zipIdx).foldl (fun (m : SMap (Int × Int × Int)) x =>
          if x.1 = 1 || x.1 = 7 then
            let (a, b, c) := m.get (0, 0, 0) (r.idx - body + x.2)
            m.put (r.idx - body + x.2) (a + (f 3).toInt, b + (f 4).toInt, c + (f 5).toInt)
          else m) r.incs
        setRun l { r.next with idx := r.idx - body, loops := r.loops.put r.idx (left - 1), incs }
      else setRun l { r.next with loops := r.loops.drop r.idx }) s

/-- The condition of a COND entry (Table 7-7). -/
def condHolds (cc : Nat) (w v : Word) : Bool :=
  match cc with
  | 0 => w = v
  | 1 => w ≠ v
  | 2 => w.toNat < v.toNat
  | 3 => v.toNat ≤ w.toNat
  | 4 => w &&& v ≠ 0
  | _ => w &&& v = 0

/-- COND (R188): a skip that passes END is malformed. -/
def execCond (l : Nat) (s : State) : Out :=
  plainEntry l 3 (fun r f => do
    let a := (f 1).toNat
    let skip := (f 3).toNat
    let ssp := (f 0).getLsbD 20
    if 5 < bits (f 0) 10 8 || skip = 0 || a % 8 ≠ 0 || (ssp && spadSize < a + 8) then malformed l r
    else
      let d ← if ssp then pure (((← get).core (ladleCore l (f 0))).ctx.spadBytes a 8) else ladleRead l r.chain a 8 8
      if condHolds (bits (f 0) 10 8) (BitVec.ofNat 64 (ofBytes d)) (f 2) then
        let s ← get
        if (upTo skip fun j => s.entryOp r.chain (r.idx + 1 + j)).any (· = some 8) then malformed l r
        else setRun l { r.next with idx := r.idx + 1 + skip }
      else setRun l r.next) s

/-- SEMWAIT (R189, R190): the ladle arrives as a waiter; once it has taken, POISON is status 3. -/
def execSemwait (l : Nat) (s : State) : Out :=
  plainEntry l 4 (fun r f => do
    let n := bits (f 1) 25 16
    let k := semKey (l / 2) (bits (f 1) 7 0)
    if n = 0 then malformed l r
    else
      let s ← get
      let me := Waiter.ladle l n
      let x := s.sem k
      let there := x.waiters.contains me || x.taken.any fun t => t.1 = me
      let s := if there then s else s.modSem k fun x => ({ x with waiters := x.waiters ++ [me] } : Sem).take
      match (s.sem k).taken.find? fun t => t.1 = me with
      | some t => do
        set (s.modSem k fun x => { x with taken := dropFirst (fun t => t.1 = me) x.taken })
        setRun l ((if t.2 then r.fail 3 r.idx else r).next)
      | none => do
        waitIf there .semaphore
        set s) s

/-- SEMAPHORE_TAKE (R189): the oldest waiter of a cluster's semaphore takes when its count is met. -/
def execSemaphoreTake (cl sem : Nat) (s : State) : Out :=
  let k := semKey cl sem
  if (s.sem k).take = s.sem k then .next s else .next (s.modSem k Sem.take).stir

/-- SEMSIG (R189, R190): poisoned in a bad chain. -/
def execSemsig (l : Nat) (s : State) : Out :=
  plainEntry l 5 (fun r f => do
    let n := bits (f 1) 25 16
    if n = 0 then malformed l r
    else
      modify fun s => s.modSem (semKey (l / 2) (bits (f 1) 7 0)) fun x => x.signal n r.bad.isSome
      setRun l r.next) s

/-- LADLE_PUBL (R188, R190): withheld in a bad chain, malformed where R183 would refuse it; otherwise the starting work's
pending stores are published and performed, and then the handle flips. DESIGN CHOICE (log 107): while that work is off its core with
stores in its saved buffer, the ladle waits. -/
def execLadlePubl (l : Nat) (s : State) : Out :=
  plainEntry l 6 (fun r f => do
    let s ← get
    let h := bits (f 1) 9 0
    if r.bad.isSome then setRun l r.withhold.next
    else if !s.mayPublish r.chain.part r.chain.work h then malformed l r
    else match s.coreOfWork r.chain.work with
      | none => do
        waitIf ((s.off.find? fun g => g.work.id = r.chain.work).any fun g => !g.work.sb.isEmpty) .buffer
        set (s.flip r.chain.part h)
        setRun l r.next
      | some k => do
        let n := r.publ.getD (((s.core k).work.map (·.sb.length)).getD 0)
        let (t, left) := s.publishN k n
        if left = 0 && (t.core k).ob.isEmpty then
          set (t.flip r.chain.part h)
          setRun l r.next
        else
          set t
          setRun l { r with publ := some left }) s

/-- A chain ends (R185): its ladle is free, and EVT of the starting core is set. -/
def endChain (l : Nat) (r : Run) : Act Unit := modify fun s =>
  ((s.modLadle l fun x => { x with run := none }).modLadle r.chain.lad fun x =>
    { x with ended := x.ended ++ [(r.chain.seq, r.bad.isSome)] }).setEvt r.chain.core

/-- LADLE_END (R185, R191), and what stands where no entry may: an entry with no such OP is malformed (R187), an entry
beyond the scratchpad ends the chain with status 7 (R184). DESIGN CHOICE (log 106): after an entry with OP 0x00 the chain goes on. -/
def execLadleEnd (l : Nat) (s : State) : Out :=
  ladleTurn l (·.idx) (fun r => do
    let s ← get
    waitIf (!r.copies.isEmpty) .ladle
    match s.entryOp r.chain r.idx with
    | none => endChain l (r.fail 7 r.idx)
    | some op =>
      let rec0 := (s.entryDw r.chain r.idx 1).toNat
      if op = 0 || 9 ≤ op then malformed l r
      else if op ≠ 8 then stop (.wait .ladle)
      else if r.dropped = some r.idx then endChain l (r.fail 9 r.idx)
      else if s.entryReserved r.chain r.idx 8 || rec0 % 64 ≠ 0 then malformed l r
      else do
        let (st, e) := r.bad.getD (0, r.idx)
        let key ← recordTarget l r.chain rec0
        modify fun s => s.writeRecord key (completionRecord r.chain.seq e st r.bytes {})
        endChain l r) s

end Sys2Proof.Machine
end

