-- ==== Sys2Proof/Machine/Kv.lean ====
section
/-! DEFINITION. The KV store with expiry (R196 to R218): its objects in memory, the KV instructions of the access engine,
and the drains of the shakeout engines. A KV operation acts on M in one step (R207). -/

namespace Sys2Proof.Machine

/-! ### A context and the accesses to its objects -/

/-- A context as one party acts on it: the party's translation client and address space, the address of the record,
whether the party is an A engine, and whether it only rehearses the operation for its translations (R206). -/
structure Kv where
  cl : Client
  part : Nat
  asid : Nat
  va : Nat
  core : Bool
  dry : Bool := false
  deriving DecidableEq, Repr, Inhabited

/-- The location of the n bytes at an address of a KV object (R206). A shakeout engine's accesses are those of no work: no handle is its
own (R181). -/
def Kv.key (x : Kv) (va acc n : Nat) : Act Nat := do
  let s ← get
  let va := va % 2 ^ 64
  xlateAs x.cl x.part x.asid (s.redirect x.part (if x.core then s.work.id else 0) none va) acc n

/-- A read of n naturally aligned bytes at the tier (R207); poison is machine check 9, unless a replica serves the read (R145). -/
def Kv.load (x : Kv) (va n : Nat) : Act Nat := do
  let key ← x.key va accRead n
  let s ← get
  waitIf (!x.dry && s.noPath key) .memory
  poisonIf (!x.dry && s.readPoisoned (clientDie x.cl) key n) key (BitVec.ofNat 64 va)
  set (s.useReplica (clientDie x.cl) key)
  return s.readM key n

/-- A write of n naturally aligned bytes at the tier. -/
def Kv.store (x : Kv) (va n v : Nat) : Act Unit := do
  let key ← x.key va accWrite n
  waitIf (!x.dry && (← get).noPath key) .memory
  poisonIf (!x.dry && (← get).lostPeer key) key (BitVec.ofNat 64 va)
  modify fun s => s.writeN key n v

/-- A field of the doubleword at an address. -/
def Kv.field (x : Kv) (va hi lo : Nat) : Act Nat := do return fieldOf (← x.load va 8) hi lo

/-- A field of the doubleword at an address, written; the other bits stay. -/
def Kv.setField (x : Kv) (va hi lo v : Nat) : Act Unit := do
  x.store va 8 (putBits (BitVec.ofNat 64 (← x.load va 8)) hi lo v).toNat

/-- A field of the record: doubleword, high and low bit (Table 8-1). -/
structure RecField where
  dw : Nat
  hi : Nat
  lo : Nat

def fSdie : RecField := ⟨0, 48, 47⟩
def fLogw : RecField := ⟨0, 46, 42⟩
def fState : RecField := ⟨0, 41, 40⟩
def fDepth : RecField := ⟨0, 39, 36⟩
def fEw : RecField := ⟨1, 47, 38⟩
def fKw : RecField := ⟨1, 37, 28⟩
def fRwb : RecField := ⟨1, 27, 0⟩
def fHead : RecField := ⟨2, 63, 32⟩
def fCommit : RecField := ⟨2, 31, 0⟩
def fPool : RecField := ⟨3, 63, 0⟩
def fWheel : RecField := ⟨4, 63, 0⟩
def fPtail : RecField := ⟨5, 55, 32⟩
def fPhead : RecField := ⟨5, 23, 0⟩
def fCtail : RecField := ⟨6, 55, 32⟩
def fChead : RecField := ⟨6, 23, 0⟩
def fParent : RecField := ⟨7, 63, 0⟩
def fForkpos : RecField := ⟨8, 63, 32⟩
def fLfp : RecField := ⟨8, 31, 0⟩
def fHold : RecField := ⟨9, 63, 32⟩
def fKids : RecField := ⟨9, 15, 0⟩
def fPin : RecField := ⟨10, 63, 32⟩
def fDrained : RecField := ⟨10, 31, 0⟩
def fNlive : RecField := ⟨11, 63, 0⟩
def fNwrite : RecField := ⟨12, 63, 0⟩
def fNrecl : RecField := ⟨13, 63, 0⟩
def fNstale : RecField := ⟨14, 63, 0⟩
def fNlap : RecField := ⟨15, 63, 0⟩

def Kv.rd (x : Kv) (f : RecField) : Act Nat := x.field (x.va + 8 * f.dw) f.hi f.lo
def Kv.wr (x : Kv) (f : RecField) (v : Nat) : Act Unit := x.setField (x.va + 8 * f.dw) f.hi f.lo v

/-- A counter of the record moved by a difference, modulo its width. -/
def Kv.count (x : Kv) (f : RecField) (d : Int) : Act Unit := do x.wr f (((← x.rd f : Nat) + d) % (2 ^ 64 : Int)).toNat

/-- The page and the block that no link names (Tables 8-1, 8-2). -/
def noPage : Nat := 0xFFFFFF
def noBlock : Nat := 0xFFFFFFFF
/-- The expiry of a permanent entry (R196). -/
def permanent : Nat := 0xFFFFFFFF

/-- The address of a page (R200). -/
def Kv.page (x : Kv) (pg : Nat) : Act Nat := do
  let p ← x.rd fPool
  return (← x.load p 8) + pg * (1024 + 64 * (← x.field (p + 24) 15 0))

/-- The address of a block (R200). -/
def Kv.block (x : Kv) (b : Nat) : Act Nat := do return (← x.load ((← x.rd fPool) + 8) 8) + 64 * b

/-- A link of a page header: NEXT or PREV (Table 8-3). -/
def Kv.nextPage (x : Kv) (pg : Nat) : Act Nat := do x.field ((← x.page pg) + 0x10) 23 0
def Kv.setNext (x : Kv) (pg v : Nat) : Act Unit := do x.setField ((← x.page pg) + 0x10) 23 0 v
def Kv.prevPage (x : Kv) (pg : Nat) : Act Nat := do x.field ((← x.page pg) + 0x10) 55 32
def Kv.setPrev (x : Kv) (pg v : Nat) : Act Unit := do x.setField ((← x.page pg) + 0x10) 55 32 v

/-- LINK of a block (R202). -/
def Kv.link (x : Kv) (b : Nat) : Act Nat := do x.field (← x.block b) 63 32
def Kv.setLink (x : Kv) (b v : Nat) : Act Unit := do x.setField (← x.block b) 63 32 v

/-! ### The checks of a record (R199) -/

/-- KIND, VER or a reserved bit is wrong. -/
def Kv.badRecord (x : Kv) : Act Bool := do
  let d0 ← x.load x.va 8
  let d1 ← x.load (x.va + 8) 8
  let d5 ← x.load (x.va + 40) 8
  let d6 ← x.load (x.va + 48) 8
  let d9 ← x.load (x.va + 72) 8
  return fieldOf d0 7 0 ≠ 3 || fieldOf d0 15 8 ≠ 1 || fieldOf d0 63 49 ≠ 0 || fieldOf d0 35 16 ≠ 0 || fieldOf d1 63 48 ≠ 0
    || fieldOf d5 63 56 ≠ 0 || fieldOf d5 31 24 ≠ 0 || fieldOf d6 63 56 ≠ 0 || fieldOf d6 31 24 ≠ 0 || fieldOf d9 31 16 ≠ 0

/-- The pool descriptor is malformed (Table 8-2). -/
def Kv.badPool (x : Kv) : Act Bool := do
  let p ← x.rd fPool
  if p % 64 ≠ 0 then return true
  else
    let d ← (List.range 8).mapM fun i => x.load (p + 8 * i) 8
    let stride := d.getD 3 0
    return d.getD 0 0 % 4096 ≠ 0 || d.getD 1 0 % 64 ≠ 0 || fieldOf (d.getD 2 0) 31 24 ≠ 0
      || stride % 32 ≠ 0 || stride < 32 || 2048 < stride || d.getD 5 0 ≠ 0 || d.getD 6 0 ≠ 0 || d.getD 7 0 ≠ 0

/-- KV fault: a precise trap of class 12 with the record address (R206, Table 19-3). -/
def Kv.fault {α : Type} (x : Kv) (cause : Nat) : Act α := trap 12 cause (BitVec.ofNat 64 x.va)

/-- KV fault when a condition holds; a rehearsal goes past it. -/
def Kv.faultIf (x : Kv) (b : Bool) (cause : Nat) : Act Unit := if b && !x.dry then x.fault cause else pure ()

/-- A cause that the record's EW and KW decide (R206 step 6); a rehearsal goes past it. -/
def Kv.trapIf (x : Kv) (b : Bool) (cause : Nat) : Act Unit := if b && !x.dry then trap 6 cause else pure ()

/-- A wait of the operation; a rehearsal goes past it. -/
def Kv.waitIf (x : Kv) (b : Bool) : Act Unit := if b && !x.dry then stop (.wait .memory) else pure ()

/-- The translation of every structure that an operation touches comes before its causes (R206 step 4): the operation is rehearsed
without them, only its translations count, and its effects are dropped. Past a malformed record nothing is touched. -/
def Kv.rehearse {α : Type} (x : Kv) (act : Kv → Act α) : Act Unit := fun s =>
  match act { x with dry := true } s with
  | .error (.xlate c l acc va n, f) => .error (.xlate c l acc va n, f)
  | .error (.migrate l acc va, f) => .error (.migrate l acc va, f)
  | .error (_, f) => .ok ((), s.keepFills f)
  | .ok (_, t) => .ok ((), s.keepFills t.fills)

/-- A malformed record or pool descriptor is cause 1 (R199, Table 8-7). -/
def Kv.checkFormed (x : Kv) : Act Unit := do if (← x.badRecord) || (← x.badPool) then x.fault 1 else pure ()

/-- CheckOpen: causes 1 and 2, for the states that an instruction accepts (R199, Table 8-7). -/
def Kv.checkOpen (x : Kv) (states : List Nat := [1]) : Act Unit := do
  x.checkFormed
  x.faultIf (!states.contains (← x.rd fState)) 2

/-- Whether a closed record is well formed (R199). -/
def Kv.wellFormed (x : Kv) : Act Bool := do
  if (← x.badRecord) || (← x.badPool) then return false
  else
    let logw ← x.rd fLogw
    let ew ← x.rd fEw
    let kw ← x.rd fKw
    let commit ← x.rd fCommit
    let wheel ← x.rd fWheel
    let stride ← x.field ((← x.rd fPool) + 24) 15 0
    let zero ← (List.range 5).mapM fun i => x.load (x.va + 88 + 8 * i) 8
    if logw < 3 || 16 < logw || wheel % 64 ≠ 0 then return false
    else
      let heads ← (List.range (2 ^ logw)).mapM fun j => x.load (wheel + 8 * j) 8
      return decide (2 ≤ ew) && decide (ew ≤ 512) && decide (1 ≤ kw) && decide (kw < ew) && (← x.rd fRwb) ≠ 0
        && (← x.rd fState) = 0 && (← x.rd fHead) = (commit + 2 ^ 32 - 1) % 2 ^ 32 && (← x.rd fDrained) = commit
        && (← x.rd fPhead) = noPage && (← x.rd fPtail) = noPage && (← x.rd fChead) = noPage && (← x.rd fCtail) = noPage
        && (← x.rd fHold) = noBlock && (← x.rd fParent) = 0 && (← x.rd fForkpos) = 0 && (← x.rd fLfp) = 0
        && (← x.rd fDepth) = 0 && (← x.rd fKids) = 0 && (← x.rd fPin) = 0 && zero.all (· = 0)
        && heads.all (· = 2 ^ 64 - 1) && stride = (4 * ew + 31) / 32 * 32

/-! ### Pools (R200) -/

/-- A free page or block, or what an empty pool makes of the operation (R213). -/
def Kv.allocPage (x : Kv) (empty : Act Nat) : Act Nat := do
  let p ← x.rd fPool
  let pg ← x.field (p + 16) 23 0
  if pg = noPage then empty
  else
    x.setField (p + 16) 23 0 (← x.nextPage pg)
    x.setField (p + 32) 31 0 ((← x.field (p + 32) 31 0) + 2 ^ 32 - 1)
    return pg

def Kv.freePage (x : Kv) (pg : Nat) : Act Unit := do
  let p ← x.rd fPool
  x.setNext pg (← x.field (p + 16) 23 0)
  x.setField (p + 16) 23 0 pg
  x.setField (p + 32) 31 0 ((← x.field (p + 32) 31 0) + 1)

def Kv.allocBlock (x : Kv) (empty : Act Nat) : Act Nat := do
  let p ← x.rd fPool
  let b ← x.field (p + 16) 63 32
  if b = noBlock then empty
  else
    x.setField (p + 16) 63 32 (← x.link b)
    x.setField (p + 32) 63 32 ((← x.field (p + 32) 63 32) + 2 ^ 32 - 1)
    x.store (← x.block b) 8 (noBlock * 2 ^ 32)
    return b

def Kv.freeBlock (x : Kv) (b : Nat) : Act Unit := do
  let p ← x.rd fPool
  x.setLink b (← x.field (p + 16) 63 32)
  x.setField (p + 16) 63 32 b
  x.setField (p + 32) 63 32 ((← x.field (p + 32) 63 32) + 1)

/-- What an A engine makes of an empty pool: it waits while a drain of a context of the pool is pending, otherwise
cause 10 (R213). A rehearsal goes on without a page or block, which `noBlock` stands for. -/
def Kv.poolEmpty (x : Kv) : Act Nat := do
  let key ← x.key (← x.rd fPool) accRead 64
  if x.dry then return noBlock
  else if (← get).dies.any fun e => e.2.drains.any fun q => q.pool = key then stop (.wait .memory) else x.fault 10

/-! ### Pages and slots (R201) -/

/-- The chain from a page, as far as it goes; one that never ends is waited on for ever. -/
def Kv.pagesFrom (x : Kv) : (fuel : Nat) → Nat → Act (List Nat)
  | 0, _ => stop (.wait .memory)
  | n + 1, pg => if pg = noPage then pure [] else do
    let r ← x.pagesFrom n (← x.nextPage pg)
    return pg :: r

/-- The chain from a block. -/
def Kv.blocksFrom (x : Kv) : (fuel : Nat) → Nat → Act (List Nat)
  | 0, _ => stop (.wait .memory)
  | n + 1, b => if b = noBlock then pure [] else do
    let r ← x.blocksFrom n (← x.link b)
    return b :: r

/-- The pages of the main chain, then of the copy chain. -/
def Kv.mainPages (x : Kv) : Act (List Nat) := do x.pagesFrom (2 ^ 24) (← x.rd fPhead)
def Kv.copyPages (x : Kv) : Act (List Nat) := do x.pagesFrom (2 ^ 24) (← x.rd fChead)

/-- A slot of a page: the page, the slot, its write position and its expiry. -/
structure KvSlot where
  pg : Nat
  s : Nat
  w : Nat
  exp : Nat
  deriving DecidableEq, Repr, Inhabited

/-- The live slots of a page. -/
def Kv.liveSlots (x : Kv) (pg : Nat) : Act (List KvSlot) := do
  let a ← x.page pg
  let live := BitVec.ofNat 64 (← x.load a 8)
  ((List.range 64).filter fun s => live.getLsbD s).mapM fun s => do
    return { pg, s, w := ← x.load (a + 0x180 + 4 * s) 4, exp := ← x.load (a + 0x80 + 4 * s) 4 }

/-- The live slots of pages. -/
def Kv.liveOf (x : Kv) (l : List Nat) : Act (List KvSlot) := do return (← l.mapM x.liveSlots).flatten

/-- A page unlinked from its chain (R213, R214). -/
def Kv.unlink (x : Kv) (pg : Nat) : Act Unit := do
  let prev ← x.prevPage pg
  let next ← x.nextPage pg
  if prev = noPage then x.wr (if (← x.rd fPhead) = pg then fPhead else fChead) next else x.setNext prev next
  if next = noPage then x.wr (if (← x.rd fPtail) = pg then fPtail else fCtail) prev else x.setPrev next prev

/-- A new page at the tail of a chain, for an entry at position w (R210). -/
def Kv.newPage (x : Kv) (head tail : RecField) (w : Nat) : Act Nat := do
  let pg ← x.allocPage x.poolEmpty
  let old ← x.rd tail
  if pg = noBlock then do
    if old ≠ noPage then x.setNext old noPage
    return pg
  let a ← x.page pg
  x.store a 8 0
  x.store (a + 8) 8 0
  x.store (a + 0x10) 8 (old * 2 ^ 32 + noPage)
  x.store (a + 0x18) 8 w
  x.store (a + 0x20) 8 x.va
  (0x28 :: 0x30 :: 0x38 :: upTo 48 fun i => 0x280 + 8 * i).forM fun o => x.store (a + o) 8 0
  if old = noPage then x.wr head pg else x.setNext old pg
  x.wr tail pg
  return pg

/-- The tail page of a chain with a free slot, made when there is none (R210). -/
def Kv.tailPage (x : Kv) (head tail : RecField) (w : Nat) : Act Nat := do
  let pg ← x.rd tail
  if pg = noPage then x.newPage head tail w
  else if (← x.field ((← x.page pg) + 8) 6 0) = 64 then x.newPage head tail w
  else return pg

/-- An entry's data written, in words of 4 bytes. -/
def Kv.putData (x : Kv) (a : Nat) (d : List Byte) : Act Unit :=
  (List.range (d.length / 4)).forM fun i => x.store (a + 4 * i) 4 (ofBytes ((d.drop (4 * i)).take 4))

/-- An entry's data read. -/
def Kv.loadData (x : Kv) (a words : Nat) : Act (List Byte) := do
  let l ← (List.range words).mapM fun i => do return toBytes (← x.load (a + 4 * i) 4) 4
  return l.flatten

/-- Where a slot's entry lies (R201). -/
def Kv.slotAddr (x : Kv) (pg s : Nat) : Act Nat := do
  return (← x.page pg) + 0x400 + s * (← x.field ((← x.rd fPool) + 24) 15 0)

/-! ### The wheel (R202, R203) -/

/-- A filing record (Table 8-4). -/
def filing (exp pg s gen : Nat) : Nat := exp * 2 ^ 32 + pg * 256 + s * 4 + gen % 4

/-- The records of a block. -/
def Kv.recordsOf (x : Kv) (b : Nat) : Act (List Nat) := do
  let a ← x.block b
  (List.range (← x.field a 2 0)).mapM fun i => x.load (a + 8 + 8 * i) 8

/-- A block's contents written. -/
def Kv.setBlock (x : Kv) (b link : Nat) (l : List Nat) : Act Unit := do
  let a ← x.block b
  x.store a 8 (link * 2 ^ 32 + l.length)
  (l.zipIdx).forM fun r => x.store (a + 8 + 8 * r.2) 8 r.1

/-- The slot head that a position names. -/
def Kv.slotHead (x : Kv) (pos : Nat) : Act Nat := do return (← x.rd fWheel) + 8 * (pos % 2 ^ (← x.rd fLogw))

/-- File: a record appended at the tail of a slot's chain (R202). -/
def Kv.file (x : Kv) (e : Nat) (r : Nat) : Act Unit := do
  let h ← x.slotHead e
  let head ← x.field h 31 0
  let tail ← x.field h 63 32
  let l ← if head = noBlock then pure [] else x.recordsOf tail
  if head ≠ noBlock && l.length < 7 then x.setBlock tail (← x.link tail) (l ++ [r])
  else
    let b ← x.allocBlock x.poolEmpty
    if b ≠ noBlock then x.setBlock b noBlock [r]
    if head = noBlock then x.store h 8 (b * 2 ^ 32 + b)
    else
      x.setLink tail b
      x.setField h 63 32 b

/-- Whether a filing record is stale (R203). -/
def Kv.stale (x : Kv) (r : Nat) : Act Bool := do
  let a ← x.page (fieldOf r 31 8)
  let s := fieldOf r 7 2
  return (← x.load (a + 0x20) 8) ≠ x.va || !(BitVec.ofNat 64 (← x.load a 8)).getLsbD s
    || (← x.load (a + 0x80 + 4 * s) 4) ≠ fieldOf r 63 32 || (← x.load (a + 0x40 + s) 1) % 4 ≠ fieldOf r 1 0

/-- Reclaim (R213). -/
def Kv.reclaim (x : Kv) (r : Nat) : Act Unit := do
  let pg := fieldOf r 31 8
  let a ← x.page pg
  let s := fieldOf r 7 2
  x.setField a s s 0
  x.count fNlive (-1)
  x.count fNrecl 1
  if (← x.load a 8) = 0 then
    x.unlink pg
    x.freePage pg

/-- A slot filled at the tail of a chain, and its record filed (R210, R211). -/
def Kv.addEntry (x : Kv) (head tail : RecField) (w e : Nat) (d : List Byte) : Act Unit := do
  let pg ← x.tailPage head tail w
  if pg = noBlock then do
    if e ≠ permanent then x.file e 0
  else do
    let a ← x.page pg
    let s ← x.field (a + 8) 6 0
    x.putData (← x.slotAddr pg s) d
    x.store (a + 0x80 + 4 * s) 4 e
    x.store (a + 0x180 + 4 * s) 4 w
    x.setField a s s 1
    x.store (a + 8) 8 (s + 1)
    if e ≠ permanent then x.file e (filing e pg s (← x.load (a + 0x40 + s) 1))
  x.count fNlive 1

/-! ### The instructions: what they share -/

/-- The context of an instruction of the executing core, its address checked (R206). -/
def kvOf (ga : BitVec 5) : Act Kv := do
  let s ← get
  let va := (s.reg .A ga).toNat
  trapIf (decide (va % 128 ≠ 0)) 6 1
  return { cl := .coreA s.cur, part := s.work.part, asid := s.work.asid, va, core := true }

/-- The context of an instruction that writes the record: its page must allow reads and writes (R198). -/
def kvWritable (ga : BitVec 5) : Act Kv := do
  let x ← kvOf ga
  let _ ← x.key x.va accWrite 128
  return x

/-- The head of a context: 0xFFFF_FFFF reads as −1 (Table 8-1). -/
def Kv.hd (x : Kv) : Act Int := do
  let h ← x.rd fHead
  return if h = 0xFFFFFFFF then -1 else h

/-- A KV act that has no result, logged (Table 19-7). -/
def kvAct (i : Instr) (kind : ActKind) (p : BitVec 4) (ga : BitVec 5) (act : Kv → Act Unit) (s : State) : Out :=
  issueSimple i .A p (do
    let x ← kvWritable ga
    irrevocable
    logged .A kind (fun _ => pure .seq)
      (fun _ => do
        x.rehearse act
        act x
        logEffect .A kind 0 0
        return .seq) {}) s

/-! ### KVW, KVRN -/

/-- The operation of KVW: data from scratchpad address a, write position w, lifetime (R206, R210). -/
def Kv.write (a w life : Nat) (x : Kv) : Act Unit := do
  x.checkOpen
  let n := 4 * (← x.rd fEw)
  x.trapIf (decide (spadSize < a + n)) 2
  let commit ← x.rd fCommit
  x.faultIf (decide (w < commit) || decide ((w : Int) ≤ (← x.hd))) 3
  x.faultIf (decide ((← x.rd fRwb) ≤ w - commit)) 4
  x.faultIf (life = 0 || (life ≠ permanent && decide (0xFFFFFFFE < w + life))) 5
  x.addEntry fPhead fPtail w (if life = permanent then permanent else w + life) ((← get).ctx.spadBytes a n)
  x.wr fHead w
  x.count fNwrite 1

/-- KVW (R210). -/
def execKvw (p : BitVec 4) (gd ga gb : BitVec 5) (imm18 : BitVec 18) (s : State) : Out :=
  issueSimple (.kvw p gd ga gb imm18) .A p (do
    let s ← get
    let va := (s.reg .A ga).toNat
    let a := s.aAddr gd imm18
    trapIf (decide (va % 128 ≠ 0) || decide (a % 16 ≠ 0)) 6 1
    let x ← kvWritable ga
    let act := Kv.write a (bits (s.reg .A gb) 31 0) (bits (s.reg .A gb) 63 32)
    logged .A .kvw (fun _ => pure .seq)
      (fun _ => do
        x.rehearse act
        act x
        logEffect .A .kvw 0 0
        return .seq) {}) s

/-- Whether a context's own live entry is at w with an expiry not below a position, in the main chain, else in the copy
chain (R211). -/
def Kv.find (x : Kv) (w commit : Nat) : Act (Option KvSlot) := do
  let p := fun (k : KvSlot) => k.w = w && commit ≤ k.exp
  match (← x.liveOf (← x.mainPages)).find? p with
  | some k => return some k
  | none => return (← x.liveOf (← x.copyPages)).find? p

/-- An entry of a view: its write position, its expiry, the address of its data (R215). -/
structure KvEntry where
  w : Nat
  exp : Nat
  addr : Nat
  deriving DecidableEq, Repr, Inhabited

/-- Live slots as entries. -/
def Kv.entries (x : Kv) (l : List KvSlot) : Act (List KvEntry) :=
  l.mapM fun k => do return { w := k.w, exp := k.exp, addr := ← x.slotAddr k.pg k.s }

/-- View(c) and the chain of contexts from c to its root (R215): a context's own live entries, and its parent's up to
FORKPOS that no copy shadows. -/
def Kv.view (x : Kv) : (fuel : Nat) → Act (List KvEntry × List Nat)
  | 0 => stop (.wait .memory)
  | n + 1 => do
    let own ← x.entries (← x.liveOf (← x.mainPages))
    let copies ← x.entries (← x.liveOf (← x.copyPages))
    let parent ← x.rd fParent
    if parent = 0 then return (own ++ copies, [x.va])
    else
      let f ← x.rd fForkpos
      let (l, c) ← Kv.view { x with va := parent } n
      return (own ++ copies ++ l.filter (fun e => decide (e.w ≤ f) && !copies.any fun k => k.w = e.w), x.va :: c)

/-- The depth of a chain of contexts: at most 8 forks (Table 8-1), and fuel for records that software has altered. -/
def viewFuel : Nat := 65536

/-- The operation of KVRN: write position w, new expiry e; its status (R211, Table 8-8). -/
def Kv.renew (w e : Nat) (x : Kv) : Act Nat := do
  x.checkOpen
  let commit ← x.rd fCommit
  x.faultIf (decide (e < commit)) 6
  match ← x.find w commit with
  | some k =>
    if (← x.rd fKids) ≠ 0 && decide (w ≤ (← x.rd fLfp)) then return 2
    else if e = k.exp then return 0
    else
      let a ← x.page k.pg
      x.store (a + 0x80 + 4 * k.s) 4 e
      if e ≠ permanent then x.file e (filing e k.pg k.s (← x.load (a + 0x40 + k.s) 1))
      return 0
  | none =>
    let parent ← x.rd fParent
    if parent = 0 || decide ((← x.rd fForkpos) < w) then return 1
    else
      match (← Kv.view { x with va := parent } viewFuel).1.find? fun k => k.w = w && commit ≤ k.exp with
      | none => return 1
      | some k =>
        x.addEntry fChead fCtail w e (← x.loadData k.addr (← x.rd fEw))
        return 0

/-- KVRN (R211). -/
def execKvrn (p : BitVec 4) (gd ga gb : BitVec 5) (s : State) : Out :=
  issueSimple (.kvrn p gd ga gb) .A p (do
    let x ← kvWritable ga
    irrevocable
    logged .A .kvrn
      (fun r => do
        setReg .A gd (r.setWidth 64)
        return .seq)
      (fun _ => do
        let act := Kv.renew (bits (s.reg .A gb) 31 0) (bits (s.reg .A gb) 63 32)
        x.rehearse act
        let st ← act x
        logEffect .A .kvrn (BitVec.ofNat 256 st) 0
        setReg .A gd (BitVec.ofNat 64 st)
        return .seq) {}) s

/-! ### KVADV, KVRWD -/

/-- Requests that a shakeout engine queues (R212). -/
def drainLimit : Nat := 4096

/-- The operation of KVADV: the new COMMIT (R212). -/
def Kv.advance (c' : Nat) (x : Kv) : Act Unit := do
  x.checkOpen
  let c ← x.rd fCommit
  x.faultIf (decide (c' < c)) 7
  if c < c' then
    let d ← x.rd fSdie
    x.waitIf (decide (drainLimit ≤ ((← get).die d).drains.length))
    let pool ← x.key (← x.rd fPool) accRead 64
    x.wr fCommit c'
    modify fun s => s.modDie d fun y => { y with drains := y.drains ++
      [{ ctx := x.va, lo := c, hi := c', part := x.part, asid := x.asid, core := s.cur % 1024, pool }] }

/-- KVADV (R212). -/
def execKvadv (p : BitVec 4) (ga gb : BitVec 5) (s : State) : Out :=
  kvAct (.kvadv p ga gb) .kvadv p ga (Kv.advance (bits (s.reg .A gb) 31 0)) s

/-- The loop of KVRWD: the slots above h leave the tail of the main chain (R214). -/
def Kv.rewind (x : Kv) (h : Nat) : (fuel : Nat) → Act Unit
  | 0 => stop (.wait .memory)
  | n + 1 => do
    let pg ← x.rd fPtail
    if pg = noPage then pure ()
    else
      let a ← x.page pg
      let fill ← x.field (a + 8) 6 0
      if fill = 0 then pure ()
      else if (← x.load (a + 0x180 + 4 * (fill - 1)) 4) ≤ h then pure ()
      else
        let s := fill - 1
        if (← x.field a s s) = 1 then x.count fNlive (-1)
        x.setField a s s 0
        x.store (a + 0x40 + s) 1 ((← x.load (a + 0x40 + s) 1) + 1)
        x.store (a + 8) 8 s
        if s = 0 then
          x.unlink pg
          x.freePage pg
        Kv.rewind x h n

/-- The operation of KVRWD: the new head (R214). -/
def Kv.rewindTo (h : Nat) (x : Kv) : Act Unit := do
  x.checkOpen
  x.faultIf (decide (h < (← x.rd fCommit))) 8
  if (h : Int) < (← x.hd) then
    x.waitIf ((← x.rd fPin) ≠ 0)
    x.rewind h (2 ^ 32)
    x.wr fHead h

/-- KVRWD (R214). -/
def execKvrwd (p : BitVec 4) (ga gb : BitVec 5) (s : State) : Out :=
  kvAct (.kvrwd p ga gb) .kvrwd p ga (Kv.rewindTo (bits (s.reg .A gb) 31 0)) s

/-! ### KVFORK, KVEND -/

/-- Contexts open at most (R208). -/
def openLimit : Nat := 65536

/-- One more open context. -/
def Kv.opened (x : Kv) : Act Unit := modify fun s => { s with kvOpen := s.kvOpen ++ [(x.part, x.asid, x.va)] }

/-- The operation of KVFORK, of a context whose parent, if any, is at `pva` (R208). DESIGN CHOICE (log 112): causes 1 and 2 of the
parent's record carry the parent's address, cause 11 the child's. -/
def Kv.fork (pva : Nat) (x : Kv) : Act Unit := do
  let y : Kv := { x with va := pva }
  if !(← x.wellFormed) then x.fault 1
  else
    if pva ≠ 0 then
      y.checkOpen
      x.faultIf ((← y.rd fCommit) = 0 || decide (8 ≤ (← y.rd fDepth))
        || (← y.rd fEw) ≠ (← x.rd fEw) || (← y.rd fKw) ≠ (← x.rd fKw)) 11
    x.faultIf (decide (openLimit ≤ (← get).kvOpen.length)) 11
    if pva ≠ 0 then
      let f := (← y.rd fCommit) - 1
      x.wr fParent pva
      x.wr fForkpos f
      x.wr fDepth ((← y.rd fDepth) + 1)
      x.wr fCommit (f + 1)
      x.wr fHead f
      x.wr fDrained (f + 1)
      y.count fKids 1
      y.wr fLfp (max (← y.rd fLfp) f)
    x.wr fState 1
    x.opened

/-- KVFORK (R208). -/
def execKvfork (p : BitVec 4) (ga gb : BitVec 5) (s : State) : Out :=
  let pva := (s.reg .A gb).toNat
  issueSimple (.kvfork p ga gb) .A p (do
    trapIf (decide ((s.reg .A ga).toNat % 128 ≠ 0) || decide (pva % 128 ≠ 0)) 6 1
    let x ← kvWritable ga
    if pva ≠ 0 then
      let _ ← Kv.key { x with va := pva } pva accWrite 128
    irrevocable
    logged .A .kvfork (fun _ => pure .seq)
      (fun _ => do
        x.rehearse (Kv.fork pva)
        x.fork pva
        logEffect .A .kvfork 0 0
        return .seq) {}) s

/-- EndNow (R209). -/
def Kv.endNow (x : Kv) : (fuel : Nat) → Act Unit
  | 0 => stop (.wait .memory)
  | n + 1 => do
    modify fun s => { s with
      dies := s.dies.map fun e => (e.1, { e.2 with
        drains := e.2.drains.filter fun q => !(q.ctx = x.va && q.part = x.part && q.asid = x.asid) })
      kvOpen := dropFirst (fun o => o = (x.part, x.asid, x.va)) s.kvOpen }
    if (← x.rd fState) ≠ 3 then
      let pages := (← x.mainPages) ++ (← x.copyPages)
      let wheel ← x.rd fWheel
      let heads ← (List.range (2 ^ (← x.rd fLogw))).mapM fun j => x.field (wheel + 8 * j) 31 0
      let blocks ← (heads ++ [← x.rd fHold]).mapM fun h => x.blocksFrom (2 ^ 32) h
      pages.forM x.freePage
      blocks.flatten.forM x.freeBlock
    x.wr fState 0
    let parent ← x.rd fParent
    if parent ≠ 0 then
      let y : Kv := { x with va := parent }
      y.count fKids (-1)
      if (← y.rd fKids) = 0 then
        let held ← y.blocksFrom (2 ^ 32) (← y.rd fHold)
        let recs ← held.mapM y.recordsOf
        recs.flatten.forM fun r => do
          if !(← y.stale r) then y.reclaim r
        held.forM y.freeBlock
        y.wr fHold noBlock
        y.wr fLfp 0
        if (← y.rd fState) = 2 then Kv.endNow y n

/-- The operation of KVEND: it accepts an open and a broken context (R209). -/
def Kv.finish (x : Kv) : Act Unit := do
  x.checkOpen [1, 3]
  x.waitIf ((← x.rd fPin) ≠ 0)
  if (← x.rd fState) = 1 && (← x.rd fKids) ≠ 0 then x.wr fState 2
  else x.endNow viewFuel

/-- KVEND (R209). -/
def execKvend (p : BitVec 4) (ga : BitVec 5) (s : State) : Out := kvAct (.kvend p ga) .kvend p ga Kv.finish s

/-! ### KVGATH, KVSTAT -/

/-- Entries in ascending write position. -/
def insertEntry (e : KvEntry) : List KvEntry → List KvEntry
  | [] => [e]
  | k :: r => if e.w ≤ k.w then e :: k :: r else k :: insertEntry e r

/-- A gather's rings: key, value, and position when P is set (R216). -/
def gatherRings (q : BitVec 5) (vr : BitVec 4) (pp : BitVec 1) (pr : BitVec 4) : List Nat :=
  [q.toNat - 16, vr.toNat] ++ (if pp = 1 then [pr.toNat] else [])

/-- A slot's contents placed at TAIL of a ring through Swizzle (R171, R216). -/
def Ctx.fillSlot (c : Ctx) (n : Nat) (d : List Byte) : Ctx :=
  c.setChunks ((c.ring n).chunkAddrs (c.ring n).tail 0 (d.length / 16)) d

/-- One group of a gather: 64 rows to each ring, then every TAIL moves on (R216). -/
def gatherGroup (x : Kv) (rings : List Nat) (kw ew : Nat) (l : List KvEntry) : Act Unit := do
  let c := (← get).ctx
  waitIf (rings.any fun r => (c.ring r).free = 0) .ring
  let rows ← l.mapM fun e => x.loadData e.addr ew
  let pad := 64 - l.length
  let keys := (rows.map (·.take (4 * kw))).flatten ++ List.replicate (4 * kw * pad) 0
  let vals := (rows.map (·.drop (4 * kw))).flatten ++ List.replicate (4 * (ew - kw) * pad) 0
  let pos := (l.map fun e => toBytes e.w 4).flatten ++ List.replicate (4 * pad) 0xFF
  modify fun s => s.modCtx fun c =>
    let c := (rings.zip [keys, vals, pos]).foldl (fun c (y : Nat × List Byte) => c.fillSlot y.1 y.2) c
    { c with rings := rings.eraseDups.foldl (fun m r => m.set {} r { m.get {} r with tail := (m.get {} r).tail + 1 }) c.rings }

/-- The entries that a gather's progress still names. -/
def gatherEntries : List Nat → List KvEntry
  | w :: a :: r => { w, exp := 0, addr := a } :: gatherEntries r
  | _ => []

/-- The selection of a gather at position `pos` (R216): n, KW and EW, and the number of contexts pinned, those contexts, then
each entry's write position and address. A rehearsal translates the entries' data too (R206). -/
def Kv.select (key val pos : Nat) (x : Kv) : Act (List Nat) := do
  x.checkOpen
  let kw ← x.rd fKw
  let ew ← x.rd fEw
  let c := (← get).ctx
  x.trapIf (decide ((c.ring key).slot < 256 * kw) || decide ((c.ring val).slot < 256 * (ew - kw))) 5
  x.faultIf (decide (pos < (← x.rd fCommit))) 9
  let (v, pins) ← x.view viewFuel
  let l := (v.filter fun e => decide (e.w ≤ pos) && decide (pos ≤ e.exp)).foldr insertEntry []
  if x.dry then l.forM fun e => do
    let _ ← x.loadData e.addr ew
  if !l.isEmpty then pins.forM fun a => Kv.count { x with va := a } fPin 1
  return [l.length, kw, ew, pins.length] ++ pins ++ (l.map fun e => [e.w, e.addr]).flatten

/-- KVGATH (R216): the rings are checked before any wait; the entry set is fixed and PIN raised in one step; then the groups; then
PIN is lowered. -/
def execKvgath (p : BitVec 4) (gd ga gb q : BitVec 5) (vr : BitVec 4) (pp : BitVec 1) (pr : BitVec 4) (s : State) : Out :=
  let rings := gatherRings q vr pp pr
  issue (.kvgath p gd ga gb q vr pp pr) .A p (fun _ => {})
    (do
      let c := (← get).ctx
      let _ ← kvOf ga
      trapIf (rings.any (fun r => !(c.ring r).init) || (pp = 1 && decide ((c.ring pr.toNat).slot < 256))) 6 5)
    (fun prog => do
    let s ← get
    if prog.stage = 0 then
      let x ← kvWritable ga
      let act := Kv.select (q.toNat - 16) vr.toNat (bits (s.reg .A gb) 31 0)
      x.rehearse act
      let data ← act x
      if data.headD 0 = 0 then
        setReg .A gd 0
        return .seq
      else return .more { stage := 1, soft := true, keep := true, data }
    else
      let n := prog.data.headD 0
      let kw := prog.data.getD 1 0
      let ew := prog.data.getD 2 0
      let np := prog.data.getD 3 0
      let pins := (prog.data.drop 4).take np
      let l := gatherEntries (prog.data.drop (4 + np))
      let x : Kv := { cl := .coreA s.cur, part := s.work.part, asid := s.work.asid, va := (pins.headD 0), core := true }
      match ← granules ((n + 63) / 64) prog (fun g => gatherGroup x rings kw ew ((l.drop (64 * g)).take 64))
          (s.share ((n + 63) / 64)) prog.count with
      | .seq => do
        pins.forM fun a => Kv.count { x with va := a } fPin (-1)
        setReg .A gd (BitVec.ofNat 64 n)
        return .seq
      | nx => return nx) s

/-- KVSTAT (R217). -/
def execKvstat (p : BitVec 4) (gd ga : BitVec 5) (n : BitVec 4) (s : State) : Out :=
  issueSimple (.kvstat p gd ga n) .A p (do
    let x ← kvOf ga
    setReg .A gd (BitVec.ofNat 64 (← x.load (x.va + 8 * n.toNat) 8))
    return .seq) s

/-- The pending drains of a context. -/
def State.drainsOf (s : State) (part asid va : Nat) : List Drain :=
  ((s.dies.map fun e => e.2.drains).flatten).filter fun q => q.ctx = va && q.part = part && q.asid = asid

/-- KVSTAT.drain (R217): it waits until DRAINED = COMMIT, or until the context's drains are halted or stopped. DESIGN CHOICE (log 110):
with no request of the context left it does not wait. -/
def execKvstatDrain (p : BitVec 4) (gd ga : BitVec 5) (s : State) : Out :=
  issueSimple (.kvstatDrain p gd ga) .A p (do
    let x ← kvOf ga
    let q := (← get).drainsOf x.part x.asid x.va
    waitIf ((← x.rd fDrained) ≠ (← x.rd fCommit) && (← x.rd fState) ≠ 3 && !q.isEmpty && !q.any (·.halted)) .memory
    setReg .A gd (BitVec.ofNat 64 (← x.load (x.va + 80) 8))
    return .seq) s

/-! ### The shakeout engine (R212, R213) -/

/-- A record moves to the front of the hold list (R209). -/
def Kv.hold (x : Kv) (r : Nat) : Act Unit := do
  let b ← x.rd fHold
  let l ← if b = noBlock then pure [] else x.recordsOf b
  if b ≠ noBlock && l.length < 7 then x.setBlock b (← x.link b) (r :: l)
  else
    let n ← x.allocBlock (stop (.wait .memory))
    x.setBlock n b [r]
    x.wr fHold n

/-- The kept records packed into the chain's first blocks; the emptied blocks are freed (R213). -/
def Kv.pack (x : Kv) (h : Nat) (blocks : List Nat) (kept : List Nat) : Act Unit := do
  let parts := chunks 7 kept ((kept.length + 6) / 7)
  let used := blocks.take parts.length
  (parts.zipIdx).forM fun k => x.setBlock (used.getD k.2 0) ((used ++ [noBlock]).getD (k.2 + 1) noBlock) k.1
  (blocks.drop parts.length).forM x.freeBlock
  match used with
  | [] => x.store h 8 (2 ^ 64 - 1)
  | b :: _ => x.store h 8 (used.getLastD b * 2 ^ 32 + b)

/-- The record at place i from a block on, as its block and its place there (R202). -/
def Kv.recordAt (x : Kv) : (fuel : Nat) → (b i : Nat) → Act (Option (Nat × Nat × Nat))
  | 0, _, _ => stop (.wait .memory)
  | n + 1, b, i => if b = noBlock then pure none else do
    let a ← x.block b
    let k ← x.field a 2 0
    if i < k then return some (← x.load (a + 8 + 8 * i) 8, b, i)
    else x.recordAt n (← x.field a 63 32) (i - k)

/-- One step of a drain: the next record of the slot, or the end of the slot (R213). None: the request is done. -/
def drainStep (d : Nat) (q : Drain) : Act (Option Drain) := do
  let x : Kv := { cl := .shakeout d, part := q.part, asid := q.asid, va := q.ctx, core := false }
  let st ← x.rd fState
  if st = 0 || st = 3 then return none
  else
    waitIf ((← x.rd fPin) ≠ 0) .memory
    let h ← x.slotHead q.lo
    let b ← match q.block with | some b => pure b | none => x.field h 31 0
    match ← x.recordAt (2 ^ 32) b q.doneRecs with
    | some (r, b, i) =>
      let q := { q with block := some b, doneRecs := i + 1 }
      if ← x.stale r then
        x.count fNstale 1
        return some q
      else if fieldOf r 63 32 ≤ q.lo then
        if (← x.rd fKids) ≠ 0
            && decide ((← x.load ((← x.page (fieldOf r 31 8)) + 0x180 + 4 * fieldOf r 7 2) 4) ≤ (← x.rd fLfp)) then x.hold r
        else x.reclaim r
        return some q
      else
        x.count fNlap 1
        return some { q with kept := q.kept ++ [r] }
    | none =>
      x.pack h (← x.blocksFrom (2 ^ 32) (← x.field h 31 0)) q.kept
      x.wr fDrained (q.lo + 1)
      return if q.lo + 1 < q.hi then some { q with lo := q.lo + 1, block := none, doneRecs := 0, kept := [] } else none

/-- Whether a request is held back by an earlier one of its context (R212). -/
def heldBack (l : List Drain) (i : Nat) (q : Drain) : Bool :=
  (l.take i).any fun y => y.ctx = q.ctx && y.part = q.part && y.asid = q.asid

/-- The state after a request's step; none when it can take no step now. -/
def State.drainTurn (s : State) (d i : Nat) (q : Drain) : Option State :=
  let put := fun (s : State) (f : List Drain → List Drain) => (s.modDie d fun y => { y with drains := f y.drains }).stir
  match drainStep d q s with
  | .ok (some q', t) => some (put t fun l => setAt l i fun _ => q')
  | .ok (none, t) => some (put t fun l => dropAt l i)
  | .error (.xlate n lv acc va ext, f) =>
    let s := s.keepFills f
    let s := { s with stalled := s.stalled.filter fun x => !(x.client = Client.shakeout d && x.expired) }
    some ((put s fun l => setAt l i fun q => { q with halted := true }).addFault
      { src := .shakeout d q.ctx q.asid, cause := n, level := lv, access := acc, srcCode := 6, core := q.core, va, asid := q.asid
        part := q.part, extent := ext, unit := d, cmd := q.lo })
  | .error (.poison key val, f) =>
    some ((put (s.keepFills f) fun l => setAt l i fun q => { q with halted := true }).addTrap
      { src := .shakeout d q.ctx q.asid, cls := 13, cause := 9, val, cont := true, core := q.core, part := q.part, unit := unitOfKey q.core key })
  | .error (.migrate lv acc va, f) =>
    let s := s.keepFills f
    if s.stalled.any fun x => x.client = Client.shakeout d && x.va = va then none
    else some (s.addStalled (.shakeout d) q.part q.asid va acc lv)
  | .error _ => none

/-- SHAKEOUT_DRAIN: the shakeout engine of die d takes a step for the first request that can take one (R212, R213). -/
def execShakeoutDrain (d : Nat) (s : State) : Out :=
  let l := (s.die d).drains
  .next (((l.zipIdx).findSome? fun e =>
    if e.1.halted || heldBack l e.2 e.1 then none else s.drainTurn d e.2 e.1).getD s)

end Sys2Proof.Machine
end

