-- ==== Sys2Proof/Machine/Records.lean ====
section
/-! DEFINITION. Work records and code images (R15 to R24), the segment pool (R57, R58, R326, R327), work semaphores
(R23), and the work queues' depth, overflow state and held pushes (R29, R33, R36 to R39). -/

namespace Sys2Proof.Machine

/-! ### Work records (Tables 1-2, 1-3) -/

/-- Doubleword n of a record. -/
def dw (r : BitVec 1024) (n : Nat) : Word := r.extractLsb' (64 * n) 64

def recKind (r : BitVec 1024) : Nat := bits (dw r 0) 7 0
def recVer (r : BitVec 1024) : Nat := bits (dw r 0) 15 8
def recNdim (r : BitVec 1024) : Nat := bits (dw r 0) 42 40
def recWalk (r : BitVec 1024) : Nat := bits (dw r 0) 44 43
def recLvl (r : BitVec 1024) : Nat := bits (dw r 0) 47 45
def recDom (r : BitVec 1024) : Nat := bits (dw r 0) 63 48
def recSpec (r : BitVec 1024) : Bool := (dw r 0).getLsbD 32
def recSide (r : BitVec 1024) : Bool := (dw r 0).getLsbD 33
def recCode (r : BitVec 1024) : Nat := (dw r 1).toNat
def recEntry (r : BitVec 1024) : Nat := bits (dw r 2) 13 0
def recCv (r : BitVec 1024) : Nat := bits (dw r 2) 27 16
def recProb (r : BitVec 1024) : Nat := bits (dw r 2) 47 32
def recTrip (r : BitVec 1024) (d : Nat) : Nat := (r.extractLsb' (192 + 32 * d) 32).toNat
def recArgs (r : BitVec 1024) : List Word := upTo 8 fun i => dw r (6 + i)
def recWaitm (r : BitVec 1024) : Word := dw r 14
def recSigm (r : BitVec 1024) : Word := dw r 15

/-- The number of iterations of a loop-nest record. -/
def recCount (r : BitVec 1024) : Nat := (upTo (recNdim r) (recTrip r)).foldl (· * ·) 1

/-- Whether the unit that a domain level and index name lies inside a partition (R50, Table 1-6). -/
def State.domainInside (s : State) (p lvl idx : Nat) : Bool :=
  match lvl with
  | 0 => decide (idx < 1024) && (s.part p).holds (idx / 16)
  | 1 => decide (idx < 64) && (s.part p).holds idx
  | 2 => decide (idx < 4) && (List.range 16).all fun i => (s.part p).holds (16 * idx + i)
  | _ => idx = 0

/-- A condition variable, if it is allocated to a partition (R324). -/
def State.cvOf (s : State) (p cv : Nat) : Option Cv :=
  match s.cvs.find cv with
  | some v => if v.part = p then some v else none
  | none => none

/-- Whether a record is valid for a queue of a partition (R19, R21, R24, Table 1-6). -/
def State.validRecord (s : State) (p : Nat) (r : BitVec 1024) : Bool :=
  let nest := recKind r = 1
  (recKind r = 1 || recKind r = 2) && recVer r = 1
    && recLvl r ≤ 3 && s.domainInside p (recLvl r) (recDom r)
    && recCode r % 64 = 0
    && (if nest then
          bits (dw r 0) 39 16 = 0 && bits (dw r 2) 63 14 = 0
            && 1 ≤ recNdim r && recNdim r ≤ 6
            && (List.range 6).all (fun d => d < recNdim r || recTrip r d = 0)
            && recCount r ≤ 2 ^ 48
        else
          bits (dw r 0) 44 34 = 0 && bits (dw r 0) 31 16 = 0 && bits (dw r 2) 63 48 = 0 && bits (dw r 2) 31 28 = 0
            && bits (dw r 2) 15 14 = 0 && dw r 3 = 0 && dw r 4 = 0 && dw r 5 = 0
            && (if recSpec r then (s.cvOf p (recCv r)).isSome && recWaitm r = 0 && recSigm r = 0
                else !recSide r && recCv r = 0 && recProb r = 0))

/-! ### Code images (Table 1-1, R16) -/

/-- A code image as its descriptor gives it. -/
structure Image where
  desc : Nat
  gen : BitVec 32
  len : Nat
  text : Nat
  deriving DecidableEq, Repr, Inhabited

/-- What a check of a code image finds (R16, R66): the image and the locations of its text pages; a failure; a
translation fault at an address, with its access kind and the bytes still to transfer; an entry under migration on the way (R151). -/
inductive ImageRes where
  | ok (i : Image) (keys : List Nat)
  | bad
  | fault (cause level access va extent : Nat)
  | stall (level access va : Nat)
  deriving DecidableEq, Repr

/-- The text pages of an image, translated for the loader in ascending order (R16, R65); `rest` are the bytes of text from `va`
on. -/
def State.textKeys (d part asid : Nat) : Nat → (va rest : Nat) → State → Except ImageRes (List Nat) × State
  | 0, _, _, s => (.ok [], s)
  | n + 1, va, rest, s =>
    match s.translate (.loader d) part asid va accExec with
    | (.ok key, s) => match State.textKeys d part asid n (va + 4096) (rest - 4096) s with
      | (.ok l, s) => (.ok (key :: l), s)
      | (.error x, s) => (.error x, s)
    | (.fail c l, s) => (.error (.fault c l accExec va rest), s)
    | (.stall l, s) => (.error (.stall l accExec va), s)

/-- The check of R16 for an entry, on a die, under a partition and an ASID. -/
def State.checkImage (s : State) (d part asid desc entry : Nat) : ImageRes × State :=
  match s.translate (.loader d) part asid desc accRead with
  | (.fail c l, s) => (.fault c l accRead desc 64, s)
  | (.stall l, s) => (.stall l accRead desc, s)
  | (.ok key, s) =>
    let w := fun n => BitVec.ofNat 64 (s.readM (key + 8 * n) 8)
    let len := bits (w 1) 31 0
    let text := (w 2).toNat
    let pages := (4 * len + 4095) / 4096
    if bits (w 0) 31 0 = 0x4A584349 ∧ 1 ≤ len ∧ len ≤ 16384 ∧ text % 4096 = 0 ∧ bits (w 1) 63 48 = 0
        ∧ (List.range 5).all (fun i => w (3 + i) = 0) ∧ entry < len
        ∧ (List.range pages).all (fun i => (w 1).getLsbD (32 + i)) then
      match State.textKeys d part asid pages text (4 * len) (s.useReplica d key) with
      | (.ok keys, s) => (.ok ⟨desc, (w 0).extractLsb' 32 32, len, text⟩ keys, s)
      | (.error x, s) => (x, s)
    else (.bad, s.useReplica d key)

/-- The words of a text, from the locations of its pages (R65). -/
def State.textWords (s : State) (len : Nat) (keys : List Nat) : SMap (BitVec 32) :=
  ((keys.map fun k => (chunks 4 (s.bytesM k 4096) 1024).map fun l => BitVec.ofNat 32 (ofBytes l)).flatten.take len).foldl
    (fun (m : SMap (BitVec 32) × Nat) w => (m.1.set 0 m.2 w, m.2 + 1)) ([], 0) |>.1

/-- The first-word marks of a text, by parsing it from word 0 (R70). -/
def markWords (m : SMap (BitVec 32)) (len : Nat) : Nat → Nat → List Nat
  | 0, _ => []
  | f + 1, i =>
    if len ≤ i then []
    else
      let w := m.get 0 i
      i :: markWords m len f (i + wordLength (engOf (w.extractLsb' 30 2)) (bits w 25 19))

/-! ### Segments and the pool -/

/-- Pool places held (R329). -/
def State.places (s : State) : Nat :=
  (s.off.filter (·.work.place)).length + (s.cores.filter fun e => e.2.work.any (·.place)).length

/-- Whether the pool has a free place: 8,192 for the device (R329). -/
def State.poolRoom (s : State) : Bool := decide (s.places < 8192)

/-- Segments of the pool that wait to be placed for the first time (R21). -/
def State.pendingSegs (s : State) : Nat := (s.off.filter fun g => g.work.place && g.st = .fresh).length

/-- The likelihood of a chain (R326). -/
def likelihood (l : List ChainEntry) : Nat := l.foldl (fun x e => x * e.factor / 65536) 65536

/-- The spawn site of a program counter under a generation (R327). -/
def spawnSite (pc : Nat) (gen : BitVec 32) : Nat :=
  (fieldOf pc 9 0 ^^^ (fieldOf pc 13 10 * 64) ^^^ bits gen 9 0 ^^^ bits gen 19 10 ^^^ bits gen 29 20) % 1024

/-- The predictor's entry of a site (R327). -/
def Part.predict (p : Part) (site : Nat) : Nat := (p.pred.get 0x8000 site).toNat

/-- The factor of a spawn with probability `pr`: 0 takes the predictor's entry, at least 1 (R327). -/
def Part.factor (p : Part) (pr site : Nat) : Nat := if pr = 0 then max (p.predict site) 1 else pr

/-- A fresh identity for a piece of work. -/
def State.newWork (s : State) : Nat × State := (s.workNo, { s with workNo := s.workNo + 1 })

/-- The work that a record describes, before it is placed. -/
def workOf (r : BitVec 1024) (id part asid : Nat) (queue : Option Nat) (prio created : Nat) : Work :=
  { id, part, asid, desc := recCode r, entry := recEntry r, queue, args := recArgs r, sigm := recSigm r
    lvl := recLvl r, dom := recDom r, prio, created }

/-- A segment enters the pool (R329). -/
def State.enterPool (s : State) (r : BitVec 1024) (part asid : Nat) (queue : Option Nat) (prio : Nat) (chain : List ChainEntry) :
    State :=
  let (id, s) := s.newWork
  let (n, s) := s.nextCreation
  { s with off := s.off ++ [{ work := { workOf r id part asid queue prio n with chain, place := true }, since := s.now }] }

/-! ### Work semaphores (R23) -/

/-- One increment of a work semaphore. -/
def semUp (v : Word) : Word := if bits v 15 0 = 65535 then v ||| 0x10000 else v + 1

/-- The semaphores of a mask changed. -/
def Part.modSems (p : Part) (mask : Word) (f : Word → Word) : Part :=
  { p with wsem := (List.range 64).foldl (fun m n => if mask.getLsbD n then m.set 0 n (f (m.get 0 n)) else m) p.wsem }

/-- Whether every semaphore of a mask has a count of at least 1. -/
def Part.semsReady (p : Part) (mask : Word) : Bool :=
  (List.range 64).all fun n => !mask.getLsbD n || 1 ≤ bits (p.wsem.get 0 n) 15 0

/-! ### Work queues (Tables 1-7 to 1-9) -/

def WQ.part (q : WQ) : Nat := bits q.cfg 47 44
def WQ.asid (q : WQ) : Nat := bits q.cfg 63 48
def WQ.home (q : WQ) : Nat := bits q.cfg 43 42
def WQ.prio (q : WQ) : Nat := bits q.cfg 41 39
def WQ.en (q : WQ) : Bool := q.cfg.getLsbD 38
def WQ.deviceFed (q : WQ) : Bool := q.cfg.getLsbD 37
def WQ.size (q : WQ) : Nat := 2 ^ (bits q.cfg 36 33 + 4)
def WQ.hwm (q : WQ) : Nat := bits q.cfg 32 16
def WQ.lwm (q : WQ) : Nat := bits q.cfg 15 0
def WQ.active (q : WQ) : Bool := q.st = 1

/-- The depth of a queue (R29). -/
def WQ.depth (q : WQ) : Nat := (q.tail - q.head).toNat

/-- The effective priority of a queue (R34). -/
def WQ.effPrio (q : WQ) : Nat := if q.ovf then min (q.prio + 2) 7 else q.prio

/-- The address of the ring slot of an index (R29). -/
def WQ.slotVa (q : WQ) (i : BitVec 32) : Nat := (q.ring.toNat + 128 * (i.toNat % q.size)) % 2 ^ 64

/-- A queue enters the overflow state at HWM, and leaves it below LWM (R37). -/
def WQ.watch (q : WQ) : WQ :=
  if q.hwm ≤ q.depth && q.en then { q with ovf := true } else if q.depth < q.lwm then { q with ovf := false } else q

/-- The record of a translation fault at a queue: SRC 4, CORE 0 (Table 6-8). -/
def queueFault (q : WQ) (cause level access va extent : Nat) : FaultRec :=
  { src := .other, cause, level, access, srcCode := 4, va, asid := q.asid, part := q.part, extent }

/-! ### Completion of held pushes (R38, R39) -/

/-- A WQPUSH of a piece of work completes with a status: gd is written, and the instruction retires (R38). -/
def Ctx.endPush (c : Ctx) (gd : BitVec 5) (status now : Nat) : Ctx :=
  let pushes := (c.c.prog.map (·.pushes)).getD []
  let c := c.modEng .C fun g => g.setReg gd (BitVec.ofNat 64 status)
  let c := { c with
    resv := pushes.foldl (fun (m : SMap Nat) (x : Nat × Nat) => m.set 0 x.1 (m.get 0 x.1 - x.2)) c.resv
    fifo := pushes.foldl (fun (m : SMap Nat) (x : Nat × Nat) => m.set 0 x.1 (m.get 0 x.1 + x.2)) c.fifo }
  let c := c.arrive .C (c.seenLoops .C) (c.c.pc + 1)
  c.modEng .C fun g => { g with prog := none, passed := now }

/-- The effect-log entry of a completed push (Table 19-7). -/
def Work.logPush (w : Work) (c : Ctx) (status : Nat) : Work :=
  if w.log.length < 256 then
    { w with log := w.log ++ [{ kind := .wqpush, pc := c.c.pc, result := BitVec.ofNat 256 status, pub := (c.c.prog.map (·.pub)).getD 0 }] }
  else w

/-- The work of a held push goes on: on its core, or offered again from outside every core (R38, R39, R364, R365). -/
def State.endHeld (s : State) (h : Held) (status : Nat) : State :=
  match s.coreOfWork h.work with
  | some k =>
    let logs := ((s.core k).work.map fun w => decide (w.log.length < 256)).getD false
    let s := if logs then s.countOn k 0x0C none 1 else s
    s.modCore k fun c => { c with
      work := c.work.map fun w => w.logPush c.ctx status
      ctx := (let x := c.ctx.endPush h.gd status s.now
              if logs then x else { x with csr := { x.csr with nrp := true } })
      leaving := if c.leaving = some .push then (if c.preempt then some .saved else none) else c.leaving }
  | none =>
    let (n, s) := s.nextCreation
    { s with off := s.off.map fun g =>
        if g.work.id = h.work ∧ g.st = .push then
          { g with
            st := .saved
            work := { g.work with created := n }
            ctx := g.ctx.map fun c => c.endPush h.gd status s.now }
        else g }

/-- Every held push of a queue completes with a status, the records not enqueued (R38). -/
def State.endAllHeld (s : State) (q status : Nat) : State :=
  let l := (s.wq q).held
  l.foldl (fun s h => s.endHeld h status) (s.modWQ q fun w => { w with held := [] })

/-- Whether an access that waits is one of a queue's ring. -/
def WQ.ringWait (w : WQ) (x : Stalled) : Bool :=
  x.client = Client.tundish w.home && x.part = w.part && x.asid = w.asid && decide ((x.va + 2 ^ 64 - w.ring.toNat) % 2 ^ 64 < 128 * w.size)

/-- The accesses of a queue's ring and of its head word wait no more: its configuration changes (R151). -/
def State.dropQueueWaits (s : State) (q : Nat) : State :=
  let w := s.wq q
  { s with stalled := s.stalled.filter fun x => !(w.ringWait x
      || (x.client = Client.tundish w.home && x.part = w.part && x.asid = w.asid && x.va = w.heada.toNat)) }

/-- The accesses of a queue's ring wait no more: the queue is not active (R151). -/
def State.dropRingWaits (s : State) (q : Nat) : State :=
  { s with stalled := s.stalled.filter fun x => !(s.wq q).ringWait x }

/-- A queue that is not active has no copies in the front store (R32). -/
def WQ.dropFront (w : WQ) : WQ := { w with front := [], checked := false }

/-- A queue halts with an error: its held pushes complete with status 2 (Table 1-7, R38). -/
def State.haltQueue (s : State) (q err : Nat) : State :=
  ((s.dropRingWaits q).modWQ q fun w => { w.dropFront with st := 2, err }).endAllHeld q 2

/-- What becomes of a record that joins a ring. -/
inductive Enqueued where
  | counted
  /-- A translation fault has halted the queue (R33). -/
  | halted
  /-- The slot's translation waits for a migration (R151). -/
  | later
  deriving DecidableEq, Repr

/-- A record joins the ring of a queue (R32, R36): it is written to its slot before it is counted; a translation fault
there halts the queue with ERR 4. -/
def State.enqueue (s : State) (q : Nat) (r : BitVec 1024) : State × Enqueued :=
  let w := s.wq q
  let va := w.slotVa w.tail
  match s.translate (.tundish w.home) w.part w.asid va accWrite with
  | (.ok key, s) => ((s.writeN key 128 r.toNat).modWQ q fun w => { w with tail := w.tail + 1, pushed := w.pushed ++ [(w.tail, r)] }.watch, .counted)
  | (.fail c l, s) => ((s.addFault (queueFault w c l accWrite va 128)).haltQueue q 4, .halted)
  | (.stall l, s) => (s.addStalled (.tundish w.home) w.part w.asid va accWrite l, .later)

end Sys2Proof.Machine
end

