-- ==== Sys2Proof/Machine/Launch.lean ====
section
/-! DEFINITION. Work launched by device programs: WQPUSH (R36 to R39, R135), the speculation instructions (R325 to R336),
and the conductor mailboxes (R134, R339). -/

namespace Sys2Proof.Machine

/-- The n bytes at an address as a number, read once, at the instruction's issue: from the snapshot with the pending stores (R309). A
later turn has them in its progress. -/
def readOnce (pr : Prog) (va n : Nat) : Act (Nat × Prog) := do
  match pr.data with
  | v :: _ => return (v, pr)
  | [] => do
    let v := ofBytes (← coreRead .C va n)
    return (v, { pr with data := [v] })

/-! ### WQPUSH -/

/-- Statuses 4, 3, 1 and 2 of a push to a queue, in that order (Table 1-10, R135). -/
def State.pushStatus (s : State) (q : Nat) : Option Nat :=
  if 32767 < q then some 4
  else
    let w := s.wq q
    if w.part ≠ s.work.part ∨ !w.deviceFed then some 3
    else if w.st = 0 then some 1
    else if w.st = 2 then some 2
    else none

/-- The status of a push that is refused: the queue's, then status 5 for an invalid record (R24, R135). -/
def State.refusePush (s : State) (q : Nat) (r : BitVec 1024) : Option Nat :=
  match s.pushStatus q with
  | some n => some n
  | none => if s.validRecord s.work.part r then none else some 5

/-- The status of an instruction, logged. -/
def finishStatus (kind : ActKind) (gd : BitVec 5) (status pub : Nat) : Act Next := do
  logEffect .C kind (BitVec.ofNat 256 status) pub
  setReg .C gd (BitVec.ofNat 64 status)
  return .seq

/-- A status satisfied from the log. -/
def redoStatus (gd : BitVec 5) (r : BitVec 256) : Act Next := do
  setReg .C gd (r.setWidth 64)
  return .seq

/-- A push held by the overflow state (R37, R39): conductor work waits in place, other work is descheduled. -/
def holdPush (q : Nat) (r : BitVec 1024) (gd : BitVec 5) (pub : Nat) : Act Next := do
  modify fun s => s.modWQ q fun w => { w with held := w.held ++ [{ record := r, work := s.work.id, gd }] }
  return .more { stage := 2, pub, soft := true }

/-- The record reaches its queue (R36, R37): held in the overflow state, and behind pushes that are held (R38), otherwise written to
its slot and counted. -/
def pushRecord (q : Nat) (r : BitVec 1024) (gd : BitVec 5) (pub : Nat) : Act Next := do
  let s ← get
  match s.pushStatus q with
  | some n => finishStatus .wqpush gd n pub
  | none =>
    if (s.wq q).ovf || !(s.wq q).held.isEmpty then holdPush q r gd pub
    else
      let (t, x) := s.enqueue q r
      set t
      match x with
      | .counted => finishStatus .wqpush gd 0 pub
      | .halted => finishStatus .wqpush gd 2 pub
      | .later =>
        if t.stalled.length = s.stalled.length then stop (.wait .memory) else return .more { stage := 1, pub, data := [r.toNat] }

/-- The work of a push that has just been held leaves its core (R39); one that a host's request is taking off it leaves so too. -/
def State.descheduleHeld (s : State) : State :=
  let held := s.ctx.c.prog.any (fun p => p.stage = 2) && !isConductor s.cur
    && (match s.work.kind with | .conductor _ => false | _ => true)
    && s.queues.any (fun e => e.2.held.any fun h => h.work = s.work.id)
  match s.cc.leaving with
  | none => if held then s.startLeave s.cur .push else s
  | some .saved => if held then s.modCC fun c => { c with leaving := some .push } else s
  | some _ => s

/-- WQPUSH (R135): alignment, the record's translation, then, as an irrevocable act, the queue and the record; a release
before the record can be dispatched. -/
def execWqpush (p : BitVec 4) (gd ga gb : BitVec 5) (s : State) : Out :=
  .next ((issueOn (.wqpush p gd ga gb) .C p (fun _ => {}) (pure ()) (fun pr => do
    if pr.stage = 2 then stop (.wait .other)
    let s ← get
    let a := (s.reg .C gb).toNat
    let q := (s.reg .C ga).toNat
    checkAlign a 128
    let (v, pr) ← readOnce pr a 128
    let r : BitVec 1024 := BitVec.ofNat 1024 v
    irrevocable
    logged .C .wqpush (redoStatus gd)
      (fun pr => do
        let s ← get
        match (if pr.stage = 0 then s.refusePush q r else none) with
        | some n => finishStatus .wqpush gd n 0
        | none => releasing pr fun pub => pushRecord q r gd pub) pr) s).descheduleHeld)

/-! ### Spawning (R329) -/

/-- A segment record that SPAWN and SPAWNC accept. -/
def State.spawnable (s : State) (r : BitVec 1024) : Bool :=
  recKind r = 2 && s.validRecord s.work.part r && !recSpec r && recWaitm r = 0 && recSigm r = 0

/-- The chain that a child inherits (R329). -/
def Work.inheritedChain (w : Work) : List ChainEntry := w.chain.map fun e => { e with inherited := true }

/-- The last steps of a spawn: a free place, and entry into the pool (R329). -/
def spawnWith (kind : ActKind) (gd : BitVec 5) (r : BitVec 1024) (chain : List ChainEntry) (pub : Nat) : Act Next := do
  let s ← get
  if s.poolRoom then do
    set (s.enterPool r s.work.part s.work.asid none s.work.prio chain)
    finishStatus kind gd (if chain.isEmpty then 1 else 0) pub
  else do
    modify fun s => s.modPart s.work.part fun q => { q with poolfull := true }
    finishStatus kind gd 3 pub

/-- A spawn releases from non-speculative work, and takes no publish step from a speculative segment (R330). -/
def spawnRelease (pr : Prog) (effect : Nat → Act Next) : Act Next := do
  let s ← get
  if s.work.spec then effect 0 else releasing pr effect

/-- SPAWN (R329). -/
def execSpawn (p : BitVec 4) (gd gb : BitVec 5) (s : State) : Out :=
  issue (.spawn p gd gb) .C p (fun _ => {}) (pure ()) (fun pr => do
    let s ← get
    let a := (s.reg .C gb).toNat
    checkAlign a 128
    let (v, pr) ← readOnce pr a 128
    let r : BitVec 1024 := BitVec.ofNat 1024 v
    logged .C .spawn (redoStatus gd)
      (fun pr => do
        if pr.stage = 0 && !s.spawnable r then finishStatus .spawn gd 5 0
        else spawnRelease pr fun pub => do
          spawnWith .spawn gd r (← get).work.inheritedChain pub) pr) s

/-- The chain of a conditional spawn, or the status that refuses it (R329). -/
def State.spawnChain (s : State) (cv : Nat) (side : Bool) (pr pc : Nat) : Except Nat (List ChainEntry) :=
  let ch := s.work.inheritedChain
  match s.cvOf s.work.part cv with
  | none => .error 4
  | some v =>
    if ch.any (fun e => e.cv = cv && e.side ≠ side) || v.val = some (!side) then .error 2
    else if ch.any (fun e => e.cv = cv) || v.val.isSome then .ok ch
    else if ch.length = 8 then .error 6
    else
      let site := spawnSite pc s.work.gen
      .ok (ch ++ [{ cv, side, factor := (s.part s.work.part).factor pr site, site, inherited := false }])

/-- SPAWNC (R329). -/
def execSpawnc (p : BitVec 4) (gd ga gb : BitVec 5) (pr : BitVec 16) (side : BitVec 1) (s : State) : Out :=
  issue (.spawnc p gd ga gb pr side) .C p (fun _ => {}) (pure ()) (fun pg => do
    let s ← get
    let a := (s.reg .C gb).toNat
    let cv := bits (s.reg .C ga) 11 0
    checkAlign a 128
    let (v, pg) ← readOnce pg a 128
    let r : BitVec 1024 := BitVec.ofNat 1024 v
    logged .C .spawnc (redoStatus gd)
      (fun pg => do
        if pg.stage = 0 && !s.spawnable r then finishStatus .spawnc gd 5 0
        else match s.spawnChain cv (side = 1) pr.toNat s.ctx.c.pc with
        | .error n => finishStatus .spawnc gd n pg.pub
        | .ok _ => spawnRelease pg fun pub => do
          let s ← get
          match s.spawnChain cv (side = 1) pr.toNat s.ctx.c.pc with
          | .error n => finishStatus .spawnc gd n pub
          | .ok ch => spawnWith .spawnc gd r ch pub) pg) s

/-! ### Condition variables -/

/-- CVNEW: the lowest-numbered free variable, tied to a speculative segment (R325). -/
def execCvnew (p : BitVec 4) (gd : BitVec 5) (s : State) : Out :=
  issue (.cvnew p gd) .C p (fun _ => {}) (pure ())
    (logged .C .cvnew (redoStatus gd) fun _ => do
      let s ← get
      match (List.range 4096).find? fun n => (s.cvs.find n).isNone with
      | some n => do
        set { s with cvs := s.cvs.put n { part := s.work.part, tie := if s.work.spec then some s.work.id else none } }
        finishStatus .cvnew gd n 0
      | none => finishStatus .cvnew gd 0xFFFFFFFFFFFFFFFF 0) s

/-- CVFREE: a resolved variable of the partition is freed; an unresolved one, or one of another partition, sets CVERR
(R325). -/
def execCvfree (p : BitVec 4) (ga : BitVec 5) (s : State) : Out :=
  issue (.cvfree p ga) .C p (fun _ => {}) (pure ()) (fun pr => do
    irrevocable
    logged .C .cvfree (fun _ => pure .seq)
      (fun _ => do
        let s ← get
        let n := bits (s.reg .C ga) 11 0
        match s.cvs.find n with
        | none => pure ()
        | some v =>
          if v.part = s.work.part ∧ v.val.isSome then set { s with cvs := s.cvs.drop n }
          else modify fun s => s.modPart s.work.part fun q => { q with cverr := true }
        logEffect .C .cvfree 0 0
        return .seq) pr) s

/-! ### Resolution (R331, R332) -/

/-- Whether a piece of work is on the losing side of a resolution. -/
def Work.loses (w : Work) (cv : Nat) (v : Bool) : Bool := w.chain.any fun e => e.cv = cv && e.side ≠ v

/-- Whether a chain names a variable. -/
def Work.names (w : Work) (cv : Nat) : Bool := w.chain.any fun e => e.cv = cv

/-- The chain without a resolved variable. -/
def Work.without (w : Work) (cv : Nat) : Work := { w with chain := w.chain.filter fun e => e.cv ≠ cv }

/-- All work of the device that is a segment, with its creation number: on cores, then off them. -/
def State.allWork (s : State) : List Work := s.cores.filterMap (fun e => e.2.work) ++ s.off.map (·.work)

/-- One training step of a predictor entry (R327). -/
def train (e : Nat) (hit : Bool) : Nat := if hit then e + (0xFFFF - e) / 8 else e - e / 8

/-- The predictor update of a resolution: the entries not inherited that name the variable, in ascending creation number
of their segments (R327). -/
def State.trainAll (s : State) (part cv : Nat) (v : Bool) : State :=
  let l := sortBy (fun (a b : Work) => decide (a.created ≤ b.created)) (s.allWork.filter (·.names cv))
  let entries := (l.map fun w => w.chain.filter fun e => e.cv = cv && !e.inherited).flatten
  entries.foldl (fun s e => s.modPart part fun p =>
    { p with pred := p.pred.set 0x8000 e.site (BitVec.ofNat 16 (train (p.predict e.site) (e.side = v))) }) s

/-- The phase numbers that work sees as it joins its domains (R56): those of levels 0 to 4. -/
def State.phaseNumbers (s : State) (p k : Nat) : SMap Nat :=
  let q := s.part p
  let at' := fun (l i : Nat) => (q.phase.get 0 (1024 * l + i)).toNat
  [(0, at' 0 k), (1, at' 1 (k / 16)), (2, at' 2 (k / 256)), (3, at' 3 0), (4, (s.groups.get {} q.mdid).p.toNat)].foldl
    (fun m x => m.set 0 x.1 x.2) []

/-- The variables tied to a segment are tied no more (R325). -/
def State.untie (s : State) (id : Nat) : State :=
  { s with cvs := s.cvs.map fun (e : Nat × Cv) => (e.1, if e.2.tie = some id then { e.2 with tie := none } else e.2) }

/-- Work of core k that has become non-speculative joins its active sets, and its tied variables are tied no more; a
deschedule that its speculation caused ends (R55, R325, R332, R364). -/
def State.becomeReal (s : State) (k : Nat) (id : Nat) : State :=
  let s := s.untie id
  s.modCore k fun c => { c with
    work := c.work.map fun w => { w with place := false, joined := s.now + 1 }
    leaving := if c.leaving = some .suspended ∨ c.leaving = some .parked then (if c.preempt then some .saved else none) else c.leaving
    ctx := { c.ctx with csr := { c.ctx.csr with pn := s.phaseNumbers (s.partOf k) k } } }

/-- A pruned piece of work off every core goes: its slot and its place are freed, and what it has published is performed (R310,
R332). -/
def State.dropSeg (s : State) (g : Seg) : State :=
  let s := g.ob.foldl State.perform s
  let s := (s.forget g.work).freeTied g.work.id
  let s := ((g.ctx.map Ctx.pins).getD []).foldl (State.unpin (.coreA (g.core.getD 0)) g.work) s
  let s := s.modPart g.work.part fun p => { p with slots := p.slots.filter fun i => g.slot ≠ some i }
  { s.disarm g.work with off := s.off.filter fun x => x.work.id ≠ g.work.id }

/-- The work of core k is pruned, or ends by ABORT, which leaves its rings (R332, R351, R372). -/
def State.pruneCore (s : State) (k : Nat) (rings : Bool := true) : State :=
  match (s.core k).work with
  | none => s
  | some w => ((s.freeTied w.id).disarm w).endWork k rings

/-- A piece of work off every core changed. -/
def State.modSeg (s : State) (id : Nat) (f : Seg → Seg) : State :=
  { s with off := s.off.map fun g => if g.work.id = id then f g else g }

/-- The publish step of a parked segment that retires, over its oldest n stores: in order, into the outbound queue that it takes
along; one whose retranslation fails is held, with those behind it (R161, R310, R332). -/
def State.publishParked (id : Nat) : Nat → State → State
  | 0, s => s
  | n + 1, s =>
    match s.off.find? (·.work.id = id) with
    | none => s
    | some g => match g.work.sb with
      | [] => s
      | t :: _ =>
        let k := g.core.getD 0
        let move := fun (s : State) (t : Store) =>
          State.publishParked id n (s.modSeg id fun g => { g with work := { g.work with sb := g.work.sb.tail }, ob := g.ob ++ [t] })
        if s.lateHeld g.work then s
        else if t.mark then
          match s.translate (engClient k t.eng) t.part t.asid t.va accWrite with
          | (.ok key, s) => move s { t with key, mark := false }
          | (.stall l, s) => s.addStalled (engClient k t.eng) t.part t.asid t.va accWrite l
          | (.fail _ _, s) => s.addFault (lateFault k g.work t)
        else move s t

/-- A parked segment whose chain is empty retires (R101, R332, R372): its stores are published, and once they are performed it
leaves. -/
def State.settleSeg (s : State) (id : Nat) : State :=
  let s := State.publishParked id (((s.off.find? (·.work.id = id)).map (·.work.sb.length)).getD 0) s
  match s.off.find? (·.work.id = id) with
  | none => s
  | some g =>
    if g.work.sb.isEmpty && g.ob.isEmpty then (s.modPart g.work.part fun p => p.modSems g.work.sigm semUp).dropSeg g else s

/-- Parked segments whose chain is empty retire. -/
def State.settleParked (s : State) : State :=
  (s.off.filter fun g => g.st = .parked && g.work.chain.isEmpty).foldl (fun s g => s.settleSeg g.work.id) s

/-- The perform step of a segment that has parked on core k and retires (R310, R332). To a lost peer it is machine check 9, and the
store stays (R378, log 33). -/
def State.performParked (s : State) (k : Nat) : Option State :=
  match s.off.find? fun g => g.core = some k && g.st = .parked && !g.ob.isEmpty with
  | none => none
  | some g => match g.ob with
    | [] => none
    | t :: r =>
      if s.noPath t.key then none
      else if s.lostPeer t.key then
        if g.ctx.any (·.held) then none
        else some ((s.modSeg g.work.id fun g => { g with ctx := g.ctx.map fun c => { c with held := true } }).addTrap
          (lostStore k g.asCore.2 g.work t))
      else some (((s.modSeg g.work.id fun g => { g with ob := r }).perform t).settleSeg g.work.id)

/-- One core under a resolution (Table 18-5). -/
def State.resolveCore (cv : Nat) (v : Bool) (s : State) (k : Nat) : State :=
  match (s.core k).work with
  | none => s
  | some w =>
    if !w.names cv then s
    else if w.loses cv v then s.pruneCore k
    else
      let s := s.modWorkOf k fun w => w.without cv
      if (w.without cv).chain.isEmpty then s.becomeReal k w.id else s

/-- One segment off every core under a resolution (Table 18-5). -/
def State.resolveSeg (cv : Nat) (v : Bool) (s : State) (g : Seg) : State :=
  if !g.work.names cv then s
  else if g.work.loses cv v then s.dropSeg g
  else
    let w := g.work.without cv
    let w := if w.chain.isEmpty then { w with joined := s.now + 1 } else w
    let s : State := { s with off := s.off.map fun x => if x.work.id = w.id then { x with work := w } else x }
    if w.chain.isEmpty then s.untie w.id else s

/-- The resolution step at the speculation table (R331, R332). -/
def State.resolve (s : State) (part cv : Nat) (v : Bool) : State :=
  let s := { s with cvs := s.cvs.put cv { part, val := some v } }
  let s := s.trainAll part cv v
  let s := (s.cores.map (·.1)).foldl (fun s k => s.resolveCore cv v k) s
  (s.off.foldl (fun s g => s.resolveSeg cv v g) s).settleParked

/-- Cores on which a resolution prunes work. -/
def State.losers (s : State) (cv : Nat) (v : Bool) : List Nat :=
  (s.cores.filter fun e => e.2.work.any fun w => w.loses cv v).map (·.1)

/-- RESOLVE (R331): stage 2 waits until every running segment it pruned has left its core. -/
def execResolve (p : BitVec 4) (gd ga : BitVec 5) (v : BitVec 1) (s : State) : Out :=
  issue (.resolve p gd ga v) .C p (fun _ => {}) (pure ()) (fun pr => do
    irrevocable
    logged .C .resolve (redoStatus gd)
      (fun pr => do
        let s ← get
        let cv := bits (s.reg .C ga) 11 0
        if pr.stage = 2 then
          if pr.data.any fun k => (s.core k).ending then stop (.wait .other)
          else finishStatus .resolve gd 0 pr.pub
        else match s.cvOf s.work.part cv with
        | none => finishStatus .resolve gd 4 pr.pub
        | some c =>
          if c.val.isSome then finishStatus .resolve gd 1 pr.pub
          else releasing pr fun pub => do
            let s ← get
            match s.cvOf s.work.part cv with
            | none => finishStatus .resolve gd 4 pub
            | some c =>
              if c.val.isSome then finishStatus .resolve gd 1 pub
              else do
                set (s.resolve s.work.part cv (v = 1))
                let t ← get
                let rest := (s.losers cv (v = 1)).filter fun k => (t.core k).ending
                if rest.isEmpty then finishStatus .resolve gd 0 pub
                else return .more { stage := 2, data := rest, pub }) pr) s

/-- YIELD (R335): a segment gives up its core; in an iteration or conductor work, and without a free save slot (R364),
only its dependence bits act. -/
def execYield (p : BitVec 4) (s : State) : Out :=
  issueSimple (.yield p) .C p (do
    let s ← get
    match s.work.kind with
    | .segment =>
      if (s.slotFor s.work.part s.leaveNo).isSome then return .yield
      else do
        modify fun s => s.modPart s.work.part fun q => { q with savecfg := putBits q.savecfg 16 16 1 }
        return .seq
    | _ => return .seq) s

/-! ### Mailboxes (R134) -/

/-- The messages in a mailbox, oldest first. -/
def State.mbox (s : State) (m : Nat) : List (BitVec 256) := s.mboxes.get [] m

/-- Whether core k is the sending end of mailbox m: conductor m (R134, R339). -/
def sendingEnd (k m : Nat) : Bool := k = 1024 + m

/-- Whether core k is the receiving end of mailbox m: the other conductor of the pair. -/
def receivingEnd (k m : Nat) : Bool := k = 1024 + (if m % 2 = 0 then m + 1 else m - 1)

/-- The wait of MBSEND and MBRECV, from which a pre-emption takes the instruction back (R134, R363). -/
def mailboxWait (pr : Prog) (wait : Bool) (act : Prog → Act Next) : Act Next :=
  if pr.stage = 1 then act pr
  else if !wait then act { pr with stage := 0, soft := false, undo := false }
  else if pr.stage = 0 then return .more { pr with stage := 4, soft := true, undo := true }
  else stop (.wait .mailbox)

/-- MBSEND (R134): the message is read once, and appended when the release is over. -/
def execMbsend (p : BitVec 4) (gd ga gb : BitVec 5) (s : State) : Out :=
  issue (.mbsend p gd ga gb) .C p (fun _ => {}) (pure ()) (fun pr => do
    let s ← get
    let m := (s.reg .C gb).toNat
    if 7 < m then do
      setReg .C gd 2
      return .seq
    else if !sendingEnd s.cur m then do
      setReg .C gd 1
      return .seq
    else do
      let a := (s.reg .C ga).toNat
      checkAlign a 32
      let (v, pr) ← readOnce pr a 32
      irrevocable
      logged .C .mbsend
        (fun _ => do
          setReg .C gd 0
          return .seq)
        (fun pr => mailboxWait pr (decide (64 ≤ (s.mbox m).length)) fun pr =>
          releasing pr fun pub => do
            let s ← get
            let dest := if m % 2 = 0 then 1024 + m + 1 else 1024 + m - 1
            set (({ s with mboxes := s.mboxes.set [] m (s.mbox m ++ [BitVec.ofNat 256 v]) } : State).setEvt dest)
            logEffect .C .mbsend 0 pub
            setReg .C gd 0
            return .seq) pr) s

/-- MBRECV (R134): the message is appended to the store buffer, and the snapshot refreshed. -/
def execMbrecv (p : BitVec 4) (gd ga gb : BitVec 5) (s : State) : Out :=
  issue (.mbrecv p gd ga gb) .C p (fun _ => {}) (pure ()) (fun pr => do
    let s ← get
    let m := (s.reg .C gb).toNat
    if 7 < m then do
      setReg .C gd 2
      return .seq
    else if !receivingEnd s.cur m then do
      setReg .C gd 1
      return .seq
    else do
      let a := (s.reg .C ga).toNat
      checkAlign a 32
      let _ ← xlate (.coreC s.cur) (s.windowNow a) accWrite 32
      irrevocable
      logged .C .mbrecv
        (fun r => do
          storeAppend .C a 32 r.toNat
          setReg .C gd 0
          return .seq)
        (fun pr => mailboxWait pr (s.mbox m).isEmpty fun _ => do
          let msg := (s.mbox m).headD 0
          modify fun s => ({ s with mboxes := s.mboxes.set [] m (s.mbox m).tail } : State).setEvt (1024 + m)
          logEffect .C .mbrecv msg 0
          storeAppend .C a 32 msg.toNat
          modify State.refresh
          setReg .C gd 0
          return .seq) pr) s

/-- MBPOLL (R134). -/
def execMbpoll (p : BitVec 4) (gd ga gb : BitVec 5) (s : State) : Out :=
  issueSimple (.mbpoll p gd ga gb) .C p (do
    let s ← get
    let m := (s.reg .C gb).toNat
    setReg .C gd (
      if m ≤ 7 && receivingEnd s.cur m then BitVec.ofNat 64 (s.mbox m).length
      else if m ≤ 7 && sendingEnd s.cur m then BitVec.ofNat 64 (64 - (s.mbox m).length)
      else BitVec.allOnes 64)
    return .seq) s

end Sys2Proof.Machine
end

