-- ==== Sys2Proof/Machine/Queue.lean ====
section
/-! DEFINITION. The work queues as the host and the tundishes act on them: tail writes, enabling and disabling, the front
store, the head word, and the completion of held pushes (R25 to R33, R38). -/

namespace Sys2Proof.Machine

/-- A write of the host window acts once the device is ready (R383). -/
def atReady (f : State → State) (s : State) : Out := .next (if s.stage = 5 then (f s).stir else s)

/-- A write of a register of partition p, of which there are 16 (R45). -/
def atPart (p : Nat) (f : State → State) (s : State) : Out := if p < 16 then atReady f s else .next s

/-- A queue number of the package (R25). -/
def isQueue (q : Nat) : Bool := decide (q < 32768)

/-! ### The head word (R29, R31, R33) -/

/-- The head index written to the head word: a translation fault is reported, and the result names what came of it; the write is then
made again at the next enable only (R29, R33). -/
def State.writeHead (s : State) (q : Nat) : State × Enqueued :=
  let w := s.wq q
  let va := w.heada.toNat
  match s.translate (.tundish w.home) w.part w.asid va accWrite with
  | (.ok key, s) => ((s.writeN key 8 w.head.toNat).modWQ q fun w => { w with dirty := false, headBad := false }, .counted)
  | (.fail c l, s) => ((s.addFault (queueFault w c l accWrite va 8)).modWQ q fun w => { w with headBad := true }, .halted)
  | (.stall l, s) => (s.addStalled (.tundish w.home) w.part w.asid va accWrite l, .later)

/-- The head advances past a record (R31). -/
def WQ.pass (w : WQ) : WQ :=
  { w with
    head := w.head + 1, dirty := true, front := w.front.drop 1, walk := none
    pushed := w.pushed.filter fun i => i.1 ≠ w.head, checked := false }.watch

/-- The front record of a queue, once the front store holds it. -/
def WQ.frontRec (w : WQ) : Option (BitVec 1024) :=
  match w.front with
  | (i, r) :: _ => if i = w.head then some r else none
  | [] => none

/-- Whether a queue's front record is invalid: a record that the host has written is checked when it reaches the front
(R24). One that WQPUSH has enqueued was checked then, as long as its slot still
holds it. DEDUCED (log 116). -/
def State.frontBad (s : State) (w : WQ) : Bool :=
  match w.frontRec with
  | none => false
  | some r => w.active && w.walk.isNone && !w.checked && !w.pushed.contains (w.head, r) && !s.validRecord w.part r

/-- The check of a record that has just reached the front of its queue: an invalid one halts the queue (R24). -/
def State.checkFront (s : State) (q : Nat) : State :=
  let w := s.wq q
  if w.frontRec.isNone then s
  else if s.frontBad w then s.haltQueue q 3
  else s.modWQ q fun w => { w with checked := true }

/-- The front record leaves queue q, and the next one reaches the front (R24, R31). -/
def State.passRecord (s : State) (q : Nat) : State := (s.modWQ q WQ.pass).checkFront q

/-- HEAD_WORD_WRITE (R29, R31, R33): a fault halts an enabled queue; a queue whose enable waits for the write becomes
active. A write that has faulted waits for the next enable. -/
def execHeadWordWrite (q : Nat) (s : State) : Out :=
  let w := s.wq q
  if !w.dirty || w.headBad then .next s
  else match s.writeHead q with
    | (s, .counted) => .next (s.modWQ q fun w => if w.en && w.st = 0 then { w with st := 1, err := 0 }.watch else w).stir
    | (s, .halted) =>
      .next (if w.en then s.haltQueue q 4 else s.modWQ q fun w => { w with err := 4 }).stir
    | (s, .later) => .next s

/-! ### Tail writes (R29, R30) -/

/-- A write of a tail index to a queue. -/
def State.writeTail (s : State) (q : Nat) (v : Word) : State :=
  let w := s.wq q
  let t : BitVec 32 := v.setWidth 32
  if !isQueue q then s
  else if !w.en then
    let s := s.modWQ q fun w => { w with
      head := t, tail := t, front := [], walk := none, dirty := true, headBad := false, pushed := [], checked := false }.watch
    match s.writeHead q with
    | (s, .halted) => s.modWQ q fun w => { w with err := 4 }
    | (s, _) => s
  else if w.deviceFed then s.haltQueue q 2
  else
    let d := (t - w.tail).toNat
    if d = 0 then s
    else if d ≤ w.size - w.depth then s.modWQ q fun w => { w with tail := t }.watch
    else s.haltQueue q 2

/-- WQTAIL_WRITE. -/
def execWqtailWrite (q : Nat) (v : BitVec 64) (s : State) : Out := atReady (·.writeTail q v) s

/-! ### Enabling and disabling (R27, R35) -/

/-- Whether a configuration is valid at enable (R27). -/
def cfgValid (v : Word) : Bool :=
  bits v 36 33 ≤ 12 && 2 ≤ bits v 32 16 && bits v 32 16 ≤ 2 ^ (bits v 36 33 + 4) && 1 ≤ bits v 15 0 && bits v 15 0 < bits v 32 16

/-- EN is written from 0 to 1: a head word still owed is written before the queue becomes active (R29). DESIGN CHOICE (log 102): OVF
stands through a disable, and the depth is held against the new marks here, so that a queue enabled at or above HWM is in the overflow
state at once. -/
def State.enableQueue (s : State) (q : Nat) (v : Word) : State :=
  if !cfgValid v then s.modWQ q fun w => { w with cfg := putBits v 38 38 0, err := 1 }
  else
    let s := (s.dropQueueWaits q).modWQ q fun w => { w with cfg := v, headBad := false }
    if (s.wq q).dirty then
      match s.writeHead q with
      | (s, .counted) => s.modWQ q fun w => { w with st := 1, err := 0 }.watch
      | (s, .halted) => s.haltQueue q 4
      | (s, .later) => s
    else s.modWQ q fun w => { w with st := 1, err := 0 }.watch

/-- EN is written to 0: dispatch stops, and held pushes complete with status 1 (R27, R38). -/
def State.disableQueue (s : State) (q : Nat) : State :=
  ((s.dropRingWaits q).modWQ q fun w => { w.dropFront with cfg := putBits w.cfg 38 38 0, st := 0 }).endAllHeld q 1

/-- A write of WQCFG (R27). -/
def State.writeCfg (s : State) (q : Nat) (v : Word) : State :=
  let w := s.wq q
  let others := putBits w.cfg 38 38 0 ≠ putBits v 38 38 0
  if !isQueue q then s
  else if !w.en then if v.getLsbD 38 then s.enableQueue q v else (s.dropQueueWaits q).modWQ q fun w => { w with cfg := v }
  else
    let s := if others then s.modWQ q fun w => { w with cfgign := true } else s
    if v.getLsbD 38 then s else s.disableQueue q

/-- WQ_ENABLE: a write of WQCFG whose EN is 1. -/
def execWqEnable (q : Nat) (v : BitVec 64) (s : State) : Out := atReady (·.writeCfg q (putBits v 38 38 1)) s

/-- WQ_DISABLE: a write of WQCFG whose EN is 0. -/
def execWqDisable (q : Nat) (v : BitVec 64) (s : State) : Out := atReady (·.writeCfg q (putBits v 38 38 0)) s

/-- A write of WQRING or WQHEADA: ignored, with CFGIGN, while EN is 1 (R27). -/
def State.writeRing (s : State) (q : Nat) (head : Bool) (v : Word) : State :=
  if !isQueue q then s
  else if (s.wq q).en then s.modWQ q fun w => { w with cfgign := true }
  else (s.dropQueueWaits q).modWQ q fun w => if head then { w with heada := putBits v 2 0 0 } else { w with ring := putBits v 11 0 0 }

/-! ### The front store (R32) -/

/-- Record slots of a tundish's front store, and of one queue in it. -/
def frontSlots : Nat := 1024
def frontPerQueue : Nat := 8

/-- Copies that a tundish holds. -/
def State.frontUsed (s : State) (home : Nat) : Nat :=
  ((s.queues.filter fun e => e.2.home = home).map fun e => e.2.front.length).sum

/-- The tundish drops the last copy of some queue that it serves: which one is a free value (R32; log 3). -/
def State.dropCopy (s : State) (home : Nat) : State :=
  let (b, s) := s.freeByte
  let l := (s.queues.filter fun e => e.2.home = home && !e.2.front.isEmpty).map (·.1)
  match l[b.toNat % l.length]? with
  | some q => s.modWQ q fun w => { w with front := w.front.dropLast }
  | none => s

/-- FRONT_REFILL (R32, R33): the next slot from the head that the front store lacks; without room, copies are dropped
first. -/
def execFrontRefill (q : Nat) (s : State) : Out :=
  let w := s.wq q
  let n := w.front.length
  let i := w.head + BitVec.ofNat 32 n
  if !w.active || frontPerQueue ≤ n || w.depth ≤ n then .next s
  else if frontSlots ≤ s.frontUsed w.home then .next (s.dropCopy w.home).stir
  else match s.translate (.tundish w.home) w.part w.asid (w.slotVa i) accRead with
    | (.ok key, s) =>
      .next (((s.useReplica w.home key).modWQ q fun w => { w with
        front := w.front ++ [(i, BitVec.ofNat 1024 (s.readM key 128))] }).checkFront q).stir
    | (.fail c l, s) => .next ((s.addFault (queueFault w c l accRead (w.slotVa i) 128)).haltQueue q 4).stir
    | (.stall l, s) => .next (s.addStalled (.tundish w.home) w.part w.asid (w.slotVa i) accRead l)

/-! ### Held pushes (R38) -/

/-- HELD_PUSH_ENQUEUE: outside the overflow state, and below HWM, the oldest held push is enqueued and completes. -/
def execHeldPushEnqueue (q : Nat) (s : State) : Out :=
  let w := s.wq q
  match w.held with
  | [] => .next s
  | h :: _ =>
    if !w.active || w.ovf || w.hwm ≤ w.depth then .next s
    else match s.enqueue q h.record with
      | (s, .counted) => .next ((s.modWQ q fun w => { w with held := w.held.drop 1 }).endHeld h 0).stir
      | (s, _) => .next s.stir

end Sys2Proof.Machine
end

