-- ==== Sys2Proof/Machine/Acknowledge.lean ====
section
/-! DEFINITION. What an acknowledged trap comes to, wherever its work is (R351, R363): RETRY, ABORT and DISCARD, and the replay of an
interval (R357, R358, R360). -/

namespace Sys2Proof.Machine

/-! ### The end of a piece of work (R19, R23, R101, R351, R372) -/

/-- A loop-nest record whose last iteration has ended retires: SIGM acts once, unless an iteration was aborted. -/
def State.settleNest (s : State) (n : Nat) : State :=
  match s.nests.find n with
  | none => s
  | some x =>
    if x.all && x.live = 0 then
      let s : State := { s with nests := s.nests.drop n }
      if x.aborted then s else s.modPart x.part fun p => p.modSems (recSigm x.record) semUp
    else s

/-- A piece of work has retired, or has ended without SIGM. -/
def State.workOver (s : State) (w : Work) (retired : Bool) : State :=
  let sig := fun (s : State) => if retired then s.modPart w.part fun p => p.modSems w.sigm semUp else s
  match w.kind with
  | .iteration n =>
    match s.nests.find n with
    | none => s
    | some x => ({ s with nests := s.nests.put n { x with live := x.live - 1, aborted := x.aborted || !retired } } : State).settleNest n
  | .segment => sig s
  | .conductor c => sig { s with conds := s.conds.put c { s.conds.get {} c with run := false } }

/-! ### Work wherever it is -/

/-- The state of a piece of work changed, on its core or in its save slot. -/
def State.modCtxOfWork (s : State) (id : Nat) (f : Ctx → Ctx) : State :=
  { s with
    cores := s.cores.map fun e => (e.1, if e.2.work.any (·.id = id) then { e.2 with ctx := f e.2.ctx } else e.2)
    off := s.off.map fun g => if g.work.id = id then { g with ctx := g.ctx.map f } else g }

/-- A piece of work changed, on its core or off it. -/
def State.modAnyWork (s : State) (id : Nat) (f : Work → Work) : State :=
  { s with
    cores := s.cores.map fun e => (e.1, { e.2 with work := e.2.work.map fun w => if w.id = id then f w else w })
    off := s.off.map fun g => if g.work.id = id then { g with work := f g.work } else g }

/-- The core of a piece of work, or its last one, with the work's state. -/
def State.findWork (s : State) (id : Nat) : Option (Nat × Core) :=
  match s.coreOfWork id with
  | some k => some (k, s.core k)
  | none => (s.off.find? (·.work.id = id)).map Seg.asCore

/-- An engine goes on from where it is held. -/
def Ctx.unhold (c : Ctx) (e : Eng) (now : Nat) : Ctx := c.modEng e fun g => { g with hold := none, passed := now }

/-- Work that a machine check held as a whole goes on. -/
def Ctx.releaseAll (c : Ctx) (now : Nat) : Ctx :=
  let up := fun (g : Engine) => { g with passed := now }
  { c with held := false, c := up c.c, a := up c.a, x := up c.x, f := up c.f }

/-- Whether a trap holds the work (R348). -/
def Ctx.isHeld (c : Ctx) : Bool :=
  c.held || c.ar.hold.isSome || engines.any fun e => match (c.eng e).hold with | some (.trap _ _) => true | _ => false

/-! ### The ladles and the shakeout engines -/

/-- The entry at which a ladle is halted. -/
def Run.haltedAt (r : Run) : Nat := ((r.copies.head?).map (·.idx)).getD r.idx

/-- The entry at which a ladle is halted restarts (Table 19-5). -/
def Run.restart (r : Run) : Run :=
  match r.copies with
  | o :: rest => { r with copies := { o with off := 0, soff := 0, buf := [], fp := {}, issued := false } :: rest }
  | [] => r

/-- The entry at which a ladle is halted is given up: it ends with status 9 (R190, R351). -/
def Ladle.giveUp (x : Ladle) : Ladle :=
  { x with halted := false, run := x.run.map fun r => { r with dropped := some r.haltedAt } }

/-- Whether a drain is of a context: its address, its address space and its partition (R212). -/
def Drain.ofContext (q : Drain) (ctx asid part : Nat) : Bool := q.ctx = ctx && q.asid = asid && q.part = part

/-- The drains of a context go on. -/
def State.resumeDrains (s : State) (d ctx asid part : Nat) : State :=
  s.modDie d fun y => { y with drains := y.drains.map fun q => if q.ofContext ctx asid part then { q with halted := false } else q }

/-- The drains of a context stop for good: STATE of its record becomes 3 (R213). DESIGN CHOICE (log 111): when the record itself does
not translate, its requests are discarded and STATE stays. -/
def State.stopDrains (s : State) (d ctx asid part : Nat) : State :=
  if (s.die d).drains.any (·.ofContext ctx asid part) then
    let x : Kv := { cl := .shakeout d, part, asid, va := ctx, core := false }
    let s := match x.wr fState 3 s with | .ok (_, s) => s | .error e => s.keepFills e.2
    s.modDie d fun y => { y with drains := y.drains.filter fun q => !q.ofContext ctx asid part }
  else s

/-! ### Replay (R357, R358, R360) -/

/-- A piece of work as it replays: its store buffer and snapshot are the checkpoint's, its log is gone through again. -/
def Work.rewound (w : Work) (cp : Checkpoint) : Work :=
  { w with sb := cp.sb, snap := cp.snap, replay := if w.log.isEmpty then none else some 0 }

/-- The checkpoint's state as replay restores it: no engine is held, and FAULTCTL counts one replay more (R358). -/
def Ctx.restored (c : Ctx) (old : Csrs) (now : Nat) : Ctx :=
  let up := fun (g : Engine) => { g with hold := none, passed := now }
  { c with
    c := up c.c, a := up c.a, x := up c.x, f := up c.f, held := false
    ar := { c.ar with hold := none }
    csr := { c.csr with rcnt := (old.rcnt + 1) % 2 ^ 32, rpld := true, nrp := false } }

/-- A semaphore without the waits of a piece of work; what such a wait has taken, and no log entry holds yet, is given back. -/
def Sem.without (x : Sem) (id : Nat) : Sem :=
  let mine := fun (w : Waiter) => match w with | .core i _ => i = id | .ladle _ _ => false
  let back := (x.taken.filter fun t => mine t.1).map fun t => match t.1 with | .core _ n | .ladle _ n => n
  { x with count := x.count + back.sum, waiters := x.waiters.filter fun w => !mine w, taken := x.taken.filter fun t => !mine t.1 }

/-- What the interval has left outside the work is taken back: its outbound queue is performed, its held push and its waits
are gone, its gather's pins and the number of its own domain are those of the checkpoint, and its traps and faults will arise again
(R56, R216, R358, R367). A wait at a semaphore in which A already was at the checkpoint goes on. DEDUCED (log 117). -/
def State.rollback (s : State) (k : Nat) (w : Work) (cp : Checkpoint) : State :=
  let pins := (s.core k).ctx.pins
  let waits := cp.ctx.a.prog.any (fun p => p.stage = 1) && cp.ctx.a.wc = (s.core k).ctx.a.wc
  let s := s.drainOb k
  let s := if isConductor k then s else s.modPart w.part fun p => { p with phase := p.phase.set 0 k (BitVec.ofNat 32 (cp.ctx.csr.pn.get 0 0)) }
  let s := s.void w (fun f => match f.src with | .engine _ _ => true | _ => false) (fun t => !t.info)
  let s : State := { s with
    queues := s.queues.map fun e => (e.1, { e.2 with held := e.2.held.filter fun h => h.work ≠ w.id })
    sems := if waits then s.sems else s.sems.map fun e => (e.1, e.2.without w.id) }
  let s := s.dropCoreWaits k
  cp.ctx.pins.foldl (State.addPin (.coreA k) w 1) (pins.foldl (State.unpin (.coreA k) w) s)

/-- Replay in place of core k's work: a push that was held is made again live, so that the work no longer leaves for it (R39,
Table 19-11). -/
def State.replay (s : State) (k : Nat) : State :=
  match (s.core k).work with
  | none => s
  | some w => match w.ckpt with
    | none => s
    | some cp =>
      let s := s.rollback k w cp
      let s := s.modCore k fun c => { c with
        ctx := cp.ctx.restored c.ctx.csr s.now, work := some (w.rewound cp)
        leaving := if c.leaving = some .push then (if c.preempt then some .saved else none) else c.leaving }
      s.asCore k fun s => s.afterDone .C

/-! ### TRPACK (R351) -/

/-- Whether RETRY is allowed for a record (Tables 19-4, 19-5). -/
def TrapRec.retryable (t : TrapRec) : Bool := t.cls ≤ 12 || [1, 5, 6, 9, 12].contains t.cause

/-- After RETRY of a residue trap at the last DONE, only the residue check and retirement are repeated. -/
def State.recheck (s : State) (id : Nat) (e : Eng) : State :=
  match s.coreOfWork id with
  | some k => s.asCore k fun s => s.afterDone e
  | none => s

/-- RETRY. -/
def State.retryTrap (s : State) (t : TrapRec) : State :=
  match t.src with
  | .engine id e =>
    let s := s.modCtxOfWork id fun c => c.unhold e s.now
    if t.cls = 10 ∧ t.cause = 3 then s.recheck id e else s
  | .array id => s.modCtxOfWork id fun c => { c with ar := { c.ar with hold := none } }
  | .work id =>
    if t.cause = 1 then (match s.coreOfWork id with | some k => s.replay k | none => s)
    else
      let s := s.modCtxOfWork id fun c => c.releaseAll s.now
      { s with off := s.off.map fun g => if g.work.id = id then { g with since := s.now } else g }
  | .ladle l => s.modLadle l fun x => { x with halted := false, run := x.run.map Run.restart }
  | .shakeout d ctx asid => s.resumeDrains d ctx asid t.part
  | .gone => s

/-- A piece of work ends without SIGM, as under R68. -/
def State.abortWork (s : State) (id : Nat) : State :=
  let s : State := { s with queues := s.queues.map fun e => (e.1, { e.2 with held := e.2.held.filter fun h => h.work ≠ id }) }
  match s.coreOfWork id with
  | some k => match (s.core k).work with
    | some w => (s.pruneCore k false).workOver w false
    | none => s
  | none => match s.off.find? (·.work.id = id) with
    | some g => (s.dropSeg g).workOver g.work false
    | none => s

/-- ABORT. -/
def State.abortTrap (s : State) (t : TrapRec) : State :=
  match t.src with
  | .engine id _ | .array id | .work id => s.abortWork id
  | .ladle l => s.modLadle l Ladle.giveUp
  | .shakeout d ctx asid => s.stopDrains d ctx asid t.part
  | .gone => s

/-- The first terminal entry among those that an instruction would pop or peek is removed. -/
def Ctx.dropTerminal (c : Ctx) : List (Nat × Nat) → Ctx
  | [] => c
  | (q, n) :: r => match ((c.filledRun q).take n).findIdx? (·.term) with
    | some i => c.setQueue q (dropAt (c.queue q) i)
    | none => c.dropTerminal r

/-- Residue removed: queues, FIFO counts, reservations, and rings that are not persistent. -/
def Ctx.dropResidue (c : Ctx) : Ctx :=
  { c with queues := [], fifo := [], resv := [], rings := c.rings.map fun e => (e.1, if e.2.pers then e.2 else { e.2 with head := e.2.tail }) }

/-- DISCARD, before it goes on as RETRY. -/
def State.discardResidue (s : State) (t : TrapRec) : State :=
  match t.src with
  | .engine id _ => s.modCtxOfWork id fun c => if t.cause = 1 then c.dropTerminal t.reads else c.dropResidue
  | _ => s

/-- An action of Table 19-4 that a record allows. -/
def State.actOn (s : State) (t : TrapRec) (act : Nat) : State :=
  if act = 1 then s.abortTrap t else if act = 2 then (s.discardResidue t).retryTrap t else s.retryTrap t

/-- Whether the work that a trap holds is saved, and comes back to a core: an action is then taken at its resumption (R363). -/
def State.savedFor (s : State) (t : TrapRec) : Bool := s.off.any fun g => t.of g.work.id && g.st ≠ .fenced && g.st ≠ .parked

/-- An acknowledged trap of partition p is acted on, at once, or when its work, which is saved, resumes (R351, R363). DESIGN CHOICE (log 114): the
first action written stands. -/
def State.acknowledge (s : State) (p : Nat) (t : TrapRec) (act : Nat) : State :=
  if s.savedFor t then
    s.modPart p fun x => { x with traps := mapFirst (fun y => y.seq = t.seq) (fun y => { y with acked := some act }) x.traps }
  else (s.modPart p fun x => { x with traps := dropFirst (fun y => y.seq = t.seq) x.traps }).actOn t act

/-- What software has acknowledged while a work was saved is done as it resumes (R363). -/
def State.resumeAcks (s : State) (w : Work) : State :=
  let mine := fun (t : TrapRec) => t.of w.id && t.acked.isSome
  let l := (s.part w.part).traps.filter mine
  l.foldl (fun s t => s.actOn t (t.acked.getD 0)) (s.modPart w.part fun x => { x with traps := x.traps.filter fun t => !mine t })

end Sys2Proof.Machine
end

