-- ==== Sys2Proof/Machine/Place.lean ====
section
/-! DEFINITION. Placement: the walker, what the tundishes offer a free core, the grant, resumption, and retirement (R15 to
R24, R34, R35, R40 to R44, R57 to R59, R65 to R70, R101, R338, R365, R372). -/

namespace Sys2Proof.Machine

/-! ### The walker (R42 to R44) -/

/-- An iteration number split over dimensions, the fastest first. -/
def splitIndex (t : Nat → Nat) : List Nat → Nat → List (Nat × Nat)
  | [], _ => []
  | d :: r, k => (d, k % t d) :: splitIndex t r (k / t d)

/-- Serpentine reflection: an index counts down when the sum of the indices before it is odd (R43). -/
def reflect (serp : Bool) (t : Nat → Nat) : List (Nat × Nat) → Nat → List Nat
  | [], _ => []
  | (d, c) :: r, par =>
    let i := if serp && par % 2 = 1 then t d - 1 - c else c
    i :: reflect serp t r (par + i)

/-- WalkIndex: the used indices of iteration k (R43); `walk` is 0 row-major, 1 column-major, 3 serpentine. -/
def walkIndex (walk n : Nat) (t : Nat → Nat) (k : Nat) : List Nat :=
  let c := if walk = 1 then splitIndex t (List.range n) k else (splitIndex t (List.range n).reverse k).reverse
  reflect (walk = 3) t c 0

/-- Bits of an index in a Morton walk: ceil(log2 T) (R44). -/
def mortonBits (t : Nat) : Nat := bitLength (t - 1)

/-- The indices of a Morton code: level by level, one bit from each dimension that has one (R44). -/
def mortonIndex (n : Nat) (t : Nat → Nat) (code : Nat) : List Nat :=
  let places := ((List.range 33).map fun b => ((List.range n).filter fun d => b < mortonBits (t d)).map fun d => (d, b)).flatten
  (List.range n).map fun d => ((places.zipIdx).filter fun x => x.1.1 = d).foldl
    (fun v x => v + code / 2 ^ x.2 % 2 * 2 ^ x.1.2) 0

/-- The next Morton code, from a code on, whose indices all lie in range (R44). -/
def mortonNext (n : Nat) (t : Nat → Nat) : (fuel : Nat) → Nat → Nat
  | 0, c => c
  | f + 1, c => if ((mortonIndex n t c).zipIdx).all fun x => decide (x.1 < t x.2) then c else mortonNext n t f (c + 1)

/-- The indices of the next iteration of a record, and the walk position after it. -/
def nextIteration (r : BitVec 1024) (w : Walk) : List Nat × Walk :=
  let n := recNdim r
  let t := recTrip r
  if recWalk r = 2 then
    let c := mortonNext n t (2 ^ ((List.range n).map fun d => mortonBits (t d)).sum) w.code
    (mortonIndex n t c, { w with k := w.k + 1, code := c + 1 })
  else (walkIndex (recWalk r) n t w.k, { w with k := w.k + 1 })

/-! ### Text and start (R22, R65, R66, R70) -/

/-- The text copied into a core's instruction memory, unless its tag is that of the copy held (R65, R66, R70). -/
def State.loadText (s : State) (k part asid : Nat) (i : Image) (keys : List Nat) : State :=
  let tag : ImemTag := { part, asid, desc := i.desc, gen := i.gen, len := i.len, text := i.text }
  if (s.core k).tag = some tag then s
  else
    let m := s.textWords i.len keys
    let s := keys.foldl (fun s key => s.useReplica (dieOf k) key) s
    s.modCore k fun c => { c with imem := m, marks := markWords m i.len i.len 0, tag := some tag }

/-- What g31 holds at the start of a piece of work (Table 1-4, R338). -/
def Work.g31 (w : Work) : Word :=
  match w.kind, w.queue with
  | .conductor _, _ => 0xFFFFFFFFFFFFFFFE
  | _, some q => BitVec.ofNat 64 q
  | _, none => 0xFFFFFFFFFFFFFFFF

/-- The general registers of every engine at the start (Table 1-4). -/
def Work.startRegs (w : Work) : SMap Word :=
  let m := SMap.setList [] 0 16 w.args
  let m := m.setList 0 24 (w.idx.map fun i => BitVec.ofNat 64 i)
  (m.set 0 30 (BitVec.ofNat 64 w.iter)).set 0 31 w.g31

/-- The state of a core that a grant makes: scratchpad stays (R372), everything else starts afresh (R22, R64, R70, R129,
R137, R169, R237, R280, R298). -/
def startCtx (old : Ctx) (w : Work) (now : Nat) (pn : SMap Nat) : Ctx :=
  let e : Engine := { pc := w.entry, g := w.startRegs, passed := now }
  { c := e, a := e, x := e, f := e, csr := { pn }, spad := old.spad }

/-- The phase numbers that placed work joins with (R56): a speculative segment joins only its core's own domain (R55). -/
def State.joinPhases (s : State) (k : Nat) (w : Work) : SMap Nat :=
  if isConductor k then [] else if w.spec then SMap.set [] 0 0 ((s.part w.part).phase.get 0 k).toNat else s.phaseNumbers w.part k

/-- Work placed for the first time on core k, its image checked (R41, R65). -/
def State.seat (s : State) (k : Nat) (w : Work) (i : Image) (keys : List Nat) : State :=
  let s := s.loadText k w.part w.asid i keys
  let w := { w with gen := i.gen, len := i.len, text := i.text, place := w.place && w.spec, joined := s.now + 1 }
  let s := s.modCore k fun c => { c with
    work := some w
    ctx := startCtx c.ctx w s.now (s.joinPhases k w) }
  s.refreshOf k

/-- A translation fault of the placement loader: SRC 3, and the core of the grant (Table 6-8). -/
def loaderFault (k part asid cause level access va extent : Nat) : FaultRec :=
  { src := .other, cause, level, access, srcCode := 3, core := k % 1024, va, asid, part, extent }

/-! ### The active sets of domains (R53) -/

/-- Whether core k lies in a domain of a partition; at level 4, in any enabled partition of the same group (R52). -/
def State.inPhaseDomain (s : State) (p lvl idx k : Nat) : Bool :=
  if lvl = 4 then !isConductor k && (s.partOfCluster (k / 16)).any fun q => (s.part q).mdid = (s.part p).mdid
  else s.inDomain p lvl idx k

/-- The cores of a domain whose work is a member of its active set, having joined it in this cycle or before (R53). -/
def State.members (s : State) (p lvl idx : Nat) (fresh : Bool) : List Nat :=
  (s.cores.filter fun e => !e.2.ending && e.2.work.any (fun w => !w.spec && decide (w.joined = s.now + 1) == fresh)
    && s.inPhaseDomain p lvl idx e.1).map (·.1)

/-- The cores that hold a member of a domain's active set, as a boundary of this cycle finds it (R53). -/
def State.activeCores (s : State) (p lvl idx : Nat) : List Nat := s.members p lvl idx false

/-- The cores whose work joins a domain in this cycle: a boundary of the cycle is before it (R53). -/
def State.joiners (s : State) (p lvl idx : Nat) : List Nat := s.members p lvl idx true

/-- Whether work that is on no core belongs to a domain's active set: it was last placed there (R53). -/
def State.activeOff (s : State) (p lvl idx : Nat) (g : Seg) : Bool :=
  !g.work.spec && decide (g.work.joined ≠ s.now + 1) && g.ctx.isSome && g.core.any fun k => s.inPhaseDomain p lvl idx k

/-- Whether a core has arrived at a level, waits in its PHASE, and has its stores performed. DEDUCED (log 23): work that replays
has arrived (R357), but it meets the boundary in its replayed PHASE. -/
def Core.arrivedAt (c : Core) (lvl : Nat) : Bool := c.phaseAt = some lvl && c.ob.isEmpty

/-- Whether a domain's boundary is due: every member of the active set has arrived and its outbound queue is empty (R53, R313).
The members of a group's domain on other devices are not seen here: with them, the set on this device may be empty. -/
def State.boundaryDue (s : State) (p lvl idx : Nat) : Bool :=
  let on := s.activeCores p lvl idx
  let shared := decide (lvl = 4) && decide (0 < (s.part p).mdnm1)
  (s.part p).en && decide (1 ≤ lvl) && decide (lvl ≤ 4) && (decide (lvl < 3) || idx = 0)
    && (shared || !on.isEmpty) && !s.off.any (s.activeOff p lvl idx) && on.all fun k => (s.core k).arrivedAt lvl

/-! ### Free cores and what they are offered (R34, R40, R58, R59) -/

/-- A core that is free: no work, not fenced, in an enabled partition; a conductor core never is (R40). -/
def State.isFree (s : State) (k : Nat) : Bool :=
  decide (k < 1024) && (s.core k).work.isNone && (s.core k).test.isNone && !(s.core k).fenced && (s.partOfCluster (k / 16)).isSome

/-- Whether a piece of work may be placed on core k (R50); conductor work is placed by its start alone (R338). -/
def State.mayTake (s : State) (w : Work) (k : Nat) : Bool :=
  (match w.kind with | .conductor _ => false | _ => true) && s.inDomain w.part w.lvl w.dom k

/-- Work off every core that R59 offers: not speculative, new or saved or suspended with its chain empty. -/
def Seg.offered (g : Seg) : Bool := !g.work.spec && (g.st = .fresh || g.st = .saved || g.st = .suspended)

/-- The best of several pieces of work. -/
def bestSegOf (better : Seg → Seg → Bool) : List Seg → Option Seg
  | [] => none
  | g :: r => match bestSegOf better r with
    | some h => if better h g then some h else some g
    | none => some g

/-- The segment that R59 offers core k: the greatest priority, then the smallest creation number. -/
def State.offeredSeg (s : State) (k : Nat) : Option Seg :=
  bestSegOf (fun h g => g.work.prio < h.work.prio || (g.work.prio = h.work.prio && h.work.created < g.work.created))
    (s.off.filter fun g => g.offered && s.mayTake g.work k)

/-- The pool segment that R58 gives core k: the greatest likelihood, then the smallest creation number. -/
def State.poolSeg (s : State) (k : Nat) : Option Seg :=
  bestSegOf (fun h g => likelihood g.work.chain < likelihood h.work.chain
      || (likelihood g.work.chain = likelihood h.work.chain && h.work.created < g.work.created))
    (s.off.filter fun g => g.work.spec && (g.st = .fresh || g.st = .saved) && s.mayTake g.work k)

/-- Whether a record is an empty nest (R19). -/
def recEmpty (r : BitVec 1024) : Bool := recKind r = 1 && recCount r = 0

/-- Whether a record waits for no semaphore: one that has been dispatched waits no more (R23). -/
def State.waitmMet (s : State) (w : WQ) (r : BitVec 1024) : Bool := w.walk.isSome || (s.part w.part).semsReady (recWaitm r)

/-- Whether a queue is eligible for core k (R34). -/
def State.eligible (s : State) (k : Nat) (w : WQ) : Bool :=
  match w.frontRec with
  | none => false
  | some r => w.active && !s.frontBad w && !(recKind r = 2 && recSpec r) && !recEmpty r && s.waitmMet w r
      && s.inDomain w.part (recLvl r) (recDom r) k

/-- The first of some numbers at or after a pointer, in circular order. -/
def fromPointer (l : List Nat) (p : Nat) : Option Nat :=
  match l.find? fun x => decide (p ≤ x) with
  | some x => some x
  | none => l.head?

/-- The queue that the arbitration of R34 picks among some, as die `die` sees them, with its priority and its tundish. -/
def State.arbitrate (s : State) (die : Nat) (l : List (Nat × WQ)) : Option (Nat × Nat × Nat) :=
  if l.isEmpty then none
  else
    let p := l.foldl (fun m e => max m e.2.effPrio) 0
    let l := l.filter fun e => e.2.effPrio = p
    let homes := (List.range 4).filter fun d => l.any fun e => e.2.home = d
    match fromPointer homes ((s.die die).dptr.get 0 p) with
    | none => none
    | some d => (fromPointer ((l.filter fun e => e.2.home = d).map (·.1)) ((s.die d).qptr.get 0 p)).map fun q => (q, p, d)

/-- The queue that R34 chooses for core k, with its priority and its tundish. -/
def State.bestQueue (s : State) (k : Nat) : Option (Nat × Nat × Nat) :=
  s.arbitrate (dieOf k) (s.queues.filter fun e => s.eligible k e.2)

/-- Whether core k would take the front record of queue q: no segment goes ahead of it (R34, R59). -/
def State.offersQueue (s : State) (k q : Nat) : Bool :=
  (s.bestQueue k).any fun x => x.1 = q && !(s.offeredSeg k).any fun g => decide (x.2.1 ≤ g.work.prio)

/-- Queues whose front records could now be dispatched for the first time and would decrement a semaphore of a mask of
partition p (R23): an empty nest at once, another record on the free core that takes it. -/
def State.rivals (s : State) (p : Nat) (mask : Word) : List (Nat × WQ) :=
  s.queues.filter fun e => e.2.part = p && e.2.walk.isNone && match e.2.frontRec with
    | none => false
    | some r => recWaitm r &&& mask ≠ 0 && s.waitmMet e.2 r && e.2.active && !s.frontBad e.2 && !(recKind r = 2 && recSpec r)
        && (recEmpty r || (List.range 1024).any fun k => s.isFree k && s.offersQueue k e.1)

/-- The lowest-numbered die of a partition, whose tundish holds its semaphores (R23). -/
def Part.firstDie (p : Part) : Nat := p.baseCl / 16

/-- Whether the first dispatch of queue q's front record must let another queue take a semaphore first (R23). -/
def State.outranked (s : State) (q : Nat) : Bool :=
  let w := s.wq q
  match w.frontRec with
  | none => false
  | some r => w.walk.isNone && recWaitm r ≠ 0
      && ((s.arbitrate (s.part w.part).firstDie (s.rivals w.part (recWaitm r))).any fun x => x.1 ≠ q)

/-- What core k is offered (R34, R58, R59). -/
inductive Offer where
  | none
  | seg (g : Seg)
  | queue (q prio home : Nat)
  | pool (g : Seg)
  deriving DecidableEq, Repr

/-- The offer: a segment goes ahead of every queue of its priority (R59); the pool comes last (R58). -/
def State.offer (s : State) (k : Nat) : Offer :=
  match s.offeredSeg k, s.bestQueue k with
  | some g, some (q, p, d) => if p ≤ g.work.prio then .seg g else .queue q p d
  | some g, none => .seg g
  | none, some (q, p, d) => .queue q p d
  | none, none => match s.poolSeg k with
    | some g => .pool g
    | none => .none

/-- Work that could not be placed on core k leaves. A segment that a queue has moved into the pool and that was never placed
halts its queue with ERR 5 (R16); of any other work machine check 7 is reported, and the record names the core (R16, R68).
DESIGN CHOICE (log 20): such a segment of a queue leaves the pool as a spawned one does. -/
def State.cannotPlace (s : State) (k : Nat) (g : Seg) : State :=
  let w := g.work
  let s := (s.dropSeg g).workOver w false
  match w.queue, g.ctx with
  | some q, none => s.haltQueue q 5
  | _, _ => s.addTrap { src := .gone, cls := 13, cause := 7, core := k % 1024, part := w.part, unit := k % 1024
                        iter := w.iter, queue := w.queue.getD 0x7FFF }

/-! ### Grants -/

/-- The check of an image before a placement on core k, and what comes of a failure: `bad` is what the source of the work
suffers. -/
def State.withImage (s : State) (k part asid desc entry : Nat) (bad : State → State)
    (good : State → Image → List Nat → State) : State :=
  match s.checkImage (dieOf k) part asid desc entry with
  | (.ok i keys, s) => (good s i keys).stir
  | (.bad, s) => (bad s).stir
  | (.fault c l acc va n, s) => (bad (s.addFault (loaderFault k part asid c l acc va n))).stir
  | (.stall l acc va, s) => s.addStalled (.loader (dieOf k)) part asid va acc l

/-- WAITM of a record at its first dispatch (R23). -/
def State.takeWaitm (s : State) (part : Nat) (r : BitVec 1024) : State :=
  s.modPart part fun p => p.modSems (recWaitm r) fun v => v - 1

/-- The pointers move past a queue and its tundish (R34). DESIGN CHOICE (log 22): the die's pointer moves also when only one
tundish offers a queue of the priority. -/
def State.movePointers (s : State) (k q p d : Nat) : State :=
  (s.modDie (dieOf k) fun x => { x with dptr := x.dptr.set 0 p ((d + 1) % 4) }).modDie d fun x =>
    { x with qptr := x.qptr.set 0 p ((q + 1) % 32768) }

/-- A grant from queue q to core k (R41 to R43): a segment, or the next iteration of a loop-nest record. DESIGN CHOICE (log 22):
the pointers of R34 move once the check of R16 has passed. -/
def State.grant (s : State) (k q p d : Nat) : State :=
  let w := s.wq q
  match w.frontRec with
  | none => s
  | some r =>
    s.withImage k w.part w.asid (recCode r) (recEntry r) (fun s => s.haltQueue q 5) fun s i keys =>
      let s := s.movePointers k q p d
      let s := if w.walk.isNone then s.takeWaitm w.part r else s
      let (id, s) := s.newWork
      let base := workOf r id w.part w.asid (some q) p 0
      if recKind r = 2 then (s.passRecord q).seat k base i keys
      else
        let (wk, s) : Walk × State := match w.walk with
          | some x => (x, s)
          | none => ({ nest := s.nestNo }, { s with
              nestNo := s.nestNo + 1, nests := s.nests.put s.nestNo { part := w.part, record := r, prio := p } })
        let (idx, wk') := nextIteration r wk
        let last := decide (recCount r ≤ wk'.k)
        let n : NestRec := s.nests.get { part := w.part, record := r } wk.nest
        let s : State := { s with nests := s.nests.put wk.nest { n with live := n.live + 1, all := last } }
        let s := if last then s.passRecord q else s.modWQ q fun w => { w with walk := some wk' }
        s.seat k { base with kind := .iteration wk.nest, prio := n.prio, idx, iter := wk.k, sigm := 0 } i keys

/-- Work that was on no core is placed on core k (R16, R68, R365): new work starts, saved work is restored, its snapshot
refreshed and its slot freed. Work of a fenced core goes on with its replay (R356). -/
def State.placeSeg (s : State) (k : Nat) (g : Seg) : State :=
  let w := g.work
  s.withImage k w.part w.asid w.desc w.entry (fun s => s.cannotPlace k g) fun s i keys =>
    let leave := fun (s : State) => ({ s with off := s.off.filter fun x => x.work.id ≠ w.id } : State)
    match g.ctx with
    | none => (leave s).seat k w i keys
    | some c =>
      if i.gen ≠ w.gen then s.cannotPlace k g
      else
        let addr := (s.part w.part).slotAddr (g.slot.getD 0)
        let c := if g.slot.isSome then c.reloaded s addr else c
        let sbCount := s.readM (keyOf 1 0 (addr + 0xFC0)) 8
        let s := (leave s).modPart w.part fun p => { p with slots := p.slots.filter fun x => g.slot ≠ some x }
        let s := s.loadText k w.part w.asid i keys
        let w := { w with len := i.len, text := i.text, place := w.place && w.spec
                          sb := if g.slot.isSome then w.sb.take sbCount else w.sb,
                          arrived := if g.st = .fenced then w.arrived else none
                          joined := if g.st = .fenced then w.joined else s.now + 1 }
        let up := fun (e : Engine) => { e with passed := s.now }
        let pn := s.joinPhases k w
        let c := { c with c := up c.c, a := up c.a, x := up c.x, f := up c.f, csr := { c.csr with pn } }
        let s := s.modCore k fun x => { x with work := some w, ctx := c }
        if g.st = .fenced then
          s.addTrap { trapRecOf k (s.core k) w .gone 13 g.cause 0 with
            info := true, test := 2, eng := g.eng, arr := decide (g.cause = 3), unit := g.core.getD k % 1024 }
        else s.refreshOf k

/-! ### Conductors (R338) -/

/-- A conductor's start goes ahead once WAITM is met: the work is placed, or FLT is set. -/
def State.startConductor (s : State) (c : Nat) : State :=
  let x := s.conds.get {} c
  let k := 1024 + c
  let part := x.part.toNat
  let asid := x.asid.toNat
  let fail := fun (s : State) => ({ s with conds := s.conds.put c { x with flt := true, waits := false } } : State)
  if !x.waits || (s.core k).work.isSome || (s.core k).fenced || (s.core k).test.isSome then s
  else match s.translate (.loader (dieOf k)) part asid x.record.toNat accRead with
    | (.fail n l, s) => fail (s.addFault (loaderFault k part asid n l accRead x.record.toNat 128))
    | (.stall l, s) => s.addStalled (.loader (dieOf k)) part asid x.record.toNat accRead l
    | (.ok key, s) =>
      let r := BitVec.ofNat 1024 (s.readM key 128)
      let s := s.useReplica (dieOf k) key
      if recKind r ≠ 2 || recSpec r || !s.validRecord part r then fail s
      else if !(s.part part).semsReady (recWaitm r) then s
      else s.withImage k part asid (recCode r) (recEntry r) fail fun s i keys =>
        let s := s.takeWaitm part r
        let (id, s) := s.newWork
        let s : State := { s with conds := s.conds.put c { x with run := true, flt := false, waits := false } }
        s.seat k { workOf r id part asid none 7 0 with kind := .conductor c } i keys

/-- A write of CONDCTL: EN of 1 while RUN is 0 starts the record; ASID and PART take the written values. -/
def State.writeCondctl (s : State) (c : Nat) (v : Word) : State :=
  let x := s.conds.get {} c
  let x := { x with asid := v.extractLsb' 48 16, part := v.extractLsb' 44 4 }
  if 8 ≤ c then s
  else if v.getLsbD 0 && !x.run then
    ({ s with conds := s.conds.put c { x with en := true, flt := false, waits := true } } : State).startConductor c
  else { s with conds := s.conds.put c x }

/-- CONDUCTOR_START. -/
def execConductorStart (c : Nat) (v : BitVec 64) (s : State) : Out := atReady (·.writeCondctl c (putBits v 0 0 1)) s

/-! ### The events of placement -/

/-- Whether two offers compete for the same thing: a queue's front record, a segment, or the pool. -/
def Offer.rival : Offer → Offer → Bool
  | .queue q _ _, .queue r _ _ => q = r
  | .seg g, .seg h => g.work.id = h.work.id
  | .pool _, .pool _ => true
  | _, _ => false

/-- What core k may take now: among several free cores the lowest-numbered takes first (R41, R58). -/
def State.takes (s : State) (k : Nat) : Offer :=
  let o := s.offer k
  if !s.isFree k then .none
  else if (List.range k).any fun j => s.isFree j && (s.offer j).rival o then .none
  else o

/-- PLACEMENT_GRANT (R41): core k is granted what a queue or the pool of R59 offers it first; an invalid record at a
queue's front halts the queue (R24). On a conductor core, a start that waits for WAITM goes ahead (R338). -/
def execPlacementGrant (k : Nat) (s : State) : Out :=
  if isConductor k then .next (s.startConductor (k - 1024))
  else match s.queues.find? fun e => s.frontBad e.2 with
  | some e => .next (s.haltQueue e.1 3).stir
  | none =>
    match s.takes k with
      | .queue q p d => if s.outranked q then .next s else .next (s.grant k q p d)
      | .seg g => if g.st = .fresh then .next (s.placeSeg k g) else .next s
      | _ => .next s

/-- POOL_TAKE (R58). -/
def execPoolTake (k : Nat) (s : State) : Out :=
  match s.takes k with
  | .pool g => .next (s.placeSeg k g)
  | _ => .next s

/-- The lowest-numbered free core of a domain. -/
def State.lowestFree (s : State) (w : Work) : Option Nat := (List.range 1024).find? fun k => s.isFree k && s.mayTake w k

/-- WORK_RESUME (R365): saved work that core k is offered comes back; work of a fenced core takes the lowest-numbered free
core of its domain (R356). -/
def execWorkResume (k : Nat) (s : State) : Out :=
  if !s.isFree k then .next s
  else match s.off.find? fun g => g.st = .fenced && !g.ctx.any (·.held) && s.mayTake g.work k && s.lowestFree g.work = some k with
    | some g => .next (s.placeSeg k g)
    | none => match s.takes k with
      | .seg g => if g.st = .fresh then .next s else .next (s.placeSeg k g)
      | _ => .next s

/-- NEST_EMPTY_RETIRE (R19): an empty nest leaves its queue and retires at once; it takes its semaphores in the order of
R34 (R23). -/
def execNestEmptyRetire (q : Nat) (s : State) : Out :=
  let w := s.wq q
  match w.frontRec with
  | none => .next s
  | some r =>
    if s.frontBad w then .next (s.haltQueue q 3).stir
    else if w.active && recEmpty r && s.waitmMet w r && !s.outranked q then
      .next (((s.takeWaitm w.part r).passRecord q).modPart w.part fun p => p.modSems (recSigm r) semUp).stir
    else .next s

/-- SPEC_RECORD_MOVE (R21): a speculative record moves into the pool when a place is free; its variable may have been
resolved, as at SPAWNC (R329). DESIGN CHOICE (log 21): a translation fault on the GEN that the factor needs (R327) is reported with
SRC 4, and the queue halts with ERR 5. -/
def execSpecRecordMove (q : Nat) (s : State) : Out :=
  let w := s.wq q
  match w.frontRec with
  | none => .next s
  | some r =>
    if s.frontBad w then .next (s.haltQueue q 3).stir
    else if !w.active || recKind r ≠ 2 || !recSpec r then .next s
    else if !s.poolRoom then .next s
    else match s.cvOf w.part (recCv r) with
      | none => .next (s.haltQueue q 3).stir
      | some cv =>
        if cv.val = some (!recSide r) then .next (s.passRecord q).stir
        else match s.translate (.tundish w.home) w.part w.asid (recCode r) accRead with
          | (.fail c l, s) => .next ((s.addFault (queueFault w c l accRead (recCode r) 8)).haltQueue q 5).stir
          | (.stall l, s) => .next (s.addStalled (.tundish w.home) w.part w.asid (recCode r) accRead l)
          | (.ok key, s) =>
            let site := spawnSite (recEntry r) (BitVec.ofNat 32 (s.readM (key + 4) 4))
            let f := (s.part w.part).factor (recProb r) site
            let chain : List ChainEntry := if cv.val.isSome then [] else [⟨recCv r, recSide r, f, site, false⟩]
            .next (((s.useReplica w.home key).enterPool r w.part w.asid (some q) w.effPrio chain).passRecord q).stir

/-- Whether the conditions of R101 hold on core k. -/
def Core.retires (c : Core) : Bool :=
  c.work.isSome && c.ctx.live.isEmpty && engines.all (fun e => (c.ctx.eng e).prog.isNone && (c.ctx.eng e).hold.isNone)
    && c.ctx.ar.idle && !c.ctx.held && c.leaving.isNone && !c.ending && c.test.isNone

/-- WORK_RETIRE (R101, R312, R372): the stores are published, and performed before SIGM acts and the core is free; a
speculative segment parks (R334). -/
def execWorkRetire (k : Nat) (s : State) : Out :=
  let c := s.core k
  match c.work with
  | none => .next s
  | some w =>
    if !c.retires then .next s
    else if w.spec then .next (s.startLeave k .parked).stir
    else
      let (t, left) := s.publishN k w.sb.length
      if left ≠ 0 || !(t.core k).ob.isEmpty then .next t.stir
      else .next ((((t.disarm w).forget w).vacate k).workOver w true).stir

end Sys2Proof.Machine
end

