-- ==== Sys2Proof/Machine/Ordering.lean ====
section
/-! DEFINITION. Steps of the memory order and of the domains that no instruction makes: the perform step (R310), the
boundary of a domain (R52, R53, R313), and the lifting of the slip bound (R75). -/

namespace Sys2Proof.Machine

/-! ### The perform step (R310) -/

/-- A core whose work is ended becomes free once its outbound queue is empty (R332, R351). -/
def State.freeEnded (s : State) (k : Nat) : State :=
  if (s.core k).ending && (s.core k).ob.isEmpty then s.vacate k else s

/-- PERFORM: the oldest entry of core k's outbound queue, or of one that a retiring segment has taken from it. -/
def execPerform (k : Nat) (s : State) : Out :=
  if (s.core k).ob.isEmpty then .next (match s.performParked k with | some t => t.stir | none => s)
  else .next ((s.performOldest k).freeEnded k).stir

/-! ### The boundary of a domain -/

/-- The phase number of a domain (R52). -/
def State.phaseOf (s : State) (p lvl idx : Nat) : BitVec 32 :=
  if lvl = 4 then (s.groups.get {} (s.part p).mdid).p else (s.part p).phase.get 0 (1024 * lvl + idx)

/-- 1 is added to the phase number of a domain. -/
def State.nextPhase (s : State) (p lvl idx : Nat) : State :=
  let n := s.phaseOf p lvl idx + 1
  if lvl = 4 then { s with groups := s.groups.put (s.part p).mdid { p := n } }
  else s.modPart p fun x => { x with phase := x.phase.set 0 (1024 * lvl + idx) n }

/-- A trap of a piece of work in the cycle of a boundary is delivered after it (R367): its record gives the program counters then. -/
def Part.trapsAfter (x : Part) (w : Work) (c : Ctx) (now : Nat) : Part :=
  { x with traps := x.traps.map fun t =>
      if t.of w.id && t.since = now && t.seq.isNone then { t with pcs := [c.c.pc, c.a.pc, c.x.pc, c.f.pc] } else t }

/-- An arrived core takes the boundary: it refreshes, sees the new number, and goes on after its PHASE (R53, R56, R313). -/
def State.crossBoundary (lvl n : Nat) (s : State) (k : Nat) : State :=
  let s := (s.refreshOf k).modCore k fun c => { c with
    work := c.work.map fun w => { w with arrived := none, watched := false }
    ctx := (let x := c.ctx.retire .C ((c.ctx.c.prog.map (·.pushes)).getD []) 1 .seq
            { x with csr := { x.csr with pn := x.csr.pn.set 0 lvl n } }) }
  match (s.core k).work with
  | some w => s.modPart w.part fun x => x.trapsAfter w (s.core k).ctx s.now
  | none => s

/-- Work that has joined the domain in the boundary's cycle is in the new phase (R53). -/
def State.joinBoundary (lvl n : Nat) (s : State) (k : Nat) : State :=
  s.modCtxOf k fun c => { c with csr := { c.csr with pn := c.csr.pn.set 0 lvl n } }

/-- The boundary of a domain: 1 is added to P, and its members take it (R53, R313). -/
def State.boundary (s : State) (p lvl idx : Nat) : State :=
  let on := s.activeCores p lvl idx
  let late := s.joiners p lvl idx
  let s := s.nextPhase p lvl idx
  let n := (s.phaseOf p lvl idx).toNat
  (late.foldl (State.joinBoundary lvl n) (on.foldl (State.crossBoundary lvl n) s)).stir

/-- PHASE_BOUNDARY (R53, R313). -/
def execPhaseBoundary (p : Nat) (lvl : Nat) (idx : Nat) (s : State) : Out :=
  .next (if s.boundaryDue p lvl idx then s.boundary p lvl idx else s)

/-- The index of the domain of a core at a level (Table 2-4). -/
def domainIndex (lvl k : Nat) : Nat := if lvl = 1 then k / 16 else if lvl = 2 then k / 256 else 0

/-- The domains at whose boundary some core waits: partition, level and index. -/
def State.awaited (s : State) : List (Nat × Nat × Nat) :=
  s.cores.filterMap fun e => e.2.work.bind fun w => w.arrived.map fun lvl => (w.part, lvl, domainIndex lvl e.1)

/-- Every boundary that is due occurs (R53); whether the other devices of a group have arrived is not seen here (log 74). -/
def State.crossDue (s : State) : State :=
  s.awaited.foldl (fun s x =>
    if !(x.2.1 = 4 && 0 < (s.part x.1).mdnm1) && s.boundaryDue x.1 x.2.1 x.2.2 then s.boundary x.1 x.2.1 x.2.2 else s) s

/-! ### The slip bound (R75) -/

/-- Every live engine of the core is stalled, and one of them by the bound alone: an engine whose last turn ended in a wait
with nothing changed since, or that is held. -/
def State.slipLocked (s : State) (k : Nat) : Bool :=
  let c := s.core k
  let l := s.quiet.filter fun q => q.1 = k
  l.any (fun q => q.2.2 = .slip) && c.ctx.live.all fun e => (c.ctx.eng e).hold.isSome || l.any fun q => q.2.1 = e

/-- The live engines whose walk count is the trailing one (R74). -/
def Ctx.trailing (c : Ctx) : List Eng := c.live.filter fun e => c.live.all fun x => 0 ≤ diff32 (c.eng x).wc (c.eng e).wc

/-- SLIP_BOUND_LIFT. -/
def execSlipBoundLift (k : Nat) (s : State) : Out :=
  if s.slipLocked k && (s.core k).ctx.csr.lifted.isEmpty then
    .next (s.modCtxOf k fun c => { c with csr := { c.csr with dl := true, lifted := c.trailing } }).stir
  else .next s

end Sys2Proof.Machine
end

