-- ==== Sys2Proof/Machine/Maintain.lean ====
section
/-! DEFINITION. Translation as the device keeps it going: walks ahead of an access (R151, R152), entries under migration
(R151), the acknowledgement of an invalidation (R162, R377), replication and the layer schedule (R145, R146, R154,
R155). -/

namespace Sys2Proof.Machine

/-! ### Walks (R151 to R153) -/

/-- The start of the page after the one at an address, as a client's cache gives the page's size. -/
def State.nextPageVa (s : State) (cl : Client) (part asid va : Nat) : Nat :=
  let size := (((s.tlbOf cl).find? fun t => t.covers part asid va).map (·.size)).getD 4096
  va / size * size + size

/-- The access that core k's C engine is about to make: its address, before redirection, and its kind. -/
def State.pendingC (s : State) (k : Nat) : Option (Nat × Nat) :=
  let s : State := { s with cur := k }
  match s.fetch .C with
  | .run i => match i with
    | .ld _ _ ga _ off => some (s.window (offAddr (s.reg .C ga) off), accRead)
    | .st _ ga _ _ off => some (s.windowNow (offAddr (s.reg .C ga) off), accWrite)
    | .amoaddAcq _ _ ga _ _ | .amoaddRel _ _ ga _ _ | .amoaddAr _ _ ga _ _ | .amoandAcq _ _ ga _ _ | .amoandRel _ _ ga _ _
    | .amoandAr _ _ ga _ _ | .amoorAcq _ _ ga _ _ | .amoorRel _ _ ga _ _ | .amoorAr _ _ ga _ _ | .amominAcq _ _ ga _ _
    | .amominRel _ _ ga _ _ | .amominAr _ _ ga _ _ | .amomaxAcq _ _ ga _ _ | .amomaxRel _ _ ga _ _ | .amomaxAr _ _ ga _ _
    | .amoswpAcq _ _ ga _ _ | .amoswpRel _ _ ga _ _ | .amoswpAr _ _ ga _ _ | .amocasAcq _ _ ga _ _ | .amocasRel _ _ ga _ _
    | .amocasAr _ _ ga _ _ => some (s.windowNow (s.reg .C ga).toNat, accWrite)
    | _ => none
  | _ => none

/-- The next page of a stream command that has reached `va` and ends at `stop`, both before redirection: its address after
redirection (R152, R181). -/
def State.nextAccess (s : State) (cl : Client) (part asid : Nat) (redir : Nat → Nat) (va stop : Nat) : Option Nat :=
  let a := redir va
  let n := va + (s.nextPageVa cl part asid a - a)
  if n < stop then some (redir n) else none

/-- The next page of the stream command of core k's A engine, once it has begun (R152). -/
def State.nextStream (s : State) (k : Nat) : Option Nat :=
  let s : State := { s with cur := k }
  match s.fetch .A, s.ctx.a.prog with
  | .run i, some pr => match i with
    | .gld _ _ _ ga _ n => s.nextAccess (.coreA k) s.work.part s.work.asid s.window ((s.reg .A ga).toNat + 16 * pr.count)
        ((s.reg .A ga).toNat + 16 * n.toNat)
    | .gst _ _ _ ga _ n => s.nextAccess (.coreA k) s.work.part s.work.asid s.windowNow ((s.reg .A ga).toNat + 16 * pr.count)
        ((s.reg .A ga).toNat + 16 * n.toNat)
    | _ => none
  | _, _ => none

/-- How far a COPY or FPRINT has read its source: the encoded bytes of a COPY with XP, otherwise its data. -/
def CopyOp.readTo (o : CopyOp) : Nat := if !o.fprint && o.dw0.getLsbD 18 then o.soff else o.off

/-- The next pages of the source and the destination of a ladle's COPY or FPRINT, as far as they lie in memory (R152). -/
def State.nextBeats (s : State) (l : Nat) : List Nat :=
  match (s.ladle l).run with
  | none => []
  | some r =>
    let next := s.nextAccess (.ladle l) r.chain.part r.chain.asid (s.chainWindow r.chain)
    ((r.copies.filter fun o => !o.issued).map fun o =>
      (if o.dw0.getLsbD 20 then [] else (next (o.src + o.readTo) (o.src + o.len)).toList)
        ++ (if o.fprint || o.dw0.getLsbD 21 then [] else (next (o.dst + o.off) (o.dst + o.len)).toList)).flatten

/-- The miss that a walker may serve for a client now, or the prefetch that its stream asks for: partition, ASID, address and
access kind (R151, R152). A prefetch of a page to be written sets no D: no write is pending there. The loader's and the shakeout
engine's misses are served within their own steps. -/
def State.wants (s : State) (cl : Client) : List (Nat × Nat × Nat × Nat) :=
  match cl with
  | .coreC k => ((s.core k).work.map fun w => (s.pendingC k).toList.map fun x => (w.part, w.asid, x.1, x.2)).getD []
  | .coreA k => ((s.core k).work.map fun w => (s.nextStream k).toList.map fun va => (w.part, w.asid, va, accRead)).getD []
  | .ladle l => ((s.ladle l).run.map fun r => (s.nextBeats l).map fun va => (r.chain.part, r.chain.asid, va, accRead)).getD []
  | .tundish d => (s.queues.filter fun e => e.2.home = d && e.2.active).map fun e =>
      (e.2.part, e.2.asid, e.2.slotVa (e.2.head + BitVec.ofNat 32 e.2.front.length), accRead)
  | .loader _ | .shakeout _ => []

/-- WALK: a walker serves a miss ahead of the access, or a prefetch (R151, R152): A, and D for a write, are set and the
cache is filled; a fault, or an entry under migration, is met again by the access itself and is not reported here. -/
def execWalk (cl : Client) (part : Nat) (asid : Nat) (va : BitVec 64) (wr : Bool) (s : State) : Out :=
  let acc := if wr then accWrite else accRead
  if (s.wants cl).contains (part, asid, va.toNat, acc) && decide (va.toNat < 2 ^ 52) then
    .next (s.miss cl part asid va.toNat acc).2
  else .next s

/-- How long an access waits for an entry under migration: 64 µs of wall time (R151). -/
def migrationTicks : Nat := 64 * usTicks

/-- What the walker of a stalled access finds now: the level and location of an entry that is still under migration. -/
def State.migrating (s : State) (x : Stalled) : Option (Nat × Nat) :=
  match (s.walk (clientDie x.client) x.part x.asid x.va).1 with
  | .stall l key => some (l, key)
  | _ => none

/-- A walker that finds another entry under migration than before waits for that one afresh (R151). -/
def Stalled.found (x : Stalled) (e : Nat × Nat) (now : Nat) : Stalled :=
  if x.level = e.1 ∧ x.entry = e.2 then x else { x with level := e.1, entry := e.2, since := now }

/-- A stalled access goes on: it translates afresh. The stores of parked segments that retire go on by themselves (R332). -/
def State.unstall (s : State) (i : Nat) : State := ({ s with stalled := dropAt s.stalled i } : State).settleParked.stir

/-- A stalled access is changed. -/
def State.modStalled (s : State) (i : Nat) (f : Stalled → Stalled) : State :=
  { s with stalled := setAt s.stalled i f }

/-- MIGRATION_RETRY: the entry is read again (R151). -/
def execMigrationRetry (i : Nat) (s : State) : Out :=
  match s.stalled[i]? with
  | none => .next s
  | some x =>
    if x.expired || x.level = noWalker then .next s
    else match s.migrating x with
      | some e => .next (s.modStalled i fun x => x.found e s.now)
      | none => .next (s.unstall i)

/-- MIGRATION_TIMEOUT: after 64 µs the access takes cause 5 with the level of the entry (R151). -/
def execMigrationTimeout (i : Nat) (s : State) : Out :=
  match s.stalled[i]? with
  | none => .next s
  | some x =>
    if x.expired || x.level = noWalker || s.now < x.since + migrationTicks then .next s
    else match s.migrating x with
      | some e =>
        if x.level = e.1 ∧ x.entry = e.2 then .next (s.modStalled i fun x => { x with expired := true }).settleParked.stir
        else .next (s.modStalled i fun x => x.found e s.now)
      | none => .next (s.unstall i)

/-! ### Invalidations (R139, R162, R377) -/

/-- Whether no store and no beat is under way that was translated before the invalidation dropped its translation, and no walk
that it restarted is outstanding (R162). -/
def State.settled (s : State) (v : Inval) : Bool :=
  s.cores.all (fun e => e.2.ob.all fun t => !(t.mark && v.coversVa t.part t.asid t.va t.size))
    && s.off.all (fun g => g.ob.all fun t => !(t.mark && v.coversVa t.part t.asid t.va t.size))
    && s.stalled.all (fun x => !(x.restarted && !x.expired && v.coversVa x.part x.asid x.va 1))
    && s.flows.all fun b => !(b.mark && v.coversVa b.part b.asid b.va 16)

/-- A die drops the replicas of the covered pages, whatever page they were made through, and covered copies not yet made
(R145). -/
def Die.dropCovered (d : Die) (v : Inval) : Die :=
  let gone := d.replicas.filter fun r =>
    v.coversVa r.part r.asid r.va 4096 || v.keys.any fun k => k.1 ≤ r.frame * 4096 && r.frame * 4096 < k.1 + k.2
  { d with
    replicas := d.replicas.filter fun r => !hasFrame gone r.frame
    notices := d.notices.map fun q => { q with pages := q.pages.filter fun r => !v.coversVa r.part r.asid r.va 4096 } }

/-- TLBIR_ACK: invalidation i of those open is acknowledged once the conditions of R162 hold. Caches and walks have dropped
the covered entries, and stores are marked, since it was sent. -/
def execTlbirAck (i : Nat) (s : State) : Out :=
  match s.invals[i]? with
  | none => .next s
  | some v =>
    if s.settled v then
      let gone : Inval := { v with keys := v.keys ++ (s.coveredReplicas v).map fun f => (4096 * f, 4096) }
      let s : State := { s with
        invals := dropAt s.invals i
        dies := s.dies.map fun e => (e.1, e.2.dropCovered gone) }
      .next (match v.core with
        | none => s.modPart v.part fun p => if p.inv = some v.id then { p with inv := none } else p
        | some _ => s).stir
    else .next s

/-- A write of INVSTART, INVLEN or INVCMD of partition p, ignored while BUSY is 1 (R377). -/
def State.writeInvStart (s : State) (p : Nat) (v : Word) : State :=
  s.modPart p fun x => if x.inv.isSome then x else { x with invstart := v }
def State.writeInvLen (s : State) (p : Nat) (v : Word) : State :=
  s.modPart p fun x => if x.inv.isSome then x else { x with invlen := v }
def State.writeInvcmd (s : State) (p : Nat) (v : Word) : State :=
  if (s.part p).inv.isSome then s
  else
    let s := s.modPart p fun x => { x with invasid := v.extractLsb' 48 16 }
    if !v.getLsbD 0 then s
    else match invalRange (s.part p).invstart.toNat (s.part p).invlen.toNat with
      | none => s
      | some (lo, hi) =>
        ({ s.invalidate { id := s.invNo, part := p, asid := bits v 63 48, lo, hi, core := none } with invNo := s.invNo + 1 } : State).modPart p
          fun x => { x with inv := some s.invNo }

/-! ### Replication (R145, R146, R154, R155) -/

/-- The first page that a die has still to replicate, and the notices without it. -/
def nextPage : List Notice → Option (Replica × List Notice)
  | [] => none
  | q :: r => match q.pages with
    | [] => nextPage r
    | f :: rest => some (f, { q with pages := rest } :: r)

/-- REPLICATION: die d copies one page, if its translation is still read-only and names the same frame. Whether a replica is
evicted for it, the first in line, is a free value (R146, log 3). -/
def execReplication (d : Nat) (s : State) : Out :=
  match nextPage (s.die d).notices with
  | none => .next s
  | some (f, rest) =>
    let (b, s) := s.freeByte
    let (now, writable) := s.replicable d f.part f.asid f.va
    let s := s.modDie d fun x => { x with notices := rest }
    let s := if writable then s.modPart f.part fun p => { p with tierctl := putBits p.tierctl 2 2 1 } else s
    if now = some { f with layer := false } then
      .next (s.modDie d fun x => { x with
        replicas := (if b.getLsbD 0 then x.replicas.drop 1 else x.replicas).filter (fun r => r.frame ≠ f.frame) ++ [f] }).stir
    else .next s.stir

/-- Whether the entries of a schedule are aligned (R154, Table 6-5). -/
def State.entriesAligned (s : State) (p asid tbl : Nat) : Nat → Bool
  | 0 => true
  | n + 1 =>
    let e := s.layerEntry 0 p asid tbl n
    e.start % 4096 = 0 && e.len % 4096 = 0 && State.entriesAligned s p asid tbl n

/-- The header of a schedule as an enable reads it, under the address space that Config leaves open and that the header must name
(R154, log 4); none when it cannot be translated or is not valid. -/
def State.readSchedule (s : State) (p tbl : Nat) : Option Sched :=
  let asid := (Config.tableAsid p).toNat
  match (s.walk 0 p asid tbl).1 with
  | .leaf t _ =>
    match (if t.r then t.locate tbl else .fail 2 0) with
    | .ok key =>
      let w := fun i => BitVec.ofNat 64 (s.readM (key + 8 * i) 8)
      let count := bits (w 0) 63 32
      let dist := bits (w 2) 7 0
      if tbl < 2 ^ 52 ∧ bits (w 0) 31 0 = 0x4C534348 ∧ 1 ≤ count ∧ count ≤ 65536 ∧ 1 ≤ dist ∧ dist ≤ 16
          ∧ bits (w 1) 15 0 = asid ∧ s.entriesAligned p asid tbl count then
        some { asid := bits (w 1) 15 0, count, dist, wrap := (w 1).getLsbD 16 }
      else none
    | _ => none
  | _ => none

/-- A write of TIERCTL (Table 6-5): EN from 0 to 1 reads and checks the header (R154). -/
def State.writeTierctl (s : State) (p : Nat) (v : Word) : State :=
  let old := (s.part p).tierctl
  let skipw := bit (old.getLsbD 2 && !v.getLsbD 2)
  let put (err en : Bool) (h : Option Sched) (s : State) : State :=
    s.modPart p fun x => { x with
      tierctl := putBits (putBits (putBits (putBits v 5 3 0) 2 2 skipw) 1 1 (bit err)) 0 0 (bit en), sched := h }
  if !v.getLsbD 0 then put (old.getLsbD 1) false none s
  else if old.getLsbD 0 then put (old.getLsbD 1) true (s.part p).sched s
  else match s.readSchedule p (bits v 63 6 * 64) with
    | some h => put false true (some h) s
    | none => put true false none s

/-- TIERCTL_ENABLE. -/
def execTierctlEnable (p : Nat) (v : BitVec 64) (s : State) : Out := atPart p (·.writeTierctl p (putBits v 0 0 1)) s

/-- INVCMD_GO. -/
def execInvcmdGo (p : Nat) (v : BitVec 64) (s : State) : Out := atPart p (·.writeInvcmd p (putBits v 0 0 1)) s

end Sys2Proof.Machine
end

