-- ==== Sys2Proof/Machine/Rings.lean ====
section
/-! DEFINITION. The fault ring and the trap ring of a partition: their records, and the events that write them (R157, R158,
R349, R350). -/

namespace Sys2Proof.Machine

/-! ### A ring in host memory (Tables 6-7, 19-2) -/

/-- Records of a ring. DESIGN CHOICE (log 28): LSZ from 11 to 15, which the tables do not give, follows the same formula. -/
def ringSize (cfg : Word) : Nat := 2 ^ (bits cfg 3 0 + 6)

/-- Records that a ring has room for. -/
def ringRoom (cfg : Word) (head tail : BitVec 32) : Nat := ringSize cfg - (tail - head).toNat

/-- The host bus address of a record. -/
def ringSlot (base cfg : Word) (i : BitVec 32) : Nat := bits base 63 12 * 4096 + 64 * (i.toNat % ringSize cfg)

/-- A record's bytes, from its doublewords. -/
def recordBytes (l : List Word) : List Byte := (l.map fun w => toBytes w.toNat 8).flatten

/-- An MSI-X message (R157, R349): it goes through function 0 while link 0 is up, and through function 1 otherwise (R375). -/
def State.sendMsi (s : State) (vec : Nat) : State :=
  let fn := if (s.links.get {} 0).up then 0 else 1
  { s with msix := { fn, vec, entry := s.msixTable.get 0 vec } :: s.msix }

/-- The location of a host bus address that a register holds in full. DESIGN CHOICE (log 29): addresses beyond bits [46:0], which no
translation names (Table 6-1), are locations of their own. -/
def hostBus (a : Nat) : Nat := if a < tierSpan then keyOf 2 0 a else 2 ^ 64 + a

/-- Records written from an index on. -/
def State.writeRing64 (base cfg : Word) : BitVec 32 → List (List Word) → State → State
  | _, [], s => s
  | i, r :: rest, s => State.writeRing64 base cfg (i + 1) rest (s.writeM (hostBus (ringSlot base cfg i)) (recordBytes r))

/-! ### Fault records (R156 to R158) -/

/-- The record of a fault, or of a range of faults (Table 6-8). -/
def FaultRec.words (f : FaultRec) (seq : BitVec 32) (range : Bool) (va extent count access : Nat) : List Word :=
  [fields [(seq.toNat, 32), (f.cause, 24), (f.level, 21), (access, 18), (f.srcCode, 14), (bit range, 12), (f.core, 0)],
   BitVec.ofNat 64 va,
   fields [(f.asid, 48), (f.part, 44)],
   BitVec.ofNat 64 extent,
   fields [(f.unit, 32), (f.cmd % 2 ^ 32, 0)],
   fields [(f.loops.getD 0 0, 0), (f.loops.getD 1 0, 32)],
   fields [(f.loops.getD 2 0, 0), (f.loops.getD 3 0, 32)],
   fields [(count, 32)]]

/-- Faults whose records are written and that halt nothing leave the list. -/
def Part.sweepFaults (p : Part) : Part := { p with faults := p.faults.filter fun f => !(f.seq.isSome && f.src = .other) }

/-- FLTCFG fields. -/
def Part.fltVec (p : Part) : Nat := bits p.fltcfg 19 9
def Part.fltFull (p : Part) : Part := { p with fltcfg := putBits p.fltcfg 8 8 1 }

/-- FAULT_RECORD_WRITE: with FMODE 0, the oldest fault whose record is not written; a full ring makes it wait, and sets OVF
(R157). -/
def execFaultRecordWrite (p : Nat) (s : State) : Out :=
  let x := s.part p
  match x.faults.find? fun f => f.seq.isNone with
  | none => .next s
  | some f =>
    if x.fmode then .next s
    else if ringRoom x.fltcfg x.flthead x.flttail = 0 then .next (s.modPart p Part.fltFull).stir
    else
      let s := s.writeRing64 x.fltbase x.fltcfg x.flttail [f.words x.fseq false f.va f.extent 1 f.access]
      .next ((s.modPart p fun x => ({ x with
        faults := mapFirst (fun f => f.seq.isNone) (fun f => { f with seq := some x.fseq }) x.faults
        fseq := x.fseq + 1, flttail := x.flttail + 1 } : Part).sweepFaults).sendMsi x.fltVec).stir

/-- Whether a fault joins a range: the same ASID and cause, on the page of its last fault or the next page (R157). -/
def joinsRange (g : List FaultRec) (f : FaultRec) : Bool :=
  match g.getLast? with
  | some e => e.asid = f.asid && e.cause = f.cause && decide (f.va / 4096 ≤ e.va / 4096 + 1)
  | none => false

/-- Faults gathered into ranges, in order. -/
def ranges (l : List FaultRec) : List (List FaultRec) :=
  l.foldl (fun m f => if m.any (fun g => joinsRange g f) then mapFirst (fun g => joinsRange g f) (fun g => g ++ [f]) m else m ++ [[f]]) []

/-- The record of a range: its pages from the first fault to the last, the union of the access kinds, and the other fields
of the fault with the lowest address (R158). DESIGN CHOICE (log 103): LEVEL, SRC and CORE, which R158 does not name, are also those of
that fault. -/
def rangeWords (g : List FaultRec) (seq : BitVec 32) : List Word :=
  match g, g.getLast? with
  | f :: _, some e =>
    let start := f.va / 4096 * 4096
    f.words seq true start (e.va / 4096 * 4096 + 4096 - start) g.length (g.foldl (fun a x => a ||| x.access) 0)
  | _, _ => []

/-- How long a batch stays open, and how many faults it takes (R157). -/
def batchTicks : Nat := 20 * usTicks
def batchFaults : Nat := 256

/-- The faults of a partition that are in no batch yet. -/
def Part.unbatched (x : Part) : List FaultRec := x.faults.filter fun f => f.seq.isNone && !f.batched

/-- Whether the open batch of a partition closes: 20 µs after its first fault, or at its 256th (R157). -/
def Part.batchDue (x : Part) (now : Nat) : Bool :=
  match x.unbatched with
  | [] => false
  | f :: _ => x.fmode && (decide (f.since + batchTicks ≤ now) || decide (batchFaults ≤ x.unbatched.length))

/-- The faults of the open batch: those up to 20 µs after the first, 256 at most (R157). -/
def Part.openBatch (x : Part) : List FaultRec :=
  let since := ((x.unbatched.head?).map (·.since)).getD 0
  (x.unbatched.filter fun f => decide (f.since ≤ since + batchTicks)).take batchFaults

/-- The open batch closes: its faults are sorted by ASID and address and merged into ranges (R157). -/
def Part.closeBatch (x : Part) : Part :=
  let l := x.openBatch
  let sorted := sortBy (fun (a b : FaultRec) => decide (a.asid < b.asid) || (a.asid = b.asid && decide (a.va ≤ b.va))) l
  { x with
    batches := x.batches ++ [(ranges sorted).map fun g => g.map (·.no)]
    faults := x.faults.map fun f => if l.any fun y => y.no = f.no then { f with batched := true } else f }

/-- The ranges of a closed batch that can be written now: all of them, once the ring has room for all. DESIGN CHOICE (log 30): a
batch of more ranges than the ring holds is written a ring at a time. -/
def Part.writable (x : Part) (b : List (List Nat)) : List (List Nat) :=
  if min b.length (ringSize x.fltcfg) ≤ ringRoom x.fltcfg x.flthead x.flttail then b.take (ringSize x.fltcfg) else []

/-- The faults of a range. -/
def Part.rangeFaults (x : Part) (g : List Nat) : List FaultRec := g.filterMap fun n => x.faults.find? fun f => f.no = n

/-- The oldest closed batch is written: its records in ascending order, then TAIL is advanced once, then the vector is sent; without
room OVF is set, and the batch waits (R157). -/
def State.writeBatch (s : State) (p : Nat) : State :=
  let x := s.part p
  match x.batches with
  | [] => s
  | b :: rest =>
    let out := x.writable b
    if out.isEmpty then s.modPart p Part.fltFull
    else
      let numbered := (out.zipIdx).map fun e => (e.1, x.fseq + BitVec.ofNat 32 e.2)
      let s := s.writeRing64 x.fltbase x.fltcfg x.flttail (numbered.map fun g => rangeWords (x.rangeFaults g.1) g.2)
      (s.modPart p fun x => ({ x with
        batches := if out.length < b.length then b.drop out.length :: rest else rest
        faults := x.faults.map fun f => match numbered.find? fun g => g.1.contains f.no with
          | some g => { f with seq := some g.2 }
          | none => f
        fseq := x.fseq + BitVec.ofNat 32 out.length, flttail := x.flttail + BitVec.ofNat 32 out.length } : Part).sweepFaults).sendMsi x.fltVec

/-- FAULT_BATCH_CLOSE (R157): with FMODE 1, a batch that is due closes, and the oldest closed batch is written. -/
def execFaultBatchClose (p : Nat) (s : State) : Out :=
  let t := if (s.part p).batchDue s.now then s.modPart p Part.closeBatch else s
  if (t.part p).batches.isEmpty then .next s else .next (t.writeBatch p).stir

/-! ### Trap records (R349, R350) -/

/-- A trap record (Table 19-3), its time stamp that of its writing. -/
def TrapRec.words (t : TrapRec) (seq : BitVec 32) (ns : Nat) : List Word :=
  [fields [(seq.toNat, 32), (t.cls, 24), (t.eng, 22), (bit t.info, 21), (bit t.cont, 20), (bit t.cond, 19), (bit t.arr, 18), (t.core, 0)],
   fields [(t.cause, 48), (t.part, 44), (t.test, 32), (t.unit, 0)],
   fields [(t.pcs.getD 3 0, 42), (t.pcs.getD 2 0, 28), (t.pcs.getD 1 0, 14), (t.pcs.getD 0 0, 0)],
   t.val,
   fields [(t.iter, 16), (t.queue, 0)],
   BitVec.ofNat 64 ns,
   0,
   fields [(t.rcnt, 32)]]

/-- Traps whose records are written and that no acknowledgement acts on leave the list. -/
def Part.sweepTraps (p : Part) : Part := { p with traps := p.traps.filter fun t => !(t.seq.isSome && (t.info || t.src = .gone)) }

/-- TRAP_RECORD_WRITE: the oldest trap whose record is not written; a full ring makes it wait, and sets OVF (R349). -/
def execTrapRecordWrite (p : Nat) (s : State) : Out :=
  let x := s.part p
  match x.traps.find? fun t => t.seq.isNone with
  | none => .next s
  | some t =>
    if ringRoom x.trpcfg x.trphead x.trptail = 0 then .next (s.modPart p fun x => { x with trpcfg := putBits x.trpcfg 8 8 1 }).stir
    else
      let s := s.writeRing64 x.trpbase x.trpcfg x.trptail [t.words x.tseq s.ns]
      .next ((s.modPart p fun x => ({ x with
        traps := mapFirst (fun t => t.seq.isNone) (fun t => { t with seq := some x.tseq }) x.traps
        tseq := x.tseq + 1, trptail := x.trptail + 1 } : Part).sweepTraps).sendMsi (bits x.trpcfg 19 9)).stir

end Sys2Proof.Machine
end

