-- ==== Sys2Proof/Machine/Faults.lean ====
section
/-! DEFINITION. What is done about a translation fault or a trap: FLTACK (R160, R161), TRPACK (R351), self-test, fencing and
replay (R356 to R360), and the watchdogs (R354). -/

namespace Sys2Proof.Machine

/-! ### FLTACK (R160, R161) -/

/-- A source that a fault halts goes on, and translates afresh. -/
def State.resumeSource (s : State) (f : FaultRec) : State :=
  match f.src with
  | .engine id e => s.modCtxOfWork id fun c => if (c.eng e).hold = some .fault then c.unhold e s.now else c
  | .ladle l => s.modLadle l fun x => { x with halted := false }
  | .shakeout d ctx asid => s.resumeDrains d ctx asid f.part
  | .store _ | .other => s

/-- A fault that is discarded: the held store is gone; a chain entry ends with status 9; a drain stops; an engine's work
meets machine check 8 (R160, R161, R190, R213). -/
def State.discardSource (s : State) (f : FaultRec) : State :=
  match f.src with
  | .engine id e =>
    match s.findWork id with
    | none => s
    | some (k, c) =>
      if (c.ctx.eng e).hold ≠ some .fault then s
      else (s.modCtxOfWork id fun x => x.modEng e fun g => { g with hold := some (.trap 13 8) }).addTrap
        { trapRecOf k c (c.work.getD { id }) (.engine id e) 13 8 0 with eng := engTag e }
  | .store id => s.modAnyWork id fun w => { w with sb := dropFirst (fun t => t.mark && t.va = f.va && t.size = f.extent) w.sb }
  | .ladle l => s.modLadle l Ladle.giveUp
  | .shakeout d ctx asid => s.stopDrains d ctx asid f.part
  | .other => s

/-- A write of FLTACK of partition p: every fault in a record up to SEQ. -/
def State.writeFltack (s : State) (p : Nat) (v : Word) : State :=
  let hit := fun (f : FaultRec) => f.seq.any fun q => decide (diff32 q (v.setWidth 32) ≤ 0)
  let l := (s.part p).faults.filter hit
  let s := s.modPart p fun x => { x with faults := x.faults.filter fun f => !hit f }
  (l.foldl (fun s f => if v.getLsbD 63 then s.discardSource f else s.resumeSource f) s).settleParked

/-- FLTACK. -/
def execFltack (p : Nat) (v : BitVec 64) (s : State) : Out := atPart p (·.writeFltack p v) s

/-! ### TRPACK (R351) -/

/-- A write of TRPACK of partition p: of a record held, written, and not acknowledged yet. -/
def State.writeTrpack (s : State) (p : Nat) (v : Word) : State :=
  match (s.part p).traps.find? fun t => t.seq = some (v.setWidth 32) && !t.info && t.src ≠ .gone && t.acked.isNone with
  | none => s
  | some t =>
    let act := bits v 34 32
    if act = 0 ∧ t.retryable ∨ act = 1 ∨ act = 2 ∧ t.cls = 10 then s.acknowledge p t act
    else s.modPart p fun x => { x with trpcfg := putBits x.trpcfg 20 20 1 }

/-- TRPACK_RETRY, TRPACK_ABORT, TRPACK_DISCARD: the action of the row. -/
def execTrpackRetry (p : Nat) (v : BitVec 64) (s : State) : Out := atPart p (·.writeTrpack p (putBits v 34 32 0)) s
def execTrpackAbort (p : Nat) (v : BitVec 64) (s : State) : Out := atPart p (·.writeTrpack p (putBits v 34 32 1)) s
def execTrpackDiscard (p : Nat) (v : BitVec 64) (s : State) : Out := atPart p (·.writeTrpack p (putBits v 34 32 2)) s

/-- TRPACK_RESERVED: an action from 3 to 7; an action that the record does not allow meets the same end in the rows above. -/
def execTrpackReserved (p : Nat) (v : BitVec 64) (s : State) : Out :=
  atPart p (·.writeTrpack p (if bits v 34 32 < 3 then putBits v 34 32 3 else v)) s

/-! ### Self-test (R356) -/

/-- An error arises in a unit (Tables 19-5, 19-6). In a core's state it is found as it is read; in the datapath of C, X or F at that
engine's next retirement; in the array's sums and the token counts at their next check. A ladle or a walker finds its own, and its
self-test begins. A single error is corrected; poison is PATROL_SCRUB's. -/
def State.upset (s : State) (u : UnitId) (cause : Nat) (e : Eng) : State :=
  match u with
  | .core k =>
    let works := (s.core k).work.isSome && !(s.core k).ending
    if cause = 1 then (s.detect k 1).stir
    else if !works then s
    else if cause = 2 && e ≠ .A then s.modCore k fun c => { c with badPath := some e }
    else if cause = 3 then s.modCore k fun c => { c with badSums := true }
    else if cause = 4 then s.modCore k fun c => { c with badTokens := true }
    else s
  | .ladle l => if cause = 12 && (s.ladle l).run.isSome && (s.ladle l).test.isNone && !(s.ladle l).fenced then
      (s.modLadle l fun x => { x with test := some (cause, s.now) }).stir else s
  | .walker d => if 1 ≤ cause && cause ≤ 4 && (s.die d).test.isNone then
      (s.modDie d fun x => { x with test := some (cause, s.now) }).stir else s
  | _ => s

/-- The work of a core that is fenced leaves it as it will replay: on the lowest-numbered free core of its domain. -/
def State.fenceOut (s : State) (k cause : Nat) (e : Eng) : State :=
  match (s.core k).work with
  | none => s
  | some w => match w.ckpt with
    | none => s
    | some cp =>
      let s := s.rollback k w cp
      let c := s.core k
      let g : Seg := { work := w.rewound cp, ctx := some (cp.ctx.restored c.ctx.csr s.now), st := .fenced, core := some k,
                       since := s.now, cause, eng := engTag e }
      ({ s with off := s.off ++ [g] } : State).vacate k

/-- The end of a core's self-test. A fault in an interval that cannot be replayed is machine check 11 (R359). -/
def State.testedCore (s : State) (k : Nat) (passed : Bool) : State :=
  match (s.core k).test with
  | none => s
  | some (cause, _, e) =>
    let s := s.modCore k fun c => { c with test := none, fenced := c.fenced || !passed }
    match (s.core k).work with
    | none => s
    | some w =>
      if (s.core k).ending then s
      else if (s.core k).ctx.csr.nrp then
        (s.modCtxOf k fun x => { x with held := true }).addTrap { trapRecOf k (s.core k) w (.work w.id) 13 11 0 with
          test := if passed then 1 else 2, eng := engTag e, arr := decide (cause = 3) }
      else if passed then
        let s := s.replay k
        s.addTrap { trapRecOf k (s.core k) w .gone 13 cause 0 with info := true, test := 1, eng := engTag e, arr := decide (cause = 3) }
      else s.fenceOut k cause e

/-- The waits of a ladle's chain at a semaphore end; a chain that has taken goes past its entry (R189). -/
def State.leaveSems (s : State) (l : Nat) (r : Run) : State × Run :=
  let mine := fun (w : Waiter) => match w with | .ladle i _ => decide (i = l) | .core _ _ => false
  let got := (s.sems.map fun e => e.2.taken.filter fun t => mine t.1).flatten
  let r := match got with
    | t :: _ => (if t.2 then r.fail 3 r.idx else r).next
    | [] => r
  ({ s with sems := s.sems.map fun e => (e.1, { e.2 with
      waiters := e.2.waiters.filter fun w => !mine w, taken := e.2.taken.filter fun t => !mine t.1 }) }, r)

/-- A fenced ladle hands its chains, in order, to the other ladle of its cluster; with both fenced they stay where they are. -/
def State.handOver (s : State) (l : Nat) (r : Run) : State :=
  let other := if l % 2 = 0 then l + 1 else l - 1
  if (s.ladle other).fenced then s
  else
    let (s, r) := s.leaveSems l r.restart
    let x := s.ladle l
    let s := (s.dropRun l).modLadle l fun x => { x with queue := [], resume := [], halted := false }
    let s := s.modLadle other fun y => { y with queue := y.queue ++ x.queue, resume := y.resume ++ [r] ++ x.resume }
    s.modPart r.chain.part fun p => { p with
      faults := p.faults.map fun f => if f.src = .ladle l then { f with src := .other } else f
      traps := p.traps.map fun t => if t.src = .ladle l then { t with src := .gone } else t }

/-- The end of a ladle's self-test. After poisoned source data the ladle that has passed stays halted at its entry until the record is
acknowledged (Table 19-5, log 35). -/
def State.testedLadle (s : State) (l : Nat) (passed : Bool) : State :=
  match (s.ladle l).test, (s.ladle l).run with
  | some (cause, _), some r =>
    let poison := (s.ladle l).poisonAt
    let s := s.modLadle l fun x => { x with
      test := none, poisonAt := none, fenced := x.fenced || !passed, run := if passed && poison.isNone then some r.restart else some r }
    if r.abandoned && (poison.isSome || !passed) then (s.dropRun l).modLadle l fun x => { x with halted := false }
    else if passed && poison.isSome then s.ladleTrap l r.chain 13 12 (poison.getD 0) 1
    else
      let s := if passed then s else s.handOver l r
      s.addTrap { src := .gone, cls := 13, cause, info := true, cont := true, test := if passed then 1 else 2, val := poison.getD 0
                  core := r.chain.core, part := r.chain.part, unit := 2 ^ 24 + l }
  | _, _ => s

/-- A partition that holds a cluster of a die: which one is a free value (log 3). -/
def State.somePart (s : State) (d : Nat) : Option Nat × State :=
  let (b, s) := s.freeByte
  let l := (List.range 16).filter fun p => (List.range 16).any fun i => (s.part p).holds (16 * d + i)
  (l[b.toNat % l.length]?, s)

/-- The end of a walker's self-test on die d: a fenced walker's misses go to those that remain. -/
def State.testedWalker (s : State) (d : Nat) (passed : Bool) : State :=
  match (s.die d).test with
  | none => s
  | some (cause, _) =>
    let s := s.modDie d fun x => { x with test := none, fenceWalk := if passed then x.fenceWalk else min (x.fenceWalk + 1) 96 }
    match s.somePart d with
    | (some part, s) => s.addTrap { src := .gone, cls := 13, cause, info := true, cont := true, test := if passed then 1 else 2
                                    core := 256 * d, part, unit := 2 * 2 ^ 24 + d }
    | (none, s) => s

/-- A unit that fails the self-test of bring-up is fenced (Table 21-10). -/
def State.fenceUnit (s : State) : UnitId → State
  | .core k => s.modCore k fun c => { c with fenced := true }
  | .ladle l => s.modLadle l fun x => { x with fenced := true }
  | .walker d => s.modDie d fun x => { x with fenceWalk := min (x.fenceWalk + 1) 96 }
  | _ => s

/-- SELF_TEST_COMPLETE: at bring-up the tests of every unit; afterwards that of a unit whose error was detected. -/
def execSelfTestComplete (u : UnitId) (passed : Bool) (s : State) : Out :=
  .next (if s.stage = 3 then (if passed then s else s.fenceUnit u) else match u with
    | .core k => (s.testedCore k passed).stir
    | .ladle l => (s.testedLadle l passed).stir
    | .walker d => (s.testedWalker d passed).stir
    | _ => s)

/-- FENCED_WORK_TIMEOUT: the work of fenced core k has found no core within 1 ms: machine check 6 (R356). -/
def execFencedWorkTimeout (k : Nat) (s : State) : Out :=
  match s.off.find? fun g => g.st = .fenced && g.core = some k && !g.ctx.any (·.held) && decide (g.since + msTicks ≤ s.now) with
  | none => .next s
  | some g => .next ((s.modCtxOfWork g.work.id fun c => { c with held := true }).addTrap
      { trapRecOf k g.asCore.2 g.work (.work g.work.id) 13 6 0 with test := 2, eng := g.eng, arr := decide (g.cause = 3) }).stir

/-! ### Watchdogs, time limits and the patrol scrub (R133, R354) -/

/-- The members of a domain's active set that have not arrived meet machine check 5 (R354). When only other devices of the group are
late, one record names the first member that waits, and holds no work (R378, log 34). -/
def State.watchdogFires (s : State) (p lvl idx : Nat) : State :=
  let on := s.activeCores p lvl idx
  let late := on.filter fun k => !(s.core k).work.any fun w => w.arrived = some lvl
  let away := s.off.filter (s.activeOff p lvl idx)
  let s := late.foldl (fun s k => s.machineCheck k 5 0) s
  let s := away.foldl (fun s g =>
    (s.modCtxOfWork g.work.id fun c => { c with held := true }).addTrap (trapRecOf g.asCore.1 g.asCore.2 g.work (.work g.work.id) 13 5 0)) s
  let s := if late.isEmpty && away.isEmpty && lvl = 4 then
      match on with
      | k :: _ => s.addTrap (trapRecOf k (s.core k) ((s.core k).work.getD { id := 0 }) .gone 13 5 0)
      | [] => s
    else s
  on.foldl (fun s k => s.modWorkOf k fun w => if w.arrived = some lvl then { w with watched := true } else w) s

/-- Whether a member of a domain's active set is held (R348). -/
def State.heldIn (s : State) (p lvl idx : Nat) : Bool :=
  (s.activeCores p lvl idx).any (fun k => (s.core k).ctx.isHeld || (s.core k).test.isSome)
    || s.off.any fun g => s.activeOff p lvl idx g && g.ctx.any Ctx.isHeld

/-- Whether the phase watchdog of the domain at whose boundary work on core k waits is suspended. -/
def State.watchPaused (s : State) (k : Nat) (w : Work) : Bool :=
  match w.arrived with
  | some lvl => s.heldIn w.part lvl (if lvl = 1 then k / 16 else if lvl = 2 then k / 256 else 0)
  | none => false

/-- A stretch of time in which no phase watchdog counts whose domain has a held member: its arrivals are that much later (R348,
Table 19-11). -/
def State.pauseWatchdogs (s : State) (n : Nat) : State :=
  let later (k : Nat) (w : Work) : Work := if s.watchPaused k w then { w with arrivedAt := w.arrivedAt + n } else w
  if n = 0 then s else { s with cores := s.cores.map fun e => (e.1, { e.2 with work := e.2.work.map (later e.1) }) }

/-- PHASE_WATCHDOG: 1 ms after the first arrival, unless a member is held (R348). -/
def execPhaseWatchdog (p : Nat) (lvl : Nat) (idx : Nat) (s : State) : Out :=
  let on := (s.activeCores p lvl idx).map s.core
  let arrived := (on.filterMap (·.work)).filter fun w => w.arrived = some lvl
  if arrived.any (fun w => decide (w.arrivedAt + msTicks ≤ s.now)) && !arrived.any (·.watched) && !s.heldIn p lvl idx then
    .next (s.watchdogFires p lvl idx).stir
  else .next s

/-- Waits during which a core's stall is no fault (R354). -/
def Wait.permitted : Wait → Bool
  | .memory | .mailbox | .semaphore | .ladle | .event | .phase => true
  | _ => false

/-- CORE_STALL_WATCHDOG: every live engine of core k has passed nothing for 1 ms, and waits, none of them in a permitted wait; a
stop for a save slot is none (R364). Held work is not counted. -/
def execCoreStallWatchdog (k : Nat) (s : State) : Out :=
  let c := s.core k
  let l := s.quiet.filter fun q => q.1 = k
  let stopped := fun (e : Eng) => c.leaving.isSome && !c.runnable e && c.ob.isEmpty
  let stuck := fun e => decide ((c.ctx.eng e).passed + msTicks ≤ s.now)
    && (stopped e || l.any fun q => q.2.1 = e && !q.2.2.permitted)
  if c.work.isSome && !c.ending && c.test.isNone && c.ctx.csr.wden && !c.ctx.isHeld && !c.ctx.live.isEmpty && c.ctx.live.all stuck then
    .next (s.machineCheck k 5 0).stir
  else .next s

/-- WFE_TIMEOUT: TMO cycles have passed in WFE, and WFE retires (R133). -/
def execWfeTimeout (k : Nat) (s : State) : Out :=
  let t : State := { s with cur := k }
  match t.fetch .C, (t.ctx.c.prog) with
  | .run (.wfe p), some pr =>
    if t.cc.wfeOver pr.mark then match execWfe p t with
      | .next t => .next { t with cur := s.cur }
      | x => x
    else .next s
  | _, _ => .next s

/-- PATROL_SCRUB: a line of the crucible or of a D-stack is read; an uncorrectable error poisons it (R354). -/
def execPatrolScrub (line : Nat) (bad : Bool) (s : State) : Out :=
  let key := 64 * line
  if bad && decide (tierOfKey key ≤ 1) && !beyondTier (tierOfKey key) (key % tierSpan) && !s.poison.contains line then
    .next ({ s with poison := line :: s.poison } : State).stir
  else .next s

end Sys2Proof.Machine
end

