-- ==== Sys2Proof/Machine/Crypto.lean ====
section
/-! DEFINITION. SHA-512 and ECDSA over P-521 (R7, R381, R382). The spec names the two standards and does not repeat them: the
rounds and constants of SHA-512 are those of FIPS 180-4, the curve and the signature those of FIPS 186. PRESUMED (log 36). -/

namespace Sys2Proof

/-! ### SHA-512 -/

/-- The primes below `n`, ascending. -/
def primesBelow (n : Nat) : List Nat := (List.range n).filter fun p => 2 ≤ p && (List.range p).all fun d => d < 2 || p % d ≠ 0

/-- The greatest x below 2^bits with x^k ≤ n. -/
def rootOf (k n : Nat) : Nat → Nat → Nat
  | 0, x => x
  | b + 1, x => rootOf k n b (if (x + 2 ^ b) ^ k ≤ n then x + 2 ^ b else x)

/-- The first 64 bits of the fraction of a number's k-th root. -/
def rootBits (k n : Nat) : Nat := rootOf k (n * 2 ^ (64 * k)) 70 0 % 2 ^ 64

/-- The eight words that a digest starts from: from the square roots of the first 8 primes. -/
def sha512Start : List Nat := (primesBelow 20).map (rootBits 2)

/-- The 80 round constants: from the cube roots of the first 80 primes. -/
def sha512K : List Nat := (primesBelow 410).map (rootBits 3)

/-- A 64-bit word rotated right by n places, 0 < n < 64. -/
def rotr64 (x n : Nat) : Nat := x >>> n ||| (x <<< (64 - n)) % 2 ^ 64

/-- A function of three rotations, or of two and a shift. -/
def shaMix (x a b c : Nat) (shift : Bool) : Nat := rotr64 x a ^^^ rotr64 x b ^^^ (if shift then x >>> c else rotr64 x c)

/-- The message schedule after n further words, newest first. -/
def shaExtend : Nat → List Nat → List Nat
  | 0, w => w
  | n + 1, w =>
    let g i := w.getD i 0
    shaExtend n (((shaMix (g 1) 19 61 6 true + g 6 + shaMix (g 14) 1 8 7 true + g 15) % 2 ^ 64) :: w)

/-- One round on the eight working words, with the sum of its constant and its schedule word. -/
def shaRound (v : List Nat) (kw : Nat) : List Nat :=
  match v with
  | [a, b, c, d, e, f, g, h] =>
    let t := h + shaMix e 14 18 41 false + ((e &&& f) ^^^ ((2 ^ 64 - 1 - e) &&& g)) + kw
    let u := shaMix a 28 34 39 false + ((a &&& b) ^^^ (a &&& c) ^^^ (b &&& c))
    [(t + u) % 2 ^ 64, a, b, c, (d + t) % 2 ^ 64, e, f, g]
  | _ => v

/-- The number that bytes hold, most significant first. -/
def ofBytesBig (l : List Byte) : Nat := ofBytes l.reverse

/-- The n bytes of a number, most significant first. -/
def toBytesBig (v n : Nat) : List Byte := (toBytes v n).reverse

/-- One block of 128 bytes. -/
def shaBlock (k : List Nat) (v : List Nat) (block : List Byte) : List Nat :=
  let w := (shaExtend 64 ((chunks 8 block 16).map ofBytesBig).reverse).reverse
  List.zipWith (fun a b => (a + b) % 2 ^ 64) v ((List.zipWith (· + ·) k w).foldl shaRound v)

/-- A message filled up to whole blocks: a one bit, zeros, and its length in bits. -/
def shaPad (l : List Byte) : List Byte :=
  l ++ [0x80] ++ List.replicate ((111 + 128 - l.length % 128) % 128) 0 ++ toBytesBig (8 * l.length) 16

/-- The SHA-512 digest of a string of bytes, 64 bytes. -/
def sha512 (l : List Byte) : List Byte :=
  let m := shaPad l
  ((chunks 128 m (m.length / 128)).foldl (shaBlock sha512K) sha512Start).flatMap fun x => toBytesBig x 8

/-! ### P-521 and ECDSA -/

/-- The prime of the field. -/
def p521 : Nat := 2 ^ 521 - 1

/-- The curve y² = x³ − 3x + b. -/
def p521B : Nat := 0x51953EB9618E1C9A1F929A21A0B68540EEA2DA725B99B315F3B8B489918EF109E156193951EC7E937B1652C0BD3BB1BF073573DF883D2C34F1EF451FD46B503F00

/-- The order of the base point. -/
def p521N : Nat :=
  0x1FFFFFFFFFFFFFFFFFFFFFFFFFFFFFFFFFFFFFFFFFFFFFFFFFFFFFFFFFFFFFFFFFA51868783BF2F966B7FCC0148F709A5D03BB5C9B8899C47AEBB6FB71E91386409

/-- The base point. -/
def p521G : Nat × Nat :=
  (0xC6858E06B70404E9CD9E3ECB662395B4429C648139053FB521F828AF606B4D3DBAA14B5E77EFE75928FE1DC127A2FFA8DE3348B3C1856A429BF97E7E31C2E5BD66,
   0x11839296A789A3BC0045C8A5FB42C7D1BD998F54449579B446817AFBD17273E662C97EE72995EF42640C550B9013FAD0761353C7086A272C24088BE94769FD16650)

/-- `b` to the power whose low `n` bits are those of `e`, modulo m. -/
def powMod (m b e : Nat) : Nat → Nat
  | 0 => 1 % m
  | n + 1 =>
    let h := powMod m (b * b % m) (e / 2) n
    if e % 2 = 1 then b * h % m else h

/-- The inverse modulo a prime of at most 521 bits. -/
def invMod (m a : Nat) : Nat := powMod m (a % m) (m - 2) 521

/-- Whether a point lies on the curve. -/
def onCurve (q : Nat × Nat) : Bool :=
  decide (q.1 < p521) && decide (q.2 < p521) && decide (q.2 * q.2 % p521 = (q.1 ^ 3 + (p521 - 3) * q.1 + p521B) % p521)

/-- The third point of the line with slope l through two points, mirrored. -/
def linePoint (l : Nat) (a b : Nat × Nat) : Nat × Nat :=
  let x := (l * l + 2 * p521 - a.1 - b.1) % p521
  (x, (l * (a.1 + p521 - x) + p521 - a.2) % p521)

/-- The sum of two points of the curve; none is the point at infinity. -/
def addPoints : Option (Nat × Nat) → Option (Nat × Nat) → Option (Nat × Nat)
  | none, b => b
  | a, none => a
  | some a, some b =>
    if a.1 = b.1 then
      if (a.2 + b.2) % p521 = 0 then none
      else some (linePoint ((3 * a.1 * a.1 + p521 - 3) * invMod p521 (2 * a.2) % p521) a b)
    else some (linePoint ((b.2 + p521 - a.2) * invMod p521 (b.1 + p521 - a.1) % p521) a b)

/-- The multiple of a point by the low n bits of k. -/
def mulPoint (k : Nat) (q : Option (Nat × Nat)) : Nat → Option (Nat × Nat)
  | 0 => none
  | n + 1 =>
    let h := mulPoint (k / 2) (addPoints q q) n
    if k % 2 = 1 then addPoints q h else h

/-- Whether (r, s) signs a digest under the public key q. -/
def ecdsaVerify (q : Nat × Nat) (digest : List Byte) (r s : Nat) : Bool :=
  let w := invMod p521N s
  let u := ofBytesBig digest * w % p521N
  onCurve q && decide (0 < r) && decide (r < p521N) && decide (0 < s) && decide (s < p521N) &&
    match addPoints (mulPoint u (some p521G) 521) (mulPoint (r * w % p521N) (some q) 521) with
    | some x => decide (x.1 % p521N = r)
    | none => false

/-- The signature of a digest with the private key d and the one-time number k. -/
def ecdsaSign (d : Nat) (digest : List Byte) (k : Nat) : Nat × Nat :=
  let r := ((mulPoint (k % p521N) (some p521G) 521).getD (0, 0)).1 % p521N
  (r, (ofBytesBig digest + r * d) * invMod p521N k % p521N)

end Sys2Proof
end

