-- ==== Sys2Proof/Machine/Preempt.lean ====
section
/-! DEFINITION. Pre-emption by the host and the save slots that deschedules wait for (R362 to R364). -/

namespace Sys2Proof.Machine

/-- A host request ends: BUSY clears, with ERR when it was refused. -/
def Part.endPreempt (p : Part) (err : Bool) : Part :=
  let v := putBits p.preempt 17 16 0
  { p with preempt := if err then putBits v 18 18 1 else v }

/-- A request for core k of partition p (R363): refused when the core is not in the partition, holds no work, or no slot is
free for it. -/
def State.startPreempt (s : State) (p k : Nat) : State :=
  let c := s.core k
  if s.partOfCluster (k / 16) ≠ some p || c.work.isNone || c.ending || (s.slotFor p s.leaveNo).isNone then
    s.modPart p (Part.endPreempt · true)
  else
    let s := s.modPart p fun x => { x with preempt := putBits x.preempt 17 16 3 }
    let s := s.modCore k fun c => { c with preempt := true }
    if c.leaving.isSome then s else s.startLeave k .saved

/-- A write of PREEMPT of partition p (Table 19-10). REQ reads 1 as long as BUSY does. -/
def State.writePreempt (s : State) (p : Nat) (v : Word) : State :=
  let busy := (s.part p).preempt.getLsbD 17
  let s := s.modPart p fun x => { x with
    preempt := putBits (if v.getLsbD 18 then putBits x.preempt 18 18 0 else x.preempt) 9 0 (bits v 9 0) }
  if v.getLsbD 16 && !busy then s.startPreempt p (bits v 9 0) else s

/-- PREEMPT_REQUEST. -/
def execPreemptRequest (p : Nat) (v : BitVec 64) (s : State) : Out := atPart p (·.writePreempt p (putBits v 16 16 1)) s

/-- Works of a partition that wait for a save slot of their own accord, can be saved, and find one that no earlier claim takes
(R364). -/
def State.slotWaiters (s : State) (p : Nat) : List (Nat × Core) :=
  s.cores.filter fun e => e.2.claims && e.2.canLeave && (s.slotFor p e.2.leaveNo).isSome && e.2.work.any fun w => w.part = p

/-- PREEMPT_SAVE (R363, R364): the work has stopped and its stores are performed; works that wait for a slot of their own
accord go first; a request that finds no slot is refused, and the work goes on. -/
def execPreemptSave (p : Nat) (s : State) : Out :=
  match s.cores.find? fun e => e.2.preempt && e.2.leaving = some .saved && e.2.canLeave && !e.2.ending && e.2.work.any fun w => w.part = p with
  | none => .next s
  | some (k, _) =>
    match s.slotFor p s.leaveNo with
    | some i => .next (s.leaveInto k i .saved).stir
    | none => .next ((s.modPart p (Part.endPreempt · true)).modCore k fun c => { c with preempt := false, leaving := none }).stir

/-- The one that began to wait first. -/
def firstWaiter : List (Nat × Core) → Option (Nat × Core)
  | [] => none
  | e :: r => match firstWaiter r with
    | some f => if f.2.leaveNo < e.2.leaveNo then some f else some e
    | none => some e

/-- DESCHEDULE: the work that has waited longest takes a free slot (R364). -/
def execDeschedule (p : Nat) (s : State) : Out :=
  match firstWaiter (s.slotWaiters p), (s.part p).freeSlot with
  | some (k, c), some i => .next (s.leaveInto k i (c.leaving.getD .saved)).stir
  | _, _ => .next s

end Sys2Proof.Machine
end

