-- ==== Sys2Proof/Machine/Partition.lean ====
section
/-! DEFINITION. Enabling and disabling a partition (R45 to R47, R52, R189, R327). -/

namespace Sys2Proof.Machine

/-- PARTCFG fields of a value. -/
def cfgNcl (v : Word) : Nat := bits v 19 13
def cfgBase (v : Word) : Nat := bits v 12 7

/-- Whether a configuration is valid (R46). -/
def State.partValid (s : State) (v : Word) : Bool :=
  decide (1 ≤ cfgNcl v) && decide (cfgBase v + cfgNcl v ≤ 64)
    && (List.range (cfgNcl v)).all (fun i => (s.partOfCluster (cfgBase v + i)).isNone)
    && decide (bits v 33 20 ≤ bits v 47 34) && (v.getLsbD 1 || decide (cfgNcl v ≤ 4))

/-- EN from 0 to 1: what the partition keeps for its clusters starts afresh (R46, R52, R184, R189, R327). -/
def State.enablePart (s : State) (p : Nat) (v : Word) : State :=
  if !s.partValid v then s.modPart p fun x => { x with cfg := putBits (putBits v 2 2 1) 0 0 0 }
  else
    let md := bits v 63 48
    let shared := (List.range 16).any fun q => (s.part q).en && (s.part q).mdid = md
    let s := s.modPart p fun x => { x with cfg := putBits v 2 2 0, phase := [], pred := [] }
    let mine := fun cl => cfgBase v ≤ cl && cl < cfgBase v + cfgNcl v
    { s with
      groups := if shared then s.groups else s.groups.put md {}
      sems := s.sems.filter fun e => !mine (e.1 / 256)
      ladles := s.ladles.map fun e => (e.1, if mine (e.1 / 2) then { e.2 with seq := 0, ended := [] } else e.2) }

/-- Whether a partition can be disabled (R46): no placed work, no work off a core that is not speculative, no enabled queue,
no conductor that runs. DESIGN CHOICE (log 10): a non-speculative segment that waits in the pool and was never placed, which R46 does
not name, also forbids it. -/
def State.canDisable (s : State) (p : Nat) : Bool :=
  s.cores.all (fun e => !e.2.work.any fun w => w.part = p) && s.off.all (fun g => !(g.work.part = p && !g.work.spec))
    && s.queues.all (fun e => !(e.2.part = p && e.2.en)) && s.conds.all fun e => !(e.2.part.toNat = p && e.2.run)

/-- A ladle without a disabled partition's chains: a running one stops at its next entry boundary, that of a ladle under test with the
test (R47, R356). DESIGN CHOICE (log 118). -/
def Ladle.abandon (x : Ladle) (p : Nat) : Ladle :=
  let mine := fun (r : Run) => r.chain.part = p
  let x := { x with queue := x.queue.filter fun c => c.part ≠ p, resume := x.resume.filter fun r => !mine r }
  if !x.run.any mine then x
  else if x.halted && x.test.isNone then { x with run := none, halted := false }
  else { x with run := x.run.map fun r => { r with abandoned := true } }

/-- The drain requests that stay when a partition is disabled: a drain in progress finishes its current slot (R47). -/
def keepDrains (p : Nat) (l : List Drain) : List Drain :=
  l.filterMap fun q =>
    if q.part ≠ p then some q
    else if 0 < q.doneRecs && !q.halted then some { q with hi := q.lo + 1 } else none

/-- EN from 1 to 0: the partition's resources are released in one step (R47). -/
def State.disablePart (s : State) (p : Nat) : State :=
  let s := (s.off.filter fun g => g.work.part = p).foldl (fun s g => s.dropSeg g) s
  let s := s.modPart p fun x => { x with
    cfg := putBits (putBits x.cfg 2 2 0) 0 0 0
    handles := []
    faults := x.faults.filterMap fun f => if f.seq.isSome then none else some { f with src := .other }
    traps := x.traps.filterMap fun t => if t.seq.isSome then none else some { t with src := if t.info then t.src else .gone } }
  { s with
    cvs := s.cvs.filter fun e => e.2.part ≠ p
    ladles := s.ladles.map fun e => (e.1, e.2.abandon p)
    dies := s.dies.map fun e => (e.1, { e.2 with drains := keepDrains p e.2.drains })
    kvOpen := s.kvOpen.filter fun x => x.1 ≠ p }

/-- A write of PARTCFG of partition p: while EN is 1 only EN is written (R46). -/
def State.writePartcfg (s : State) (p : Nat) (v : Word) : State :=
  let old := (s.part p).cfg
  let v := putBits (putBits v 6 3 0) 2 2 (bits old 2 2)
  if old.getLsbD 0 then
    if v.getLsbD 0 then s
    else if s.canDisable p then s.disablePart p
    else s.modPart p fun x => { x with cfg := putBits x.cfg 2 2 1 }
  else if v.getLsbD 0 then s.enablePart p v else s.modPart p fun x => { x with cfg := v }

/-- PARTITION_ENABLE and PARTITION_DISABLE. -/
def execPartitionEnable (p : Nat) (v : BitVec 64) (s : State) : Out := atPart p (·.writePartcfg p (putBits v 0 0 1)) s
def execPartitionDisable (p : Nat) (v : BitVec 64) (s : State) : Out := atPart p (·.writePartcfg p (putBits v 0 0 0)) s

end Sys2Proof.Machine
end

