-- ==== Sys2Proof/Machine/Window.lean ====
section
/-! DEFINITION. The host window (R374 to R377, Table 21-5): the registers, reads and writes of them, the security mailbox
(R382), and the host's and the peers' accesses to global memory (R308 to R310, R374). -/

namespace Sys2Proof.Machine

/-! ### The map (Table 21-5) -/

/-- A register of the host window; `.part p r` is the register at offset 8·r of a partition's block. -/
inductive HostReg where
  | wq (q r : Nat)
  | part (p r : Nat)
  | wsem (p n : Nat)
  | dieclk (d : Nat)
  | condrec (c : Nat)
  | condctl (c : Nat)
  | fencecore (i : Nat)
  | fenceladle (i : Nat)
  | fencewalk (d : Nat)
  | pwrcap
  | linkstat (l : Nat)
  | devstat
  | spanstat (n : Nat)
  | ladleflow (l : Nat)
  | mailbox (off : Nat)
  deriving DecidableEq, Repr

/-- The register at an offset that is a multiple of 8. -/
def hostReg (off : Nat) : Option HostReg :=
  let a := off - 0x210000
  if off < 0x200000 then (if off % 64 < 48 then some (.wq (off / 64) (off % 64 / 8)) else none)
  else if off < 0x210000 then
    let p := (off - 0x200000) / 0x1000
    let o := off % 0x1000
    if o < 0x98 then some (.part p (o / 8)) else if 0x200 ≤ o ∧ o < 0x400 then some (.wsem p ((o - 0x200) / 8)) else none
  else if off < 0x220000 then
    if a < 0x20 then some (.dieclk (a / 8))
    else if 0x40 ≤ a ∧ a < 0x80 then some (.condrec ((a - 0x40) / 8))
    else if 0x80 ≤ a ∧ a < 0xC0 then some (.condctl ((a - 0x80) / 8))
    else if 0xC0 ≤ a ∧ a < 0x140 then some (.fencecore ((a - 0xC0) / 8))
    else if 0x140 ≤ a ∧ a < 0x150 then some (.fenceladle ((a - 0x140) / 8))
    else if 0x150 ≤ a ∧ a < 0x170 then some (.fencewalk ((a - 0x150) / 8))
    else if a = 0x170 then some .pwrcap
    else if 0x180 ≤ a ∧ a < 0x190 then some (.linkstat ((a - 0x180) / 8))
    else if a = 0x190 then some .devstat
    else if 0x1C0 ≤ a ∧ a < 0x240 then some (.spanstat ((a - 0x1C0) / 8))
    else if 0x400 ≤ a ∧ a < 0x800 then some (.ladleflow ((a - 0x400) / 8))
    else none
  else if off < 0x221000 then some (.mailbox (off - 0x220000))
  else none

/-- Registers that act before the device is ready (R383). -/
def HostReg.early : HostReg → Bool
  | .linkstat _ | .devstat | .mailbox _ => true
  | _ => false

/-! ### Reads -/

/-- A work-queue register (Tables 1-7, 1-9). -/
def WQ.read (w : WQ) (r : Nat) : Word :=
  match r with
  | 0 => w.ring
  | 1 => w.cfg
  | 2 => w.heada
  | 4 => fields [(w.tail.toNat, 32), (w.head.toNat, 0)]
  | 5 => fields [(w.st, 28), (w.err, 24), (bit w.ovf, 23), (bit w.cfgign, 22), (min w.held.length 65535, 0)]
  | _ => 0

/-- SPECSTAT (Table 18-2). -/
def State.specstat (s : State) (p : Nat) : Word :=
  let places := (s.allWork.filter fun w => w.place && w.part = p).length
  fields [((s.cvs.filter fun e => e.2.part = p).length, 51), (places, 37), (bit (s.part p).poolfull, 1), (bit (s.part p).cverr, 0)]

/-- A register of a partition's block. -/
def State.readPart (s : State) (p r : Nat) : Word :=
  let x := s.part p
  match r with
  | 0 => x.cfg
  | 1 => x.ptbase
  | 2 => x.tierctl
  | 3 => s.specstat p
  | 4 => x.fltbase
  | 5 => x.fltcfg
  | 6 => zext x.flthead
  | 7 => zext x.flttail
  | 9 => x.invstart
  | 10 => x.invlen
  | 11 => fields [(x.invasid.toNat, 48), (bit x.inv.isSome, 1)]
  | 12 => x.trpbase
  | 13 => x.trpcfg
  | 14 => zext x.trphead
  | 15 => zext x.trptail
  | 17 => x.preempt
  | 18 => x.savecfg
  | _ => 0

/-- A mask of 64 flags as a word. -/
def flags64 (f : Nat → Bool) : Word := fields (upTo 64 fun i => (bit (f i), i))

/-- What a read of a register returns. -/
def State.readReg (s : State) : HostReg → Word
  | .wq q r => (s.wq q).read r
  | .part p r => s.readPart p r
  | .wsem p n => (s.part p).wsem.get 0 n
  | .dieclk d =>
    let x := s.die d
    fields [(x.hostmin, 26), (x.pwr, 20), (x.therm, 14), (x.eff, 8), (bit x.throt, 0)]
  | .condrec c => (s.conds.get {} c).record
  | .condctl c =>
    let x := s.conds.get {} c
    fields [(x.asid.toNat, 48), (x.part.toNat, 44), (bit x.flt, 2), (bit x.run, 1), (bit x.en, 0)]
  | .fencecore i => flags64 fun j => (s.core (64 * i + j)).fenced
  | .fenceladle i => flags64 fun j => (s.ladle (64 * i + j)).fenced
  | .fencewalk d => BitVec.ofNat 64 (s.die d).fenceWalk
  | .pwrcap => BitVec.ofNat 64 s.pwrcap
  | .linkstat l =>
    let x := s.links.get {} l
    fields [(x.rate, 12), (x.width, 7), (bit x.up, 6), (bit x.downev, 0)]
  | .devstat => fields [(bit s.thermtrip, 7), (bit s.fwerr, 6), (s.stage, 0)]
  | .spanstat n =>
    let x := s.spans.get {} n
    fields [(x.peer, 18), (bit x.up, 17), (bit x.downev, 16), (x.retry, 0)]
  | .ladleflow l => fields [(bit (s.ladle l).ordp, 4), ((s.ladle l).ordd.toNat, 0)]
  | .mailbox o => BitVec.ofNat 64 (numAt s.secbox o 8)

/-- The part of a register that a read of it, whole or half, returns (R376). -/
def halfPart (h : HalfSel) (v : Word) : Word :=
  match h with
  | .whole => v
  | .low => BitVec.ofNat 64 (bits v 31 0)
  | .high => BitVec.ofNat 64 (bits v 63 32)

/-- A host read of the window: reserved offsets, and registers that are not ready, read zero; a read of SPANSTAT's low half clears
RETRY, which it holds (R376, R378). -/
def State.windowRead (s : State) (off : Nat) (half : HalfSel) : State :=
  match hostReg (off / 8 * 8) with
  | none => { s with hostData := 0 }
  | some r =>
    if s.stage ≠ 5 && !r.early then { s with hostData := 0 }
    else
      let t : State := { s with hostData := halfPart half (s.readReg r) }
      match r, half with
      | .spanstat _, .high => t
      | .spanstat n, _ => { t with spans := s.spans.put n { s.spans.get {} n with retry := 0 } }
      | _, _ => t

/-! ### Writes -/

/-- A write of a work-queue register. -/
def State.writeQueueReg (s : State) (q r : Nat) (v : Word) : State :=
  match r with
  | 0 => s.writeRing q false v
  | 1 => s.writeCfg q v
  | 2 => s.writeRing q true v
  | 3 => s.writeTail q v
  | 5 => s.modWQ q fun w => { w with cfgign := w.cfgign && !v.getLsbD 22 }
  | _ => s

/-- A register with the RW fields of Table 6-7 or 19-2 and write-1-to-clear bits. -/
def writeRingCfg (old v rw w1c : Word) : Word := (v &&& rw) ||| (old &&& w1c &&& ~~~v)

/-- A write of a register of a partition's block. DESIGN CHOICE (log 11): bits [18:12] of PTBASE are kept and used as they are
written, though a root table may be said to be aligned (R147). -/
def State.writePart (s : State) (p r : Nat) (v : Word) : State :=
  match r with
  | 0 => s.writePartcfg p v
  | 1 => s.modPart p fun x => { x with ptbase := putBits v 11 0 0 }
  | 2 => s.writeTierctl p v
  | 3 => s.modPart p fun x => { x with poolfull := x.poolfull && !v.getLsbD 1, cverr := x.cverr && !v.getLsbD 0 }
  | 4 => s.modPart p fun x => { x with fltbase := putBits v 11 0 0 }
  | 5 => s.modPart p fun x => { x with fltcfg := writeRingCfg x.fltcfg v 0xFFE0F 0x100 }
  | 6 => s.modPart p fun x => { x with flthead := v.setWidth 32 }
  | 8 => s.writeFltack p v
  | 9 => s.writeInvStart p v
  | 10 => s.writeInvLen p v
  | 11 => s.writeInvcmd p v
  | 12 => s.modPart p fun x => { x with trpbase := putBits v 11 0 0 }
  | 13 => s.modPart p fun x => { x with trpcfg := writeRingCfg x.trpcfg v 0xFFE0F 0x100100 }
  | 14 => s.modPart p fun x => { x with trphead := v.setWidth 32 }
  | 16 => s.writeTrpack p v
  | 17 => s.writePreempt p v
  | 18 => s.modPart p fun x => { x with savecfg := writeRingCfg x.savecfg v 0x7FFFFFE0FFFF 0x10000 }
  | _ => s

/-- A die notes in THROT that EFF is above 0 (Table 2-9). -/
def Die.note (d : Die) : Die := { d with throt := d.throt || decide (0 < d.eff) }

/-- Bytes of the security mailbox written; 1 at offset 0xFF8 asks for a report (R382). -/
def State.writeMailbox (s : State) (o : Nat) (l : List Byte) : State :=
  let s : State := { s with secbox := s.secbox.setList 0 o l }
  if o = 0xFF8 ∧ ofBytes (l.take 4) = 1 then { s with attesting := true } else s

/-- A write of a whole register. -/
def State.writeReg (s : State) (r : HostReg) (v : Word) : State :=
  match r with
  | .wq q i => s.writeQueueReg q i v
  | .part p i => s.writePart p i v
  | .wsem p n => s.modPart p fun x => { x with
      wsem := x.wsem.set 0 n (putBits (v &&& 0xFFFF) 16 16 (bit ((x.wsem.get 0 n).getLsbD 16 && !v.getLsbD 16))) }
  | .dieclk d => s.modDie d fun x => ({ x with hostmin := min (bits v 31 26) 56, throt := x.throt && !v.getLsbD 0 } : Die).note
  | .condrec c => { s with conds := s.conds.put c { s.conds.get {} c with record := putBits v 6 0 0 } }
  | .condctl c => s.writeCondctl c v
  | .pwrcap => { s with pwrcap := min (max (bits v 11 0) 800) 2200 }
  | .linkstat l =>
    let x := s.links.get {} l
    { s with links := s.links.put l { x with downev := x.downev && !v.getLsbD 0 } }
  | .spanstat n =>
    let x := s.spans.get {} n
    { s with spans := s.spans.put n { x with downev := x.downev && !v.getLsbD 16 } }
  | .ladleflow l => s.modLadle l fun x => { x with ordp := v.getLsbD 4, ordd := v.extractLsb' 0 4 }
  | .mailbox o => s.writeMailbox o (toBytes v.toNat 8)
  | .fencecore _ | .fenceladle _ | .fencewalk _ | .devstat => s

/-- The bits of a register that act when 1 is written: a half that is not written is written with them 0. -/
def HostReg.acting : HostReg → Word
  | .wq _ 5 => 0x400000
  | .part _ 2 => 0x4
  | .part _ 3 => 0x3
  | .part _ 5 => 0x100
  | .part _ 11 => 0x1
  | .part _ 13 => 0x100100
  | .part _ 17 => 0x50000
  | .part _ 18 => 0x10000
  | .wsem _ _ => 0x10000
  | .dieclk _ => 0x1
  | .condctl _ => 0x1
  | .linkstat _ => 0x1
  | .spanstat _ => 0x10000
  | _ => 0

/-- A host write of a register, whole or half: the other half keeps its value, and acts as 0 where it is WO (R376). -/
def State.windowWrite (s : State) (off : Nat) (v : Word) (half : HalfSel) : State :=
  match hostReg (off / 8 * 8) with
  | none => s
  | some r =>
    if s.stage ≠ 5 && !r.early then s
    else
      let keep := s.readReg r &&& ~~~r.acting
      match r, half with
      | .mailbox o, .low => s.writeMailbox o (toBytes (bits v 31 0) 4)
      | .mailbox o, .high => s.writeMailbox (o + 4) (toBytes (bits v 63 32) 4)
      | _, .whole => s.writeReg r v
      | _, .low => s.writeReg r (putBits keep 31 0 (bits v 31 0))
      | _, .high => s.writeReg r (putBits keep 63 32 (bits v 63 32))

/-- REGISTER_WRITE: the register at or around an offset of the window (R10, R376). -/
def execRegisterWrite (off : Nat) (v : BitVec 64) (half : HalfSel) (s : State) : Out := .next (s.windowWrite off v half).stir

/-- SPANSTAT_READ (R10, R378). -/
def execSpanstatRead (n : Nat) (s : State) : Out := .next (if n < 16 then s.windowRead (0x2101C0 + 8 * n) .whole else s)

/-! ### The host's accesses to memory (R308, R310, R374) -/

/-- The location that a memory target names: an offset of BAR2 is a D-stack address, one of BAR4 a crucible address. -/
def hostKey : HostTarget → Option Nat
  | .bar2 a => if a < 2 ^ 39 then some (keyOf 1 0 a) else none
  | .bar4 a => if a < 1120 * 2 ^ 20 then some (keyOf 0 0 a) else none
  | .hostMem a => if a < tierSpan then some (keyOf 2 0 a) else none
  | _ => none

/-- The half of a register that an access of n bytes names, if it is one that the window takes (R376). -/
def halfOf (off n : Nat) : Option HalfSel :=
  if n = 8 ∧ off % 8 = 0 then some .whole
  else if n = 4 ∧ off % 8 = 0 then some .low
  else if n = 4 ∧ off % 8 = 4 then some .high
  else none

/-- A host read of n bytes of BAR0. -/
def State.hostWindowRead (s : State) (off n : Nat) : State :=
  match halfOf off n with
  | some h => if off < 2 ^ 24 then s.windowRead off h else s
  | none =>
    let (l, s) := s.freeBytes 8
    { s with hostData := BitVec.ofNat 64 (ofBytes l) }

/-- HOST_READ: a register whole or in half, a vector of the MSI-X table, or the 8 bytes around a location at their point of
serialisation; above the crucible BAR4 reads all ones; data of a poisoned line, and of a read of the window that R376 does not
give, are free values (log 3). -/
def execHostRead (t : HostTarget) (s : State) : Out :=
  match t with
  | .bar0 off => .next (s.hostWindowRead off 8)
  | .bar0Half off => .next (s.hostWindowRead off 4)
  | .config l => .next { s with hostData := BitVec.ofNat 64 (bit (s.links.get {} l).atomic) }
  | .msix off => .next { s with hostData := BitVec.ofNat 64 (bits (s.msixTable.get 0 (off / 16)) (off % 16 / 8 * 64 + 63) (off % 16 / 8 * 64)) }
  | _ => match hostKey t with
    | some key =>
      let key := key / 8 * 8
      if s.poisoned key 8 then
        let (l, s) := s.freeBytes 8
        .next { s with hostData := BitVec.ofNat 64 (ofBytes l) }
      else .next { s with hostData := BitVec.ofNat 64 (s.readM key 8) }
    | none => .next { s with hostData := BitVec.allOnes 64 }

/-- A host write of n bytes of BAR0. -/
def State.hostWindowWrite (s : State) (off n : Nat) (v : Word) : State :=
  if 2 ^ 24 ≤ off then s
  else match halfOf off n with
    | some .whole => (s.windowWrite off v .whole).stir
    | some .low => (s.windowWrite off v .low).stir
    | some .high => (s.windowWrite off (v <<< 32) .high).stir
    | none => s

/-- HOST_WRITE: one part of a posted write, at most up to the next multiple of 8; or a register; or AtomicOp Requester Enable of
a link's function; or 4 or 8 bytes of the MSI-X table, whose contents both functions share (R374). -/
def execHostWrite (t : HostTarget) (v : BitVec 64) (n : Nat) (s : State) : Out :=
  match t with
  | .bar0 off => .next (s.hostWindowWrite off n v)
  | .bar0Half off => .next (s.hostWindowWrite off 4 v)
  | .msix off => .next (if 2048 * 16 ≤ off then s
      else match halfOf off n with
        | some _ =>
          let old := toBytes (s.msixTable.get 0 (off / 16)).toNat 16
          let l := old.take (off % 16) ++ toBytes v.toNat n ++ old.drop (off % 16 + n)
          { s with msixTable := s.msixTable.set 0 (off / 16) (BitVec.ofNat 128 (ofBytes l)) }
        | none => s)
  | .config l => .next (if l < 2 then { s with links := s.links.put l { s.links.get {} l with atomic := v.getLsbD 0 } } else s).stir
  | _ => match hostKey t with
    | some key => .next (s.writeM key (toBytes v.toNat (min (min n 8) (8 - key % 8)))).stir
    | none => .next s

/-! ### Requests of peers (R144, R309) -/

/-- The location that a peer's address names on this device (Table 6-1, TIER 3). -/
def peerTarget (a : Nat) : Option Nat :=
  let b := a % 2 ^ 46
  if a / 2 ^ 46 % 2 = 1 then (if b < 1120 * 2 ^ 20 then some (keyOf 0 0 b) else none)
  else if b < 2 ^ 39 then some (keyOf 1 0 b) else none

/-- PEER_REQUEST: a read, a write or an atomic at its point of serialisation; `v` is its operand, `u` what AMOCAS compares
with. What a poisoned line answers a peer is a free value, and an atomic leaves the line as it is: the peer meets its own machine check
(R354, log 3). -/
def execPeerRequest (op : PeerOp) (a : Nat) (v : BitVec 64) (u : BitVec 64) (s : State) : Out :=
  match peerTarget a with
  | none => .next s
  | some key =>
    let answered (old : Nat × State) : State :=
      if s.poisoned (key / 8 * 8) 8 then
        let (l, s) := s.freeBytes 8
        { s with peerData := BitVec.ofNat 64 (ofBytes l) }
      else { old.2 with peerData := BitVec.ofNat 64 old.1 }
    match op with
    | .read => .next (answered (s.readM (key / 8 * 8) 8, s))
    | .write n => .next (s.writeM key (toBytes v.toNat (min (min n 8) (8 - key % 8)))).stir
    | .atomic fn w32 =>
      let n := if w32 then 4 else 8
      .next (answered (s.amoStep (key / n * n) fn (8 * n) (v.toNat % 2 ^ (8 * n)) (u.toNat % 2 ^ (8 * n)))).stir

end Sys2Proof.Machine
end

