-- ==== Sys2Proof/Machine/Package.lean ====
section
/-! DEFINITION. The package: throttling (R60 to R63), power and cooling (R380), host links and SpanasLink ports (R375, R378),
reset, bring-up and attestation (R381 to R383). -/

namespace Sys2Proof.Machine

/-! ### Throttling and power (R62, R380) -/

/-- THROTTLE_WINDOW: the device reaches the next window boundary of die d, where the count of its DIECLK comes into force
(R62). -/
def execThrottleWindow (d : Nat) (s : State) : Out := .next (s.tick (64 - (s.die d).pulse)).stir

/-- The package power controller, from the draw of each die in watts and the counts it aims at: above LIMIT it raises the
counts of the dies with the greatest draw, each by one at least, and lowers none; within LIMIT it raises none (R61, R380). How far it
goes is free (log 37). -/
def State.regulate (s : State) (draw n : List Nat) : State :=
  let w := (draw ++ [0, 0, 0, 0]).take 4
  let most := w.foldl max 0
  (List.range 4).foldl (fun s d => s.modDie d fun x =>
    let aim := n.getD d 0 % 64
    let pwr := if w.sum ≤ s.pwrcap then min x.pwr aim else if w.getD d 0 = most then min 63 (max (x.pwr + 1) aim) else x.pwr
    ({ x with pwr } : Die).note) s

/-- POWER_MEASURE: every 10 µs (R380). -/
def execPowerMeasure (draw : List Nat) (n : List Nat) (s : State) : Out :=
  .next (if s.measured + 7000 ≤ s.now then ({ s with measured := s.now } : State).regulate draw n else s)

/-- THERMAL_SENSE: a die's sensors set its THERM count (R380). -/
def execThermalSense (d : Nat) (n : Nat) (s : State) : Out :=
  .next (if d < 4 then s.modDie d fun x => ({ x with therm := n % 64 } : Die).note else s)

/-- THERMAL_TRIP: the package removes its own power; only a reset acts from then on (R380). -/
def execThermalTrip (s : State) : Out := .next { s with power := false }

/-! ### Links (R375, R378) -/

/-- LINK_DOWN. -/
def execLinkDown (l : Nat) (s : State) : Out :=
  let x := s.links.get {} l
  .next (if l < 2 ∧ x.up then ({ s with links := s.links.put l { x with up := false, rate := 0, width := 0, downev := true } } : State).stir else s)

/-- LINK_UP: at a rate code of Table 21-6 and a width of Table 21-4. -/
def execLinkUp (l : Nat) (rate : Nat) (width : Nat) (s : State) : Out :=
  .next (if l < 2 ∧ 5 ≤ rate ∧ rate ≤ 7 ∧ [4, 8, 16].contains width then
    ({ s with links := s.links.put l { s.links.get {} l with up := true, rate, width } } : State).stir else s)

/-- SPAN_PORT_DOWN: after 64 failed retries; the time without a route begins with the last port to the peer. -/
def execSpanPortDown (n : Nat) (s : State) : Out :=
  let x := s.spans.get {} n
  if n < 16 ∧ x.up then
    let s : State := { s with spans := s.spans.put n { x with up := false, downev := true } }
    .next (if s.routed x.peer then s else { s with noRoute := s.noRoute.put x.peer s.now }).stir
  else .next s

/-- SPAN_PORT_UP. -/
def execSpanPortUp (n : Nat) (rank : Nat) (s : State) : Out :=
  .next (if n < 16 then
    ({ s with
      spans := s.spans.put n { s.spans.get {} n with up := true, peer := rank % 2 ^ 14 }
      lost := s.lost.filter fun r => r ≠ rank % 2 ^ 14 } : State).stir else s)

/-- PEER_ROUTE_TIMEOUT: no route to a peer has existed for 1 ms. -/
def execPeerRouteTimeout (rank : Nat) (s : State) : Out :=
  .next (if !s.routed rank && !s.lost.contains rank && decide (s.noRoute.get 0 rank + msTicks ≤ s.now) then
    ({ s with lost := rank :: s.lost } : State).stir else s)

/-- FLIT_RETRY (R378). -/
def execFlitRetry (n : Nat) (s : State) : Out :=
  let x := s.spans.get {} n
  .next (if n < 16 then { s with spans := s.spans.put n { x with retry := min (x.retry + 1) 65535 } } else s)

/-! ### Reset, bring-up and attestation (R381 to R383) -/

/-- DEVICE_RESET: every register, fence, queue and piece of work is as after reset. Global memory with its poison, the messages
already sent, the fuses, and what the model itself counts stay (log 7). -/
def State.restart (s : State) : State :=
  { State.reset with
    mem := s.mem, poison := s.poison, msix := s.msix, hostData := s.hostData, peerData := s.peerData
    thermtrip := s.thermtrip || !s.power, fuses := s.fuses
    workNo := s.workNo, nestNo := s.nestNo, invNo := s.invNo, freeNo := s.freeNo, turnNo := s.turnNo, agenda := s.agenda }

def execDeviceReset (s : State) : Out := .next s.restart

/-- Whether an image is accepted: it carries the root key, its ECDSA signature over the SHA-512 digest of the image verifies over
P-521, and its version is not below the rollback counter (R7, R381). -/
def State.accepts (s : State) (fw : Firmware) : Bool :=
  sha512 fw.key == Config.rootKeyDigest
    && ecdsaVerify (Config.keyPoint fw.key) (sha512 fw.image) fw.r fw.s
    && decide (s.fuses.rollback ≤ Config.imageVersion fw.image)

/-- BRINGUP_STAGE: a stage completes; at the firmware stage `fw` is what is offered, and firmware that is refused leaves the
device at its stage with FWERR (R381, R383). -/
def execBringupStage (fw : Firmware) (s : State) : Out :=
  .next (if s.fwerr then s
    else if s.stage = 1 then
      if s.accepts fw then
        ({ s with stage := 2, fwVersion := Config.imageVersion fw.image, fwDigest := sha512 fw.image } : State).stir
      else { s with fwerr := true }
    else if s.stage < 5 then ({ s with stage := s.stage + 1 } : State).stir else s)

/-- ATTEST_REQUEST: 1 is written at offset 0xFF8 of the security mailbox (R382). -/
def execAttestRequest (s : State) : Out := .next (s.writeMailbox 0xFF8 (toBytes 1 8))

/-- What a report made now holds (R382). -/
def State.reportNow (s : State) : Report :=
  { fuses := s.fuses, version := s.fwVersion, digest := s.fwDigest, nonce := bytesAt s.secbox 0 64
    parts := upTo 16 fun p => sha512 (toBytes (s.part p).cfg.toNat 8) }

/-- A report's fields as bytes, least significant byte first. -/
def Report.bytes (r : Report) : List Byte :=
  toBytes r.fuses.serial.toNat 8 ++ toBytes r.version 8 ++ r.digest ++ toBytes r.fuses.rollback 8 ++ r.nonce ++ r.parts.flatten

/-- ATTEST_REPORT_COMPLETE: the report, signed with the identity key over SHA-512 (R7), stands from offset 0x100 on. Its form, and
the one-time number of the signature, are free values (log 36). -/
def execAttestReportComplete (s : State) : Out :=
  .next (if s.attesting then
    let (l, s) := s.freeBytes 66
    let r := s.reportNow
    let body := Config.reportBody r.bytes
    let signed := Config.signedReport body (ecdsaSign Config.identityKey (sha512 body) (ofBytes l))
    { s with
      secbox := (s.secbox.setList 0 0x100 (signed.take 0xEF8)).setList 0 0xFF8 (toBytes 2 8), attesting := false, report := some r }
  else s)

end Sys2Proof.Machine
end

