-- ==== Sys2Proof/Machine/Sequencer.lean ====
section
/-! DEFINITION. The modulo sequencer (R260). Every result is that of issuing the body's instructions in sequential
order, iteration after iteration; that is how they are issued here, one a turn. -/

namespace Sys2Proof.Machine

/-- The dependence bits and the description of an X instruction that a body may hold: majors 0x40 to 0x6F other than
VPOPC (R260). -/
def bodyInstr (s : State) : Instr → Option (BitVec 4 × XSem)
  | .vadd p sat vd va vb ex mk ty => some (p, semVadd sat vd va vb ex mk ty)
  | .vsub p sat vd va vb ex mk ty => some (p, semVsub sat vd va vb ex mk ty)
  | .vmul p sat vd va vb ex mk ty => some (p, semVmul sat vd va vb ex mk ty)
  | .vfma p sat vd va vb vc ex mk ty => some (p, semVfma sat vd va vb vc ex mk ty)
  | .vfms p sat vd va vb vc ex mk ty => some (p, semVfms sat vd va vb vc ex mk ty)
  | .vmin p vd va vb ex mk ty => some (p, semVmin vd va vb ex mk ty)
  | .vmax p vd va vb ex mk ty => some (p, semVmax vd va vb ex mk ty)
  | .vabs p sat vd va ex mk ty => some (p, semVabs sat vd va ex mk ty)
  | .vneg p sat vd va ex mk ty => some (p, semVneg sat vd va ex mk ty)
  | .vand p vd va vb ex mk ty => some (p, semVand vd va vb ex mk ty)
  | .vor p vd va vb ex mk ty => some (p, semVor vd va vb ex mk ty)
  | .vxor p vd va vb ex mk ty => some (p, semVxor vd va vb ex mk ty)
  | .vnot p vd va ex mk ty => some (p, semVnot vd va ex mk ty)
  | .vshl p im n vd va vb ex mk ty => some (p, semVshl im n vd va vb ex mk ty)
  | .vshr p im n vd va vb ex mk ty => some (p, semVshr im n vd va vb ex mk ty)
  | .vsra p im n vd va vb ex mk ty => some (p, semVsra im n vd va vb ex mk ty)
  | .vcmp p cc vd va vb ex mk ty => some (p, semVcmp cc vd va vb ex mk ty)
  | .vsel p vd va vb vc ex mk ty => some (p, semVsel vd va vb vc ex mk ty)
  | .vmov p vd va ex mk ty => some (p, semVmov vd va ex mk ty)
  | .vmovTerm p vd ex => some (p, semVmovTerm vd ex)
  | .vbcast p gs lf j vd va ex mk ty => some (p, semVbcast gs lf j vd va ex mk ty)
  | .viota p gs imm14 vd ex mk ty => some (p, semViota gs imm14 vd ex mk ty)
  | .vcvt p st vd va ex mk ty => some (p, semVcvt st vd va ex mk ty)
  | .vperm p vd va vb ex mk ty => some (p, semVperm vd va vb ex mk ty)
  | .vnib p vd va ex mk ty => some (p, semVnib vd va ex mk ty)
  | .vzip p vd va vb ex mk ty => some (p, semVzip vd va vb ex mk ty)
  | .vunzip p vd va ex mk ty => some (p, semVunzip vd va ex mk ty)
  | .vslide p gs vd va vb ex mk ty => some (p, semVslide gs vd va vb ex mk ty)
  | .vgath p x32 n1 vd va vb ex mk ty => some (p, semVgath x32 n1 vd va vb ex mk ty)
  | .vscat p x32 n1 vd va vb ex mk ty => some (p, semVscat x32 n1 vd va vb ex mk ty)
  | .vbmp p orr n1 vd va ex mk ty => some (p, semVbmp orr n1 vd va ex mk ty)
  | .vexp2 p vd va ex mk ty => some (p, semVexp2 vd va ex mk ty)
  | .vlog2 p vd va ex mk ty => some (p, semVlog2 vd va ex mk ty)
  | .vrcpa p vd va ex mk ty => some (p, semVrcpa vd va ex mk ty)
  | .vrsqa p vd va ex mk ty => some (p, semVrsqa vd va ex mk ty)
  | .vrsum p gs va ex mk ty => some (p, semVrsum gs va ex mk ty)
  | .vrmax p gs va ex mk ty => some (p, semVrmax gs va ex mk ty)
  | .vrmin p gs va ex mk ty => some (p, semVrmin gs va ex mk ty)
  | .vdraw p idx slot vd va vb vc ex mk ty => some (p, semVdraw idx slot vd va vb vc ex mk ty)
  | .vdmerge p tree vd va vb vc => some (p, semVdmerge tree vd va vb vc)
  | .selinit p gs mass dir k1 ty => some (p, semSelinit gs mass dir k1 ty)
  | .selfeed p gs va ex mk ty => some (p, semSelfeed gs va ex mk ty)
  | .seldrain p th vd vc => some (p, semSeldrain s th vd vc)
  | .selmrg p n1 va ty => some (p, semSelmrg n1 va ty)
  | .vdotq p dim vd va vb ex mk ty => some (p, semVdotq dim vd va vb ex mk ty)
  | .vl2q p dim vd va vb ex mk ty => some (p, semVl2q dim vd va vb ex mk ty)
  | _ => none

/-- A word of a body: its place and length, the instruction when it is X's, and the cause of Table 3-19 when that one is
illegal. -/
structure BodyWord where
  pc : Nat
  len : Nat
  ins : Option Instr
  bad : Option Nat := none
  deriving DecidableEq, Repr

/-- What the walk of a body finds at a word of X (R86, R260). -/
inductive Found where
  | illegal (cause : Nat)
  | disallowed
  | good (i : Instr)
  deriving DecidableEq, Repr

/-- The check of a word of X in a body: its encoding, then whether a body may hold it. -/
def findBody (s : State) (pc n : Nat) : Found :=
  match decode (s.cc.imem.get 0 pc) (s.cc.imem.get 0 (pc + 1)) with
  | .error r => .illegal r.cause
  | .ok i =>
    match encodingCauseAt i s.cc pc with
    | some c => .illegal c
    | none => if (bodyInstr s i).isNone || decide (64 ≤ n) then .disallowed else .good i

/-- The body's words from `pc` up to LE, in order, as far as the first illegal one; a disallowed X word, or more than 64 of
them, is a trap of the MLOOP (R260). -/
def scanBody (s : State) (le : Nat) : Nat → Nat → Nat → Except Stop (List BodyWord)
  | 0, _, _ => .ok []
  | f + 1, pc, n =>
    if le ≤ pc then .ok []
    else
      let w0 := s.cc.imem.get 0 pc
      let t := engOf (w0.extractLsb' 30 2)
      let len := wordLength t (bits w0 25 19)
      if t ≠ .X then (scanBody s le f (pc + len) n).map fun l => ⟨pc, len, none, none⟩ :: l
      else match findBody s pc n with
        | .illegal c => .ok [⟨pc, len, none, some c⟩]
        | .disallowed => .error (.trap 7 5 0)
        | .good i => (scanBody s le f (pc + len) (n + 1)).map fun l => ⟨pc, len, some i, none⟩ :: l

/-- The program counter of the MLOOP that X is at or inside. -/
def State.mloopPc (s : State) : Nat := (s.ctx.x.prog.bind (·.home)).getD s.ctx.x.pc

/-- The body of the MLOOP. -/
def State.body (s : State) (endo : Nat) : Except Stop (List BodyWord) :=
  scanBody s (s.mloopPc + endo) endo (s.mloopPc + 2) 0

/-- X's program counter moved inside the sequencer. -/
def State.xAt (s : State) (pc : Nat) : State := s.modCtx fun c => c.modEng .X fun g => { g with pc }

/-- A stop of X inside the sequencer at a word of the body: a trap falls between two issued instructions, leaves X's program
counter at that word (R242) and the sequencer where it is; a wait leaves everything. -/
def inSequence (pr : Prog) (at' : Nat) (a : Act Prog) : Act Next := fun s =>
  let home := s.mloopPc
  let held := s.xAt at'
  match a s with
  | .ok (q, t) => .ok (.more q, (t.xAt home).modCtx fun c => c.modEng .X fun g => { g with passed := t.now })
  | .error (.trap c n v, _) => .ok (.more pr, held.takeTrap s.cur .X c n v)
  | .error (.terminal l, _) => .ok (.more pr, held.takeTrapWith s.cur .X 10 1 0 fun t => { t with reads := l })
  | .error x => .error x

/-- One instruction of the body issued and retired (R92, R93, R242). -/
def issueBody (p : BitVec 4) (x : XSem) : Act Unit := do
  x.check
  let s ← get
  let n := x.needs s
  match gateWaits s.ctx .X p n with
  | some w => stop (.wait w)
  | none =>
    if terminalUse s.ctx n then stop (.terminal n.reads)
    set (s.take .X p n)
    x.run
    modify fun s => s.modCtx fun c => (c.unreserve (n.allPushes .X p)).pushTokens (n.allPushes .X p)

/-- One word of the body passed by the walk (R71, R74, R75); an illegal one traps there (R86). -/
def walkWord (w : BodyWord) : Act Unit := do
  let s ← get
  match w.bad with
  | some c => trap 1 c (zext (s.cc.imem.get 0 w.pc))
  | none => do
    waitIf (!s.ctx.slipOk .X w.len) .slip
    let s := s.modCtx fun c => c.pass .X w.len s.now
    set (if w.ins.isNone then s.countOn s.cur 3 (some .X) 1 else s)

/-- MLOOP (R260). Stage 1 walks the body's words, `count` of them so far; stage 2 issues its instructions, `count` of them
so far, `data` holding the trip count. -/
def execMloop (p : BitVec 4) (gs : BitVec 5) (ii : BitVec 6) (endo : BitVec 12) (s : State) : Out :=
  issue (.mloop p gs ii endo) .X p (fun _ => {})
    (do match (← get).body endo.toNat with
        | .error x => stop x
        | .ok _ => pure ())
    (fun pr => do
      let s ← get
      match s.body endo.toNat with
      | .error x => stop x
      | .ok l =>
        let ins := l.filter (·.ins.isSome)
        let trip := if pr.stage = 0 then bits (s.reg .X gs) 31 0 else pr.data.headD 0
        let finish : Act Next := pure (.loops (s.ctx.seenLoops .X) (s.mloopPc + endo.toNat))
        if pr.stage = 0 then return .more { pr with stage := 1, data := [trip], soft := true, home := some s.ctx.x.pc }
        else if pr.stage = 1 then
          match l[pr.count]? with
          | some w => inSequence pr w.pc do
            walkWord w
            return { pr with count := pr.count + 1 }
          | none => return .more { pr with stage := 2, count := 0 }
        else if trip * ins.length ≤ pr.count then finish
        else match ins[pr.count % ins.length]? with
          | none => finish
          | some w => match w.ins.bind (bodyInstr s) with
            | none => finish
            | some (q, x) => inSequence pr w.pc do
              issueBody q x
              return { pr with count := pr.count + 1 }) s

end Sys2Proof.Machine
end

