-- ==== Sys2Proof/Machine/Shared.lean ====
section
/-! DEFINITION. The shared control subset, majors 0x00 to 0x3F: the same meaning on every engine (R99 to R115). -/

namespace Sys2Proof.Machine

/-- NOP: only its dependence bits act (R100). -/
def execNop (t : Eng) (p : BitVec 4) (s : State) : Out := issueSimple (.nop t p) t p (pure .seq) s

/-- DONE: the engine's walk ends; the last DONE runs the residue check (R98, R100). -/
def execDone (t : Eng) (p : BitVec 4) (s : State) : Out := issueSimple (.done t p) t p (pure .done) s

/-! ### Control transfer -/

/-- The target of a transfer, an offset from the instruction's first word (R102). -/
def State.target {w : Nat} (s : State) (t : Eng) (off : BitVec w) : Nat := ((s.ctx.eng t).pc + off.toInt).toNat

/-- B (R103, R107). -/
def execB (t : Eng) (p : BitVec 4) (off19 : BitVec 19) (s : State) : Out :=
  issueSimple (.b t p off19) t p (do return .branch ((← get).target t off19)) s

/-- CALL: overflow is checked before any wait; an entry holds a 14-bit word offset (R103). -/
def execCall (t : Eng) (p : BitVec 4) (off19 : BitVec 19) (s : State) : Out :=
  issue (.call t p off19) t p (fun _ => {})
    (do trapIf (decide (16 ≤ ((← get).ctx.eng t).ras.length)) 3 1)
    (fun _ => do
      let s ← get
      set (s.modCtx fun c => c.modEng t fun g => { g with ras := g.ras ++ [(g.pc + 1) % 2 ^ 14] })
      return .jump (s.target t off19)) s

/-- RET: underflow is checked before any wait, the popped target when RET issues (R102, R103). -/
def execRet (t : Eng) (p : BitVec 4) (s : State) : Out :=
  issue (.ret t p) t p (fun _ => {})
    (do trapIf ((← get).ctx.eng t).ras.isEmpty 3 2)
    (fun _ => do
      let s ← get
      let top := ((s.ctx.eng t).ras.getLast?).getD 0
      trapIf (!s.cc.firstWord top) 1 5 (s.cc.wordAt (s.ctx.eng t).pc s.work.len)
      set (s.modCtx fun c => c.modEng t fun g => { g with ras := g.ras.dropLast })
      return .jump top) s

/-- BTK: a terminal head is removed and the branch taken; a data head stays (R105). -/
def execBtk (t : Eng) (p : BitVec 4) (q : BitVec 5) (imm14 : BitVec 14) (s : State) : Out :=
  issue (.btk t p q imm14) t p (fun _ => { tests := [(q.toNat, 1)] }) (pure ())
    (fun _ => do
      let s ← get
      if ((s.ctx.queue q.toNat).head?.map (·.term)).getD false then
        set (s.popQueue q.toNat 1)
        return .branch (s.target t imm14)
      else return .seq) s

/-- BRKL: the innermost loop is popped and the engine continues at its end word (R108). -/
def execBrkl (t : Eng) (p : BitVec 4) (s : State) : Out :=
  issue (.brkl t p) t p (fun _ => {})
    (do trapIf ((← get).ctx.seenLoops t).isEmpty 4 2)
    (fun _ => do
      match (← get).ctx.seenLoops t with
      | [] => return .seq
      | l :: r => return .loops r l.last) s

/-- A compare-branch (R104). -/
def compareBranch (i : Instr) (t : Eng) (p : BitVec 4) (gx gy : BitVec 5) (imm9 : BitVec 9) (cond : Word → Word → Bool)
    (s : State) : Out :=
  issueSimple i t p (do
    let s ← get
    return if cond (s.reg t gx) (s.reg t gy) then .branch (s.target t imm9) else .seq) s

/-- BEQ (Table 4-6). -/
def execBeq (t : Eng) (p : BitVec 4) (gx gy : BitVec 5) (imm9 : BitVec 9) (s : State) : Out :=
  compareBranch (.beq t p gx gy imm9) t p gx gy imm9 (fun x y => x == y) s

/-- BNE (Table 4-6). -/
def execBne (t : Eng) (p : BitVec 4) (gx gy : BitVec 5) (imm9 : BitVec 9) (s : State) : Out :=
  compareBranch (.bne t p gx gy imm9) t p gx gy imm9 (fun x y => x != y) s

/-- BLT, signed (Table 4-6). -/
def execBlt (t : Eng) (p : BitVec 4) (gx gy : BitVec 5) (imm9 : BitVec 9) (s : State) : Out :=
  compareBranch (.blt t p gx gy imm9) t p gx gy imm9 (fun x y => x.slt y) s

/-- BGE, signed (Table 4-6). -/
def execBge (t : Eng) (p : BitVec 4) (gx gy : BitVec 5) (imm9 : BitVec 9) (s : State) : Out :=
  compareBranch (.bge t p gx gy imm9) t p gx gy imm9 (fun x y => !x.slt y) s

/-- BLO, natural (Table 4-6). -/
def execBlo (t : Eng) (p : BitVec 4) (gx gy : BitVec 5) (imm9 : BitVec 9) (s : State) : Out :=
  compareBranch (.blo t p gx gy imm9) t p gx gy imm9 (fun x y => x.ult y) s

/-- BHS, natural (Table 4-6). -/
def execBhs (t : Eng) (p : BitVec 4) (gx gy : BitVec 5) (imm9 : BitVec 9) (s : State) : Out :=
  compareBranch (.bhs t p gx gy imm9) t p gx gy imm9 (fun x y => !x.ult y) s

/-! ### Hardware loops -/

/-- A loop with trip count `trip` of the engine's registers (R106, R108): overflow before any wait when the count is not
0, LE a first word when it executes. -/
def hardwareLoop (i : Instr) (t : Eng) (p : BitVec 4) (imm9 : BitVec 9) (trip : State → Nat) (s : State) : Out :=
  issue i t p (fun _ => {})
    (do let s ← get
        trapIf (decide (4 ≤ (s.ctx.eng t).loops.length) && trip s ≠ 0) 4 1)
    (fun _ => do
      let s ← get
      let pc := (s.ctx.eng t).pc
      let le := s.target t imm9
      trapIf (!s.cc.firstWord le) 1 5 (s.cc.wordAt pc s.work.len)
      let l := s.ctx.seenLoops t
      return if trip s = 0 then .loops l le else .loops (⟨pc + 1, le, trip s⟩ :: l) (pc + 1)) s

/-- LOOP: the trip count is ga[31:0] (R106). -/
def execLoop (t : Eng) (p : BitVec 4) (ga : BitVec 5) (imm9 : BitVec 9) (s : State) : Out :=
  hardwareLoop (.loop t p ga imm9) t p imm9 (fun s => bits (s.reg t ga) 31 0) s

/-- LOOPI: the trip count stands in the word (R106). -/
def execLoopi (t : Eng) (p : BitVec 4) (n : BitVec 10) (imm9 : BitVec 9) (s : State) : Out :=
  hardwareLoop (.loopi t p n imm9) t p imm9 (fun _ => n.toNat) s

/-! ### Integer arithmetic -/

/-- An instruction that writes gd with a value computed from the engine's state (R109). -/
def writesReg (i : Instr) (t : Eng) (p : BitVec 4) (gd : BitVec 5) (f : State → Word) (s : State) : Out :=
  issueSimple i t p (do
    let s ← get
    set (s.setReg t gd (f s))
    return .seq) s

/-- ADD (Table 4-7). -/
def execAdd (t : Eng) (p : BitVec 4) (gd ga gb : BitVec 5) (s : State) : Out :=
  writesReg (.add t p gd ga gb) t p gd (fun s => s.reg t ga + s.reg t gb) s

/-- SUB (Table 4-7). -/
def execSub (t : Eng) (p : BitVec 4) (gd ga gb : BitVec 5) (s : State) : Out :=
  writesReg (.sub t p gd ga gb) t p gd (fun s => s.reg t ga - s.reg t gb) s

/-- MUL: the low 64 bits of the product (Table 4-7). -/
def execMul (t : Eng) (p : BitVec 4) (gd ga gb : BitVec 5) (s : State) : Out :=
  writesReg (.mul t p gd ga gb) t p gd (fun s => s.reg t ga * s.reg t gb) s

/-- The high 64 bits of the signed 128-bit product. -/
def mulHigh (x y : Word) : Word := BitVec.ofInt 64 (x.toInt * y.toInt / 2 ^ 64)

/-- MULH (Table 4-7). -/
def execMulh (t : Eng) (p : BitVec 4) (gd ga gb : BitVec 5) (s : State) : Out :=
  writesReg (.mulh t p gd ga gb) t p gd (fun s => mulHigh (s.reg t ga) (s.reg t gb)) s

/-- AND (Table 4-7). -/
def execAnd (t : Eng) (p : BitVec 4) (gd ga gb : BitVec 5) (s : State) : Out :=
  writesReg (.andg t p gd ga gb) t p gd (fun s => s.reg t ga &&& s.reg t gb) s

/-- OR (Table 4-7). -/
def execOr (t : Eng) (p : BitVec 4) (gd ga gb : BitVec 5) (s : State) : Out :=
  writesReg (.org t p gd ga gb) t p gd (fun s => s.reg t ga ||| s.reg t gb) s

/-- XOR (Table 4-7). -/
def execXor (t : Eng) (p : BitVec 4) (gd ga gb : BitVec 5) (s : State) : Out :=
  writesReg (.xorg t p gd ga gb) t p gd (fun s => s.reg t ga ^^^ s.reg t gb) s

/-- SHL by gb[5:0] (Table 4-7). -/
def execShl (t : Eng) (p : BitVec 4) (gd ga gb : BitVec 5) (s : State) : Out :=
  writesReg (.shl t p gd ga gb) t p gd (fun s => s.reg t ga <<< bits (s.reg t gb) 5 0) s

/-- SHR by gb[5:0], zero fill (Table 4-7). -/
def execShr (t : Eng) (p : BitVec 4) (gd ga gb : BitVec 5) (s : State) : Out :=
  writesReg (.shr t p gd ga gb) t p gd (fun s => s.reg t ga >>> bits (s.reg t gb) 5 0) s

/-- SRA by gb[5:0], sign fill (Table 4-7). -/
def execSra (t : Eng) (p : BitVec 4) (gd ga gb : BitVec 5) (s : State) : Out :=
  writesReg (.sra t p gd ga gb) t p gd (fun s => (s.reg t ga).sshiftRight (bits (s.reg t gb) 5 0)) s

/-- A condition as a register value. -/
def flagWord (b : Bool) : Word := if b then 1 else 0

/-- SLT, signed (Table 4-7). -/
def execSlt (t : Eng) (p : BitVec 4) (gd ga gb : BitVec 5) (s : State) : Out :=
  writesReg (.slt t p gd ga gb) t p gd (fun s => flagWord ((s.reg t ga).slt (s.reg t gb))) s

/-- SLTN, natural (Table 4-7). -/
def execSltn (t : Eng) (p : BitVec 4) (gd ga gb : BitVec 5) (s : State) : Out :=
  writesReg (.sltn t p gd ga gb) t p gd (fun s => flagWord ((s.reg t ga).ult (s.reg t gb))) s

/-- MIN, signed (Table 4-7). -/
def execMin (t : Eng) (p : BitVec 4) (gd ga gb : BitVec 5) (s : State) : Out :=
  writesReg (.min t p gd ga gb) t p gd (fun s => if (s.reg t gb).slt (s.reg t ga) then s.reg t gb else s.reg t ga) s

/-- MAX, signed (Table 4-7). -/
def execMax (t : Eng) (p : BitVec 4) (gd ga gb : BitVec 5) (s : State) : Out :=
  writesReg (.max t p gd ga gb) t p gd (fun s => if (s.reg t ga).slt (s.reg t gb) then s.reg t gb else s.reg t ga) s

/-- MOV (Table 4-7). -/
def execMov (t : Eng) (p : BitVec 4) (gd ga : BitVec 5) (s : State) : Out :=
  writesReg (.mov t p gd ga) t p gd (fun s => s.reg t ga) s

/-- ADDI: the immediate is sign-extended (R110). -/
def execAddi (t : Eng) (p : BitVec 4) (gd ga : BitVec 5) (imm9 : BitVec 9) (s : State) : Out :=
  writesReg (.addi t p gd ga imm9) t p gd (fun s => s.reg t ga + sext imm9) s

/-- ANDI (R110). -/
def execAndi (t : Eng) (p : BitVec 4) (gd ga : BitVec 5) (imm9 : BitVec 9) (s : State) : Out :=
  writesReg (.andi t p gd ga imm9) t p gd (fun s => s.reg t ga &&& sext imm9) s

/-- ORI (R110). -/
def execOri (t : Eng) (p : BitVec 4) (gd ga : BitVec 5) (imm9 : BitVec 9) (s : State) : Out :=
  writesReg (.ori t p gd ga imm9) t p gd (fun s => s.reg t ga ||| sext imm9) s

/-- XORI (R110). -/
def execXori (t : Eng) (p : BitVec 4) (gd ga : BitVec 5) (imm9 : BitVec 9) (s : State) : Out :=
  writesReg (.xori t p gd ga imm9) t p gd (fun s => s.reg t ga ^^^ sext imm9) s

/-- SHLI (R110). -/
def execShli (t : Eng) (p : BitVec 4) (gd ga : BitVec 5) (sh : BitVec 6) (s : State) : Out :=
  writesReg (.shli t p gd ga sh) t p gd (fun s => s.reg t ga <<< sh.toNat) s

/-- SHRI (R110). -/
def execShri (t : Eng) (p : BitVec 4) (gd ga : BitVec 5) (sh : BitVec 6) (s : State) : Out :=
  writesReg (.shri t p gd ga sh) t p gd (fun s => s.reg t ga >>> sh.toNat) s

/-- SRAI (R110). -/
def execSrai (t : Eng) (p : BitVec 4) (gd ga : BitVec 5) (sh : BitVec 6) (s : State) : Out :=
  writesReg (.srai t p gd ga sh) t p gd (fun s => (s.reg t ga).sshiftRight sh.toNat) s

/-- LI: a 46-bit signed immediate (R111). -/
def execLi (t : Eng) (p : BitVec 4) (gd : BitVec 5) (immh : BitVec 14) (imml : BitVec 32) (s : State) : Out :=
  writesReg (.li t p gd immh imml) t p gd (fun _ => sext (immh ++ imml)) s

/-! ### Spill memory and the return store -/

/-- SPL: a doubleword of the engine's spill window (R112). -/
def execSpl (t : Eng) (p : BitVec 4) (gd : BitVec 5) (imm14 : BitVec 14) (s : State) : Out :=
  writesReg (.spl t p gd imm14) t p gd (fun s => (s.ctx.eng t).spill.get 0 imm14.toNat) s

/-- SPS (R112). -/
def execSps (t : Eng) (p : BitVec 4) (gd : BitVec 5) (imm14 : BitVec 14) (s : State) : Out :=
  issueSimple (.sps t p gd imm14) t p (do
    modify fun s => s.modCtx fun c => c.modEng t fun g => { g with spill := g.spill.set 0 imm14.toNat (g.reg gd) }
    return .seq) s

/-- SVRA: the oldest n return-store entries move to spill memory (R113). -/
def execSvra (t : Eng) (p : BitVec 4) (n : BitVec 5) (imm14 : BitVec 14) (s : State) : Out :=
  issue (.svra t p n imm14) t p (fun _ => {})
    (do trapIf (decide (((← get).ctx.eng t).ras.length < n.toNat)) 3 2)
    (fun _ => do
      modify fun s => s.modCtx fun c => c.modEng t fun g =>
        { g with spill := g.spill.setList 0 imm14.toNat ((g.ras.take n.toNat).map fun a => BitVec.ofNat 64 (a % 2 ^ 14)), ras := g.ras.drop n.toNat }
      return .seq) s

/-- LDRA: n entries come back below those that are there (R113). -/
def execLdra (t : Eng) (p : BitVec 4) (n : BitVec 5) (imm14 : BitVec 14) (s : State) : Out :=
  issue (.ldra t p n imm14) t p (fun _ => {})
    (do trapIf (decide (16 < ((← get).ctx.eng t).ras.length + n.toNat)) 3 1)
    (fun _ => do
      modify fun s => s.modCtx fun c => c.modEng t fun g =>
        { g with ras := (upTo n.toNat fun i => bits (g.spill.get 0 (imm14.toNat + i)) 13 0) ++ g.ras }
      return .seq) s

/-! ### Explicit tokens and discarding -/

/-- WAITT: n tokens of a FIFO are popped before issue (R114). -/
def execWaitt (t : Eng) (p : BitVec 4) (f : BitVec 5) (n : BitVec 6) (s : State) : Out :=
  issue (.waitt t p f n) t p (fun _ => { pops := [(f.toNat, n.toNat)] }) (pure ()) (fun _ => pure .seq) s

/-- SIGT: n tokens are pushed at retirement (R114). -/
def execSigt (t : Eng) (p : BitVec 4) (f : BitVec 5) (n : BitVec 6) (s : State) : Out :=
  issue (.sigt t p f n) t p (fun _ => { pushes := [(f.toNat, n.toNat)] }) (pure ()) (fun _ => pure .seq) s

/-- The entries that a QDROP can remove now: from the run of filled slots, at most `budget`; with `left` none, through
the first terminal entry. The result is how many go and whether the QDROP is over (R115). -/
def dropRun : List Slot → Option Nat → Nat → Nat × Bool
  | [], left, _ => (0, left = some 0)
  | x :: r, left, budget =>
    if left = some 0 then (0, true)
    else match budget with
      | 0 => (0, false)
      | b + 1 =>
        if left.isNone && x.term then (1, true)
        else let (n, fin) := dropRun r (left.map (· - 1)) b
             (n + 1, fin)

/-- QDROP: entries are discarded from the head of a queue, a count of them or through the first terminal entry; it waits
for each, and can be interrupted at each removal, the count left being its progress (R115). -/
def execQdrop (t : Eng) (p : BitVec 4) (q : BitVec 5) (imm14 : BitVec 14) (s : State) : Out :=
  issue (.qdrop t p q imm14) t p (fun _ => {}) (pure ())
    (fun pr => do
      let s ← get
      let left : Option Nat := if imm14 = 0 then none else some (if pr.stage = 0 then imm14.toNat else pr.count)
      let run := s.ctx.filledRun q.toNat
      let (n, fin) := dropRun run left ((s.budget).getD run.length)
      waitIf (n = 0 && !fin && pr.stage ≠ 0) .queue
      set (s.popQueue q.toNat n)
      return if fin then .seq else .more { stage := 1, count := (left.getD 0) - n, soft := true }) s

end Sys2Proof.Machine
end

