-- ==== Sys2Proof/Machine/Dispatch.lean ====
section
/-! DEFINITION. The meaning of every instruction and event: one arm for each constructor of Instr. -/

namespace Sys2Proof.Machine

/-- What an instruction or an event does to the machine. -/
def exec (i : Instr) (s : State) : Host.Outcome State Fault Refusal :=
  match i with
  | .nop t p => Sys2Proof.Machine.execNop t p s
  | .done t p => Sys2Proof.Machine.execDone t p s
  | .b t p off19 => Sys2Proof.Machine.execB t p off19 s
  | .call t p off19 => Sys2Proof.Machine.execCall t p off19 s
  | .ret t p => Sys2Proof.Machine.execRet t p s
  | .btk t p q imm14 => Sys2Proof.Machine.execBtk t p q imm14 s
  | .brkl t p => Sys2Proof.Machine.execBrkl t p s
  | .beq t p gx gy imm9 => Sys2Proof.Machine.execBeq t p gx gy imm9 s
  | .bne t p gx gy imm9 => Sys2Proof.Machine.execBne t p gx gy imm9 s
  | .blt t p gx gy imm9 => Sys2Proof.Machine.execBlt t p gx gy imm9 s
  | .bge t p gx gy imm9 => Sys2Proof.Machine.execBge t p gx gy imm9 s
  | .blo t p gx gy imm9 => Sys2Proof.Machine.execBlo t p gx gy imm9 s
  | .bhs t p gx gy imm9 => Sys2Proof.Machine.execBhs t p gx gy imm9 s
  | .loop t p ga imm9 => Sys2Proof.Machine.execLoop t p ga imm9 s
  | .loopi t p n imm9 => Sys2Proof.Machine.execLoopi t p n imm9 s
  | .add t p gd ga gb => Sys2Proof.Machine.execAdd t p gd ga gb s
  | .sub t p gd ga gb => Sys2Proof.Machine.execSub t p gd ga gb s
  | .mul t p gd ga gb => Sys2Proof.Machine.execMul t p gd ga gb s
  | .mulh t p gd ga gb => Sys2Proof.Machine.execMulh t p gd ga gb s
  | .andg t p gd ga gb => Sys2Proof.Machine.execAnd t p gd ga gb s
  | .org t p gd ga gb => Sys2Proof.Machine.execOr t p gd ga gb s
  | .xorg t p gd ga gb => Sys2Proof.Machine.execXor t p gd ga gb s
  | .shl t p gd ga gb => Sys2Proof.Machine.execShl t p gd ga gb s
  | .shr t p gd ga gb => Sys2Proof.Machine.execShr t p gd ga gb s
  | .sra t p gd ga gb => Sys2Proof.Machine.execSra t p gd ga gb s
  | .slt t p gd ga gb => Sys2Proof.Machine.execSlt t p gd ga gb s
  | .sltn t p gd ga gb => Sys2Proof.Machine.execSltn t p gd ga gb s
  | .min t p gd ga gb => Sys2Proof.Machine.execMin t p gd ga gb s
  | .max t p gd ga gb => Sys2Proof.Machine.execMax t p gd ga gb s
  | .mov t p gd ga => Sys2Proof.Machine.execMov t p gd ga s
  | .addi t p gd ga imm9 => Sys2Proof.Machine.execAddi t p gd ga imm9 s
  | .andi t p gd ga imm9 => Sys2Proof.Machine.execAndi t p gd ga imm9 s
  | .ori t p gd ga imm9 => Sys2Proof.Machine.execOri t p gd ga imm9 s
  | .xori t p gd ga imm9 => Sys2Proof.Machine.execXori t p gd ga imm9 s
  | .shli t p gd ga sh => Sys2Proof.Machine.execShli t p gd ga sh s
  | .shri t p gd ga sh => Sys2Proof.Machine.execShri t p gd ga sh s
  | .srai t p gd ga sh => Sys2Proof.Machine.execSrai t p gd ga sh s
  | .spl t p gd imm14 => Sys2Proof.Machine.execSpl t p gd imm14 s
  | .sps t p gd imm14 => Sys2Proof.Machine.execSps t p gd imm14 s
  | .svra t p n imm14 => Sys2Proof.Machine.execSvra t p n imm14 s
  | .ldra t p n imm14 => Sys2Proof.Machine.execLdra t p n imm14 s
  | .waitt t p f n => Sys2Proof.Machine.execWaitt t p f n s
  | .sigt t p f n => Sys2Proof.Machine.execSigt t p f n s
  | .qdrop t p q imm14 => Sys2Proof.Machine.execQdrop t p q imm14 s
  | .li t p gd immh imml => Sys2Proof.Machine.execLi t p gd immh imml s
  | .csrr p gd csr => Sys2Proof.Machine.execCsrr p gd csr s
  | .csrw p gd csr => Sys2Proof.Machine.execCsrw p gd csr s
  | .csrs p gd csr => Sys2Proof.Machine.execCsrs p gd csr s
  | .csrc p gd csr => Sys2Proof.Machine.execCsrc p gd csr s
  | .amoaddAcq p gd ga gb w32 => Sys2Proof.Machine.execAmoaddAcq p gd ga gb w32 s
  | .amoaddRel p gd ga gb w32 => Sys2Proof.Machine.execAmoaddRel p gd ga gb w32 s
  | .amoaddAr p gd ga gb w32 => Sys2Proof.Machine.execAmoaddAr p gd ga gb w32 s
  | .amoandAcq p gd ga gb w32 => Sys2Proof.Machine.execAmoandAcq p gd ga gb w32 s
  | .amoandRel p gd ga gb w32 => Sys2Proof.Machine.execAmoandRel p gd ga gb w32 s
  | .amoandAr p gd ga gb w32 => Sys2Proof.Machine.execAmoandAr p gd ga gb w32 s
  | .amoorAcq p gd ga gb w32 => Sys2Proof.Machine.execAmoorAcq p gd ga gb w32 s
  | .amoorRel p gd ga gb w32 => Sys2Proof.Machine.execAmoorRel p gd ga gb w32 s
  | .amoorAr p gd ga gb w32 => Sys2Proof.Machine.execAmoorAr p gd ga gb w32 s
  | .amominAcq p gd ga gb w32 => Sys2Proof.Machine.execAmominAcq p gd ga gb w32 s
  | .amominRel p gd ga gb w32 => Sys2Proof.Machine.execAmominRel p gd ga gb w32 s
  | .amominAr p gd ga gb w32 => Sys2Proof.Machine.execAmominAr p gd ga gb w32 s
  | .amomaxAcq p gd ga gb w32 => Sys2Proof.Machine.execAmomaxAcq p gd ga gb w32 s
  | .amomaxRel p gd ga gb w32 => Sys2Proof.Machine.execAmomaxRel p gd ga gb w32 s
  | .amomaxAr p gd ga gb w32 => Sys2Proof.Machine.execAmomaxAr p gd ga gb w32 s
  | .amoswpAcq p gd ga gb w32 => Sys2Proof.Machine.execAmoswpAcq p gd ga gb w32 s
  | .amoswpRel p gd ga gb w32 => Sys2Proof.Machine.execAmoswpRel p gd ga gb w32 s
  | .amoswpAr p gd ga gb w32 => Sys2Proof.Machine.execAmoswpAr p gd ga gb w32 s
  | .amocasAcq p gd ga gb w32 => Sys2Proof.Machine.execAmocasAcq p gd ga gb w32 s
  | .amocasRel p gd ga gb w32 => Sys2Proof.Machine.execAmocasRel p gd ga gb w32 s
  | .amocasAr p gd ga gb w32 => Sys2Proof.Machine.execAmocasAr p gd ga gb w32 s
  | .fenceAcq p => Sys2Proof.Machine.execFenceAcq p s
  | .fenceRel p => Sys2Proof.Machine.execFenceRel p s
  | .phase p lvl => Sys2Proof.Machine.execPhase p lvl s
  | .trap p code => Sys2Proof.Machine.execTrap p code s
  | .eret p => Sys2Proof.Machine.execEret p s
  | .wfe p => Sys2Proof.Machine.execWfe p s
  | .fadd p gd ga gb => Sys2Proof.Machine.execFadd p gd ga gb s
  | .fsub p gd ga gb => Sys2Proof.Machine.execFsub p gd ga gb s
  | .fmul p gd ga gb => Sys2Proof.Machine.execFmul p gd ga gb s
  | .fmin p gd ga gb => Sys2Proof.Machine.execFmin p gd ga gb s
  | .fmax p gd ga gb => Sys2Proof.Machine.execFmax p gd ga gb s
  | .feq p gd ga gb => Sys2Proof.Machine.execFeq p gd ga gb s
  | .flt p gd ga gb => Sys2Proof.Machine.execFlt p gd ga gb s
  | .fle p gd ga gb => Sys2Proof.Machine.execFle p gd ga gb s
  | .fcvt p gd ga t2 t1 => Sys2Proof.Machine.execFcvt p gd ga t2 t1 s
  | .wqpush p gd ga gb => Sys2Proof.Machine.execWqpush p gd ga gb s
  | .spawn p gd gb => Sys2Proof.Machine.execSpawn p gd gb s
  | .resolve p gd ga v => Sys2Proof.Machine.execResolve p gd ga v s
  | .cvnew p gd => Sys2Proof.Machine.execCvnew p gd s
  | .cvfree p ga => Sys2Proof.Machine.execCvfree p ga s
  | .yield p => Sys2Proof.Machine.execYield p s
  | .mbsend p gd ga gb => Sys2Proof.Machine.execMbsend p gd ga gb s
  | .mbrecv p gd ga gb => Sys2Proof.Machine.execMbrecv p gd ga gb s
  | .mbpoll p gd ga gb => Sys2Proof.Machine.execMbpoll p gd ga gb s
  | .nestw p gd ga gb => Sys2Proof.Machine.execNestw p gd ga gb s
  | .ngo p => Sys2Proof.Machine.execNgo p s
  | .nwait p => Sys2Proof.Machine.execNwait p s
  | .fmtq p ga => Sys2Proof.Machine.execFmtq p ga s
  | .tlbir p gd ga gb => Sys2Proof.Machine.execTlbir p gd ga gb s
  | .tlback p => Sys2Proof.Machine.execTlback p s
  | .ld p gd ga sz off => Sys2Proof.Machine.execLd p gd ga sz off s
  | .st p ga gb sz off => Sys2Proof.Machine.execSt p ga gb sz off s
  | .ffma p gd ga gb gc => Sys2Proof.Machine.execFfma p gd ga gb gc s
  | .spawnc p gd ga gb pr side => Sys2Proof.Machine.execSpawnc p gd ga gb pr side s
  | .ldq p rg gd ga q xe xc aty imm18 => Sys2Proof.Machine.execLdq p rg gd ga q xe xc aty imm18 s
  | .ldqTerm p q xe xc => Sys2Proof.Machine.execLdqTerm p q xe xc s
  | .stq p rg gd ga q xc imm18 => Sys2Proof.Machine.execStq p rg gd ga q xc imm18 s
  | .rinit p ga gb q pe n1 => Sys2Proof.Machine.execRinit p ga gb q pe n1 s
  | .radvHead p q imm18 => Sys2Proof.Machine.execRadvHead p q imm18 s
  | .radvTail p q imm18 => Sys2Proof.Machine.execRadvTail p q imm18 s
  | .rwaitHead p q imm18 => Sys2Proof.Machine.execRwaitHead p q imm18 s
  | .rwaitTail p q imm18 => Sys2Proof.Machine.execRwaitTail p q imm18 s
  | .swz p ga q span => Sys2Proof.Machine.execSwz p ga q span s
  | .gld p rg gd ga gb imm18 => Sys2Proof.Machine.execGld p rg gd ga gb imm18 s
  | .gst p rg gd ga gb imm18 => Sys2Proof.Machine.execGst p rg gd ga gb imm18 s
  | .lchain p gd ga lad => Sys2Proof.Machine.execLchain p gd ga lad s
  | .preft p ga gb dies => Sys2Proof.Machine.execPreft p ga gb dies s
  | .shdwDef p gd ga gb imm18 => Sys2Proof.Machine.execShdwDef p gd ga gb imm18 s
  | .shdwArm p gd => Sys2Proof.Machine.execShdwArm p gd s
  | .shdwFree p gd => Sys2Proof.Machine.execShdwFree p gd s
  | .publ p ga => Sys2Proof.Machine.execPubl p ga s
  | .astatEcur p gd => Sys2Proof.Machine.execAstatEcur p gd s
  | .astatScur p gd => Sys2Proof.Machine.execAstatScur p gd s
  | .astatSetec p ga => Sys2Proof.Machine.execAstatSetec p ga s
  | .astatSetsc p ga => Sys2Proof.Machine.execAstatSetsc p ga s
  | .astatRing p gd rk => Sys2Proof.Machine.execAstatRing p gd rk s
  | .astatSwait p gd n sem => Sys2Proof.Machine.execAstatSwait p gd n sem s
  | .astatSsig p gd po n sem => Sys2Proof.Machine.execAstatSsig p gd po n sem s
  | .astatSread p gd sem => Sys2Proof.Machine.execAstatSread p gd sem s
  | .astatSset p ga sem => Sys2Proof.Machine.execAstatSset p ga sem s
  | .astatChain p gd ga => Sys2Proof.Machine.execAstatChain p gd ga s
  | .kvw p gd ga gb imm18 => Sys2Proof.Machine.execKvw p gd ga gb imm18 s
  | .kvrn p gd ga gb => Sys2Proof.Machine.execKvrn p gd ga gb s
  | .kvadv p ga gb => Sys2Proof.Machine.execKvadv p ga gb s
  | .kvrwd p ga gb => Sys2Proof.Machine.execKvrwd p ga gb s
  | .kvfork p ga gb => Sys2Proof.Machine.execKvfork p ga gb s
  | .kvend p ga => Sys2Proof.Machine.execKvend p ga s
  | .kvgath p gd ga gb q vr pp pr => Sys2Proof.Machine.execKvgath p gd ga gb q vr pp pr s
  | .kvstat p gd ga n => Sys2Proof.Machine.execKvstat p gd ga n s
  | .kvstatDrain p gd ga => Sys2Proof.Machine.execKvstatDrain p gd ga s
  | .vadd p sat vd va vb ex mk ty => Sys2Proof.Machine.execVadd p sat vd va vb ex mk ty s
  | .vsub p sat vd va vb ex mk ty => Sys2Proof.Machine.execVsub p sat vd va vb ex mk ty s
  | .vmul p sat vd va vb ex mk ty => Sys2Proof.Machine.execVmul p sat vd va vb ex mk ty s
  | .vfma p sat vd va vb vc ex mk ty => Sys2Proof.Machine.execVfma p sat vd va vb vc ex mk ty s
  | .vfms p sat vd va vb vc ex mk ty => Sys2Proof.Machine.execVfms p sat vd va vb vc ex mk ty s
  | .vmin p vd va vb ex mk ty => Sys2Proof.Machine.execVmin p vd va vb ex mk ty s
  | .vmax p vd va vb ex mk ty => Sys2Proof.Machine.execVmax p vd va vb ex mk ty s
  | .vabs p sat vd va ex mk ty => Sys2Proof.Machine.execVabs p sat vd va ex mk ty s
  | .vneg p sat vd va ex mk ty => Sys2Proof.Machine.execVneg p sat vd va ex mk ty s
  | .vand p vd va vb ex mk ty => Sys2Proof.Machine.execVand p vd va vb ex mk ty s
  | .vor p vd va vb ex mk ty => Sys2Proof.Machine.execVor p vd va vb ex mk ty s
  | .vxor p vd va vb ex mk ty => Sys2Proof.Machine.execVxor p vd va vb ex mk ty s
  | .vnot p vd va ex mk ty => Sys2Proof.Machine.execVnot p vd va ex mk ty s
  | .vshl p im n vd va vb ex mk ty => Sys2Proof.Machine.execVshl p im n vd va vb ex mk ty s
  | .vshr p im n vd va vb ex mk ty => Sys2Proof.Machine.execVshr p im n vd va vb ex mk ty s
  | .vsra p im n vd va vb ex mk ty => Sys2Proof.Machine.execVsra p im n vd va vb ex mk ty s
  | .vcmp p cc vd va vb ex mk ty => Sys2Proof.Machine.execVcmp p cc vd va vb ex mk ty s
  | .vsel p vd va vb vc ex mk ty => Sys2Proof.Machine.execVsel p vd va vb vc ex mk ty s
  | .vmov p vd va ex mk ty => Sys2Proof.Machine.execVmov p vd va ex mk ty s
  | .vmovTerm p vd ex => Sys2Proof.Machine.execVmovTerm p vd ex s
  | .vbcast p gs lf j vd va ex mk ty => Sys2Proof.Machine.execVbcast p gs lf j vd va ex mk ty s
  | .viota p gs imm14 vd ex mk ty => Sys2Proof.Machine.execViota p gs imm14 vd ex mk ty s
  | .vcvt p st vd va ex mk ty => Sys2Proof.Machine.execVcvt p st vd va ex mk ty s
  | .vperm p vd va vb ex mk ty => Sys2Proof.Machine.execVperm p vd va vb ex mk ty s
  | .vnib p vd va ex mk ty => Sys2Proof.Machine.execVnib p vd va ex mk ty s
  | .vzip p vd va vb ex mk ty => Sys2Proof.Machine.execVzip p vd va vb ex mk ty s
  | .vunzip p vd va ex mk ty => Sys2Proof.Machine.execVunzip p vd va ex mk ty s
  | .vslide p gs vd va vb ex mk ty => Sys2Proof.Machine.execVslide p gs vd va vb ex mk ty s
  | .vgath p x32 n1 vd va vb ex mk ty => Sys2Proof.Machine.execVgath p x32 n1 vd va vb ex mk ty s
  | .vscat p x32 n1 vd va vb ex mk ty => Sys2Proof.Machine.execVscat p x32 n1 vd va vb ex mk ty s
  | .vbmp p orr n1 vd va ex mk ty => Sys2Proof.Machine.execVbmp p orr n1 vd va ex mk ty s
  | .vpopc p gs mm va ex mk ty => Sys2Proof.Machine.execVpopc p gs mm va ex mk ty s
  | .vexp2 p vd va ex mk ty => Sys2Proof.Machine.execVexp2 p vd va ex mk ty s
  | .vlog2 p vd va ex mk ty => Sys2Proof.Machine.execVlog2 p vd va ex mk ty s
  | .vrcpa p vd va ex mk ty => Sys2Proof.Machine.execVrcpa p vd va ex mk ty s
  | .vrsqa p vd va ex mk ty => Sys2Proof.Machine.execVrsqa p vd va ex mk ty s
  | .vrsum p gs va ex mk ty => Sys2Proof.Machine.execVrsum p gs va ex mk ty s
  | .vrmax p gs va ex mk ty => Sys2Proof.Machine.execVrmax p gs va ex mk ty s
  | .vrmin p gs va ex mk ty => Sys2Proof.Machine.execVrmin p gs va ex mk ty s
  | .vdraw p idx slot vd va vb vc ex mk ty => Sys2Proof.Machine.execVdraw p idx slot vd va vb vc ex mk ty s
  | .vdmerge p tree vd va vb vc => Sys2Proof.Machine.execVdmerge p tree vd va vb vc s
  | .selinit p gs mass dir k1 ty => Sys2Proof.Machine.execSelinit p gs mass dir k1 ty s
  | .selfeed p gs va ex mk ty => Sys2Proof.Machine.execSelfeed p gs va ex mk ty s
  | .seldrain p th vd vc => Sys2Proof.Machine.execSeldrain p th vd vc s
  | .selmrg p n1 va ty => Sys2Proof.Machine.execSelmrg p n1 va ty s
  | .vdotq p dim vd va vb ex mk ty => Sys2Proof.Machine.execVdotq p dim vd va vb ex mk ty s
  | .vl2q p dim vd va vb ex mk ty => Sys2Proof.Machine.execVl2q p dim vd va vb ex mk ty s
  | .mpush p cc va vb ex ty => Sys2Proof.Machine.execMpush p cc va vb ex ty s
  | .minv p => Sys2Proof.Machine.execMinv p s
  | .mpop p => Sys2Proof.Machine.execMpop p s
  | .bmz p imm14 => Sys2Proof.Machine.execBmz p imm14 s
  | .exts p gs im n ex ty => Sys2Proof.Machine.execExts p gs im n ex ty s
  | .mloop p gs ii endo => Sys2Proof.Machine.execMloop p gs ii endo s
  | .zcnv p gs zt q ty rnd rel sb n1 off => Sys2Proof.Machine.execZcnv p gs zt q ty rnd rel sb n1 off s
  | .zcnvTerm p q => Sys2Proof.Machine.execZcnvTerm p q s
  | .zcomp p fq q ty => Sys2Proof.Machine.execZcomp p fq q ty s
  | .zcompTerm p q => Sys2Proof.Machine.execZcompTerm p q s
  | .zclr p zt => Sys2Proof.Machine.execZclr p zt s
  | .zrd p gs zt q rel n1 off => Sys2Proof.Machine.execZrd p gs zt q rel n1 off s
  | .fprtTile p zt => Sys2Proof.Machine.execFprtTile p zt s
  | .fprtPass p fq q ty => Sys2Proof.Machine.execFprtPass p fq q ty s
  | .fprtEmit p q => Sys2Proof.Machine.execFprtEmit p q s
  | .fsqa p zt q rel => Sys2Proof.Machine.execFsqa p zt q rel s
  | .fscl p fq => Sys2Proof.Machine.execFscl p fq s
  | .fsclRng p fq => Sys2Proof.Machine.execFsclRng p fq s
  | .fmv p fq q len => Sys2Proof.Machine.execFmv p fq q len s
  | .fmvTerm p q => Sys2Proof.Machine.execFmvTerm p q s
  | .fwait p gs zt => Sys2Proof.Machine.execFwait p gs zt s
  | .tileCommand k sumOk => Sys2Proof.Machine.execTileCommand k sumOk s
  | .ringAdvance k => Sys2Proof.Machine.execRingAdvance k s
  | .wqtailWrite q v => Sys2Proof.Machine.execWqtailWrite q v s
  | .wqEnable q v => Sys2Proof.Machine.execWqEnable q v s
  | .wqDisable q v => Sys2Proof.Machine.execWqDisable q v s
  | .partitionEnable p v => Sys2Proof.Machine.execPartitionEnable p v s
  | .partitionDisable p v => Sys2Proof.Machine.execPartitionDisable p v s
  | .tierctlEnable p v => Sys2Proof.Machine.execTierctlEnable p v s
  | .fltack p v => Sys2Proof.Machine.execFltack p v s
  | .invcmdGo p v => Sys2Proof.Machine.execInvcmdGo p v s
  | .preemptRequest p v => Sys2Proof.Machine.execPreemptRequest p v s
  | .preemptSave p => Sys2Proof.Machine.execPreemptSave p s
  | .deschedule p => Sys2Proof.Machine.execDeschedule p s
  | .conductorStart c v => Sys2Proof.Machine.execConductorStart c v s
  | .trpackRetry p v => Sys2Proof.Machine.execTrpackRetry p v s
  | .trpackAbort p v => Sys2Proof.Machine.execTrpackAbort p v s
  | .trpackDiscard p v => Sys2Proof.Machine.execTrpackDiscard p v s
  | .trpackReserved p v => Sys2Proof.Machine.execTrpackReserved p v s
  | .attestRequest => Sys2Proof.Machine.execAttestRequest s
  | .attestReportComplete => Sys2Proof.Machine.execAttestReportComplete s
  | .spanstatRead n => Sys2Proof.Machine.execSpanstatRead n s
  | .registerWrite off v half => Sys2Proof.Machine.execRegisterWrite off v half s
  | .hostRead t => Sys2Proof.Machine.execHostRead t s
  | .hostWrite t v n => Sys2Proof.Machine.execHostWrite t v n s
  | .frontRefill q => Sys2Proof.Machine.execFrontRefill q s
  | .placementGrant k => Sys2Proof.Machine.execPlacementGrant k s
  | .nestEmptyRetire q => Sys2Proof.Machine.execNestEmptyRetire q s
  | .specRecordMove q => Sys2Proof.Machine.execSpecRecordMove q s
  | .poolTake k => Sys2Proof.Machine.execPoolTake k s
  | .headWordWrite q => Sys2Proof.Machine.execHeadWordWrite q s
  | .heldPushEnqueue q => Sys2Proof.Machine.execHeldPushEnqueue q s
  | .workRetire k => Sys2Proof.Machine.execWorkRetire k s
  | .workResume k => Sys2Proof.Machine.execWorkResume k s
  | .phaseBoundary p lvl idx => Sys2Proof.Machine.execPhaseBoundary p lvl idx s
  | .slipBoundLift k => Sys2Proof.Machine.execSlipBoundLift k s
  | .perform k => Sys2Proof.Machine.execPerform k s
  | .deliver j => Sys2Proof.Machine.execDeliver j s
  | .chainStart l => Sys2Proof.Machine.execChainStart l s
  | .copy l => Sys2Proof.Machine.execCopy l s
  | .ladleLoop l => Sys2Proof.Machine.execLadleLoop l s
  | .cond l => Sys2Proof.Machine.execCond l s
  | .semwait l => Sys2Proof.Machine.execSemwait l s
  | .semaphoreTake cl sem => Sys2Proof.Machine.execSemaphoreTake cl sem s
  | .semsig l => Sys2Proof.Machine.execSemsig l s
  | .ladlePubl l => Sys2Proof.Machine.execLadlePubl l s
  | .fprint l => Sys2Proof.Machine.execFprint l s
  | .ladleEnd l => Sys2Proof.Machine.execLadleEnd l s
  | .walk cl part asid va wr => Sys2Proof.Machine.execWalk cl part asid va wr s
  | .migrationRetry j => Sys2Proof.Machine.execMigrationRetry j s
  | .migrationTimeout j => Sys2Proof.Machine.execMigrationTimeout j s
  | .tlbirAck j => Sys2Proof.Machine.execTlbirAck j s
  | .replication d => Sys2Proof.Machine.execReplication d s
  | .faultRecordWrite p => Sys2Proof.Machine.execFaultRecordWrite p s
  | .faultBatchClose p => Sys2Proof.Machine.execFaultBatchClose p s
  | .shakeoutDrain d => Sys2Proof.Machine.execShakeoutDrain d s
  | .trapRecordWrite p => Sys2Proof.Machine.execTrapRecordWrite p s
  | .selfTestComplete u passed => Sys2Proof.Machine.execSelfTestComplete u passed s
  | .fencedWorkTimeout k => Sys2Proof.Machine.execFencedWorkTimeout k s
  | .phaseWatchdog p lvl idx => Sys2Proof.Machine.execPhaseWatchdog p lvl idx s
  | .coreStallWatchdog k => Sys2Proof.Machine.execCoreStallWatchdog k s
  | .patrolScrub line bad => Sys2Proof.Machine.execPatrolScrub line bad s
  | .wfeTimeout k => Sys2Proof.Machine.execWfeTimeout k s
  | .throttleWindow d => Sys2Proof.Machine.execThrottleWindow d s
  | .powerMeasure draw n => Sys2Proof.Machine.execPowerMeasure draw n s
  | .thermalSense d n => Sys2Proof.Machine.execThermalSense d n s
  | .thermalTrip => Sys2Proof.Machine.execThermalTrip s
  | .linkDown l => Sys2Proof.Machine.execLinkDown l s
  | .linkUp l rate width => Sys2Proof.Machine.execLinkUp l rate width s
  | .spanPortDown n => Sys2Proof.Machine.execSpanPortDown n s
  | .peerRouteTimeout rank => Sys2Proof.Machine.execPeerRouteTimeout rank s
  | .deviceReset => Sys2Proof.Machine.execDeviceReset s
  | .bringupStage fw => Sys2Proof.Machine.execBringupStage fw s
  | .peerRequest op a v u => Sys2Proof.Machine.execPeerRequest op a v u s
  | .spanPortUp n rank => Sys2Proof.Machine.execSpanPortUp n rank s
  | .flitRetry n => Sys2Proof.Machine.execFlitRetry n s

end Sys2Proof.Machine
end

