-- ==== Sys2Proof/Machine/Turn.lean ====
section
/-! DEFINITION. One turn of the device: what acts, its place in the fabric cycle, and the time before it (R71, R307). -/

namespace Sys2Proof.Machine

/-- A turn of an engine of the executing core (R71): it runs, skips or traps on what it finds; an NGO whose wait is over retires first,
and nothing but a NESTW acts behind one that waits (R141). -/
def State.engineTurn (s : State) (e : Eng) : Host.Outcome State Fault Refusal :=
  if e = .C && s.ngoDue then .next s.endNgo
  else match s.fetch e with
  | .idle => .next s
  | .illegal c => .next (if e = .C && s.ctx.ar.start.isSome then s.waitNote .C .array else s.illegal e c)
  | .skip n => .next (s.skip e n)
  | .run i => exec i s

/-- What acts at a turn: an engine, an event, or an error. -/
def State.act (s : State) : Deed → Host.Outcome State Fault Refusal
  | .engine k e n => ({ s with cur := k, budget := n } : State).engineTurn e
  | .event i _ => if (encode i).isEmpty then exec i s else .next s
  | .upset u c e => .next (s.upset u c e)

/-! ### The order of a cycle -/

/-- The place of a deed among those of one fabric cycle (R10, R23, R34, R121, R207, R324, R376): accesses to the host window, link 0
before link 1, ahead of every change that the device makes; the arrays; the cores in ascending number and after them the
conductors, each with its engines in the order C, A, X, F and its performs; the ladles; the host's accesses to memory and the
peers'; the shakeout engines last. A deed without a place may fall anywhere after the host window. -/
def deedRank : Deed → Option Nat
  | .engine k e _ => some (10000 + 4 * k + e.tag.toNat)
  | .upset _ _ _ => none
  | .event i link => match i with
    | .registerWrite _ _ _ | .wqtailWrite _ _ | .wqEnable _ _ | .wqDisable _ _ | .partitionEnable _ _ | .partitionDisable _ _
    | .tierctlEnable _ _ | .fltack _ _ | .invcmdGo _ _ | .preemptRequest _ _ | .conductorStart _ _ | .trpackRetry _ _
    | .trpackAbort _ _ | .trpackDiscard _ _ | .trpackReserved _ _ | .attestRequest | .spanstatRead _ => some link
    | .tileCommand k _ | .ringAdvance k => some (10 + k)
    | .perform k => some (10000 + 4 * k)
    | .chainStart l | .copy l | .ladleLoop l | .cond l | .semwait l | .semsig l | .ladlePubl l | .fprint l | .ladleEnd l =>
      some (20000 + l)
    | .deliver _ => some 20200
    | .hostRead a | .hostWrite a _ _ => some (if (hostKey a).isSome then 30000 + link else link)
    | .peerRequest _ _ _ _ => some 30002
    | .shakeoutDrain d => some (40000 + d)
    | _ => none

/-- The place that a deed without one is noted under. -/
def unranked : Nat := 2

/-- Whether an A engine and its array, or a ladle of its cluster, would move or look at the same rings in one cycle: what the one changes, the
other sees from the next cycle, and of two advances of one pointer A's is the later (R173, R195). -/
def State.ringClash (s : State) : Deed → Bool
  | .engine k .A _ => s.cycle.contains (10 + k)
  | .event (.copy l) _ => s.cycle.any fun r => 10000 ≤ r && r < 14096 && r % 4 = 1 && (r - 10000) / 64 = l / 2
  | _ => false

/-- The core whose own state a deed moves, if it is one of a core. -/
def deedCore : Deed → Option Nat
  | .engine k _ _ => some k
  | .event i _ => match i with
    | .tileCommand k _ | .ringAdvance k => some k
    | _ => none
  | .upset _ _ _ => none

/-- Whether a deed cannot act before the refreshes that are due: only the steps of Table 16-2, and other cores, go before (R310). -/
def State.afterRefresh (s : State) (d : Deed) : Bool :=
  !s.due.isEmpty && ((deedRank d).isNone || (deedCore d).any s.due.contains)

/-- Whether a trap record waits for the traps of its cycle, which come in the order C, A, X, F, array (R348). -/
def State.trapsToCome (s : State) : Deed → Bool
  | .event (.trapRecordWrite p) _ => (s.part p).traps.any fun t => t.seq.isNone && t.since = s.now
  | _ => false

/-- How long before a turn the device is idle: a deed whose place in the present cycle is past, or that waits for the cycle's end, acts in
the next (log 1). -/
def State.delay (s : State) (t : Turn) : Nat :=
  if t.dt = 0 && ((deedRank t.deed).any (fun r => s.cycle.any fun q => decide (r < q)) || s.ringClash t.deed || s.afterRefresh t.deed
      || s.trapsToCome t.deed) then 1
  else t.dt

/-- The end of a cycle: the refreshes that are due act, and resumed work takes what was acknowledged while it was saved (R310, R363). -/
def State.endCycle (s : State) : State :=
  s.due.foldl (fun s k => match (s.core k).work with
    | some w => s.resumeAcks w
    | none => s) s.takeRefreshes

/-- The device when a turn begins: boundaries that are due have occurred (R53); when time passes, the refreshes of the cycle have acted,
and the phase watchdogs of held work are suspended (R310, R348); free walkers have served the misses that wait (R151). -/
def State.begin (s : State) (t : Turn) : State :=
  let n := s.delay t
  let s := match t.deed with
    | .event (.phaseBoundary _ _ _) _ => s
    | _ => s.crossDue
  let s := if n = 0 then s else s.endCycle
  let s := ((s.tick n).pauseWatchdogs n).serveMisses
  { s with cycle := (deedRank t.deed).getD unranked :: (if n = 0 then s.cycle else []), fills := [] }

/-- One turn: the time before it passes; without power only a reset acts (R380). -/
def State.turn (s : State) (t : Turn) : Host.Outcome State Fault Refusal :=
  let s := s.begin t
  let reset := match t.deed with
    | .event .deviceReset _ => true
    | _ => false
  if s.power || reset then s.act t.deed else .next s

end Sys2Proof.Machine
end

