-- ==== Sys2Proof/Machine/Step.lean ====
section
/-! DEFINITION. One step of the device: the next turn, and how the host places an instruction to be run. -/

namespace Sys2Proof.Machine

/-- One step: the next turn of the agenda, or of the order that Config leaves open (log 1). -/
def step (s : State) : Host.Outcome State Fault Refusal :=
  match s.agenda with
  | t :: r => ({ s with agenda := r } : State).turn t
  | [] => ({ s with turnNo := s.turnNo + 1 } : State).turn (Config.schedule s.turnNo)

/-- An instruction's words stored where the next step fetches them: core 0 holds a piece of work whose text is the
words, its engines at word 0, and the next turn is that of the engine that the first word is tagged for (log 6). -/
def State.withFetchWord (s : State) (_nbits w : Nat) : State :=
  let w0 := BitVec.ofNat 32 w
  let w1 := BitVec.ofNat 32 (w / 2 ^ 32)
  let c : Core := { work := some { id := 0, len := 2 }, imem := SMap.setList [] 0 0 [w0, w1], marks := [0] }
  { s with
    cores := s.cores.put 0 c
    agenda := [{ dt := 0, deed := .engine 0 (engOf (w0.extractLsb' 30 2)) none }] }

end Sys2Proof.Machine
end

