-- ==== Sys2Proof/Safety.lean ====
section
/-! DEFINITION. What counts as a safe run, and the words that statements are made of: when an instruction issues, and
what a state is left with. -/

namespace Sys2Proof.Machine

/-- A step that goes on. -/
def GoesOn (s : State) : Prop := ∃ t, step s = .next t

/-- The states that n steps reach without a fault or a refusal. -/
inductive Reaches : State → Nat → State → Prop
  | here (s : State) : Reaches s 0 s
  | more {s t u : State} {n : Nat} : step s = .next t → Reaches t n u → Reaches s (n + 1) u

/-- Instruction i can issue now on engine e of the executing core: the engine may act and is inside no instruction, the
words are legal, every token, entry, slot and condition that the instruction needs is there, the slip bound lets it
pass, it would take no terminal entry as data (R71, R75, R86, R92, R97), and no error of the engine's datapath waits to be detected
at its retirement (R354). A turn without budget only allocates an instruction's queue slots (R95); this is none. -/
def Ready (i : Instr) (e : Eng) (p : BitVec 4) (n : Needs) (s : State) : Bool :=
  s.cc.runnable e && (s.ctx.eng e).prog.isNone && (encodingCause i s.cc e).isNone && (gateWaits s.ctx e p n).isNone
    && s.ctx.slipOk e (instrWords i) && !terminalUse s.ctx n && s.cc.badPath != some e && (s.budget != some 0 || n.frees.isEmpty)

/-- The state `t` in which an instruction has had its effect, once it has retired: its tokens are pushed, and the engine's program
counter has moved on (R71, R93). -/
def State.retired (t : State) (i : Instr) (e : Eng) (p : BitVec 4) (n : Needs) (nx : Next) : State :=
  (t.retire e p n (instrWords i) nx).stir

/-! ### What a statement says of a next state -/

/-- An instruction of the executing core has changed nothing of the device but the core's architectural state and the
model's notes of who waits. -/
structure OnlyCore (s t : State) : Prop where
  /-- Every byte of global memory reads as before. -/
  memory : ∀ a, t.mem.get 0 a = s.mem.get 0 a
  device : t = { s with cores := t.cores, quiet := t.quiet, arrayQuiet := t.arrayQuiet }
  cores : ∀ k, k ≠ s.cur → t.core k = s.core k
  core : t.cc = { s.cc with ctx := t.ctx }

/-- Of its core's architectural state, too, it has changed only the engine `e`, the token counts and reservations, the
event counters and the lifted slip bound: no other engine, no queue, ring, tile, vector register, scratchpad byte or CSR. -/
structure OnlyEngine (e : Eng) (s t : State) : Prop extends OnlyCore s t where
  engines : ∀ f, f ≠ e → t.ctx.eng f = s.ctx.eng f
  state : t.ctx = { s.ctx with
    c := t.ctx.c, a := t.ctx.a, x := t.ctx.x, f := t.ctx.f, fifo := t.ctx.fifo, resv := t.ctx.resv, csr := t.ctx.csr }
  csr : t.ctx.csr = { s.ctx.csr with evcnt := t.ctx.csr.evcnt, lifted := t.ctx.csr.lifted }

/-- Engine `e` has passed `n` words and goes on at `pc` with the loops `l` (R71, R73). -/
structure Passed (e : Eng) (n pc : Nat) (l : List Loop) (s t : State) : Prop where
  pc : (t.ctx.eng e).pc = pc
  loops : (t.ctx.eng e).loops = l
  walk : (t.ctx.eng e).wc = (s.ctx.eng e).wc + BitVec.ofNat 32 n
  free : (t.ctx.eng e).prog = none

/-- Where an engine goes on after the instruction at its program counter, of `n` words, when it transfers no control: at
the next word, after the loops that end there (R71, R106). -/
def State.nextPc (s : State) (e : Eng) (n : Nat) : Nat := (applyLoopEnd (s.ctx.seenLoops e) ((s.ctx.eng e).pc + n)).2

/-- The loops that are left then. -/
def State.nextLoops (s : State) (e : Eng) (n : Nat) : List Loop :=
  (applyLoopEnd (s.ctx.seenLoops e) ((s.ctx.eng e).pc + n)).1 ++ s.ctx.hiddenLoops e

end Sys2Proof.Machine
end

