-- ==== Sys2Proof/Certificates/Slice0/Obligations.lean ====
section
/-! DEFINITION. The statements for the provers, and the words that they are made of. -/

namespace Sys2Proof.Machine

/-! ### Registers (Table 4-7, R109 to R112) -/

/-- The engine, the dependence bits, the destination and the result of the shared instructions that write a register. -/
def registerResult (s : State) : Instr → Option (Eng × BitVec 4 × BitVec 5 × Word)
  | .add t p gd ga gb => some (t, p, gd, s.reg t ga + s.reg t gb)
  | .sub t p gd ga gb => some (t, p, gd, s.reg t ga - s.reg t gb)
  | .mul t p gd ga gb => some (t, p, gd, s.reg t ga * s.reg t gb)
  | .mulh t p gd ga gb => some (t, p, gd, BitVec.ofInt 64 ((s.reg t ga).toInt * (s.reg t gb).toInt / 2 ^ 64))
  | .andg t p gd ga gb => some (t, p, gd, s.reg t ga &&& s.reg t gb)
  | .org t p gd ga gb => some (t, p, gd, s.reg t ga ||| s.reg t gb)
  | .xorg t p gd ga gb => some (t, p, gd, s.reg t ga ^^^ s.reg t gb)
  | .shl t p gd ga gb => some (t, p, gd, s.reg t ga <<< ((s.reg t gb).toNat % 64))
  | .shr t p gd ga gb => some (t, p, gd, s.reg t ga >>> ((s.reg t gb).toNat % 64))
  | .sra t p gd ga gb => some (t, p, gd, (s.reg t ga).sshiftRight ((s.reg t gb).toNat % 64))
  | .slt t p gd ga gb => some (t, p, gd, if (s.reg t ga).toInt < (s.reg t gb).toInt then 1 else 0)
  | .sltn t p gd ga gb => some (t, p, gd, if (s.reg t ga).toNat < (s.reg t gb).toNat then 1 else 0)
  | .min t p gd ga gb => some (t, p, gd, if (s.reg t gb).toInt < (s.reg t ga).toInt then s.reg t gb else s.reg t ga)
  | .max t p gd ga gb => some (t, p, gd, if (s.reg t ga).toInt < (s.reg t gb).toInt then s.reg t gb else s.reg t ga)
  | .mov t p gd ga => some (t, p, gd, s.reg t ga)
  | .addi t p gd ga i => some (t, p, gd, s.reg t ga + i.signExtend 64)
  | .andi t p gd ga i => some (t, p, gd, s.reg t ga &&& i.signExtend 64)
  | .ori t p gd ga i => some (t, p, gd, s.reg t ga ||| i.signExtend 64)
  | .xori t p gd ga i => some (t, p, gd, s.reg t ga ^^^ i.signExtend 64)
  | .shli t p gd ga n => some (t, p, gd, s.reg t ga <<< n.toNat)
  | .shri t p gd ga n => some (t, p, gd, s.reg t ga >>> n.toNat)
  | .srai t p gd ga n => some (t, p, gd, (s.reg t ga).sshiftRight n.toNat)
  | .li t p gd h l => some (t, p, gd, (h ++ l).signExtend 64)
  | .spl t p gd i => some (t, p, gd, (s.ctx.eng t).spill.get 0 i.toNat)
  | _ => none

/-! ### Control transfer, loops and spill memory (R100 to R108, R112, R113) -/

/-- An engine whose seen loops are `l`, arriving at word `pc` (R106). -/
def State.arrives (s : State) (e : Eng) (l : List Loop) (pc : Nat) : Engine :=
  { s.ctx.eng e with loops := (applyLoopEnd l pc).1 ++ s.ctx.hiddenLoops e, pc := (applyLoopEnd l pc).2 }

/-- Where a compare-branch or B goes: when taken, to `pc + off`, the loops that do not contain it popped (R104, R107). -/
def State.branchesTo (s : State) (e : Eng) (taken : Bool) (off : Int) : Engine :=
  let g := s.ctx.eng e
  let w := (g.pc + off).toNat
  if taken then s.arrives e (popOutside (s.ctx.seenLoops e) w) w else s.arrives e (s.ctx.seenLoops e) (g.pc + 1)

/-- A hardware loop of one word with trip count n whose end word is `pc + off` (R106, R108): it needs a free place when n
is not 0, and an end word that is a first word. -/
def State.loopsTo (s : State) (e : Eng) (n : Nat) (off : Int) : Option Engine :=
  let g := s.ctx.eng e
  let w := (g.pc + off).toNat
  if (g.loops.length < 4 ∨ n = 0) ∧ s.cc.firstWord w then
    some (if n = 0 then s.arrives e (s.ctx.seenLoops e) w
      else s.arrives e (⟨g.pc + 1, w, n⟩ :: s.ctx.seenLoops e) (g.pc + 1))
  else none

/-- The engine that a control or spill instruction leaves, but for its walk count: where the rules name a condition on the
state, none when it does not hold. -/
def engineResult (s : State) : Instr → Option (Eng × BitVec 4 × Engine)
  | .nop t p => some (t, p, s.arrives t (s.ctx.seenLoops t) ((s.ctx.eng t).pc + 1))
  | .b t p off => some (t, p, s.branchesTo t true off.toInt)
  | .beq t p gx gy off => some (t, p, s.branchesTo t (s.reg t gx == s.reg t gy) off.toInt)
  | .bne t p gx gy off => some (t, p, s.branchesTo t (s.reg t gx != s.reg t gy) off.toInt)
  | .blt t p gx gy off => some (t, p, s.branchesTo t (decide ((s.reg t gx).toInt < (s.reg t gy).toInt)) off.toInt)
  | .bge t p gx gy off => some (t, p, s.branchesTo t (decide ((s.reg t gy).toInt ≤ (s.reg t gx).toInt)) off.toInt)
  | .blo t p gx gy off => some (t, p, s.branchesTo t (decide ((s.reg t gx).toNat < (s.reg t gy).toNat)) off.toInt)
  | .bhs t p gx gy off => some (t, p, s.branchesTo t (decide ((s.reg t gy).toNat ≤ (s.reg t gx).toNat)) off.toInt)
  | .call t p off =>
    let g := s.ctx.eng t
    if g.ras.length < 16 then some (t, p, { g with pc := (g.pc + off.toInt).toNat, ras := g.ras ++ [(g.pc + 1) % 2 ^ 14] }) else none
  | .ret t p =>
    let g := s.ctx.eng t
    match g.ras.getLast? with
    | some w => if s.cc.firstWord w then some (t, p, { g with pc := w, ras := g.ras.dropLast }) else none
    | none => none
  | .brkl t p => match s.ctx.seenLoops t with
    | l :: r => some (t, p, s.arrives t r l.last)
    | [] => none
  | .loop t p ga off => (s.loopsTo t ((s.reg t ga).toNat % 2 ^ 32) off.toInt).map fun g => (t, p, g)
  | .loopi t p n off => (s.loopsTo t n.toNat off.toInt).map fun g => (t, p, g)
  | .sps t p gd i => some (t, p, { s.arrives t (s.ctx.seenLoops t) ((s.ctx.eng t).pc + 1) with
      spill := (s.ctx.eng t).spill.set 0 i.toNat (s.reg t gd) })
  | .svra t p n i =>
    let g := s.ctx.eng t
    if n.toNat ≤ g.ras.length then some (t, p, { s.arrives t (s.ctx.seenLoops t) (g.pc + 1) with
      spill := g.spill.setList 0 i.toNat ((g.ras.take n.toNat).map fun a => BitVec.ofNat 64 (a % 2 ^ 14)), ras := g.ras.drop n.toNat })
    else none
  | .ldra t p n i =>
    let g := s.ctx.eng t
    if g.ras.length + n.toNat ≤ 16 then some (t, p, { s.arrives t (s.ctx.seenLoops t) (g.pc + 1) with
      ras := (upTo n.toNat fun k => bits (g.spill.get 0 (i.toNat + k)) 13 0) ++ g.ras })
    else none
  | _ => none

/-! ### Tokens and queues (R90 to R97, R105, R114, R115) -/

/-- The tokens that an instruction pops from, and pushes to, a FIFO beyond its dependence bits: only WAITT and SIGT do. -/
def tokenResult : Instr → Option (Eng × BitVec 4 × Needs)
  | .nop t p => some (t, p, {})
  | .waitt t p f n => some (t, p, { pops := [(f.toNat, n.toNat)] })
  | .sigt t p f n => some (t, p, { pushes := [(f.toNat, n.toNat)] })
  | _ => none

/-! ### Control and status registers (R10; Tables 3-4, 5-4, 5-6, 19-9) -/

/-- The W1C bits of a CSR, and the W1S bits. -/
def csrW1c (n : Nat) : Word := if n = 0x020 then 0xF else if n = 0x040 then 0x10000 else if n = 0x050 then 1 else 0
def csrW1s (n : Nat) : Word := if n = 0x030 then 0x100000000 else 0

/-! ### Scalar floating point (Table 5-3) -/

/-- The result and the flags of C's floating-point instructions, and its destination. -/
def floatResult (s : State) : Instr → Option (BitVec 4 × BitVec 5 × Word × Flags)
  | .fadd p gd ga gb => out p gd (fmtF32.finish none false ((s.f32 ga).add (s.f32 gb)))
  | .fsub p gd ga gb => out p gd (fmtF32.finish none false ((s.f32 ga).add (s.f32 gb).neg))
  | .fmul p gd ga gb => out p gd (fmtF32.finish none false ((s.f32 ga).mul (s.f32 gb)))
  | .ffma p gd ga gb gc => out p gd (fmtF32.finish none false ((s.f32 ga).fma (s.f32 gb) (s.f32 gc)))
  | .fmin p gd ga gb => out p gd (fmtF32.minmax false (bits (s.reg .C ga) 31 0) (bits (s.reg .C gb) 31 0))
  | .fmax p gd ga gb => out p gd (fmtF32.minmax true (bits (s.reg .C ga) 31 0) (bits (s.reg .C gb) 31 0))
  | .feq p gd ga gb => out p gd (if (s.f32 ga).feq (s.f32 gb) then 1 else 0, { nv := (s.f32 ga).isSig || (s.f32 gb).isSig })
  | .flt p gd ga gb => out p gd (if (s.f32 ga).lt (s.f32 gb) then 1 else 0, { nv := (s.f32 ga).isNan || (s.f32 gb).isNan })
  | .fle p gd ga gb => out p gd (if (s.f32 ga).lt (s.f32 gb) ∨ (s.f32 ga).feq (s.f32 gb) then 1 else 0,
      { nv := (s.f32 ga).isNan || (s.f32 gb).isNan })
  | .fcvt p gd ga src dst =>
    let (v, f) := convertTy dst.toNat src.toNat ((s.reg .C ga).toNat % 2 ^ tyBits src.toNat) none s.ctx.csr.sat
    some (p, gd, if isSignedTy dst.toNat then (BitVec.ofNat (tyBits dst.toNat) v).signExtend 64 else BitVec.ofNat 64 v, f)
  | _ => none
where
  /-- A result that is zero-extended (R125). -/
  out (p : BitVec 4) (gd : BitVec 5) (r : Nat × Flags) : Option (BitVec 4 × BitVec 5 × Word × Flags) :=
    some (p, gd, BitVec.ofNat 64 r.1, r.2)

/-- The number that a finite value stands for. -/
def Val.toRat : Val → ℚ
  | .fin neg m e => (if neg then -1 else 1) * m * (2 : ℚ) ^ e
  | _ => 0

/-- Whether a value is finite. -/
def Val.isFin : Val → Bool
  | .fin _ _ _ => true
  | _ => false

/-- The binary formats of the type codes, and FP64 (Tables 10-2, 10-3, R192). -/
def formats : List Fmt := [fmtF32, fmtF16, fmtBf16, fmtE5m2, fmtE4m3, fmtE2m1, fmtF64]

/-! ### Memory (R119 to R124, R139, R140, R309 to R312) -/

/-- Table 3-14: the width in bytes of a size code, and whether a load of it is signed. -/
def accessWidth (sz : BitVec 4) : Nat := [1, 1, 2, 2, 4, 4, 8].getD sz.toNat 8
def accessSigned (sz : BitVec 4) : Bool := sz = 0 || sz = 2 || sz = 4

/-- The address of C's loads and stores, modulo 2^64 (R120). -/
def State.offAddr (s : State) (ga : BitVec 5) (off : BitVec 32) : Nat := (s.reg .C ga + off.signExtend 64).toNat

/-- What a load of n bytes writes to its destination (R120). -/
def extended (signed : Bool) (l : List Byte) : Word :=
  if signed then (BitVec.ofNat (8 * l.length) (ofBytes l)).signExtend 64 else BitVec.ofNat 64 (ofBytes l)

/-- Translation of a virtual address by an instruction of C of `len` words, once it has issued with its dependence bits alone: a
location, and the state that the walk leaves (R150); `ext` is the bytes still to transfer, which a fault would report (R158). -/
def State.reaches (s : State) (p : BitVec 4) (len va acc ext key : Nat) (u : State) : Prop :=
  xlate (.coreC s.cur) va acc ext (s.issued .C p {} len) = .ok (key, u)

/-- The same for a read of n bytes at an address of C, which can be served: through the snapshot's view of its shadows (R181), on no
peer that cannot be reached, and without poison that the reader would meet (R145, R354). `u` is the state after it: a replica that
serves the read has been used most recently (R146). `l` is what the core reads there. -/
def State.serves (s : State) (p : BitVec 4) (len a n : Nat) (l : List Byte) (u : State) : Prop :=
  ∃ key t, s.reaches p len (s.window a) accRead n key t ∧ t.noPath key = false ∧ t.readPoisoned (dieOf s.cur) key n = false
    ∧ l = t.snapRead key n ∧ u = t.useReplica (dieOf s.cur) key

/-- The function of an atomic, whether it is a release and whether an acquire, and its operands (Table 5-1, R121). -/
def amoOf : Instr → Option (Nat × Bool × Bool × BitVec 4 × BitVec 5 × BitVec 5 × BitVec 5 × BitVec 1)
  | .amoaddAcq p gd ga gb w => some (0, false, true, p, gd, ga, gb, w)
  | .amoaddRel p gd ga gb w => some (0, true, false, p, gd, ga, gb, w)
  | .amoaddAr p gd ga gb w => some (0, true, true, p, gd, ga, gb, w)
  | .amoandAcq p gd ga gb w => some (1, false, true, p, gd, ga, gb, w)
  | .amoandRel p gd ga gb w => some (1, true, false, p, gd, ga, gb, w)
  | .amoandAr p gd ga gb w => some (1, true, true, p, gd, ga, gb, w)
  | .amoorAcq p gd ga gb w => some (2, false, true, p, gd, ga, gb, w)
  | .amoorRel p gd ga gb w => some (2, true, false, p, gd, ga, gb, w)
  | .amoorAr p gd ga gb w => some (2, true, true, p, gd, ga, gb, w)
  | .amominAcq p gd ga gb w => some (3, false, true, p, gd, ga, gb, w)
  | .amominRel p gd ga gb w => some (3, true, false, p, gd, ga, gb, w)
  | .amominAr p gd ga gb w => some (3, true, true, p, gd, ga, gb, w)
  | .amomaxAcq p gd ga gb w => some (4, false, true, p, gd, ga, gb, w)
  | .amomaxRel p gd ga gb w => some (4, true, false, p, gd, ga, gb, w)
  | .amomaxAr p gd ga gb w => some (4, true, true, p, gd, ga, gb, w)
  | .amoswpAcq p gd ga gb w => some (5, false, true, p, gd, ga, gb, w)
  | .amoswpRel p gd ga gb w => some (5, true, false, p, gd, ga, gb, w)
  | .amoswpAr p gd ga gb w => some (5, true, true, p, gd, ga, gb, w)
  | .amocasAcq p gd ga gb w => some (6, false, true, p, gd, ga, gb, w)
  | .amocasRel p gd ga gb w => some (6, true, false, p, gd, ga, gb, w)
  | .amocasAr p gd ga gb w => some (6, true, true, p, gd, ga, gb, w)
  | _ => none

/-- The value that an atomic of W bits writes, none for an AMOCAS that fails (R121): `old` the memory's, `b` of gb, `d` of
gd. -/
def amoWrites (fn W : Nat) (old b d : Nat) : Option Nat :=
  match fn with
  | 0 => some ((old + b) % 2 ^ W)
  | 1 => some (old &&& b)
  | 2 => some (old ||| b)
  | 3 => some (if (BitVec.ofNat W old).toInt < (BitVec.ofNat W b).toInt then old else b)
  | 4 => some (if (BitVec.ofNat W old).toInt < (BitVec.ofNat W b).toInt then b else old)
  | 5 => some b
  | _ => if old = d then some b else none

/-- The state of a core that may perform an irrevocable act at once: its work is not speculative and does not replay, and
it has nothing left to publish or to perform. -/
def State.unburdened (s : State) : Prop :=
  s.work.spec = false ∧ s.work.replay = none ∧ s.work.sb = [] ∧ s.cc.ob = []

/-! ### Traps (R85, R86, R119, R131 to R133) -/

/-- A trap record joins those that a partition has to write: at the end, but before those of the core's array that arose in the same
cycle and are not yet written (R348). -/
def TrapRec.joins (r : TrapRec) (old new : List TrapRec) : Prop :=
  ∃ l l', old = l ++ l' ∧ new = l ++ r :: l' ∧ ∀ y ∈ l', y.arr = true ∧ y.core = r.core ∧ y.since = r.since ∧ y.seq = none

/-- The engine and dependence bits of an instruction word: bits 31:30, and bits 29:26. -/
def instrEngine (i : Instr) : Option Eng := (encode i).head?.map fun w => engOf (w.extractLsb' 30 2)

/-! ### Work launched by programs (R36 to R39, R134, R135, R325 to R336) -/

/-- An irrevocable or logged act of C joins the effect log, with its result; past the 256th, NRP is set instead (R357,
R359). -/
def State.logAct (s : State) (k : ActKind) (result : Nat) : State :=
  if s.work.log.length < 256 then
    (s.modWork fun w => { w with log := w.log ++ [{ kind := k, pc := (s.ctx.eng .C).pc, result := BitVec.ofNat 256 result, pub := 0 }] }).countOn
      s.cur 0x0C none 1
  else s.modCtx fun c => { c with csr := { c.csr with nrp := true } }

/-- An act that gives gd a status: logged, and gd written. -/
def State.answers (s : State) (k : ActKind) (gd : BitVec 5) (status : Nat) : State :=
  (s.logAct k status).setReg .C gd (BitVec.ofNat 64 status)

/-- The record of 128 bytes that an instruction of `len` words reads at an address of C: `u` is the state that the read leaves. -/
def State.finds (s : State) (p : BitVec 4) (len a : Nat) (r : BitVec 1024) (u : State) : Prop :=
  a % 128 = 0 ∧ ∃ l, s.serves p len a 128 l u ∧ r = BitVec.ofNat 1024 (ofBytes l)

/-! ### The access engine (R165 to R195) -/

/-- An entry of 512 bytes is pushed to a queue, at its tail (R95). -/
def Ctx.entersQueue (c : Ctx) (q : BitVec 5) (l : List Byte) : Ctx :=
  c.push q.toNat { full := true, len := 32, data := BitVec.ofNat 4096 (ofBytes l) }

/-- The encoded block at a scratchpad address: its 256 data bytes and its length, when it lies in scratchpad and is well
formed (R177, R178). -/
def Ctx.blockAt (c : Ctx) (a ty : Nat) : Option (List Byte × Nat) :=
  if a + 16 ≤ 786432 then
    match vbcHead ty (c.spadBytes a 16) with
    | some h => if a + h.len ty ≤ 786432 then some (h.data ty (c.spadBytes (a + 16) (h.payload ty)), h.len ty) else none
    | none => none
  else none

/-- Slot position, offset and geometry of a ring hold an entry of 512 bytes (R174). -/
def Ring.holdsEntry (r : Ring) (o have_ : Nat) : Bool :=
  r.init && o % 16 = 0 && 512 ≤ r.slot && o % r.slot + 512 ≤ r.slot && o / r.slot < r.n && o / r.slot < have_

/-- The dependence bits, the needs and the effect of the access instructions that touch no memory, each where the rules
let it act; none where they name a trap or a wait. -/
def accessResult (s : State) : Instr → Option (BitVec 4 × Needs × (State → State))
  | .ldq p rg gd ga q xe xc aty imm =>
    let n : Needs := { frees := [(q.toNat, 1)], waits := [(false, .ring)] }
    let o := (s.reg .A ga + imm.setWidth 64).toNat
    let a := if xc = 1 then s.ctx.ecur else o
    let r := s.ctx.ring gd.toNat
    if rg = 1 then
      if r.holdsEntry o r.filled then some (p, n, fun t => t.modCtx fun c => c.entersQueue q (c.chunksAt (r.chunkAddrs r.head o 32))) else none
    else if a % 16 ≠ 0 then none
    else if xe = 1 then
      match s.ctx.blockAt a aty.toNat with
      | none => none
      | some (b0, l0) => match s.ctx.blockAt (a + l0) aty.toNat with
        | none => none
        | some (b1, l1) =>
          some (p, n, fun t => t.modCtx fun c => { c.entersQueue q (b0 ++ b1) with ecur := (a + l0 + l1) % 2 ^ 20 })
    else if a + 512 ≤ 786432 then
      some (p, n, fun t => t.modCtx fun c => { c.entersQueue q (c.spadBytes a 512) with ecur := (a + 512) % 2 ^ 20 })
    else none
  | .ldqTerm p q _ _ => some (p, { frees := [(q.toNat, 1)] }, fun t => t.modCtx fun c =>
      c.push q.toNat { full := true, term := true })
  | .stq p rg gd ga q xc imm =>
    let n : Needs := { reads := [(q.toNat, 1)], waits := [(false, .ring)] }
    let o := (s.reg .A ga + imm.setWidth 64).toNat
    let a := if xc = 1 then s.ctx.scur else o
    let r := s.ctx.ring gd.toNat
    match s.ctx.queue q.toNat with
    | [] => none
    | e :: rest =>
      let data := (upTo 512 fun i => e.data.extractLsb' (8 * i) 8).take (16 * e.len)
      if rg = 1 then
        if r.holdsEntry o r.free then
          some (p, n, fun t => t.modCtx fun c => (c.setQueue q.toNat rest).setChunks (r.chunkAddrs r.tail o e.len) data)
        else none
      else if a % 16 = 0 ∧ a + 16 * e.len ≤ 786432 then
        some (p, n, fun t => t.modCtx fun c =>
          { c.setQueue q.toNat rest with spad := c.spad.setList 0 a data, scur := (a + 16 * e.len) % 2 ^ 20 })
      else none
  | .rinit p ga gb q pe n1 =>
    let a := (s.reg .A ga).toNat
    let b := (s.reg .A gb).toNat
    let k := n1.toNat + 1
    if s.ctx.ar.idle ∧ s.copyPending s.cur (q.toNat - 16) = false ∧ a % 64 = 0 ∧ b % 64 = 0 ∧ 64 ≤ b ∧ b ≤ 65536 ∧ a + b * k ≤ 786432 then
      let r : Ring := { init := true, base := a, slot := b, n := k, pers := pe = 1, pitch := b, span := 0, head := 0, tail := 0 }
      some (p, { waits := [(false, .array), (false, .ladle)] }, fun t => t.modCtx fun c => { c with rings := c.rings.set {} (q.toNat - 16) r })
    else none
  | .radvHead p q imm =>
    let r := s.ctx.ring (q.toNat - 16)
    if r.init ∧ imm.toNat ≤ r.n ∧ imm.toNat ≤ r.filled then
      some (p, {}, fun t => t.modCtx fun c => { c with rings := c.rings.set {} (q.toNat - 16) { r with head := r.head + imm.setWidth 32 } })
    else none
  | .radvTail p q imm =>
    let r := s.ctx.ring (q.toNat - 16)
    if r.init ∧ imm.toNat ≤ r.n ∧ imm.toNat ≤ r.free then
      some (p, {}, fun t => t.modCtx fun c => { c with rings := c.rings.set {} (q.toNat - 16) { r with tail := r.tail + imm.setWidth 32 } })
    else none
  | .rwaitHead p q imm =>
    let r := s.ctx.ring (q.toNat - 16)
    if r.init ∧ imm.toNat ≤ r.n ∧ imm.toNat ≤ r.filled then some (p, { waits := [(false, .ring)] }, id) else none
  | .rwaitTail p q imm =>
    let r := s.ctx.ring (q.toNat - 16)
    if r.init ∧ imm.toNat ≤ r.n ∧ imm.toNat ≤ r.free then some (p, { waits := [(false, .ring)] }, id) else none
  | .swz p ga q span =>
    let r := s.ctx.ring (q.toNat - 16)
    let v := (s.reg .A ga).toNat
    if r.init ∧ v % 16 = 0 ∧ 16 ≤ v ∧ v ≤ r.slot ∧ r.slot % v = 0 ∧ v % (16 * 2 ^ span.toNat) = 0 then
      some (p, {}, fun t => t.modCtx fun c => { c with rings := c.rings.set {} (q.toNat - 16) { r with pitch := v, span := span.toNat } })
    else none
  | .astatEcur p gd => some (p, {}, fun t => t.setReg .A gd (BitVec.ofNat 64 s.ctx.ecur))
  | .astatScur p gd => some (p, {}, fun t => t.setReg .A gd (BitVec.ofNat 64 s.ctx.scur))
  | .astatSetec p ga =>
    if bits (s.reg .A ga) 19 0 < 786432 then some (p, {}, fun t => t.modCtx fun c => { c with ecur := bits (s.reg .A ga) 19 0 }) else none
  | .astatSetsc p ga =>
    if bits (s.reg .A ga) 19 0 < 786432 then some (p, {}, fun t => t.modCtx fun c => { c with scur := bits (s.reg .A ga) 19 0 }) else none
  | .astatRing p gd rk =>
    let r := s.ctx.ring rk.toNat
    if r.init then some (p, {}, fun t => t.setReg .A gd (r.tail ++ r.head)) else none
  | .astatSread p gd sem =>
    let x := s.sem (256 * (s.cur / 16) + sem.toNat)
    if isConductor s.cur then none
    else some (p, {}, fun t => t.setReg .A gd
      (BitVec.ofNat 64 (x.count + (if x.poison then 65536 else 0) + (if x.ovf then 131072 else 0))))
  | .astatChain p gd ga =>
    some (p, {}, fun t => t.setReg .A gd (BitVec.ofNat 64 (if isConductor s.cur then 4 else s.chainState (s.reg .A ga))))
  | _ => none

/-- The same for the shadow instructions and PREFT, which act on the partition (R180, R182). -/
def shadowResult (s : State) : Instr → Option (BitVec 4 × (State → State))
  | .shdwDef p gd ga gb imm =>
    let h := (s.reg .A gd).toNat
    let w := (s.reg .A ga).toNat
    let t := (s.reg .A gb).toNat
    let len := 65536 * imm.toNat
    let free := fun (a b n : Nat) => !meets a (a + len) b n
    if h ≤ 1023 ∧ (s.part s.work.part).handles.find h = none ∧ w % 65536 = 0 ∧ t % 65536 = 0 ∧ free w t len
        ∧ (s.part s.work.part).handles.all (fun e => free w e.2.window e.2.len && free w e.2.twin e.2.len
            && free t e.2.window e.2.len && free t e.2.twin e.2.len) then
      let x : Handle := { made := s.handleNo, window := w, twin := t, len, owner := s.work.id, cur := false, armed := true }
      some (p, fun u => ({ u with handleNo := s.handleNo + 1 } : State).modPart s.work.part fun q => { q with handles := q.handles.put h x })
    else none
  | .shdwArm p gd =>
    let h := (s.reg .A gd).toNat
    match (s.part s.work.part).handles.find h with
    | some x => if h ≤ 1023 ∧ x.armed = false then
        some (p, fun u => u.modPart s.work.part fun q => { q with handles := q.handles.put h { x with armed := true, owner := s.work.id } })
      else none
    | none => none
  | .shdwFree p gd =>
    let h := (s.reg .A gd).toNat
    match (s.part s.work.part).handles.find h with
    | some x => if h ≤ 1023 ∧ x.armed = false ∧ x.owner = s.work.id then
        some (p, fun u => u.modPart s.work.part fun q => { q with handles := q.handles.drop h })
      else none
    | none => none
  | .preft p ga gb dies =>
    let lo := (s.reg .A ga).toNat
    let hi := min (lo + (s.reg .A gb).toNat) (2 ^ 52)
    let start := lo / 4096 * 4096
    let len := if (s.reg .A gb).toNat = 0 ∨ hi ≤ lo then 0 else (hi + 4095) / 4096 * 4096 - start
    let on := (List.range 4).filter fun d => if dies = 0 then decide (d = dieOf s.cur) else dies.getLsbD d
    some (p, fun u => on.foldl (fun t d => t.preftOn s.work.part s.work.asid start len d) u)
  | _ => none

/-- A granule of a GLD: 16 bytes that the engine reads at a virtual address reach scratchpad (R179). -/
def State.loadsGranule (s : State) (va a ext : Nat) : Except Stopped State :=
  (((do
    let l ← coreRead .A va 16 ext
    modify fun s => s.modCtx fun c => { c with spad := c.spad.setList 0 a l } : Act Unit)) s).map (·.2)

/-- A granule of a GST: 16 bytes of scratchpad join the store buffer. -/
def State.storesGranule (s : State) (va a ext : Nat) : Except Stopped State :=
  ((storeAppend .A va 16 (ofBytes (bytesAt s.ctx.spad a 16)) ext : Act Unit) s).map (·.2)

/-- n granules one after the other, each with the bytes that are left. -/
def granulesFrom (act : State → Nat → Nat → Nat → Except Stopped State) (va : Nat) (at' : Nat → Nat) (n : Nat) :
    List Nat → State → Except Stopped State
  | [], s => .ok s
  | i :: r, s => (act s ((va + 16 * i) % 2 ^ 64) (at' i) (16 * (n - i))).bind (granulesFrom act va at' n r)

/-! ### The KV store (R196 to R218) -/

/-- An act of A joins the effect log, with its result; past the 256th, NRP is set instead (R357, R359). -/
def State.logAccess (s : State) (k : ActKind) (result : Nat) : State :=
  if s.work.log.length < 256 then
    (s.modWork fun w => { w with log := w.log ++ [{ kind := k, pc := (s.ctx.eng .A).pc, result := BitVec.ofNat 256 result, pub := 0 }] }).countOn
      s.cur 0x0C none 1
  else s.modCtx fun c => { c with csr := { c.csr with nrp := true } }

/-- An instruction of A can act on the context that ga names, not replaying and not speculative: its record's page can be
written (R198), the translations of its operation `act` succeed, and set A and D as they are made (R150, R206), and its state is one of
some (R199); `u` is the state in which it goes on. -/
def State.opens {α : Type} (s : State) (p : BitVec 4) (ga : BitVec 5) (act : Kv → Act α) (states : List Nat) (x : Kv) (u : State) : Prop :=
  s.work.spec = false ∧ s.work.replay = none ∧ ∃ t v, kvWritable ga (s.issued .A p {} 2) = .ok (x, t) ∧ x.rehearse act t = .ok ((), v)
    ∧ x.checkOpen states v = .ok ((), u)

/-! ### The execute engine (R236 to R278) -/

/-- The X instructions that act on vector registers, extents and masks, each with its description: those that a sequencer's
body may hold, and VPOPC, MPUSH, MINV, MPOP and EXTS. -/
def vectorInstr (s : State) (i : Instr) : Option (BitVec 4 × XSem) :=
  match i with
  | .vpopc p gs mm va ex mk ty => some (p, semVpopc gs mm va ex mk ty)
  | .mpush p cc va vb ex ty => some (p, semMpush cc va vb ex ty)
  | .minv p => some (p, semMinv)
  | .mpop p => some (p, semMpop)
  | .exts p gs im n ex ty => some (p, semExts gs im n ex ty)
  | i => bodyInstr s i

/-- The element at position p of register r of a group, of w bits. -/
def lane (w : Nat) (l : List Wide) (r p : Nat) : Nat := ((l.getD r 0).extractLsb' (w * p) w).toNat

/-- Element i of a group in sequential order, and of a pair or quad of n registers in interleaved order (R238). -/
def seqLane (w : Nat) (l : List Wide) (i : Nat) : Nat := lane w l (i / epr w) (i % epr w)
def wovenLane (w n : Nat) (l : List Wide) (i : Nat) : Nat := lane w l (i % n) (i / n)

/-- The registers that the sources of an X instruction hold: vector registers, or entries at the heads of load queues (R96, R240). -/
def XSem.sources (x : XSem) (s : State) : List (List Wide) := ((planSources (x.srcs (x.count s)) []).1).map s.ctx.registersAt

/-- The elements that it may write (R239, R258). -/
def XSem.on (x : XSem) (s : State) (j : Nat) : Bool := decide (j < x.count s) && (!x.masked || s.ctx.topMask.getLsbD j)

/-- The registers that its destination held, zero for a push (R241). -/
def XSem.before (x : XSem) (s : State) : List Wide :=
  match x.dst (x.count s) with
  | some o => if 40 ≤ o.code.toNat then List.replicate o.n 0 else upTo o.n fun i => s.ctx.xu.v.get 0 (o.code.toNat + i)
  | none => []

/-- In `t` FSTAT has gathered the flags f, and no other CSR of `s` has changed but the event counters and the lifted bound (R127, R243). -/
def State.gathers (s t : State) (f : Flags) : Prop :=
  t.ctx.csr = { s.ctx.csr with
    nv := s.ctx.csr.nv || f.nv, of := s.ctx.csr.of || f.of, uf := s.ctx.csr.uf || f.uf, nx := s.ctx.csr.nx || f.nx
    evcnt := t.ctx.csr.evcnt, lifted := t.ctx.csr.lifted }

/-- What an X instruction that acts in `s` leaves in `t`: its destination holds the registers l, or they are pushed in order; the load
queues have lost what it pops; FSTAT has gathered f (R96, R240, R243). -/
def XSem.gives (x : XSem) (s t : State) (l : List Wide) (f : Flags) : Prop :=
  (∀ o, x.dst (x.count s) = some o → l.length = o.n ∧
    (if 40 ≤ o.code.toNat then
      t.ctx.queue (o.code.toNat - 36) = s.ctx.queue (o.code.toNat - 36) ++ l.map fun d => { full := true, data := d }
    else ∀ j, j < o.n → t.ctx.xu.v.get 0 (o.code.toNat + j) = l.getD j 0)) ∧
  (∀ q, q < 4 → t.ctx.queue q = (s.ctx.queue q).drop ((planSources (x.srcs (x.count s)) []).2.get 0 q)) ∧
  s.gathers t f

/-- Where X's words stand from word `pc` up to `le`, at most `f` words on (R70, R260). -/
def State.wordsOfX (s : State) (le : Nat) : (f : Nat) → (pc : Nat) → List Nat
  | 0, _ => []
  | f + 1, pc =>
    if le ≤ pc then []
    else
      let w := s.cc.imem.get 0 pc
      let e := engOf (w.extractLsb' 30 2)
      (if e = .X then [pc] else []) ++ s.wordsOfX le f (pc + wordLength e (w.extractLsb' 19 7).toNat)

/-- The flags of the elements below A that are `on`. -/
def flagsOver (A : Nat) (on : Nat → Bool) (f : Nat → Flags) : Flags :=
  (List.range A).foldl (fun g j => if on j then g.or (f j) else g) {}

/-- A result of Table 11-4: of an integer type the exact value e, clamped with SAT and else modulo 2^w; of a float type the value v
rounded once. -/
def operated (ty : BitVec 4) (sat : BitVec 1) (e : Int) (v : Val × Bool) : Nat × Flags :=
  if isIntTy ty.toNat then
    (((if sat = 1 then max (intMin ty.toNat) (min (intMax ty.toNat) e) else e) % (2 ^ typeBits ty : Nat)).toNat, {})
  else (fmtOf ty.toNat).finish none false v

/-- A float element whose bits are r, unless a is a NaN: that gives the canonical one, with NV when it signals (Table 11-4). -/
def quietOr (ty : BitVec 4) (a r : Nat) : Nat × Flags :=
  match (fmtOf ty.toNat).decode a with
  | .nan s => (((fmtOf ty.toNat).nan).getD 0, { nv := s })
  | _ => (r, {})

/-- A condition of Table 11-5 on exact values, `.bit` apart. -/
def holdsCond (cc : BitVec 3) (x y : Val) : Bool × Flags :=
  let sig : Flags := { nv := x.isSig || y.isSig }
  let any : Flags := { nv := x.isNan || y.isNan }
  if cc = 0 then (x.feq y, sig)
  else if cc = 1 then (!x.feq y, sig)
  else if cc = 2 then (x.lt y, any)
  else if cc = 3 then (x.lt y || x.feq y, any)
  else if cc = 4 then (y.lt x, any)
  else if cc = 5 then (y.lt x || x.feq y, any)
  else (x.isNan || y.isNan, sig)

/-- The element width of an element-wise instruction, and what it makes of element j of its sources (Tables 11-4 and 11-5, R246 to R248,
R265, R266), with the flags that this raises. -/
def elementResult (s : State) (src : List (List Wide)) : Instr → Option (Nat × (Nat → Nat × Flags))
  | .vadd _ sat _ _ _ _ _ ty => num ty fun a b _ i v => operated ty sat (i a + i b) ((v a).add (v b))
  | .vsub _ sat _ _ _ _ _ ty => num ty fun a b _ i v => operated ty sat (i a - i b) ((v a).add (v b).neg)
  | .vmul _ sat _ _ _ _ _ ty => num ty fun a b _ i v => operated ty sat (i a * i b) ((v a).mul (v b))
  | .vfma _ sat _ _ _ _ _ _ ty => num ty fun a b c i v => operated ty sat (i a * i b + i c) ((v a).fma (v b) (v c))
  | .vfms _ sat _ _ _ _ _ _ ty => num ty fun a b c i v => operated ty sat (i a * i b - i c) ((v a).fma (v b) (v c).neg)
  | .vmin _ _ _ _ _ _ ty => num ty fun a b _ i _ =>
      if isIntTy ty.toNat then (if i a < i b then a else b, {}) else (fmtOf ty.toNat).minmax false a b
  | .vmax _ _ _ _ _ _ ty => num ty fun a b _ i _ =>
      if isIntTy ty.toNat then (if i a < i b then b else a, {}) else (fmtOf ty.toNat).minmax true a b
  | .vabs _ sat _ _ _ _ ty => num ty fun a _ _ i v =>
      if isIntTy ty.toNat then operated ty sat (i a).natAbs (v a, false) else quietOr ty a (a % 2 ^ (typeBits ty - 1))
  | .vneg _ sat _ _ _ _ ty => num ty fun a _ _ i v =>
      if isIntTy ty.toNat then operated ty sat (-(i a)) (v a, false) else quietOr ty a (a ^^^ 2 ^ (typeBits ty - 1))
  | .vand _ _ _ _ _ _ ty => num ty fun a b _ _ _ => (a &&& b, {})
  | .vor _ _ _ _ _ _ ty => num ty fun a b _ _ _ => (a ||| b, {})
  | .vxor _ _ _ _ _ _ ty => num ty fun a b _ _ _ => (a ^^^ b, {})
  | .vnot _ _ _ _ _ ty => num ty fun a _ _ _ _ => (2 ^ typeBits ty - 1 - a, {})
  | .vshl _ im n _ _ _ _ _ ty => num ty fun a b _ _ _ => (a * 2 ^ (if im = 1 then n.toNat else b) % 2 ^ typeBits ty, {})
  | .vshr _ im n _ _ _ _ _ ty => num ty fun a b _ _ _ => (a / 2 ^ (if im = 1 then n.toNat else b), {})
  | .vsra _ im n _ _ _ _ _ ty => num ty fun a b _ _ _ =>
      (((BitVec.ofNat (typeBits ty) a).sshiftRight (if im = 1 then n.toNat else b)).toNat, {})
  | .vcmp _ cc _ _ _ _ _ ty =>
    some (typeBits ty, fun j =>
      let r : Bool × Flags := if cc = 7 then (seqLane 1 (src.getD 0 []) j = 1, {})
        else holdsCond cc (decodeTy ty.toNat (seqLane (typeBits ty) (src.getD 0 []) j)) (decodeTy ty.toNat (seqLane (typeBits ty) (src.getD 1 []) j))
      (if r.1 then 2 ^ typeBits ty - 1 else 0, r.2))
  | .vsel _ _ _ _ _ _ _ ty => num ty fun a b c _ _ => (if c ≠ 0 then a else b, {})
  | .vmov _ _ _ _ _ ty => num ty fun a _ _ _ _ => (a, {})
  | .vbcast _ gs lf k _ _ _ _ ty =>
    some (typeBits ty, fun _ => (if lf = 1 then seqLane (typeBits ty) (src.getD 0 []) k.toNat else (s.reg .X gs).toNat % 2 ^ typeBits ty, {}))
  | .viota _ gs step _ _ _ ty =>
    some (typeBits ty, fun j => ((((s.reg .X gs).toInt + j * step.toInt) % (2 ^ typeBits ty : Nat)).toNat, {}))
  | .vexp2 _ _ _ _ _ ty => num ty fun a _ _ _ _ => exp2Elem (fmtOf ty.toNat) a
  | .vlog2 _ _ _ _ _ ty => num ty fun a _ _ _ _ => log2Elem (fmtOf ty.toNat) a
  | .vrcpa _ _ _ _ _ ty => num ty fun a _ _ _ _ => rcpaElem (fmtOf ty.toNat) a
  | .vrsqa _ _ _ _ _ ty => num ty fun a _ _ _ _ => rsqaElem (fmtOf ty.toNat) a
  | _ => none
where
  /-- An operation on the elements j of va, vb and vc; `i` and `v` are the integer and the float that an element stands for. -/
  num (ty : BitVec 4) (f : Nat → Nat → Nat → (Nat → Int) → (Nat → Val) → Nat × Flags) : Option (Nat × (Nat → Nat × Flags)) :=
    let at' := fun (k j : Nat) => seqLane (typeBits ty) (src.getD k []) j
    some (typeBits ty, fun j => f (at' 0 j) (at' 1 j) (at' 2 j) (intOf ty.toNat) (fmtOf ty.toNat).decode)

/-- Node k of a heap-ordered tree with d levels below it, whose leaves stand at the lowest: node k joins nodes 2k and 2k + 1 (R234,
R271). -/
def heapNode {α : Type} (join : Nat → α → α → α × Flags) (leaf : Nat → α × Flags) : Nat → Nat → α × Flags
  | 0, k => leaf k
  | d + 1, k =>
    let a := heapNode join leaf d (2 * k)
    let b := heapNode join leaf d (2 * k + 1)
    let r := join k a.1 b.1
    (r.1, (a.2.or b.2).or r.2)

/-- The result of a tree over 2^n leaves, given by their positions. -/
def heapTree {α : Type} (n : Nat) (join : Nat → α → α → α × Flags) (leaf : Nat → α × Flags) : α × Flags :=
  heapNode join (fun k => leaf (k - 2 ^ n)) n 1

/-- The merge of two draw records at node k of a parameter block's tree (R270, R271). -/
def DrawPar.join (p : DrawPar) (k : Nat) (a b : DrawRec) : DrawRec × Flags :=
  let r := merge a b p.key (BitVec.ofNat 64 (p.sid * 2 ^ 32 + (p.nodeb + k) % 2 ^ 32))
  (r.1, { nv := r.2 })

/-- The merge of two masses, with no coin and no index (R275). -/
def joinMass (_ : Nat) (a b : DrawRec) : DrawRec × Flags := ((massMerge a b).1, { nv := (massMerge a b).2 })

/-- The width of a destination's elements, the new value of element j in sequential order (none: it is kept), and the flags, of the
instructions that convert, rearrange, look up, draw, select and score (R249 to R255, R271, R272, R276, R278). -/
def groupResult (s : State) (x : XSem) : Instr → Option (Nat × (Nat → Option Nat) × Flags) :=
  let A := x.count s
  let on := x.on s
  let src := fun k => (x.sources s).getD k []
  fun
  | .vcvt _ st _ _ _ _ ty =>
    let w := typeBits ty
    let v := typeBits st
    let from' := fun i => if w < v then wovenLane v (v / w) (src 0) i else seqLane v (src 0) i
    let cvt := fun i => convertTy ty.toNat st.toNat (from' i) none s.ctx.csr.sat
    let place := fun j => if v < w then j % epr w * (w / v) + j / epr w else j
    some (w, fun j => if on (place j) then some (cvt (place j)).1 else none, flagsOver A on fun i => (cvt i).2)
  | .vperm _ _ _ _ _ _ _ =>
    some (8, fun j => if on j then
      let i := wovenLane 16 2 (src 1) j
      some (if i / 2 ^ 15 % 2 = 1 then 0 else seqLane 8 (src 0) (i % 512)) else none, {})
  | .vnib _ _ _ _ _ ty =>
    some (8, fun j => if on j then some (intOf ty.toNat (seqLane 4 (src 0) j) % 256).toNat else none, {})
  | .vzip _ _ _ _ _ _ ty =>
    let w := typeBits ty
    some (w, fun j => if on (j / 2) then some (seqLane w (src (j % 2)) (j / 2)) else none, {})
  | .vunzip _ _ _ _ _ ty =>
    let w := typeBits ty
    some (w, fun j => if on (j % epr w) then some (seqLane w (src 0) (2 * (j % epr w) + j / epr w)) else none, {})
  | .vslide _ gs _ _ _ _ _ ty =>
    let w := typeBits ty
    let N := groupSize w A * epr w
    some (w, fun j => if on j then
      let t : Int := j + (s.reg .X gs).toInt
      some (if 0 ≤ t ∧ t < N then seqLane w (src 0) t.toNat else if N ≤ t ∧ t < 2 * N then seqLane w (src 1) (t.toNat - N) else 0)
      else none, {})
  | .vgath _ x32 n1 _ _ _ _ _ ty =>
    let w := typeBits ty
    let idx := seqLane (if x32 = 1 then 32 else 16) (src 1)
    some (w, fun j => if on j then some (if idx j < (n1.toNat + 1) * epr w then seqLane w (src 0) (idx j) else 0) else none, {})
  | .vscat _ x32 _ _ _ _ _ _ ty =>
    let idx := seqLane (if x32 = 1 then 32 else 16) (src 1)
    some (typeBits ty, fun k => ((List.range A).reverse.find? fun i => on i && idx i == k).map (seqLane (typeBits ty) (src 0)), {})
  | .vbmp _ orr _ _ _ _ _ ty =>
    let idx := seqLane (typeBits ty) (src 0)
    some (1, fun k => if (List.range A).any fun i => on i && idx i == k then some 1 else if orr = 1 then none else some 0, {})
  | .vdraw _ idx slot _ _ _ _ _ _ ty =>
    let w := typeBits ty
    let p := drawPar ((src 1).headD 0)
    let leaf := fun i => if on i then
        let r := drawLeaf ty.toNat p.beta (if idx = 1 then seqLane 32 (src 2) i else i) (seqLane w (src 0) i)
        (r.1, ({ nv := r.2 } : Flags))
      else (zeroRec 1, {})
    let r := if badBeta p.beta then (zeroRec 0b1001, { nv := true }) else heapTree (log2Up (groupSize w A * epr w)) p.join leaf
    some (128, fun j => if j = slot.toNat then some r.1.code else none, r.2)
  | .vdmerge _ tree _ _ _ _ =>
    let a := recordAt ((src 0).headD 0)
    let p := drawPar ((src (if tree = 1 then 1 else 2)).headD 0)
    if tree = 1 then
      let r := heapTree 5 p.join fun i => (a i, {})
      some (128, fun j => if j = 0 then some r.1.code else none, r.2)
    else
      let r := fun i => p.join i (a i) (recordAt ((src 1).headD 0) i)
      some (128, fun j => some (r j).1.code, flagsOver 32 (fun _ => true) fun i => (r i).2)
  | .seldrain _ th _ _ =>
    match s.ctx.xu.sel with
    | none => none
    | some u =>
      let short := heapTree 6 joinMass fun j => (match (u.list.take 64)[j]? with | some p => u.leaf p.1 | none => zeroRec 1, {})
      let tested := u.massv && (Val.fin false 0 0).lt (fmtF32.decode u.s.toNat)
      let slow := ((src 0).headD 0).getLsbD 11 || (tested && massBelow short.1 u.running th.toNat)
      some (64, fun j => some (
        if j = 0 then u.list.length + 2 ^ 11 * bit slow + 2 ^ 12 * u.nank + 2 ^ 13 * bit u.trunc + 2 ^ 14 * bit u.massv + 2 ^ 15 * bit u.invb
          + 2 ^ 32 * u.fed
        else if j = 1 then (if u.massv then u.m.toNat + 2 ^ 32 * u.s.toNat else 0xFF800000)
        else match u.list[j - 2]? with | some p => p.1.toNat + 2 ^ 32 * p.2.toNat | none => 0), if tested then short.2 else {})
  | .vdotq _ dim _ _ _ _ _ ty => scores A on src ty dim.toNat (fun a b => a * b) (fun a b => a.mul b)
  | .vl2q _ dim _ _ _ _ _ ty => scores A on src ty dim.toNat (fun a b => (a - b) ^ 2) fun a b =>
      let d := a.add b.neg
      let q := d.1.mul d.1
      (q.1, d.2 || q.2)
  | _ => none
where
  /-- The scores of A rows of D elements against a query: the sum of D terms, an integer modulo 2^32 or rounded once to FP32 (R278). -/
  scores (A : Nat) (on : Nat → Bool) (src : Nat → List Wide) (ty : BitVec 4) (D : Nat) (f : Int → Int → Int) (g : Val → Val → Val × Bool) :
      Option (Nat × (Nat → Option Nat) × Flags) :=
    let w := typeBits ty
    let a := fun j t => seqLane w (src 0) (j * D + t)
    let b := seqLane w (src 1)
    let score : Nat → Nat × Flags := fun j =>
      if isIntTy ty.toNat then ((((List.range D).map fun t => f (intOf ty.toNat (a j t)) (intOf ty.toNat (b t))).sum % (2 ^ 32 : Nat)).toNat, {})
      else fmtF32.finish none false (exactSum ((List.range D).map fun t => g (decodeTy ty.toNat (a j t)) (decodeTy ty.toNat (b t))))
    some (32, fun j => if on j then some (score j).1 else none, flagsOver A on fun j => (score j).2)

/-- The destination register, the result and the flags of the instructions that count and reduce (R256, R267). -/
def reduceResult (s : State) (x : XSem) : Instr → Option (BitVec 5 × Word × Flags)
  | .vpopc _ gs mm _ _ _ ty =>
    let a := seqLane (typeBits ty) ((x.sources s).getD 0 [])
    let counted := fun j => if mm = 1 then decide (j < x.count s) && s.ctx.topMask.getLsbD j else x.on s j && a j != 0
    some (gs, BitVec.ofNat 64 ((List.range (max (x.count s) 1024)).filter counted).length, {})
  | .vrsum _ gs _ _ _ ty => reduced gs ty (·.sum) (fun _ a b => addF32 a b) (fun o => o.getD (0x80000000, {})) id
  | .vrmax _ gs _ _ _ ty =>
    reduced gs ty (·.foldl max (intMin ty.toNat)) (best true) (fun o => (o.map (·.1), (o.map (·.2)).getD {})) (·.getD 0xFF800000)
  | .vrmin _ gs _ _ _ ty =>
    reduced gs ty (·.foldl min (intMax ty.toNat)) (best false) (fun o => (o.map (·.1), (o.map (·.2)).getD {})) (·.getD 0x7F800000)
  | _ => none
where
  /-- The greater or the lesser of two positions of which one, or both, may be absent. -/
  best (greater : Bool) (_ : Nat) (a b : Option Nat) : Option Nat × Flags :=
    match a, b with
    | some v, some w => (some (fmtF32.minmax greater v w).1, (fmtF32.minmax greater v w).2)
    | some v, none | none, some v => (some v, {})
    | none, none => (none, {})
  /-- A reduction: of integers by a list, of floats by a tree over their FP32 forms. -/
  reduced {α : Type} (gs : BitVec 5) (ty : BitVec 4) (f : List Int → Int) (join : Nat → α → α → α × Flags)
      (leaf : Option (Nat × Flags) → α × Flags) (last : α → Nat) : Option (BitVec 5 × Word × Flags) :=
    let a := seqLane (typeBits ty) ((x.sources s).getD 0 [])
    if isIntTy ty.toNat then
      some (gs, BitVec.ofInt 64 (f (((List.range (x.count s)).filter (x.on s)).map fun j => intOf ty.toNat (a j))), {})
    else
      let r := heapTree (log2Up (groupSize (typeBits ty) (x.count s) * epr (typeBits ty))) join fun j =>
        leaf (if x.on s j then some (fmtF32.round none false (decodeTy ty.toNat (a j))) else none)
      some (gs, BitVec.ofNat 64 (last r.1), r.2)

/-- The selection unit after an instruction that starts it or feeds it, and the flags (R274, R275, R277). -/
def selectResult (s : State) (x : XSem) : Instr → Option (Sel × Flags)
  | .selinit _ gs mass dir k1 ty =>
    let beta := (s.reg .X gs).setWidth 32
    some ({ ty, k := k1.toNat + 1, dir := dir = 1, mass := mass = 1, beta, m := 0xFF800000#32
            invb := mass = 1 && (badBeta beta.toNat || beta = 0x7F800000#32) }, {})
  | .selfeed _ gs _ _ _ ty =>
    s.ctx.xu.sel.map fun u =>
      let a := seqLane (typeBits ty) ((x.sources s).getD 0 [])
      let key := fun j => BitVec.ofNat 32 (if isIntTy ty.toNat then a j else (fmtF32.round none false (decodeTy ty.toNat (a j))).1)
      let u := ((List.range (x.count s)).filter (x.on s)).foldl (fun u j => u.offer (key j) ((s.reg .X gs).setWidth 32 + BitVec.ofNat 32 j)) u
      let feed := heapTree (log2Up (groupSize (typeBits ty) (x.count s) * epr (typeBits ty))) joinMass fun j =>
        (if x.on s j then u.leaf (key j) else zeroRec 1, {})
      let r := (massMerge u.running feed.1).1
      (if u.massv then { u with m := BitVec.ofNat 32 r.m, s := BitVec.ofNat 32 r.s } else u, {})
  | .selmrg _ n1 _ _ =>
    s.ctx.xu.sel.map fun u =>
      let d := seqLane 64 ((x.sources s).getD 0 [])
      let u := (List.range (min (d 0 % 512) (64 * (n1.toNat + 1) - 2))).foldl
        (fun u j => u.offer (BitVec.ofNat 32 (d (2 + j))) (BitVec.ofNat 32 (d (2 + j) / 2 ^ 32))) u
      let u := { u with
        nank := max u.nank (d 0 / 2 ^ 12 % 2), trunc := u.trunc || d 0 / 2 ^ 13 % 2 == 1, invb := u.invb || d 0 / 2 ^ 15 % 2 == 1 }
      let r := massMerge u.running (massRec (d 1 % 2 ^ 32) (d 1 / 2 ^ 32))
      if u.massv && d 0 / 2 ^ 14 % 2 == 1 then ({ u with m := BitVec.ofNat 32 r.1.m, s := BitVec.ofNat 32 r.1.s }, { nv := r.2 }) else (u, {})
  | _ => none

/-! ### The finishing engine (R292 to R302) -/

/-- An entry of n 16-byte granules is pushed to a queue. -/
def Ctx.entersGranules (c : Ctx) (q : BitVec 5) (n : Nat) (d : Wide) : Ctx := c.push q.toNat { full := true, len := n, data := d }

/-- A tile after an instruction that may release it. -/
def Ctx.mayRelease (c : Ctx) (rel : BitVec 1) (zt : BitVec 7) : Ctx :=
  if rel = 1 then { c with ar := { c.ar with tiles := c.ar.tiles.set {} zt.toNat { c.tile zt.toNat with st := .array } } } else c

/-- The dependence bits, the needs and the effect of F's instructions, each where the rules let it act (R294 to R301). -/
def finishResult (s : State) : Instr → Option (BitVec 4 × Needs × (State → State))
  | .zcnv p gs zt q ty rnd rel sb n1 off =>
    let n := n1.toNat + 1
    let r := (s.reg .F gs + off.setWidth 64).toNat
    let w := typeBits ty
    if (s.ctx.tile zt.toNat).st = .held ∧ n ≤ 64 / w ∧ r + n ≤ 64 then
      let (l, fl, fu) := convertRows ty.toNat (rnd = 1) (sb = 1) s.ctx.csr.sat ((s.ctx.tile zt.toNat).rows r n) s.ctx.fu
      some (p, { frees := [(q.toNat, 1)] }, fun t => t.modCtx fun c =>
        let c := ({ c with fu, csr := c.csr.raise fl } : Ctx)
        (c.entersGranules q (n * w / 2) (pack w l)).mayRelease rel zt)
    else none
  | .zrd p gs zt q rel n1 off =>
    let n := n1.toNat + 1
    let r := (s.reg .F gs + off.setWidth 64).toNat
    if (s.ctx.tile zt.toNat).st = .held ∧ n ≤ 2 ∧ r + n ≤ 64 then
      some (p, { frees := [(q.toNat, 1)] }, fun t => t.modCtx fun c =>
        (c.entersGranules q (16 * n) (pack 32 (((c.tile zt.toNat).rows r n).map (·.2)))).mayRelease rel zt)
    else none
  | .fsqa p zt q rel =>
    if (s.ctx.tile zt.toNat).st = .held then
      let l := (s.ctx.tile zt.toNat).squares
      some (p, { frees := [(q.toNat, 1)] }, fun t => t.modCtx fun c =>
        let c := ({ c with csr := c.csr.raise (l.foldl (fun f x => f.or x.2) {}) } : Ctx)
        (c.entersGranules q 16 (pack 32 (l.map (·.1)))).mayRelease rel zt)
    else none
  | .zclr p zt =>
    if (s.ctx.tile zt.toNat).st = .held then
      some (p, {}, fun t => t.modCtx fun c => { c with ar := { c.ar with
        tiles := c.ar.tiles.set {} zt.toNat { c.tile zt.toNat with z := [], live := true, st := .array } } })
    else none
  | .fprtTile p zt =>
    if (s.ctx.tile zt.toNat).st = .held then
      some (p, {}, fun t => t.modCtx fun c => c.absorb 14 (((c.tile zt.toNat).rows 0 64).map fun e => toBytes e.2 4).flatten 16384)
    else none
  | .fwait p gs zt =>
    let x := s.ctx.tile zt.toNat
    if x.st = .ready then
      some (p, { waits := [(false, .array)] }, fun t => (t.modCtx fun c => { c with ar := { c.ar with
        tiles := c.ar.tiles.set {} zt.toNat { x with st := .held } } }).setReg .F gs x.status)
    else none
  | .zcnvTerm p q | .zcompTerm p q | .fmvTerm p q =>
    some (p, { frees := [(q.toNat, 1)] }, fun t => t.modCtx fun c => c.push q.toNat { full := true, term := true })
  | .fprtEmit p q =>
    some (p, { frees := [(q.toNat, 1)] }, fun t => t.modCtx fun c =>
      let d := completionRecord c.fu.ecnt 0 0 c.fu.fp.bytes c.fu.fp
      ({ c with fu := { c.fu with fp := {}, ecnt := c.fu.ecnt + 1 } } : Ctx).entersGranules q 4 (BitVec.ofNat 4096 (ofBytes d)))
  | .zcomp p fq q ty => popping s p fq [(q.toNat, 2)] fun d c =>
      let b := upTo 512 fun i => d.extractLsb' (8 * i) 8
      let x := vbcEncode ty.toNat (b.take 256)
      let y := vbcEncode ty.toNat (b.drop 256)
      (c.entersGranules q (x.length / 16) (BitVec.ofNat 4096 (ofBytes x))).entersGranules q (y.length / 16) (BitVec.ofNat 4096 (ofBytes y))
  | .fprtPass p fq q ty => popping s p fq [(q.toNat, 1)] fun d c =>
      (c.absorb ty.toNat (upTo 512 fun i => d.extractLsb' (8 * i) 8) 512).entersGranules q 32 d
  | .fscl p fq => popping s p fq [] fun d c => { c with fu := { c.fu with
      cs := SMap.setList [] 0x3F800000#32 0 (upTo 64 fun j => d.extractLsb' (32 * j) 32)
      cb := SMap.setList [] 0 0 (upTo 64 fun j => d.extractLsb' (2048 + 32 * j) 32) } }
  | .fsclRng p fq => popping s p fq [] fun d c => { c with fu := { c.fu with key := d.extractLsb' 0 64, ctr := d.extractLsb' 64 64 } }
  | .fmv p fq q len => popping s p fq [(q.toNat, 1)] fun d c => c.entersGranules q (len.toNat + 1) d
  | _ => none
where
  /-- An instruction that takes the entry at the head of fq. -/
  popping (s : State) (p : BitVec 4) (fq : BitVec 1) (frees : List (Nat × Nat)) (f : Wide → Ctx → Ctx) :
      Option (BitVec 4 × Needs × (State → State)) :=
    match s.ctx.queue (4 + fq.toNat) with
    | e :: r => some (p, { reads := [(4 + fq.toNat, 1)], frees }, fun t => t.modCtx fun c => f e.data (c.setQueue (4 + fq.toNat) r))
    | [] => none

/-! ### The walker (R42 to R44) -/

/-- Index d of a Morton code over n dimensions with trip counts T: dimension d has ceil(log2 T[d]) bits, and bit b of it stands in the code
behind all bits of lower levels and those of level b of the dimensions before it (R44). -/
def mortonAt (n : Nat) (T : Nat → Nat) (code d : Nat) : Nat :=
  let has := fun (j b : Nat) => b < Nat.clog 2 (T j)
  let place := fun (b : Nat) =>
    (∑ c ∈ Finset.range b, ((Finset.range n).filter fun j => has j c).card) + ((Finset.range d).filter fun j => has j b).card
  ∑ b ∈ Finset.range (Nat.clog 2 (T d)), code / 2 ^ place b % 2 * 2 ^ b

/-- A Morton code whose indices all lie in range is an iteration (R44). -/
def mortonIn (n : Nat) (T : Nat → Nat) (code : Nat) : Prop := ∀ d, d < n → mortonAt n T code d < T d

/-- The used indices i of iteration k of a loop-nest record, in a Morton walk those of the code (R43, R44). -/
def iterationAt (r : BitVec 1024) (k code : Nat) (i : Nat → Nat) : Prop :=
  let n := recNdim r
  let T := recTrip r
  (recWalk r = 2 → ∀ d, d < n → i d = mortonAt n T code d) ∧
  (recWalk r ≠ 2 → ∀ d, d < n →
    let c := k / (if recWalk r = 1 then ∏ j ∈ Finset.range d, T j else ∏ j ∈ Finset.Ico (d + 1) n, T j) % T d
    i d = if recWalk r = 3 ∧ (∑ j ∈ Finset.range d, i j) % 2 = 1 then T d - 1 - c else c)

/-! ### The ladles (R184 to R192) -/

/-- Ladle l runs the chain of r, may act, and stands at an entry of an OP with no reserved bit set, every earlier COPY and FPRINT being
complete. -/
def State.atEntry (s : State) (l : Nat) (r : Run) (op : Nat) : Prop :=
  (s.ladle l).run = some r ∧ (s.ladle l).halted = false ∧ (s.ladle l).fenced = false ∧ (s.ladle l).test = none ∧ r.abandoned = false
    ∧ r.copies = [] ∧ r.dropped = none ∧ s.entryOp r.chain r.idx = some op ∧ s.entryReserved r.chain r.idx op = false

/-- Ladle l runs the chain of r, may act, and has begun the one COPY or FPRINT o; it stands at no COPY that could begin beside it. -/
def State.atCopy (s : State) (l : Nat) (r : Run) (o : CopyOp) : Prop :=
  (s.ladle l).run = some r ∧ (s.ladle l).halted = false ∧ (s.ladle l).fenced = false ∧ (s.ladle l).test = none ∧ r.abandoned = false
    ∧ r.copies = [o] ∧ r.dropped = none ∧ (o.issued = true → s.entryOp r.chain r.idx ≠ some 1)

/-- n granules of 16 bytes that an entry of ladle l reads from `a` on: of its core's scratchpad, whose bound they do not pass, or at the
tier (R186). -/
def State.sourceReads (s : State) (l : Nat) (c : Chain) (o : CopyOp) (a n : Nat) (d : List Byte) (u : State) : Prop :=
  if o.dw0.getLsbD 20 then
    a + 16 * n ≤ 786432 ∧ d = (s.core (l / 2 * 16 + bits o.dw0 33 30)).ctx.spadBytes a (16 * n) ∧ u = s
  else ∃ x, ((List.range n).mapM fun i => ladleRead l c (a + 16 * i) 16 (o.len - o.off) : Act (List (List Byte))) s = .ok (x, u)
    ∧ d = x.flatten

/-- The next 16 bytes that a COPY writes, and the COPY after them: of its source in order, or, with XP, of the blocks there, each decoded
when the data of the one before it are used up (R178, R186). -/
def State.copyGives (s : State) (l : Nat) (c : Chain) (o o' : CopyOp) (d : List Byte) (u : State) : Prop :=
  let ty := bits o.dw0 28 25
  if o.dw0.getLsbD 18 then
    (o.buf ≠ [] ∧ o' = { o with buf := o.buf.drop 16 } ∧ d = o.buf.take 16 ∧ u = s) ∨
    (o.buf = [] ∧ ∃ h x y t, s.sourceReads l c o (o.src + o.soff) 1 h t ∧ vbcHead ty h = some x
      ∧ t.sourceReads l c o (o.src + o.soff + 16) (x.payload ty / 16) y u
      ∧ o' = { o with buf := (x.data ty y).drop 16, soff := o.soff + x.len ty } ∧ d = (x.data ty y).take 16)
  else s.sourceReads l c o (o.src + o.off) 1 d u ∧ o' = o

/-- The next block of a COPY with XP is malformed, or passes the scratchpad's bound (R186). -/
def State.copyEnds (s : State) (l : Nat) (c : Chain) (o : CopyOp) (u : State) : Prop :=
  let ty := bits o.dw0 28 25
  let a := o.src + o.soff
  o.dw0.getLsbD 18 = true ∧ o.buf = [] ∧ ((o.dw0.getLsbD 20 = true ∧ 786432 < a + 16 ∧ u = s) ∨
    (∃ h, s.sourceReads l c o a 1 h u ∧ (vbcHead ty h = none ∨
      ∃ x, vbcHead ty h = some x ∧ o.dw0.getLsbD 20 = true ∧ 786432 < a + 16 + 16 * (x.payload ty / 16))))

/-- A chain with a further failing entry: it names the earliest one (R190, R191). -/
def Run.failing (r : Run) (status idx : Nat) : Option (Nat × Nat) :=
  match r.bad with
  | none => some (status, idx)
  | some e => if idx < e.2 then some (status, idx) else some e

/-- What ladle l does leaves the run r, and of memory, of the other ladles and of every core nothing changed. -/
def State.ladleOnly (s t : State) (l : Nat) (r : Run) : Prop :=
  t.ladle l = { s.ladle l with run := some r } ∧ t.mem = s.mem ∧ t.cores = s.cores ∧ ∀ m, m ≠ l → t.ladle m = s.ladle m

/-! ### Save slots (R362, R363, Table 19-8) -/

/-- In `t` the save slot at an address of the D-stack holds a work's state c and the number of its buffered stores, in the parts whose
layout Table 19-8 gives; a queue's head stands in its slot 0 there (log 31). -/
def State.slotHolds (t : State) (addr : Nat) (c : Ctx) (sb : List Store) : Prop :=
  let at' := fun (o : Nat) => t.mem.get 0 (keyOf 1 0 (addr + o))
  let word := fun (o : Nat) => ofBytes (upTo 8 fun i => at' (o + i))
  word 0xFC0 = sb.length % 2 ^ 64 ∧
  (∀ x : Nat × Engine × Nat, x ∈ [(0x4000, c.c, 1024), (0x6000, c.a, 1024), (0x8000, c.x, 5120), (0x12000, c.f, 1024)] →
    ∀ i, i < x.2.2 → word (x.1 + 8 * i) = (x.2.1.spill.get 0 i).toNat) ∧
  (∀ n b, n < 32 → b < 512 → at' (0x14000 + 512 * n + b) = (c.xu.v.get 0 n).extractLsb' (8 * b) 8) ∧
  (∀ q n b, q < 10 → n < 32 → b < 512 →
    at' (0x18000 + 0x4000 * q + 512 * n + b) = ((c.queue q).getD n default).data.extractLsb' (8 * b) 8) ∧
  (∀ i, i < 786432 → at' (0x40000 + i) = c.spad.get 0 i) ∧
  (∀ n i b, n < 128 → (c.tile n).live = true → i < 4096 → b < 4 →
    at' (0x100000 + 0x4000 * n + 4 * i + b) = ((c.tile n).z.get 0 i).extractLsb' (8 * b) 8)

/-! ### Steps and words -/

/-- The turn that the next step takes, and the state in which it begins: the first of the agenda, or the one that Config leaves open
(log 1). -/
def State.firstTurn (s : State) : Turn × State :=
  match s.agenda with
  | t :: r => (t, { s with agenda := r })
  | [] => (Config.schedule s.turnNo, { s with turnNo := s.turnNo + 1 })

/-- The bits of a host register that a write of 1 clears (Table 0-3's W1C). -/
def HostReg.clears : HostReg → Word
  | .wq _ 5 => 0x400000
  | .part _ 2 => 0x4
  | .part _ 3 => 0x3
  | .part _ 5 => 0x100
  | .part _ 13 => 0x100100
  | .part _ 17 => 0x40000
  | .part _ 18 | .wsem _ _ | .spanstat _ => 0x10000
  | .linkstat _ => 0x1
  | _ => 0

end Sys2Proof.Machine

section

open Sys2Proof Sys2Proof.Machine

/-- ADD, SUB, MUL, MULH, AND, OR, XOR, SHL, SHR, SRA, SLT, SLTN, MIN, MAX, MOV, ADDI, ANDI, ORI, XORI, SHLI, SHRI, SRAI,
LI and SPL, on any engine, complete: gd holds the result of Table 4-7 (a write to g0 is discarded and g0 reads zero), no
other register changes, and neither does anything else but the engine's program counter and walk count, the tokens and the
event counters. -/
def Obligations.SharedRegisterInstructionsComplete : Prop :=
  ∀ (s : State) (i : Instr) (e : Eng) (p : BitVec 4) (gd : BitVec 5) (v : Word),
    registerResult s i = some (e, p, gd, v) → Ready i e p {} s = true →
    ∃ t, exec i s = .next t ∧ OnlyEngine e s t
      ∧ (∀ r, t.reg e r = if r = 0 then 0 else if r = gd then v else s.reg e r)
      ∧ Passed e (encode i).length (s.nextPc e (encode i).length) (s.nextLoops e (encode i).length) s t
      ∧ (t.ctx.eng e).ras = (s.ctx.eng e).ras ∧ (t.ctx.eng e).spill = (s.ctx.eng e).spill

/-- NOP, B, BEQ, BNE, BLT, BGE, BLO, BHS, CALL, RET, BRKL, LOOP, LOOPI, SPS, SVRA and LDRA, on any engine, complete: the
engine is what `engineResult` says, its walk count one word further, and nothing else of the device changes but the tokens
and the event counters. CALL asks for fewer than 16 return addresses, RET for one that is a first word, BRKL for an active
loop, a hardware loop for a free place and an end word that is a first word, SVRA and LDRA for enough addresses or room. -/
def Obligations.ControlTransfersComplete : Prop :=
  ∀ (s : State) (i : Instr) (e : Eng) (p : BitVec 4) (g : Engine),
    engineResult s i = some (e, p, g) → Ready i e p {} s = true →
    ∃ t, exec i s = .next t ∧ OnlyEngine e s t
      ∧ t.ctx.eng e = { g with wc := (s.ctx.eng e).wc + 1, prog := none, passed := s.now }

/-- CALL with 16 return addresses, RET with none, BRKL with no active loop, a LOOP or LOOPI that is to run with four loops active,
SVRA of more addresses than there are and LDRA of more than there is room for trap, before any wait and with nothing taken: CALL
and LDRA with class 3 cause 1, RET and SVRA with class 3 cause 2, LOOP and LOOPI with class 4 cause 1, BRKL with class 4 cause
2. A tile that is not HELD makes ZCNV, ZRD, ZCLR, FSQA and FPRT.tile trap with class 9 cause 1, before any wait, and rows out of
range ZCNV and ZRD with class 9 cause 2: the tile and the queues are untouched. -/
def Obligations.LimitChecksTrap : Prop :=
  (∀ (s : State) (i : Instr) (e : Eng) (c n : Nat), s.cc.runnable e = true → (s.ctx.eng e).prog = none →
    encodingCause i s.cc e = none →
    (match i with
      | .call t _ _ => e = t ∧ 16 ≤ (s.ctx.eng t).ras.length ∧ c = 3 ∧ n = 1
      | .ret t _ => e = t ∧ (s.ctx.eng t).ras = [] ∧ c = 3 ∧ n = 2
      | .brkl t _ => e = t ∧ s.ctx.seenLoops t = [] ∧ c = 4 ∧ n = 2
      | .loop t _ ga _ => e = t ∧ 4 ≤ (s.ctx.eng t).loops.length ∧ (s.reg t ga).toNat % 2 ^ 32 ≠ 0 ∧ c = 4 ∧ n = 1
      | .loopi t _ k _ => e = t ∧ 4 ≤ (s.ctx.eng t).loops.length ∧ k ≠ 0 ∧ c = 4 ∧ n = 1
      | .svra t _ k _ => e = t ∧ (s.ctx.eng t).ras.length < k.toNat ∧ c = 3 ∧ n = 2
      | .ldra t _ k _ => e = t ∧ 16 < (s.ctx.eng t).ras.length + k.toNat ∧ c = 3 ∧ n = 1
      | _ => False) →
    exec i s = .next (s.stopped e (.trap c n 0))) ∧
  (∀ (s : State) (p : BitVec 4) (gs q : BitVec 5) (zt : BitVec 7) (ty : BitVec 4) (rnd : BitVec 2) (rel sb : BitVec 1) (n1 off : BitVec 6)
    (i : Instr), i ∈ [Instr.zcnv p gs zt q ty rnd rel sb n1 off, .zrd p gs zt q rel n1 off, .zclr p zt, .fsqa p zt q rel, .fprtTile p zt] →
    s.cc.runnable .F = true → (s.ctx.eng .F).prog = none → encodingCause i s.cc .F = none →
    ((s.ctx.tile zt.toNat).st ≠ .held → exec i s = .next (s.stopped .F (.trap 9 1 0))) ∧
    ((s.ctx.tile zt.toNat).st = .held → 64 < (s.reg .F gs + off.setWidth 64).toNat + n1.toNat + 1 →
      i ∈ [Instr.zcnv p gs zt q ty rnd rel sb n1 off, .zrd p gs zt q rel n1 off] → exec i s = .next (s.stopped .F (.trap 9 2 0))))

/-- NOP, WAITT and SIGT complete, and move tokens: each FIFO loses the tokens that the dependence bits and WAITT pop and gains those
that the dependence bits and SIGT push, its reservations are as before, and nothing else changes but the engine's program
counter and walk count: no register, return address or spill word, and the engine is neither done nor held. An instruction that finds too
few tokens in a FIFO that it pops, or no room in one that it pushes to, waits, and takes nothing: WAITT, SIGT and NOP leave the state as it
is but for the note of the wait; on C, behind an NGO that waits, the note is of that wait (R141). -/
def Obligations.TokenInstructionsComplete : Prop :=
  (∀ (s : State) (i : Instr) (e : Eng) (p : BitVec 4) (n : Needs), tokenResult i = some (e, p, n) → Ready i e p n s = true →
    ∃ t, exec i s = .next t ∧ OnlyEngine e s t
      ∧ Passed e 1 (s.nextPc e 1) (s.nextLoops e 1) s t
      ∧ (∀ f, t.ctx.fifo.get 0 f + total (n.allPops e p) f = s.ctx.fifo.get 0 f + total (n.allPushes e p) f
          ∧ t.ctx.resv.get 0 f = s.ctx.resv.get 0 f)
      ∧ t.ctx.eng e = { s.ctx.eng e with pc := (t.ctx.eng e).pc, loops := (t.ctx.eng e).loops, wc := (t.ctx.eng e).wc, passed := s.now }) ∧
  (∀ (s : State) (i : Instr) (e : Eng) (p : BitVec 4) (n : Needs), tokenResult i = some (e, p, n) →
    s.cc.runnable e = true → (s.ctx.eng e).prog = none → encodingCause i s.cc e = none →
    ((∃ f, s.ctx.fifo.get 0 f < total (n.allPops e p) f)
      ∨ ∃ f, 63 < s.ctx.fifo.get 0 f + s.ctx.resv.get 0 f + total (n.allPushes e p) f ∧ total (n.allPushes e p) f ≠ 0) →
    exec i s = .next { s with quiet := (s.quiet.filter fun q => !(q.1 = s.cur && q.2.1 = e))
      ++ [(s.cur, e, if e = .C ∧ s.ctx.ar.start.isSome = true then .array else .token)] })

/-- BTK completes when the queue has a filled entry at its head: a terminal head is removed and the branch taken; a data head stays
and the engine goes on. QDROP completes when the queue holds the filled entries that it discards: with a count n, the first n of
them, terminal or not; with a count of 0, those through the first terminal entry. What is behind them stays. -/
def Obligations.QueueTestsComplete : Prop :=
  (∀ (s : State) (t : Eng) (p : BitVec 4) (q : BitVec 5) (imm : BitVec 14) (x : Slot) (r : List Slot),
    Ready (.btk t p q imm) t p { tests := [(q.toNat, 1)] } s = true → s.ctx.queue q.toNat = x :: r →
    exec (.btk t p q imm) s = .next
      (if x.term then
        (((s.issued t p { tests := [(q.toNat, 1)] } 1).modCtx fun c => c.setQueue q.toNat r).retired (.btk t p q imm) t p
          { tests := [(q.toNat, 1)] } (.branch ((s.ctx.eng t).pc + imm.toInt).toNat))
      else (s.issued t p { tests := [(q.toNat, 1)] } 1).retired (.btk t p q imm) t p { tests := [(q.toNat, 1)] } .seq)) ∧
  (∀ (s : State) (t : Eng) (p : BitVec 4) (q : BitVec 5) (imm : BitVec 14) (gone rest : List Slot),
    Ready (.qdrop t p q imm) t p {} s = true → s.budget = none → s.ctx.queue q.toNat = gone ++ rest →
    (∀ x ∈ gone, x.full = true) →
    (if imm = 0 then ∃ l x, gone = l ++ [x] ∧ x.term = true ∧ ∀ y ∈ l, y.term = false else gone.length = imm.toNat) →
    exec (.qdrop t p q imm) s = .next
      (((s.issued t p {} 1).modCtx fun c => c.setQueue q.toNat rest).retired (.qdrop t p q imm) t p {} .seq))

/-- DONE of an engine that is not the last one of its core ends that engine's walk: it is done, and no other engine is touched. The
last DONE of a core without residue, and without an error in its token counts, does the same, and work that is not speculative stays on
the core as it is; speculative work whose array is idle parks: it leaves into the save slot that it finds, with its chain. With residue the
work is held at that DONE with a trap of class 10 cause 3. YIELD completes. In a segment with a free save slot that no earlier work waits for, on a core that can be
left, the instruction retires and the segment leaves its core, to be offered again; in any other work, or without a slot, only
its dependence bits act, and NOSLOT is set for a segment. -/
def Obligations.DoneAndYieldComplete : Prop :=
  (∀ (s : State) (t : Eng) (p : BitVec 4), Ready (.done t p) t p {} s = true →
    s.cc.badTokens = false →
    let u := (s.issued t p {} 1).retire t p {} 1 .done
    (u.ctx.eng t).done = true ∧ (∀ f, f ≠ t → u.ctx.eng f = s.ctx.eng f) ∧
    (u.ctx.live ≠ [] → exec (.done t p) s = .next u.stir) ∧
    (u.ctx.live = [] → u.ctx.residue = false → s.work.spec = false → exec (.done t p) s = .next u.stir) ∧
    (u.ctx.live = [] → u.ctx.residue = false → s.work.spec = true → u.ctx.ar.idle = false → exec (.done t p) s = .next u.stir) ∧
    (u.ctx.live = [] → u.ctx.residue = false → s.work.spec = true → u.ctx.ar.idle = true →
      exec (.done t p) s = .next (u.startLeave s.cur .parked).stir ∧
      ((s.slotFor s.work.part s.leaveNo).isSome = true → u.cc.canLeave = true → ∃ v g, exec (.done t p) s = .next v
        ∧ (v.core s.cur).work = none ∧ v.off = s.off ++ [g] ∧ g.st = .parked ∧ g.work.id = s.work.id ∧ g.work.chain = s.work.chain
        ∧ g.work.sb = s.work.sb ∧ g.ctx = some u.ctx.saved ∧ ∀ k, k ≠ s.cur → v.core k = s.core k)) ∧
    (u.ctx.live = [] → u.ctx.residue = true → exec (.done t p) s = .next (u.takeTrap s.cur t 10 3 0).stir)) ∧
  (∀ (s : State) (p : BitVec 4), Ready (.yield p) .C p {} s = true →
    let u := s.issued .C p {} 1
    (s.work.kind = .segment → (s.slotFor s.work.part s.leaveNo).isSome = true →
      exec (.yield p) s = .next (((u.retire .C p {} 1 .seq).startLeave s.cur .saved).stir)) ∧
    (s.work.kind = .segment → s.slotFor s.work.part s.leaveNo = none →
      exec (.yield p) s = .next
        ((u.modPart s.work.part fun q => { q with savecfg := putBits q.savecfg 16 16 1 }).retired (.yield p) .C p {} .seq)) ∧
    (s.work.kind ≠ .segment → exec (.yield p) s = .next (u.retired (.yield p) .C p {} .seq)))

/-- CSRR, CSRW, CSRS and CSRC complete. CSRR writes gd with the CSR as it reads once the instruction has been counted;
CSRW writes the CSR with gd; CSRS and CSRC write its RW bits, set or cleared by those of gd, and none of its others. -/
def Obligations.CsrInstructionsComplete : Prop :=
  ∀ (s : State) (p : BitVec 4) (gd : BitVec 5) (n : BitVec 14),
    let u := s.issued .C p {} 1
    let wr := fun (v : Word) => u.modCtx fun c => { c with csr := c.csr.write n.toNat v }
    (Ready (.csrr p gd n) .C p {} s = true →
      exec (.csrr p gd n) s = .next ((u.setReg .C gd (u.readCsr n.toNat)).retired (.csrr p gd n) .C p {} .seq)) ∧
    (Ready (.csrw p gd n) .C p {} s = true →
      exec (.csrw p gd n) s = .next ((wr (s.reg .C gd)).retired (.csrw p gd n) .C p {} .seq)) ∧
    (Ready (.csrs p gd n) .C p {} s = true →
      exec (.csrs p gd n) s = .next ((wr ((u.readCsr n.toNat ||| s.reg .C gd) &&& csrRw n.toNat)).retired (.csrs p gd n) .C p {} .seq)) ∧
    (Ready (.csrc p gd n) .C p {} s = true →
      exec (.csrc p gd n) s = .next
        ((wr ((u.readCsr n.toNat &&& ~~~(s.reg .C gd)) &&& csrRw n.toNat)).retired (.csrc p gd n) .C p {} .seq))

/-- A CSR write and the read after it: the RW bits read back as written (a SLIPCTL WIN of 1 as 2), every other CSR reads
as before, and a CSR without RW bits does too. A 1 written to a W1C bit clears it, a 1 written to a W1S bit sets it, and a 0 written to
either leaves it; of the registers of Table 5-5 below the event counters, the bits that are neither read as before (R10). -/
def Obligations.CsrWriteReadsBack : Prop :=
  ∀ (s : State) (n : Nat) (v : Word), isCsr n = true →
    ((s.writeCsr n v).readCsr n &&& csrRw n
      = if n = 0x040 ∧ v &&& 0xFFFF = 1 then 2 else v &&& csrRw n) ∧
    (∀ m, isCsr m = true → m ≠ n → (s.writeCsr n v).readCsr m = s.readCsr m) ∧
    (csrRw n = 0 → (s.writeCsr n v).readCsr n = s.readCsr n) ∧
    (s.ctx.csr.off < 2 ^ 14 → s.ctx.csr.win < 2 ^ 16 →
      (s.writeCsr n v).readCsr n &&& csrW1c n = s.readCsr n &&& csrW1c n &&& ~~~v ∧
      (s.writeCsr n v).readCsr n &&& csrW1s n = (s.readCsr n ||| v) &&& csrW1s n ∧
      (n < 0x100 → (s.writeCsr n v).readCsr n &&& ~~~(csrRw n ||| csrW1c n ||| csrW1s n)
        = s.readCsr n &&& ~~~(csrRw n ||| csrW1c n ||| csrW1s n)))

/-- FADD, FSUB, FMUL, FMIN, FMAX, FEQ, FLT, FLE, FFMA and FCVT complete: gd holds the result, zero-extended (of FCVT to
a signed integer type, sign-extended); the flags of FSTAT gather those raised; SAT and every other CSR but the event
counters, and everything else outside the C engine, stay. -/
def Obligations.FloatInstructionsComplete : Prop :=
  ∀ (s : State) (i : Instr) (p : BitVec 4) (gd : BitVec 5) (v : Word) (f : Flags),
    floatResult s i = some (p, gd, v, f) → Ready i .C p {} s = true →
    ∃ t, exec i s = .next t ∧ OnlyCore s t
      ∧ (∀ r, t.reg .C r = if r = 0 then 0 else if r = gd then v else s.reg .C r)
      ∧ Passed .C (encode i).length (s.nextPc .C (encode i).length) (s.nextLoops .C (encode i).length) s t
      ∧ t.ctx = { s.ctx with c := t.ctx.c, fifo := t.ctx.fifo, resv := t.ctx.resv, csr := t.ctx.csr }
      ∧ t.ctx.csr = { s.ctx.csr with
          nv := s.ctx.csr.nv || f.nv, of := s.ctx.csr.of || f.of, uf := s.ctx.csr.uf || f.uf, nx := s.ctx.csr.nx || f.nx
          evcnt := t.ctx.csr.evcnt, lifted := t.ctx.csr.lifted }

/-- Rounding to nearest even (R229): the integer is at most half a unit from the exact value, an exact tie gives an even one, and
the result is called exact just when it is. Sums and products of finite values are exact: no bit is lost before the one rounding
(R125, R229). -/
def Obligations.ArithmeticIsExactThenRounded : Prop :=
  (∀ (m sh : Nat),
    let i := (roundShift m sh none).1
    2 * (i * 2 ^ sh) ≤ 2 * m + 2 ^ sh ∧ 2 * m ≤ 2 * (i * 2 ^ sh) + 2 ^ sh
      ∧ (2 * (m % 2 ^ sh) = 2 ^ sh → i % 2 = 0)
      ∧ ((roundShift m sh none).2 = true ↔ i * 2 ^ sh = m)) ∧
  (∀ x y z : Val, x.isFin = true → y.isFin = true → z.isFin = true →
    (x.add y).1.toRat = x.toRat + y.toRat ∧ (x.mul y).1.toRat = x.toRat * y.toRat
      ∧ (x.fma y z).1.toRat = x.toRat * y.toRat + z.toRat
      ∧ (x.add y).2 = false ∧ (x.mul y).2 = false ∧ (x.fma y z).2 = false
      ∧ (x.lt y = true ↔ x.toRat < y.toRat) ∧ (x.feq y = true ↔ x.toRat = y.toRat))

/-- Every encoding of a format that is no NaN, rounded after it has been read, is itself again, and raises nothing: the
value read from it is the one that it stands for, infinities and subnormal numbers among them. -/
def Obligations.FormatsRoundTrip : Prop :=
  ∀ f ∈ formats, ∀ v, v < 2 ^ f.w → (f.decode v).isNan = false → ∀ mode sat, f.round mode sat (f.decode v) = (v, {})

/-- LD completes: the address is aligned to the width and translates to a location that can be read, and gd receives the bytes
that the core reads there, sign- or zero-extended as the size code says. ST completes: the address is aligned and translates,
the peer that holds it is not lost, and the store buffer has room and is not still to be emptied; the low bytes of gb join the tail of the store buffer, and no
byte of memory changes at the store itself. A core reads its own store before it is performed: after a store of n bytes to a
location has joined the buffer, a byte that it covers reads as the store's, and every other byte as before. -/
def Obligations.LoadsAndStoresComplete : Prop :=
  (∀ (s u : State) (p : BitVec 4) (gd ga : BitVec 5) (sz : BitVec 4) (off : BitVec 32) (l : List Byte),
    Ready (.ld p gd ga sz off) .C p {} s = true → s.offAddr ga off % accessWidth sz = 0 →
    s.serves p 2 (s.offAddr ga off) (accessWidth sz) l u →
    exec (.ld p gd ga sz off) s = .next
      ((u.setReg .C gd (extended (accessSigned sz) l)).retired (.ld p gd ga sz off) .C p {} .seq)) ∧
  (∀ (s u : State) (p : BitVec 4) (ga gb : BitVec 5) (sz : BitVec 4) (off : BitVec 32) (key : Nat),
    Ready (.st p ga gb sz off) .C p {} s = true → s.offAddr ga off % accessWidth sz = 0 →
    s.reaches p 2 (s.windowNow (s.offAddr ga off)) accWrite (accessWidth sz) key u → u.lostPeer key = false →
    s.work.sb.length < 16384 → (s.ctx.eng .C).stuck = false →
    let st : Store :=
      { va := s.windowNow (s.offAddr ga off), key, size := accessWidth sz
        data := BitVec.ofNat 256 ((s.reg .C gb).toNat % 2 ^ (8 * accessWidth sz)), eng := .C, pc := (s.ctx.eng .C).pc
        part := u.work.part, asid := u.work.asid }
    let t := ((u.modWork fun w => { w with sb := w.sb ++ [st] }).retired (.st p ga gb sz off) .C p {} .seq)
    exec (.st p ga gb sz off) s = .next t ∧ ∀ a, t.mem.get 0 a = u.mem.get 0 a) ∧
  (∀ (s : State) (st : Store) (key : Nat), s.cc.work.isSome = true →
    (s.modWork fun w => { w with sb := w.sb ++ [st] }).snapByte key
      = if st.key ≤ key ∧ key < st.key + st.size then st.data.extractLsb' (8 * (key - st.key)) 8 else s.snapByte key)

/-- A load or a store of an address that is not a multiple of its width traps with class 2 cause 1, the address in TVAL, and
accesses nothing; an atomic of such an address does too. -/
def Obligations.MisalignedAccessTraps : Prop :=
  ∀ (s : State) (p : BitVec 4) (gd ga : BitVec 5) (sz : BitVec 4) (off : BitVec 32),
    let a := s.offAddr ga off
    (a % accessWidth sz ≠ 0 → Ready (.ld p gd ga sz off) .C p {} s = true →
      exec (.ld p gd ga sz off) s = .next (s.stopped .C (.trap 2 1 (BitVec.ofNat 64 a)))) ∧
    (a % accessWidth sz ≠ 0 → Ready (.st p ga gd sz off) .C p {} s = true →
      exec (.st p ga gd sz off) s = .next (s.stopped .C (.trap 2 1 (BitVec.ofNat 64 a)))) ∧
    (∀ i fn rel acq gd gb w, amoOf i = some (fn, rel, acq, p, gd, ga, gb, w) → Ready i .C p {} s = true →
      (s.reg .C ga).toNat % (if w = 1 then 4 else 8) ≠ 0 →
      exec i s = .next (s.stopped .C (.trap 2 1 (s.reg .C ga))))

/-- Every atomic completes on a core that has nothing to publish: one step reads the old value, writes the new one to the
location (AMOCAS only when the old value is gd's), and puts the old value, sign-extended from 32 bits, into gd; the act
joins the effect log, and an acquiring one makes a refresh of the snapshot due. No byte outside the location changes in that step. -/
def Obligations.AtomicsComplete : Prop :=
  ∀ (s u : State) (i : Instr) (fn : Nat) (rel acq : Bool) (p : BitVec 4) (gd ga gb : BitVec 5) (w : BitVec 1) (key : Nat),
    amoOf i = some (fn, rel, acq, p, gd, ga, gb, w) → Ready i .C p {} s = true →
    let n := if w = 1 then 4 else 8
    (s.reg .C ga).toNat % n = 0 → s.reaches p 1 (s.windowNow (s.reg .C ga).toNat) accWrite n key u →
    u.amoSupported key fn = true → u.noPath key = false → u.poisoned key n = false → u.unburdened →
    let old := u.readM key n
    let mask := 2 ^ (8 * n)
    let new := amoWrites fn (8 * n) old ((s.reg .C gb).toNat % mask) ((s.reg .C gd).toNat % mask)
    let u1 := match new with | some v => (u.writeN key n v).layerNotice key | none => u
    let u2 := if u1.work.log.length < 256 then
        (u1.modWork fun w => { w with log := w.log ++ [{ kind := .amo, pc := (s.ctx.eng .C).pc, result := BitVec.ofNat 256 old, pub := 0 }] }).countOn
          u1.cur 0x0C none 1
      else u1.modCtx fun c => { c with csr := { c.csr with nrp := true } }
    let u3 := if acq then u2.refresh else u2
    let t := (u3.setReg .C gd (if w = 1 then (BitVec.ofNat 32 old).signExtend 64 else BitVec.ofNat 64 old)).retired i .C p {} .seq
    exec i s = .next t ∧ ∀ a, a < key ∨ key + n ≤ a → t.mem.get 0 a = u.mem.get 0 a

/-- A translation changes memory only in that it may set A, and for a write D, of an entry: every byte reads as before or with those
bits set. It changes nothing else of a core but its cached translations and event counters, and of the device only its caches, its
queue of waiting misses and the model's note of the fills. An address at or above 2^52 faults with cause 3, and an access of an address space whose root descriptor is not valid, to which no
cache has an answer and for which a walker is free, with cause 8: nothing is accessed. -/
def Obligations.TranslationRules : Prop :=
  (∀ (s u : State) (cl : Client) (part asid va acc ext key : Nat),
    xlateAs cl part asid va acc ext s = .ok (key, u) →
    (∀ a, u.mem.get 0 a = s.mem.get 0 a ∨ u.mem.get 0 a = s.mem.get 0 a ||| 0x40 ∨
      (acc = accWrite ∧ u.mem.get 0 a = s.mem.get 0 a ||| 0xC0)) ∧
    (∀ k, u.core k = { s.core k with tlbC := (u.core k).tlbC, tlbA := (u.core k).tlbA, ctx := (u.core k).ctx }
      ∧ (u.core k).ctx = { (s.core k).ctx with csr := { (s.core k).ctx.csr with evcnt := (u.core k).ctx.csr.evcnt } }) ∧
    u = { s with
      mem := u.mem, poison := u.poison, cores := u.cores, dies := u.dies, ladles := u.ladles, freeNo := u.freeNo, stalled := u.stalled
      fills := u.fills }) ∧
  (∀ (s : State) (cl : Client) (part asid va acc ext : Nat),
    (2 ^ 52 ≤ va → xlateAs cl part asid va acc ext s = .error (.xlate 3 0 acc va ext, s.fills)) ∧
    (va < 2 ^ 52 → (∀ x ∈ s.stalled, x.client ≠ cl) → s.tlbOf cl = [] → s.walkerFree (clientDie cl) = true → s.misses (clientDie cl) = [] →
      (s.die (clientDie cl)).nodes = [] → bits (s.part part).ptbase 63 12 * 4096 + 8 * asid < tierSpan →
      (BitVec.ofNat 64 (s.readM (keyOf 2 0 (bits (s.part part).ptbase 63 12 * 4096 + 8 * asid)) 8)).getLsbD 0 = false →
      xlateAs cl part asid va acc ext s = .error (.xlate 8 0 acc va ext, s.fills)))

/-- FENCE.acq and PHASE at level 0 complete on any core: FENCE.acq makes a refresh of the snapshot due, PHASE, without residue and
without an error in the token counts, adds 1 to the phase number of the core's own domain, which its CSR shows (on a conductor, which
lies in no domain, to the number that its CSR shows: the model's choice, log 24). The refresh, when it acts, makes the snapshot what memory
then is, empties the effect log and begins a replay interval with what the work then is (R310, R357): a turn before which time passes finds
it made. FENCE.rel completes, on work that does not replay: of work that is not speculative every store of the buffer moves, in order, to
the outbound queue (none being marked by an invalidation, nor held under one); of speculative work none does.
Memory is as before. PHASE at a level above 0 arrives at its domain, on a core of a cluster with nothing to publish, no
residue and no error in the token counts: the work is noted as arrived there, and the engine stays at the instruction until the boundary. -/
def Obligations.FencesAndPhasesComplete : Prop :=
  (∀ (s : State) (p : BitVec 4),
    let u := s.issued .C p {} 1
    let shows := fun (u : State) (n : Nat) => u.modCtx fun c => { c with csr := { c.csr with pn := c.csr.pn.set 0 0 n } }
    let n := (s.part s.work.part).phase.get 0 s.cur + 1
    (Ready (.fenceAcq p) .C p {} s = true → exec (.fenceAcq p) s = .next (u.refresh.retired (.fenceAcq p) .C p {} .seq)) ∧
    (Ready (.phase p 0) .C p {} s = true → s.cc.badTokens = false →
      (u.ctx.unreserve ((depPushes .C p).map (·, 1))).residue = false →
      (isConductor s.cur = false → exec (.phase p 0) s = .next
        ((shows (u.modPart s.work.part fun q => { q with phase := q.phase.set 0 s.cur n }) n.toNat).retired (.phase p 0) .C p {} .seq)) ∧
      (isConductor s.cur = true → exec (.phase p 0) s = .next
        ((shows u ((s.ctx.csr.pn.get 0 0 + 1) % 2 ^ 32)).retired (.phase p 0) .C p {} .seq)))) ∧
  (∀ (s : State) (k : Nat) (w : Work), (s.core k).work = some w →
    let t := s.takeRefresh k
    (t.core k).work = some { w with
      snap := s.snapshot w.part, log := [], replay := none, ckpt := some { ctx := (t.core k).ctx, snap := s.snapshot w.part, sb := w.sb } } ∧
    (t.core k).ctx.csr = { (s.core k).ctx.csr with nrp := false } ∧ (∀ e, ((t.core k).ctx.eng e).pc = ((s.core k).ctx.eng e).pc) ∧
    t.mem = s.mem ∧ (∀ j, j ≠ k → t.core j = s.core j)) ∧
  (∀ (s : State) (x : Turn) (k : Nat), s.crossDue.due = [k] → s.crossDue.delay x ≠ 0 → (∀ p lvl idx l, x.deed ≠ .event (.phaseBoundary p lvl idx) l) →
    (∀ r ∈ (s.crossDue.part ((s.crossDue.core k).work.getD { id := 0 }).part).traps, r.acked = none) →
    (∀ w, (s.crossDue.core k).work = some w → s.crossDue.watchPaused k w = false) →
    ((s.begin x).core k).work = ((s.crossDue.takeRefresh k).core k).work ∧ (s.begin x).due = []) ∧
  (∀ (s : State) (p : BitVec 4), Ready (.fenceRel p) .C p {} s = true → s.work.replay = none → s.lateHeld s.work = false →
    (s.work.spec = false → (∀ st ∈ s.work.sb, st.mark = false) →
      ∃ t, exec (.fenceRel p) s = .next t ∧ t.work.sb = [] ∧ t.cc.ob = s.cc.ob ++ s.work.sb ∧ t.mem = s.mem
        ∧ Passed .C 1 (s.nextPc .C 1) (s.nextLoops .C 1) s t) ∧
    (s.work.spec = true →
      ∃ t, exec (.fenceRel p) s = .next t ∧ t.work.sb = s.work.sb ∧ t.cc.ob = s.cc.ob ∧ t.mem = s.mem
        ∧ Passed .C 1 (s.nextPc .C 1) (s.nextLoops .C 1) s t)) ∧
  (∀ (s : State) (p : BitVec 4) (lvl : BitVec 3), Ready (.phase p lvl) .C p {} s = true → lvl ≠ 0 → isConductor s.cur = false →
    s.unburdened → s.cc.badTokens = false → ((s.issued .C p {} 1).ctx.unreserve ((depPushes .C p).map (·, 1))).residue = false →
    ∃ t, exec (.phase p lvl) s = .next t ∧ t.work.arrived = some lvl.toNat ∧ t.work.arrivedAt = s.now
      ∧ (t.ctx.eng .C).pc = (s.ctx.eng .C).pc ∧ (t.ctx.eng .C).prog.isSome = true ∧ t.mem = s.mem
      ∧ ∀ k, k ≠ s.cur → t.core k = s.core k)

/-- TLBIR and TLBACK complete on a core with nothing to publish. TLBIR sends an invalidation, unless its range is empty: it is
outstanding, and no core holds a translation of the range any more. TLBACK, when none of the core's is still to be waited for,
makes a refresh of the snapshot due. -/
def Obligations.InvalidationsComplete : Prop :=
  ∀ (s : State) (p : BitVec 4) (gd ga gb : BitVec 5), s.unburdened → s.openInvals s.cur < 16 →
    let n : Needs := { waits := [(false, .memory)] }
    let start := (s.reg .C ga).toNat
    let len := (s.reg .C gb).toNat
    (Ready (.tlbir p gd ga gb) .C p n s = true → ∃ t, exec (.tlbir p gd ga gb) s = .next t ∧ t.mem = s.mem
      ∧ Passed .C 1 (s.nextPc .C 1) (s.nextLoops .C 1) s t
      ∧ (len = 0 ∨ 2 ^ 52 ≤ start → t.invals = s.invals)
      ∧ (len ≠ 0 → start < 2 ^ 52 → ∃ v : Inval, v.part = s.work.part ∧ v.asid = bits (s.reg .C gd) 15 0
          ∧ v.lo = start ∧ v.hi = min (start + len) (2 ^ 52) ∧ v.core = some s.cur ∧ t.invals = s.invals ++ [v]
          ∧ ∀ k, ∀ x ∈ (t.core k).tlbC ++ (t.core k).tlbA, v.coversTlb x = false)) ∧
    (Ready (.tlback p) .C p {} s = true → s.unacked s.cur = 0 → ∃ t, exec (.tlback p) s = .next t ∧ t.mem = s.mem
      ∧ Passed .C 1 (s.nextPc .C 1) (s.nextLoops .C 1) s t ∧ s.cur ∈ t.due)

/-- TRAP, and every other trap that the local handler takes: when C's handler is enabled, not already running, and at a first word
of the text, a class 1 to 5 trap of C (but for that of an ERET outside a handler) enters it: TEPC holds the program counter, of
a TRAP the one after it, TCAUSE the class and cause, TVAL the value, INH is set, the loops are hidden, and C goes on at OFF. No
other engine, no memory and no other CSR changes. Any other trap of an engine is delivered: the engine is held where it is, and
one record with the class, the cause, the value and the four program counters joins those that the work's partition is to write: behind
them all, but for those of the core's array of the same cycle (R348). -/
def Obligations.TrapsAreTaken : Prop :=
  (∀ (s : State) (cls cause : Nat) (val : Word), s.cc.work.isSome = true → (s.ctx.eng .C).prog = none →
    s.ctx.csr.en = true → s.ctx.csr.inh = false → s.ctx.csr.off < s.work.len → s.cc.firstWord s.ctx.csr.off = true →
    1 ≤ cls → cls ≤ 5 → ¬ (cls = 2 ∧ cause = 4) →
    let t := s.stopped .C (.trap cls cause val)
    t.ctx.csr = { s.ctx.csr with
      tepc := (if cls = 5 then (s.ctx.eng .C).pc + 1 else (s.ctx.eng .C).pc) % 2 ^ 14, cls := cls, cause := cause, tval := val
      inh := true, hidden := (s.ctx.eng .C).loops.length } ∧
    t.ctx = { s.ctx with csr := t.ctx.csr, c := t.ctx.c } ∧
    t.ctx.c = { s.ctx.c with pc := s.ctx.csr.off, prog := none } ∧
    t.ctx.seenLoops .C = [] ∧ t.mem = s.mem ∧ t.parts = s.parts ∧ ∀ k, k ≠ s.cur → t.core k = s.core k) ∧
  (∀ (s : State) (e : Eng) (cls cause : Nat) (val : Word) (w : Work), s.cc.work = some w → (s.ctx.eng e).prog = none →
    s.cc.takesLocally w.len e cls cause = false →
    let t := s.stopped e (.trap cls cause val)
    (t.ctx.eng e) = { s.ctx.eng e with hold := some (.trap cls cause) } ∧ (∀ f, f ≠ e → t.ctx.eng f = s.ctx.eng f) ∧
    t.mem = s.mem ∧ t.ctx.csr = s.ctx.csr ∧
    ∃ r : TrapRec, r.joins (s.part w.part).traps (t.part w.part).traps ∧ r.cls = cls ∧ r.cause = cause ∧ r.val = val
      ∧ r.eng = (match e with | .C => 0 | .A => 1 | .X => 2 | .F => 3)
      ∧ r.pcs = [s.ctx.c.pc, s.ctx.a.pc, s.ctx.x.pc, s.ctx.f.pc] ∧ r.part = w.part)

/-- TRAP completes by taking its trap, of class 5 with its code, and is not retried. ERET completes in the local handler: C goes on
at TEPC with the loops of before the trap, of which one that ends there goes round again (R106), and INH is clear. WFE completes when the event flag is set or its time has run out,
and clears the flag. ERET outside the local handler traps with class 2 cause 4, and one whose TEPC is no first word of the text
with class 1 cause 5; neither leaves the handler. -/
def Obligations.TrapEretWfeComplete : Prop :=
  (∀ (s : State) (p : BitVec 4),
    (∀ code, Ready (.trap p code) .C p {} s = true → exec (.trap p code) s = .next (s.stopped .C (.trap 5 code.toNat 0))) ∧
    (Ready (.eret p) .C p {} s = true → s.ctx.csr.inh = true → s.cc.firstWord s.ctx.csr.tepc = true →
      ∃ t, exec (.eret p) s = .next t ∧ OnlyCore s t
        ∧ t.ctx.c = { s.ctx.c with
            loops := (applyLoopEnd (s.ctx.hiddenLoops .C) s.ctx.csr.tepc).1, pc := (applyLoopEnd (s.ctx.hiddenLoops .C) s.ctx.csr.tepc).2
            wc := s.ctx.c.wc + 1, passed := s.now }
        ∧ t.ctx.csr = { s.ctx.csr with inh := false, hidden := 0, evcnt := t.ctx.csr.evcnt, lifted := t.ctx.csr.lifted }
        ∧ t.ctx = { s.ctx with c := t.ctx.c, csr := t.ctx.csr, fifo := t.ctx.fifo, resv := t.ctx.resv }) ∧
    (Ready (.wfe p) .C p {} s = true → s.ctx.csr.evt = true →
      exec (.wfe p) s = .next
        (((s.issued .C p {} 1).modCtx fun c => { c with csr := { c.csr with evt := false } }).retired (.wfe p) .C p {} .seq)) ∧
    (∀ pr, s.cc.runnable .C = true → s.cc.badPath ≠ some .C → (s.ctx.eng .C).prog = some pr → pr.fill = false → pr.stage = 1 →
      s.ctx.csr.tmo ≠ 0 →
      pr.mark + s.ctx.csr.tmo.toNat ≤ s.ctx.csr.cycle.toNat →
      exec (.wfe p) s = .next
        ((s.modCtx fun c => { c with csr := { c.csr with evt := false } }).retired (.wfe p) .C p {} .seq))) ∧
  (∀ (s : State) (p : BitVec 4), Ready (.eret p) .C p {} s = true →
    (s.ctx.csr.inh = false → exec (.eret p) s = .next (s.stopped .C (.trap 2 4 0))) ∧
    (s.ctx.csr.inh = true → s.cc.firstWord s.ctx.csr.tepc = false →
      exec (.eret p) s = .next (s.stopped .C (.trap 1 5 (s.cc.wordAt s.ctx.c.pc s.work.len)))))

/-- An instruction with an operand field outside its limits, or with a target fixed by its words that is no first word of the text, never
acts: whatever the engine instruction, an engine that finds it takes the trap of class 1 with the lowest cause that its fields earn and
the first word as its value (Table 5-6), before any token is looked at. TrapsAreTaken says what a trap taken locally, and one
delivered, leaves. -/
def Obligations.IllegalInstructionTraps : Prop :=
  ∀ (s : State) (i : Instr) (e : Eng) (c : Nat), instrEngine i = some e → s.cc.runnable e = true →
    (s.ctx.eng e).prog = none → encodingCause i s.cc e = some c →
    exec i s = .next (s.stopped e (.trap 1 c (s.cc.wordAt (s.ctx.eng e).pc s.work.len)))

/-- WQPUSH completes, on a core with nothing to publish, for every status (Table 1-10): 4 for a number above 32767, 3 for a queue of
another partition or not device-fed, 1 for a disabled and 2 for a halted queue, 5 for an invalid record; otherwise, the queue
not in overflow and no push being held, the record is written to its slot, counted, and the status is 0. A record that joins a queue is written to its
slot, and to no other byte but that the translation may set A and D of an entry; the tail moves by one, and the head stays. -/
def Obligations.WqpushCompletes : Prop :=
  (∀ (s u t : State) (p : BitVec 4) (gd ga gb : BitVec 5) (r : BitVec 1024) (n : Nat),
    let q := (s.reg .C ga).toNat
    let w := u.wq q
    Ready (.wqpush p gd ga gb) .C p {} s = true → s.finds p 1 (s.reg .C gb).toNat r u → u.unburdened →
    (if 32767 < q then n = 4 ∧ t = u
      else if w.part ≠ u.work.part ∨ w.deviceFed = false then n = 3 ∧ t = u
      else if w.st = 0 then n = 1 ∧ t = u
      else if w.st = 2 then n = 2 ∧ t = u
      else if u.validRecord u.work.part r = false then n = 5 ∧ t = u
      else n = 0 ∧ w.ovf = false ∧ w.held = [] ∧ u.enqueue q r = (t, .counted)) →
    exec (.wqpush p gd ga gb) s = .next ((t.answers .wqpush gd n).retired (.wqpush p gd ga gb) .C p {} .seq)) ∧
  (∀ (s t : State) (q : Nat) (r : BitVec 1024), s.enqueue q r = (t, .counted) →
    ∃ key u, s.translate (.tundish (s.wq q).home) (s.wq q).part (s.wq q).asid ((s.wq q).slotVa (s.wq q).tail) accWrite = (.ok key, u)
      ∧ (∀ a, t.mem.get 0 a = if key ≤ a ∧ a < key + 128 then r.extractLsb' (8 * (a - key)) 8 else u.mem.get 0 a)
      ∧ (t.wq q).tail = (s.wq q).tail + 1 ∧ (t.wq q).head = (s.wq q).head ∧ ∀ j, j ≠ q → t.wq j = s.wq j)

/-- SPAWN and SPAWNC complete with status 5 when the record is no acceptable segment. An acceptable record enters the pool when it
has a place: of SPAWN, with the spawner's chain, and of SPAWNC with the chain that its condition gives it, or not at all with
the status that refuses it. The status is 0 for a speculative child, 1 for one that is not, 3 when the pool is full. The chain
of a SPAWNC's child (R329): of a free or foreign variable, status 4; when the spawner's chain has the other side, or the
variable is resolved to it, status 2; when it has this side, or the variable is resolved to it, the spawner's chain; with eight
entries, status 6; otherwise the spawner's chain, all inherited, and one entry more, not inherited, for the variable and the
side. -/
def Obligations.SpawnsComplete : Prop :=
  (∀ (s u : State) (p : BitVec 4) (gd ga gb : BitVec 5) (pr : BitVec 16) (side : BitVec 1) (r : BitVec 1024) (len : Nat),
    s.finds p len (s.reg .C gb).toNat r u → u.work.replay = none → (u.work.spec = true ∨ u.unburdened) →
    let enters := fun (chain : List ChainEntry) (k : ActKind) =>
      if u.poolRoom then
        (u.enterPool r u.work.part u.work.asid none u.work.prio chain).answers k gd (if chain.isEmpty then 1 else 0)
      else (u.modPart u.work.part fun q => { q with poolfull := true }).answers k gd 3
    (Ready (.spawn p gd gb) .C p {} s = true → len = 1 →
      exec (.spawn p gd gb) s = .next
        ((if u.spawnable r then enters u.work.inheritedChain .spawn else u.answers .spawn gd 5).retired (.spawn p gd gb) .C p {} .seq)) ∧
    (Ready (.spawnc p gd ga gb pr side) .C p {} s = true → len = 2 →
      exec (.spawnc p gd ga gb pr side) s = .next
        ((if u.spawnable r then
            (match u.spawnChain (bits (s.reg .C ga) 11 0) (side = 1) pr.toNat (s.ctx.eng .C).pc with
              | .error n => u.answers .spawnc gd n
              | .ok chain => enters chain .spawnc)
          else u.answers .spawnc gd 5).retired (.spawnc p gd ga gb pr side) .C p {} .seq))) ∧
  (∀ (s : State) (cv pr pc : Nat) (side : Bool),
    let old := s.work.chain.map fun e => { e with inherited := true }
    (s.cvOf s.work.part cv = none → s.spawnChain cv side pr pc = .error 4) ∧
    (∀ v, s.cvOf s.work.part cv = some v →
      ((∃ e ∈ s.work.chain, e.cv = cv ∧ e.side ≠ side) ∨ v.val = some (!side) → s.spawnChain cv side pr pc = .error 2) ∧
      (¬ ((∃ e ∈ s.work.chain, e.cv = cv ∧ e.side ≠ side) ∨ v.val = some (!side)) →
        ((∃ e ∈ s.work.chain, e.cv = cv) ∨ v.val = some side → s.spawnChain cv side pr pc = .ok old) ∧
        (¬ ((∃ e ∈ s.work.chain, e.cv = cv) ∨ v.val = some side) →
          (s.work.chain.length = 8 → s.spawnChain cv side pr pc = .error 6) ∧
          (s.work.chain.length ≠ 8 → ∃ e, s.spawnChain cv side pr pc = .ok (old ++ [e]) ∧ e.cv = cv ∧ e.side = side
            ∧ e.inherited = false ∧ (pr ≠ 0 → e.factor = pr))))))

/-- CVNEW and CVFREE complete. CVNEW gives the lowest-numbered free variable, or all ones when there is none, and ties it to a
speculative segment. CVFREE, of work that is not speculative, frees a resolved variable of the partition, and sets CVERR for one
that is not resolved or another partition's. RESOLVE completes, on a core with nothing to publish: status 4 for a variable that
is not the partition's, 1 for one that is resolved already, and otherwise, once no core still has pruned work to drain, 0, the
variable being resolved. -/
def Obligations.VariablesComplete : Prop :=
  (∀ (s : State) (p : BitVec 4) (gd ga : BitVec 5), s.work.replay = none →
    let u := s.issued .C p {} 1
    (Ready (.cvnew p gd) .C p {} s = true →
      (∀ n, n < 4096 → s.cvs.find n = none → (∀ j, j < n → s.cvs.find j ≠ none) →
        exec (.cvnew p gd) s = .next
          ((({ u with cvs := u.cvs.put n { part := s.work.part, tie := if s.work.spec then some s.work.id else none } } : State).answers
            .cvnew gd n).retired (.cvnew p gd) .C p {} .seq)) ∧
      ((∀ n, n < 4096 → s.cvs.find n ≠ none) →
        exec (.cvnew p gd) s = .next ((u.answers .cvnew gd (2 ^ 64 - 1)).retired (.cvnew p gd) .C p {} .seq))) ∧
    (Ready (.cvfree p ga) .C p {} s = true → s.work.spec = false →
      let n := bits (s.reg .C ga) 11 0
      exec (.cvfree p ga) s = .next
        (((match s.cvs.find n with
          | none => u
          | some v => if v.part = s.work.part ∧ v.val.isSome = true then { u with cvs := u.cvs.drop n }
            else u.modPart s.work.part fun q => { q with cverr := true } : State).logAct .cvfree 0).retired (.cvfree p ga) .C p {} .seq))) ∧
  (∀ (s : State) (p : BitVec 4) (gd ga : BitVec 5) (v : BitVec 1), Ready (.resolve p gd ga v) .C p {} s = true → s.unburdened →
    let u := s.issued .C p {} 1
    let cv := bits (s.reg .C ga) 11 0
    match s.cvOf s.work.part cv with
    | none => exec (.resolve p gd ga v) s = .next ((u.answers .resolve gd 4).retired (.resolve p gd ga v) .C p {} .seq)
    | some c =>
      if c.val.isSome then exec (.resolve p gd ga v) s = .next ((u.answers .resolve gd 1).retired (.resolve p gd ga v) .C p {} .seq)
      else
        let t := u.resolve s.work.part cv (v = 1)
        (∀ k ∈ u.losers cv (v = 1), (t.core k).ending = false) →
          exec (.resolve p gd ga v) s = .next ((t.answers .resolve gd 0).retired (.resolve p gd ga v) .C p {} .seq))

/-- MBSEND, MBRECV and MBPOLL complete: with status 2 for a mailbox number above 7, and 1 on a core that is not the end that the
instruction needs. At its end, a core with nothing to publish sends 32 bytes to a mailbox that is not full, and the receiver's
event flag is set; or takes the oldest message, which joins the store buffer, and a refresh of the snapshot is due. MBPOLL answers the
messages, or the free places, or all ones. -/
def Obligations.MailboxesComplete : Prop :=
  ∀ (s : State) (p : BitVec 4) (gd ga gb : BitVec 5),
    let u := s.issued .C p {} 1
    let m := (s.reg .C gb).toNat
    let a := (s.reg .C ga).toNat
    let other := if m % 2 = 0 then m + 1 else m - 1
    (Ready (.mbsend p gd ga gb) .C p {} s = true →
      (7 < m → exec (.mbsend p gd ga gb) s = .next ((u.setReg .C gd 2).retired (.mbsend p gd ga gb) .C p {} .seq)) ∧
      (m ≤ 7 → s.cur ≠ 1024 + m →
        exec (.mbsend p gd ga gb) s = .next ((u.setReg .C gd 1).retired (.mbsend p gd ga gb) .C p {} .seq)) ∧
      (∀ u l, m ≤ 7 → s.cur = 1024 + m → a % 32 = 0 → s.serves p 1 a 32 l u → u.unburdened → (s.mbox m).length < 64 →
        exec (.mbsend p gd ga gb) s = .next
          ((((({ u with mboxes := u.mboxes.set [] m (s.mbox m ++ [BitVec.ofNat 256 (ofBytes l)]) } : State).setEvt
            (1024 + other)).logAct .mbsend 0).setReg .C gd 0).retired (.mbsend p gd ga gb) .C p {} .seq))) ∧
    (Ready (.mbrecv p gd ga gb) .C p {} s = true →
      (7 < m → exec (.mbrecv p gd ga gb) s = .next ((u.setReg .C gd 2).retired (.mbrecv p gd ga gb) .C p {} .seq)) ∧
      (m ≤ 7 → s.cur ≠ 1024 + other →
        exec (.mbrecv p gd ga gb) s = .next ((u.setReg .C gd 1).retired (.mbrecv p gd ga gb) .C p {} .seq)) ∧
      (∀ u key x rest w key', m ≤ 7 → s.cur = 1024 + other → a % 32 = 0 → s.reaches p 1 (s.windowNow a) accWrite 32 key u → u.unburdened →
        s.mbox m = x :: rest → s.ctx.c.stuck = false →
        xlate (.coreC s.cur) (s.windowNow a) accWrite 32
          ((({ u with mboxes := u.mboxes.set [] m rest } : State).setEvt (1024 + m)).logAct .mbrecv x.toNat) = .ok (key', w) →
        w.lostPeer key' = false →
        exec (.mbrecv p gd ga gb) s = .next
          ((((w.modWork fun y => { y with sb := y.sb ++ [{ va := s.windowNow a, key := key', size := 32, data := x, eng := .C
                                                           pc := s.ctx.c.pc, part := y.part, asid := y.asid }] }).refresh).setReg .C gd 0).retired
            (.mbrecv p gd ga gb) .C p {} .seq))) ∧
    (Ready (.mbpoll p gd ga gb) .C p {} s = true →
      exec (.mbpoll p gd ga gb) s = .next ((u.setReg .C gd
        (if m ≤ 7 ∧ s.cur = 1024 + other then BitVec.ofNat 64 (s.mbox m).length
          else if m ≤ 7 ∧ s.cur = 1024 + m then BitVec.ofNat 64 (64 - (s.mbox m).length)
          else BitVec.allOnes 64)).retired (.mbpoll p gd ga gb) .C p {} .seq))

/-- NESTW, NGO, NWAIT and FMTQ complete. NESTW writes two doublewords of the shadow table, also behind an NGO that waits when it moves
no token (log 38); NGO, with no nest running, the array not halted and a valid table, makes it the active one and starts its nest at
index 0; NWAIT retires once the array is idle; FMTQ, with room in FQ, puts a format word at its tail. On a conductor NESTW, NWAIT and
FMTQ change nothing of an array. NGO on a conductor, or of an invalid table, traps with class 2 cause 3, and neither table nor nest
changes. While a nest runs or the array is halted, NGO has issued and waits, C going on after it; when the wait is over, C's next turn
starts the nest and pushes NGO's tokens, or, of a table that is then invalid, takes NGO's trap, C standing at it again (log 38). -/
def Obligations.MatrixControlCompletes : Prop :=
  (∀ (s : State) (p : BitVec 4) (gd ga gb : BitVec 5),
    let open' := fun (w : Wait) => ({ waits := [(false, w)] } : Needs)
    let j := 2 * bits (s.reg .C gd) 3 0
    let put := fun (t : SMap Word) => (t.set 0 j (s.reg .C ga)).set 0 (j + 1) (s.reg .C gb)
    let beside : Needs := { overlaps := decide (p = 0) }
    (Ready (.nestw p gd ga gb) .C p beside s = true →
      exec (.nestw p gd ga gb) s = .next
        ((if isConductor s.cur then s.issued .C p beside 1
          else (s.issued .C p beside 1).modCtx fun c => { c with ar :=
            if c.ar.swapped then { c.ar with n0 := put c.ar.n0 } else { c.ar with n1 := put c.ar.n1 } }).retired
          (.nestw p gd ga gb) .C p beside .seq)) ∧
    (Ready (.ngo p) .C p {} s = true → isConductor s.cur = false → s.ctx.ar.nest = none → s.ctx.ar.hold = none →
      s.ctx.tableValid s.ctx.ar.shadow = true →
      exec (.ngo p) s = .next
        ((((s.issued .C p {} 1).modCtx fun c => { c with ar := { c.ar with
            swapped := !c.ar.swapped, nest := some ⟨c.ar.shadow, List.replicate (nlev c.ar.shadow) 0⟩ } }).issueCmd s.cur).retired
          (.ngo p) .C p {} .seq)) ∧
    (Ready (.ngo p) .C p {} s = true → isConductor s.cur = false → (s.ctx.ar.nest.isSome = true ∨ s.ctx.ar.hold.isSome = true) →
      ∃ t, exec (.ngo p) s = .next t ∧ OnlyCore s t ∧ Passed .C 1 (s.nextPc .C 1) (s.nextLoops .C 1) s t
        ∧ t.ctx.ar = { s.ctx.ar with start := some { pc := s.ctx.c.pc, wc := s.ctx.c.wc, loops := s.ctx.c.loops
                                                     pops := (depPops .C p).map (·, 1), pushes := (depPushes .C p).map (·, 1) } }
        ∧ ∀ f, t.ctx.fifo.get 0 f + total ((depPops .C p).map (·, 1)) f = s.ctx.fifo.get 0 f
            ∧ t.ctx.resv.get 0 f = s.ctx.resv.get 0 f + total ((depPushes .C p).map (·, 1)) f) ∧
    (Ready (.nwait p) .C p (open' .array) s = true → (isConductor s.cur = true ∨ s.ctx.ar.idle = true) →
      exec (.nwait p) s = .next ((s.issued .C p (open' .array) 1).retired (.nwait p) .C p (open' .array) .seq)) ∧
    (Ready (.fmtq p ga) .C p (open' .format) s = true → (isConductor s.cur = true ∨ s.ctx.ar.fq.length < 16) →
      exec (.fmtq p ga) s = .next
        ((if isConductor s.cur then s.issued .C p (open' .format) 1
          else (s.issued .C p (open' .format) 1).modCtx fun c => { c with ar := { c.ar with fq := c.ar.fq ++ [s.reg .C ga] } }).retired
          (.fmtq p ga) .C p (open' .format) .seq))) ∧
  (∀ (s : State) (p : BitVec 4), Ready (.ngo p) .C p {} s = true →
    (isConductor s.cur = true ∨ (s.ctx.ar.nest = none ∧ s.ctx.ar.hold = none ∧ s.ctx.tableValid s.ctx.ar.shadow = false)) →
    exec (.ngo p) s = .next (s.stopped .C (.trap 2 3 0))) ∧
  (∀ (s : State) (w : Start), s.cc.runnable .C = true → s.ctx.ar.start = some w → s.ctx.ar.nest = none → s.ctx.ar.hold = none →
    let u := s.modCtx fun c => { c.unreserve w.pushes with ar := { c.ar with start := none } }
    (s.ctx.tableValid s.ctx.ar.shadow = true → s.engineTurn .C = .next
      (((u.modCtx fun c => { c with ar := { c.ar with
          swapped := !c.ar.swapped, nest := some ⟨c.ar.shadow, List.replicate (nlev c.ar.shadow) 0⟩ } }).issueCmd s.cur).modCtx
        fun c => c.pushTokens w.pushes).stir) ∧
    (s.ctx.tableValid s.ctx.ar.shadow = false → s.engineTurn .C = .next
      ((u.modCtx fun c => { c.pushTokens w.pops with c := { c.c with pc := w.pc, wc := w.wc, loops := w.loops } }).takeTrap
        s.cur .C 2 3 0).stir))

/-- TILE_COMMAND completes a command that is at the head of the array's commands (or issues as such now), once its slots are filled
and its tile is free for it, and where its sums are to be checked they agree: every element of its tile becomes the old one (0 at the first command of a run that asks for it)
plus the once-rounded exact sum of 32 products, the tile is live, READY at the last command of a run, and the command is gone.
RING_ADVANCE completes once the rings hold the slots to pop, the sums being right: each ring's head moves past the slots that the command gives it,
nothing else of a ring changes, and the advance is over. -/
def Obligations.MatrixEventsComplete : Prop :=
  (∀ (s : State) (k : Nat) (sumOk : Bool) (c : Cmd) (r : List Cmd), (s.core k).arrayRuns = true →
    let u := if (s.core k).arrayIssues = true then s.issueCmd k else s
    let x := (u.core k).ctx
    let checked := c.last = true ∨ 1024 ≤ x.ar.unchecked + 1
    x.ar.cmds = c :: r → x.ar.adv = none → x.cmdReady c = true →
    (checked → sumOk = true ∧ x.sumsAgree c = true ∧ (s.core k).badSums = false) →
    ∃ t, exec (.tileCommand k sumOk) s = .next t ∧ t.mem = s.mem ∧ (∀ j, j ≠ k → t.core j = s.core j)
      ∧ (∀ m, m ≠ c.tile → (t.core k).ctx.tile m = x.tile m)
      ∧ (t.core k).ctx.ar.cmds = r
      ∧ (checked → (t.core k).ctx.ar.unchecked = 0) ∧ (¬ checked → (t.core k).ctx.ar.unchecked = x.ar.unchecked + 1)
      ∧ ((t.core k).ctx.ar.adv.isSome = true ↔ c.ends (nestRal c.table) = true)
      ∧ ((t.core k).ctx.tile c.tile).live = true
      ∧ ((t.core k).ctx.tile c.tile).st = (if c.last then .ready else (x.tile c.tile).st)
      ∧ ∀ i j, i < 64 → j < 64 →
          let acc := if c.first && (tdw c.table 0).getLsbD 10 then 0 else ((x.tile c.tile).z.get 0 (64 * i + j)).toNat
          let sum := fmtF32.finish none false (exactSum ((List.range 32).map fun n =>
            (x.expand ⟨false, c⟩ i n).mul (x.expand ⟨true, c⟩ j n)))
          ((t.core k).ctx.tile c.tile).z.get 0 (64 * i + j) = BitVec.ofNat 32 (addF32 acc sum.1).1) ∧
  (∀ (s : State) (k : Nat) (c : Cmd), (s.core k).arrayRuns = true → (s.core k).badSums = false → (s.core k).ctx.ar.adv = some c →
    (∀ q, total c.pops q ≤ ((s.core k).ctx.ring q).filled) →
    ∃ t, exec (.ringAdvance k) s = .next t ∧ t.mem = s.mem ∧ (∀ j, j ≠ k → t.core j = s.core j)
      ∧ (t.core k).ctx.ar.adv = none ∧ (t.core k).ctx.ar.unchecked = 0
      ∧ ∀ q, (t.core k).ctx.ring q
          = { (s.core k).ctx.ring q with head := ((s.core k).ctx.ring q).head + BitVec.ofNat 32 (total c.pops q) })

/-- LDQ, LDQ.term, STQ, RINIT, RADV.head, RADV.tail, RWAIT.head, RWAIT.tail, SWZ, ASTAT.ecur, .scur, .setec, .setsc, .ring, .sread
and .chain complete where the rules let them act, with the effect that `accessResult` names and no other. SHDW.def, SHDW.arm,
SHDW.free and PREFT complete where the rules let them act, with the effect that `shadowResult` names; of memory no byte changes. -/
def Obligations.AccessInstructionsComplete : Prop :=
  (∀ (s : State) (i : Instr) (p : BitVec 4) (n : Needs) (f : State → State),
    accessResult s i = some (p, n, f) → Ready i .A p n s = true →
    exec i s = .next ((f (s.issued .A p n 2)).retired i .A p n .seq)) ∧
  (∀ (s : State) (i : Instr) (p : BitVec 4) (f : State → State),
    shadowResult s i = some (p, f) → Ready i .A p {} s = true →
    exec i s = .next ((f (s.issued .A p {} 2)).retired i .A p {} .seq) ∧ (f (s.issued .A p {} 2)).mem = s.mem)

/-- GLD and GST of plain scratchpad complete in one turn when no granule of theirs stops: the granules move one after the other
in ascending order, GLD's into scratchpad, GST's into the store buffer. -/
def Obligations.BulkCopiesComplete : Prop :=
  ∀ (s u : State) (p : BitVec 4) (gd ga gb : BitVec 5) (imm : BitVec 18),
    let n : Needs := { waits := [(false, .ring)] }
    let va := (s.reg .A ga).toNat
    let o := (s.reg .A gb).toNat
    s.budget = none → va % 16 = 0 → o % 16 = 0 → o + 16 * imm.toNat ≤ 786432 →
    (Ready (.gld p 0 gd ga gb imm) .A p n s = true →
      granulesFrom State.loadsGranule va (fun i => o + 16 * i) imm.toNat (List.range imm.toNat) (s.issued .A p n 2) = .ok u →
      exec (.gld p 0 gd ga gb imm) s = .next (u.retired (.gld p 0 gd ga gb imm) .A p n .seq)) ∧
    (Ready (.gst p 0 gd ga gb imm) .A p n s = true →
      granulesFrom State.storesGranule va (fun i => o + 16 * i) imm.toNat (List.range imm.toNat) (s.issued .A p n 2) = .ok u →
      exec (.gst p 0 gd ga gb imm) s = .next (u.retired (.gst p 0 gd ga gb imm) .A p n .seq))

/-- The access engine's releasing instructions complete on a core with nothing to publish. PUBL of an armed handle of the work's
flips it and disarms it; LCHAIN gives a ladle of the cluster that is not fenced and has room one chain more, and gd its ticket;
ASTAT.ssig adds to a semaphore, to at most 65,535; ASTAT.sset sets it. ASTAT.swait arrives at its semaphore behind the waiters that
are there (R189). With none there and enough COUNT it completes: the count falls by what it takes, gd holds POISON, and a refresh of
the snapshot is due. Otherwise it waits, behind them, and takes nothing itself, whether COUNT would be enough for it or not; of the
waiters only the first, where COUNT is enough for that one, takes at its arrival. -/
def Obligations.AccessReleasesComplete : Prop :=
  (∀ (s : State) (p : BitVec 4) (gd ga : BitVec 5) (sem : BitVec 8) (n : BitVec 10), s.unburdened →
    let u := s.issued .A p {} 2
    let log := fun (s : State) (k : ActKind) (r : BitVec 256) =>
      if s.work.log.length < 256 then
        (s.modWork fun w => { w with log := w.log ++ [{ kind := k, pc := (s.ctx.eng .A).pc, result := r, pub := 0 }] }).countOn s.cur 0x0C none 1
      else s.modCtx fun c => { c with csr := { c.csr with nrp := true } }
    let key := 256 * (s.cur / 16) + sem.toNat
    let h := (s.reg .A ga).toNat
    (∀ x, Ready (.publ p ga) .A p {} s = true → h ≤ 1023 → (s.part s.work.part).handles.find h = some x → x.armed = true →
      x.owner = s.work.id →
      exec (.publ p ga) s = .next ((log (u.modPart s.work.part fun q => { q with
        handles := q.handles.put h { x with cur := !x.cur, armed := false } }) .publ 0).retired (.publ p ga) .A p {} .seq)) ∧
    (∀ lad l, Ready (.lchain p gd ga lad) .A p {} s = true → isConductor s.cur = false → h % 64 = 0 → h + 64 ≤ 786432 →
      s.takingLadle s.cur lad = some l → (s.ladle l).queue.length < 64 →
      let ticket := BitVec.ofNat 64 (l * 2 ^ 32) + (s.ladle l).seq.setWidth 64
      exec (.lchain p gd ga lad) s = .next (((log (u.modLadle l fun x => { x with
        seq := x.seq + 1
        queue := x.queue ++ [⟨l, h, s.cur, s.work.id, s.work.part, s.work.asid, x.seq⟩] }) .lchain (ticket.setWidth 256)).setReg .A gd
          ticket).retired (.lchain p gd ga lad) .A p {} .seq)) ∧
    (∀ po, Ready (.astatSsig p gd po n sem) .A p {} s = true → isConductor s.cur = false →
      exec (.astatSsig p gd po n sem) s = .next ((log (u.modSem key fun x => { x with
        count := min (x.count + n.toNat) 65535, ovf := x.ovf || decide (65535 < x.count + n.toNat), poison := x.poison || decide (po = 1) })
          .ssig 0).retired (.astatSsig p gd po n sem) .A p {} .seq)) ∧
    (Ready (.astatSset p ga sem) .A p {} s = true → isConductor s.cur = false →
      exec (.astatSset p ga sem) s = .next ((log (u.modSem key fun x => { x with
        count := bits (s.reg .A ga) 15 0, poison := false, ovf := false }) .sset 0).retired (.astatSset p ga sem) .A p {} .seq))) ∧
  (∀ (s : State) (p : BitVec 4) (gd : BitVec 5) (n : BitVec 10) (sem : BitVec 8),
    Ready (.astatSwait p gd n sem) .A p {} s = true → isConductor s.cur = false → s.work.spec = false → s.work.replay = none →
    let key := 256 * (s.cur / 16) + sem.toNat
    let x := s.sem key
    let me : Waiter := .core s.work.id n.toNat
    let waits := fun (y : Sem) => ∃ t, exec (.astatSwait p gd n sem) s = .next t ∧ t.sem key = y ∧ (∀ j, j ≠ key → t.sem j = s.sem j)
      ∧ (t.ctx.eng .A).pc = (s.ctx.eng .A).pc ∧ (t.ctx.eng .A).prog.isSome = true ∧ (∀ r, t.reg .A r = s.reg .A r) ∧ t.mem = s.mem
    me ∉ x.waiters → (∀ y ∈ x.taken, y.1 ≠ me) →
    (x.waiters = [] → n.toNat ≤ x.count → ∃ t, exec (.astatSwait p gd n sem) s = .next t
      ∧ t.sem key = { x with count := x.count - n.toNat } ∧ (∀ j, j ≠ key → t.sem j = s.sem j)
      ∧ (∀ r, t.reg .A r = if r = 0 then 0 else if r = gd then (if x.poison then 1 else 0) else s.reg .A r)
      ∧ s.cur ∈ t.due ∧ t.mem = s.mem
      ∧ Passed .A (encode (.astatSwait p gd n sem)).length (s.nextPc .A (encode (.astatSwait p gd n sem)).length)
          (s.nextLoops .A (encode (.astatSwait p gd n sem)).length) s t) ∧
    (x.waiters = [] → x.count < n.toNat → waits { x with waiters := [me] }) ∧
    (∀ w r, x.waiters = w :: r → x.count < w.count → waits { x with waiters := x.waiters ++ [me] }) ∧
    (∀ w r, x.waiters = w :: r → w.count ≤ x.count →
      waits { x with count := x.count - w.count, waiters := r ++ [me], taken := x.taken ++ [(w, x.poison)] }))

/-- KVW completes on an open context: the data lie in scratchpad, the write position is above the head and within the rewind bound
of COMMIT, and the lifetime is not 0 and does not run past the last position. One entry joins the main chain, with the expiry
that is position plus lifetime, or permanent; the head becomes the position, and the writes are counted. KVRN completes on an
open context with an expiry not below COMMIT: an own live entry gets the new expiry and is filed again (status 0), one that has
it already stays (0), one that children see is refused (2). Where the context has none, an entry of its parent's view up to the
fork position is copied with the new expiry (0), and with none there nothing changes (1). -/
def Obligations.KvWritesComplete : Prop :=
  (∀ (s t t' u1 u2 u3 u4 u5 u6 u7 u8 : State) (p : BitVec 4) (gd ga gb : BitVec 5) (imm : BitVec 18) (x : Kv) (ew commit rwb : Nat) (hd : Int),
    let a := (s.reg .A gd + imm.setWidth 64).toNat
    let w := bits (s.reg .A gb) 31 0
    let life := bits (s.reg .A gb) 63 32
    Ready (.kvw p gd ga gb imm) .A p {} s = true → s.work.replay = none → (s.reg .A ga).toNat % 128 = 0 → a % 16 = 0 →
    kvWritable ga (s.issued .A p {} 2) = .ok (x, t) → x.rehearse (Kv.write a w life) t = .ok ((), t') → x.checkOpen [1] t' = .ok ((), u1) →
    x.rd fEw u1 = .ok (ew, u2) → a + 4 * ew ≤ 786432 → x.rd fCommit u2 = .ok (commit, u3) → x.hd u3 = .ok (hd, u4) →
    commit ≤ w → hd < w → x.rd fRwb u4 = .ok (rwb, u5) → w - commit < rwb →
    life ≠ 0 → (life = 0xFFFFFFFF ∨ w + life ≤ 0xFFFFFFFE) →
    x.addEntry fPhead fPtail w (if life = 0xFFFFFFFF then 0xFFFFFFFF else w + life) (bytesAt u5.ctx.spad a (4 * ew)) u5 = .ok ((), u6) →
    x.wr fHead w u6 = .ok ((), u7) → x.count fNwrite 1 u7 = .ok ((), u8) →
    exec (.kvw p gd ga gb imm) s = .next ((u8.logAccess .kvw 0).retired (.kvw p gd ga gb imm) .A p {} .seq)) ∧
  (∀ (s u u1 u2 u3 : State) (p : BitVec 4) (gd ga gb : BitVec 5) (x : Kv) (commit : Nat) (k : Option KvSlot),
    let w := bits (s.reg .A gb) 31 0
    let e := bits (s.reg .A gb) 63 32
    let done := fun (t : State) (n : Nat) =>
      exec (.kvrn p gd ga gb) s
        = .next (((t.logAccess .kvrn n).setReg .A gd (BitVec.ofNat 64 n)).retired (.kvrn p gd ga gb) .A p {} .seq)
    Ready (.kvrn p gd ga gb) .A p {} s = true → s.opens p ga (Kv.renew w e) [1] x u → x.rd fCommit u = .ok (commit, u1) → commit ≤ e →
    x.find w commit u1 = .ok (k, u2) →
    (∀ kids lfp y u4 t, k = some y → x.rd fKids u2 = .ok (kids, u3) → x.rd fLfp u3 = .ok (lfp, u4) →
      (kids ≠ 0 → w ≤ lfp → done u4 2) ∧
      (kids = 0 ∨ lfp < w → e = y.exp → done u4 0) ∧
      (∀ a u5 u6, kids = 0 ∨ lfp < w → e ≠ y.exp → x.page y.pg u4 = .ok (a, u5) → x.store (a + 0x80 + 4 * y.s) 4 e u5 = .ok ((), u6) →
        (e = 0xFFFFFFFF → done u6 0) ∧
        (∀ g u7, e ≠ 0xFFFFFFFF → x.load (a + 0x40 + y.s) 1 u6 = .ok (g, u7) →
          x.file e (e * 2 ^ 32 + y.pg * 256 + y.s * 4 + g % 4) u7 = .ok ((), t) → done t 0))) ∧
    (∀ parent f t, k = none → x.rd fParent u2 = .ok (parent, u3) → x.rd fForkpos u3 = .ok (f, t) →
      (parent = 0 ∨ f < w → done t 1) ∧
      (∀ l y d ew u4 u5 u6 u7, parent ≠ 0 → w ≤ f → Kv.view { x with va := parent } 65536 t = .ok (l, u4) →
        (l.1.find? (fun k => k.w = w && commit ≤ k.exp) = none → done u4 1) ∧
        (l.1.find? (fun k => k.w = w && commit ≤ k.exp) = some y → x.rd fEw u4 = .ok (ew, u5) → x.loadData y.addr ew u5 = .ok (d, u6) →
          x.addEntry fChead fCtail w e d u6 = .ok ((), u7) → done u7 0))))

/-- KVADV completes on an open context: to COMMIT itself it changes nothing; to a greater position it writes COMMIT and queues one
request, from the old to the new position, to the shakeout engine of the context's die when that has room. KVRWD completes on an
open context with a position not below COMMIT: at or above the head it changes nothing; below it, no gather being in flight, the
entries above it leave the tail of the main chain, and the head becomes the position. SHAKEOUT_DRAIN completes a step of the
first request of its die that can take one: where the step is done, the request has its new progress, or has left the queue. The step
(R213): of a closed or broken context the request leaves; otherwise, no gather being in flight, the next record of the position's slot is
counted as stale, or, expired, is reclaimed, or moves to the hold list when children see it, or, of a later lap, is counted and kept;
past the last record the kept ones are packed, DRAINED moves on, and so does the request, which leaves at its end. -/
def Obligations.KvPositionsComplete : Prop :=
  (∀ (s u u1 : State) (p : BitVec 4) (ga gb : BitVec 5) (x : Kv) (commit : Nat),
    let c := bits (s.reg .A gb) 31 0
    let done := fun (t : State) => exec (.kvadv p ga gb) s = .next ((t.logAccess .kvadv 0).retired (.kvadv p ga gb) .A p {} .seq)
    Ready (.kvadv p ga gb) .A p {} s = true → s.opens p ga (Kv.advance c) [1] x u → x.rd fCommit u = .ok (commit, u1) →
    (c = commit → done u1) ∧
    (∀ d u2 pool u3 key u4 u5, commit < c → x.rd fSdie u1 = .ok (d, u2) → (u2.die d).drains.length < 4096 →
      x.rd fPool u2 = .ok (pool, u3) → x.key pool accRead 64 u3 = .ok (key, u4) → x.wr fCommit c u4 = .ok ((), u5) →
      done (u5.modDie d fun y => { y with drains := y.drains ++
        [{ ctx := x.va, lo := commit, hi := c, part := x.part, asid := x.asid, core := s.cur % 1024, pool := key }] }))) ∧
  (∀ (s u u1 u2 : State) (p : BitVec 4) (ga gb : BitVec 5) (x : Kv) (commit : Nat) (hd : Int),
    let h := bits (s.reg .A gb) 31 0
    let done := fun (t : State) => exec (.kvrwd p ga gb) s = .next ((t.logAccess .kvrwd 0).retired (.kvrwd p ga gb) .A p {} .seq)
    Ready (.kvrwd p ga gb) .A p {} s = true → s.opens p ga (Kv.rewindTo h) [1] x u → x.rd fCommit u = .ok (commit, u1) → commit ≤ h →
    x.hd u1 = .ok (hd, u2) →
    (hd ≤ h → done u2) ∧
    (∀ u3 u4 u5, (h : Int) < hd → x.rd fPin u2 = .ok (0, u3) → x.rewind h (2 ^ 32) u3 = .ok ((), u4) →
      x.wr fHead h u4 = .ok ((), u5) → done u5)) ∧
  (∀ (s t : State) (d : Nat) (q : Drain) (r : List Drain) (x : Option Drain), (s.die d).drains = q :: r → q.halted = false →
    drainStep d q s = .ok (x, t) → (t.die d).drains = (s.die d).drains →
    ∃ u, exec (.shakeoutDrain d) s = .next u ∧ u.mem = t.mem
      ∧ (u.die d).drains = (match x with | some y => y :: r | none => r)) ∧
  (∀ (s : State) (d : Nat) (q : Drain),
    let x : Kv := { cl := .shakeout d, part := q.part, asid := q.asid, va := q.ctx, core := false }
    (∀ st u, x.rd fState s = .ok (st, u) → (st = 0 ∨ st = 3) → drainStep d q s = .ok (none, u)) ∧
    (∀ st h b y u1 u2 u3 u4 u5, x.rd fState s = .ok (st, u1) → st ≠ 0 → st ≠ 3 → x.rd fPin u1 = .ok (0, u2) →
      x.slotHead q.lo u2 = .ok (h, u3) → (match q.block with | some c => b = c ∧ u4 = u3 | none => x.field h 31 0 u3 = .ok (b, u4)) →
      x.recordAt (2 ^ 32) b q.doneRecs u4 = .ok (y, u5) →
      (∀ r c i, y = some (r, c, i) →
        let q' := { q with block := some c, doneRecs := i + 1 }
        (∀ u6 v, x.stale r u5 = .ok (true, u6) → x.count fNstale 1 u6 = .ok ((), v) → drainStep d q s = .ok (some q', v)) ∧
        (∀ u6 v, x.stale r u5 = .ok (false, u6) → q.lo < fieldOf r 63 32 → x.count fNlap 1 u6 = .ok ((), v) →
          drainStep d q s = .ok (some { q' with kept := q.kept ++ [r] }, v)) ∧
        (∀ kids a w lfp u6 u7 u8 u9 u10 v, x.stale r u5 = .ok (false, u6) → fieldOf r 63 32 ≤ q.lo → x.rd fKids u6 = .ok (kids, u7) →
          x.page (fieldOf r 31 8) u7 = .ok (a, u8) → x.load (a + 0x180 + 4 * fieldOf r 7 2) 4 u8 = .ok (w, u9) →
          x.rd fLfp u9 = .ok (lfp, u10) →
          (if kids ≠ 0 ∧ w ≤ lfp then x.hold r u10 else x.reclaim r u10) = .ok ((), v) → drainStep d q s = .ok (some q', v))) ∧
      (∀ c l u6 u7 u8 v, y = none → x.field h 31 0 u5 = .ok (c, u6) → x.blocksFrom (2 ^ 32) c u6 = .ok (l, u7) →
        x.pack h l q.kept u7 = .ok ((), u8) → x.wr fDrained (q.lo + 1) u8 = .ok ((), v) →
        drainStep d q s = .ok
          (if q.lo + 1 < q.hi then some { q with lo := q.lo + 1, block := none, doneRecs := 0, kept := [] } else none, v))))

/-- KVFORK completes on a well-formed closed record while fewer than 65,536 contexts are open: without a parent it becomes open;
with an open parent of the same geometry, not as deep as 8, that has a committed position, it is forked below the parent's
COMMIT, and the parent has one child more. KVEND completes, no gather being in flight, on an open context with children, which
it makes a zombie, and on any other open or broken one, which it ends. -/
def Obligations.KvForkAndEndComplete : Prop :=
  (∀ (s t t' u u1 : State) (p : BitVec 4) (ga gb : BitVec 5) (x : Kv),
    let pva := (s.reg .A gb).toNat
    let y : Kv := { x with va := pva }
    let done := fun (v : State) => exec (.kvfork p ga gb) s = .next
      ((({ v with kvOpen := v.kvOpen ++ [(x.part, x.asid, x.va)] } : State).logAccess .kvfork 0).retired (.kvfork p ga gb) .A p {} .seq)
    Ready (.kvfork p ga gb) .A p {} s = true → s.work.spec = false → s.work.replay = none →
    (s.reg .A ga).toNat % 128 = 0 → pva % 128 = 0 → kvWritable ga (s.issued .A p {} 2) = .ok (x, t) →
    (pva = 0 → x.rehearse (Kv.fork pva) t = .ok ((), t') → x.wellFormed t' = .ok (true, u) → u.kvOpen.length < 65536 → x.wr fState 1 u = .ok ((), u1) → done u1) ∧
    (∀ k u2 u3 u4 u5, pva ≠ 0 → y.key pva accWrite 128 t = .ok (k, u2) → x.rehearse (Kv.fork pva) u2 = .ok ((), t') →
      x.wellFormed t' = .ok (true, u3) → y.checkOpen [1] u3 = .ok ((), u4) →
      (do let c ← y.rd fCommit
          let d ← y.rd fDepth
          let w ← y.rd fEw
          let w' ← x.rd fEw
          let k ← y.rd fKw
          let k' ← x.rd fKw
          return decide (c ≠ 0 ∧ d < 8 ∧ w = w' ∧ k = k') : Act Bool) u4 = .ok (true, u5) → u5.kvOpen.length < 65536 →
      (do let c ← y.rd fCommit
          x.wr fParent pva
          x.wr fForkpos (c - 1)
          x.wr fDepth ((← y.rd fDepth) + 1)
          x.wr fCommit (c - 1 + 1)
          x.wr fHead (c - 1)
          x.wr fDrained (c - 1 + 1)
          y.count fKids 1
          y.wr fLfp (max (← y.rd fLfp) (c - 1))
          x.wr fState 1 : Act Unit) u5 = .ok ((), u1) → done u1)) ∧
  (∀ (s u u1 u2 u3 v : State) (p : BitVec 4) (ga : BitVec 5) (x : Kv) (st kids : Nat),
    let done := exec (.kvend p ga) s = .next ((v.logAccess .kvend 0).retired (.kvend p ga) .A p {} .seq)
    Ready (.kvend p ga) .A p {} s = true → s.opens p ga Kv.finish [1, 3] x u → x.rd fPin u = .ok (0, u1) → x.rd fState u1 = .ok (st, u2) →
    x.rd fKids u2 = .ok (kids, u3) →
    (st = 1 → kids ≠ 0 → x.wr fState 2 u3 = .ok ((), v) → done) ∧
    (st ≠ 1 ∨ kids = 0 → x.endNow 65536 u3 = .ok ((), v) → done))

/-- KVGATH completes: with no entry live at the position, at once, with 0 in gd and nothing placed in a ring; otherwise, its groups of
64 placed, PIN lowered on every context of the chain and the number of entries in gd. A group is placed, every ring having a free slot:
row i of the key ring, at 4·KW·i of the slot at TAIL, through Swizzle, holds the key of the group's entry i, of the value ring its value,
of the position ring its write position; past the last entry keys and values are zero and positions all ones; then every ring's TAIL moves
on by one, once for a ring named twice. A turn of one group leaves the gather at the next, or, after the last, completes it. KVSTAT completes with a doubleword of the
record in gd, and KVSTAT.drain, once DRAINED equals COMMIT, with doubleword 10. -/
def Obligations.KvReadsComplete : Prop :=
  (∀ (s t t' u u1 u2 : State) (p : BitVec 4) (gd ga gb q : BitVec 5) (vr pr n : BitVec 4) (pp : BitVec 1) (x : Kv) (v : Nat),
    let g : Instr := .kvgath p gd ga gb q vr pp pr
    let rings := [q.toNat - 16, vr.toNat] ++ (if pp = 1 then [pr.toNat] else [])
    (∀ kw ew commit l u3 u4, Ready g .A p {} s = true → kvWritable ga (s.issued .A p {} 2) = .ok (x, t) →
      x.rehearse (Kv.select (q.toNat - 16) vr.toNat (bits (s.reg .A gb) 31 0)) t = .ok ((), t') → x.checkOpen [1] t' = .ok ((), u) →
      (∀ r ∈ rings, (s.ctx.ring r).init = true) → (pp = 1 → 256 ≤ (s.ctx.ring pr.toNat).slot) →
      x.rd fKw u = .ok (kw, u1) → x.rd fEw u1 = .ok (ew, u2) → 256 * kw ≤ (s.ctx.ring (q.toNat - 16)).slot →
      256 * (ew - kw) ≤ (s.ctx.ring vr.toNat).slot → x.rd fCommit u2 = .ok (commit, u3) → commit ≤ bits (s.reg .A gb) 31 0 →
      x.view 65536 u3 = .ok (l, u4) →
      (∀ e ∈ l.1, ¬ (e.w ≤ bits (s.reg .A gb) 31 0 ∧ bits (s.reg .A gb) 31 0 ≤ e.exp)) →
      exec g s = .next ((u4.setReg .A gd 0).retired g .A p {} .seq)) ∧
    (∀ prog np, s.cc.runnable .A = true → s.cc.badPath ≠ some .A → (s.ctx.eng .A).prog = some prog → prog.fill = false → prog.stage = 1 →
      prog.data.headD 0 = v → prog.data.getD 3 0 = np →
      let own := fun (a : Nat) => ({ cl := .coreA s.cur, part := s.work.part, asid := s.work.asid, va := a, core := true } : Kv)
      let pins := (prog.data.drop 4).take np
      let group := ((gatherEntries (prog.data.drop (4 + np))).drop (64 * prog.count)).take 64
      let ends := fun (w : State) => ∀ y, (pins.forM fun a => (own a).count fPin (-1)) w = .ok ((), y) →
        exec g s = .next ((y.setReg .A gd (BitVec.ofNat 64 v)).retired g .A p {} .seq)
      ((v + 63) / 64 ≤ prog.count → ends s) ∧
      (∀ w, prog.count < (v + 63) / 64 → s.budget = some 1 →
        gatherGroup (own (pins.headD 0)) rings (prog.data.getD 1 0) (prog.data.getD 2 0) group s = .ok ((), w) →
        (prog.count + 1 = (v + 63) / 64 → ends w) ∧
        (prog.count + 1 < (v + 63) / 64 → exec g s = .next (w.modCtx fun c => c.modEng .A fun e =>
          { e with prog := some (({ prog with stage := 1, count := prog.count + 1, soft := true } : Prog).taken .A p {} 2) }).stir))) ∧
    (Ready (.kvstat p gd ga n) .A p {} s = true → kvOf ga (s.issued .A p {} 2) = .ok (x, t) → x.load (x.va + 8 * n.toNat) 8 t = .ok (v, u) →
      exec (.kvstat p gd ga n) s = .next ((u.setReg .A gd (BitVec.ofNat 64 v)).retired (.kvstat p gd ga n) .A p {} .seq)) ∧
    (∀ c w u3, Ready (.kvstatDrain p gd ga) .A p {} s = true → kvOf ga (s.issued .A p {} 2) = .ok (x, t) →
      x.rd fDrained t = .ok (c, u) → x.rd fCommit u = .ok (c, u1) → x.rd fState u1 = .ok (w, u2) → x.load (x.va + 80) 8 u2 = .ok (v, u3) →
      exec (.kvstatDrain p gd ga) s = .next ((u3.setReg .A gd (BitVec.ofNat 64 v)).retired (.kvstatDrain p gd ga) .A p {} .seq))) ∧
  (∀ (s u : State) (x : Kv) (rings : List Nat) (kw ew : Nat) (l : List KvEntry) (rows : List (List Byte)),
    (rings.length = 2 ∨ rings.length = 3) → kw ≤ ew → l.length ≤ 64 → (∀ r ∈ rings, (s.ctx.ring r).free ≠ 0 ∧ (s.ctx.ring r).pitch % 16 = 0) →
    (l.mapM fun e => x.loadData e.addr ew) s = .ok (rows, u) →
    let size := fun (j : Nat) => 256 * [kw, ew - kw, 1].getD j 0
    let place := fun (j o : Nat) => let r := u.ctx.ring (rings.getD j 0); r.byteAt r.tail.toNat o r.pitch r.span
    let byte := fun (j o : Nat) =>
      let w := 4 * [kw, ew - kw, 1].getD j 0
      if o / w < l.length then
        (if j = 0 then (rows.getD (o / w) []).getD (o % w) 0
          else if j = 1 then (rows.getD (o / w) []).getD (4 * kw + o % w) 0
          else (toBytes (l.getD (o / w) default).w 4).getD (o % w) 0)
      else if j = 2 then 0xFF else 0
    (∀ j o, j < rings.length → o < size j → o / 16 * 16 + 16 ≤ (u.ctx.ring (rings.getD j 0)).slot) →
    (∀ j o j' o', j < rings.length → o < size j → j' < rings.length → o' < size j' → place j o = place j' o' → j = j' ∧ o = o') →
    ∃ t, gatherGroup x rings kw ew l s = .ok ((), t) ∧ t = u.modCtx (fun _ => t.ctx)
      ∧ (∀ j o, j < rings.length → o < size j → t.ctx.spad.get 0 (place j o) = byte j o)
      ∧ (∀ a, (∀ j o, j < rings.length → o < size j → a ≠ place j o) → t.ctx.spad.get 0 a = u.ctx.spad.get 0 a)
      ∧ ∀ r, t.ctx.ring r = (if r ∈ rings then { u.ctx.ring r with tail := (u.ctx.ring r).tail + 1 } else u.ctx.ring r))

/-- VADD, VSUB, VMUL, VFMA, VFMS, VMIN, VMAX, VABS, VNEG, VAND, VOR, VXOR, VNOT, VSHL, VSHR, VSRA, VCMP, VSEL, VMOV, VMOV.term,
VBCAST, VIOTA, VCVT, VPERM, VNIB, VZIP, VUNZIP, VSLIDE, VGATH, VSCAT, VBMP, VEXP2, VLOG2, VRCPA, VRSQA, VRSUM, VRMAX, VRMIN,
VDRAW, VDMERGE, SELINIT, SELFEED, SELDRAIN, SELMRG, VDOTQ and VL2Q (those that a sequencer's body may hold), and VPOPC, MPUSH,
MINV, MPOP and EXTS: each completes when its operands pass the checks of Table 11-2 and its queues are ready: it has an effect,
which changes no byte of memory and nothing outside its core, no other engine, no scratchpad byte, ring or tile, and of the
vector registers only those of its destination. Whatever becomes of an X instruction, trap, wait or effect, no byte of memory
changes, and no other core. -/
def Obligations.VectorInstructionsComplete : Prop :=
  (∀ (s : State) (i : Instr) (p : BitVec 4) (x : XSem), vectorInstr s i = some (p, x) → Ready i .X p (x.needs s) s = true →
    x.check s = .ok ((), s) →
    ∃ u, x.run (s.issued .X p (x.needs s) (instrWords i)) = .ok ((), u) ∧
      let t := u.retired i .X p (x.needs s) .seq
      exec i s = .next t ∧ OnlyCore s t ∧ (∀ f, f ≠ .X → t.ctx.eng f = s.ctx.eng f)
        ∧ t.ctx = { s.ctx with x := t.ctx.x, xu := t.ctx.xu, queues := t.ctx.queues, fifo := t.ctx.fifo, resv := t.ctx.resv, csr := t.ctx.csr }
        ∧ Passed .X (encode i).length (s.nextPc .X (encode i).length) (s.nextLoops .X (encode i).length) s t
        ∧ ∀ r, (∀ o, x.dst (x.count s) = some o → r < o.code.toNat ∨ o.code.toNat + o.n ≤ r) → t.ctx.xu.v.get 0 r = s.ctx.xu.v.get 0 r) ∧
  (∀ (s t : State) (i : Instr) (p : BitVec 4) (x : XSem), vectorInstr s i = some (p, x) → exec i s = .next t →
    (∀ a, t.mem.get 0 a = s.mem.get 0 a) ∧ ∀ k, k ≠ s.cur → t.core k = s.core k)

/-- An element-wise operation: element i of the destination becomes the operation's result of the elements i of its sources where
the element is active, and stays where it is not. VADD, VSUB, VMUL, VFMA, VFMS, VMIN, VMAX, VABS, VNEG, VAND, VOR, VXOR, VNOT, VSHL, VSHR,
VSRA, VCMP, VSEL, VMOV, VBCAST, VIOTA, VEXP2, VLOG2, VRCPA and VRSQA complete with the values that `elementResult` names, in vector
registers or pushed, and FSTAT gathers the flags of the active elements; the special inputs of VEXP2 and VLOG2 give what their table
says, and the inputs of Table 12-3 its values. A vector group's elements and its registers are two views of the same bits:
the elements of registers made from elements are those elements, for the widths that elements have. -/
def Obligations.ElementwiseValues : Prop :=
  (∀ (on : Nat → Bool) (f : Nat → Nat → Nat → Nat × Flags) (old a b c : List Nat) (i : Nat),
    (each on f 0 old a b c).1[i]? = (old[i]?).map fun o => if on i then (f (a.getD i 0) (b.getD i 0) (c.getD i 0)).1 else o) ∧
  (∀ (w n : Nat) (l : List Nat), w ∈ [4, 8, 16, 32, 64] → l.length = n * (4096 / w) → (∀ x ∈ l, x < 2 ^ w) →
    elems w (regsOf w n l) = l ∧ (regsOf w n l).length = n) ∧
  (∀ (s : State) (i : Instr) (p : BitVec 4) (x : XSem) (w : Nat) (f : Nat → Nat × Flags), vectorInstr s i = some (p, x) →
    elementResult s (x.sources s) i = some (w, f) → Ready i .X p (x.needs s) s = true → x.check s = .ok ((), s) →
    ∃ t l, exec i s = .next t ∧ x.gives s t l (flagsOver (x.count s) (x.on s) fun j => (f j).2)
      ∧ ∀ j, j < l.length * epr w → seqLane w l j = if x.on s j then (f j).1 % 2 ^ w else seqLane w (x.before s) j) ∧
  (∀ f ∈ [fmtF32, fmtF16, fmtBf16], ∀ v, v < 2 ^ f.w →
    let quiet := (f.nan).getD 0
    (∀ sig, f.decode v = .nan sig → exp2Elem f v = (quiet, { nv := sig }) ∧ log2Elem f v = (quiet, { nv := sig })) ∧
    (f.decode v = .inf true → exp2Elem f v = (0, {}) ∧ log2Elem f v = (quiet, { nv := true })) ∧
    (f.decode v = .inf false → exp2Elem f v = (v, {}) ∧ log2Elem f v = (v, {})) ∧
    (∀ neg e, f.decode v = .fin neg 0 e → f.decode (exp2Elem f v).1 = f.decode (f.round none false (.fin false 1 0)).1
      ∧ (log2Elem f v).2 = {} ∧ f.decode (log2Elem f v).1 = .inf true) ∧
    (∀ m e, f.decode v = .fin true m e → m ≠ 0 → log2Elem f v = (quiet, { nv := true }))) ∧
  rcpaElem fmtF32 0x40400000 = (0x3EAAA800, {}) ∧ rcpaElem fmtF32 0x40000000 = (0x3F000000, {}) ∧ rsqaElem fmtF32 0x40000000 = (0x3F350000, {})
    ∧ rcpaElem fmtF32 0x00400000 = (0x7F000000, {}) ∧ rcpaElem fmtF32 0x00000001 = (0x7F800000, { of := true })
    ∧ rcpaElem fmtF32 0x7F400000 = (0, { uf := true }) ∧ rcpaElem fmtF32 0x80000000 = (0xFF800000, {})
    ∧ rsqaElem fmtF32 0xFF800000 = (0x7FC00000, { nv := true })

/-- VCVT, VPERM, VNIB, VZIP, VUNZIP, VSLIDE, VGATH, VSCAT, VBMP, VDRAW, VDMERGE, SELDRAIN, VDOTQ and VL2Q complete with the elements that
`groupResult` names, in vector registers or pushed, the others being kept; VPOPC, VRSUM, VRMAX and VRMIN with the register that `reduceResult`
names, a write to g0 being discarded; SELINIT, SELFEED and SELMRG with the selection unit that `selectResult` names. FSTAT gathers their
flags. VMOV with T pushes one terminal entry. -/
def Obligations.VectorGroupResults : Prop :=
  ∀ (s : State) (i : Instr) (p : BitVec 4) (x : XSem), vectorInstr s i = some (p, x) → Ready i .X p (x.needs s) s = true →
    x.check s = .ok ((), s) → ∃ t, exec i s = .next t ∧
      (∀ w f fl, groupResult s x i = some (w, f, fl) → ∃ l, x.gives s t l fl ∧ t.ctx.xu.sel = s.ctx.xu.sel
        ∧ ∀ j, j < l.length * epr w → seqLane w l j = ((f j).map fun v => v % 2 ^ w).getD (seqLane w (x.before s) j)) ∧
      (∀ gs v fl, reduceResult s x i = some (gs, v, fl) → x.gives s t [] fl
        ∧ ∀ r, t.reg .X r = if r = 0 then 0 else if r = gs then v else s.reg .X r) ∧
      (∀ u fl, selectResult s x i = some (u, fl) → x.gives s t [] fl ∧ t.ctx.xu.sel = some u) ∧
      (∀ vd ex, i = .vmovTerm p vd ex → s.gathers t {}
        ∧ t.ctx.queue (vd.toNat - 36) = s.ctx.queue (vd.toNat - 36) ++ [{ full := true, term := true }])

/-- The integer arithmetic of VADD, VSUB, VMUL, VFMA and VFMS (Table 11-4): the element stands for the exact result modulo 2^w, or with
SAT for the value of the type nearest to it, and no flag is raised. -/
def Obligations.IntegerElementsWrapOrSaturate : Prop :=
  ∀ (ty : Nat) (g : Int → Int → Int → Int) (f : Val → Val → Val → Val × Bool) (a b c : Nat), ty ≤ 7 →
    let exact := g (intOf ty a) (intOf ty b) (intOf ty c)
    ((arith ty false f g a b c).1 : Int) % 2 ^ tyBits ty = exact % 2 ^ tyBits ty
      ∧ (arith ty false f g a b c).1 < 2 ^ tyBits ty
      ∧ intOf ty (arith ty true f g a b c).1 = max (intMin ty) (min (intMax ty) exact)
      ∧ (arith ty true f g a b c).2 = {} ∧ (arith ty false f g a b c).2 = {}

/-- The mask stack and the extents. MPUSH puts above the top the mask of just those elements below the active count that the top has and
for which its condition holds, and FSTAT gathers the flags of the condition; MINV makes
the top those elements of the mask below that it did not have; MPOP removes the top; EXTS sets one extent register; BMZ branches when
the top is zero. -/
def Obligations.MasksAndExtentsResults : Prop :=
  ∀ (s : State) (p : BitVec 4),
    (∀ cc va vb ex ty, let x := semMpush cc va vb ex ty
      let at' := fun k j => seqLane (typeBits ty) ((x.sources s).getD k []) j
      let holds : Nat → Bool × Flags := fun j => if cc = 7 then (decide (seqLane 1 ((x.sources s).getD 0 []) j = 1), {})
        else holdsCond cc (decodeTy ty.toNat (at' 0 j)) (decodeTy ty.toNat (at' 1 j))
      Ready (.mpush p cc va vb ex ty) .X p (x.needs s) s = true → x.check s = .ok ((), s) →
      ∃ t m, exec (.mpush p cc va vb ex ty) s = .next t ∧ t.ctx.xu.masks = m :: s.ctx.xu.masks ∧ t.ctx.xu.v = s.ctx.xu.v
        ∧ s.gathers t (flagsOver (x.count s) (fun _ => true) fun j => (holds j).2)
        ∧ ∀ j, m.getLsbD j = true ↔ j < x.count s ∧ s.ctx.topMask.getLsbD j = true ∧ (holds j).1 = true) ∧
    (∀ top below r, Ready (.minv p) .X p {} s = true → s.ctx.xu.masks = top :: below :: r →
      ∃ t, exec (.minv p) s = .next t ∧ t.ctx.xu = { s.ctx.xu with masks := (below &&& ~~~top) :: below :: r }) ∧
    (∀ top below r, Ready (.mpop p) .X p {} s = true → s.ctx.xu.masks = top :: below :: r →
      ∃ t, exec (.mpop p) s = .next t ∧ t.ctx.xu = { s.ctx.xu with masks := below :: r }) ∧
    (∀ gs im n ex ty, let k := if im = 1 then n.toNat else (s.reg .X gs).toNat
      Ready (.exts p gs im n ex ty) .X p {} s = true → k ≤ 6 * (4096 / typeBits ty) →
      ∃ t, exec (.exts p gs im n ex ty) s = .next t ∧ t.ctx.xu = { s.ctx.xu with ext := s.ctx.xu.ext.set {} ex.toNat { n := k, w := typeBits ty } }) ∧
    (∀ imm, Ready (.bmz p imm) .X p {} s = true →
      exec (.bmz p imm) s = .next ((s.issued .X p {} 2).retired (.bmz p imm) .X p {}
        (if s.ctx.topMask = 0 then .branch ((s.ctx.eng .X).pc + imm.toInt).toNat else .seq)))

/-- MLOOP completes in turns: at its issue, its body being allowed, the trip count is fixed; at each later turn one word of the body
is walked, under the slip bound, an illegal one being a trap there; once all are walked, at each turn one instruction of the body is issued
and retired, in order, iteration after iteration, a trap of one leaving X at that instruction and the sequencer where it is; once all are
issued, X goes on at the body's end. That a turn walks one word or issues one instruction, and that X's program counter stays at the MLOOP
between turns, is the model's choice (log 14). A legal word of X in the body that a body may not hold, or one past the 64th, the words of X
before it being legal and allowed, makes the MLOOP itself trap with class 7 cause 5, before any wait. -/
def Obligations.MloopCompletes : Prop :=
  (∀ (s : State) (p : BitVec 4) (gs : BitVec 5) (ii : BitVec 6) (endo : BitVec 12) (l : List BodyWord), s.body endo.toNat = .ok l →
    let i : Instr := .mloop p gs ii endo
    let ins := l.filter (·.ins.isSome)
    let inside := fun (t : State) (stage count : Nat) (data : List Nat) =>
      ∃ pr, (t.ctx.eng .X).prog = some pr ∧ pr.stage = stage ∧ pr.count = count ∧ pr.data = data ∧ pr.home = some s.mloopPc
    (Ready i .X p {} s = true → ∃ t, exec i s = .next t ∧ inside t 1 0 [(s.reg .X gs).toNat % 2 ^ 32]
      ∧ (t.ctx.eng .X).pc = (s.ctx.eng .X).pc ∧ t.mem = s.mem) ∧
    (∀ pr, s.cc.runnable .X = true → (s.ctx.eng .X).prog = some pr → pr.fill = false → pr.home = some s.mloopPc → pr.stage = 1 →
      (∀ w, l[pr.count]? = some w → w.bad = none → s.ctx.slipOk .X w.len = true →
        ∃ t, exec i s = .next t ∧ inside t 1 (pr.count + 1) pr.data ∧ (t.ctx.eng .X).pc = s.mloopPc
          ∧ (t.ctx.eng .X).wc = (s.ctx.eng .X).wc + BitVec.ofNat 32 w.len ∧ t.mem = s.mem) ∧
      (∀ w c, l[pr.count]? = some w → w.bad = some c →
        ∃ t, exec i s = .next t ∧ inside t 1 pr.count pr.data ∧ (t.ctx.eng .X).pc = w.pc ∧ (t.ctx.eng .X).hold = some (.trap 1 c) ∧ t.mem = s.mem) ∧
      (l.length ≤ pr.count → ∃ t, exec i s = .next t ∧ inside t 2 0 pr.data ∧ (t.ctx.eng .X).pc = (s.ctx.eng .X).pc ∧ t.mem = s.mem)) ∧
    (∀ pr, s.cc.runnable .X = true → (s.ctx.eng .X).prog = some pr → pr.fill = false → pr.home = some s.mloopPc → pr.stage = 2 →
      let trip := pr.data.headD 0
      (trip * ins.length ≤ pr.count → s.cc.badPath ≠ some .X →
        exec i s = .next (s.retired i .X p {} (.loops (s.ctx.seenLoops .X) (s.mloopPc + endo.toNat)))) ∧
      (∀ w j q x, pr.count < trip * ins.length → ins[pr.count % ins.length]? = some w → w.ins = some j → bodyInstr s j = some (q, x) →
        (∀ t, issueBody q x s = .ok ((), t) →
          ∃ u, exec i s = .next u ∧ inside u 2 (pr.count + 1) pr.data ∧ u.mem = t.mem ∧ u.ctx.xu = t.ctx.xu ∧ u.ctx.queues = t.ctx.queues
            ∧ u.ctx.fifo = t.ctx.fifo) ∧
        (∀ c n v f, issueBody q x s = .error (.trap c n v, f) →
          ∃ u, exec i s = .next u ∧ inside u 2 pr.count pr.data ∧ (u.ctx.eng .X).pc = w.pc ∧ (u.ctx.eng .X).hold = some (.trap c n)
            ∧ u.ctx.xu = s.ctx.xu ∧ u.ctx.queues = s.ctx.queues ∧ u.mem = s.mem)))) ∧
  (∀ (s : State) (p : BitVec 4) (gs : BitVec 5) (ii : BitVec 6) (endo : BitVec 12) (n a : Nat) (j : Instr),
    let i : Instr := .mloop p gs ii endo
    let xs := s.wordsOfX (s.ctx.x.pc + endo.toNat) endo.toNat (s.ctx.x.pc + 2)
    let holds := fun (b : Nat) (k : Instr) => decode (s.cc.imem.get 0 b) (s.cc.imem.get 0 (b + 1)) = .ok k ∧ encodingCauseAt k s.cc b = none
    s.cc.runnable .X = true → (s.ctx.eng .X).prog = none → encodingCause i s.cc .X = none → xs[n]? = some a → holds a j →
    (bodyInstr s j = none ∨ 64 ≤ n) → (∀ m b, m < n → xs[m]? = some b → ∃ k, holds b k ∧ (bodyInstr s k).isSome = true) →
    exec i s = .next (s.stopped .X (.trap 7 5 0)))

/-- ZCNV, ZCNV.term, ZCOMP, ZCOMP.term, ZCLR, ZRD, FPRT.tile, FPRT.pass, FPRT.emit, FSQA, FSCL, FSCL.rng, FMV, FMV.term and FWAIT complete
where the rules let them act, with the effect that `finishResult` names and no other. -/
def Obligations.FinishInstructionsComplete : Prop :=
  ∀ (s : State) (i : Instr) (p : BitVec 4) (n : Needs) (f : State → State),
    finishResult s i = some (p, n, f) → Ready i .F p n s = true →
    exec i s = .next ((f (s.issued .F p n 2)).retired i .F p n .seq)

/-- Block compression loses nothing: of any 256 bytes, under any type, the encoding has a well-formed header, the length that the header
says, and decodes to those bytes. -/
def Obligations.BlocksRoundTrip : Prop :=
  ∀ (ty : Nat) (l : List Byte), ty ≤ 14 → l.length = 256 →
    ∃ h, vbcHead ty ((vbcEncode ty l).take 16) = some h ∧ (vbcEncode ty l).length = h.len ty
      ∧ h.data ty ((vbcEncode ty l).drop 16) = l

/-- The work queues as the host and the tundishes act on them. WQTAIL_WRITE of a host-fed enabled queue moves the tail when the
records fit, and halts the queue with ERR 2 when they do not. WQ_ENABLE of a disabled queue makes it active when SIZE, HWM and LWM are
within their limits, a head word that is owed being written first, and otherwise leaves it disabled with ERR 1; a fault of that write
halts it with ERR 4. WQ_DISABLE ends dispatch. Of an enabled queue a write that would change another field sets CFGIGN. OVF is set as the
depth reaches HWM and cleared as it falls below LWM; at an enable it is tested with the new marks, and a disable leaves it (log 102).
HEAD_WORD_WRITE writes the head to the head word; after a fault there, which sets ERR 4 and halts an enabled queue, it waits for the next
enable. FRONT_REFILL copies the next slot, and halts the queue with ERR 3 when an invalid record that the host has written thereby reaches
the front; HELD_PUSH_ENQUEUE enqueues the oldest held record and completes its push with status 0: its work goes on at once on its core,
or, descheduled, is offered again. No other queue and no other byte of memory changes. -/
def Obligations.QueueEventsComplete : Prop :=
  ∀ (s : State) (q : Nat) (v : Word), q < 32768 →
    let w := s.wq q
    let t32 : BitVec 32 := v.setWidth 32
    let on := putBits v 38 38 1
    let fits := bits v 36 33 ≤ 12 ∧ 2 ≤ bits v 32 16 ∧ bits v 32 16 ≤ 2 ^ (bits v 36 33 + 4) ∧ 1 ≤ bits v 15 0
      ∧ bits v 15 0 < bits v 32 16
    let others := fun (t : State) => ∀ j, j ≠ q → t.wq j = s.wq j
    let leaves := fun (o : Out) (x : WQ) => ∃ t, o = .next t ∧ t.mem = s.mem ∧ t.wq q = x ∧ others t
    let flag := fun (hwm lwm depth : Nat) => if hwm ≤ depth then true else if depth < lwm then false else w.ovf
    let changes := w.cfgign || decide (putBits w.cfg 38 38 0 ≠ putBits v 38 38 0)
    let headed := fun (key : Nat) (u t : State) => ∀ a,
      t.mem.get 0 a = if key ≤ a ∧ a < key + 8 then (BitVec.ofNat 64 w.head.toNat).extractLsb' (8 * (a - key)) 8 else u.mem.get 0 a
    (s.stage = 5 → w.en = true → w.deviceFed = false →
      ((t32 - w.tail).toNat ≤ w.size - w.depth → leaves (exec (.wqtailWrite q v) s)
        { w with tail := t32, ovf := if t32 = w.tail then w.ovf else flag w.hwm w.lwm (t32 - w.head).toNat }) ∧
      (w.size - w.depth < (t32 - w.tail).toNat → w.held = [] →
        leaves (exec (.wqtailWrite q v) s) { w with st := 2, err := 2, front := [], checked := false })) ∧
    (s.stage = 5 → w.en = false →
      let active : WQ := { w with
        cfg := on, st := 1, err := 0, headBad := false, dirty := false, ovf := flag (bits v 32 16) (bits v 15 0) w.depth }
      (¬ fits → leaves (exec (.wqEnable q v) s) { w with cfg := putBits on 38 38 0, err := 1 }) ∧
      (fits → w.dirty = false → leaves (exec (.wqEnable q v) s) active) ∧
      (fits → w.dirty = true → ∀ r u, r = (s.dropQueueWaits q).modWQ q (fun w => { w with cfg := on, headBad := false }) →
        (∀ key, r.translate (.tundish (r.wq q).home) (r.wq q).part (r.wq q).asid w.heada.toNat accWrite = (.ok key, u) →
          ∃ t, exec (.wqEnable q v) s = .next t ∧ t.wq q = active ∧ others t ∧ headed key u t) ∧
        (∀ c l, r.translate (.tundish (r.wq q).home) (r.wq q).part (r.wq q).asid w.heada.toNat accWrite = (.fail c l, u) → w.held = [] →
          ∃ t, exec (.wqEnable q v) s = .next t ∧ others t ∧ t.mem = u.mem
            ∧ t.wq q = { w with cfg := on, st := 2, err := 4, headBad := true, front := [], checked := false }))) ∧
    (s.stage = 5 → w.en = true →
      leaves (exec (.wqEnable q v) s) { w with cfgign := changes } ∧
      (w.held = [] → leaves (exec (.wqDisable q v) s)
        { w with cfg := putBits w.cfg 38 38 0, st := 0, front := [], checked := false, cfgign := changes })) ∧
    (w.dirty = true → w.headBad = false →
      (∀ key u, s.translate (.tundish w.home) w.part w.asid w.heada.toNat accWrite = (.ok key, u) →
        ∃ t, exec (.headWordWrite q) s = .next t ∧ others t ∧ headed key u t
          ∧ t.wq q = if w.en ∧ w.st = 0 then { w with dirty := false, st := 1, err := 0, ovf := flag w.hwm w.lwm w.depth }
            else { w with dirty := false }) ∧
      (∀ c l u, s.translate (.tundish w.home) w.part w.asid w.heada.toNat accWrite = (.fail c l, u) → w.held = [] →
        ∃ t, exec (.headWordWrite q) s = .next t ∧ others t ∧ t.mem = u.mem
          ∧ t.wq q = if w.en then { w with headBad := true, st := 2, err := 4, front := [], checked := false }
            else { w with headBad := true, err := 4 })) ∧
    (w.headBad = true → exec (.headWordWrite q) s = .next s) ∧
    (∀ key u, w.active = true → w.front.length < 8 → w.front.length < w.depth → s.frontUsed w.home < 1024 →
      s.translate (.tundish w.home) w.part w.asid (w.slotVa (w.head + BitVec.ofNat 32 w.front.length)) accRead = (.ok key, u) →
      let x : WQ := { w with front := w.front ++ [(w.head + BitVec.ofNat 32 w.front.length, BitVec.ofNat 1024 (u.readM key 128))] }
      ∃ t, exec (.frontRefill q) s = .next t ∧ t.mem = u.mem ∧ others t
        ∧ (u.frontBad x = false → t.wq q = { x with checked := w.checked || x.frontRec.isSome })
        ∧ (u.frontBad x = true → w.held = [] → t.wq q = { x with st := 2, err := 3, front := [], checked := false })) ∧
    (∀ h r u k, w.held = h :: r → w.active = true → w.ovf = false → w.depth < w.hwm → s.enqueue q h.record = (u, .counted) →
      s.coreOfWork h.work = some k →
      ∃ t, exec (.heldPushEnqueue q) s = .next t ∧ t.mem = u.mem ∧ (t.wq q).held = r ∧ (t.wq q).tail = w.tail + 1 ∧ others t
        ∧ ((t.core k).ctx.eng .C).reg h.gd = 0 ∧ ((t.core k).ctx.eng .C).prog = none) ∧
    (∀ h r u g c, w.held = h :: r → w.active = true → w.ovf = false → w.depth < w.hwm → s.enqueue q h.record = (u, .counted) →
      s.coreOfWork h.work = none → g ∈ s.off → g.work.id = h.work → g.st = .push → g.ctx = some c →
      ∃ t g' c', exec (.heldPushEnqueue q) s = .next t ∧ t.mem = u.mem ∧ t.cores = u.cores ∧ (t.wq q).held = r
        ∧ (t.wq q).tail = w.tail + 1 ∧ others t ∧ g' ∈ t.off ∧ g'.st = .saved ∧ g'.work.id = h.work ∧ g'.work.chain = g.work.chain
        ∧ g'.ctx = some c' ∧ (c'.eng .C).reg h.gd = 0 ∧ (c'.eng .C).prog = none ∧ (c'.eng .A) = (c.eng .A) ∧ c'.spad = c.spad)

/-- Placement. PLACEMENT_GRANT, on the free core that takes a queue's front record, places the segment or the next iteration: every
engine is at the record's entry with the start registers of Table 1-4, an iteration's indices in g24 to g29 as the walk gives them and its
number in g30, the phase numbers are those of the domains joined, and scratchpad is as it was; the text is in instruction memory, copied
unless its tag says that it is there; at the record's first grant each semaphore of WAITM has lost 1; the walk goes on behind the
iteration, and the head behind a segment or the last one. NEST_EMPTY_RETIRE passes an empty nest; SPEC_RECORD_MOVE, once the pool has room, moves a speculative record
into it, or drops it when its variable is resolved the other way. POOL_TAKE and WORK_RESUME place the work that the core takes, saved
work where it had come to, its scratchpad as the save slot holds it. -/
def Obligations.PlacementEventsComplete : Prop :=
  ∀ (s : State) (k q p d : Nat) (r : BitVec 1024) (u : State) (i : Image) (keys : List Nat),
    let w := s.wq q
    let tag : ImemTag := { part := w.part, asid := w.asid, desc := i.desc, gen := i.gen, len := i.len, text := i.text }
    let placed := fun (t : State) (x : Work) => (t.core k).work = some x ∧ (∀ j, j ≠ k → t.core j = s.core j)
    let kept := fun (t : State) (j : Nat) => (∀ h ∈ w.held, s.coreOfWork h.work ≠ some j) → t.core j = s.core j
    (k < 1024 → (∀ e ∈ s.queues, s.frontBad e.2 = false) → s.takes k = .queue q p d → s.outranked q = false → w.frontRec = some r →
      s.checkImage (dieOf k) w.part w.asid (recCode r) (recEntry r) = (.ok i keys, u) →
      ∃ t x, exec (.placementGrant k) s = .next t ∧ (t.core k).work = some x ∧ (∀ j, j ≠ k → kept t j) ∧ t.mem = u.mem
        ∧ x.queue = some q ∧ x.part = w.part ∧ x.asid = w.asid
        ∧ x.entry = recEntry r ∧ x.args = recArgs r ∧ x.gen = i.gen ∧ x.len = i.len
        ∧ (∀ e, (t.core k).ctx.eng e = { pc := recEntry r, g := x.startRegs, passed := s.now })
        ∧ (t.core k).ctx.spad = (s.core k).ctx.spad ∧ (t.core k).ctx.csr.pn = s.joinPhases k x
        ∧ (recKind r = 2 → x.kind = .segment ∧ x.prio = p ∧ (t.wq q).head = w.head + 1)
        ∧ (recKind r ≠ 2 → x.iter = ((w.walk.map (·.k)).getD 0))
        ∧ (∀ n, n < 64 → (t.part w.part).wsem.get 0 n = if w.walk = none ∧ (recWaitm r).getLsbD n = true
            then (s.part w.part).wsem.get 0 n - 1 else (s.part w.part).wsem.get 0 n)
        ∧ (t.core k).tag = some tag
        ∧ (∀ j, j < i.len → (t.core k).imem.get 0 j = if (s.core k).tag = some tag then (s.core k).imem.get 0 j
            else BitVec.ofNat 32 (u.readM (keys.getD (j / 1024) 0 + 4 * (j % 1024)) 4))
        ∧ (∀ code, recKind r ≠ 2 → recNdim r ≤ 6 →
            let it := (w.walk.map (·.k)).getD 0
            let first := (w.walk.map (·.code)).getD 0
            (recWalk r = 2 → first ≤ code ∧ code < 2 ^ (∑ d ∈ Finset.range (recNdim r), Nat.clog 2 (recTrip r d))
              ∧ mortonIn (recNdim r) (recTrip r) code
              ∧ ∀ c, first ≤ c → c < code → ¬ mortonIn (recNdim r) (recTrip r) c) →
            (∃ j : Nat → Nat, iterationAt r it code j ∧ ∀ e, ((t.core k).ctx.eng e).reg 30 = BitVec.ofNat 64 it
              ∧ ∀ d, d < 6 → ((t.core k).ctx.eng e).reg (BitVec.ofNat 5 (24 + d))
                  = if d < recNdim r then BitVec.ofNat 64 (j d) else 0) ∧
            (recCount r ≤ it + 1 → (t.wq q).head = w.head + 1 ∧ (t.wq q).walk = none) ∧
            (it + 1 < recCount r → (t.wq q).head = w.head ∧ ∃ y, (t.wq q).walk = some y ∧ y.k = it + 1
              ∧ (∀ z, w.walk = some z → y.nest = z.nest) ∧ (recWalk r = 2 → y.code = code + 1)))) ∧
    (w.frontRec = some r → s.frontBad w = false → w.active = true → recEmpty r = true → s.waitmMet w r = true →
      s.outranked q = false → ∃ t, exec (.nestEmptyRetire q) s = .next t ∧ t.mem = s.mem ∧ (∀ j, kept t j) ∧ (t.wq q).head = w.head + 1
        ∧ ∀ n, n < 64 →
          let c := (s.part w.part).wsem.get 0 n
          let c := if (recWaitm r).getLsbD n then c - 1 else c
          (t.part w.part).wsem.get 0 n = if (recSigm r).getLsbD n then semUp c else c) ∧
    (∀ cv, w.frontRec = some r → s.frontBad w = false → w.active = true → recKind r = 2 → recSpec r = true →
      s.cvOf w.part (recCv r) = some cv → s.poolRoom = true →
      (cv.val = some (!recSide r) → ∃ t, exec (.specRecordMove q) s = .next t ∧ (w.held = [] → t.off = s.off) ∧ (t.wq q).head = w.head + 1) ∧
      (∀ key v, cv.val ≠ some (!recSide r) →
        s.translate (.tundish w.home) w.part w.asid (recCode r) accRead = (.ok key, v) →
        ∃ t g, exec (.specRecordMove q) s = .next t ∧ g ∈ t.off ∧ (w.held = [] → t.off = s.off ++ [g]) ∧ g.work.place = true ∧ g.work.args = recArgs r
          ∧ g.work.entry = recEntry r ∧ (g.work.chain = [] ↔ cv.val.isSome = true) ∧ (t.wq q).head = w.head + 1 ∧ t.mem = v.mem)) ∧
    (∀ g, s.takes k = .pool g ∨ s.takes k = .seg g →
      s.checkImage (dieOf k) g.work.part g.work.asid g.work.desc g.work.entry = (.ok i keys, u) →
      let lands := fun (o : Out) (f : State → Prop) => ∃ t x, o = .next t ∧ placed t x ∧ x.id = g.work.id ∧ t.mem = u.mem
        ∧ (∀ y ∈ t.off, y.work.id ≠ g.work.id) ∧ f t
      let fresh := fun (t : State) => ∀ e, ((t.core k).ctx.eng e).pc = g.work.entry
      (s.takes k = .pool g → g.ctx = none → lands (exec (.poolTake k) s) fresh) ∧
      (s.takes k = .seg g → k < 1024 → (∀ e ∈ s.queues, s.frontBad e.2 = false) → g.st = .fresh → g.ctx = none →
        lands (exec (.placementGrant k) s) fresh) ∧
      (∀ c, s.takes k = .seg g → g.st = .saved ∨ g.st = .suspended → (∀ y ∈ s.off, y.st ≠ .fenced) → g.ctx = some c → i.gen = g.work.gen →
        let c := if g.slot.isSome then c.reloaded u ((u.part g.work.part).slotAddr (g.slot.getD 0)) else c
        lands (exec (.workResume k) s) fun t => (t.core k).ctx.spad = c.spad ∧ ∀ e, ((t.core k).ctx.eng e).pc = (c.eng e).pc
          ∧ ((t.core k).ctx.eng e).g = (c.eng e).g ∧ ((t.core k).ctx.eng e).loops = (c.eng e).loops))

/-- The end of a piece of work, and the start of a conductor's. WORK_RETIRE, once every engine has executed DONE and nothing is left to
publish or to perform, frees the core, whose scratchpad stays, and signals a segment's semaphores. CONDUCTOR_START of an idle
conductor whose record is a valid segment and whose semaphores are ready places it on the conductor's core, and RUN is 1. -/
def Obligations.WorkEndAndConductorStart : Prop :=
  ∀ (s : State),
    (∀ k w, (s.core k).work = some w → (s.core k).retires = true → w.spec = false → w.sb = [] → (s.core k).ob = [] →
      ∃ t, exec (.workRetire k) s = .next t ∧ (t.core k).work = none ∧ (t.core k).ctx.spad = (s.core k).ctx.spad ∧ t.mem = s.mem
        ∧ (∀ j, j ≠ k → t.core j = s.core j)
        ∧ (w.kind = .segment → ∀ n, n < 64 → (t.part w.part).wsem.get 0 n
            = if w.sigm.getLsbD n then semUp ((s.part w.part).wsem.get 0 n) else (s.part w.part).wsem.get 0 n)) ∧
    (∀ c v key u r i keys w, s.stage = 5 → c < 8 → (s.conds.get {} c).run = false →
      let k := 1024 + c
      let part := bits v 47 44
      let asid := bits v 63 48
      let x : Cond := { s.conds.get {} c with
        asid := v.extractLsb' 48 16, part := v.extractLsb' 44 4, en := true, flt := false, waits := true }
      (s.core k).work = none → (s.core k).fenced = false → (s.core k).test = none →
      ({ s with conds := s.conds.put c x } : State).translate (.loader (dieOf k)) part asid x.record.toNat accRead = (.ok key, u) →
      r = BitVec.ofNat 1024 (u.readM key 128) → recKind r = 2 → recSpec r = false → u.validRecord part r = true →
      (u.part part).semsReady (recWaitm r) = true →
      (u.useReplica (dieOf k) key).checkImage (dieOf k) part asid (recCode r) (recEntry r) = (.ok i keys, w) →
      ∃ t y, exec (.conductorStart c v) s = .next t ∧ (t.core k).work = some y ∧ y.kind = .conductor c ∧ y.queue = none
        ∧ (t.conds.get {} c).run = true ∧ (t.conds.get {} c).flt = false ∧ t.mem = w.mem
        ∧ (∀ e, (t.core k).ctx.eng e = { pc := recEntry r, g := y.startRegs, passed := s.now }) ∧ ∀ j, j ≠ k → t.core j = s.core j)

/-- PERFORM writes the bytes of the oldest entry of a core's outbound queue to global memory, and no other byte. PHASE_BOUNDARY, when
every core of a domain's active set has arrived with its stores performed, adds 1 to the phase number; each of them sees the new
number, a refresh of its snapshot is due, and a core whose work joins in that cycle sees the new number too. At level 4 the cores of the
active set on other devices are not waited for (log 74: the model's choice). SLIP_BOUND_LIFT lifts the bound of a core whose live engines are all stalled, one by the bound alone:
SLIPCTL.DL is set. -/
def Obligations.OrderingEventsComplete : Prop :=
  ∀ (s : State),
    (∀ k st r, (s.core k).ob = st :: r → s.noPath st.key = false → s.lostPeer st.key = false → ∃ t, exec (.perform k) s = .next t ∧ (t.core k).ob = r ∧ (∀ j, j ≠ k → t.core j = s.core j)
      ∧ ∀ a, t.mem.get 0 a
          = if st.key ≤ a ∧ a < st.key + st.size then st.data.extractLsb' (8 * (a - st.key)) 8 else s.mem.get 0 a) ∧
    (∀ p lvl idx, (s.part p).en = true → 1 ≤ lvl → lvl ≤ 4 → (lvl < 3 ∨ idx = 0) → s.activeCores p lvl idx ≠ [] →
      (∀ g ∈ s.off, s.activeOff p lvl idx g = false) → (∀ k ∈ s.activeCores p lvl idx, (s.core k).arrivedAt lvl = true) →
      ∃ t, exec (.phaseBoundary p lvl idx) s = .next t ∧ t.phaseOf p lvl idx = s.phaseOf p lvl idx + 1 ∧ t.mem = s.mem
        ∧ (∀ k ∈ s.activeCores p lvl idx, ∃ w, (t.core k).work = some w ∧ w.arrived = none ∧ k ∈ t.due
            ∧ (t.core k).ctx.csr.pn.get 0 lvl = (s.phaseOf p lvl idx + 1).toNat)
        ∧ (∀ k ∈ s.joiners p lvl idx, k ∉ s.activeCores p lvl idx →
            t.core k = { s.core k with ctx := { (s.core k).ctx with csr := { (s.core k).ctx.csr with pn := (t.core k).ctx.csr.pn } } }
            ∧ ∀ n, (t.core k).ctx.csr.pn.get 0 n
                = if n = lvl then (s.phaseOf p lvl idx + 1).toNat else (s.core k).ctx.csr.pn.get 0 n)
        ∧ ∀ k, k ∉ s.activeCores p lvl idx → k ∉ s.joiners p lvl idx → t.core k = s.core k) ∧
    (∀ k, s.slipLocked k = true → (s.core k).ctx.csr.lifted = [] → ∃ t, exec (.slipBoundLift k) s = .next t ∧ t.mem = s.mem
      ∧ (t.core k).ctx = { (s.core k).ctx with csr := { (s.core k).ctx.csr with dl := true, lifted := (s.core k).ctx.trailing } }
      ∧ ∀ j, j ≠ k → t.core j = s.core j)

/-- The control entries of a ladle's chain. CHAIN_START takes the oldest chain of its queue, and the flow modes. LADLE_LOOP goes back
over its body until its count is used up. COND goes on after the next entry, or after those it skips when its condition
holds. SEMWAIT with no waiter before it takes from its cluster's semaphore, SEMSIG adds to it, poisoned in a bad chain, and
SEMAPHORE_TAKE lets the oldest waiter take. LADLE_PUBL flips its handle; in a bad chain it is withheld, and the chain's record takes status 5, where R191 gives the status of the
first failure, but still the entry of that failure (log 60: R190 and R366 against R191). LADLE_END writes the chain's record where the entry
names one, frees the ladle, enters the chain among those that have ended, and sets EVT of the core that started it. -/
def Obligations.ChainEntriesComplete : Prop :=
  ∀ (s : State) (l : Nat) (r : Run),
    let f := s.entryDw r.chain r.idx
    let next : Run := { r with idx := r.idx + 1, publ := none }
    let n := bits (f 1) 25 16
    let key := 256 * (l / 2) + bits (f 1) 7 0
    let x := s.sem key
    (∀ c rest, (s.ladle l).run = none → (s.ladle l).fenced = false → (s.ladle l).test = none → (s.ladle l).halted = false →
      (s.ladle l).resume = [] → (s.ladle l).queue = c :: rest →
      ∃ t, exec (.chainStart l) s = .next t ∧ t.mem = s.mem ∧ t.ladle l = { s.ladle l with
        run := some { chain := c, ordp := (s.ladle l).ordp, ordd := (s.ladle l).ordd }, queue := rest }) ∧
    (s.atEntry l r 2 → f 1 ≠ 0 → f 2 ≠ 0 → (f 2).toNat ≤ r.idx →
      (∀ j, j < (f 2).toNat → s.entryOp r.chain (r.idx - (f 2).toNat + j) ≠ some 2 ∧ s.entryOp r.chain (r.idx - (f 2).toNat + j) ≠ some 8) →
      let left := (r.loops.find r.idx).getD (f 1).toNat
      ∃ t y, exec (.ladleLoop l) s = .next t ∧ s.ladleOnly t l y ∧ y.idx = (if 1 < left then r.idx - (f 2).toNat else r.idx + 1)
        ∧ y.loops.find r.idx = (if 1 < left then some (left - 1) else none)) ∧
    (∀ d u, s.atEntry l r 3 → bits (f 0) 10 8 ≤ 5 → f 3 ≠ 0 → (f 1).toNat % 8 = 0 → (f 0).getLsbD 20 = false →
      ladleRead l r.chain (f 1).toNat 8 8 s = .ok (d, u) →
      (∀ j, j < (f 3).toNat → u.entryOp r.chain (r.idx + 1 + j) ≠ some 8) →
      ∃ t, exec (.cond l) s = .next t ∧ t.mem = u.mem ∧ (t.ladle l).run = some { next with
        idx := if condHolds (bits (f 0) 10 8) (BitVec.ofNat 64 (ofBytes d)) (f 2) then r.idx + 1 + (f 3).toNat else r.idx + 1 }) ∧
    (s.atEntry l r 3 → bits (f 0) 10 8 ≤ 5 → f 3 ≠ 0 → (f 1).toNat % 8 = 0 → (f 0).getLsbD 20 = true → (f 1).toNat + 8 ≤ 786432 →
      (∀ j, j < (f 3).toNat → s.entryOp r.chain (r.idx + 1 + j) ≠ some 8) →
      let d := (s.core (l / 2 * 16 + bits (f 0) 33 30)).ctx.spadBytes (f 1).toNat 8
      ∃ t, exec (.cond l) s = .next t ∧ s.ladleOnly t l { next with
        idx := if condHolds (bits (f 0) 10 8) (BitVec.ofNat 64 (ofBytes d)) (f 2) then r.idx + 1 + (f 3).toNat else r.idx + 1 }) ∧
    (s.atEntry l r 4 → n ≠ 0 → x.waiters = [] → x.taken = [] → n ≤ x.count →
      ∃ t, exec (.semwait l) s = .next t
        ∧ s.ladleOnly t l { next with bad := if x.poison then some (r.bad.getD (3, r.idx)) else r.bad }
        ∧ t.sem key = { x with count := x.count - n } ∧ ∀ j, j ≠ key → t.sem j = s.sem j) ∧
    (s.atEntry l r 5 → n ≠ 0 →
      ∃ t, exec (.semsig l) s = .next t ∧ s.ladleOnly t l next ∧ (∀ j, j ≠ key → t.sem j = s.sem j)
        ∧ t.sem key = { x with
            count := min (x.count + n) 65535, ovf := x.ovf || decide (65535 < x.count + n), poison := x.poison || r.bad.isSome }) ∧
    (∀ cl sem w rest, (s.sem (256 * cl + sem)).waiters = w :: rest → w.count ≤ (s.sem (256 * cl + sem)).count →
      ∃ t, exec (.semaphoreTake cl sem) s = .next t ∧ t.mem = s.mem ∧ t.cores = s.cores
        ∧ t.sem (256 * cl + sem) = { s.sem (256 * cl + sem) with
            count := (s.sem (256 * cl + sem)).count - w.count, waiters := rest
            taken := (s.sem (256 * cl + sem)).taken ++ [(w, (s.sem (256 * cl + sem)).poison)] }) ∧
    (s.atEntry l r 6 →
      let h := bits (f 1) 9 0
      (∀ e, r.bad = some e → ∃ t, exec (.ladlePubl l) s = .next t ∧ t.parts = s.parts
        ∧ s.ladleOnly t l { next with bad := some (5, e.2) }) ∧
      (∀ k w y, r.bad = none → (s.part r.chain.part).handles.find h = some y → y.armed = true → y.owner = r.chain.work →
        s.coreOfWork r.chain.work = some k → (s.core k).work = some w → w.sb = [] → (s.core k).ob = [] → r.publ = none →
        ∃ t, exec (.ladlePubl l) s = .next t ∧ s.ladleOnly t l next
          ∧ (t.part r.chain.part).handles.find h = some { y with cur := !y.cur, armed := false })) ∧
    (s.atEntry l r 8 →
      let ends := fun (m : SMap Byte) => ∃ t, exec (.ladleEnd l) s = .next t ∧ t.mem = m ∧ (t.ladle l).run = none
        ∧ (t.ladle r.chain.lad).ended = (s.ladle r.chain.lad).ended ++ [(r.chain.seq, r.bad.isSome)]
        ∧ (t.core r.chain.core).ctx.csr.evt = true
      (f 1 = 0 → ends s.mem) ∧
      (∀ key u, f 1 ≠ 0 → (f 1).toNat % 64 = 0 → ladleTarget l r.chain (f 1).toNat 64 s = .ok (key, u) →
        ends (u.writeM key (match r.bad with
          | none => completionRecord r.chain.seq r.idx 0 r.bytes {}
          | some (st, e) => completionRecord r.chain.seq e st r.bytes {})).mem))

/-- COPY and FPRINT, and DELIVER. Each begins at its entry, with the fields of the entry and the increments of its loops; moves 16
bytes a step; and completes when all its bytes have moved and its beats are delivered. A COPY takes its bytes from the tier, from scratchpad
or, with XP, from decoded blocks, and gathers a fingerprint with FP. To scratchpad it writes them where the entry says, through Swizzle with
a SPAN, and nothing else; to the ladle's own die or the host it writes them to memory; to another die or a peer they become a beat at the end
of its flow, ordered as the chain's mode says. A malformed block ends it with status 4. It completes with its ring's advance, or status 8
where the ring cannot take it, and with its record. An FPRINT writes nothing, gathers its fingerprint, and compares it with an expected one,
a difference being status 2. DELIVER writes the 16 bytes of a beat to memory, an ordered one once no older beat of its flow is in flight. -/
def Obligations.CopiesComplete : Prop :=
  ∀ (s : State) (l : Nat) (r : Run) (o : CopyOp),
    let now (t : State) (o : CopyOp) : Prop := (t.ladle l).run = some { r with copies := [o] }
    (s.atEntry l r 1 → r.bad = none →
      let o := r.entryOp (s.entryDw r.chain r.idx) false
      copyMalformed o = false → ∃ t, exec (.copy l) s = .next t ∧ s.ladleOnly t l { r with idx := r.idx + 1, publ := none, copies := [o] }) ∧
    (∀ o' d u, s.atCopy l r o → o.fprint = false → o.issued = false → s.copyGives l r.chain o o' d u →
      let span := bits o.dw0 24 22
      let moved : CopyOp := { o' with off := o.off + 16, issued := decide (o.len ≤ o.off + 16)
                                      fp := if o.dw0.getLsbD 19 then o.fp.absorbBytes (bits o.dw0 28 25) d else o.fp }
      (o.dw0.getLsbD 21 = true →
        let place := o.dst + if span = 0 then o.off else swizzle o.off o.pitch (16 * 2 ^ span)
        ∃ t, exec (.copy l) s = .next t ∧ now t moved ∧ t.mem = u.mem
          ∧ ∀ k a, (t.core k).ctx.spad.get 0 a = if k = l / 2 * 16 + bits o.dw0 33 30 ∧ place ≤ a ∧ a < place + d.length
              then d.getD (a - place) 0 else (u.core k).ctx.spad.get 0 a) ∧
      (∀ key w, o.dw0.getLsbD 21 = false → ladleTarget l r.chain (o.dst + o.off) (o.len - o.off) u = .ok (key, w) →
        (dieOfKey key = some (l / 32) ∨ (dieOfKey key = none ∧ tierOfKey key ≠ 3) →
          ∃ t, exec (.copy l) s = .next t ∧ now t moved ∧ t.flows = w.flows
            ∧ ∀ a, t.mem.get 0 a = if key ≤ a ∧ a < key + d.length then d.getD (a - key) 0 else w.mem.get 0 a) ∧
        (∀ dest ordered, (dieOfKey key = some dest ∧ dest ≠ l / 32 ∧ ordered = r.ordd.getLsbD dest)
            ∨ (dieOfKey key = none ∧ tierOfKey key = 3 ∧ dest = 4 + peerOfKey key ∧ ordered = r.ordp) →
          ∃ t b, exec (.copy l) s = .next t ∧ now t { moved with beats := o.beats + 1 } ∧ t.mem = w.mem ∧ t.flows = w.flows ++ [b]
            ∧ b.ladle = l ∧ b.dest = dest ∧ b.seq = w.flowSeq.get 0 (2 ^ 20 * l + dest) ∧ b.key = key ∧ b.ordered = ordered
            ∧ b.data = BitVec.ofNat 128 (ofBytes d) ∧ b.entry = o.idx ∧ b.lad = r.chain.lad ∧ b.chain = r.chain.seq
            ∧ ∀ j, t.flowSeq.get 0 j = if j = 2 ^ 20 * l + dest then b.seq + 1 else w.flowSeq.get 0 j))) ∧
    (∀ u, s.atCopy l r o → o.fprint = false → o.issued = false → s.copyEnds l r.chain o u →
      ∃ t, exec (.copy l) s = .next t ∧ t.mem = u.mem ∧ t.cores = u.cores ∧ (t.ladle l).run = some
        { r with copies := [{ o with status := 4, issued := true }], bad := r.failing 4 o.idx }) ∧
    (∀ (key : Option Nat) (u : State), s.atCopy l r o → o.fprint = false → o.issued = true → o.beats = 0 →
      (match key with
        | none => o.recAddr = 0 ∧ u = s
        | some a => o.recAddr ≠ 0 ∧ ladleTarget l r.chain o.recAddr 64 s = .ok (a, u)) →
      let k := l / 2 * 16 + bits o.dw0 33 30
      let q := bits o.dw0 37 34
      let ring := (u.core k).ctx.ring q
      let n := bits o.dw0 47 38 + 1
      let due := o.status = 0 ∧ o.dw0.getLsbD 29 = true
      let can := ring.init = true ∧ n ≤ ring.free
      let st := if due ∧ ¬ can then 8 else o.status
      ∃ t, exec (.copy l) s = .next t
        ∧ (t.ladle l).run = some { r with
            copies := [], bytes := r.bytes + o.off, bad := if st = 0 ∨ st = 6 then r.bad else r.failing st o.idx }
        ∧ t.mem = (match key with
          | none => u.mem
          | some a => (u.writeM a (completionRecord r.chain.seq o.idx st o.off o.fp)).mem)
        ∧ (t.core k).ctx.ring q = (if due ∧ can then { ring with tail := ring.tail + BitVec.ofNat 32 n } else ring)
        ∧ (∀ j, j ≠ q → (t.core k).ctx.ring j = (u.core k).ctx.ring j) ∧ (t.core k).ctx.spad = (u.core k).ctx.spad
        ∧ ∀ j, j ≠ k → t.core j = u.core j) ∧
    (s.atEntry l r 7 → r.bad = none →
      let o := r.entryOp (s.entryDw r.chain r.idx) true
      fprintMalformed o = false → ∃ t, exec (.fprint l) s = .next t ∧ s.ladleOnly t l { r with idx := r.idx + 1, publ := none, copies := [o] }) ∧
    (∀ d u, s.atCopy l r o → o.fprint = true → o.issued = false → s.sourceReads l r.chain o (o.src + o.off) 1 d u →
      ∃ t, exec (.fprint l) s = .next t ∧ t.mem = u.mem ∧ t.cores = u.cores
        ∧ now t { o with off := o.off + 16, issued := decide (o.len ≤ o.off + 16), fp := o.fp.absorbBytes (bits o.dw0 28 25) d }) ∧
    (∀ e u, s.atCopy l r o → o.fprint = true → o.issued = true → o.status = 0 → o.dw0.getLsbD 19 = true → o.compared = false →
      ladleRead l r.chain o.exp 64 64 s = .ok (e, u) →
      let sums := ([o.fp.nans, o.fp.maxmag.toNat, o.fp.sum.toNat, o.fp.sumsq.toNat].map fun v => toBytes v 8).flatten
      ∃ t, exec (.fprint l) s = .next t ∧ t.mem = u.mem ∧ t.cores = u.cores
        ∧ now t { o with compared := true, status := if (e.drop 16).take 32 = sums then 0 else 2 }) ∧
    (∀ key u, s.atCopy l r o → o.fprint = true → o.issued = true → o.status = 0 → (o.dw0.getLsbD 19 = false ∨ o.compared = true) →
      o.recAddr ≠ 0 →
      ladleTarget l r.chain o.recAddr 64 s = .ok (key, u) →
      ∃ t, exec (.fprint l) s = .next t ∧ (t.ladle l).run = some { r with copies := [] }
        ∧ t.mem = (u.writeM key (completionRecord r.chain.seq o.idx 0 o.off o.fp)).mem) ∧
    (∀ i b, s.flows[i]? = some b → s.noPath b.key = false → s.lostPeer b.key = false →
      (b.ordered = true → ∀ x ∈ s.flows, x.ladle = b.ladle → x.dest = b.dest → 0 ≤ diff32 x.seq b.seq) →
      ∃ t, exec (.deliver i) s = .next t ∧ t.flows = s.flows.eraseIdx i ∧ t.cores = s.cores
        ∧ ∀ a, t.mem.get 0 a = if b.key ≤ a ∧ a < b.key + 16 then b.data.extractLsb' (8 * (a - b.key)) 8 else s.mem.get 0 a)

/-- Translation as the device keeps it going. WALK, a walker being free, serves a walk that its client asks for, and the client's cache
holds the translation. MIGRATION_RETRY finds the entry resident and the access goes on, or finds one under migration and waits on, afresh
for another one; MIGRATION_TIMEOUT, 64 µs after the access began to wait for the entry that it still meets, marks it to take cause 5. TLBIR_ACK acknowledges an invalidation once no store and no beat of its range is under way, and BUSY of INVCMD clears.
REPLICATION makes one replica of a page that is still read-only. TIERCTL_ENABLE reads the schedule header, and sets ERR for one that
is not valid. INVCMD_GO sends an invalidation, unless its range is empty. No engine of a core changes. -/
def Obligations.TranslationEventsComplete : Prop :=
  ∀ (s : State) (p i : Nat) (v : Word),
    (∀ cl part asid va wr key u, let acc := if wr then accWrite else accRead
      (part, asid, va.toNat, acc) ∈ s.wants cl → va.toNat < 2 ^ 52 →
      s.walkerFree (clientDie cl) = true → s.misses (clientDie cl) = [] → s.fill cl part asid va.toNat acc = (.ok key, u) →
      exec (.walk cl part asid va wr) s = .next u ∧ (∀ k e, (u.core k).ctx.eng e = (s.core k).ctx.eng e) ∧
      (match cl with
        | .coreC _ | .coreA _ | .ladle _ => ∃ x ∈ u.tlbOf cl, x.covers part asid va.toNat = true ∧ x.locate va.toNat = .ok key
        | _ => True)) ∧
    (∀ x, s.stalled[i]? = some x → x.expired = false → x.level ≠ noWalker → (∀ g ∈ s.off, g.st ≠ .parked) →
      let becomes := fun (t : State) (y : Stalled) => t.stalled[i]? = some y ∧ t.stalled.length = s.stalled.length
        ∧ t.mem = s.mem ∧ t.cores = s.cores
      (s.migrating x = none → ∃ t, exec (.migrationRetry i) s = .next t ∧ t.stalled = s.stalled.eraseIdx i ∧ t.mem = s.mem ∧ t.cores = s.cores) ∧
      (∀ lv en, s.migrating x = some (lv, en) → ∃ t, exec (.migrationRetry i) s = .next t
        ∧ becomes t (if x.level = lv ∧ x.entry = en then x else { x with level := lv, entry := en, since := s.now })) ∧
      (s.migrating x = some (x.level, x.entry) → x.since + 64 * 700 ≤ s.now → ∃ t, exec (.migrationTimeout i) s = .next t
        ∧ becomes t { x with expired := true })) ∧
    (∀ x, s.invals[i]? = some x → s.settled x = true → ∃ t, exec (.tlbirAck i) s = .next t ∧ t.invals = s.invals.eraseIdx i ∧ t.mem = s.mem
      ∧ t.cores = s.cores ∧ (x.core = none → (s.part x.part).inv = some x.id → (t.part x.part).inv = none)
      ∧ ∀ e ∈ t.dies, ∀ r ∈ e.2.replicas, x.coversVa r.part r.asid r.va 4096 = false) ∧
    (∀ d f rest, nextPage (s.die d).notices = some (f, rest) →
      (({ s with freeNo := s.freeNo + 1 } : State).replicable d f.part f.asid f.va).1 = some { f with layer := false } →
      ∃ t, exec (.replication d) s = .next t ∧ (t.die d).notices = rest ∧ f ∈ (t.die d).replicas ∧ t.mem = s.mem ∧ t.cores = s.cores) ∧
    (s.stage = 5 → p < 16 → (s.part p).tierctl.getLsbD 0 = false →
      ∃ t, exec (.tierctlEnable p v) s = .next t ∧ t.mem = s.mem ∧ t.cores = s.cores ∧ (∀ j, j ≠ p → t.part j = s.part j)
        ∧ (t.part p).sched = s.readSchedule p (bits v 63 6 * 64) ∧ bits (t.part p).tierctl 63 6 = bits v 63 6
        ∧ (t.part p).tierctl.getLsbD 0 = (s.readSchedule p (bits v 63 6 * 64)).isSome
        ∧ (t.part p).tierctl.getLsbD 1 = (s.readSchedule p (bits v 63 6 * 64)).isNone) ∧
    (s.stage = 5 → p < 16 → (s.part p).inv = none →
      let a := (s.part p).invstart.toNat
      let n := (s.part p).invlen.toNat
      ∃ t, exec (.invcmdGo p v) s = .next t ∧ t.mem = s.mem ∧ (∀ k e, (t.core k).ctx.eng e = (s.core k).ctx.eng e)
        ∧ (n = 0 ∨ 2 ^ 52 ≤ a → t.invals = s.invals ∧ (t.part p).inv = none)
        ∧ (n ≠ 0 → a < 2 ^ 52 → ∃ x : Inval, t.invals = s.invals ++ [x] ∧ x.part = p ∧ x.asid = bits v 63 48 ∧ x.lo = a
            ∧ x.hi = min (a + n) (2 ^ 52) ∧ x.core = none ∧ (t.part p).inv = some x.id
            ∧ ∀ k, ∀ e ∈ (t.core k).tlbC ++ (t.core k).tlbA, x.coversTlb e = false))

/-- The writers of the fault ring and of the trap ring. FAULT_RECORD_WRITE (FMODE 0), FAULT_BATCH_CLOSE (FMODE 1, here of one fault, 20 µs
after it) and TRAP_RECORD_WRITE write one record of 64 bytes at TAIL, with the next SEQ, advance TAIL and send the ring's vector, through
function 0 while link 0 is up; no other byte of memory changes. A full ring makes them wait, the batch being closed, and sets OVF. The
model's choices: a range record tells whole pages of 4,096 bytes (log 77), a trap record carries the time of its writing (log 76), and the
message is sent whatever the mask bit of the vector's entry (log 84). -/
def Obligations.RecordEventsComplete : Prop :=
  ∀ (s : State) (p : Nat),
    let x := s.part p
    let fkey := keyOf 2 0 (ringSlot x.fltbase x.fltcfg x.flttail)
    let tkey := keyOf 2 0 (ringSlot x.trpbase x.trpcfg x.trptail)
    let holds := fun (t : State) (key : Nat) (l : List Word) => ∀ a, t.mem.get 0 a
      = if key ≤ a ∧ a < key + 64 then (recordBytes l).getD (a - key) 0 else s.mem.get 0 a
    let message := fun (n : Nat) => ({ fn := if (s.links.get {} 0).up then 0 else 1, vec := n, entry := s.msixTable.get 0 n } : Msi)
    let wroteFault := fun (t : State) (l : List Word) => holds t fkey l ∧ (t.part p).flttail = x.flttail + 1
      ∧ (t.part p).fseq = x.fseq + 1 ∧ t.msix = message (bits x.fltcfg 19 9) :: s.msix ∧ t.cores = s.cores
    (∀ f, x.faults.find? (fun f => f.seq.isNone) = some f → x.fmode = false → ringSlot x.fltbase x.fltcfg x.flttail + 64 ≤ 2 ^ 47 →
      (ringRoom x.fltcfg x.flthead x.flttail ≠ 0 → ∃ t, exec (.faultRecordWrite p) s = .next t
        ∧ wroteFault t (f.words x.fseq false f.va f.extent 1 f.access)) ∧
      (ringRoom x.fltcfg x.flthead x.flttail = 0 → ∃ t, exec (.faultRecordWrite p) s = .next t ∧ t.mem = s.mem ∧ t.msix = s.msix
        ∧ t.part p = { x with fltcfg := putBits x.fltcfg 8 8 1 })) ∧
    (∀ f, x.faults.filter (fun f => f.seq.isNone) = [f] → f.batched = false → (∀ y ∈ x.faults, y.no = f.no → y = f) → x.batches = [] →
      x.fmode = true → f.since + 20 * 700 ≤ s.now → ringSlot x.fltbase x.fltcfg x.flttail + 64 ≤ 2 ^ 47 →
      (ringRoom x.fltcfg x.flthead x.flttail ≠ 0 → ∃ t, exec (.faultBatchClose p) s = .next t
        ∧ wroteFault t (f.words x.fseq true (f.va / 4096 * 4096) 4096 1 f.access)) ∧
      (ringRoom x.fltcfg x.flthead x.flttail = 0 → ∃ t, exec (.faultBatchClose p) s = .next t ∧ t.mem = s.mem ∧ t.msix = s.msix
        ∧ (t.part p).batches = [[[f.no]]] ∧ (t.part p).fltcfg = putBits x.fltcfg 8 8 1 ∧ (t.part p).flttail = x.flttail
        ∧ (t.part p).fseq = x.fseq)) ∧
    (∀ r, x.traps.find? (fun r => r.seq.isNone) = some r → ringSlot x.trpbase x.trpcfg x.trptail + 64 ≤ 2 ^ 47 →
      (ringRoom x.trpcfg x.trphead x.trptail ≠ 0 → ∃ t, exec (.trapRecordWrite p) s = .next t ∧ holds t tkey (r.words x.tseq s.ns)
        ∧ (t.part p).trptail = x.trptail + 1 ∧ (t.part p).tseq = x.tseq + 1 ∧ t.msix = message (bits x.trpcfg 19 9) :: s.msix ∧ t.cores = s.cores) ∧
      (ringRoom x.trpcfg x.trphead x.trptail = 0 → ∃ t, exec (.trapRecordWrite p) s = .next t ∧ t.mem = s.mem ∧ t.msix = s.msix
        ∧ t.part p = { x with trpcfg := putBits x.trpcfg 8 8 1 }))

/-- Acknowledgements. FLTACK of a fault of an engine lets the engine go on, or, with DROP, holds it with machine check 8. TRPACK with
action RETRY lets the engine go on where it was held; DISCARD, of a class 10 cause 1 trap, removes the terminal entry and then does the same;
ABORT ends the work, and its core is free, its rings as they were. An action for work that is saved is noted, and nothing else changes until
the work resumes (log 114). A reserved action, as TRPACK_RESERVED, does nothing but set the error bit of TRPCFG. -/
def Obligations.AcknowledgementsComplete : Prop :=
  (∀ (s : State) (p k : Nat) (w : Work) (v : Word) (e : Eng), s.stage = 5 → p < 16 → (s.core k).work = some w →
    s.coreOfWork w.id = some k → (∀ g ∈ s.off, g.work.id ≠ w.id) →
    let x := s.part p
    let seq : BitVec 32 := v.setWidth 32
    let goesOn := fun (t : State) => ((t.core k).ctx.eng e).hold = none ∧ ((t.core k).ctx.eng e).pc = ((s.core k).ctx.eng e).pc
      ∧ ((t.core k).ctx.eng e).g = ((s.core k).ctx.eng e).g ∧ t.mem = s.mem
    (∀ f rest, x.faults = f :: rest → f.seq = some seq → (∀ y ∈ rest, y.seq = none) → f.src = .engine w.id e → w.part = p →
      ((s.core k).ctx.eng e).hold = some .fault → (∀ g ∈ s.off, g.st ≠ .parked) →
      ∃ t, exec (.fltack p v) s = .next t ∧ (t.part p).faults = rest ∧
        (v.getLsbD 63 = false → goesOn t) ∧
        (v.getLsbD 63 = true → ((t.core k).ctx.eng e).hold = some (.trap 13 8) ∧ ∃ r : TrapRec, r.joins x.traps (t.part p).traps
          ∧ r.cls = 13 ∧ r.cause = 8 ∧ r.val = 0)) ∧
    (∀ r rest, x.traps = r :: rest → r.seq = some seq → r.info = false → r.acked = none → r.src = .engine w.id e →
      (r.cls ≤ 12 → ¬ (r.cls = 10 ∧ r.cause = 3) →
        ∃ t, exec (.trpackRetry p v) s = .next t ∧ (t.part p).traps = rest ∧ goesOn t) ∧
      (∀ q n rs y es, r.cls = 10 → r.cause = 1 → r.reads = (q, n + 1) :: rs → (s.core k).ctx.queue q = y :: es → y.full = true → y.term = true →
        ∃ t, exec (.trpackDiscard p v) s = .next t ∧ (t.part p).traps = rest ∧ goesOn t ∧ (t.core k).ctx.queue q = es) ∧
      ((s.core k).ob = [] → (s.core k).ctx.pins = [] →
        ∃ t, exec (.trpackAbort p v) s = .next t ∧ (t.core k).work = none ∧ t.mem = s.mem ∧ (t.core k).ctx.rings = (s.core k).ctx.rings
          ∧ ∀ j, j ≠ k → t.core j = s.core j) ∧
      (3 ≤ bits v 34 32 → ∃ t, exec (.trpackReserved p v) s = .next t ∧ t.mem = s.mem ∧ t.cores = s.cores
        ∧ t.part p = { x with trpcfg := putBits x.trpcfg 20 20 1 }))) ∧
  (∀ (s : State) (p : Nat) (v : Word) (g : Seg) (r : TrapRec) (rest : List TrapRec), s.stage = 5 → p < 16 → g ∈ s.off →
    r.of g.work.id = true → g.st ≠ .fenced → g.st ≠ .parked → (s.part p).traps = r :: rest → r.seq = some (v.setWidth 32) →
    r.info = false → r.acked = none → r.src ≠ .gone →
    let noted := fun (o : Out) (act : Nat) => ∃ t, o = .next t ∧ t.mem = s.mem ∧ t.cores = s.cores ∧ t.off = s.off
      ∧ t.part p = { s.part p with traps := { r with acked := some act } :: rest } ∧ ∀ j, j ≠ p → t.part j = s.part j
    noted (exec (.trpackAbort p v) s) 1 ∧ (r.cls ≤ 12 → noted (exec (.trpackRetry p v) s) 0) ∧
    (r.cls = 10 → noted (exec (.trpackDiscard p v) s) 2))

/-- Errors, watchdogs and time limits. SELF_TEST_COMPLETE of a core that passes replays its work from the checkpoint, RCNT counting one
more, with an INFO record; of a core that fails, it fences the core, whose work leaves it to replay elsewhere. FENCED_WORK_TIMEOUT,
PHASE_WATCHDOG and CORE_STALL_WATCHDOG hold the work with a machine check, PHASE_WATCHDOG each member that has not arrived, with a
record of its own. PATROL_SCRUB poisons a line with an uncorrectable error. WFE_TIMEOUT retires a WFE whose time is over. -/
def Obligations.ErrorEventsComplete : Prop :=
  ∀ (s : State) (k : Nat),
    let reports := fun (t : State) (p cause : Nat) (info : Bool) => ∃ r ∈ (t.part p).traps, r.cls = 13 ∧ r.cause = cause ∧ r.info = info
    (∀ cause since en w cp, s.stage = 5 → (s.core k).test = some (cause, since, en) → (s.core k).work = some w → w.ckpt = some cp →
      (s.core k).ending = false → (s.core k).ctx.csr.nrp = false → cp.ctx.live ≠ [] → cp.ctx.pins = [] → (s.core k).ctx.pins = [] →
      ∃ t y, reports t w.part cause true ∧ exec (.selfTestComplete (.core k) true) s = .next t ∧ (t.core k).test = none ∧ (t.core k).fenced = (s.core k).fenced
        ∧ (t.core k).work = some y ∧ y.id = w.id ∧ y.sb = cp.sb ∧ y.snap = cp.snap ∧ (t.core k).ob = []
        ∧ (t.core k).ctx.csr.rcnt = ((s.core k).ctx.csr.rcnt + 1) % 2 ^ 32
        ∧ ∀ e, ((t.core k).ctx.eng e).pc = (cp.ctx.eng e).pc ∧ ((t.core k).ctx.eng e).g = (cp.ctx.eng e).g
            ∧ ((t.core k).ctx.eng e).hold = none) ∧
    (∀ x, s.stage = 5 → (s.core k).test = some x → (s.core k).work = none →
      ∃ t, exec (.selfTestComplete (.core k) false) s = .next t ∧ t.core k = { s.core k with test := none, fenced := true } ∧ t.mem = s.mem) ∧
    (∀ x w cp, s.stage = 5 → (s.core k).test = some x → (s.core k).work = some w → w.ckpt = some cp → (s.core k).ending = false →
      (s.core k).ctx.csr.nrp = false → ∃ t g, exec (.selfTestComplete (.core k) false) s = .next t ∧ (t.core k).fenced = true
        ∧ (t.core k).work = none ∧ t.off = s.off ++ [g] ∧ g.st = .fenced ∧ g.work.id = w.id ∧ g.work.sb = cp.sb) ∧
    (∀ g, s.off.find? (fun g => g.st = .fenced && g.core = some k && !g.ctx.any (·.held) && decide (g.since + 1000 * 700 ≤ s.now)) = some g →
      ∃ t r, exec (.fencedWorkTimeout k) s = .next t ∧ TrapRec.joins r (s.part g.work.part).traps (t.part g.work.part).traps
        ∧ r.cls = 13 ∧ r.cause = 6 ∧ t.mem = s.mem ∧ ∀ y ∈ t.off, y.work.id = g.work.id → ∀ c, y.ctx = some c → c.held = true) ∧
    (∀ p lvl idx j w, j ∈ s.activeCores p lvl idx → (s.core j).work = some w → w.arrived = some lvl → w.arrivedAt + 1000 * 700 ≤ s.now →
      (∀ i ∈ s.activeCores p lvl idx, ∃ y, (s.core i).work = some y ∧ y.watched = false ∧ (s.core i).ctx.isHeld = false
        ∧ (s.core i).test = none) → (∀ g ∈ s.off, s.activeOff p lvl idx g = false) →
      ∃ t, exec (.phaseWatchdog p lvl idx) s = .next t ∧ t.mem = s.mem
        ∧ ∀ i ∈ s.activeCores p lvl idx, let late := (s.core i).work.any (fun y => y.arrived = some lvl) = false
            (t.core i).ctx.held = decide late ∧ (late → ∃ y, (s.core i).work = some y ∧ ∃ r ∈ (t.part y.part).traps,
              r.cls = 13 ∧ r.cause = 5 ∧ r.src = .work y.id)) ∧
    (∀ w, (s.core k).work = some w → (s.core k).ending = false → (s.core k).test = none → (s.core k).ctx.csr.wden = true →
      (s.core k).ctx.isHeld = false → (s.core k).ctx.live ≠ [] →
      (∀ e ∈ (s.core k).ctx.live, ((s.core k).ctx.eng e).passed + 1000 * 700 ≤ s.now
        ∧ ((∃ y, (k, e, y) ∈ s.quiet ∧ y ∉ [Wait.memory, .mailbox, .semaphore, .ladle, .event, .phase])
          ∨ ((s.core k).leaving.isSome = true ∧ (s.core k).runnable e = false ∧ (s.core k).ob = []))) →
      ∃ t r, exec (.coreStallWatchdog k) s = .next t ∧ (t.core k).ctx = { (s.core k).ctx with held := true } ∧ t.mem = s.mem
        ∧ TrapRec.joins r (s.part w.part).traps (t.part w.part).traps ∧ r.cls = 13 ∧ r.cause = 5) ∧
    (∀ line, tierOfKey (64 * line) ≤ 1 → beyondTier (tierOfKey (64 * line)) (64 * line % 2 ^ 47) = false → line ∉ s.poison →
      exec (.patrolScrub line true) s = .next ({ s with poison := line :: s.poison } : State).stir ∧
      exec (.patrolScrub line false) s = .next s) ∧
    (∀ p pr, let u : State := { s with cur := k }
      u.fetch .C = .run (.wfe p) → (s.core k).ctx.c.prog = some pr → pr.fill = false → pr.stage = 1 → (s.core k).ctx.csr.tmo ≠ 0 →
      pr.mark + (s.core k).ctx.csr.tmo.toNat ≤ (s.core k).ctx.csr.cycle.toNat → (s.core k).badPath ≠ some .C →
      ∃ t, exec (.wfeTimeout k) s = .next t ∧ t.cur = s.cur ∧ (t.core k).ctx.c.prog = none ∧ (t.core k).ctx.csr.evt = false
        ∧ (t.core k).ctx.c.pc = u.nextPc .C 1 ∧ t.mem = s.mem)

/-- The host's requests. PREEMPT_REQUEST for a core of the partition that holds work makes the work leave, into a save slot when it can
at once, else when PREEMPT_SAVE finds that it can, BUSY being 1 until then; it is refused, with ERR, for a core of another partition or
without work, or when no slot is left for it beside the works that wait for one. DESCHEDULE does the same for the work that has waited
longest for a slot. The slot is then taken, and holds what Table 19-8 gives it: the number of buffered stores, spill memory, vector
registers, queue slots (log 31), scratchpad and live tiles. PARTITION_ENABLE of a valid configuration enables the partition and starts
its phases and semaphores afresh; PARTITION_DISABLE of a partition with nothing at work disables it; otherwise CFGERR is set. That a
segment of the pool that is not speculative and was never placed counts as work is the model's choice (log 10). -/
def Obligations.HostRequestsComplete : Prop :=
  ∀ (s : State) (p : Nat) (v : Word), p < 16 →
    let x := s.part p
    let gone := fun (t : State) (k : Nat) (w : Work) (st : OffState) (i : Nat) => (t.core k).work = none ∧ (∀ j, j ≠ k → t.core j = s.core j)
      ∧ (∃ g, t.off = s.off ++ [g] ∧ g.work.id = w.id ∧ g.st = st ∧ g.ctx = some (s.core k).ctx.saved ∧ g.slot = some i)
      ∧ (t.part p).slots = i :: x.slots
      ∧ (x.slotAddr i + 2 ^ 22 ≤ 2 ^ 47 → ((s.core k).ctx.ar.tiles.map (·.1)).Nodup → t.slotHolds (x.slotAddr i) (s.core k).ctx.saved w.sb)
    (∀ k w, s.stage = 5 → k = bits v 9 0 → x.preempt.getLsbD 17 = false → s.partOfCluster (k / 16) = some p → (s.core k).ending = false →
      (s.core k).leaving = none → w.part = p →
      (∀ i, (s.core k).work = some w → s.slotFor p s.leaveNo = some i → (s.core k).canLeave = true →
        ∃ t, exec (.preemptRequest p v) s = .next t ∧ gone t k w .saved i ∧ (t.part p).preempt.getLsbD 17 = false) ∧
      ((s.core k).work = some w → (s.slotFor p s.leaveNo).isSome = true → (s.core k).canLeave = false →
        ∃ t, exec (.preemptRequest p v) s = .next t ∧ t.core k = { s.core k with preempt := true, leaving := some .saved, leaveNo := s.leaveNo }
          ∧ (t.part p).preempt.getLsbD 17 = true ∧ t.mem = s.mem) ∧
      ((s.core k).work = none ∨ s.slotFor p s.leaveNo = none → ∃ t, exec (.preemptRequest p v) s = .next t ∧ t.cores = s.cores ∧ t.mem = s.mem
        ∧ (t.part p).preempt.getLsbD 17 = false ∧ (t.part p).preempt.getLsbD 18 = true)) ∧
    (s.stage = 5 → x.preempt.getLsbD 17 = false → s.partOfCluster (bits v 9 0 / 16) ≠ some p →
      ∃ t, exec (.preemptRequest p v) s = .next t ∧ t.cores = s.cores ∧ t.mem = s.mem
        ∧ (t.part p).preempt.getLsbD 17 = false ∧ (t.part p).preempt.getLsbD 18 = true) ∧
    (∀ k c w i, s.core k = c → c.work = some w → w.part = p → x.freeSlot = some i →
      (s.slotFor p s.leaveNo = some i → s.cores.find? (fun e => e.2.preempt && e.2.leaving = some .saved && e.2.canLeave && !e.2.ending
          && e.2.work.any fun w => w.part = p) = some (k, c) →
        ∃ t, exec (.preemptSave p) s = .next t ∧ gone t k w .saved i) ∧
      (firstWaiter (s.slotWaiters p) = some (k, c) →
        ∃ t, exec (.deschedule p) s = .next t ∧ gone t k w (c.leaving.getD .saved) i)) ∧
    (s.stage = 5 → x.en = false →
      (s.partValid v = true → ∃ t, exec (.partitionEnable p v) s = .next t ∧ t.mem = s.mem ∧ t.cores = s.cores
        ∧ (t.part p).en = true ∧ (t.part p).baseCl = bits v 12 7 ∧ (t.part p).ncl = bits v 19 13 ∧ (t.part p).mdid = bits v 63 48
        ∧ (∀ d, (t.part p).phase.get 0 d = 0) ∧ (∀ cl n, (t.part p).holds cl = true → n < 256 → t.sem (256 * cl + n) = {})
        ∧ ∀ j, j ≠ p → t.part j = s.part j) ∧
      (s.partValid v = false → ∃ t, exec (.partitionEnable p v) s = .next t ∧ t.mem = s.mem ∧ t.cores = s.cores
        ∧ (t.part p).en = false ∧ (t.part p).cfg.getLsbD 2 = true)) ∧
    (s.stage = 5 → x.en = true →
      (s.canDisable p = true → (∀ g ∈ s.off, g.work.part ≠ p) → ∃ t, exec (.partitionDisable p v) s = .next t ∧ t.mem = s.mem
        ∧ t.cores = s.cores ∧ (t.part p).en = false ∧ (t.part p).handles = [] ∧ (∀ e ∈ t.cvs, e.2.part ≠ p)
        ∧ ∀ j, j ≠ p → t.part j = s.part j) ∧
      (s.canDisable p = false → ∃ t, exec (.partitionDisable p v) s = .next t
        ∧ t = { s with parts := t.parts, quiet := t.quiet, arrayQuiet := t.arrayQuiet }
        ∧ t.part p = { x with cfg := putBits x.cfg 2 2 1 }))

/-- The host's and the peers' accesses. REGISTER_WRITE of a whole register of the window acts on that register once the device is ready,
on a reserved offset not at all, and clears the W1C bits that it writes 1 to and no others; HOST_READ returns a register or half of one, or the 8 bytes of memory around the location, or all ones above the
crucible; HOST_WRITE writes its bytes to memory and no other; SPANSTAT_READ returns RETRY and clears it; PEER_REQUEST reads, writes or
acts atomically on this device's memory; on a poisoned line a read and an atomic answer a free value and change nothing in memory (the model's
choice, log 3). ATTEST_REQUEST asks for a report, which ATTEST_REPORT_COMPLETE ends with 2 at 0xFF8, the report holding the nonce, the device's identity and the digests, whose form is the
model's choice: SHA-512 of the 8 bytes of PARTCFG, least significant first (log 36). -/
def Obligations.WindowAccessesComplete : Prop :=
  ∀ (s : State) (v u : Word) (off a n key : Nat),
    let changed := fun (t : State) (m : Nat) => ∀ b, t.mem.get 0 b
      = if key ≤ b ∧ b < key + m then v.extractLsb' (8 * (b - key)) 8 else s.mem.get 0 b
    (∀ r, s.stage = 5 → hostReg (off / 8 * 8) = some r → (∀ o, r ≠ .mailbox o) →
      exec (.registerWrite off v .whole) s = .next (s.writeReg r v).stir) ∧
    (hostReg (off / 8 * 8) = none → exec (.registerWrite off v .whole) s = .next s.stir) ∧
    (∀ r, s.stage = 5 → hostReg (off / 8 * 8) = some r → (∀ o, r ≠ .mailbox o) → (∀ p, r = .part p 17 → v.getLsbD 16 = false) →
      (∀ m, r = .spanstat m → (s.spans.get {} m).retry < 65536) →
      ∃ t, exec (.registerWrite off v .whole) s = .next t ∧ t.readReg r &&& r.clears = s.readReg r &&& ~~~v &&& r.clears
        ∧ ∀ d, r = .dieclk d → (t.die d).throt = ((s.die d).throt && !v.getLsbD 0 || decide (0 < (t.die d).eff))) ∧
    (s.stage = 5 → ∃ t, exec (.registerWrite 0x210170 v .whole) s = .next t ∧ t.pwrcap = min (max (bits v 11 0) 800) 2200
      ∧ t = { s with pwrcap := t.pwrcap, quiet := t.quiet, arrayQuiet := t.arrayQuiet }) ∧
    (∀ r, s.stage = 5 → off < 2 ^ 24 → hostReg (off / 8 * 8) = some r → (∀ m, r ≠ .spanstat m) →
      (off % 8 = 0 → exec (.hostRead (.bar0 off)) s = .next { s with hostData := s.readReg r }
        ∧ exec (.hostRead (.bar0Half off)) s = .next { s with hostData := BitVec.ofNat 64 (bits (s.readReg r) 31 0) }) ∧
      (off % 8 = 4 → exec (.hostRead (.bar0Half off)) s = .next { s with hostData := BitVec.ofNat 64 (bits (s.readReg r) 63 32) })) ∧
    (a < 2 ^ 39 → key = keyOf 1 0 a →
      (s.poisoned (key / 8 * 8) 8 = false →
        exec (.hostRead (.bar2 a)) s = .next { s with hostData := BitVec.ofNat 64 (s.readM (key / 8 * 8) 8) }) ∧
      ∃ t, exec (.hostWrite (.bar2 a) v n) s = .next t ∧ changed t (min (min n 8) (8 - key % 8)) ∧ t.cores = s.cores) ∧
    (1120 * 2 ^ 20 ≤ a → exec (.hostRead (.bar4 a)) s = .next { s with hostData := BitVec.allOnes 64 }) ∧
    (s.stage = 5 → n < 16 → (s.spans.get {} n).retry < 65536 → ∃ t, exec (.spanstatRead n) s = .next t
      ∧ bits t.hostData 15 0 = (s.spans.get {} n).retry ∧ t.spans.get {} n = { s.spans.get {} n with retry := 0 } ∧ t.mem = s.mem) ∧
    (peerTarget a = some key →
      (s.poisoned (key / 8 * 8) 8 = false →
        exec (.peerRequest .read a v u) s = .next { s with peerData := BitVec.ofNat 64 (s.readM (key / 8 * 8) 8) }) ∧
      (s.poisoned (key / 8 * 8) 8 = true → ∀ fn w32,
        (∃ t, exec (.peerRequest .read a v u) s = .next t ∧ t.mem = s.mem ∧ t.cores = s.cores) ∧
        ∃ t, exec (.peerRequest (.atomic fn w32) a v u) s = .next t ∧ t.mem = s.mem ∧ t.cores = s.cores) ∧
      (∃ t, exec (.peerRequest (.write n) a v u) s = .next t ∧ changed t (min (min n 8) (8 - key % 8)) ∧ t.cores = s.cores) ∧
      (∀ fn, fn ≤ 6 → s.poisoned (key / 8 * 8) 8 = false → ∃ t, exec (.peerRequest (.atomic fn false) a v u) s = .next t
        ∧ t.peerData = BitVec.ofNat 64 (s.readM (key / 8 * 8) 8)
        ∧ t.readM (key / 8 * 8) 8 = (amoWrites fn 64 (s.readM (key / 8 * 8) 8) v.toNat u.toNat).getD (s.readM (key / 8 * 8) 8))) ∧
    (∃ t, exec .attestRequest s = .next t ∧ t.attesting = true ∧ numAt t.secbox 0xFF8 8 = 1 ∧ t.mem = s.mem) ∧
    (s.attesting = true → ∃ t, exec .attestReportComplete s = .next t ∧ t.attesting = false ∧ numAt t.secbox 0xFF8 8 = 2 ∧ t.mem = s.mem
      ∧ (∃ r, t.report = some r ∧ r.nonce = bytesAt s.secbox 0 64 ∧ r.fuses = s.fuses ∧ r.version = s.fwVersion ∧ r.digest = s.fwDigest
          ∧ ∀ p, p < 16 → r.parts.getD p [] = sha512 (toBytes (s.part p).cfg.toNat 8))
      ∧ ∀ o, o < 0x100 → t.secbox.get 0 o = s.secbox.get 0 o)

/-- The package. THROTTLE_WINDOW brings the count of DIECLK into force at the next window boundary, letting the rest of the window pass
(the model's choice, log 89). POWER_MEASURE, 10 µs after the last
measurement, raises no PWR while the draw is within LIMIT, and above it raises that of the dies with the greatest draw alone, how far
being free (log 37), but by one level at least below 63; THERMAL_SENSE sets THERM; THERMAL_TRIP removes the power. LINK_DOWN, LINK_UP, SPAN_PORT_DOWN and SPAN_PORT_UP change a link or a port and note it,
PEER_ROUTE_TIMEOUT marks a peer with no route for 1 ms as lost, FLIT_RETRY counts. DEVICE_RESET returns to stage 0 with nothing
placed or queued; BRINGUP_STAGE moves on a stage, at the firmware stage with the image that it accepts, or, with firmware refused, sets FWERR.
None of them changes global memory; that DEVICE_RESET keeps it is the model's choice (log 7). -/
def Obligations.PackageEventsComplete : Prop :=
  ∀ (s : State) (d n : Nat),
    let x := s.die d
    let l := s.links.get {} d
    let y := s.spans.get {} d
    let goes := fun (i : Instr) (f : State → Prop) => ∃ t, exec i s = .next t ∧ t.mem = s.mem ∧ f t
    (d < 4 → x.pulse < 64 → goes (.throttleWindow d) fun t => t.now = s.now + (64 - x.pulse) ∧ (t.die d).pulse = 0
      ∧ (t.die d).force = min (max (max x.hostmin x.pwr) x.therm) 56) ∧
    (∀ draw aim : List Nat, d < 4 → s.measured + 7000 ≤ s.now →
      let w := (draw ++ [0, 0, 0, 0]).take 4
      goes (.powerMeasure draw aim) fun t => t.cores = s.cores
        ∧ t.die d = { x with
            pwr := (t.die d).pwr, throt := x.throt || decide (0 < min (max (max x.hostmin (t.die d).pwr) x.therm) 56) }
        ∧ (w.sum ≤ s.pwrcap → (t.die d).pwr = min x.pwr (aim.getD d 0 % 64))
        ∧ (s.pwrcap < w.sum → (∀ v ∈ w, v ≤ w.getD d 0) → (t.die d).pwr = min 63 (max (x.pwr + 1) (aim.getD d 0 % 64)))
        ∧ (s.pwrcap < w.sum → (∃ v ∈ w, w.getD d 0 < v) → (t.die d).pwr = x.pwr)) ∧
    (d < 4 → goes (.thermalSense d n) fun t => t.cores = s.cores ∧ t.die d = { x with
      therm := n % 64, throt := x.throt || decide (0 < min (max (max x.hostmin x.pwr) (n % 64)) 56) }) ∧
    (exec .thermalTrip s = .next { s with power := false }) ∧
    (d < 2 → l.up = true → goes (.linkDown d) fun t => t.cores = s.cores
      ∧ t.links.get {} d = { l with up := false, rate := 0, width := 0, downev := true }) ∧
    (d < 2 → 5 ≤ n → n ≤ 7 → ∀ w ∈ [4, 8, 16], goes (.linkUp d n w) fun t => t.cores = s.cores
      ∧ t.links.get {} d = { l with up := true, rate := n, width := w }) ∧
    (d < 16 → y.up = true → goes (.spanPortDown d) fun t => t.cores = s.cores ∧ t.spans.get {} d = { y with up := false, downev := true }
      ∧ (t.routed y.peer = false → t.noRoute.get 0 y.peer = s.now)) ∧
    (d < 16 → n < 2 ^ 14 → goes (.spanPortUp d n) fun t => t.cores = s.cores ∧ t.spans.get {} d = { y with up := true, peer := n }
      ∧ n ∉ t.lost) ∧
    (s.routed n = false → n ∉ s.lost → s.noRoute.get 0 n + 1000 * 700 ≤ s.now →
      goes (.peerRouteTimeout n) fun t => t.cores = s.cores ∧ t.lost = n :: s.lost) ∧
    (d < 16 → goes (.flitRetry d) fun t => t.cores = s.cores ∧ t.spans.get {} d = { y with retry := min (y.retry + 1) 65535 }) ∧
    (goes .deviceReset fun t => t.stage = 0 ∧ t.cores = [] ∧ t.queues = [] ∧ t.off = [] ∧ t.parts = [] ∧ t.power = true ∧ t.now = 0) ∧
    (∀ fw, s.stage < 5 → s.fwerr = false →
      (s.stage ≠ 1 → goes (.bringupStage fw) fun t => t.stage = s.stage + 1 ∧ t.cores = s.cores) ∧
      (s.stage = 1 → goes (.bringupStage fw) fun t => t.cores = s.cores ∧ t.stage = (if s.accepts fw then 2 else 1) ∧ t.fwerr = !s.accepts fw
        ∧ t.fwVersion = (if s.accepts fw then Config.imageVersion fw.image else s.fwVersion)
        ∧ t.fwDigest = if s.accepts fw then sha512 fw.image else s.fwDigest))

/-- A step runs the instruction that is decoded. When the turn is that of an engine that may act, its program counter at a first word of
the text: the words of an instruction of that engine, all inside the text, are decoded and run; those of another engine are
skipped; no instruction, or one whose second word lies beyond the text, is the illegal-instruction trap, and so is a program counter
beyond the text, with cause 6. While an NGO waits, C takes no such trap but waits behind it, and once the array can start, C's turn ends
that wait (log 38). An event, which has no words, acts. Before it the turn begins: time passes, with it what the cycle still owed acts, and
boundaries and misses that waited are served (log 1); without power nothing acts. -/
def Obligations.StepRunsDecodedInstruction : Prop :=
  ∀ (s : State) (dt : Nat) (r : State),
    (∀ k e n, s.firstTurn = (⟨dt, .engine k e n⟩, r) → r.power = true →
      let u : State := { r.begin ⟨dt, .engine k e n⟩ with cur := k, budget := n }
      let pc := ((u.ctx.eng e).prog.bind (·.home)).getD (u.ctx.eng e).pc
      let w0 := u.cc.imem.get 0 pc
      let w1 := u.cc.imem.get 0 (pc + 1)
      let len := wordLength (engOf (w0.extractLsb' 30 2)) (bits w0 25 19)
      let traps := fun (c : Nat) => if e = .C ∧ u.ctx.ar.start.isSome = true then u.waitNote .C .array else u.illegal e c
      (e = .C → u.ngoDue = true → step s = .next u.endNgo) ∧
      ((e = .C → u.ngoDue = false) → u.cc.runnable e = true → (u.work.len ≤ pc → step s = .next (traps 6)) ∧
        (pc < u.work.len → u.cc.firstWord pc = true →
        (∀ i, engOf (w0.extractLsb' 30 2) = e → pc + len ≤ u.work.len → decode w0 w1 = .ok i → step s = exec i u) ∧
        (engOf (w0.extractLsb' 30 2) ≠ e → step s = .next (u.skip e len)) ∧
        (∀ c, engOf (w0.extractLsb' 30 2) = e → pc + len ≤ u.work.len → decode w0 w1 = .error c → step s = .next (traps c.cause)) ∧
        (engOf (w0.extractLsb' 30 2) = e → len = 2 → pc + 1 = u.work.len → step s = .next (traps (u.cc.halfCause pc w0)))))) ∧
    (∀ i l, s.firstTurn = (⟨dt, .event i l⟩, r) → r.power = true → encode i = [] → step s = exec i (r.begin ⟨dt, .event i l⟩)) ∧
    (∀ d, s.firstTurn = (⟨dt, d⟩, r) → r.power = false → (∀ l, d ≠ .event .deviceReset l) → step s = .next (r.begin ⟨dt, d⟩))

/-- Words of the spec's worked examples decode to the instructions that they stand for. -/
def Obligations.DecodedWords : Prop :=
  decode 0x00894003 0 = .ok (.addi .C 0 5 0 3) ∧ decode 0x5089800A 0 = .ok (.addi .A 4 6 0 10) ∧
  decode 0xA2000000 0x0430800E = .ok (.vadd 8 0 1 3 2 0 0 14) ∧ decode 0x8081F190 0 = .ok (.add .X 0 7 24 25) ∧
  decode 0x02316240 0 = .ok (.amoaddAr 0 5 17 4 0) ∧ decode 0x0300E005 8 = .ok (.ld 0 3 16 5 8) ∧
  decode 0x42B06150 0x80400012 = .ok (.kvgath 0 1 16 21 16 1 1 2) ∧ decode 0x4240C000 0 = .ok (.lchain 0 3 0 0) ∧
  decode 0xC2000000 0x00692040 = .ok (.zcnv 0 0 0 6 9 0 1 0 1 0) ∧ decode 0xC2414000 0 = .ok (.fwait 0 5 0)

/-- The encoding is exact. The words of an instruction, whatever follows them, decode to it and leave what follows; and words that
decode to an instruction are its words. -/
def Obligations.EncodingIsExact : Prop :=
  (∀ (i : Instr) (rest : List (BitVec 32)), encode i ≠ [] → decodeWords (encode i ++ rest) = .ok (i, rest)) ∧
  ∀ (w0 w1 : BitVec 32) (i : Instr), decode w0 w1 = .ok i →
    encode i = if wordLength (engOf (w0.extractLsb' 30 2)) (w0.extractLsb' 19 7).toNat = 1 then [w0] else [w0, w1]

/-- A write of bytes to memory is read back, byte for byte, and leaves every other byte; it keeps the canonical form, in which
memories that read alike are equal. -/
def Obligations.MemoryReadsBack : Prop :=
  (∀ (s : State) (key : Nat) (l : List Byte),
    (∀ a, (s.writeM key l).mem.get 0 a = if key ≤ a ∧ a < key + l.length then l.getD (a - key) 0 else s.mem.get 0 a) ∧
    (Memory.wf s.mem = true → Memory.wf (s.writeM key l).mem = true)) ∧
  ∀ m n : SMap Byte, Memory.wf m = true → Memory.wf n = true → (∀ a, m.get 0 a = n.get 0 a) → m = n

/-- After reset DEVSTAT.STAGE is 0 and the device is not ready: nothing is placed, queued or in flight, every partition and queue is
disabled, PWRCAP is 2,200, every LADLEFLOW is 0x1F, and the memory has its canonical form. -/
def Obligations.ResetState : Prop :=
  State.reset.stage = 0 ∧ State.reset.pwrcap = 2200
    ∧ (∀ k, (State.reset.core k).work = none ∧ (State.reset.core k).ob = [] ∧ (State.reset.core k).fenced = false)
    ∧ (∀ q, (State.reset.wq q).en = false ∧ (State.reset.wq q).st = 0) ∧ (∀ p, (State.reset.part p).en = false)
    ∧ (∀ l, State.reset.readReg (.ladleflow l) = 0x1F ∧ (State.reset.ladle l).run = none) ∧ State.reset.off = [] ∧ State.reset.flows = []
    ∧ Memory.wf State.reset.mem = true

/-- Every step keeps the canonical form of memory, whatever the instruction or event. -/
def Obligations.EveryStepKeepsMemoryCanonical : Prop :=
  ∀ s t : State, Memory.wf s.mem = true → step s = .next t → Memory.wf t.mem = true

end
end

