-- ==== Sys2Proof/Laws/Sparse.lean ====
section
/-! SUPPORT. Lemmas of sparse maps: reading after writing, and that every operation keeps the canonical form. -/

namespace Sys2Proof

variable {α : Type}

@[simp] theorem SMap.find_nil (k : Nat) : SMap.find ([] : SMap α) k = none := rfl

@[simp] theorem SMap.get_nil (d : α) (k : Nat) : SMap.get ([] : SMap α) d k = d := rfl

theorem SMap.find_cons (j : Nat) (a : α) (r : SMap α) (k : Nat) :
    SMap.find ((j, a) :: r) k = if j = k then some a else SMap.find r k := rfl

/-- A key below every listed key is not listed. -/
theorem SMap.find_of_lt {m : SMap α} {k : Nat} (h : m.all (fun e => k < e.1) = true) : m.find k = none := by
  induction m with
  | nil => rfl
  | cons e r ih =>
    obtain ⟨j, a⟩ := e
    simp only [List.all_cons, Bool.and_eq_true, decide_eq_true_eq] at h
    rw [SMap.find_cons, if_neg (by omega), ih h.2]

@[simp] theorem SMap.find_put_same (m : SMap α) (k : Nat) (a : α) : (m.put k a).find k = some a := by
  induction m with
  | nil => simp [SMap.put, SMap.find_cons]
  | cons e r ih =>
    obtain ⟨j, b⟩ := e
    simp only [SMap.put]
    split
    · simp [SMap.find_cons]
    · split
      · simp [SMap.find_cons]
      · rw [SMap.find_cons, if_neg (by omega), ih]

theorem SMap.find_put_ne (m : SMap α) {k j : Nat} (a : α) (h : j ≠ k) : (m.put k a).find j = m.find j := by
  induction m with
  | nil => simp [SMap.put, SMap.find_cons, h.symm]
  | cons e r ih =>
    obtain ⟨i, b⟩ := e
    simp only [SMap.put]
    split
    · rw [SMap.find_cons, if_neg (Ne.symm h)]
    · split
      · rename_i _ hk
        subst hk
        rw [SMap.find_cons, SMap.find_cons, if_neg (Ne.symm h), if_neg (Ne.symm h)]
      · rw [SMap.find_cons, SMap.find_cons, ih]

@[simp] theorem SMap.get_put_same (m : SMap α) (d : α) (k : Nat) (a : α) : (m.put k a).get d k = a := by
  simp [SMap.get]

theorem SMap.get_put_ne (m : SMap α) (d : α) {k j : Nat} (a : α) (h : j ≠ k) : (m.put k a).get d j = m.get d j := by
  simp [SMap.get, SMap.find_put_ne m a h]

theorem SMap.get_put (m : SMap α) (d : α) (k j : Nat) (a : α) :
    (m.put k a).get d j = if j = k then a else m.get d j := by
  by_cases h : j = k
  · subst h
    simp
  · rw [if_neg h, SMap.get_put_ne m d a h]

theorem SMap.find_drop (m : SMap α) (k j : Nat) : (m.drop k).find j = if j = k then none else m.find j := by
  induction m with
  | nil => simp [SMap.drop]
  | cons e r ih =>
    obtain ⟨i, b⟩ := e
    simp only [SMap.drop] at ih ⊢
    by_cases hi : i = k
    · subst hi
      rw [List.filter_cons_of_neg (by simp), ih, SMap.find_cons]
      split
      · rfl
      · rw [if_neg (by omega)]
    · rw [List.filter_cons_of_pos (by simpa using hi), SMap.find_cons, SMap.find_cons, ih]
      by_cases hj : j = k
      · rw [if_pos hj, if_pos hj, if_neg (by omega)]
      · rw [if_neg hj, if_neg hj]

section deq
variable [DecidableEq α]

/-- Reading after writing. -/
theorem SMap.get_set (m : SMap α) (d : α) (k j : Nat) (a : α) :
    (m.set d k a).get d j = if j = k then a else m.get d j := by
  unfold SMap.set
  split
  · rename_i h
    subst h
    rw [SMap.get, SMap.find_drop]
    split
    · rfl
    · rfl
  · exact SMap.get_put m d k j a

@[simp] theorem SMap.get_set_same (m : SMap α) (d : α) (k : Nat) (a : α) : (m.set d k a).get d k = a := by
  rw [SMap.get_set, if_pos rfl]

theorem SMap.get_set_ne (m : SMap α) (d : α) {k j : Nat} (a : α) (h : j ≠ k) : (m.set d k a).get d j = m.get d j := by
  rw [SMap.get_set, if_neg h]

/-- Keys that a list of consecutive writes does not reach. -/
theorem SMap.get_setList_out (l : List α) (m : SMap α) (d : α) (k j : Nat) (h : j < k ∨ k + l.length ≤ j) :
    (m.setList d k l).get d j = m.get d j := by
  induction l generalizing m k with
  | nil => rfl
  | cons a r ih =>
    simp only [List.length_cons] at h
    rw [SMap.setList, ih _ _ (by omega), SMap.get_set_ne]
    omega

/-- Keys that a list of consecutive writes reaches. -/
theorem SMap.get_setList_in (l : List α) (m : SMap α) (d : α) (k i : Nat) (h : i < l.length) :
    (m.setList d k l).get d (k + i) = l[i] := by
  induction l generalizing m k i with
  | nil => simp at h
  | cons a r ih =>
    rw [SMap.setList]
    cases i with
    | zero =>
      rw [SMap.get_setList_out _ _ _ _ _ (by omega)]
      simp
    | succ i =>
      rw [show k + (i + 1) = (k + 1) + i by omega, ih _ _ _ (by simpa using h)]
      simp

/-! ### The canonical form -/

@[simp] theorem SMap.wf_nil (d : α) : SMap.wf d ([] : SMap α) = true := rfl

theorem SMap.wf_cons {d : α} {j : Nat} {a : α} {r : SMap α} :
    SMap.wf d ((j, a) :: r) = true ↔ a ≠ d ∧ (r.all fun e => j < e.1) = true ∧ SMap.wf d r = true := by
  simp [SMap.wf, and_assoc]

omit [DecidableEq α] in
theorem SMap.all_put {m : SMap α} {k : Nat} {a : α} {q : Nat → Bool} (h : m.all (fun e => q e.1) = true) (hk : q k = true) :
    (m.put k a).all (fun e => q e.1) = true := by
  induction m with
  | nil => simp [SMap.put, hk]
  | cons e r ih =>
    obtain ⟨j, b⟩ := e
    simp only [List.all_cons, Bool.and_eq_true] at h
    simp only [SMap.put]
    split
    · simp only [List.all_cons, Bool.and_eq_true]
      exact ⟨hk, h.1, h.2⟩
    · split
      · simp only [List.all_cons, Bool.and_eq_true]
        exact ⟨hk, h.2⟩
      · simp only [List.all_cons, Bool.and_eq_true]
        exact ⟨h.1, ih h.2⟩

theorem SMap.wf_put {d : α} {m : SMap α} {k : Nat} {a : α} (h : SMap.wf d m = true) (ha : a ≠ d) :
    SMap.wf d (m.put k a) = true := by
  induction m with
  | nil => simp [SMap.put, SMap.wf, ha]
  | cons e r ih =>
    obtain ⟨j, b⟩ := e
    obtain ⟨hb, hr, hw⟩ := SMap.wf_cons.1 h
    simp only [SMap.put]
    split
    · rename_i hlt
      refine SMap.wf_cons.2 ⟨ha, ?_, h⟩
      simp only [List.all_cons, Bool.and_eq_true, decide_eq_true_eq]
      refine ⟨hlt, ?_⟩
      rw [List.all_eq_true] at hr ⊢
      intro x hx
      have := hr x hx
      simp only [decide_eq_true_eq] at this ⊢
      omega
    · split
      · rename_i _ hk
        subst hk
        exact SMap.wf_cons.2 ⟨ha, hr, hw⟩
      · refine SMap.wf_cons.2 ⟨hb, ?_, ih hw⟩
        exact SMap.all_put (q := fun x => decide (j < x)) hr (by simp; omega)

theorem SMap.wf_drop {d : α} {m : SMap α} (k : Nat) (h : SMap.wf d m = true) : SMap.wf d (m.drop k) = true := by
  induction m with
  | nil => rfl
  | cons e r ih =>
    obtain ⟨j, b⟩ := e
    obtain ⟨hb, hr, hw⟩ := SMap.wf_cons.1 h
    simp only [SMap.drop] at ih ⊢
    by_cases hj : j = k
    · rw [List.filter_cons_of_neg (by simpa using hj)]
      exact ih hw
    · rw [List.filter_cons_of_pos (by simpa using hj)]
      refine SMap.wf_cons.2 ⟨hb, ?_, ih hw⟩
      rw [List.all_eq_true] at hr ⊢
      exact fun x hx => hr x (List.mem_of_mem_filter hx)

/-- A write keeps the canonical form. -/
theorem SMap.wf_set {d : α} {m : SMap α} (k : Nat) (a : α) (h : SMap.wf d m = true) : SMap.wf d (m.set d k a) = true := by
  unfold SMap.set
  split
  · exact SMap.wf_drop k h
  · exact SMap.wf_put h (by assumption)

/-- A list of writes keeps the canonical form. -/
theorem SMap.wf_setList {d : α} (l : List α) {m : SMap α} (k : Nat) (h : SMap.wf d m = true) :
    SMap.wf d (m.setList d k l) = true := by
  induction l generalizing m k with
  | nil => exact h
  | cons a r ih => exact ih (k + 1) (SMap.wf_set k a h)

end deq

end Sys2Proof
end

