-- ==== Sys2Proof/Laws/State.lean ====
section
/-! SUPPORT. What each named update of the state leaves as it was, field by field, and what reading back what it wrote
gives. -/

namespace Sys2Proof.Machine

set_option Elab.async false

/-! ### modCore -/

@[simp] theorem State.modCore_mem (s : State) (k : Nat) (f : Core → Core) : (s.modCore k f).mem = s.mem := rfl
@[simp] theorem State.modCore_cur (s : State) (k : Nat) (f : Core → Core) : (s.modCore k f).cur = s.cur := rfl
@[simp] theorem State.modCore_queues (s : State) (k : Nat) (f : Core → Core) : (s.modCore k f).queues = s.queues := rfl
@[simp] theorem State.modCore_nests (s : State) (k : Nat) (f : Core → Core) : (s.modCore k f).nests = s.nests := rfl
@[simp] theorem State.modCore_parts (s : State) (k : Nat) (f : Core → Core) : (s.modCore k f).parts = s.parts := rfl
@[simp] theorem State.modCore_groups (s : State) (k : Nat) (f : Core → Core) : (s.modCore k f).groups = s.groups := rfl
@[simp] theorem State.modCore_dies (s : State) (k : Nat) (f : Core → Core) : (s.modCore k f).dies = s.dies := rfl
@[simp] theorem State.modCore_ladles (s : State) (k : Nat) (f : Core → Core) : (s.modCore k f).ladles = s.ladles := rfl
@[simp] theorem State.modCore_flows (s : State) (k : Nat) (f : Core → Core) : (s.modCore k f).flows = s.flows := rfl
@[simp] theorem State.modCore_flowSeq (s : State) (k : Nat) (f : Core → Core) : (s.modCore k f).flowSeq = s.flowSeq := rfl
@[simp] theorem State.modCore_sems (s : State) (k : Nat) (f : Core → Core) : (s.modCore k f).sems = s.sems := rfl
@[simp] theorem State.modCore_off (s : State) (k : Nat) (f : Core → Core) : (s.modCore k f).off = s.off := rfl
@[simp] theorem State.modCore_cvs (s : State) (k : Nat) (f : Core → Core) : (s.modCore k f).cvs = s.cvs := rfl
@[simp] theorem State.modCore_conds (s : State) (k : Nat) (f : Core → Core) : (s.modCore k f).conds = s.conds := rfl
@[simp] theorem State.modCore_mboxes (s : State) (k : Nat) (f : Core → Core) : (s.modCore k f).mboxes = s.mboxes := rfl
@[simp] theorem State.modCore_links (s : State) (k : Nat) (f : Core → Core) : (s.modCore k f).links = s.links := rfl
@[simp] theorem State.modCore_spans (s : State) (k : Nat) (f : Core → Core) : (s.modCore k f).spans = s.spans := rfl
@[simp] theorem State.modCore_lost (s : State) (k : Nat) (f : Core → Core) : (s.modCore k f).lost = s.lost := rfl
@[simp] theorem State.modCore_noRoute (s : State) (k : Nat) (f : Core → Core) : (s.modCore k f).noRoute = s.noRoute := rfl
@[simp] theorem State.modCore_invals (s : State) (k : Nat) (f : Core → Core) : (s.modCore k f).invals = s.invals := rfl
@[simp] theorem State.modCore_stalled (s : State) (k : Nat) (f : Core → Core) : (s.modCore k f).stalled = s.stalled := rfl
@[simp] theorem State.modCore_kvOpen (s : State) (k : Nat) (f : Core → Core) : (s.modCore k f).kvOpen = s.kvOpen := rfl
@[simp] theorem State.modCore_poison (s : State) (k : Nat) (f : Core → Core) : (s.modCore k f).poison = s.poison := rfl
@[simp] theorem State.modCore_msix (s : State) (k : Nat) (f : Core → Core) : (s.modCore k f).msix = s.msix := rfl
@[simp] theorem State.modCore_pwrcap (s : State) (k : Nat) (f : Core → Core) : (s.modCore k f).pwrcap = s.pwrcap := rfl
@[simp] theorem State.modCore_stage (s : State) (k : Nat) (f : Core → Core) : (s.modCore k f).stage = s.stage := rfl
@[simp] theorem State.modCore_fwerr (s : State) (k : Nat) (f : Core → Core) : (s.modCore k f).fwerr = s.fwerr := rfl
@[simp] theorem State.modCore_thermtrip (s : State) (k : Nat) (f : Core → Core) : (s.modCore k f).thermtrip = s.thermtrip := rfl
@[simp] theorem State.modCore_power (s : State) (k : Nat) (f : Core → Core) : (s.modCore k f).power = s.power := rfl
@[simp] theorem State.modCore_secbox (s : State) (k : Nat) (f : Core → Core) : (s.modCore k f).secbox = s.secbox := rfl
@[simp] theorem State.modCore_attesting (s : State) (k : Nat) (f : Core → Core) : (s.modCore k f).attesting = s.attesting := rfl
@[simp] theorem State.modCore_hostData (s : State) (k : Nat) (f : Core → Core) : (s.modCore k f).hostData = s.hostData := rfl
@[simp] theorem State.modCore_peerData (s : State) (k : Nat) (f : Core → Core) : (s.modCore k f).peerData = s.peerData := rfl
@[simp] theorem State.modCore_now (s : State) (k : Nat) (f : Core → Core) : (s.modCore k f).now = s.now := rfl
@[simp] theorem State.modCore_creation (s : State) (k : Nat) (f : Core → Core) : (s.modCore k f).creation = s.creation := rfl
@[simp] theorem State.modCore_leaveNo (s : State) (k : Nat) (f : Core → Core) : (s.modCore k f).leaveNo = s.leaveNo := rfl
@[simp] theorem State.modCore_workNo (s : State) (k : Nat) (f : Core → Core) : (s.modCore k f).workNo = s.workNo := rfl
@[simp] theorem State.modCore_nestNo (s : State) (k : Nat) (f : Core → Core) : (s.modCore k f).nestNo = s.nestNo := rfl
@[simp] theorem State.modCore_invNo (s : State) (k : Nat) (f : Core → Core) : (s.modCore k f).invNo = s.invNo := rfl
@[simp] theorem State.modCore_freeNo (s : State) (k : Nat) (f : Core → Core) : (s.modCore k f).freeNo = s.freeNo := rfl
@[simp] theorem State.modCore_turnNo (s : State) (k : Nat) (f : Core → Core) : (s.modCore k f).turnNo = s.turnNo := rfl
@[simp] theorem State.modCore_agenda (s : State) (k : Nat) (f : Core → Core) : (s.modCore k f).agenda = s.agenda := rfl
@[simp] theorem State.modCore_budget (s : State) (k : Nat) (f : Core → Core) : (s.modCore k f).budget = s.budget := rfl
@[simp] theorem State.modCore_quiet (s : State) (k : Nat) (f : Core → Core) : (s.modCore k f).quiet = s.quiet := rfl
@[simp] theorem State.modCore_msixTable (s : State) (k : Nat) (f : Core → Core) : (s.modCore k f).msixTable = s.msixTable := rfl
@[simp] theorem State.modCore_measured (s : State) (k : Nat) (f : Core → Core) : (s.modCore k f).measured = s.measured := rfl
@[simp] theorem State.modCore_fuses (s : State) (k : Nat) (f : Core → Core) : (s.modCore k f).fuses = s.fuses := rfl
@[simp] theorem State.modCore_fwVersion (s : State) (k : Nat) (f : Core → Core) : (s.modCore k f).fwVersion = s.fwVersion := rfl
@[simp] theorem State.modCore_fwDigest (s : State) (k : Nat) (f : Core → Core) : (s.modCore k f).fwDigest = s.fwDigest := rfl
@[simp] theorem State.modCore_report (s : State) (k : Nat) (f : Core → Core) : (s.modCore k f).report = s.report := rfl
@[simp] theorem State.modCore_handleNo (s : State) (k : Nat) (f : Core → Core) : (s.modCore k f).handleNo = s.handleNo := rfl
@[simp] theorem State.modCore_arrayQuiet (s : State) (k : Nat) (f : Core → Core) : (s.modCore k f).arrayQuiet = s.arrayQuiet := rfl
@[simp] theorem State.modCore_cycle (s : State) (k : Nat) (f : Core → Core) : (s.modCore k f).cycle = s.cycle := rfl
@[simp] theorem State.modCore_fills (s : State) (k : Nat) (f : Core → Core) : (s.modCore k f).fills = s.fills := rfl
@[simp] theorem State.modCore_due (s : State) (k : Nat) (f : Core → Core) : (s.modCore k f).due = s.due := rfl

/-! ### modCC -/

@[simp] theorem State.modCC_mem (s : State) (f : Core → Core) : (s.modCC f).mem = s.mem := rfl
@[simp] theorem State.modCC_cur (s : State) (f : Core → Core) : (s.modCC f).cur = s.cur := rfl
@[simp] theorem State.modCC_queues (s : State) (f : Core → Core) : (s.modCC f).queues = s.queues := rfl
@[simp] theorem State.modCC_nests (s : State) (f : Core → Core) : (s.modCC f).nests = s.nests := rfl
@[simp] theorem State.modCC_parts (s : State) (f : Core → Core) : (s.modCC f).parts = s.parts := rfl
@[simp] theorem State.modCC_groups (s : State) (f : Core → Core) : (s.modCC f).groups = s.groups := rfl
@[simp] theorem State.modCC_dies (s : State) (f : Core → Core) : (s.modCC f).dies = s.dies := rfl
@[simp] theorem State.modCC_ladles (s : State) (f : Core → Core) : (s.modCC f).ladles = s.ladles := rfl
@[simp] theorem State.modCC_flows (s : State) (f : Core → Core) : (s.modCC f).flows = s.flows := rfl
@[simp] theorem State.modCC_flowSeq (s : State) (f : Core → Core) : (s.modCC f).flowSeq = s.flowSeq := rfl
@[simp] theorem State.modCC_sems (s : State) (f : Core → Core) : (s.modCC f).sems = s.sems := rfl
@[simp] theorem State.modCC_off (s : State) (f : Core → Core) : (s.modCC f).off = s.off := rfl
@[simp] theorem State.modCC_cvs (s : State) (f : Core → Core) : (s.modCC f).cvs = s.cvs := rfl
@[simp] theorem State.modCC_conds (s : State) (f : Core → Core) : (s.modCC f).conds = s.conds := rfl
@[simp] theorem State.modCC_mboxes (s : State) (f : Core → Core) : (s.modCC f).mboxes = s.mboxes := rfl
@[simp] theorem State.modCC_links (s : State) (f : Core → Core) : (s.modCC f).links = s.links := rfl
@[simp] theorem State.modCC_spans (s : State) (f : Core → Core) : (s.modCC f).spans = s.spans := rfl
@[simp] theorem State.modCC_lost (s : State) (f : Core → Core) : (s.modCC f).lost = s.lost := rfl
@[simp] theorem State.modCC_noRoute (s : State) (f : Core → Core) : (s.modCC f).noRoute = s.noRoute := rfl
@[simp] theorem State.modCC_invals (s : State) (f : Core → Core) : (s.modCC f).invals = s.invals := rfl
@[simp] theorem State.modCC_stalled (s : State) (f : Core → Core) : (s.modCC f).stalled = s.stalled := rfl
@[simp] theorem State.modCC_kvOpen (s : State) (f : Core → Core) : (s.modCC f).kvOpen = s.kvOpen := rfl
@[simp] theorem State.modCC_poison (s : State) (f : Core → Core) : (s.modCC f).poison = s.poison := rfl
@[simp] theorem State.modCC_msix (s : State) (f : Core → Core) : (s.modCC f).msix = s.msix := rfl
@[simp] theorem State.modCC_pwrcap (s : State) (f : Core → Core) : (s.modCC f).pwrcap = s.pwrcap := rfl
@[simp] theorem State.modCC_stage (s : State) (f : Core → Core) : (s.modCC f).stage = s.stage := rfl
@[simp] theorem State.modCC_fwerr (s : State) (f : Core → Core) : (s.modCC f).fwerr = s.fwerr := rfl
@[simp] theorem State.modCC_thermtrip (s : State) (f : Core → Core) : (s.modCC f).thermtrip = s.thermtrip := rfl
@[simp] theorem State.modCC_power (s : State) (f : Core → Core) : (s.modCC f).power = s.power := rfl
@[simp] theorem State.modCC_secbox (s : State) (f : Core → Core) : (s.modCC f).secbox = s.secbox := rfl
@[simp] theorem State.modCC_attesting (s : State) (f : Core → Core) : (s.modCC f).attesting = s.attesting := rfl
@[simp] theorem State.modCC_hostData (s : State) (f : Core → Core) : (s.modCC f).hostData = s.hostData := rfl
@[simp] theorem State.modCC_peerData (s : State) (f : Core → Core) : (s.modCC f).peerData = s.peerData := rfl
@[simp] theorem State.modCC_now (s : State) (f : Core → Core) : (s.modCC f).now = s.now := rfl
@[simp] theorem State.modCC_creation (s : State) (f : Core → Core) : (s.modCC f).creation = s.creation := rfl
@[simp] theorem State.modCC_leaveNo (s : State) (f : Core → Core) : (s.modCC f).leaveNo = s.leaveNo := rfl
@[simp] theorem State.modCC_workNo (s : State) (f : Core → Core) : (s.modCC f).workNo = s.workNo := rfl
@[simp] theorem State.modCC_nestNo (s : State) (f : Core → Core) : (s.modCC f).nestNo = s.nestNo := rfl
@[simp] theorem State.modCC_invNo (s : State) (f : Core → Core) : (s.modCC f).invNo = s.invNo := rfl
@[simp] theorem State.modCC_freeNo (s : State) (f : Core → Core) : (s.modCC f).freeNo = s.freeNo := rfl
@[simp] theorem State.modCC_turnNo (s : State) (f : Core → Core) : (s.modCC f).turnNo = s.turnNo := rfl
@[simp] theorem State.modCC_agenda (s : State) (f : Core → Core) : (s.modCC f).agenda = s.agenda := rfl
@[simp] theorem State.modCC_budget (s : State) (f : Core → Core) : (s.modCC f).budget = s.budget := rfl
@[simp] theorem State.modCC_quiet (s : State) (f : Core → Core) : (s.modCC f).quiet = s.quiet := rfl
@[simp] theorem State.modCC_msixTable (s : State) (f : Core → Core) : (s.modCC f).msixTable = s.msixTable := rfl
@[simp] theorem State.modCC_measured (s : State) (f : Core → Core) : (s.modCC f).measured = s.measured := rfl
@[simp] theorem State.modCC_fuses (s : State) (f : Core → Core) : (s.modCC f).fuses = s.fuses := rfl
@[simp] theorem State.modCC_fwVersion (s : State) (f : Core → Core) : (s.modCC f).fwVersion = s.fwVersion := rfl
@[simp] theorem State.modCC_fwDigest (s : State) (f : Core → Core) : (s.modCC f).fwDigest = s.fwDigest := rfl
@[simp] theorem State.modCC_report (s : State) (f : Core → Core) : (s.modCC f).report = s.report := rfl
@[simp] theorem State.modCC_handleNo (s : State) (f : Core → Core) : (s.modCC f).handleNo = s.handleNo := rfl
@[simp] theorem State.modCC_arrayQuiet (s : State) (f : Core → Core) : (s.modCC f).arrayQuiet = s.arrayQuiet := rfl
@[simp] theorem State.modCC_cycle (s : State) (f : Core → Core) : (s.modCC f).cycle = s.cycle := rfl
@[simp] theorem State.modCC_fills (s : State) (f : Core → Core) : (s.modCC f).fills = s.fills := rfl
@[simp] theorem State.modCC_due (s : State) (f : Core → Core) : (s.modCC f).due = s.due := rfl

/-! ### modCtxOf -/

@[simp] theorem State.modCtxOf_mem (s : State) (k : Nat) (f : Ctx → Ctx) : (s.modCtxOf k f).mem = s.mem := rfl
@[simp] theorem State.modCtxOf_cur (s : State) (k : Nat) (f : Ctx → Ctx) : (s.modCtxOf k f).cur = s.cur := rfl
@[simp] theorem State.modCtxOf_queues (s : State) (k : Nat) (f : Ctx → Ctx) : (s.modCtxOf k f).queues = s.queues := rfl
@[simp] theorem State.modCtxOf_nests (s : State) (k : Nat) (f : Ctx → Ctx) : (s.modCtxOf k f).nests = s.nests := rfl
@[simp] theorem State.modCtxOf_parts (s : State) (k : Nat) (f : Ctx → Ctx) : (s.modCtxOf k f).parts = s.parts := rfl
@[simp] theorem State.modCtxOf_groups (s : State) (k : Nat) (f : Ctx → Ctx) : (s.modCtxOf k f).groups = s.groups := rfl
@[simp] theorem State.modCtxOf_dies (s : State) (k : Nat) (f : Ctx → Ctx) : (s.modCtxOf k f).dies = s.dies := rfl
@[simp] theorem State.modCtxOf_ladles (s : State) (k : Nat) (f : Ctx → Ctx) : (s.modCtxOf k f).ladles = s.ladles := rfl
@[simp] theorem State.modCtxOf_flows (s : State) (k : Nat) (f : Ctx → Ctx) : (s.modCtxOf k f).flows = s.flows := rfl
@[simp] theorem State.modCtxOf_flowSeq (s : State) (k : Nat) (f : Ctx → Ctx) : (s.modCtxOf k f).flowSeq = s.flowSeq := rfl
@[simp] theorem State.modCtxOf_sems (s : State) (k : Nat) (f : Ctx → Ctx) : (s.modCtxOf k f).sems = s.sems := rfl
@[simp] theorem State.modCtxOf_off (s : State) (k : Nat) (f : Ctx → Ctx) : (s.modCtxOf k f).off = s.off := rfl
@[simp] theorem State.modCtxOf_cvs (s : State) (k : Nat) (f : Ctx → Ctx) : (s.modCtxOf k f).cvs = s.cvs := rfl
@[simp] theorem State.modCtxOf_conds (s : State) (k : Nat) (f : Ctx → Ctx) : (s.modCtxOf k f).conds = s.conds := rfl
@[simp] theorem State.modCtxOf_mboxes (s : State) (k : Nat) (f : Ctx → Ctx) : (s.modCtxOf k f).mboxes = s.mboxes := rfl
@[simp] theorem State.modCtxOf_links (s : State) (k : Nat) (f : Ctx → Ctx) : (s.modCtxOf k f).links = s.links := rfl
@[simp] theorem State.modCtxOf_spans (s : State) (k : Nat) (f : Ctx → Ctx) : (s.modCtxOf k f).spans = s.spans := rfl
@[simp] theorem State.modCtxOf_lost (s : State) (k : Nat) (f : Ctx → Ctx) : (s.modCtxOf k f).lost = s.lost := rfl
@[simp] theorem State.modCtxOf_noRoute (s : State) (k : Nat) (f : Ctx → Ctx) : (s.modCtxOf k f).noRoute = s.noRoute := rfl
@[simp] theorem State.modCtxOf_invals (s : State) (k : Nat) (f : Ctx → Ctx) : (s.modCtxOf k f).invals = s.invals := rfl
@[simp] theorem State.modCtxOf_stalled (s : State) (k : Nat) (f : Ctx → Ctx) : (s.modCtxOf k f).stalled = s.stalled := rfl
@[simp] theorem State.modCtxOf_kvOpen (s : State) (k : Nat) (f : Ctx → Ctx) : (s.modCtxOf k f).kvOpen = s.kvOpen := rfl
@[simp] theorem State.modCtxOf_poison (s : State) (k : Nat) (f : Ctx → Ctx) : (s.modCtxOf k f).poison = s.poison := rfl
@[simp] theorem State.modCtxOf_msix (s : State) (k : Nat) (f : Ctx → Ctx) : (s.modCtxOf k f).msix = s.msix := rfl
@[simp] theorem State.modCtxOf_pwrcap (s : State) (k : Nat) (f : Ctx → Ctx) : (s.modCtxOf k f).pwrcap = s.pwrcap := rfl
@[simp] theorem State.modCtxOf_stage (s : State) (k : Nat) (f : Ctx → Ctx) : (s.modCtxOf k f).stage = s.stage := rfl
@[simp] theorem State.modCtxOf_fwerr (s : State) (k : Nat) (f : Ctx → Ctx) : (s.modCtxOf k f).fwerr = s.fwerr := rfl
@[simp] theorem State.modCtxOf_thermtrip (s : State) (k : Nat) (f : Ctx → Ctx) : (s.modCtxOf k f).thermtrip = s.thermtrip := rfl
@[simp] theorem State.modCtxOf_power (s : State) (k : Nat) (f : Ctx → Ctx) : (s.modCtxOf k f).power = s.power := rfl
@[simp] theorem State.modCtxOf_secbox (s : State) (k : Nat) (f : Ctx → Ctx) : (s.modCtxOf k f).secbox = s.secbox := rfl
@[simp] theorem State.modCtxOf_attesting (s : State) (k : Nat) (f : Ctx → Ctx) : (s.modCtxOf k f).attesting = s.attesting := rfl
@[simp] theorem State.modCtxOf_hostData (s : State) (k : Nat) (f : Ctx → Ctx) : (s.modCtxOf k f).hostData = s.hostData := rfl
@[simp] theorem State.modCtxOf_peerData (s : State) (k : Nat) (f : Ctx → Ctx) : (s.modCtxOf k f).peerData = s.peerData := rfl
@[simp] theorem State.modCtxOf_now (s : State) (k : Nat) (f : Ctx → Ctx) : (s.modCtxOf k f).now = s.now := rfl
@[simp] theorem State.modCtxOf_creation (s : State) (k : Nat) (f : Ctx → Ctx) : (s.modCtxOf k f).creation = s.creation := rfl
@[simp] theorem State.modCtxOf_leaveNo (s : State) (k : Nat) (f : Ctx → Ctx) : (s.modCtxOf k f).leaveNo = s.leaveNo := rfl
@[simp] theorem State.modCtxOf_workNo (s : State) (k : Nat) (f : Ctx → Ctx) : (s.modCtxOf k f).workNo = s.workNo := rfl
@[simp] theorem State.modCtxOf_nestNo (s : State) (k : Nat) (f : Ctx → Ctx) : (s.modCtxOf k f).nestNo = s.nestNo := rfl
@[simp] theorem State.modCtxOf_invNo (s : State) (k : Nat) (f : Ctx → Ctx) : (s.modCtxOf k f).invNo = s.invNo := rfl
@[simp] theorem State.modCtxOf_freeNo (s : State) (k : Nat) (f : Ctx → Ctx) : (s.modCtxOf k f).freeNo = s.freeNo := rfl
@[simp] theorem State.modCtxOf_turnNo (s : State) (k : Nat) (f : Ctx → Ctx) : (s.modCtxOf k f).turnNo = s.turnNo := rfl
@[simp] theorem State.modCtxOf_agenda (s : State) (k : Nat) (f : Ctx → Ctx) : (s.modCtxOf k f).agenda = s.agenda := rfl
@[simp] theorem State.modCtxOf_budget (s : State) (k : Nat) (f : Ctx → Ctx) : (s.modCtxOf k f).budget = s.budget := rfl
@[simp] theorem State.modCtxOf_quiet (s : State) (k : Nat) (f : Ctx → Ctx) : (s.modCtxOf k f).quiet = s.quiet := rfl
@[simp] theorem State.modCtxOf_msixTable (s : State) (k : Nat) (f : Ctx → Ctx) : (s.modCtxOf k f).msixTable = s.msixTable := rfl
@[simp] theorem State.modCtxOf_measured (s : State) (k : Nat) (f : Ctx → Ctx) : (s.modCtxOf k f).measured = s.measured := rfl
@[simp] theorem State.modCtxOf_fuses (s : State) (k : Nat) (f : Ctx → Ctx) : (s.modCtxOf k f).fuses = s.fuses := rfl
@[simp] theorem State.modCtxOf_fwVersion (s : State) (k : Nat) (f : Ctx → Ctx) : (s.modCtxOf k f).fwVersion = s.fwVersion := rfl
@[simp] theorem State.modCtxOf_fwDigest (s : State) (k : Nat) (f : Ctx → Ctx) : (s.modCtxOf k f).fwDigest = s.fwDigest := rfl
@[simp] theorem State.modCtxOf_report (s : State) (k : Nat) (f : Ctx → Ctx) : (s.modCtxOf k f).report = s.report := rfl
@[simp] theorem State.modCtxOf_handleNo (s : State) (k : Nat) (f : Ctx → Ctx) : (s.modCtxOf k f).handleNo = s.handleNo := rfl
@[simp] theorem State.modCtxOf_arrayQuiet (s : State) (k : Nat) (f : Ctx → Ctx) : (s.modCtxOf k f).arrayQuiet = s.arrayQuiet := rfl
@[simp] theorem State.modCtxOf_cycle (s : State) (k : Nat) (f : Ctx → Ctx) : (s.modCtxOf k f).cycle = s.cycle := rfl
@[simp] theorem State.modCtxOf_fills (s : State) (k : Nat) (f : Ctx → Ctx) : (s.modCtxOf k f).fills = s.fills := rfl
@[simp] theorem State.modCtxOf_due (s : State) (k : Nat) (f : Ctx → Ctx) : (s.modCtxOf k f).due = s.due := rfl

/-! ### modCtx -/

@[simp] theorem State.modCtx_mem (s : State) (f : Ctx → Ctx) : (s.modCtx f).mem = s.mem := rfl
@[simp] theorem State.modCtx_cur (s : State) (f : Ctx → Ctx) : (s.modCtx f).cur = s.cur := rfl
@[simp] theorem State.modCtx_queues (s : State) (f : Ctx → Ctx) : (s.modCtx f).queues = s.queues := rfl
@[simp] theorem State.modCtx_nests (s : State) (f : Ctx → Ctx) : (s.modCtx f).nests = s.nests := rfl
@[simp] theorem State.modCtx_parts (s : State) (f : Ctx → Ctx) : (s.modCtx f).parts = s.parts := rfl
@[simp] theorem State.modCtx_groups (s : State) (f : Ctx → Ctx) : (s.modCtx f).groups = s.groups := rfl
@[simp] theorem State.modCtx_dies (s : State) (f : Ctx → Ctx) : (s.modCtx f).dies = s.dies := rfl
@[simp] theorem State.modCtx_ladles (s : State) (f : Ctx → Ctx) : (s.modCtx f).ladles = s.ladles := rfl
@[simp] theorem State.modCtx_flows (s : State) (f : Ctx → Ctx) : (s.modCtx f).flows = s.flows := rfl
@[simp] theorem State.modCtx_flowSeq (s : State) (f : Ctx → Ctx) : (s.modCtx f).flowSeq = s.flowSeq := rfl
@[simp] theorem State.modCtx_sems (s : State) (f : Ctx → Ctx) : (s.modCtx f).sems = s.sems := rfl
@[simp] theorem State.modCtx_off (s : State) (f : Ctx → Ctx) : (s.modCtx f).off = s.off := rfl
@[simp] theorem State.modCtx_cvs (s : State) (f : Ctx → Ctx) : (s.modCtx f).cvs = s.cvs := rfl
@[simp] theorem State.modCtx_conds (s : State) (f : Ctx → Ctx) : (s.modCtx f).conds = s.conds := rfl
@[simp] theorem State.modCtx_mboxes (s : State) (f : Ctx → Ctx) : (s.modCtx f).mboxes = s.mboxes := rfl
@[simp] theorem State.modCtx_links (s : State) (f : Ctx → Ctx) : (s.modCtx f).links = s.links := rfl
@[simp] theorem State.modCtx_spans (s : State) (f : Ctx → Ctx) : (s.modCtx f).spans = s.spans := rfl
@[simp] theorem State.modCtx_lost (s : State) (f : Ctx → Ctx) : (s.modCtx f).lost = s.lost := rfl
@[simp] theorem State.modCtx_noRoute (s : State) (f : Ctx → Ctx) : (s.modCtx f).noRoute = s.noRoute := rfl
@[simp] theorem State.modCtx_invals (s : State) (f : Ctx → Ctx) : (s.modCtx f).invals = s.invals := rfl
@[simp] theorem State.modCtx_stalled (s : State) (f : Ctx → Ctx) : (s.modCtx f).stalled = s.stalled := rfl
@[simp] theorem State.modCtx_kvOpen (s : State) (f : Ctx → Ctx) : (s.modCtx f).kvOpen = s.kvOpen := rfl
@[simp] theorem State.modCtx_poison (s : State) (f : Ctx → Ctx) : (s.modCtx f).poison = s.poison := rfl
@[simp] theorem State.modCtx_msix (s : State) (f : Ctx → Ctx) : (s.modCtx f).msix = s.msix := rfl
@[simp] theorem State.modCtx_pwrcap (s : State) (f : Ctx → Ctx) : (s.modCtx f).pwrcap = s.pwrcap := rfl
@[simp] theorem State.modCtx_stage (s : State) (f : Ctx → Ctx) : (s.modCtx f).stage = s.stage := rfl
@[simp] theorem State.modCtx_fwerr (s : State) (f : Ctx → Ctx) : (s.modCtx f).fwerr = s.fwerr := rfl
@[simp] theorem State.modCtx_thermtrip (s : State) (f : Ctx → Ctx) : (s.modCtx f).thermtrip = s.thermtrip := rfl
@[simp] theorem State.modCtx_power (s : State) (f : Ctx → Ctx) : (s.modCtx f).power = s.power := rfl
@[simp] theorem State.modCtx_secbox (s : State) (f : Ctx → Ctx) : (s.modCtx f).secbox = s.secbox := rfl
@[simp] theorem State.modCtx_attesting (s : State) (f : Ctx → Ctx) : (s.modCtx f).attesting = s.attesting := rfl
@[simp] theorem State.modCtx_hostData (s : State) (f : Ctx → Ctx) : (s.modCtx f).hostData = s.hostData := rfl
@[simp] theorem State.modCtx_peerData (s : State) (f : Ctx → Ctx) : (s.modCtx f).peerData = s.peerData := rfl
@[simp] theorem State.modCtx_now (s : State) (f : Ctx → Ctx) : (s.modCtx f).now = s.now := rfl
@[simp] theorem State.modCtx_creation (s : State) (f : Ctx → Ctx) : (s.modCtx f).creation = s.creation := rfl
@[simp] theorem State.modCtx_leaveNo (s : State) (f : Ctx → Ctx) : (s.modCtx f).leaveNo = s.leaveNo := rfl
@[simp] theorem State.modCtx_workNo (s : State) (f : Ctx → Ctx) : (s.modCtx f).workNo = s.workNo := rfl
@[simp] theorem State.modCtx_nestNo (s : State) (f : Ctx → Ctx) : (s.modCtx f).nestNo = s.nestNo := rfl
@[simp] theorem State.modCtx_invNo (s : State) (f : Ctx → Ctx) : (s.modCtx f).invNo = s.invNo := rfl
@[simp] theorem State.modCtx_freeNo (s : State) (f : Ctx → Ctx) : (s.modCtx f).freeNo = s.freeNo := rfl
@[simp] theorem State.modCtx_turnNo (s : State) (f : Ctx → Ctx) : (s.modCtx f).turnNo = s.turnNo := rfl
@[simp] theorem State.modCtx_agenda (s : State) (f : Ctx → Ctx) : (s.modCtx f).agenda = s.agenda := rfl
@[simp] theorem State.modCtx_budget (s : State) (f : Ctx → Ctx) : (s.modCtx f).budget = s.budget := rfl
@[simp] theorem State.modCtx_quiet (s : State) (f : Ctx → Ctx) : (s.modCtx f).quiet = s.quiet := rfl
@[simp] theorem State.modCtx_msixTable (s : State) (f : Ctx → Ctx) : (s.modCtx f).msixTable = s.msixTable := rfl
@[simp] theorem State.modCtx_measured (s : State) (f : Ctx → Ctx) : (s.modCtx f).measured = s.measured := rfl
@[simp] theorem State.modCtx_fuses (s : State) (f : Ctx → Ctx) : (s.modCtx f).fuses = s.fuses := rfl
@[simp] theorem State.modCtx_fwVersion (s : State) (f : Ctx → Ctx) : (s.modCtx f).fwVersion = s.fwVersion := rfl
@[simp] theorem State.modCtx_fwDigest (s : State) (f : Ctx → Ctx) : (s.modCtx f).fwDigest = s.fwDigest := rfl
@[simp] theorem State.modCtx_report (s : State) (f : Ctx → Ctx) : (s.modCtx f).report = s.report := rfl
@[simp] theorem State.modCtx_handleNo (s : State) (f : Ctx → Ctx) : (s.modCtx f).handleNo = s.handleNo := rfl
@[simp] theorem State.modCtx_arrayQuiet (s : State) (f : Ctx → Ctx) : (s.modCtx f).arrayQuiet = s.arrayQuiet := rfl
@[simp] theorem State.modCtx_cycle (s : State) (f : Ctx → Ctx) : (s.modCtx f).cycle = s.cycle := rfl
@[simp] theorem State.modCtx_fills (s : State) (f : Ctx → Ctx) : (s.modCtx f).fills = s.fills := rfl
@[simp] theorem State.modCtx_due (s : State) (f : Ctx → Ctx) : (s.modCtx f).due = s.due := rfl

/-! ### modWorkOf -/

@[simp] theorem State.modWorkOf_mem (s : State) (k : Nat) (f : Work → Work) : (s.modWorkOf k f).mem = s.mem := rfl
@[simp] theorem State.modWorkOf_cur (s : State) (k : Nat) (f : Work → Work) : (s.modWorkOf k f).cur = s.cur := rfl
@[simp] theorem State.modWorkOf_queues (s : State) (k : Nat) (f : Work → Work) : (s.modWorkOf k f).queues = s.queues := rfl
@[simp] theorem State.modWorkOf_nests (s : State) (k : Nat) (f : Work → Work) : (s.modWorkOf k f).nests = s.nests := rfl
@[simp] theorem State.modWorkOf_parts (s : State) (k : Nat) (f : Work → Work) : (s.modWorkOf k f).parts = s.parts := rfl
@[simp] theorem State.modWorkOf_groups (s : State) (k : Nat) (f : Work → Work) : (s.modWorkOf k f).groups = s.groups := rfl
@[simp] theorem State.modWorkOf_dies (s : State) (k : Nat) (f : Work → Work) : (s.modWorkOf k f).dies = s.dies := rfl
@[simp] theorem State.modWorkOf_ladles (s : State) (k : Nat) (f : Work → Work) : (s.modWorkOf k f).ladles = s.ladles := rfl
@[simp] theorem State.modWorkOf_flows (s : State) (k : Nat) (f : Work → Work) : (s.modWorkOf k f).flows = s.flows := rfl
@[simp] theorem State.modWorkOf_flowSeq (s : State) (k : Nat) (f : Work → Work) : (s.modWorkOf k f).flowSeq = s.flowSeq := rfl
@[simp] theorem State.modWorkOf_sems (s : State) (k : Nat) (f : Work → Work) : (s.modWorkOf k f).sems = s.sems := rfl
@[simp] theorem State.modWorkOf_off (s : State) (k : Nat) (f : Work → Work) : (s.modWorkOf k f).off = s.off := rfl
@[simp] theorem State.modWorkOf_cvs (s : State) (k : Nat) (f : Work → Work) : (s.modWorkOf k f).cvs = s.cvs := rfl
@[simp] theorem State.modWorkOf_conds (s : State) (k : Nat) (f : Work → Work) : (s.modWorkOf k f).conds = s.conds := rfl
@[simp] theorem State.modWorkOf_mboxes (s : State) (k : Nat) (f : Work → Work) : (s.modWorkOf k f).mboxes = s.mboxes := rfl
@[simp] theorem State.modWorkOf_links (s : State) (k : Nat) (f : Work → Work) : (s.modWorkOf k f).links = s.links := rfl
@[simp] theorem State.modWorkOf_spans (s : State) (k : Nat) (f : Work → Work) : (s.modWorkOf k f).spans = s.spans := rfl
@[simp] theorem State.modWorkOf_lost (s : State) (k : Nat) (f : Work → Work) : (s.modWorkOf k f).lost = s.lost := rfl
@[simp] theorem State.modWorkOf_noRoute (s : State) (k : Nat) (f : Work → Work) : (s.modWorkOf k f).noRoute = s.noRoute := rfl
@[simp] theorem State.modWorkOf_invals (s : State) (k : Nat) (f : Work → Work) : (s.modWorkOf k f).invals = s.invals := rfl
@[simp] theorem State.modWorkOf_stalled (s : State) (k : Nat) (f : Work → Work) : (s.modWorkOf k f).stalled = s.stalled := rfl
@[simp] theorem State.modWorkOf_kvOpen (s : State) (k : Nat) (f : Work → Work) : (s.modWorkOf k f).kvOpen = s.kvOpen := rfl
@[simp] theorem State.modWorkOf_poison (s : State) (k : Nat) (f : Work → Work) : (s.modWorkOf k f).poison = s.poison := rfl
@[simp] theorem State.modWorkOf_msix (s : State) (k : Nat) (f : Work → Work) : (s.modWorkOf k f).msix = s.msix := rfl
@[simp] theorem State.modWorkOf_pwrcap (s : State) (k : Nat) (f : Work → Work) : (s.modWorkOf k f).pwrcap = s.pwrcap := rfl
@[simp] theorem State.modWorkOf_stage (s : State) (k : Nat) (f : Work → Work) : (s.modWorkOf k f).stage = s.stage := rfl
@[simp] theorem State.modWorkOf_fwerr (s : State) (k : Nat) (f : Work → Work) : (s.modWorkOf k f).fwerr = s.fwerr := rfl
@[simp] theorem State.modWorkOf_thermtrip (s : State) (k : Nat) (f : Work → Work) : (s.modWorkOf k f).thermtrip = s.thermtrip := rfl
@[simp] theorem State.modWorkOf_power (s : State) (k : Nat) (f : Work → Work) : (s.modWorkOf k f).power = s.power := rfl
@[simp] theorem State.modWorkOf_secbox (s : State) (k : Nat) (f : Work → Work) : (s.modWorkOf k f).secbox = s.secbox := rfl
@[simp] theorem State.modWorkOf_attesting (s : State) (k : Nat) (f : Work → Work) : (s.modWorkOf k f).attesting = s.attesting := rfl
@[simp] theorem State.modWorkOf_hostData (s : State) (k : Nat) (f : Work → Work) : (s.modWorkOf k f).hostData = s.hostData := rfl
@[simp] theorem State.modWorkOf_peerData (s : State) (k : Nat) (f : Work → Work) : (s.modWorkOf k f).peerData = s.peerData := rfl
@[simp] theorem State.modWorkOf_now (s : State) (k : Nat) (f : Work → Work) : (s.modWorkOf k f).now = s.now := rfl
@[simp] theorem State.modWorkOf_creation (s : State) (k : Nat) (f : Work → Work) : (s.modWorkOf k f).creation = s.creation := rfl
@[simp] theorem State.modWorkOf_leaveNo (s : State) (k : Nat) (f : Work → Work) : (s.modWorkOf k f).leaveNo = s.leaveNo := rfl
@[simp] theorem State.modWorkOf_workNo (s : State) (k : Nat) (f : Work → Work) : (s.modWorkOf k f).workNo = s.workNo := rfl
@[simp] theorem State.modWorkOf_nestNo (s : State) (k : Nat) (f : Work → Work) : (s.modWorkOf k f).nestNo = s.nestNo := rfl
@[simp] theorem State.modWorkOf_invNo (s : State) (k : Nat) (f : Work → Work) : (s.modWorkOf k f).invNo = s.invNo := rfl
@[simp] theorem State.modWorkOf_freeNo (s : State) (k : Nat) (f : Work → Work) : (s.modWorkOf k f).freeNo = s.freeNo := rfl
@[simp] theorem State.modWorkOf_turnNo (s : State) (k : Nat) (f : Work → Work) : (s.modWorkOf k f).turnNo = s.turnNo := rfl
@[simp] theorem State.modWorkOf_agenda (s : State) (k : Nat) (f : Work → Work) : (s.modWorkOf k f).agenda = s.agenda := rfl
@[simp] theorem State.modWorkOf_budget (s : State) (k : Nat) (f : Work → Work) : (s.modWorkOf k f).budget = s.budget := rfl
@[simp] theorem State.modWorkOf_quiet (s : State) (k : Nat) (f : Work → Work) : (s.modWorkOf k f).quiet = s.quiet := rfl
@[simp] theorem State.modWorkOf_msixTable (s : State) (k : Nat) (f : Work → Work) : (s.modWorkOf k f).msixTable = s.msixTable := rfl
@[simp] theorem State.modWorkOf_measured (s : State) (k : Nat) (f : Work → Work) : (s.modWorkOf k f).measured = s.measured := rfl
@[simp] theorem State.modWorkOf_fuses (s : State) (k : Nat) (f : Work → Work) : (s.modWorkOf k f).fuses = s.fuses := rfl
@[simp] theorem State.modWorkOf_fwVersion (s : State) (k : Nat) (f : Work → Work) : (s.modWorkOf k f).fwVersion = s.fwVersion := rfl
@[simp] theorem State.modWorkOf_fwDigest (s : State) (k : Nat) (f : Work → Work) : (s.modWorkOf k f).fwDigest = s.fwDigest := rfl
@[simp] theorem State.modWorkOf_report (s : State) (k : Nat) (f : Work → Work) : (s.modWorkOf k f).report = s.report := rfl
@[simp] theorem State.modWorkOf_handleNo (s : State) (k : Nat) (f : Work → Work) : (s.modWorkOf k f).handleNo = s.handleNo := rfl
@[simp] theorem State.modWorkOf_arrayQuiet (s : State) (k : Nat) (f : Work → Work) : (s.modWorkOf k f).arrayQuiet = s.arrayQuiet := rfl
@[simp] theorem State.modWorkOf_cycle (s : State) (k : Nat) (f : Work → Work) : (s.modWorkOf k f).cycle = s.cycle := rfl
@[simp] theorem State.modWorkOf_fills (s : State) (k : Nat) (f : Work → Work) : (s.modWorkOf k f).fills = s.fills := rfl
@[simp] theorem State.modWorkOf_due (s : State) (k : Nat) (f : Work → Work) : (s.modWorkOf k f).due = s.due := rfl

/-! ### modWork -/

@[simp] theorem State.modWork_mem (s : State) (f : Work → Work) : (s.modWork f).mem = s.mem := rfl
@[simp] theorem State.modWork_cur (s : State) (f : Work → Work) : (s.modWork f).cur = s.cur := rfl
@[simp] theorem State.modWork_queues (s : State) (f : Work → Work) : (s.modWork f).queues = s.queues := rfl
@[simp] theorem State.modWork_nests (s : State) (f : Work → Work) : (s.modWork f).nests = s.nests := rfl
@[simp] theorem State.modWork_parts (s : State) (f : Work → Work) : (s.modWork f).parts = s.parts := rfl
@[simp] theorem State.modWork_groups (s : State) (f : Work → Work) : (s.modWork f).groups = s.groups := rfl
@[simp] theorem State.modWork_dies (s : State) (f : Work → Work) : (s.modWork f).dies = s.dies := rfl
@[simp] theorem State.modWork_ladles (s : State) (f : Work → Work) : (s.modWork f).ladles = s.ladles := rfl
@[simp] theorem State.modWork_flows (s : State) (f : Work → Work) : (s.modWork f).flows = s.flows := rfl
@[simp] theorem State.modWork_flowSeq (s : State) (f : Work → Work) : (s.modWork f).flowSeq = s.flowSeq := rfl
@[simp] theorem State.modWork_sems (s : State) (f : Work → Work) : (s.modWork f).sems = s.sems := rfl
@[simp] theorem State.modWork_off (s : State) (f : Work → Work) : (s.modWork f).off = s.off := rfl
@[simp] theorem State.modWork_cvs (s : State) (f : Work → Work) : (s.modWork f).cvs = s.cvs := rfl
@[simp] theorem State.modWork_conds (s : State) (f : Work → Work) : (s.modWork f).conds = s.conds := rfl
@[simp] theorem State.modWork_mboxes (s : State) (f : Work → Work) : (s.modWork f).mboxes = s.mboxes := rfl
@[simp] theorem State.modWork_links (s : State) (f : Work → Work) : (s.modWork f).links = s.links := rfl
@[simp] theorem State.modWork_spans (s : State) (f : Work → Work) : (s.modWork f).spans = s.spans := rfl
@[simp] theorem State.modWork_lost (s : State) (f : Work → Work) : (s.modWork f).lost = s.lost := rfl
@[simp] theorem State.modWork_noRoute (s : State) (f : Work → Work) : (s.modWork f).noRoute = s.noRoute := rfl
@[simp] theorem State.modWork_invals (s : State) (f : Work → Work) : (s.modWork f).invals = s.invals := rfl
@[simp] theorem State.modWork_stalled (s : State) (f : Work → Work) : (s.modWork f).stalled = s.stalled := rfl
@[simp] theorem State.modWork_kvOpen (s : State) (f : Work → Work) : (s.modWork f).kvOpen = s.kvOpen := rfl
@[simp] theorem State.modWork_poison (s : State) (f : Work → Work) : (s.modWork f).poison = s.poison := rfl
@[simp] theorem State.modWork_msix (s : State) (f : Work → Work) : (s.modWork f).msix = s.msix := rfl
@[simp] theorem State.modWork_pwrcap (s : State) (f : Work → Work) : (s.modWork f).pwrcap = s.pwrcap := rfl
@[simp] theorem State.modWork_stage (s : State) (f : Work → Work) : (s.modWork f).stage = s.stage := rfl
@[simp] theorem State.modWork_fwerr (s : State) (f : Work → Work) : (s.modWork f).fwerr = s.fwerr := rfl
@[simp] theorem State.modWork_thermtrip (s : State) (f : Work → Work) : (s.modWork f).thermtrip = s.thermtrip := rfl
@[simp] theorem State.modWork_power (s : State) (f : Work → Work) : (s.modWork f).power = s.power := rfl
@[simp] theorem State.modWork_secbox (s : State) (f : Work → Work) : (s.modWork f).secbox = s.secbox := rfl
@[simp] theorem State.modWork_attesting (s : State) (f : Work → Work) : (s.modWork f).attesting = s.attesting := rfl
@[simp] theorem State.modWork_hostData (s : State) (f : Work → Work) : (s.modWork f).hostData = s.hostData := rfl
@[simp] theorem State.modWork_peerData (s : State) (f : Work → Work) : (s.modWork f).peerData = s.peerData := rfl
@[simp] theorem State.modWork_now (s : State) (f : Work → Work) : (s.modWork f).now = s.now := rfl
@[simp] theorem State.modWork_creation (s : State) (f : Work → Work) : (s.modWork f).creation = s.creation := rfl
@[simp] theorem State.modWork_leaveNo (s : State) (f : Work → Work) : (s.modWork f).leaveNo = s.leaveNo := rfl
@[simp] theorem State.modWork_workNo (s : State) (f : Work → Work) : (s.modWork f).workNo = s.workNo := rfl
@[simp] theorem State.modWork_nestNo (s : State) (f : Work → Work) : (s.modWork f).nestNo = s.nestNo := rfl
@[simp] theorem State.modWork_invNo (s : State) (f : Work → Work) : (s.modWork f).invNo = s.invNo := rfl
@[simp] theorem State.modWork_freeNo (s : State) (f : Work → Work) : (s.modWork f).freeNo = s.freeNo := rfl
@[simp] theorem State.modWork_turnNo (s : State) (f : Work → Work) : (s.modWork f).turnNo = s.turnNo := rfl
@[simp] theorem State.modWork_agenda (s : State) (f : Work → Work) : (s.modWork f).agenda = s.agenda := rfl
@[simp] theorem State.modWork_budget (s : State) (f : Work → Work) : (s.modWork f).budget = s.budget := rfl
@[simp] theorem State.modWork_quiet (s : State) (f : Work → Work) : (s.modWork f).quiet = s.quiet := rfl
@[simp] theorem State.modWork_msixTable (s : State) (f : Work → Work) : (s.modWork f).msixTable = s.msixTable := rfl
@[simp] theorem State.modWork_measured (s : State) (f : Work → Work) : (s.modWork f).measured = s.measured := rfl
@[simp] theorem State.modWork_fuses (s : State) (f : Work → Work) : (s.modWork f).fuses = s.fuses := rfl
@[simp] theorem State.modWork_fwVersion (s : State) (f : Work → Work) : (s.modWork f).fwVersion = s.fwVersion := rfl
@[simp] theorem State.modWork_fwDigest (s : State) (f : Work → Work) : (s.modWork f).fwDigest = s.fwDigest := rfl
@[simp] theorem State.modWork_report (s : State) (f : Work → Work) : (s.modWork f).report = s.report := rfl
@[simp] theorem State.modWork_handleNo (s : State) (f : Work → Work) : (s.modWork f).handleNo = s.handleNo := rfl
@[simp] theorem State.modWork_arrayQuiet (s : State) (f : Work → Work) : (s.modWork f).arrayQuiet = s.arrayQuiet := rfl
@[simp] theorem State.modWork_cycle (s : State) (f : Work → Work) : (s.modWork f).cycle = s.cycle := rfl
@[simp] theorem State.modWork_fills (s : State) (f : Work → Work) : (s.modWork f).fills = s.fills := rfl
@[simp] theorem State.modWork_due (s : State) (f : Work → Work) : (s.modWork f).due = s.due := rfl

/-! ### setReg -/

@[simp] theorem State.setReg_mem (s : State) (e : Eng) (r : BitVec 5) (v : Word) : (s.setReg e r v).mem = s.mem := rfl
@[simp] theorem State.setReg_cur (s : State) (e : Eng) (r : BitVec 5) (v : Word) : (s.setReg e r v).cur = s.cur := rfl
@[simp] theorem State.setReg_queues (s : State) (e : Eng) (r : BitVec 5) (v : Word) : (s.setReg e r v).queues = s.queues := rfl
@[simp] theorem State.setReg_nests (s : State) (e : Eng) (r : BitVec 5) (v : Word) : (s.setReg e r v).nests = s.nests := rfl
@[simp] theorem State.setReg_parts (s : State) (e : Eng) (r : BitVec 5) (v : Word) : (s.setReg e r v).parts = s.parts := rfl
@[simp] theorem State.setReg_groups (s : State) (e : Eng) (r : BitVec 5) (v : Word) : (s.setReg e r v).groups = s.groups := rfl
@[simp] theorem State.setReg_dies (s : State) (e : Eng) (r : BitVec 5) (v : Word) : (s.setReg e r v).dies = s.dies := rfl
@[simp] theorem State.setReg_ladles (s : State) (e : Eng) (r : BitVec 5) (v : Word) : (s.setReg e r v).ladles = s.ladles := rfl
@[simp] theorem State.setReg_flows (s : State) (e : Eng) (r : BitVec 5) (v : Word) : (s.setReg e r v).flows = s.flows := rfl
@[simp] theorem State.setReg_flowSeq (s : State) (e : Eng) (r : BitVec 5) (v : Word) : (s.setReg e r v).flowSeq = s.flowSeq := rfl
@[simp] theorem State.setReg_sems (s : State) (e : Eng) (r : BitVec 5) (v : Word) : (s.setReg e r v).sems = s.sems := rfl
@[simp] theorem State.setReg_off (s : State) (e : Eng) (r : BitVec 5) (v : Word) : (s.setReg e r v).off = s.off := rfl
@[simp] theorem State.setReg_cvs (s : State) (e : Eng) (r : BitVec 5) (v : Word) : (s.setReg e r v).cvs = s.cvs := rfl
@[simp] theorem State.setReg_conds (s : State) (e : Eng) (r : BitVec 5) (v : Word) : (s.setReg e r v).conds = s.conds := rfl
@[simp] theorem State.setReg_mboxes (s : State) (e : Eng) (r : BitVec 5) (v : Word) : (s.setReg e r v).mboxes = s.mboxes := rfl
@[simp] theorem State.setReg_links (s : State) (e : Eng) (r : BitVec 5) (v : Word) : (s.setReg e r v).links = s.links := rfl
@[simp] theorem State.setReg_spans (s : State) (e : Eng) (r : BitVec 5) (v : Word) : (s.setReg e r v).spans = s.spans := rfl
@[simp] theorem State.setReg_lost (s : State) (e : Eng) (r : BitVec 5) (v : Word) : (s.setReg e r v).lost = s.lost := rfl
@[simp] theorem State.setReg_noRoute (s : State) (e : Eng) (r : BitVec 5) (v : Word) : (s.setReg e r v).noRoute = s.noRoute := rfl
@[simp] theorem State.setReg_invals (s : State) (e : Eng) (r : BitVec 5) (v : Word) : (s.setReg e r v).invals = s.invals := rfl
@[simp] theorem State.setReg_stalled (s : State) (e : Eng) (r : BitVec 5) (v : Word) : (s.setReg e r v).stalled = s.stalled := rfl
@[simp] theorem State.setReg_kvOpen (s : State) (e : Eng) (r : BitVec 5) (v : Word) : (s.setReg e r v).kvOpen = s.kvOpen := rfl
@[simp] theorem State.setReg_poison (s : State) (e : Eng) (r : BitVec 5) (v : Word) : (s.setReg e r v).poison = s.poison := rfl
@[simp] theorem State.setReg_msix (s : State) (e : Eng) (r : BitVec 5) (v : Word) : (s.setReg e r v).msix = s.msix := rfl
@[simp] theorem State.setReg_pwrcap (s : State) (e : Eng) (r : BitVec 5) (v : Word) : (s.setReg e r v).pwrcap = s.pwrcap := rfl
@[simp] theorem State.setReg_stage (s : State) (e : Eng) (r : BitVec 5) (v : Word) : (s.setReg e r v).stage = s.stage := rfl
@[simp] theorem State.setReg_fwerr (s : State) (e : Eng) (r : BitVec 5) (v : Word) : (s.setReg e r v).fwerr = s.fwerr := rfl
@[simp] theorem State.setReg_thermtrip (s : State) (e : Eng) (r : BitVec 5) (v : Word) : (s.setReg e r v).thermtrip = s.thermtrip := rfl
@[simp] theorem State.setReg_power (s : State) (e : Eng) (r : BitVec 5) (v : Word) : (s.setReg e r v).power = s.power := rfl
@[simp] theorem State.setReg_secbox (s : State) (e : Eng) (r : BitVec 5) (v : Word) : (s.setReg e r v).secbox = s.secbox := rfl
@[simp] theorem State.setReg_attesting (s : State) (e : Eng) (r : BitVec 5) (v : Word) : (s.setReg e r v).attesting = s.attesting := rfl
@[simp] theorem State.setReg_hostData (s : State) (e : Eng) (r : BitVec 5) (v : Word) : (s.setReg e r v).hostData = s.hostData := rfl
@[simp] theorem State.setReg_peerData (s : State) (e : Eng) (r : BitVec 5) (v : Word) : (s.setReg e r v).peerData = s.peerData := rfl
@[simp] theorem State.setReg_now (s : State) (e : Eng) (r : BitVec 5) (v : Word) : (s.setReg e r v).now = s.now := rfl
@[simp] theorem State.setReg_creation (s : State) (e : Eng) (r : BitVec 5) (v : Word) : (s.setReg e r v).creation = s.creation := rfl
@[simp] theorem State.setReg_leaveNo (s : State) (e : Eng) (r : BitVec 5) (v : Word) : (s.setReg e r v).leaveNo = s.leaveNo := rfl
@[simp] theorem State.setReg_workNo (s : State) (e : Eng) (r : BitVec 5) (v : Word) : (s.setReg e r v).workNo = s.workNo := rfl
@[simp] theorem State.setReg_nestNo (s : State) (e : Eng) (r : BitVec 5) (v : Word) : (s.setReg e r v).nestNo = s.nestNo := rfl
@[simp] theorem State.setReg_invNo (s : State) (e : Eng) (r : BitVec 5) (v : Word) : (s.setReg e r v).invNo = s.invNo := rfl
@[simp] theorem State.setReg_freeNo (s : State) (e : Eng) (r : BitVec 5) (v : Word) : (s.setReg e r v).freeNo = s.freeNo := rfl
@[simp] theorem State.setReg_turnNo (s : State) (e : Eng) (r : BitVec 5) (v : Word) : (s.setReg e r v).turnNo = s.turnNo := rfl
@[simp] theorem State.setReg_agenda (s : State) (e : Eng) (r : BitVec 5) (v : Word) : (s.setReg e r v).agenda = s.agenda := rfl
@[simp] theorem State.setReg_budget (s : State) (e : Eng) (r : BitVec 5) (v : Word) : (s.setReg e r v).budget = s.budget := rfl
@[simp] theorem State.setReg_quiet (s : State) (e : Eng) (r : BitVec 5) (v : Word) : (s.setReg e r v).quiet = s.quiet := rfl
@[simp] theorem State.setReg_msixTable (s : State) (e : Eng) (r : BitVec 5) (v : Word) : (s.setReg e r v).msixTable = s.msixTable := rfl
@[simp] theorem State.setReg_measured (s : State) (e : Eng) (r : BitVec 5) (v : Word) : (s.setReg e r v).measured = s.measured := rfl
@[simp] theorem State.setReg_fuses (s : State) (e : Eng) (r : BitVec 5) (v : Word) : (s.setReg e r v).fuses = s.fuses := rfl
@[simp] theorem State.setReg_fwVersion (s : State) (e : Eng) (r : BitVec 5) (v : Word) : (s.setReg e r v).fwVersion = s.fwVersion := rfl
@[simp] theorem State.setReg_fwDigest (s : State) (e : Eng) (r : BitVec 5) (v : Word) : (s.setReg e r v).fwDigest = s.fwDigest := rfl
@[simp] theorem State.setReg_report (s : State) (e : Eng) (r : BitVec 5) (v : Word) : (s.setReg e r v).report = s.report := rfl
@[simp] theorem State.setReg_handleNo (s : State) (e : Eng) (r : BitVec 5) (v : Word) : (s.setReg e r v).handleNo = s.handleNo := rfl
@[simp] theorem State.setReg_arrayQuiet (s : State) (e : Eng) (r : BitVec 5) (v : Word) : (s.setReg e r v).arrayQuiet = s.arrayQuiet := rfl
@[simp] theorem State.setReg_cycle (s : State) (e : Eng) (r : BitVec 5) (v : Word) : (s.setReg e r v).cycle = s.cycle := rfl
@[simp] theorem State.setReg_fills (s : State) (e : Eng) (r : BitVec 5) (v : Word) : (s.setReg e r v).fills = s.fills := rfl
@[simp] theorem State.setReg_due (s : State) (e : Eng) (r : BitVec 5) (v : Word) : (s.setReg e r v).due = s.due := rfl

/-! ### countOn -/

@[simp] theorem State.countOn_mem (s : State) (k ev : Nat) (e : Option Eng) (n : Nat) : (s.countOn k ev e n).mem = s.mem := rfl
@[simp] theorem State.countOn_cur (s : State) (k ev : Nat) (e : Option Eng) (n : Nat) : (s.countOn k ev e n).cur = s.cur := rfl
@[simp] theorem State.countOn_queues (s : State) (k ev : Nat) (e : Option Eng) (n : Nat) : (s.countOn k ev e n).queues = s.queues := rfl
@[simp] theorem State.countOn_nests (s : State) (k ev : Nat) (e : Option Eng) (n : Nat) : (s.countOn k ev e n).nests = s.nests := rfl
@[simp] theorem State.countOn_parts (s : State) (k ev : Nat) (e : Option Eng) (n : Nat) : (s.countOn k ev e n).parts = s.parts := rfl
@[simp] theorem State.countOn_groups (s : State) (k ev : Nat) (e : Option Eng) (n : Nat) : (s.countOn k ev e n).groups = s.groups := rfl
@[simp] theorem State.countOn_dies (s : State) (k ev : Nat) (e : Option Eng) (n : Nat) : (s.countOn k ev e n).dies = s.dies := rfl
@[simp] theorem State.countOn_ladles (s : State) (k ev : Nat) (e : Option Eng) (n : Nat) : (s.countOn k ev e n).ladles = s.ladles := rfl
@[simp] theorem State.countOn_flows (s : State) (k ev : Nat) (e : Option Eng) (n : Nat) : (s.countOn k ev e n).flows = s.flows := rfl
@[simp] theorem State.countOn_flowSeq (s : State) (k ev : Nat) (e : Option Eng) (n : Nat) : (s.countOn k ev e n).flowSeq = s.flowSeq := rfl
@[simp] theorem State.countOn_sems (s : State) (k ev : Nat) (e : Option Eng) (n : Nat) : (s.countOn k ev e n).sems = s.sems := rfl
@[simp] theorem State.countOn_off (s : State) (k ev : Nat) (e : Option Eng) (n : Nat) : (s.countOn k ev e n).off = s.off := rfl
@[simp] theorem State.countOn_cvs (s : State) (k ev : Nat) (e : Option Eng) (n : Nat) : (s.countOn k ev e n).cvs = s.cvs := rfl
@[simp] theorem State.countOn_conds (s : State) (k ev : Nat) (e : Option Eng) (n : Nat) : (s.countOn k ev e n).conds = s.conds := rfl
@[simp] theorem State.countOn_mboxes (s : State) (k ev : Nat) (e : Option Eng) (n : Nat) : (s.countOn k ev e n).mboxes = s.mboxes := rfl
@[simp] theorem State.countOn_links (s : State) (k ev : Nat) (e : Option Eng) (n : Nat) : (s.countOn k ev e n).links = s.links := rfl
@[simp] theorem State.countOn_spans (s : State) (k ev : Nat) (e : Option Eng) (n : Nat) : (s.countOn k ev e n).spans = s.spans := rfl
@[simp] theorem State.countOn_lost (s : State) (k ev : Nat) (e : Option Eng) (n : Nat) : (s.countOn k ev e n).lost = s.lost := rfl
@[simp] theorem State.countOn_noRoute (s : State) (k ev : Nat) (e : Option Eng) (n : Nat) : (s.countOn k ev e n).noRoute = s.noRoute := rfl
@[simp] theorem State.countOn_invals (s : State) (k ev : Nat) (e : Option Eng) (n : Nat) : (s.countOn k ev e n).invals = s.invals := rfl
@[simp] theorem State.countOn_stalled (s : State) (k ev : Nat) (e : Option Eng) (n : Nat) : (s.countOn k ev e n).stalled = s.stalled := rfl
@[simp] theorem State.countOn_kvOpen (s : State) (k ev : Nat) (e : Option Eng) (n : Nat) : (s.countOn k ev e n).kvOpen = s.kvOpen := rfl
@[simp] theorem State.countOn_poison (s : State) (k ev : Nat) (e : Option Eng) (n : Nat) : (s.countOn k ev e n).poison = s.poison := rfl
@[simp] theorem State.countOn_msix (s : State) (k ev : Nat) (e : Option Eng) (n : Nat) : (s.countOn k ev e n).msix = s.msix := rfl
@[simp] theorem State.countOn_pwrcap (s : State) (k ev : Nat) (e : Option Eng) (n : Nat) : (s.countOn k ev e n).pwrcap = s.pwrcap := rfl
@[simp] theorem State.countOn_stage (s : State) (k ev : Nat) (e : Option Eng) (n : Nat) : (s.countOn k ev e n).stage = s.stage := rfl
@[simp] theorem State.countOn_fwerr (s : State) (k ev : Nat) (e : Option Eng) (n : Nat) : (s.countOn k ev e n).fwerr = s.fwerr := rfl
@[simp] theorem State.countOn_thermtrip (s : State) (k ev : Nat) (e : Option Eng) (n : Nat) : (s.countOn k ev e n).thermtrip = s.thermtrip := rfl
@[simp] theorem State.countOn_power (s : State) (k ev : Nat) (e : Option Eng) (n : Nat) : (s.countOn k ev e n).power = s.power := rfl
@[simp] theorem State.countOn_secbox (s : State) (k ev : Nat) (e : Option Eng) (n : Nat) : (s.countOn k ev e n).secbox = s.secbox := rfl
@[simp] theorem State.countOn_attesting (s : State) (k ev : Nat) (e : Option Eng) (n : Nat) : (s.countOn k ev e n).attesting = s.attesting := rfl
@[simp] theorem State.countOn_hostData (s : State) (k ev : Nat) (e : Option Eng) (n : Nat) : (s.countOn k ev e n).hostData = s.hostData := rfl
@[simp] theorem State.countOn_peerData (s : State) (k ev : Nat) (e : Option Eng) (n : Nat) : (s.countOn k ev e n).peerData = s.peerData := rfl
@[simp] theorem State.countOn_now (s : State) (k ev : Nat) (e : Option Eng) (n : Nat) : (s.countOn k ev e n).now = s.now := rfl
@[simp] theorem State.countOn_creation (s : State) (k ev : Nat) (e : Option Eng) (n : Nat) : (s.countOn k ev e n).creation = s.creation := rfl
@[simp] theorem State.countOn_leaveNo (s : State) (k ev : Nat) (e : Option Eng) (n : Nat) : (s.countOn k ev e n).leaveNo = s.leaveNo := rfl
@[simp] theorem State.countOn_workNo (s : State) (k ev : Nat) (e : Option Eng) (n : Nat) : (s.countOn k ev e n).workNo = s.workNo := rfl
@[simp] theorem State.countOn_nestNo (s : State) (k ev : Nat) (e : Option Eng) (n : Nat) : (s.countOn k ev e n).nestNo = s.nestNo := rfl
@[simp] theorem State.countOn_invNo (s : State) (k ev : Nat) (e : Option Eng) (n : Nat) : (s.countOn k ev e n).invNo = s.invNo := rfl
@[simp] theorem State.countOn_freeNo (s : State) (k ev : Nat) (e : Option Eng) (n : Nat) : (s.countOn k ev e n).freeNo = s.freeNo := rfl
@[simp] theorem State.countOn_turnNo (s : State) (k ev : Nat) (e : Option Eng) (n : Nat) : (s.countOn k ev e n).turnNo = s.turnNo := rfl
@[simp] theorem State.countOn_agenda (s : State) (k ev : Nat) (e : Option Eng) (n : Nat) : (s.countOn k ev e n).agenda = s.agenda := rfl
@[simp] theorem State.countOn_budget (s : State) (k ev : Nat) (e : Option Eng) (n : Nat) : (s.countOn k ev e n).budget = s.budget := rfl
@[simp] theorem State.countOn_quiet (s : State) (k ev : Nat) (e : Option Eng) (n : Nat) : (s.countOn k ev e n).quiet = s.quiet := rfl
@[simp] theorem State.countOn_msixTable (s : State) (k ev : Nat) (e : Option Eng) (n : Nat) : (s.countOn k ev e n).msixTable = s.msixTable := rfl
@[simp] theorem State.countOn_measured (s : State) (k ev : Nat) (e : Option Eng) (n : Nat) : (s.countOn k ev e n).measured = s.measured := rfl
@[simp] theorem State.countOn_fuses (s : State) (k ev : Nat) (e : Option Eng) (n : Nat) : (s.countOn k ev e n).fuses = s.fuses := rfl
@[simp] theorem State.countOn_fwVersion (s : State) (k ev : Nat) (e : Option Eng) (n : Nat) : (s.countOn k ev e n).fwVersion = s.fwVersion := rfl
@[simp] theorem State.countOn_fwDigest (s : State) (k ev : Nat) (e : Option Eng) (n : Nat) : (s.countOn k ev e n).fwDigest = s.fwDigest := rfl
@[simp] theorem State.countOn_report (s : State) (k ev : Nat) (e : Option Eng) (n : Nat) : (s.countOn k ev e n).report = s.report := rfl
@[simp] theorem State.countOn_handleNo (s : State) (k ev : Nat) (e : Option Eng) (n : Nat) : (s.countOn k ev e n).handleNo = s.handleNo := rfl
@[simp] theorem State.countOn_arrayQuiet (s : State) (k ev : Nat) (e : Option Eng) (n : Nat) : (s.countOn k ev e n).arrayQuiet = s.arrayQuiet := rfl
@[simp] theorem State.countOn_cycle (s : State) (k ev : Nat) (e : Option Eng) (n : Nat) : (s.countOn k ev e n).cycle = s.cycle := rfl
@[simp] theorem State.countOn_fills (s : State) (k ev : Nat) (e : Option Eng) (n : Nat) : (s.countOn k ev e n).fills = s.fills := rfl
@[simp] theorem State.countOn_due (s : State) (k ev : Nat) (e : Option Eng) (n : Nat) : (s.countOn k ev e n).due = s.due := rfl

/-! ### checkpoint -/

@[simp] theorem State.checkpoint_mem (s : State) (k : Nat) : (s.checkpoint k).mem = s.mem := rfl
@[simp] theorem State.checkpoint_cur (s : State) (k : Nat) : (s.checkpoint k).cur = s.cur := rfl
@[simp] theorem State.checkpoint_queues (s : State) (k : Nat) : (s.checkpoint k).queues = s.queues := rfl
@[simp] theorem State.checkpoint_nests (s : State) (k : Nat) : (s.checkpoint k).nests = s.nests := rfl
@[simp] theorem State.checkpoint_parts (s : State) (k : Nat) : (s.checkpoint k).parts = s.parts := rfl
@[simp] theorem State.checkpoint_groups (s : State) (k : Nat) : (s.checkpoint k).groups = s.groups := rfl
@[simp] theorem State.checkpoint_dies (s : State) (k : Nat) : (s.checkpoint k).dies = s.dies := rfl
@[simp] theorem State.checkpoint_ladles (s : State) (k : Nat) : (s.checkpoint k).ladles = s.ladles := rfl
@[simp] theorem State.checkpoint_flows (s : State) (k : Nat) : (s.checkpoint k).flows = s.flows := rfl
@[simp] theorem State.checkpoint_flowSeq (s : State) (k : Nat) : (s.checkpoint k).flowSeq = s.flowSeq := rfl
@[simp] theorem State.checkpoint_sems (s : State) (k : Nat) : (s.checkpoint k).sems = s.sems := rfl
@[simp] theorem State.checkpoint_off (s : State) (k : Nat) : (s.checkpoint k).off = s.off := rfl
@[simp] theorem State.checkpoint_cvs (s : State) (k : Nat) : (s.checkpoint k).cvs = s.cvs := rfl
@[simp] theorem State.checkpoint_conds (s : State) (k : Nat) : (s.checkpoint k).conds = s.conds := rfl
@[simp] theorem State.checkpoint_mboxes (s : State) (k : Nat) : (s.checkpoint k).mboxes = s.mboxes := rfl
@[simp] theorem State.checkpoint_links (s : State) (k : Nat) : (s.checkpoint k).links = s.links := rfl
@[simp] theorem State.checkpoint_spans (s : State) (k : Nat) : (s.checkpoint k).spans = s.spans := rfl
@[simp] theorem State.checkpoint_lost (s : State) (k : Nat) : (s.checkpoint k).lost = s.lost := rfl
@[simp] theorem State.checkpoint_noRoute (s : State) (k : Nat) : (s.checkpoint k).noRoute = s.noRoute := rfl
@[simp] theorem State.checkpoint_invals (s : State) (k : Nat) : (s.checkpoint k).invals = s.invals := rfl
@[simp] theorem State.checkpoint_stalled (s : State) (k : Nat) : (s.checkpoint k).stalled = s.stalled := rfl
@[simp] theorem State.checkpoint_kvOpen (s : State) (k : Nat) : (s.checkpoint k).kvOpen = s.kvOpen := rfl
@[simp] theorem State.checkpoint_poison (s : State) (k : Nat) : (s.checkpoint k).poison = s.poison := rfl
@[simp] theorem State.checkpoint_msix (s : State) (k : Nat) : (s.checkpoint k).msix = s.msix := rfl
@[simp] theorem State.checkpoint_pwrcap (s : State) (k : Nat) : (s.checkpoint k).pwrcap = s.pwrcap := rfl
@[simp] theorem State.checkpoint_stage (s : State) (k : Nat) : (s.checkpoint k).stage = s.stage := rfl
@[simp] theorem State.checkpoint_fwerr (s : State) (k : Nat) : (s.checkpoint k).fwerr = s.fwerr := rfl
@[simp] theorem State.checkpoint_thermtrip (s : State) (k : Nat) : (s.checkpoint k).thermtrip = s.thermtrip := rfl
@[simp] theorem State.checkpoint_power (s : State) (k : Nat) : (s.checkpoint k).power = s.power := rfl
@[simp] theorem State.checkpoint_secbox (s : State) (k : Nat) : (s.checkpoint k).secbox = s.secbox := rfl
@[simp] theorem State.checkpoint_attesting (s : State) (k : Nat) : (s.checkpoint k).attesting = s.attesting := rfl
@[simp] theorem State.checkpoint_hostData (s : State) (k : Nat) : (s.checkpoint k).hostData = s.hostData := rfl
@[simp] theorem State.checkpoint_peerData (s : State) (k : Nat) : (s.checkpoint k).peerData = s.peerData := rfl
@[simp] theorem State.checkpoint_now (s : State) (k : Nat) : (s.checkpoint k).now = s.now := rfl
@[simp] theorem State.checkpoint_creation (s : State) (k : Nat) : (s.checkpoint k).creation = s.creation := rfl
@[simp] theorem State.checkpoint_leaveNo (s : State) (k : Nat) : (s.checkpoint k).leaveNo = s.leaveNo := rfl
@[simp] theorem State.checkpoint_workNo (s : State) (k : Nat) : (s.checkpoint k).workNo = s.workNo := rfl
@[simp] theorem State.checkpoint_nestNo (s : State) (k : Nat) : (s.checkpoint k).nestNo = s.nestNo := rfl
@[simp] theorem State.checkpoint_invNo (s : State) (k : Nat) : (s.checkpoint k).invNo = s.invNo := rfl
@[simp] theorem State.checkpoint_freeNo (s : State) (k : Nat) : (s.checkpoint k).freeNo = s.freeNo := rfl
@[simp] theorem State.checkpoint_turnNo (s : State) (k : Nat) : (s.checkpoint k).turnNo = s.turnNo := rfl
@[simp] theorem State.checkpoint_agenda (s : State) (k : Nat) : (s.checkpoint k).agenda = s.agenda := rfl
@[simp] theorem State.checkpoint_budget (s : State) (k : Nat) : (s.checkpoint k).budget = s.budget := rfl
@[simp] theorem State.checkpoint_quiet (s : State) (k : Nat) : (s.checkpoint k).quiet = s.quiet := rfl
@[simp] theorem State.checkpoint_msixTable (s : State) (k : Nat) : (s.checkpoint k).msixTable = s.msixTable := rfl
@[simp] theorem State.checkpoint_measured (s : State) (k : Nat) : (s.checkpoint k).measured = s.measured := rfl
@[simp] theorem State.checkpoint_fuses (s : State) (k : Nat) : (s.checkpoint k).fuses = s.fuses := rfl
@[simp] theorem State.checkpoint_fwVersion (s : State) (k : Nat) : (s.checkpoint k).fwVersion = s.fwVersion := rfl
@[simp] theorem State.checkpoint_fwDigest (s : State) (k : Nat) : (s.checkpoint k).fwDigest = s.fwDigest := rfl
@[simp] theorem State.checkpoint_report (s : State) (k : Nat) : (s.checkpoint k).report = s.report := rfl
@[simp] theorem State.checkpoint_handleNo (s : State) (k : Nat) : (s.checkpoint k).handleNo = s.handleNo := rfl
@[simp] theorem State.checkpoint_arrayQuiet (s : State) (k : Nat) : (s.checkpoint k).arrayQuiet = s.arrayQuiet := rfl
@[simp] theorem State.checkpoint_cycle (s : State) (k : Nat) : (s.checkpoint k).cycle = s.cycle := rfl
@[simp] theorem State.checkpoint_fills (s : State) (k : Nat) : (s.checkpoint k).fills = s.fills := rfl
@[simp] theorem State.checkpoint_due (s : State) (k : Nat) : (s.checkpoint k).due = s.due := rfl

/-! ### refresh -/

@[simp] theorem State.refresh_mem (s : State) : (s.refresh).mem = s.mem := rfl
@[simp] theorem State.refresh_cur (s : State) : (s.refresh).cur = s.cur := rfl
@[simp] theorem State.refresh_queues (s : State) : (s.refresh).queues = s.queues := rfl
@[simp] theorem State.refresh_nests (s : State) : (s.refresh).nests = s.nests := rfl
@[simp] theorem State.refresh_parts (s : State) : (s.refresh).parts = s.parts := rfl
@[simp] theorem State.refresh_groups (s : State) : (s.refresh).groups = s.groups := rfl
@[simp] theorem State.refresh_dies (s : State) : (s.refresh).dies = s.dies := rfl
@[simp] theorem State.refresh_ladles (s : State) : (s.refresh).ladles = s.ladles := rfl
@[simp] theorem State.refresh_flows (s : State) : (s.refresh).flows = s.flows := rfl
@[simp] theorem State.refresh_flowSeq (s : State) : (s.refresh).flowSeq = s.flowSeq := rfl
@[simp] theorem State.refresh_sems (s : State) : (s.refresh).sems = s.sems := rfl
@[simp] theorem State.refresh_off (s : State) : (s.refresh).off = s.off := rfl
@[simp] theorem State.refresh_cvs (s : State) : (s.refresh).cvs = s.cvs := rfl
@[simp] theorem State.refresh_conds (s : State) : (s.refresh).conds = s.conds := rfl
@[simp] theorem State.refresh_mboxes (s : State) : (s.refresh).mboxes = s.mboxes := rfl
@[simp] theorem State.refresh_links (s : State) : (s.refresh).links = s.links := rfl
@[simp] theorem State.refresh_spans (s : State) : (s.refresh).spans = s.spans := rfl
@[simp] theorem State.refresh_lost (s : State) : (s.refresh).lost = s.lost := rfl
@[simp] theorem State.refresh_noRoute (s : State) : (s.refresh).noRoute = s.noRoute := rfl
@[simp] theorem State.refresh_invals (s : State) : (s.refresh).invals = s.invals := rfl
@[simp] theorem State.refresh_stalled (s : State) : (s.refresh).stalled = s.stalled := rfl
@[simp] theorem State.refresh_kvOpen (s : State) : (s.refresh).kvOpen = s.kvOpen := rfl
@[simp] theorem State.refresh_poison (s : State) : (s.refresh).poison = s.poison := rfl
@[simp] theorem State.refresh_msix (s : State) : (s.refresh).msix = s.msix := rfl
@[simp] theorem State.refresh_pwrcap (s : State) : (s.refresh).pwrcap = s.pwrcap := rfl
@[simp] theorem State.refresh_stage (s : State) : (s.refresh).stage = s.stage := rfl
@[simp] theorem State.refresh_fwerr (s : State) : (s.refresh).fwerr = s.fwerr := rfl
@[simp] theorem State.refresh_thermtrip (s : State) : (s.refresh).thermtrip = s.thermtrip := rfl
@[simp] theorem State.refresh_power (s : State) : (s.refresh).power = s.power := rfl
@[simp] theorem State.refresh_secbox (s : State) : (s.refresh).secbox = s.secbox := rfl
@[simp] theorem State.refresh_attesting (s : State) : (s.refresh).attesting = s.attesting := rfl
@[simp] theorem State.refresh_hostData (s : State) : (s.refresh).hostData = s.hostData := rfl
@[simp] theorem State.refresh_peerData (s : State) : (s.refresh).peerData = s.peerData := rfl
@[simp] theorem State.refresh_now (s : State) : (s.refresh).now = s.now := rfl
@[simp] theorem State.refresh_creation (s : State) : (s.refresh).creation = s.creation := rfl
@[simp] theorem State.refresh_leaveNo (s : State) : (s.refresh).leaveNo = s.leaveNo := rfl
@[simp] theorem State.refresh_workNo (s : State) : (s.refresh).workNo = s.workNo := rfl
@[simp] theorem State.refresh_nestNo (s : State) : (s.refresh).nestNo = s.nestNo := rfl
@[simp] theorem State.refresh_invNo (s : State) : (s.refresh).invNo = s.invNo := rfl
@[simp] theorem State.refresh_freeNo (s : State) : (s.refresh).freeNo = s.freeNo := rfl
@[simp] theorem State.refresh_turnNo (s : State) : (s.refresh).turnNo = s.turnNo := rfl
@[simp] theorem State.refresh_agenda (s : State) : (s.refresh).agenda = s.agenda := rfl
@[simp] theorem State.refresh_budget (s : State) : (s.refresh).budget = s.budget := rfl
@[simp] theorem State.refresh_quiet (s : State) : (s.refresh).quiet = s.quiet := rfl
@[simp] theorem State.refresh_msixTable (s : State) : (s.refresh).msixTable = s.msixTable := rfl
@[simp] theorem State.refresh_measured (s : State) : (s.refresh).measured = s.measured := rfl
@[simp] theorem State.refresh_fuses (s : State) : (s.refresh).fuses = s.fuses := rfl
@[simp] theorem State.refresh_fwVersion (s : State) : (s.refresh).fwVersion = s.fwVersion := rfl
@[simp] theorem State.refresh_fwDigest (s : State) : (s.refresh).fwDigest = s.fwDigest := rfl
@[simp] theorem State.refresh_report (s : State) : (s.refresh).report = s.report := rfl
@[simp] theorem State.refresh_handleNo (s : State) : (s.refresh).handleNo = s.handleNo := rfl
@[simp] theorem State.refresh_arrayQuiet (s : State) : (s.refresh).arrayQuiet = s.arrayQuiet := rfl
@[simp] theorem State.refresh_cores (s : State) : (s.refresh).cores = s.cores := rfl
@[simp] theorem State.refresh_due (s : State) : (s.refresh).due = s.cur :: s.due.filter (· ≠ s.cur) := rfl
@[simp] theorem State.refresh_cycle (s : State) : (s.refresh).cycle = s.cycle := rfl
@[simp] theorem State.refresh_fills (s : State) : (s.refresh).fills = s.fills := rfl

/-! ### take -/

@[simp] theorem State.take_mem (s : State) (e : Eng) (p : BitVec 4) (n : Needs) : (s.take e p n).mem = s.mem := rfl
@[simp] theorem State.take_cur (s : State) (e : Eng) (p : BitVec 4) (n : Needs) : (s.take e p n).cur = s.cur := rfl
@[simp] theorem State.take_queues (s : State) (e : Eng) (p : BitVec 4) (n : Needs) : (s.take e p n).queues = s.queues := rfl
@[simp] theorem State.take_nests (s : State) (e : Eng) (p : BitVec 4) (n : Needs) : (s.take e p n).nests = s.nests := rfl
@[simp] theorem State.take_parts (s : State) (e : Eng) (p : BitVec 4) (n : Needs) : (s.take e p n).parts = s.parts := rfl
@[simp] theorem State.take_groups (s : State) (e : Eng) (p : BitVec 4) (n : Needs) : (s.take e p n).groups = s.groups := rfl
@[simp] theorem State.take_dies (s : State) (e : Eng) (p : BitVec 4) (n : Needs) : (s.take e p n).dies = s.dies := rfl
@[simp] theorem State.take_ladles (s : State) (e : Eng) (p : BitVec 4) (n : Needs) : (s.take e p n).ladles = s.ladles := rfl
@[simp] theorem State.take_flows (s : State) (e : Eng) (p : BitVec 4) (n : Needs) : (s.take e p n).flows = s.flows := rfl
@[simp] theorem State.take_flowSeq (s : State) (e : Eng) (p : BitVec 4) (n : Needs) : (s.take e p n).flowSeq = s.flowSeq := rfl
@[simp] theorem State.take_sems (s : State) (e : Eng) (p : BitVec 4) (n : Needs) : (s.take e p n).sems = s.sems := rfl
@[simp] theorem State.take_off (s : State) (e : Eng) (p : BitVec 4) (n : Needs) : (s.take e p n).off = s.off := rfl
@[simp] theorem State.take_cvs (s : State) (e : Eng) (p : BitVec 4) (n : Needs) : (s.take e p n).cvs = s.cvs := rfl
@[simp] theorem State.take_conds (s : State) (e : Eng) (p : BitVec 4) (n : Needs) : (s.take e p n).conds = s.conds := rfl
@[simp] theorem State.take_mboxes (s : State) (e : Eng) (p : BitVec 4) (n : Needs) : (s.take e p n).mboxes = s.mboxes := rfl
@[simp] theorem State.take_links (s : State) (e : Eng) (p : BitVec 4) (n : Needs) : (s.take e p n).links = s.links := rfl
@[simp] theorem State.take_spans (s : State) (e : Eng) (p : BitVec 4) (n : Needs) : (s.take e p n).spans = s.spans := rfl
@[simp] theorem State.take_lost (s : State) (e : Eng) (p : BitVec 4) (n : Needs) : (s.take e p n).lost = s.lost := rfl
@[simp] theorem State.take_noRoute (s : State) (e : Eng) (p : BitVec 4) (n : Needs) : (s.take e p n).noRoute = s.noRoute := rfl
@[simp] theorem State.take_invals (s : State) (e : Eng) (p : BitVec 4) (n : Needs) : (s.take e p n).invals = s.invals := rfl
@[simp] theorem State.take_stalled (s : State) (e : Eng) (p : BitVec 4) (n : Needs) : (s.take e p n).stalled = s.stalled := rfl
@[simp] theorem State.take_kvOpen (s : State) (e : Eng) (p : BitVec 4) (n : Needs) : (s.take e p n).kvOpen = s.kvOpen := rfl
@[simp] theorem State.take_poison (s : State) (e : Eng) (p : BitVec 4) (n : Needs) : (s.take e p n).poison = s.poison := rfl
@[simp] theorem State.take_msix (s : State) (e : Eng) (p : BitVec 4) (n : Needs) : (s.take e p n).msix = s.msix := rfl
@[simp] theorem State.take_pwrcap (s : State) (e : Eng) (p : BitVec 4) (n : Needs) : (s.take e p n).pwrcap = s.pwrcap := rfl
@[simp] theorem State.take_stage (s : State) (e : Eng) (p : BitVec 4) (n : Needs) : (s.take e p n).stage = s.stage := rfl
@[simp] theorem State.take_fwerr (s : State) (e : Eng) (p : BitVec 4) (n : Needs) : (s.take e p n).fwerr = s.fwerr := rfl
@[simp] theorem State.take_thermtrip (s : State) (e : Eng) (p : BitVec 4) (n : Needs) : (s.take e p n).thermtrip = s.thermtrip := rfl
@[simp] theorem State.take_power (s : State) (e : Eng) (p : BitVec 4) (n : Needs) : (s.take e p n).power = s.power := rfl
@[simp] theorem State.take_secbox (s : State) (e : Eng) (p : BitVec 4) (n : Needs) : (s.take e p n).secbox = s.secbox := rfl
@[simp] theorem State.take_attesting (s : State) (e : Eng) (p : BitVec 4) (n : Needs) : (s.take e p n).attesting = s.attesting := rfl
@[simp] theorem State.take_hostData (s : State) (e : Eng) (p : BitVec 4) (n : Needs) : (s.take e p n).hostData = s.hostData := rfl
@[simp] theorem State.take_peerData (s : State) (e : Eng) (p : BitVec 4) (n : Needs) : (s.take e p n).peerData = s.peerData := rfl
@[simp] theorem State.take_now (s : State) (e : Eng) (p : BitVec 4) (n : Needs) : (s.take e p n).now = s.now := rfl
@[simp] theorem State.take_creation (s : State) (e : Eng) (p : BitVec 4) (n : Needs) : (s.take e p n).creation = s.creation := rfl
@[simp] theorem State.take_leaveNo (s : State) (e : Eng) (p : BitVec 4) (n : Needs) : (s.take e p n).leaveNo = s.leaveNo := rfl
@[simp] theorem State.take_workNo (s : State) (e : Eng) (p : BitVec 4) (n : Needs) : (s.take e p n).workNo = s.workNo := rfl
@[simp] theorem State.take_nestNo (s : State) (e : Eng) (p : BitVec 4) (n : Needs) : (s.take e p n).nestNo = s.nestNo := rfl
@[simp] theorem State.take_invNo (s : State) (e : Eng) (p : BitVec 4) (n : Needs) : (s.take e p n).invNo = s.invNo := rfl
@[simp] theorem State.take_freeNo (s : State) (e : Eng) (p : BitVec 4) (n : Needs) : (s.take e p n).freeNo = s.freeNo := rfl
@[simp] theorem State.take_turnNo (s : State) (e : Eng) (p : BitVec 4) (n : Needs) : (s.take e p n).turnNo = s.turnNo := rfl
@[simp] theorem State.take_agenda (s : State) (e : Eng) (p : BitVec 4) (n : Needs) : (s.take e p n).agenda = s.agenda := rfl
@[simp] theorem State.take_budget (s : State) (e : Eng) (p : BitVec 4) (n : Needs) : (s.take e p n).budget = s.budget := rfl
@[simp] theorem State.take_quiet (s : State) (e : Eng) (p : BitVec 4) (n : Needs) : (s.take e p n).quiet = s.quiet := rfl
@[simp] theorem State.take_msixTable (s : State) (e : Eng) (p : BitVec 4) (n : Needs) : (s.take e p n).msixTable = s.msixTable := rfl
@[simp] theorem State.take_measured (s : State) (e : Eng) (p : BitVec 4) (n : Needs) : (s.take e p n).measured = s.measured := rfl
@[simp] theorem State.take_fuses (s : State) (e : Eng) (p : BitVec 4) (n : Needs) : (s.take e p n).fuses = s.fuses := rfl
@[simp] theorem State.take_fwVersion (s : State) (e : Eng) (p : BitVec 4) (n : Needs) : (s.take e p n).fwVersion = s.fwVersion := rfl
@[simp] theorem State.take_fwDigest (s : State) (e : Eng) (p : BitVec 4) (n : Needs) : (s.take e p n).fwDigest = s.fwDigest := rfl
@[simp] theorem State.take_report (s : State) (e : Eng) (p : BitVec 4) (n : Needs) : (s.take e p n).report = s.report := rfl
@[simp] theorem State.take_handleNo (s : State) (e : Eng) (p : BitVec 4) (n : Needs) : (s.take e p n).handleNo = s.handleNo := rfl
@[simp] theorem State.take_arrayQuiet (s : State) (e : Eng) (p : BitVec 4) (n : Needs) : (s.take e p n).arrayQuiet = s.arrayQuiet := rfl
@[simp] theorem State.take_cycle (s : State) (e : Eng) (p : BitVec 4) (n : Needs) : (s.take e p n).cycle = s.cycle := rfl
@[simp] theorem State.take_fills (s : State) (e : Eng) (p : BitVec 4) (n : Needs) : (s.take e p n).fills = s.fills := rfl
@[simp] theorem State.take_due (s : State) (e : Eng) (p : BitVec 4) (n : Needs) : (s.take e p n).due = s.due := rfl

/-! ### issued -/

@[simp] theorem State.issued_mem (s : State) (e : Eng) (p : BitVec 4) (n : Needs) (len : Nat) : (s.issued e p n len).mem = s.mem := rfl
@[simp] theorem State.issued_cur (s : State) (e : Eng) (p : BitVec 4) (n : Needs) (len : Nat) : (s.issued e p n len).cur = s.cur := rfl
@[simp] theorem State.issued_queues (s : State) (e : Eng) (p : BitVec 4) (n : Needs) (len : Nat) : (s.issued e p n len).queues = s.queues := rfl
@[simp] theorem State.issued_nests (s : State) (e : Eng) (p : BitVec 4) (n : Needs) (len : Nat) : (s.issued e p n len).nests = s.nests := rfl
@[simp] theorem State.issued_parts (s : State) (e : Eng) (p : BitVec 4) (n : Needs) (len : Nat) : (s.issued e p n len).parts = s.parts := rfl
@[simp] theorem State.issued_groups (s : State) (e : Eng) (p : BitVec 4) (n : Needs) (len : Nat) : (s.issued e p n len).groups = s.groups := rfl
@[simp] theorem State.issued_dies (s : State) (e : Eng) (p : BitVec 4) (n : Needs) (len : Nat) : (s.issued e p n len).dies = s.dies := rfl
@[simp] theorem State.issued_ladles (s : State) (e : Eng) (p : BitVec 4) (n : Needs) (len : Nat) : (s.issued e p n len).ladles = s.ladles := rfl
@[simp] theorem State.issued_flows (s : State) (e : Eng) (p : BitVec 4) (n : Needs) (len : Nat) : (s.issued e p n len).flows = s.flows := rfl
@[simp] theorem State.issued_flowSeq (s : State) (e : Eng) (p : BitVec 4) (n : Needs) (len : Nat) : (s.issued e p n len).flowSeq = s.flowSeq := rfl
@[simp] theorem State.issued_sems (s : State) (e : Eng) (p : BitVec 4) (n : Needs) (len : Nat) : (s.issued e p n len).sems = s.sems := rfl
@[simp] theorem State.issued_off (s : State) (e : Eng) (p : BitVec 4) (n : Needs) (len : Nat) : (s.issued e p n len).off = s.off := rfl
@[simp] theorem State.issued_cvs (s : State) (e : Eng) (p : BitVec 4) (n : Needs) (len : Nat) : (s.issued e p n len).cvs = s.cvs := rfl
@[simp] theorem State.issued_conds (s : State) (e : Eng) (p : BitVec 4) (n : Needs) (len : Nat) : (s.issued e p n len).conds = s.conds := rfl
@[simp] theorem State.issued_mboxes (s : State) (e : Eng) (p : BitVec 4) (n : Needs) (len : Nat) : (s.issued e p n len).mboxes = s.mboxes := rfl
@[simp] theorem State.issued_links (s : State) (e : Eng) (p : BitVec 4) (n : Needs) (len : Nat) : (s.issued e p n len).links = s.links := rfl
@[simp] theorem State.issued_spans (s : State) (e : Eng) (p : BitVec 4) (n : Needs) (len : Nat) : (s.issued e p n len).spans = s.spans := rfl
@[simp] theorem State.issued_lost (s : State) (e : Eng) (p : BitVec 4) (n : Needs) (len : Nat) : (s.issued e p n len).lost = s.lost := rfl
@[simp] theorem State.issued_noRoute (s : State) (e : Eng) (p : BitVec 4) (n : Needs) (len : Nat) : (s.issued e p n len).noRoute = s.noRoute := rfl
@[simp] theorem State.issued_invals (s : State) (e : Eng) (p : BitVec 4) (n : Needs) (len : Nat) : (s.issued e p n len).invals = s.invals := rfl
@[simp] theorem State.issued_stalled (s : State) (e : Eng) (p : BitVec 4) (n : Needs) (len : Nat) : (s.issued e p n len).stalled = s.stalled := rfl
@[simp] theorem State.issued_kvOpen (s : State) (e : Eng) (p : BitVec 4) (n : Needs) (len : Nat) : (s.issued e p n len).kvOpen = s.kvOpen := rfl
@[simp] theorem State.issued_poison (s : State) (e : Eng) (p : BitVec 4) (n : Needs) (len : Nat) : (s.issued e p n len).poison = s.poison := rfl
@[simp] theorem State.issued_msix (s : State) (e : Eng) (p : BitVec 4) (n : Needs) (len : Nat) : (s.issued e p n len).msix = s.msix := rfl
@[simp] theorem State.issued_pwrcap (s : State) (e : Eng) (p : BitVec 4) (n : Needs) (len : Nat) : (s.issued e p n len).pwrcap = s.pwrcap := rfl
@[simp] theorem State.issued_stage (s : State) (e : Eng) (p : BitVec 4) (n : Needs) (len : Nat) : (s.issued e p n len).stage = s.stage := rfl
@[simp] theorem State.issued_fwerr (s : State) (e : Eng) (p : BitVec 4) (n : Needs) (len : Nat) : (s.issued e p n len).fwerr = s.fwerr := rfl
@[simp] theorem State.issued_thermtrip (s : State) (e : Eng) (p : BitVec 4) (n : Needs) (len : Nat) : (s.issued e p n len).thermtrip = s.thermtrip := rfl
@[simp] theorem State.issued_power (s : State) (e : Eng) (p : BitVec 4) (n : Needs) (len : Nat) : (s.issued e p n len).power = s.power := rfl
@[simp] theorem State.issued_secbox (s : State) (e : Eng) (p : BitVec 4) (n : Needs) (len : Nat) : (s.issued e p n len).secbox = s.secbox := rfl
@[simp] theorem State.issued_attesting (s : State) (e : Eng) (p : BitVec 4) (n : Needs) (len : Nat) : (s.issued e p n len).attesting = s.attesting := rfl
@[simp] theorem State.issued_hostData (s : State) (e : Eng) (p : BitVec 4) (n : Needs) (len : Nat) : (s.issued e p n len).hostData = s.hostData := rfl
@[simp] theorem State.issued_peerData (s : State) (e : Eng) (p : BitVec 4) (n : Needs) (len : Nat) : (s.issued e p n len).peerData = s.peerData := rfl
@[simp] theorem State.issued_now (s : State) (e : Eng) (p : BitVec 4) (n : Needs) (len : Nat) : (s.issued e p n len).now = s.now := rfl
@[simp] theorem State.issued_creation (s : State) (e : Eng) (p : BitVec 4) (n : Needs) (len : Nat) : (s.issued e p n len).creation = s.creation := rfl
@[simp] theorem State.issued_leaveNo (s : State) (e : Eng) (p : BitVec 4) (n : Needs) (len : Nat) : (s.issued e p n len).leaveNo = s.leaveNo := rfl
@[simp] theorem State.issued_workNo (s : State) (e : Eng) (p : BitVec 4) (n : Needs) (len : Nat) : (s.issued e p n len).workNo = s.workNo := rfl
@[simp] theorem State.issued_nestNo (s : State) (e : Eng) (p : BitVec 4) (n : Needs) (len : Nat) : (s.issued e p n len).nestNo = s.nestNo := rfl
@[simp] theorem State.issued_invNo (s : State) (e : Eng) (p : BitVec 4) (n : Needs) (len : Nat) : (s.issued e p n len).invNo = s.invNo := rfl
@[simp] theorem State.issued_freeNo (s : State) (e : Eng) (p : BitVec 4) (n : Needs) (len : Nat) : (s.issued e p n len).freeNo = s.freeNo := rfl
@[simp] theorem State.issued_turnNo (s : State) (e : Eng) (p : BitVec 4) (n : Needs) (len : Nat) : (s.issued e p n len).turnNo = s.turnNo := rfl
@[simp] theorem State.issued_agenda (s : State) (e : Eng) (p : BitVec 4) (n : Needs) (len : Nat) : (s.issued e p n len).agenda = s.agenda := rfl
@[simp] theorem State.issued_budget (s : State) (e : Eng) (p : BitVec 4) (n : Needs) (len : Nat) : (s.issued e p n len).budget = s.budget := rfl
@[simp] theorem State.issued_quiet (s : State) (e : Eng) (p : BitVec 4) (n : Needs) (len : Nat) : (s.issued e p n len).quiet = s.quiet := rfl
@[simp] theorem State.issued_msixTable (s : State) (e : Eng) (p : BitVec 4) (n : Needs) (len : Nat) : (s.issued e p n len).msixTable = s.msixTable := rfl
@[simp] theorem State.issued_measured (s : State) (e : Eng) (p : BitVec 4) (n : Needs) (len : Nat) : (s.issued e p n len).measured = s.measured := rfl
@[simp] theorem State.issued_fuses (s : State) (e : Eng) (p : BitVec 4) (n : Needs) (len : Nat) : (s.issued e p n len).fuses = s.fuses := rfl
@[simp] theorem State.issued_fwVersion (s : State) (e : Eng) (p : BitVec 4) (n : Needs) (len : Nat) : (s.issued e p n len).fwVersion = s.fwVersion := rfl
@[simp] theorem State.issued_fwDigest (s : State) (e : Eng) (p : BitVec 4) (n : Needs) (len : Nat) : (s.issued e p n len).fwDigest = s.fwDigest := rfl
@[simp] theorem State.issued_report (s : State) (e : Eng) (p : BitVec 4) (n : Needs) (len : Nat) : (s.issued e p n len).report = s.report := rfl
@[simp] theorem State.issued_handleNo (s : State) (e : Eng) (p : BitVec 4) (n : Needs) (len : Nat) : (s.issued e p n len).handleNo = s.handleNo := rfl
@[simp] theorem State.issued_arrayQuiet (s : State) (e : Eng) (p : BitVec 4) (n : Needs) (len : Nat) : (s.issued e p n len).arrayQuiet = s.arrayQuiet := rfl
@[simp] theorem State.issued_cycle (s : State) (e : Eng) (p : BitVec 4) (n : Needs) (len : Nat) : (s.issued e p n len).cycle = s.cycle := rfl
@[simp] theorem State.issued_fills (s : State) (e : Eng) (p : BitVec 4) (n : Needs) (len : Nat) : (s.issued e p n len).fills = s.fills := rfl
@[simp] theorem State.issued_due (s : State) (e : Eng) (p : BitVec 4) (n : Needs) (len : Nat) : (s.issued e p n len).due = s.due := rfl

/-! ### retire -/

@[simp] theorem State.retire_mem (s : State) (e : Eng) (p : BitVec 4) (n : Needs) (len : Nat) (nx : Next) : (s.retire e p n len nx).mem = s.mem := rfl
@[simp] theorem State.retire_cur (s : State) (e : Eng) (p : BitVec 4) (n : Needs) (len : Nat) (nx : Next) : (s.retire e p n len nx).cur = s.cur := rfl
@[simp] theorem State.retire_queues (s : State) (e : Eng) (p : BitVec 4) (n : Needs) (len : Nat) (nx : Next) : (s.retire e p n len nx).queues = s.queues := rfl
@[simp] theorem State.retire_nests (s : State) (e : Eng) (p : BitVec 4) (n : Needs) (len : Nat) (nx : Next) : (s.retire e p n len nx).nests = s.nests := rfl
@[simp] theorem State.retire_parts (s : State) (e : Eng) (p : BitVec 4) (n : Needs) (len : Nat) (nx : Next) : (s.retire e p n len nx).parts = s.parts := rfl
@[simp] theorem State.retire_groups (s : State) (e : Eng) (p : BitVec 4) (n : Needs) (len : Nat) (nx : Next) : (s.retire e p n len nx).groups = s.groups := rfl
@[simp] theorem State.retire_dies (s : State) (e : Eng) (p : BitVec 4) (n : Needs) (len : Nat) (nx : Next) : (s.retire e p n len nx).dies = s.dies := rfl
@[simp] theorem State.retire_ladles (s : State) (e : Eng) (p : BitVec 4) (n : Needs) (len : Nat) (nx : Next) : (s.retire e p n len nx).ladles = s.ladles := rfl
@[simp] theorem State.retire_flows (s : State) (e : Eng) (p : BitVec 4) (n : Needs) (len : Nat) (nx : Next) : (s.retire e p n len nx).flows = s.flows := rfl
@[simp] theorem State.retire_flowSeq (s : State) (e : Eng) (p : BitVec 4) (n : Needs) (len : Nat) (nx : Next) : (s.retire e p n len nx).flowSeq = s.flowSeq := rfl
@[simp] theorem State.retire_sems (s : State) (e : Eng) (p : BitVec 4) (n : Needs) (len : Nat) (nx : Next) : (s.retire e p n len nx).sems = s.sems := rfl
@[simp] theorem State.retire_off (s : State) (e : Eng) (p : BitVec 4) (n : Needs) (len : Nat) (nx : Next) : (s.retire e p n len nx).off = s.off := rfl
@[simp] theorem State.retire_cvs (s : State) (e : Eng) (p : BitVec 4) (n : Needs) (len : Nat) (nx : Next) : (s.retire e p n len nx).cvs = s.cvs := rfl
@[simp] theorem State.retire_conds (s : State) (e : Eng) (p : BitVec 4) (n : Needs) (len : Nat) (nx : Next) : (s.retire e p n len nx).conds = s.conds := rfl
@[simp] theorem State.retire_mboxes (s : State) (e : Eng) (p : BitVec 4) (n : Needs) (len : Nat) (nx : Next) : (s.retire e p n len nx).mboxes = s.mboxes := rfl
@[simp] theorem State.retire_links (s : State) (e : Eng) (p : BitVec 4) (n : Needs) (len : Nat) (nx : Next) : (s.retire e p n len nx).links = s.links := rfl
@[simp] theorem State.retire_spans (s : State) (e : Eng) (p : BitVec 4) (n : Needs) (len : Nat) (nx : Next) : (s.retire e p n len nx).spans = s.spans := rfl
@[simp] theorem State.retire_lost (s : State) (e : Eng) (p : BitVec 4) (n : Needs) (len : Nat) (nx : Next) : (s.retire e p n len nx).lost = s.lost := rfl
@[simp] theorem State.retire_noRoute (s : State) (e : Eng) (p : BitVec 4) (n : Needs) (len : Nat) (nx : Next) : (s.retire e p n len nx).noRoute = s.noRoute := rfl
@[simp] theorem State.retire_invals (s : State) (e : Eng) (p : BitVec 4) (n : Needs) (len : Nat) (nx : Next) : (s.retire e p n len nx).invals = s.invals := rfl
@[simp] theorem State.retire_stalled (s : State) (e : Eng) (p : BitVec 4) (n : Needs) (len : Nat) (nx : Next) : (s.retire e p n len nx).stalled = s.stalled := rfl
@[simp] theorem State.retire_kvOpen (s : State) (e : Eng) (p : BitVec 4) (n : Needs) (len : Nat) (nx : Next) : (s.retire e p n len nx).kvOpen = s.kvOpen := rfl
@[simp] theorem State.retire_poison (s : State) (e : Eng) (p : BitVec 4) (n : Needs) (len : Nat) (nx : Next) : (s.retire e p n len nx).poison = s.poison := rfl
@[simp] theorem State.retire_msix (s : State) (e : Eng) (p : BitVec 4) (n : Needs) (len : Nat) (nx : Next) : (s.retire e p n len nx).msix = s.msix := rfl
@[simp] theorem State.retire_pwrcap (s : State) (e : Eng) (p : BitVec 4) (n : Needs) (len : Nat) (nx : Next) : (s.retire e p n len nx).pwrcap = s.pwrcap := rfl
@[simp] theorem State.retire_stage (s : State) (e : Eng) (p : BitVec 4) (n : Needs) (len : Nat) (nx : Next) : (s.retire e p n len nx).stage = s.stage := rfl
@[simp] theorem State.retire_fwerr (s : State) (e : Eng) (p : BitVec 4) (n : Needs) (len : Nat) (nx : Next) : (s.retire e p n len nx).fwerr = s.fwerr := rfl
@[simp] theorem State.retire_thermtrip (s : State) (e : Eng) (p : BitVec 4) (n : Needs) (len : Nat) (nx : Next) : (s.retire e p n len nx).thermtrip = s.thermtrip := rfl
@[simp] theorem State.retire_power (s : State) (e : Eng) (p : BitVec 4) (n : Needs) (len : Nat) (nx : Next) : (s.retire e p n len nx).power = s.power := rfl
@[simp] theorem State.retire_secbox (s : State) (e : Eng) (p : BitVec 4) (n : Needs) (len : Nat) (nx : Next) : (s.retire e p n len nx).secbox = s.secbox := rfl
@[simp] theorem State.retire_attesting (s : State) (e : Eng) (p : BitVec 4) (n : Needs) (len : Nat) (nx : Next) : (s.retire e p n len nx).attesting = s.attesting := rfl
@[simp] theorem State.retire_hostData (s : State) (e : Eng) (p : BitVec 4) (n : Needs) (len : Nat) (nx : Next) : (s.retire e p n len nx).hostData = s.hostData := rfl
@[simp] theorem State.retire_peerData (s : State) (e : Eng) (p : BitVec 4) (n : Needs) (len : Nat) (nx : Next) : (s.retire e p n len nx).peerData = s.peerData := rfl
@[simp] theorem State.retire_now (s : State) (e : Eng) (p : BitVec 4) (n : Needs) (len : Nat) (nx : Next) : (s.retire e p n len nx).now = s.now := rfl
@[simp] theorem State.retire_creation (s : State) (e : Eng) (p : BitVec 4) (n : Needs) (len : Nat) (nx : Next) : (s.retire e p n len nx).creation = s.creation := rfl
@[simp] theorem State.retire_leaveNo (s : State) (e : Eng) (p : BitVec 4) (n : Needs) (len : Nat) (nx : Next) : (s.retire e p n len nx).leaveNo = s.leaveNo := rfl
@[simp] theorem State.retire_workNo (s : State) (e : Eng) (p : BitVec 4) (n : Needs) (len : Nat) (nx : Next) : (s.retire e p n len nx).workNo = s.workNo := rfl
@[simp] theorem State.retire_nestNo (s : State) (e : Eng) (p : BitVec 4) (n : Needs) (len : Nat) (nx : Next) : (s.retire e p n len nx).nestNo = s.nestNo := rfl
@[simp] theorem State.retire_invNo (s : State) (e : Eng) (p : BitVec 4) (n : Needs) (len : Nat) (nx : Next) : (s.retire e p n len nx).invNo = s.invNo := rfl
@[simp] theorem State.retire_freeNo (s : State) (e : Eng) (p : BitVec 4) (n : Needs) (len : Nat) (nx : Next) : (s.retire e p n len nx).freeNo = s.freeNo := rfl
@[simp] theorem State.retire_turnNo (s : State) (e : Eng) (p : BitVec 4) (n : Needs) (len : Nat) (nx : Next) : (s.retire e p n len nx).turnNo = s.turnNo := rfl
@[simp] theorem State.retire_agenda (s : State) (e : Eng) (p : BitVec 4) (n : Needs) (len : Nat) (nx : Next) : (s.retire e p n len nx).agenda = s.agenda := rfl
@[simp] theorem State.retire_budget (s : State) (e : Eng) (p : BitVec 4) (n : Needs) (len : Nat) (nx : Next) : (s.retire e p n len nx).budget = s.budget := rfl
@[simp] theorem State.retire_quiet (s : State) (e : Eng) (p : BitVec 4) (n : Needs) (len : Nat) (nx : Next) : (s.retire e p n len nx).quiet = s.quiet := rfl
@[simp] theorem State.retire_msixTable (s : State) (e : Eng) (p : BitVec 4) (n : Needs) (len : Nat) (nx : Next) : (s.retire e p n len nx).msixTable = s.msixTable := rfl
@[simp] theorem State.retire_measured (s : State) (e : Eng) (p : BitVec 4) (n : Needs) (len : Nat) (nx : Next) : (s.retire e p n len nx).measured = s.measured := rfl
@[simp] theorem State.retire_fuses (s : State) (e : Eng) (p : BitVec 4) (n : Needs) (len : Nat) (nx : Next) : (s.retire e p n len nx).fuses = s.fuses := rfl
@[simp] theorem State.retire_fwVersion (s : State) (e : Eng) (p : BitVec 4) (n : Needs) (len : Nat) (nx : Next) : (s.retire e p n len nx).fwVersion = s.fwVersion := rfl
@[simp] theorem State.retire_fwDigest (s : State) (e : Eng) (p : BitVec 4) (n : Needs) (len : Nat) (nx : Next) : (s.retire e p n len nx).fwDigest = s.fwDigest := rfl
@[simp] theorem State.retire_report (s : State) (e : Eng) (p : BitVec 4) (n : Needs) (len : Nat) (nx : Next) : (s.retire e p n len nx).report = s.report := rfl
@[simp] theorem State.retire_handleNo (s : State) (e : Eng) (p : BitVec 4) (n : Needs) (len : Nat) (nx : Next) : (s.retire e p n len nx).handleNo = s.handleNo := rfl
@[simp] theorem State.retire_arrayQuiet (s : State) (e : Eng) (p : BitVec 4) (n : Needs) (len : Nat) (nx : Next) : (s.retire e p n len nx).arrayQuiet = s.arrayQuiet := rfl
@[simp] theorem State.retire_cycle (s : State) (e : Eng) (p : BitVec 4) (n : Needs) (len : Nat) (nx : Next) : (s.retire e p n len nx).cycle = s.cycle := rfl
@[simp] theorem State.retire_fills (s : State) (e : Eng) (p : BitVec 4) (n : Needs) (len : Nat) (nx : Next) : (s.retire e p n len nx).fills = s.fills := rfl
@[simp] theorem State.retire_due (s : State) (e : Eng) (p : BitVec 4) (n : Needs) (len : Nat) (nx : Next) : (s.retire e p n len nx).due = s.due := rfl

/-! ### modPart -/

@[simp] theorem State.modPart_mem (s : State) (p : Nat) (f : Part → Part) : (s.modPart p f).mem = s.mem := rfl
@[simp] theorem State.modPart_cores (s : State) (p : Nat) (f : Part → Part) : (s.modPart p f).cores = s.cores := rfl
@[simp] theorem State.modPart_cur (s : State) (p : Nat) (f : Part → Part) : (s.modPart p f).cur = s.cur := rfl
@[simp] theorem State.modPart_queues (s : State) (p : Nat) (f : Part → Part) : (s.modPart p f).queues = s.queues := rfl
@[simp] theorem State.modPart_nests (s : State) (p : Nat) (f : Part → Part) : (s.modPart p f).nests = s.nests := rfl
@[simp] theorem State.modPart_groups (s : State) (p : Nat) (f : Part → Part) : (s.modPart p f).groups = s.groups := rfl
@[simp] theorem State.modPart_dies (s : State) (p : Nat) (f : Part → Part) : (s.modPart p f).dies = s.dies := rfl
@[simp] theorem State.modPart_ladles (s : State) (p : Nat) (f : Part → Part) : (s.modPart p f).ladles = s.ladles := rfl
@[simp] theorem State.modPart_flows (s : State) (p : Nat) (f : Part → Part) : (s.modPart p f).flows = s.flows := rfl
@[simp] theorem State.modPart_flowSeq (s : State) (p : Nat) (f : Part → Part) : (s.modPart p f).flowSeq = s.flowSeq := rfl
@[simp] theorem State.modPart_sems (s : State) (p : Nat) (f : Part → Part) : (s.modPart p f).sems = s.sems := rfl
@[simp] theorem State.modPart_off (s : State) (p : Nat) (f : Part → Part) : (s.modPart p f).off = s.off := rfl
@[simp] theorem State.modPart_cvs (s : State) (p : Nat) (f : Part → Part) : (s.modPart p f).cvs = s.cvs := rfl
@[simp] theorem State.modPart_conds (s : State) (p : Nat) (f : Part → Part) : (s.modPart p f).conds = s.conds := rfl
@[simp] theorem State.modPart_mboxes (s : State) (p : Nat) (f : Part → Part) : (s.modPart p f).mboxes = s.mboxes := rfl
@[simp] theorem State.modPart_links (s : State) (p : Nat) (f : Part → Part) : (s.modPart p f).links = s.links := rfl
@[simp] theorem State.modPart_spans (s : State) (p : Nat) (f : Part → Part) : (s.modPart p f).spans = s.spans := rfl
@[simp] theorem State.modPart_lost (s : State) (p : Nat) (f : Part → Part) : (s.modPart p f).lost = s.lost := rfl
@[simp] theorem State.modPart_noRoute (s : State) (p : Nat) (f : Part → Part) : (s.modPart p f).noRoute = s.noRoute := rfl
@[simp] theorem State.modPart_invals (s : State) (p : Nat) (f : Part → Part) : (s.modPart p f).invals = s.invals := rfl
@[simp] theorem State.modPart_stalled (s : State) (p : Nat) (f : Part → Part) : (s.modPart p f).stalled = s.stalled := rfl
@[simp] theorem State.modPart_kvOpen (s : State) (p : Nat) (f : Part → Part) : (s.modPart p f).kvOpen = s.kvOpen := rfl
@[simp] theorem State.modPart_poison (s : State) (p : Nat) (f : Part → Part) : (s.modPart p f).poison = s.poison := rfl
@[simp] theorem State.modPart_msix (s : State) (p : Nat) (f : Part → Part) : (s.modPart p f).msix = s.msix := rfl
@[simp] theorem State.modPart_pwrcap (s : State) (p : Nat) (f : Part → Part) : (s.modPart p f).pwrcap = s.pwrcap := rfl
@[simp] theorem State.modPart_stage (s : State) (p : Nat) (f : Part → Part) : (s.modPart p f).stage = s.stage := rfl
@[simp] theorem State.modPart_fwerr (s : State) (p : Nat) (f : Part → Part) : (s.modPart p f).fwerr = s.fwerr := rfl
@[simp] theorem State.modPart_thermtrip (s : State) (p : Nat) (f : Part → Part) : (s.modPart p f).thermtrip = s.thermtrip := rfl
@[simp] theorem State.modPart_power (s : State) (p : Nat) (f : Part → Part) : (s.modPart p f).power = s.power := rfl
@[simp] theorem State.modPart_secbox (s : State) (p : Nat) (f : Part → Part) : (s.modPart p f).secbox = s.secbox := rfl
@[simp] theorem State.modPart_attesting (s : State) (p : Nat) (f : Part → Part) : (s.modPart p f).attesting = s.attesting := rfl
@[simp] theorem State.modPart_hostData (s : State) (p : Nat) (f : Part → Part) : (s.modPart p f).hostData = s.hostData := rfl
@[simp] theorem State.modPart_peerData (s : State) (p : Nat) (f : Part → Part) : (s.modPart p f).peerData = s.peerData := rfl
@[simp] theorem State.modPart_now (s : State) (p : Nat) (f : Part → Part) : (s.modPart p f).now = s.now := rfl
@[simp] theorem State.modPart_creation (s : State) (p : Nat) (f : Part → Part) : (s.modPart p f).creation = s.creation := rfl
@[simp] theorem State.modPart_leaveNo (s : State) (p : Nat) (f : Part → Part) : (s.modPart p f).leaveNo = s.leaveNo := rfl
@[simp] theorem State.modPart_workNo (s : State) (p : Nat) (f : Part → Part) : (s.modPart p f).workNo = s.workNo := rfl
@[simp] theorem State.modPart_nestNo (s : State) (p : Nat) (f : Part → Part) : (s.modPart p f).nestNo = s.nestNo := rfl
@[simp] theorem State.modPart_invNo (s : State) (p : Nat) (f : Part → Part) : (s.modPart p f).invNo = s.invNo := rfl
@[simp] theorem State.modPart_freeNo (s : State) (p : Nat) (f : Part → Part) : (s.modPart p f).freeNo = s.freeNo := rfl
@[simp] theorem State.modPart_turnNo (s : State) (p : Nat) (f : Part → Part) : (s.modPart p f).turnNo = s.turnNo := rfl
@[simp] theorem State.modPart_agenda (s : State) (p : Nat) (f : Part → Part) : (s.modPart p f).agenda = s.agenda := rfl
@[simp] theorem State.modPart_budget (s : State) (p : Nat) (f : Part → Part) : (s.modPart p f).budget = s.budget := rfl
@[simp] theorem State.modPart_quiet (s : State) (p : Nat) (f : Part → Part) : (s.modPart p f).quiet = s.quiet := rfl
@[simp] theorem State.modPart_msixTable (s : State) (p : Nat) (f : Part → Part) : (s.modPart p f).msixTable = s.msixTable := rfl
@[simp] theorem State.modPart_measured (s : State) (p : Nat) (f : Part → Part) : (s.modPart p f).measured = s.measured := rfl
@[simp] theorem State.modPart_fuses (s : State) (p : Nat) (f : Part → Part) : (s.modPart p f).fuses = s.fuses := rfl
@[simp] theorem State.modPart_fwVersion (s : State) (p : Nat) (f : Part → Part) : (s.modPart p f).fwVersion = s.fwVersion := rfl
@[simp] theorem State.modPart_fwDigest (s : State) (p : Nat) (f : Part → Part) : (s.modPart p f).fwDigest = s.fwDigest := rfl
@[simp] theorem State.modPart_report (s : State) (p : Nat) (f : Part → Part) : (s.modPart p f).report = s.report := rfl
@[simp] theorem State.modPart_handleNo (s : State) (p : Nat) (f : Part → Part) : (s.modPart p f).handleNo = s.handleNo := rfl
@[simp] theorem State.modPart_arrayQuiet (s : State) (p : Nat) (f : Part → Part) : (s.modPart p f).arrayQuiet = s.arrayQuiet := rfl
@[simp] theorem State.modPart_cycle (s : State) (p : Nat) (f : Part → Part) : (s.modPart p f).cycle = s.cycle := rfl
@[simp] theorem State.modPart_fills (s : State) (p : Nat) (f : Part → Part) : (s.modPart p f).fills = s.fills := rfl
@[simp] theorem State.modPart_due (s : State) (p : Nat) (f : Part → Part) : (s.modPart p f).due = s.due := rfl

/-! ### modDie -/

@[simp] theorem State.modDie_mem (s : State) (d : Nat) (f : Die → Die) : (s.modDie d f).mem = s.mem := rfl
@[simp] theorem State.modDie_cores (s : State) (d : Nat) (f : Die → Die) : (s.modDie d f).cores = s.cores := rfl
@[simp] theorem State.modDie_cur (s : State) (d : Nat) (f : Die → Die) : (s.modDie d f).cur = s.cur := rfl
@[simp] theorem State.modDie_queues (s : State) (d : Nat) (f : Die → Die) : (s.modDie d f).queues = s.queues := rfl
@[simp] theorem State.modDie_nests (s : State) (d : Nat) (f : Die → Die) : (s.modDie d f).nests = s.nests := rfl
@[simp] theorem State.modDie_parts (s : State) (d : Nat) (f : Die → Die) : (s.modDie d f).parts = s.parts := rfl
@[simp] theorem State.modDie_groups (s : State) (d : Nat) (f : Die → Die) : (s.modDie d f).groups = s.groups := rfl
@[simp] theorem State.modDie_ladles (s : State) (d : Nat) (f : Die → Die) : (s.modDie d f).ladles = s.ladles := rfl
@[simp] theorem State.modDie_flows (s : State) (d : Nat) (f : Die → Die) : (s.modDie d f).flows = s.flows := rfl
@[simp] theorem State.modDie_flowSeq (s : State) (d : Nat) (f : Die → Die) : (s.modDie d f).flowSeq = s.flowSeq := rfl
@[simp] theorem State.modDie_sems (s : State) (d : Nat) (f : Die → Die) : (s.modDie d f).sems = s.sems := rfl
@[simp] theorem State.modDie_off (s : State) (d : Nat) (f : Die → Die) : (s.modDie d f).off = s.off := rfl
@[simp] theorem State.modDie_cvs (s : State) (d : Nat) (f : Die → Die) : (s.modDie d f).cvs = s.cvs := rfl
@[simp] theorem State.modDie_conds (s : State) (d : Nat) (f : Die → Die) : (s.modDie d f).conds = s.conds := rfl
@[simp] theorem State.modDie_mboxes (s : State) (d : Nat) (f : Die → Die) : (s.modDie d f).mboxes = s.mboxes := rfl
@[simp] theorem State.modDie_links (s : State) (d : Nat) (f : Die → Die) : (s.modDie d f).links = s.links := rfl
@[simp] theorem State.modDie_spans (s : State) (d : Nat) (f : Die → Die) : (s.modDie d f).spans = s.spans := rfl
@[simp] theorem State.modDie_lost (s : State) (d : Nat) (f : Die → Die) : (s.modDie d f).lost = s.lost := rfl
@[simp] theorem State.modDie_noRoute (s : State) (d : Nat) (f : Die → Die) : (s.modDie d f).noRoute = s.noRoute := rfl
@[simp] theorem State.modDie_invals (s : State) (d : Nat) (f : Die → Die) : (s.modDie d f).invals = s.invals := rfl
@[simp] theorem State.modDie_stalled (s : State) (d : Nat) (f : Die → Die) : (s.modDie d f).stalled = s.stalled := rfl
@[simp] theorem State.modDie_kvOpen (s : State) (d : Nat) (f : Die → Die) : (s.modDie d f).kvOpen = s.kvOpen := rfl
@[simp] theorem State.modDie_poison (s : State) (d : Nat) (f : Die → Die) : (s.modDie d f).poison = s.poison := rfl
@[simp] theorem State.modDie_msix (s : State) (d : Nat) (f : Die → Die) : (s.modDie d f).msix = s.msix := rfl
@[simp] theorem State.modDie_pwrcap (s : State) (d : Nat) (f : Die → Die) : (s.modDie d f).pwrcap = s.pwrcap := rfl
@[simp] theorem State.modDie_stage (s : State) (d : Nat) (f : Die → Die) : (s.modDie d f).stage = s.stage := rfl
@[simp] theorem State.modDie_fwerr (s : State) (d : Nat) (f : Die → Die) : (s.modDie d f).fwerr = s.fwerr := rfl
@[simp] theorem State.modDie_thermtrip (s : State) (d : Nat) (f : Die → Die) : (s.modDie d f).thermtrip = s.thermtrip := rfl
@[simp] theorem State.modDie_power (s : State) (d : Nat) (f : Die → Die) : (s.modDie d f).power = s.power := rfl
@[simp] theorem State.modDie_secbox (s : State) (d : Nat) (f : Die → Die) : (s.modDie d f).secbox = s.secbox := rfl
@[simp] theorem State.modDie_attesting (s : State) (d : Nat) (f : Die → Die) : (s.modDie d f).attesting = s.attesting := rfl
@[simp] theorem State.modDie_hostData (s : State) (d : Nat) (f : Die → Die) : (s.modDie d f).hostData = s.hostData := rfl
@[simp] theorem State.modDie_peerData (s : State) (d : Nat) (f : Die → Die) : (s.modDie d f).peerData = s.peerData := rfl
@[simp] theorem State.modDie_now (s : State) (d : Nat) (f : Die → Die) : (s.modDie d f).now = s.now := rfl
@[simp] theorem State.modDie_creation (s : State) (d : Nat) (f : Die → Die) : (s.modDie d f).creation = s.creation := rfl
@[simp] theorem State.modDie_leaveNo (s : State) (d : Nat) (f : Die → Die) : (s.modDie d f).leaveNo = s.leaveNo := rfl
@[simp] theorem State.modDie_workNo (s : State) (d : Nat) (f : Die → Die) : (s.modDie d f).workNo = s.workNo := rfl
@[simp] theorem State.modDie_nestNo (s : State) (d : Nat) (f : Die → Die) : (s.modDie d f).nestNo = s.nestNo := rfl
@[simp] theorem State.modDie_invNo (s : State) (d : Nat) (f : Die → Die) : (s.modDie d f).invNo = s.invNo := rfl
@[simp] theorem State.modDie_freeNo (s : State) (d : Nat) (f : Die → Die) : (s.modDie d f).freeNo = s.freeNo := rfl
@[simp] theorem State.modDie_turnNo (s : State) (d : Nat) (f : Die → Die) : (s.modDie d f).turnNo = s.turnNo := rfl
@[simp] theorem State.modDie_agenda (s : State) (d : Nat) (f : Die → Die) : (s.modDie d f).agenda = s.agenda := rfl
@[simp] theorem State.modDie_budget (s : State) (d : Nat) (f : Die → Die) : (s.modDie d f).budget = s.budget := rfl
@[simp] theorem State.modDie_quiet (s : State) (d : Nat) (f : Die → Die) : (s.modDie d f).quiet = s.quiet := rfl
@[simp] theorem State.modDie_msixTable (s : State) (d : Nat) (f : Die → Die) : (s.modDie d f).msixTable = s.msixTable := rfl
@[simp] theorem State.modDie_measured (s : State) (d : Nat) (f : Die → Die) : (s.modDie d f).measured = s.measured := rfl
@[simp] theorem State.modDie_fuses (s : State) (d : Nat) (f : Die → Die) : (s.modDie d f).fuses = s.fuses := rfl
@[simp] theorem State.modDie_fwVersion (s : State) (d : Nat) (f : Die → Die) : (s.modDie d f).fwVersion = s.fwVersion := rfl
@[simp] theorem State.modDie_fwDigest (s : State) (d : Nat) (f : Die → Die) : (s.modDie d f).fwDigest = s.fwDigest := rfl
@[simp] theorem State.modDie_report (s : State) (d : Nat) (f : Die → Die) : (s.modDie d f).report = s.report := rfl
@[simp] theorem State.modDie_handleNo (s : State) (d : Nat) (f : Die → Die) : (s.modDie d f).handleNo = s.handleNo := rfl
@[simp] theorem State.modDie_arrayQuiet (s : State) (d : Nat) (f : Die → Die) : (s.modDie d f).arrayQuiet = s.arrayQuiet := rfl
@[simp] theorem State.modDie_cycle (s : State) (d : Nat) (f : Die → Die) : (s.modDie d f).cycle = s.cycle := rfl
@[simp] theorem State.modDie_fills (s : State) (d : Nat) (f : Die → Die) : (s.modDie d f).fills = s.fills := rfl
@[simp] theorem State.modDie_due (s : State) (d : Nat) (f : Die → Die) : (s.modDie d f).due = s.due := rfl

/-! ### modLadle -/

@[simp] theorem State.modLadle_mem (s : State) (l : Nat) (f : Ladle → Ladle) : (s.modLadle l f).mem = s.mem := rfl
@[simp] theorem State.modLadle_cores (s : State) (l : Nat) (f : Ladle → Ladle) : (s.modLadle l f).cores = s.cores := rfl
@[simp] theorem State.modLadle_cur (s : State) (l : Nat) (f : Ladle → Ladle) : (s.modLadle l f).cur = s.cur := rfl
@[simp] theorem State.modLadle_queues (s : State) (l : Nat) (f : Ladle → Ladle) : (s.modLadle l f).queues = s.queues := rfl
@[simp] theorem State.modLadle_nests (s : State) (l : Nat) (f : Ladle → Ladle) : (s.modLadle l f).nests = s.nests := rfl
@[simp] theorem State.modLadle_parts (s : State) (l : Nat) (f : Ladle → Ladle) : (s.modLadle l f).parts = s.parts := rfl
@[simp] theorem State.modLadle_groups (s : State) (l : Nat) (f : Ladle → Ladle) : (s.modLadle l f).groups = s.groups := rfl
@[simp] theorem State.modLadle_dies (s : State) (l : Nat) (f : Ladle → Ladle) : (s.modLadle l f).dies = s.dies := rfl
@[simp] theorem State.modLadle_flows (s : State) (l : Nat) (f : Ladle → Ladle) : (s.modLadle l f).flows = s.flows := rfl
@[simp] theorem State.modLadle_flowSeq (s : State) (l : Nat) (f : Ladle → Ladle) : (s.modLadle l f).flowSeq = s.flowSeq := rfl
@[simp] theorem State.modLadle_sems (s : State) (l : Nat) (f : Ladle → Ladle) : (s.modLadle l f).sems = s.sems := rfl
@[simp] theorem State.modLadle_off (s : State) (l : Nat) (f : Ladle → Ladle) : (s.modLadle l f).off = s.off := rfl
@[simp] theorem State.modLadle_cvs (s : State) (l : Nat) (f : Ladle → Ladle) : (s.modLadle l f).cvs = s.cvs := rfl
@[simp] theorem State.modLadle_conds (s : State) (l : Nat) (f : Ladle → Ladle) : (s.modLadle l f).conds = s.conds := rfl
@[simp] theorem State.modLadle_mboxes (s : State) (l : Nat) (f : Ladle → Ladle) : (s.modLadle l f).mboxes = s.mboxes := rfl
@[simp] theorem State.modLadle_links (s : State) (l : Nat) (f : Ladle → Ladle) : (s.modLadle l f).links = s.links := rfl
@[simp] theorem State.modLadle_spans (s : State) (l : Nat) (f : Ladle → Ladle) : (s.modLadle l f).spans = s.spans := rfl
@[simp] theorem State.modLadle_lost (s : State) (l : Nat) (f : Ladle → Ladle) : (s.modLadle l f).lost = s.lost := rfl
@[simp] theorem State.modLadle_noRoute (s : State) (l : Nat) (f : Ladle → Ladle) : (s.modLadle l f).noRoute = s.noRoute := rfl
@[simp] theorem State.modLadle_invals (s : State) (l : Nat) (f : Ladle → Ladle) : (s.modLadle l f).invals = s.invals := rfl
@[simp] theorem State.modLadle_stalled (s : State) (l : Nat) (f : Ladle → Ladle) : (s.modLadle l f).stalled = s.stalled := rfl
@[simp] theorem State.modLadle_kvOpen (s : State) (l : Nat) (f : Ladle → Ladle) : (s.modLadle l f).kvOpen = s.kvOpen := rfl
@[simp] theorem State.modLadle_poison (s : State) (l : Nat) (f : Ladle → Ladle) : (s.modLadle l f).poison = s.poison := rfl
@[simp] theorem State.modLadle_msix (s : State) (l : Nat) (f : Ladle → Ladle) : (s.modLadle l f).msix = s.msix := rfl
@[simp] theorem State.modLadle_pwrcap (s : State) (l : Nat) (f : Ladle → Ladle) : (s.modLadle l f).pwrcap = s.pwrcap := rfl
@[simp] theorem State.modLadle_stage (s : State) (l : Nat) (f : Ladle → Ladle) : (s.modLadle l f).stage = s.stage := rfl
@[simp] theorem State.modLadle_fwerr (s : State) (l : Nat) (f : Ladle → Ladle) : (s.modLadle l f).fwerr = s.fwerr := rfl
@[simp] theorem State.modLadle_thermtrip (s : State) (l : Nat) (f : Ladle → Ladle) : (s.modLadle l f).thermtrip = s.thermtrip := rfl
@[simp] theorem State.modLadle_power (s : State) (l : Nat) (f : Ladle → Ladle) : (s.modLadle l f).power = s.power := rfl
@[simp] theorem State.modLadle_secbox (s : State) (l : Nat) (f : Ladle → Ladle) : (s.modLadle l f).secbox = s.secbox := rfl
@[simp] theorem State.modLadle_attesting (s : State) (l : Nat) (f : Ladle → Ladle) : (s.modLadle l f).attesting = s.attesting := rfl
@[simp] theorem State.modLadle_hostData (s : State) (l : Nat) (f : Ladle → Ladle) : (s.modLadle l f).hostData = s.hostData := rfl
@[simp] theorem State.modLadle_peerData (s : State) (l : Nat) (f : Ladle → Ladle) : (s.modLadle l f).peerData = s.peerData := rfl
@[simp] theorem State.modLadle_now (s : State) (l : Nat) (f : Ladle → Ladle) : (s.modLadle l f).now = s.now := rfl
@[simp] theorem State.modLadle_creation (s : State) (l : Nat) (f : Ladle → Ladle) : (s.modLadle l f).creation = s.creation := rfl
@[simp] theorem State.modLadle_leaveNo (s : State) (l : Nat) (f : Ladle → Ladle) : (s.modLadle l f).leaveNo = s.leaveNo := rfl
@[simp] theorem State.modLadle_workNo (s : State) (l : Nat) (f : Ladle → Ladle) : (s.modLadle l f).workNo = s.workNo := rfl
@[simp] theorem State.modLadle_nestNo (s : State) (l : Nat) (f : Ladle → Ladle) : (s.modLadle l f).nestNo = s.nestNo := rfl
@[simp] theorem State.modLadle_invNo (s : State) (l : Nat) (f : Ladle → Ladle) : (s.modLadle l f).invNo = s.invNo := rfl
@[simp] theorem State.modLadle_freeNo (s : State) (l : Nat) (f : Ladle → Ladle) : (s.modLadle l f).freeNo = s.freeNo := rfl
@[simp] theorem State.modLadle_turnNo (s : State) (l : Nat) (f : Ladle → Ladle) : (s.modLadle l f).turnNo = s.turnNo := rfl
@[simp] theorem State.modLadle_agenda (s : State) (l : Nat) (f : Ladle → Ladle) : (s.modLadle l f).agenda = s.agenda := rfl
@[simp] theorem State.modLadle_budget (s : State) (l : Nat) (f : Ladle → Ladle) : (s.modLadle l f).budget = s.budget := rfl
@[simp] theorem State.modLadle_quiet (s : State) (l : Nat) (f : Ladle → Ladle) : (s.modLadle l f).quiet = s.quiet := rfl
@[simp] theorem State.modLadle_msixTable (s : State) (l : Nat) (f : Ladle → Ladle) : (s.modLadle l f).msixTable = s.msixTable := rfl
@[simp] theorem State.modLadle_measured (s : State) (l : Nat) (f : Ladle → Ladle) : (s.modLadle l f).measured = s.measured := rfl
@[simp] theorem State.modLadle_fuses (s : State) (l : Nat) (f : Ladle → Ladle) : (s.modLadle l f).fuses = s.fuses := rfl
@[simp] theorem State.modLadle_fwVersion (s : State) (l : Nat) (f : Ladle → Ladle) : (s.modLadle l f).fwVersion = s.fwVersion := rfl
@[simp] theorem State.modLadle_fwDigest (s : State) (l : Nat) (f : Ladle → Ladle) : (s.modLadle l f).fwDigest = s.fwDigest := rfl
@[simp] theorem State.modLadle_report (s : State) (l : Nat) (f : Ladle → Ladle) : (s.modLadle l f).report = s.report := rfl
@[simp] theorem State.modLadle_handleNo (s : State) (l : Nat) (f : Ladle → Ladle) : (s.modLadle l f).handleNo = s.handleNo := rfl
@[simp] theorem State.modLadle_arrayQuiet (s : State) (l : Nat) (f : Ladle → Ladle) : (s.modLadle l f).arrayQuiet = s.arrayQuiet := rfl
@[simp] theorem State.modLadle_cycle (s : State) (l : Nat) (f : Ladle → Ladle) : (s.modLadle l f).cycle = s.cycle := rfl
@[simp] theorem State.modLadle_fills (s : State) (l : Nat) (f : Ladle → Ladle) : (s.modLadle l f).fills = s.fills := rfl
@[simp] theorem State.modLadle_due (s : State) (l : Nat) (f : Ladle → Ladle) : (s.modLadle l f).due = s.due := rfl

/-! ### modWQ -/

@[simp] theorem State.modWQ_mem (s : State) (q : Nat) (f : WQ → WQ) : (s.modWQ q f).mem = s.mem := rfl
@[simp] theorem State.modWQ_cores (s : State) (q : Nat) (f : WQ → WQ) : (s.modWQ q f).cores = s.cores := rfl
@[simp] theorem State.modWQ_cur (s : State) (q : Nat) (f : WQ → WQ) : (s.modWQ q f).cur = s.cur := rfl
@[simp] theorem State.modWQ_nests (s : State) (q : Nat) (f : WQ → WQ) : (s.modWQ q f).nests = s.nests := rfl
@[simp] theorem State.modWQ_parts (s : State) (q : Nat) (f : WQ → WQ) : (s.modWQ q f).parts = s.parts := rfl
@[simp] theorem State.modWQ_groups (s : State) (q : Nat) (f : WQ → WQ) : (s.modWQ q f).groups = s.groups := rfl
@[simp] theorem State.modWQ_dies (s : State) (q : Nat) (f : WQ → WQ) : (s.modWQ q f).dies = s.dies := rfl
@[simp] theorem State.modWQ_ladles (s : State) (q : Nat) (f : WQ → WQ) : (s.modWQ q f).ladles = s.ladles := rfl
@[simp] theorem State.modWQ_flows (s : State) (q : Nat) (f : WQ → WQ) : (s.modWQ q f).flows = s.flows := rfl
@[simp] theorem State.modWQ_flowSeq (s : State) (q : Nat) (f : WQ → WQ) : (s.modWQ q f).flowSeq = s.flowSeq := rfl
@[simp] theorem State.modWQ_sems (s : State) (q : Nat) (f : WQ → WQ) : (s.modWQ q f).sems = s.sems := rfl
@[simp] theorem State.modWQ_off (s : State) (q : Nat) (f : WQ → WQ) : (s.modWQ q f).off = s.off := rfl
@[simp] theorem State.modWQ_cvs (s : State) (q : Nat) (f : WQ → WQ) : (s.modWQ q f).cvs = s.cvs := rfl
@[simp] theorem State.modWQ_conds (s : State) (q : Nat) (f : WQ → WQ) : (s.modWQ q f).conds = s.conds := rfl
@[simp] theorem State.modWQ_mboxes (s : State) (q : Nat) (f : WQ → WQ) : (s.modWQ q f).mboxes = s.mboxes := rfl
@[simp] theorem State.modWQ_links (s : State) (q : Nat) (f : WQ → WQ) : (s.modWQ q f).links = s.links := rfl
@[simp] theorem State.modWQ_spans (s : State) (q : Nat) (f : WQ → WQ) : (s.modWQ q f).spans = s.spans := rfl
@[simp] theorem State.modWQ_lost (s : State) (q : Nat) (f : WQ → WQ) : (s.modWQ q f).lost = s.lost := rfl
@[simp] theorem State.modWQ_noRoute (s : State) (q : Nat) (f : WQ → WQ) : (s.modWQ q f).noRoute = s.noRoute := rfl
@[simp] theorem State.modWQ_invals (s : State) (q : Nat) (f : WQ → WQ) : (s.modWQ q f).invals = s.invals := rfl
@[simp] theorem State.modWQ_stalled (s : State) (q : Nat) (f : WQ → WQ) : (s.modWQ q f).stalled = s.stalled := rfl
@[simp] theorem State.modWQ_kvOpen (s : State) (q : Nat) (f : WQ → WQ) : (s.modWQ q f).kvOpen = s.kvOpen := rfl
@[simp] theorem State.modWQ_poison (s : State) (q : Nat) (f : WQ → WQ) : (s.modWQ q f).poison = s.poison := rfl
@[simp] theorem State.modWQ_msix (s : State) (q : Nat) (f : WQ → WQ) : (s.modWQ q f).msix = s.msix := rfl
@[simp] theorem State.modWQ_pwrcap (s : State) (q : Nat) (f : WQ → WQ) : (s.modWQ q f).pwrcap = s.pwrcap := rfl
@[simp] theorem State.modWQ_stage (s : State) (q : Nat) (f : WQ → WQ) : (s.modWQ q f).stage = s.stage := rfl
@[simp] theorem State.modWQ_fwerr (s : State) (q : Nat) (f : WQ → WQ) : (s.modWQ q f).fwerr = s.fwerr := rfl
@[simp] theorem State.modWQ_thermtrip (s : State) (q : Nat) (f : WQ → WQ) : (s.modWQ q f).thermtrip = s.thermtrip := rfl
@[simp] theorem State.modWQ_power (s : State) (q : Nat) (f : WQ → WQ) : (s.modWQ q f).power = s.power := rfl
@[simp] theorem State.modWQ_secbox (s : State) (q : Nat) (f : WQ → WQ) : (s.modWQ q f).secbox = s.secbox := rfl
@[simp] theorem State.modWQ_attesting (s : State) (q : Nat) (f : WQ → WQ) : (s.modWQ q f).attesting = s.attesting := rfl
@[simp] theorem State.modWQ_hostData (s : State) (q : Nat) (f : WQ → WQ) : (s.modWQ q f).hostData = s.hostData := rfl
@[simp] theorem State.modWQ_peerData (s : State) (q : Nat) (f : WQ → WQ) : (s.modWQ q f).peerData = s.peerData := rfl
@[simp] theorem State.modWQ_now (s : State) (q : Nat) (f : WQ → WQ) : (s.modWQ q f).now = s.now := rfl
@[simp] theorem State.modWQ_creation (s : State) (q : Nat) (f : WQ → WQ) : (s.modWQ q f).creation = s.creation := rfl
@[simp] theorem State.modWQ_leaveNo (s : State) (q : Nat) (f : WQ → WQ) : (s.modWQ q f).leaveNo = s.leaveNo := rfl
@[simp] theorem State.modWQ_workNo (s : State) (q : Nat) (f : WQ → WQ) : (s.modWQ q f).workNo = s.workNo := rfl
@[simp] theorem State.modWQ_nestNo (s : State) (q : Nat) (f : WQ → WQ) : (s.modWQ q f).nestNo = s.nestNo := rfl
@[simp] theorem State.modWQ_invNo (s : State) (q : Nat) (f : WQ → WQ) : (s.modWQ q f).invNo = s.invNo := rfl
@[simp] theorem State.modWQ_freeNo (s : State) (q : Nat) (f : WQ → WQ) : (s.modWQ q f).freeNo = s.freeNo := rfl
@[simp] theorem State.modWQ_turnNo (s : State) (q : Nat) (f : WQ → WQ) : (s.modWQ q f).turnNo = s.turnNo := rfl
@[simp] theorem State.modWQ_agenda (s : State) (q : Nat) (f : WQ → WQ) : (s.modWQ q f).agenda = s.agenda := rfl
@[simp] theorem State.modWQ_budget (s : State) (q : Nat) (f : WQ → WQ) : (s.modWQ q f).budget = s.budget := rfl
@[simp] theorem State.modWQ_quiet (s : State) (q : Nat) (f : WQ → WQ) : (s.modWQ q f).quiet = s.quiet := rfl
@[simp] theorem State.modWQ_msixTable (s : State) (q : Nat) (f : WQ → WQ) : (s.modWQ q f).msixTable = s.msixTable := rfl
@[simp] theorem State.modWQ_measured (s : State) (q : Nat) (f : WQ → WQ) : (s.modWQ q f).measured = s.measured := rfl
@[simp] theorem State.modWQ_fuses (s : State) (q : Nat) (f : WQ → WQ) : (s.modWQ q f).fuses = s.fuses := rfl
@[simp] theorem State.modWQ_fwVersion (s : State) (q : Nat) (f : WQ → WQ) : (s.modWQ q f).fwVersion = s.fwVersion := rfl
@[simp] theorem State.modWQ_fwDigest (s : State) (q : Nat) (f : WQ → WQ) : (s.modWQ q f).fwDigest = s.fwDigest := rfl
@[simp] theorem State.modWQ_report (s : State) (q : Nat) (f : WQ → WQ) : (s.modWQ q f).report = s.report := rfl
@[simp] theorem State.modWQ_handleNo (s : State) (q : Nat) (f : WQ → WQ) : (s.modWQ q f).handleNo = s.handleNo := rfl
@[simp] theorem State.modWQ_arrayQuiet (s : State) (q : Nat) (f : WQ → WQ) : (s.modWQ q f).arrayQuiet = s.arrayQuiet := rfl
@[simp] theorem State.modWQ_cycle (s : State) (q : Nat) (f : WQ → WQ) : (s.modWQ q f).cycle = s.cycle := rfl
@[simp] theorem State.modWQ_fills (s : State) (q : Nat) (f : WQ → WQ) : (s.modWQ q f).fills = s.fills := rfl
@[simp] theorem State.modWQ_due (s : State) (q : Nat) (f : WQ → WQ) : (s.modWQ q f).due = s.due := rfl

/-! ### modSem -/

@[simp] theorem State.modSem_mem (s : State) (n : Nat) (f : Sem → Sem) : (s.modSem n f).mem = s.mem := rfl
@[simp] theorem State.modSem_cores (s : State) (n : Nat) (f : Sem → Sem) : (s.modSem n f).cores = s.cores := rfl
@[simp] theorem State.modSem_cur (s : State) (n : Nat) (f : Sem → Sem) : (s.modSem n f).cur = s.cur := rfl
@[simp] theorem State.modSem_queues (s : State) (n : Nat) (f : Sem → Sem) : (s.modSem n f).queues = s.queues := rfl
@[simp] theorem State.modSem_nests (s : State) (n : Nat) (f : Sem → Sem) : (s.modSem n f).nests = s.nests := rfl
@[simp] theorem State.modSem_parts (s : State) (n : Nat) (f : Sem → Sem) : (s.modSem n f).parts = s.parts := rfl
@[simp] theorem State.modSem_groups (s : State) (n : Nat) (f : Sem → Sem) : (s.modSem n f).groups = s.groups := rfl
@[simp] theorem State.modSem_dies (s : State) (n : Nat) (f : Sem → Sem) : (s.modSem n f).dies = s.dies := rfl
@[simp] theorem State.modSem_ladles (s : State) (n : Nat) (f : Sem → Sem) : (s.modSem n f).ladles = s.ladles := rfl
@[simp] theorem State.modSem_flows (s : State) (n : Nat) (f : Sem → Sem) : (s.modSem n f).flows = s.flows := rfl
@[simp] theorem State.modSem_flowSeq (s : State) (n : Nat) (f : Sem → Sem) : (s.modSem n f).flowSeq = s.flowSeq := rfl
@[simp] theorem State.modSem_off (s : State) (n : Nat) (f : Sem → Sem) : (s.modSem n f).off = s.off := rfl
@[simp] theorem State.modSem_cvs (s : State) (n : Nat) (f : Sem → Sem) : (s.modSem n f).cvs = s.cvs := rfl
@[simp] theorem State.modSem_conds (s : State) (n : Nat) (f : Sem → Sem) : (s.modSem n f).conds = s.conds := rfl
@[simp] theorem State.modSem_mboxes (s : State) (n : Nat) (f : Sem → Sem) : (s.modSem n f).mboxes = s.mboxes := rfl
@[simp] theorem State.modSem_links (s : State) (n : Nat) (f : Sem → Sem) : (s.modSem n f).links = s.links := rfl
@[simp] theorem State.modSem_spans (s : State) (n : Nat) (f : Sem → Sem) : (s.modSem n f).spans = s.spans := rfl
@[simp] theorem State.modSem_lost (s : State) (n : Nat) (f : Sem → Sem) : (s.modSem n f).lost = s.lost := rfl
@[simp] theorem State.modSem_noRoute (s : State) (n : Nat) (f : Sem → Sem) : (s.modSem n f).noRoute = s.noRoute := rfl
@[simp] theorem State.modSem_invals (s : State) (n : Nat) (f : Sem → Sem) : (s.modSem n f).invals = s.invals := rfl
@[simp] theorem State.modSem_stalled (s : State) (n : Nat) (f : Sem → Sem) : (s.modSem n f).stalled = s.stalled := rfl
@[simp] theorem State.modSem_kvOpen (s : State) (n : Nat) (f : Sem → Sem) : (s.modSem n f).kvOpen = s.kvOpen := rfl
@[simp] theorem State.modSem_poison (s : State) (n : Nat) (f : Sem → Sem) : (s.modSem n f).poison = s.poison := rfl
@[simp] theorem State.modSem_msix (s : State) (n : Nat) (f : Sem → Sem) : (s.modSem n f).msix = s.msix := rfl
@[simp] theorem State.modSem_pwrcap (s : State) (n : Nat) (f : Sem → Sem) : (s.modSem n f).pwrcap = s.pwrcap := rfl
@[simp] theorem State.modSem_stage (s : State) (n : Nat) (f : Sem → Sem) : (s.modSem n f).stage = s.stage := rfl
@[simp] theorem State.modSem_fwerr (s : State) (n : Nat) (f : Sem → Sem) : (s.modSem n f).fwerr = s.fwerr := rfl
@[simp] theorem State.modSem_thermtrip (s : State) (n : Nat) (f : Sem → Sem) : (s.modSem n f).thermtrip = s.thermtrip := rfl
@[simp] theorem State.modSem_power (s : State) (n : Nat) (f : Sem → Sem) : (s.modSem n f).power = s.power := rfl
@[simp] theorem State.modSem_secbox (s : State) (n : Nat) (f : Sem → Sem) : (s.modSem n f).secbox = s.secbox := rfl
@[simp] theorem State.modSem_attesting (s : State) (n : Nat) (f : Sem → Sem) : (s.modSem n f).attesting = s.attesting := rfl
@[simp] theorem State.modSem_hostData (s : State) (n : Nat) (f : Sem → Sem) : (s.modSem n f).hostData = s.hostData := rfl
@[simp] theorem State.modSem_peerData (s : State) (n : Nat) (f : Sem → Sem) : (s.modSem n f).peerData = s.peerData := rfl
@[simp] theorem State.modSem_now (s : State) (n : Nat) (f : Sem → Sem) : (s.modSem n f).now = s.now := rfl
@[simp] theorem State.modSem_creation (s : State) (n : Nat) (f : Sem → Sem) : (s.modSem n f).creation = s.creation := rfl
@[simp] theorem State.modSem_leaveNo (s : State) (n : Nat) (f : Sem → Sem) : (s.modSem n f).leaveNo = s.leaveNo := rfl
@[simp] theorem State.modSem_workNo (s : State) (n : Nat) (f : Sem → Sem) : (s.modSem n f).workNo = s.workNo := rfl
@[simp] theorem State.modSem_nestNo (s : State) (n : Nat) (f : Sem → Sem) : (s.modSem n f).nestNo = s.nestNo := rfl
@[simp] theorem State.modSem_invNo (s : State) (n : Nat) (f : Sem → Sem) : (s.modSem n f).invNo = s.invNo := rfl
@[simp] theorem State.modSem_freeNo (s : State) (n : Nat) (f : Sem → Sem) : (s.modSem n f).freeNo = s.freeNo := rfl
@[simp] theorem State.modSem_turnNo (s : State) (n : Nat) (f : Sem → Sem) : (s.modSem n f).turnNo = s.turnNo := rfl
@[simp] theorem State.modSem_agenda (s : State) (n : Nat) (f : Sem → Sem) : (s.modSem n f).agenda = s.agenda := rfl
@[simp] theorem State.modSem_budget (s : State) (n : Nat) (f : Sem → Sem) : (s.modSem n f).budget = s.budget := rfl
@[simp] theorem State.modSem_quiet (s : State) (n : Nat) (f : Sem → Sem) : (s.modSem n f).quiet = s.quiet := rfl
@[simp] theorem State.modSem_msixTable (s : State) (n : Nat) (f : Sem → Sem) : (s.modSem n f).msixTable = s.msixTable := rfl
@[simp] theorem State.modSem_measured (s : State) (n : Nat) (f : Sem → Sem) : (s.modSem n f).measured = s.measured := rfl
@[simp] theorem State.modSem_fuses (s : State) (n : Nat) (f : Sem → Sem) : (s.modSem n f).fuses = s.fuses := rfl
@[simp] theorem State.modSem_fwVersion (s : State) (n : Nat) (f : Sem → Sem) : (s.modSem n f).fwVersion = s.fwVersion := rfl
@[simp] theorem State.modSem_fwDigest (s : State) (n : Nat) (f : Sem → Sem) : (s.modSem n f).fwDigest = s.fwDigest := rfl
@[simp] theorem State.modSem_report (s : State) (n : Nat) (f : Sem → Sem) : (s.modSem n f).report = s.report := rfl
@[simp] theorem State.modSem_handleNo (s : State) (n : Nat) (f : Sem → Sem) : (s.modSem n f).handleNo = s.handleNo := rfl
@[simp] theorem State.modSem_arrayQuiet (s : State) (n : Nat) (f : Sem → Sem) : (s.modSem n f).arrayQuiet = s.arrayQuiet := rfl
@[simp] theorem State.modSem_cycle (s : State) (n : Nat) (f : Sem → Sem) : (s.modSem n f).cycle = s.cycle := rfl
@[simp] theorem State.modSem_fills (s : State) (n : Nat) (f : Sem → Sem) : (s.modSem n f).fills = s.fills := rfl
@[simp] theorem State.modSem_due (s : State) (n : Nat) (f : Sem → Sem) : (s.modSem n f).due = s.due := rfl

/-! ### writeM -/

@[simp] theorem State.writeM_cores (s : State) (a : Nat) (l : List Byte) : (s.writeM a l).cores = s.cores := rfl
@[simp] theorem State.writeM_cur (s : State) (a : Nat) (l : List Byte) : (s.writeM a l).cur = s.cur := rfl
@[simp] theorem State.writeM_queues (s : State) (a : Nat) (l : List Byte) : (s.writeM a l).queues = s.queues := rfl
@[simp] theorem State.writeM_nests (s : State) (a : Nat) (l : List Byte) : (s.writeM a l).nests = s.nests := rfl
@[simp] theorem State.writeM_parts (s : State) (a : Nat) (l : List Byte) : (s.writeM a l).parts = s.parts := rfl
@[simp] theorem State.writeM_groups (s : State) (a : Nat) (l : List Byte) : (s.writeM a l).groups = s.groups := rfl
@[simp] theorem State.writeM_ladles (s : State) (a : Nat) (l : List Byte) : (s.writeM a l).ladles = s.ladles := rfl
@[simp] theorem State.writeM_flows (s : State) (a : Nat) (l : List Byte) : (s.writeM a l).flows = s.flows := rfl
@[simp] theorem State.writeM_flowSeq (s : State) (a : Nat) (l : List Byte) : (s.writeM a l).flowSeq = s.flowSeq := rfl
@[simp] theorem State.writeM_sems (s : State) (a : Nat) (l : List Byte) : (s.writeM a l).sems = s.sems := rfl
@[simp] theorem State.writeM_off (s : State) (a : Nat) (l : List Byte) : (s.writeM a l).off = s.off := rfl
@[simp] theorem State.writeM_cvs (s : State) (a : Nat) (l : List Byte) : (s.writeM a l).cvs = s.cvs := rfl
@[simp] theorem State.writeM_conds (s : State) (a : Nat) (l : List Byte) : (s.writeM a l).conds = s.conds := rfl
@[simp] theorem State.writeM_mboxes (s : State) (a : Nat) (l : List Byte) : (s.writeM a l).mboxes = s.mboxes := rfl
@[simp] theorem State.writeM_links (s : State) (a : Nat) (l : List Byte) : (s.writeM a l).links = s.links := rfl
@[simp] theorem State.writeM_spans (s : State) (a : Nat) (l : List Byte) : (s.writeM a l).spans = s.spans := rfl
@[simp] theorem State.writeM_lost (s : State) (a : Nat) (l : List Byte) : (s.writeM a l).lost = s.lost := rfl
@[simp] theorem State.writeM_noRoute (s : State) (a : Nat) (l : List Byte) : (s.writeM a l).noRoute = s.noRoute := rfl
@[simp] theorem State.writeM_invals (s : State) (a : Nat) (l : List Byte) : (s.writeM a l).invals = s.invals := rfl
@[simp] theorem State.writeM_stalled (s : State) (a : Nat) (l : List Byte) : (s.writeM a l).stalled = s.stalled := rfl
@[simp] theorem State.writeM_kvOpen (s : State) (a : Nat) (l : List Byte) : (s.writeM a l).kvOpen = s.kvOpen := rfl
@[simp] theorem State.writeM_msix (s : State) (a : Nat) (l : List Byte) : (s.writeM a l).msix = s.msix := rfl
@[simp] theorem State.writeM_pwrcap (s : State) (a : Nat) (l : List Byte) : (s.writeM a l).pwrcap = s.pwrcap := rfl
@[simp] theorem State.writeM_stage (s : State) (a : Nat) (l : List Byte) : (s.writeM a l).stage = s.stage := rfl
@[simp] theorem State.writeM_fwerr (s : State) (a : Nat) (l : List Byte) : (s.writeM a l).fwerr = s.fwerr := rfl
@[simp] theorem State.writeM_thermtrip (s : State) (a : Nat) (l : List Byte) : (s.writeM a l).thermtrip = s.thermtrip := rfl
@[simp] theorem State.writeM_power (s : State) (a : Nat) (l : List Byte) : (s.writeM a l).power = s.power := rfl
@[simp] theorem State.writeM_secbox (s : State) (a : Nat) (l : List Byte) : (s.writeM a l).secbox = s.secbox := rfl
@[simp] theorem State.writeM_attesting (s : State) (a : Nat) (l : List Byte) : (s.writeM a l).attesting = s.attesting := rfl
@[simp] theorem State.writeM_hostData (s : State) (a : Nat) (l : List Byte) : (s.writeM a l).hostData = s.hostData := rfl
@[simp] theorem State.writeM_peerData (s : State) (a : Nat) (l : List Byte) : (s.writeM a l).peerData = s.peerData := rfl
@[simp] theorem State.writeM_now (s : State) (a : Nat) (l : List Byte) : (s.writeM a l).now = s.now := rfl
@[simp] theorem State.writeM_creation (s : State) (a : Nat) (l : List Byte) : (s.writeM a l).creation = s.creation := rfl
@[simp] theorem State.writeM_leaveNo (s : State) (a : Nat) (l : List Byte) : (s.writeM a l).leaveNo = s.leaveNo := rfl
@[simp] theorem State.writeM_workNo (s : State) (a : Nat) (l : List Byte) : (s.writeM a l).workNo = s.workNo := rfl
@[simp] theorem State.writeM_nestNo (s : State) (a : Nat) (l : List Byte) : (s.writeM a l).nestNo = s.nestNo := rfl
@[simp] theorem State.writeM_invNo (s : State) (a : Nat) (l : List Byte) : (s.writeM a l).invNo = s.invNo := rfl
@[simp] theorem State.writeM_freeNo (s : State) (a : Nat) (l : List Byte) : (s.writeM a l).freeNo = s.freeNo := rfl
@[simp] theorem State.writeM_turnNo (s : State) (a : Nat) (l : List Byte) : (s.writeM a l).turnNo = s.turnNo := rfl
@[simp] theorem State.writeM_agenda (s : State) (a : Nat) (l : List Byte) : (s.writeM a l).agenda = s.agenda := rfl
@[simp] theorem State.writeM_budget (s : State) (a : Nat) (l : List Byte) : (s.writeM a l).budget = s.budget := rfl
@[simp] theorem State.writeM_quiet (s : State) (a : Nat) (l : List Byte) : (s.writeM a l).quiet = s.quiet := rfl
@[simp] theorem State.writeM_msixTable (s : State) (a : Nat) (l : List Byte) : (s.writeM a l).msixTable = s.msixTable := rfl
@[simp] theorem State.writeM_measured (s : State) (a : Nat) (l : List Byte) : (s.writeM a l).measured = s.measured := rfl
@[simp] theorem State.writeM_fuses (s : State) (a : Nat) (l : List Byte) : (s.writeM a l).fuses = s.fuses := rfl
@[simp] theorem State.writeM_fwVersion (s : State) (a : Nat) (l : List Byte) : (s.writeM a l).fwVersion = s.fwVersion := rfl
@[simp] theorem State.writeM_fwDigest (s : State) (a : Nat) (l : List Byte) : (s.writeM a l).fwDigest = s.fwDigest := rfl
@[simp] theorem State.writeM_report (s : State) (a : Nat) (l : List Byte) : (s.writeM a l).report = s.report := rfl
@[simp] theorem State.writeM_handleNo (s : State) (a : Nat) (l : List Byte) : (s.writeM a l).handleNo = s.handleNo := rfl
@[simp] theorem State.writeM_arrayQuiet (s : State) (a : Nat) (l : List Byte) : (s.writeM a l).arrayQuiet = s.arrayQuiet := rfl
@[simp] theorem State.writeM_cycle (s : State) (a : Nat) (l : List Byte) : (s.writeM a l).cycle = s.cycle := rfl
@[simp] theorem State.writeM_fills (s : State) (a : Nat) (l : List Byte) : (s.writeM a l).fills = s.fills := rfl
@[simp] theorem State.writeM_due (s : State) (a : Nat) (l : List Byte) : (s.writeM a l).due = s.due := rfl

/-! ### writeN -/

@[simp] theorem State.writeN_cores (s : State) (a n v : Nat) : (s.writeN a n v).cores = s.cores := rfl
@[simp] theorem State.writeN_cur (s : State) (a n v : Nat) : (s.writeN a n v).cur = s.cur := rfl
@[simp] theorem State.writeN_queues (s : State) (a n v : Nat) : (s.writeN a n v).queues = s.queues := rfl
@[simp] theorem State.writeN_nests (s : State) (a n v : Nat) : (s.writeN a n v).nests = s.nests := rfl
@[simp] theorem State.writeN_parts (s : State) (a n v : Nat) : (s.writeN a n v).parts = s.parts := rfl
@[simp] theorem State.writeN_groups (s : State) (a n v : Nat) : (s.writeN a n v).groups = s.groups := rfl
@[simp] theorem State.writeN_ladles (s : State) (a n v : Nat) : (s.writeN a n v).ladles = s.ladles := rfl
@[simp] theorem State.writeN_flows (s : State) (a n v : Nat) : (s.writeN a n v).flows = s.flows := rfl
@[simp] theorem State.writeN_flowSeq (s : State) (a n v : Nat) : (s.writeN a n v).flowSeq = s.flowSeq := rfl
@[simp] theorem State.writeN_sems (s : State) (a n v : Nat) : (s.writeN a n v).sems = s.sems := rfl
@[simp] theorem State.writeN_off (s : State) (a n v : Nat) : (s.writeN a n v).off = s.off := rfl
@[simp] theorem State.writeN_cvs (s : State) (a n v : Nat) : (s.writeN a n v).cvs = s.cvs := rfl
@[simp] theorem State.writeN_conds (s : State) (a n v : Nat) : (s.writeN a n v).conds = s.conds := rfl
@[simp] theorem State.writeN_mboxes (s : State) (a n v : Nat) : (s.writeN a n v).mboxes = s.mboxes := rfl
@[simp] theorem State.writeN_links (s : State) (a n v : Nat) : (s.writeN a n v).links = s.links := rfl
@[simp] theorem State.writeN_spans (s : State) (a n v : Nat) : (s.writeN a n v).spans = s.spans := rfl
@[simp] theorem State.writeN_lost (s : State) (a n v : Nat) : (s.writeN a n v).lost = s.lost := rfl
@[simp] theorem State.writeN_noRoute (s : State) (a n v : Nat) : (s.writeN a n v).noRoute = s.noRoute := rfl
@[simp] theorem State.writeN_invals (s : State) (a n v : Nat) : (s.writeN a n v).invals = s.invals := rfl
@[simp] theorem State.writeN_stalled (s : State) (a n v : Nat) : (s.writeN a n v).stalled = s.stalled := rfl
@[simp] theorem State.writeN_kvOpen (s : State) (a n v : Nat) : (s.writeN a n v).kvOpen = s.kvOpen := rfl
@[simp] theorem State.writeN_msix (s : State) (a n v : Nat) : (s.writeN a n v).msix = s.msix := rfl
@[simp] theorem State.writeN_pwrcap (s : State) (a n v : Nat) : (s.writeN a n v).pwrcap = s.pwrcap := rfl
@[simp] theorem State.writeN_stage (s : State) (a n v : Nat) : (s.writeN a n v).stage = s.stage := rfl
@[simp] theorem State.writeN_fwerr (s : State) (a n v : Nat) : (s.writeN a n v).fwerr = s.fwerr := rfl
@[simp] theorem State.writeN_thermtrip (s : State) (a n v : Nat) : (s.writeN a n v).thermtrip = s.thermtrip := rfl
@[simp] theorem State.writeN_power (s : State) (a n v : Nat) : (s.writeN a n v).power = s.power := rfl
@[simp] theorem State.writeN_secbox (s : State) (a n v : Nat) : (s.writeN a n v).secbox = s.secbox := rfl
@[simp] theorem State.writeN_attesting (s : State) (a n v : Nat) : (s.writeN a n v).attesting = s.attesting := rfl
@[simp] theorem State.writeN_hostData (s : State) (a n v : Nat) : (s.writeN a n v).hostData = s.hostData := rfl
@[simp] theorem State.writeN_peerData (s : State) (a n v : Nat) : (s.writeN a n v).peerData = s.peerData := rfl
@[simp] theorem State.writeN_now (s : State) (a n v : Nat) : (s.writeN a n v).now = s.now := rfl
@[simp] theorem State.writeN_creation (s : State) (a n v : Nat) : (s.writeN a n v).creation = s.creation := rfl
@[simp] theorem State.writeN_leaveNo (s : State) (a n v : Nat) : (s.writeN a n v).leaveNo = s.leaveNo := rfl
@[simp] theorem State.writeN_workNo (s : State) (a n v : Nat) : (s.writeN a n v).workNo = s.workNo := rfl
@[simp] theorem State.writeN_nestNo (s : State) (a n v : Nat) : (s.writeN a n v).nestNo = s.nestNo := rfl
@[simp] theorem State.writeN_invNo (s : State) (a n v : Nat) : (s.writeN a n v).invNo = s.invNo := rfl
@[simp] theorem State.writeN_freeNo (s : State) (a n v : Nat) : (s.writeN a n v).freeNo = s.freeNo := rfl
@[simp] theorem State.writeN_turnNo (s : State) (a n v : Nat) : (s.writeN a n v).turnNo = s.turnNo := rfl
@[simp] theorem State.writeN_agenda (s : State) (a n v : Nat) : (s.writeN a n v).agenda = s.agenda := rfl
@[simp] theorem State.writeN_budget (s : State) (a n v : Nat) : (s.writeN a n v).budget = s.budget := rfl
@[simp] theorem State.writeN_quiet (s : State) (a n v : Nat) : (s.writeN a n v).quiet = s.quiet := rfl
@[simp] theorem State.writeN_msixTable (s : State) (a n v : Nat) : (s.writeN a n v).msixTable = s.msixTable := rfl
@[simp] theorem State.writeN_measured (s : State) (a n v : Nat) : (s.writeN a n v).measured = s.measured := rfl
@[simp] theorem State.writeN_fuses (s : State) (a n v : Nat) : (s.writeN a n v).fuses = s.fuses := rfl
@[simp] theorem State.writeN_fwVersion (s : State) (a n v : Nat) : (s.writeN a n v).fwVersion = s.fwVersion := rfl
@[simp] theorem State.writeN_fwDigest (s : State) (a n v : Nat) : (s.writeN a n v).fwDigest = s.fwDigest := rfl
@[simp] theorem State.writeN_report (s : State) (a n v : Nat) : (s.writeN a n v).report = s.report := rfl
@[simp] theorem State.writeN_handleNo (s : State) (a n v : Nat) : (s.writeN a n v).handleNo = s.handleNo := rfl
@[simp] theorem State.writeN_arrayQuiet (s : State) (a n v : Nat) : (s.writeN a n v).arrayQuiet = s.arrayQuiet := rfl
@[simp] theorem State.writeN_cycle (s : State) (a n v : Nat) : (s.writeN a n v).cycle = s.cycle := rfl
@[simp] theorem State.writeN_fills (s : State) (a n v : Nat) : (s.writeN a n v).fills = s.fills := rfl
@[simp] theorem State.writeN_due (s : State) (a n v : Nat) : (s.writeN a n v).due = s.due := rfl

/-! ### stir -/

@[simp] theorem State.stir_mem (s : State) : (s.stir).mem = s.mem := rfl
@[simp] theorem State.stir_cores (s : State) : (s.stir).cores = s.cores := rfl
@[simp] theorem State.stir_cur (s : State) : (s.stir).cur = s.cur := rfl
@[simp] theorem State.stir_queues (s : State) : (s.stir).queues = s.queues := rfl
@[simp] theorem State.stir_nests (s : State) : (s.stir).nests = s.nests := rfl
@[simp] theorem State.stir_parts (s : State) : (s.stir).parts = s.parts := rfl
@[simp] theorem State.stir_groups (s : State) : (s.stir).groups = s.groups := rfl
@[simp] theorem State.stir_dies (s : State) : (s.stir).dies = s.dies := rfl
@[simp] theorem State.stir_ladles (s : State) : (s.stir).ladles = s.ladles := rfl
@[simp] theorem State.stir_flows (s : State) : (s.stir).flows = s.flows := rfl
@[simp] theorem State.stir_flowSeq (s : State) : (s.stir).flowSeq = s.flowSeq := rfl
@[simp] theorem State.stir_sems (s : State) : (s.stir).sems = s.sems := rfl
@[simp] theorem State.stir_off (s : State) : (s.stir).off = s.off := rfl
@[simp] theorem State.stir_cvs (s : State) : (s.stir).cvs = s.cvs := rfl
@[simp] theorem State.stir_conds (s : State) : (s.stir).conds = s.conds := rfl
@[simp] theorem State.stir_mboxes (s : State) : (s.stir).mboxes = s.mboxes := rfl
@[simp] theorem State.stir_links (s : State) : (s.stir).links = s.links := rfl
@[simp] theorem State.stir_spans (s : State) : (s.stir).spans = s.spans := rfl
@[simp] theorem State.stir_lost (s : State) : (s.stir).lost = s.lost := rfl
@[simp] theorem State.stir_noRoute (s : State) : (s.stir).noRoute = s.noRoute := rfl
@[simp] theorem State.stir_invals (s : State) : (s.stir).invals = s.invals := rfl
@[simp] theorem State.stir_stalled (s : State) : (s.stir).stalled = s.stalled := rfl
@[simp] theorem State.stir_kvOpen (s : State) : (s.stir).kvOpen = s.kvOpen := rfl
@[simp] theorem State.stir_poison (s : State) : (s.stir).poison = s.poison := rfl
@[simp] theorem State.stir_msix (s : State) : (s.stir).msix = s.msix := rfl
@[simp] theorem State.stir_pwrcap (s : State) : (s.stir).pwrcap = s.pwrcap := rfl
@[simp] theorem State.stir_stage (s : State) : (s.stir).stage = s.stage := rfl
@[simp] theorem State.stir_fwerr (s : State) : (s.stir).fwerr = s.fwerr := rfl
@[simp] theorem State.stir_thermtrip (s : State) : (s.stir).thermtrip = s.thermtrip := rfl
@[simp] theorem State.stir_power (s : State) : (s.stir).power = s.power := rfl
@[simp] theorem State.stir_secbox (s : State) : (s.stir).secbox = s.secbox := rfl
@[simp] theorem State.stir_attesting (s : State) : (s.stir).attesting = s.attesting := rfl
@[simp] theorem State.stir_hostData (s : State) : (s.stir).hostData = s.hostData := rfl
@[simp] theorem State.stir_peerData (s : State) : (s.stir).peerData = s.peerData := rfl
@[simp] theorem State.stir_now (s : State) : (s.stir).now = s.now := rfl
@[simp] theorem State.stir_creation (s : State) : (s.stir).creation = s.creation := rfl
@[simp] theorem State.stir_leaveNo (s : State) : (s.stir).leaveNo = s.leaveNo := rfl
@[simp] theorem State.stir_workNo (s : State) : (s.stir).workNo = s.workNo := rfl
@[simp] theorem State.stir_nestNo (s : State) : (s.stir).nestNo = s.nestNo := rfl
@[simp] theorem State.stir_invNo (s : State) : (s.stir).invNo = s.invNo := rfl
@[simp] theorem State.stir_freeNo (s : State) : (s.stir).freeNo = s.freeNo := rfl
@[simp] theorem State.stir_turnNo (s : State) : (s.stir).turnNo = s.turnNo := rfl
@[simp] theorem State.stir_agenda (s : State) : (s.stir).agenda = s.agenda := rfl
@[simp] theorem State.stir_budget (s : State) : (s.stir).budget = s.budget := rfl
@[simp] theorem State.stir_msixTable (s : State) : (s.stir).msixTable = s.msixTable := rfl
@[simp] theorem State.stir_measured (s : State) : (s.stir).measured = s.measured := rfl
@[simp] theorem State.stir_fuses (s : State) : (s.stir).fuses = s.fuses := rfl
@[simp] theorem State.stir_fwVersion (s : State) : (s.stir).fwVersion = s.fwVersion := rfl
@[simp] theorem State.stir_fwDigest (s : State) : (s.stir).fwDigest = s.fwDigest := rfl
@[simp] theorem State.stir_report (s : State) : (s.stir).report = s.report := rfl
@[simp] theorem State.stir_handleNo (s : State) : (s.stir).handleNo = s.handleNo := rfl
@[simp] theorem State.stir_cycle (s : State) : (s.stir).cycle = s.cycle := rfl
@[simp] theorem State.stir_fills (s : State) : (s.stir).fills = s.fills := rfl
@[simp] theorem State.stir_due (s : State) : (s.stir).due = s.due := rfl

/-! ### waitNote -/

@[simp] theorem State.waitNote_mem (s : State) (e : Eng) (w : Wait) : (s.waitNote e w).mem = s.mem := rfl
@[simp] theorem State.waitNote_cores (s : State) (e : Eng) (w : Wait) : (s.waitNote e w).cores = s.cores := rfl
@[simp] theorem State.waitNote_cur (s : State) (e : Eng) (w : Wait) : (s.waitNote e w).cur = s.cur := rfl
@[simp] theorem State.waitNote_queues (s : State) (e : Eng) (w : Wait) : (s.waitNote e w).queues = s.queues := rfl
@[simp] theorem State.waitNote_nests (s : State) (e : Eng) (w : Wait) : (s.waitNote e w).nests = s.nests := rfl
@[simp] theorem State.waitNote_parts (s : State) (e : Eng) (w : Wait) : (s.waitNote e w).parts = s.parts := rfl
@[simp] theorem State.waitNote_groups (s : State) (e : Eng) (w : Wait) : (s.waitNote e w).groups = s.groups := rfl
@[simp] theorem State.waitNote_dies (s : State) (e : Eng) (w : Wait) : (s.waitNote e w).dies = s.dies := rfl
@[simp] theorem State.waitNote_ladles (s : State) (e : Eng) (w : Wait) : (s.waitNote e w).ladles = s.ladles := rfl
@[simp] theorem State.waitNote_flows (s : State) (e : Eng) (w : Wait) : (s.waitNote e w).flows = s.flows := rfl
@[simp] theorem State.waitNote_flowSeq (s : State) (e : Eng) (w : Wait) : (s.waitNote e w).flowSeq = s.flowSeq := rfl
@[simp] theorem State.waitNote_sems (s : State) (e : Eng) (w : Wait) : (s.waitNote e w).sems = s.sems := rfl
@[simp] theorem State.waitNote_off (s : State) (e : Eng) (w : Wait) : (s.waitNote e w).off = s.off := rfl
@[simp] theorem State.waitNote_cvs (s : State) (e : Eng) (w : Wait) : (s.waitNote e w).cvs = s.cvs := rfl
@[simp] theorem State.waitNote_conds (s : State) (e : Eng) (w : Wait) : (s.waitNote e w).conds = s.conds := rfl
@[simp] theorem State.waitNote_mboxes (s : State) (e : Eng) (w : Wait) : (s.waitNote e w).mboxes = s.mboxes := rfl
@[simp] theorem State.waitNote_links (s : State) (e : Eng) (w : Wait) : (s.waitNote e w).links = s.links := rfl
@[simp] theorem State.waitNote_spans (s : State) (e : Eng) (w : Wait) : (s.waitNote e w).spans = s.spans := rfl
@[simp] theorem State.waitNote_lost (s : State) (e : Eng) (w : Wait) : (s.waitNote e w).lost = s.lost := rfl
@[simp] theorem State.waitNote_noRoute (s : State) (e : Eng) (w : Wait) : (s.waitNote e w).noRoute = s.noRoute := rfl
@[simp] theorem State.waitNote_invals (s : State) (e : Eng) (w : Wait) : (s.waitNote e w).invals = s.invals := rfl
@[simp] theorem State.waitNote_stalled (s : State) (e : Eng) (w : Wait) : (s.waitNote e w).stalled = s.stalled := rfl
@[simp] theorem State.waitNote_kvOpen (s : State) (e : Eng) (w : Wait) : (s.waitNote e w).kvOpen = s.kvOpen := rfl
@[simp] theorem State.waitNote_poison (s : State) (e : Eng) (w : Wait) : (s.waitNote e w).poison = s.poison := rfl
@[simp] theorem State.waitNote_msix (s : State) (e : Eng) (w : Wait) : (s.waitNote e w).msix = s.msix := rfl
@[simp] theorem State.waitNote_pwrcap (s : State) (e : Eng) (w : Wait) : (s.waitNote e w).pwrcap = s.pwrcap := rfl
@[simp] theorem State.waitNote_stage (s : State) (e : Eng) (w : Wait) : (s.waitNote e w).stage = s.stage := rfl
@[simp] theorem State.waitNote_fwerr (s : State) (e : Eng) (w : Wait) : (s.waitNote e w).fwerr = s.fwerr := rfl
@[simp] theorem State.waitNote_thermtrip (s : State) (e : Eng) (w : Wait) : (s.waitNote e w).thermtrip = s.thermtrip := rfl
@[simp] theorem State.waitNote_power (s : State) (e : Eng) (w : Wait) : (s.waitNote e w).power = s.power := rfl
@[simp] theorem State.waitNote_secbox (s : State) (e : Eng) (w : Wait) : (s.waitNote e w).secbox = s.secbox := rfl
@[simp] theorem State.waitNote_attesting (s : State) (e : Eng) (w : Wait) : (s.waitNote e w).attesting = s.attesting := rfl
@[simp] theorem State.waitNote_hostData (s : State) (e : Eng) (w : Wait) : (s.waitNote e w).hostData = s.hostData := rfl
@[simp] theorem State.waitNote_peerData (s : State) (e : Eng) (w : Wait) : (s.waitNote e w).peerData = s.peerData := rfl
@[simp] theorem State.waitNote_now (s : State) (e : Eng) (w : Wait) : (s.waitNote e w).now = s.now := rfl
@[simp] theorem State.waitNote_creation (s : State) (e : Eng) (w : Wait) : (s.waitNote e w).creation = s.creation := rfl
@[simp] theorem State.waitNote_leaveNo (s : State) (e : Eng) (w : Wait) : (s.waitNote e w).leaveNo = s.leaveNo := rfl
@[simp] theorem State.waitNote_workNo (s : State) (e : Eng) (w : Wait) : (s.waitNote e w).workNo = s.workNo := rfl
@[simp] theorem State.waitNote_nestNo (s : State) (e : Eng) (w : Wait) : (s.waitNote e w).nestNo = s.nestNo := rfl
@[simp] theorem State.waitNote_invNo (s : State) (e : Eng) (w : Wait) : (s.waitNote e w).invNo = s.invNo := rfl
@[simp] theorem State.waitNote_freeNo (s : State) (e : Eng) (w : Wait) : (s.waitNote e w).freeNo = s.freeNo := rfl
@[simp] theorem State.waitNote_turnNo (s : State) (e : Eng) (w : Wait) : (s.waitNote e w).turnNo = s.turnNo := rfl
@[simp] theorem State.waitNote_agenda (s : State) (e : Eng) (w : Wait) : (s.waitNote e w).agenda = s.agenda := rfl
@[simp] theorem State.waitNote_budget (s : State) (e : Eng) (w : Wait) : (s.waitNote e w).budget = s.budget := rfl
@[simp] theorem State.waitNote_msixTable (s : State) (e : Eng) (w : Wait) : (s.waitNote e w).msixTable = s.msixTable := rfl
@[simp] theorem State.waitNote_measured (s : State) (e : Eng) (w : Wait) : (s.waitNote e w).measured = s.measured := rfl
@[simp] theorem State.waitNote_fuses (s : State) (e : Eng) (w : Wait) : (s.waitNote e w).fuses = s.fuses := rfl
@[simp] theorem State.waitNote_fwVersion (s : State) (e : Eng) (w : Wait) : (s.waitNote e w).fwVersion = s.fwVersion := rfl
@[simp] theorem State.waitNote_fwDigest (s : State) (e : Eng) (w : Wait) : (s.waitNote e w).fwDigest = s.fwDigest := rfl
@[simp] theorem State.waitNote_report (s : State) (e : Eng) (w : Wait) : (s.waitNote e w).report = s.report := rfl
@[simp] theorem State.waitNote_handleNo (s : State) (e : Eng) (w : Wait) : (s.waitNote e w).handleNo = s.handleNo := rfl
@[simp] theorem State.waitNote_arrayQuiet (s : State) (e : Eng) (w : Wait) : (s.waitNote e w).arrayQuiet = s.arrayQuiet := rfl
@[simp] theorem State.waitNote_cycle (s : State) (e : Eng) (w : Wait) : (s.waitNote e w).cycle = s.cycle := rfl
@[simp] theorem State.waitNote_fills (s : State) (e : Eng) (w : Wait) : (s.waitNote e w).fills = s.fills := rfl
@[simp] theorem State.waitNote_due (s : State) (e : Eng) (w : Wait) : (s.waitNote e w).due = s.due := rfl

/-! ### Reading back -/

theorem State.core_modCore (s : State) (k j : Nat) (f : Core → Core) :
    (s.modCore k f).core j = if j = k then f (s.core k) else s.core j := SMap.get_put _ _ _ _ _

@[simp] theorem State.core_modCore_same (s : State) (k : Nat) (f : Core → Core) : (s.modCore k f).core k = f (s.core k) := by
  rw [State.core_modCore, if_pos rfl]

theorem State.core_modCore_ne (s : State) {k j : Nat} (f : Core → Core) (h : j ≠ k) : (s.modCore k f).core j = s.core j := by
  rw [State.core_modCore, if_neg h]

@[simp] theorem State.cc_modCC (s : State) (f : Core → Core) : (s.modCC f).cc = f s.cc := State.core_modCore_same s _ f

@[simp] theorem State.cc_modCtx (s : State) (f : Ctx → Ctx) : (s.modCtx f).cc = { s.cc with ctx := f s.ctx } :=
  State.core_modCore_same s _ _

@[simp] theorem State.ctx_modCtx (s : State) (f : Ctx → Ctx) : (s.modCtx f).ctx = f s.ctx := by
  rw [State.ctx, State.cc_modCtx]

@[simp] theorem State.work_modCtx (s : State) (f : Ctx → Ctx) : (s.modCtx f).work = s.work := by
  rw [State.work, State.cc_modCtx, State.work]

@[simp] theorem State.cc_modWork (s : State) (f : Work → Work) : (s.modWork f).cc = { s.cc with work := s.cc.work.map f } :=
  State.core_modCore_same s _ _

@[simp] theorem State.ctx_modWork (s : State) (f : Work → Work) : (s.modWork f).ctx = s.ctx := by
  rw [State.ctx, State.cc_modWork, State.ctx]

theorem State.core_modCtx_ne (s : State) {k : Nat} (f : Ctx → Ctx) (h : k ≠ s.cur) : (s.modCtx f).core k = s.core k :=
  State.core_modCore_ne s _ h

theorem State.part_modPart (s : State) (p q : Nat) (f : Part → Part) :
    (s.modPart p f).part q = if q = p then f (s.part p) else s.part q := SMap.get_put _ _ _ _ _

@[simp] theorem State.part_modPart_same (s : State) (p : Nat) (f : Part → Part) : (s.modPart p f).part p = f (s.part p) := by
  rw [State.part_modPart, if_pos rfl]

theorem State.die_modDie (s : State) (p q : Nat) (f : Die → Die) :
    (s.modDie p f).die q = if q = p then f (s.die p) else s.die q := SMap.get_put _ _ _ _ _

@[simp] theorem State.die_modDie_same (s : State) (p : Nat) (f : Die → Die) : (s.modDie p f).die p = f (s.die p) := by
  rw [State.die_modDie, if_pos rfl]

theorem State.ladle_modLadle (s : State) (p q : Nat) (f : Ladle → Ladle) :
    (s.modLadle p f).ladle q = if q = p then f (s.ladle p) else s.ladle q := SMap.get_put _ _ _ _ _

@[simp] theorem State.ladle_modLadle_same (s : State) (p : Nat) (f : Ladle → Ladle) :
    (s.modLadle p f).ladle p = f (s.ladle p) := by rw [State.ladle_modLadle, if_pos rfl]

theorem State.wq_modWQ (s : State) (p q : Nat) (f : WQ → WQ) :
    (s.modWQ p f).wq q = if q = p then f (s.wq p) else s.wq q := SMap.get_put _ _ _ _ _

@[simp] theorem State.wq_modWQ_same (s : State) (p : Nat) (f : WQ → WQ) : (s.modWQ p f).wq p = f (s.wq p) := by
  rw [State.wq_modWQ, if_pos rfl]

theorem State.sem_modSem (s : State) (p q : Nat) (f : Sem → Sem) :
    (s.modSem p f).sem q = if q = p then f (s.sem p) else s.sem q := SMap.get_put _ _ _ _ _

@[simp] theorem State.sem_modSem_same (s : State) (p : Nat) (f : Sem → Sem) : (s.modSem p f).sem p = f (s.sem p) := by
  rw [State.sem_modSem, if_pos rfl]

/-! ### Engines and registers -/

@[simp] theorem Ctx.eng_modEng_same (c : Ctx) (e : Eng) (f : Engine → Engine) : (c.modEng e f).eng e = f (c.eng e) := by
  cases e <;> rfl

theorem Ctx.eng_modEng (c : Ctx) (e g : Eng) (f : Engine → Engine) :
    (c.modEng e f).eng g = if g = e then f (c.eng e) else c.eng g := by
  cases e <;> cases g <;> rfl

@[simp] theorem Ctx.fifo_modEng (c : Ctx) (e : Eng) (f : Engine → Engine) : (c.modEng e f).fifo = c.fifo := by cases e <;> rfl
@[simp] theorem Ctx.resv_modEng (c : Ctx) (e : Eng) (f : Engine → Engine) : (c.modEng e f).resv = c.resv := by cases e <;> rfl
@[simp] theorem Ctx.queues_modEng (c : Ctx) (e : Eng) (f : Engine → Engine) : (c.modEng e f).queues = c.queues := by
  cases e <;> rfl
@[simp] theorem Ctx.rings_modEng (c : Ctx) (e : Eng) (f : Engine → Engine) : (c.modEng e f).rings = c.rings := by cases e <;> rfl
@[simp] theorem Ctx.ecur_modEng (c : Ctx) (e : Eng) (f : Engine → Engine) : (c.modEng e f).ecur = c.ecur := by cases e <;> rfl
@[simp] theorem Ctx.scur_modEng (c : Ctx) (e : Eng) (f : Engine → Engine) : (c.modEng e f).scur = c.scur := by cases e <;> rfl
@[simp] theorem Ctx.xu_modEng (c : Ctx) (e : Eng) (f : Engine → Engine) : (c.modEng e f).xu = c.xu := by cases e <;> rfl
@[simp] theorem Ctx.ar_modEng (c : Ctx) (e : Eng) (f : Engine → Engine) : (c.modEng e f).ar = c.ar := by cases e <;> rfl
@[simp] theorem Ctx.fu_modEng (c : Ctx) (e : Eng) (f : Engine → Engine) : (c.modEng e f).fu = c.fu := by cases e <;> rfl
@[simp] theorem Ctx.csr_modEng (c : Ctx) (e : Eng) (f : Engine → Engine) : (c.modEng e f).csr = c.csr := by cases e <;> rfl
@[simp] theorem Ctx.held_modEng (c : Ctx) (e : Eng) (f : Engine → Engine) : (c.modEng e f).held = c.held := by cases e <;> rfl
@[simp] theorem Ctx.spad_modEng (c : Ctx) (e : Eng) (f : Engine → Engine) : (c.modEng e f).spad = c.spad := by cases e <;> rfl

@[simp] theorem Engine.reg_zero (g : Engine) : g.reg 0 = 0 := rfl

theorem Engine.reg_setReg (g : Engine) (r q : BitVec 5) (v : Word) :
    (g.setReg r v).reg q = if q = 0 then 0 else if q = r then v else g.reg q := by
  unfold Engine.setReg Engine.reg
  by_cases hr : r = 0
  · subst hr
    rw [if_pos rfl]
    by_cases hq : q = 0
    · rw [if_pos hq, if_pos hq]
    · rw [if_neg hq, if_neg hq, if_neg hq]
  · rw [if_neg hr]
    by_cases hq : q = 0
    · simp [hq]
    · simp only [if_neg hq, SMap.get_set]
      by_cases h : q = r
      · simp [h]
      · rw [if_neg h, if_neg (fun x => h (BitVec.eq_of_toNat_eq x))]

/-- Reading a register after a write of one: g0 reads zero and takes no write (R64, R109). -/
theorem State.reg_setReg (s : State) (e f : Eng) (r q : BitVec 5) (v : Word) :
    (s.setReg e r v).reg f q = if f = e then (if q = 0 then 0 else if q = r then v else s.reg e q) else s.reg f q := by
  unfold State.reg State.setReg
  rw [State.ctx_modCtx, Ctx.eng_modEng]
  split
  · rename_i h
    subst h
    rw [Engine.reg_setReg]
  · rfl

end Sys2Proof.Machine
end

