-- ==== Sys2Proof/Laws/Issue.lean ====
section
/-! SUPPORT. Everything that issue and retirement can do, said once: an instruction that can issue leaves what its body
leaves; what taking the tokens and retiring change. -/

namespace Sys2Proof.Machine

set_option Elab.async false

/-! ### Issue -/

theorem Ready.iff {i : Instr} {e : Eng} {p : BitVec 4} {n : Needs} {s : State} :
    Ready i e p n s = true ↔ s.cc.runnable e = true ∧ (s.ctx.eng e).prog = none ∧ encodingCause i s.cc e = none
      ∧ gateWaits s.ctx e p n = none ∧ s.ctx.slipOk e (instrWords i) = true ∧ terminalUse s.ctx n = false
      ∧ s.cc.badPath ≠ some e ∧ (s.budget = some 0 → n.frees = []) := by
  simp only [Ready, Bool.and_eq_true, Option.isNone_iff_eq_none, Bool.not_eq_true', and_assoc, bne_iff_ne, Bool.or_eq_true,
    List.isEmpty_iff, ne_eq, Decidable.imp_iff_not_or]

/-- What the body leaves is taken as it is, by an engine whose datapath has raised no error. -/
theorem State.settle_sound {s : State} {e : Eng} (h : s.cc.badPath ≠ some e) (p : BitVec 4) (n : Needs) (len : Nat)
    (r : Except Stopped (Next × State)) : s.settle e p n len r = s.concluded e p n len r := by
  unfold State.settle
  split
  · rfl
  · rfl
  · rw [if_neg h]

/-- An instruction that can issue, and whose checks before its waits pass, takes its tokens and acts. -/
theorem issueOn_ready {i : Instr} {e : Eng} {p : BitVec 4} {n : State → Needs} {pre : Act Unit} {body : Prog → Act Next}
    {s : State} (h : Ready i e p (n s) s = true) {x : Unit × State} (hp : pre s = .ok x) :
    issueOn i e p n pre body s = s.concluded e p (n s) (instrWords i) (body {} (s.issued e p (n s) (instrWords i))) := by
  obtain ⟨h1, h2, h3, h4, h5, h6, h7, h8⟩ := Ready.iff.1 h
  unfold issueOn
  rw [if_neg (by simp [h1]), h2]
  simp only [h3, hp, h4]
  rw [if_neg (by simp [h5]), if_neg (by simp [h6]), State.settle_sound h7]
  by_cases hb : s.budget = some 0
  · rw [if_neg (by simp [h8 hb])]
  · rw [if_neg (by simp [hb])]

theorem issue_ready {i : Instr} {e : Eng} {p : BitVec 4} {n : State → Needs} {pre : Act Unit} {body : Prog → Act Next}
    {s : State} (h : Ready i e p (n s) s = true) {x : Unit × State} (hp : pre s = .ok x) :
    issue i e p n pre body s = .next (s.concluded e p (n s) (instrWords i) (body {} (s.issued e p (n s) (instrWords i)))) := by
  unfold issue
  rw [issueOn_ready h hp]

/-- An instruction that can issue, and that retires as it issues. -/
theorem issueSimple_ready {i : Instr} {e : Eng} {p : BitVec 4} {body : Act Next} {s : State}
    (h : Ready i e p {} s = true) :
    issueSimple i e p body s = .next (s.concluded e p {} (instrWords i) (body (s.issued e p {} (instrWords i)))) :=
  issue_ready (n := fun _ => {}) (pre := pure ()) (x := ((), s)) h rfl

/-- An instruction in progress goes on, unless it has only its slots to fill. -/
theorem issueOn_more {i : Instr} {e : Eng} {p : BitVec 4} {n : State → Needs} {pre : Act Unit} {body : Prog → Act Next}
    {s : State} {pr : Prog} (h : s.cc.runnable e = true) (hp : (s.ctx.eng e).prog = some pr)
    (hf : pr.fill = false) : issueOn i e p n pre body s = s.settle e p (n s) (instrWords i) (body pr s) := by
  unfold issueOn
  rw [if_neg (by simp [h]), hp]
  simp only [hf, Bool.false_eq_true, if_false]

/-- An instruction that issued in a turn of budget 0 has acted, and fills the slots that it took. -/
theorem issueOn_fill {i : Instr} {e : Eng} {p : BitVec 4} {n : State → Needs} {pre : Act Unit} {body : Prog → Act Next}
    {s : State} {pr : Prog} (h : s.cc.runnable e = true) (hp : (s.ctx.eng e).prog = some pr) (hf : pr.fill = true) :
    issueOn i e p n pre body s
      = s.settle e p (n s) (instrWords i) (.ok (.seq, s.modCtx fun c => c.fillSlots pr.slots)) := by
  unfold issueOn
  rw [if_neg (by simp [h]), hp]
  simp only [hf, if_true]

/-- An engine that may not act is left as it is. -/
theorem issueOn_idle {i : Instr} {e : Eng} {p : BitVec 4} {n : State → Needs} {pre : Act Unit} {body : Prog → Act Next}
    {s : State} (h : s.cc.runnable e = false) : issueOn i e p n pre body s = s := by
  unfold issueOn
  rw [if_pos (by simp [h])]

/-! ### What the end of a turn does -/

section concluded
variable (s t : State) (e : Eng) (p : BitVec 4) (n : Needs) (len : Nat)

@[simp] theorem State.concluded_error (x : Stop) (f : List (Nat × Nat)) :
    s.concluded e p n len (.error (x, f)) = (s.keepFills f).stopped e x := rfl
@[simp] theorem State.concluded_later : s.concluded e p n len (.ok (.later, t)) = (t.modCtx fun c => c.moveTo e len .later).stir := rfl
@[simp] theorem State.concluded_seq : s.concluded e p n len (.ok (.seq, t)) = (t.retire e p n len .seq).stir := rfl
@[simp] theorem State.concluded_branch (w : Nat) : s.concluded e p n len (.ok (.branch w, t)) = (t.retire e p n len (.branch w)).stir := rfl
@[simp] theorem State.concluded_jump (w : Nat) : s.concluded e p n len (.ok (.jump w, t)) = (t.retire e p n len (.jump w)).stir := rfl
@[simp] theorem State.concluded_loops (l : List Loop) (w : Nat) :
    s.concluded e p n len (.ok (.loops l w, t)) = (t.retire e p n len (.loops l w)).stir := rfl
@[simp] theorem State.concluded_done : s.concluded e p n len (.ok (.done, t)) = ((t.retire e p n len .done).afterDone e).stir := rfl
@[simp] theorem State.concluded_yield :
    s.concluded e p n len (.ok (.yield, t)) = ((t.retire e p n len .seq).startLeave s.cur .saved).stir := rfl
@[simp] theorem State.concluded_more (g : Prog) : s.concluded e p n len (.ok (.more g, t)) =
    (t.modCtx fun c => c.modEng e fun x =>
      { x with prog := some (g.taken e p n len) }).stir := rfl
@[simp] theorem State.concluded_gone : s.concluded e p n len (.ok (.gone, t)) = t.stir := rfl

end concluded

/-! ### Act -/

section act
variable {α β : Type}

@[simp] theorem Act.pure_run (a : α) (s : State) : (pure a : Act α) s = .ok (a, s) := rfl
@[simp] theorem Act.get_run (s : State) : (get : Act State) s = .ok (s, s) := rfl
@[simp] theorem Act.set_run (s t : State) : (set t : Act Unit) s = .ok ((), t) := rfl
@[simp] theorem Act.modify_run (f : State → State) (s : State) : (modify f : Act Unit) s = .ok ((), f s) := rfl
theorem Act.bind_run (x : Act α) (f : α → Act β) (s : State) :
    (x >>= f) s = match x s with | .ok (a, t) => f a t | .error r => .error r := by
  show Except.bind (x s) _ = _
  cases x s <;> rfl
@[simp] theorem Act.bind_ok {x : Act α} {f : α → Act β} {s t : State} {a : α} (h : x s = .ok (a, t)) :
    (x >>= f) s = f a t := by
  rw [Act.bind_run, h]
@[simp] theorem Act.stop_run (x : Stop) (s : State) : (stop x : Act α) s = .error (x, s.fills) := rfl
@[simp] theorem Act.trap_run (c n : Nat) (v : Word) (s : State) : (trap c n v : Act α) s = .error (.trap c n v, s.fills) := rfl
@[simp] theorem Act.waitIf_false (w : Wait) (s : State) : waitIf false w s = .ok ((), s) := rfl
@[simp] theorem Act.waitIf_true (w : Wait) (s : State) : waitIf true w s = .error (.wait w, s.fills) := rfl
@[simp] theorem Act.trapIf_false (c n : Nat) (v : Word) (s : State) : trapIf false c n v s = .ok ((), s) := rfl
@[simp] theorem Act.trapIf_true (c n : Nat) (v : Word) (s : State) : trapIf true c n v s = .error (.trap c n v, s.fills) := rfl
@[simp] theorem Act.poisonIf_false (k : Nat) (v : Word) (s : State) : poisonIf false k v s = .ok ((), s) := rfl

end act

/-! ### Taking the tokens -/

theorem State.ctx_countOn (s : State) (k ev : Nat) (e : Option Eng) (n : Nat) :
    (s.countOn k ev e n).ctx = if s.cur = k then { s.ctx with csr := s.ctx.csr.count ev e n } else s.ctx := by
  unfold State.ctx State.cc State.countOn State.modCtxOf
  rw [State.core_modCore]
  show (if s.cur = k then _ else _ : Core).ctx = _
  by_cases h : s.cur = k
  · rw [if_pos h, if_pos h, h]
  · rw [if_neg h, if_neg h]
    rfl

theorem State.cc_countOn_cur (s : State) (ev : Nat) (e : Option Eng) (n : Nat) :
    (s.countOn s.cur ev e n).cc = { s.cc with ctx := { s.ctx with csr := s.ctx.csr.count ev e n } } :=
  State.core_modCore_same s _ _

theorem State.cc_take (s : State) (e : Eng) (p : BitVec 4) (n : Needs) :
    (s.take e p n).cc = { s.cc with ctx := { (s.ctx.popTokens (n.allPops e p)).reserve (n.allPushes e p) with
      csr := s.ctx.csr.count 2 (some e) 1 } } := by
  unfold State.take
  have h := State.cc_countOn_cur (s.modCtx fun c => (c.popTokens (n.allPops e p)).reserve (n.allPushes e p)) 2 (some e) 1
  rw [State.modCtx_cur, State.cc_modCtx, State.ctx_modCtx] at h
  exact h

/-- What an engine's issue of `len` words changes of its core. -/
theorem State.cc_issued (s : State) (e : Eng) (p : BitVec 4) (n : Needs) (len : Nat) :
    (s.issued e p n len).cc = { s.cc with
      ctx := { ((s.ctx.pass e len s.now).popTokens (n.allPops e p)).reserve (n.allPushes e p) with
        csr := (s.ctx.pass e len s.now).csr.count 2 (some e) 1 } } := by
  unfold State.issued
  rw [State.cc_take, State.cc_modCtx, State.ctx_modCtx]

/-- Issue changes only the engine's walk count and time, the FIFO counts and reservations, the event counters, and the lifted
slip bound. -/
theorem State.ctx_issued (s : State) (e : Eng) (p : BitVec 4) (n : Needs) (len : Nat) :
    (s.issued e p n len).ctx = { ((s.ctx.pass e len s.now).popTokens (n.allPops e p)).reserve (n.allPushes e p) with
      csr := (s.ctx.pass e len s.now).csr.count 2 (some e) 1 } := by
  rw [State.ctx, State.cc_issued]

theorem Ctx.eng_pass (c : Ctx) (e f : Eng) (len now : Nat) : (c.pass e len now).eng f =
    if f = e then { c.eng e with wc := (c.eng e).wc + BitVec.ofNat 32 len, passed := now } else c.eng f := by
  have h := Ctx.eng_modEng c e f fun g => { g with wc := g.wc + BitVec.ofNat 32 len, passed := now }
  rw [← h]
  cases f <;> rfl

theorem State.eng_issued (s : State) (e f : Eng) (p : BitVec 4) (n : Needs) (len : Nat) : (s.issued e p n len).ctx.eng f =
    if f = e then { s.ctx.eng e with wc := (s.ctx.eng e).wc + BitVec.ofNat 32 len, passed := s.now } else s.ctx.eng f := by
  rw [State.ctx_issued, ← Ctx.eng_pass]
  cases f <;> rfl

theorem State.eng_issued_same (s : State) (e : Eng) (p : BitVec 4) (n : Needs) (len : Nat) : (s.issued e p n len).ctx.eng e =
    { s.ctx.eng e with wc := (s.ctx.eng e).wc + BitVec.ofNat 32 len, passed := s.now } := by
  rw [State.eng_issued, if_pos rfl]

theorem State.eng_issued_ne (s : State) {e f : Eng} (p : BitVec 4) (n : Needs) (len : Nat) (h : f ≠ e) :
    (s.issued e p n len).ctx.eng f = s.ctx.eng f := by
  rw [State.eng_issued, if_neg h]

@[simp] theorem State.reg_issued (s : State) (e f : Eng) (p : BitVec 4) (n : Needs) (len : Nat) (r : BitVec 5) :
    (s.issued e p n len).reg f r = s.reg f r := by
  unfold State.reg
  rw [State.eng_issued]
  split
  · rename_i h
    subst h
    rfl
  · rfl

@[simp] theorem State.work_issued (s : State) (e : Eng) (p : BitVec 4) (n : Needs) (len : Nat) :
    (s.issued e p n len).work = s.work := by
  unfold State.work
  rw [State.cc_issued]

@[simp] theorem State.firstWord_issued (s : State) (e : Eng) (p : BitVec 4) (n : Needs) (len pc : Nat) :
    (s.issued e p n len).cc.firstWord pc = s.cc.firstWord pc := by
  rw [State.cc_issued]
  rfl

@[simp] theorem State.imem_issued (s : State) (e : Eng) (p : BitVec 4) (n : Needs) (len : Nat) :
    (s.issued e p n len).cc.imem = s.cc.imem := by
  rw [State.cc_issued]

@[simp] theorem State.queue_issued (s : State) (e : Eng) (p : BitVec 4) (n : Needs) (len q : Nat) :
    (s.issued e p n len).ctx.queue q = s.ctx.queue q := by
  rw [State.ctx_issued]
  cases e <;> rfl

theorem State.loops_issued (s : State) (e f : Eng) (p : BitVec 4) (n : Needs) (len : Nat) :
    ((s.issued e p n len).ctx.eng f).loops = (s.ctx.eng f).loops := by
  rw [State.eng_issued]
  split
  · rename_i h
    subst h
    rfl
  · rfl

@[simp] theorem State.seenLoops_issued (s : State) (e f : Eng) (p : BitVec 4) (n : Needs) (len : Nat) :
    (s.issued e p n len).ctx.seenLoops f = s.ctx.seenLoops f := by
  unfold Ctx.seenLoops
  rw [State.loops_issued, State.ctx_issued]
  cases e <;> rfl

@[simp] theorem State.hiddenLoops_issued (s : State) (e f : Eng) (p : BitVec 4) (n : Needs) (len : Nat) :
    (s.issued e p n len).ctx.hiddenLoops f = s.ctx.hiddenLoops f := by
  unfold Ctx.hiddenLoops
  rw [State.loops_issued, State.ctx_issued]
  cases e <;> rfl

theorem State.core_issued_ne (s : State) (e : Eng) (p : BitVec 4) (n : Needs) (len : Nat) {k : Nat} (h : k ≠ s.cur) :
    (s.issued e p n len).core k = s.core k := by
  unfold State.issued State.take State.countOn State.modCtxOf
  rw [State.core_modCore_ne _ _ (by simpa using h), State.core_modCtx_ne _ _ (by simpa using h), State.core_modCtx_ne _ _ h]

end Sys2Proof.Machine
end

