-- ==== Sys2Proof/Laws/Memory.lean ====
section
/-! SUPPORT. Every operation on memory keeps its canonical form, and reset has it: writes, performed stores, the walker's
marks, the words that pins change, and save slots. -/

namespace Sys2Proof.Machine

theorem Memory.wf_reset : Memory.wf State.reset.mem = true := rfl

/-! ### Writes and performed stores -/

theorem State.writeM_wf {s : State} (h : Memory.wf s.mem = true) (key : Nat) (l : List Byte) : Memory.wf (s.writeM key l).mem = true :=
  SMap.wf_setList l key h

theorem State.writeN_wf {s : State} (h : Memory.wf s.mem = true) (key n v : Nat) : Memory.wf (s.writeN key n v).mem = true :=
  State.writeM_wf h key _

theorem State.perform_wf {s : State} (h : Memory.wf s.mem = true) (t : Store) : Memory.wf (s.perform t).mem = true := by
  unfold State.perform
  split
  · exact h
  · exact State.writeN_wf h _ _ _

theorem State.performOldest_wf {s : State} (h : Memory.wf s.mem = true) (k : Nat) : Memory.wf (s.performOldest k).mem = true := by
  unfold State.performOldest
  dsimp only
  repeat' split
  all_goals first | exact h | exact State.perform_wf (s := s.modCore k _) h _

theorem State.performAll_wf (l : List Store) {s : State} (h : Memory.wf s.mem = true) :
    Memory.wf (l.foldl (fun s t => s.perform t) s).mem = true := by
  induction l generalizing s with
  | nil => exact h
  | cons t r ih => exact ih (State.perform_wf h t)

theorem State.drainOb_wf {s : State} (h : Memory.wf s.mem = true) (k : Nat) : Memory.wf (s.drainOb k).mem = true :=
  State.performAll_wf _ h

/-! ### Translation -/

@[simp] theorem State.cacheNode_mem (s : State) (d part asid level tag : Nat) (e : Word) : (s.cacheNode d part asid level tag e).mem = s.mem := rfl

@[simp] theorem State.modTlb_mem (s : State) (cl : Client) (f : List Tlb → List Tlb) : (s.modTlb cl f).mem = s.mem := by
  cases cl <;> rfl

theorem walkFrom_mem (d part asid va level : Nat) : ∀ (node : Nat) (s : State), (walkFrom d part asid va level node s).2.mem = s.mem := by
  induction level with
  | zero =>
    intro node s
    unfold walkFrom
    dsimp only
    repeat' split
    all_goals rfl
  | succ level ih =>
    intro node s
    unfold walkFrom
    dsimp only
    repeat' split
    all_goals first | rfl | exact ih _ _

/-- A walk reads memory and writes none. -/
theorem State.walk_mem (s : State) (d part asid va : Nat) : (s.walk d part asid va).2.mem = s.mem := by
  unfold State.walk
  dsimp only
  repeat' split
  all_goals first | rfl | exact walkFrom_mem _ _ _ _ _ _ _

theorem State.touchEntry_wf {s : State} (h : Memory.wf s.mem = true) (entry acc : Nat) : Memory.wf (s.touchEntry entry acc).mem = true := by
  unfold State.touchEntry
  split
  · exact State.writeN_wf h _ _ _
  · exact h

theorem State.fill_wf {s : State} (h : Memory.wf s.mem = true) (cl : Client) (part asid va acc : Nat) :
    Memory.wf (s.fill cl part asid va acc).2.mem = true := by
  have walked : ∀ (u : State) (x : WalkRes) (v : State), u.mem = s.mem → u.walk (clientDie cl) part asid va = (x, v) →
      Memory.wf v.mem = true := fun u x v hu he => by
    rw [show v.mem = s.mem from (congrArg (fun r => r.2.mem) he).symm.trans ((State.walk_mem u _ _ _ _).trans hu)]
    exact h
  have counted : (match cl with
    | .coreC k => s.countOn k 0x0B (some .C) 1
    | .coreA k => s.countOn k 0x0B (some .A) 1
    | _ => s).mem = s.mem := by cases cl <;> rfl
  unfold State.fill
  dsimp only
  split
  · exact walked _ _ _ counted ‹_›
  · exact walked _ _ _ counted ‹_›
  · split
    · exact walked _ _ _ counted ‹_›
    · split
      · rw [State.modTlb_mem]
        exact State.touchEntry_wf (walked _ _ _ counted ‹_›) _ _
      · exact walked _ _ _ counted ‹_›

theorem State.miss_wf {s : State} (h : Memory.wf s.mem = true) (cl : Client) (part asid va acc : Nat) :
    Memory.wf (s.miss cl part asid va acc).2.mem = true := by
  unfold State.miss
  split
  · exact State.fill_wf h _ _ _ _ _
  · exact h

theorem State.translate_wf {s : State} (h : Memory.wf s.mem = true) (cl : Client) (part asid va acc : Nat) :
    Memory.wf (s.translate cl part asid va acc).2.mem = true := by
  have rest : ∀ l : List Stalled, Memory.wf (({ s with stalled := l } : State).fill cl part asid va acc).2.mem = true := fun l =>
    State.fill_wf (s := { s with stalled := l }) h _ _ _ _ _
  have miss : Memory.wf (({ s with freeNo := s.freeNo + 1 } : State).miss cl part asid va acc).2.mem = true :=
    State.miss_wf (s := { s with freeNo := s.freeNo + 1 }) h _ _ _ _ _
  unfold State.translate
  split
  · exact h
  · split
    · dsimp only
      split
      · exact h
      · split
        · split
          · exact rest _
          · exact h
        · exact h
    · split
      · split
        · exact h
        · exact miss
      · exact State.miss_wf h _ _ _ _ _

/-! ### Pins and save slots -/

theorem State.addPin_wf {s : State} (h : Memory.wf s.mem = true) (cl : Client) (w : Work) (d va : Nat) :
    Memory.wf (s.addPin cl w d va).mem = true := by
  unfold State.addPin
  have ht := State.translate_wf h cl w.part w.asid (s.redirect w.part w.id none (va + 84)) accWrite
  split
  · rename_i he
    rw [he] at ht
    exact State.writeN_wf ht _ _ _
  · rename_i he
    rw [he] at ht
    exact ht

theorem State.freeBytes_mem (n : Nat) : ∀ s : State, (s.freeBytes n).2.mem = s.mem := by
  induction n with
  | zero => intro s; rfl
  | succ n ih => intro s; exact ih _

theorem State.writeSlot_wf {s : State} (h : Memory.wf s.mem = true) (addr : Nat) (c : Ctx) (sb : List Store) :
    Memory.wf (s.writeSlot addr c sb).mem = true := by
  have free : ∀ (l : List (Nat × Nat)) (s : State), Memory.wf s.mem = true → Memory.wf (l.foldl (fun s x =>
      let r := s.freeBytes x.2
      r.2.writeM (keyOf 1 0 (addr + x.1)) r.1) s).mem = true := by
    intro l
    induction l with
    | nil => exact fun s h => h
    | cons x r ih => exact fun s h => ih _ (State.writeM_wf (by rw [State.freeBytes_mem]; exact h) _ _)
  have pieces : ∀ (l : List (Nat × List Byte)) (s : State), Memory.wf s.mem = true →
      Memory.wf (l.foldl (fun s x => s.writeM (keyOf 1 0 (addr + x.1)) x.2) s).mem = true := by
    intro l
    induction l with
    | nil => exact fun s h => h
    | cons x r ih => exact fun s h => ih _ (State.writeM_wf h _ _)
  exact pieces _ _ (free _ _ h)

end Sys2Proof.Machine
end

