-- ==== Sys2Proof/Laws/PerInstr.lean ====
section
/-! SUPPORT. Decoding undoes encoding, instruction by instruction (family RoundTrip of LAWS.json). -/

namespace Sys2Proof.Laws.RoundTrip

set_option linter.unusedSimpArgs false
set_option linter.unreachableTactic false
set_option linter.unusedTactic false
set_option linter.unnecessarySeqFocus false
set_option Elab.async false

/-- The words of an instruction decode to it; an event has no words. -/
def Statement (i : Instr) : Prop := encode i ≠ [] → decode ((encode i).headD 0) ((encode i).tail.headD 0) = .ok i

theorem engOf_tag (t : Eng) : engOf t.tag = t := by cases t <;> rfl

theorem ex_hi {v w : Nat} (x : BitVec v) (y : BitVec w) (a n : Nat) (h : w ≤ a) :
    (x ++ y).extractLsb' a n = x.extractLsb' (a - w) n := BitVec.extractLsb'_append_eq_of_le h

theorem ex_lo {v w : Nat} (x : BitVec v) (y : BitVec w) (a n : Nat) (h : a + n ≤ w) :
    (x ++ y).extractLsb' a n = y.extractLsb' a n := BitVec.extractLsb'_append_eq_of_add_le h

theorem ex_self {w : Nat} (x : BitVec w) : x.extractLsb' 0 w = x := BitVec.extractLsb'_eq_self

/-- Decoding by the three fields that every first word has. -/
theorem decode_eq {w0 w1 : BitVec 32} {t : Eng} {p : BitVec 4} {m : BitVec 7} (ht : w0.extractLsb' 30 2 = t.tag)
    (hp : w0.extractLsb' 26 4 = p) (hm : w0.extractLsb' 19 7 = m) :
    decode w0 w1 = if m.toNat ≤ 0x3F then decodeShared t p m.toNat w0 w1
      else match t with
        | .C => decodeC p m.toNat w0 w1
        | .A => decodeA p m.toNat w0 w1
        | .X => decodeX p m.toNat w0 w1
        | .F => decodeF p m.toNat w0 w1 := by
  subst hp hm
  simp only [decode, ht, engOf_tag]
  cases t <;> rfl

theorem nop (t p) : Statement (.nop t p) := fun _ => by
  show decode (Eng.tag t ++ p ++ 0x00#7 ++ 0#19) 0 = _
  refine (decode_eq (t := t) (p := p) (m := 0x00#7) ?_ ?_ ?_).trans ?_
  rotate_left 3
  · simp (disch := decide) only [BitVec.reduceToNat, Nat.reduceLeDiff, if_true, decodeShared, zeros, ex_hi, ex_lo, ex_self,
      Nat.reduceSub] <;> rfl
  all_goals simp (disch := decide) only [ex_hi, ex_lo, ex_self, Nat.reduceSub] <;> rfl

theorem done (t p) : Statement (.done t p) := fun _ => by
  show decode (Eng.tag t ++ p ++ 0x01#7 ++ 0#19) 0 = _
  refine (decode_eq (t := t) (p := p) (m := 0x01#7) ?_ ?_ ?_).trans ?_
  rotate_left 3
  · simp (disch := decide) only [BitVec.reduceToNat, Nat.reduceLeDiff, if_true, decodeShared, zeros, ex_hi, ex_lo, ex_self,
      Nat.reduceSub] <;> rfl
  all_goals simp (disch := decide) only [ex_hi, ex_lo, ex_self, Nat.reduceSub] <;> rfl

theorem b (t p off19) : Statement (.b t p off19) := fun _ => by
  show decode (Eng.tag t ++ p ++ 0x02#7 ++ off19) 0 = _
  refine (decode_eq (t := t) (p := p) (m := 0x02#7) ?_ ?_ ?_).trans ?_
  rotate_left 3
  · simp (disch := decide) only [BitVec.reduceToNat, Nat.reduceLeDiff, if_true, decodeShared, zeros, ex_hi, ex_lo, ex_self,
      Nat.reduceSub] <;> rfl
  all_goals simp (disch := decide) only [ex_hi, ex_lo, ex_self, Nat.reduceSub] <;> rfl

theorem call (t p off19) : Statement (.call t p off19) := fun _ => by
  show decode (Eng.tag t ++ p ++ 0x03#7 ++ off19) 0 = _
  refine (decode_eq (t := t) (p := p) (m := 0x03#7) ?_ ?_ ?_).trans ?_
  rotate_left 3
  · simp (disch := decide) only [BitVec.reduceToNat, Nat.reduceLeDiff, if_true, decodeShared, zeros, ex_hi, ex_lo, ex_self,
      Nat.reduceSub] <;> rfl
  all_goals simp (disch := decide) only [ex_hi, ex_lo, ex_self, Nat.reduceSub] <;> rfl

theorem ret (t p) : Statement (.ret t p) := fun _ => by
  show decode (Eng.tag t ++ p ++ 0x04#7 ++ 0#19) 0 = _
  refine (decode_eq (t := t) (p := p) (m := 0x04#7) ?_ ?_ ?_).trans ?_
  rotate_left 3
  · simp (disch := decide) only [BitVec.reduceToNat, Nat.reduceLeDiff, if_true, decodeShared, zeros, ex_hi, ex_lo, ex_self,
      Nat.reduceSub] <;> rfl
  all_goals simp (disch := decide) only [ex_hi, ex_lo, ex_self, Nat.reduceSub] <;> rfl

theorem btk (t p q imm14) : Statement (.btk t p q imm14) := fun _ => by
  show decode (Eng.tag t ++ p ++ 0x05#7 ++ q ++ imm14) 0 = _
  refine (decode_eq (t := t) (p := p) (m := 0x05#7) ?_ ?_ ?_).trans ?_
  rotate_left 3
  · simp (disch := decide) only [BitVec.reduceToNat, Nat.reduceLeDiff, if_true, decodeShared, zeros, ex_hi, ex_lo, ex_self,
      Nat.reduceSub] <;> rfl
  all_goals simp (disch := decide) only [ex_hi, ex_lo, ex_self, Nat.reduceSub] <;> rfl

theorem brkl (t p) : Statement (.brkl t p) := fun _ => by
  show decode (Eng.tag t ++ p ++ 0x06#7 ++ 0#19) 0 = _
  refine (decode_eq (t := t) (p := p) (m := 0x06#7) ?_ ?_ ?_).trans ?_
  rotate_left 3
  · simp (disch := decide) only [BitVec.reduceToNat, Nat.reduceLeDiff, if_true, decodeShared, zeros, ex_hi, ex_lo, ex_self,
      Nat.reduceSub] <;> rfl
  all_goals simp (disch := decide) only [ex_hi, ex_lo, ex_self, Nat.reduceSub] <;> rfl

theorem beq (t p gx gy imm9) : Statement (.beq t p gx gy imm9) := fun _ => by
  show decode (Eng.tag t ++ p ++ 0x08#7 ++ gx ++ gy ++ imm9) 0 = _
  refine (decode_eq (t := t) (p := p) (m := 0x08#7) ?_ ?_ ?_).trans ?_
  rotate_left 3
  · simp (disch := decide) only [BitVec.reduceToNat, Nat.reduceLeDiff, if_true, decodeShared, zeros, ex_hi, ex_lo, ex_self,
      Nat.reduceSub] <;> rfl
  all_goals simp (disch := decide) only [ex_hi, ex_lo, ex_self, Nat.reduceSub] <;> rfl

theorem bne (t p gx gy imm9) : Statement (.bne t p gx gy imm9) := fun _ => by
  show decode (Eng.tag t ++ p ++ 0x09#7 ++ gx ++ gy ++ imm9) 0 = _
  refine (decode_eq (t := t) (p := p) (m := 0x09#7) ?_ ?_ ?_).trans ?_
  rotate_left 3
  · simp (disch := decide) only [BitVec.reduceToNat, Nat.reduceLeDiff, if_true, decodeShared, zeros, ex_hi, ex_lo, ex_self,
      Nat.reduceSub] <;> rfl
  all_goals simp (disch := decide) only [ex_hi, ex_lo, ex_self, Nat.reduceSub] <;> rfl

theorem blt (t p gx gy imm9) : Statement (.blt t p gx gy imm9) := fun _ => by
  show decode (Eng.tag t ++ p ++ 0x0a#7 ++ gx ++ gy ++ imm9) 0 = _
  refine (decode_eq (t := t) (p := p) (m := 0x0a#7) ?_ ?_ ?_).trans ?_
  rotate_left 3
  · simp (disch := decide) only [BitVec.reduceToNat, Nat.reduceLeDiff, if_true, decodeShared, zeros, ex_hi, ex_lo, ex_self,
      Nat.reduceSub] <;> rfl
  all_goals simp (disch := decide) only [ex_hi, ex_lo, ex_self, Nat.reduceSub] <;> rfl

theorem bge (t p gx gy imm9) : Statement (.bge t p gx gy imm9) := fun _ => by
  show decode (Eng.tag t ++ p ++ 0x0b#7 ++ gx ++ gy ++ imm9) 0 = _
  refine (decode_eq (t := t) (p := p) (m := 0x0b#7) ?_ ?_ ?_).trans ?_
  rotate_left 3
  · simp (disch := decide) only [BitVec.reduceToNat, Nat.reduceLeDiff, if_true, decodeShared, zeros, ex_hi, ex_lo, ex_self,
      Nat.reduceSub] <;> rfl
  all_goals simp (disch := decide) only [ex_hi, ex_lo, ex_self, Nat.reduceSub] <;> rfl

theorem blo (t p gx gy imm9) : Statement (.blo t p gx gy imm9) := fun _ => by
  show decode (Eng.tag t ++ p ++ 0x0c#7 ++ gx ++ gy ++ imm9) 0 = _
  refine (decode_eq (t := t) (p := p) (m := 0x0c#7) ?_ ?_ ?_).trans ?_
  rotate_left 3
  · simp (disch := decide) only [BitVec.reduceToNat, Nat.reduceLeDiff, if_true, decodeShared, zeros, ex_hi, ex_lo, ex_self,
      Nat.reduceSub] <;> rfl
  all_goals simp (disch := decide) only [ex_hi, ex_lo, ex_self, Nat.reduceSub] <;> rfl

theorem bhs (t p gx gy imm9) : Statement (.bhs t p gx gy imm9) := fun _ => by
  show decode (Eng.tag t ++ p ++ 0x0d#7 ++ gx ++ gy ++ imm9) 0 = _
  refine (decode_eq (t := t) (p := p) (m := 0x0d#7) ?_ ?_ ?_).trans ?_
  rotate_left 3
  · simp (disch := decide) only [BitVec.reduceToNat, Nat.reduceLeDiff, if_true, decodeShared, zeros, ex_hi, ex_lo, ex_self,
      Nat.reduceSub] <;> rfl
  all_goals simp (disch := decide) only [ex_hi, ex_lo, ex_self, Nat.reduceSub] <;> rfl

theorem loop (t p ga imm9) : Statement (.loop t p ga imm9) := fun _ => by
  show decode (Eng.tag t ++ p ++ 0x0e#7 ++ 0#5 ++ ga ++ imm9) 0 = _
  refine (decode_eq (t := t) (p := p) (m := 0x0e#7) ?_ ?_ ?_).trans ?_
  rotate_left 3
  · simp (disch := decide) only [BitVec.reduceToNat, Nat.reduceLeDiff, if_true, decodeShared, zeros, ex_hi, ex_lo, ex_self,
      Nat.reduceSub] <;> rfl
  all_goals simp (disch := decide) only [ex_hi, ex_lo, ex_self, Nat.reduceSub] <;> rfl

theorem loopi (t p n imm9) : Statement (.loopi t p n imm9) := fun _ => by
  show decode (Eng.tag t ++ p ++ 0x0f#7 ++ n ++ imm9) 0 = _
  refine (decode_eq (t := t) (p := p) (m := 0x0f#7) ?_ ?_ ?_).trans ?_
  rotate_left 3
  · simp (disch := decide) only [BitVec.reduceToNat, Nat.reduceLeDiff, if_true, decodeShared, zeros, ex_hi, ex_lo, ex_self,
      Nat.reduceSub] <;> rfl
  all_goals simp (disch := decide) only [ex_hi, ex_lo, ex_self, Nat.reduceSub] <;> rfl

theorem add (t p gd ga gb) : Statement (.add t p gd ga gb) := fun _ => by
  show decode (Eng.tag t ++ p ++ 0x10#7 ++ gd ++ ga ++ gb ++ 0#4) 0 = _
  refine (decode_eq (t := t) (p := p) (m := 0x10#7) ?_ ?_ ?_).trans ?_
  rotate_left 3
  · have h : (Eng.tag t ++ p ++ 0x10#7 ++ gd ++ ga ++ gb ++ 0#4).extractLsb' 0 4 = 0#4 := by
      simp (disch := decide) only [ex_hi, ex_lo, ex_self, Nat.reduceSub]
    simp only [BitVec.reduceToNat, Nat.reduceLeDiff, if_true, if_false, decodeShared, h, BitVec.reduceEq]
    simp (disch := decide) only [zeros, ex_hi, ex_lo, ex_self, Nat.reduceSub] <;> rfl
  all_goals simp (disch := decide) only [ex_hi, ex_lo, ex_self, Nat.reduceSub] <;> rfl

theorem sub (t p gd ga gb) : Statement (.sub t p gd ga gb) := fun _ => by
  show decode (Eng.tag t ++ p ++ 0x10#7 ++ gd ++ ga ++ gb ++ 1#4) 0 = _
  refine (decode_eq (t := t) (p := p) (m := 0x10#7) ?_ ?_ ?_).trans ?_
  rotate_left 3
  · have h : (Eng.tag t ++ p ++ 0x10#7 ++ gd ++ ga ++ gb ++ 1#4).extractLsb' 0 4 = 1#4 := by
      simp (disch := decide) only [ex_hi, ex_lo, ex_self, Nat.reduceSub]
    simp only [BitVec.reduceToNat, Nat.reduceLeDiff, if_true, if_false, decodeShared, h, BitVec.reduceEq]
    simp (disch := decide) only [zeros, ex_hi, ex_lo, ex_self, Nat.reduceSub] <;> rfl
  all_goals simp (disch := decide) only [ex_hi, ex_lo, ex_self, Nat.reduceSub] <;> rfl

theorem mul (t p gd ga gb) : Statement (.mul t p gd ga gb) := fun _ => by
  show decode (Eng.tag t ++ p ++ 0x10#7 ++ gd ++ ga ++ gb ++ 2#4) 0 = _
  refine (decode_eq (t := t) (p := p) (m := 0x10#7) ?_ ?_ ?_).trans ?_
  rotate_left 3
  · have h : (Eng.tag t ++ p ++ 0x10#7 ++ gd ++ ga ++ gb ++ 2#4).extractLsb' 0 4 = 2#4 := by
      simp (disch := decide) only [ex_hi, ex_lo, ex_self, Nat.reduceSub]
    simp only [BitVec.reduceToNat, Nat.reduceLeDiff, if_true, if_false, decodeShared, h, BitVec.reduceEq]
    simp (disch := decide) only [zeros, ex_hi, ex_lo, ex_self, Nat.reduceSub] <;> rfl
  all_goals simp (disch := decide) only [ex_hi, ex_lo, ex_self, Nat.reduceSub] <;> rfl

theorem mulh (t p gd ga gb) : Statement (.mulh t p gd ga gb) := fun _ => by
  show decode (Eng.tag t ++ p ++ 0x10#7 ++ gd ++ ga ++ gb ++ 3#4) 0 = _
  refine (decode_eq (t := t) (p := p) (m := 0x10#7) ?_ ?_ ?_).trans ?_
  rotate_left 3
  · have h : (Eng.tag t ++ p ++ 0x10#7 ++ gd ++ ga ++ gb ++ 3#4).extractLsb' 0 4 = 3#4 := by
      simp (disch := decide) only [ex_hi, ex_lo, ex_self, Nat.reduceSub]
    simp only [BitVec.reduceToNat, Nat.reduceLeDiff, if_true, if_false, decodeShared, h, BitVec.reduceEq]
    simp (disch := decide) only [zeros, ex_hi, ex_lo, ex_self, Nat.reduceSub] <;> rfl
  all_goals simp (disch := decide) only [ex_hi, ex_lo, ex_self, Nat.reduceSub] <;> rfl

theorem andg (t p gd ga gb) : Statement (.andg t p gd ga gb) := fun _ => by
  show decode (Eng.tag t ++ p ++ 0x10#7 ++ gd ++ ga ++ gb ++ 4#4) 0 = _
  refine (decode_eq (t := t) (p := p) (m := 0x10#7) ?_ ?_ ?_).trans ?_
  rotate_left 3
  · have h : (Eng.tag t ++ p ++ 0x10#7 ++ gd ++ ga ++ gb ++ 4#4).extractLsb' 0 4 = 4#4 := by
      simp (disch := decide) only [ex_hi, ex_lo, ex_self, Nat.reduceSub]
    simp only [BitVec.reduceToNat, Nat.reduceLeDiff, if_true, if_false, decodeShared, h, BitVec.reduceEq]
    simp (disch := decide) only [zeros, ex_hi, ex_lo, ex_self, Nat.reduceSub] <;> rfl
  all_goals simp (disch := decide) only [ex_hi, ex_lo, ex_self, Nat.reduceSub] <;> rfl

theorem org (t p gd ga gb) : Statement (.org t p gd ga gb) := fun _ => by
  show decode (Eng.tag t ++ p ++ 0x10#7 ++ gd ++ ga ++ gb ++ 5#4) 0 = _
  refine (decode_eq (t := t) (p := p) (m := 0x10#7) ?_ ?_ ?_).trans ?_
  rotate_left 3
  · have h : (Eng.tag t ++ p ++ 0x10#7 ++ gd ++ ga ++ gb ++ 5#4).extractLsb' 0 4 = 5#4 := by
      simp (disch := decide) only [ex_hi, ex_lo, ex_self, Nat.reduceSub]
    simp only [BitVec.reduceToNat, Nat.reduceLeDiff, if_true, if_false, decodeShared, h, BitVec.reduceEq]
    simp (disch := decide) only [zeros, ex_hi, ex_lo, ex_self, Nat.reduceSub] <;> rfl
  all_goals simp (disch := decide) only [ex_hi, ex_lo, ex_self, Nat.reduceSub] <;> rfl

theorem xorg (t p gd ga gb) : Statement (.xorg t p gd ga gb) := fun _ => by
  show decode (Eng.tag t ++ p ++ 0x10#7 ++ gd ++ ga ++ gb ++ 6#4) 0 = _
  refine (decode_eq (t := t) (p := p) (m := 0x10#7) ?_ ?_ ?_).trans ?_
  rotate_left 3
  · have h : (Eng.tag t ++ p ++ 0x10#7 ++ gd ++ ga ++ gb ++ 6#4).extractLsb' 0 4 = 6#4 := by
      simp (disch := decide) only [ex_hi, ex_lo, ex_self, Nat.reduceSub]
    simp only [BitVec.reduceToNat, Nat.reduceLeDiff, if_true, if_false, decodeShared, h, BitVec.reduceEq]
    simp (disch := decide) only [zeros, ex_hi, ex_lo, ex_self, Nat.reduceSub] <;> rfl
  all_goals simp (disch := decide) only [ex_hi, ex_lo, ex_self, Nat.reduceSub] <;> rfl

theorem shl (t p gd ga gb) : Statement (.shl t p gd ga gb) := fun _ => by
  show decode (Eng.tag t ++ p ++ 0x10#7 ++ gd ++ ga ++ gb ++ 7#4) 0 = _
  refine (decode_eq (t := t) (p := p) (m := 0x10#7) ?_ ?_ ?_).trans ?_
  rotate_left 3
  · have h : (Eng.tag t ++ p ++ 0x10#7 ++ gd ++ ga ++ gb ++ 7#4).extractLsb' 0 4 = 7#4 := by
      simp (disch := decide) only [ex_hi, ex_lo, ex_self, Nat.reduceSub]
    simp only [BitVec.reduceToNat, Nat.reduceLeDiff, if_true, if_false, decodeShared, h, BitVec.reduceEq]
    simp (disch := decide) only [zeros, ex_hi, ex_lo, ex_self, Nat.reduceSub] <;> rfl
  all_goals simp (disch := decide) only [ex_hi, ex_lo, ex_self, Nat.reduceSub] <;> rfl

theorem shr (t p gd ga gb) : Statement (.shr t p gd ga gb) := fun _ => by
  show decode (Eng.tag t ++ p ++ 0x10#7 ++ gd ++ ga ++ gb ++ 8#4) 0 = _
  refine (decode_eq (t := t) (p := p) (m := 0x10#7) ?_ ?_ ?_).trans ?_
  rotate_left 3
  · have h : (Eng.tag t ++ p ++ 0x10#7 ++ gd ++ ga ++ gb ++ 8#4).extractLsb' 0 4 = 8#4 := by
      simp (disch := decide) only [ex_hi, ex_lo, ex_self, Nat.reduceSub]
    simp only [BitVec.reduceToNat, Nat.reduceLeDiff, if_true, if_false, decodeShared, h, BitVec.reduceEq]
    simp (disch := decide) only [zeros, ex_hi, ex_lo, ex_self, Nat.reduceSub] <;> rfl
  all_goals simp (disch := decide) only [ex_hi, ex_lo, ex_self, Nat.reduceSub] <;> rfl

theorem sra (t p gd ga gb) : Statement (.sra t p gd ga gb) := fun _ => by
  show decode (Eng.tag t ++ p ++ 0x10#7 ++ gd ++ ga ++ gb ++ 9#4) 0 = _
  refine (decode_eq (t := t) (p := p) (m := 0x10#7) ?_ ?_ ?_).trans ?_
  rotate_left 3
  · have h : (Eng.tag t ++ p ++ 0x10#7 ++ gd ++ ga ++ gb ++ 9#4).extractLsb' 0 4 = 9#4 := by
      simp (disch := decide) only [ex_hi, ex_lo, ex_self, Nat.reduceSub]
    simp only [BitVec.reduceToNat, Nat.reduceLeDiff, if_true, if_false, decodeShared, h, BitVec.reduceEq]
    simp (disch := decide) only [zeros, ex_hi, ex_lo, ex_self, Nat.reduceSub] <;> rfl
  all_goals simp (disch := decide) only [ex_hi, ex_lo, ex_self, Nat.reduceSub] <;> rfl

theorem slt (t p gd ga gb) : Statement (.slt t p gd ga gb) := fun _ => by
  show decode (Eng.tag t ++ p ++ 0x10#7 ++ gd ++ ga ++ gb ++ 10#4) 0 = _
  refine (decode_eq (t := t) (p := p) (m := 0x10#7) ?_ ?_ ?_).trans ?_
  rotate_left 3
  · have h : (Eng.tag t ++ p ++ 0x10#7 ++ gd ++ ga ++ gb ++ 10#4).extractLsb' 0 4 = 10#4 := by
      simp (disch := decide) only [ex_hi, ex_lo, ex_self, Nat.reduceSub]
    simp only [BitVec.reduceToNat, Nat.reduceLeDiff, if_true, if_false, decodeShared, h, BitVec.reduceEq]
    simp (disch := decide) only [zeros, ex_hi, ex_lo, ex_self, Nat.reduceSub] <;> rfl
  all_goals simp (disch := decide) only [ex_hi, ex_lo, ex_self, Nat.reduceSub] <;> rfl

theorem sltn (t p gd ga gb) : Statement (.sltn t p gd ga gb) := fun _ => by
  show decode (Eng.tag t ++ p ++ 0x10#7 ++ gd ++ ga ++ gb ++ 11#4) 0 = _
  refine (decode_eq (t := t) (p := p) (m := 0x10#7) ?_ ?_ ?_).trans ?_
  rotate_left 3
  · have h : (Eng.tag t ++ p ++ 0x10#7 ++ gd ++ ga ++ gb ++ 11#4).extractLsb' 0 4 = 11#4 := by
      simp (disch := decide) only [ex_hi, ex_lo, ex_self, Nat.reduceSub]
    simp only [BitVec.reduceToNat, Nat.reduceLeDiff, if_true, if_false, decodeShared, h, BitVec.reduceEq]
    simp (disch := decide) only [zeros, ex_hi, ex_lo, ex_self, Nat.reduceSub] <;> rfl
  all_goals simp (disch := decide) only [ex_hi, ex_lo, ex_self, Nat.reduceSub] <;> rfl

theorem min (t p gd ga gb) : Statement (.min t p gd ga gb) := fun _ => by
  show decode (Eng.tag t ++ p ++ 0x10#7 ++ gd ++ ga ++ gb ++ 12#4) 0 = _
  refine (decode_eq (t := t) (p := p) (m := 0x10#7) ?_ ?_ ?_).trans ?_
  rotate_left 3
  · have h : (Eng.tag t ++ p ++ 0x10#7 ++ gd ++ ga ++ gb ++ 12#4).extractLsb' 0 4 = 12#4 := by
      simp (disch := decide) only [ex_hi, ex_lo, ex_self, Nat.reduceSub]
    simp only [BitVec.reduceToNat, Nat.reduceLeDiff, if_true, if_false, decodeShared, h, BitVec.reduceEq]
    simp (disch := decide) only [zeros, ex_hi, ex_lo, ex_self, Nat.reduceSub] <;> rfl
  all_goals simp (disch := decide) only [ex_hi, ex_lo, ex_self, Nat.reduceSub] <;> rfl

theorem max (t p gd ga gb) : Statement (.max t p gd ga gb) := fun _ => by
  show decode (Eng.tag t ++ p ++ 0x10#7 ++ gd ++ ga ++ gb ++ 13#4) 0 = _
  refine (decode_eq (t := t) (p := p) (m := 0x10#7) ?_ ?_ ?_).trans ?_
  rotate_left 3
  · have h : (Eng.tag t ++ p ++ 0x10#7 ++ gd ++ ga ++ gb ++ 13#4).extractLsb' 0 4 = 13#4 := by
      simp (disch := decide) only [ex_hi, ex_lo, ex_self, Nat.reduceSub]
    simp only [BitVec.reduceToNat, Nat.reduceLeDiff, if_true, if_false, decodeShared, h, BitVec.reduceEq]
    simp (disch := decide) only [zeros, ex_hi, ex_lo, ex_self, Nat.reduceSub] <;> rfl
  all_goals simp (disch := decide) only [ex_hi, ex_lo, ex_self, Nat.reduceSub] <;> rfl

theorem mov (t p gd ga) : Statement (.mov t p gd ga) := fun _ => by
  show decode (Eng.tag t ++ p ++ 0x10#7 ++ gd ++ ga ++ 0#5 ++ 14#4) 0 = _
  refine (decode_eq (t := t) (p := p) (m := 0x10#7) ?_ ?_ ?_).trans ?_
  rotate_left 3
  · have h : (Eng.tag t ++ p ++ 0x10#7 ++ gd ++ ga ++ 0#5 ++ 14#4).extractLsb' 0 4 = 14#4 := by
      simp (disch := decide) only [ex_hi, ex_lo, ex_self, Nat.reduceSub]
    simp only [BitVec.reduceToNat, Nat.reduceLeDiff, if_true, if_false, decodeShared, h, BitVec.reduceEq]
    simp (disch := decide) only [zeros, ex_hi, ex_lo, ex_self, Nat.reduceSub] <;> rfl
  all_goals simp (disch := decide) only [ex_hi, ex_lo, ex_self, Nat.reduceSub] <;> rfl

theorem addi (t p gd ga imm9) : Statement (.addi t p gd ga imm9) := fun _ => by
  show decode (Eng.tag t ++ p ++ 0x11#7 ++ gd ++ ga ++ imm9) 0 = _
  refine (decode_eq (t := t) (p := p) (m := 0x11#7) ?_ ?_ ?_).trans ?_
  rotate_left 3
  · simp (disch := decide) only [BitVec.reduceToNat, Nat.reduceLeDiff, if_true, decodeShared, zeros, ex_hi, ex_lo, ex_self,
      Nat.reduceSub] <;> rfl
  all_goals simp (disch := decide) only [ex_hi, ex_lo, ex_self, Nat.reduceSub] <;> rfl

theorem andi (t p gd ga imm9) : Statement (.andi t p gd ga imm9) := fun _ => by
  show decode (Eng.tag t ++ p ++ 0x12#7 ++ gd ++ ga ++ imm9) 0 = _
  refine (decode_eq (t := t) (p := p) (m := 0x12#7) ?_ ?_ ?_).trans ?_
  rotate_left 3
  · simp (disch := decide) only [BitVec.reduceToNat, Nat.reduceLeDiff, if_true, decodeShared, zeros, ex_hi, ex_lo, ex_self,
      Nat.reduceSub] <;> rfl
  all_goals simp (disch := decide) only [ex_hi, ex_lo, ex_self, Nat.reduceSub] <;> rfl

theorem ori (t p gd ga imm9) : Statement (.ori t p gd ga imm9) := fun _ => by
  show decode (Eng.tag t ++ p ++ 0x13#7 ++ gd ++ ga ++ imm9) 0 = _
  refine (decode_eq (t := t) (p := p) (m := 0x13#7) ?_ ?_ ?_).trans ?_
  rotate_left 3
  · simp (disch := decide) only [BitVec.reduceToNat, Nat.reduceLeDiff, if_true, decodeShared, zeros, ex_hi, ex_lo, ex_self,
      Nat.reduceSub] <;> rfl
  all_goals simp (disch := decide) only [ex_hi, ex_lo, ex_self, Nat.reduceSub] <;> rfl

theorem xori (t p gd ga imm9) : Statement (.xori t p gd ga imm9) := fun _ => by
  show decode (Eng.tag t ++ p ++ 0x14#7 ++ gd ++ ga ++ imm9) 0 = _
  refine (decode_eq (t := t) (p := p) (m := 0x14#7) ?_ ?_ ?_).trans ?_
  rotate_left 3
  · simp (disch := decide) only [BitVec.reduceToNat, Nat.reduceLeDiff, if_true, decodeShared, zeros, ex_hi, ex_lo, ex_self,
      Nat.reduceSub] <;> rfl
  all_goals simp (disch := decide) only [ex_hi, ex_lo, ex_self, Nat.reduceSub] <;> rfl

theorem shli (t p gd ga sh) : Statement (.shli t p gd ga sh) := fun _ => by
  show decode (Eng.tag t ++ p ++ 0x15#7 ++ gd ++ ga ++ 0#3 ++ sh) 0 = _
  refine (decode_eq (t := t) (p := p) (m := 0x15#7) ?_ ?_ ?_).trans ?_
  rotate_left 3
  · simp (disch := decide) only [BitVec.reduceToNat, Nat.reduceLeDiff, if_true, decodeShared, zeros, ex_hi, ex_lo, ex_self,
      Nat.reduceSub] <;> rfl
  all_goals simp (disch := decide) only [ex_hi, ex_lo, ex_self, Nat.reduceSub] <;> rfl

theorem shri (t p gd ga sh) : Statement (.shri t p gd ga sh) := fun _ => by
  show decode (Eng.tag t ++ p ++ 0x16#7 ++ gd ++ ga ++ 0#3 ++ sh) 0 = _
  refine (decode_eq (t := t) (p := p) (m := 0x16#7) ?_ ?_ ?_).trans ?_
  rotate_left 3
  · simp (disch := decide) only [BitVec.reduceToNat, Nat.reduceLeDiff, if_true, decodeShared, zeros, ex_hi, ex_lo, ex_self,
      Nat.reduceSub] <;> rfl
  all_goals simp (disch := decide) only [ex_hi, ex_lo, ex_self, Nat.reduceSub] <;> rfl

theorem srai (t p gd ga sh) : Statement (.srai t p gd ga sh) := fun _ => by
  show decode (Eng.tag t ++ p ++ 0x17#7 ++ gd ++ ga ++ 0#3 ++ sh) 0 = _
  refine (decode_eq (t := t) (p := p) (m := 0x17#7) ?_ ?_ ?_).trans ?_
  rotate_left 3
  · simp (disch := decide) only [BitVec.reduceToNat, Nat.reduceLeDiff, if_true, decodeShared, zeros, ex_hi, ex_lo, ex_self,
      Nat.reduceSub] <;> rfl
  all_goals simp (disch := decide) only [ex_hi, ex_lo, ex_self, Nat.reduceSub] <;> rfl

theorem spl (t p gd imm14) : Statement (.spl t p gd imm14) := fun _ => by
  show decode (Eng.tag t ++ p ++ 0x18#7 ++ gd ++ imm14) 0 = _
  refine (decode_eq (t := t) (p := p) (m := 0x18#7) ?_ ?_ ?_).trans ?_
  rotate_left 3
  · simp (disch := decide) only [BitVec.reduceToNat, Nat.reduceLeDiff, if_true, decodeShared, zeros, ex_hi, ex_lo, ex_self,
      Nat.reduceSub] <;> rfl
  all_goals simp (disch := decide) only [ex_hi, ex_lo, ex_self, Nat.reduceSub] <;> rfl

theorem sps (t p gd imm14) : Statement (.sps t p gd imm14) := fun _ => by
  show decode (Eng.tag t ++ p ++ 0x19#7 ++ gd ++ imm14) 0 = _
  refine (decode_eq (t := t) (p := p) (m := 0x19#7) ?_ ?_ ?_).trans ?_
  rotate_left 3
  · simp (disch := decide) only [BitVec.reduceToNat, Nat.reduceLeDiff, if_true, decodeShared, zeros, ex_hi, ex_lo, ex_self,
      Nat.reduceSub] <;> rfl
  all_goals simp (disch := decide) only [ex_hi, ex_lo, ex_self, Nat.reduceSub] <;> rfl

theorem svra (t p n imm14) : Statement (.svra t p n imm14) := fun _ => by
  show decode (Eng.tag t ++ p ++ 0x1a#7 ++ n ++ imm14) 0 = _
  refine (decode_eq (t := t) (p := p) (m := 0x1a#7) ?_ ?_ ?_).trans ?_
  rotate_left 3
  · simp (disch := decide) only [BitVec.reduceToNat, Nat.reduceLeDiff, if_true, decodeShared, zeros, ex_hi, ex_lo, ex_self,
      Nat.reduceSub] <;> rfl
  all_goals simp (disch := decide) only [ex_hi, ex_lo, ex_self, Nat.reduceSub] <;> rfl

theorem ldra (t p n imm14) : Statement (.ldra t p n imm14) := fun _ => by
  show decode (Eng.tag t ++ p ++ 0x1b#7 ++ n ++ imm14) 0 = _
  refine (decode_eq (t := t) (p := p) (m := 0x1b#7) ?_ ?_ ?_).trans ?_
  rotate_left 3
  · simp (disch := decide) only [BitVec.reduceToNat, Nat.reduceLeDiff, if_true, decodeShared, zeros, ex_hi, ex_lo, ex_self,
      Nat.reduceSub] <;> rfl
  all_goals simp (disch := decide) only [ex_hi, ex_lo, ex_self, Nat.reduceSub] <;> rfl

theorem waitt (t p f n) : Statement (.waitt t p f n) := fun _ => by
  show decode (Eng.tag t ++ p ++ 0x1c#7 ++ f ++ 0#8 ++ n) 0 = _
  refine (decode_eq (t := t) (p := p) (m := 0x1c#7) ?_ ?_ ?_).trans ?_
  rotate_left 3
  · simp (disch := decide) only [BitVec.reduceToNat, Nat.reduceLeDiff, if_true, decodeShared, zeros, ex_hi, ex_lo, ex_self,
      Nat.reduceSub] <;> rfl
  all_goals simp (disch := decide) only [ex_hi, ex_lo, ex_self, Nat.reduceSub] <;> rfl

theorem sigt (t p f n) : Statement (.sigt t p f n) := fun _ => by
  show decode (Eng.tag t ++ p ++ 0x1d#7 ++ f ++ 0#8 ++ n) 0 = _
  refine (decode_eq (t := t) (p := p) (m := 0x1d#7) ?_ ?_ ?_).trans ?_
  rotate_left 3
  · simp (disch := decide) only [BitVec.reduceToNat, Nat.reduceLeDiff, if_true, decodeShared, zeros, ex_hi, ex_lo, ex_self,
      Nat.reduceSub] <;> rfl
  all_goals simp (disch := decide) only [ex_hi, ex_lo, ex_self, Nat.reduceSub] <;> rfl

theorem qdrop (t p q imm14) : Statement (.qdrop t p q imm14) := fun _ => by
  show decode (Eng.tag t ++ p ++ 0x1e#7 ++ q ++ imm14) 0 = _
  refine (decode_eq (t := t) (p := p) (m := 0x1e#7) ?_ ?_ ?_).trans ?_
  rotate_left 3
  · simp (disch := decide) only [BitVec.reduceToNat, Nat.reduceLeDiff, if_true, decodeShared, zeros, ex_hi, ex_lo, ex_self,
      Nat.reduceSub] <;> rfl
  all_goals simp (disch := decide) only [ex_hi, ex_lo, ex_self, Nat.reduceSub] <;> rfl

theorem li (t p gd immh imml) : Statement (.li t p gd immh imml) := fun _ => by
  show decode (Eng.tag t ++ p ++ 0x3e#7 ++ gd ++ immh) (imml) = _
  refine (decode_eq (t := t) (p := p) (m := 0x3e#7) ?_ ?_ ?_).trans ?_
  rotate_left 3
  · simp (disch := decide) only [BitVec.reduceToNat, Nat.reduceLeDiff, if_true, decodeShared, zeros, ex_hi, ex_lo, ex_self,
      Nat.reduceSub] <;> rfl
  all_goals simp (disch := decide) only [ex_hi, ex_lo, ex_self, Nat.reduceSub] <;> rfl

theorem csrr (p gd csr) : Statement (.csrr p gd csr) := fun _ => by
  show decode (0b00#2 ++ p ++ 0x40#7 ++ gd ++ csr) 0 = _
  refine (decode_eq (t := .C) (p := p) (m := 0x40#7) ?_ ?_ ?_).trans ?_
  rotate_left 3
  · simp (disch := decide) only [BitVec.reduceToNat, Nat.reduceLeDiff, if_false, decodeC, zeros, ex_hi, ex_lo, ex_self,
      Nat.reduceSub] <;> rfl
  all_goals simp (disch := decide) only [ex_hi, ex_lo, ex_self, Nat.reduceSub] <;> rfl

theorem csrw (p gd csr) : Statement (.csrw p gd csr) := fun _ => by
  show decode (0b00#2 ++ p ++ 0x41#7 ++ gd ++ csr) 0 = _
  refine (decode_eq (t := .C) (p := p) (m := 0x41#7) ?_ ?_ ?_).trans ?_
  rotate_left 3
  · simp (disch := decide) only [BitVec.reduceToNat, Nat.reduceLeDiff, if_false, decodeC, zeros, ex_hi, ex_lo, ex_self,
      Nat.reduceSub] <;> rfl
  all_goals simp (disch := decide) only [ex_hi, ex_lo, ex_self, Nat.reduceSub] <;> rfl

theorem csrs (p gd csr) : Statement (.csrs p gd csr) := fun _ => by
  show decode (0b00#2 ++ p ++ 0x42#7 ++ gd ++ csr) 0 = _
  refine (decode_eq (t := .C) (p := p) (m := 0x42#7) ?_ ?_ ?_).trans ?_
  rotate_left 3
  · simp (disch := decide) only [BitVec.reduceToNat, Nat.reduceLeDiff, if_false, decodeC, zeros, ex_hi, ex_lo, ex_self,
      Nat.reduceSub] <;> rfl
  all_goals simp (disch := decide) only [ex_hi, ex_lo, ex_self, Nat.reduceSub] <;> rfl

theorem csrc (p gd csr) : Statement (.csrc p gd csr) := fun _ => by
  show decode (0b00#2 ++ p ++ 0x43#7 ++ gd ++ csr) 0 = _
  refine (decode_eq (t := .C) (p := p) (m := 0x43#7) ?_ ?_ ?_).trans ?_
  rotate_left 3
  · simp (disch := decide) only [BitVec.reduceToNat, Nat.reduceLeDiff, if_false, decodeC, zeros, ex_hi, ex_lo, ex_self,
      Nat.reduceSub] <;> rfl
  all_goals simp (disch := decide) only [ex_hi, ex_lo, ex_self, Nat.reduceSub] <;> rfl

theorem amoaddAcq (p gd ga gb w32) : Statement (.amoaddAcq p gd ga gb w32) := fun _ => by
  show decode (0b00#2 ++ p ++ 0x44#7 ++ gd ++ ga ++ gb ++ w32 ++ 0#3) 0 = _
  refine (decode_eq (t := .C) (p := p) (m := 0x44#7) ?_ ?_ ?_).trans ?_
  rotate_left 3
  · have h : (0b00#2 ++ p ++ 0x44#7 ++ gd ++ ga ++ gb ++ w32 ++ 0#3).extractLsb' 0 3 = 0#3 := by
      simp (disch := decide) only [ex_hi, ex_lo, ex_self, Nat.reduceSub]
    simp only [BitVec.reduceToNat, Nat.reduceLeDiff, if_true, if_false, decodeC, h, BitVec.reduceEq]
    simp (disch := decide) only [zeros, ex_hi, ex_lo, ex_self, Nat.reduceSub] <;> rfl
  all_goals simp (disch := decide) only [ex_hi, ex_lo, ex_self, Nat.reduceSub] <;> rfl

theorem amoaddRel (p gd ga gb w32) : Statement (.amoaddRel p gd ga gb w32) := fun _ => by
  show decode (0b00#2 ++ p ++ 0x45#7 ++ gd ++ ga ++ gb ++ w32 ++ 0#3) 0 = _
  refine (decode_eq (t := .C) (p := p) (m := 0x45#7) ?_ ?_ ?_).trans ?_
  rotate_left 3
  · have h : (0b00#2 ++ p ++ 0x45#7 ++ gd ++ ga ++ gb ++ w32 ++ 0#3).extractLsb' 0 3 = 0#3 := by
      simp (disch := decide) only [ex_hi, ex_lo, ex_self, Nat.reduceSub]
    simp only [BitVec.reduceToNat, Nat.reduceLeDiff, if_true, if_false, decodeC, h, BitVec.reduceEq]
    simp (disch := decide) only [zeros, ex_hi, ex_lo, ex_self, Nat.reduceSub] <;> rfl
  all_goals simp (disch := decide) only [ex_hi, ex_lo, ex_self, Nat.reduceSub] <;> rfl

theorem amoaddAr (p gd ga gb w32) : Statement (.amoaddAr p gd ga gb w32) := fun _ => by
  show decode (0b00#2 ++ p ++ 0x46#7 ++ gd ++ ga ++ gb ++ w32 ++ 0#3) 0 = _
  refine (decode_eq (t := .C) (p := p) (m := 0x46#7) ?_ ?_ ?_).trans ?_
  rotate_left 3
  · have h : (0b00#2 ++ p ++ 0x46#7 ++ gd ++ ga ++ gb ++ w32 ++ 0#3).extractLsb' 0 3 = 0#3 := by
      simp (disch := decide) only [ex_hi, ex_lo, ex_self, Nat.reduceSub]
    simp only [BitVec.reduceToNat, Nat.reduceLeDiff, if_true, if_false, decodeC, h, BitVec.reduceEq]
    simp (disch := decide) only [zeros, ex_hi, ex_lo, ex_self, Nat.reduceSub] <;> rfl
  all_goals simp (disch := decide) only [ex_hi, ex_lo, ex_self, Nat.reduceSub] <;> rfl

theorem amoandAcq (p gd ga gb w32) : Statement (.amoandAcq p gd ga gb w32) := fun _ => by
  show decode (0b00#2 ++ p ++ 0x44#7 ++ gd ++ ga ++ gb ++ w32 ++ 1#3) 0 = _
  refine (decode_eq (t := .C) (p := p) (m := 0x44#7) ?_ ?_ ?_).trans ?_
  rotate_left 3
  · have h : (0b00#2 ++ p ++ 0x44#7 ++ gd ++ ga ++ gb ++ w32 ++ 1#3).extractLsb' 0 3 = 1#3 := by
      simp (disch := decide) only [ex_hi, ex_lo, ex_self, Nat.reduceSub]
    simp only [BitVec.reduceToNat, Nat.reduceLeDiff, if_true, if_false, decodeC, h, BitVec.reduceEq]
    simp (disch := decide) only [zeros, ex_hi, ex_lo, ex_self, Nat.reduceSub] <;> rfl
  all_goals simp (disch := decide) only [ex_hi, ex_lo, ex_self, Nat.reduceSub] <;> rfl

theorem amoandRel (p gd ga gb w32) : Statement (.amoandRel p gd ga gb w32) := fun _ => by
  show decode (0b00#2 ++ p ++ 0x45#7 ++ gd ++ ga ++ gb ++ w32 ++ 1#3) 0 = _
  refine (decode_eq (t := .C) (p := p) (m := 0x45#7) ?_ ?_ ?_).trans ?_
  rotate_left 3
  · have h : (0b00#2 ++ p ++ 0x45#7 ++ gd ++ ga ++ gb ++ w32 ++ 1#3).extractLsb' 0 3 = 1#3 := by
      simp (disch := decide) only [ex_hi, ex_lo, ex_self, Nat.reduceSub]
    simp only [BitVec.reduceToNat, Nat.reduceLeDiff, if_true, if_false, decodeC, h, BitVec.reduceEq]
    simp (disch := decide) only [zeros, ex_hi, ex_lo, ex_self, Nat.reduceSub] <;> rfl
  all_goals simp (disch := decide) only [ex_hi, ex_lo, ex_self, Nat.reduceSub] <;> rfl

theorem amoandAr (p gd ga gb w32) : Statement (.amoandAr p gd ga gb w32) := fun _ => by
  show decode (0b00#2 ++ p ++ 0x46#7 ++ gd ++ ga ++ gb ++ w32 ++ 1#3) 0 = _
  refine (decode_eq (t := .C) (p := p) (m := 0x46#7) ?_ ?_ ?_).trans ?_
  rotate_left 3
  · have h : (0b00#2 ++ p ++ 0x46#7 ++ gd ++ ga ++ gb ++ w32 ++ 1#3).extractLsb' 0 3 = 1#3 := by
      simp (disch := decide) only [ex_hi, ex_lo, ex_self, Nat.reduceSub]
    simp only [BitVec.reduceToNat, Nat.reduceLeDiff, if_true, if_false, decodeC, h, BitVec.reduceEq]
    simp (disch := decide) only [zeros, ex_hi, ex_lo, ex_self, Nat.reduceSub] <;> rfl
  all_goals simp (disch := decide) only [ex_hi, ex_lo, ex_self, Nat.reduceSub] <;> rfl

theorem amoorAcq (p gd ga gb w32) : Statement (.amoorAcq p gd ga gb w32) := fun _ => by
  show decode (0b00#2 ++ p ++ 0x44#7 ++ gd ++ ga ++ gb ++ w32 ++ 2#3) 0 = _
  refine (decode_eq (t := .C) (p := p) (m := 0x44#7) ?_ ?_ ?_).trans ?_
  rotate_left 3
  · have h : (0b00#2 ++ p ++ 0x44#7 ++ gd ++ ga ++ gb ++ w32 ++ 2#3).extractLsb' 0 3 = 2#3 := by
      simp (disch := decide) only [ex_hi, ex_lo, ex_self, Nat.reduceSub]
    simp only [BitVec.reduceToNat, Nat.reduceLeDiff, if_true, if_false, decodeC, h, BitVec.reduceEq]
    simp (disch := decide) only [zeros, ex_hi, ex_lo, ex_self, Nat.reduceSub] <;> rfl
  all_goals simp (disch := decide) only [ex_hi, ex_lo, ex_self, Nat.reduceSub] <;> rfl

theorem amoorRel (p gd ga gb w32) : Statement (.amoorRel p gd ga gb w32) := fun _ => by
  show decode (0b00#2 ++ p ++ 0x45#7 ++ gd ++ ga ++ gb ++ w32 ++ 2#3) 0 = _
  refine (decode_eq (t := .C) (p := p) (m := 0x45#7) ?_ ?_ ?_).trans ?_
  rotate_left 3
  · have h : (0b00#2 ++ p ++ 0x45#7 ++ gd ++ ga ++ gb ++ w32 ++ 2#3).extractLsb' 0 3 = 2#3 := by
      simp (disch := decide) only [ex_hi, ex_lo, ex_self, Nat.reduceSub]
    simp only [BitVec.reduceToNat, Nat.reduceLeDiff, if_true, if_false, decodeC, h, BitVec.reduceEq]
    simp (disch := decide) only [zeros, ex_hi, ex_lo, ex_self, Nat.reduceSub] <;> rfl
  all_goals simp (disch := decide) only [ex_hi, ex_lo, ex_self, Nat.reduceSub] <;> rfl

theorem amoorAr (p gd ga gb w32) : Statement (.amoorAr p gd ga gb w32) := fun _ => by
  show decode (0b00#2 ++ p ++ 0x46#7 ++ gd ++ ga ++ gb ++ w32 ++ 2#3) 0 = _
  refine (decode_eq (t := .C) (p := p) (m := 0x46#7) ?_ ?_ ?_).trans ?_
  rotate_left 3
  · have h : (0b00#2 ++ p ++ 0x46#7 ++ gd ++ ga ++ gb ++ w32 ++ 2#3).extractLsb' 0 3 = 2#3 := by
      simp (disch := decide) only [ex_hi, ex_lo, ex_self, Nat.reduceSub]
    simp only [BitVec.reduceToNat, Nat.reduceLeDiff, if_true, if_false, decodeC, h, BitVec.reduceEq]
    simp (disch := decide) only [zeros, ex_hi, ex_lo, ex_self, Nat.reduceSub] <;> rfl
  all_goals simp (disch := decide) only [ex_hi, ex_lo, ex_self, Nat.reduceSub] <;> rfl

theorem amominAcq (p gd ga gb w32) : Statement (.amominAcq p gd ga gb w32) := fun _ => by
  show decode (0b00#2 ++ p ++ 0x44#7 ++ gd ++ ga ++ gb ++ w32 ++ 3#3) 0 = _
  refine (decode_eq (t := .C) (p := p) (m := 0x44#7) ?_ ?_ ?_).trans ?_
  rotate_left 3
  · have h : (0b00#2 ++ p ++ 0x44#7 ++ gd ++ ga ++ gb ++ w32 ++ 3#3).extractLsb' 0 3 = 3#3 := by
      simp (disch := decide) only [ex_hi, ex_lo, ex_self, Nat.reduceSub]
    simp only [BitVec.reduceToNat, Nat.reduceLeDiff, if_true, if_false, decodeC, h, BitVec.reduceEq]
    simp (disch := decide) only [zeros, ex_hi, ex_lo, ex_self, Nat.reduceSub] <;> rfl
  all_goals simp (disch := decide) only [ex_hi, ex_lo, ex_self, Nat.reduceSub] <;> rfl

theorem amominRel (p gd ga gb w32) : Statement (.amominRel p gd ga gb w32) := fun _ => by
  show decode (0b00#2 ++ p ++ 0x45#7 ++ gd ++ ga ++ gb ++ w32 ++ 3#3) 0 = _
  refine (decode_eq (t := .C) (p := p) (m := 0x45#7) ?_ ?_ ?_).trans ?_
  rotate_left 3
  · have h : (0b00#2 ++ p ++ 0x45#7 ++ gd ++ ga ++ gb ++ w32 ++ 3#3).extractLsb' 0 3 = 3#3 := by
      simp (disch := decide) only [ex_hi, ex_lo, ex_self, Nat.reduceSub]
    simp only [BitVec.reduceToNat, Nat.reduceLeDiff, if_true, if_false, decodeC, h, BitVec.reduceEq]
    simp (disch := decide) only [zeros, ex_hi, ex_lo, ex_self, Nat.reduceSub] <;> rfl
  all_goals simp (disch := decide) only [ex_hi, ex_lo, ex_self, Nat.reduceSub] <;> rfl

theorem amominAr (p gd ga gb w32) : Statement (.amominAr p gd ga gb w32) := fun _ => by
  show decode (0b00#2 ++ p ++ 0x46#7 ++ gd ++ ga ++ gb ++ w32 ++ 3#3) 0 = _
  refine (decode_eq (t := .C) (p := p) (m := 0x46#7) ?_ ?_ ?_).trans ?_
  rotate_left 3
  · have h : (0b00#2 ++ p ++ 0x46#7 ++ gd ++ ga ++ gb ++ w32 ++ 3#3).extractLsb' 0 3 = 3#3 := by
      simp (disch := decide) only [ex_hi, ex_lo, ex_self, Nat.reduceSub]
    simp only [BitVec.reduceToNat, Nat.reduceLeDiff, if_true, if_false, decodeC, h, BitVec.reduceEq]
    simp (disch := decide) only [zeros, ex_hi, ex_lo, ex_self, Nat.reduceSub] <;> rfl
  all_goals simp (disch := decide) only [ex_hi, ex_lo, ex_self, Nat.reduceSub] <;> rfl

theorem amomaxAcq (p gd ga gb w32) : Statement (.amomaxAcq p gd ga gb w32) := fun _ => by
  show decode (0b00#2 ++ p ++ 0x44#7 ++ gd ++ ga ++ gb ++ w32 ++ 4#3) 0 = _
  refine (decode_eq (t := .C) (p := p) (m := 0x44#7) ?_ ?_ ?_).trans ?_
  rotate_left 3
  · have h : (0b00#2 ++ p ++ 0x44#7 ++ gd ++ ga ++ gb ++ w32 ++ 4#3).extractLsb' 0 3 = 4#3 := by
      simp (disch := decide) only [ex_hi, ex_lo, ex_self, Nat.reduceSub]
    simp only [BitVec.reduceToNat, Nat.reduceLeDiff, if_true, if_false, decodeC, h, BitVec.reduceEq]
    simp (disch := decide) only [zeros, ex_hi, ex_lo, ex_self, Nat.reduceSub] <;> rfl
  all_goals simp (disch := decide) only [ex_hi, ex_lo, ex_self, Nat.reduceSub] <;> rfl

theorem amomaxRel (p gd ga gb w32) : Statement (.amomaxRel p gd ga gb w32) := fun _ => by
  show decode (0b00#2 ++ p ++ 0x45#7 ++ gd ++ ga ++ gb ++ w32 ++ 4#3) 0 = _
  refine (decode_eq (t := .C) (p := p) (m := 0x45#7) ?_ ?_ ?_).trans ?_
  rotate_left 3
  · have h : (0b00#2 ++ p ++ 0x45#7 ++ gd ++ ga ++ gb ++ w32 ++ 4#3).extractLsb' 0 3 = 4#3 := by
      simp (disch := decide) only [ex_hi, ex_lo, ex_self, Nat.reduceSub]
    simp only [BitVec.reduceToNat, Nat.reduceLeDiff, if_true, if_false, decodeC, h, BitVec.reduceEq]
    simp (disch := decide) only [zeros, ex_hi, ex_lo, ex_self, Nat.reduceSub] <;> rfl
  all_goals simp (disch := decide) only [ex_hi, ex_lo, ex_self, Nat.reduceSub] <;> rfl

theorem amomaxAr (p gd ga gb w32) : Statement (.amomaxAr p gd ga gb w32) := fun _ => by
  show decode (0b00#2 ++ p ++ 0x46#7 ++ gd ++ ga ++ gb ++ w32 ++ 4#3) 0 = _
  refine (decode_eq (t := .C) (p := p) (m := 0x46#7) ?_ ?_ ?_).trans ?_
  rotate_left 3
  · have h : (0b00#2 ++ p ++ 0x46#7 ++ gd ++ ga ++ gb ++ w32 ++ 4#3).extractLsb' 0 3 = 4#3 := by
      simp (disch := decide) only [ex_hi, ex_lo, ex_self, Nat.reduceSub]
    simp only [BitVec.reduceToNat, Nat.reduceLeDiff, if_true, if_false, decodeC, h, BitVec.reduceEq]
    simp (disch := decide) only [zeros, ex_hi, ex_lo, ex_self, Nat.reduceSub] <;> rfl
  all_goals simp (disch := decide) only [ex_hi, ex_lo, ex_self, Nat.reduceSub] <;> rfl

theorem amoswpAcq (p gd ga gb w32) : Statement (.amoswpAcq p gd ga gb w32) := fun _ => by
  show decode (0b00#2 ++ p ++ 0x44#7 ++ gd ++ ga ++ gb ++ w32 ++ 5#3) 0 = _
  refine (decode_eq (t := .C) (p := p) (m := 0x44#7) ?_ ?_ ?_).trans ?_
  rotate_left 3
  · have h : (0b00#2 ++ p ++ 0x44#7 ++ gd ++ ga ++ gb ++ w32 ++ 5#3).extractLsb' 0 3 = 5#3 := by
      simp (disch := decide) only [ex_hi, ex_lo, ex_self, Nat.reduceSub]
    simp only [BitVec.reduceToNat, Nat.reduceLeDiff, if_true, if_false, decodeC, h, BitVec.reduceEq]
    simp (disch := decide) only [zeros, ex_hi, ex_lo, ex_self, Nat.reduceSub] <;> rfl
  all_goals simp (disch := decide) only [ex_hi, ex_lo, ex_self, Nat.reduceSub] <;> rfl

theorem amoswpRel (p gd ga gb w32) : Statement (.amoswpRel p gd ga gb w32) := fun _ => by
  show decode (0b00#2 ++ p ++ 0x45#7 ++ gd ++ ga ++ gb ++ w32 ++ 5#3) 0 = _
  refine (decode_eq (t := .C) (p := p) (m := 0x45#7) ?_ ?_ ?_).trans ?_
  rotate_left 3
  · have h : (0b00#2 ++ p ++ 0x45#7 ++ gd ++ ga ++ gb ++ w32 ++ 5#3).extractLsb' 0 3 = 5#3 := by
      simp (disch := decide) only [ex_hi, ex_lo, ex_self, Nat.reduceSub]
    simp only [BitVec.reduceToNat, Nat.reduceLeDiff, if_true, if_false, decodeC, h, BitVec.reduceEq]
    simp (disch := decide) only [zeros, ex_hi, ex_lo, ex_self, Nat.reduceSub] <;> rfl
  all_goals simp (disch := decide) only [ex_hi, ex_lo, ex_self, Nat.reduceSub] <;> rfl

theorem amoswpAr (p gd ga gb w32) : Statement (.amoswpAr p gd ga gb w32) := fun _ => by
  show decode (0b00#2 ++ p ++ 0x46#7 ++ gd ++ ga ++ gb ++ w32 ++ 5#3) 0 = _
  refine (decode_eq (t := .C) (p := p) (m := 0x46#7) ?_ ?_ ?_).trans ?_
  rotate_left 3
  · have h : (0b00#2 ++ p ++ 0x46#7 ++ gd ++ ga ++ gb ++ w32 ++ 5#3).extractLsb' 0 3 = 5#3 := by
      simp (disch := decide) only [ex_hi, ex_lo, ex_self, Nat.reduceSub]
    simp only [BitVec.reduceToNat, Nat.reduceLeDiff, if_true, if_false, decodeC, h, BitVec.reduceEq]
    simp (disch := decide) only [zeros, ex_hi, ex_lo, ex_self, Nat.reduceSub] <;> rfl
  all_goals simp (disch := decide) only [ex_hi, ex_lo, ex_self, Nat.reduceSub] <;> rfl

theorem amocasAcq (p gd ga gb w32) : Statement (.amocasAcq p gd ga gb w32) := fun _ => by
  show decode (0b00#2 ++ p ++ 0x44#7 ++ gd ++ ga ++ gb ++ w32 ++ 6#3) 0 = _
  refine (decode_eq (t := .C) (p := p) (m := 0x44#7) ?_ ?_ ?_).trans ?_
  rotate_left 3
  · have h : (0b00#2 ++ p ++ 0x44#7 ++ gd ++ ga ++ gb ++ w32 ++ 6#3).extractLsb' 0 3 = 6#3 := by
      simp (disch := decide) only [ex_hi, ex_lo, ex_self, Nat.reduceSub]
    simp only [BitVec.reduceToNat, Nat.reduceLeDiff, if_true, if_false, decodeC, h, BitVec.reduceEq]
    simp (disch := decide) only [zeros, ex_hi, ex_lo, ex_self, Nat.reduceSub] <;> rfl
  all_goals simp (disch := decide) only [ex_hi, ex_lo, ex_self, Nat.reduceSub] <;> rfl

theorem amocasRel (p gd ga gb w32) : Statement (.amocasRel p gd ga gb w32) := fun _ => by
  show decode (0b00#2 ++ p ++ 0x45#7 ++ gd ++ ga ++ gb ++ w32 ++ 6#3) 0 = _
  refine (decode_eq (t := .C) (p := p) (m := 0x45#7) ?_ ?_ ?_).trans ?_
  rotate_left 3
  · have h : (0b00#2 ++ p ++ 0x45#7 ++ gd ++ ga ++ gb ++ w32 ++ 6#3).extractLsb' 0 3 = 6#3 := by
      simp (disch := decide) only [ex_hi, ex_lo, ex_self, Nat.reduceSub]
    simp only [BitVec.reduceToNat, Nat.reduceLeDiff, if_true, if_false, decodeC, h, BitVec.reduceEq]
    simp (disch := decide) only [zeros, ex_hi, ex_lo, ex_self, Nat.reduceSub] <;> rfl
  all_goals simp (disch := decide) only [ex_hi, ex_lo, ex_self, Nat.reduceSub] <;> rfl

theorem amocasAr (p gd ga gb w32) : Statement (.amocasAr p gd ga gb w32) := fun _ => by
  show decode (0b00#2 ++ p ++ 0x46#7 ++ gd ++ ga ++ gb ++ w32 ++ 6#3) 0 = _
  refine (decode_eq (t := .C) (p := p) (m := 0x46#7) ?_ ?_ ?_).trans ?_
  rotate_left 3
  · have h : (0b00#2 ++ p ++ 0x46#7 ++ gd ++ ga ++ gb ++ w32 ++ 6#3).extractLsb' 0 3 = 6#3 := by
      simp (disch := decide) only [ex_hi, ex_lo, ex_self, Nat.reduceSub]
    simp only [BitVec.reduceToNat, Nat.reduceLeDiff, if_true, if_false, decodeC, h, BitVec.reduceEq]
    simp (disch := decide) only [zeros, ex_hi, ex_lo, ex_self, Nat.reduceSub] <;> rfl
  all_goals simp (disch := decide) only [ex_hi, ex_lo, ex_self, Nat.reduceSub] <;> rfl

theorem fenceAcq (p) : Statement (.fenceAcq p) := fun _ => by
  show decode (0b00#2 ++ p ++ 0x47#7 ++ 0#15 ++ 0#4) 0 = _
  refine (decode_eq (t := .C) (p := p) (m := 0x47#7) ?_ ?_ ?_).trans ?_
  rotate_left 3
  · have h : (0b00#2 ++ p ++ 0x47#7 ++ 0#15 ++ 0#4).extractLsb' 0 4 = 0#4 := by
      simp (disch := decide) only [ex_hi, ex_lo, ex_self, Nat.reduceSub]
    simp only [BitVec.reduceToNat, Nat.reduceLeDiff, if_true, if_false, decodeC, h, BitVec.reduceEq]
    simp (disch := decide) only [zeros, ex_hi, ex_lo, ex_self, Nat.reduceSub] <;> rfl
  all_goals simp (disch := decide) only [ex_hi, ex_lo, ex_self, Nat.reduceSub] <;> rfl

theorem fenceRel (p) : Statement (.fenceRel p) := fun _ => by
  show decode (0b00#2 ++ p ++ 0x47#7 ++ 0#15 ++ 1#4) 0 = _
  refine (decode_eq (t := .C) (p := p) (m := 0x47#7) ?_ ?_ ?_).trans ?_
  rotate_left 3
  · have h : (0b00#2 ++ p ++ 0x47#7 ++ 0#15 ++ 1#4).extractLsb' 0 4 = 1#4 := by
      simp (disch := decide) only [ex_hi, ex_lo, ex_self, Nat.reduceSub]
    simp only [BitVec.reduceToNat, Nat.reduceLeDiff, if_true, if_false, decodeC, h, BitVec.reduceEq]
    simp (disch := decide) only [zeros, ex_hi, ex_lo, ex_self, Nat.reduceSub] <;> rfl
  all_goals simp (disch := decide) only [ex_hi, ex_lo, ex_self, Nat.reduceSub] <;> rfl

theorem phase (p lvl) : Statement (.phase p lvl) := fun _ => by
  show decode (0b00#2 ++ p ++ 0x48#7 ++ 0#16 ++ lvl) 0 = _
  refine (decode_eq (t := .C) (p := p) (m := 0x48#7) ?_ ?_ ?_).trans ?_
  rotate_left 3
  · simp (disch := decide) only [BitVec.reduceToNat, Nat.reduceLeDiff, if_false, decodeC, zeros, ex_hi, ex_lo, ex_self,
      Nat.reduceSub] <;> rfl
  all_goals simp (disch := decide) only [ex_hi, ex_lo, ex_self, Nat.reduceSub] <;> rfl

theorem trap (p code) : Statement (.trap p code) := fun _ => by
  show decode (0b00#2 ++ p ++ 0x49#7 ++ 0#5 ++ code) 0 = _
  refine (decode_eq (t := .C) (p := p) (m := 0x49#7) ?_ ?_ ?_).trans ?_
  rotate_left 3
  · simp (disch := decide) only [BitVec.reduceToNat, Nat.reduceLeDiff, if_false, decodeC, zeros, ex_hi, ex_lo, ex_self,
      Nat.reduceSub] <;> rfl
  all_goals simp (disch := decide) only [ex_hi, ex_lo, ex_self, Nat.reduceSub] <;> rfl

theorem eret (p) : Statement (.eret p) := fun _ => by
  show decode (0b00#2 ++ p ++ 0x4a#7 ++ 0#19) 0 = _
  refine (decode_eq (t := .C) (p := p) (m := 0x4a#7) ?_ ?_ ?_).trans ?_
  rotate_left 3
  · simp (disch := decide) only [BitVec.reduceToNat, Nat.reduceLeDiff, if_false, decodeC, zeros, ex_hi, ex_lo, ex_self,
      Nat.reduceSub] <;> rfl
  all_goals simp (disch := decide) only [ex_hi, ex_lo, ex_self, Nat.reduceSub] <;> rfl

theorem wfe (p) : Statement (.wfe p) := fun _ => by
  show decode (0b00#2 ++ p ++ 0x4b#7 ++ 0#19) 0 = _
  refine (decode_eq (t := .C) (p := p) (m := 0x4b#7) ?_ ?_ ?_).trans ?_
  rotate_left 3
  · simp (disch := decide) only [BitVec.reduceToNat, Nat.reduceLeDiff, if_false, decodeC, zeros, ex_hi, ex_lo, ex_self,
      Nat.reduceSub] <;> rfl
  all_goals simp (disch := decide) only [ex_hi, ex_lo, ex_self, Nat.reduceSub] <;> rfl

theorem fadd (p gd ga gb) : Statement (.fadd p gd ga gb) := fun _ => by
  show decode (0b00#2 ++ p ++ 0x4c#7 ++ gd ++ ga ++ gb ++ 0#4) 0 = _
  refine (decode_eq (t := .C) (p := p) (m := 0x4c#7) ?_ ?_ ?_).trans ?_
  rotate_left 3
  · have h : (0b00#2 ++ p ++ 0x4c#7 ++ gd ++ ga ++ gb ++ 0#4).extractLsb' 0 4 = 0#4 := by
      simp (disch := decide) only [ex_hi, ex_lo, ex_self, Nat.reduceSub]
    simp only [BitVec.reduceToNat, Nat.reduceLeDiff, if_true, if_false, decodeC, h, BitVec.reduceEq]
    simp (disch := decide) only [zeros, ex_hi, ex_lo, ex_self, Nat.reduceSub] <;> rfl
  all_goals simp (disch := decide) only [ex_hi, ex_lo, ex_self, Nat.reduceSub] <;> rfl

theorem fsub (p gd ga gb) : Statement (.fsub p gd ga gb) := fun _ => by
  show decode (0b00#2 ++ p ++ 0x4c#7 ++ gd ++ ga ++ gb ++ 1#4) 0 = _
  refine (decode_eq (t := .C) (p := p) (m := 0x4c#7) ?_ ?_ ?_).trans ?_
  rotate_left 3
  · have h : (0b00#2 ++ p ++ 0x4c#7 ++ gd ++ ga ++ gb ++ 1#4).extractLsb' 0 4 = 1#4 := by
      simp (disch := decide) only [ex_hi, ex_lo, ex_self, Nat.reduceSub]
    simp only [BitVec.reduceToNat, Nat.reduceLeDiff, if_true, if_false, decodeC, h, BitVec.reduceEq]
    simp (disch := decide) only [zeros, ex_hi, ex_lo, ex_self, Nat.reduceSub] <;> rfl
  all_goals simp (disch := decide) only [ex_hi, ex_lo, ex_self, Nat.reduceSub] <;> rfl

theorem fmul (p gd ga gb) : Statement (.fmul p gd ga gb) := fun _ => by
  show decode (0b00#2 ++ p ++ 0x4c#7 ++ gd ++ ga ++ gb ++ 2#4) 0 = _
  refine (decode_eq (t := .C) (p := p) (m := 0x4c#7) ?_ ?_ ?_).trans ?_
  rotate_left 3
  · have h : (0b00#2 ++ p ++ 0x4c#7 ++ gd ++ ga ++ gb ++ 2#4).extractLsb' 0 4 = 2#4 := by
      simp (disch := decide) only [ex_hi, ex_lo, ex_self, Nat.reduceSub]
    simp only [BitVec.reduceToNat, Nat.reduceLeDiff, if_true, if_false, decodeC, h, BitVec.reduceEq]
    simp (disch := decide) only [zeros, ex_hi, ex_lo, ex_self, Nat.reduceSub] <;> rfl
  all_goals simp (disch := decide) only [ex_hi, ex_lo, ex_self, Nat.reduceSub] <;> rfl

theorem fmin (p gd ga gb) : Statement (.fmin p gd ga gb) := fun _ => by
  show decode (0b00#2 ++ p ++ 0x4c#7 ++ gd ++ ga ++ gb ++ 3#4) 0 = _
  refine (decode_eq (t := .C) (p := p) (m := 0x4c#7) ?_ ?_ ?_).trans ?_
  rotate_left 3
  · have h : (0b00#2 ++ p ++ 0x4c#7 ++ gd ++ ga ++ gb ++ 3#4).extractLsb' 0 4 = 3#4 := by
      simp (disch := decide) only [ex_hi, ex_lo, ex_self, Nat.reduceSub]
    simp only [BitVec.reduceToNat, Nat.reduceLeDiff, if_true, if_false, decodeC, h, BitVec.reduceEq]
    simp (disch := decide) only [zeros, ex_hi, ex_lo, ex_self, Nat.reduceSub] <;> rfl
  all_goals simp (disch := decide) only [ex_hi, ex_lo, ex_self, Nat.reduceSub] <;> rfl

theorem fmax (p gd ga gb) : Statement (.fmax p gd ga gb) := fun _ => by
  show decode (0b00#2 ++ p ++ 0x4c#7 ++ gd ++ ga ++ gb ++ 4#4) 0 = _
  refine (decode_eq (t := .C) (p := p) (m := 0x4c#7) ?_ ?_ ?_).trans ?_
  rotate_left 3
  · have h : (0b00#2 ++ p ++ 0x4c#7 ++ gd ++ ga ++ gb ++ 4#4).extractLsb' 0 4 = 4#4 := by
      simp (disch := decide) only [ex_hi, ex_lo, ex_self, Nat.reduceSub]
    simp only [BitVec.reduceToNat, Nat.reduceLeDiff, if_true, if_false, decodeC, h, BitVec.reduceEq]
    simp (disch := decide) only [zeros, ex_hi, ex_lo, ex_self, Nat.reduceSub] <;> rfl
  all_goals simp (disch := decide) only [ex_hi, ex_lo, ex_self, Nat.reduceSub] <;> rfl

theorem feq (p gd ga gb) : Statement (.feq p gd ga gb) := fun _ => by
  show decode (0b00#2 ++ p ++ 0x4c#7 ++ gd ++ ga ++ gb ++ 5#4) 0 = _
  refine (decode_eq (t := .C) (p := p) (m := 0x4c#7) ?_ ?_ ?_).trans ?_
  rotate_left 3
  · have h : (0b00#2 ++ p ++ 0x4c#7 ++ gd ++ ga ++ gb ++ 5#4).extractLsb' 0 4 = 5#4 := by
      simp (disch := decide) only [ex_hi, ex_lo, ex_self, Nat.reduceSub]
    simp only [BitVec.reduceToNat, Nat.reduceLeDiff, if_true, if_false, decodeC, h, BitVec.reduceEq]
    simp (disch := decide) only [zeros, ex_hi, ex_lo, ex_self, Nat.reduceSub] <;> rfl
  all_goals simp (disch := decide) only [ex_hi, ex_lo, ex_self, Nat.reduceSub] <;> rfl

theorem flt (p gd ga gb) : Statement (.flt p gd ga gb) := fun _ => by
  show decode (0b00#2 ++ p ++ 0x4c#7 ++ gd ++ ga ++ gb ++ 6#4) 0 = _
  refine (decode_eq (t := .C) (p := p) (m := 0x4c#7) ?_ ?_ ?_).trans ?_
  rotate_left 3
  · have h : (0b00#2 ++ p ++ 0x4c#7 ++ gd ++ ga ++ gb ++ 6#4).extractLsb' 0 4 = 6#4 := by
      simp (disch := decide) only [ex_hi, ex_lo, ex_self, Nat.reduceSub]
    simp only [BitVec.reduceToNat, Nat.reduceLeDiff, if_true, if_false, decodeC, h, BitVec.reduceEq]
    simp (disch := decide) only [zeros, ex_hi, ex_lo, ex_self, Nat.reduceSub] <;> rfl
  all_goals simp (disch := decide) only [ex_hi, ex_lo, ex_self, Nat.reduceSub] <;> rfl

theorem fle (p gd ga gb) : Statement (.fle p gd ga gb) := fun _ => by
  show decode (0b00#2 ++ p ++ 0x4c#7 ++ gd ++ ga ++ gb ++ 7#4) 0 = _
  refine (decode_eq (t := .C) (p := p) (m := 0x4c#7) ?_ ?_ ?_).trans ?_
  rotate_left 3
  · have h : (0b00#2 ++ p ++ 0x4c#7 ++ gd ++ ga ++ gb ++ 7#4).extractLsb' 0 4 = 7#4 := by
      simp (disch := decide) only [ex_hi, ex_lo, ex_self, Nat.reduceSub]
    simp only [BitVec.reduceToNat, Nat.reduceLeDiff, if_true, if_false, decodeC, h, BitVec.reduceEq]
    simp (disch := decide) only [zeros, ex_hi, ex_lo, ex_self, Nat.reduceSub] <;> rfl
  all_goals simp (disch := decide) only [ex_hi, ex_lo, ex_self, Nat.reduceSub] <;> rfl

theorem fcvt (p gd ga t2 t1) : Statement (.fcvt p gd ga t2 t1) := fun _ => by
  show decode (0b00#2 ++ p ++ 0x4d#7 ++ gd ++ ga ++ 0#1 ++ t2 ++ t1) 0 = _
  refine (decode_eq (t := .C) (p := p) (m := 0x4d#7) ?_ ?_ ?_).trans ?_
  rotate_left 3
  · simp (disch := decide) only [BitVec.reduceToNat, Nat.reduceLeDiff, if_false, decodeC, zeros, ex_hi, ex_lo, ex_self,
      Nat.reduceSub] <;> rfl
  all_goals simp (disch := decide) only [ex_hi, ex_lo, ex_self, Nat.reduceSub] <;> rfl

theorem wqpush (p gd ga gb) : Statement (.wqpush p gd ga gb) := fun _ => by
  show decode (0b00#2 ++ p ++ 0x4e#7 ++ gd ++ ga ++ gb ++ 0#4) 0 = _
  refine (decode_eq (t := .C) (p := p) (m := 0x4e#7) ?_ ?_ ?_).trans ?_
  rotate_left 3
  · simp (disch := decide) only [BitVec.reduceToNat, Nat.reduceLeDiff, if_false, decodeC, zeros, ex_hi, ex_lo, ex_self,
      Nat.reduceSub] <;> rfl
  all_goals simp (disch := decide) only [ex_hi, ex_lo, ex_self, Nat.reduceSub] <;> rfl

theorem spawn (p gd gb) : Statement (.spawn p gd gb) := fun _ => by
  show decode (0b00#2 ++ p ++ 0x4f#7 ++ gd ++ 0#5 ++ gb ++ 0#4) 0 = _
  refine (decode_eq (t := .C) (p := p) (m := 0x4f#7) ?_ ?_ ?_).trans ?_
  rotate_left 3
  · simp (disch := decide) only [BitVec.reduceToNat, Nat.reduceLeDiff, if_false, decodeC, zeros, ex_hi, ex_lo, ex_self,
      Nat.reduceSub] <;> rfl
  all_goals simp (disch := decide) only [ex_hi, ex_lo, ex_self, Nat.reduceSub] <;> rfl

theorem resolve (p gd ga v) : Statement (.resolve p gd ga v) := fun _ => by
  show decode (0b00#2 ++ p ++ 0x50#7 ++ gd ++ ga ++ 0#8 ++ v) 0 = _
  refine (decode_eq (t := .C) (p := p) (m := 0x50#7) ?_ ?_ ?_).trans ?_
  rotate_left 3
  · simp (disch := decide) only [BitVec.reduceToNat, Nat.reduceLeDiff, if_false, decodeC, zeros, ex_hi, ex_lo, ex_self,
      Nat.reduceSub] <;> rfl
  all_goals simp (disch := decide) only [ex_hi, ex_lo, ex_self, Nat.reduceSub] <;> rfl

theorem cvnew (p gd) : Statement (.cvnew p gd) := fun _ => by
  show decode (0b00#2 ++ p ++ 0x51#7 ++ gd ++ 0#14) 0 = _
  refine (decode_eq (t := .C) (p := p) (m := 0x51#7) ?_ ?_ ?_).trans ?_
  rotate_left 3
  · simp (disch := decide) only [BitVec.reduceToNat, Nat.reduceLeDiff, if_false, decodeC, zeros, ex_hi, ex_lo, ex_self,
      Nat.reduceSub] <;> rfl
  all_goals simp (disch := decide) only [ex_hi, ex_lo, ex_self, Nat.reduceSub] <;> rfl

theorem cvfree (p ga) : Statement (.cvfree p ga) := fun _ => by
  show decode (0b00#2 ++ p ++ 0x52#7 ++ 0#5 ++ ga ++ 0#9) 0 = _
  refine (decode_eq (t := .C) (p := p) (m := 0x52#7) ?_ ?_ ?_).trans ?_
  rotate_left 3
  · simp (disch := decide) only [BitVec.reduceToNat, Nat.reduceLeDiff, if_false, decodeC, zeros, ex_hi, ex_lo, ex_self,
      Nat.reduceSub] <;> rfl
  all_goals simp (disch := decide) only [ex_hi, ex_lo, ex_self, Nat.reduceSub] <;> rfl

theorem yield (p) : Statement (.yield p) := fun _ => by
  show decode (0b00#2 ++ p ++ 0x53#7 ++ 0#19) 0 = _
  refine (decode_eq (t := .C) (p := p) (m := 0x53#7) ?_ ?_ ?_).trans ?_
  rotate_left 3
  · simp (disch := decide) only [BitVec.reduceToNat, Nat.reduceLeDiff, if_false, decodeC, zeros, ex_hi, ex_lo, ex_self,
      Nat.reduceSub] <;> rfl
  all_goals simp (disch := decide) only [ex_hi, ex_lo, ex_self, Nat.reduceSub] <;> rfl

theorem mbsend (p gd ga gb) : Statement (.mbsend p gd ga gb) := fun _ => by
  show decode (0b00#2 ++ p ++ 0x54#7 ++ gd ++ ga ++ gb ++ 0#4) 0 = _
  refine (decode_eq (t := .C) (p := p) (m := 0x54#7) ?_ ?_ ?_).trans ?_
  rotate_left 3
  · simp (disch := decide) only [BitVec.reduceToNat, Nat.reduceLeDiff, if_false, decodeC, zeros, ex_hi, ex_lo, ex_self,
      Nat.reduceSub] <;> rfl
  all_goals simp (disch := decide) only [ex_hi, ex_lo, ex_self, Nat.reduceSub] <;> rfl

theorem mbrecv (p gd ga gb) : Statement (.mbrecv p gd ga gb) := fun _ => by
  show decode (0b00#2 ++ p ++ 0x55#7 ++ gd ++ ga ++ gb ++ 0#4) 0 = _
  refine (decode_eq (t := .C) (p := p) (m := 0x55#7) ?_ ?_ ?_).trans ?_
  rotate_left 3
  · simp (disch := decide) only [BitVec.reduceToNat, Nat.reduceLeDiff, if_false, decodeC, zeros, ex_hi, ex_lo, ex_self,
      Nat.reduceSub] <;> rfl
  all_goals simp (disch := decide) only [ex_hi, ex_lo, ex_self, Nat.reduceSub] <;> rfl

theorem mbpoll (p gd ga gb) : Statement (.mbpoll p gd ga gb) := fun _ => by
  show decode (0b00#2 ++ p ++ 0x56#7 ++ gd ++ ga ++ gb ++ 0#4) 0 = _
  refine (decode_eq (t := .C) (p := p) (m := 0x56#7) ?_ ?_ ?_).trans ?_
  rotate_left 3
  · simp (disch := decide) only [BitVec.reduceToNat, Nat.reduceLeDiff, if_false, decodeC, zeros, ex_hi, ex_lo, ex_self,
      Nat.reduceSub] <;> rfl
  all_goals simp (disch := decide) only [ex_hi, ex_lo, ex_self, Nat.reduceSub] <;> rfl

theorem nestw (p gd ga gb) : Statement (.nestw p gd ga gb) := fun _ => by
  show decode (0b00#2 ++ p ++ 0x57#7 ++ gd ++ ga ++ gb ++ 0#4) 0 = _
  refine (decode_eq (t := .C) (p := p) (m := 0x57#7) ?_ ?_ ?_).trans ?_
  rotate_left 3
  · simp (disch := decide) only [BitVec.reduceToNat, Nat.reduceLeDiff, if_false, decodeC, zeros, ex_hi, ex_lo, ex_self,
      Nat.reduceSub] <;> rfl
  all_goals simp (disch := decide) only [ex_hi, ex_lo, ex_self, Nat.reduceSub] <;> rfl

theorem ngo (p) : Statement (.ngo p) := fun _ => by
  show decode (0b00#2 ++ p ++ 0x58#7 ++ 0#19) 0 = _
  refine (decode_eq (t := .C) (p := p) (m := 0x58#7) ?_ ?_ ?_).trans ?_
  rotate_left 3
  · simp (disch := decide) only [BitVec.reduceToNat, Nat.reduceLeDiff, if_false, decodeC, zeros, ex_hi, ex_lo, ex_self,
      Nat.reduceSub] <;> rfl
  all_goals simp (disch := decide) only [ex_hi, ex_lo, ex_self, Nat.reduceSub] <;> rfl

theorem nwait (p) : Statement (.nwait p) := fun _ => by
  show decode (0b00#2 ++ p ++ 0x59#7 ++ 0#19) 0 = _
  refine (decode_eq (t := .C) (p := p) (m := 0x59#7) ?_ ?_ ?_).trans ?_
  rotate_left 3
  · simp (disch := decide) only [BitVec.reduceToNat, Nat.reduceLeDiff, if_false, decodeC, zeros, ex_hi, ex_lo, ex_self,
      Nat.reduceSub] <;> rfl
  all_goals simp (disch := decide) only [ex_hi, ex_lo, ex_self, Nat.reduceSub] <;> rfl

theorem fmtq (p ga) : Statement (.fmtq p ga) := fun _ => by
  show decode (0b00#2 ++ p ++ 0x5a#7 ++ 0#5 ++ ga ++ 0#9) 0 = _
  refine (decode_eq (t := .C) (p := p) (m := 0x5a#7) ?_ ?_ ?_).trans ?_
  rotate_left 3
  · simp (disch := decide) only [BitVec.reduceToNat, Nat.reduceLeDiff, if_false, decodeC, zeros, ex_hi, ex_lo, ex_self,
      Nat.reduceSub] <;> rfl
  all_goals simp (disch := decide) only [ex_hi, ex_lo, ex_self, Nat.reduceSub] <;> rfl

theorem tlbir (p gd ga gb) : Statement (.tlbir p gd ga gb) := fun _ => by
  show decode (0b00#2 ++ p ++ 0x5b#7 ++ gd ++ ga ++ gb ++ 0#4) 0 = _
  refine (decode_eq (t := .C) (p := p) (m := 0x5b#7) ?_ ?_ ?_).trans ?_
  rotate_left 3
  · simp (disch := decide) only [BitVec.reduceToNat, Nat.reduceLeDiff, if_false, decodeC, zeros, ex_hi, ex_lo, ex_self,
      Nat.reduceSub] <;> rfl
  all_goals simp (disch := decide) only [ex_hi, ex_lo, ex_self, Nat.reduceSub] <;> rfl

theorem tlback (p) : Statement (.tlback p) := fun _ => by
  show decode (0b00#2 ++ p ++ 0x5c#7 ++ 0#19) 0 = _
  refine (decode_eq (t := .C) (p := p) (m := 0x5c#7) ?_ ?_ ?_).trans ?_
  rotate_left 3
  · simp (disch := decide) only [BitVec.reduceToNat, Nat.reduceLeDiff, if_false, decodeC, zeros, ex_hi, ex_lo, ex_self,
      Nat.reduceSub] <;> rfl
  all_goals simp (disch := decide) only [ex_hi, ex_lo, ex_self, Nat.reduceSub] <;> rfl

theorem ld (p gd ga sz off) : Statement (.ld p gd ga sz off) := fun _ => by
  show decode (0b00#2 ++ p ++ 0x60#7 ++ gd ++ ga ++ 0#5 ++ sz) (off) = _
  refine (decode_eq (t := .C) (p := p) (m := 0x60#7) ?_ ?_ ?_).trans ?_
  rotate_left 3
  · simp (disch := decide) only [BitVec.reduceToNat, Nat.reduceLeDiff, if_false, decodeC, zeros, ex_hi, ex_lo, ex_self,
      Nat.reduceSub] <;> rfl
  all_goals simp (disch := decide) only [ex_hi, ex_lo, ex_self, Nat.reduceSub] <;> rfl

theorem st (p ga gb sz off) : Statement (.st p ga gb sz off) := fun _ => by
  show decode (0b00#2 ++ p ++ 0x61#7 ++ 0#5 ++ ga ++ gb ++ sz) (off) = _
  refine (decode_eq (t := .C) (p := p) (m := 0x61#7) ?_ ?_ ?_).trans ?_
  rotate_left 3
  · simp (disch := decide) only [BitVec.reduceToNat, Nat.reduceLeDiff, if_false, decodeC, zeros, ex_hi, ex_lo, ex_self,
      Nat.reduceSub] <;> rfl
  all_goals simp (disch := decide) only [ex_hi, ex_lo, ex_self, Nat.reduceSub] <;> rfl

theorem ffma (p gd ga gb gc) : Statement (.ffma p gd ga gb gc) := fun _ => by
  show decode (0b00#2 ++ p ++ 0x62#7 ++ gd ++ ga ++ gb ++ 0#4) (gc ++ 0#27) = _
  refine (decode_eq (t := .C) (p := p) (m := 0x62#7) ?_ ?_ ?_).trans ?_
  rotate_left 3
  · simp (disch := decide) only [BitVec.reduceToNat, Nat.reduceLeDiff, if_false, decodeC, zeros, ex_hi, ex_lo, ex_self,
      Nat.reduceSub] <;> rfl
  all_goals simp (disch := decide) only [ex_hi, ex_lo, ex_self, Nat.reduceSub] <;> rfl

theorem spawnc (p gd ga gb pr side) : Statement (.spawnc p gd ga gb pr side) := fun _ => by
  show decode (0b00#2 ++ p ++ 0x63#7 ++ gd ++ ga ++ gb ++ 0#4) (pr ++ side ++ 0#15) = _
  refine (decode_eq (t := .C) (p := p) (m := 0x63#7) ?_ ?_ ?_).trans ?_
  rotate_left 3
  · simp (disch := decide) only [BitVec.reduceToNat, Nat.reduceLeDiff, if_false, decodeC, zeros, ex_hi, ex_lo, ex_self,
      Nat.reduceSub] <;> rfl
  all_goals simp (disch := decide) only [ex_hi, ex_lo, ex_self, Nat.reduceSub] <;> rfl

theorem ldq (p rg gd ga q xe xc aty imm18) : Statement (.ldq p rg gd ga q xe xc aty imm18) := fun _ => by
  show decode (0b01#2 ++ p ++ 0x40#7 ++ gd ++ ga ++ 0#5 ++ 0#3 ++ rg) (q ++ 0#3 ++ xc ++ xe ++ aty ++ imm18) = _
  refine (decode_eq (t := .A) (p := p) (m := 0x40#7) ?_ ?_ ?_).trans ?_
  rotate_left 3
  · have h : (0b01#2 ++ p ++ 0x40#7 ++ gd ++ ga ++ 0#5 ++ 0#3 ++ rg).extractLsb' 1 3 = 0#3 := by
      simp (disch := decide) only [ex_hi, ex_lo, ex_self, Nat.reduceSub]
    simp only [BitVec.reduceToNat, Nat.reduceLeDiff, if_true, if_false, decodeA, h, BitVec.reduceEq]
    simp (disch := decide) only [zeros, ex_hi, ex_lo, ex_self, Nat.reduceSub] <;> rfl
  all_goals simp (disch := decide) only [ex_hi, ex_lo, ex_self, Nat.reduceSub] <;> rfl

theorem ldqTerm (p q xe xc) : Statement (.ldqTerm p q xe xc) := fun _ => by
  show decode (0b01#2 ++ p ++ 0x40#7 ++ 0#15 ++ 2#4) (q ++ 0#3 ++ xc ++ xe ++ 0#22) = _
  refine (decode_eq (t := .A) (p := p) (m := 0x40#7) ?_ ?_ ?_).trans ?_
  rotate_left 3
  · have h : (0b01#2 ++ p ++ 0x40#7 ++ 0#15 ++ 2#4).extractLsb' 0 4 = 2#4 := by
      simp (disch := decide) only [ex_hi, ex_lo, ex_self, Nat.reduceSub]
    simp only [BitVec.reduceToNat, Nat.reduceLeDiff, if_true, if_false, decodeA, h, BitVec.reduceEq]
    simp (disch := decide) only [zeros, ex_hi, ex_lo, ex_self, Nat.reduceSub] <;> rfl
  all_goals simp (disch := decide) only [ex_hi, ex_lo, ex_self, Nat.reduceSub] <;> rfl

theorem stq (p rg gd ga q xc imm18) : Statement (.stq p rg gd ga q xc imm18) := fun _ => by
  show decode (0b01#2 ++ p ++ 0x41#7 ++ gd ++ ga ++ 0#5 ++ 0#3 ++ rg) (q ++ 0#3 ++ xc ++ 0#5 ++ imm18) = _
  refine (decode_eq (t := .A) (p := p) (m := 0x41#7) ?_ ?_ ?_).trans ?_
  rotate_left 3
  · have h : (0b01#2 ++ p ++ 0x41#7 ++ gd ++ ga ++ 0#5 ++ 0#3 ++ rg).extractLsb' 1 3 = 0#3 := by
      simp (disch := decide) only [ex_hi, ex_lo, ex_self, Nat.reduceSub]
    simp only [BitVec.reduceToNat, Nat.reduceLeDiff, if_true, if_false, decodeA, h, BitVec.reduceEq]
    simp (disch := decide) only [zeros, ex_hi, ex_lo, ex_self, Nat.reduceSub] <;> rfl
  all_goals simp (disch := decide) only [ex_hi, ex_lo, ex_self, Nat.reduceSub] <;> rfl

theorem rinit (p ga gb q pe n1) : Statement (.rinit p ga gb q pe n1) := fun _ => by
  show decode (0b01#2 ++ p ++ 0x42#7 ++ 0#5 ++ ga ++ gb ++ 0#4) (q ++ 0#4 ++ pe ++ 0#12 ++ n1) = _
  refine (decode_eq (t := .A) (p := p) (m := 0x42#7) ?_ ?_ ?_).trans ?_
  rotate_left 3
  · simp (disch := decide) only [BitVec.reduceToNat, Nat.reduceLeDiff, if_false, decodeA, zeros, ex_hi, ex_lo, ex_self,
      Nat.reduceSub] <;> rfl
  all_goals simp (disch := decide) only [ex_hi, ex_lo, ex_self, Nat.reduceSub] <;> rfl

theorem radvHead (p q imm18) : Statement (.radvHead p q imm18) := fun _ => by
  show decode (0b01#2 ++ p ++ 0x43#7 ++ 0#19) (q ++ 0#4 ++ 0#1 ++ 0#4 ++ imm18) = _
  refine (decode_eq (t := .A) (p := p) (m := 0x43#7) ?_ ?_ ?_).trans ?_
  rotate_left 3
  · simp (disch := decide) only [BitVec.reduceToNat, Nat.reduceLeDiff, if_false, decodeA, zeros, ex_hi, ex_lo, ex_self,
      Nat.reduceSub] <;> rfl
  all_goals simp (disch := decide) only [ex_hi, ex_lo, ex_self, Nat.reduceSub] <;> rfl

theorem radvTail (p q imm18) : Statement (.radvTail p q imm18) := fun _ => by
  show decode (0b01#2 ++ p ++ 0x43#7 ++ 0#19) (q ++ 0#4 ++ 1#1 ++ 0#4 ++ imm18) = _
  refine (decode_eq (t := .A) (p := p) (m := 0x43#7) ?_ ?_ ?_).trans ?_
  rotate_left 3
  · simp (disch := decide) only [BitVec.reduceToNat, Nat.reduceLeDiff, if_false, decodeA, zeros, ex_hi, ex_lo, ex_self,
      Nat.reduceSub] <;> rfl
  all_goals simp (disch := decide) only [ex_hi, ex_lo, ex_self, Nat.reduceSub] <;> rfl

theorem rwaitHead (p q imm18) : Statement (.rwaitHead p q imm18) := fun _ => by
  show decode (0b01#2 ++ p ++ 0x44#7 ++ 0#19) (q ++ 0#4 ++ 0#1 ++ 0#4 ++ imm18) = _
  refine (decode_eq (t := .A) (p := p) (m := 0x44#7) ?_ ?_ ?_).trans ?_
  rotate_left 3
  · simp (disch := decide) only [BitVec.reduceToNat, Nat.reduceLeDiff, if_false, decodeA, zeros, ex_hi, ex_lo, ex_self,
      Nat.reduceSub] <;> rfl
  all_goals simp (disch := decide) only [ex_hi, ex_lo, ex_self, Nat.reduceSub] <;> rfl

theorem rwaitTail (p q imm18) : Statement (.rwaitTail p q imm18) := fun _ => by
  show decode (0b01#2 ++ p ++ 0x44#7 ++ 0#19) (q ++ 0#4 ++ 1#1 ++ 0#4 ++ imm18) = _
  refine (decode_eq (t := .A) (p := p) (m := 0x44#7) ?_ ?_ ?_).trans ?_
  rotate_left 3
  · simp (disch := decide) only [BitVec.reduceToNat, Nat.reduceLeDiff, if_false, decodeA, zeros, ex_hi, ex_lo, ex_self,
      Nat.reduceSub] <;> rfl
  all_goals simp (disch := decide) only [ex_hi, ex_lo, ex_self, Nat.reduceSub] <;> rfl

theorem swz (p ga q span) : Statement (.swz p ga q span) := fun _ => by
  show decode (0b01#2 ++ p ++ 0x45#7 ++ 0#5 ++ ga ++ 0#9) (q ++ 0#24 ++ span) = _
  refine (decode_eq (t := .A) (p := p) (m := 0x45#7) ?_ ?_ ?_).trans ?_
  rotate_left 3
  · simp (disch := decide) only [BitVec.reduceToNat, Nat.reduceLeDiff, if_false, decodeA, zeros, ex_hi, ex_lo, ex_self,
      Nat.reduceSub] <;> rfl
  all_goals simp (disch := decide) only [ex_hi, ex_lo, ex_self, Nat.reduceSub] <;> rfl

theorem gld (p rg gd ga gb imm18) : Statement (.gld p rg gd ga gb imm18) := fun _ => by
  show decode (0b01#2 ++ p ++ 0x46#7 ++ gd ++ ga ++ gb ++ 0#3 ++ rg) (0#14 ++ imm18) = _
  refine (decode_eq (t := .A) (p := p) (m := 0x46#7) ?_ ?_ ?_).trans ?_
  rotate_left 3
  · have h : (0b01#2 ++ p ++ 0x46#7 ++ gd ++ ga ++ gb ++ 0#3 ++ rg).extractLsb' 1 3 = 0#3 := by
      simp (disch := decide) only [ex_hi, ex_lo, ex_self, Nat.reduceSub]
    simp only [BitVec.reduceToNat, Nat.reduceLeDiff, if_true, if_false, decodeA, h, BitVec.reduceEq]
    simp (disch := decide) only [zeros, ex_hi, ex_lo, ex_self, Nat.reduceSub] <;> rfl
  all_goals simp (disch := decide) only [ex_hi, ex_lo, ex_self, Nat.reduceSub] <;> rfl

theorem gst (p rg gd ga gb imm18) : Statement (.gst p rg gd ga gb imm18) := fun _ => by
  show decode (0b01#2 ++ p ++ 0x47#7 ++ gd ++ ga ++ gb ++ 0#3 ++ rg) (0#14 ++ imm18) = _
  refine (decode_eq (t := .A) (p := p) (m := 0x47#7) ?_ ?_ ?_).trans ?_
  rotate_left 3
  · have h : (0b01#2 ++ p ++ 0x47#7 ++ gd ++ ga ++ gb ++ 0#3 ++ rg).extractLsb' 1 3 = 0#3 := by
      simp (disch := decide) only [ex_hi, ex_lo, ex_self, Nat.reduceSub]
    simp only [BitVec.reduceToNat, Nat.reduceLeDiff, if_true, if_false, decodeA, h, BitVec.reduceEq]
    simp (disch := decide) only [zeros, ex_hi, ex_lo, ex_self, Nat.reduceSub] <;> rfl
  all_goals simp (disch := decide) only [ex_hi, ex_lo, ex_self, Nat.reduceSub] <;> rfl

theorem lchain (p gd ga lad) : Statement (.lchain p gd ga lad) := fun _ => by
  show decode (0b01#2 ++ p ++ 0x48#7 ++ gd ++ ga ++ 0#9) (0#9 ++ lad ++ 0#22) = _
  refine (decode_eq (t := .A) (p := p) (m := 0x48#7) ?_ ?_ ?_).trans ?_
  rotate_left 3
  · simp (disch := decide) only [BitVec.reduceToNat, Nat.reduceLeDiff, if_false, decodeA, zeros, ex_hi, ex_lo, ex_self,
      Nat.reduceSub] <;> rfl
  all_goals simp (disch := decide) only [ex_hi, ex_lo, ex_self, Nat.reduceSub] <;> rfl

theorem preft (p ga gb dies) : Statement (.preft p ga gb dies) := fun _ => by
  show decode (0b01#2 ++ p ++ 0x49#7 ++ 0#5 ++ ga ++ gb ++ 0#4) (0#28 ++ dies) = _
  refine (decode_eq (t := .A) (p := p) (m := 0x49#7) ?_ ?_ ?_).trans ?_
  rotate_left 3
  · simp (disch := decide) only [BitVec.reduceToNat, Nat.reduceLeDiff, if_false, decodeA, zeros, ex_hi, ex_lo, ex_self,
      Nat.reduceSub] <;> rfl
  all_goals simp (disch := decide) only [ex_hi, ex_lo, ex_self, Nat.reduceSub] <;> rfl

theorem shdwDef (p gd ga gb imm18) : Statement (.shdwDef p gd ga gb imm18) := fun _ => by
  show decode (0b01#2 ++ p ++ 0x4a#7 ++ gd ++ ga ++ gb ++ 0#4) (0#14 ++ imm18) = _
  refine (decode_eq (t := .A) (p := p) (m := 0x4a#7) ?_ ?_ ?_).trans ?_
  rotate_left 3
  · have h : (0b01#2 ++ p ++ 0x4a#7 ++ gd ++ ga ++ gb ++ 0#4).extractLsb' 0 4 = 0#4 := by
      simp (disch := decide) only [ex_hi, ex_lo, ex_self, Nat.reduceSub]
    simp only [BitVec.reduceToNat, Nat.reduceLeDiff, if_true, if_false, decodeA, h, BitVec.reduceEq]
    simp (disch := decide) only [zeros, ex_hi, ex_lo, ex_self, Nat.reduceSub] <;> rfl
  all_goals simp (disch := decide) only [ex_hi, ex_lo, ex_self, Nat.reduceSub] <;> rfl

theorem shdwArm (p gd) : Statement (.shdwArm p gd) := fun _ => by
  show decode (0b01#2 ++ p ++ 0x4a#7 ++ gd ++ 0#10 ++ 1#4) (0#32) = _
  refine (decode_eq (t := .A) (p := p) (m := 0x4a#7) ?_ ?_ ?_).trans ?_
  rotate_left 3
  · have h : (0b01#2 ++ p ++ 0x4a#7 ++ gd ++ 0#10 ++ 1#4).extractLsb' 0 4 = 1#4 := by
      simp (disch := decide) only [ex_hi, ex_lo, ex_self, Nat.reduceSub]
    simp only [BitVec.reduceToNat, Nat.reduceLeDiff, if_true, if_false, decodeA, h, BitVec.reduceEq]
    simp (disch := decide) only [shadowZeros, zeros, ex_hi, ex_lo, ex_self, Nat.reduceSub] <;> rfl
  all_goals simp (disch := decide) only [ex_hi, ex_lo, ex_self, Nat.reduceSub] <;> rfl

theorem shdwFree (p gd) : Statement (.shdwFree p gd) := fun _ => by
  show decode (0b01#2 ++ p ++ 0x4a#7 ++ gd ++ 0#10 ++ 2#4) (0#32) = _
  refine (decode_eq (t := .A) (p := p) (m := 0x4a#7) ?_ ?_ ?_).trans ?_
  rotate_left 3
  · have h : (0b01#2 ++ p ++ 0x4a#7 ++ gd ++ 0#10 ++ 2#4).extractLsb' 0 4 = 2#4 := by
      simp (disch := decide) only [ex_hi, ex_lo, ex_self, Nat.reduceSub]
    simp only [BitVec.reduceToNat, Nat.reduceLeDiff, if_true, if_false, decodeA, h, BitVec.reduceEq]
    simp (disch := decide) only [shadowZeros, zeros, ex_hi, ex_lo, ex_self, Nat.reduceSub] <;> rfl
  all_goals simp (disch := decide) only [ex_hi, ex_lo, ex_self, Nat.reduceSub] <;> rfl

theorem publ (p ga) : Statement (.publ p ga) := fun _ => by
  show decode (0b01#2 ++ p ++ 0x4b#7 ++ 0#5 ++ ga ++ 0#9) (0#32) = _
  refine (decode_eq (t := .A) (p := p) (m := 0x4b#7) ?_ ?_ ?_).trans ?_
  rotate_left 3
  · simp (disch := decide) only [BitVec.reduceToNat, Nat.reduceLeDiff, if_false, decodeA, zeros, ex_hi, ex_lo, ex_self,
      Nat.reduceSub] <;> rfl
  all_goals simp (disch := decide) only [ex_hi, ex_lo, ex_self, Nat.reduceSub] <;> rfl

theorem astatEcur (p gd) : Statement (.astatEcur p gd) := fun _ => by
  show decode (0b01#2 ++ p ++ 0x4c#7 ++ gd ++ 0#10 ++ 0#4) (0#32) = _
  refine (decode_eq (t := .A) (p := p) (m := 0x4c#7) ?_ ?_ ?_).trans ?_
  rotate_left 3
  · have h : (0b01#2 ++ p ++ 0x4c#7 ++ gd ++ 0#10 ++ 0#4).extractLsb' 0 4 = 0#4 := by
      simp (disch := decide) only [ex_hi, ex_lo, ex_self, Nat.reduceSub]
    simp only [BitVec.reduceToNat, Nat.reduceLeDiff, if_true, if_false, decodeA, h, BitVec.reduceEq]
    simp (disch := decide) only [zeros, ex_hi, ex_lo, ex_self, Nat.reduceSub] <;> rfl
  all_goals simp (disch := decide) only [ex_hi, ex_lo, ex_self, Nat.reduceSub] <;> rfl

theorem astatScur (p gd) : Statement (.astatScur p gd) := fun _ => by
  show decode (0b01#2 ++ p ++ 0x4c#7 ++ gd ++ 0#10 ++ 1#4) (0#32) = _
  refine (decode_eq (t := .A) (p := p) (m := 0x4c#7) ?_ ?_ ?_).trans ?_
  rotate_left 3
  · have h : (0b01#2 ++ p ++ 0x4c#7 ++ gd ++ 0#10 ++ 1#4).extractLsb' 0 4 = 1#4 := by
      simp (disch := decide) only [ex_hi, ex_lo, ex_self, Nat.reduceSub]
    simp only [BitVec.reduceToNat, Nat.reduceLeDiff, if_true, if_false, decodeA, h, BitVec.reduceEq]
    simp (disch := decide) only [zeros, ex_hi, ex_lo, ex_self, Nat.reduceSub] <;> rfl
  all_goals simp (disch := decide) only [ex_hi, ex_lo, ex_self, Nat.reduceSub] <;> rfl

theorem astatSetec (p ga) : Statement (.astatSetec p ga) := fun _ => by
  show decode (0b01#2 ++ p ++ 0x4c#7 ++ 0#5 ++ ga ++ 0#5 ++ 2#4) (0#32) = _
  refine (decode_eq (t := .A) (p := p) (m := 0x4c#7) ?_ ?_ ?_).trans ?_
  rotate_left 3
  · have h : (0b01#2 ++ p ++ 0x4c#7 ++ 0#5 ++ ga ++ 0#5 ++ 2#4).extractLsb' 0 4 = 2#4 := by
      simp (disch := decide) only [ex_hi, ex_lo, ex_self, Nat.reduceSub]
    simp only [BitVec.reduceToNat, Nat.reduceLeDiff, if_true, if_false, decodeA, h, BitVec.reduceEq]
    simp (disch := decide) only [zeros, ex_hi, ex_lo, ex_self, Nat.reduceSub] <;> rfl
  all_goals simp (disch := decide) only [ex_hi, ex_lo, ex_self, Nat.reduceSub] <;> rfl

theorem astatSetsc (p ga) : Statement (.astatSetsc p ga) := fun _ => by
  show decode (0b01#2 ++ p ++ 0x4c#7 ++ 0#5 ++ ga ++ 0#5 ++ 3#4) (0#32) = _
  refine (decode_eq (t := .A) (p := p) (m := 0x4c#7) ?_ ?_ ?_).trans ?_
  rotate_left 3
  · have h : (0b01#2 ++ p ++ 0x4c#7 ++ 0#5 ++ ga ++ 0#5 ++ 3#4).extractLsb' 0 4 = 3#4 := by
      simp (disch := decide) only [ex_hi, ex_lo, ex_self, Nat.reduceSub]
    simp only [BitVec.reduceToNat, Nat.reduceLeDiff, if_true, if_false, decodeA, h, BitVec.reduceEq]
    simp (disch := decide) only [zeros, ex_hi, ex_lo, ex_self, Nat.reduceSub] <;> rfl
  all_goals simp (disch := decide) only [ex_hi, ex_lo, ex_self, Nat.reduceSub] <;> rfl

theorem astatRing (p gd rk) : Statement (.astatRing p gd rk) := fun _ => by
  show decode (0b01#2 ++ p ++ 0x4c#7 ++ gd ++ 0#10 ++ 4#4) (0#28 ++ rk) = _
  refine (decode_eq (t := .A) (p := p) (m := 0x4c#7) ?_ ?_ ?_).trans ?_
  rotate_left 3
  · have h : (0b01#2 ++ p ++ 0x4c#7 ++ gd ++ 0#10 ++ 4#4).extractLsb' 0 4 = 4#4 := by
      simp (disch := decide) only [ex_hi, ex_lo, ex_self, Nat.reduceSub]
    simp only [BitVec.reduceToNat, Nat.reduceLeDiff, if_true, if_false, decodeA, h, BitVec.reduceEq]
    simp (disch := decide) only [zeros, ex_hi, ex_lo, ex_self, Nat.reduceSub] <;> rfl
  all_goals simp (disch := decide) only [ex_hi, ex_lo, ex_self, Nat.reduceSub] <;> rfl

theorem astatSwait (p gd n sem) : Statement (.astatSwait p gd n sem) := fun _ => by
  show decode (0b01#2 ++ p ++ 0x4c#7 ++ gd ++ 0#10 ++ 5#4) (0#14 ++ n ++ sem) = _
  refine (decode_eq (t := .A) (p := p) (m := 0x4c#7) ?_ ?_ ?_).trans ?_
  rotate_left 3
  · have h : (0b01#2 ++ p ++ 0x4c#7 ++ gd ++ 0#10 ++ 5#4).extractLsb' 0 4 = 5#4 := by
      simp (disch := decide) only [ex_hi, ex_lo, ex_self, Nat.reduceSub]
    simp only [BitVec.reduceToNat, Nat.reduceLeDiff, if_true, if_false, decodeA, h, BitVec.reduceEq]
    simp (disch := decide) only [zeros, ex_hi, ex_lo, ex_self, Nat.reduceSub] <;> rfl
  all_goals simp (disch := decide) only [ex_hi, ex_lo, ex_self, Nat.reduceSub] <;> rfl

theorem astatSsig (p gd po n sem) : Statement (.astatSsig p gd po n sem) := fun _ => by
  show decode (0b01#2 ++ p ++ 0x4c#7 ++ gd ++ 0#10 ++ 6#4) (0#9 ++ po ++ 0#4 ++ n ++ sem) = _
  refine (decode_eq (t := .A) (p := p) (m := 0x4c#7) ?_ ?_ ?_).trans ?_
  rotate_left 3
  · have h : (0b01#2 ++ p ++ 0x4c#7 ++ gd ++ 0#10 ++ 6#4).extractLsb' 0 4 = 6#4 := by
      simp (disch := decide) only [ex_hi, ex_lo, ex_self, Nat.reduceSub]
    simp only [BitVec.reduceToNat, Nat.reduceLeDiff, if_true, if_false, decodeA, h, BitVec.reduceEq]
    simp (disch := decide) only [zeros, ex_hi, ex_lo, ex_self, Nat.reduceSub] <;> rfl
  all_goals simp (disch := decide) only [ex_hi, ex_lo, ex_self, Nat.reduceSub] <;> rfl

theorem astatSread (p gd sem) : Statement (.astatSread p gd sem) := fun _ => by
  show decode (0b01#2 ++ p ++ 0x4c#7 ++ gd ++ 0#10 ++ 7#4) (0#24 ++ sem) = _
  refine (decode_eq (t := .A) (p := p) (m := 0x4c#7) ?_ ?_ ?_).trans ?_
  rotate_left 3
  · have h : (0b01#2 ++ p ++ 0x4c#7 ++ gd ++ 0#10 ++ 7#4).extractLsb' 0 4 = 7#4 := by
      simp (disch := decide) only [ex_hi, ex_lo, ex_self, Nat.reduceSub]
    simp only [BitVec.reduceToNat, Nat.reduceLeDiff, if_true, if_false, decodeA, h, BitVec.reduceEq]
    simp (disch := decide) only [zeros, ex_hi, ex_lo, ex_self, Nat.reduceSub] <;> rfl
  all_goals simp (disch := decide) only [ex_hi, ex_lo, ex_self, Nat.reduceSub] <;> rfl

theorem astatSset (p ga sem) : Statement (.astatSset p ga sem) := fun _ => by
  show decode (0b01#2 ++ p ++ 0x4c#7 ++ 0#5 ++ ga ++ 0#5 ++ 8#4) (0#24 ++ sem) = _
  refine (decode_eq (t := .A) (p := p) (m := 0x4c#7) ?_ ?_ ?_).trans ?_
  rotate_left 3
  · have h : (0b01#2 ++ p ++ 0x4c#7 ++ 0#5 ++ ga ++ 0#5 ++ 8#4).extractLsb' 0 4 = 8#4 := by
      simp (disch := decide) only [ex_hi, ex_lo, ex_self, Nat.reduceSub]
    simp only [BitVec.reduceToNat, Nat.reduceLeDiff, if_true, if_false, decodeA, h, BitVec.reduceEq]
    simp (disch := decide) only [zeros, ex_hi, ex_lo, ex_self, Nat.reduceSub] <;> rfl
  all_goals simp (disch := decide) only [ex_hi, ex_lo, ex_self, Nat.reduceSub] <;> rfl

theorem astatChain (p gd ga) : Statement (.astatChain p gd ga) := fun _ => by
  show decode (0b01#2 ++ p ++ 0x4c#7 ++ gd ++ ga ++ 0#5 ++ 9#4) (0#32) = _
  refine (decode_eq (t := .A) (p := p) (m := 0x4c#7) ?_ ?_ ?_).trans ?_
  rotate_left 3
  · have h : (0b01#2 ++ p ++ 0x4c#7 ++ gd ++ ga ++ 0#5 ++ 9#4).extractLsb' 0 4 = 9#4 := by
      simp (disch := decide) only [ex_hi, ex_lo, ex_self, Nat.reduceSub]
    simp only [BitVec.reduceToNat, Nat.reduceLeDiff, if_true, if_false, decodeA, h, BitVec.reduceEq]
    simp (disch := decide) only [zeros, ex_hi, ex_lo, ex_self, Nat.reduceSub] <;> rfl
  all_goals simp (disch := decide) only [ex_hi, ex_lo, ex_self, Nat.reduceSub] <;> rfl

theorem kvw (p gd ga gb imm18) : Statement (.kvw p gd ga gb imm18) := fun _ => by
  show decode (0b01#2 ++ p ++ 0x50#7 ++ gd ++ ga ++ gb ++ 0#4) (0#14 ++ imm18) = _
  refine (decode_eq (t := .A) (p := p) (m := 0x50#7) ?_ ?_ ?_).trans ?_
  rotate_left 3
  · simp (disch := decide) only [BitVec.reduceToNat, Nat.reduceLeDiff, if_false, decodeA, zeros, ex_hi, ex_lo, ex_self,
      Nat.reduceSub] <;> rfl
  all_goals simp (disch := decide) only [ex_hi, ex_lo, ex_self, Nat.reduceSub] <;> rfl

theorem kvrn (p gd ga gb) : Statement (.kvrn p gd ga gb) := fun _ => by
  show decode (0b01#2 ++ p ++ 0x51#7 ++ gd ++ ga ++ gb ++ 0#4) (0#32) = _
  refine (decode_eq (t := .A) (p := p) (m := 0x51#7) ?_ ?_ ?_).trans ?_
  rotate_left 3
  · simp (disch := decide) only [BitVec.reduceToNat, Nat.reduceLeDiff, if_false, decodeA, zeros, ex_hi, ex_lo, ex_self,
      Nat.reduceSub] <;> rfl
  all_goals simp (disch := decide) only [ex_hi, ex_lo, ex_self, Nat.reduceSub] <;> rfl

theorem kvadv (p ga gb) : Statement (.kvadv p ga gb) := fun _ => by
  show decode (0b01#2 ++ p ++ 0x52#7 ++ 0#5 ++ ga ++ gb ++ 0#4) (0#32) = _
  refine (decode_eq (t := .A) (p := p) (m := 0x52#7) ?_ ?_ ?_).trans ?_
  rotate_left 3
  · simp (disch := decide) only [BitVec.reduceToNat, Nat.reduceLeDiff, if_false, decodeA, zeros, ex_hi, ex_lo, ex_self,
      Nat.reduceSub] <;> rfl
  all_goals simp (disch := decide) only [ex_hi, ex_lo, ex_self, Nat.reduceSub] <;> rfl

theorem kvrwd (p ga gb) : Statement (.kvrwd p ga gb) := fun _ => by
  show decode (0b01#2 ++ p ++ 0x53#7 ++ 0#5 ++ ga ++ gb ++ 0#4) (0#32) = _
  refine (decode_eq (t := .A) (p := p) (m := 0x53#7) ?_ ?_ ?_).trans ?_
  rotate_left 3
  · simp (disch := decide) only [BitVec.reduceToNat, Nat.reduceLeDiff, if_false, decodeA, zeros, ex_hi, ex_lo, ex_self,
      Nat.reduceSub] <;> rfl
  all_goals simp (disch := decide) only [ex_hi, ex_lo, ex_self, Nat.reduceSub] <;> rfl

theorem kvfork (p ga gb) : Statement (.kvfork p ga gb) := fun _ => by
  show decode (0b01#2 ++ p ++ 0x54#7 ++ 0#5 ++ ga ++ gb ++ 0#4) (0#32) = _
  refine (decode_eq (t := .A) (p := p) (m := 0x54#7) ?_ ?_ ?_).trans ?_
  rotate_left 3
  · simp (disch := decide) only [BitVec.reduceToNat, Nat.reduceLeDiff, if_false, decodeA, zeros, ex_hi, ex_lo, ex_self,
      Nat.reduceSub] <;> rfl
  all_goals simp (disch := decide) only [ex_hi, ex_lo, ex_self, Nat.reduceSub] <;> rfl

theorem kvend (p ga) : Statement (.kvend p ga) := fun _ => by
  show decode (0b01#2 ++ p ++ 0x55#7 ++ 0#5 ++ ga ++ 0#9) (0#32) = _
  refine (decode_eq (t := .A) (p := p) (m := 0x55#7) ?_ ?_ ?_).trans ?_
  rotate_left 3
  · simp (disch := decide) only [BitVec.reduceToNat, Nat.reduceLeDiff, if_false, decodeA, zeros, ex_hi, ex_lo, ex_self,
      Nat.reduceSub] <;> rfl
  all_goals simp (disch := decide) only [ex_hi, ex_lo, ex_self, Nat.reduceSub] <;> rfl

theorem kvgath (p gd ga gb q vr pp pr) : Statement (.kvgath p gd ga gb q vr pp pr) := fun _ => by
  show decode (0b01#2 ++ p ++ 0x56#7 ++ gd ++ ga ++ gb ++ 0#4) (q ++ 0#1 ++ vr ++ 0#17 ++ pp ++ pr) = _
  refine (decode_eq (t := .A) (p := p) (m := 0x56#7) ?_ ?_ ?_).trans ?_
  rotate_left 3
  · simp (disch := decide) only [BitVec.reduceToNat, Nat.reduceLeDiff, if_false, decodeA, zeros, ex_hi, ex_lo, ex_self,
      Nat.reduceSub] <;> rfl
  all_goals simp (disch := decide) only [ex_hi, ex_lo, ex_self, Nat.reduceSub] <;> rfl

theorem kvstat (p gd ga n) : Statement (.kvstat p gd ga n) := fun _ => by
  show decode (0b01#2 ++ p ++ 0x57#7 ++ gd ++ ga ++ 0#5 ++ 0#4) (0#28 ++ n) = _
  refine (decode_eq (t := .A) (p := p) (m := 0x57#7) ?_ ?_ ?_).trans ?_
  rotate_left 3
  · have h : (0b01#2 ++ p ++ 0x57#7 ++ gd ++ ga ++ 0#5 ++ 0#4).extractLsb' 0 4 = 0#4 := by
      simp (disch := decide) only [ex_hi, ex_lo, ex_self, Nat.reduceSub]
    simp only [BitVec.reduceToNat, Nat.reduceLeDiff, if_true, if_false, decodeA, h, BitVec.reduceEq]
    simp (disch := decide) only [zeros, ex_hi, ex_lo, ex_self, Nat.reduceSub] <;> rfl
  all_goals simp (disch := decide) only [ex_hi, ex_lo, ex_self, Nat.reduceSub] <;> rfl

theorem kvstatDrain (p gd ga) : Statement (.kvstatDrain p gd ga) := fun _ => by
  show decode (0b01#2 ++ p ++ 0x57#7 ++ gd ++ ga ++ 0#5 ++ 1#4) (0#32) = _
  refine (decode_eq (t := .A) (p := p) (m := 0x57#7) ?_ ?_ ?_).trans ?_
  rotate_left 3
  · have h : (0b01#2 ++ p ++ 0x57#7 ++ gd ++ ga ++ 0#5 ++ 1#4).extractLsb' 0 4 = 1#4 := by
      simp (disch := decide) only [ex_hi, ex_lo, ex_self, Nat.reduceSub]
    simp only [BitVec.reduceToNat, Nat.reduceLeDiff, if_true, if_false, decodeA, h, BitVec.reduceEq]
    simp (disch := decide) only [zeros, ex_hi, ex_lo, ex_self, Nat.reduceSub] <;> rfl
  all_goals simp (disch := decide) only [ex_hi, ex_lo, ex_self, Nat.reduceSub] <;> rfl

theorem vadd (p sat vd va vb ex mk ty) : Statement (.vadd p sat vd va vb ex mk ty) := fun _ => by
  show decode (0b10#2 ++ p ++ 0x40#7 ++ 0#18 ++ sat) (vd ++ va ++ vb ++ 0#6 ++ ex ++ mk ++ ty) = _
  refine (decode_eq (t := .X) (p := p) (m := 0x40#7) ?_ ?_ ?_).trans ?_
  rotate_left 3
  · simp (disch := decide) only [BitVec.reduceToNat, Nat.reduceLeDiff, if_false, decodeX, zeros, ex_hi, ex_lo, ex_self,
      Nat.reduceSub] <;> rfl
  all_goals simp (disch := decide) only [ex_hi, ex_lo, ex_self, Nat.reduceSub] <;> rfl

theorem vsub (p sat vd va vb ex mk ty) : Statement (.vsub p sat vd va vb ex mk ty) := fun _ => by
  show decode (0b10#2 ++ p ++ 0x41#7 ++ 0#18 ++ sat) (vd ++ va ++ vb ++ 0#6 ++ ex ++ mk ++ ty) = _
  refine (decode_eq (t := .X) (p := p) (m := 0x41#7) ?_ ?_ ?_).trans ?_
  rotate_left 3
  · simp (disch := decide) only [BitVec.reduceToNat, Nat.reduceLeDiff, if_false, decodeX, zeros, ex_hi, ex_lo, ex_self,
      Nat.reduceSub] <;> rfl
  all_goals simp (disch := decide) only [ex_hi, ex_lo, ex_self, Nat.reduceSub] <;> rfl

theorem vmul (p sat vd va vb ex mk ty) : Statement (.vmul p sat vd va vb ex mk ty) := fun _ => by
  show decode (0b10#2 ++ p ++ 0x42#7 ++ 0#18 ++ sat) (vd ++ va ++ vb ++ 0#6 ++ ex ++ mk ++ ty) = _
  refine (decode_eq (t := .X) (p := p) (m := 0x42#7) ?_ ?_ ?_).trans ?_
  rotate_left 3
  · simp (disch := decide) only [BitVec.reduceToNat, Nat.reduceLeDiff, if_false, decodeX, zeros, ex_hi, ex_lo, ex_self,
      Nat.reduceSub] <;> rfl
  all_goals simp (disch := decide) only [ex_hi, ex_lo, ex_self, Nat.reduceSub] <;> rfl

theorem vfma (p sat vd va vb vc ex mk ty) : Statement (.vfma p sat vd va vb vc ex mk ty) := fun _ => by
  show decode (0b10#2 ++ p ++ 0x43#7 ++ 0#18 ++ sat) (vd ++ va ++ vb ++ vc ++ ex ++ mk ++ ty) = _
  refine (decode_eq (t := .X) (p := p) (m := 0x43#7) ?_ ?_ ?_).trans ?_
  rotate_left 3
  · simp (disch := decide) only [BitVec.reduceToNat, Nat.reduceLeDiff, if_false, decodeX, zeros, ex_hi, ex_lo, ex_self,
      Nat.reduceSub] <;> rfl
  all_goals simp (disch := decide) only [ex_hi, ex_lo, ex_self, Nat.reduceSub] <;> rfl

theorem vfms (p sat vd va vb vc ex mk ty) : Statement (.vfms p sat vd va vb vc ex mk ty) := fun _ => by
  show decode (0b10#2 ++ p ++ 0x44#7 ++ 0#18 ++ sat) (vd ++ va ++ vb ++ vc ++ ex ++ mk ++ ty) = _
  refine (decode_eq (t := .X) (p := p) (m := 0x44#7) ?_ ?_ ?_).trans ?_
  rotate_left 3
  · simp (disch := decide) only [BitVec.reduceToNat, Nat.reduceLeDiff, if_false, decodeX, zeros, ex_hi, ex_lo, ex_self,
      Nat.reduceSub] <;> rfl
  all_goals simp (disch := decide) only [ex_hi, ex_lo, ex_self, Nat.reduceSub] <;> rfl

theorem vmin (p vd va vb ex mk ty) : Statement (.vmin p vd va vb ex mk ty) := fun _ => by
  show decode (0b10#2 ++ p ++ 0x45#7 ++ 0#19) (vd ++ va ++ vb ++ 0#6 ++ ex ++ mk ++ ty) = _
  refine (decode_eq (t := .X) (p := p) (m := 0x45#7) ?_ ?_ ?_).trans ?_
  rotate_left 3
  · simp (disch := decide) only [BitVec.reduceToNat, Nat.reduceLeDiff, if_false, decodeX, zeros, ex_hi, ex_lo, ex_self,
      Nat.reduceSub] <;> rfl
  all_goals simp (disch := decide) only [ex_hi, ex_lo, ex_self, Nat.reduceSub] <;> rfl

theorem vmax (p vd va vb ex mk ty) : Statement (.vmax p vd va vb ex mk ty) := fun _ => by
  show decode (0b10#2 ++ p ++ 0x46#7 ++ 0#19) (vd ++ va ++ vb ++ 0#6 ++ ex ++ mk ++ ty) = _
  refine (decode_eq (t := .X) (p := p) (m := 0x46#7) ?_ ?_ ?_).trans ?_
  rotate_left 3
  · simp (disch := decide) only [BitVec.reduceToNat, Nat.reduceLeDiff, if_false, decodeX, zeros, ex_hi, ex_lo, ex_self,
      Nat.reduceSub] <;> rfl
  all_goals simp (disch := decide) only [ex_hi, ex_lo, ex_self, Nat.reduceSub] <;> rfl

theorem vabs (p sat vd va ex mk ty) : Statement (.vabs p sat vd va ex mk ty) := fun _ => by
  show decode (0b10#2 ++ p ++ 0x47#7 ++ 0#18 ++ sat) (vd ++ va ++ 0#12 ++ ex ++ mk ++ ty) = _
  refine (decode_eq (t := .X) (p := p) (m := 0x47#7) ?_ ?_ ?_).trans ?_
  rotate_left 3
  · simp (disch := decide) only [BitVec.reduceToNat, Nat.reduceLeDiff, if_false, decodeX, zeros, ex_hi, ex_lo, ex_self,
      Nat.reduceSub] <;> rfl
  all_goals simp (disch := decide) only [ex_hi, ex_lo, ex_self, Nat.reduceSub] <;> rfl

theorem vneg (p sat vd va ex mk ty) : Statement (.vneg p sat vd va ex mk ty) := fun _ => by
  show decode (0b10#2 ++ p ++ 0x48#7 ++ 0#18 ++ sat) (vd ++ va ++ 0#12 ++ ex ++ mk ++ ty) = _
  refine (decode_eq (t := .X) (p := p) (m := 0x48#7) ?_ ?_ ?_).trans ?_
  rotate_left 3
  · simp (disch := decide) only [BitVec.reduceToNat, Nat.reduceLeDiff, if_false, decodeX, zeros, ex_hi, ex_lo, ex_self,
      Nat.reduceSub] <;> rfl
  all_goals simp (disch := decide) only [ex_hi, ex_lo, ex_self, Nat.reduceSub] <;> rfl

theorem vand (p vd va vb ex mk ty) : Statement (.vand p vd va vb ex mk ty) := fun _ => by
  show decode (0b10#2 ++ p ++ 0x49#7 ++ 0#19) (vd ++ va ++ vb ++ 0#6 ++ ex ++ mk ++ ty) = _
  refine (decode_eq (t := .X) (p := p) (m := 0x49#7) ?_ ?_ ?_).trans ?_
  rotate_left 3
  · simp (disch := decide) only [BitVec.reduceToNat, Nat.reduceLeDiff, if_false, decodeX, zeros, ex_hi, ex_lo, ex_self,
      Nat.reduceSub] <;> rfl
  all_goals simp (disch := decide) only [ex_hi, ex_lo, ex_self, Nat.reduceSub] <;> rfl

theorem vor (p vd va vb ex mk ty) : Statement (.vor p vd va vb ex mk ty) := fun _ => by
  show decode (0b10#2 ++ p ++ 0x4a#7 ++ 0#19) (vd ++ va ++ vb ++ 0#6 ++ ex ++ mk ++ ty) = _
  refine (decode_eq (t := .X) (p := p) (m := 0x4a#7) ?_ ?_ ?_).trans ?_
  rotate_left 3
  · simp (disch := decide) only [BitVec.reduceToNat, Nat.reduceLeDiff, if_false, decodeX, zeros, ex_hi, ex_lo, ex_self,
      Nat.reduceSub] <;> rfl
  all_goals simp (disch := decide) only [ex_hi, ex_lo, ex_self, Nat.reduceSub] <;> rfl

theorem vxor (p vd va vb ex mk ty) : Statement (.vxor p vd va vb ex mk ty) := fun _ => by
  show decode (0b10#2 ++ p ++ 0x4b#7 ++ 0#19) (vd ++ va ++ vb ++ 0#6 ++ ex ++ mk ++ ty) = _
  refine (decode_eq (t := .X) (p := p) (m := 0x4b#7) ?_ ?_ ?_).trans ?_
  rotate_left 3
  · simp (disch := decide) only [BitVec.reduceToNat, Nat.reduceLeDiff, if_false, decodeX, zeros, ex_hi, ex_lo, ex_self,
      Nat.reduceSub] <;> rfl
  all_goals simp (disch := decide) only [ex_hi, ex_lo, ex_self, Nat.reduceSub] <;> rfl

theorem vnot (p vd va ex mk ty) : Statement (.vnot p vd va ex mk ty) := fun _ => by
  show decode (0b10#2 ++ p ++ 0x4c#7 ++ 0#19) (vd ++ va ++ 0#12 ++ ex ++ mk ++ ty) = _
  refine (decode_eq (t := .X) (p := p) (m := 0x4c#7) ?_ ?_ ?_).trans ?_
  rotate_left 3
  · simp (disch := decide) only [BitVec.reduceToNat, Nat.reduceLeDiff, if_false, decodeX, zeros, ex_hi, ex_lo, ex_self,
      Nat.reduceSub] <;> rfl
  all_goals simp (disch := decide) only [ex_hi, ex_lo, ex_self, Nat.reduceSub] <;> rfl

theorem vshl (p im n vd va vb ex mk ty) : Statement (.vshl p im n vd va vb ex mk ty) := fun _ => by
  show decode (0b10#2 ++ p ++ 0x4d#7 ++ 0#5 ++ im ++ 0#7 ++ n) (vd ++ va ++ vb ++ 0#6 ++ ex ++ mk ++ ty) = _
  refine (decode_eq (t := .X) (p := p) (m := 0x4d#7) ?_ ?_ ?_).trans ?_
  rotate_left 3
  · simp (disch := decide) only [BitVec.reduceToNat, Nat.reduceLeDiff, if_false, decodeX, zeros, ex_hi, ex_lo, ex_self,
      Nat.reduceSub] <;> rfl
  all_goals simp (disch := decide) only [ex_hi, ex_lo, ex_self, Nat.reduceSub] <;> rfl

theorem vshr (p im n vd va vb ex mk ty) : Statement (.vshr p im n vd va vb ex mk ty) := fun _ => by
  show decode (0b10#2 ++ p ++ 0x4e#7 ++ 0#5 ++ im ++ 0#7 ++ n) (vd ++ va ++ vb ++ 0#6 ++ ex ++ mk ++ ty) = _
  refine (decode_eq (t := .X) (p := p) (m := 0x4e#7) ?_ ?_ ?_).trans ?_
  rotate_left 3
  · simp (disch := decide) only [BitVec.reduceToNat, Nat.reduceLeDiff, if_false, decodeX, zeros, ex_hi, ex_lo, ex_self,
      Nat.reduceSub] <;> rfl
  all_goals simp (disch := decide) only [ex_hi, ex_lo, ex_self, Nat.reduceSub] <;> rfl

theorem vsra (p im n vd va vb ex mk ty) : Statement (.vsra p im n vd va vb ex mk ty) := fun _ => by
  show decode (0b10#2 ++ p ++ 0x4f#7 ++ 0#5 ++ im ++ 0#7 ++ n) (vd ++ va ++ vb ++ 0#6 ++ ex ++ mk ++ ty) = _
  refine (decode_eq (t := .X) (p := p) (m := 0x4f#7) ?_ ?_ ?_).trans ?_
  rotate_left 3
  · simp (disch := decide) only [BitVec.reduceToNat, Nat.reduceLeDiff, if_false, decodeX, zeros, ex_hi, ex_lo, ex_self,
      Nat.reduceSub] <;> rfl
  all_goals simp (disch := decide) only [ex_hi, ex_lo, ex_self, Nat.reduceSub] <;> rfl

theorem vcmp (p cc vd va vb ex mk ty) : Statement (.vcmp p cc vd va vb ex mk ty) := fun _ => by
  show decode (0b10#2 ++ p ++ 0x50#7 ++ 0#16 ++ cc) (vd ++ va ++ vb ++ 0#6 ++ ex ++ mk ++ ty) = _
  refine (decode_eq (t := .X) (p := p) (m := 0x50#7) ?_ ?_ ?_).trans ?_
  rotate_left 3
  · simp (disch := decide) only [BitVec.reduceToNat, Nat.reduceLeDiff, if_false, decodeX, zeros, ex_hi, ex_lo, ex_self,
      Nat.reduceSub] <;> rfl
  all_goals simp (disch := decide) only [ex_hi, ex_lo, ex_self, Nat.reduceSub] <;> rfl

theorem vsel (p vd va vb vc ex mk ty) : Statement (.vsel p vd va vb vc ex mk ty) := fun _ => by
  show decode (0b10#2 ++ p ++ 0x51#7 ++ 0#19) (vd ++ va ++ vb ++ vc ++ ex ++ mk ++ ty) = _
  refine (decode_eq (t := .X) (p := p) (m := 0x51#7) ?_ ?_ ?_).trans ?_
  rotate_left 3
  · simp (disch := decide) only [BitVec.reduceToNat, Nat.reduceLeDiff, if_false, decodeX, zeros, ex_hi, ex_lo, ex_self,
      Nat.reduceSub] <;> rfl
  all_goals simp (disch := decide) only [ex_hi, ex_lo, ex_self, Nat.reduceSub] <;> rfl

theorem vmov (p vd va ex mk ty) : Statement (.vmov p vd va ex mk ty) := fun _ => by
  show decode (0b10#2 ++ p ++ 0x52#7 ++ 0#5 ++ 0#1 ++ 0#13) (vd ++ va ++ 0#12 ++ ex ++ mk ++ ty) = _
  refine (decode_eq (t := .X) (p := p) (m := 0x52#7) ?_ ?_ ?_).trans ?_
  rotate_left 3
  · have h : (0b10#2 ++ p ++ 0x52#7 ++ 0#5 ++ 0#1 ++ 0#13).extractLsb' 13 1 = 0#1 := by
      simp (disch := decide) only [ex_hi, ex_lo, ex_self, Nat.reduceSub]
    simp only [BitVec.reduceToNat, Nat.reduceLeDiff, if_true, if_false, decodeX, h, BitVec.reduceEq]
    simp (disch := decide) only [zeros, ex_hi, ex_lo, ex_self, Nat.reduceSub] <;> rfl
  all_goals simp (disch := decide) only [ex_hi, ex_lo, ex_self, Nat.reduceSub] <;> rfl

theorem vmovTerm (p vd ex) : Statement (.vmovTerm p vd ex) := fun _ => by
  show decode (0b10#2 ++ p ++ 0x52#7 ++ 0#5 ++ 1#1 ++ 0#13) (vd ++ 0#18 ++ ex ++ 0#5) = _
  refine (decode_eq (t := .X) (p := p) (m := 0x52#7) ?_ ?_ ?_).trans ?_
  rotate_left 3
  · have h : (0b10#2 ++ p ++ 0x52#7 ++ 0#5 ++ 1#1 ++ 0#13).extractLsb' 13 1 = 1#1 := by
      simp (disch := decide) only [ex_hi, ex_lo, ex_self, Nat.reduceSub]
    simp only [BitVec.reduceToNat, Nat.reduceLeDiff, if_true, if_false, decodeX, h, BitVec.reduceEq]
    simp (disch := decide) only [zeros, ex_hi, ex_lo, ex_self, Nat.reduceSub] <;> rfl
  all_goals simp (disch := decide) only [ex_hi, ex_lo, ex_self, Nat.reduceSub] <;> rfl

theorem vbcast (p gs lf j vd va ex mk ty) : Statement (.vbcast p gs lf j vd va ex mk ty) := fun _ => by
  show decode (0b10#2 ++ p ++ 0x53#7 ++ gs ++ lf ++ j) (vd ++ va ++ 0#12 ++ ex ++ mk ++ ty) = _
  refine (decode_eq (t := .X) (p := p) (m := 0x53#7) ?_ ?_ ?_).trans ?_
  rotate_left 3
  · simp (disch := decide) only [BitVec.reduceToNat, Nat.reduceLeDiff, if_false, decodeX, zeros, ex_hi, ex_lo, ex_self,
      Nat.reduceSub] <;> rfl
  all_goals simp (disch := decide) only [ex_hi, ex_lo, ex_self, Nat.reduceSub] <;> rfl

theorem viota (p gs imm14 vd ex mk ty) : Statement (.viota p gs imm14 vd ex mk ty) := fun _ => by
  show decode (0b10#2 ++ p ++ 0x54#7 ++ gs ++ imm14) (vd ++ 0#18 ++ ex ++ mk ++ ty) = _
  refine (decode_eq (t := .X) (p := p) (m := 0x54#7) ?_ ?_ ?_).trans ?_
  rotate_left 3
  · simp (disch := decide) only [BitVec.reduceToNat, Nat.reduceLeDiff, if_false, decodeX, zeros, ex_hi, ex_lo, ex_self,
      Nat.reduceSub] <;> rfl
  all_goals simp (disch := decide) only [ex_hi, ex_lo, ex_self, Nat.reduceSub] <;> rfl

theorem vcvt (p st vd va ex mk ty) : Statement (.vcvt p st vd va ex mk ty) := fun _ => by
  show decode (0b10#2 ++ p ++ 0x55#7 ++ 0#15 ++ st) (vd ++ va ++ 0#12 ++ ex ++ mk ++ ty) = _
  refine (decode_eq (t := .X) (p := p) (m := 0x55#7) ?_ ?_ ?_).trans ?_
  rotate_left 3
  · simp (disch := decide) only [BitVec.reduceToNat, Nat.reduceLeDiff, if_false, decodeX, zeros, ex_hi, ex_lo, ex_self,
      Nat.reduceSub] <;> rfl
  all_goals simp (disch := decide) only [ex_hi, ex_lo, ex_self, Nat.reduceSub] <;> rfl

theorem vperm (p vd va vb ex mk ty) : Statement (.vperm p vd va vb ex mk ty) := fun _ => by
  show decode (0b10#2 ++ p ++ 0x56#7 ++ 0#19) (vd ++ va ++ vb ++ 0#6 ++ ex ++ mk ++ ty) = _
  refine (decode_eq (t := .X) (p := p) (m := 0x56#7) ?_ ?_ ?_).trans ?_
  rotate_left 3
  · simp (disch := decide) only [BitVec.reduceToNat, Nat.reduceLeDiff, if_false, decodeX, zeros, ex_hi, ex_lo, ex_self,
      Nat.reduceSub] <;> rfl
  all_goals simp (disch := decide) only [ex_hi, ex_lo, ex_self, Nat.reduceSub] <;> rfl

theorem vnib (p vd va ex mk ty) : Statement (.vnib p vd va ex mk ty) := fun _ => by
  show decode (0b10#2 ++ p ++ 0x57#7 ++ 0#19) (vd ++ va ++ 0#12 ++ ex ++ mk ++ ty) = _
  refine (decode_eq (t := .X) (p := p) (m := 0x57#7) ?_ ?_ ?_).trans ?_
  rotate_left 3
  · simp (disch := decide) only [BitVec.reduceToNat, Nat.reduceLeDiff, if_false, decodeX, zeros, ex_hi, ex_lo, ex_self,
      Nat.reduceSub] <;> rfl
  all_goals simp (disch := decide) only [ex_hi, ex_lo, ex_self, Nat.reduceSub] <;> rfl

theorem vzip (p vd va vb ex mk ty) : Statement (.vzip p vd va vb ex mk ty) := fun _ => by
  show decode (0b10#2 ++ p ++ 0x58#7 ++ 0#19) (vd ++ va ++ vb ++ 0#6 ++ ex ++ mk ++ ty) = _
  refine (decode_eq (t := .X) (p := p) (m := 0x58#7) ?_ ?_ ?_).trans ?_
  rotate_left 3
  · simp (disch := decide) only [BitVec.reduceToNat, Nat.reduceLeDiff, if_false, decodeX, zeros, ex_hi, ex_lo, ex_self,
      Nat.reduceSub] <;> rfl
  all_goals simp (disch := decide) only [ex_hi, ex_lo, ex_self, Nat.reduceSub] <;> rfl

theorem vunzip (p vd va ex mk ty) : Statement (.vunzip p vd va ex mk ty) := fun _ => by
  show decode (0b10#2 ++ p ++ 0x59#7 ++ 0#19) (vd ++ va ++ 0#12 ++ ex ++ mk ++ ty) = _
  refine (decode_eq (t := .X) (p := p) (m := 0x59#7) ?_ ?_ ?_).trans ?_
  rotate_left 3
  · simp (disch := decide) only [BitVec.reduceToNat, Nat.reduceLeDiff, if_false, decodeX, zeros, ex_hi, ex_lo, ex_self,
      Nat.reduceSub] <;> rfl
  all_goals simp (disch := decide) only [ex_hi, ex_lo, ex_self, Nat.reduceSub] <;> rfl

theorem vslide (p gs vd va vb ex mk ty) : Statement (.vslide p gs vd va vb ex mk ty) := fun _ => by
  show decode (0b10#2 ++ p ++ 0x5a#7 ++ gs ++ 0#14) (vd ++ va ++ vb ++ 0#6 ++ ex ++ mk ++ ty) = _
  refine (decode_eq (t := .X) (p := p) (m := 0x5a#7) ?_ ?_ ?_).trans ?_
  rotate_left 3
  · simp (disch := decide) only [BitVec.reduceToNat, Nat.reduceLeDiff, if_false, decodeX, zeros, ex_hi, ex_lo, ex_self,
      Nat.reduceSub] <;> rfl
  all_goals simp (disch := decide) only [ex_hi, ex_lo, ex_self, Nat.reduceSub] <;> rfl

theorem vgath (p x32 n1 vd va vb ex mk ty) : Statement (.vgath p x32 n1 vd va vb ex mk ty) := fun _ => by
  show decode (0b10#2 ++ p ++ 0x5b#7 ++ 0#15 ++ x32 ++ n1) (vd ++ va ++ vb ++ 0#6 ++ ex ++ mk ++ ty) = _
  refine (decode_eq (t := .X) (p := p) (m := 0x5b#7) ?_ ?_ ?_).trans ?_
  rotate_left 3
  · simp (disch := decide) only [BitVec.reduceToNat, Nat.reduceLeDiff, if_false, decodeX, zeros, ex_hi, ex_lo, ex_self,
      Nat.reduceSub] <;> rfl
  all_goals simp (disch := decide) only [ex_hi, ex_lo, ex_self, Nat.reduceSub] <;> rfl

theorem vscat (p x32 n1 vd va vb ex mk ty) : Statement (.vscat p x32 n1 vd va vb ex mk ty) := fun _ => by
  show decode (0b10#2 ++ p ++ 0x5c#7 ++ 0#15 ++ x32 ++ n1) (vd ++ va ++ vb ++ 0#6 ++ ex ++ mk ++ ty) = _
  refine (decode_eq (t := .X) (p := p) (m := 0x5c#7) ?_ ?_ ?_).trans ?_
  rotate_left 3
  · simp (disch := decide) only [BitVec.reduceToNat, Nat.reduceLeDiff, if_false, decodeX, zeros, ex_hi, ex_lo, ex_self,
      Nat.reduceSub] <;> rfl
  all_goals simp (disch := decide) only [ex_hi, ex_lo, ex_self, Nat.reduceSub] <;> rfl

theorem vbmp (p orr n1 vd va ex mk ty) : Statement (.vbmp p orr n1 vd va ex mk ty) := fun _ => by
  show decode (0b10#2 ++ p ++ 0x5d#7 ++ 0#15 ++ orr ++ n1) (vd ++ va ++ 0#12 ++ ex ++ mk ++ ty) = _
  refine (decode_eq (t := .X) (p := p) (m := 0x5d#7) ?_ ?_ ?_).trans ?_
  rotate_left 3
  · simp (disch := decide) only [BitVec.reduceToNat, Nat.reduceLeDiff, if_false, decodeX, zeros, ex_hi, ex_lo, ex_self,
      Nat.reduceSub] <;> rfl
  all_goals simp (disch := decide) only [ex_hi, ex_lo, ex_self, Nat.reduceSub] <;> rfl

theorem vpopc (p gs mm va ex mk ty) : Statement (.vpopc p gs mm va ex mk ty) := fun _ => by
  show decode (0b10#2 ++ p ++ 0x5e#7 ++ gs ++ 0#13 ++ mm) (0#6 ++ va ++ 0#12 ++ ex ++ mk ++ ty) = _
  refine (decode_eq (t := .X) (p := p) (m := 0x5e#7) ?_ ?_ ?_).trans ?_
  rotate_left 3
  · simp (disch := decide) only [BitVec.reduceToNat, Nat.reduceLeDiff, if_false, decodeX, zeros, ex_hi, ex_lo, ex_self,
      Nat.reduceSub] <;> rfl
  all_goals simp (disch := decide) only [ex_hi, ex_lo, ex_self, Nat.reduceSub] <;> rfl

theorem vexp2 (p vd va ex mk ty) : Statement (.vexp2 p vd va ex mk ty) := fun _ => by
  show decode (0b10#2 ++ p ++ 0x60#7 ++ 0#19) (vd ++ va ++ 0#12 ++ ex ++ mk ++ ty) = _
  refine (decode_eq (t := .X) (p := p) (m := 0x60#7) ?_ ?_ ?_).trans ?_
  rotate_left 3
  · simp (disch := decide) only [BitVec.reduceToNat, Nat.reduceLeDiff, if_false, decodeX, zeros, ex_hi, ex_lo, ex_self,
      Nat.reduceSub] <;> rfl
  all_goals simp (disch := decide) only [ex_hi, ex_lo, ex_self, Nat.reduceSub] <;> rfl

theorem vlog2 (p vd va ex mk ty) : Statement (.vlog2 p vd va ex mk ty) := fun _ => by
  show decode (0b10#2 ++ p ++ 0x61#7 ++ 0#19) (vd ++ va ++ 0#12 ++ ex ++ mk ++ ty) = _
  refine (decode_eq (t := .X) (p := p) (m := 0x61#7) ?_ ?_ ?_).trans ?_
  rotate_left 3
  · simp (disch := decide) only [BitVec.reduceToNat, Nat.reduceLeDiff, if_false, decodeX, zeros, ex_hi, ex_lo, ex_self,
      Nat.reduceSub] <;> rfl
  all_goals simp (disch := decide) only [ex_hi, ex_lo, ex_self, Nat.reduceSub] <;> rfl

theorem vrcpa (p vd va ex mk ty) : Statement (.vrcpa p vd va ex mk ty) := fun _ => by
  show decode (0b10#2 ++ p ++ 0x62#7 ++ 0#19) (vd ++ va ++ 0#12 ++ ex ++ mk ++ ty) = _
  refine (decode_eq (t := .X) (p := p) (m := 0x62#7) ?_ ?_ ?_).trans ?_
  rotate_left 3
  · simp (disch := decide) only [BitVec.reduceToNat, Nat.reduceLeDiff, if_false, decodeX, zeros, ex_hi, ex_lo, ex_self,
      Nat.reduceSub] <;> rfl
  all_goals simp (disch := decide) only [ex_hi, ex_lo, ex_self, Nat.reduceSub] <;> rfl

theorem vrsqa (p vd va ex mk ty) : Statement (.vrsqa p vd va ex mk ty) := fun _ => by
  show decode (0b10#2 ++ p ++ 0x63#7 ++ 0#19) (vd ++ va ++ 0#12 ++ ex ++ mk ++ ty) = _
  refine (decode_eq (t := .X) (p := p) (m := 0x63#7) ?_ ?_ ?_).trans ?_
  rotate_left 3
  · simp (disch := decide) only [BitVec.reduceToNat, Nat.reduceLeDiff, if_false, decodeX, zeros, ex_hi, ex_lo, ex_self,
      Nat.reduceSub] <;> rfl
  all_goals simp (disch := decide) only [ex_hi, ex_lo, ex_self, Nat.reduceSub] <;> rfl

theorem vrsum (p gs va ex mk ty) : Statement (.vrsum p gs va ex mk ty) := fun _ => by
  show decode (0b10#2 ++ p ++ 0x64#7 ++ gs ++ 0#14) (0#6 ++ va ++ 0#12 ++ ex ++ mk ++ ty) = _
  refine (decode_eq (t := .X) (p := p) (m := 0x64#7) ?_ ?_ ?_).trans ?_
  rotate_left 3
  · simp (disch := decide) only [BitVec.reduceToNat, Nat.reduceLeDiff, if_false, decodeX, zeros, ex_hi, ex_lo, ex_self,
      Nat.reduceSub] <;> rfl
  all_goals simp (disch := decide) only [ex_hi, ex_lo, ex_self, Nat.reduceSub] <;> rfl

theorem vrmax (p gs va ex mk ty) : Statement (.vrmax p gs va ex mk ty) := fun _ => by
  show decode (0b10#2 ++ p ++ 0x65#7 ++ gs ++ 0#14) (0#6 ++ va ++ 0#12 ++ ex ++ mk ++ ty) = _
  refine (decode_eq (t := .X) (p := p) (m := 0x65#7) ?_ ?_ ?_).trans ?_
  rotate_left 3
  · simp (disch := decide) only [BitVec.reduceToNat, Nat.reduceLeDiff, if_false, decodeX, zeros, ex_hi, ex_lo, ex_self,
      Nat.reduceSub] <;> rfl
  all_goals simp (disch := decide) only [ex_hi, ex_lo, ex_self, Nat.reduceSub] <;> rfl

theorem vrmin (p gs va ex mk ty) : Statement (.vrmin p gs va ex mk ty) := fun _ => by
  show decode (0b10#2 ++ p ++ 0x66#7 ++ gs ++ 0#14) (0#6 ++ va ++ 0#12 ++ ex ++ mk ++ ty) = _
  refine (decode_eq (t := .X) (p := p) (m := 0x66#7) ?_ ?_ ?_).trans ?_
  rotate_left 3
  · simp (disch := decide) only [BitVec.reduceToNat, Nat.reduceLeDiff, if_false, decodeX, zeros, ex_hi, ex_lo, ex_self,
      Nat.reduceSub] <;> rfl
  all_goals simp (disch := decide) only [ex_hi, ex_lo, ex_self, Nat.reduceSub] <;> rfl

theorem vdraw (p idx slot vd va vb vc ex mk ty) : Statement (.vdraw p idx slot vd va vb vc ex mk ty) := fun _ => by
  show decode (0b10#2 ++ p ++ 0x68#7 ++ 0#13 ++ idx ++ slot) (vd ++ va ++ vb ++ vc ++ ex ++ mk ++ ty) = _
  refine (decode_eq (t := .X) (p := p) (m := 0x68#7) ?_ ?_ ?_).trans ?_
  rotate_left 3
  · simp (disch := decide) only [BitVec.reduceToNat, Nat.reduceLeDiff, if_false, decodeX, zeros, ex_hi, ex_lo, ex_self,
      Nat.reduceSub] <;> rfl
  all_goals simp (disch := decide) only [ex_hi, ex_lo, ex_self, Nat.reduceSub] <;> rfl

theorem vdmerge (p tree vd va vb vc) : Statement (.vdmerge p tree vd va vb vc) := fun _ => by
  show decode (0b10#2 ++ p ++ 0x69#7 ++ 0#18 ++ tree) (vd ++ va ++ vb ++ vc ++ 0#8) = _
  refine (decode_eq (t := .X) (p := p) (m := 0x69#7) ?_ ?_ ?_).trans ?_
  rotate_left 3
  · simp (disch := decide) only [BitVec.reduceToNat, Nat.reduceLeDiff, if_false, decodeX, zeros, ex_hi, ex_lo, ex_self,
      Nat.reduceSub] <;> rfl
  all_goals simp (disch := decide) only [ex_hi, ex_lo, ex_self, Nat.reduceSub] <;> rfl

theorem selinit (p gs mass dir k1 ty) : Statement (.selinit p gs mass dir k1 ty) := fun _ => by
  show decode (0b10#2 ++ p ++ 0x6a#7 ++ gs ++ 0#4 ++ mass ++ dir ++ k1) (0#28 ++ ty) = _
  refine (decode_eq (t := .X) (p := p) (m := 0x6a#7) ?_ ?_ ?_).trans ?_
  rotate_left 3
  · simp (disch := decide) only [BitVec.reduceToNat, Nat.reduceLeDiff, if_false, decodeX, zeros, ex_hi, ex_lo, ex_self,
      Nat.reduceSub] <;> rfl
  all_goals simp (disch := decide) only [ex_hi, ex_lo, ex_self, Nat.reduceSub] <;> rfl

theorem selfeed (p gs va ex mk ty) : Statement (.selfeed p gs va ex mk ty) := fun _ => by
  show decode (0b10#2 ++ p ++ 0x6b#7 ++ gs ++ 0#14) (0#6 ++ va ++ 0#12 ++ ex ++ mk ++ ty) = _
  refine (decode_eq (t := .X) (p := p) (m := 0x6b#7) ?_ ?_ ?_).trans ?_
  rotate_left 3
  · simp (disch := decide) only [BitVec.reduceToNat, Nat.reduceLeDiff, if_false, decodeX, zeros, ex_hi, ex_lo, ex_self,
      Nat.reduceSub] <;> rfl
  all_goals simp (disch := decide) only [ex_hi, ex_lo, ex_self, Nat.reduceSub] <;> rfl

theorem seldrain (p th vd vc) : Statement (.seldrain p th vd vc) := fun _ => by
  show decode (0b10#2 ++ p ++ 0x6c#7 ++ 0#5 ++ th) (vd ++ 0#12 ++ vc ++ 0#8) = _
  refine (decode_eq (t := .X) (p := p) (m := 0x6c#7) ?_ ?_ ?_).trans ?_
  rotate_left 3
  · simp (disch := decide) only [BitVec.reduceToNat, Nat.reduceLeDiff, if_false, decodeX, zeros, ex_hi, ex_lo, ex_self,
      Nat.reduceSub] <;> rfl
  all_goals simp (disch := decide) only [ex_hi, ex_lo, ex_self, Nat.reduceSub] <;> rfl

theorem selmrg (p n1 va ty) : Statement (.selmrg p n1 va ty) := fun _ => by
  show decode (0b10#2 ++ p ++ 0x6d#7 ++ 0#16 ++ n1) (0#6 ++ va ++ 0#16 ++ ty) = _
  refine (decode_eq (t := .X) (p := p) (m := 0x6d#7) ?_ ?_ ?_).trans ?_
  rotate_left 3
  · simp (disch := decide) only [BitVec.reduceToNat, Nat.reduceLeDiff, if_false, decodeX, zeros, ex_hi, ex_lo, ex_self,
      Nat.reduceSub] <;> rfl
  all_goals simp (disch := decide) only [ex_hi, ex_lo, ex_self, Nat.reduceSub] <;> rfl

theorem vdotq (p dim vd va vb ex mk ty) : Statement (.vdotq p dim vd va vb ex mk ty) := fun _ => by
  show decode (0b10#2 ++ p ++ 0x6e#7 ++ 0#7 ++ dim) (vd ++ va ++ vb ++ 0#6 ++ ex ++ mk ++ ty) = _
  refine (decode_eq (t := .X) (p := p) (m := 0x6e#7) ?_ ?_ ?_).trans ?_
  rotate_left 3
  · simp (disch := decide) only [BitVec.reduceToNat, Nat.reduceLeDiff, if_false, decodeX, zeros, ex_hi, ex_lo, ex_self,
      Nat.reduceSub] <;> rfl
  all_goals simp (disch := decide) only [ex_hi, ex_lo, ex_self, Nat.reduceSub] <;> rfl

theorem vl2q (p dim vd va vb ex mk ty) : Statement (.vl2q p dim vd va vb ex mk ty) := fun _ => by
  show decode (0b10#2 ++ p ++ 0x6f#7 ++ 0#7 ++ dim) (vd ++ va ++ vb ++ 0#6 ++ ex ++ mk ++ ty) = _
  refine (decode_eq (t := .X) (p := p) (m := 0x6f#7) ?_ ?_ ?_).trans ?_
  rotate_left 3
  · simp (disch := decide) only [BitVec.reduceToNat, Nat.reduceLeDiff, if_false, decodeX, zeros, ex_hi, ex_lo, ex_self,
      Nat.reduceSub] <;> rfl
  all_goals simp (disch := decide) only [ex_hi, ex_lo, ex_self, Nat.reduceSub] <;> rfl

theorem mpush (p cc va vb ex ty) : Statement (.mpush p cc va vb ex ty) := fun _ => by
  show decode (0b10#2 ++ p ++ 0x70#7 ++ 0#16 ++ cc) (0#6 ++ va ++ vb ++ 0#6 ++ ex ++ 0#1 ++ ty) = _
  refine (decode_eq (t := .X) (p := p) (m := 0x70#7) ?_ ?_ ?_).trans ?_
  rotate_left 3
  · simp (disch := decide) only [BitVec.reduceToNat, Nat.reduceLeDiff, if_false, decodeX, zeros, ex_hi, ex_lo, ex_self,
      Nat.reduceSub] <;> rfl
  all_goals simp (disch := decide) only [ex_hi, ex_lo, ex_self, Nat.reduceSub] <;> rfl

theorem minv (p) : Statement (.minv p) := fun _ => by
  show decode (0b10#2 ++ p ++ 0x71#7 ++ 0#19) (0#32) = _
  refine (decode_eq (t := .X) (p := p) (m := 0x71#7) ?_ ?_ ?_).trans ?_
  rotate_left 3
  · simp (disch := decide) only [BitVec.reduceToNat, Nat.reduceLeDiff, if_false, decodeX, zeros, ex_hi, ex_lo, ex_self,
      Nat.reduceSub] <;> rfl
  all_goals simp (disch := decide) only [ex_hi, ex_lo, ex_self, Nat.reduceSub] <;> rfl

theorem mpop (p) : Statement (.mpop p) := fun _ => by
  show decode (0b10#2 ++ p ++ 0x72#7 ++ 0#19) (0#32) = _
  refine (decode_eq (t := .X) (p := p) (m := 0x72#7) ?_ ?_ ?_).trans ?_
  rotate_left 3
  · simp (disch := decide) only [BitVec.reduceToNat, Nat.reduceLeDiff, if_false, decodeX, zeros, ex_hi, ex_lo, ex_self,
      Nat.reduceSub] <;> rfl
  all_goals simp (disch := decide) only [ex_hi, ex_lo, ex_self, Nat.reduceSub] <;> rfl

theorem bmz (p imm14) : Statement (.bmz p imm14) := fun _ => by
  show decode (0b10#2 ++ p ++ 0x73#7 ++ 0#5 ++ imm14) (0#32) = _
  refine (decode_eq (t := .X) (p := p) (m := 0x73#7) ?_ ?_ ?_).trans ?_
  rotate_left 3
  · simp (disch := decide) only [BitVec.reduceToNat, Nat.reduceLeDiff, if_false, decodeX, zeros, ex_hi, ex_lo, ex_self,
      Nat.reduceSub] <;> rfl
  all_goals simp (disch := decide) only [ex_hi, ex_lo, ex_self, Nat.reduceSub] <;> rfl

theorem exts (p gs im n ex ty) : Statement (.exts p gs im n ex ty) := fun _ => by
  show decode (0b10#2 ++ p ++ 0x74#7 ++ gs ++ im ++ n) (0#24 ++ ex ++ 0#1 ++ ty) = _
  refine (decode_eq (t := .X) (p := p) (m := 0x74#7) ?_ ?_ ?_).trans ?_
  rotate_left 3
  · simp (disch := decide) only [BitVec.reduceToNat, Nat.reduceLeDiff, if_false, decodeX, zeros, ex_hi, ex_lo, ex_self,
      Nat.reduceSub] <;> rfl
  all_goals simp (disch := decide) only [ex_hi, ex_lo, ex_self, Nat.reduceSub] <;> rfl

theorem mloop (p gs ii endo) : Statement (.mloop p gs ii endo) := fun _ => by
  show decode (0b10#2 ++ p ++ 0x75#7 ++ gs ++ 0#8 ++ ii) (endo ++ 0#20) = _
  refine (decode_eq (t := .X) (p := p) (m := 0x75#7) ?_ ?_ ?_).trans ?_
  rotate_left 3
  · simp (disch := decide) only [BitVec.reduceToNat, Nat.reduceLeDiff, if_false, decodeX, zeros, ex_hi, ex_lo, ex_self,
      Nat.reduceSub] <;> rfl
  all_goals simp (disch := decide) only [ex_hi, ex_lo, ex_self, Nat.reduceSub] <;> rfl

theorem zcnv (p gs zt q ty rnd rel sb n1 off) : Statement (.zcnv p gs zt q ty rnd rel sb n1 off) := fun _ => by
  show decode (0b11#2 ++ p ++ 0x40#7 ++ gs ++ 0#1 ++ 0#13) (zt ++ q ++ ty ++ rnd ++ rel ++ sb ++ n1 ++ off) = _
  refine (decode_eq (t := .F) (p := p) (m := 0x40#7) ?_ ?_ ?_).trans ?_
  rotate_left 3
  · have h : (0b11#2 ++ p ++ 0x40#7 ++ gs ++ 0#1 ++ 0#13).extractLsb' 13 1 = 0#1 := by
      simp (disch := decide) only [ex_hi, ex_lo, ex_self, Nat.reduceSub]
    simp only [BitVec.reduceToNat, Nat.reduceLeDiff, if_true, if_false, decodeF, h, BitVec.reduceEq]
    simp (disch := decide) only [zeros, ex_hi, ex_lo, ex_self, Nat.reduceSub] <;> rfl
  all_goals simp (disch := decide) only [ex_hi, ex_lo, ex_self, Nat.reduceSub] <;> rfl

theorem zcnvTerm (p q) : Statement (.zcnvTerm p q) := fun _ => by
  show decode (0b11#2 ++ p ++ 0x40#7 ++ 0#5 ++ 1#1 ++ 0#13) (0#7 ++ q ++ 0#20) = _
  refine (decode_eq (t := .F) (p := p) (m := 0x40#7) ?_ ?_ ?_).trans ?_
  rotate_left 3
  · have h : (0b11#2 ++ p ++ 0x40#7 ++ 0#5 ++ 1#1 ++ 0#13).extractLsb' 13 1 = 1#1 := by
      simp (disch := decide) only [ex_hi, ex_lo, ex_self, Nat.reduceSub]
    simp only [BitVec.reduceToNat, Nat.reduceLeDiff, if_true, if_false, decodeF, h, BitVec.reduceEq]
    simp (disch := decide) only [zeros, ex_hi, ex_lo, ex_self, Nat.reduceSub] <;> rfl
  all_goals simp (disch := decide) only [ex_hi, ex_lo, ex_self, Nat.reduceSub] <;> rfl

theorem zcomp (p fq q ty) : Statement (.zcomp p fq q ty) := fun _ => by
  show decode (0b11#2 ++ p ++ 0x41#7 ++ 0#5 ++ 0#1 ++ 0#12 ++ fq) (0#7 ++ q ++ ty ++ 0#16) = _
  refine (decode_eq (t := .F) (p := p) (m := 0x41#7) ?_ ?_ ?_).trans ?_
  rotate_left 3
  · have h : (0b11#2 ++ p ++ 0x41#7 ++ 0#5 ++ 0#1 ++ 0#12 ++ fq).extractLsb' 13 1 = 0#1 := by
      simp (disch := decide) only [ex_hi, ex_lo, ex_self, Nat.reduceSub]
    simp only [BitVec.reduceToNat, Nat.reduceLeDiff, if_true, if_false, decodeF, h, BitVec.reduceEq]
    simp (disch := decide) only [zeros, ex_hi, ex_lo, ex_self, Nat.reduceSub] <;> rfl
  all_goals simp (disch := decide) only [ex_hi, ex_lo, ex_self, Nat.reduceSub] <;> rfl

theorem zcompTerm (p q) : Statement (.zcompTerm p q) := fun _ => by
  show decode (0b11#2 ++ p ++ 0x41#7 ++ 0#5 ++ 1#1 ++ 0#13) (0#7 ++ q ++ 0#20) = _
  refine (decode_eq (t := .F) (p := p) (m := 0x41#7) ?_ ?_ ?_).trans ?_
  rotate_left 3
  · have h : (0b11#2 ++ p ++ 0x41#7 ++ 0#5 ++ 1#1 ++ 0#13).extractLsb' 13 1 = 1#1 := by
      simp (disch := decide) only [ex_hi, ex_lo, ex_self, Nat.reduceSub]
    simp only [BitVec.reduceToNat, Nat.reduceLeDiff, if_true, if_false, decodeF, h, BitVec.reduceEq]
    simp (disch := decide) only [zeros, ex_hi, ex_lo, ex_self, Nat.reduceSub] <;> rfl
  all_goals simp (disch := decide) only [ex_hi, ex_lo, ex_self, Nat.reduceSub] <;> rfl

theorem zclr (p zt) : Statement (.zclr p zt) := fun _ => by
  show decode (0b11#2 ++ p ++ 0x42#7 ++ 0#19) (zt ++ 0#25) = _
  refine (decode_eq (t := .F) (p := p) (m := 0x42#7) ?_ ?_ ?_).trans ?_
  rotate_left 3
  · simp (disch := decide) only [BitVec.reduceToNat, Nat.reduceLeDiff, if_false, decodeF, zeros, ex_hi, ex_lo, ex_self,
      Nat.reduceSub] <;> rfl
  all_goals simp (disch := decide) only [ex_hi, ex_lo, ex_self, Nat.reduceSub] <;> rfl

theorem zrd (p gs zt q rel n1 off) : Statement (.zrd p gs zt q rel n1 off) := fun _ => by
  show decode (0b11#2 ++ p ++ 0x43#7 ++ gs ++ 0#14) (zt ++ q ++ 0#6 ++ rel ++ 0#1 ++ n1 ++ off) = _
  refine (decode_eq (t := .F) (p := p) (m := 0x43#7) ?_ ?_ ?_).trans ?_
  rotate_left 3
  · simp (disch := decide) only [BitVec.reduceToNat, Nat.reduceLeDiff, if_false, decodeF, zeros, ex_hi, ex_lo, ex_self,
      Nat.reduceSub] <;> rfl
  all_goals simp (disch := decide) only [ex_hi, ex_lo, ex_self, Nat.reduceSub] <;> rfl

theorem fprtTile (p zt) : Statement (.fprtTile p zt) := fun _ => by
  show decode (0b11#2 ++ p ++ 0x44#7 ++ 0#17 ++ 0#2) (zt ++ 0#25) = _
  refine (decode_eq (t := .F) (p := p) (m := 0x44#7) ?_ ?_ ?_).trans ?_
  rotate_left 3
  · have h : (0b11#2 ++ p ++ 0x44#7 ++ 0#17 ++ 0#2).extractLsb' 0 2 = 0#2 := by
      simp (disch := decide) only [ex_hi, ex_lo, ex_self, Nat.reduceSub]
    simp only [BitVec.reduceToNat, Nat.reduceLeDiff, if_true, if_false, decodeF, h, BitVec.reduceEq]
    simp (disch := decide) only [zeros, ex_hi, ex_lo, ex_self, Nat.reduceSub] <;> rfl
  all_goals simp (disch := decide) only [ex_hi, ex_lo, ex_self, Nat.reduceSub] <;> rfl

theorem fprtPass (p fq q ty) : Statement (.fprtPass p fq q ty) := fun _ => by
  show decode (0b11#2 ++ p ++ 0x44#7 ++ 0#16 ++ fq ++ 1#2) (0#7 ++ q ++ ty ++ 0#16) = _
  refine (decode_eq (t := .F) (p := p) (m := 0x44#7) ?_ ?_ ?_).trans ?_
  rotate_left 3
  · have h : (0b11#2 ++ p ++ 0x44#7 ++ 0#16 ++ fq ++ 1#2).extractLsb' 0 2 = 1#2 := by
      simp (disch := decide) only [ex_hi, ex_lo, ex_self, Nat.reduceSub]
    simp only [BitVec.reduceToNat, Nat.reduceLeDiff, if_true, if_false, decodeF, h, BitVec.reduceEq]
    simp (disch := decide) only [zeros, ex_hi, ex_lo, ex_self, Nat.reduceSub] <;> rfl
  all_goals simp (disch := decide) only [ex_hi, ex_lo, ex_self, Nat.reduceSub] <;> rfl

theorem fprtEmit (p q) : Statement (.fprtEmit p q) := fun _ => by
  show decode (0b11#2 ++ p ++ 0x44#7 ++ 0#17 ++ 2#2) (0#7 ++ q ++ 0#20) = _
  refine (decode_eq (t := .F) (p := p) (m := 0x44#7) ?_ ?_ ?_).trans ?_
  rotate_left 3
  · have h : (0b11#2 ++ p ++ 0x44#7 ++ 0#17 ++ 2#2).extractLsb' 0 2 = 2#2 := by
      simp (disch := decide) only [ex_hi, ex_lo, ex_self, Nat.reduceSub]
    simp only [BitVec.reduceToNat, Nat.reduceLeDiff, if_true, if_false, decodeF, h, BitVec.reduceEq]
    simp (disch := decide) only [zeros, ex_hi, ex_lo, ex_self, Nat.reduceSub] <;> rfl
  all_goals simp (disch := decide) only [ex_hi, ex_lo, ex_self, Nat.reduceSub] <;> rfl

theorem fsqa (p zt q rel) : Statement (.fsqa p zt q rel) := fun _ => by
  show decode (0b11#2 ++ p ++ 0x45#7 ++ 0#19) (zt ++ q ++ 0#6 ++ rel ++ 0#13) = _
  refine (decode_eq (t := .F) (p := p) (m := 0x45#7) ?_ ?_ ?_).trans ?_
  rotate_left 3
  · simp (disch := decide) only [BitVec.reduceToNat, Nat.reduceLeDiff, if_false, decodeF, zeros, ex_hi, ex_lo, ex_self,
      Nat.reduceSub] <;> rfl
  all_goals simp (disch := decide) only [ex_hi, ex_lo, ex_self, Nat.reduceSub] <;> rfl

theorem fscl (p fq) : Statement (.fscl p fq) := fun _ => by
  show decode (0b11#2 ++ p ++ 0x46#7 ++ 0#17 ++ 0#1 ++ fq) (0#32) = _
  refine (decode_eq (t := .F) (p := p) (m := 0x46#7) ?_ ?_ ?_).trans ?_
  rotate_left 3
  · have h : (0b11#2 ++ p ++ 0x46#7 ++ 0#17 ++ 0#1 ++ fq).extractLsb' 1 1 = 0#1 := by
      simp (disch := decide) only [ex_hi, ex_lo, ex_self, Nat.reduceSub]
    simp only [BitVec.reduceToNat, Nat.reduceLeDiff, if_true, if_false, decodeF, h, BitVec.reduceEq]
    simp (disch := decide) only [zeros, ex_hi, ex_lo, ex_self, Nat.reduceSub] <;> rfl
  all_goals simp (disch := decide) only [ex_hi, ex_lo, ex_self, Nat.reduceSub] <;> rfl

theorem fsclRng (p fq) : Statement (.fsclRng p fq) := fun _ => by
  show decode (0b11#2 ++ p ++ 0x46#7 ++ 0#17 ++ 1#1 ++ fq) (0#32) = _
  refine (decode_eq (t := .F) (p := p) (m := 0x46#7) ?_ ?_ ?_).trans ?_
  rotate_left 3
  · have h : (0b11#2 ++ p ++ 0x46#7 ++ 0#17 ++ 1#1 ++ fq).extractLsb' 1 1 = 1#1 := by
      simp (disch := decide) only [ex_hi, ex_lo, ex_self, Nat.reduceSub]
    simp only [BitVec.reduceToNat, Nat.reduceLeDiff, if_true, if_false, decodeF, h, BitVec.reduceEq]
    simp (disch := decide) only [zeros, ex_hi, ex_lo, ex_self, Nat.reduceSub] <;> rfl
  all_goals simp (disch := decide) only [ex_hi, ex_lo, ex_self, Nat.reduceSub] <;> rfl

theorem fmv (p fq q len) : Statement (.fmv p fq q len) := fun _ => by
  show decode (0b11#2 ++ p ++ 0x47#7 ++ 0#5 ++ 0#1 ++ 0#12 ++ fq) (0#7 ++ q ++ 0#15 ++ len) = _
  refine (decode_eq (t := .F) (p := p) (m := 0x47#7) ?_ ?_ ?_).trans ?_
  rotate_left 3
  · have h : (0b11#2 ++ p ++ 0x47#7 ++ 0#5 ++ 0#1 ++ 0#12 ++ fq).extractLsb' 13 1 = 0#1 := by
      simp (disch := decide) only [ex_hi, ex_lo, ex_self, Nat.reduceSub]
    simp only [BitVec.reduceToNat, Nat.reduceLeDiff, if_true, if_false, decodeF, h, BitVec.reduceEq]
    simp (disch := decide) only [zeros, ex_hi, ex_lo, ex_self, Nat.reduceSub] <;> rfl
  all_goals simp (disch := decide) only [ex_hi, ex_lo, ex_self, Nat.reduceSub] <;> rfl

theorem fmvTerm (p q) : Statement (.fmvTerm p q) := fun _ => by
  show decode (0b11#2 ++ p ++ 0x47#7 ++ 0#5 ++ 1#1 ++ 0#13) (0#7 ++ q ++ 0#20) = _
  refine (decode_eq (t := .F) (p := p) (m := 0x47#7) ?_ ?_ ?_).trans ?_
  rotate_left 3
  · have h : (0b11#2 ++ p ++ 0x47#7 ++ 0#5 ++ 1#1 ++ 0#13).extractLsb' 13 1 = 1#1 := by
      simp (disch := decide) only [ex_hi, ex_lo, ex_self, Nat.reduceSub]
    simp only [BitVec.reduceToNat, Nat.reduceLeDiff, if_true, if_false, decodeF, h, BitVec.reduceEq]
    simp (disch := decide) only [zeros, ex_hi, ex_lo, ex_self, Nat.reduceSub] <;> rfl
  all_goals simp (disch := decide) only [ex_hi, ex_lo, ex_self, Nat.reduceSub] <;> rfl

theorem fwait (p gs zt) : Statement (.fwait p gs zt) := fun _ => by
  show decode (0b11#2 ++ p ++ 0x48#7 ++ gs ++ 0#14) (zt ++ 0#25) = _
  refine (decode_eq (t := .F) (p := p) (m := 0x48#7) ?_ ?_ ?_).trans ?_
  rotate_left 3
  · simp (disch := decide) only [BitVec.reduceToNat, Nat.reduceLeDiff, if_false, decodeF, zeros, ex_hi, ex_lo, ex_self,
      Nat.reduceSub] <;> rfl
  all_goals simp (disch := decide) only [ex_hi, ex_lo, ex_self, Nat.reduceSub] <;> rfl

theorem tileCommand (a0 a1) : Statement (.tileCommand a0 a1) := fun h => absurd rfl h
theorem ringAdvance (a0) : Statement (.ringAdvance a0) := fun h => absurd rfl h
theorem wqtailWrite (a0 a1) : Statement (.wqtailWrite a0 a1) := fun h => absurd rfl h
theorem wqEnable (a0 a1) : Statement (.wqEnable a0 a1) := fun h => absurd rfl h
theorem wqDisable (a0 a1) : Statement (.wqDisable a0 a1) := fun h => absurd rfl h
theorem partitionEnable (a0 a1) : Statement (.partitionEnable a0 a1) := fun h => absurd rfl h
theorem partitionDisable (a0 a1) : Statement (.partitionDisable a0 a1) := fun h => absurd rfl h
theorem tierctlEnable (a0 a1) : Statement (.tierctlEnable a0 a1) := fun h => absurd rfl h
theorem fltack (a0 a1) : Statement (.fltack a0 a1) := fun h => absurd rfl h
theorem invcmdGo (a0 a1) : Statement (.invcmdGo a0 a1) := fun h => absurd rfl h
theorem preemptRequest (a0 a1) : Statement (.preemptRequest a0 a1) := fun h => absurd rfl h
theorem preemptSave (a0) : Statement (.preemptSave a0) := fun h => absurd rfl h
theorem deschedule (a0) : Statement (.deschedule a0) := fun h => absurd rfl h
theorem conductorStart (a0 a1) : Statement (.conductorStart a0 a1) := fun h => absurd rfl h
theorem trpackRetry (a0 a1) : Statement (.trpackRetry a0 a1) := fun h => absurd rfl h
theorem trpackAbort (a0 a1) : Statement (.trpackAbort a0 a1) := fun h => absurd rfl h
theorem trpackDiscard (a0 a1) : Statement (.trpackDiscard a0 a1) := fun h => absurd rfl h
theorem trpackReserved (a0 a1) : Statement (.trpackReserved a0 a1) := fun h => absurd rfl h
theorem attestRequest : Statement (.attestRequest) := fun h => absurd rfl h
theorem attestReportComplete : Statement (.attestReportComplete) := fun h => absurd rfl h
theorem spanstatRead (a0) : Statement (.spanstatRead a0) := fun h => absurd rfl h
theorem registerWrite (a0 a1 a2) : Statement (.registerWrite a0 a1 a2) := fun h => absurd rfl h
theorem hostRead (a0) : Statement (.hostRead a0) := fun h => absurd rfl h
theorem hostWrite (a0 a1 a2) : Statement (.hostWrite a0 a1 a2) := fun h => absurd rfl h
theorem frontRefill (a0) : Statement (.frontRefill a0) := fun h => absurd rfl h
theorem placementGrant (a0) : Statement (.placementGrant a0) := fun h => absurd rfl h
theorem nestEmptyRetire (a0) : Statement (.nestEmptyRetire a0) := fun h => absurd rfl h
theorem specRecordMove (a0) : Statement (.specRecordMove a0) := fun h => absurd rfl h
theorem poolTake (a0) : Statement (.poolTake a0) := fun h => absurd rfl h
theorem headWordWrite (a0) : Statement (.headWordWrite a0) := fun h => absurd rfl h
theorem heldPushEnqueue (a0) : Statement (.heldPushEnqueue a0) := fun h => absurd rfl h
theorem workRetire (a0) : Statement (.workRetire a0) := fun h => absurd rfl h
theorem workResume (a0) : Statement (.workResume a0) := fun h => absurd rfl h
theorem phaseBoundary (a0 a1 a2) : Statement (.phaseBoundary a0 a1 a2) := fun h => absurd rfl h
theorem slipBoundLift (a0) : Statement (.slipBoundLift a0) := fun h => absurd rfl h
theorem perform (a0) : Statement (.perform a0) := fun h => absurd rfl h
theorem deliver (a0) : Statement (.deliver a0) := fun h => absurd rfl h
theorem chainStart (a0) : Statement (.chainStart a0) := fun h => absurd rfl h
theorem copy (a0) : Statement (.copy a0) := fun h => absurd rfl h
theorem ladleLoop (a0) : Statement (.ladleLoop a0) := fun h => absurd rfl h
theorem cond (a0) : Statement (.cond a0) := fun h => absurd rfl h
theorem semwait (a0) : Statement (.semwait a0) := fun h => absurd rfl h
theorem semaphoreTake (a0 a1) : Statement (.semaphoreTake a0 a1) := fun h => absurd rfl h
theorem semsig (a0) : Statement (.semsig a0) := fun h => absurd rfl h
theorem ladlePubl (a0) : Statement (.ladlePubl a0) := fun h => absurd rfl h
theorem fprint (a0) : Statement (.fprint a0) := fun h => absurd rfl h
theorem ladleEnd (a0) : Statement (.ladleEnd a0) := fun h => absurd rfl h
theorem walk (a0 a1 a2 a3 a4) : Statement (.walk a0 a1 a2 a3 a4) := fun h => absurd rfl h
theorem migrationRetry (a0) : Statement (.migrationRetry a0) := fun h => absurd rfl h
theorem migrationTimeout (a0) : Statement (.migrationTimeout a0) := fun h => absurd rfl h
theorem tlbirAck (a0) : Statement (.tlbirAck a0) := fun h => absurd rfl h
theorem replication (a0) : Statement (.replication a0) := fun h => absurd rfl h
theorem faultRecordWrite (a0) : Statement (.faultRecordWrite a0) := fun h => absurd rfl h
theorem faultBatchClose (a0) : Statement (.faultBatchClose a0) := fun h => absurd rfl h
theorem shakeoutDrain (a0) : Statement (.shakeoutDrain a0) := fun h => absurd rfl h
theorem trapRecordWrite (a0) : Statement (.trapRecordWrite a0) := fun h => absurd rfl h
theorem selfTestComplete (a0 a1) : Statement (.selfTestComplete a0 a1) := fun h => absurd rfl h
theorem fencedWorkTimeout (a0) : Statement (.fencedWorkTimeout a0) := fun h => absurd rfl h
theorem phaseWatchdog (a0 a1 a2) : Statement (.phaseWatchdog a0 a1 a2) := fun h => absurd rfl h
theorem coreStallWatchdog (a0) : Statement (.coreStallWatchdog a0) := fun h => absurd rfl h
theorem patrolScrub (a0 a1) : Statement (.patrolScrub a0 a1) := fun h => absurd rfl h
theorem wfeTimeout (a0) : Statement (.wfeTimeout a0) := fun h => absurd rfl h
theorem throttleWindow (a0) : Statement (.throttleWindow a0) := fun h => absurd rfl h
theorem powerMeasure (a0 a1) : Statement (.powerMeasure a0 a1) := fun h => absurd rfl h
theorem thermalSense (a0 a1) : Statement (.thermalSense a0 a1) := fun h => absurd rfl h
theorem thermalTrip : Statement (.thermalTrip) := fun h => absurd rfl h
theorem linkDown (a0) : Statement (.linkDown a0) := fun h => absurd rfl h
theorem linkUp (a0 a1 a2) : Statement (.linkUp a0 a1 a2) := fun h => absurd rfl h
theorem spanPortDown (a0) : Statement (.spanPortDown a0) := fun h => absurd rfl h
theorem peerRouteTimeout (a0) : Statement (.peerRouteTimeout a0) := fun h => absurd rfl h
theorem deviceReset : Statement (.deviceReset) := fun h => absurd rfl h
theorem bringupStage (a0) : Statement (.bringupStage a0) := fun h => absurd rfl h
theorem peerRequest (a0 a1 a2 a3) : Statement (.peerRequest a0 a1 a2 a3) := fun h => absurd rfl h
theorem spanPortUp (a0 a1) : Statement (.spanPortUp a0 a1) := fun h => absurd rfl h
theorem flitRetry (a0) : Statement (.flitRetry a0) := fun h => absurd rfl h

end Sys2Proof.Laws.RoundTrip
end

