-- ==== Sys2Proof/Laws/Translate.lean ====
section
/-! SUPPORT. Translation in a plain address space: partition 0's tables, in host memory, map the address space 0 with one
leaf, so that each of its first 2^30 bytes lies at the crucible location of the same number. Whatever the translation caches
hold and Config lets them hold, every access there is answered alike, and nothing changes but the caches. -/

namespace Sys2Proof

theorem SMap.get_of_all {α : Type} {m : SMap α} {d : α} {P : α → Prop} (hd : P d) (h : ∀ e ∈ m, P e.2) (k : Nat) : P (m.get d k) := by
  unfold SMap.get
  induction m with
  | nil => exact hd
  | cons e r ih =>
    obtain ⟨j, a⟩ := e
    rw [SMap.find_cons]
    split
    · exact h (j, a) (by simp)
    · exact ih fun e he => h e (by simp [he])

end Sys2Proof

namespace Sys2Proof.Machine

set_option Elab.async false

/-- The root descriptor, the level 3 entry and the leaf at level 2 of a plain address space. -/
def plainRoot : Nat := 1 + 0x10000 + 2 * 2 ^ 47
def plainNode : Nat := 1 + 0x20000 + 2 * 2 ^ 47
def plainLeaf : Nat := 0xDF

/-- The tables of a plain address space, at the bottom of host memory. -/
def plainTables : SMap Byte :=
  SMap.setList (SMap.setList (SMap.setList [] 0 (2 * tierSpan) (toBytes plainRoot 8)) 0 (2 * tierSpan + 0x10000) (toBytes plainNode 8)) 0
    (2 * tierSpan + 0x20000) (toBytes plainLeaf 8)

/-- The translation that the leaf gives. -/
def plainTlb : Tlb where
  part := 0
  asid := 0
  va := 0
  size := 2 ^ 30
  key := 0
  r := true
  w := true
  x := true
  d := true
  leaf := BitVec.ofNat 64 plainLeaf

/-- Partition 0's address space 0 is plain, and no cache holds anything else of it. -/
structure Plain (s : State) : Prop where
  stalled : s.stalled = []
  walkers : ∀ d, (s.die d).fenceWalk = 0
  replicas : ∀ d, (s.die d).replicas = []
  base : (s.part 0).ptbase = 0
  handles : (s.part 0).handles = []
  root : s.readM (2 * tierSpan) 8 = plainRoot
  node : s.readM (2 * tierSpan + 0x10000) 8 = plainNode
  leaf : s.readM (2 * tierSpan + 0x20000) 8 = plainLeaf
  nodes : ∀ d, ∀ n ∈ (s.die d).nodes, n.part = 0 → n.asid = 0 →
    (n.level = 4 → n.entry = BitVec.ofNat 64 plainRoot) ∧ (n.level = 3 → n.tag = 0 → n.entry = BitVec.ofNat 64 plainNode)
      ∧ (n.level = 2 → n.tag ≠ 0)
  tlb : ∀ cl, ∀ t ∈ s.tlbOf cl, t.part = 0 → t.asid = 0 → t = plainTlb
  events : ∀ k, (s.core k).ctx.csr.evsel = []

/-- Two states that differ in the contents of translation caches alone, and in how many free values have been used. -/
structure Alike (s u : State) : Prop where
  rest : u = { s with cores := u.cores, dies := u.dies, ladles := u.ladles, freeNo := u.freeNo }
  core : ∀ k, u.core k = { s.core k with tlbC := (u.core k).tlbC, tlbA := (u.core k).tlbA }
  die : ∀ d, u.die d = { s.die d with nodes := (u.die d).nodes }
  ladle : ∀ l, u.ladle l = { s.ladle l with tlb := (u.ladle l).tlb }

theorem Alike.refl (s : State) : Alike s s := ⟨rfl, fun _ => rfl, fun _ => rfl, fun _ => rfl⟩

theorem Alike.trans {s t u : State} (h : Alike s t) (g : Alike t u) : Alike s u where
  rest := by rw [g.rest, h.rest]
  core k := by rw [g.core k, h.core k]
  die d := by rw [g.die d, h.die d]
  ladle l := by rw [g.ladle l, h.ladle l]

theorem Alike.mem {s u : State} (h : Alike s u) : u.mem = s.mem := by rw [h.rest]
theorem Alike.readM {s u : State} (h : Alike s u) (key n : Nat) : u.readM key n = s.readM key n := by rw [State.readM, h.mem]; rfl
theorem Alike.part {s u : State} (h : Alike s u) (p : Nat) : u.part p = s.part p := by rw [State.part, h.rest]; rfl
theorem Alike.work {s u : State} (h : Alike s u) (k : Nat) : (u.core k).work = (s.core k).work := by rw [h.core k]
theorem Alike.ob {s u : State} (h : Alike s u) (k : Nat) : (u.core k).ob = (s.core k).ob := by rw [h.core k]
theorem Alike.ctx {s u : State} (h : Alike s u) (k : Nat) : (u.core k).ctx = (s.core k).ctx := by rw [h.core k]
theorem Alike.cur {s u : State} (h : Alike s u) : u.cur = s.cur := by rw [h.rest]
theorem Alike.curWork {s u : State} (h : Alike s u) : u.work = s.work := by rw [State.work, State.cc, h.cur, h.work]; rfl
theorem Alike.curCtx {s u : State} (h : Alike s u) : u.ctx = s.ctx := by rw [State.ctx, State.cc, h.cur, h.ctx]; rfl
theorem Alike.curOb {s u : State} (h : Alike s u) : u.cc.ob = s.cc.ob := by rw [State.cc, h.cur, h.ob]; rfl
theorem Alike.reg {s u : State} (h : Alike s u) (e : Eng) (r : BitVec 5) : u.reg e r = s.reg e r := by rw [State.reg, h.curCtx]; rfl
theorem Alike.lostPeer {s u : State} (h : Alike s u) (key : Nat) : u.lostPeer key = s.lostPeer key := by rw [State.lostPeer, h.rest]; rfl
theorem Alike.noPath {s u : State} (h : Alike s u) (key : Nat) : u.noPath key = s.noPath key := by rw [State.noPath, h.rest]; rfl
theorem Alike.poisoned {s u : State} (h : Alike s u) (key n : Nat) : u.poisoned key n = s.poisoned key n := by
  rw [State.poisoned, h.lostPeer, h.rest]; rfl

/-! ### A walk -/

theorem plain_locate {va : Nat} (h : va < 2 ^ 30) : plainTlb.locate va = .ok va := by
  have hk : va / tierSpan = 0 := Nat.div_eq_of_lt (by unfold tierSpan; omega)
  have hm : va % tierSpan = va := Nat.mod_eq_of_lt (by unfold tierSpan; omega)
  simp [Tlb.locate, plainTlb, tierOfKey, hk, hm, beyondTier]
  omega

theorem Plain.rootOf {s : State} (h : Plain s) (d : Nat) : s.rootOf d 0 0 = BitVec.ofNat 64 plainRoot := by
  have hr : BitVec.ofNat 64 (s.readM (keyOf 2 0 (bits (s.part 0).ptbase 63 12 * 4096 + 8 * 0)) 8) = BitVec.ofNat 64 plainRoot := by
    rw [h.base]
    exact congrArg (BitVec.ofNat 64) h.root
  unfold State.rootOf
  rw [hr, State.cachedNode]
  split
  · cases hf : (s.die d).nodes.find? (fun n => n.part = 0 && n.asid = 0 && n.level = 4 && n.tag = 0) with
    | none => rfl
    | some n =>
      have hp := List.find?_some hf
      simp only [Bool.and_eq_true, decide_eq_true_eq] at hp
      exact ((h.nodes d n (List.mem_of_find?_eq_some hf) hp.1.1.1 hp.1.1.2).1 hp.1.2)
  · rfl

theorem Plain.cached3 {s : State} (h : Plain s) (d : Nat) : (s.cachedNode d 0 0 3 0).getD (BitVec.ofNat 64 plainNode) = BitVec.ofNat 64 plainNode := by
  rw [State.cachedNode]
  split
  · cases hf : (s.die d).nodes.find? (fun n => n.part = 0 && n.asid = 0 && n.level = 3 && n.tag = 0) with
    | none => rfl
    | some n =>
      have hp := List.find?_some hf
      simp only [Bool.and_eq_true, decide_eq_true_eq] at hp
      exact ((h.nodes d n (List.mem_of_find?_eq_some hf) hp.1.1.1 hp.1.1.2).2.1 hp.1.2 hp.2)
  · rfl

theorem Plain.cached2 {s : State} (h : Plain s) (d : Nat) : s.cachedNode d 0 0 2 0 = none := by
  rw [State.cachedNode]
  split
  · cases hf : (s.die d).nodes.find? (fun n => n.part = 0 && n.asid = 0 && n.level = 2 && n.tag = 0) with
    | none => rfl
    | some n =>
      have hp := List.find?_some hf
      simp only [Bool.and_eq_true, decide_eq_true_eq] at hp
      exact absurd hp.2 ((h.nodes d n (List.mem_of_find?_eq_some hf) hp.1.1.1 hp.1.1.2).2.2 hp.1.2)
  · rfl

theorem State.die_cacheNode (s : State) (d part asid level tag : Nat) (e : Word) (j : Nat) :
    (s.cacheNode d part asid level tag e).die j = (if j = d then { s.die d with
      nodes := ⟨part, asid, level, tag, e⟩
        :: (s.die d).nodes.filter fun n => !(n.part = part && n.asid = asid && n.level = level && n.tag = tag) }
      else s.die j) := by
  unfold State.cacheNode State.modDie State.die
  exact SMap.get_put ..

theorem Alike.cacheNode (s : State) (d part asid level tag : Nat) (e : Word) : Alike s (s.cacheNode d part asid level tag e) where
  rest := rfl
  core _ := rfl
  die j := by rw [State.die_cacheNode]; split <;> simp_all
  ladle _ := rfl

/-- A plain address space stays plain when a cache takes an entry that agrees with it. -/
theorem Plain.cacheNode {s : State} (h : Plain s) (d level : Nat) (e : Word)
    (he : (level = 4 ∧ e = BitVec.ofNat 64 plainRoot) ∨ (level = 3 ∧ e = BitVec.ofNat 64 plainNode)) : Plain (s.cacheNode d 0 0 level 0 e) where
  stalled := h.stalled
  walkers j := by rw [(Alike.cacheNode s d 0 0 level 0 e).die j]; exact h.walkers j
  replicas j := by rw [(Alike.cacheNode s d 0 0 level 0 e).die j]; exact h.replicas j
  base := h.base
  handles := h.handles
  root := h.root
  node := h.node
  leaf := h.leaf
  nodes j n hn hp ha := by
    rw [State.die_cacheNode] at hn
    split at hn
    · simp only [List.mem_cons, List.mem_filter] at hn
      rcases hn with rfl | hn
      · simp only
        rcases he with ⟨rfl, rfl⟩ | ⟨rfl, rfl⟩ <;> simp
      · exact h.nodes d n hn.1 hp ha
    · exact h.nodes j n hn hp ha
  tlb := h.tlb
  events := h.events

theorem walkFrom_next {s : State} {d part asid va level node : Nat} {e : Word}
    (he : (s.cachedNode d part asid (level + 1) (va / 2 ^ levelShift (level + 1))).getD
      (BitVec.ofNat 64 (s.readM (node + 8 * levelIndex (level + 1) va) 8)) = e)
    (h : (pteV e && !pteMalformed e (level + 1) && decide (pteTier e ≠ 4) && decide (pteTier e ≠ 5) && !pteLeaf e
      && !beyondTier (pteTier e) (pteFrame e)) = true) :
    walkFrom d part asid va (level + 1) node s = walkFrom d part asid va level (keyOf (pteTier e) 0 (pteFrame e))
      (s.cacheNode d part asid (level + 1) (va / 2 ^ levelShift (level + 1)) e) := by
  simp only [Bool.and_eq_true, Bool.not_eq_true', decide_eq_true_eq] at h
  obtain ⟨⟨⟨⟨⟨h1, h2⟩, h3⟩, h4⟩, h5⟩, h6⟩ := h
  rw [walkFrom]
  simp only [he, h1, h2, h3, h4, h5, h6, Bool.not_true, Bool.false_eq_true, if_false]

theorem walkFrom_leaf {s : State} {d part asid va level node : Nat} {e : Word}
    (he : (s.cachedNode d part asid (level + 1) (va / 2 ^ levelShift (level + 1))).getD
      (BitVec.ofNat 64 (s.readM (node + 8 * levelIndex (level + 1) va) 8)) = e)
    (h : (pteV e && !pteMalformed e (level + 1) && decide (pteTier e ≠ 4) && decide (pteTier e ≠ 5) && pteLeaf e) = true) :
    walkFrom d part asid va (level + 1) node s
      = (.leaf (leafTlb part asid va (level + 1) e false 0) (node + 8 * levelIndex (level + 1) va), s) := by
  simp only [Bool.and_eq_true, Bool.not_eq_true', decide_eq_true_eq] at h
  obtain ⟨⟨⟨⟨h1, h2⟩, h3⟩, h4⟩, h5⟩ := h
  rw [walkFrom]
  simp only [he, h1, h2, h3, h4, h5, Bool.not_true, Bool.false_eq_true, if_false, if_true]

theorem Plain.walk {s : State} (h : Plain s) (d : Nat) {va : Nat} (hv : va < 2 ^ 30) :
    ∃ u, s.walk d 0 0 va = (.leaf plainTlb (2 * tierSpan + 0x20000), u) ∧ Plain u ∧ Alike s u := by
  let a := s.cacheNode d 0 0 4 0 (BitVec.ofNat 64 plainRoot)
  have pa : Plain a := h.cacheNode d 4 _ (.inl ⟨rfl, rfl⟩)
  let b := a.cacheNode d 0 0 3 0 (BitVec.ofNat 64 plainNode)
  have pb : Plain b := pa.cacheNode d 3 _ (.inr ⟨rfl, rfl⟩)
  refine ⟨b, ?_, pb, (Alike.cacheNode ..).trans (Alike.cacheNode ..)⟩
  have h2 : va / 2 ^ levelShift 2 = 0 := Nat.div_eq_of_lt hv
  have h3 : va / 2 ^ levelShift 3 = 0 := Nat.div_eq_of_lt (show va < 2 ^ 39 by omega)
  have i2 : levelIndex 2 va = 0 := by rw [levelIndex, h2]; rfl
  have i3 : levelIndex 3 va = 0 := by rw [levelIndex, h3]; rfl
  have w3 : walkFrom d 0 0 va 3 (2 * tierSpan + 0x10000) a = walkFrom d 0 0 va 2 (2 * tierSpan + 0x20000) b := by
    rw [walkFrom_next (e := BitVec.ofNat 64 plainNode) (by rw [h3, i3, Nat.mul_zero, Nat.add_zero, pa.node, pa.cached3]) (by decide), h3]
    rfl
  have w2 : walkFrom d 0 0 va 2 (2 * tierSpan + 0x20000) b = (.leaf plainTlb (2 * tierSpan + 0x20000), b) := by
    rw [walkFrom_leaf (e := BitVec.ofNat 64 plainLeaf)
      (by rw [h2, i2, Nat.mul_zero, Nat.add_zero, pb.leaf, pb.cached2, Option.getD_none]) (by decide), i2]
    have hz : va / 2 ^ 30 * 2 ^ 30 = 0 := by rw [Nat.div_eq_of_lt hv]; rfl
    simp only [leafTlb, levelShift, Nat.reduceMul, Nat.reduceAdd, if_false, hz, Bool.false_eq_true]
    rfl
  unfold State.walk
  simp only [h.rootOf, h.base]
  rw [if_neg (by decide), if_neg (by decide), if_neg (by decide), if_neg (by decide)]
  exact w3.trans w2

/-! ### A client -/

theorem State.tlbOf_modTlb (s : State) (cl c : Client) (f : List Tlb → List Tlb) :
    (s.modTlb cl f).tlbOf c = s.tlbOf c ∨ (s.modTlb cl f).tlbOf c = f (s.tlbOf c) := by
  cases cl with
  | coreC k =>
    cases c <;> simp only [State.modTlb, State.tlbOf, State.modCore, State.core, State.ladle, true_or]
    all_goals
      rw [SMap.get_put]
      split <;> simp_all
  | coreA k =>
    cases c <;> simp only [State.modTlb, State.tlbOf, State.modCore, State.core, State.ladle, true_or]
    all_goals
      rw [SMap.get_put]
      split <;> simp_all
  | ladle l =>
    cases c <;> simp only [State.modTlb, State.tlbOf, State.modLadle, State.core, State.ladle, true_or]
    rw [SMap.get_put]
    split <;> simp_all
  | _ => exact .inl rfl

theorem Alike.modTlb (s : State) (cl : Client) (f : List Tlb → List Tlb) : Alike s (s.modTlb cl f) where
  rest := by cases cl <;> rfl
  core k := by
    cases cl <;> simp only [State.modTlb, State.modCore, State.modLadle, State.core]
    all_goals
      rw [SMap.get_put]
      split <;> simp_all
  die _ := by cases cl <;> rfl
  ladle l := by
    cases cl <;> simp only [State.modTlb, State.modCore, State.modLadle, State.ladle]
    rw [SMap.get_put]
    split <;> simp_all

theorem Plain.of_alike {s u : State} (h : Plain s) (g : Alike s u)
    (nodes : ∀ d, (u.die d).nodes = (s.die d).nodes) (tlb : ∀ cl, ∀ t ∈ u.tlbOf cl, t.part = 0 → t.asid = 0 → t = plainTlb) : Plain u where
  stalled := by rw [g.rest]; exact h.stalled
  walkers d := by rw [g.die d]; exact h.walkers d
  replicas d := by rw [g.die d]; exact h.replicas d
  base := by rw [g.part]; exact h.base
  handles := by rw [g.part]; exact h.handles
  root := by rw [g.readM]; exact h.root
  node := by rw [g.readM]; exact h.node
  leaf := by rw [g.readM]; exact h.leaf
  nodes d n hn := h.nodes d n (by rw [← nodes d]; exact hn)
  tlb := tlb
  events k := by rw [g.ctx]; exact h.events k

theorem Csrs.count_noEvents (r : Csrs) (ev : Nat) (e : Option Eng) (n : Nat) (h : r.evsel = []) : r.count ev e n = r := by
  cases r; simp_all [Csrs.count]

theorem Plain.countOn {s : State} (h : Plain s) (k ev : Nat) (e : Option Eng) (n : Nat) :
    Plain (s.countOn k ev e n) ∧ Alike s (s.countOn k ev e n) := by
  have hc : ∀ j, (s.countOn k ev e n).core j = s.core j := fun j => by
    unfold State.countOn State.modCtxOf State.modCore State.core
    rw [SMap.get_put]
    split
    · subst j
      have := Csrs.count_noEvents _ ev e n (h.events k)
      unfold State.core at this
      simp only [this]
    · rfl
  have ha : Alike s (s.countOn k ev e n) := ⟨rfl, fun j => by rw [hc], fun _ => rfl, fun _ => rfl⟩
  refine ⟨h.of_alike ha (fun _ => rfl) ?_, ha⟩
  intro cl t ht
  refine h.tlb cl t ?_
  cases cl with
  | ladle l => exact ht
  | _ => simpa only [State.tlbOf, hc] using ht

theorem plain_lacks (acc : Nat) : plainTlb.lacks acc = false := by
  unfold Tlb.lacks plainTlb
  split
  · rfl
  · split <;> rfl

theorem Plain.fill {s : State} (h : Plain s) (cl : Client) {va : Nat} (hv : va < 2 ^ 30) (acc : Nat) :
    ∃ u, s.fill cl 0 0 va acc = (.ok va, u) ∧ Plain u ∧ Alike s u := by
  unfold State.fill
  have key : ∀ t : State, Plain t → Alike s t → ∃ u,
      (match t.walk (clientDie cl) 0 0 va with
        | (.fail c l, s) => (.fail c l, s)
        | (.stall l _, s) => (.stall l, s)
        | (.leaf t entry, s) =>
          if t.lacks acc then (.fail 2 0, s)
          else match t.locate va with
            | .ok key =>
              let t := if acc = accWrite ∧ tierOfKey entry ≤ 1 then { t with d := true } else t
              (.ok key, (s.touchEntry entry acc).modTlb cl fun l => t :: l.filter fun x => !(x.covers 0 0 va))
            | x => (x, s) : XRes × State) = (.ok va, u)
        ∧ Plain u ∧ Alike s u := by
    intro t pt at'
    obtain ⟨u, hw, pu, au⟩ := pt.walk (clientDie cl) hv
    have he : ¬ tierOfKey (2 * tierSpan + 0x20000) ≤ 1 := by decide
    rw [hw]
    simp only [plain_lacks, Bool.false_eq_true, if_false, he, and_false, plain_locate hv, State.touchEntry]
    refine ⟨_, rfl, ?_, (at'.trans au).trans (Alike.modTlb ..)⟩
    refine pu.of_alike (Alike.modTlb ..) (fun d => by cases cl <;> rfl) ?_
    intro c x hx
    rcases State.tlbOf_modTlb u cl c (fun l => plainTlb :: l.filter fun x => !(x.covers 0 0 va)) with e | e
    · rw [e] at hx; exact pu.tlb c x hx
    · rw [e] at hx
      simp only [List.mem_cons, List.mem_filter] at hx
      rcases hx with rfl | hx
      · exact fun _ _ => rfl
      · exact pu.tlb c x hx.1
  cases cl with
  | coreC k => exact key _ (h.countOn ..).1 (h.countOn ..).2
  | coreA k => exact key _ (h.countOn ..).1 (h.countOn ..).2
  | ladle l => exact key _ h (Alike.refl s)
  | loader d => exact key _ h (Alike.refl s)
  | tundish d => exact key _ h (Alike.refl s)
  | shakeout d => exact key _ h (Alike.refl s)

/-- A plain state has walkers to spare, and no miss waits. -/
theorem Plain.miss {s : State} (h : Plain s) (cl : Client) {va : Nat} (hv : va < 2 ^ 30) (acc : Nat) :
    ∃ u, s.miss cl 0 0 va acc = (.ok va, u) ∧ Plain u ∧ Alike s u := by
  have hw : (s.walkerFree (clientDie cl) && (s.misses (clientDie cl)).isEmpty) = true := by
    unfold State.walkerFree State.busyWalkers State.misses
    rw [h.stalled, h.walkers]
    rfl
  unfold State.miss
  rw [if_pos hw]
  exact h.fill cl hv acc

theorem Alike.freeNo (s : State) (n : Nat) : Alike s { s with freeNo := n } := ⟨rfl, fun _ => rfl, fun _ => rfl, fun _ => rfl⟩

theorem Plain.freeNo {s : State} (h : Plain s) (n : Nat) : Plain { s with freeNo := n } :=
  h.of_alike (Alike.freeNo s n) (fun _ => rfl) fun cl t ht => h.tlb cl t (by cases cl <;> exact ht)

/-- Every access to the first 2^30 bytes of a plain address space reaches the location of the same number. -/
theorem Plain.translate {s : State} (h : Plain s) (cl : Client) {va : Nat} (hv : va < 2 ^ 30) (acc : Nat) :
    ∃ u, s.translate cl 0 0 va acc = (.ok va, u) ∧ Plain u ∧ Alike s u := by
  unfold State.translate
  have hs : s.stalled.find? (fun x => x.client = cl && x.va = va && x.part = 0 && x.asid = 0) = none := by rw [h.stalled]; rfl
  rw [if_neg (by omega), hs]
  simp only
  split
  · rename_i t ht
    have hc := List.find?_some ht
    have : t = plainTlb := by
      simp only [Tlb.covers, Bool.and_eq_true, decide_eq_true_eq] at hc
      exact h.tlb cl t (List.mem_of_find?_eq_some ht) hc.1.1.1 hc.1.1.2
    subst this
    split
    · rw [plain_lacks, if_neg (by decide), plain_locate hv]
      exact ⟨_, rfl, h.freeNo _, Alike.freeNo ..⟩
    · obtain ⟨u, e, pu, au⟩ := (h.freeNo (s.freeNo + 1)).miss cl hv acc
      exact ⟨u, e, pu, (Alike.freeNo ..).trans au⟩
  · exact h.miss cl hv acc

theorem Plain.xlateAs {s : State} (h : Plain s) (cl : Client) {va : Nat} (hv : va < 2 ^ 30) (acc ext : Nat) :
    ∃ u, Machine.xlateAs cl 0 0 va acc ext s = .ok (va, u) ∧ Plain u ∧ Alike s u := by
  obtain ⟨u, e, pu, au⟩ := h.translate cl hv acc
  exact ⟨u, by unfold Machine.xlateAs; rw [e], pu, au⟩

/-- A state whose caches are empty is plain when its tables are. -/
theorem Plain.fresh {s : State} (stalled : s.stalled = []) (dies : s.dies = []) (base : (s.part 0).ptbase = 0)
    (handles : (s.part 0).handles = [])
    (root : s.readM (2 * tierSpan) 8 = plainRoot) (node : s.readM (2 * tierSpan + 0x10000) 8 = plainNode)
    (leaf : s.readM (2 * tierSpan + 0x20000) 8 = plainLeaf)
    (cores : ∀ e ∈ s.cores, e.2.tlbC = [] ∧ e.2.tlbA = [] ∧ e.2.ctx.csr.evsel = []) (ladles : ∀ e ∈ s.ladles, e.2.tlb = []) : Plain s where
  stalled := stalled
  walkers d := by rw [State.die, dies]; rfl
  replicas d := by rw [State.die, dies]; rfl
  base := base
  handles := handles
  root := root
  node := node
  leaf := leaf
  nodes d n hn := by rw [State.die, dies] at hn; cases hn
  tlb cl t ht := by
    have hk : ∀ k, (s.core k).tlbC = [] ∧ (s.core k).tlbA = [] ∧ (s.core k).ctx.csr.evsel = [] :=
      SMap.get_of_all (P := fun c : Core => c.tlbC = [] ∧ c.tlbA = [] ∧ c.ctx.csr.evsel = []) ⟨rfl, rfl, rfl⟩ cores
    have hl : ∀ l, (s.ladle l).tlb = [] := SMap.get_of_all (P := fun x : Ladle => x.tlb = []) rfl ladles
    cases cl <;> simp_all [State.tlbOf]
  events k :=
    (SMap.get_of_all (P := fun c : Core => c.tlbC = [] ∧ c.tlbA = [] ∧ c.ctx.csr.evsel = []) ⟨rfl, rfl, rfl⟩ cores k).2.2

end Sys2Proof.Machine
end

