-- ==== Sys2Proof/Laws/Plainly.lean ====
section
/-! SUPPORT. What an act gives in a plain address space, whatever Config lets the translation caches hold: `Gives a s v t`
says that in every plain state alike to s the act a answers v and leaves a plain state alike to t. -/

namespace Sys2Proof.Machine

set_option Elab.async false

/-- A change of a core that leaves its translation caches, and no counted event, leaves a plain space plain. -/
theorem Plain.modCore {s : State} (h : Plain s) (k : Nat) (f : Core → Core)
    (hf : (f (s.core k)).tlbC = (s.core k).tlbC ∧ (f (s.core k)).tlbA = (s.core k).tlbA ∧ (f (s.core k)).ctx.csr.evsel = []) :
    Plain (s.modCore k f) := by
  have hc : ∀ j, ((s.modCore k f).core j).tlbC = (s.core j).tlbC ∧ ((s.modCore k f).core j).tlbA = (s.core j).tlbA
      ∧ ((s.modCore k f).core j).ctx.csr.evsel = [] := by
    intro j
    unfold State.modCore State.core at *
    rw [SMap.get_put]
    split
    · subst j; exact hf
    · exact ⟨rfl, rfl, h.events j⟩
  exact {
    stalled := h.stalled
    walkers := h.walkers
    replicas := h.replicas
    base := h.base
    handles := h.handles
    root := h.root
    node := h.node
    leaf := h.leaf
    nodes := h.nodes
    tlb := fun cl t ht => h.tlb cl t (by cases cl <;> simp_all [State.tlbOf]; exact ht)
    events := fun j => (hc j).2.2 }

/-- In every plain state alike to s, the act answers v and leaves a plain state alike to t. -/
def Gives {α : Type} (a : Act α) (s : State) (v : α) (t : State) : Prop :=
  ∀ u, Plain u → Alike s u → ∃ w, a u = .ok (v, w) ∧ Plain w ∧ Alike t w

theorem Gives.pure {α : Type} (v : α) (s : State) : Gives (pure v : Act α) s v s := fun u p a => ⟨u, rfl, p, a⟩

theorem Gives.bind {α β : Type} {a : Act α} {f : α → Act β} {s t r : State} {v : α} {x : β} (h : Gives a s v t) (g : Gives (f v) t x r) :
    Gives (a >>= f) s x r := by
  intro u p al
  obtain ⟨w, e, pw, aw⟩ := h u p al
  obtain ⟨z, e', pz, az⟩ := g w pw aw
  refine ⟨z, ?_, pz, az⟩
  rw [← e']
  change (a u).bind (fun y => f y.1 y.2) = _
  rw [e]
  rfl

theorem Gives.ite_true {α : Type} {a b : Act α} {c : Prop} [Decidable c] {s t : State} {v : α} (hc : c) (h : Gives a s v t) :
    Gives (if c then a else b) s v t := by rwa [if_pos hc]

theorem Gives.ite_false {α : Type} {a b : Act α} {c : Prop} [Decidable c] {s t : State} {v : α} (hc : ¬ c) (h : Gives b s v t) :
    Gives (if c then a else b) s v t := by rwa [if_neg hc]

/-- What an act gives, it does. -/
theorem Gives.run {α : Type} {a : Act α} {s t u : State} {v : α} (h : Gives a s v t) (p : Plain u) (al : Alike s u) :
    ∃ w, a u = .ok (v, w) ∧ Plain w ∧ Alike t w := h u p al

theorem Alike.window {s u : State} (h : Alike s u) (va : Nat) : u.window va = s.window va := by
  rw [State.window, State.window, State.redirect, State.redirect, h.curWork, h.part]

theorem Alike.windowNow {s u : State} (h : Alike s u) (va : Nat) : u.windowNow va = s.windowNow va := by
  rw [State.windowNow, State.windowNow, State.redirect, State.redirect, h.curWork, h.part]

/-- Nothing is replicated in a plain space, and so no read makes a replica the one used last. -/
theorem Plain.useReplica {s : State} (h : Plain s) (d key : Nat) : s.useReplica d key = s := by
  have hr : s.replicaOn d key = false := by
    rw [State.replicaOn, h.replicas]
    rfl
  rw [State.useReplica, hr]
  rfl

/-- The plain address space lies in the crucible, and so on no peer. -/
theorem plain_tier {va : Nat} (h : va < 2 ^ 30) : tierOfKey va = 0 := by
  have hk : va / tierSpan = 0 := Nat.div_eq_of_lt (by unfold tierSpan; omega)
  simp [tierOfKey, hk]

theorem plain_noPath (s : State) {va : Nat} (h : va < 2 ^ 30) : s.noPath va = false := by simp [State.noPath, plain_tier h]
theorem plain_lostPeer (s : State) {va : Nat} (h : va < 2 ^ 30) : s.lostPeer va = false := by simp [State.lostPeer, plain_tier h]

/-- A party acts on KV objects of the plain address space: nothing is poisoned and no peer is lost. -/
def Kv.plainIn (x : Kv) (s : State) : Bool :=
  decide (x.part = 0) && decide (x.asid = 0) && s.poison.isEmpty && s.lost.isEmpty

theorem window_none {s : State} (h : (s.part s.work.part).handles = []) (va : Nat) : s.window va = va := by
  rw [State.window, State.redirect, h]
  rfl

theorem windowNow_none {s : State} (h : (s.part s.work.part).handles = []) (va : Nat) : s.windowNow va = va := by
  rw [State.windowNow, State.redirect, h]
  rfl

theorem Gives.key {x : Kv} {s : State} {va acc : Nat} (n : Nat) (h : x.plainIn s = true) (hv : va < 2 ^ 30) :
    Gives (x.key va acc n) s va s := by
  intro u p al
  simp only [Kv.plainIn, Bool.and_eq_true, decide_eq_true_eq, List.isEmpty_iff] at h
  obtain ⟨⟨⟨h1, h2⟩, -⟩, -⟩ := h
  have hw : ∀ who, u.redirect 0 who none (va % 2 ^ 64) = va := fun who => by
    rw [State.redirect, p.handles, Nat.mod_eq_of_lt (by omega)]
    rfl
  obtain ⟨w, e, pw, aw⟩ := p.xlateAs x.cl hv acc n
  refine ⟨w, ?_, pw, al.trans aw⟩
  change xlateAs x.cl x.part x.asid (u.redirect x.part (if x.core then u.work.id else 0) none (va % 2 ^ 64)) acc n u = _
  rw [h1, h2, hw]
  exact e

theorem Gives.load {x : Kv} {s : State} {va n : Nat} (h : x.plainIn s = true) (hv : va < 2 ^ 30) : Gives (x.load va n) s (s.readM va n) s := by
  refine (Gives.key n h hv).bind ?_
  intro u p al
  have hp : u.poisoned va n = false := by
    simp only [Kv.plainIn, Bool.and_eq_true, decide_eq_true_eq, List.isEmpty_iff] at h
    rw [al.poisoned, State.poisoned, plain_lostPeer s hv, h.1.2]
    rfl
  have hu := p.useReplica (clientDie x.cl) va
  refine ⟨u, ?_, p, al⟩
  change (Machine.waitIf (!x.dry && u.noPath va) .memory >>= fun _ =>
    poisonIf (!x.dry && u.readPoisoned (clientDie x.cl) va n) va (BitVec.ofNat 64 va)
    >>= fun _ => set (u.useReplica (clientDie x.cl) va) >>= fun _ => (Pure.pure (u.readM va n) : Act Nat)) u = _
  rw [plain_noPath u hv, State.readPoisoned, hp, hu, al.readM, Bool.and_false, Bool.false_and, Bool.and_false]
  rfl

theorem die_map (m : SMap Die) (f : Die → Die) (h : f {} = {}) (d : Nat) : SMap.get (m.map fun e => (e.1, f e.2)) {} d = f (m.get {} d) := by
  unfold SMap.get
  induction m with
  | nil => exact h.symm
  | cons e r ih =>
    obtain ⟨j, a⟩ := e
    simp only [List.map_cons, SMap.find_cons]
    split
    · rfl
    · exact ih

theorem State.die_writeM (s : State) (key : Nat) (l : List Byte) (d : Nat) : (s.writeM key l).die d = dropReplicas key l.length (s.die d) :=
  die_map s.dies (dropReplicas key l.length) rfl d

theorem Alike.writeM {s u : State} (h : Alike s u) (key : Nat) (l : List Byte) : Alike (s.writeM key l) (u.writeM key l) where
  rest := by unfold State.writeM; rw [h.rest]
  core k := h.core k
  die d := by rw [State.die_writeM, State.die_writeM, h.die d]; rfl
  ladle k := h.ladle k

/-- A memory holds the tables of the plain address space. -/
def State.tables (s : State) : Bool :=
  decide (s.readM (2 * tierSpan) 8 = plainRoot) && decide (s.readM (2 * tierSpan + 0x10000) 8 = plainNode)
    && decide (s.readM (2 * tierSpan + 0x20000) 8 = plainLeaf)

theorem Plain.writeM {s : State} (h : Plain s) (key : Nat) (l : List Byte) (g : (s.writeM key l).tables = true) : Plain (s.writeM key l) := by
  simp only [State.tables, Bool.and_eq_true, decide_eq_true_eq] at g
  exact {
    stalled := h.stalled
    walkers := fun d => by rw [State.die_writeM]; exact h.walkers d
    replicas := fun d => by rw [State.die_writeM]; unfold dropReplicas; simp [h.replicas d]
    base := h.base
    handles := h.handles
    root := g.1.1
    node := g.1.2
    leaf := g.2
    nodes := fun d n hn => h.nodes d n (by rw [State.die_writeM] at hn; exact hn)
    tlb := fun cl t ht => h.tlb cl t (by cases cl <;> exact ht)
    events := h.events }

theorem Gives.store {x : Kv} {s : State} {va n v : Nat} (h : x.plainIn s = true) (hv : va < 2 ^ 30) (g : (s.writeN va n v).tables = true) :
    Gives (x.store va n v) s () (s.writeN va n v) := by
  refine (Gives.key n h hv).bind ?_
  intro u p al
  refine ⟨u.writeN va n v, ?_, ?_, al.writeM va (toBytes v n)⟩
  · change (Machine.waitIf (!x.dry && u.noPath va) .memory >>= fun _ => get >>= fun z =>
      poisonIf (!x.dry && z.lostPeer va) va (BitVec.ofNat 64 va) >>= fun _ => (modify fun s => s.writeN va n v : Act Unit)) u = _
    rw [plain_noPath u hv, Bool.and_false]
    change (poisonIf (!x.dry && u.lostPeer va) va (BitVec.ofNat 64 va) >>= fun _ => (modify fun s => s.writeN va n v : Act Unit)) u = _
    rw [plain_lostPeer u hv, Bool.and_false]
    rfl
  · refine p.writeM va _ ?_
    rw [State.tables, (al.writeM va (toBytes v n)).readM, (al.writeM va (toBytes v n)).readM, (al.writeM va (toBytes v n)).readM]
    exact g

theorem Gives.field {x : Kv} {s : State} {va hi lo : Nat} (h : x.plainIn s = true) (hv : va < 2 ^ 30) :
    Gives (x.field va hi lo) s (fieldOf (s.readM va 8) hi lo) s := (Gives.load h hv).bind (Gives.pure _ _)

theorem Gives.setField {x : Kv} {s : State} {va hi lo v : Nat} (h : x.plainIn s = true) (hv : va < 2 ^ 30)
    (g : (s.writeN va 8 (putBits (BitVec.ofNat 64 (s.readM va 8)) hi lo v).toNat).tables = true) :
    Gives (x.setField va hi lo v) s () (s.writeN va 8 (putBits (BitVec.ofNat 64 (s.readM va 8)) hi lo v).toNat) :=
  (Gives.load h hv).bind (Gives.store h hv g)

theorem Gives.rd {x : Kv} {s : State} {f : RecField} (h : x.plainIn s = true) (hv : x.va + 8 * f.dw < 2 ^ 30) :
    Gives (x.rd f) s (fieldOf (s.readM (x.va + 8 * f.dw) 8) f.hi f.lo) s := Gives.field h hv

theorem Gives.wr {x : Kv} {s : State} {f : RecField} {v : Nat} (h : x.plainIn s = true) (hv : x.va + 8 * f.dw < 2 ^ 30)
    (g : (s.writeN (x.va + 8 * f.dw) 8 (putBits (BitVec.ofNat 64 (s.readM (x.va + 8 * f.dw) 8)) f.hi f.lo v).toNat).tables = true) :
    Gives (x.wr f v) s () (s.writeN (x.va + 8 * f.dw) 8 (putBits (BitVec.ofNat 64 (s.readM (x.va + 8 * f.dw) 8)) f.hi f.lo v).toNat) :=
  Gives.setField h hv g

/-- Loads one after the other. -/
theorem Gives.loads {x : Kv} {s : State} {n : Nat} (f : Nat → Nat) (l : List Nat) (h : x.plainIn s = true) (hv : (l.all fun i => f i < 2 ^ 30) = true) :
    Gives (l.mapM fun i => x.load (f i) n) s (l.map fun i => s.readM (f i) n) s := by
  induction l with
  | nil => rw [List.mapM_nil]; exact Gives.pure _ _
  | cons i r ih =>
    simp only [List.all_cons, Bool.and_eq_true, decide_eq_true_eq] at hv
    rw [List.mapM_cons]
    exact (Gives.load h hv.1).bind ((ih hv.2).bind (Gives.pure _ _))

/-- The chain of pages ends at no page. -/
theorem Gives.pagesEnd {x : Kv} {s : State} {n pg : Nat} (hn : n ≠ 0) (h : pg = noPage) : Gives (x.pagesFrom n pg) s [] s := by
  obtain ⟨n, rfl⟩ := Nat.exists_eq_succ_of_ne_zero hn
  rw [Kv.pagesFrom, if_pos h]
  exact Gives.pure _ _

theorem Gives.pagesStep {x : Kv} {s : State} {n pg : Nat} {l : List Nat} {q : Nat} (hn : n ≠ 0) (h : pg ≠ noPage)
    (hq : Gives (x.nextPage pg) s q s) (hl : Gives (x.pagesFrom (n - 1) q) s l s) : Gives (x.pagesFrom n pg) s (pg :: l) s := by
  obtain ⟨n, rfl⟩ := Nat.exists_eq_succ_of_ne_zero hn
  rw [Kv.pagesFrom, if_neg h]
  exact hq.bind (hl.bind (Gives.pure _ _))

theorem Gives.blocksEnd {x : Kv} {s : State} {n b : Nat} (hn : n ≠ 0) (h : b = noBlock) : Gives (x.blocksFrom n b) s [] s := by
  obtain ⟨n, rfl⟩ := Nat.exists_eq_succ_of_ne_zero hn
  rw [Kv.blocksFrom, if_pos h]
  exact Gives.pure _ _

/-- Acts one after the other. -/
theorem Gives.forNil {α : Type} {f : α → Act Unit} {s : State} : Gives (List.forM [] f) s () s := Gives.pure () s

theorem Gives.forCons {α : Type} {f : α → Act Unit} {s t u : State} {a : α} {r : List α} (h : Gives (f a) s () t) (g : Gives (r.forM f) t () u) :
    Gives (List.forM (a :: r) f) s () u := h.bind g

theorem Gives.mapNil {α β : Type} {f : α → Act β} {s : State} : Gives (List.mapM f []) s [] s := by
  rw [List.mapM_nil]
  exact Gives.pure _ _

theorem Gives.mapCons {α β : Type} {f : α → Act β} {s t u : State} {a : α} {r : List α} {b : β} {l : List β} (h : Gives (f a) s b t)
    (g : Gives (r.mapM f) t l u) : Gives (List.mapM f (a :: r)) s (b :: l) u := by
  rw [List.mapM_cons]
  exact h.bind (g.bind (Gives.pure _ _))

/-! ### The checks of a KV record -/

/-- A field of the record as memory holds it. -/
def Kv.fieldIn (x : Kv) (s : State) (f : RecField) : Nat := fieldOf (s.readM (x.va + 8 * f.dw) 8) f.hi f.lo

/-- What `badRecord` and `badPool` answer. -/
def Kv.recordBad (x : Kv) (s : State) : Bool :=
  let d0 := s.readM x.va 8
  let d1 := s.readM (x.va + 8) 8
  let d5 := s.readM (x.va + 40) 8
  let d6 := s.readM (x.va + 48) 8
  let d9 := s.readM (x.va + 72) 8
  fieldOf d0 7 0 ≠ 3 || fieldOf d0 15 8 ≠ 1 || fieldOf d0 63 49 ≠ 0 || fieldOf d0 35 16 ≠ 0 || fieldOf d1 63 48 ≠ 0
    || fieldOf d5 63 56 ≠ 0 || fieldOf d5 31 24 ≠ 0 || fieldOf d6 63 56 ≠ 0 || fieldOf d6 31 24 ≠ 0 || fieldOf d9 31 16 ≠ 0

def Kv.poolBad (x : Kv) (s : State) : Bool :=
  let d := (List.range 8).map fun i => s.readM (x.fieldIn s fPool + 8 * i) 8
  let stride := d.getD 3 0
  d.getD 0 0 % 4096 ≠ 0 || d.getD 1 0 % 64 ≠ 0 || fieldOf (d.getD 2 0) 31 24 ≠ 0
    || stride % 32 ≠ 0 || stride < 32 || 2048 < stride || d.getD 5 0 ≠ 0 || d.getD 6 0 ≠ 0 || d.getD 7 0 ≠ 0

/-- Where the record and its pool lie: in the plain address space. -/
def Kv.reach (x : Kv) (s : State) : Bool :=
  x.plainIn s && decide (x.va + 128 < 2 ^ 30) && decide (x.fieldIn s fPool % 64 = 0) && decide (x.fieldIn s fPool + 64 < 2 ^ 30)

theorem Gives.badRecord {x : Kv} {s : State} (h : x.reach s = true) : Gives x.badRecord s (x.recordBad s) s := by
  simp only [Kv.reach, Bool.and_eq_true, decide_eq_true_eq] at h
  obtain ⟨⟨⟨h1, h2⟩, -⟩, -⟩ := h
  exact (Gives.load h1 (by omega)).bind ((Gives.load h1 (by omega)).bind ((Gives.load h1 (by omega)).bind ((Gives.load h1 (by omega)).bind
    ((Gives.load h1 (by omega)).bind (Gives.pure _ _)))))

theorem Gives.badPool {x : Kv} {s : State} (h : x.reach s = true) : Gives x.badPool s (x.poolBad s) s := by
  simp only [Kv.reach, Bool.and_eq_true, decide_eq_true_eq] at h
  obtain ⟨⟨⟨h1, h2⟩, h3⟩, h4⟩ := h
  refine (Gives.rd (f := fPool) h1 (show x.va + 8 * 3 < 2 ^ 30 by omega)).bind (Gives.ite_false (fun c => c h3) ?_)
  refine (Gives.loads (fun i => x.fieldIn s fPool + 8 * i) (List.range 8) h1 ?_).bind (Gives.pure _ _)
  simp only [List.all_eq_true, List.mem_range, decide_eq_true_eq]
  intro i hi
  omega

theorem Gives.checkFormed {x : Kv} {s : State} (h : x.reach s = true) (g : (!x.recordBad s && !x.poolBad s) = true) :
    Gives x.checkFormed s () s := by
  simp only [Bool.and_eq_true, Bool.not_eq_true'] at g
  have e1 : (x.recordBad s || x.poolBad s) = false := by rw [g.1, g.2]; rfl
  refine (Gives.badRecord h).bind ((Gives.badPool h).bind ?_)
  rw [e1]
  exact Gives.pure () s

/-- A cause that does not hold. -/
theorem Gives.faultIf {x : Kv} {s : State} {b : Bool} {n : Nat} (h : b = false) : Gives (x.faultIf b n) s () s := by
  subst h
  exact Gives.pure () s

theorem Gives.trapIf {x : Kv} {s : State} {b : Bool} {n : Nat} (h : b = false) : Gives (x.trapIf b n) s () s := by
  subst h
  exact Gives.pure () s

theorem Gives.waitIf {x : Kv} {s : State} {b : Bool} (h : b = false) : Gives (x.waitIf b) s () s := by
  subst h
  exact Gives.pure () s

theorem Gives.checkOpen {x : Kv} {s : State} {states : List Nat} (h : x.reach s = true)
    (g : (!x.recordBad s && !x.poolBad s && states.contains (x.fieldIn s fState)) = true) : Gives (x.checkOpen states) s () s := by
  have hv := h
  simp only [Kv.reach, Bool.and_eq_true, decide_eq_true_eq] at hv
  simp only [Bool.and_eq_true] at g
  refine (Gives.checkFormed h (by simp only [Bool.and_eq_true]; exact g.1)).bind
    ((Gives.rd (f := fState) hv.1.1.1 (show x.va + 8 * 0 < 2 ^ 30 by omega)).bind (Gives.faultIf ?_))
  change (!states.contains (x.fieldIn s fState)) = false
  rw [g.2]
  rfl

theorem Alike.fills {s u : State} (h : Alike s u) : u.fills = s.fills := by rw [h.rest]

/-- An operation whose structures can all be translated passes its rehearsal; in a plain space its fills touch nothing. -/
theorem Gives.rehearse {α : Type} {x : Kv} {act : Kv → Act α} {s t : State} {v : α} (h : Gives (act { x with dry := true }) s v t)
    (hf : t.fills = s.fills) : Gives (x.rehearse act) s () s := by
  intro u p al
  obtain ⟨w, e, -, aw⟩ := h u p al
  have hk : u.keepFills w.fills = u := by
    rw [State.keepFills, aw.fills, al.fills, hf, List.drop_length]
    rfl
  exact ⟨u, by unfold Kv.rehearse; rw [e]; simp only [hk], p, al⟩

/-- What `wellFormed` asks of a record and a pool that are not bad, LOGW and WHEEL in their limits. -/
def Kv.formed (x : Kv) (s : State) : Bool :=
  let heads := (List.range (2 ^ x.fieldIn s fLogw)).map fun j => s.readM (x.fieldIn s fWheel + 8 * j) 8
  let zero := (List.range 5).map fun i => s.readM (x.va + 88 + 8 * i) 8
  decide (2 ≤ x.fieldIn s fEw) && decide (x.fieldIn s fEw ≤ 512) && decide (1 ≤ x.fieldIn s fKw) && decide (x.fieldIn s fKw < x.fieldIn s fEw) && x.fieldIn s fRwb ≠ 0
    && x.fieldIn s fState = 0 && x.fieldIn s fHead = (x.fieldIn s fCommit + 2 ^ 32 - 1) % 2 ^ 32 && x.fieldIn s fDrained = x.fieldIn s fCommit
    && x.fieldIn s fPhead = noPage && x.fieldIn s fPtail = noPage && x.fieldIn s fChead = noPage && x.fieldIn s fCtail = noPage
    && x.fieldIn s fHold = noBlock && x.fieldIn s fParent = 0 && x.fieldIn s fForkpos = 0 && x.fieldIn s fLfp = 0
    && x.fieldIn s fDepth = 0 && x.fieldIn s fKids = 0 && x.fieldIn s fPin = 0 && zero.all (· = 0)
    && heads.all (· = 2 ^ 64 - 1) && fieldOf (s.readM (x.fieldIn s fPool + 24) 8) 15 0 = (4 * x.fieldIn s fEw + 31) / 32 * 32

theorem Gives.wellFormed {x : Kv} {s : State} (h : x.reach s = true)
    (g : (!x.recordBad s && !x.poolBad s && decide (3 ≤ x.fieldIn s fLogw) && decide (x.fieldIn s fLogw ≤ 16) && decide (x.fieldIn s fWheel % 64 = 0)
      && decide (x.fieldIn s fWheel + 8 * 2 ^ 16 < 2 ^ 30)) = true) : Gives x.wellFormed s (x.formed s) s := by
  have hv := h
  simp only [Kv.reach, Bool.and_eq_true, decide_eq_true_eq] at hv
  obtain ⟨⟨⟨h1, h2⟩, h3⟩, h4⟩ := hv
  simp only [Bool.and_eq_true, Bool.not_eq_true', decide_eq_true_eq] at g
  obtain ⟨⟨⟨⟨⟨g1, g2⟩, g3⟩, g4⟩, g5⟩, g6⟩ := g
  have e1 : ¬ (x.recordBad s || x.poolBad s) = true := by rw [g1, g2]; decide
  have rd : ∀ f : RecField, f.dw ≤ 15 → Gives (x.rd f) s (x.fieldIn s f) s := fun f hf => Gives.rd h1 (by omega)
  have e2 : ¬ (decide (x.fieldIn s fLogw < 3) || decide (16 < x.fieldIn s fLogw) || decide (x.fieldIn s fWheel % 64 ≠ 0)) = true := by
    simp only [Bool.or_eq_true, decide_eq_true_eq]
    omega
  have hp : 2 ^ x.fieldIn s fLogw ≤ 2 ^ 16 := Nat.pow_le_pow_right (by decide) g4
  unfold Kv.wellFormed
  refine (Gives.badRecord h).bind ((Gives.badPool h).bind (Gives.ite_false e1 ?_))
  refine (rd fLogw (by decide)).bind ((rd fEw (by decide)).bind ((rd fKw (by decide)).bind ((rd fCommit (by decide)).bind ((rd fWheel (by decide)).bind
    ((rd fPool (by decide)).bind ((Gives.field h1 (by omega)).bind ((Gives.loads (fun i => x.va + 88 + 8 * i) (List.range 5) h1 ?_).bind
    (Gives.ite_false e2 ?_))))))))
  · simp only [List.all_eq_true, List.mem_range, decide_eq_true_eq]
    intro i hi
    omega
  refine (Gives.loads (fun j => x.fieldIn s fWheel + 8 * j) (List.range (2 ^ x.fieldIn s fLogw)) h1 ?_).bind ?_
  · simp only [List.all_eq_true, List.mem_range, decide_eq_true_eq]
    intro i hi
    omega
  exact (rd fRwb (by decide)).bind ((rd fState (by decide)).bind ((rd fHead (by decide)).bind ((rd fDrained (by decide)).bind ((rd fPhead (by decide)).bind
    ((rd fPtail (by decide)).bind ((rd fChead (by decide)).bind ((rd fCtail (by decide)).bind ((rd fHold (by decide)).bind ((rd fParent (by decide)).bind
    ((rd fForkpos (by decide)).bind ((rd fLfp (by decide)).bind ((rd fDepth (by decide)).bind ((rd fKids (by decide)).bind ((rd fPin (by decide)).bind
    (Gives.pure _ _)))))))))))))))

end Sys2Proof.Machine
end

