-- ==== Sys2Proof/Laws/Retire.lean ====
section
/-! SUPPORT. What retirement leaves of the state, said once: its core, its engine, and everything else as it was. -/

set_option linter.unusedSimpArgs false

namespace Sys2Proof.Machine

set_option Elab.async false

/-! ### The core -/

theorem State.ctx_retire (s : State) (e : Eng) (p : BitVec 4) (n : Needs) (len : Nat) (nx : Next) :
    (s.retire e p n len nx).ctx = s.ctx.retire e (n.allPushes e p) len nx := State.ctx_modCtx s _

theorem State.cc_retire (s : State) (e : Eng) (p : BitVec 4) (n : Needs) (len : Nat) (nx : Next) :
    (s.retire e p n len nx).cc = { s.cc with ctx := s.ctx.retire e (n.allPushes e p) len nx } := State.cc_modCtx s _

theorem State.core_retire_ne (s : State) (e : Eng) (p : BitVec 4) (n : Needs) (len : Nat) (nx : Next) {k : Nat} (h : k ≠ s.cur) :
    (s.retire e p n len nx).core k = s.core k := by
  unfold State.retire
  rw [State.core_modCtx_ne _ _ h]

/-! ### Ctx.retire -/

theorem Ctx.eng_arrive (c : Ctx) (e f : Eng) (l : List Loop) (pc : Nat) :
    (c.arrive e l pc).eng f = if f = e then { c.eng e with loops := (applyLoopEnd l pc).1 ++ c.hiddenLoops e, pc := (applyLoopEnd l pc).2 }
      else c.eng f := by
  unfold Ctx.arrive
  rw [Ctx.eng_modEng]

/-- Moving on changes the engine alone. -/
theorem Ctx.moveTo_shape (c : Ctx) (e : Eng) (len : Nat) (nx : Next) : ∃ f, c.moveTo e len nx = c.modEng e f := by
  have ha : ∀ l pc, ∃ f, c.arrive e l pc = c.modEng e f := fun l pc =>
    ⟨fun g => { g with loops := (applyLoopEnd l pc).1 ++ c.hiddenLoops e, pc := (applyLoopEnd l pc).2 }, rfl⟩
  cases nx with
  | more => exact ⟨id, by cases e <;> rfl⟩
  | gone => exact ⟨id, by cases e <;> rfl⟩
  | seq => exact ha _ _
  | yield => exact ha _ _
  | later => exact ha _ _
  | branch t => exact ha _ _
  | loops l t => exact ha _ _
  | jump t => exact ⟨fun g => { g with pc := t }, rfl⟩
  | done => exact ⟨fun g => { g with done := true, loops := [], ras := [] }, rfl⟩

theorem Ctx.retire_shape (c : Ctx) (e : Eng) (l : List (Nat × Nat)) (len : Nat) (nx : Next) :
    ∃ f, c.retire e l len nx = { c.modEng e f with
      fifo := ((c.unreserve l).pushTokens l).fifo, resv := ((c.unreserve l).pushTokens l).resv } := by
  unfold Ctx.retire
  obtain ⟨f, hf⟩ := ((c.unreserve l).pushTokens l).moveTo_shape e len nx
  simp only [hf]
  refine ⟨fun g => { f g with prog := none }, ?_⟩
  cases e <;> rfl

theorem Ctx.eng_retire_ne (c : Ctx) {e f : Eng} (l : List (Nat × Nat)) (len : Nat) (nx : Next) (h : f ≠ e) :
    (c.retire e l len nx).eng f = c.eng f := by
  obtain ⟨g, hg⟩ := c.retire_shape e l len nx
  rw [hg]
  have := Ctx.eng_modEng c e f g
  rw [if_neg h] at this
  rw [← this]
  cases f <;> rfl

theorem Ctx.eng_retire_same (c : Ctx) (e : Eng) (l : List (Nat × Nat)) (len : Nat) (nx : Next) :
    (c.retire e l len nx).eng e =
      { (((c.unreserve l).pushTokens l).moveTo e len nx).eng e with prog := none } := by
  cases e <;> rfl

theorem Ctx.eng_retire_seq (c : Ctx) (e : Eng) (l : List (Nat × Nat)) (len : Nat) :
    (c.retire e l len .seq).eng e =
      { c.eng e with
        loops := (applyLoopEnd (c.seenLoops e) ((c.eng e).pc + len)).1 ++ c.hiddenLoops e
        pc := (applyLoopEnd (c.seenLoops e) ((c.eng e).pc + len)).2, prog := none } := by
  rw [Ctx.eng_retire_same]
  unfold Ctx.moveTo
  dsimp only
  rw [Ctx.eng_arrive, if_pos rfl]
  cases e <;> rfl

theorem State.ctx_retired (s : State) (i : Instr) (e : Eng) (p : BitVec 4) (n : Needs) (nx : Next) :
    (s.retired i e p n nx).ctx = s.ctx.retire e (n.allPushes e p) (instrWords i) nx :=
  State.ctx_retire s e p n (instrWords i) nx

/-! ### What is left of the state -/

/-- A body that has changed nothing but its core's architectural state. -/
structure Within (s u : State) : Prop where
  device : u = { s with cores := u.cores, quiet := u.quiet, arrayQuiet := u.arrayQuiet }
  cores : ∀ k, k ≠ s.cur → u.core k = s.core k
  core : u.cc = { s.cc with ctx := u.ctx }

theorem Within.cur {s u : State} (h : Within s u) : u.cur = s.cur := by rw [h.device]

theorem Within.now {s u : State} (h : Within s u) : u.now = s.now := by rw [h.device]

theorem Within.issued (s : State) (e : Eng) (p : BitVec 4) (n : Needs) (len : Nat) : Within s (s.issued e p n len) :=
  ⟨rfl, fun _ hk => State.core_issued_ne _ _ _ _ _ hk, by rw [State.ctx, State.cc_issued]⟩

theorem Within.modCtx {s u : State} (h : Within s u) (f : Ctx → Ctx) : Within s (u.modCtx f) where
  device := by
    show { u with cores := _ } = { s with cores := _, quiet := u.quiet, arrayQuiet := u.arrayQuiet }
    rw [h.device]
    rfl
  cores k hk := by rw [State.core_modCtx_ne _ _ (by rw [h.cur]; exact hk), h.cores k hk]
  core := by rw [State.ctx_modCtx, State.cc_modCtx, h.core]

/-- Retirement after such a body. -/
theorem OnlyCore.retired {s u : State} (h : Within s u) (i : Instr) (e : Eng) (p : BitVec 4) (n : Needs) (nx : Next) :
    OnlyCore s (u.retired i e p n nx) := by
  have hcc : (u.retired i e p n nx).cc = { s.cc with ctx := (u.retire e p n (instrWords i) nx).ctx } := by
    show (u.retire e p n (instrWords i) nx).cc = _
    rw [State.cc_retire, h.core, State.ctx_retire]
  have hd : u.retired i e p n nx = { u with cores := (u.retired i e p n nx).cores, quiet := [], arrayQuiet := [] } := rfl
  refine ⟨fun _ => ?_, ?_, ?_, ?_⟩
  · rw [hd, h.device]
  · rw [hd, h.device]
  · intro k hk
    show (u.retire e p n (instrWords i) nx).core k = _
    rw [State.core_retire_ne _ _ _ _ _ _ (by rw [h.cur]; exact hk), h.cores k hk]
  · rw [State.ctx, hcc]

/-- What issue changes of the core's state, said once. -/
theorem State.issued_shape (s : State) (e : Eng) (p : BitVec 4) (n : Needs) (len : Nat) :
    ∃ g fi re cs, (s.issued e p n len).ctx = { s.ctx.modEng e g with fifo := fi, resv := re, csr := cs }
      ∧ cs = { s.ctx.csr with evcnt := cs.evcnt, lifted := cs.lifted } := by
  rw [State.ctx_issued]
  refine ⟨fun g => { g with wc := g.wc + BitVec.ofNat 32 len, passed := s.now }, _, _, _, rfl, ?_⟩
  have h : (s.ctx.pass e len s.now).csr = { s.ctx.csr with lifted := (s.ctx.pass e len s.now).csr.lifted } := by cases e <;> rfl
  rw [h]
  rfl

/-- Retirement after a body that has changed, beside what issue changes, only the engine. -/
theorem OnlyEngine.of_retired {s u : State} (h : Within s u) (i : Instr) (e : Eng) (p : BitVec 4) (n : Needs) (len : Nat) (nx : Next)
    {f : Engine → Engine} (hf : u.ctx = (s.issued e p n len).ctx.modEng e f) : OnlyEngine e s (u.retired i e p n nx) := by
  have hctx : (u.retired i e p n nx).ctx = ((s.issued e p n len).ctx.modEng e f).retire e (n.allPushes e p) (instrWords i) nx := by
    rw [State.ctx_retired, hf]
  obtain ⟨g, hg⟩ := ((s.issued e p n len).ctx.modEng e f).retire_shape e (n.allPushes e p) (instrWords i) nx
  refine { OnlyCore.retired h i e p n nx with engines := ?_, state := ?_, csr := ?_ }
  · intro k hk
    rw [hctx, Ctx.eng_retire_ne _ _ _ _ hk, Ctx.eng_modEng, if_neg hk, State.eng_issued_ne _ _ _ _ hk]
  all_goals
    obtain ⟨g', fi, re, cs, hs, hc⟩ := s.issued_shape e p n len
    rw [hs] at hg hctx
    rw [hctx, hg]
  · cases e <;> rfl
  · cases e <;> exact hc

/-- What issue, changing the engine and retiring leave. -/
theorem OnlyEngine.retired (s : State) (i : Instr) (e : Eng) (p : BitVec 4) (n : Needs) (len : Nat) (nx : Next) (f : Engine → Engine) :
    OnlyEngine e s (((s.issued e p n len).modCtx fun c => c.modEng e f).retired i e p n nx) :=
  OnlyEngine.of_retired ((Within.issued s e p n len).modCtx _) i e p n len nx (State.ctx_modCtx _ _)

/-- What issue and retiring leave. -/
theorem OnlyEngine.retired_issued (s : State) (i : Instr) (e : Eng) (p : BitVec 4) (n : Needs) (len : Nat) (nx : Next) :
    OnlyEngine e s ((s.issued e p n len).retired i e p n nx) :=
  OnlyEngine.of_retired (Within.issued s e p n len) i e p n len nx (f := id) (by cases e <;> rfl)

theorem State.seenLoops_modEng (c : Ctx) (e : Eng) (f : Engine → Engine) (h : (f (c.eng e)).loops = (c.eng e).loops) :
    (c.modEng e f).seenLoops e = c.seenLoops e := by
  unfold Ctx.seenLoops
  rw [Ctx.eng_modEng_same, h]
  cases e <;> rfl

theorem State.hiddenLoops_modEng (c : Ctx) (e : Eng) (f : Engine → Engine) (h : (f (c.eng e)).loops = (c.eng e).loops) :
    (c.modEng e f).hiddenLoops e = c.hiddenLoops e := by
  unfold Ctx.hiddenLoops
  rw [Ctx.eng_modEng_same, h]
  cases e <;> rfl

/-- The engine of an instruction that changes its engine by `f`, not its program counter or loops, and goes on at the
next word. -/
theorem State.eng_retired (s : State) (i : Instr) (e : Eng) (p : BitVec 4) (n : Needs) (f : Engine → Engine)
    (hl : ∀ g, (f g).loops = g.loops) (hpc : ∀ g, (f g).pc = g.pc) :
    (((s.issued e p n (instrWords i)).modCtx fun c => c.modEng e f).retired i e p n .seq).ctx.eng e =
      { f ((s.issued e p n (instrWords i)).ctx.eng e) with
        loops := s.nextLoops e (encode i).length, pc := s.nextPc e (encode i).length, prog := none } := by
  have hq : ((s.issued e p n (instrWords i)).ctx.eng e).pc = (s.ctx.eng e).pc := by rw [State.eng_issued_same]
  rw [State.ctx_retired, State.ctx_modCtx, Ctx.eng_retire_seq, State.seenLoops_modEng _ _ _ (hl _),
    State.hiddenLoops_modEng _ _ _ (hl _), Ctx.eng_modEng_same, State.seenLoops_issued, State.hiddenLoops_issued, hpc, hq]
  rfl

end Sys2Proof.Machine
end

