-- ==== Sys2Proof/Tests/Slice0.lean ====
section
/-! SUPPORT. Tests of the model by hand: words of the spec's worked examples and encoding tables, ill-formed terms, and
single steps with the results that the spec's tables give. -/

namespace Sys2Proof.Machine

set_option Elab.async false

/-! ### Decoding: words that the spec writes out -/

theorem test_word_addi : decode 0x00894003 0 = .ok (.addi .C 0 5 0 3) := by decide
theorem test_word_addi_tagged : decode 0x5089800A 0 = .ok (.addi .A 4 6 0 10) := by decide
theorem test_word_add : decode 0x8081F190 0 = .ok (.add .X 0 7 24 25) := by decide
theorem test_word_sigt : decode 0x80E8C002 0 = .ok (.sigt .X 0 3 2) := by decide
theorem test_word_addi_deps : decode 0xA489CE03 0 = .ok (.addi .X 9 7 7 3) := by decide
theorem test_word_amoadd : decode 0x02316240 0 = .ok (.amoaddAr 0 5 17 4 0) := by decide
theorem test_word_ld : decode 0x0300E005 0x00000008 = .ok (.ld 0 3 16 5 8) := by decide
theorem test_word_fcvt : decode 0x026A0C3E 0 = .ok (.fcvt 0 8 6 3 14) := by decide
theorem test_word_csrr : decode 0x0201C042 0 = .ok (.csrr 0 7 0x42) := by decide
theorem test_word_gld : decode 0x42302000 0x0000000C = .ok (.gld 0 0 0 16 0 12) := by decide
theorem test_word_lchain : decode 0x4240C000 0 = .ok (.lchain 0 3 0 0) := by decide
theorem test_word_swait : decode 0x42610005 0x00000105 = .ok (.astatSwait 0 4 1 5) := by decide
theorem test_word_kvgath : decode 0x42B06150 0x80400012 = .ok (.kvgath 0 1 16 21 16 1 1 2) := by decide
theorem test_word_vadd : decode 0xA2000000 0x0430800E = .ok (.vadd 8 0 1 3 2 0 0 14) := by decide
theorem test_word_vmul : decode 0x82100000 0x1410803C = .ok (.vmul 0 0 5 1 2 1 1 12) := by decide
theorem test_word_vcvt : decode 0x82A8000C 0x1850002E = .ok (.vcvt 0 12 6 5 1 0 14) := by decide
theorem test_word_exts : decode 0x83A02008 0x0000002C = .ok (.exts 0 0 1 8 1 12) := by decide
theorem test_word_mpush : decode 0x83800004 0x0010002C = .ok (.mpush 0 4 1 0 1 12) := by decide
theorem test_word_vdraw : decode 0x83400000 0x0810C02E = .ok (.vdraw 0 0 0 2 1 3 0 1 0 14) := by decide
theorem test_word_rinit : decode 0x421000A0 0x80000000 = .ok (.rinit 0 0 10 16 0 0) := by decide
theorem test_word_radv_tail : decode 0x42180000 0x80400001 = .ok (.radvTail 0 16 1) := by decide
theorem test_word_stq : decode 0x42080000 0x30001000 = .ok (.stq 0 0 0 0 6 0 0x1000) := by decide
theorem test_word_fwait : decode 0xC2414000 0 = .ok (.fwait 0 5 0) := by decide
theorem test_word_zcnv : decode 0xC2000000 0x00692040 = .ok (.zcnv 0 0 0 6 9 0 1 0 1 0) := by decide

/-- A reserved function code, a fixed bit and an unused major are refused, each by its own name (Table 3-19). -/
theorem test_word_refused : (decode 0x0108_0000 0).toOption = none ∧ (decode 0x0000_0001 0).toOption = none := by decide

/-! ### Ill-formed terms: each check of WellFormed refuses one, with its cause (R86) -/

/-- Every term of the list is refused, with the cause beside it. -/
def refused (l : List (Instr × Nat)) : Bool := l.all fun x => illegalCause x.1 = some x.2 && !WellFormed x.1

/-- A well-formed term passes. -/
theorem test_well_formed : WellFormed (.addi .C 0 5 0 3) = true ∧ WellFormed (.vadd 8 0 1 3 2 0 0 14) = true := by decide
/-- R166: the ring field belongs to the ring form alone, and names one of 16 rings. -/
theorem test_ill_ring_form : refused [(.gld 0 0 1 16 0 12, 2), (.gst 0 1 16 16 0 12, 3), (.ldq 0 0 1 0 0 0 0 0 0, 2),
    (.stq 0 1 16 0 6 0 0, 3)] = true := by decide
/-- R99: BTK and QDROP name a queue that the engine consumes. -/
theorem test_ill_consumed : refused [(.btk .F 0 0 4, 4), (.qdrop .C 0 0 1, 4)] = true := by decide
/-- R99: a loop ends 2 to 255 words on. -/
theorem test_ill_loop_end : refused [(.loopi .C 0 1 1, 3), (.loop .C 0 1 0x1FF, 3)] = true := by decide
/-- R99, R113: spill memory and its windows. -/
theorem test_ill_spill : refused [(.spl .C 0 1 1024, 3), (.sps .X 0 1 5120, 3), (.svra .C 0 17 0, 3), (.ldra .C 0 0 0, 3),
    (.svra .A 0 2 1023, 3)] = true := by decide
/-- R90, R92: FIFO codes, counts, roles, and a total above 63 with a dependence bit. -/
theorem test_ill_tokens : refused [(.waitt .X 0 12 1, 3), (.waitt .X 0 0 0, 3), (.waitt .A 0 0 1, 4), (.sigt .X 0 0 1, 4),
    (.waitt .X 8 0 63, 3)] = true := by decide
/-- R129: a number that is no CSR. -/
theorem test_ill_csr : refused [(.csrr 0 1 0x002, 3), (.csrw 0 1 0x120, 3), (.csrs 0 1 0x3FFF, 3), (.csrc 0 1 0x0FF, 3)] = true := by
  decide
/-- R124: five phase levels. -/
theorem test_ill_phase : refused [(.phase 0 5, 3)] = true := by decide
/-- Table 3-14: sizes of LD and ST. -/
theorem test_ill_size : refused [(.ld 0 1 2 7 0, 3), (.st 0 1 2 0 0, 3), (.st 0 1 2 7 0, 3)] = true := by decide
/-- Table 3-9: type 15 is reserved. -/
theorem test_ill_type : refused [(.fcvt 0 1 2 15 14, 3), (.vand 0 1 2 3 0 0 15, 3), (.vcvt 0 15 1 2 0 0 14, 3), (.zcomp 0 0 6 15, 3),
    (.fprtPass 0 0 6 15, 3), (.exts 0 0 1 8 1 15, 3)] = true := by decide
/-- R166: the queues of A. -/
theorem test_ill_queue : refused [(.ldq 0 0 0 0 4 0 0 0 0, 4), (.ldqTerm 0 6 0 0, 4), (.stq 0 0 0 0 0 0 0, 4)]
    = true := by decide
/-- R166: XE, XC and the type of LDQ, XC of STQ. -/
theorem test_ill_expansion : refused [(.ldq 0 1 0 0 0 1 0 0 0, 3), (.ldq 0 1 0 0 0 0 0 1 0, 2), (.ldq 0 0 0 0 0 1 0 15 0, 3),
    (.ldq 0 0 0 0 0 0 0 1 0, 2), (.ldqTerm 0 0 1 0, 3), (.stq 0 1 0 0 6 1 0, 2)] = true := by decide
/-- R166: ring codes and counts. -/
theorem test_ill_ring : refused [(.rinit 0 1 2 15 0 0, 4), (.swz 0 1 3 0, 4), (.radvHead 0 16 0, 3), (.radvTail 0 16 1025, 3),
    (.rwaitHead 0 15 1, 4), (.rwaitTail 0 31 0, 3), (.kvgath 0 1 2 3 4 0 0 0, 4)] = true := by decide
/-- R166: counts of granules, blocks and tokens. -/
theorem test_ill_count : refused [(.gld 0 0 0 1 2 0, 3), (.gst 0 0 0 1 2 49153, 3), (.shdwDef 0 1 2 3 0, 3), (.shdwDef 0 1 2 3 16385, 3),
    (.astatSwait 0 1 0 0, 3), (.astatSsig 0 0 0 0 5, 3)] = true := by decide
/-- R81: destinations and sources of X. -/
theorem test_ill_operand : refused [(.vadd 0 0 42 1 2 0 0 14, 3), (.vadd 0 0 32 1 2 0 0 14, 4), (.vadd 0 0 1 40 2 0 0 14, 4),
    (.vadd 0 0 1 2 63 0 0 14, 3), (.vmovTerm 0 3 0, 3)] = true := by decide
/-- R244: the saturate bit and the types of arithmetic. -/
theorem test_ill_arithmetic : refused [(.vadd 0 1 1 2 3 0 0 14, 2), (.vmul 0 0 1 2 3 0 0 0, 3), (.vmin 0 1 2 3 0 0 8, 3),
    (.vexp2 0 1 2 0 0 2, 3), (.vrsum 0 1 2 0 0 4, 3), (.viota 0 0 0 1 0 0 14, 3)] = true := by decide
/-- R244: shifts. -/
theorem test_ill_shift : refused [(.vshl 0 0 1 1 2 3 0 0 2, 2), (.vshr 0 1 1 1 2 3 0 0 2, 2), (.vsra 0 0 0 1 2 3 0 0 14, 3)] = true := by
  decide
/-- Table 11-5: the operands and types of a condition. -/
theorem test_ill_condition : refused [(.vcmp 0 7 1 2 3 0 0 14, 2), (.vcmp 0 6 1 2 3 0 0 2, 3), (.mpush 0 0 1 2 0 9, 3)] = true := by decide
/-- Table 11-3: VBCAST's two forms. -/
theorem test_ill_broadcast : refused [(.vbcast 0 1 1 0 1 2 0 0 14, 2), (.vbcast 0 1 0 1 1 0 0 0 14, 2), (.vbcast 0 1 0 0 1 2 0 0 14, 2),
    (.vbcast 0 0 1 128 1 2 0 0 14, 3)] = true := by decide
/-- R249 to R256: conversion widths, permutes, register counts, mask counts. -/
theorem test_ill_permute : refused [(.vcvt 0 14 1 2 0 0 8, 3), (.vperm 0 1 2 3 0 0 2, 3), (.vnib 0 1 2 0 0 1, 3), (.vgath 0 0 6 1 2 3 0 0 2, 3),
    (.vscat 0 0 7 1 2 3 0 0 2, 3), (.vbmp 0 0 6 1 2 0 0 2, 3), (.vbmp 0 0 0 1 2 0 0 1, 3), (.vpopc 0 1 1 2 0 0 2, 2)] = true := by decide
/-- R263: the special functions. -/
theorem test_ill_special : refused [(.vdraw 0 0 0 1 2 3 4 0 0 14, 2), (.vdmerge 0 1 1 2 3 4, 2), (.selinit 0 0 1 1 3 14, 3),
    (.selinit 0 0 1 0 3 3, 3), (.selinit 0 0 0 0 3 2, 3), (.selfeed 0 0 1 0 0 2, 3), (.selmrg 0 5 1 14, 3), (.vdotq 0 0 1 2 3 0 0 5, 3),
    (.vl2q 0 1025 1 2 3 0 0 4, 3), (.vdotq 0 8 1 2 3 0 0 14, 3)] = true := by decide
/-- R257, R260: EXTS and MLOOP. -/
theorem test_ill_exts : refused [(.exts 0 1 1 8 1 14, 2), (.exts 0 1 0 8 1 14, 2), (.exts 0 1 0 0 0 14, 3), (.mloop 0 1 0 4, 3),
    (.mloop 0 1 1 2, 3)] = true := by decide
/-- R293: the finishing engine. -/
theorem test_ill_finish : refused [(.zcnv 0 0 0 0 9 0 0 0 0 0, 4), (.zcnv 0 0 0 6 11 0 0 0 0 0, 3), (.zcnv 0 0 0 6 14 2 0 0 0 0, 3),
    (.zcnv 0 0 0 6 5 1 0 0 0 0, 3), (.fmv 0 0 5 0, 4), (.fsqa 0 0 10 0, 4), (.zrd 0 0 0 16 0 0 0, 4), (.zcnvTerm 0 0, 4), (.zcompTerm 0 1, 4),
    (.fmvTerm 0 2, 4), (.fprtEmit 0 3, 4)] = true := by decide

/-! ### Single steps -/

/-- The state that an outcome leaves. -/
def after : Out → State
  | .next t => t
  | _ => State.reset

/-- Core 0 holds a segment of 64 words, each of them a first word, and the state `c`. -/
def unit0 (c : Ctx) : State :=
  { cores := [(0, { work := some { id := 1, len := 64 }, ctx := c, marks := List.range 64 })], stage := 5
    parts := [(0, { cfg := 1 + 64 * 2 ^ 13 })] }

/-- Instruction i on core 0 with the state `c`. -/
def run (i : Instr) (c : Ctx) : State := after (exec i (unit0 c))

/-- The C engine with registers 1, 2 and 3 at given values, at word 4. -/
def cRegs (a b c : Word) : Ctx := { c := { pc := 4, g := [(1, a), (2, b), (3, c)] } }

/-! #### Table 4-7 -/

theorem test_add_wraps : (run (.add .C 0 3 1 2) (cRegs (BitVec.allOnes 64) 2 9)).reg .C 3 = 1 := by decide +kernel
theorem test_add_g0_discards : (run (.add .C 0 0 1 2) (cRegs 5 2 9)).reg .C 0 = 0
    ∧ (run (.add .C 0 0 1 2) (cRegs 5 2 9)).ctx.c.pc = 5 := by decide +kernel
theorem test_sub_order : (run (.sub .C 0 3 1 2) (cRegs 5 7 9)).reg .C 3 = BitVec.ofInt 64 (-2) := by decide +kernel
theorem test_mul_low : (run (.mul .C 0 3 1 2) (cRegs (2 ^ 63) 3 9)).reg .C 3 = 2 ^ 63 := by decide +kernel
theorem test_mulh_signed : (run (.mulh .C 0 3 1 2) (cRegs (BitVec.allOnes 64) 5 9)).reg .C 3 = BitVec.allOnes 64 := by decide +kernel
theorem test_and : (run (.andg .C 0 3 1 2) (cRegs 12 10 9)).reg .C 3 = 8 := by decide +kernel
theorem test_or : (run (.org .C 0 3 1 2) (cRegs 12 10 9)).reg .C 3 = 14 := by decide +kernel
theorem test_xor : (run (.xorg .C 0 3 1 2) (cRegs 12 10 9)).reg .C 3 = 6 := by decide +kernel
theorem test_shl_modulo : (run (.shl .C 0 3 1 2) (cRegs 3 65 9)).reg .C 3 = 6 := by decide +kernel
theorem test_shr_zero_fill : (run (.shr .C 0 3 1 2) (cRegs (2 ^ 63) 63 9)).reg .C 3 = 1 := by decide +kernel
theorem test_sra_sign_fill : (run (.sra .C 0 3 1 2) (cRegs (2 ^ 63) 63 9)).reg .C 3 = BitVec.allOnes 64 := by decide +kernel
theorem test_slt_signed : (run (.slt .C 0 3 1 2) (cRegs (BitVec.allOnes 64) 0 9)).reg .C 3 = 1 := by decide +kernel
theorem test_sltn_natural : (run (.sltn .C 0 3 1 2) (cRegs (BitVec.allOnes 64) 0 9)).reg .C 3 = 0 := by decide +kernel
theorem test_min_signed : (run (.min .C 0 3 1 2) (cRegs (BitVec.allOnes 64) 0 9)).reg .C 3 = BitVec.allOnes 64 := by decide +kernel
theorem test_max_signed : (run (.max .C 0 3 1 2) (cRegs (BitVec.allOnes 64) 0 9)).reg .C 3 = 0 := by decide +kernel
theorem test_mov : (run (.mov .C 0 3 1) (cRegs 77 0 9)).reg .C 3 = 77 := by decide +kernel
theorem test_addi_negative : (run (.addi .C 0 3 1 0x1FF) (cRegs 0 0 9)).reg .C 3 = BitVec.allOnes 64 := by decide +kernel
theorem test_andi_sign : (run (.andi .C 0 3 1 0x1FE) (cRegs (BitVec.allOnes 64) 0 9)).reg .C 3 = BitVec.ofInt 64 (-2) := by decide +kernel
theorem test_ori : (run (.ori .C 0 3 1 5) (cRegs 8 0 9)).reg .C 3 = 13 := by decide +kernel
theorem test_xori : (run (.xori .C 0 3 1 0x1FF) (cRegs 0 0 9)).reg .C 3 = BitVec.allOnes 64 := by decide +kernel
theorem test_shli : (run (.shli .C 0 3 1 63) (cRegs 3 0 9)).reg .C 3 = 2 ^ 63 := by decide +kernel
theorem test_shri : (run (.shri .C 0 3 1 4) (cRegs 0x100 0 9)).reg .C 3 = 16 := by decide +kernel
theorem test_srai : (run (.srai .C 0 3 1 4) (cRegs (BitVec.ofInt 64 (-32)) 0 9)).reg .C 3 = BitVec.ofInt 64 (-2) := by decide +kernel
theorem test_li_sign : (run (.li .C 0 3 0x3FFF 0xFFFFFFFE) (cRegs 0 0 9)).reg .C 3 = BitVec.ofInt 64 (-2)
    ∧ (run (.li .C 0 3 1 2) (cRegs 0 0 9)).ctx.c.pc = 6 := by decide +kernel
theorem test_spl : (run (.spl .C 0 3 7) { c := { spill := [(7, 99)] } }).reg .C 3 = 99 := by decide +kernel
theorem test_sps : (run (.sps .C 0 1 7) (cRegs 55 0 0)).ctx.c.spill.get 0 7 = 55 := by decide +kernel
theorem test_svra_oldest : (run (.svra .C 0 1 0) { c := { ras := [3, 8] } }).ctx.c.ras = [8]
    ∧ (run (.svra .C 0 1 0) { c := { ras := [3, 8] } }).ctx.c.spill.get 0 0 = 3 := by decide +kernel
theorem test_ldra_below : (run (.ldra .C 0 1 0) { c := { ras := [8], spill := [(0, 3)] } }).ctx.c.ras = [3, 8] := by decide +kernel

/-! #### Control transfer (R100 to R108) -/

theorem test_nop : (run (.nop .A 0) {}).ctx.a.pc = 1 ∧ (run (.nop .A 0) {}).ctx.a.wc = 1 := by decide +kernel
theorem test_done : (run (.done .X 0) {}).ctx.x.done = true ∧ (run (.done .X 0) {}).ctx.c.done = false := by decide +kernel
theorem test_b_backward : (run (.b .C 0 0x7FFFE) (cRegs 0 0 0)).ctx.c.pc = 2 := by decide +kernel
theorem test_call : (run (.call .C 0 10) (cRegs 0 0 0)).ctx.c.pc = 14 ∧ (run (.call .C 0 10) (cRegs 0 0 0)).ctx.c.ras = [5] := by decide +kernel
theorem test_ret_newest : (run (.ret .C 0) { c := { ras := [3, 8] } }).ctx.c.pc = 8
    ∧ (run (.ret .C 0) { c := { ras := [3, 8] } }).ctx.c.ras = [3] := by decide +kernel
theorem test_btk_terminal : (run (.btk .X 0 0 5) { queues := [(0, [{ full := true, term := true }])] }).ctx.x.pc = 5
    ∧ (run (.btk .X 0 0 5) { queues := [(0, [{ full := true, term := true }])] }).ctx.queue 0 = [] := by decide +kernel
theorem test_btk_data_stays : (run (.btk .X 0 0 5) { queues := [(0, [{ full := true }])] }).ctx.x.pc = 1
    ∧ (run (.btk .X 0 0 5) { queues := [(0, [{ full := true }])] }).ctx.queue 0 = [{ full := true }] := by decide +kernel
theorem test_brkl : (run (.brkl .C 0) { c := { pc := 4, loops := [⟨3, 9, 7⟩, ⟨1, 20, 2⟩] } }).ctx.c.pc = 9
    ∧ (run (.brkl .C 0) { c := { pc := 4, loops := [⟨3, 9, 7⟩, ⟨1, 20, 2⟩] } }).ctx.c.loops = [⟨1, 20, 2⟩] := by decide +kernel
theorem test_beq_taken : (run (.beq .C 0 1 2 8) (cRegs 5 5 0)).ctx.c.pc = 12 := by decide +kernel
theorem test_bne_not_taken : (run (.bne .C 0 1 2 8) (cRegs 5 5 0)).ctx.c.pc = 5 := by decide +kernel
theorem test_blt_signed : (run (.blt .C 0 1 2 8) (cRegs (BitVec.allOnes 64) 0 0)).ctx.c.pc = 12 := by decide +kernel
theorem test_bge_equal : (run (.bge .C 0 1 2 8) (cRegs 5 5 0)).ctx.c.pc = 12 := by decide +kernel
theorem test_blo_natural : (run (.blo .C 0 1 2 8) (cRegs (BitVec.allOnes 64) 0 0)).ctx.c.pc = 5 := by decide +kernel
theorem test_bhs_natural : (run (.bhs .C 0 1 2 8) (cRegs (BitVec.allOnes 64) 0 0)).ctx.c.pc = 12 := by decide +kernel
theorem test_loop_pushes : (run (.loop .C 0 1 3) (cRegs 7 0 0)).ctx.c.loops = [⟨5, 7, 7⟩]
    ∧ (run (.loop .C 0 1 3) (cRegs (2 ^ 32) 0 0)).ctx.c.pc = 7 := by decide +kernel
theorem test_loopi_last_pass : (run (.nop .C 0) { c := { pc := 6, loops := [⟨5, 7, 1⟩] } }).ctx.c.loops = []
    ∧ (run (.nop .C 0) { c := { pc := 6, loops := [⟨5, 7, 2⟩] } }).ctx.c.pc = 5
    ∧ (run (.loopi .C 0 3 2) (cRegs 0 0 0)).ctx.c.loops = [⟨5, 6, 3⟩] := by decide +kernel

/-! #### Tokens, queues, CSRs (R90 to R98, R114, R115, R128) -/

theorem test_waitt_takes : (run (.waitt .X 0 0 3) { fifo := [(0, 5)] }).ctx.fifo.get 0 0 = 2
    ∧ (run (.waitt .X 0 0 6) { fifo := [(0, 5)] }).ctx.x.pc = 0 := by decide +kernel
theorem test_sigt_pushes : (run (.sigt .A 0 0 3) {}).ctx.fifo.get 0 0 = 3 ∧ (run (.sigt .A 0 0 3) {}).ctx.resv.get 0 0 = 0 := by decide +kernel
theorem test_qdrop_count : (run (.qdrop .X 0 0 1) { queues := [(0, [{ full := true, term := true }, { full := true }])] }).ctx.queue 0
    = [{ full := true }] := by decide +kernel
theorem test_csrr_fstat : (run (.csrr 0 3 0x020) { csr := { nv := true } }).reg .C 3 = 24 := by decide +kernel
theorem test_csrw_slip : (run (.csrw 0 1 0x040) (cRegs 1 0 0)).ctx.csr.win = 2 := by decide +kernel
theorem test_csrs : (run (.csrs 0 1 0x014) { cRegs 4 0 0 with csr := { tscratch := 3 } }).ctx.csr.tscratch = 7 := by decide +kernel
theorem test_csrc : (run (.csrc 0 1 0x014) { cRegs 1 0 0 with csr := { tscratch := 3 } }).ctx.csr.tscratch = 2 := by decide +kernel

/-! #### Scalar floating point (Table 5-3): 1.0 is 0x3F800000, 2.0 is 0x40000000, 3.0 is 0x40400000 -/

theorem test_fadd : (run (.fadd 0 3 1 2) (cRegs 0x3F800000 0x40000000 0)).reg .C 3 = 0x40400000 := by decide +kernel
theorem test_fadd_inexact : (run (.fadd 0 3 1 2) (cRegs 0x3F800000 0x33000000 0)).reg .C 3 = 0x3F800000
    ∧ (run (.fadd 0 3 1 2) (cRegs 0x3F800000 0x33000000 0)).ctx.csr.nx = true := by decide +kernel
theorem test_fsub : (run (.fsub 0 3 1 2) (cRegs 0x3F800000 0x40000000 0)).reg .C 3 = 0xBF800000 := by decide +kernel
theorem test_fmul : (run (.fmul 0 3 1 2) (cRegs 0x40400000 0x40000000 0)).reg .C 3 = 0x40C00000 := by decide +kernel
theorem test_fmin_zero : (run (.fmin 0 3 1 2) (cRegs 0x3F800000 0xBF800000 0)).reg .C 3 = 0xBF800000 := by decide +kernel
theorem test_fmax : (run (.fmax 0 3 1 2) (cRegs 0x3F800000 0x40000000 0)).reg .C 3 = 0x40000000 := by decide +kernel
theorem test_feq_zeros : (run (.feq 0 3 1 2) (cRegs 0 0x80000000 9)).reg .C 3 = 1 := by decide +kernel
theorem test_flt_nan : (run (.flt 0 3 1 2) (cRegs 0x7FC00000 0 9)).reg .C 3 = 0
    ∧ (run (.flt 0 3 1 2) (cRegs 0x7FC00000 0 9)).ctx.csr.nv = true := by decide +kernel
theorem test_fle_equal : (run (.fle 0 3 1 2) (cRegs 0x3F800000 0x3F800000 9)).reg .C 3 = 1 := by decide +kernel
theorem test_ffma : (run (.ffma 0 3 1 2 1) (cRegs 0x3F800000 0x40000000 0)).reg .C 3 = 0x40400000 := by decide +kernel
/-- 2.0 as FP32 is 2 as `.i32`, and 0x4000 as FP16. -/
theorem test_fcvt : (run (.fcvt 0 3 1 14 3) (cRegs 0x40000000 0 0)).reg .C 3 = 2
    ∧ (run (.fcvt 0 3 1 14 12) (cRegs 0x40000000 0 0)).reg .C 3 = 0x4000 := by decide +kernel

/-! #### Traps, phases, fences (R124, R131 to R133, R139, R140) -/

theorem test_trap_local : (run (.trap 0 5) { c := { pc := 4 }, csr := { en := true, off := 20 } }).ctx.c.pc = 20
    ∧ (run (.trap 0 5) { c := { pc := 4 }, csr := { en := true, off := 20 } }).ctx.csr.tepc = 5 := by decide +kernel
theorem test_trap_delivered : (run (.trap 0 5) { c := { pc := 4 } }).ctx.c.hold = some (.trap 5 5)
    ∧ ((run (.trap 0 5) { c := { pc := 4 } }).part 0).traps.length = 1 := by decide +kernel
theorem test_eret : (run (.eret 0) { c := { pc := 20 }, csr := { en := true, inh := true, tepc := 5 } }).ctx.c.pc = 5
    ∧ (run (.eret 0) { c := { pc := 20 }, csr := { en := true, inh := true, tepc := 5 } }).ctx.csr.inh = false := by decide +kernel
theorem test_wfe : (run (.wfe 0) { csr := { evt := true } }).ctx.csr.evt = false ∧ (run (.wfe 0) { csr := { evt := true } }).ctx.c.pc = 1 := by
  decide +kernel
theorem test_wfe_waits : (run (.wfe 0) {}).ctx.c.pc = 0 := by decide +kernel
theorem test_phase_core : (run (.phase 0 0) {}).ctx.csr.pn.get 0 0 = 1 := by decide +kernel
theorem test_phase_arrives : (run (.phase 0 2) {}).work.arrived = some 2 ∧ (run (.phase 0 2) {}).ctx.c.pc = 0 := by decide +kernel
/-- The refresh acts as the cycle ends. -/
theorem test_fence_acq : let t := after (exec (.fenceAcq 0) { unit0 {} with mem := [(5, 9)] })
    t.work.snap.mem = [] ∧ t.endCycle.work.snap.mem = [(5, 9)] := by decide +kernel
/-- A store at the tail of the buffer moves to the outbound queue, and memory is as before. -/
theorem test_fence_rel :
    let st : Store := { va := 8, key := 8, size := 1, data := 7 }
    let t := after (exec (.fenceRel 0) ((unit0 {}).modWork fun w => { w with sb := [st] }))
    t.work.sb = [] ∧ t.cc.ob = [st] ∧ t.mem = [] := by decide +kernel
theorem test_tlbir_sends : ((run (.tlbir 0 3 1 2) (cRegs 0x1000 0x2000 5)).invals.map fun v => (v.asid, v.lo, v.hi)) = [(5, 0x1000, 0x3000)] := by
  decide +kernel
theorem test_tlbir_empty : (run (.tlbir 0 3 1 2) (cRegs 0x1000 0 5)).invals = [] := by decide +kernel
theorem test_tlback : (after (exec (.tlback 0) { unit0 {} with mem := [(5, 9)] })).endCycle.work.snap.mem = [(5, 9)] := by decide +kernel

/-! #### Work, variables, mailboxes, the array's control (R134 to R138, R325, R335, R340) -/

theorem test_yield_iteration : (after (exec (.yield 0) ((unit0 {}).modWork fun w => { w with kind := .iteration 1 }))).ctx.c.pc = 1 := by
  decide +kernel
theorem test_yield_no_slot : ((run (.yield 0) {}).part 0).savecfg.getLsbD 16 = true ∧ (run (.yield 0) {}).ctx.c.pc = 1 := by decide +kernel
theorem test_cvnew_lowest : (after (exec (.cvnew 0 3) { unit0 {} with cvs := [(0, { part := 0 })] })).reg .C 3 = 1 := by decide +kernel
theorem test_cvfree : (after (exec (.cvfree 0 1) { unit0 (cRegs 0 0 0) with cvs := [(0, { part := 0, val := some true })] })).cvs = [] := by
  decide +kernel
theorem test_resolve : (after (exec (.resolve 0 3 1 1) { unit0 (cRegs 0 0 9) with cvs := [(0, { part := 0 })] })).reg .C 3 = 0
    ∧ ((after (exec (.resolve 0 3 1 1) { unit0 (cRegs 0 0 9) with cvs := [(0, { part := 0 })] })).cvs.get { part := 0 } 0).val = some true := by
  decide +kernel
theorem test_mbsend_number : (run (.mbsend 0 3 1 2) (cRegs 0 8 9)).reg .C 3 = 2 := by decide +kernel
theorem test_mbrecv_core : (run (.mbrecv 0 3 1 2) (cRegs 0 0 9)).reg .C 3 = 1 := by decide +kernel
theorem test_mbpoll_core : (run (.mbpoll 0 3 1 2) (cRegs 0 0 9)).reg .C 3 = BitVec.allOnes 64 := by decide +kernel
theorem test_nestw : (run (.nestw 0 3 1 2) (cRegs 7 8 1)).ctx.ar.n1 = [(2, 7), (3, 8)] := by decide +kernel
theorem test_ngo_invalid : (run (.ngo 0) {}).ctx.c.hold = some (.trap 2 3) := by decide +kernel
theorem test_nwait : (run (.nwait 0) {}).ctx.c.pc = 1 := by decide +kernel
theorem test_fmtq : (run (.fmtq 0 1) (cRegs 7 8 1)).ctx.ar.fq = [7] := by decide +kernel

/-! #### The access engine (R165 to R195) -/

/-- The A engine with registers 1, 2 and 3 at given values. -/
def aRegs (a b c : Word) : Ctx := { a := { g := [(1, a), (2, b), (3, c)] } }

/-- The same with ring 0: four slots of 512 bytes from 0, of which slot position 0 alone is filled. -/
def ring0 (a b c : Word) : Ctx :=
  { aRegs a b c with rings := [(0, { init := true, slot := 512, n := 4, pitch := 512, tail := 1 })] }

/-- A queue entry whose bytes are all zero but for the first. -/
def entry1 : Slot := { full := true, data := 7 }

theorem test_ldq_plain : (run (.ldq 0 0 0 1 0 0 0 0 16) { aRegs 0 0 0 with spad := [(16, 7)] }).ctx.queue 0 = [entry1]
    ∧ (run (.ldq 0 0 0 1 0 0 0 0 16) { aRegs 0 0 0 with spad := [(16, 7)] }).ctx.ecur = 528 := by decide +kernel
theorem test_ldq_misaligned : (run (.ldq 0 0 0 1 0 0 0 0 8) (aRegs 0 0 0)).ctx.a.hold = some (.trap 6 1) := by decide +kernel
theorem test_ldq_term : (run (.ldqTerm 0 0 0 0) {}).ctx.queue 0 = [{ full := true, term := true }] := by decide +kernel
theorem test_stq_plain : (run (.stq 0 0 0 1 6 0 16) { aRegs 0 0 0 with queues := [(6, [entry1])] }).ctx.spad = [(16, 7)]
    ∧ (run (.stq 0 0 0 1 6 0 16) { aRegs 0 0 0 with queues := [(6, [entry1])] }).ctx.scur = 528 := by decide +kernel
theorem test_stq_terminal : (run (.stq 0 0 0 1 6 0 16) { queues := [(6, [{ full := true, term := true }])] }).ctx.a.hold
    = some (.trap 10 1) := by decide +kernel
theorem test_rinit : (run (.rinit 0 1 2 16 0 3) (aRegs 1024 512 0)).ctx.ring 0
    = { init := true, base := 1024, slot := 512, n := 4, pitch := 512 } := by decide +kernel
theorem test_radv_head : ((run (.radvHead 0 16 1) (ring0 0 0 0)).ctx.ring 0).head = 1 := by decide +kernel
theorem test_radv_head_beyond : (run (.radvHead 0 16 2) (ring0 0 0 0)).ctx.a.hold = some (.trap 6 3) := by decide +kernel
theorem test_radv_tail : ((run (.radvTail 0 16 3) (ring0 0 0 0)).ctx.ring 0).tail = 4 := by decide +kernel
theorem test_rwait_head : (run (.rwaitHead 0 16 1) (ring0 0 0 0)).ctx.a.pc = 2 ∧ (run (.rwaitHead 0 16 2) (ring0 0 0 0)).ctx.a.pc = 0 := by
  decide +kernel
theorem test_rwait_tail : (run (.rwaitTail 0 16 3) (ring0 0 0 0)).ctx.a.pc = 2 ∧ (run (.rwaitTail 0 16 4) (ring0 0 0 0)).ctx.a.pc = 0 := by
  decide +kernel
theorem test_swz : (run (.swz 0 1 16 2) (ring0 64 0 0)).ctx.ring 0
    = { init := true, slot := 512, n := 4, tail := 1, pitch := 64, span := 2 } := by decide +kernel
theorem test_gld_misaligned : (run (.gld 0 0 0 1 2 4) (aRegs 8 0 0)).ctx.a.hold = some (.trap 6 1) := by decide +kernel
theorem test_gst_beyond : (run (.gst 0 0 0 1 2 4) (aRegs 0 786400 0)).ctx.a.hold = some (.trap 6 2) := by decide +kernel
theorem test_lchain_ticket : (run (.lchain 0 3 1 1) (aRegs 64 0 0)).reg .A 3 = 1#64 <<< 32
    ∧ ((run (.lchain 0 3 1 1) (aRegs 64 0 0)).ladle 1).queue.length = 1 := by decide +kernel
theorem test_preft_empty : (run (.preft 0 1 2 0) (aRegs 0 0 0)).ctx.a.pc = 2 := by decide +kernel
theorem test_shdw_def : ((run (.shdwDef 0 3 1 2 1) (aRegs 0 0x10000 5)).part 0).handles
    = [(5, { window := 0, twin := 0x10000, len := 0x10000, owner := 1 })] := by decide +kernel
theorem test_shdw_def_overlap : (run (.shdwDef 0 3 1 2 2) (aRegs 0 0x10000 5)).ctx.a.hold = some (.trap 6 8) := by decide +kernel
theorem test_shdw_arm : (((after (exec (.shdwArm 0 3) ((unit0 (aRegs 0 0 5)).modPart 0 fun q =>
    { q with handles := [(5, { window := 0, twin := 0x10000, len := 0x10000, owner := 9, armed := false })] }))).part 0).handles.map
      fun e => (e.2.armed, e.2.owner)) = [(true, 1)] := by decide +kernel
theorem test_shdw_free : ((after (exec (.shdwFree 0 3) ((unit0 (aRegs 0 0 5)).modPart 0 fun q =>
    { q with handles := [(5, { window := 0, twin := 0x10000, len := 0x10000, owner := 1, armed := false })] }))).part 0).handles = [] := by
  decide +kernel
theorem test_publ : (((after (exec (.publ 0 3) ((unit0 (aRegs 0 0 5)).modPart 0 fun q =>
    { q with handles := [(5, { window := 0, twin := 0x10000, len := 0x10000, owner := 1 })] }))).part 0).handles.map
      fun e => (e.2.cur, e.2.armed)) = [(true, false)] := by decide +kernel
theorem test_astat_ecur : (run (.astatEcur 0 3) { ecur := 48 }).reg .A 3 = 48 := by decide +kernel
theorem test_astat_scur : (run (.astatScur 0 3) { scur := 48 }).reg .A 3 = 48 := by decide +kernel
theorem test_astat_setec : (run (.astatSetec 0 1) (aRegs 48 0 0)).ctx.ecur = 48 := by decide +kernel
theorem test_astat_setsc_beyond : (run (.astatSetsc 0 1) (aRegs 786432 0 0)).ctx.a.hold = some (.trap 6 2) := by decide +kernel
theorem test_astat_ring : (run (.astatRing 0 3 0) (ring0 0 0 0)).reg .A 3 = 1#64 <<< 32 := by decide +kernel
theorem test_astat_swait : (after (exec (.astatSwait 0 3 2 5) { unit0 (aRegs 0 0 9) with sems := [(5, { count := 3 })] })).sem 5 = { count := 1 }
    ∧ (after (exec (.astatSwait 0 3 2 5) { unit0 (aRegs 0 0 9) with sems := [(5, { count := 3, poison := true })] })).reg .A 3 = 1 := by decide +kernel
theorem test_astat_swait_arrives : (run (.astatSwait 0 3 2 5) (aRegs 0 0 9)).sem 5 = { waiters := [.core 1 2] } := by decide +kernel
theorem test_astat_ssig_overflows : (after (exec (.astatSsig 0 0 1 2 5) { unit0 {} with sems := [(5, { count := 65534 })] })).sem 5
    = { count := 65535, poison := true, ovf := true } := by decide +kernel
theorem test_astat_sread : (after (exec (.astatSread 0 3 5) { unit0 {} with sems := [(5, { count := 4, poison := true })] })).reg .A 3
    = 0x10004 := by decide +kernel
theorem test_astat_sset : (after (exec (.astatSset 0 1 5) { unit0 (aRegs 9 0 0) with sems := [(5, { poison := true, ovf := true })] })).sem 5
    = { count := 9 } := by decide +kernel
theorem test_astat_chain_unknown : (run (.astatChain 0 3 1) (aRegs 0 0 0)).reg .A 3 = 4 := by decide +kernel
/-- The context's address is a multiple of 128 (R206). -/
theorem test_kv_misaligned : (run (.kvadv 0 1 2) (aRegs 64 0 0)).ctx.a.hold = some (.trap 6 1)
    ∧ (run (.kvstat 0 3 1 0) (aRegs 8 0 0)).ctx.a.hold = some (.trap 6 1) := by decide +kernel

/-! #### The execute engine (R236 to R278): v1, v2 and v3 hold given elements, e1 counts `n` of them -/

/-- Registers v1, v2 and v3 of elements of `w` bits, extent e1 of `n` elements, g1 = 3. -/
def xRegs (w n : Nat) (a b c : List Nat) : Ctx :=
  { x := { g := [(1, 3)] }, xu := { v := [(1, pack w a), (2, pack w b), (3, pack w c)], ext := [(1, { n, w })] } }

/-- Registers given by number, extent e1 of `n` elements. -/
def xv (w n : Nat) (v : SMap Wide) : Ctx := { xu := { v, ext := [(1, { n, w })] } }

/-- The first n elements of register r after instruction i. -/
def lanesOf (w n r : Nat) (i : Instr) (c : Ctx) : List Nat := (unpack w ((run i c).ctx.xu.v.get 0 r)).take n

/-- Elements at and beyond the extent stay. -/
theorem test_vadd_wraps : lanesOf 8 3 3 (.vadd 0 0 3 1 2 1 0 1) (xRegs 8 2 [255, 1, 5] [2, 3, 5] [9, 9, 9]) = [1, 4, 9] := by decide +kernel
theorem test_vadd_saturates : lanesOf 8 2 3 (.vadd 0 1 3 1 2 1 0 5) (xRegs 8 2 [127, 128] [2, 255] []) = [127, 128] := by decide +kernel
theorem test_vsub_order : lanesOf 8 2 3 (.vsub 0 0 3 1 2 1 0 5) (xRegs 8 2 [1, 5] [2, 3] []) = [255, 2] := by decide +kernel
/-- 1.5 · 2 = 3 in FP16. -/
theorem test_vmul_half : lanesOf 16 1 3 (.vmul 0 0 3 1 2 1 0 12) (xRegs 16 1 [0x3E00] [0x4000] []) = [0x4200] := by decide +kernel
theorem test_vfma : lanesOf 8 1 3 (.vfma 0 0 3 1 2 3 1 0 1) (xRegs 8 1 [3] [4] [5]) = [17] := by decide +kernel
theorem test_vfms : lanesOf 8 1 3 (.vfms 0 0 3 1 2 3 1 0 1) (xRegs 8 1 [3] [4] [5]) = [7] := by decide +kernel
theorem test_vmin_signed : lanesOf 8 2 3 (.vmin 0 3 1 2 1 0 5) (xRegs 8 2 [255, 1] [0, 0] []) = [255, 0] := by decide +kernel
theorem test_vmax_natural : lanesOf 8 2 3 (.vmax 0 3 1 2 1 0 1) (xRegs 8 2 [255, 1] [0, 0] []) = [255, 1] := by decide +kernel
theorem test_vabs_wraps : lanesOf 8 2 3 (.vabs 0 0 3 1 1 0 5) (xRegs 8 2 [255, 128] [] []) = [1, 128] := by decide +kernel
theorem test_vneg_saturates : lanesOf 8 2 3 (.vneg 0 1 3 1 1 0 5) (xRegs 8 2 [1, 128] [] []) = [255, 127] := by decide +kernel
theorem test_vand : lanesOf 8 1 3 (.vand 0 3 1 2 1 0 1) (xRegs 8 1 [12] [10] []) = [8] := by decide +kernel
theorem test_vor : lanesOf 8 1 3 (.vor 0 3 1 2 1 0 1) (xRegs 8 1 [12] [10] []) = [14] := by decide +kernel
theorem test_vxor : lanesOf 8 1 3 (.vxor 0 3 1 2 1 0 1) (xRegs 8 1 [12] [10] []) = [6] := by decide +kernel
theorem test_vnot : lanesOf 8 1 3 (.vnot 0 3 1 1 0 1) (xRegs 8 1 [12] [] []) = [243] := by decide +kernel
theorem test_vshl_full : lanesOf 8 2 3 (.vshl 0 0 0 3 1 2 1 0 1) (xRegs 8 2 [1, 1] [3, 8] []) = [8, 0] := by decide +kernel
theorem test_vshr_immediate : lanesOf 8 1 3 (.vshr 0 1 2 3 1 0 1 0 5) (xRegs 8 1 [128] [] []) = [32] := by decide +kernel
theorem test_vsra_full : lanesOf 8 2 3 (.vsra 0 0 0 3 1 2 1 0 1) (xRegs 8 2 [128, 64] [9, 1] []) = [255, 32] := by decide +kernel
theorem test_vcmp_lt_signed : lanesOf 8 2 3 (.vcmp 0 2 3 1 2 1 0 5) (xRegs 8 2 [255, 1] [0, 0] []) = [255, 0] := by decide +kernel
theorem test_vsel_pattern : lanesOf 8 2 3 (.vsel 0 3 1 2 3 1 0 1) (xRegs 8 2 [1, 2] [5, 6] [0, 128]) = [5, 2] := by decide +kernel
theorem test_vmov_pops : (run (.vmov 0 3 32 1 0 1) { xRegs 8 1 [] [] [] with queues := [(0, [entry1])] }).ctx.queue 0 = []
    ∧ lanesOf 8 1 3 (.vmov 0 3 32 1 0 1) { xRegs 8 1 [] [] [] with queues := [(0, [entry1])] } = [7] := by decide +kernel
theorem test_vmov_term : (run (.vmovTerm 0 40 0) {}).ctx.queue 4 = [{ full := true, term := true }] := by decide +kernel
theorem test_vbcast_register : lanesOf 8 2 3 (.vbcast 0 1 0 0 3 0 1 0 1) (xRegs 8 2 [] [] []) = [3, 3] := by decide +kernel
theorem test_vbcast_element : lanesOf 8 2 3 (.vbcast 0 0 1 1 3 1 1 0 1) (xRegs 8 2 [4, 6] [] []) = [6, 6] := by decide +kernel
theorem test_viota_wraps : lanesOf 8 3 3 (.viota 0 1 0x3FFE 3 1 0 1) (xRegs 8 3 [] [] []) = [3, 1, 255] := by decide +kernel
/-- −1 and 2 as `.i8` widen to 16 bits, into an interleaved pair. -/
theorem test_vcvt_widens : lanesOf 16 1 4 (.vcvt 0 5 4 1 1 0 6) (xRegs 8 2 [255, 2] [] []) = [65535]
    ∧ lanesOf 16 1 5 (.vcvt 0 5 4 1 1 0 6) (xRegs 8 2 [255, 2] [] []) = [2] := by decide +kernel
theorem test_vcvt_saturates : lanesOf 8 1 3 (.vcvt 0 6 3 4 1 0 5) (xv 8 1 [(4, pack 16 [300]), (5, 0)])
    = [127] := by decide +kernel
theorem test_vperm : lanesOf 8 3 3 (.vperm 0 3 1 4 1 0 1) (xv 8 3 [(1, pack 8 [5, 6, 7]), (4, pack 16 [2, 0x8000]), (5, pack 16 [1])]) = [7, 6, 0] := by decide +kernel
theorem test_vnib_sign : lanesOf 8 2 4 (.vnib 0 4 1 1 0 4) (xv 4 2 [(1, pack 8 [0x2F])]) = [255, 2] := by
  decide +kernel
theorem test_vzip : lanesOf 8 4 4 (.vzip 0 4 1 2 1 0 1) (xRegs 8 2 [1, 2] [5, 6] []) = [1, 5, 2, 6] := by decide +kernel
theorem test_vunzip : lanesOf 8 2 5 (.vunzip 0 4 6 1 0 1) (xv 8 2 [(6, pack 8 [1, 5, 2, 6])]) = [5, 6] := by
  decide +kernel
/-- A shift by 3 (g1) takes elements 3 and on. -/
theorem test_vslide : lanesOf 8 2 3 (.vslide 0 1 3 1 2 1 0 1) (xRegs 8 2 [0, 0, 0, 8, 9] [] []) = [8, 9] := by decide +kernel
theorem test_vgath_beyond : lanesOf 8 2 3 (.vgath 0 0 0 3 1 2 1 0 1) (xv 8 2 [(1, pack 8 [4, 5]), (2, pack 16 [1, 512])]) = [5, 0] := by decide +kernel
theorem test_vscat_later_wins : lanesOf 8 2 3 (.vscat 0 0 0 3 1 2 1 0 1) (xv 8 2 [(1, pack 8 [4, 5]), (2, pack 16 [1, 1]), (3, pack 8 [9, 9])]) = [9, 5] := by decide +kernel
theorem test_vbmp : lanesOf 8 1 3 (.vbmp 0 0 0 3 1 1 0 2) (xv 16 2 [(1, pack 16 [0, 5]), (3, 2)]) = [33] := by
  decide +kernel
theorem test_vpopc : (run (.vpopc 0 1 0 1 1 0 1) (xRegs 8 3 [4, 0, 6, 7] [] [])).reg .X 1 = 2 := by decide +kernel
theorem test_mpush : ((run (.mpush 0 0 1 2 1 1) (xRegs 8 3 [1, 2, 3] [1, 0, 3] [])).ctx.topMask) = 5 := by decide +kernel
theorem test_minv : (run (.minv 0) { xu := { masks := [5, 7, 15] } }).ctx.xu.masks = [2, 7, 15] := by decide +kernel
theorem test_mpop : (run (.mpop 0) { xu := { masks := [5, 7] } }).ctx.xu.masks = [7] := by decide +kernel
theorem test_mpop_underflow : (run (.mpop 0) {}).ctx.x.hold = some (.trap 8 2) := by decide +kernel
theorem test_bmz : (run (.bmz 0 5) { xu := { masks := [0, 7] } }).ctx.x.pc = 5 ∧ (run (.bmz 0 5) {}).ctx.x.pc = 2 := by decide +kernel
theorem test_exts : (run (.exts 0 0 1 8 1 12) {}).ctx.xu.ext.get {} 1 = { n := 8, w := 16 } := by decide +kernel
theorem test_mloop_starts : ((run (.mloop 0 1 1 4) (xRegs 8 1 [] [] [])).ctx.x.prog.map fun g => (g.stage, g.data)) = some (1, [3]) := by decide +kernel

/-! #### Special functions, reductions, draws, selection, distances (R263 to R278; the values of Table 12-3) -/

theorem test_vexp2 : lanesOf 32 3 3 (.vexp2 0 3 1 1 0 14) (xRegs 32 3 [0x3F800000, 0xFF800000, 0] [] []) = [0x40000000, 0, 0x3F800000] := by decide +kernel
theorem test_vlog2 : lanesOf 32 2 3 (.vlog2 0 3 1 1 0 14) (xRegs 32 2 [0x40800000, 0] [] []) = [0x40000000, 0xFF800000] := by decide +kernel
theorem test_vrcpa : lanesOf 32 3 3 (.vrcpa 0 3 1 1 0 14) (xRegs 32 3 [0x40400000, 1, 0x7F400000] [] []) = [0x3EAAA800, 0x7F800000, 0] := by decide +kernel
theorem test_vrsqa : lanesOf 32 2 3 (.vrsqa 0 3 1 1 0 14) (xRegs 32 2 [0x40000000, 0x80000000] [] []) = [0x3F350000, 0xFF800000] := by decide +kernel
theorem test_vrsum_signed : (run (.vrsum 0 1 1 1 0 5) (xRegs 8 2 [255, 3] [] [])).reg .X 1 = 2 := by decide +kernel
theorem test_vrmax : (run (.vrmax 0 1 1 1 0 5) (xRegs 8 2 [255, 3] [] [])).reg .X 1 = 3 := by decide +kernel
theorem test_vrmin_absent : (run (.vrmin 0 1 1 1 0 1) (xRegs 8 0 [] [] [])).reg .X 1 = 255 := by decide +kernel
/-- With β = +∞ the greatest logit is drawn: lanesOf 1; the record has GREEDY, m its logit, s = 1. -/
theorem test_vdraw_greedy : lanesOf 32 4 3 (.vdraw 0 0 0 3 1 2 0 1 0 14) (xRegs 32 2 [0x3F800000, 0x40000000] [0, 0, 0, 0, 0x7F800000] [])
    = [1, 4, 0x40000000, 0x3F800000] := by decide +kernel
/-- Two records of zero mass merge to one, index all ones, m = −∞, ZERO set. -/
theorem test_vdmerge_zero : lanesOf 32 4 4 (.vdmerge 0 0 4 1 2 3) (xRegs 32 1 [5, 0, 0xFF800000, 0] [6, 0, 0xFF800000, 0] [])
    = [0xFFFFFFFF, 1, 0xFF800000, 0] := by decide +kernel
theorem test_selinit : ((run (.selinit 0 1 1 0 3 14) (xRegs 8 0 [] [] [])).ctx.xu.sel.map fun u => (u.k, u.mass, u.beta, u.invb))
    = some (4, true, 3, false) := by decide +kernel
/-- Capacity 2: the best two of 5, 9 and 7 stay, indices from g1 = 3, and TRUNC is set. -/
theorem test_selfeed : ((run (.selfeed 0 1 1 1 0 3) { xRegs 32 3 [5, 9, 7] [] [] with
      xu := { (xRegs 32 3 [5, 9, 7] [] []).xu with sel := some { ty := 3, k := 2, dir := false, mass := false, beta := 0 } } }).ctx.xu.sel.map
    fun u => (u.list, u.fed, u.trunc)) = some ([(9, 4), (7, 5)], 3, true) := by decide +kernel
theorem test_selfeed_uninitialised : (run (.selfeed 0 1 1 1 0 3) (xRegs 32 1 [] [] [])).ctx.x.hold = some (.trap 7 6) := by decide +kernel
theorem test_seldrain : lanesOf 32 6 4 (.seldrain 0 0 4 1) { xu :=
    { sel := some { ty := 3, k := 2, dir := false, mass := false, beta := 0, list := [(9, 4)], m := 0xFF800000, fed := 3, trunc := true } } }
    = [0x2001, 3, 0xFF800000, 0, 9, 4] := by decide +kernel
theorem test_selmrg : ((run (.selmrg 0 0 1 3) { xu := { v := [(1, pack 32 [0x1001, 3, 0, 0, 9, 4])]
                                                        sel := some { ty := 3, k := 2, dir := false, mass := false, beta := 0 } } }).ctx.xu.sel.map
    fun u => (u.list, u.fed, u.nank)) = some ([(9, 4)], 1, 1) := by decide +kernel
/-- Rows of D = 2: (1, −1) and (2, 3) against (4, 5). -/
theorem test_vdotq : lanesOf 32 2 3 (.vdotq 0 2 3 1 2 1 0 5) (xv 32 2 [(1, pack 8 [1, 255, 2, 3]), (2, pack 8 [4, 5])]) = [0xFFFFFFFF, 23] := by decide +kernel
theorem test_vl2q : lanesOf 32 2 3 (.vl2q 0 2 3 1 2 1 0 5) (xv 32 2 [(1, pack 8 [1, 255, 2, 3]), (2, pack 8 [4, 5])]) = [45, 8] := by decide +kernel

/-! #### The finishing engine (R292 to R302): tile 5 is HELD, row 0 begins 1.0, 2.0 -/

/-- Tile 5 with two elements, in a state. -/
def tile5 (st : TileState) : Ctx :=
  { ar := { tiles := [(5, { z := [(0, 0x3F800000), (1, 0x40000000)], st, live := true, status := 9 })] } }

/-- The store-queue entry that an instruction pushes to queue 6: LEN, and its first elements of w bits. -/
def pushed (w n : Nat) (i : Instr) (c : Ctx) : Option (Nat × List Nat) :=
  (((run i c).ctx.queue 6).head?).map fun e => (e.len, (unpack w e.data).take n)

theorem test_fwait : (run (.fwait 0 3 5) (tile5 .ready)).reg .F 3 = 9 ∧ ((run (.fwait 0 3 5) (tile5 .ready)).ctx.tile 5).st = .held := by decide +kernel
theorem test_fwait_held : (run (.fwait 0 3 5) (tile5 .held)).ctx.f.hold = some (.trap 9 1) := by decide +kernel
/-- One row as FP16: 64 elements are 8 granules. -/
theorem test_zcnv : pushed 16 3 (.zcnv 0 0 5 6 12 0 1 0 0 0) (tile5 .held) = some (8, [0x3C00, 0x4000, 0]) := by decide +kernel
theorem test_zcnv_rows : (run (.zcnv 0 0 5 6 12 0 1 0 0 63) (tile5 .held)).ctx.f.pc = 2
    ∧ (run (.zcnv 0 0 5 6 12 0 1 0 1 63) (tile5 .held)).ctx.f.hold = some (.trap 9 2) := by decide +kernel
theorem test_zcnv_term : (run (.zcnvTerm 0 6) {}).ctx.queue 6 = [{ full := true, term := true }] := by decide +kernel
theorem test_zrd : pushed 32 3 (.zrd 0 0 5 6 0 0 0) (tile5 .held) = some (16, [0x3F800000, 0x40000000, 0]) := by decide +kernel
theorem test_zclr : ((run (.zclr 0 5) (tile5 .held)).ctx.tile 5).z = [] ∧ ((run (.zclr 0 5) (tile5 .held)).ctx.tile 5).st = .array := by decide +kernel
/-- 1 + 4 = 5 in row 0, 0 in row 1. -/
theorem test_fsqa : pushed 32 2 (.fsqa 0 5 6 1) (tile5 .held) = some (16, [0x40A00000, 0]) := by decide +kernel
/-- Table 13-8: a block of all 0x80 is constant, of 16 bytes: KIND 2 and BASE 0x80. -/
theorem test_zcomp : pushed 8 5 (.zcomp 0 0 6 1) { queues := [(4, [{ full := true, data := pack 8 (List.replicate 512 0x80) }])] }
    = some (1, [0x80, 0, 0, 0, 0x80]) := by decide +kernel
theorem test_zcomp_term : (run (.zcompTerm 0 6) {}).ctx.queue 6 = [{ full := true, term := true }] := by decide +kernel
theorem test_fprt_pass : pushed 8 1 (.fprtPass 0 0 6 14) { queues := [(4, [entry1])] } = some (32, [7])
    ∧ (run (.fprtPass 0 0 6 14) { queues := [(4, [entry1])] }).ctx.fu.fp.bytes = 512 := by decide +kernel
theorem test_fprt_emit : pushed 64 8 (.fprtEmit 0 6) { fu := { ecnt := 3, fp := { bytes := 512 } } } = some (4, [3 * 2 ^ 32, 512, 0, 0, 0, 0, 0, 1])
    ∧ (run (.fprtEmit 0 6) { fu := { ecnt := 3, fp := { bytes := 512 } } }).ctx.fu.ecnt = 4 := by decide +kernel
theorem test_fscl : (run (.fscl 0 0) { queues := [(4, [entry1])] }).ctx.fu.cs.get 0 0 = 7
    ∧ (run (.fscl 0 0) { queues := [(4, [entry1])] }).ctx.fu.cs.get 0x3F800000 1 = 0 := by decide +kernel
theorem test_fscl_rng : (run (.fsclRng 0 0) { queues := [(4, [entry1])] }).ctx.fu.key = 7 := by decide +kernel
theorem test_fmv : pushed 8 1 (.fmv 0 0 6 3) { queues := [(4, [entry1])] } = some (4, [7]) := by decide +kernel
theorem test_fmv_term : (run (.fmvTerm 0 6) {}).ctx.queue 6 = [{ full := true, term := true }] := by decide +kernel

end Sys2Proof.Machine
end

