-- ==== Sys2Proof/Tests/WitnessCore.lean ====
section
/-! SUPPORT. States that meet the hypotheses of the statements about the shared instructions and the control engine. -/

namespace Sys2Proof.Machine

set_option Elab.async false

/-! ### Witnesses: for each obligation a state and operands that meet its hypotheses together -/

/-- Every instruction of the list meets a test. -/
def each1 (l : List Instr) (f : Instr → Bool) : Bool := l.all f

/-- The C engine with registers, return addresses, a loop and spill memory, in its local handler's reach. -/
def full : Ctx := { c := { pc := 4, g := [(1, 5), (2, 7), (3, 9)], ras := [3, 8], loops := [⟨3, 9, 7⟩], spill := [(0, 6)] } }

/-- SharedRegisterInstructionsComplete: each of its 24 instructions is ready. -/
theorem witness_shared_registers : each1 [.add .C 0 3 1 2, .sub .C 0 3 1 2, .mul .C 0 3 1 2, .mulh .C 0 3 1 2, .andg .C 0 3 1 2, .org .C 0 3 1 2,
    .xorg .C 0 3 1 2, .shl .C 0 3 1 2, .shr .C 0 3 1 2, .sra .C 0 3 1 2, .slt .C 0 3 1 2, .sltn .C 0 3 1 2, .min .C 0 3 1 2, .max .C 0 3 1 2,
    .mov .C 0 3 1, .addi .C 0 0 1 5, .andi .C 0 3 1 5, .ori .C 0 3 1 5, .xori .C 0 3 1 5, .shli .C 0 3 1 63, .shri .C 0 3 1 63, .srai .C 0 3 1 63,
    .li .C 0 31 5 6, .spl .C 0 3 1023]
    (fun i => match registerResult (unit0 full) i with | some (e, p, _, _) => Ready i e p {} (unit0 full) | none => false) = true := by decide +kernel

/-- ControlTransfersComplete. -/
theorem witness_control_transfers : each1 [.nop .C 0, .b .C 0 10, .beq .C 0 1 2 8, .bne .C 0 1 2 8, .blt .C 0 1 2 8, .bge .C 0 1 2 8, .blo .C 0 1 2 8,
    .bhs .C 0 1 2 8, .call .C 0 10, .ret .C 0, .brkl .C 0, .loop .C 0 1 2, .loopi .C 0 1023 3, .sps .C 0 3 1023, .svra .C 0 2 0, .ldra .C 0 14 0]
    (fun i => match engineResult (unit0 full) i with | some (e, p, _) => Ready i e p {} (unit0 full) | none => false) = true := by decide +kernel

/-- LimitChecksTrap: at each limit. -/
theorem witness_limits : each1 [.call .C 0 10, .ret .A 0, .brkl .A 0, .loop .C 0 1 5, .loopi .C 0 1 5, .svra .C 0 16 0, .ldra .C 0 1 0]
    (fun i =>
      let s := unit0 { c := { pc := 4, g := [(1, 1)], ras := if i = .svra .C 0 16 0 then List.replicate 15 3 else List.replicate 16 3,
                              loops := List.replicate 4 ⟨3, 9, 7⟩ } }
      let e : Eng := if i = .ret .A 0 ∨ i = .brkl .A 0 then .A else .C
      s.cc.runnable e && (s.ctx.eng e).prog.isNone && (encodingCause i s.cc e).isNone
        && (match i with
          | .call t _ _ => decide (e = t ∧ 16 ≤ (s.ctx.eng t).ras.length)
          | .ret t _ => decide (e = t ∧ (s.ctx.eng t).ras = [])
          | .brkl t _ => decide (e = t ∧ s.ctx.seenLoops t = [])
          | .loop t _ ga _ => decide (e = t ∧ 4 ≤ (s.ctx.eng t).loops.length ∧ (s.reg t ga).toNat % 2 ^ 32 ≠ 0)
          | .loopi t _ k _ => decide (e = t ∧ 4 ≤ (s.ctx.eng t).loops.length ∧ k ≠ 0)
          | .svra t _ k _ => decide (e = t ∧ (s.ctx.eng t).ras.length < k.toNat)
          | .ldra t _ k _ => decide (e = t ∧ 16 < (s.ctx.eng t).ras.length + k.toNat)
          | _ => false)) = true := by decide +kernel

/-- LimitChecksTrap: a tile that is not HELD, and rows at 64. -/
theorem witness_tile_limits : each1 [.zcnv 0 0 5 6 12 0 1 0 0 0, .zrd 0 0 5 6 0 0 0, .zclr 0 5, .fsqa 0 5 6 1, .fprtTile 0 5]
    (fun i => (unit0 (tile5 .ready)).cc.runnable .F && ((unit0 (tile5 .ready)).ctx.eng .F).prog.isNone
      && (encodingCause i (unit0 (tile5 .ready)).cc .F).isNone && decide (((unit0 (tile5 .ready)).ctx.tile 5).st ≠ .held)) = true
    ∧ ((unit0 (tile5 .held)).ctx.tile 5).st = .held ∧ 64 < ((unit0 (tile5 .held)).reg .F 0 + (63 : BitVec 6).setWidth 64).toNat + (1 : BitVec 6).toNat + 1
    ∧ (encodingCause (.zcnv 0 0 5 6 12 0 1 0 1 63) (unit0 (tile5 .held)).cc .F).isNone = true := by decide +kernel

/-- TokenInstructionsComplete: ready, and short of a token, and short of room. -/
theorem witness_tokens :
    let s := unit0 { fifo := [(0, 5), (2, 62)] }
    Ready (.nop .X 8) .X 8 {} s = true ∧ Ready (.waitt .X 0 0 5) .X 0 { pops := [(0, 5)] } s = true
    ∧ Ready (.sigt .F 0 2 1) .F 0 { pushes := [(2, 1)] } s = true
    ∧ s.ctx.fifo.get 0 0 < total (({ pops := [(0, 6)] } : Needs).allPops .X 0) 0 ∧ (encodingCause (.waitt .X 0 0 6) s.cc .X).isNone = true
    ∧ 63 < s.ctx.fifo.get 0 2 + s.ctx.resv.get 0 2 + total (({ pushes := [(2, 2)] } : Needs).allPushes .F 0) 2
    ∧ (encodingCause (.sigt .F 0 2 2) s.cc .F).isNone = true ∧ s.cc.runnable .F = true ∧ s.cc.runnable .X = true
    ∧ (let t := s.modCtx fun c => { c with ar := { c.ar with start := some { pc := 0, wc := 0, loops := [], pops := [], pushes := [] } } }
       t.cc.runnable .C = true ∧ (t.ctx.eng .C).prog = none ∧ (encodingCause (.nop .C 1) t.cc .C).isNone = true
        ∧ t.ctx.fifo.get 0 9 < total (({} : Needs).allPops .C 1) 9 ∧ t.ctx.ar.start.isSome = true) := by decide +kernel

/-- QueueTestsComplete: a terminal head, a data head; a count, and a count of 0 through the first terminal entry. -/
theorem witness_queue_tests :
    let s := unit0 { queues := [(0, [{ full := true }, { full := true, term := true }, { full := true }]), (1, [{ full := true, term := true }])] }
    Ready (.btk .X 0 0 5) .X 0 { tests := [(0, 1)] } s = true ∧ Ready (.btk .X 0 1 5) .X 0 { tests := [(1, 1)] } s = true
    ∧ Ready (.qdrop .X 0 0 3) .X 0 {} s = true ∧ Ready (.qdrop .X 0 0 0) .X 0 {} s = true ∧ s.budget = none
    ∧ s.ctx.queue 0 = [{ full := true }, { full := true, term := true }, { full := true }] ++ []
    ∧ s.ctx.queue 0 = [{ full := true }, { full := true, term := true }] ++ [{ full := true }] := by decide +kernel

/-- A store of one byte, and a condition of a chain. -/
def store1 : Store := { va := 8, key := 8, size := 1, data := 7 }
def cond1 : ChainEntry := { cv := 3, side := true, factor := 0x8000, site := 0, inherited := false }

/-- DoneAndYieldComplete: not the last DONE; the last one without residue, and with it; the last one of speculative work, with a save
slot for it, and with an array that still runs; YIELD with a slot, without, and of an iteration. -/
theorem witness_done_yield :
    let last : Ctx := { a := { done := true }, x := { done := true }, f := { done := true } }
    let p := ((unit0 last).modWork fun w => { w with chain := [cond1] }).modPart 0 fun q => { q with savecfg := 1 }
    let up := (p.issued .C 0 {} 1).retire .C 0 {} 1 .done
    let r := p.modCtx fun c => { c with ar := { c.ar with nest := some ⟨[], [0]⟩ } }
    let ur := (r.issued .C 0 {} 1).retire .C 0 {} 1 .done
    Ready (.done .C 0) .C 0 {} p = true ∧ p.cc.badTokens = false ∧ up.ctx.live = [] ∧ up.ctx.residue = false ∧ p.work.spec = true
    ∧ up.ctx.ar.idle = true ∧ (p.slotFor p.work.part p.leaveNo).isSome = true ∧ up.cc.canLeave = true
    ∧ Ready (.done .C 0) .C 0 {} r = true ∧ r.cc.badTokens = false ∧ ur.ctx.live = [] ∧ ur.ctx.residue = false ∧ r.work.spec = true
    ∧ ur.ctx.ar.idle = false
    ∧ Ready (.done .C 0) .C 0 {} (unit0 {}) = true ∧ (((unit0 {}).issued .C 0 {} 1).retire .C 0 {} 1 .done).ctx.live ≠ []
    ∧ Ready (.done .C 0) .C 0 {} (unit0 last) = true ∧ (((unit0 last).issued .C 0 {} 1).retire .C 0 {} 1 .done).ctx.live = []
    ∧ (((unit0 last).issued .C 0 {} 1).retire .C 0 {} 1 .done).ctx.residue = false ∧ (unit0 last).work.spec = false
    ∧ (((unit0 { last with fifo := [(0, 1)] }).issued .C 0 {} 1).retire .C 0 {} 1 .done).ctx.residue = true
    ∧ (((unit0 { last with fifo := [(0, 1)] }).issued .C 0 {} 1).retire .C 0 {} 1 .done).ctx.live = []
    ∧ Ready (.yield 0) .C 0 {} (unit0 {}) = true ∧ (unit0 {}).work.kind = .segment ∧ (unit0 {}).slotFor 0 (unit0 {}).leaveNo = none
    ∧ (((unit0 {}).modPart 0 fun q => { q with savecfg := 1 }).slotFor 0 (unit0 {}).leaveNo).isSome = true
    ∧ (unit0 {}).cc.badTokens = false ∧ (unit0 last).cc.badTokens = false ∧ (unit0 { last with fifo := [(0, 1)] }).cc.badTokens = false
    ∧ Ready (.yield 0) .C 0 {} ((unit0 {}).modPart 0 fun q => { q with savecfg := 1 }) = true
    ∧ Ready (.yield 0) .C 0 {} ((unit0 {}).modWork fun w => { w with kind := .iteration 1 }) = true := by decide +kernel

/-- CsrInstructionsComplete, CsrWriteReadsBack. -/
theorem witness_csr : each1 [.csrr 0 3 0x020, .csrw 0 3 0x040, .csrs 0 3 0x010, .csrc 0 3 0x11F] (fun i => Ready i .C 0 {} (unit0 full)) = true
    ∧ isCsr 0x040 = true ∧ isCsr 0x11F = true ∧ isCsr 0x000 = true ∧ csrRw 0x000 = 0
    ∧ (unit0 full).ctx.csr.off < 2 ^ 14 ∧ (unit0 full).ctx.csr.win < 2 ^ 16 := by decide +kernel

/-- FloatInstructionsComplete. -/
theorem witness_floats : each1 [.fadd 0 3 1 2, .fsub 0 3 1 2, .fmul 0 3 1 2, .fmin 0 3 1 2, .fmax 0 3 1 2, .feq 0 3 1 2, .flt 0 3 1 2, .fle 0 3 1 2,
    .ffma 0 3 1 2 3, .fcvt 0 3 1 14 7]
    (fun i => match floatResult (unit0 full) i with | some (p, _, _, _) => Ready i .C p {} (unit0 full) | none => false) = true := by decide +kernel

/-- ArithmeticIsExactThenRounded, FormatsRoundTrip, IntegerElementsWrapOrSaturate, BlocksRoundTrip: 1.0 and 2.0 are finite; a number that is no
NaN; a signed type; 256 bytes. -/
theorem witness_arithmetic : (fmtF32.decode 0x3F800000).isFin = true ∧ fmtF16 ∈ formats ∧ 0x7C00 < 2 ^ fmtF16.w
    ∧ (fmtF16.decode 0x7C00).isNan = false ∧ (5 : Nat) ≤ 7 ∧ (List.replicate 256 (5 : Byte)).length = 256 := by
  refine ⟨by decide +kernel, by simp [formats], by decide +kernel, by decide +kernel, by decide, by decide +kernel⟩

/-! #### Translation: states whose address space 0 is plain -/

/-- What a state must meet to be plain, as a test. -/
def State.plainCheck (s : State) : Bool :=
  s.stalled.isEmpty && s.dies.isEmpty && decide ((s.part 0).ptbase = 0) && (s.part 0).handles.isEmpty
    && decide (s.readM (2 * tierSpan) 8 = plainRoot) && decide (s.readM (2 * tierSpan + 0x10000) 8 = plainNode)
    && decide (s.readM (2 * tierSpan + 0x20000) 8 = plainLeaf)
    && s.cores.all (fun e => e.2.tlbC.isEmpty && e.2.tlbA.isEmpty && e.2.ctx.csr.evsel.isEmpty) && s.ladles.all fun e => e.2.tlb.isEmpty

theorem Plain.of_check {s : State} (h : s.plainCheck = true) : Plain s := by
  simp only [State.plainCheck, Bool.and_eq_true, decide_eq_true_eq, List.isEmpty_iff, List.all_eq_true] at h
  obtain ⟨⟨⟨⟨⟨⟨⟨⟨h1, h2⟩, h3⟩, h4⟩, h5⟩, h6⟩, h7⟩, h8⟩, h9⟩ := h
  exact Plain.fresh h1 h2 h3 h4 h5 h6 h7 (fun e he => ⟨(h8 e he).1.1, (h8 e he).1.2, (h8 e he).2⟩) h9

/-- Core 0 as in `unit0`, in a plain address space whose first bytes are `data`, all of it in the snapshot. -/
def plain0 (c : Ctx) (data : SMap Byte) : State :=
  { (unit0 c).modWork fun w => { w with snap := { mem := data } } with mem := data ++ plainTables }

/-- What an access by an instruction of C, of `len` words, needs to be answered plainly. -/
def State.plainAt (s : State) (p : BitVec 4) (len a : Nat) : Bool :=
  (s.issued .C p {} len).plainCheck && decide ((s.issued .C p {} len).work.part = 0) && decide ((s.issued .C p {} len).work.asid = 0)
    && decide (s.window a = a) && decide (s.windowNow a = a) && decide (a < 2 ^ 30)

theorem State.reaches_plain {s : State} {p : BitVec 4} {len a : Nat} (acc ext : Nat) (h : s.plainAt p len a = true) :
    ∃ u, s.reaches p len a acc ext a u ∧ Plain u ∧ Alike (s.issued .C p {} len) u := by
  simp only [State.plainAt, Bool.and_eq_true, decide_eq_true_eq] at h
  obtain ⟨⟨⟨⟨⟨h1, h2⟩, h3⟩, -⟩, -⟩, h5⟩ := h
  obtain ⟨u, g, pu, au⟩ := (Plain.of_check h1).xlateAs (.coreC s.cur) h5 acc ext
  exact ⟨u, by rw [State.reaches, xlate, h2, h3]; exact g, pu, au⟩

/-- A write reaches the location of the same number. -/
theorem State.reaches_now {s : State} {p : BitVec 4} {len a : Nat} (acc ext : Nat) (h : s.plainAt p len a = true) :
    ∃ u, s.reaches p len (s.windowNow a) acc ext a u ∧ Plain u ∧ Alike (s.issued .C p {} len) u := by
  obtain ⟨u, g, r⟩ := State.reaches_plain acc ext h
  simp only [State.plainAt, Bool.and_eq_true, decide_eq_true_eq] at h
  exact ⟨u, by rw [h.1.2]; exact g, r⟩

theorem Plain.replicaOn {s : State} (h : Plain s) (d key : Nat) : s.replicaOn d key = false := by
  rw [State.replicaOn, h.replicas]
  rfl

/-- A run of bytes that an instruction of C reads. -/
theorem State.serves_plain {s : State} {p : BitVec 4} {len a n : Nat} (h : s.plainAt p len a = true)
    (hp : (s.issued .C p {} len).poisoned a n = false) :
    ∃ u, s.serves p len a n ((s.issued .C p {} len).snapRead a n) u ∧ Plain u ∧ Alike (s.issued .C p {} len) u := by
  obtain ⟨u, g, pu, au⟩ := State.reaches_plain accRead n h
  have hr : ∀ n b, u.snapRead b n = (s.issued .C p {} len).snapRead b n := by
    intro n
    induction n with
    | zero => intro b; rfl
    | succ n ih => intro b; simp only [State.snapRead, ih, State.snapByte, au.curWork, au.curOb]
  simp only [State.plainAt, Bool.and_eq_true, decide_eq_true_eq] at h
  refine ⟨u, ⟨a, u, by rw [h.1.1.2]; exact g, plain_noPath u h.2, ?_, (hr n a).symm, ?_⟩, pu, au⟩
  · rw [State.readPoisoned, au.poisoned, hp]
    rfl
  · rw [State.useReplica, pu.replicaOn]
    rfl

/-- A record that an instruction of C finds. -/
theorem State.finds_plain {s : State} {p : BitVec 4} {len a : Nat} (h : s.plainAt p len a = true) (ha : a % 128 = 0)
    (hp : (s.issued .C p {} len).poisoned a 128 = false) :
    ∃ u, s.finds p len a (BitVec.ofNat 1024 (ofBytes ((s.issued .C p {} len).snapRead a 128))) u ∧ Plain u ∧ Alike (s.issued .C p {} len) u := by
  obtain ⟨u, g, pu, au⟩ := State.serves_plain h hp
  exact ⟨u, ⟨ha, _, g, rfl⟩, pu, au⟩

/-- The C engine: g1 and g2 are addresses of 128 aligned bytes, g3 a number. -/
def memRegs : Ctx := cRegs 0x100 0x180 9

/-- LoadsAndStoresComplete: every size of LD and ST. -/
theorem witness_loads : ∀ sz : BitVec 4, sz.toNat < 7 → ∃ (s u : State) (l : List Byte), Ready (.ld 0 3 1 sz 8) .C 0 {} s = true
    ∧ s.offAddr 1 8 % accessWidth sz = 0 ∧ s.serves 0 2 (s.offAddr 1 8) (accessWidth sz) l u := by
  intro sz hsz
  have hr : (∀ sz : BitVec 4, sz.toNat < 7 → Ready (.ld 0 3 1 sz 8) .C 0 {} (plain0 memRegs []) = true
      ∧ (plain0 memRegs []).offAddr 1 8 % accessWidth sz = 0
      ∧ ((plain0 memRegs []).issued .C 0 {} 2).poisoned ((plain0 memRegs []).offAddr 1 8) (accessWidth sz) = false) := by decide +kernel
  obtain ⟨u, g, -, -⟩ := State.serves_plain (s := plain0 memRegs []) (p := 0) (len := 2) (a := (plain0 memRegs []).offAddr 1 8)
    (by decide +kernel) (hr sz hsz).2.2
  exact ⟨plain0 memRegs [], u, _, (hr sz hsz).1, (hr sz hsz).2.1, g⟩

theorem witness_stores : ∀ sz : BitVec 4, sz ∈ [1#4, 3#4, 5#4, 6#4] → ∃ (s u : State) (key : Nat), Ready (.st 0 1 3 sz 8) .C 0 {} s = true
    ∧ s.offAddr 1 8 % accessWidth sz = 0 ∧ s.reaches 0 2 (s.windowNow (s.offAddr 1 8)) accWrite (accessWidth sz) key u ∧ u.lostPeer key = false
    ∧ s.work.sb.length < 16384 ∧ (s.ctx.eng .C).stuck = false := by
  intro sz hsz
  have hr : (∀ sz : BitVec 4, sz ∈ [1#4, 3#4, 5#4, 6#4] → Ready (.st 0 1 3 sz 8) .C 0 {} (plain0 memRegs []) = true
      ∧ (plain0 memRegs []).offAddr 1 8 % accessWidth sz = 0) := by decide +kernel
  obtain ⟨u, g, -, au⟩ := State.reaches_now (s := plain0 memRegs []) (p := 0) (len := 2) (a := (plain0 memRegs []).offAddr 1 8) accWrite (accessWidth sz)
    (by decide +kernel)
  exact ⟨plain0 memRegs [], u, _, (hr sz hsz).1, (hr sz hsz).2, g, by rw [au.lostPeer]; decide +kernel, by decide +kernel, by decide +kernel⟩

/-- LoadsAndStoresComplete, its last clause: work that holds a store in its buffer. -/
theorem witness_own_store : (plain0 memRegs []).cc.work.isSome = true ∧ (8 : Nat) ≤ 8 ∧ 8 < 8 + 1 := by decide +kernel

/-- MisalignedAccessTraps. -/
theorem witness_misaligned :
    let s := unit0 (cRegs 0x101 2 3)
    s.offAddr 1 0 % accessWidth 3 ≠ 0 ∧ Ready (.ld 0 3 1 3 0) .C 0 {} s = true ∧ Ready (.st 0 1 3 3 0) .C 0 {} s = true
    ∧ Ready (.amoaddAr 0 3 1 2 1) .C 0 {} s = true ∧ (s.reg .C 1).toNat % 4 ≠ 0 := by decide +kernel

/-- AtomicsComplete: each of the 21, of 64 and of 32 bits. -/
theorem witness_atomics : ∀ w : BitVec 1, ∀ i ∈ [Instr.amoaddAcq 0 3 1 2 w, .amoaddRel 0 3 1 2 w, .amoaddAr 0 3 1 2 w, .amoandAcq 0 3 1 2 w,
    .amoandRel 0 3 1 2 w, .amoandAr 0 3 1 2 w, .amoorAcq 0 3 1 2 w, .amoorRel 0 3 1 2 w, .amoorAr 0 3 1 2 w, .amominAcq 0 3 1 2 w,
    .amominRel 0 3 1 2 w, .amominAr 0 3 1 2 w, .amomaxAcq 0 3 1 2 w, .amomaxRel 0 3 1 2 w, .amomaxAr 0 3 1 2 w, .amoswpAcq 0 3 1 2 w,
    .amoswpRel 0 3 1 2 w, .amoswpAr 0 3 1 2 w, .amocasAcq 0 3 1 2 w, .amocasRel 0 3 1 2 w, .amocasAr 0 3 1 2 w],
    ∃ (s u : State) (key : Nat), ∃ fn rel acq, amoOf i = some (fn, rel, acq, 0, 3, 1, 2, w) ∧ Ready i .C 0 {} s = true
      ∧ (s.reg .C 1).toNat % (if w = 1 then 4 else 8) = 0
      ∧ s.reaches 0 1 (s.windowNow (s.reg .C 1).toNat) accWrite (if w = 1 then 4 else 8) key u ∧ u.amoSupported key fn = true ∧ u.noPath key = false
      ∧ u.poisoned key (if w = 1 then 4 else 8) = false ∧ u.unburdened := by
  intro w i hi
  obtain ⟨u, g, _, au⟩ := State.reaches_now (s := plain0 memRegs []) (p := 0) (len := 1) (a := ((plain0 memRegs []).reg .C 1).toNat) accWrite
    (if w = 1 then 4 else 8) (by decide +kernel)
  have hu : u.unburdened := by
    rw [State.unburdened, au.curWork, au.curOb]
    decide +kernel
  have hs : ∀ fn, u.amoSupported (((plain0 memRegs []).reg .C 1).toNat) fn = true := fun fn => rfl
  have hp : ∀ w : BitVec 1, ((plain0 memRegs []).issued .C 0 {} 1).poisoned (((plain0 memRegs []).reg .C 1).toNat) (if w = 1 then 4 else 8) = false := by
    decide +kernel
  have ha : ∀ w : BitVec 1, ((plain0 memRegs []).reg .C 1).toNat % (if w = 1 then 4 else 8) = 0 := by decide +kernel
  have hr : ∀ w : BitVec 1, ([Instr.amoaddAcq 0 3 1 2 w, .amoaddRel 0 3 1 2 w, .amoaddAr 0 3 1 2 w, .amoandAcq 0 3 1 2 w,
    .amoandRel 0 3 1 2 w, .amoandAr 0 3 1 2 w, .amoorAcq 0 3 1 2 w, .amoorRel 0 3 1 2 w, .amoorAr 0 3 1 2 w, .amominAcq 0 3 1 2 w,
    .amominRel 0 3 1 2 w, .amominAr 0 3 1 2 w, .amomaxAcq 0 3 1 2 w, .amomaxRel 0 3 1 2 w, .amomaxAr 0 3 1 2 w, .amoswpAcq 0 3 1 2 w,
    .amoswpRel 0 3 1 2 w, .amoswpAr 0 3 1 2 w, .amocasAcq 0 3 1 2 w, .amocasRel 0 3 1 2 w, .amocasAr 0 3 1 2 w].all fun i =>
      (match amoOf i with | some (_, _, _, p, d, a, b, v) => decide (p = 0 ∧ d = 3 ∧ a = 1 ∧ b = 2 ∧ v = w) | none => false)
        && Ready i .C 0 {} (plain0 memRegs [])) = true := by decide +kernel
  have hi' := List.all_eq_true.1 (hr w) i hi
  rw [Bool.and_eq_true] at hi'
  obtain ⟨h1, h2⟩ := hi'
  split at h1
  · rename_i fn rel acq p d a b v hm
    simp only [decide_eq_true_eq] at h1
    obtain ⟨rfl, rfl, rfl, rfl, rfl⟩ := h1
    exact ⟨plain0 memRegs [], u, _, fn, rel, acq, hm, h2, ha _, g, hs fn, plain_noPath u (by decide +kernel), by rw [au.poisoned]; exact hp _, hu⟩
  · cases h1

/-- TranslationRules: a translation that answers, an address at 2^52, and an address space without a root. -/
theorem witness_translation : (∃ s u : State, ∃ key, xlateAs (.coreC 0) 0 0 0x100 accWrite 0 s = .ok (key, u)) ∧ 2 ^ 52 ≤ 2 ^ 52
    ∧ (let s := unit0 {}
       (2 ^ 52 - 1 < 2 ^ 52) ∧ (∀ x ∈ s.stalled, x.client ≠ .coreC 0) ∧ s.tlbOf (.coreC 0) = [] ∧ s.walkerFree 0 = true ∧ s.misses 0 = [] ∧ (s.die 0).nodes = []
       ∧ bits (s.part 0).ptbase 63 12 * 4096 + 8 * 5 < tierSpan
       ∧ (BitVec.ofNat 64 (s.readM (keyOf 2 0 (bits (s.part 0).ptbase 63 12 * 4096 + 8 * 5)) 8)).getLsbD 0 = false) := by
  refine ⟨?_, by decide, by decide +kernel⟩
  obtain ⟨u, g, _⟩ := (Plain.of_check (s := plain0 memRegs []) (by decide +kernel)).xlateAs (.coreC 0) (va := 0x100) (by decide) accWrite 0
  exact ⟨_, u, _, g⟩

/-! #### Fences, traps, work, variables, the matrix array -/

/-- A state with nothing to publish. -/
theorem State.unburdened_of {s : State} (h : (!s.work.spec && s.work.replay.isNone && s.work.sb.isEmpty && s.cc.ob.isEmpty) = true) :
    s.unburdened := by
  simp only [Bool.and_eq_true, Bool.not_eq_true', Option.isNone_iff_eq_none, List.isEmpty_iff] at h
  exact ⟨h.1.1.1, h.1.1.2, h.1.2, h.2⟩

/-- FencesAndPhasesComplete: the fences, a phase of the core, FENCE.rel of work that is not speculative and of work that is, and arrival. -/
theorem witness_fences :
    let s := (unit0 {}).modWork fun w => { w with sb := [store1] }
    let t := s.modWork fun w => { w with chain := [cond1] }
    Ready (.fenceAcq 0) .C 0 {} s = true ∧ Ready (.phase 0 0) .C 0 {} s = true ∧ s.cc.badTokens = false
    ∧ ((s.issued .C 0 {} 1).ctx.unreserve ((depPushes .C 0).map (·, 1))).residue = false
    ∧ Ready (.fenceRel 0) .C 0 {} s = true ∧ s.work.replay = none ∧ s.lateHeld s.work = false ∧ t.lateHeld t.work = false ∧ s.work.spec = false ∧ (∀ st ∈ s.work.sb, st.mark = false)
    ∧ Ready (.fenceRel 0) .C 0 {} t = true ∧ t.work.replay = none ∧ t.work.spec = true
    ∧ Ready (.phase 0 4) .C 0 {} (unit0 {}) = true ∧ (4 : BitVec 3) ≠ 0 ∧ isConductor (unit0 {}).cur = false
    ∧ (let s : State := { unit0 {} with due := [0] }
       let x : Turn := ⟨1, .event .thermalTrip 0⟩
       s.crossDue.due = [0] ∧ s.crossDue.delay x ≠ 0
        ∧ (s.crossDue.part ((s.crossDue.core 0).work.getD { id := 0 }).part).traps = [] ∧ (s.crossDue.core 0).work.isSome = true
        ∧ s.crossDue.watchPaused 0 s.crossDue.work = false) := by decide +kernel

/-- InvalidationsComplete: a range, an empty one, one at 2^52; the last free place of 16. -/
theorem witness_invalidations : ∀ c ∈ [cRegs 0x1000 0x2000 5, cRegs 0x1000 0 5, cRegs (2 ^ 52) 1 5],
    let s := unit0 c
    s.unburdened ∧ s.openInvals s.cur < 16 ∧ Ready (.tlbir 0 3 1 2) .C 0 { waits := [(false, .memory)] } s = true
    ∧ Ready (.tlback 0) .C 0 {} s = true ∧ s.unacked s.cur = 0 := by
  intro c hc s
  have h : ∀ c ∈ [cRegs 0x1000 0x2000 5, cRegs 0x1000 0 5, cRegs (2 ^ 52) 1 5],
      ((!(unit0 c).work.spec && (unit0 c).work.replay.isNone && (unit0 c).work.sb.isEmpty && (unit0 c).cc.ob.isEmpty) = true)
      ∧ (unit0 c).openInvals (unit0 c).cur = 0 ∧ (unit0 c).unacked (unit0 c).cur = 0 ∧ Ready (.tlbir 0 3 1 2) .C 0 { waits := [(false, .memory)] } (unit0 c) = true
      ∧ Ready (.tlback 0) .C 0 {} (unit0 c) = true := by decide +kernel
  obtain ⟨h1, h2, h5, h3, h4⟩ := h c hc
  exact ⟨State.unburdened_of h1, by rw [h2]; decide, h3, h4, h5⟩

/-- TrapsAreTaken: into the local handler, and delivered: of C in its handler, and of A. -/
theorem witness_traps :
    let s := unit0 { c := { pc := 4, loops := [⟨3, 9, 7⟩] }, csr := { en := true, off := 63 } }
    let t := unit0 { csr := { en := true, inh := true } }
    s.cc.work.isSome = true ∧ (s.ctx.eng .C).prog = none ∧ s.ctx.csr.en = true ∧ s.ctx.csr.inh = false ∧ s.ctx.csr.off < s.work.len
    ∧ s.cc.firstWord s.ctx.csr.off = true
    ∧ t.cc.work = some t.work ∧ (t.ctx.eng .C).prog = none ∧ t.cc.takesLocally t.work.len .C 5 7 = false
    ∧ (t.ctx.eng .A).prog = none ∧ t.cc.takesLocally t.work.len .A 6 1 = false := by decide +kernel

/-- TrapEretWfeComplete: TRAP; ERET in its handler, outside, and to no first word; WFE with the event, and at the end of its time. -/
theorem witness_trap_eret_wfe :
    let s := unit0 { c := { pc := 4 }, csr := { en := true, inh := true, tepc := 63 } }
    let o := unit0 { csr := { en := true, inh := true, tepc := 64 } }
    let w := unit0 { csr := { evt := true } }
    let pr : Prog := { stage := 1, mark := 2 }
    let e := unit0 { c := { prog := some pr }, csr := { tmo := 5, cycle := 7 } }
    Ready (.trap 0 31) .C 0 {} s = true ∧ Ready (.eret 0) .C 0 {} s = true ∧ s.ctx.csr.inh = true ∧ s.cc.firstWord s.ctx.csr.tepc = true
    ∧ Ready (.eret 0) .C 0 {} (unit0 {}) = true ∧ (unit0 {}).ctx.csr.inh = false
    ∧ Ready (.eret 0) .C 0 {} o = true ∧ o.ctx.csr.inh = true ∧ o.cc.firstWord o.ctx.csr.tepc = false
    ∧ Ready (.wfe 0) .C 0 {} w = true ∧ w.ctx.csr.evt = true
    ∧ e.cc.runnable .C = true ∧ e.cc.badPath ≠ some .C ∧ (e.ctx.eng .C).prog = some pr ∧ pr.stage = 1 ∧ e.ctx.csr.tmo ≠ 0
    ∧ pr.mark + e.ctx.csr.tmo.toNat ≤ e.ctx.csr.cycle.toNat := by decide +kernel

/-- IllegalInstructionTraps: a role of Table 11-2 that is not met, on an engine that delivers its traps. -/
theorem witness_illegal :
    let i : Instr := .vadd 0 0 63 1 2 1 0 15
    let s := unit0 {}
    instrEngine i = some .X ∧ s.cc.runnable .X = true ∧ (s.ctx.eng .X).prog = none ∧ encodingCause i s.cc .X = some 3 := by decide +kernel

/-- The rules of a SPAWNC's chain: a free variable; the spawner's chain has the other side, and this side; a resolved variable; a new
entry; eight entries. -/
theorem witness_spawn_chains :
    let v : Cv := { part := 0 }
    let s : State := { (unit0 {}).modWork (fun w => { w with chain := [cond1] }) with cvs := [(3, v), (4, v), (5, { part := 0, val := some true })] }
    let f : State := { (unit0 {}).modWork (fun w => { w with chain := List.replicate 8 cond1 }) with cvs := [(4, v)] }
    s.cvOf s.work.part 6 = none ∧ s.cvOf s.work.part 3 = some v ∧ s.cvOf s.work.part 4 = some v
    ∧ (∃ e ∈ s.work.chain, e.cv = 3 ∧ e.side ≠ false) ∧ (∃ e ∈ s.work.chain, e.cv = 3) ∧ ¬ (∃ e ∈ s.work.chain, e.cv = 3 ∧ e.side ≠ true)
    ∧ s.cvOf s.work.part 5 = some { part := 0, val := some true } ∧ ¬ (∃ e ∈ s.work.chain, e.cv = 4) ∧ s.work.chain.length ≠ 8
    ∧ f.cvOf f.work.part 4 = some v ∧ ¬ (∃ e ∈ f.work.chain, e.cv = 4) ∧ f.work.chain.length = 8 := by decide +kernel

/-- Every variable tied up. -/
@[irreducible] def allTied (n : Nat) : SMap Cv := upTo n fun j => (j, { part := 0 })

theorem find_of_mem {α : Type} {m : SMap α} {k : Nat} {a : α} (h : (k, a) ∈ m) : m.find k ≠ none := by
  induction m with
  | nil => cases h
  | cons e r ih =>
    obtain ⟨j, b⟩ := e
    rw [SMap.find_cons]
    split
    · simp
    · rcases List.mem_cons.1 h with e | e
      · cases e; contradiction
      · exact ih e

theorem allTied_find : ∀ n < 4096, (allTied 4096).find n ≠ none := fun n hn => find_of_mem (a := { part := 0 }) (by
  unfold allTied
  exact List.mem_map.2 ⟨n, List.mem_range.2 hn, rfl⟩)

/-- VariablesComplete: the lowest free variable is 1; none is free; CVFREE of a resolved variable, of one that is not, and of a free one.
RESOLVE of a free variable, of a resolved one, and of another. -/
theorem witness_variables :
    let s : State := { unit0 (cRegs 0 1 2) with cvs := [(0, { part := 0, val := some true }), (2, { part := 0 })] }
    s.work.replay = none ∧ Ready (.cvnew 0 3) .C 0 {} s = true ∧ s.cvs.find 1 = none ∧ (∀ j, j < 1 → s.cvs.find j ≠ none)
    ∧ Ready (.cvfree 0 1) .C 0 {} s = true ∧ Ready (.cvfree 0 2) .C 0 {} s = true ∧ Ready (.cvfree 0 3) .C 0 {} s = true ∧ s.work.spec = false
    ∧ Ready (.resolve 0 3 1 1) .C 0 {} s = true ∧ Ready (.resolve 0 3 2 1) .C 0 {} s = true ∧ Ready (.resolve 0 2 3 1) .C 0 {} s = true
    ∧ s.cvOf s.work.part 0 = some { part := 0, val := some true } ∧ s.cvOf s.work.part 1 = none ∧ s.cvOf s.work.part 2 = some { part := 0 }
    ∧ (∀ k ∈ (s.issued .C 0 {} 1).losers 2 true, (((s.issued .C 0 {} 1).resolve s.work.part 2 true).core k).ending = false) := by decide +kernel

theorem witness_variables_all : let s : State := { unit0 {} with cvs := allTied 4096 }
    s.unburdened ∧ s.work.replay = none ∧ Ready (.cvnew 0 3) .C 0 {} s = true ∧ ∀ n, n < 4096 → s.cvs.find n ≠ none :=
  ⟨State.unburdened_of (by decide +kernel), by decide +kernel, by decide +kernel, allTied_find⟩

/-- A nest of one command of 8-bit elements into tile 5: ring 0 holds A, ring 1 B, one slot of 2,048 bytes each. -/
def nest1 : SMap Word := [(0, 2 ^ 44 + 2 ^ 34 + 5 * 2 ^ 27 + 2 ^ 23 + 2 ^ 10), (1, 256), (2, 512), (8, 1)]
def ready1 : Ctx :=
  let r : Ring := { init := true, slot := 2048, n := 1, tail := 1 }
  { rings := [(0, r), (1, { r with base := 2048 })], ar := { n1 := nest1, fq := [0x55] } }
def cmd1 : Cmd := { table := nest1, idx := [0], fw := 0x55 }

/-- MatrixControlCompletes: on a core, and on a conductor's; an NGO that waits for a nest and for a halted array, and its end, of a valid
table and of one that is not. -/
theorem witness_matrix_control :
    let s := unit0 ready1
    let c : State := { cur := 1024, cores := [(1024, { work := some { id := 1, len := 64, kind := .conductor 0 }, marks := List.range 64 })], stage := 5 }
    let n := s.modCtx fun c => { c with ar := { c.ar with nest := some ⟨nest1, [0]⟩ } }
    let h := s.modCtx fun c => { c with ar := { c.ar with hold := some 1 } }
    let w : Start := { pc := 4, wc := 0, loops := [], pops := [(0, 1)], pushes := [(2, 1)] }
    let e := fun (s : State) => s.modCtx fun c => { c with ar := { c.ar with start := some w } }
    Ready (.nestw 0 3 1 2) .C 0 { overlaps := true } s = true ∧ Ready (.nestw 1 3 1 2) .C 1 {} (unit0 { ready1 with fifo := [(9, 1)] }) = true
    ∧ isConductor s.cur = false ∧ s.ctx.ar.nest = none ∧ s.ctx.ar.hold = none
    ∧ Ready (.nestw 0 3 1 2) .C 0 { overlaps := true } (e s) = true
    ∧ Ready (.ngo 0) .C 0 {} n = true ∧ isConductor n.cur = false ∧ n.ctx.ar.nest.isSome = true
    ∧ Ready (.ngo 0) .C 0 {} h = true ∧ h.ctx.ar.hold.isSome = true
    ∧ (e s).cc.runnable .C = true ∧ (e s).ctx.ar.start = some w ∧ (e s).ctx.ar.nest = none ∧ (e s).ctx.ar.hold = none
    ∧ (e s).ctx.tableValid (e s).ctx.ar.shadow = true
    ∧ (e (unit0 {})).cc.runnable .C = true ∧ (e (unit0 {})).ctx.tableValid (e (unit0 {})).ctx.ar.shadow = false
    ∧ Ready (.ngo 0) .C 0 {} s = true ∧ s.ctx.tableValid s.ctx.ar.shadow = true ∧ s.ctx.ar.idle = true
    ∧ Ready (.nwait 0) .C 0 { waits := [(false, .array)] } s = true ∧ Ready (.fmtq 0 1) .C 0 { waits := [(false, .format)] } s = true
    ∧ s.ctx.ar.fq.length < 16
    ∧ isConductor c.cur = true ∧ Ready (.nestw 0 3 1 2) .C 0 { overlaps := true } c = true ∧ Ready (.nwait 0) .C 0 { waits := [(false, .array)] } c = true
    ∧ Ready (.fmtq 0 1) .C 0 { waits := [(false, .format)] } c = true ∧ Ready (.ngo 0) .C 0 {} c = true
    ∧ Ready (.ngo 0) .C 0 {} (unit0 {}) = true ∧ (unit0 {}).ctx.tableValid (unit0 {}).ctx.ar.shadow = false := by
  decide +kernel

/-- The same, A's elements scaled by a NaN, so that the sums leave every step out. -/
def readyS : Ctx := { ready1 with
  rings := ready1.rings ++ [(2, { init := true, base := 4096, slot := 16, n := 1, tail := 1 })], spad := [(4096, 0xFF)], ar := { n1 := nest1, fq := [0x20155] } }
def cmdS : Cmd := { table := nest1, idx := [0], fw := 0x20155 }

/-- A command that is the first of two of its run. -/
def nest2 : SMap Word := SMap.set nest1 0 8 2

/-- MatrixEventsComplete: the last command of a run, that issues now, its sums agreeing; one that is not the last, whose sums are not checked
yet; and the ring advance of a command. -/
theorem witness_matrix_events :
    (let s := (unit0 readyS).modCtx fun c => { c with ar := { c.ar with nest := some ⟨nest1, [0]⟩ } }
     let x := ((s.issueCmd 0).core 0).ctx
     (s.core 0).arrayRuns = true ∧ (s.core 0).arrayIssues = true ∧ x.ar.cmds = [cmdS] ∧ x.ar.adv = none ∧ x.cmdReady cmdS = true
       ∧ cmdS.last = true ∧ x.sumsAgree cmdS = true ∧ (s.core 0).badSums = false) ∧
    (let s := (unit0 ready1).modCtx fun c => { c with ar := { c.ar with nest := some ⟨nest2, [0]⟩ } }
     let x := ((s.issueCmd 0).core 0).ctx
     let c : Cmd := { table := nest2, idx := [0], fw := 0x55 }
     (s.core 0).arrayRuns = true ∧ (s.core 0).arrayIssues = true ∧ x.ar.cmds = [c] ∧ x.ar.adv = none ∧ x.cmdReady c = true
       ∧ ¬ (c.last = true ∨ 1024 ≤ x.ar.unchecked + 1)) ∧
    (let a := (unit0 ready1).modCtx fun c => { c with ar := { c.ar with adv := some cmd1 } }
     (a.core 0).arrayRuns = true ∧ (a.core 0).badSums = false ∧ (a.core 0).ctx.ar.adv = some cmd1
       ∧ (∀ q < 2, total cmd1.pops q ≤ ((a.core 0).ctx.ring q).filled) ∧ cmd1.pops.all (fun p => decide (p.1 < 2)) = true) := by
  refine ⟨?_, by decide +kernel, by decide +kernel⟩
  intro s x
  exact ⟨by decide +kernel, by decide +kernel, by decide +kernel, by decide +kernel, by decide +kernel, by decide +kernel, by decide +kernel, by decide +kernel⟩

/-! #### WQPUSH, spawning, mailboxes -/

/-- A segment record of level 3 at 0x100. -/
def rec100 : SMap Byte := [(0x100, 2), (0x101, 1), (0x105, 0x60)]

/-- Core 0 with g3 a queue number, that queue, and the bytes of a record at 0x100, the address in g1. -/
def pusher (n : Word) (w : WQ) (data : SMap Byte) : State := { plain0 (cRegs 0x100 0x180 n) data with queues := [(9, w)] }

theorem Alike.wq {s u : State} (h : Alike s u) (q : Nat) : u.wq q = s.wq q := by rw [State.wq, h.rest]; rfl
theorem Alike.validRecord {s u : State} (h : Alike s u) (p : Nat) (r : BitVec 1024) : u.validRecord p r = s.validRecord p r := by
  rw [h.rest]; rfl
theorem Alike.unburdened {s u : State} (h : Alike s u)
    (g : (!s.work.spec && s.work.replay.isNone && s.work.sb.isEmpty && s.cc.ob.isEmpty) = true) : u.unburdened :=
  State.unburdened_of (by rw [h.curWork, h.curOb]; exact g)

theorem statuses {A B C D E O W P Q : Prop} [Decidable A] [Decidable B] [Decidable C] [Decidable D] [Decidable E] {n : Nat}
    (h : if A then n = 4 else if B then n = 3 else if C then n = 1 else if D then n = 2 else if E then n = 5 else n = 0 ∧ O ∧ W)
    (hp : n ≠ 0 → P) (hq : n = 0 → Q) :
    if A then n = 4 ∧ P else if B then n = 3 ∧ P else if C then n = 1 ∧ P else if D then n = 2 ∧ P else if E then n = 5 ∧ P
      else n = 0 ∧ O ∧ W ∧ Q := by
  by_cases A <;> by_cases B <;> by_cases C <;> by_cases D <;> by_cases E <;> simp_all

/-- WqpushCompletes: the number, the partition, the state, the record, and a push: statuses 4, 3, 1, 2, 5 and 0. -/
theorem witness_wqpush : ∀ x ∈ [(40000#64, ({} : WQ), rec100, 4), (9, {}, rec100, 3), (9, { cfg := 2 ^ 37 }, rec100, 1),
    (9, { cfg := 2 ^ 37, st := 2 }, rec100, 2), (9, { cfg := 2 ^ 37, st := 1 }, [], 5),
    (9, { cfg := 2 ^ 37 + 2 ^ 20, st := 1, ring := 0x8000 }, rec100, 0)],
    ∃ (s u t : State) (r : BitVec 1024), Ready (.wqpush 0 4 3 1) .C 0 {} s = true ∧ s.finds 0 1 (s.reg .C 1).toNat r u ∧ u.unburdened ∧
      (let n := x.2.2.2
       let q := (s.reg .C 3).toNat
       let w := u.wq q
       if 32767 < q then n = 4 ∧ t = u
        else if w.part ≠ u.work.part ∨ w.deviceFed = false then n = 3 ∧ t = u
        else if w.st = 0 then n = 1 ∧ t = u
        else if w.st = 2 then n = 2 ∧ t = u
        else if u.validRecord u.work.part r = false then n = 5 ∧ t = u
        else n = 0 ∧ w.ovf = false ∧ w.held = [] ∧ u.enqueue q r = (t, .counted)) := by
  intro x hx
  have key : ∀ x ∈ [(40000#64, ({} : WQ), rec100, 4), (9, {}, rec100, 3), (9, { cfg := 2 ^ 37 }, rec100, 1),
      (9, { cfg := 2 ^ 37, st := 2 }, rec100, 2), (9, { cfg := 2 ^ 37, st := 1 }, [], 5),
      (9, { cfg := 2 ^ 37 + 2 ^ 20, st := 1, ring := 0x8000 }, rec100, 0)],
      let s := pusher x.1 x.2.1 x.2.2.1
      let v := s.issued .C 0 {} 1
      let r := BitVec.ofNat 1024 (ofBytes (v.snapRead 0x100 128))
      let q := (s.reg .C 3).toNat
      let w := v.wq q
      let n := x.2.2.2
      Ready (.wqpush 0 4 3 1) .C 0 {} s = true ∧ s.plainAt 0 1 0x100 = true ∧ v.poisoned 0x100 128 = false ∧ (s.reg .C 1).toNat = 0x100
      ∧ (!v.work.spec && v.work.replay.isNone && v.work.sb.isEmpty && v.cc.ob.isEmpty) = true
      ∧ (w.part = 0 ∧ w.asid = 0 ∧ w.slotVa w.tail < 2 ^ 30) ∧
      (if 32767 < q then n = 4
        else if w.part ≠ v.work.part ∨ w.deviceFed = false then n = 3
        else if w.st = 0 then n = 1
        else if w.st = 2 then n = 2
        else if v.validRecord v.work.part r = false then n = 5
        else n = 0 ∧ w.ovf = false ∧ w.held = []) := by decide +kernel
  obtain ⟨h1, h2, h3, h4, h5, ⟨h6, h7, h8⟩, h9⟩ := key x hx
  obtain ⟨u, hf, pu, au⟩ := State.finds_plain (p := 0) h2 (by decide) h3
  have hu := au.unburdened h5
  obtain ⟨z, hz, -, -⟩ := pu.translate (.tundish ((u.wq ((pusher x.1 x.2.1 x.2.2.1).reg .C 3).toNat).home)) h8 accWrite
  have he : ∃ t, u.enqueue ((pusher x.1 x.2.1 x.2.2.1).reg .C 3).toNat
      (BitVec.ofNat 1024 (ofBytes (((pusher x.1 x.2.1 x.2.2.1).issued .C 0 {} 1).snapRead 0x100 128))) = (t, .counted) := by
    unfold State.enqueue
    simp only [au.wq, h6, h7] at hz ⊢
    rw [hz]
    exact ⟨_, rfl⟩
  obtain ⟨t, ht⟩ := he
  refine ⟨_, u, if x.2.2.2 = 0 then t else u, _, h1, by rw [h4]; exact hf, hu, ?_⟩
  simp only [au.wq, au.curWork, au.validRecord]
  exact statuses h9 (fun h => if_neg h) (fun h => by rw [if_pos h]; exact ht)

/-- SpawnsComplete: an acceptable record and one that is not, of work that is not speculative and of work that is. -/
theorem witness_spawns : ∀ data ∈ [rec100, []], ∀ chain ∈ [[], [cond1]], ∀ len ∈ [1, 2],
    ∃ (s u : State) (r : BitVec 1024), s.finds 0 len (s.reg .C 1).toNat r u ∧ u.work.replay = none ∧ (u.work.spec = true ∨ u.unburdened)
      ∧ Ready (.spawn 0 4 1) .C 0 {} s = true ∧ Ready (.spawnc 0 4 3 1 0 1) .C 0 {} s = true ∧ u.spawnable r = !data.isEmpty := by
  intro data hd chain hc len hl
  have key : ∀ data ∈ [rec100, []], ∀ chain ∈ [[], [cond1]], ∀ len ∈ [1, 2],
      let s := (pusher 3 {} data).modWork fun w => { w with chain }
      let v := s.issued .C 0 {} len
      Ready (.spawn 0 4 1) .C 0 {} s = true ∧ Ready (.spawnc 0 4 3 1 0 1) .C 0 {} s = true ∧ s.plainAt 0 len 0x100 = true
      ∧ v.poisoned 0x100 128 = false ∧ (s.reg .C 1).toNat = 0x100 ∧ v.work.replay = none
      ∧ (v.work.spec = true ∨ (!v.work.spec && v.work.replay.isNone && v.work.sb.isEmpty && v.cc.ob.isEmpty) = true)
      ∧ v.spawnable (BitVec.ofNat 1024 (ofBytes (v.snapRead 0x100 128))) = !data.isEmpty := by decide +kernel
  obtain ⟨h1, h2, h3, h4, h5, h6, h7, h8⟩ := key data hd chain hc len hl
  obtain ⟨u, hf, pu, au⟩ := State.finds_plain (p := 0) h3 (by decide) h4
  refine ⟨_, u, _, by rw [h5]; exact hf, by rw [au.curWork]; exact h6, ?_, h1, h2, ?_⟩
  · rw [au.curWork]
    exact h7.imp id au.unburdened
  · rw [State.spawnable, au.curWork, au.validRecord]
    exact h8

/-- Conductor core k in the plain address space, g1 an address and g2 a mailbox number. -/
def conductor (k : Nat) (m : Word) (boxes : SMap (List (BitVec 256))) : State :=
  { cur := k, stage := 5, mem := plainTables, mboxes := boxes, parts := [(0, { cfg := 1 + 64 * 2 ^ 13 })]
    cores := [(k, { work := some { id := 1, len := 64, kind := .conductor 0 }, ctx := cRegs 0x100 m 9, marks := List.range 64 })] }

theorem Plain.mboxes {s : State} (h : Plain s) (x : SMap (List (BitVec 256))) : Plain { s with mboxes := x } :=
  ⟨h.stalled, h.walkers, h.replicas, h.base, h.handles, h.root, h.node, h.leaf, h.nodes, fun cl t ht => h.tlb cl t (by cases cl <;> exact ht), h.events⟩

theorem Plain.setEvt {s : State} (h : Plain s) (k : Nat) : Plain (s.setEvt k) := by
  unfold State.setEvt State.modCtxOf
  exact h.modCore k _ ⟨rfl, rfl, h.events k⟩

theorem Plain.logAct {s : State} (h : Plain s) (kind : ActKind) (n : Nat) : Plain (s.logAct kind n) := by
  unfold State.logAct
  split
  · refine (Plain.countOn ?_ _ _ _ _).1
    unfold State.modWork State.modWorkOf
    exact h.modCore s.cur _ ⟨rfl, rfl, h.events s.cur⟩
  · unfold State.modCtx State.modCtxOf
    exact h.modCore s.cur _ ⟨rfl, rfl, h.events s.cur⟩

theorem logAct_work (s : State) (kind : ActKind) (n : Nat) : (s.logAct kind n).work.part = s.work.part ∧ (s.logAct kind n).work.asid = s.work.asid := by
  unfold State.logAct
  split
  · simp only [State.countOn, State.modCtxOf, State.modWork, State.modWorkOf, State.work, State.cc, State.modCore, State.core, SMap.get_put_same]
    cases (SMap.get s.cores {} s.cur).work <;> simp
  · simp only [State.modCtx, State.modCtxOf, State.work, State.cc, State.modCore, State.core, SMap.get_put_same]
    simp

/-- MailboxesComplete: a number above 7, a core that is not the end, and each end of mailbox 0 (conductor 0 sends, conductor 1 takes). -/
theorem witness_mailboxes :
    (Ready (.mbsend 0 3 1 2) .C 0 {} (conductor 1024 8 []) = true ∧ Ready (.mbrecv 0 3 1 2) .C 0 {} (conductor 1024 8 []) = true
      ∧ 7 < ((conductor 1024 8 []).reg .C 2).toNat)
    ∧ (Ready (.mbsend 0 3 1 2) .C 0 {} (conductor 1024 7 []) = true ∧ ((conductor 1024 7 []).reg .C 2).toNat = 7 ∧ (conductor 1024 7 []).cur ≠ 1024 + 7
      ∧ Ready (.mbrecv 0 3 1 2) .C 0 {} (conductor 1024 7 []) = true ∧ (conductor 1024 7 []).cur ≠ 1024 + 6)
    ∧ (Ready (.mbpoll 0 3 1 2) .C 0 {} (conductor 1024 0 []) = true ∧ Ready (.mbpoll 0 3 1 2) .C 0 {} (conductor 1025 0 []) = true
      ∧ Ready (.mbpoll 0 3 1 2) .C 0 {} (conductor 1024 8 []) = true)
    ∧ (∃ (u : State) (l : List Byte), Ready (.mbsend 0 3 1 2) .C 0 {} (conductor 1024 0 []) = true ∧ ((conductor 1024 0 []).reg .C 2).toNat = 0
      ∧ (conductor 1024 0 []).cur = 1024 + 0 ∧ ((conductor 1024 0 []).reg .C 1).toNat % 32 = 0
      ∧ (conductor 1024 0 []).serves 0 1 ((conductor 1024 0 []).reg .C 1).toNat 32 l u ∧ u.unburdened
      ∧ ((conductor 1024 0 []).mbox 0).length < 64)
    ∧ (let s := conductor 1025 0 [(0, [7])]
      ∃ (u w : State) (key key' : Nat), Ready (.mbrecv 0 3 1 2) .C 0 {} s = true ∧ (s.reg .C 2).toNat = 0 ∧ s.cur = 1024 + 1
        ∧ (s.reg .C 1).toNat % 32 = 0 ∧ s.reaches 0 1 (s.windowNow (s.reg .C 1).toNat) accWrite 32 key u ∧ u.unburdened ∧ s.mbox 0 = 7 :: []
        ∧ s.ctx.c.stuck = false
        ∧ xlate (.coreC s.cur) (s.windowNow (s.reg .C 1).toNat) accWrite 32
          ((({ u with mboxes := u.mboxes.set [] 0 [] } : State).setEvt (1024 + 0)).logAct .mbrecv 7) = .ok (key', w)
        ∧ w.lostPeer key' = false) := by
  refine ⟨by decide +kernel, by decide +kernel, by decide +kernel, ?_, ?_⟩
  · obtain ⟨u, g, pu, au⟩ := State.serves_plain (s := conductor 1024 0 []) (p := 0) (len := 1) (a := 0x100) (n := 32) (by decide +kernel) (by decide +kernel)
    have hr : ((conductor 1024 0 []).reg .C 1).toNat = 0x100 := by decide +kernel
    exact ⟨u, _, by decide +kernel, by decide +kernel, by decide +kernel, by decide +kernel, by rw [hr]; exact g,
      au.unburdened (by decide +kernel), by decide +kernel⟩
  · obtain ⟨u, g, pu, au⟩ := State.reaches_plain (s := conductor 1025 0 [(0, [7])]) (p := 0) (len := 1) (a := 0x100) accWrite 32 (by decide +kernel)
    have hr : ((conductor 1025 0 [(0, [7])]).reg .C 1).toNat = 0x100 := by decide +kernel
    have hw : (conductor 1025 0 [(0, [7])]).windowNow 0x100 = 0x100 := by decide +kernel
    have pv := ((pu.mboxes (u.mboxes.set [] 0 [])).setEvt (1024 + 0)).logAct .mbrecv 7
    obtain ⟨w, gw, -, aw⟩ := pv.xlateAs (.coreC 1025) (va := 0x100) (by decide) accWrite 32
    have hc : u.cur = 1025 := by rw [au.cur]; rfl
    have hu : u.cc.work = some { id := 1, len := 64, kind := .conductor 0 } := by
      have := au.work 1025
      rw [State.cc, hc, this]
      rfl
    have hwork : (((({ u with mboxes := u.mboxes.set [] 0 [] } : State).setEvt (1024 + 0)).logAct .mbrecv 7).work.part = 0
        ∧ ((({ u with mboxes := u.mboxes.set [] 0 [] } : State).setEvt (1024 + 0)).logAct .mbrecv 7).work.asid = 0) := by
      have he : (({ u with mboxes := u.mboxes.set [] 0 [] } : State).setEvt (1024 + 0)).work.part = 0
          ∧ (({ u with mboxes := u.mboxes.set [] 0 [] } : State).setEvt (1024 + 0)).work.asid = 0 := by
        have hv : (({ u with mboxes := u.mboxes.set [] 0 [] } : State).setEvt (1024 + 0)).core 1025 = u.core 1025 := by
          simp only [State.setEvt, State.modCtxOf, State.modCore, State.core]
          rw [SMap.get_put_ne _ _ _ (by decide)]
        rw [State.cc, hc] at hu
        simp only [State.work, State.cc, State.setEvt, State.modCtxOf, State.modCore, hc] at hv ⊢
        rw [hv, hu]
        exact ⟨rfl, rfl⟩
      exact ⟨(logAct_work _ _ _).1.trans he.1, (logAct_work _ _ _).2.trans he.2⟩
    refine ⟨u, w, _, 0x100, by decide +kernel, by decide +kernel, rfl, by decide +kernel, by rw [hr, hw]; exact g, au.unburdened (by decide +kernel),
      by decide +kernel, by decide +kernel, ?_, ?_⟩
    · rw [hr, hw, xlate, hwork.1, hwork.2]
      exact gw
    · exact plain_lostPeer w (by decide)

end Sys2Proof.Machine
end

