-- ==== Sys2Proof/Tests/WitnessArray.lean ====
section
/-! SUPPORT. States that meet the hypotheses of the statements about the access engine, the vector engine and the matrix array. -/

namespace Sys2Proof.Machine

set_option Elab.async false

/-! #### The access engine -/

/-- Ring 0 of four slots of 512 bytes with one filled, registers, and a constant block of 16 bytes at 0 and at 16. -/
def accessor (queues : SMap (List Slot)) : Ctx :=
  { ring0 0 64 5 with queues, spad := [(0, 0x80), (4, 0x80), (16, 0x80), (20, 0x80)] }

/-- AccessInstructionsComplete: each of its instructions, LDQ of a ring, of a block, through the cursor and plain, STQ of each. -/
theorem witness_access :
    let s := unit0 (accessor [(0, []), (6, [entry1])])
    each1 [.ldq 0 0 0 1 0 0 0 0 16, .ldq 0 0 0 1 0 0 1 0 16, .ldq 0 0 0 0 0 1 0 1 0, .ldq 0 1 0 0 0 0 0 0 0, .ldqTerm 0 0 0 0,
      .stq 0 0 0 1 6 0 16, .stq 0 0 0 1 6 1 0, .stq 0 1 0 0 6 0 0, .radvHead 0 16 1, .radvTail 0 16 3, .rwaitHead 0 16 1, .rwaitTail 0 16 3,
      .swz 0 2 16 2, .astatEcur 0 3, .astatScur 0 3, .astatSetec 0 2, .astatSetsc 0 2, .astatRing 0 3 0, .astatSread 0 3 255, .astatChain 0 3 1]
      (fun i => match accessResult s i with | some (p, n, _) => Ready i .A p n s | none => false)
    ∧ (let s := unit0 (aRegs 1024 512 0)
       match accessResult s (.rinit 0 1 2 16 0 3) with | some (p, n, _) => Ready (.rinit 0 1 2 16 0 3) .A p n s | none => false) = true := by
  decide +kernel

/-- Core 0 with registers of A, and the handles of its partition. -/
def shadower (l : SMap Handle) (a b c : Word) : State := (unit0 (aRegs a b c)).modPart 0 fun q => { q with handles := l }

/-- Handle 5, of the core's work, over the first 64 KiB. -/
def handle5 (armed : Bool) : SMap Handle := [(5, { window := 0, twin := 0x10000, len := 0x10000, owner := 1, armed })]

/-- Whether a shadow instruction may act. -/
def shadows (i : Instr) (s : State) : Bool := match shadowResult s i with | some (p, _) => Ready i .A p {} s | none => false

/-- AccessInstructionsComplete: the shadow instructions, PREFT of a range, and of none. -/
theorem witness_shadow : shadows (.shdwDef 0 3 1 2 1) (shadower [] 0 0x10000 5) = true ∧ shadows (.shdwArm 0 3) (shadower (handle5 false) 0 0 5) = true
    ∧ shadows (.shdwFree 0 3) (shadower (handle5 false) 0 0 5) = true ∧ shadows (.preft 0 1 2 0) (shadower [] 0x1000 0x2000 0) = true
    ∧ shadows (.preft 0 1 3 15) (shadower [] 0x1000 0x2000 0) = true := by decide +kernel

/-- Engine A's access of 16 bytes at a plain location. -/
theorem granule_load {s : State} {va a ext : Nat} (h : s.plainCheck = true) (hv : va < 2 ^ 30) (hw : (s.part s.work.part).handles = [])
    (hp : s.work.part = 0 ∧ s.work.asid = 0) (hz : s.poisoned va 16 = false) : ∃ u, s.loadsGranule va a ext = .ok u := by
  obtain ⟨u, g, pu, au⟩ := (Plain.of_check h).xlateAs (engClient s.cur .A) hv accRead ext
  have e : xlate (engClient s.cur .A) (s.window va) accRead ext s = .ok (va, u) := by rw [xlate, hp.1, hp.2, window_none hw]; exact g
  have hu : u.useReplica (dieOf u.cur) va = u := by
    rw [State.useReplica, pu.replicaOn]
    rfl
  refine ⟨u.modCtx fun c => { c with spad := c.spad.setList 0 a (u.snapRead va 16) }, ?_⟩
  have : (coreRead .A va 16 ext : Act (List Byte)) s = .ok (u.snapRead va 16, u) := by
    unfold coreRead
    rw [Act.bind_ok (Act.get_run s), Act.bind_ok e, Act.bind_ok (Act.get_run u), plain_noPath u hv, Act.bind_ok (Act.waitIf_false ..)]
    have hpz : u.readPoisoned (dieOf u.cur) va 16 = false := by
      rw [State.readPoisoned, au.poisoned, hz]
      rfl
    rw [hpz, Act.bind_ok (Act.poisonIf_false ..), hu, Act.bind_ok (Act.set_run ..)]
    rfl
  unfold State.loadsGranule
  rw [Act.bind_ok this]
  rfl

/-- The store of a granule of scratchpad. -/
def granule (va a pc : Nat) (d : SMap Byte) (w : Work) : Store :=
  { va, key := va, size := 16, data := BitVec.ofNat 256 (ofBytes (bytesAt d a 16)), eng := .A, pc, part := w.part, asid := w.asid }

theorem granule_store {s : State} {va a ext : Nat} (h : s.plainCheck = true) (hv : va < 2 ^ 30) (hw : (s.part s.work.part).handles = [])
    (hp : s.work.part = 0 ∧ s.work.asid = 0) (hz : s.lostPeer va = false)
    (hb : (decide (sbLimit ≤ s.work.sb.length) || (s.ctx.eng .A).stuck) = false) :
    ∃ u, s.storesGranule va a ext = .ok u := by
  obtain ⟨u, g, -, -⟩ := (Plain.of_check h).xlateAs (engClient s.cur .A) hv accWrite ext
  have e : xlate (engClient s.cur .A) (s.windowNow va) accWrite ext s = .ok (va, u) := by rw [xlate, hp.1, hp.2, windowNow_none hw]; exact g
  refine ⟨u.modWork fun w => { w with sb := w.sb ++ [{ granule va a (s.ctx.eng .A).pc s.ctx.spad w with va := s.windowNow va }] }, ?_⟩
  unfold State.storesGranule storeAppend
  rw [Act.bind_ok (Act.get_run s)]
  simp only
  rw [Act.bind_ok e, hz, Act.bind_ok (Act.poisonIf_false ..), hb, Act.bind_ok (Act.waitIf_false ..)]
  rfl

/-- BulkCopiesComplete: one granule from 0x100 to scratchpad, and from there to 0x100. -/
theorem witness_bulk :
    let n : Needs := { waits := [(false, .ring)] }
    let s : State := { plain0 (aRegs 0x100 64 0) [(0x100, 7)] with cur := 0 }
    s.budget = none ∧ (s.reg .A 1).toNat % 16 = 0 ∧ (s.reg .A 2).toNat % 16 = 0 ∧ (s.reg .A 2).toNat + 16 * (1 : BitVec 18).toNat ≤ 786432
    ∧ Ready (.gld 0 0 0 1 2 1) .A 0 n s = true ∧ Ready (.gst 0 0 0 1 2 1) .A 0 n s = true
    ∧ (∃ u, granulesFrom State.loadsGranule (s.reg .A 1).toNat (fun i => (s.reg .A 2).toNat + 16 * i) (1 : BitVec 18).toNat (List.range (1 : BitVec 18).toNat)
        (s.issued .A 0 n 2) = .ok u)
    ∧ ∃ u, granulesFrom State.storesGranule (s.reg .A 1).toNat (fun i => (s.reg .A 2).toNat + 16 * i) (1 : BitVec 18).toNat (List.range (1 : BitVec 18).toNat)
        (s.issued .A 0 n 2) = .ok u := by
  intro n s
  have hr : (s.reg .A 1).toNat = 0x100 := by decide +kernel
  refine ⟨rfl, by decide +kernel, by decide +kernel, by decide +kernel, by decide +kernel, by decide +kernel, ?_, ?_⟩
  · obtain ⟨u, e⟩ := granule_load (s := s.issued .A 0 n 2) (va := 0x100) (a := (s.reg .A 2).toNat + 16 * 0) (ext := 16 * (1 - 0)) (by decide +kernel) (by decide)
      (by decide +kernel) (by decide +kernel) (by decide +kernel)
    refine ⟨u, ?_⟩
    rw [hr]
    exact congrArg (fun r : Except Stopped State => r.bind (granulesFrom State.loadsGranule 0x100 (fun i => (s.reg .A 2).toNat + 16 * i) 1 [])) e
  · obtain ⟨u, e⟩ := granule_store (s := s.issued .A 0 n 2) (va := 0x100) (a := (s.reg .A 2).toNat + 16 * 0) (ext := 16 * (1 - 0)) (by decide +kernel) (by decide)
      (by decide +kernel) (by decide +kernel) (by decide +kernel) (by decide +kernel)
    refine ⟨u, ?_⟩
    rw [hr]
    exact congrArg (fun r : Except Stopped State => r.bind (granulesFrom State.storesGranule 0x100 (fun i => (s.reg .A 2).toNat + 16 * i) 1 [])) e

/-- AccessReleasesComplete: PUBL, LCHAIN, ASTAT.ssig and ASTAT.sset. -/
theorem witness_access_releases :
    let s := shadower (handle5 true) 64 0 5
    s.unburdened ∧ Ready (.publ 0 3) .A 0 {} s = true ∧ (s.part s.work.part).handles.find 5 = some { window := 0, twin := 0x10000, len := 0x10000, owner := 1, armed := true }
    ∧ (s.reg .A 3).toNat = 5 ∧ s.work.id = 1 ∧ Ready (.lchain 0 3 1 1) .A 0 {} s = true ∧ isConductor s.cur = false ∧ (s.reg .A 1).toNat = 64
    ∧ s.takingLadle s.cur 1 = some 1
    ∧ (s.ladle 1).queue.length < 64 ∧ Ready (.astatSsig 0 0 1 1023 255) .A 0 {} s = true ∧ Ready (.astatSset 0 1 255) .A 0 {} s = true :=
  ⟨State.unburdened_of (by decide +kernel), by decide +kernel⟩

/-- Core 0 and its cluster's semaphore 5. -/
def waiting (y : Sem) : State := { unit0 (aRegs 64 0 5) with sems := [(5, y)] }

/-- AccessReleasesComplete: the semaphore wait that completes, the one that finds too little, and the two that find a waiter: one that
cannot take, and one that can. -/
theorem witness_access_waits : [(1023, 1023, []), (5, 4, []), (5, 9, [Waiter.core 2 10]), (5, 9, [Waiter.core 2 9])].all (fun x : Nat × Nat × List Waiter =>
    let y : Sem := { count := x.2.1, waiters := x.2.2 }
    let s := waiting y
    Ready (.astatSwait 0 3 (BitVec.ofNat 10 x.1) 5) .A 0 {} s && !isConductor s.cur && !s.work.spec && s.work.replay.isNone && decide (s.sem 5 = y)
      && !y.waiters.contains (.core s.work.id (BitVec.ofNat 10 x.1).toNat) && y.taken.isEmpty) = true
    ∧ (1023 : BitVec 10).toNat ≤ 1023 ∧ 4 < (5 : BitVec 10).toNat ∧ 9 < (Waiter.core 2 10).count ∧ (Waiter.core 2 9).count ≤ 9 := by decide +kernel

/-! #### The execute engine -/

/-- Whether a vector instruction meets what VectorInstructionsComplete asks. -/
def vectorReady (i : Instr) (s : State) : Bool :=
  match vectorInstr s i with
  | some (p, x) => Ready i .X p (x.needs s) s && (match x.check s with | .ok (_, t) => decide (t = s) | .error _ => false)
  | none => false

theorem vectorReady_iff {i : Instr} {s : State} (h : vectorReady i s = true) :
    ∃ p x, vectorInstr s i = some (p, x) ∧ Ready i .X p (x.needs s) s = true ∧ x.check s = .ok ((), s) := by
  unfold vectorReady at h
  split at h
  · rename_i p x hx
    rw [Bool.and_eq_true] at h
    obtain ⟨h1, h2⟩ := h
    split at h2
    · rename_i t e
      rw [of_decide_eq_true h2] at e
      exact ⟨p, x, hx, h1, e⟩
    · cases h2
  · cases h

/-- X with masks, a selection unit, a full queue 0 and an empty queue 4, beside the registers of a context. -/
def vectors (c : Ctx) (sel : Sel) : State :=
  unit0 { c with queues := [(0, [entry1])], xu := { c.xu with masks := [5, 7], sel := some sel } }

/-- The forms that an 8-bit type shows, and those of 32 bits. -/
def vectors8 : List Instr := [.vadd 0 0 3 1 2 1 0 1, .vsub 0 1 3 1 2 1 1 5, .vmul 0 0 3 1 2 1 0 1, .vfma 0 0 3 1 2 3 1 0 1, .vfms 0 0 3 1 2 3 1 0 1,
    .vmin 0 3 1 2 1 0 5, .vmax 0 3 1 2 1 0 1, .vabs 0 0 3 1 1 0 5, .vneg 0 1 3 1 1 0 5, .vand 0 3 1 2 1 0 1, .vor 0 3 1 2 1 0 1, .vxor 0 3 1 2 1 0 1,
    .vnot 0 3 1 1 0 1, .vshl 0 0 0 3 1 2 1 0 1, .vshr 0 1 2 3 1 0 1 0 5, .vsra 0 0 0 3 1 2 1 0 1, .vcmp 0 2 3 1 2 1 0 5, .vsel 0 3 1 2 3 1 0 1,
    .vmov 0 3 32 1 0 1, .vmov 0 40 1 1 0 1, .vmovTerm 0 40 0, .vbcast 0 1 0 0 3 0 1 0 1, .viota 0 1 0x3FFE 3 1 0 1, .vcvt 0 5 4 1 1 0 6,
    .vperm 0 3 1 4 1 0 1, .vzip 0 4 1 2 1 0 1, .vunzip 0 4 6 1 0 1, .vslide 0 1 3 1 2 1 0 1, .vgath 0 0 0 3 1 2 1 0 1,
    .vscat 0 0 0 3 1 2 1 0 1, .vpopc 0 1 0 1 1 0 1, .mpush 0 0 1 2 1 1, .minv 0, .mpop 0, .exts 0 0 1 8 1 12, .vrsum 0 1 1 1 0 5, .vrmax 0 1 1 1 0 5,
    .vrmin 0 1 1 1 0 1]
def vectors32 : List Instr := [.vexp2 0 3 1 1 0 14, .vlog2 0 3 1 1 0 14, .vrcpa 0 3 1 1 0 14, .vrsqa 0 3 1 1 0 14, .vdraw 0 0 0 3 1 2 0 1 0 14,
    .vdmerge 0 0 4 1 2 3, .selinit 0 1 1 0 3 14, .selfeed 0 1 1 1 0 3, .seldrain 0 0 4 1, .selmrg 0 0 1 3]

/-- VectorInstructionsComplete: 8-bit elements. -/
theorem witness_vectors_8 : each1 vectors8
    (fun i => vectorReady i (vectors (xRegs 8 2 [1, 2] [3, 4] [5, 6]) { ty := 3, k := 2, dir := false, mass := false, beta := 0 })) = true := by decide +kernel

/-- VectorInstructionsComplete: the other widths. -/
theorem witness_vectors_32 : each1 vectors32
    (fun i => vectorReady i (vectors (xRegs 32 2 [0x3F800000, 0x40000000] [0, 0, 0, 0, 0x7F800000] [])
      { ty := 3, k := 2, dir := false, mass := false, beta := 0 })) = true
    ∧ each1 [.vdotq 0 2 3 1 2 1 0 5, .vl2q 0 2 3 1 2 1 0 5] (fun i => vectorReady i (vectors (xv 32 2 []) default)) = true
    ∧ vectorReady (.vnib 0 4 1 1 0 4) (vectors (xv 4 2 []) default) = true ∧ vectorReady (.vbmp 0 0 0 3 1 1 0 2) (vectors (xv 16 2 []) default) = true := by
  decide +kernel

/-- Whether a vector instruction acts and has a value that a function names. -/
def valued (f : State → XSem → Instr → Bool) (s : State) (i : Instr) : Bool :=
  vectorReady i s && ((vectorInstr s i).any fun v => f s v.2 i)

/-- ElementwiseValues and VectorGroupResults: each instruction that they name acts in some state, its result named. -/
theorem witness_values :
    let s8 := vectors (xRegs 8 2 [1, 2] [3, 4] [5, 6]) { ty := 3, k := 2, dir := false, mass := false, beta := 0 }
    let s32 := vectors (xRegs 32 2 [0x3F800000, 0x40000000] [0, 0, 0, 0, 0x7F800000] []) { ty := 3, k := 2, dir := false, mass := false, beta := 0 }
    let element := valued fun s x i => (elementResult s (x.sources s) i).isSome
    let group := valued fun s x i => (groupResult s x i).isSome
    let reduce := valued fun s x i => (reduceResult s x i).isSome
    let select := valued fun s x i => (selectResult s x i).isSome
    (vectors8.take 20 |>.all (element s8)) = true ∧ [.vbcast 0 1 0 0 3 0 1 0 1, .viota 0 1 0x3FFE 3 1 0 1].all (element s8) = true
    ∧ (vectors32.take 4).all (element s32) = true
    ∧ [.vcvt 0 5 4 1 1 0 6, .vperm 0 3 1 4 1 0 1, .vzip 0 4 1 2 1 0 1, .vunzip 0 4 6 1 0 1, .vslide 0 1 3 1 2 1 0 1, .vgath 0 0 0 3 1 2 1 0 1,
        .vscat 0 0 0 3 1 2 1 0 1].all (group s8) = true
    ∧ [.vdraw 0 0 0 3 1 2 0 1 0 14, .vdmerge 0 0 4 1 2 3, .seldrain 0 0 4 1].all (group s32) = true
    ∧ [.vdotq 0 2 3 1 2 1 0 5, .vl2q 0 2 3 1 2 1 0 5].all (group (vectors (xv 32 2 []) default)) = true
    ∧ group (vectors (xv 4 2 []) default) (.vnib 0 4 1 1 0 4) = true ∧ group (vectors (xv 16 2 []) default) (.vbmp 0 0 0 3 1 1 0 2) = true
    ∧ [.vpopc 0 1 0 1 1 0 1, .vrsum 0 1 1 1 0 5, .vrmax 0 1 1 1 0 5, .vrmin 0 1 1 1 0 1].all (reduce s8) = true
    ∧ [.selinit 0 1 1 0 3 14, .selfeed 0 1 1 1 0 3, .selmrg 0 0 1 3].all (select s32) = true
    ∧ vectorReady (.vmovTerm 0 40 0) s8 = true := by decide +kernel

/-- MasksAndExtentsResults: each instruction, EXTS at its greatest value. -/
theorem witness_masks :
    let s := vectors (xRegs 8 2 [1, 2] [3, 4] [5, 6]) default
    vectorReady (.mpush 0 0 1 2 1 1) s = true ∧ Ready (.minv 0) .X 0 {} s = true ∧ Ready (.mpop 0) .X 0 {} s = true ∧ s.ctx.xu.masks = [5, 7]
    ∧ Ready (.exts 0 0 1 1536 1 12) .X 0 {} s = true ∧ (1536 : Nat) ≤ 6 * (4096 / typeBits 12) ∧ Ready (.bmz 0 5) .X 0 {} s = true := by decide +kernel

/-- A sequencer at word 0 whose body is the two words `b`, and X at its start or inside it. -/
def looperOf (b : List (BitVec 32)) (prog : Option Prog) : State :=
  let s := (unit0 (xRegs 8 2 [1, 2] [3, 4] [5, 6])).modCtx fun c => { c with x := { c.x with prog } }
  { s with cores := s.cores.map fun e =>
      (e.1, { e.2 with imem := ((encode (.mloop 0 1 1 4) ++ b ++ encode (.nop .X 0)).zipIdx).map fun w => (w.2, w.1), marks := [0, 2, 4, 5] }) }

/-- The body one VADD. -/
def looper (prog : Option Prog) : State := looperOf (encode (.vadd 0 0 3 1 2 1 0 1)) prog

/-- What the first instruction of a body leaves: true when it acts, false when it traps. -/
def bodyStep (s : State) : Option Bool :=
  match s.body 4 with
  | .ok l =>
    match (l.filter (·.ins.isSome))[0]? with
    | some w => (match w.ins.bind (bodyInstr s) with
      | some (q, x) => (match issueBody q x s with | .ok _ => some true | .error (.trap _ _ _, _) => some false | .error _ => none)
      | none => none)
    | none => none
  | .error _ => none

/-- The first word of a body, whether it is illegal, and how many there are. -/
def bodyHead (s : State) : Option (Nat × Option Nat × Nat) :=
  match s.body 4 with
  | .ok l => (l[0]?).map fun w => (w.len, w.bad, l.length)
  | .error _ => none

/-- The first n words of X in a body of `endo` words are legal and allowed; whether the next one is legal, and whether it is allowed. -/
def bodyEdge (s : State) (endo n : Nat) : Option (Bool × Bool) :=
  let read := fun (b : Nat) => match decode (s.cc.imem.get 0 b) (s.cc.imem.get 0 (b + 1)) with
    | .ok k => (decide (encodingCauseAt k s.cc b = none), (bodyInstr s k).isSome)
    | .error _ => (false, false)
  let xs := s.wordsOfX (s.ctx.x.pc + endo) endo (s.ctx.x.pc + 2)
  if ((xs.take n).map read).all fun r => r.1 && r.2 then (xs[n]?).map read else none

/-- A body of 65 instructions, in a text of 256 words. -/
def longBody : State :=
  let s := looperOf ((List.replicate 65 (encode (.vadd 0 0 3 1 2 1 0 1))).flatten) none
  { s with cores := s.cores.map fun e => (e.1, { e.2 with marks := [0, 132], work := e.2.work.map fun w => { w with len := 256 } }) }

/-- MloopCompletes: issue; a word walked, an illegal one, and the end of the walk; an instruction of the body, one that traps (its extent is
of another width), and the end of three iterations; a first word that no body may hold, and the 65th of a body of allowed ones. -/
theorem witness_mloop :
    let i : Instr := .mloop 0 1 1 4
    let w : Prog := { stage := 1, data := [3], soft := true, home := some 0 }
    let p : Prog := { stage := 2, count := 2, data := [3], soft := true, home := some 0 }
    let at' := fun (s : State) (q : Prog) => s.cc.runnable .X && decide ((s.ctx.eng .X).prog = some q) && decide (q.home = some s.mloopPc)
    Ready i .X 0 {} (looper none) = true
    ∧ at' (looper (some w)) w = true ∧ bodyHead (looper (some w)) = some (2, none, 1) ∧ (looper (some w)).ctx.slipOk .X 2 = true
    ∧ at' (looperOf [0x83F80000, 0] (some w)) w = true ∧ bodyHead (looperOf [0x83F80000, 0] (some w)) = some (2, some 1, 1)
    ∧ at' (looper (some { w with count := 1 })) { w with count := 1 } = true
    ∧ at' (looper (some p)) p = true ∧ p.count < p.data.headD 0 * 1 ∧ bodyStep (looper (some p)) = some true
    ∧ at' (looperOf (encode (.vadd 0 0 3 1 2 1 0 3)) (some p)) p = true ∧ bodyStep (looperOf (encode (.vadd 0 0 3 1 2 1 0 3)) (some p)) = some false
    ∧ at' (looper (some { p with count := 3 })) { p with count := 3 } = true ∧ p.data.headD 0 * 1 ≤ 3 ∧ (looper (some p)).cc.badPath ≠ some .X
    ∧ Ready i .X 0 {} (looperOf (encode (.done .X 0) ++ encode (.done .X 0)) none) = true
    ∧ bodyEdge (looperOf (encode (.done .X 0) ++ encode (.done .X 0)) none) 4 0 = some (true, false)
    ∧ Ready (.mloop 0 1 1 132) .X 0 {} longBody = true ∧ bodyEdge longBody 132 64 = some (true, true) := by
  decide +kernel

/-! #### The finishing engine -/

/-- A tile that is held, an entry in queue 4 and room in queue 6. -/
def finisher (st : TileState) : State := unit0 { tile5 st with queues := [(4, [entry1])], fu := { ecnt := 3, fp := { bytes := 512 } } }

/-- Whether an instruction of F may act. -/
def finishes (s : State) (i : Instr) : Bool := match finishResult s i with | some (p, n, _) => Ready i .F p n s | none => false

/-- F's instructions, ZCNV and ZRD at the last rows of the tile. -/
def finishers : List Instr := [.zcnv 0 0 5 6 12 0 1 0 1 62, .zcnvTerm 0 6, .zcomp 0 0 6 1, .zcompTerm 0 6, .zclr 0 5, .zrd 0 0 5 6 1 1 62, .fprtTile 0 5,
  .fprtPass 0 0 6 14, .fprtEmit 0 6, .fsqa 0 5 6 1, .fscl 0 0, .fsclRng 0 0, .fmv 0 0 6 3, .fmvTerm 0 6]

/-- FinishInstructionsComplete. -/
theorem witness_finish : each1 finishers (finishes (finisher .held)) = true ∧ finishes (finisher .ready) (.fwait 0 3 5) = true := by decide +kernel

/-- ElementwiseValues, VectorElements: a row of elements. -/
theorem witness_elements : (8 : Nat) ∈ [4, 8, 16, 32, 64] ∧ (List.replicate 512 (5 : Nat)).length = 1 * (4096 / 8)
    ∧ ∀ x ∈ List.replicate 512 5, x < 2 ^ 8 := by decide +kernel

end Sys2Proof.Machine
end

