-- ==== Sys2Proof/Tests/WitnessKv.lean ====
section
/-! SUPPORT. States that meet the hypotheses of the statements about the KV store. -/

namespace Sys2Proof.Machine

set_option Elab.async false

/-! #### The KV store -/

/-- Memory made of doublewords in ascending order. -/
def dwords (l : List (Nat × Nat)) : SMap Byte :=
  (l.map fun e => ((toBytes e.2 8).zipIdx.map fun b => (e.1 + b.2, b.1)).filter fun b => b.2 ≠ 0).flatten

/-- A record at 0x4000 in a state, with its write bound 100, its head and COMMIT, its two chains and its parent; an entry has 2 words, of which one is
the key. Its pool is at 0x5000, its wheel of 8 slots at 0x6000. -/
def kvRecord (va st head commit main copies parent forks depth kids pin : Nat) : List (Nat × Nat) :=
  [(va, 3 + 2 ^ 8 + depth * 2 ^ 36 + st * 2 ^ 40 + 3 * 2 ^ 42), (va + 8, 2 * 2 ^ 38 + 2 ^ 28 + 100), (va + 16, head * 2 ^ 32 + commit), (va + 24, 0x5000),
    (va + 32, 0x6000), (va + 40, main * (2 ^ 32 + 1)), (va + 48, copies * (2 ^ 32 + 1)), (va + 56, parent), (va + 64, forks),
    (va + 72, noBlock * 2 ^ 32 + kids), (va + 80, pin * 2 ^ 32 + commit)]

/-- The pool: pages of 64 slots of 32 bytes from 0x10000, blocks from 0x7000; page 1 and block 0 are free. -/
def kvPool : List (Nat × Nat) := [(0x5000, 0x10000), (0x5008, 0x7000), (0x5010, 1), (0x5018, 32), (0x5020, 2 ^ 32 + 1)]
  ++ ((List.range 8).map fun j => (0x6000 + 8 * j, 2 ^ 64 - 1)) ++ [(0x7000, noBlock * 2 ^ 32)]

/-- Page 0, of the context at 0x4000, its first slot filled with the position 4, an expiry, and data. -/
def kvPage (exp : Nat) : List (Nat × Nat) := [(0x10000, 1), (0x10008, 1), (0x10010, noPage * 2 ^ 32 + noPage), (0x10018, 4), (0x10020, 0x4000),
  (0x10080, exp), (0x10180, 4), (0x10400, 0x0000000B0000000A)]

/-- Core 0 in the plain address space, the record's address in A's g1. -/
def kvState (b c : Word) (mem : List (Nat × Nat)) : State := plain0 (aRegs 0x4000 b c) (dwords mem)

/-- The context of A's instructions there, and that of their rehearsal (R206). -/
def kvd (d : Bool) : Kv := { cl := .coreA 0, part := 0, asid := 0, va := 0x4000, core := true, dry := d }
abbrev kv0 : Kv := kvd false
abbrev kvDry : Kv := kvd true

theorem Gives.val {α : Type} {a : Act α} {s t : State} {v w : α} (h : Gives a s v t) (e : v = w) : Gives a s w t := e ▸ h

/-- The context of a record at 0x4080. -/
def kvParD (d : Bool) : Kv := { kvd d with va := 0x4080 }
abbrev kvPar : Kv := kvParD false

theorem Gives.kvOf {ga : BitVec 5} {s : State} (h : decide ((s.reg .A ga).toNat % 128 ≠ 0) = false) :
    Gives (Machine.kvOf ga) s { cl := .coreA s.cur, part := s.work.part, asid := s.work.asid, va := (s.reg .A ga).toNat, core := true } s := by
  intro u p al
  refine ⟨u, ?_, p, al⟩
  change ((Machine.trapIf (decide ((u.reg .A ga).toNat % 128 ≠ 0)) 6 1) >>= fun _ =>
    (Pure.pure ({ cl := .coreA u.cur, part := u.work.part, asid := u.work.asid, va := (u.reg .A ga).toNat, core := true } : Kv) : Act Kv)) u = _
  rw [al.reg, h, al.cur, al.curWork]
  rfl

/-- The state in which the instruction acts: its record, its pool, and the tables of the plain address space. -/
def kvAt (s : State) : State := s.issued .A 0 {} 2

/-- What an instruction of A on the context at 0x4000 needs to go on. -/
def kvCheck (s : State) : Bool :=
  (kvAt s).plainCheck && !s.work.spec && s.work.replay.isNone && decide (((kvAt s).reg .A 1).toNat = 0x4000) && decide ((kvAt s).cur = 0)
    && decide ((kvAt s).work.part = 0) && decide ((kvAt s).work.asid = 0) && kv0.reach (kvAt s)

theorem kvWritable_gives {s : State} (h : kvCheck s = true) : Gives (Machine.kvWritable 1) (kvAt s) kv0 (kvAt s) ∧ Gives (Machine.kvOf 1) (kvAt s) kv0 (kvAt s) := by
  simp only [kvCheck, Bool.and_eq_true, decide_eq_true_eq, Bool.not_eq_true', Option.isNone_iff_eq_none] at h
  obtain ⟨⟨⟨⟨⟨⟨⟨h1, -⟩, -⟩, h4⟩, h5⟩, h6⟩, h7⟩, h8⟩ := h
  have hx : Gives (Machine.kvOf 1) (kvAt s) kv0 (kvAt s) := by
    have := Gives.kvOf (ga := 1) (s := kvAt s) (by rw [h4]; rfl)
    rw [h4, h5, h6, h7] at this
    exact this
  simp only [Kv.reach, Bool.and_eq_true] at h8
  exact ⟨hx.bind ((Gives.key 128 h8.1.1.1 (by decide)).bind (Gives.pure _ _)), hx⟩

/-! What a rehearsal meets (R206): no translation that fails. -/

/-- In no plain state alike to s, where nothing has been filled yet, does the act meet a translation that fails; and it fills nothing. -/
def Calm {α : Type} (a : Act α) (s : State) : Prop :=
  ∀ u, Plain u → Alike s u → (∃ v w, a u = .ok (v, w) ∧ w.fills = []) ∨
    ∃ x, a u = .error (x, []) ∧ (∀ c l acc va n, x ≠ .xlate c l acc va n) ∧ ∀ l acc va, x ≠ .migrate l acc va

theorem Calm.gives {α : Type} {a : Act α} {s t : State} {v : α} (h : Gives a s v t) (hf : t.fills = []) : Calm a s := by
  intro u p al
  obtain ⟨w, e, -, aw⟩ := h u p al
  exact .inl ⟨v, w, e, aw.fills.trans hf⟩

theorem Calm.bind {α β : Type} {a : Act α} {f : α → Act β} {s t : State} {v : α} (h : Gives a s v t) (g : Calm (f v) t) : Calm (a >>= f) s := by
  intro u p al
  obtain ⟨w, e, pw, aw⟩ := h u p al
  rw [Act.bind_ok e]
  exact g w pw aw

/-- The state that an act looks at is some state alike. -/
theorem Calm.get {α : Type} {f : State → Act α} {s : State} (h : ∀ v, Alike s v → Calm (f v) s) : Calm (get >>= f) s := by
  intro u p al
  rw [Act.bind_ok (Act.get_run u)]
  exact h u al u p al

theorem Calm.modify (f : State → State) (s : State) (h : s.fills = []) (hf : ∀ u, (f u).fills = u.fills) : Calm (modify f : Act Unit) s :=
  fun u _ al => .inl ⟨(), f u, rfl, by rw [hf, al.fills, h]⟩

theorem Calm.ite_true {α : Type} {a b : Act α} {c : Prop} [Decidable c] {s : State} (hc : c) (h : Calm a s) : Calm (if c then a else b) s := by
  rwa [if_pos hc]

theorem Calm.ite_false {α : Type} {a b : Act α} {c : Prop} [Decidable c] {s : State} (hc : ¬ c) (h : Calm b s) : Calm (if c then a else b) s := by
  rwa [if_neg hc]

/-- A rehearsal that is calm passes, and leaves the state as it is. -/
theorem Calm.rehearse {α : Type} {act : Kv → Act α} {s t : State} (h : Calm (act kvDry) s) (pt : Plain t) (al : Alike s t) :
    kv0.rehearse act t = .ok ((), t) := by
  have hk : t.keepFills [] = t := by rw [State.keepFills, List.drop_nil]; rfl
  unfold Kv.rehearse
  change (match act kvDry t with
    | .error (.xlate c l acc va n, f) => .error (.xlate c l acc va n, f)
    | .error (.migrate l acc va, f) => .error (.migrate l acc va, f)
    | .error (_, f) => .ok ((), t.keepFills f)
    | .ok (_, v) => .ok ((), t.keepFills v.fills) : Except Stopped (Unit × State)) = _
  obtain ⟨v, w, e, hw⟩ | ⟨x, e, h1, h2⟩ := h t pt al
  · rw [e]
    simp only [hw, hk]
  · rw [e]
    cases x <;> first | exact absurd rfl (h1 _ _ _ _ _) | exact absurd rfl (h2 _ _ _) | simp only [hk]

/-- A rehearsal goes past causes and waits. -/
theorem Gives.dryFault {s : State} (b : Bool) (n : Nat) : Gives (kvDry.faultIf b n) s () s := by
  have : kvDry.faultIf b n = Pure.pure () := by cases b <;> rfl
  rw [this]
  exact Gives.pure () s

theorem Gives.dryTrap {s : State} (b : Bool) (n : Nat) : Gives (kvDry.trapIf b n) s () s := by
  have : kvDry.trapIf b n = Pure.pure () := by cases b <;> rfl
  rw [this]
  exact Gives.pure () s

theorem Gives.dryWait {s : State} (b : Bool) : Gives (kvDry.waitIf b) s () s := by
  have : kvDry.waitIf b = Pure.pure () := by cases b <;> rfl
  rw [this]
  exact Gives.pure () s

/-- The record is open, or in another of some states. -/
theorem opens_of {α : Type} {s : State} {states : List Nat} (act : Kv → Act α) (h : kvCheck s = true)
    (g : (!kv0.recordBad (kvAt s) && !kv0.poolBad (kvAt s) && states.contains (kv0.fieldIn (kvAt s) fState)) = true)
    (hc : Calm (act kvDry) (kvAt s)) : ∃ u, s.opens 0 1 act states kv0 u ∧ Plain u ∧ Alike (kvAt s) u := by
  have hw := (kvWritable_gives h).1
  simp only [kvCheck, Bool.and_eq_true, Bool.not_eq_true', Option.isNone_iff_eq_none] at h
  obtain ⟨⟨⟨⟨⟨⟨⟨h1, h2⟩, h3⟩, -⟩, -⟩, -⟩, -⟩, h8⟩ := h
  obtain ⟨t, e, pt, at'⟩ := hw.run (Plain.of_check h1) (Alike.refl _)
  obtain ⟨u, e', pu, au⟩ := (Gives.checkOpen h8 g).run pt at'
  exact ⟨u, ⟨h2, h3, t, t, e, hc.rehearse pt at', e'⟩, pu, au⟩

/-- The checks of a record pass in a rehearsal. -/
theorem Gives.dryOpen {s : State} {states : List Nat} (h : kvDry.reach s = true) (g : (!kvDry.recordBad s && !kvDry.poolBad s) = true) :
    Gives (kvDry.checkOpen states) s () s := by
  have hv := h
  simp only [Kv.reach, Bool.and_eq_true, decide_eq_true_eq] at hv
  exact (Gives.checkFormed h g).bind ((Gives.rd (f := fState) hv.1.1.1 (show kvDry.va + 8 * 0 < 2 ^ 30 by omega)).bind (Gives.dryFault _ _))

/-- A field of the record is read. -/
theorem reads {s u : State} {f : RecField} (h : kvCheck s = true) (hf : f.dw ≤ 15) (pu : Plain u) (au : Alike (kvAt s) u) :
    ∃ w, kv0.rd f u = .ok (kv0.fieldIn (kvAt s) f, w) ∧ Plain w ∧ Alike (kvAt s) w := by
  simp only [kvCheck, Kv.reach, Bool.and_eq_true, decide_eq_true_eq] at h
  exact (Gives.rd h.2.1.1.1 (by have := h.2.1.1.2; omega)).run pu au

/-- An open record with COMMIT 3, head 8, no page and no parent; the same with page 0. -/
def kvBare : List (Nat × Nat) := kvRecord 0x4000 1 8 3 noPage noPage 0 0 0 0 0 ++ kvPool
def kvFull (head exp forks kids : Nat) : List (Nat × Nat) := kvRecord 0x4000 1 head 3 0 noPage 0 forks 0 kids 0 ++ kvPool ++ kvPage exp

theorem calm_advance (c : Nat) (hc : c ∈ [3, 5]) : Calm (Kv.advance c kvDry) (kvAt (kvState 5 3 kvBare)) := by
  have hk : kvDry.plainIn (kvAt (kvState 5 3 kvBare)) = true := by decide +kernel
  unfold Kv.advance
  apply Calm.bind (Gives.dryOpen (by decide +kernel) (by decide +kernel))
  apply Calm.bind ((Gives.rd (f := fCommit) hk (by decide)).val (w := 3) (by decide +kernel))
  apply Calm.bind (Gives.dryFault _ _)
  simp only [List.mem_cons, List.not_mem_nil, or_false] at hc
  rcases hc with rfl | rfl
  · exact Calm.ite_false (by decide) (Calm.gives (Gives.pure () _) rfl)
  · apply Calm.ite_true (by decide)
    apply Calm.bind ((Gives.rd (f := fSdie) hk (by decide)).val (w := 0) (by decide +kernel))
    apply Calm.get
    intro v hv
    apply Calm.bind (Gives.dryWait _)
    apply Calm.bind ((Gives.rd (f := fPool) hk (by decide)).val (w := 0x5000) (by decide +kernel))
    apply Calm.bind (Gives.key 64 hk (by decide))
    apply Calm.bind (Gives.wr (f := fCommit) hk (by decide) (by decide +kernel))
    exact Calm.modify _ _ rfl fun _ => rfl

/-- KvPositionsComplete, the advance: from COMMIT 3 to 5, and to 3 itself. -/
theorem witness_kv_advance : ∃ (s u u1 u2 u3 u4 u5 : State) (commit d pool key : Nat), Ready (.kvadv 0 1 2) .A 0 {} s = true
    ∧ s.opens 0 1 (Kv.advance (bits (s.reg .A 2) 31 0)) [1] kv0 u
    ∧ kv0.rd fCommit u = .ok (commit, u1) ∧ commit < bits (s.reg .A 2) 31 0
    ∧ kv0.rd fSdie u1 = .ok (d, u2) ∧ (u2.die d).drains.length < 4096
    ∧ kv0.rd fPool u2 = .ok (pool, u3) ∧ kv0.key pool accRead 64 u3 = .ok (key, u4) ∧ kv0.wr fCommit (bits (s.reg .A 2) 31 0) u4 = .ok ((), u5) := by
  have h : kvCheck (kvState 5 3 kvBare) = true := by decide +kernel
  have hb : bits ((kvState 5 3 kvBare).reg .A 2) 31 0 = 5 := by decide +kernel
  obtain ⟨u, e, pu, au⟩ := opens_of (states := [1]) (Kv.advance 5) h (by decide +kernel) (calm_advance 5 (by decide))
  obtain ⟨u1, e1, p1, a1⟩ := reads (f := fCommit) h (by decide) pu au
  obtain ⟨u2, e2, p2, a2⟩ := reads (f := fSdie) h (by decide) p1 a1
  obtain ⟨u3, e3, p3, a3⟩ := reads (f := fPool) h (by decide) p2 a2
  have hp : kv0.fieldIn (kvAt (kvState 5 3 kvBare)) fPool < 2 ^ 30 := by decide +kernel
  obtain ⟨u4, e4, p4, a4⟩ := (Gives.key (x := kv0) (acc := accRead) 64 (by decide +kernel) hp).run p3 a3
  obtain ⟨u5, e5, -⟩ := (Gives.wr (x := kv0) (f := fCommit) (v := 5) (by decide +kernel) (by decide +kernel) (by decide +kernel)).run p4 a4
  refine ⟨kvState 5 3 kvBare, u, u1, u2, u3, u4, u5, _, _, _, _, by decide +kernel, by rw [hb]; exact e, e1, by decide +kernel, e2, ?_, e3, e4, by rw [hb]; exact e5⟩
  rw [a2.die]
  have hd : ((kvAt (kvState 5 3 kvBare)).die 0).drains.length < 4096 := by decide +kernel
  exact hd

theorem witness_kv_advance_same : ∃ (s u u1 : State), Ready (.kvadv 0 1 3) .A 0 {} s = true ∧ s.opens 0 1 (Kv.advance (bits (s.reg .A 3) 31 0)) [1] kv0 u
    ∧ kv0.rd fCommit u = .ok (bits (s.reg .A 3) 31 0, u1) := by
  have h : kvCheck (kvState 5 3 kvBare) = true := by decide +kernel
  have hb : bits ((kvState 5 3 kvBare).reg .A 3) 31 0 = 3 := by decide +kernel
  have hf : kv0.fieldIn (kvAt (kvState 5 3 kvBare)) fCommit = 3 := by decide +kernel
  obtain ⟨u, e, pu, au⟩ := opens_of (states := [1]) (Kv.advance 3) h (by decide +kernel) (calm_advance 3 (by decide))
  obtain ⟨u1, e1, -⟩ := reads (f := fCommit) h (by decide) pu au
  exact ⟨kvState 5 3 kvBare, u, u1, by decide +kernel, by rw [hb]; exact e, by rw [hb, ← hf]; exact e1⟩

theorem Gives.hd {x : Kv} {s : State} (h : x.plainIn s = true) (hv : x.va + 16 < 2 ^ 30) :
    Gives x.hd s (if x.fieldIn s fHead = 0xFFFFFFFF then -1 else (x.fieldIn s fHead : Int)) s :=
  (Gives.rd (f := fHead) h (show x.va + 8 * 2 < 2 ^ 30 by omega)).bind (Gives.pure _ _)

/-- Nothing lies above h: the tail has no page, or its last entry is at or below h. -/
theorem Gives.rewound {x : Kv} {s : State} {h n : Nat} (hn : n ≠ 0) (hp : x.plainIn s = true) (hv : x.va + 128 < 2 ^ 30) (he : x.fieldIn s fPtail = noPage) :
    Gives (x.rewind h n) s () s := by
  obtain ⟨n, rfl⟩ := Nat.exists_eq_succ_of_ne_zero hn
  rw [Kv.rewind]
  refine (Gives.rd (f := fPtail) hp (show x.va + 8 * 5 < 2 ^ 30 by omega)).bind (Gives.ite_true he (Gives.pure () s))

theorem calm_rewind (c : Nat) (hc : c ∈ [8, 5]) : Calm (Kv.rewindTo c kvDry) (kvAt (kvState 5 8 kvBare)) := by
  have hk : kvDry.plainIn (kvAt (kvState 5 8 kvBare)) = true := by decide +kernel
  unfold Kv.rewindTo
  apply Calm.bind (Gives.dryOpen (by decide +kernel) (by decide +kernel))
  apply Calm.bind (Gives.rd (f := fCommit) hk (by decide))
  apply Calm.bind (Gives.dryFault _ _)
  apply Calm.bind ((Gives.hd hk (by decide)).val (w := 8) (by decide +kernel))
  simp only [List.mem_cons, List.not_mem_nil, or_false] at hc
  rcases hc with rfl | rfl
  · exact Calm.ite_false (by decide) (Calm.gives (Gives.pure () _) rfl)
  · apply Calm.ite_true (by decide)
    apply Calm.bind (Gives.rd (f := fPin) hk (by decide))
    apply Calm.bind (Gives.dryWait _)
    apply Calm.bind (Gives.rewound (by decide) hk (by decide) (by decide +kernel))
    exact Calm.gives (Gives.wr (f := fHead) hk (by decide) (by decide +kernel)) rfl

/-- KvPositionsComplete, the rewind: to 8, the head itself, and below it, to 5. -/
theorem witness_kv_rewind_head : ∃ (s u u1 u2 : State) (commit : Nat) (hd : Int), Ready (.kvrwd 0 1 3) .A 0 {} s = true
    ∧ s.opens 0 1 (Kv.rewindTo (bits (s.reg .A 3) 31 0)) [1] kv0 u ∧ kv0.rd fCommit u = .ok (commit, u1)
    ∧ commit ≤ bits (s.reg .A 3) 31 0 ∧ kv0.hd u1 = .ok (hd, u2) ∧ hd ≤ bits (s.reg .A 3) 31 0 := by
  have h : kvCheck (kvState 5 8 kvBare) = true := by decide +kernel
  have hb : bits ((kvState 5 8 kvBare).reg .A 3) 31 0 = 8 := by decide +kernel
  obtain ⟨u, e, pu, au⟩ := opens_of (states := [1]) (Kv.rewindTo 8) h (by decide +kernel) (calm_rewind 8 (by decide))
  obtain ⟨u1, e1, p1, a1⟩ := reads (f := fCommit) h (by decide) pu au
  obtain ⟨u2, e2, -⟩ := (Gives.hd (x := kv0) (by decide +kernel) (by decide +kernel)).run p1 a1
  exact ⟨kvState 5 8 kvBare, u, u1, u2, _, _, by decide +kernel, by rw [hb]; exact e, e1, by decide +kernel, e2, by decide +kernel⟩

theorem witness_kv_rewind : ∃ (s u u1 u2 u3 u4 u5 : State) (commit : Nat) (hd : Int), Ready (.kvrwd 0 1 2) .A 0 {} s = true
    ∧ s.opens 0 1 (Kv.rewindTo (bits (s.reg .A 2) 31 0)) [1] kv0 u ∧ kv0.rd fCommit u = .ok (commit, u1) ∧ commit ≤ bits (s.reg .A 2) 31 0
    ∧ kv0.hd u1 = .ok (hd, u2) ∧ (bits (s.reg .A 2) 31 0 : Int) < hd
    ∧ kv0.rd fPin u2 = .ok (0, u3) ∧ kv0.rewind (bits (s.reg .A 2) 31 0) (2 ^ 32) u3 = .ok ((), u4) ∧ kv0.wr fHead (bits (s.reg .A 2) 31 0) u4 = .ok ((), u5) := by
  have h : kvCheck (kvState 5 8 kvBare) = true := by decide +kernel
  have hb : bits ((kvState 5 8 kvBare).reg .A 2) 31 0 = 5 := by decide +kernel
  obtain ⟨u, e, pu, au⟩ := opens_of (states := [1]) (Kv.rewindTo 5) h (by decide +kernel) (calm_rewind 5 (by decide))
  obtain ⟨u1, e1, p1, a1⟩ := reads (f := fCommit) h (by decide) pu au
  obtain ⟨u2, e2, p2, a2⟩ := (Gives.hd (x := kv0) (by decide +kernel) (by decide +kernel)).run p1 a1
  obtain ⟨u3, e3, p3, a3⟩ := reads (f := fPin) h (by decide) p2 a2
  obtain ⟨u4, e4, p4, a4⟩ := (Gives.rewound (x := kv0) (h := 5) (n := 2 ^ 32) (by decide) (by decide +kernel) (by decide +kernel) (by decide +kernel)).run p3 a3
  obtain ⟨u5, e5, -⟩ := (Gives.wr (x := kv0) (f := fHead) (v := 5) (by decide +kernel) (by decide +kernel) (by decide +kernel)).run p4 a4
  have hp : kv0.fieldIn (kvAt (kvState 5 8 kvBare)) fPin = 0 := by decide +kernel
  rw [hp] at e3
  exact ⟨kvState 5 8 kvBare, u, u1, u2, u3, u4, u5, _, _, by decide +kernel, by rw [hb]; exact e, e1, by decide +kernel, e2, by decide +kernel,
    e3, by rw [hb]; exact e4, by rw [hb]; exact e5⟩

theorem Gives.page {x : Kv} {s : State} {pg : Nat} (h : x.reach s = true) :
    Gives (x.page pg) s (s.readM (x.fieldIn s fPool) 8 + pg * (1024 + 64 * fieldOf (s.readM (x.fieldIn s fPool + 24) 8) 15 0)) s := by
  simp only [Kv.reach, Bool.and_eq_true, decide_eq_true_eq] at h
  obtain ⟨⟨⟨h1, h2⟩, h3⟩, h4⟩ := h
  have hr : Gives (x.rd fPool) s (x.fieldIn s fPool) s := Gives.rd h1 (show x.va + 8 * 3 < 2 ^ 30 by omega)
  exact hr.bind ((Gives.load h1 (by omega)).bind ((Gives.field h1 (by omega)).bind (Gives.pure _ _)))

theorem Gives.count {x : Kv} {s : State} {f : RecField} {d : Int} (h : x.plainIn s = true) (hv : x.va + 8 * f.dw < 2 ^ 30)
    (g : (s.writeN (x.va + 8 * f.dw) 8 (putBits (BitVec.ofNat 64 (s.readM (x.va + 8 * f.dw) 8)) f.hi f.lo
      (((x.fieldIn s f : Nat) + d) % (2 ^ 64 : Int)).toNat).toNat).tables = true) :
    Gives (x.count f d) s () (s.writeN (x.va + 8 * f.dw) 8 (putBits (BitVec.ofNat 64 (s.readM (x.va + 8 * f.dw) 8)) f.hi f.lo
      (((x.fieldIn s f : Nat) + d) % (2 ^ 64 : Int)).toNat).toNat) := (Gives.rd h hv).bind (Gives.wr h hv g)

theorem Gives.slotAddr {x : Kv} {s : State} {pg n : Nat} (h : x.reach s = true) :
    Gives (x.slotAddr pg n) s (s.readM (x.fieldIn s fPool) 8 + pg * (1024 + 64 * fieldOf (s.readM (x.fieldIn s fPool + 24) 8) 15 0) + 0x400
      + n * fieldOf (s.readM (x.fieldIn s fPool + 24) 8) 15 0) s := by
  have hv := h
  simp only [Kv.reach, Bool.and_eq_true, decide_eq_true_eq] at hv
  obtain ⟨⟨⟨h1, h2⟩, h3⟩, h4⟩ := hv
  refine (Gives.page h).bind ?_
  have hr : Gives (x.rd fPool) s (x.fieldIn s fPool) s := Gives.rd h1 (show x.va + 8 * 3 < 2 ^ 30 by omega)
  exact hr.bind ((Gives.field h1 (by omega)).bind (Gives.pure _ _))

/-- The state of a core with page 0 of the context, whose one entry is permanent. -/
def kvPaged : State := kvAt (kvState 0xFFFFFFFF00000005 0 (kvFull 4 permanent 0 0))

/-- A permanent entry joins the tail page, the head becomes its position, and the write is counted. -/
theorem kv_entry (d : Bool) : ∃ t t1 t2, Gives ((kvd d).addEntry fPhead fPtail 5 permanent (List.replicate 8 0)) kvPaged () t ∧ Gives ((kvd d).wr fHead 5) t () t1
    ∧ Gives ((kvd d).count fNwrite 1) t1 () t2 ∧ t2.fills = [] := by
  apply Exists.intro
  apply Exists.intro
  apply Exists.intro
  apply And.intro
  · unfold Kv.addEntry Kv.tailPage Kv.putData
    rw [show List.range ((List.replicate 8 (0 : Byte)).length / 4) = [0, 1] from rfl]
    have hd : Gives ((kvd d).rd fPtail) kvPaged 0 kvPaged := (Gives.rd (by cases d <;> decide +kernel) (by cases d <;> decide +kernel)).val (by cases d <;> decide +kernel)
    have hp : Gives ((kvd d).page 0) kvPaged 0x10000 kvPaged := (Gives.page (by cases d <;> decide +kernel)).val (by cases d <;> decide +kernel)
    have hf : Gives ((kvd d).field (0x10000 + 8) 6 0) kvPaged 1 kvPaged := (Gives.field (by cases d <;> decide +kernel) (by decide)).val (by cases d <;> decide +kernel)
    have ha : Gives ((kvd d).slotAddr 0 1) kvPaged 0x10420 kvPaged := (Gives.slotAddr (by cases d <;> decide +kernel)).val (by cases d <;> decide +kernel)
    apply Gives.bind
    · exact hd.bind (Gives.ite_false (by decide) (hp.bind (hf.bind (Gives.ite_false (by decide) (Gives.pure 0 kvPaged)))))
    apply hp.bind
    apply hf.bind
    apply ha.bind
    apply Gives.bind
    · exact Gives.forCons (Gives.store (by cases d <;> decide +kernel) (by decide) (by cases d <;> decide +kernel)) (Gives.forCons (Gives.store (by cases d <;> decide +kernel) (by decide) (by cases d <;> decide +kernel)) Gives.forNil)
    apply Gives.bind
    · exact Gives.store (by cases d <;> decide +kernel) (by decide) (by cases d <;> decide +kernel)
    apply Gives.bind
    · exact Gives.store (by cases d <;> decide +kernel) (by decide) (by cases d <;> decide +kernel)
    apply Gives.bind
    · exact Gives.setField (by cases d <;> decide +kernel) (by decide) (by cases d <;> decide +kernel)
    apply Gives.bind
    · exact Gives.store (by cases d <;> decide +kernel) (by decide) (by cases d <;> decide +kernel)
    apply Gives.ite_false (by decide)
    change Gives ((kvd d).count fNlive 1) _ () _
    exact Gives.count (x := kvd d) (f := fNlive) (d := 1) (by cases d <;> decide +kernel) (by cases d <;> decide) (by cases d <;> decide +kernel)
  apply And.intro
  · exact Gives.wr (x := (kvd d)) (f := fHead) (v := 5) (by cases d <;> decide +kernel) (by cases d <;> decide +kernel) (by cases d <;> decide +kernel)
  apply And.intro
  · exact Gives.count (x := kvd d) (f := fNwrite) (d := 1) (by cases d <;> decide +kernel) (by cases d <;> decide) (by cases d <;> decide +kernel)
  · rfl

theorem calm_write : Calm (Kv.write 0 5 0xFFFFFFFF kvDry) kvPaged := by
  obtain ⟨k1, k2, k3, g1, g2, g3, hf⟩ := kv_entry true
  have hk : kvDry.plainIn kvPaged = true := by decide +kernel
  unfold Kv.write
  apply Calm.bind (Gives.dryOpen (by decide +kernel) (by decide +kernel))
  apply Calm.bind ((Gives.rd (f := fEw) hk (by decide)).val (w := 2) (by decide +kernel))
  apply Calm.bind (Gives.dryTrap _ _)
  apply Calm.bind (Gives.rd (f := fCommit) hk (by decide))
  apply Calm.bind (Gives.hd hk (by decide))
  apply Calm.bind (Gives.dryFault _ _)
  apply Calm.bind (Gives.rd (f := fRwb) hk (by decide))
  apply Calm.bind (Gives.dryFault _ _)
  apply Calm.bind (Gives.dryFault _ _)
  apply Calm.get
  intro v hv
  have hd : v.ctx.spadBytes 0 (4 * 2) = List.replicate 8 0 := by
    rw [hv.curCtx]
    decide +kernel
  rw [hd]
  exact Calm.bind g1 (Calm.bind g2 (Calm.gives g3 hf))

/-- KvWriteCompletes: a permanent entry of zeros at position 5. -/
theorem witness_kv_write : ∃ (s t u1 u2 u3 u4 u5 u6 u7 u8 : State) (ew commit rwb : Nat) (hd : Int),
    let a := (s.reg .A 3 + (0 : BitVec 18).setWidth 64).toNat
    let w := bits (s.reg .A 2) 31 0
    let life := bits (s.reg .A 2) 63 32
    Ready (.kvw 0 3 1 2 0) .A 0 {} s = true ∧ s.work.replay = none ∧ (s.reg .A 1).toNat % 128 = 0 ∧ a % 16 = 0 ∧
    kvWritable 1 (s.issued .A 0 {} 2) = .ok (kv0, t) ∧ kv0.rehearse (Kv.write a w life) t = .ok ((), t) ∧ kv0.checkOpen [1] t = .ok ((), u1) ∧
    kv0.rd fEw u1 = .ok (ew, u2) ∧ a + 4 * ew ≤ 786432 ∧ kv0.rd fCommit u2 = .ok (commit, u3) ∧ kv0.hd u3 = .ok (hd, u4) ∧
    commit ≤ w ∧ hd < w ∧ kv0.rd fRwb u4 = .ok (rwb, u5) ∧ w - commit < rwb ∧
    life ≠ 0 ∧ (life = 0xFFFFFFFF ∨ w + life ≤ 0xFFFFFFFE) ∧
    kv0.addEntry fPhead fPtail w (if life = 0xFFFFFFFF then 0xFFFFFFFF else w + life) (bytesAt u5.ctx.spad a (4 * ew)) u5 = .ok ((), u6) ∧
    kv0.wr fHead w u6 = .ok ((), u7) ∧ kv0.count fNwrite 1 u7 = .ok ((), u8) := by
  have h : kvCheck (kvState 0xFFFFFFFF00000005 0 (kvFull 4 permanent 0 0)) = true := by decide +kernel
  obtain ⟨k1, k2, k3, g1, g2, g3, -⟩ := kv_entry false
  have hw := (kvWritable_gives h).1
  have hx := h
  simp only [kvCheck, Bool.and_eq_true, Bool.not_eq_true', Option.isNone_iff_eq_none] at hx
  obtain ⟨⟨⟨⟨⟨⟨⟨h1, -⟩, -⟩, -⟩, -⟩, -⟩, -⟩, h8⟩ := hx
  obtain ⟨t, e, pt, at'⟩ := hw.run (Plain.of_check h1) (Alike.refl _)
  obtain ⟨u1, e1, p1, a1⟩ := (Gives.checkOpen (states := [1]) h8 (by decide +kernel)).run pt at'
  obtain ⟨u2, e2, p2, a2⟩ := reads (f := fEw) h (by decide) p1 a1
  obtain ⟨u3, e3, p3, a3⟩ := reads (f := fCommit) h (by decide) p2 a2
  obtain ⟨u4, e4, p4, a4⟩ := (Gives.hd (x := kv0) (by decide +kernel) (by decide +kernel)).run p3 a3
  obtain ⟨u5, e5, p5, a5⟩ := reads (f := fRwb) h (by decide) p4 a4
  obtain ⟨u6, e6, p6, a6⟩ := g1.run p5 a5
  obtain ⟨u7, e7, p7, a7⟩ := g2.run p6 a6
  obtain ⟨u8, e8, -⟩ := g3.run p7 a7
  have hew : kv0.fieldIn (kvAt (kvState 0xFFFFFFFF00000005 0 (kvFull 4 permanent 0 0))) fEw = 2 := by decide +kernel
  have hb : bits ((kvState 0xFFFFFFFF00000005 0 (kvFull 4 permanent 0 0)).reg .A 2) 31 0 = 5 := by decide +kernel
  have hl : bits ((kvState 0xFFFFFFFF00000005 0 (kvFull 4 permanent 0 0)).reg .A 2) 63 32 = 0xFFFFFFFF := by decide +kernel
  have ha : ((kvState 0xFFFFFFFF00000005 0 (kvFull 4 permanent 0 0)).reg .A 3 + (0 : BitVec 18).setWidth 64).toNat = 0 := by decide +kernel
  have hs : bytesAt u5.ctx.spad 0 (4 * 2) = List.replicate 8 0 := by
    have hc : u5.ctx.spad = kvPaged.ctx.spad := congrArg Ctx.spad a5.curCtx
    rw [hc]
    decide +kernel
  refine ⟨kvState 0xFFFFFFFF00000005 0 (kvFull 4 permanent 0 0), t, u1, u2, u3, u4, u5, u6, u7, u8, _, _, _, _, by decide +kernel, by decide +kernel, by decide +kernel, by decide +kernel, e,
    by rw [ha, hb, hl]; exact calm_write.rehearse pt at', e1, e2, by decide +kernel, e3, e4,
    by decide +kernel, by decide +kernel, e5, by decide +kernel, by decide +kernel, by decide +kernel, ?_, ?_, e8⟩
  · rw [hl, hb, ha, hew, hs]
    exact e6
  · rw [hb]
    exact e7

/-! KVRN -/

/-- Page 0 of a pool at 0x10000 is the whole of its chain, and its first slot is live. -/
def Kv.oneSlot (x : Kv) (s : State) (w e : Nat) : Bool :=
  decide (s.readM (x.fieldIn s fPool) 8 = 0x10000) && decide (fieldOf (s.readM 0x10010 8) 23 0 = noPage) && decide (s.readM 0x10000 8 = 1)
    && decide (s.readM 0x10180 4 = w) && decide (s.readM 0x10080 4 = e)

theorem Gives.pageZero {x : Kv} {s : State} {w e : Nat} (h : x.reach s = true) (ha : x.oneSlot s w e = true) : Gives (x.page 0) s 0x10000 s := by
  simp only [Kv.oneSlot, Bool.and_eq_true, decide_eq_true_eq] at ha
  exact (Gives.page h).val (by rw [ha.1.1.1.1]; omega)

theorem Gives.pagesOne {x : Kv} {s : State} {f : RecField} {w e : Nat} (h : x.reach s = true) (hf : f.dw ≤ 15) (hp : x.fieldIn s f = 0) (ha : x.oneSlot s w e = true) :
    Gives (do x.pagesFrom (2 ^ 24) (← x.rd f)) s [0] s := by
  have hv := h
  simp only [Kv.reach, Bool.and_eq_true, decide_eq_true_eq] at hv
  have hx := ha
  simp only [Kv.oneSlot, Bool.and_eq_true, decide_eq_true_eq] at hx
  exact ((Gives.rd hv.1.1.1 (by omega)).val hp).bind (Gives.pagesStep (by decide) (by decide)
    ((Gives.pageZero h ha).bind ((Gives.field hv.1.1.1 (by decide)).val hx.1.1.1.2)) (Gives.pagesEnd (by decide) rfl))

theorem Gives.liveOne {x : Kv} {s : State} {w e : Nat} (h : x.reach s = true) (ha : x.oneSlot s w e = true) :
    Gives (x.liveOf [0]) s [⟨0, 0, w, e⟩] s := by
  have hv := h
  simp only [Kv.reach, Bool.and_eq_true, decide_eq_true_eq] at hv
  have hx := ha
  simp only [Kv.oneSlot, Bool.and_eq_true, decide_eq_true_eq] at hx
  have h1 := hv.1.1.1
  have hs : Gives (x.liveSlots 0) s [⟨0, 0, w, e⟩] s := by
    unfold Kv.liveSlots
    refine (Gives.pageZero h ha).bind (((Gives.load h1 (by decide)).val hx.1.1.2).bind ?_)
    dsimp only
    rw [show (List.range 64).filter (fun s => (BitVec.ofNat 64 1).getLsbD s) = [0] from by decide +kernel]
    exact Gives.mapCons (((Gives.load h1 (by decide)).val hx.1.2).bind (((Gives.load h1 (by decide)).val hx.2).bind (Gives.pure _ _))) Gives.mapNil
  exact (Gives.mapCons hs Gives.mapNil).bind (Gives.pure _ _)

/-- A chain of no pages. -/
theorem Gives.pagesNone {x : Kv} {s : State} {f : RecField} (h : x.plainIn s = true) (hv : x.va + 8 * f.dw < 2 ^ 30) (hp : x.fieldIn s f = noPage) :
    Gives (do x.pagesFrom (2 ^ 24) (← x.rd f)) s [] s := ((Gives.rd h hv).val hp).bind (Gives.pagesEnd (by decide) rfl)

theorem Gives.liveNone {x : Kv} {s : State} : Gives (x.liveOf []) s [] s := Gives.mapNil.bind (Gives.pure _ _)

theorem Gives.found {x : Kv} {s : State} {w commit : Nat} {k : KvSlot} {l : List Nat} (h : Gives x.mainPages s l s) (g : Gives (x.liveOf l) s [k] s)
    (hk : (k.w = w && commit ≤ k.exp) = true) : Gives (x.find w commit) s (some k) s := by
  unfold Kv.find
  refine h.bind (g.bind ?_)
  simp only [List.find?, hk]
  exact Gives.pure _ _

theorem Gives.notFound {x : Kv} {s : State} {w commit : Nat} (h : Gives x.mainPages s [] s) (g : Gives x.copyPages s [] s) : Gives (x.find w commit) s none s := by
  unfold Kv.find
  refine h.bind (Gives.liveNone.bind ?_)
  simp only [List.find?]
  exact g.bind (Gives.liveNone.bind (Gives.pure _ _))

/-- States for KVRN: the context has an entry at position 4 with an expiry; `b` holds the position and the new expiry. -/
def kvRenew (b : Word) (exp forks kids : Nat) : State := kvState b 0 (kvFull 8 exp forks kids)

theorem kvRenew_found (d : Bool) {b : Word} {exp forks kids : Nat} (h : kvCheck (kvRenew b exp forks kids) = true)
    (g : kv0.fieldIn (kvAt (kvRenew b exp forks kids)) fPhead = 0 ∧ kv0.oneSlot (kvAt (kvRenew b exp forks kids)) 4 exp = true) (he : 3 ≤ exp) :
    Gives ((kvd d).find 4 3) (kvAt (kvRenew b exp forks kids)) (some ⟨0, 0, 4, exp⟩) (kvAt (kvRenew b exp forks kids)) := by
  simp only [kvCheck, Bool.and_eq_true] at h
  exact Gives.found (Gives.pagesOne (f := fPhead) h.2 (by decide) g.1 g.2) (Gives.liveOne h.2 g.2) (by simpa using he)

/-- What KVRN's clauses about an own entry share: the state, the record and what is read of it, the children and the position to which they see. -/
def kvOwn (s u u1 u2 u3 u4 : State) (commit kids lfp : Nat) (y : KvSlot) : Prop :=
  Ready (.kvrn 0 3 1 2) .A 0 {} s = true ∧ s.opens 0 1 (Kv.renew (bits (s.reg .A 2) 31 0) (bits (s.reg .A 2) 63 32)) [1] kv0 u
    ∧ kv0.rd fCommit u = .ok (commit, u1) ∧ commit ≤ bits (s.reg .A 2) 63 32
    ∧ kv0.find (bits (s.reg .A 2) 31 0) commit u1 = .ok (some y, u2) ∧ kv0.rd fKids u2 = .ok (kids, u3) ∧ kv0.rd fLfp u3 = .ok (lfp, u4)

/-- What KVRN does to an own entry that it changes. -/
def renewOwn (e : Nat) : Act Nat := do
  let a ← kvDry.page 0
  kvDry.store (a + 0x80 + 4 * 0) 4 e
  if e ≠ permanent then kvDry.file e (filing e 0 0 (← kvDry.load (a + 0x40 + 0) 1))
  return 0

theorem calm_renew {b : Word} {exp forks kids e : Nat} (h : kvCheck (kvRenew b exp forks kids) = true)
    (g : kv0.fieldIn (kvAt (kvRenew b exp forks kids)) fPhead = 0 ∧ kv0.oneSlot (kvAt (kvRenew b exp forks kids)) 4 exp = true) (he : 3 ≤ exp)
    (ho : (!kv0.recordBad (kvAt (kvRenew b exp forks kids)) && !kv0.poolBad (kvAt (kvRenew b exp forks kids))
      && [1].contains (kv0.fieldIn (kvAt (kvRenew b exp forks kids)) fState)) = true)
    (hf : kv0.fieldIn (kvAt (kvRenew b exp forks kids)) fCommit = 3 ∧ kv0.fieldIn (kvAt (kvRenew b exp forks kids)) fKids = kids
      ∧ kv0.fieldIn (kvAt (kvRenew b exp forks kids)) fLfp = forks)
    (hl : (kids ≠ 0 && decide (4 ≤ forks)) = false → e ≠ exp → Calm (renewOwn e) (kvAt (kvRenew b exp forks kids))) :
    Calm (Kv.renew 4 e kvDry) (kvAt (kvRenew b exp forks kids)) := by
  have hr := h
  simp only [kvCheck, Bool.and_eq_true] at hr
  have hk := hr.2
  simp only [Kv.reach, Bool.and_eq_true] at hk
  simp only [Bool.and_eq_true] at ho
  unfold Kv.renew
  apply Calm.bind (Gives.dryOpen hr.2 (by simp only [Bool.and_eq_true]; exact ho.1))
  apply Calm.bind ((Gives.rd (x := kvDry) (f := fCommit) hk.1.1.1 (by decide)).val hf.1)
  apply Calm.bind (Gives.dryFault _ _)
  apply Calm.bind (kvRenew_found true h g he)
  apply Calm.bind ((Gives.rd (x := kvDry) (f := fKids) hk.1.1.1 (by decide)).val hf.2.1)
  apply Calm.bind ((Gives.rd (x := kvDry) (f := fLfp) hk.1.1.1 (by decide)).val hf.2.2)
  by_cases c1 : (kids ≠ 0 && decide (4 ≤ forks)) = true
  · exact Calm.ite_true c1 (Calm.gives (Gives.pure 2 _) rfl)
  · apply Calm.ite_false c1
    by_cases c2 : e = exp
    · exact Calm.ite_true c2 (Calm.gives (Gives.pure 0 _) rfl)
    · exact Calm.ite_false c2 (hl (Bool.not_eq_true _ ▸ c1) c2)

theorem kvOwn_of {b : Word} {exp forks kids e : Nat} (h : kvCheck (kvRenew b exp forks kids) = true)
    (g : kv0.fieldIn (kvAt (kvRenew b exp forks kids)) fPhead = 0 ∧ kv0.oneSlot (kvAt (kvRenew b exp forks kids)) 4 exp = true) (he : 3 ≤ exp)
    (ho : (!kv0.recordBad (kvAt (kvRenew b exp forks kids)) && !kv0.poolBad (kvAt (kvRenew b exp forks kids))
      && [1].contains (kv0.fieldIn (kvAt (kvRenew b exp forks kids)) fState)) = true)
    (hr : Ready (.kvrn 0 3 1 2) .A 0 {} (kvRenew b exp forks kids) = true) (hb : bits ((kvRenew b exp forks kids).reg .A 2) 31 0 = 4)
    (hx : bits ((kvRenew b exp forks kids).reg .A 2) 63 32 = e ∧ 3 ≤ e)
    (hf : kv0.fieldIn (kvAt (kvRenew b exp forks kids)) fCommit = 3 ∧ kv0.fieldIn (kvAt (kvRenew b exp forks kids)) fKids = kids
      ∧ kv0.fieldIn (kvAt (kvRenew b exp forks kids)) fLfp = forks)
    (hl : (kids ≠ 0 && decide (4 ≤ forks)) = false → e ≠ exp → Calm (renewOwn e) (kvAt (kvRenew b exp forks kids))) :
    ∃ u u1 u2 u3 u4, kvOwn (kvRenew b exp forks kids) u u1 u2 u3 u4 3 kids forks ⟨0, 0, 4, exp⟩ ∧ Plain u4 ∧ Alike (kvAt (kvRenew b exp forks kids)) u4 := by
  obtain ⟨u, e0, pu, au⟩ := opens_of (states := [1]) (Kv.renew 4 e) h ho (calm_renew h g he ho hf hl)
  obtain ⟨u1, e1, p1, a1⟩ := reads (f := fCommit) h (by decide) pu au
  obtain ⟨u2, e2, p2, a2⟩ := (kvRenew_found false h g he).run p1 a1
  obtain ⟨u3, e3, p3, a3⟩ := reads (f := fKids) h (by decide) p2 a2
  obtain ⟨u4, e4, p4, a4⟩ := reads (f := fLfp) h (by decide) p3 a3
  rw [hf.1] at e1
  rw [hf.2.1] at e3
  rw [hf.2.2] at e4
  exact ⟨u, u1, u2, u3, u4, ⟨hr, by rw [hb, hx.1]; exact e0, e1, by rw [hx.1]; exact hx.2, by rw [hb]; exact e2, e3, e4⟩, p4, a4⟩

/-- KvRenewCompletes: an own entry that children see is refused. -/
theorem witness_kv_renew_seen : ∃ (s u u1 u2 u3 u4 : State) (commit kids lfp : Nat) (y : KvSlot),
    kvOwn s u u1 u2 u3 u4 commit kids lfp y ∧ kids ≠ 0 ∧ bits (s.reg .A 2) 31 0 ≤ lfp := by
  obtain ⟨u, u1, u2, u3, u4, e, -⟩ := kvOwn_of (b := 0x0000000C00000004) (exp := 9) (forks := 4) (kids := 1) (e := 12) (by decide +kernel) (by decide +kernel) (by decide)
    (by decide +kernel) (by decide +kernel) (by decide +kernel) (by decide +kernel) (by decide +kernel) (fun c => absurd c (by decide))
  exact ⟨_, u, u1, u2, u3, u4, _, _, _, _, e, by decide, by decide +kernel⟩

/-- The same: the expiry is the entry's own. -/
theorem witness_kv_renew_same : ∃ (s u u1 u2 u3 u4 : State) (commit kids lfp : Nat) (y : KvSlot),
    kvOwn s u u1 u2 u3 u4 commit kids lfp y ∧ (kids = 0 ∨ lfp < bits (s.reg .A 2) 31 0) ∧ bits (s.reg .A 2) 63 32 = y.exp := by
  obtain ⟨u, u1, u2, u3, u4, e, -⟩ := kvOwn_of (b := 0x0000000900000004) (exp := 9) (forks := 3) (kids := 1) (e := 9) (by decide +kernel) (by decide +kernel) (by decide)
    (by decide +kernel) (by decide +kernel) (by decide +kernel) (by decide +kernel) (by decide +kernel) (fun _ c => absurd rfl c)
  exact ⟨_, u, u1, u2, u3, u4, _, _, _, _, e, by decide +kernel, by decide +kernel⟩

theorem calm_permanent : Calm (renewOwn 0xFFFFFFFF) (kvAt (kvRenew 0xFFFFFFFF00000004 9 0 0)) := by
  unfold renewOwn
  apply Calm.bind ((Gives.page (x := kvDry) (pg := 0) (by decide +kernel)).val (w := 0x10000) (by decide +kernel))
  apply Calm.bind (Gives.store (by decide +kernel) (by decide) (by decide +kernel))
  exact Calm.ite_false (by decide) (Calm.gives (Gives.pure 0 _) rfl)

/-- The same: the entry becomes permanent. -/
theorem witness_kv_renew_permanent : ∃ (s u u1 u2 u3 u4 u5 u6 : State) (commit kids lfp a : Nat) (y : KvSlot),
    kvOwn s u u1 u2 u3 u4 commit kids lfp y ∧ (kids = 0 ∨ lfp < bits (s.reg .A 2) 31 0) ∧ bits (s.reg .A 2) 63 32 ≠ y.exp ∧ kv0.page y.pg u4 = .ok (a, u5)
    ∧ kv0.store (a + 0x80 + 4 * y.s) 4 (bits (s.reg .A 2) 63 32) u5 = .ok ((), u6) ∧ bits (s.reg .A 2) 63 32 = 0xFFFFFFFF := by
  obtain ⟨u, u1, u2, u3, u4, e, p4, a4⟩ := kvOwn_of (b := 0xFFFFFFFF00000004) (exp := 9) (forks := 0) (kids := 0) (e := 0xFFFFFFFF) (by decide +kernel) (by decide +kernel) (by decide)
    (by decide +kernel) (by decide +kernel) (by decide +kernel) (by decide +kernel) (by decide +kernel) (fun _ _ => calm_permanent)
  have hx : bits ((kvRenew 0xFFFFFFFF00000004 9 0 0).reg .A 2) 63 32 = 0xFFFFFFFF := by decide +kernel
  obtain ⟨u5, e5, p5, a5⟩ := ((Gives.page (x := kv0) (pg := 0) (by decide +kernel)).val (w := 0x10000) (by decide +kernel)).run p4 a4
  obtain ⟨u6, e6, -⟩ := (Gives.store (x := kv0) (va := 0x10080) (n := 4) (v := 0xFFFFFFFF) (by decide +kernel) (by decide) (by decide +kernel)).run p5 a5
  exact ⟨_, u, u1, u2, u3, u4, u5, u6, _, _, _, 0x10000, _, e, .inl rfl, by rw [hx]; decide, e5, by rw [hx]; exact e6, hx⟩

/-- A record of an entry joins an empty wheel slot, which takes a block of the pool. -/
theorem kv_file (d : Bool) : ∃ t, Gives ((kvd d).file 12 (12 * 2 ^ 32)) ((kvAt (kvRenew 0x0000000C00000004 9 0 0)).writeN 0x10080 4 12) () t ∧ t.fills = [] := by
  apply Exists.intro
  apply And.intro
  · unfold Kv.file Kv.slotHead Kv.allocBlock
    have hk : (kvd d).plainIn ((kvAt (kvRenew 0x0000000C00000004 9 0 0)).writeN 0x10080 4 12) = true := by cases d <;> decide +kernel
    apply Gives.bind
    · exact ((Gives.rd hk (by cases d <;> decide)).val (w := 0x6000) (by cases d <;> decide +kernel)).bind (((Gives.rd hk (by cases d <;> decide)).val (w := 3) (by cases d <;> decide +kernel)).bind (Gives.pure 0x6020 _))
    apply ((Gives.field hk (by decide)).val (w := noBlock) (by cases d <;> decide +kernel)).bind
    apply ((Gives.field hk (by decide)).val (w := noBlock) (by cases d <;> decide +kernel)).bind
    apply Gives.bind
    · exact Gives.pure ([] : List Nat) _
    apply Gives.ite_false (by decide)
    apply Gives.bind
    · apply ((Gives.rd hk (by cases d <;> decide)).val (w := 0x5000) (by cases d <;> decide +kernel)).bind
      apply ((Gives.field hk (by decide)).val (w := 0) (by cases d <;> decide +kernel)).bind
      apply Gives.ite_false (by decide)
      have hb : Gives ((kvd d).block 0) ((kvAt (kvRenew 0x0000000C00000004 9 0 0)).writeN 0x10080 4 12) 0x7000 ((kvAt (kvRenew 0x0000000C00000004 9 0 0)).writeN 0x10080 4 12) :=
        ((Gives.rd hk (by cases d <;> decide)).val (w := 0x5000) (by cases d <;> decide +kernel)).bind (((Gives.load hk (by decide)).val (w := 0x7000) (by cases d <;> decide +kernel)).bind (Gives.pure _ _))
      apply Gives.bind
      · exact hb.bind ((Gives.field hk (by decide)).val (w := noBlock) (by cases d <;> decide +kernel))
      apply Gives.bind
      · exact Gives.setField hk (by decide) (by cases d <;> decide +kernel)
      apply ((Gives.field (by cases d <;> decide +kernel) (by decide)).val (w := 1) (by cases d <;> decide +kernel)).bind
      apply Gives.bind
      · exact Gives.setField (by cases d <;> decide +kernel) (by decide) (by cases d <;> decide +kernel)
      apply Gives.bind
      · exact ((Gives.rd (by cases d <;> decide +kernel) (by cases d <;> decide)).val (w := 0x5000) (by cases d <;> decide +kernel)).bind
          (((Gives.load (by cases d <;> decide +kernel) (by decide)).val (w := 0x7000) (by cases d <;> decide +kernel)).bind (Gives.pure _ _))
      apply Gives.bind
      · exact Gives.store (by cases d <;> decide +kernel) (by decide) (by cases d <;> decide +kernel)
      exact Gives.pure _ _
    unfold Kv.setBlock Kv.block
    apply Gives.bind
    · apply Gives.bind
      · exact ((Gives.rd (by cases d <;> decide +kernel) (by cases d <;> decide)).val (w := 0x5000) (by cases d <;> decide +kernel)).bind
          (((Gives.load (by cases d <;> decide +kernel) (by decide)).val (w := 0x7000) (by cases d <;> decide +kernel)).bind (Gives.pure _ _))
      apply Gives.bind
      · exact Gives.store (by cases d <;> decide +kernel) (by decide) (by cases d <;> decide +kernel)
      exact Gives.forCons (Gives.store (by cases d <;> decide +kernel) (by decide) (by cases d <;> decide +kernel)) Gives.forNil
    apply Gives.ite_true (c := noBlock = noBlock) rfl
    exact Gives.store (by cases d <;> decide +kernel) (by decide) (by cases d <;> decide +kernel)
  · rfl

theorem calm_filed : Calm (renewOwn 12) (kvAt (kvRenew 0x0000000C00000004 9 0 0)) := by
  obtain ⟨t, g, hf⟩ := kv_file true
  unfold renewOwn
  apply Calm.bind ((Gives.page (x := kvDry) (pg := 0) (by decide +kernel)).val (w := 0x10000) (by decide +kernel))
  apply Calm.bind (Gives.store (by decide +kernel) (by decide) (by decide +kernel))
  apply Calm.ite_true (by decide)
  apply Calm.bind ((Gives.load (x := kvDry) (va := 0x10040) (n := 1) (by decide +kernel) (by decide)).val (w := 0) (by decide +kernel))
  exact Calm.bind g (Calm.gives (Gives.pure 0 _) hf)

/-- The same: the entry is filed again under a new expiry. -/
theorem witness_kv_renew_filed : ∃ (s u u1 u2 u3 u4 u5 u6 u7 t : State) (commit kids lfp a g : Nat) (y : KvSlot),
    kvOwn s u u1 u2 u3 u4 commit kids lfp y ∧ (kids = 0 ∨ lfp < bits (s.reg .A 2) 31 0) ∧ bits (s.reg .A 2) 63 32 ≠ y.exp ∧ kv0.page y.pg u4 = .ok (a, u5)
    ∧ kv0.store (a + 0x80 + 4 * y.s) 4 (bits (s.reg .A 2) 63 32) u5 = .ok ((), u6) ∧ bits (s.reg .A 2) 63 32 ≠ 0xFFFFFFFF
    ∧ kv0.load (a + 0x40 + y.s) 1 u6 = .ok (g, u7)
    ∧ kv0.file (bits (s.reg .A 2) 63 32) (bits (s.reg .A 2) 63 32 * 2 ^ 32 + y.pg * 256 + y.s * 4 + g % 4) u7 = .ok ((), t) := by
  obtain ⟨u, u1, u2, u3, u4, e, p4, a4⟩ := kvOwn_of (b := 0x0000000C00000004) (exp := 9) (forks := 0) (kids := 0) (e := 12) (by decide +kernel) (by decide +kernel) (by decide)
    (by decide +kernel) (by decide +kernel) (by decide +kernel) (by decide +kernel) (by decide +kernel) (fun _ _ => calm_filed)
  have hx : bits ((kvRenew 0x0000000C00000004 9 0 0).reg .A 2) 63 32 = 12 := by decide +kernel
  obtain ⟨u5, e5, p5, a5⟩ := ((Gives.page (x := kv0) (pg := 0) (by decide +kernel)).val (w := 0x10000) (by decide +kernel)).run p4 a4
  obtain ⟨u6, e6, p6, a6⟩ := (Gives.store (x := kv0) (va := 0x10080) (n := 4) (v := 12) (by decide +kernel) (by decide) (by decide +kernel)).run p5 a5
  obtain ⟨u7, e7, p7, a7⟩ := ((Gives.load (x := kv0) (va := 0x10040) (n := 1) (by decide +kernel) (by decide)).val (w := 0) (by decide +kernel)).run p6 a6
  obtain ⟨t, g, -⟩ := kv_file false
  obtain ⟨u8, e8, -⟩ := g.run p7 a7
  exact ⟨_, u, u1, u2, u3, u4, u5, u6, u7, u8, _, _, _, 0x10000, 0, _, e, .inl rfl, by rw [hx]; decide, e5, by rw [hx]; exact e6, by rw [hx]; decide, e7,
    by rw [hx]; exact e8⟩

/-! #### KVRN of an entry of the parent -/

/-- The child at 0x4000, of depth 1, forked at position 4 from the context at 0x4080, which has page 0, or none; with
page 0 the child has page 1 in its copy chain, no slot of which is live. -/
def kvChild (main : Nat) : List (Nat × Nat) := kvRecord 0x4000 1 4 5 noPage (if main = 0 then 1 else noPage) 0x4080 (4 * 2 ^ 32) 1 0 0
  ++ kvRecord 0x4080 1 8 5 main noPage 0 4 0 1 0 ++ kvPool ++ (if main = 0 then kvPage 9 ++ [(0x10C08, 1), (0x10C10, noPage * 2 ^ 32 + noPage), (0x10C20, 0x4000)] else [])
def kvChildState (main : Nat) : State := kvState 0xFFFFFFFF00000004 0 (kvChild main)

/-- What KVRN's clauses about a parent's entry share. -/
def kvOther (s u u1 u2 u3 t : State) (commit parent f : Nat) : Prop :=
  Ready (.kvrn 0 3 1 2) .A 0 {} s = true ∧ s.opens 0 1 (Kv.renew (bits (s.reg .A 2) 31 0) (bits (s.reg .A 2) 63 32)) [1] kv0 u
    ∧ kv0.rd fCommit u = .ok (commit, u1) ∧ commit ≤ bits (s.reg .A 2) 63 32
    ∧ kv0.find (bits (s.reg .A 2) 31 0) commit u1 = .ok (none, u2) ∧ kv0.rd fParent u2 = .ok (parent, u3) ∧ kv0.rd fForkpos u3 = .ok (f, t)

theorem kvOther_of {main : Nat} (h : kvCheck (kvChildState main) = true)
    (g : Gives (kv0.find 4 5) (kvAt (kvChildState main)) none (kvAt (kvChildState main)))
    (ho : (!kv0.recordBad (kvAt (kvChildState main)) && !kv0.poolBad (kvAt (kvChildState main))
      && [1].contains (kv0.fieldIn (kvAt (kvChildState main)) fState)) = true)
    (hr : Ready (.kvrn 0 3 1 2) .A 0 {} (kvChildState main) = true)
    (hb : bits ((kvChildState main).reg .A 2) 31 0 = 4 ∧ bits ((kvChildState main).reg .A 2) 63 32 = 0xFFFFFFFF)
    (hc : Calm (Kv.renew 4 0xFFFFFFFF kvDry) (kvAt (kvChildState main)))
    (hf : kv0.fieldIn (kvAt (kvChildState main)) fCommit = 5 ∧ kv0.fieldIn (kvAt (kvChildState main)) fParent = 0x4080
      ∧ kv0.fieldIn (kvAt (kvChildState main)) fForkpos = 4) :
    ∃ u u1 u2 u3 t, kvOther (kvChildState main) u u1 u2 u3 t 5 0x4080 4 ∧ Plain t ∧ Alike (kvAt (kvChildState main)) t := by
  obtain ⟨u, e, pu, au⟩ := opens_of (states := [1]) (Kv.renew 4 0xFFFFFFFF) h ho hc
  obtain ⟨u1, e1, p1, a1⟩ := reads (f := fCommit) h (by decide) pu au
  obtain ⟨u2, e2, p2, a2⟩ := g.run p1 a1
  obtain ⟨u3, e3, p3, a3⟩ := reads (f := fParent) h (by decide) p2 a2
  obtain ⟨t, e4, p4, a4⟩ := reads (f := fForkpos) h (by decide) p3 a3
  rw [hf.1] at e1
  rw [hf.2.1] at e3
  rw [hf.2.2] at e4
  exact ⟨u, u1, u2, u3, t, ⟨hr, by rw [hb.1, hb.2]; exact e, e1, by rw [hb.2]; decide, by rw [hb.1]; exact e2, e3, e4⟩, p4, a4⟩

/-- KVRN of no own entry, in a rehearsal: what it goes on with is `rest`. -/
theorem calm_other {s : State} {commit w e parent f : Nat} (h : kv0.reach s = true) (g : (!kv0.recordBad s && !kv0.poolBad s) = true)
    (hf : kv0.fieldIn s fCommit = commit ∧ kv0.fieldIn s fParent = parent ∧ kv0.fieldIn s fForkpos = f) (hn : Gives (kvDry.find w commit) s none s)
    (hl : (parent = 0 || decide (f < w)) = false → Calm (do
      match (← Kv.view { kvDry with va := parent } 65536).1.find? fun k => k.w = w && commit ≤ k.exp with
      | none => return 1
      | some k =>
        kvDry.addEntry fChead fCtail w e (← kvDry.loadData k.addr (← kvDry.rd fEw))
        return 0 : Act Nat) s) (h0 : s.fills = [] := by rfl) : Calm (Kv.renew w e kvDry) s := by
  have hk := h
  simp only [Kv.reach, Bool.and_eq_true] at hk
  unfold Kv.renew
  apply Calm.bind (Gives.dryOpen h g)
  apply Calm.bind ((Gives.rd (x := kvDry) (f := fCommit) hk.1.1.1 (by decide)).val hf.1)
  apply Calm.bind (Gives.dryFault _ _)
  apply Calm.bind hn
  apply Calm.bind ((Gives.rd (x := kvDry) (f := fParent) hk.1.1.1 (by decide)).val hf.2.1)
  apply Calm.bind ((Gives.rd (x := kvDry) (f := fForkpos) hk.1.1.1 (by decide)).val hf.2.2)
  by_cases c : (parent = 0 || decide (f < w)) = true
  · exact Calm.ite_true c (Calm.gives (Gives.pure 1 _) h0)
  · apply Calm.ite_false c
    exact hl (Bool.not_eq_true _ ▸ c)

/-- KvRenewCompletes: no parent. -/
theorem witness_kv_renew_none : ∃ (s u u1 u2 u3 t : State) (commit parent f : Nat),
    Ready (.kvrn 0 3 1 2) .A 0 {} s = true ∧ s.opens 0 1 (Kv.renew (bits (s.reg .A 2) 31 0) (bits (s.reg .A 2) 63 32)) [1] kv0 u
    ∧ kv0.rd fCommit u = .ok (commit, u1) ∧ commit ≤ bits (s.reg .A 2) 63 32
    ∧ kv0.find (bits (s.reg .A 2) 31 0) commit u1 = .ok (none, u2) ∧ kv0.rd fParent u2 = .ok (parent, u3) ∧ kv0.rd fForkpos u3 = .ok (f, t)
    ∧ (parent = 0 ∨ f < bits (s.reg .A 2) 31 0) := by
  have h : kvCheck (kvState 0x0000000300000004 0 kvBare) = true := by decide +kernel
  have hn : ∀ d, Gives ((kvd d).find 4 3) (kvAt (kvState 0x0000000300000004 0 kvBare)) none (kvAt (kvState 0x0000000300000004 0 kvBare)) := fun d =>
    Gives.notFound (Gives.pagesNone (f := fPhead) (by cases d <;> decide +kernel) (by cases d <;> decide) (by cases d <;> decide +kernel))
      (Gives.pagesNone (f := fChead) (by cases d <;> decide +kernel) (by cases d <;> decide) (by cases d <;> decide +kernel))
  have hc : kv0.fieldIn (kvAt (kvState 0x0000000300000004 0 kvBare)) fCommit = 3 := by decide +kernel
  have hb : bits ((kvState 0x0000000300000004 0 kvBare).reg .A 2) 31 0 = 4 := by decide +kernel
  have hx : bits ((kvState 0x0000000300000004 0 kvBare).reg .A 2) 63 32 = 3 := by decide +kernel
  obtain ⟨u, e, pu, au⟩ := opens_of (states := [1]) (Kv.renew 4 3) h (by decide +kernel)
    (calm_other (parent := 0) (f := 0) (by decide +kernel) (by decide +kernel) (by decide +kernel) (hn true) fun c => absurd c (by decide))
  obtain ⟨u1, e1, p1, a1⟩ := reads (f := fCommit) h (by decide) pu au
  obtain ⟨u2, e2, p2, a2⟩ := (hn false).run p1 a1
  obtain ⟨u3, e3, p3, a3⟩ := reads (f := fParent) h (by decide) p2 a2
  obtain ⟨t, e4, -⟩ := reads (f := fForkpos) h (by decide) p3 a3
  exact ⟨kvState 0x0000000300000004 0 kvBare, u, u1, u2, u3, t, _, _, _, by decide +kernel, by rw [hb, hx]; exact e, e1, by decide +kernel,
    by rw [hc, hb]; exact e2, e3, e4, by decide +kernel⟩

/-- The view of a context without a parent. -/
theorem Gives.viewRoot {x : Kv} {s : State} {n : Nat} {a b : List Nat} {l c : List KvSlot} {o p : List KvEntry} (hn : n ≠ 0) (hk : x.plainIn s = true)
    (hv : x.va + 128 < 2 ^ 30) (ha : Gives x.mainPages s a s) (hl : Gives (x.liveOf a) s l s) (ho : Gives (x.entries l) s o s)
    (hb : Gives x.copyPages s b s) (hc : Gives (x.liveOf b) s c s) (hp : Gives (x.entries c) s p s) (h0 : x.fieldIn s fParent = 0) :
    Gives (Kv.view x n) s (o ++ p, [x.va]) s := by
  obtain ⟨n, rfl⟩ := Nat.exists_eq_succ_of_ne_zero hn
  rw [Kv.view]
  refine ha.bind (hl.bind (ho.bind (hb.bind (hc.bind (hp.bind (((Gives.rd (f := fParent) hk (show x.va + 8 * 7 < 2 ^ 30 by omega)).val h0).bind ?_))))))
  exact Gives.ite_true (c := 0 = 0) rfl (Gives.pure _ _)

/-- KvRenewCompletes: the parent has no entry there. -/
theorem witness_kv_renew_parent_none : ∃ (s u u1 u2 u3 t u4 : State) (commit parent f : Nat) (l : List KvEntry × List Nat),
    kvOther s u u1 u2 u3 t commit parent f ∧ parent ≠ 0 ∧ bits (s.reg .A 2) 31 0 ≤ f ∧ Kv.view { kv0 with va := parent } 65536 t = .ok (l, u4)
    ∧ l.1.find? (fun k => k.w = bits (s.reg .A 2) 31 0 && commit ≤ k.exp) = none := by
  have hk : ∀ d, (kvParD d).plainIn (kvAt (kvChildState noPage)) = true := by decide +kernel
  have hn : ∀ d, Gives ((kvd d).find 4 5) (kvAt (kvChildState noPage)) none (kvAt (kvChildState noPage)) := fun d =>
    Gives.notFound (Gives.pagesNone (f := fPhead) (by cases d <;> decide +kernel) (by cases d <;> decide) (by cases d <;> decide +kernel))
      (Gives.pagesNone (f := fChead) (by cases d <;> decide +kernel) (by cases d <;> decide) (by cases d <;> decide +kernel))
  have hv := fun d => Gives.viewRoot (x := kvParD d) (s := kvAt (kvChildState noPage)) (n := 65536) (by decide) (hk d) (by cases d <;> decide)
    (Gives.pagesNone (f := fPhead) (hk d) (by cases d <;> decide) (by cases d <;> decide +kernel)) Gives.liveNone Gives.mapNil
    (Gives.pagesNone (f := fChead) (hk d) (by cases d <;> decide) (by cases d <;> decide +kernel)) Gives.liveNone Gives.mapNil
    (by cases d <;> decide +kernel)
  obtain ⟨u, u1, u2, u3, t, e, pt, at'⟩ := kvOther_of (main := noPage) (by decide +kernel) (hn false) (by decide +kernel) (by decide +kernel) (by decide +kernel)
    (calm_other (parent := 0x4080) (f := 4) (by decide +kernel) (by decide +kernel) (by decide +kernel) (hn true) fun _ => Calm.bind (hv true) (Calm.gives (Gives.pure 1 _) rfl))
    (by decide +kernel)
  obtain ⟨u4, e4, -⟩ := (hv false).run pt at'
  exact ⟨_, u, u1, u2, u3, t, u4, 5, 0x4080, 4, _, e, by decide, by decide +kernel, e4, rfl⟩

/-- The child has no entry at 4: the one page of its copy chain has no live slot. -/
theorem kv_page_dead (d : Bool) : Gives ((kvd d).find 4 5) (kvAt (kvChildState 0)) none (kvAt (kvChildState 0)) := by
  have hk : (kvd d).plainIn (kvAt (kvChildState 0)) = true := by cases d <;> decide +kernel
  have hp : Gives ((kvd d).page 1) (kvAt (kvChildState 0)) 0x10C00 (kvAt (kvChildState 0)) := (Gives.page (by cases d <;> decide +kernel)).val (by cases d <;> decide +kernel)
  have hl : Gives ((kvd d).liveSlots 1) (kvAt (kvChildState 0)) [] (kvAt (kvChildState 0)) := by
    unfold Kv.liveSlots
    refine hp.bind (((Gives.load hk (by cases d <;> decide)).val (w := 0) (by cases d <;> decide +kernel)).bind ?_)
    dsimp only
    rw [show (List.range 64).filter (fun s => (BitVec.ofNat 64 0).getLsbD s) = [] from by decide +kernel]
    exact Gives.mapNil
  have hc : Gives (kvd d).copyPages (kvAt (kvChildState 0)) [1] (kvAt (kvChildState 0)) :=
    ((Gives.rd (f := fChead) hk (by cases d <;> decide)).val (w := 1) (by cases d <;> decide +kernel)).bind (Gives.pagesStep (by decide) (by decide)
      (hp.bind ((Gives.field hk (by cases d <;> decide)).val (w := noPage) (by cases d <;> decide +kernel))) (Gives.pagesEnd (by decide) rfl))
  unfold Kv.find
  refine (Gives.pagesNone (f := fPhead) hk (by cases d <;> decide) (by cases d <;> decide +kernel)).bind (Gives.liveNone.bind ?_)
  exact hc.bind (((Gives.mapCons hl Gives.mapNil).bind (Gives.pure [] _)).bind (Gives.pure _ _))

/-- A copy joins that page. -/
theorem kv_copy (d : Bool) : ∃ t, Gives ((kvd d).addEntry fChead fCtail 4 permanent [10, 0, 0, 0, 11, 0, 0, 0]) (kvAt (kvChildState 0)) () t ∧ t.fills = [] := by
  apply Exists.intro
  apply And.intro
  · unfold Kv.addEntry Kv.tailPage Kv.putData
    rw [show List.range (([10, 0, 0, 0, 11, 0, 0, 0] : List Byte).length / 4) = [0, 1] from rfl]
    have hk : (kvd d).plainIn (kvAt (kvChildState 0)) = true := by cases d <;> decide +kernel
    have hp : Gives ((kvd d).page 1) (kvAt (kvChildState 0)) 0x10C00 (kvAt (kvChildState 0)) := (Gives.page (by cases d <;> decide +kernel)).val (by cases d <;> decide +kernel)
    have hf : Gives ((kvd d).field (0x10C00 + 8) 6 0) (kvAt (kvChildState 0)) 1 (kvAt (kvChildState 0)) := (Gives.field hk (by cases d <;> decide)).val (by cases d <;> decide +kernel)
    apply Gives.bind
    · apply ((Gives.rd hk (by cases d <;> decide)).val (w := 1) (by cases d <;> decide +kernel)).bind
      apply Gives.ite_false (c := 1 = noPage) (by cases d <;> decide)
      exact hp.bind (hf.bind (Gives.ite_false (by cases d <;> decide) (Gives.pure 1 _)))
    apply hp.bind
    apply hf.bind
    apply ((Gives.slotAddr (by cases d <;> decide +kernel)).val (w := 0x11020) (by cases d <;> decide +kernel)).bind
    apply Gives.bind
    · exact Gives.forCons (Gives.store (by cases d <;> decide +kernel) (by cases d <;> decide) (by cases d <;> decide +kernel)) (Gives.forCons (Gives.store (by cases d <;> decide +kernel) (by cases d <;> decide) (by cases d <;> decide +kernel)) Gives.forNil)
    apply (Gives.store (by cases d <;> decide +kernel) (by cases d <;> decide) (by cases d <;> decide +kernel)).bind
    apply (Gives.store (by cases d <;> decide +kernel) (by cases d <;> decide) (by cases d <;> decide +kernel)).bind
    apply (Gives.setField (by cases d <;> decide +kernel) (by cases d <;> decide) (by cases d <;> decide +kernel)).bind
    apply (Gives.store (by cases d <;> decide +kernel) (by cases d <;> decide) (by cases d <;> decide +kernel)).bind
    apply Gives.ite_false (by cases d <;> decide)
    change Gives ((kvd d).count fNlive 1) _ () _
    exact Gives.count (x := (kvd d)) (f := fNlive) (d := 1) (by cases d <;> decide +kernel) (by cases d <;> decide) (by cases d <;> decide +kernel)
  · rfl

/-- What KVRN's clauses about an entry that a parent has share. -/
def kvCopied (s t u4 u5 u6 u7 : State) (commit parent f ew : Nat) (l : List KvEntry × List Nat) (y : KvEntry) (d : List Byte) : Prop :=
  parent ≠ 0 ∧ bits (s.reg .A 2) 31 0 ≤ f ∧ Kv.view { kv0 with va := parent } 65536 t = .ok (l, u4)
    ∧ l.1.find? (fun k => k.w = bits (s.reg .A 2) 31 0 && commit ≤ k.exp) = some y ∧ kv0.rd fEw u4 = .ok (ew, u5) ∧ kv0.loadData y.addr ew u5 = .ok (d, u6)
    ∧ kv0.addEntry fChead fCtail (bits (s.reg .A 2) 31 0) (bits (s.reg .A 2) 63 32) d u6 = .ok ((), u7)

/-- What the child sees of its parent, and the data of the entry there. -/
theorem kv_seen (d : Bool) : Gives (Kv.view (kvParD d) 65536) (kvAt (kvChildState 0)) ([⟨4, 9, 0x10400⟩], [0x4080]) (kvAt (kvChildState 0))
    ∧ Gives ((kvd d).rd fEw) (kvAt (kvChildState 0)) 2 (kvAt (kvChildState 0))
    ∧ Gives ((kvd d).loadData 0x10400 2) (kvAt (kvChildState 0)) [10, 0, 0, 0, 11, 0, 0, 0] (kvAt (kvChildState 0)) := by
  have hk : (kvParD d).plainIn (kvAt (kvChildState 0)) = true := by cases d <;> decide +kernel
  have hr : (kvParD d).reach (kvAt (kvChildState 0)) = true := by cases d <;> decide +kernel
  have h0 : (kvd d).plainIn (kvAt (kvChildState 0)) = true := by cases d <;> decide +kernel
  have ha : (kvParD d).oneSlot (kvAt (kvChildState 0)) 4 9 = true := by cases d <;> decide +kernel
  have he : Gives ((kvParD d).entries [⟨0, 0, 4, 9⟩]) (kvAt (kvChildState 0)) [⟨4, 9, 0x10400⟩] (kvAt (kvChildState 0)) :=
    Gives.mapCons (((Gives.slotAddr hr).val (w := 0x10400) (by cases d <;> decide +kernel)).bind (Gives.pure _ _)) Gives.mapNil
  refine ⟨Gives.viewRoot (x := (kvParD d)) (n := 65536) (by cases d <;> decide) hk (by cases d <;> decide) (Gives.pagesOne (f := fPhead) hr (by cases d <;> decide) (by cases d <;> decide +kernel) ha)
    (Gives.liveOne hr ha) he (Gives.pagesNone (f := fChead) hk (by cases d <;> decide) (by cases d <;> decide +kernel)) Gives.liveNone Gives.mapNil (by cases d <;> decide +kernel),
    (Gives.rd (x := (kvd d)) (f := fEw) h0 (by cases d <;> decide)).val (w := 2) (by cases d <;> decide +kernel), ?_⟩
  have g0 : Gives ((kvd d).load 0x10400 4) (kvAt (kvChildState 0)) 10 (kvAt (kvChildState 0)) := (Gives.load h0 (by cases d <;> decide)).val (by cases d <;> decide +kernel)
  have g1 : Gives ((kvd d).load 0x10404 4) (kvAt (kvChildState 0)) 11 (kvAt (kvChildState 0)) := (Gives.load h0 (by cases d <;> decide)).val (by cases d <;> decide +kernel)
  unfold Kv.loadData
  rw [show List.range 2 = [0, 1] from rfl]
  apply Gives.bind
  · exact Gives.mapCons (g0.bind (Gives.pure (toBytes 10 4) _)) (Gives.mapCons (g1.bind (Gives.pure (toBytes 11 4) _)) Gives.mapNil)
  exact Gives.val (Gives.pure _ _) rfl

theorem kvCopied_of {t : State} (pt : Plain t) (at' : Alike (kvAt (kvChildState 0)) t) :
    ∃ u4 u5 u6 u7, kvCopied (kvChildState 0) t u4 u5 u6 u7 5 0x4080 4 2 ([⟨4, 9, 0x10400⟩], [0x4080]) ⟨4, 9, 0x10400⟩ [10, 0, 0, 0, 11, 0, 0, 0] := by
  obtain ⟨u4, e4, p4, a4⟩ := (kv_seen false).1.run pt at'
  obtain ⟨u5, e5, p5, a5⟩ := (kv_seen false).2.1.run p4 a4
  obtain ⟨u6, e6, p6, a6⟩ := (kv_seen false).2.2.run p5 a5
  obtain ⟨k, g, -⟩ := kv_copy false
  obtain ⟨u7, e7, -⟩ := g.run p6 a6
  have hb : bits ((kvChildState 0).reg .A 2) 31 0 = 4 := by decide +kernel
  have hx : bits ((kvChildState 0).reg .A 2) 63 32 = permanent := by decide +kernel
  exact ⟨u4, u5, u6, u7, by decide, by rw [hb], e4, by rw [hb]; rfl, e5, e6, by rw [hb, hx]; exact e7⟩

theorem calm_copied : Calm (Kv.renew 4 0xFFFFFFFF kvDry) (kvAt (kvChildState 0)) := by
  refine calm_other (parent := 0x4080) (f := 4) (by decide +kernel) (by decide +kernel) (by decide +kernel) (kv_page_dead true) fun _ => ?_
  obtain ⟨k, g, hf⟩ := kv_copy true
  apply Calm.bind (kv_seen true).1
  exact Calm.bind (kv_seen true).2.1 (Calm.bind (kv_seen true).2.2 (Calm.bind g (Calm.gives (Gives.pure 0 _) hf)))

/-- KvRenewCompletes: an entry of the parent is copied. -/
theorem witness_kv_renew_copied : ∃ (s u u1 u2 u3 t u4 u5 u6 u7 : State) (commit parent f ew : Nat) (l : List KvEntry × List Nat) (y : KvEntry) (d : List Byte),
    kvOther s u u1 u2 u3 t commit parent f ∧ kvCopied s t u4 u5 u6 u7 commit parent f ew l y d := by
  obtain ⟨u, u1, u2, u3, t, e, pt, at'⟩ := kvOther_of (main := 0) (by decide +kernel) (kv_page_dead false) (by decide +kernel) (by decide +kernel) (by decide +kernel)
    calm_copied (by decide +kernel)
  obtain ⟨u4, u5, u6, u7, g⟩ := kvCopied_of pt at'
  exact ⟨_, u, u1, u2, u3, t, u4, u5, u6, u7, _, _, _, _, _, _, _, e, g⟩

/-! #### KVFORK and KVEND -/

/-- A closed, well-formed record at 0x4000. -/
def kvClosed : List (Nat × Nat) := kvRecord 0x4000 0 4 5 noPage noPage 0 0 0 0 0

/-- A record is well formed in a rehearsal too. -/
theorem Gives.dryFormed {s : State} (h : kv0.reach s = true)
    (g : (!kv0.recordBad s && !kv0.poolBad s && decide (3 ≤ kv0.fieldIn s fLogw) && decide (kv0.fieldIn s fLogw ≤ 16) && decide (kv0.fieldIn s fWheel % 64 = 0)
      && decide (kv0.fieldIn s fWheel + 8 * 2 ^ 16 < 2 ^ 30)) = true) (e : kv0.formed s = true) : Gives kvDry.wellFormed s true s := by
  have w : Gives kvDry.wellFormed s (kvDry.formed s) s := Gives.wellFormed h g
  exact w.val e

theorem calm_fork_root : Calm (Kv.fork 0 kvDry) (kvAt (kvState 0 0 (kvClosed ++ kvPool))) := by
  unfold Kv.fork
  apply Calm.bind (Gives.dryFormed (by decide +kernel) (by decide +kernel) (by decide +kernel))
  apply Calm.ite_false (by decide)
  dsimp only
  apply Calm.ite_false (by decide)
  apply Calm.get
  intro v _
  apply Calm.bind (Gives.dryFault _ _)
  apply Calm.ite_false (by decide)
  apply Calm.bind (Gives.wr (x := kvDry) (f := fState) (by decide +kernel) (by decide) (by decide +kernel))
  exact Calm.modify _ _ rfl fun _ => rfl

/-- KvForkCompletes: a root. -/
theorem witness_kv_fork_root : ∃ (s t u u1 : State), Ready (.kvfork 0 1 2) .A 0 {} s = true ∧ s.work.spec = false ∧ s.work.replay = none
    ∧ (s.reg .A 1).toNat % 128 = 0 ∧ (s.reg .A 2).toNat = 0 ∧ kvWritable 1 (s.issued .A 0 {} 2) = .ok (kv0, t)
    ∧ kv0.rehearse (Kv.fork 0) t = .ok ((), t) ∧ kv0.wellFormed t = .ok (true, u)
    ∧ u.kvOpen.length < 65536 ∧ kv0.wr fState 1 u = .ok ((), u1) := by
  have h : kvCheck (kvState 0 0 (kvClosed ++ kvPool)) = true := by decide +kernel
  have hw := (kvWritable_gives h).1
  have hx := h
  simp only [kvCheck, Bool.and_eq_true, Bool.not_eq_true', Option.isNone_iff_eq_none] at hx
  obtain ⟨⟨⟨⟨⟨⟨⟨h1, -⟩, -⟩, -⟩, -⟩, -⟩, -⟩, h8⟩ := hx
  obtain ⟨t, e, pt, at'⟩ := hw.run (Plain.of_check h1) (Alike.refl _)
  obtain ⟨u, e1, p1, a1⟩ := ((Gives.wellFormed h8 (by decide +kernel)).val (w := true) (by decide +kernel)).run pt at'
  obtain ⟨u1, e2, -⟩ := (Gives.wr (x := kv0) (f := fState) (v := 1) (by decide +kernel) (by decide +kernel) (by decide +kernel)).run p1 a1
  have ho : u.kvOpen.length < 65536 := by
    rw [a1.rest]
    have : (kvAt (kvState 0 0 (kvClosed ++ kvPool))).kvOpen.length < 65536 := by decide +kernel
    exact this
  exact ⟨_, t, u, u1, by decide +kernel, by decide +kernel, by decide +kernel, by decide +kernel, by decide +kernel, e, calm_fork_root.rehearse pt at', e1, ho, e2⟩

/-- The record at 0x4000 closed, and a parent for it at 0x4080, open with COMMIT 5. -/
def kvFork : State := kvState 0x4080 0 (kvClosed ++ kvRecord 0x4080 1 8 5 noPage noPage 0 0 0 0 0 ++ kvPool)

/-- What a fork reads and writes. -/
def forkReads : Act Bool := do
  let c ← kvPar.rd fCommit
  let d ← kvPar.rd fDepth
  let w ← kvPar.rd fEw
  let w' ← kv0.rd fEw
  let k ← kvPar.rd fKw
  let k' ← kv0.rd fKw
  return decide (c ≠ 0 ∧ d < 8 ∧ w = w' ∧ k = k')

def forkWrites (pva : Nat) : Act Unit := do
  let c ← kvPar.rd fCommit
  kv0.wr fParent pva
  kv0.wr fForkpos (c - 1)
  kv0.wr fDepth ((← kvPar.rd fDepth) + 1)
  kv0.wr fCommit (c - 1 + 1)
  kv0.wr fHead (c - 1)
  kv0.wr fDrained (c - 1 + 1)
  kvPar.count fKids 1
  kvPar.wr fLfp (max (← kvPar.rd fLfp) (c - 1))
  kv0.wr fState 1

theorem fork_reads : Gives forkReads (kvAt kvFork) true (kvAt kvFork) := by
  have h0 : kv0.plainIn (kvAt kvFork) = true := by decide +kernel
  have hp : kvPar.plainIn (kvAt kvFork) = true := by decide +kernel
  exact ((Gives.rd hp (by decide)).val (w := 5) (by decide +kernel)).bind (((Gives.rd hp (by decide)).val (w := 0) (by decide +kernel)).bind
    (((Gives.rd hp (by decide)).val (w := 2) (by decide +kernel)).bind (((Gives.rd h0 (by decide)).val (w := 2) (by decide +kernel)).bind
    (((Gives.rd hp (by decide)).val (w := 1) (by decide +kernel)).bind (((Gives.rd h0 (by decide)).val (w := 1) (by decide +kernel)).bind (Gives.pure _ _))))))

theorem fork_writes : ∃ t, Gives (forkWrites 0x4080) (kvAt kvFork) () t := by
  apply Exists.intro
  unfold forkWrites
  apply ((Gives.rd (by decide +kernel) (by decide)).val (w := 5) (by decide +kernel)).bind
  apply (Gives.wr (by decide +kernel) (by decide) (by decide +kernel)).bind
  apply (Gives.wr (by decide +kernel) (by decide) (by decide +kernel)).bind
  apply ((Gives.rd (by decide +kernel) (by decide)).val (w := 0) (by decide +kernel)).bind
  apply (Gives.wr (by decide +kernel) (by decide) (by decide +kernel)).bind
  apply (Gives.wr (by decide +kernel) (by decide) (by decide +kernel)).bind
  apply (Gives.wr (by decide +kernel) (by decide) (by decide +kernel)).bind
  apply (Gives.wr (by decide +kernel) (by decide) (by decide +kernel)).bind
  apply (Gives.count (x := kvPar) (f := fKids) (d := 1) (by decide +kernel) (by decide) (by decide +kernel)).bind
  apply ((Gives.rd (by decide +kernel) (by decide)).val (w := 0) (by decide +kernel)).bind
  apply (Gives.wr (by decide +kernel) (by decide) (by decide +kernel)).bind
  exact Gives.wr (x := kv0) (f := fState) (v := 1) (by decide +kernel) (by decide) (by decide +kernel)

theorem calm_fork_child : Calm (Kv.fork 0x4080 kvDry) (kvAt kvFork) := by
  have h0 : kvDry.plainIn (kvAt kvFork) = true := by decide +kernel
  have hp : (kvParD true).plainIn (kvAt kvFork) = true := by decide +kernel
  have hd : Gives (Kv.checkOpen { kvDry with va := 0x4080 } [1]) (kvAt kvFork) () (kvAt kvFork) := by
    have hf : ∀ b n, Gives (Kv.faultIf { kvDry with va := 0x4080 } b n) (kvAt kvFork) () (kvAt kvFork) := fun b n => by
      cases b <;> exact Gives.pure () _
    exact (Gives.checkFormed (x := kvParD true) (by decide +kernel) (by decide +kernel)).bind ((Gives.rd (x := kvParD true) (f := fState) hp (by decide)).bind (hf _ _))
  unfold Kv.fork
  apply Calm.bind (Gives.dryFormed (by decide +kernel) (by decide +kernel) (by decide +kernel))
  apply Calm.ite_false (by decide)
  dsimp only
  apply Calm.ite_true (by decide)
  apply Calm.bind hd
  apply Calm.bind (Gives.rd (x := kvParD true) hp (by decide))
  apply Calm.bind (Gives.rd (x := kvParD true) hp (by decide))
  apply Calm.bind (Gives.rd (x := kvParD true) hp (by decide))
  apply Calm.bind (Gives.rd (x := kvDry) h0 (by decide))
  apply Calm.bind (Gives.rd (x := kvParD true) hp (by decide))
  apply Calm.bind (Gives.rd (x := kvDry) h0 (by decide))
  apply Calm.bind (Gives.dryFault _ _)
  apply Calm.get
  intro v _
  apply Calm.bind (Gives.dryFault _ _)
  apply Calm.ite_true (by decide)
  apply Calm.bind ((Gives.rd (x := kvParD true) hp (by decide)).val (w := 5) (by decide +kernel))
  apply Calm.bind (Gives.wr (x := kvDry) (by decide +kernel) (by decide) (by decide +kernel))
  apply Calm.bind (Gives.wr (x := kvDry) (by decide +kernel) (by decide) (by decide +kernel))
  apply Calm.bind ((Gives.rd (x := kvParD true) (by decide +kernel) (by decide)).val (w := 0) (by decide +kernel))
  apply Calm.bind (Gives.wr (x := kvDry) (by decide +kernel) (by decide) (by decide +kernel))
  apply Calm.bind (Gives.wr (x := kvDry) (by decide +kernel) (by decide) (by decide +kernel))
  apply Calm.bind (Gives.wr (x := kvDry) (by decide +kernel) (by decide) (by decide +kernel))
  apply Calm.bind (Gives.wr (x := kvDry) (by decide +kernel) (by decide) (by decide +kernel))
  apply Calm.bind (Gives.count (x := kvParD true) (f := fKids) (d := 1) (by decide +kernel) (by decide) (by decide +kernel))
  apply Calm.bind ((Gives.rd (x := kvParD true) (by decide +kernel) (by decide)).val (w := 0) (by decide +kernel))
  apply Calm.bind (Gives.wr (x := kvParD true) (by decide +kernel) (by decide) (by decide +kernel))
  apply Calm.bind (Gives.wr (x := kvDry) (f := fState) (by decide +kernel) (by decide) (by decide +kernel))
  exact Calm.modify _ _ rfl fun _ => rfl

/-- The same: a child. -/
theorem witness_kv_fork_child : ∃ (s t u2 u3 u4 u5 u1 : State) (k : Nat), Ready (.kvfork 0 1 2) .A 0 {} s = true ∧ s.work.spec = false ∧ s.work.replay = none
    ∧ (s.reg .A 1).toNat % 128 = 0 ∧ (s.reg .A 2).toNat % 128 = 0 ∧ (s.reg .A 2).toNat = 0x4080 ∧ kvWritable 1 (s.issued .A 0 {} 2) = .ok (kv0, t)
    ∧ kvPar.key 0x4080 accWrite 128 t = .ok (k, u2) ∧ kv0.rehearse (Kv.fork 0x4080) u2 = .ok ((), u2) ∧ kv0.wellFormed u2 = .ok (true, u3) ∧ kvPar.checkOpen [1] u3 = .ok ((), u4)
    ∧ forkReads u4 = .ok (true, u5) ∧ u5.kvOpen.length < 65536 ∧ forkWrites 0x4080 u5 = .ok ((), u1) := by
  have h : kvCheck kvFork = true := by decide +kernel
  have hw := (kvWritable_gives h).1
  have hx := h
  simp only [kvCheck, Bool.and_eq_true, Bool.not_eq_true', Option.isNone_iff_eq_none] at hx
  obtain ⟨⟨⟨⟨⟨⟨⟨h1, -⟩, -⟩, -⟩, -⟩, -⟩, -⟩, h8⟩ := hx
  obtain ⟨t, e, pt, at'⟩ := hw.run (Plain.of_check h1) (Alike.refl _)
  obtain ⟨u2, e2, p2, a2⟩ := (Gives.key (x := kvPar) (va := 0x4080) (acc := accWrite) 128 (by decide +kernel) (by decide)).run pt at'
  obtain ⟨u3, e3, p3, a3⟩ := ((Gives.wellFormed h8 (by decide +kernel)).val (w := true) (by decide +kernel)).run p2 a2
  obtain ⟨u4, e4, p4, a4⟩ := (Gives.checkOpen (x := kvPar) (states := [1]) (by decide +kernel) (by decide +kernel)).run p3 a3
  obtain ⟨u5, e5, p5, a5⟩ := fork_reads.run p4 a4
  obtain ⟨k, g⟩ := fork_writes
  obtain ⟨u1, e1, -⟩ := g.run p5 a5
  have ho : u5.kvOpen.length < 65536 := by
    rw [a5.rest]
    have : (kvAt kvFork).kvOpen.length < 65536 := by decide +kernel
    exact this
  exact ⟨_, t, u2, u3, u4, u5, u1, _, by decide +kernel, by decide +kernel, by decide +kernel, by decide +kernel, by decide +kernel, by decide +kernel, e, e2,
    calm_fork_child.rehearse p2 a2, e3, e4, e5, ho, e1⟩

/-- KvEndCompletes: an open context with a child. -/
theorem witness_kv_end_kids : ∃ (s u u1 u2 u3 v : State) (st kids : Nat), Ready (.kvend 0 1) .A 0 {} s = true ∧ s.opens 0 1 Kv.finish [1, 3] kv0 u
    ∧ kv0.rd fPin u = .ok (0, u1) ∧ kv0.rd fState u1 = .ok (st, u2) ∧ kv0.rd fKids u2 = .ok (kids, u3) ∧ st = 1 ∧ kids ≠ 0
    ∧ kv0.wr fState 2 u3 = .ok ((), v) := by
  have h : kvCheck (kvState 0 0 (kvRecord 0x4000 1 8 5 noPage noPage 0 0 0 1 0 ++ kvPool)) = true := by decide +kernel
  have hk : kvDry.plainIn (kvAt (kvState 0 0 (kvRecord 0x4000 1 8 5 noPage noPage 0 0 0 1 0 ++ kvPool))) = true := by decide +kernel
  have hc : Calm (Kv.finish kvDry) (kvAt (kvState 0 0 (kvRecord 0x4000 1 8 5 noPage noPage 0 0 0 1 0 ++ kvPool))) := by
    unfold Kv.finish
    apply Calm.bind (Gives.dryOpen (by decide +kernel) (by decide +kernel))
    apply Calm.bind (Gives.rd hk (by decide))
    apply Calm.bind (Gives.dryWait _)
    apply Calm.bind ((Gives.rd hk (by decide)).val (w := 1) (by decide +kernel))
    apply Calm.bind ((Gives.rd hk (by decide)).val (w := 1) (by decide +kernel))
    apply Calm.ite_true (by decide)
    exact Calm.gives (Gives.wr hk (by decide) (by decide +kernel)) rfl
  obtain ⟨u, e, pu, au⟩ := opens_of (states := [1, 3]) Kv.finish h (by decide +kernel) hc
  obtain ⟨u1, e1, p1, a1⟩ := ((Gives.rd (x := kv0) (f := fPin) (by decide +kernel) (by decide)).val (w := 0) (by decide +kernel)).run pu au
  obtain ⟨u2, e2, p2, a2⟩ := ((Gives.rd (x := kv0) (f := fState) (by decide +kernel) (by decide)).val (w := 1) (by decide +kernel)).run p1 a1
  obtain ⟨u3, e3, p3, a3⟩ := ((Gives.rd (x := kv0) (f := fKids) (by decide +kernel) (by decide)).val (w := 1) (by decide +kernel)).run p2 a2
  obtain ⟨v, e4, -⟩ := (Gives.wr (x := kv0) (f := fState) (v := 2) (by decide +kernel) (by decide) (by decide +kernel)).run p3 a3
  exact ⟨_, u, u1, u2, u3, v, 1, 1, by decide +kernel, e, e1, e2, e3, rfl, by decide, e4⟩

/-- Drains of a context leave every queue, and the context is no longer counted. -/
theorem Gives.forget {x : Kv} {s : State} : Gives (modify fun s => { s with
      dies := s.dies.map fun e => (e.1, { e.2 with drains := e.2.drains.filter fun q => !(q.ctx = x.va && q.part = x.part && q.asid = x.asid) })
      kvOpen := dropFirst (fun o => o = (x.part, x.asid, x.va)) s.kvOpen } : Act Unit) s () { s with
      dies := s.dies.map fun e => (e.1, { e.2 with drains := e.2.drains.filter fun q => !(q.ctx = x.va && q.part = x.part && q.asid = x.asid) })
      kvOpen := dropFirst (fun o => o = (x.part, x.asid, x.va)) s.kvOpen } := by
  intro u p al
  refine ⟨_, rfl, ?_, ?_⟩
  · have hd : ∀ d, State.die { u with
        dies := u.dies.map fun e => (e.1, { e.2 with drains := e.2.drains.filter fun q => !(q.ctx = x.va && q.part = x.part && q.asid = x.asid) })
        kvOpen := dropFirst (fun o => o = (x.part, x.asid, x.va)) u.kvOpen } d
        = { u.die d with drains := (u.die d).drains.filter fun q => !(q.ctx = x.va && q.part = x.part && q.asid = x.asid) } := fun d =>
      die_map u.dies (fun y => { y with drains := y.drains.filter fun q => !(q.ctx = x.va && q.part = x.part && q.asid = x.asid) }) rfl d
    exact {
      stalled := p.stalled
      walkers := fun d => by rw [hd]; exact p.walkers d
      replicas := fun d => by rw [hd]; exact p.replicas d
      base := p.base
      handles := p.handles
      root := p.root
      node := p.node
      leaf := p.leaf
      nodes := fun d n hn => p.nodes d n (by rw [hd] at hn; exact hn)
      tlb := fun cl t ht => p.tlb cl t (by cases cl <;> exact ht)
      events := p.events }
  · exact {
      rest := by rw [al.rest]
      core := fun k => al.core k
      die := fun d => by
        have hd := fun m d => die_map m (fun y => { y with drains := y.drains.filter fun q => !(q.ctx = x.va && q.part = x.part && q.asid = x.asid) }) rfl d
        have h1 := hd u.dies d
        have h2 := hd s.dies d
        have h3 := al.die d
        unfold State.die at *
        dsimp only
        rw [h1, h2, h3]
      ladle := fun l => al.ladle l }

/-- KvEndCompletes: a broken context, without a parent. -/
theorem witness_kv_end_broken : ∃ (s u u1 u2 u3 v : State) (st kids : Nat), Ready (.kvend 0 1) .A 0 {} s = true ∧ s.opens 0 1 Kv.finish [1, 3] kv0 u
    ∧ kv0.rd fPin u = .ok (0, u1) ∧ kv0.rd fState u1 = .ok (st, u2) ∧ kv0.rd fKids u2 = .ok (kids, u3) ∧ (st ≠ 1 ∨ kids = 0)
    ∧ kv0.endNow 65536 u3 = .ok ((), v) := by
  have h : kvCheck (kvState 0 0 (kvRecord 0x4000 3 8 5 noPage noPage 0 0 0 1 0 ++ kvPool)) = true := by decide +kernel
  have hk : kvDry.plainIn (kvAt (kvState 0 0 (kvRecord 0x4000 3 8 5 noPage noPage 0 0 0 1 0 ++ kvPool))) = true := by decide +kernel
  have hg : ∀ x ∈ [kv0, kvDry], ∀ n, ∃ t,
      Gives (x.endNow (n + 1)) (kvAt (kvState 0 0 (kvRecord 0x4000 3 8 5 noPage noPage 0 0 0 1 0 ++ kvPool))) () t ∧ t.fills = [] := by
    intro x hx n
    apply Exists.intro
    apply And.intro
    · unfold Kv.endNow
      apply Gives.forget.bind
      simp only [List.mem_cons, List.not_mem_nil, or_false] at hx
      obtain rfl | rfl := hx
      all_goals
        apply ((Gives.rd (by decide +kernel) (by decide)).val (w := 3) (by decide +kernel)).bind
        apply Gives.ite_false (c := 3 ≠ 3) (by decide)
        apply (Gives.wr (f := fState) (by decide +kernel) (by decide) (by decide +kernel)).bind
        apply ((Gives.rd (by decide +kernel) (by decide)).val (w := 0) (by decide +kernel)).bind
        apply Gives.ite_false (c := 0 ≠ 0) (by decide)
        exact Gives.pure () _
    · rfl
  have hc : Calm (Kv.finish kvDry) (kvAt (kvState 0 0 (kvRecord 0x4000 3 8 5 noPage noPage 0 0 0 1 0 ++ kvPool))) := by
    obtain ⟨t, g, hf⟩ := hg kvDry (by decide) 65535
    unfold Kv.finish
    apply Calm.bind (Gives.dryOpen (by decide +kernel) (by decide +kernel))
    apply Calm.bind (Gives.rd hk (by decide))
    apply Calm.bind (Gives.dryWait _)
    apply Calm.bind ((Gives.rd hk (by decide)).val (w := 3) (by decide +kernel))
    apply Calm.bind ((Gives.rd hk (by decide)).val (w := 1) (by decide +kernel))
    apply Calm.ite_false (by decide)
    exact Calm.gives g hf
  obtain ⟨u, e, pu, au⟩ := opens_of (states := [1, 3]) Kv.finish h (by decide +kernel) hc
  obtain ⟨u1, e1, p1, a1⟩ := ((Gives.rd (x := kv0) (f := fPin) (by decide +kernel) (by decide)).val (w := 0) (by decide +kernel)).run pu au
  obtain ⟨u2, e2, p2, a2⟩ := ((Gives.rd (x := kv0) (f := fState) (by decide +kernel) (by decide)).val (w := 3) (by decide +kernel)).run p1 a1
  obtain ⟨u3, e3, p3, a3⟩ := ((Gives.rd (x := kv0) (f := fKids) (by decide +kernel) (by decide)).val (w := 1) (by decide +kernel)).run p2 a2
  obtain ⟨t, g, -⟩ := hg kv0 (by decide) 65535
  obtain ⟨v, e4, -⟩ := g.run p3 a3
  exact ⟨_, u, u1, u2, u3, v, 3, 1, by decide +kernel, e, e1, e2, e3, .inl (by decide), e4⟩

/-! #### KVGATH, KVSTAT and a drain -/

/-- Rings 0 and 1 with slots of 256 bytes. -/
def kvRings : SMap Ring := [(0, { init := true, slot := 256, n := 4, pitch := 256 }), (1, { init := true, slot := 256, n := 4, pitch := 256 })]

def kvGather : State := (kvState 8 0 kvBare).modCtx fun c => { c with rings := kvRings }

/-- KvReadsComplete: a gather of nothing. -/
theorem witness_kv_gather : ∃ (s t u u1 u2 u3 u4 : State) (kw ew commit : Nat) (l : List KvEntry × List Nat), Ready (.kvgath 0 3 1 2 16 1 0 0) .A 0 {} s = true
    ∧ kvWritable 1 (s.issued .A 0 {} 2) = .ok (kv0, t)
    ∧ kv0.rehearse (Kv.select ((16 : BitVec 5).toNat - 16) (1 : BitVec 4).toNat (bits (s.reg .A 2) 31 0)) t = .ok ((), t)
    ∧ kv0.checkOpen [1] t = .ok ((), u) ∧ (∀ r ∈ [(16 : BitVec 5).toNat - 16, (1 : BitVec 4).toNat], (s.ctx.ring r).init = true)
    ∧ kv0.rd fKw u = .ok (kw, u1) ∧ kv0.rd fEw u1 = .ok (ew, u2) ∧ 256 * kw ≤ (s.ctx.ring ((16 : BitVec 5).toNat - 16)).slot
    ∧ 256 * (ew - kw) ≤ (s.ctx.ring (1 : BitVec 4).toNat).slot ∧ kv0.rd fCommit u2 = .ok (commit, u3) ∧ commit ≤ bits (s.reg .A 2) 31 0
    ∧ kv0.view 65536 u3 = .ok (l, u4) ∧ ∀ e ∈ l.1, ¬ (e.w ≤ bits (s.reg .A 2) 31 0 ∧ bits (s.reg .A 2) 31 0 ≤ e.exp) := by
  have h : kvCheck kvGather = true := by decide +kernel
  have hk : kv0.plainIn (kvAt kvGather) = true := by decide +kernel
  have hw := (kvWritable_gives h).1
  have hx := h
  simp only [kvCheck, Bool.and_eq_true, Bool.not_eq_true', Option.isNone_iff_eq_none] at hx
  obtain ⟨⟨⟨⟨⟨⟨⟨h1, -⟩, -⟩, -⟩, -⟩, -⟩, -⟩, h8⟩ := hx
  obtain ⟨t, e, pt, at'⟩ := hw.run (Plain.of_check h1) (Alike.refl _)
  obtain ⟨u, e0, pu, au⟩ := (Gives.checkOpen (states := [1]) h8 (by decide +kernel)).run pt at'
  obtain ⟨u1, e1, p1, a1⟩ := ((Gives.rd (f := fKw) hk (by decide)).val (w := 1) (by decide +kernel)).run pu au
  obtain ⟨u2, e2, p2, a2⟩ := ((Gives.rd (f := fEw) hk (by decide)).val (w := 2) (by decide +kernel)).run p1 a1
  obtain ⟨u3, e3, p3, a3⟩ := ((Gives.rd (f := fCommit) hk (by decide)).val (w := 3) (by decide +kernel)).run p2 a2
  have hd : ∀ d, (kvd d).plainIn (kvAt kvGather) = true := by decide +kernel
  have hv := fun d => Gives.viewRoot (x := kvd d) (s := kvAt kvGather) (n := 65536) (by decide) (hd d) (by cases d <;> decide)
    (Gives.pagesNone (f := fPhead) (hd d) (by cases d <;> decide) (by cases d <;> decide +kernel)) Gives.liveNone Gives.mapNil
    (Gives.pagesNone (f := fChead) (hd d) (by cases d <;> decide) (by cases d <;> decide +kernel)) Gives.liveNone Gives.mapNil
    (by cases d <;> decide +kernel)
  have hc : Calm (Kv.select 0 1 8 kvDry) (kvAt kvGather) := by
    have hd := hd true
    unfold Kv.select
    apply Calm.bind (Gives.dryOpen (by decide +kernel) (by decide +kernel))
    apply Calm.bind (Gives.rd hd (by decide))
    apply Calm.bind (Gives.rd hd (by decide))
    apply Calm.get
    intro v _
    apply Calm.bind (Gives.dryTrap _ _)
    apply Calm.bind (Gives.rd hd (by decide))
    apply Calm.bind (Gives.dryFault _ _)
    exact Calm.bind (hv true) (Calm.gives (Gives.pure _ _) rfl)
  have hb : bits (kvGather.reg .A 2) 31 0 = 8 := by decide +kernel
  obtain ⟨u4, e4, -⟩ := (hv false).run p3 a3
  exact ⟨kvGather, t, u, u1, u2, u3, u4, 1, 2, 3, _, by decide +kernel, e, by rw [hb]; exact hc.rehearse pt at', e0, by decide +kernel, e1, e2, by decide +kernel, by decide +kernel, e3, by decide +kernel, e4,
    fun e he => by cases he⟩

/-- The end of a gather of one entry, its group placed. -/
def kvGathered : State := (kvState 8 0 (kvRecord 0x4000 1 8 3 noPage noPage 0 0 0 0 1 ++ kvPool)).modCtx fun c => c.modEng .A
  fun e => { e with prog := some { stage := 1, count := 1, data := [1, 1, 2, 1, 0x4000, 4, 0x10400] } }

theorem witness_kv_gathered : ∃ (s u : State) (prog : Prog), s.cc.runnable .A = true ∧ (s.ctx.eng .A).prog = some prog ∧ prog.stage = 1 ∧ prog.data.headD 0 = 1
    ∧ prog.data.getD 3 0 = 1 ∧ (1 + 63) / 64 ≤ prog.count
    ∧ (((prog.data.drop 4).take 1).forM fun a =>
        Kv.count ({ cl := .coreA s.cur, part := s.work.part, asid := s.work.asid, va := a, core := true } : Kv) fPin (-1)) s = .ok ((), u) := by
  obtain ⟨u, e, -⟩ := (Gives.forCons (f := fun a => Kv.count ({ kv0 with va := a } : Kv) fPin (-1)) (a := 0x4000) (Gives.count (x := kv0) (f := fPin) (d := -1) (s := kvGathered)
    (by decide +kernel) (by decide) (by decide +kernel)) Gives.forNil).run (Plain.of_check (by decide +kernel)) (Alike.refl _)
  have hx : ∀ a, ({ cl := .coreA kvGathered.cur, part := kvGathered.work.part, asid := kvGathered.work.asid, va := a, core := true } : Kv) = { kv0 with va := a } := by
    have h1 : kvGathered.cur = 0 ∧ kvGathered.work.part = 0 ∧ kvGathered.work.asid = 0 := by decide +kernel
    intro a
    rw [h1.1, h1.2.1, h1.2.2]
    rfl
  refine ⟨kvGathered, u, { stage := 1, count := 1, data := [1, 1, 2, 1, 0x4000, 4, 0x10400] }, by decide +kernel, rfl, rfl, rfl, rfl, by decide, ?_⟩
  simp only [hx]
  exact e

/-- KVSTAT and KVSTAT.drain. -/
theorem witness_kv_stat : ∃ (s t u : State) (v : Nat), Ready (.kvstat 0 3 1 2) .A 0 {} s = true ∧ kvOf 1 (s.issued .A 0 {} 2) = .ok (kv0, t)
    ∧ kv0.load (kv0.va + 8 * (2 : BitVec 4).toNat) 8 t = .ok (v, u) := by
  have h : kvCheck (kvState 0 0 kvBare) = true := by decide +kernel
  have hx := h
  simp only [kvCheck, Bool.and_eq_true, Bool.not_eq_true', Option.isNone_iff_eq_none] at hx
  obtain ⟨⟨⟨⟨⟨⟨⟨h1, -⟩, -⟩, -⟩, -⟩, -⟩, -⟩, h8⟩ := hx
  obtain ⟨t, e, pt, at'⟩ := (kvWritable_gives h).2.run (Plain.of_check h1) (Alike.refl _)
  obtain ⟨u, e1, -⟩ := (Gives.load (x := kv0) (va := 0x4010) (n := 8) (by decide +kernel) (by decide)).run pt at'
  exact ⟨_, t, u, _, by decide +kernel, e, e1⟩

theorem witness_kv_stat_drain : ∃ (s t u u1 u2 u3 : State) (c w v : Nat), Ready (.kvstatDrain 0 3 1) .A 0 {} s = true ∧ kvOf 1 (s.issued .A 0 {} 2) = .ok (kv0, t)
    ∧ kv0.rd fDrained t = .ok (c, u) ∧ kv0.rd fCommit u = .ok (c, u1) ∧ kv0.rd fState u1 = .ok (w, u2) ∧ kv0.load (kv0.va + 80) 8 u2 = .ok (v, u3) := by
  have h : kvCheck (kvState 0 0 kvBare) = true := by decide +kernel
  have hk : kv0.plainIn (kvAt (kvState 0 0 kvBare)) = true := by decide +kernel
  have hx := h
  simp only [kvCheck, Bool.and_eq_true, Bool.not_eq_true', Option.isNone_iff_eq_none] at hx
  obtain ⟨⟨⟨⟨⟨⟨⟨h1, -⟩, -⟩, -⟩, -⟩, -⟩, -⟩, h8⟩ := hx
  obtain ⟨t, e, pt, at'⟩ := (kvWritable_gives h).2.run (Plain.of_check h1) (Alike.refl _)
  obtain ⟨u, e0, pu, au⟩ := ((Gives.rd (f := fDrained) hk (by decide)).val (w := 3) (by decide +kernel)).run pt at'
  obtain ⟨u1, e1, p1, a1⟩ := ((Gives.rd (f := fCommit) hk (by decide)).val (w := 3) (by decide +kernel)).run pu au
  obtain ⟨u2, e2, p2, a2⟩ := ((Gives.rd (f := fState) hk (by decide)).val (w := 1) (by decide +kernel)).run p1 a1
  obtain ⟨u3, e3, -⟩ := (Gives.load (x := kv0) (va := kv0.va + 80) (n := 8) hk (by decide)).run p2 a2
  exact ⟨_, t, u, u1, u2, u3, 3, 1, _, by decide +kernel, e, e0, e1, e2, e3⟩

/-- Die 0 with one request, of positions 3 to 5 of the context at 0x4000. -/
def drain0 : Drain := { ctx := 0x4000, lo := 3, hi := 5, part := 0, asid := 0, core := 0, pool := 0x5000 }
def drainState (st : Nat) : State :=
  { kvState 0 0 (kvRecord 0x4000 st 8 3 noPage noPage 0 0 0 0 0 ++ kvPool) with dies := [(0, { drains := [drain0] })] }
def kvDrain : Kv := { cl := .shakeout 0, part := 0, asid := 0, va := 0x4000, core := false }

theorem drain_plain {st : Nat} (h : State.plainCheck { drainState st with dies := [] } = true) : Plain (drainState st) := by
  have p := Plain.of_check h
  have hd : ∀ d, (State.die (drainState st) d).fenceWalk = 0 ∧ (State.die (drainState st) d).nodes = [] ∧ (State.die (drainState st) d).replicas = [] :=
    SMap.get_of_all (P := fun x : Die => x.fenceWalk = 0 ∧ x.nodes = [] ∧ x.replicas = []) ⟨rfl, rfl, rfl⟩ (fun e he => by
      simp only [drainState, List.mem_singleton] at he
      subst he
      exact ⟨rfl, rfl, rfl⟩)
  exact {
    stalled := p.stalled
    walkers := fun d => (hd d).1
    replicas := fun d => (hd d).2.2
    base := p.base
    handles := p.handles
    root := p.root
    node := p.node
    leaf := p.leaf
    nodes := fun d n hn => by rw [(hd d).2.1] at hn; cases hn
    tlb := fun cl t ht => p.tlb cl t (by cases cl <;> exact ht)
    events := p.events }

/-- ShakeoutDrainCompletes: the context is closed, or the slot is empty. -/
theorem witness_drain_closed : ∃ (s t : State), (s.die 0).drains = [drain0] ∧ drain0.halted = false ∧ drainStep 0 drain0 s = .ok (none, t)
    ∧ (t.die 0).drains = (s.die 0).drains := by
  have g : Gives (drainStep 0 drain0) (drainState 0) none (drainState 0) := by
    unfold drainStep
    apply ((Gives.rd (x := kvDrain) (f := fState) (by decide +kernel) (by decide)).val (w := 0) (by decide +kernel)).bind
    exact Gives.ite_true (by decide) (Gives.pure none _)
  obtain ⟨t, e, -, a⟩ := g.run (drain_plain (by decide +kernel)) (Alike.refl _)
  exact ⟨_, t, by decide +kernel, rfl, e, by rw [a.die]⟩

theorem Gives.recordEnd {x : Kv} {s : State} {n i : Nat} (hn : n ≠ 0) : Gives (x.recordAt n noBlock i) s none s := by
  obtain ⟨n, rfl⟩ := Nat.exists_eq_succ_of_ne_zero hn
  rw [Kv.recordAt, if_pos rfl]
  exact Gives.pure _ _

theorem witness_drain_slot : ∃ (s t : State), (s.die 0).drains = [drain0] ∧ drain0.halted = false ∧ drainStep 0 drain0 s = .ok (some { drain0 with lo := 4 }, t)
    ∧ (t.die 0).drains = (s.die 0).drains := by
  have g : ∃ t, Gives (drainStep 0 drain0) (drainState 1) (some { drain0 with lo := 4 }) t ∧ (t.die 0).drains = ((drainState 1).die 0).drains := by
    apply Exists.intro
    apply And.intro
    · unfold drainStep
      have hk : kvDrain.plainIn (drainState 1) = true := by decide +kernel
      apply ((Gives.rd (x := kvDrain) (f := fState) hk (by decide)).val (w := 1) (by decide +kernel)).bind
      apply Gives.ite_false (by decide)
      apply ((Gives.rd (x := kvDrain) (f := fPin) hk (by decide)).val (w := 0) (by decide +kernel)).bind
      apply Gives.bind (v := ())
      · exact Gives.pure () _
      apply Gives.bind
      · exact ((Gives.rd (x := kvDrain) (f := fWheel) hk (by decide)).val (w := 0x6000) (by decide +kernel)).bind
          (((Gives.rd (x := kvDrain) (f := fLogw) hk (by decide)).val (w := 3) (by decide +kernel)).bind (Gives.pure 0x6018 _))
      apply Gives.bind (v := noBlock)
      · exact (Gives.field (x := kvDrain) hk (by decide)).val (w := noBlock) (by decide +kernel)
      beta_reduce
      apply (Gives.recordEnd (by decide)).bind
      apply ((Gives.field (x := kvDrain) hk (by decide)).val (w := noBlock) (by decide +kernel)).bind
      apply (Gives.blocksEnd (by decide) rfl).bind
      apply Gives.bind
      · unfold Kv.pack
        apply Gives.bind
        · exact Gives.forNil
        apply Gives.bind
        · exact Gives.forNil
        exact Gives.store (x := kvDrain) (va := 0x6018) hk (by decide) (by decide +kernel)
      apply (Gives.wr (x := kvDrain) (f := fDrained) (by decide +kernel) (by decide) (by decide +kernel)).bind
      exact Gives.pure _ _
    · decide +kernel
  obtain ⟨t, g, hd⟩ := g
  obtain ⟨u, e, -, a⟩ := g.run (drain_plain (by decide +kernel)) (Alike.refl _)
  exact ⟨_, u, by decide +kernel, rfl, e, by rw [a.die]; exact hd⟩

end Sys2Proof.Machine
end

