-- ==== Sys2Proof/Tests/WitnessQueues.lean ====
section
/-! SUPPORT. States that meet the hypotheses of the statements about queues, placement, retirement and order. -/

namespace Sys2Proof.Machine

set_option Elab.async false

/-! ### Events: work queues -/

/-- Queue 9, on a plain address space, core 0 running. -/
def qState (w : WQ) (data : SMap Byte) : State := { plain0 (cRegs 0 0 0) data with queues := [(9, w)] }

/-- EN, HWM 8 and LWM 2; a host-fed queue of 16 slots, its ring at 0x8000, its head word at 0x9000. -/
def qCfg : Word := 2 ^ 38 + 8 * 2 ^ 16 + 2
def qOn : WQ := { cfg := qCfg, st := 1, ring := 0x8000, heada := 0x9000, head := 3, tail := 5 }

theorem translate_plain {s : State} (h : s.plainCheck = true) (cl : Client) {va : Nat} (hv : va < 2 ^ 30) (acc : Nat) :
    ∃ u, s.translate cl 0 0 va acc = (.ok va, u) ∧ Plain u ∧ Alike s u := (Plain.of_check h).translate cl hv acc

/-- QueueEventsComplete, WQTAIL_WRITE: a tail that fits, to the last slot, and one that does not. -/
theorem witness_wqtail : ∃ (s : State) (v v' : Word), (let w := s.wq 9
    s.stage = 5 ∧ w.en = true ∧ w.deviceFed = false ∧ (v.setWidth 32 - w.tail).toNat ≤ w.size - w.depth
      ∧ w.size - w.depth < ((v'.setWidth 32 : BitVec 32) - w.tail).toNat ∧ w.held = []) := ⟨qState qOn [], 19, 20, by decide +kernel⟩

/-- WQ_ENABLE: limits kept, and not kept. -/
theorem witness_wq_enable : ∃ (s : State) (v v' : Word), s.stage = 5 ∧ (s.wq 9).en = false ∧ (s.wq 9).dirty = false
    ∧ (bits v 36 33 ≤ 12 ∧ 2 ≤ bits v 32 16 ∧ bits v 32 16 ≤ 2 ^ (bits v 36 33 + 4) ∧ 1 ≤ bits v 15 0 ∧ bits v 15 0 < bits v 32 16)
    ∧ ¬ (bits v' 36 33 ≤ 12 ∧ 2 ≤ bits v' 32 16 ∧ bits v' 32 16 ≤ 2 ^ (bits v' 36 33 + 4) ∧ 1 ≤ bits v' 15 0 ∧ bits v' 15 0 < bits v' 32 16) :=
  ⟨qState {} [], 16 * 2 ^ 16 + 15, 17 * 2 ^ 16 + 15, by decide +kernel⟩

/-- The same, a head word being owed: it can be written, and its address is none. -/
theorem witness_wq_enable_dirty : (∃ (s r u : State) (key : Nat), s.stage = 5 ∧ (s.wq 9).en = false ∧ (s.wq 9).dirty = true
      ∧ r = (s.dropQueueWaits 9).modWQ 9 (fun w => { w with cfg := qCfg, headBad := false })
      ∧ r.translate (.tundish (r.wq 9).home) (r.wq 9).part (r.wq 9).asid (s.wq 9).heada.toNat accWrite = (.ok key, u))
    ∧ ∃ (s : State) (c l : Nat), s.stage = 5 ∧ (s.wq 9).en = false ∧ (s.wq 9).dirty = true ∧ (s.wq 9).held = []
      ∧ (let r := (s.dropQueueWaits 9).modWQ 9 (fun w => { w with cfg := qCfg, headBad := false })
        (r.translate (.tundish (r.wq 9).home) (r.wq 9).part (r.wq 9).asid (s.wq 9).heada.toNat accWrite).1 = .fail c l) := by
  refine ⟨?_, qState { qOn with cfg := 0, dirty := true, heada := 2 ^ 52 } [], 3, 0, by decide +kernel⟩
  have h : ((qState { qOn with cfg := 0, dirty := true } []).dropQueueWaits 9).plainCheck = true := by decide +kernel
  obtain ⟨u, e, -⟩ := translate_plain (s := ((qState { qOn with cfg := 0, dirty := true } []).dropQueueWaits 9).modWQ 9
    fun w => { w with cfg := qCfg, headBad := false }) (by decide +kernel) (.tundish 0) (va := 0x9000) (by decide) accWrite
  exact ⟨qState { qOn with cfg := 0, dirty := true } [], _, u, 0x9000, by decide +kernel, by decide +kernel, by decide +kernel, rfl, e⟩

/-- WQ_DISABLE, and WQ_ENABLE of an enabled queue. -/
theorem witness_wq_disable : ∃ s : State, s.stage = 5 ∧ (s.wq 9).en = true ∧ (s.wq 9).held = [] := ⟨qState qOn [], by decide +kernel⟩

/-- HEAD_WORD_WRITE: it is written, it faults, and it waits for the next enable. -/
theorem witness_head_word : (∃ (s u : State) (key : Nat), (s.wq 9).dirty = true ∧ (s.wq 9).headBad = false
      ∧ s.translate (.tundish (s.wq 9).home) (s.wq 9).part (s.wq 9).asid (s.wq 9).heada.toNat accWrite = (.ok key, u))
    ∧ (let s := qState { qOn with dirty := true, heada := 2 ^ 52 } []
      (s.wq 9).dirty = true ∧ (s.wq 9).headBad = false ∧ (s.wq 9).held = []
        ∧ (s.translate (.tundish (s.wq 9).home) (s.wq 9).part (s.wq 9).asid (s.wq 9).heada.toNat accWrite).1 = .fail 3 0)
    ∧ ((qState { qOn with dirty := true, headBad := true } []).wq 9).headBad = true := by
  refine ⟨?_, by decide +kernel, by decide +kernel⟩
  obtain ⟨u, e, -⟩ := translate_plain (s := qState { qOn with dirty := true } []) (by decide +kernel) (.tundish 0) (va := 0x9000) (by decide) accWrite
  exact ⟨_, u, _, by decide +kernel, by decide +kernel, e⟩

theorem Alike.frontBad {s u : State} (h : Alike s u) (w : WQ) : u.frontBad w = s.frontBad w := by
  unfold State.frontBad
  split
  · rfl
  · rw [h.validRecord]

/-- FRONT_REFILL: of the second slot, the front record having had its check, and of the front, the host's record being invalid. -/
theorem witness_front_refill : ∀ b ∈ [false, true], ∃ (s u : State) (key : Nat), (let w := s.wq 9
    let x : WQ := { w with front := w.front ++ [(w.head + BitVec.ofNat 32 w.front.length, BitVec.ofNat 1024 (u.readM key 128))] }
    w.active = true ∧ w.front.length < 8 ∧ w.front.length < w.depth ∧ s.frontUsed w.home < 1024 ∧ w.held = []
      ∧ s.translate (.tundish w.home) w.part w.asid (w.slotVa (w.head + BitVec.ofNat 32 w.front.length)) accRead = (.ok key, u) ∧ u.frontBad x = b) := by
  intro b hb
  rcases List.mem_pair.1 hb with rfl | rfl
  · obtain ⟨u, e, -, au⟩ := translate_plain (s := qState { qOn with front := [(3, 0)], checked := true } []) (by decide +kernel) (.tundish 0)
      (va := 0x8200) (by decide) accRead
    refine ⟨qState { qOn with front := [(3, 0)], checked := true } [], u, 0x8200, by decide +kernel, by decide +kernel, by decide +kernel,
      by decide +kernel, by decide +kernel, e, ?_⟩
    rw [au.frontBad, au.readM]
    decide +kernel
  · obtain ⟨u, e, -, au⟩ := translate_plain (s := qState qOn []) (by decide +kernel) (.tundish 0) (va := 0x8180) (by decide) accRead
    refine ⟨qState qOn [], u, 0x8180, by decide +kernel, by decide +kernel, by decide +kernel, by decide +kernel, by decide +kernel, e, ?_⟩
    rw [au.frontBad, au.readM]
    decide +kernel

theorem enqueue_of {s u : State} {q key : Nat} (h : s.translate (.tundish (s.wq q).home) (s.wq q).part (s.wq q).asid ((s.wq q).slotVa (s.wq q).tail) accWrite = (.ok key, u))
    (r : BitVec 1024) : s.enqueue q r = ((u.writeN key 128 r.toNat).modWQ q fun w => { w with tail := w.tail + 1, pushed := w.pushed ++ [(w.tail, r)] }.watch, .counted) := by
  unfold State.enqueue
  simp only [h]

/-- HELD_PUSH_ENQUEUE: the push of the work on core 0. -/
theorem witness_held_push : ∃ (s u : State) (h : Held) (r : List Held) (k : Nat), (let w := s.wq 9
    w.held = h :: r ∧ w.active = true ∧ w.ovf = false ∧ w.depth < w.hwm ∧ s.enqueue 9 h.record = (u, .counted) ∧ s.coreOfWork h.work = some k) := by
  have h : (qState { qOn with held := [⟨5, 1, 3⟩] } []).plainCheck = true := by decide +kernel
  obtain ⟨u, e, -⟩ := translate_plain h (.tundish 0) (va := 0x8280) (by decide) accWrite
  have he := enqueue_of (s := qState { qOn with held := [⟨5, 1, 3⟩] } []) (q := 9) (key := 0x8280) (u := u) e 5
  exact ⟨qState { qOn with held := [⟨5, 1, 3⟩] } [], _, ⟨5, 1, 3⟩, [], 0, by decide +kernel, by decide +kernel, by decide +kernel, by decide +kernel, he, by decide +kernel⟩

/-- Work 8, descheduled at its push. -/
def pushOff : Seg := { work := { id := 8 }, ctx := some {}, st := .push }
def pushOffState : State := { qState { qOn with held := [⟨5, 8, 3⟩] } [] with off := [pushOff] }

/-- The same, its work being off every core. -/
theorem witness_held_push_off : ∃ (s u : State) (h : Held) (r : List Held) (g : Seg) (c : Ctx), (let w := s.wq 9
    w.held = h :: r ∧ w.active = true ∧ w.ovf = false ∧ w.depth < w.hwm ∧ s.enqueue 9 h.record = (u, .counted) ∧ s.coreOfWork h.work = none
      ∧ g ∈ s.off ∧ g.work.id = h.work ∧ g.st = .push ∧ g.ctx = some c) := by
  have h : pushOffState.plainCheck = true := by decide +kernel
  obtain ⟨u, e, -⟩ := translate_plain h (.tundish 0) (va := 0x8280) (by decide) accWrite
  have he := enqueue_of (s := pushOffState) (q := 9) (key := 0x8280) (u := u) e 5
  exact ⟨pushOffState, _, ⟨5, 8, 3⟩, [], pushOff, {}, by decide +kernel, by decide +kernel, by decide +kernel, by decide +kernel, he, by decide +kernel,
    by decide +kernel, rfl, rfl, rfl⟩

/-! ### Events: placement -/

/-- A code image at 0x800: two words, its text at 0x1000. -/
def image800 : List (Nat × Nat) := [(0x800, 0x4A584349), (0x808, 2 ^ 32 + 2), (0x810, 0x1000)]
/-- Records for it: a segment, a loop nest with no iteration and one of 3, speculative segments on condition variable 4. -/
def recSegment : BitVec 1024 := 0x600000000102 + (0x800 <<< 64)
def recNest (t : Nat) : BitVec 1024 := 0x610000000101 + (0x800 <<< 64) + BitVec.ofNat 1024 (t * 2 ^ 192) + (3 <<< 896) + (5 <<< 960)
def recSpeculative : BitVec 1024 := 0x600300000102 + (0x800 <<< 64) + ((4 * 2 ^ 16 + 2 ^ 32) <<< 128)
def imageOf800 : Image := { desc := 0x800, gen := 0, len := 2, text := 0x1000 }

/-- No core has work; queue 9 has a record at its front; other work is off every core. -/
def placer (r : BitVec 1024) (off : List Seg) (cv : List (Nat × Cv)) : State :=
  { plain0 {} (dwords image800) with
    cores := [], off, cvs := cv, queues := [(9, { qOn with front := [(3, r)] })]
    parts := [(0, { cfg := 1 + 64 * 2 ^ 13, wsem := [(0, 1), (1, 1)] })] }

theorem image_alike {s t : State} (p : Plain t) (a : Alike s t) (d : Nat)
    (g : s.readM 0x800 8 = 0x4A584349 ∧ s.readM 0x808 8 = 2 ^ 32 + 2 ∧ s.readM 0x810 8 = 0x1000 ∧ ∀ i < 5, s.readM (0x800 + 8 * (3 + i)) 8 = 0) :
    ∃ u, t.checkImage d 0 0 0x800 0 = (.ok imageOf800 [0x1000], u) ∧ Plain u ∧ Alike s u := by
  obtain ⟨u, e, pu, au'⟩ := p.translate (.loader d) (va := 0x800) (by decide) accRead
  have au := a.trans au'
  obtain ⟨v, e', pv, av⟩ := pu.translate (.loader d) (va := 0x1000) (by decide) accExec
  refine ⟨v, ?_, pv, au.trans av⟩
  unfold State.checkImage
  rw [e]
  simp only [au.readM]
  rw [show (0x800 : Nat) + 8 * 0 = 0x800 from rfl, show (0x800 : Nat) + 8 * 1 = 0x808 from rfl, show (0x800 : Nat) + 8 * 2 = 0x810 from rfl, g.1, g.2.1, g.2.2.1]
  have hz : (List.range 5).all (fun i => BitVec.ofNat 64 (s.readM (0x800 + 8 * (3 + i)) 8) = 0) = true := by
    simp only [List.all_eq_true, List.mem_range, decide_eq_true_eq]
    intro i hi
    rw [g.2.2.2 i hi]
    rfl
  rw [hz, if_pos (by decide +kernel)]
  have hp : ((4 * bits (BitVec.ofNat 64 (2 ^ 32 + 2)) 31 0 + 4095) / 4096) = 1 := by decide +kernel
  have ht : (BitVec.ofNat 64 0x1000).toNat = 0x1000 := by decide
  rw [hp, ht, pu.useReplica]
  unfold State.textKeys State.textKeys
  rw [e']
  rfl

theorem image_plain {s : State} (h : s.plainCheck = true) (d : Nat)
    (g : s.readM 0x800 8 = 0x4A584349 ∧ s.readM 0x808 8 = 2 ^ 32 + 2 ∧ s.readM 0x810 8 = 0x1000 ∧ ∀ i < 5, s.readM (0x800 + 8 * (3 + i)) 8 = 0) :
    ∃ u, s.checkImage d 0 0 0x800 0 = (.ok imageOf800 [0x1000], u) ∧ Plain u ∧ Alike s u := image_alike (Plain.of_check h) (Alike.refl s) d g

/-- What a grant of record r to core 0 needs. -/
def grantCheck (r : BitVec 1024) : Bool :=
  let s := placer r [] []
  s.queues.all (fun e => !s.frontBad e.2) && !s.outranked 9 && s.takes 0 == .queue 9 0 0 && (s.wq 9).frontRec == some r && recCode r == 0x800 && recEntry r == 0
    && (s.wq 9).part == 0 && (s.wq 9).asid == 0 && s.plainCheck && s.readM 0x800 8 == 0x4A584349 && s.readM 0x808 8 == 2 ^ 32 + 2 && s.readM 0x810 8 == 0x1000
    && (List.range 5).all fun i => s.readM (0x800 + 8 * (3 + i)) 8 == 0

theorem grant_of {r : BitVec 1024} (h : grantCheck r = true) : ∃ (s u : State) (i : Image) (keys : List Nat), (let w := s.wq 9
    (∀ e ∈ s.queues, s.frontBad e.2 = false) ∧ s.takes 0 = .queue 9 0 0 ∧ s.outranked 9 = false ∧ w.frontRec = some r
      ∧ s.checkImage (dieOf 0) w.part w.asid (recCode r) (recEntry r) = (.ok i keys, u)) := by
  simp only [grantCheck, Bool.and_eq_true, beq_iff_eq, List.all_eq_true, Bool.not_eq_true', List.mem_range] at h
  obtain ⟨⟨⟨⟨⟨⟨⟨⟨⟨⟨⟨⟨h1, h2⟩, h3⟩, h4⟩, h5⟩, h6⟩, h7⟩, h8⟩, h9⟩, g1⟩, g2⟩, g3⟩, g4⟩ := h
  obtain ⟨u, e, -⟩ := image_plain h9 (dieOf 0) ⟨g1, g2, g3, g4⟩
  refine ⟨placer r [] [], u, imageOf800, [0x1000], h1, h3, h2, h4, ?_⟩
  rw [h5, h6, h7, h8]
  exact e

/-- PlacementEventsComplete, PLACEMENT_GRANT: a segment, and the first iteration of a loop nest. -/
theorem witness_grant_segment : ∃ (s u : State) (i : Image) (keys : List Nat), (let w := s.wq 9
    (∀ e ∈ s.queues, s.frontBad e.2 = false) ∧ s.takes 0 = .queue 9 0 0 ∧ s.outranked 9 = false ∧ w.frontRec = some recSegment
      ∧ s.checkImage (dieOf 0) w.part w.asid (recCode recSegment) (recEntry recSegment) = (.ok i keys, u)) := grant_of (by decide +kernel)

theorem witness_grant_nest : ∃ (s u : State) (i : Image) (keys : List Nat), (let w := s.wq 9
    (∀ e ∈ s.queues, s.frontBad e.2 = false) ∧ s.takes 0 = .queue 9 0 0 ∧ s.outranked 9 = false ∧ w.frontRec = some (recNest 3)
      ∧ s.checkImage (dieOf 0) w.part w.asid (recCode (recNest 3)) (recEntry (recNest 3)) = (.ok i keys, u)) := grant_of (by decide +kernel)

/-- NEST_EMPTY_RETIRE. -/
theorem witness_nest_empty : ∃ (s : State) (r : BitVec 1024), (let w := s.wq 9
    w.frontRec = some r ∧ s.frontBad w = false ∧ w.active = true ∧ recEmpty r = true ∧ s.waitmMet w r = true ∧ s.outranked 9 = false) := ⟨placer (recNest 0) [] [], recNest 0, by decide +kernel⟩

/-- What a move of the speculative record needs, its variable with a value or none. -/
def moveCheck (x : Option Bool) : Bool :=
  let s := placer recSpeculative [] [(4, { part := 0, val := x })]
  let w := s.wq 9
  w.frontRec == some recSpeculative && !s.frontBad w && w.active && recKind recSpeculative == 2 && recSpec recSpeculative
    && s.cvOf w.part (recCv recSpeculative) == some { part := 0, val := x } && recSide recSpeculative && s.poolRoom && s.plainCheck
    && recCode recSpeculative == 0x800 && w.home == 0 && w.part == 0 && w.asid == 0

/-- SPEC_RECORD_MOVE: the variable resolved the other way, unresolved, and resolved as the record guesses. -/
theorem witness_spec_move : ∀ x ∈ [some false, none, some true], ∃ (s v : State) (cv : Cv) (key : Nat), (let w := s.wq 9
    w.frontRec = some recSpeculative ∧ s.frontBad w = false ∧ w.active = true ∧ recKind recSpeculative = 2 ∧ recSpec recSpeculative = true
      ∧ s.cvOf w.part (recCv recSpeculative) = some cv ∧ cv.val = x ∧ recSide recSpeculative = true ∧ s.poolRoom = true
      ∧ s.translate (.tundish w.home) w.part w.asid (recCode recSpeculative) accRead = (.ok key, v)) := by
  intro x hx
  have key : ∀ x ∈ [some false, none, some true], moveCheck x = true := by decide +kernel
  have h := key x hx
  simp only [moveCheck, Bool.and_eq_true, beq_iff_eq, Bool.not_eq_true'] at h
  obtain ⟨⟨⟨⟨⟨⟨⟨⟨⟨⟨⟨⟨h1, h2⟩, h3⟩, h4⟩, h5⟩, h6⟩, h7⟩, h8⟩, h9⟩, h10⟩, h11⟩, h12⟩, h13⟩ := h
  obtain ⟨v, e, -⟩ := translate_plain h9 (.tundish 0) (va := 0x800) (by decide) accRead
  refine ⟨placer recSpeculative [] [(4, { part := 0, val := x })], v, { part := 0, val := x }, 0x800, h1, h2, h3, h4, h5, h6, rfl, h7, h8, ?_⟩
  rw [h10, h11, h12, h13]
  exact e

/-- Work off every core: a new segment, a new one of the pool, and a saved one. -/
def segNew : Seg := { work := { id := 1, desc := 0x800, args := [7] } }
def segPool : Seg := { work := { id := 1, desc := 0x800, chain := [⟨4, true, 65535, 0, false⟩], place := true } }
def segSaved : Seg := { work := { id := 1, desc := 0x800 }, ctx := some { spad := [(0, 1)], c := { pc := 1, g := [(3, 5)] } }, st := .saved }

/-- PlacementEventsComplete, the last clause: POOL_TAKE, PLACEMENT_GRANT and WORK_RESUME; of saved work with its slot, and without one. -/
theorem witness_place : ∀ g ∈ [segNew, segPool, segSaved, { segSaved with slot := some 1 }], ∃ (s u : State) (i : Image) (keys : List Nat),
    (s.takes 0 = if g = segPool then .pool g else .seg g) ∧ (∀ e ∈ s.queues, s.frontBad e.2 = false) ∧ (∀ y ∈ s.off, y.st ≠ .fenced)
    ∧ i.gen = g.work.gen ∧ (g.ctx = none ∧ g.st = .fresh ∨ g.ctx.isSome = true ∧ g.st = .saved)
    ∧ s.checkImage (dieOf 0) g.work.part g.work.asid g.work.desc g.work.entry = (.ok i keys, u) := by
  intro g hg
  have key : ∀ g ∈ [segNew, segPool, segSaved, { segSaved with slot := some 1 }], (let s : State := { placer 0 [g] [] with queues := [] }
    (s.takes 0 = if g = segPool then .pool g else .seg g) ∧ (∀ e ∈ s.queues, s.frontBad e.2 = false) ∧ (∀ y ∈ s.off, y.st ≠ .fenced)
      ∧ g.work.gen = 0 ∧ (g.ctx = none ∧ g.st = .fresh ∨ g.ctx.isSome = true ∧ g.st = .saved) ∧ g.work.part = 0 ∧ g.work.asid = 0
      ∧ g.work.desc = 0x800 ∧ g.work.entry = 0 ∧ s.plainCheck = true
      ∧ s.readM 0x800 8 = 0x4A584349 ∧ s.readM 0x808 8 = 2 ^ 32 + 2 ∧ s.readM 0x810 8 = 0x1000
      ∧ ∀ i < 5, s.readM (0x800 + 8 * (3 + i)) 8 = 0) := by decide +kernel
  obtain ⟨h2, h3, h4, h5, h1, h6, h7, h8, h9, h10, h11⟩ := key g hg
  obtain ⟨u, e, -⟩ := image_plain h10 (dieOf 0) h11
  exact ⟨_, u, _, _, h2, h3, h4, h5.symm, h1, by rw [h6, h7, h8, h9]; exact e⟩

/-! ### Events: the end of work, conductors, order -/

/-- WorkEndAndConductorStart: every engine of core 0 has executed DONE; the segment signals semaphores 0 and 2. -/
def retiring : State := (unit0 { c := { done := true }, a := { done := true }, x := { done := true }, f := { done := true }, spad := [(0, 1)] }).modWork
  fun w => { w with sigm := 5 }

theorem witness_retire : ∃ (s : State) (w : Work), (s.core 0).work = some w ∧ (s.core 0).retires = true ∧ w.spec = false ∧ w.sb = [] ∧ (s.core 0).ob = []
    ∧ w.kind = .segment ∧ w.sigm = 5 := by
  have h : ((retiring.core 0).work.any fun w => !w.spec && w.sb.isEmpty && decide (w.kind = .segment) && decide (w.sigm = 5)) = true
      ∧ (retiring.core 0).retires = true ∧ (retiring.core 0).ob = [] := by decide +kernel
  obtain ⟨h1, h2, h3⟩ := h
  cases hw : (retiring.core 0).work with
  | none => rw [hw] at h1; cases h1
  | some w =>
    rw [hw] at h1
    simp only [Option.any_some, Bool.and_eq_true, decide_eq_true_eq, Bool.not_eq_true', List.isEmpty_iff] at h1
    exact ⟨retiring, w, hw, h2, h1.1.1.1, h1.1.1.2, h3, h1.1.2, h1.2⟩

/-- Conductor 0, its record at 0x2000. -/
def conducting : State := { plain0 {} (dwords (image800 ++ [(0x2000, 0x600000000102), (0x2008, 0x800)])) with cores := [], conds := [(0, { record := 0x2000 })] }
def conductor1 : Cond := { record := 0x2000, en := true, waits := true }

def conductorCheck : Bool :=
  let s : State := { conducting with conds := conducting.conds.put 0 conductor1 }
  s.plainCheck && s.readM 0x800 8 == 0x4A584349 && s.readM 0x808 8 == 2 ^ 32 + 2 && s.readM 0x810 8 == 0x1000
    && ((List.range 5).all fun i => s.readM (0x800 + 8 * (3 + i)) 8 == 0) && BitVec.ofNat 1024 (s.readM 0x2000 128) == recSegment
    && recKind recSegment == 2 && !recSpec recSegment && s.validRecord 0 recSegment && (s.part 0).semsReady (recWaitm recSegment)
    && recCode recSegment == 0x800 && recEntry recSegment == 0

theorem witness_conductor : ∃ (s : State) (v : Word) (key : Nat) (u : State) (r : BitVec 1024) (i : Image) (keys : List Nat) (w : State), s.stage = 5
    ∧ (s.conds.get {} 0).run = false ∧ (s.core 1024).work = none ∧ (s.core 1024).fenced = false ∧ (s.core 1024).test = none ∧
    (let x : Cond := { s.conds.get {} 0 with asid := v.extractLsb' 48 16, part := v.extractLsb' 44 4, en := true, flt := false, waits := true }
    ({ s with conds := s.conds.put 0 x } : State).translate (.loader (dieOf 1024)) (bits v 47 44) (bits v 63 48) x.record.toNat accRead = (.ok key, u) ∧
    r = BitVec.ofNat 1024 (u.readM key 128) ∧ recKind r = 2 ∧ recSpec r = false ∧ u.validRecord (bits v 47 44) r = true ∧
    (u.part (bits v 47 44)).semsReady (recWaitm r) = true
    ∧ (u.useReplica (dieOf 1024) key).checkImage (dieOf 1024) (bits v 47 44) (bits v 63 48) (recCode r) (recEntry r) = (.ok i keys, w)) := by
  have h : conductorCheck = true := by decide +kernel
  simp only [conductorCheck, Bool.and_eq_true, beq_iff_eq, List.all_eq_true, Bool.not_eq_true', List.mem_range] at h
  obtain ⟨⟨⟨⟨⟨⟨⟨⟨⟨⟨⟨h1, h2⟩, h3⟩, h4⟩, h5⟩, h6⟩, h7⟩, h8⟩, h9⟩, h10⟩, h11⟩, h12⟩ := h
  obtain ⟨u, e, pu, au⟩ := translate_plain h1 (.loader (dieOf 1024)) (va := 0x2000) (by decide) accRead
  obtain ⟨w, e', -⟩ := image_alike pu au (dieOf 1024) ⟨h2, h3, h4, h5⟩
  refine ⟨conducting, 0, 0x2000, u, recSegment, imageOf800, [0x1000], w, by decide +kernel, by decide +kernel, by decide +kernel, by decide +kernel, by decide +kernel, e, ?_, h7,
    h8, ?_, ?_, ?_⟩
  · rw [au.readM, h6]
  · rw [show bits (0 : Word) 47 44 = 0 from by decide, au.validRecord]; exact h9
  · rw [show bits (0 : Word) 47 44 = 0 from by decide, au.part]; exact h10
  · rw [show bits (0 : Word) 47 44 = 0 from by decide, show bits (0 : Word) 63 48 = 0 from by decide, h11, h12, pu.useReplica]; exact e'

/-- OrderingEventsComplete: PERFORM. -/
theorem witness_perform : ∃ (s : State) (st : Store) (r : List Store), (s.core 0).ob = st :: r ∧ s.noPath st.key = false ∧ s.lostPeer st.key = false :=
  ⟨(unit0 {}).modCore 0 fun c => { c with ob := [store1] }, store1, [], by decide +kernel⟩

/-- PHASE_BOUNDARY of cluster 0 (level 1), and of the whole partition: two cores have arrived, and the work of a third joins in that cycle. -/
def arrived (lvl : Nat) : State :=
  let s := (unit0 { c := { prog := some { stage := 2, data := [lvl] } } }).modWork fun w => { w with arrived := some lvl }
  { s with cores := s.cores ++ [(3, { s.core 0 with work := some { id := 2, len := 64, arrived := some lvl } }),
                                (5, { work := some { id := 3, len := 64, joined := s.now + 1 } })] }

theorem witness_boundary : ∀ x ∈ [(1, 0), (3, 0)], ∃ (s : State), (s.part 0).en = true ∧ 1 ≤ x.1 ∧ x.1 ≤ 4 ∧ (x.1 < 3 ∨ x.2 = 0) ∧ s.activeCores 0 x.1 x.2 ≠ []
    ∧ (∀ g ∈ s.off, s.activeOff 0 x.1 x.2 g = false) ∧ (∀ k ∈ s.activeCores 0 x.1 x.2, (s.core k).arrivedAt x.1 = true)
    ∧ 5 ∈ s.joiners 0 x.1 x.2 ∧ 5 ∉ s.activeCores 0 x.1 x.2 := by
  intro x hx
  have key : ∀ x ∈ [(1, 0), (3, 0)], ((arrived x.1).part 0).en = true ∧ 1 ≤ x.1 ∧ x.1 ≤ 4 ∧ (x.1 < 3 ∨ x.2 = 0) ∧ (arrived x.1).activeCores 0 x.1 x.2 ≠ []
    ∧ (∀ g ∈ (arrived x.1).off, (arrived x.1).activeOff 0 x.1 x.2 g = false)
    ∧ (∀ k ∈ (arrived x.1).activeCores 0 x.1 x.2, ((arrived x.1).core k).arrivedAt x.1 = true)
    ∧ 5 ∈ (arrived x.1).joiners 0 x.1 x.2 ∧ 5 ∉ (arrived x.1).activeCores 0 x.1 x.2 := by decide +kernel
  exact ⟨_, key x hx⟩

/-- SLIP_BOUND_LIFT: C waits by the bound alone, the others for tokens and for a hold. -/
def locked : State :=
  { unit0 { x := { hold := some .fault } } with quiet := [(0, .C, .slip), (0, .A, .token), (0, .F, .queue)] }

theorem witness_lift : ∃ s : State, s.slipLocked 0 = true ∧ (s.core 0).ctx.csr.lifted = [] := ⟨locked, by decide +kernel⟩

end Sys2Proof.Machine
end

