-- ==== Sys2Proof/Tests/WitnessLadles.lean ====
section
/-! SUPPORT. States that meet the hypotheses of the statements about the ladles. -/

namespace Sys2Proof.Machine

set_option Elab.async false

/-! ### Events: the ladles -/

/-- The chain of core 0 at scratchpad address 0. -/
def chain0 : Chain := { lad := 0, addr := 0, core := 0, work := 1, part := 0, asid := 0, seq := 0 }

/-- Ladle 0 runs a chain whose entries are doublewords of scratchpad, with its cluster's semaphore 4. -/
def ladling (e : List (Nat × Nat)) (r : Run) (x : Sem) (data : SMap Byte) : State :=
  { plain0 { spad := dwords e } data with ladles := [(0, { run := some r })], sems := [(4, x)] }

/-- What `atEntry` asks, as a test. -/
def State.entryCheck (s : State) (l : Nat) (r : Run) (op : Nat) : Bool :=
  decide ((s.ladle l).run = some r) && !(s.ladle l).halted && !(s.ladle l).fenced && (s.ladle l).test.isNone && !r.abandoned
    && r.copies.isEmpty && r.dropped.isNone && decide (s.entryOp r.chain r.idx = some op) && !s.entryReserved r.chain r.idx op

theorem State.atEntry_of {s : State} {l : Nat} {r : Run} {op : Nat} (h : s.entryCheck l r op = true) : s.atEntry l r op := by
  simp only [State.entryCheck, Bool.and_eq_true, decide_eq_true_eq, Bool.not_eq_true', Option.isNone_iff_eq_none, List.isEmpty_iff] at h
  obtain ⟨⟨⟨⟨⟨⟨⟨⟨h1, h2⟩, h3⟩, h4⟩, h5⟩, h6⟩, h7⟩, h8⟩, h9⟩ := h
  exact ⟨h1, h2, h3, h4, h5, h6, h7, h8, h9⟩

theorem chainWindow_plain {s : State} {c : Chain} (hc : c.part = 0) (hs : (s.part 0).handles = []) {va : Nat} (hv : va < 2 ^ 30) : s.chainWindow c va = va := by
  rw [State.chainWindow, State.redirect, hc, hs, Nat.mod_eq_of_lt (by omega)]
  rfl

theorem ladleRead_plain {s : State} (p : Plain s) (hs : s.poison = [] ∧ (s.part 0).handles = []) (l : Nat) {c : Chain} (hc : c.part = 0 ∧ c.asid = 0)
    {va : Nat} (hv : va < 2 ^ 30) (n ext : Nat) : ∃ u, ladleRead l c va n ext s = .ok (s.bytesM va n, u) ∧ Plain u ∧ Alike s u := by
  obtain ⟨u, e, pu, au⟩ := p.xlateAs (.ladle l) hv accRead ext
  refine ⟨u, ?_, pu, au⟩
  have hp : u.readPoisoned (l / 32) va n = false := by
    rw [State.readPoisoned, au.poisoned, State.poisoned, plain_lostPeer s hv, hs.1]
    simp
  have hm : u.bytesM va n = s.bytesM va n := by rw [State.bytesM, au.mem]; rfl
  have hr : u.useReplica (l / 32) va = u := by
    rw [State.useReplica, pu.replicaOn]
    rfl
  unfold ladleRead
  rw [Act.bind_ok (Act.get_run s), chainWindow_plain hc.1 hs.2 hv,
    Act.bind_ok (show ladleXlate l c va accRead ext s = .ok (va, u) from by rw [ladleXlate, hc.1, hc.2]; exact e), Act.bind_ok (Act.get_run u),
    plain_noPath u hv, Act.bind_ok (Act.waitIf_false ..), hp, Act.bind_ok (Act.trapIf_false ..), hr, Act.bind_ok (Act.set_run ..), hm]
  rfl

theorem ladleTarget_plain {s : State} (p : Plain s) (hs : (s.part 0).handles = []) (l : Nat) {c : Chain} (hc : c.part = 0 ∧ c.asid = 0)
    {va : Nat} (hv : va < 2 ^ 30) (ext : Nat) : ∃ u, ladleTarget l c va ext s = .ok (va, u) ∧ Plain u ∧ Alike s u := by
  obtain ⟨u, e, pu, au⟩ := p.xlateAs (.ladle l) hv accWrite ext
  refine ⟨u, ?_, pu, au⟩
  unfold ladleTarget
  rw [Act.bind_ok (Act.get_run s), chainWindow_plain hc.1 hs hv,
    Act.bind_ok (show ladleXlate l c va accWrite ext s = .ok (va, u) from by rw [ladleXlate, hc.1, hc.2]; exact e), Act.bind_ok (Act.get_run u),
    plain_noPath u hv, Act.bind_ok (Act.waitIf_false ..), Act.bind_ok (Act.get_run u), plain_lostPeer u hv, Act.bind_ok (Act.trapIf_false ..)]
  rfl

/-- ChainEntriesComplete: CHAIN_START. -/
theorem witness_chain_start : ∃ (s : State) (c : Chain) (rest : List Chain), (s.ladle 0).run = none ∧ (s.ladle 0).fenced = false ∧ (s.ladle 0).test = none
    ∧ (s.ladle 0).halted = false ∧ (s.ladle 0).resume = [] ∧ (s.ladle 0).queue = c :: rest :=
  ⟨{ unit0 {} with ladles := [(0, { queue := [chain0, { chain0 with seq := 1 }] })] }, chain0, [{ chain0 with seq := 1 }], by decide +kernel⟩

/-- LADLE_LOOP: entry 1 goes back over a COPY, first reached; and with its count used up. -/
def loopEntries : List (Nat × Nat) := [(0, 1), (64, 2), (72, 3), (80, 1), (88, 16)]
theorem witness_ladle_loop : ∀ r ∈ [({ chain := chain0, idx := 1 } : Run), { chain := chain0, idx := 1, loops := [(1, 1)] }], ∃ s : State, s.atEntry 0 r 2
    ∧ s.entryDw r.chain r.idx 1 ≠ 0 ∧ s.entryDw r.chain r.idx 2 ≠ 0 ∧ (s.entryDw r.chain r.idx 2).toNat ≤ r.idx
    ∧ ∀ j, j < (s.entryDw r.chain r.idx 2).toNat → s.entryOp r.chain (r.idx - (s.entryDw r.chain r.idx 2).toNat + j) ≠ some 2
      ∧ s.entryOp r.chain (r.idx - (s.entryDw r.chain r.idx 2).toNat + j) ≠ some 8 := by
  intro r hr
  have key : ∀ r ∈ [({ chain := chain0, idx := 1 } : Run), { chain := chain0, idx := 1, loops := [(1, 1)] }], (let s := ladling loopEntries r {} []
    s.entryCheck 0 r 2 = true ∧ s.entryDw r.chain r.idx 1 ≠ 0 ∧ s.entryDw r.chain r.idx 2 ≠ 0 ∧ (s.entryDw r.chain r.idx 2).toNat ≤ r.idx
    ∧ ∀ j, j < (s.entryDw r.chain r.idx 2).toNat → s.entryOp r.chain (r.idx - (s.entryDw r.chain r.idx 2).toNat + j) ≠ some 2
      ∧ s.entryOp r.chain (r.idx - (s.entryDw r.chain r.idx 2).toNat + j) ≠ some 8) := by decide +kernel
  exact ⟨_, State.atEntry_of (key r hr).1, (key r hr).2⟩

def run0 : Run := { chain := chain0 }

theorem ladling_clean (e : List (Nat × Nat)) (r : Run) (x : Sem) (data : SMap Byte) :
    (ladling e r x data).poison = [] ∧ ((ladling e r x data).part 0).handles = [] := ⟨rfl, rfl⟩

/-- COND: the doubleword at 0x100 is 7: it skips one entry, the last before END. -/
def condEntries : List (Nat × Nat) := [(0, 3), (8, 0x100), (16, 7), (24, 1), (64, 1), (128, 8)]
theorem witness_ladle_cond : ∃ (s : State) (d : List Byte) (u : State), (let f := s.entryDw run0.chain run0.idx
    s.atEntry 0 run0 3 ∧ bits (f 0) 10 8 ≤ 5 ∧ f 3 ≠ 0 ∧ (f 1).toNat % 8 = 0 ∧ (f 0).getLsbD 20 = false
      ∧ ladleRead 0 run0.chain (f 1).toNat 8 8 s = .ok (d, u) ∧ ∀ j, j < (f 3).toNat → u.entryOp run0.chain (run0.idx + 1 + j) ≠ some 8) := by
  have h : (let s := ladling condEntries run0 {} [(0x100, 7)]
    let f := s.entryDw run0.chain run0.idx
    s.entryCheck 0 run0 3 = true ∧ bits (f 0) 10 8 ≤ 5 ∧ f 3 ≠ 0 ∧ (f 1).toNat % 8 = 0 ∧ (f 0).getLsbD 20 = false ∧ (f 1).toNat = 0x100 ∧ (f 3).toNat = 1
      ∧ s.plainCheck = true ∧ s.entryOp run0.chain 1 ≠ some 8) := by decide +kernel
  obtain ⟨h1, h2, h3, h4, h5, h6, h7, h8, h9⟩ := h
  obtain ⟨u, e, -, au⟩ := ladleRead_plain (Plain.of_check h8) (ladling_clean ..) 0 (c := chain0) ⟨rfl, rfl⟩ (va := 0x100) (by decide) 8 8
  refine ⟨ladling condEntries run0 {} [(0x100, 7)], _, u, State.atEntry_of h1, h2, h3, h4, h5, by rw [h6]; exact e, ?_⟩
  intro j hj
  rw [h7] at hj
  obtain rfl : j = 0 := by omega
  have : u.entryOp run0.chain 1 = (ladling condEntries run0 {} [(0x100, 7)]).entryOp run0.chain 1 := by
    unfold State.entryOp State.entryDw
    rw [au.ctx]
  rw [show run0.idx + 1 + 0 = 1 from rfl, this]
  exact h9

/-- COND with SSP, of the last doubleword of the core's scratchpad. -/
def spadEntries : List (Nat × Nat) := [(0, 3 + 2 ^ 20), (8, 786424), (16, 7), (24, 1), (64, 1), (128, 8)]
theorem witness_ladle_cond_spad : ∃ s : State, (let f := s.entryDw run0.chain run0.idx
    s.atEntry 0 run0 3 ∧ bits (f 0) 10 8 ≤ 5 ∧ f 3 ≠ 0 ∧ (f 1).toNat % 8 = 0 ∧ (f 0).getLsbD 20 = true ∧ (f 1).toNat + 8 = 786432
      ∧ ∀ j, j < (f 3).toNat → s.entryOp run0.chain (run0.idx + 1 + j) ≠ some 8) := by
  have h : (let s := ladling spadEntries run0 {} []
    let f := s.entryDw run0.chain run0.idx
    s.entryCheck 0 run0 3 = true ∧ bits (f 0) 10 8 ≤ 5 ∧ f 3 ≠ 0 ∧ (f 1).toNat % 8 = 0 ∧ (f 0).getLsbD 20 = true ∧ (f 1).toNat + 8 = 786432
      ∧ ∀ j, j < (f 3).toNat → s.entryOp run0.chain (run0.idx + 1 + j) ≠ some 8) := by decide +kernel
  exact ⟨_, State.atEntry_of h.1, h.2⟩

/-- SEMWAIT of the whole count, and SEMSIG, of semaphore 4; SEMAPHORE_TAKE by core 0's A. -/
theorem witness_semwait : ∃ s : State, (let f := s.entryDw run0.chain run0.idx
    s.atEntry 0 run0 4 ∧ bits (f 1) 25 16 ≠ 0 ∧ bits (f 1) 7 0 = 4 ∧ (s.sem 4).waiters = [] ∧ (s.sem 4).taken = [] ∧ bits (f 1) 25 16 ≤ (s.sem 4).count) := by
  have h : (let s := ladling [(0, 4), (8, 0x30004)] run0 { count := 3 } []
    let f := s.entryDw run0.chain run0.idx
    s.entryCheck 0 run0 4 = true ∧ bits (f 1) 25 16 ≠ 0 ∧ bits (f 1) 7 0 = 4 ∧ (s.sem 4).waiters = [] ∧ (s.sem 4).taken = [] ∧ bits (f 1) 25 16 ≤ (s.sem 4).count) := by
    decide +kernel
  exact ⟨_, State.atEntry_of h.1, h.2⟩
theorem witness_semsig : ∃ s : State, s.atEntry 0 run0 5 ∧ bits (s.entryDw run0.chain run0.idx 1) 25 16 ≠ 0 := by
  have h : (let s := ladling [(0, 5), (8, 0x30004)] run0 { count := 65533 } []
    s.entryCheck 0 run0 5 = true ∧ bits (s.entryDw run0.chain run0.idx 1) 25 16 ≠ 0) := by decide +kernel
  exact ⟨_, State.atEntry_of h.1, h.2⟩
theorem witness_sem_take : ∃ (s : State) (w : Waiter) (rest : List Waiter), (s.sem 4).waiters = w :: rest ∧ w.count ≤ (s.sem 4).count :=
  ⟨{ unit0 {} with sems := [(4, { count := 2, waiters := [.core 1 2, .ladle 0 1] })] }, .core 1 2, [.ladle 0 1], by decide +kernel⟩

/-- LADLE_PUBL of handle 5: in a bad chain, and of the work on core 0. -/
def publEntries : List (Nat × Nat) := [(0, 6), (8, 5)]
theorem witness_ladle_publ_bad : ∀ n ∈ [4, 5], ∃ (s : State) (r : Run) (e : Nat × Nat), s.atEntry 0 r 6 ∧ r.bad = some e ∧ e.1 = n := by
  intro n hn
  have h : ∀ n ∈ [4, 5], (ladling publEntries { run0 with bad := some (n, 0) } {} []).entryCheck 0 { run0 with bad := some (n, 0) } 6 = true := by decide +kernel
  exact ⟨_, _, _, State.atEntry_of (h n hn), rfl, rfl⟩
def publisher : State := (ladling publEntries run0 {} []).modPart 0 fun p => { p with handles := [(5, { window := 0x10000, twin := 0x20000, len := 4096, owner := 1 })] }
theorem witness_ladle_publ : ∃ (s : State) (k : Nat) (w : Work) (y : Handle), s.atEntry 0 run0 6 ∧ run0.bad = none
    ∧ (s.part run0.chain.part).handles.find (bits (s.entryDw run0.chain run0.idx 1) 9 0) = some y ∧ y.armed = true ∧ y.owner = run0.chain.work
    ∧ s.coreOfWork run0.chain.work = some k ∧ (s.core k).work = some w ∧ w.sb = [] ∧ (s.core k).ob = [] ∧ run0.publ = none := by
  have h : publisher.entryCheck 0 run0 6 = true ∧ (publisher.part run0.chain.part).handles.find (bits (publisher.entryDw run0.chain run0.idx 1) 9 0)
      = some { window := 0x10000, twin := 0x20000, len := 4096, owner := 1 } ∧ publisher.coreOfWork run0.chain.work = some 0
      ∧ (publisher.core 0).work.any (fun w => w.sb.isEmpty) = true ∧ (publisher.core 0).ob = [] := by decide +kernel
  obtain ⟨h1, h2, h3, h4, h5⟩ := h
  cases hw : (publisher.core 0).work with
  | none => rw [hw] at h4; cases h4
  | some w =>
    rw [hw] at h4
    exact ⟨publisher, 0, w, _, State.atEntry_of h1, rfl, h2, rfl, rfl, h3, hw, by simpa using h4, h5, rfl⟩

/-- LADLE_END without a record. -/
theorem witness_ladle_end : ∃ s : State, s.atEntry 0 run0 8 ∧ s.entryDw run0.chain run0.idx 1 = 0 := by
  have h : (ladling [(0, 8)] run0 {} []).entryCheck 0 run0 8 = true ∧ (ladling [(0, 8)] run0 {} []).entryDw run0.chain run0.idx 1 = 0 := by decide +kernel
  exact ⟨_, State.atEntry_of h.1, h.2⟩

/-- LADLE_END with a record at 0x300, of a chain that ends well and of one that has failed. -/
theorem witness_ladle_end_record : ∀ r ∈ [run0, { run0 with bad := some (5, 1) }], ∃ (s u : State) (key : Nat), (let f := s.entryDw r.chain r.idx
    s.atEntry 0 r 8 ∧ f 1 ≠ 0 ∧ (f 1).toNat % 64 = 0 ∧ ladleTarget 0 r.chain (f 1).toNat 64 s = .ok (key, u)) := by
  intro r hr
  have h : ∀ r ∈ [run0, { run0 with bad := some (5, 1) }], (let s := ladling [(0, 8), (8, 0x300)] r {} []
    s.entryCheck 0 r 8 = true ∧ s.entryDw r.chain r.idx 1 = 0x300 ∧ s.plainCheck = true ∧ r.chain.part = 0 ∧ r.chain.asid = 0) := by decide +kernel
  obtain ⟨h1, h2, h3, h4⟩ := h r hr
  obtain ⟨u, e, -⟩ := ladleTarget_plain (Plain.of_check h3) (ladling_clean ..).2 0 (c := r.chain) h4 (va := 0x300) (by decide) 64
  refine ⟨_, u, 0x300, State.atEntry_of h1, ?_, ?_, ?_⟩
  · rw [h2]; decide
  · rw [h2]; decide
  · rw [h2]; exact e

/-! #### COPY, FPRINT and beats -/

/-- What `atCopy` asks, as a test. -/
def State.copyCheck (s : State) (l : Nat) (r : Run) (o : CopyOp) : Bool :=
  decide ((s.ladle l).run = some r) && !(s.ladle l).halted && !(s.ladle l).fenced && (s.ladle l).test.isNone && !r.abandoned
    && decide (r.copies = [o]) && r.dropped.isNone && (!o.issued || decide (s.entryOp r.chain r.idx ≠ some 1))

theorem State.atCopy_of {s : State} {l : Nat} {r : Run} {o : CopyOp} (h : s.copyCheck l r o = true) : s.atCopy l r o := by
  simp only [State.copyCheck, Bool.and_eq_true, decide_eq_true_eq, Bool.not_eq_true', Option.isNone_iff_eq_none, Bool.or_eq_true] at h
  obtain ⟨⟨⟨⟨⟨⟨⟨h1, h2⟩, h3⟩, h4⟩, h5⟩, h6⟩, h7⟩, h8⟩ := h
  exact ⟨h1, h2, h3, h4, h5, h6, h7, fun hi => by rcases h8 with h8 | h8; · rw [hi] at h8; cases h8
                                                  · exact h8⟩

/-- The entry: 32 bytes from 0x100 to scratchpad 0x400 of core 0, or to 0x200; its record at 0x300. -/
def copyEntries (dw0 rec : Nat) : List (Nat × Nat) := [(0, dw0), (8, 0x100), (16, 0x400), (24, 32), (40, rec), (64, 8)]
def copyOp0 (fprint issued : Bool) (dw0 : Word) (off rec : Nat) : CopyOp :=
  { idx := 0, fprint, dw0, src := 0x100, dst := if fprint then 0 else 0x400, len := 32, pitch := 0, recAddr := rec, off, issued }
def copyRun (o : CopyOp) : Run := { chain := chain0, idx := 1, copies := [o] }
def copyData : SMap Byte := [(0x100, 1), (0x110, 2), (0x11F, 3)]

/-- CopiesComplete: a COPY, and an FPRINT, begins. -/
theorem witness_copy_begin : ∃ s : State, s.atEntry 0 run0 1 ∧ run0.bad = none ∧ copyMalformed (run0.entryOp (s.entryDw run0.chain run0.idx) false) = false := by
  have h : (let s := ladling (copyEntries (1 + 2 ^ 21) 0x300) run0 {} []
    s.entryCheck 0 run0 1 = true ∧ copyMalformed (run0.entryOp (s.entryDw run0.chain run0.idx) false) = false) := by decide +kernel
  exact ⟨_, State.atEntry_of h.1, rfl, h.2⟩
theorem witness_fprint_begin : ∃ s : State, s.atEntry 0 run0 7 ∧ run0.bad = none ∧ fprintMalformed (run0.entryOp (s.entryDw run0.chain run0.idx) true) = false := by
  have h : (let s := ladling [(0, 7 + 14 * 2 ^ 25), (8, 0x100), (24, 32), (40, 0x300)] run0 {} []
    s.entryCheck 0 run0 7 = true ∧ fprintMalformed (run0.entryOp (s.entryDw run0.chain run0.idx) true) = false) := by decide +kernel
  exact ⟨_, State.atEntry_of h.1, rfl, h.2⟩

/-- A granule of a tier source, on a plain state. -/
theorem sourceReads_plain {s : State} (p : Plain s) (hs : s.poison = [] ∧ (s.part 0).handles = []) {c : Chain} (hc : c.part = 0 ∧ c.asid = 0)
    {o : CopyOp} (ho : o.dw0.getLsbD 20 = false) {va : Nat} (hv : va < 2 ^ 30) :
    ∃ u, s.sourceReads 0 c o va 1 (s.bytesM va 16) u ∧ Plain u ∧ Alike s u := by
  obtain ⟨u, e, pu, au⟩ := ladleRead_plain p hs 0 hc hv 16 (o.len - o.off)
  refine ⟨u, ?_, pu, au⟩
  rw [State.sourceReads, if_neg (by rw [ho]; decide)]
  refine ⟨[s.bytesM va 16], ?_, by simp⟩
  rw [show List.range 1 = [0] from rfl, List.mapM_cons, Act.bind_ok (show ladleRead 0 c (va + 16 * 0) 16 (o.len - o.off) s = _ from e), List.mapM_nil]
  rfl

theorem copyGives_plain {s u : State} {c : Chain} {o : CopyOp} {d : List Byte} {a : Nat} (h : o.dw0.getLsbD 18 = false) (ha : o.src + o.off = a)
    (e : s.sourceReads 0 c o a 1 d u) : s.copyGives 0 c o o d u := by
  rw [State.copyGives, if_neg (by rw [h]; decide), ha]
  exact ⟨e, rfl⟩

/-- The last 16 bytes of a COPY to scratchpad, with SPAN 0 and, gathering a fingerprint, with SPAN 1. -/
def spadDws : List Word := [0x200001, 0x1C680001]
theorem witness_copy_spad : ∀ dw0 ∈ spadDws, ∃ (s : State) (r : Run) (o o' : CopyOp) (d : List Byte) (u : State),
    s.atCopy 0 r o ∧ o.fprint = false ∧ o.issued = false ∧ o.dw0 = dw0 ∧ s.copyGives 0 r.chain o o' d u ∧ o.dw0.getLsbD 21 = true := by
  intro dw0 hd
  have h1 : (ladling (copyEntries dw0.toNat 0x300) (copyRun (copyOp0 false false dw0 16 0x300)) {} copyData).copyCheck 0
      (copyRun (copyOp0 false false dw0 16 0x300)) (copyOp0 false false dw0 16 0x300) = true := by
    simp only [spadDws, List.mem_cons, List.not_mem_nil, or_false] at hd
    rcases hd with rfl | rfl <;> decide +kernel
  obtain ⟨h2, h3, h4, h5⟩ : (ladling (copyEntries dw0.toNat 0x300) (copyRun (copyOp0 false false dw0 16 0x300)) {} copyData).plainCheck = true
      ∧ dw0.getLsbD 18 = false ∧ dw0.getLsbD 20 = false ∧ dw0.getLsbD 21 = true := by
    simp only [spadDws, List.mem_cons, List.not_mem_nil, or_false] at hd
    rcases hd with rfl | rfl <;> decide +kernel
  obtain ⟨u, e, -⟩ := sourceReads_plain (Plain.of_check h2) (ladling_clean ..) (c := chain0) ⟨rfl, rfl⟩ (o := copyOp0 false false dw0 16 0x300) h4 (va := 0x110) (by decide)
  exact ⟨_, _, copyOp0 false false dw0 16 0x300, _, _, u, State.atCopy_of h1, rfl, rfl, rfl, copyGives_plain h3 rfl e, h5⟩

/-- The first 16 bytes of a COPY to the ladle's own die, and to another die, unordered and ordered. -/
theorem witness_copy_tier : ∀ x ∈ [(0x400, 0, 0), (0x12000000, 1, 0), (0x12000000, 1, 2)], ∃ (s : State) (r : Run) (o o' : CopyOp) (d : List Byte) (u : State) (key : Nat) (w : State),
    s.atCopy 0 r o ∧ o.fprint = false ∧ o.issued = false ∧ s.copyGives 0 r.chain o o' d u ∧ o.dw0.getLsbD 21 = false
    ∧ ladleTarget 0 r.chain (o.dst + o.off) (o.len - o.off) u = .ok (key, w) ∧ dieOfKey key = some x.2.1 ∧ r.ordd.getLsbD x.2.1 = decide (x.2.2 = 2) := by
  intro x hx
  have h : ∀ x ∈ [(0x400, 0, 0), (0x12000000, 1, 0), (0x12000000, 1, 2)], (let o : CopyOp := { copyOp0 false false 1 0 0x300 with dst := x.1 }
    let r : Run := { copyRun o with ordd := BitVec.ofNat _ x.2.2 }
    let s := ladling (copyEntries 1 0x300) r {} copyData
    s.copyCheck 0 r o = true ∧ s.plainCheck = true ∧ x.1 < 2 ^ 30 ∧ dieOfKey x.1 = some x.2.1 ∧ r.ordd.getLsbD x.2.1 = decide (x.2.2 = 2)) := by decide +kernel
  obtain ⟨h1, h2, h3, h4, h5⟩ := h x hx
  obtain ⟨u, e, pu, au⟩ := sourceReads_plain (Plain.of_check h2) (ladling_clean ..) (c := chain0) ⟨rfl, rfl⟩
    (o := { copyOp0 false false 1 0 0x300 with dst := x.1 }) (show (1 : Word).getLsbD 20 = false by decide) (va := 0x100) (by decide)
  obtain ⟨w, e', -⟩ := ladleTarget_plain pu (by rw [au.part]; exact (ladling_clean ..).2) 0 (c := chain0) ⟨rfl, rfl⟩ (va := x.1) h3 32
  exact ⟨_, _, _, _, _, u, x.1, w, State.atCopy_of h1, rfl, rfl, copyGives_plain (show (1 : Word).getLsbD 18 = false by decide) rfl e,
    show (1 : Word).getLsbD 21 = false by decide, e', h4, h5⟩

/-- Granules of a scratchpad source. -/
theorem spadReads {s : State} {l : Nat} {c : Chain} {o : CopyOp} {a n : Nat} (h : o.dw0.getLsbD 20 = true) (ha : a + 16 * n ≤ 786432) :
    s.sourceReads l c o a n ((s.core (l / 2 * 16 + bits o.dw0 33 30)).ctx.spadBytes a (16 * n)) s := by
  rw [State.sourceReads, if_pos h]
  exact ⟨ha, rfl, rfl⟩

theorem copyGives_left {s : State} {c : Chain} {o : CopyOp} (h : o.dw0.getLsbD 18 = true) (hb : o.buf ≠ []) :
    s.copyGives 0 c o { o with buf := o.buf.drop 16 } (o.buf.take 16) s := by
  rw [State.copyGives, if_pos h]
  exact .inl ⟨hb, rfl, rfl, rfl⟩
theorem copyGives_block {s : State} {c : Chain} {o : CopyOp} {x : VbcHead} (h : o.dw0.getLsbD 18 = true) (hb : o.buf = []) (hs : o.dw0.getLsbD 20 = true)
    (h1 : o.src + o.soff + 16 * 1 ≤ 786432) (hx : vbcHead (bits o.dw0 28 25) ((s.core (0 / 2 * 16 + bits o.dw0 33 30)).ctx.spadBytes (o.src + o.soff) (16 * 1)) = some x)
    (h2 : o.src + o.soff + 16 + 16 * (x.payload (bits o.dw0 28 25) / 16) ≤ 786432) : ∃ o' d, s.copyGives 0 c o o' d s := by
  simp only [State.copyGives, if_pos h]
  exact ⟨_, _, .inr ⟨hb, _, x, _, _, spadReads hs h1, hx, spadReads hs h2, rfl, rfl⟩⟩

/-- A COPY with XP whose source is scratchpad: data of a decoded block are left; or its next block is a constant one, a malformed one, one
whose head lies past the bound, or one whose payload does. -/
def xpDw : Word := 0x1C340001
def xpOp (src : Nat) (buf : List Byte) : CopyOp :=
  { copyOp0 false false xpDw 16 0x300 with src, buf }
def xpState (src : Nat) (buf : List Byte) (blocks : List (Nat × Nat)) : State :=
  ladling (copyEntries 0 0x300 ++ blocks) (copyRun (xpOp src buf)) {} []
theorem witness_copy_decodes : ∀ x ∈ [(786432, List.replicate 16 (7 : Byte), []), (0x1000, [], [(0x1000, 0x3F80000000000080)])],
    ∃ (s : State) (r : Run) (o o' : CopyOp) (d : List Byte) (u : State), s.atCopy 0 r o ∧ o.fprint = false ∧ o.issued = false ∧ o.dw0.getLsbD 18 = true
      ∧ (o.buf ≠ [] ↔ x.1 = 786432) ∧ s.copyGives 0 r.chain o o' d u := by
  intro x hx
  have h1 : ∀ x ∈ [(786432, List.replicate 16 (7 : Byte), []), (0x1000, [], [(0x1000, 0x3F80000000000080)])],
      (xpState x.1 x.2.1 x.2.2).copyCheck 0 (copyRun (xpOp x.1 x.2.1)) (xpOp x.1 x.2.1) = true := by decide +kernel
  refine ⟨xpState x.1 x.2.1 x.2.2, copyRun (xpOp x.1 x.2.1), xpOp x.1 x.2.1, ?_⟩
  simp only [List.mem_cons, List.not_mem_nil, or_false] at hx
  have h2 : (xpOp x.1 x.2.1).buf ≠ [] ↔ x.1 = 786432 := by rcases hx with rfl | rfl <;> decide +kernel
  rcases hx with rfl | rfl
  · exact ⟨_, _, _, State.atCopy_of (h1 _ (by simp)), rfl, rfl, by decide +kernel, h2, copyGives_left (by decide +kernel) (by decide +kernel)⟩
  · obtain ⟨o', d, e⟩ := copyGives_block (s := xpState 0x1000 [] [(0x1000, 0x3F80000000000080)]) (c := chain0) (o := xpOp 0x1000 []) (x := ⟨2, 0, 0x3F800000⟩) (by decide +kernel) rfl (by decide +kernel) (by decide +kernel) (by decide +kernel) (by decide +kernel)
    exact ⟨o', d, _, State.atCopy_of (h1 _ (by simp)), rfl, rfl, by decide +kernel, h2, e⟩
theorem witness_copy_ends : ∀ x ∈ [(786424, []), (0x1000, [(0x1000, 0x100)]), (786416, [(786416, 0)])],
    ∃ (s u : State) (r : Run) (o : CopyOp), s.atCopy 0 r o ∧ o.fprint = false ∧ o.issued = false ∧ o.src = x.1 ∧ s.copyEnds 0 r.chain o u := by
  intro x hx
  have h1 : ∀ x ∈ [(786424, []), (0x1000, [(0x1000, 0x100)]), (786416, [(786416, 0)])],
      (xpState x.1 [] x.2).copyCheck 0 (copyRun (xpOp x.1 [])) (xpOp x.1 []) = true := by decide +kernel
  refine ⟨_, xpState x.1 [] x.2, _, xpOp x.1 [], State.atCopy_of (h1 x hx), rfl, rfl, rfl, show xpDw.getLsbD 18 = true by decide +kernel, rfl, ?_⟩
  simp only [List.mem_cons, List.not_mem_nil, or_false] at hx
  rcases hx with rfl | rfl | rfl
  · exact .inl ⟨by decide +kernel, by decide +kernel, rfl⟩
  · exact .inr ⟨_, spadReads (by decide +kernel) (by decide +kernel), .inl (by decide +kernel)⟩
  · exact .inr ⟨_, spadReads (by decide +kernel) (by decide +kernel), .inr ⟨⟨0, 0, 0⟩, by decide +kernel, by decide +kernel, by decide +kernel⟩⟩

/-- A COPY completes: without a record, and with one; its advance of ring 2 by two slots, which the ring can take, and which it cannot. -/
def advanceDw : Word := 0x4820200001
theorem witness_copy_complete : ∀ x ∈ [((1 : Word), 0, 4), (advanceDw, 0, 4), (advanceDw, 0, 1)], ∃ (s : State) (r : Run) (o : CopyOp), (let ring := (s.core 0).ctx.ring 2
    s.atCopy 0 r o ∧ o.fprint = false ∧ o.issued = true ∧ o.beats = 0 ∧ o.status = 0 ∧ o.recAddr = 0 ∧ o.dw0 = x.1
    ∧ bits o.dw0 37 34 = (if x.1 = 1 then 0 else 2) ∧ bits o.dw0 47 38 + 1 = (if x.1 = 1 then 1 else 2) ∧ ring.init = true ∧ ring.free = x.2.2) := by
  intro x hx
  have h : ∀ x ∈ [((1 : Word), 0, 4), (advanceDw, 0, 4), (advanceDw, 0, 1)], (let o := copyOp0 false true x.1 32 0
    let s := (ladling (copyEntries 1 0) (copyRun o) {} copyData).modCtx fun c => { c with rings := [(2, { init := true, slot := 16, n := x.2.2, pitch := 16 })] }
    let ring := (s.core 0).ctx.ring 2
    s.copyCheck 0 (copyRun o) o = true ∧ bits o.dw0 37 34 = (if x.1 = 1 then 0 else 2) ∧ bits o.dw0 47 38 + 1 = (if x.1 = 1 then 1 else 2)
      ∧ ring.init = true ∧ ring.free = x.2.2) := by decide +kernel
  obtain ⟨h1, h2⟩ := h x hx
  exact ⟨_, _, _, State.atCopy_of h1, rfl, rfl, rfl, rfl, rfl, rfl, h2⟩
theorem witness_copy_record : ∃ (s : State) (r : Run) (o : CopyOp) (key : Nat) (u : State), s.atCopy 0 r o ∧ o.fprint = false ∧ o.issued = true ∧ o.beats = 0
    ∧ o.recAddr ≠ 0 ∧ ladleTarget 0 r.chain o.recAddr 64 s = .ok (key, u) := by
  have h : (let o := copyOp0 false true 1 32 0x300
    let s := ladling (copyEntries 1 0x300) (copyRun o) {} copyData
    s.copyCheck 0 (copyRun o) o = true ∧ s.plainCheck = true) := by decide +kernel
  obtain ⟨u, e, -⟩ := ladleTarget_plain (Plain.of_check h.2) (ladling_clean ..).2 0 (c := chain0) ⟨rfl, rfl⟩ (va := 0x300) (by decide) 64
  exact ⟨_, _, _, _, u, State.atCopy_of h.1, rfl, rfl, rfl, by decide, e⟩

/-- An FPRINT gathers 16 bytes, and completes with a record. -/
theorem witness_fprint : ∃ (s : State) (r : Run) (o : CopyOp) (d : List Byte) (u : State), s.atCopy 0 r o ∧ o.fprint = true ∧ o.issued = false
    ∧ s.sourceReads 0 r.chain o (o.src + o.off) 1 d u := by
  have h : (let o := copyOp0 true false (7 + 14 * 2 ^ 25) 16 0x300
    let s := ladling [(64, 8)] (copyRun o) {} copyData
    s.copyCheck 0 (copyRun o) o = true ∧ s.plainCheck = true) := by decide +kernel
  obtain ⟨u, e, -⟩ := sourceReads_plain (Plain.of_check h.2) (ladling_clean ..) (c := chain0) ⟨rfl, rfl⟩
    (o := copyOp0 true false (7 + 14 * 2 ^ 25) 16 0x300) (by decide) (va := 0x110) (by decide)
  exact ⟨_, _, _, _, u, State.atCopy_of h.1, rfl, rfl, e⟩
/-- With an expected fingerprint, at 0x200, the sums are compared first. -/
theorem witness_fprint_compare : ∃ (s : State) (r : Run) (o : CopyOp) (d : List Byte) (u : State), s.atCopy 0 r o ∧ o.fprint = true ∧ o.issued = true ∧ o.status = 0
    ∧ o.dw0.getLsbD 19 = true ∧ o.compared = false ∧ ladleRead 0 r.chain o.exp 64 64 s = .ok (d, u) := by
  have h : (let o : CopyOp := { copyOp0 true true (7 + 2 ^ 19 + 14 * 2 ^ 25) 32 0x300 with exp := 0x200 }
    let s := ladling [(64, 8)] (copyRun o) {} copyData
    s.copyCheck 0 (copyRun o) o = true ∧ s.plainCheck = true) := by decide +kernel
  obtain ⟨u, e, -⟩ := ladleRead_plain (Plain.of_check h.2) (ladling_clean ..) 0 (c := chain0) ⟨rfl, rfl⟩ (va := 0x200) (by decide) 64 64
  exact ⟨_, _, _, _, u, State.atCopy_of h.1, rfl, rfl, rfl, by decide, rfl, e⟩
theorem witness_fprint_complete : ∃ (s : State) (r : Run) (o : CopyOp) (key : Nat) (u : State), s.atCopy 0 r o ∧ o.fprint = true ∧ o.issued = true ∧ o.status = 0
    ∧ (o.dw0.getLsbD 19 = false ∨ o.compared = true) ∧ o.recAddr ≠ 0 ∧ ladleTarget 0 r.chain o.recAddr 64 s = .ok (key, u) := by
  have h : (let o : CopyOp := { copyOp0 true true (7 + 2 ^ 19 + 14 * 2 ^ 25) 32 0x300 with exp := 0x200, compared := true }
    let s := ladling [(64, 8)] (copyRun o) {} copyData
    s.copyCheck 0 (copyRun o) o = true ∧ s.plainCheck = true) := by decide +kernel
  obtain ⟨u, e, -⟩ := ladleTarget_plain (Plain.of_check h.2) (ladling_clean ..).2 0 (c := chain0) ⟨rfl, rfl⟩ (va := 0x300) (by decide) 64
  exact ⟨_, _, _, _, u, State.atCopy_of h.1, rfl, rfl, rfl, by decide, by decide, e⟩

/-- DELIVER: an ordered beat, behind which a younger one waits. -/
def beat (seq : BitVec 32) (key : Nat) : Beat :=
  { ladle := 0, dest := 1, seq, key, data := 0x0102, entry := 0, lad := 0, chain := 0, ordered := true, va := key, part := 0, asid := 0 }
theorem witness_deliver : ∃ (s : State) (b : Beat), s.flows[0]? = some b ∧ s.noPath b.key = false ∧ s.lostPeer b.key = false ∧ (b.ordered = true → ∀ x ∈ s.flows, x.ladle = b.ladle → x.dest = b.dest → 0 ≤ diff32 x.seq b.seq) :=
  ⟨{ unit0 {} with flows := [beat 0xFFFFFFFF 0x1000, beat 0 0x1010] }, beat 0xFFFFFFFF 0x1000, by decide +kernel⟩

end Sys2Proof.Machine
end

