-- ==== Sys2Proof/Tests/WitnessTranslate.lean ====
section
/-! SUPPORT. States that meet the hypotheses of the statements about translation. -/

namespace Sys2Proof.Machine

set_option Elab.async false

/-! ### Events: translation -/

theorem cachedNode_none {s : State} {d part asid level tag : Nat} (h : ∀ n ∈ (s.die d).nodes, n.level ≠ level) : s.cachedNode d part asid level tag = none := by
  unfold State.cachedNode
  split
  · rw [List.find?_eq_none.2 fun n hn => by simp [h n hn]]
    rfl
  · rfl

theorem rootOf_bare {s : State} {d : Nat} (h : (s.die d).nodes = []) (part asid : Nat) :
    s.rootOf d part asid = BitVec.ofNat 64 (s.readM (keyOf 2 0 (bits (s.part part).ptbase 63 12 * 4096 + 8 * asid)) 8) := by
  rw [State.rootOf, cachedNode_none (by rw [h]; intro n hn; cases hn)]
  rfl

/-- A walk without a root, and a walk that meets an entry under migration at level 3. -/
theorem walk_rootless {s : State} {d : Nat} (h : (s.die d).nodes = []) (hp : (s.part 0).ptbase = 0) (hr : s.readM (2 * tierSpan) 8 = 0) (va : Nat) :
    (s.walk d 0 0 va).1 = .fail 8 0 := by
  have h0 : s.rootOf d 0 0 = 0 := by
    rw [rootOf_bare h, hp, show keyOf 2 0 (bits (0 : Word) 63 12 * 4096 + 8 * 0) = 2 * tierSpan from by decide, hr]
    rfl
  unfold State.walk
  rw [h0, hp, if_neg (by decide), if_pos (by decide)]

theorem walk_migrating {s : State} {d : Nat} (h : (s.die d).nodes = []) (hp : (s.part 0).ptbase = 0) (hr : s.readM (2 * tierSpan) 8 = plainRoot)
    (he : s.readM (2 * tierSpan + 0x10000) 8 = 1 + 5 * 2 ^ 47) : (s.walk d 0 0 0).1 = .stall 3 (2 * tierSpan + 0x10000) := by
  have h0 : s.rootOf d 0 0 = BitVec.ofNat 64 plainRoot := by
    rw [rootOf_bare h, hp, show keyOf 2 0 (bits (0 : Word) 63 12 * 4096 + 8 * 0) = 2 * tierSpan from by decide, hr]
  have hc : (s.cacheNode d 0 0 4 0 (BitVec.ofNat 64 plainRoot)).cachedNode d 0 0 3 0 = none := cachedNode_none (by
    intro n hn
    unfold State.cacheNode State.modDie State.die at hn
    dsimp only at hn
    rw [SMap.get_put_same] at hn
    dsimp only at hn
    unfold State.die at h
    rw [h] at hn
    simp only [List.filter_nil, List.mem_singleton] at hn
    rw [hn]
    decide)
  unfold State.walk
  rw [h0, hp, if_neg (by decide), if_neg (by decide), if_neg (by decide), if_neg (by decide)]
  rw [show keyOf (bits (BitVec.ofNat 64 plainRoot) 49 47) 0 (bits (BitVec.ofNat 64 plainRoot) 46 16 * 65536) = 2 * tierSpan + 0x10000 from by decide, walkFrom]
  rw [show (0 : Nat) / 2 ^ levelShift (2 + 1) = 0 from by decide, show 2 * tierSpan + 0x10000 + 8 * levelIndex (2 + 1) 0 = 2 * tierSpan + 0x10000 from by decide, hc]
  rw [show (s.cacheNode d 0 0 4 0 (BitVec.ofNat 64 plainRoot)).readM (2 * tierSpan + 0x10000) 8 = _ from he]
  rfl

theorem fill_plain {s : State} (h : s.plainCheck = true) (cl : Client) {va : Nat} (hv : va < 2 ^ 30) (acc : Nat) : ∃ u, s.fill cl 0 0 va acc = (.ok va, u) := by
  obtain ⟨u, e, -⟩ := (Plain.of_check h).fill cl hv acc
  exact ⟨u, e⟩

/-- A LD of C at 0xF8 + 8, whose words stand at word 0. -/
def loading : State :=
  let s := plain0 { c := { g := [(16, 0xF8)] } } []
  { s with cores := [(0, { s.core 0 with marks := List.range 64, imem := [(0, 0x0300E005), (1, 8)] })] }

/-- TranslationEventsComplete: WALK for C of core 0. -/
theorem witness_walk : ∃ (s u : State) (key : Nat), (0, 0, (0x100 : Word).toNat, accRead) ∈ s.wants (.coreC 0) ∧ (0x100 : Word).toNat < 2 ^ 52
    ∧ s.walkerFree (clientDie (.coreC 0)) = true ∧ s.misses (clientDie (.coreC 0)) = [] ∧ s.fill (.coreC 0) 0 0 (0x100 : Word).toNat accRead = (.ok key, u) := by
  obtain ⟨u, e⟩ := fill_plain (s := loading) (by decide +kernel) (.coreC 0) (va := (0x100 : Word).toNat) (by decide) accRead
  exact ⟨loading, u, 0x100, by decide +kernel, by decide, by decide +kernel, by decide +kernel, e⟩

/-- For a stream of A, which has come to byte 16 of 8,192. -/
def streaming : State :=
  let s := plain0 { a := { prog := some { stage := 1, count := 1 } } } []
  { s with cores := [(0, { s.core 0 with marks := List.range 64, imem := [(0, (encode (.gld 0 0 0 3 4 512)).getD 0 0), (1, (encode (.gld 0 0 0 3 4 512)).getD 1 0)] })] }
theorem witness_walk_stream : ∃ (s u : State) (key : Nat), (0, 0, (4096 : Word).toNat, accRead) ∈ s.wants (.coreA 0) ∧ (4096 : Word).toNat < 2 ^ 52
    ∧ s.walkerFree (clientDie (.coreA 0)) = true ∧ s.misses (clientDie (.coreA 0)) = [] ∧ s.fill (.coreA 0) 0 0 (4096 : Word).toNat accRead = (.ok key, u) := by
  obtain ⟨u, e⟩ := fill_plain (s := streaming) (by decide +kernel) (.coreA 0) (va := (4096 : Word).toNat) (by decide) accRead
  exact ⟨streaming, u, 4096, by decide +kernel, by decide, by decide +kernel, by decide +kernel, e⟩

/-- For the source of a ladle's COPY, and for the next slot of a queue. -/
def copying : State :=
  let o : CopyOp := { copyOp0 false false 1 0 0 with len := 8192 }
  ladling [] (copyRun o) {} []
theorem witness_walk_ladle : ∃ (s u : State) (key : Nat), (0, 0, (4096 : Word).toNat, accRead) ∈ s.wants (.ladle 0) ∧ (4096 : Word).toNat < 2 ^ 52
    ∧ s.walkerFree (clientDie (.ladle 0)) = true ∧ s.misses (clientDie (.ladle 0)) = [] ∧ s.fill (.ladle 0) 0 0 (4096 : Word).toNat accRead = (.ok key, u) := by
  obtain ⟨u, e⟩ := fill_plain (s := copying) (by decide +kernel) (.ladle 0) (va := (4096 : Word).toNat) (by decide) accRead
  exact ⟨copying, u, 4096, by decide +kernel, by decide, by decide +kernel, by decide +kernel, e⟩
theorem witness_walk_tundish : ∃ (s u : State) (key : Nat), (0, 0, (0x8180 : Word).toNat, accRead) ∈ s.wants (.tundish 0) ∧ (0x8180 : Word).toNat < 2 ^ 52
    ∧ s.walkerFree (clientDie (.tundish 0)) = true ∧ s.misses (clientDie (.tundish 0)) = []
    ∧ s.fill (.tundish 0) 0 0 (0x8180 : Word).toNat accRead = (.ok key, u) := by
  obtain ⟨u, e⟩ := fill_plain (s := qState qOn []) (by decide +kernel) (.tundish 0) (va := (0x8180 : Word).toNat) (by decide) accRead
  exact ⟨qState qOn [], u, 0x8180, by decide +kernel, by decide, by decide +kernel, by decide +kernel, e⟩

/-- MIGRATION_RETRY: the entry is no longer there at all. -/
def stalled0 : Stalled := { client := .coreC 0, part := 0, asid := 0, va := 0, access := 1, level := 3, since := 0 }
theorem witness_migration_retry : ∃ (s : State) (x : Stalled), s.stalled[0]? = some x ∧ x.expired = false ∧ x.level ≠ noWalker ∧ (∀ g ∈ s.off, g.st ≠ .parked)
    ∧ s.migrating x = none := by
  refine ⟨{ unit0 {} with stalled := [stalled0] }, stalled0, rfl, rfl, (by decide), (by decide +kernel), ?_⟩
  unfold State.migrating
  rw [show stalled0.part = 0 from rfl, show stalled0.asid = 0 from rfl, show clientDie stalled0.client = 0 from rfl,
    walk_rootless (by decide +kernel) (by decide +kernel) (by decide +kernel)]

/-- The entry at level 3 is still under migration: it is another one than before, or the same, MIGRATION_TIMEOUT then at 64 µs. -/
def migratingState (x : Stalled) : State :=
  { unit0 {} with stalled := [x], now := 44800, mem := SMap.setList (SMap.setList [] 0 (2 * tierSpan) (toBytes plainRoot 8)) 0 (2 * tierSpan + 0x10000) (toBytes (1 + 5 * 2 ^ 47) 8) }
theorem witness_migration : ∀ n ∈ [0, 2 * tierSpan + 0x10000], ∃ (s : State) (x : Stalled), s.stalled[0]? = some x ∧ x.expired = false ∧ x.level ≠ noWalker
    ∧ (∀ g ∈ s.off, g.st ≠ .parked) ∧ s.migrating x = some (3, 2 * tierSpan + 0x10000) ∧ x.level = 3 ∧ x.entry = n ∧ x.since + 64 * 700 ≤ s.now := by
  intro n hn
  refine ⟨migratingState { stalled0 with entry := n }, { stalled0 with entry := n }, rfl, rfl,
    (show (3 : Nat) ≠ noWalker by decide), (by intro g hg; cases hg), ?_, rfl, rfl, show 0 + 64 * 700 ≤ 44800 by decide⟩
  unfold State.migrating
  rw [show ({ stalled0 with entry := n } : Stalled).part = 0 from rfl, show ({ stalled0 with entry := n } : Stalled).asid = 0 from rfl,
    show ({ stalled0 with entry := n } : Stalled).va = 0 from rfl, show clientDie ({ stalled0 with entry := n } : Stalled).client = 0 from rfl]
  have h : ∀ n ∈ [0, 2 * tierSpan + 0x10000], (let s := migratingState { stalled0 with entry := n }
      (s.die 0).nodes = [] ∧ (s.part 0).ptbase = 0 ∧ s.readM (2 * tierSpan) 8 = plainRoot ∧ s.readM (2 * tierSpan + 0x10000) 8 = 1 + 5 * 2 ^ 47) := by decide +kernel
  obtain ⟨h1, h2, h3, h4⟩ := h n hn
  rw [walk_migrating h1 h2 h3 h4]

/-- TLBIR_ACK, of an invalidation by the host. -/
def inval0 : Inval := { id := 7, part := 0, asid := 0, lo := 0x1000, hi := 0x2000, core := none }
theorem witness_ack : ∃ (s : State) (x : Inval), s.invals[0]? = some x ∧ s.settled x = true ∧ x.core = none ∧ (s.part x.part).inv = some x.id :=
  ⟨({ unit0 {} with invals := [inval0] } : State).modPart 0 fun p => { p with inv := some 7 }, inval0, by decide +kernel⟩

/-- REPLICATION: the page is read-only, at the bottom of a D-stack. -/
def replica0 : Replica := { frame := tierSpan / 4096, part := 0, asid := 0, va := 0 }
def readOnlyLeaf : Nat := 0x13 + 2 ^ 47
def replicating : State :=
  { unit0 {} with
    dies := [(0, { notices := [{ part := 0, layer := false, pages := [replica0] }] })]
    mem := SMap.setList (SMap.setList (SMap.setList [] 0 (2 * tierSpan) (toBytes plainRoot 8)) 0 (2 * tierSpan + 0x10000) (toBytes plainNode 8)) 0
      (2 * tierSpan + 0x20000) (toBytes readOnlyLeaf 8) }

theorem walk_readOnly {s : State} {d : Nat} (h : (s.die d).nodes = []) (hp : (s.part 0).ptbase = 0) (hr : s.readM (2 * tierSpan) 8 = plainRoot)
    (hn : s.readM (2 * tierSpan + 0x10000) 8 = plainNode) (hl : s.readM (2 * tierSpan + 0x20000) 8 = readOnlyLeaf) :
    (s.walk d 0 0 0).1 = .leaf (leafTlb 0 0 0 2 (BitVec.ofNat 64 readOnlyLeaf) false 0) (2 * tierSpan + 0x20000) := by
  have h0 : s.rootOf d 0 0 = BitVec.ofNat 64 plainRoot := by
    rw [rootOf_bare h, hp, show keyOf 2 0 (bits (0 : Word) 63 12 * 4096 + 8 * 0) = 2 * tierSpan from by decide, hr]
  have n1 : ∀ (s : State) (l : List Nat) (level tag : Nat) (e : Word), (∀ n ∈ (s.die d).nodes, n.level ∈ l) →
      ∀ n ∈ ((s.cacheNode d 0 0 level tag e).die d).nodes, n.level ∈ level :: l := by
    intro s l level tag e hs n hn
    unfold State.cacheNode State.modDie at hn
    unfold State.die at hn hs
    dsimp only at hn
    rw [SMap.get_put_same] at hn
    simp only [List.mem_cons, List.mem_filter] at hn
    rcases hn with rfl | hn
    · simp
    · exact List.mem_cons_of_mem _ (hs n hn.1)
  have m1 := n1 s [] 4 0 (BitVec.ofNat 64 plainRoot) (by rw [h]; intro n hn; cases hn)
  have m2 := n1 _ _ 3 0 (BitVec.ofNat 64 plainNode) m1
  have c3 : (s.cacheNode d 0 0 4 0 (BitVec.ofNat 64 plainRoot)).cachedNode d 0 0 3 0 = none := cachedNode_none fun n hn e => by
    have := m1 n hn; rw [e] at this; revert this; decide
  have c2 : ((s.cacheNode d 0 0 4 0 (BitVec.ofNat 64 plainRoot)).cacheNode d 0 0 3 0 (BitVec.ofNat 64 plainNode)).cachedNode d 0 0 2 0 = none :=
    cachedNode_none fun n hn e => by have := m2 n hn; rw [e] at this; revert this; decide
  unfold State.walk
  rw [h0, hp, if_neg (by decide), if_neg (by decide), if_neg (by decide), if_neg (by decide)]
  rw [show keyOf (bits (BitVec.ofNat 64 plainRoot) 49 47) 0 (bits (BitVec.ofNat 64 plainRoot) 46 16 * 65536) = 2 * tierSpan + 0x10000 from by decide]
  have z3 : (0 : Nat) / 2 ^ levelShift (2 + 1) = 0 := by decide
  have z2 : (0 : Nat) / 2 ^ levelShift (1 + 1) = 0 := by decide
  have i3 : 2 * tierSpan + 0x10000 + 8 * levelIndex (2 + 1) 0 = 2 * tierSpan + 0x10000 := by decide
  have i2 : 2 * tierSpan + 0x20000 + 8 * levelIndex (1 + 1) 0 = 2 * tierSpan + 0x20000 := by decide
  rw [walkFrom_next (e := BitVec.ofNat 64 plainNode) (by
    rw [z3, i3, c3, Option.getD_none]
    exact congrArg _ hn) (by decide), z3]
  rw [show keyOf (pteTier (BitVec.ofNat 64 plainNode)) 0 (pteFrame (BitVec.ofNat 64 plainNode)) = 2 * tierSpan + 0x20000 from by decide]
  rw [walkFrom_leaf (e := BitVec.ofNat 64 readOnlyLeaf) (by
    rw [z2, i2, c2, Option.getD_none]
    exact congrArg _ hl) (by decide), i2]

theorem witness_replication : ∃ (s : State) (f : Replica) (rest : List Notice), nextPage (s.die 0).notices = some (f, rest)
    ∧ (({ s with freeNo := s.freeNo + 1 } : State).replicable 0 f.part f.asid f.va).1 = some { f with layer := false } := by
  refine ⟨replicating, replica0, _, rfl, ?_⟩
  unfold State.replicable
  rw [show replica0.part = 0 from rfl, show replica0.asid = 0 from rfl, show replica0.va = 0 from rfl,
    walk_readOnly (by decide +kernel) (by decide +kernel) (by decide +kernel) (by decide +kernel) (by decide +kernel)]
  decide +kernel

/-- TIERCTL_ENABLE, and INVCMD_GO of an empty range and of one that reaches 2^52. -/
theorem witness_tierctl : ∃ s : State, s.stage = 5 ∧ (s.part 0).tierctl.getLsbD 0 = false := ⟨unit0 {}, by decide +kernel⟩
def invcmdState (n : Word) : State := (unit0 {}).modPart 0 fun p => { p with invstart := 0xFFFFFFFFFF000, invlen := n }
theorem witness_invcmd_empty : ∃ s : State, s.stage = 5 ∧ (s.part 0).inv = none ∧ (s.part 0).invlen.toNat = 0 := ⟨invcmdState 0, by decide +kernel⟩
theorem witness_invcmd : ∃ s : State, s.stage = 5 ∧ (s.part 0).inv = none ∧ (s.part 0).invlen.toNat ≠ 0 ∧ (s.part 0).invstart.toNat < 2 ^ 52 :=
  ⟨invcmdState 0x2000, by decide +kernel⟩

end Sys2Proof.Machine
end

