-- ==== Sys2Proof/Tests/WitnessEvents.lean ====
section
/-! SUPPORT. States that meet the hypotheses of the statements about the other events, and about a step. -/

namespace Sys2Proof.Machine

set_option Elab.async false

/-! ### Events: records -/

/-- Partition 0 with rings of 64 records at 0x40000 and 0x80000 on the host bus. -/
def ringed (fltcfg tail : Word) (faults : List FaultRec) (traps : List TrapRec) : State :=
  { unit0 {} with now := 14000 }.modPart 0 fun p => { p with
    fltbase := 0x40000, fltcfg, flttail := tail.setWidth 32, faults, trpbase := 0x80000, trpcfg := 9 * 512, trptail := tail.setWidth 32, traps }
def fault0 : FaultRec := { src := .engine 1 .A, cause := 1, access := 1, srcCode := 1, va := 0x5008, asid := 0 }
def trap0 : TrapRec := { src := .engine 1 .A, cls := 6, cause := 1, val := 0x77 }

/-- RecordEventsComplete: room for one record, the last slot of the ring, and none. -/
theorem witness_fault_record : ∃ (s : State) (f : FaultRec), (let x := s.part 0
    x.faults.find? (fun f => f.seq.isNone) = some f ∧ x.fmode = false ∧ ringSlot x.fltbase x.fltcfg x.flttail + 64 ≤ 2 ^ 47
      ∧ ringRoom x.fltcfg x.flthead x.flttail ≠ 0) := ⟨ringed (5 * 512) 63 [fault0] [], fault0, by decide +kernel⟩
theorem witness_fault_full : ∃ (s : State) (f : FaultRec), (let x := s.part 0
    x.faults.find? (fun f => f.seq.isNone) = some f ∧ x.fmode = false ∧ ringSlot x.fltbase x.fltcfg x.flttail + 64 ≤ 2 ^ 47
      ∧ ringRoom x.fltcfg x.flthead x.flttail = 0) := ⟨ringed (5 * 512) 64 [fault0] [], fault0, by decide +kernel⟩
theorem witness_fault_batch : ∃ (s : State) (f : FaultRec), (let x := s.part 0
    x.faults.filter (fun f => f.seq.isNone) = [f] ∧ f.batched = false ∧ (∀ y ∈ x.faults, y.no = f.no → y = f) ∧ x.batches = []
      ∧ x.fmode = true ∧ f.since + 20 * 700 ≤ s.now ∧ ringSlot x.fltbase x.fltcfg x.flttail + 64 ≤ 2 ^ 47
      ∧ ringRoom x.fltcfg x.flthead x.flttail ≠ 0) :=
  ⟨(ringed (5 * 512) 3 [fault0] []).modPart 0 fun p => { p with cfg := p.cfg + 2 }, fault0, by decide +kernel⟩
theorem witness_batch_full : ∃ (s : State) (f : FaultRec), (let x := s.part 0
    x.faults.filter (fun f => f.seq.isNone) = [f] ∧ f.batched = false ∧ (∀ y ∈ x.faults, y.no = f.no → y = f) ∧ x.batches = []
      ∧ x.fmode = true ∧ f.since + 20 * 700 ≤ s.now ∧ ringSlot x.fltbase x.fltcfg x.flttail + 64 ≤ 2 ^ 47
      ∧ ringRoom x.fltcfg x.flthead x.flttail = 0) :=
  ⟨(ringed (5 * 512) 64 [fault0] []).modPart 0 fun p => { p with cfg := p.cfg + 2 }, fault0, by decide +kernel⟩
theorem witness_trap_record : ∃ (s : State) (r : TrapRec), (let x := s.part 0
    x.traps.find? (fun r => r.seq.isNone) = some r ∧ ringSlot x.trpbase x.trpcfg x.trptail + 64 ≤ 2 ^ 47
      ∧ ringRoom x.trpcfg x.trphead x.trptail ≠ 0) := ⟨ringed 0 63 [] [trap0], trap0, by decide +kernel⟩
theorem witness_trap_full : ∃ (s : State) (r : TrapRec), (let x := s.part 0
    x.traps.find? (fun r => r.seq.isNone) = some r ∧ ringSlot x.trpbase x.trpcfg x.trptail + 64 ≤ 2 ^ 47
      ∧ ringRoom x.trpcfg x.trphead x.trptail = 0) := ⟨ringed 0 64 [] [trap0], trap0, by decide +kernel⟩

/-! ### Events: acknowledgements -/

/-- Core 0, its engine A held or its queue 2 with an entry; records of faults and traps of partition 0. -/
def acked (a : Engine) (queues : SMap (List Slot)) (faults : List FaultRec) (traps : List TrapRec) : State :=
  (unit0 { a, queues }).modPart 0 fun p => { p with faults, traps }
def heldA : Engine := { pc := 7, g := [(3, 9)], hold := some .fault }

/-- AcknowledgementsComplete: FLTACK with and without DROP, of the only record. -/
theorem witness_fltack : ∃ (s : State) (w : Work) (v v' : Word) (f : FaultRec) (rest : List FaultRec), s.stage = 5 ∧ (s.core 0).work = some w
    ∧ s.coreOfWork w.id = some 0 ∧ (s.part 0).faults = f :: rest ∧ f.seq = some (v.setWidth 32) ∧ f.seq = some (v'.setWidth 32)
    ∧ v.getLsbD 63 = false ∧ v'.getLsbD 63 = true ∧ (∀ y ∈ rest, y.seq = none)
    ∧ f.src = .engine w.id .A ∧ w.part = 0 ∧ ((s.core 0).ctx.eng .A).hold = some .fault ∧ s.off = [] :=
  ⟨acked heldA [] [{ fault0 with seq := some 0xFFFFFFFF }] [], { id := 1, len := 64 }, 0xFFFFFFFF, 0x80000000FFFFFFFF,
    { fault0 with seq := some 0xFFFFFFFF }, [], by decide +kernel⟩

/-- TRPACK with RETRY of a class 12 trap. -/
theorem witness_trpack_retry : ∃ (s : State) (w : Work) (v : Word) (r : TrapRec) (rest : List TrapRec), s.stage = 5 ∧ (s.core 0).work = some w
    ∧ s.coreOfWork w.id = some 0 ∧ (s.part 0).traps = r :: rest ∧ r.seq = some (v.setWidth 32) ∧ r.info = false ∧ r.acked = none ∧ s.off = [] ∧ r.src = .engine w.id .A
    ∧ r.cls ≤ 12 ∧ ¬ (r.cls = 10 ∧ r.cause = 3) :=
  ⟨acked { heldA with hold := some (.trap 12 1) } [] [] [{ trap0 with cls := 12, seq := some 4 }], { id := 1, len := 64 }, 4,
    { trap0 with cls := 12, seq := some 4 }, [], by decide +kernel⟩

/-- TRPACK with DISCARD of a terminal entry; with ABORT; with the reserved action 3. -/
def terminal0 : Slot := { full := true, term := true }
def trapRead : TrapRec := { trap0 with cls := 10, reads := [(2, 1)], seq := some 4 }
theorem witness_trpack_discard : ∃ (s : State) (w : Work) (v : Word) (r : TrapRec) (rest : List TrapRec) (q n : Nat) (rs : List (Nat × Nat)) (y : Slot)
    (es : List Slot), s.stage = 5 ∧ (s.core 0).work = some w
    ∧ s.coreOfWork w.id = some 0 ∧ (s.part 0).traps = r :: rest ∧ r.seq = some (v.setWidth 32) ∧ r.info = false ∧ r.acked = none ∧ s.off = [] ∧ r.src = .engine w.id .A
    ∧ r.cls = 10 ∧ r.cause = 1 ∧ r.reads = (q, n + 1) :: rs ∧ (s.core 0).ctx.queue q = y :: es ∧ y.full = true ∧ y.term = true :=
  ⟨acked { heldA with hold := some (.trap 10 1) } [(2, [terminal0])] [] [trapRead], { id := 1, len := 64 }, 4, trapRead, [], 2, 0, [], terminal0, [],
    by decide +kernel⟩
theorem witness_trpack_abort : ∃ (s : State) (w : Work) (v v' : Word) (r : TrapRec) (rest : List TrapRec), s.stage = 5 ∧ (s.core 0).work = some w
    ∧ s.coreOfWork w.id = some 0 ∧ (s.part 0).traps = r :: rest ∧ r.seq = some (v.setWidth 32) ∧ r.seq = some (v'.setWidth 32) ∧ r.info = false
    ∧ r.acked = none ∧ s.off = [] ∧ r.src = .engine w.id .A ∧ (s.core 0).ob = [] ∧ (s.core 0).ctx.pins = [] ∧ 3 ≤ bits v' 34 32 :=
  ⟨acked { heldA with hold := some (.trap 12 1) } [] [] [{ trap0 with cls := 12, seq := some 4 }], { id := 1, len := 64 }, 4, 0x300000004,
    { trap0 with cls := 12, seq := some 4 }, [], by decide +kernel⟩

/-- An action for work that is saved is noted: of a class 10 trap. -/
def savedSeg : Seg := { work := { id := 1, len := 64 }, ctx := some {}, st := .saved }
theorem witness_trpack_noted : ∃ (s : State) (v : Word) (g : Seg) (r : TrapRec) (rest : List TrapRec), s.stage = 5 ∧ g ∈ s.off
    ∧ r.of g.work.id = true ∧ g.st ≠ .fenced ∧ g.st ≠ .parked ∧ (s.part 0).traps = r :: rest ∧ r.seq = some (v.setWidth 32) ∧ r.info = false
    ∧ r.acked = none ∧ r.src ≠ .gone ∧ r.cls = 10 :=
  ⟨{ acked {} [] [] [trapRead] with cores := [], off := [savedSeg] }, 4, savedSeg, trapRead, [], by decide +kernel⟩

/-! ### Events: errors, watchdogs and time limits -/

/-- Core 0 under test, its checkpoint that of the start of its work. -/
def start0 : Ctx := { c := { pc := 2 }, a := { done := true } }
def ckpt0 : Checkpoint := { ctx := start0, snap := {}, sb := [] }
def testing (w : Option Work) : State :=
  { unit0 {} with cores := [(0, { work := w, ctx := { cRegs 1 2 3 with csr := { rcnt := 255 } }, test := some (2, 0, .C) })] }
def tested0 : Work := { id := 1, len := 64, ckpt := some ckpt0 }

/-- ErrorEventsComplete: SELF_TEST_COMPLETE of a core that passes, RCNT beyond what RCTL shows; of one that fails, without work and with it. -/
theorem witness_self_test : ∃ (s : State) (cause since : Nat) (en : Eng) (w : Work) (cp : Checkpoint), s.stage = 5 ∧ (s.core 0).test = some (cause, since, en)
    ∧ (s.core 0).work = some w ∧ w.ckpt = some cp ∧ (s.core 0).ending = false ∧ (s.core 0).ctx.csr.nrp = false ∧ cp.ctx.live ≠ []
    ∧ cp.ctx.pins = [] ∧ (s.core 0).ctx.pins = [] := ⟨testing (some tested0), 2, 0, .C, tested0, ckpt0, by decide +kernel⟩
theorem witness_self_test_fails : ∃ (s : State) (x : Nat × Nat × Eng), s.stage = 5 ∧ (s.core 0).test = some x ∧ (s.core 0).work = none :=
  ⟨testing none, (2, 0, .C), by decide +kernel⟩
theorem witness_self_test_fences : ∃ (s : State) (x : Nat × Nat × Eng) (w : Work) (cp : Checkpoint), s.stage = 5 ∧ (s.core 0).test = some x
    ∧ (s.core 0).work = some w ∧ w.ckpt = some cp ∧ (s.core 0).ending = false ∧ (s.core 0).ctx.csr.nrp = false :=
  ⟨testing (some tested0), (2, 0, .C), tested0, ckpt0, by decide +kernel⟩

/-- FENCED_WORK_TIMEOUT, exactly at 1 ms. -/
def fencedSeg : Seg := { work := { id := 1, len := 64 }, ctx := some {}, st := .fenced, core := some 0, since := 100, cause := 2 }
theorem witness_fenced : ∃ (s : State) (g : Seg),
    s.off.find? (fun g => g.st = .fenced && g.core = some 0 && !g.ctx.any (·.held) && decide (g.since + 1000 * 700 ≤ s.now)) = some g :=
  ⟨{ unit0 {} with cores := [], off := [fencedSeg], now := 700100 }, fencedSeg, by decide +kernel⟩

/-- PHASE_WATCHDOG: core 0 has arrived at level 1, 1 ms ago, and core 3 has not. -/
def arrivedWork : Work := { id := 1, len := 64, arrived := some 1, arrivedAt := 5 }
def watching : State :=
  let s := (unit0 {}).modWork fun _ => arrivedWork
  { s with cores := s.cores ++ [(3, { work := some { id := 2, len := 64 } })], now := 700005 }
theorem witness_phase_watchdog : ∃ (s : State) (w : Work), 0 ∈ s.activeCores 0 1 0 ∧ (s.core 0).work = some w ∧ w.arrived = some 1
    ∧ w.arrivedAt + 1000 * 700 ≤ s.now
    ∧ (∀ i ∈ s.activeCores 0 1 0, ∃ y, (s.core i).work = some y ∧ y.watched = false ∧ (s.core i).ctx.isHeld = false ∧ (s.core i).test = none)
    ∧ (∀ g ∈ s.off, s.activeOff 0 1 0 g = false) ∧ 3 ∈ s.activeCores 0 1 0 ∧ (s.core 3).work.any (fun y => y.arrived = some 1) = false := by
  refine ⟨watching, arrivedWork, by decide +kernel, by decide +kernel, by decide +kernel,
    by decide +kernel, fun i hi => ?_, by decide +kernel, by decide +kernel, by decide +kernel⟩
  have h : watching.activeCores 0 1 0 = [0, 3] := by decide +kernel
  rw [h] at hi
  rcases List.mem_pair.1 hi with rfl | rfl
  · exact ⟨arrivedWork, by decide +kernel⟩
  · exact ⟨{ id := 2, len := 64 }, by decide +kernel⟩

/-- CORE_STALL_WATCHDOG: the only live engine waits for a queue. -/
def stalledCore : Ctx := { a := { done := true }, x := { done := true }, f := { done := true }, csr := { wden := true } }
theorem witness_core_stall : ∃ (s : State) (w : Work), (s.core 0).work = some w ∧ (s.core 0).ending = false ∧ (s.core 0).test = none
    ∧ (s.core 0).ctx.csr.wden = true ∧ (s.core 0).ctx.isHeld = false ∧ (s.core 0).ctx.live ≠ []
    ∧ (∀ e ∈ (s.core 0).ctx.live, ((s.core 0).ctx.eng e).passed + 1000 * 700 ≤ s.now
        ∧ ∃ y, (0, e, y) ∈ s.quiet ∧ y ∉ [Wait.memory, .mailbox, .semaphore, .ladle, .event, .phase]) := by
  refine ⟨{ unit0 stalledCore with now := 700000, quiet := [(0, .C, .queue)] }, { id := 1, len := 64 }, by decide +kernel, by decide +kernel,
    by decide +kernel, by decide +kernel, by decide +kernel, by decide +kernel, fun e he => ?_⟩
  have h : (({ unit0 stalledCore with now := 700000, quiet := [(0, .C, .queue)] } : State).core 0).ctx.live = [.C] := by decide +kernel
  rw [h] at he
  rw [List.mem_singleton.1 he]
  exact ⟨by decide +kernel, .queue, by decide +kernel⟩

/-- The same of work that waits for a save slot: no engine acts, and none is noted to wait. -/
theorem witness_core_stall_leaving : ∃ (s : State) (w : Work), (s.core 0).work = some w ∧ (s.core 0).ending = false ∧ (s.core 0).test = none
    ∧ (s.core 0).ctx.csr.wden = true ∧ (s.core 0).ctx.isHeld = false ∧ (s.core 0).ctx.live ≠ [] ∧ s.quiet = []
    ∧ (∀ e ∈ (s.core 0).ctx.live, ((s.core 0).ctx.eng e).passed + 1000 * 700 ≤ s.now
        ∧ (s.core 0).leaving.isSome = true ∧ (s.core 0).runnable e = false ∧ (s.core 0).ob = []) :=
  ⟨({ unit0 stalledCore with now := 700000 } : State).modCore 0 fun c => { c with leaving := some .saved }, { id := 1, len := 64 }, by decide +kernel⟩

/-- PATROL_SCRUB: the last line of the crucible. -/
theorem witness_patrol : ∃ (s : State) (line : Nat), tierOfKey (64 * line) ≤ 1 ∧ beyondTier (tierOfKey (64 * line)) (64 * line % 2 ^ 47) = false
    ∧ line ∉ s.poison := ⟨unit0 {}, 1120 * 2 ^ 14 - 1, by decide +kernel⟩

/-- WFE_TIMEOUT: TMO cycles have passed. -/
def wfeCtx : Ctx := { c := { pc := 4, prog := some { stage := 1, mark := 3 } }, csr := { tmo := 7, cycle := 10 } }
def wfeState : State :=
  { unit0 wfeCtx with cores := [(0, { work := some { id := 1, len := 64 }, ctx := wfeCtx, marks := List.range 64
                                      imem := [(4, (encode (.wfe 0)).headD 0)] })] }
theorem witness_wfe : ∃ (s : State) (p : BitVec 4) (pr : Prog), ({ s with cur := 0 } : State).fetch .C = .run (.wfe p) ∧ (s.core 0).ctx.c.prog = some pr ∧ pr.stage = 1
    ∧ (s.core 0).ctx.csr.tmo ≠ 0 ∧ pr.mark + (s.core 0).ctx.csr.tmo.toNat ≤ (s.core 0).ctx.csr.cycle.toNat ∧ (s.core 0).badPath ≠ some .C :=
  ⟨wfeState, 0, { stage := 1, mark := 3 }, by decide +kernel⟩

/-! ### Events: the host's requests -/

/-- Partition 0 with two save slots at 0x200000, one of them free. -/
def slotted (c : Core) : State :=
  ({ unit0 {} with cores := [(0, c)] }).modPart 0 fun p => { p with savecfg := 0x200002, slots := [0] }
def leaver : Core := { work := some { id := 1, len := 64 } }
def pending0 : Store := { va := 8, key := 8, size := 1, data := 1 }

/-- HostRequestsComplete, PREEMPT_REQUEST: saved at once; waiting for the outbound queue; refused without work, and without a slot. -/
theorem witness_preempt_saved : ∃ (s : State) (v : Word) (w : Work), s.stage = 5 ∧ 0 = bits v 9 0 ∧ (s.part 0).preempt.getLsbD 17 = false
    ∧ s.partOfCluster (0 / 16) = some 0 ∧ (s.core 0).ending = false ∧ (s.core 0).leaving = none ∧ w.part = 0 ∧ (s.core 0).work = some w
    ∧ s.slotFor 0 s.leaveNo = some 1 ∧ (s.core 0).canLeave = true
    ∧ (s.part 0).slotAddr 1 + 2 ^ 22 ≤ 2 ^ 47 ∧ ((s.core 0).ctx.ar.tiles.map (·.1)).Nodup :=
  ⟨slotted { leaver with ctx := { ar := { tiles := [(5, default), (7, default)] } } }, 0, { id := 1, len := 64 }, by decide +kernel⟩
theorem witness_preempt_waits : ∃ (s : State) (v : Word) (w : Work), s.stage = 5 ∧ 0 = bits v 9 0 ∧ (s.part 0).preempt.getLsbD 17 = false
    ∧ s.partOfCluster (0 / 16) = some 0 ∧ (s.core 0).ending = false ∧ (s.core 0).leaving = none ∧ w.part = 0 ∧ (s.core 0).work = some w
    ∧ (s.slotFor 0 s.leaveNo).isSome = true ∧ (s.core 0).canLeave = false :=
  ⟨slotted { leaver with ob := [pending0] }, 0, { id := 1, len := 64 }, by decide +kernel⟩
theorem witness_preempt_refused : ∃ (s : State) (v : Word) (w : Work), s.stage = 5 ∧ 15 = bits v 9 0 ∧ (s.part 0).preempt.getLsbD 17 = false
    ∧ s.partOfCluster (15 / 16) = some 0 ∧ (s.core 15).ending = false ∧ (s.core 15).leaving = none ∧ w.part = 0 ∧ (s.core 15).work = none :=
  ⟨slotted leaver, 15, { id := 1, len := 64 }, by decide +kernel⟩
theorem witness_preempt_slotless : ∃ (s : State) (v : Word) (w : Work), s.stage = 5 ∧ 0 = bits v 9 0 ∧ (s.part 0).preempt.getLsbD 17 = false
    ∧ s.partOfCluster (0 / 16) = some 0 ∧ (s.core 0).ending = false ∧ (s.core 0).leaving = none ∧ w.part = 0 ∧ (s.core 0).work = some w
    ∧ s.slotFor 0 s.leaveNo = none :=
  ⟨(slotted leaver).modPart 0 fun p => { p with slots := [0, 1] }, 0, { id := 1, len := 64 }, by decide +kernel⟩

/-- PREEMPT_REQUEST for a core that is another partition's. -/
theorem witness_preempt_other : ∃ (s : State) (v : Word), s.stage = 5 ∧ (s.part 1).preempt.getLsbD 17 = false
    ∧ s.partOfCluster (bits v 9 0 / 16) ≠ some 1 ∧ (s.core (bits v 9 0)).work.isSome = true := ⟨slotted leaver, 0, by decide +kernel⟩

/-- PREEMPT_SAVE and DESCHEDULE. -/
theorem witness_preempt_save : ∃ (s : State) (k : Nat) (c : Core) (w : Work) (i : Nat), s.core k = c ∧ c.work = some w ∧ w.part = 0
    ∧ (s.part 0).freeSlot = some i ∧ s.slotFor 0 s.leaveNo = some i
    ∧ s.cores.find? (fun e => e.2.preempt && e.2.leaving = some .saved && e.2.canLeave && !e.2.ending && e.2.work.any fun w => w.part = 0) = some (k, c) :=
  ⟨slotted { leaver with preempt := true, leaving := some .saved }, 0, { leaver with preempt := true, leaving := some .saved },
    { id := 1, len := 64 }, 1, by decide +kernel⟩
theorem witness_deschedule : ∃ (s : State) (k : Nat) (c : Core) (w : Work) (i : Nat), s.core k = c ∧ c.work = some w ∧ w.part = 0
    ∧ (s.part 0).freeSlot = some i ∧ firstWaiter (s.slotWaiters 0) = some (k, c) :=
  ⟨slotted { leaver with leaving := some .saved, leaveNo := 3 }, 0, { leaver with leaving := some .saved, leaveNo := 3 }, { id := 1, len := 64 }, 1,
    by decide +kernel⟩

/-- PARTITION_ENABLE of clusters 60 to 63, and of one cluster too many; PARTITION_DISABLE with nothing, and with work. -/
theorem witness_partition_enable : ∃ (s : State) (v v' : Word), s.stage = 5 ∧ (s.part 1).en = false ∧ s.partValid v = true ∧ s.partValid v' = false :=
  ⟨{ stage := 5 }, 60 * 2 ^ 7 + 4 * 2 ^ 13, 61 * 2 ^ 7 + 4 * 2 ^ 13, by decide +kernel⟩
theorem witness_partition_disable : ∃ s : State, s.stage = 5 ∧ (s.part 0).en = true ∧ s.canDisable 0 = true ∧ (∀ g ∈ s.off, g.work.part ≠ 0) :=
  ⟨{ unit0 {} with cores := [] }, by decide +kernel⟩
theorem witness_partition_busy : ∃ s : State, s.stage = 5 ∧ (s.part 0).en = true ∧ s.canDisable 0 = false := ⟨unit0 {}, by decide +kernel⟩

/-! ### Events: the host's and the peers' accesses -/

/-- WindowAccessesComplete: a register of a queue, the last of the window's partition blocks, a reserved offset. -/
theorem witness_register_write : ∃ (s : State) (off off' : Nat) (r : HostReg), s.stage = 5 ∧ hostReg (off / 8 * 8) = some r ∧ (∀ o, r ≠ .mailbox o)
    ∧ hostReg (off' / 8 * 8) = none := ⟨{ stage := 5 }, 0x20F3FF, 0x20F400, .wsem 15 63, by decide, by decide, (fun _ => nofun), by decide⟩
/-- Each register with bits that a write of 1 clears, and the dies' DIECLK. -/
def clearable : List (Nat × HostReg) :=
  [(40, .wq 0 5), (0x1FFFE8, .wq 32767 5), (0x200010, .part 0 2), (0x200018, .part 0 3), (0x200028, .part 0 5), (0x200068, .part 0 13), (0x200088, .part 0 17),
   (0x20F090, .part 15 18), (0x20F3F8, .wsem 15 63), (0x210188, .linkstat 1), (0x210238, .spanstat 15)]
theorem witness_clears : (∀ x ∈ clearable, hostReg (x.1 / 8 * 8) = some x.2 ∧ x.2.clears ≠ 0 ∧ (∀ p, x.2 = .part p 17 → (0x40000 : Word).getLsbD 16 = false))
    ∧ (∀ r ∈ clearable.map (·.2), ∀ o, r ≠ .mailbox o) ∧ (∀ m, (({ stage := 5 } : State).spans.get {} m).retry < 65536)
    ∧ hostReg (0x210018 / 8 * 8) = some (.dieclk 3) := by
  refine ⟨?_, ?_, fun _ => (by decide : (0 : Nat) < 65536), by decide⟩
  · have h : ∀ x ∈ clearable, hostReg (x.1 / 8 * 8) = some x.2 ∧ x.2.clears ≠ 0 := by decide
    exact fun x hx => ⟨(h x hx).1, (h x hx).2, fun _ _ => by decide⟩
  · intro r hr o e
    subst e
    simp [clearable] at hr
theorem witness_host_read : ∀ n ∈ [0, 4], ∃ (s : State) (off : Nat) (r : HostReg), s.stage = 5 ∧ off < 2 ^ 24 ∧ hostReg (off / 8 * 8) = some r ∧ (∀ m, r ≠ .spanstat m)
    ∧ off % 8 = n := by
  intro n hn
  have h : ∀ n ∈ [0, 4], 0x210190 + n < 2 ^ 24 ∧ hostReg ((0x210190 + n) / 8 * 8) = some .devstat ∧ (0x210190 + n) % 8 = n := by decide
  exact ⟨{ stage := 5 }, 0x210190 + n, .devstat, by decide, (h n hn).1, (h n hn).2.1, (fun _ => nofun), (h n hn).2.2⟩

/-- HOST_READ and HOST_WRITE of the last byte of the D-stacks, its line without poison; HOST_READ above the crucible. -/
theorem witness_host_memory : ∃ (s : State) (a key : Nat), a < 2 ^ 39 ∧ key = keyOf 1 0 a ∧ s.poisoned (key / 8 * 8) 8 = false :=
  ⟨{ stage := 5 }, 2 ^ 39 - 1, keyOf 1 0 (2 ^ 39 - 1), by decide +kernel⟩
theorem witness_host_beyond : ∃ a : Nat, 1120 * 2 ^ 20 ≤ a := ⟨1120 * 2 ^ 20, by decide⟩

/-- SPANSTAT_READ of the last port, and PEER_REQUEST of the last byte of the crucible and of the D-stacks. -/
theorem witness_spanstat : ∃ (s : State) (n : Nat), s.stage = 5 ∧ n < 16 ∧ (s.spans.get {} n).retry < 65536 :=
  ⟨{ stage := 5, spans := [(15, { retry := 65535 })] }, 15, by decide +kernel⟩
theorem witness_peer_target : (∃ key, peerTarget (2 ^ 46 + 1120 * 2 ^ 20 - 1) = some key) ∧ ∃ key, peerTarget (2 ^ 39 - 1) = some key :=
  ⟨⟨_, rfl⟩, ⟨_, rfl⟩⟩
theorem witness_peer_line : ∃ (s : State) (a key : Nat), peerTarget a = some key ∧ peerTarget (a + 64) = some (key + 64)
    ∧ s.poisoned (key / 8 * 8) 8 = true ∧ s.poisoned ((key + 64) / 8 * 8) 8 = false :=
  ⟨{ poison := [keyOf 1 0 56 / 64] }, 56, keyOf 1 0 56, by decide +kernel⟩
theorem witness_attesting : ∃ s : State, s.attesting = true := ⟨{ attesting := true }, rfl⟩

/-! ### Events: the package -/

/-- PackageEventsComplete; POWER_MEASURE within LIMIT, and above it, of a die with the greatest draw and of one without. -/
theorem witness_power : ∀ x ∈ [([100, 200, 300], 3, 0), ([700, 900, 700], 1, 1), ([700, 900, 700], 2, 2)], ∃ (s : State) (draw : List Nat) (d : Nat), d < 4
    ∧ s.measured + 7000 ≤ s.now ∧ (let w := (draw ++ [0, 0, 0, 0]).take 4
      if x.2.2 = 0 then w.sum ≤ s.pwrcap else s.pwrcap < w.sum ∧ if x.2.2 = 1 then ∀ v ∈ w, v ≤ w.getD d 0 else ∃ v ∈ w, w.getD d 0 < v) := by
  intro x hx
  have h : ∀ x ∈ [([100, 200, 300], 3, 0), ([700, 900, 700], 1, 1), ([700, 900, 700], 2, 2)], (let w := (x.1 ++ [0, 0, 0, 0]).take 4
      x.2.1 < 4 ∧ if x.2.2 = 0 then w.sum ≤ 2200 else 2200 < w.sum ∧ if x.2.2 = 1 then ∀ v ∈ w, v ≤ w.getD x.2.1 0 else ∃ v ∈ w, w.getD x.2.1 0 < v) := by decide
  exact ⟨{ now := 7000, pwrcap := 2200 }, x.1, x.2.1, (h x hx).1, by decide, (h x hx).2⟩
theorem witness_throttle : ∃ (s : State) (d : Nat), d < 4 ∧ (s.die d).pulse < 64 := ⟨{ dies := [(3, { pulse := 63 })] }, 3, by decide +kernel⟩
theorem witness_link_down : ∃ (s : State) (d : Nat), d < 2 ∧ (s.links.get {} d).up = true := ⟨{ links := [(1, { up := true })] }, 1, by decide +kernel⟩
theorem witness_link_up : ∃ (n w : Nat), 5 ≤ n ∧ n ≤ 7 ∧ w ∈ [4, 8, 16] := ⟨7, 16, by decide⟩
theorem witness_span_down : ∃ (s : State) (d : Nat), d < 16 ∧ (s.spans.get {} d).up = true ∧
    (let y := s.spans.get {} d
    ({ s with spans := s.spans.put d { y with up := false, downev := true } } : State).routed y.peer = false) :=
  ⟨{ spans := [(15, { up := true, peer := 3 })] }, 15, by decide +kernel⟩
theorem witness_span_up : ∃ d n : Nat, d < 16 ∧ n < 2 ^ 14 := ⟨15, 2 ^ 14 - 1, by decide⟩
theorem witness_route_timeout : ∃ (s : State) (n : Nat), s.routed n = false ∧ n ∉ s.lost ∧ s.noRoute.get 0 n + 1000 * 700 ≤ s.now :=
  ⟨{ now := 700005, noRoute := [(3, 5)] }, 3, by decide +kernel⟩
theorem witness_bringup : ∀ n ∈ [0, 1, 4], ∃ s : State, s.stage < 5 ∧ s.fwerr = false ∧ s.stage = n := by
  intro n hn
  have h : ∀ n ∈ [0, 1, 4], n < 5 := by decide
  exact ⟨{ stage := n }, h n hn, rfl, rfl⟩

/-! ### A step -/

/-- The state in which an engine's turn finds its words, and its program counter. -/
def turned (r : State) (t : Turn) (k : Nat) (n : Option Nat) : State := { r.begin t with cur := k, budget := n }
def State.boundaryPc (u : State) (e : Eng) : Nat := ((u.ctx.eng e).prog.bind (·.home)).getD (u.ctx.eng e).pc

/-- StepRunsDecodedInstruction: the words of an instruction of two words where the next turn fetches. -/
theorem witness_step_runs : ∃ (s : State) (e : Eng) (n : Option Nat) (r : State) (i : Instr), s.firstTurn = (⟨0, .engine 0 e n⟩, r) ∧ r.power = true ∧
    (let u := turned r ⟨0, .engine 0 e n⟩ 0 n
    let pc := u.boundaryPc e
    let w0 := u.cc.imem.get 0 pc
    let w1 := u.cc.imem.get 0 (pc + 1)
    u.cc.runnable e = true ∧ pc < u.work.len ∧ u.cc.firstWord pc = true ∧ engOf (w0.extractLsb' 30 2) = e
      ∧ pc + wordLength (engOf (w0.extractLsb' 30 2)) (bits w0 25 19) ≤ u.work.len ∧ decode w0 w1 = .ok i) :=
  ⟨State.reset.withFetchWord 64 (0x0430800E * 2 ^ 32 + 0xA2000000), .X, none, _, .vadd 8 0 1 3 2 0 0 14, rfl, by decide +kernel⟩

/-- The same, for a word tagged for another engine, and for a word that is no instruction. -/
def fetchOther : State := { State.reset.withFetchWord 32 0x5089800A with agenda := [⟨0, .engine 0 .C none⟩] }
theorem witness_step_skips : ∃ (s : State) (r : State), s.firstTurn = (⟨0, .engine 0 .C none⟩, r) ∧ r.power = true ∧
    (let u := turned r ⟨0, .engine 0 .C none⟩ 0 none
    let pc := u.boundaryPc .C
    u.cc.runnable .C = true ∧ pc < u.work.len ∧ u.cc.firstWord pc = true ∧ engOf ((u.cc.imem.get 0 pc).extractLsb' 30 2) ≠ .C) :=
  ⟨fetchOther, _, rfl, by decide +kernel⟩
theorem witness_step_illegal : ∃ (s : State) (r : State) (c : Reject), s.firstTurn = (⟨0, .engine 0 .C none⟩, r) ∧ r.power = true ∧
    (let u := turned r ⟨0, .engine 0 .C none⟩ 0 none
    let pc := u.boundaryPc .C
    let w0 := u.cc.imem.get 0 pc
    u.cc.runnable .C = true ∧ pc < u.work.len ∧ u.cc.firstWord pc = true ∧ engOf (w0.extractLsb' 30 2) = .C
      ∧ pc + wordLength .C (bits w0 25 19) ≤ u.work.len ∧ decode w0 (u.cc.imem.get 0 (pc + 1)) = .error c) :=
  ⟨State.reset.withFetchWord 32 0x03F80000, _, .unassigned, rfl, by decide +kernel⟩

/-- A text of one word, its only word the first of two, and a program counter at its end. -/
def fetchHalf (pc : Nat) : State :=
  { cores := [(0, { work := some { id := 0, len := 1 }, imem := [(0, 0xA2000000)], marks := [0], ctx := { x := { pc } } })]
    agenda := [⟨0, .engine 0 .X none⟩] }
theorem witness_step_half : ∃ (s : State) (r : State), s.firstTurn = (⟨0, .engine 0 .X none⟩, r) ∧ r.power = true ∧
    (let u := turned r ⟨0, .engine 0 .X none⟩ 0 none
    let pc := u.boundaryPc .X
    let w0 := u.cc.imem.get 0 pc
    u.cc.runnable .X = true ∧ pc < u.work.len ∧ u.cc.firstWord pc = true ∧ engOf (w0.extractLsb' 30 2) = .X
      ∧ wordLength (engOf (w0.extractLsb' 30 2)) (bits w0 25 19) = 2 ∧ pc + 1 = u.work.len) := ⟨fetchHalf 0, _, rfl, by decide +kernel⟩
theorem witness_step_beyond : ∃ (s : State) (r : State), s.firstTurn = (⟨0, .engine 0 .X none⟩, r) ∧ r.power = true ∧
    (let u := turned r ⟨0, .engine 0 .X none⟩ 0 none
    u.cc.runnable .X = true ∧ u.work.len ≤ u.boundaryPc .X) := ⟨fetchHalf 1, _, rfl, by decide +kernel⟩

/-- C's turn ends the wait of an NGO; while the array still runs, C at the end of the text waits behind it. -/
def ngoWaits (nest : Bool) : State :=
  { cores := [(0, { work := some { id := 0, len := 1 }, imem := [(0, 0xA2000000)], marks := [0]
                    ctx := { ar := { start := some default, nest := if nest then some ⟨[], [0]⟩ else none }, c := { pc := 1 } } })]
    agenda := [⟨0, .engine 0 .C none⟩] }
theorem witness_step_ngo : (∃ (s : State) (r : State), s.firstTurn = (⟨0, .engine 0 .C none⟩, r) ∧ r.power = true
      ∧ (turned r ⟨0, .engine 0 .C none⟩ 0 none).ngoDue = true)
    ∧ ∃ (s : State) (r : State), s.firstTurn = (⟨0, .engine 0 .C none⟩, r) ∧ r.power = true ∧
      (let u := turned r ⟨0, .engine 0 .C none⟩ 0 none
      u.ngoDue = false ∧ u.cc.runnable .C = true ∧ u.work.len ≤ u.boundaryPc .C ∧ u.ctx.ar.start.isSome = true) :=
  ⟨⟨ngoWaits false, _, rfl, by decide +kernel⟩, ngoWaits true, _, rfl, by decide +kernel⟩

/-- An event, and a turn without power. -/
theorem witness_step_event : ∃ (s r : State) (i : Instr) (l : Nat), s.firstTurn = (⟨7, .event i l⟩, r) ∧ r.power = true ∧ encode i = [] :=
  ⟨{ agenda := [⟨7, .event .thermalTrip 1⟩] }, _, .thermalTrip, 1, rfl, by decide +kernel⟩
theorem witness_step_dark : ∃ (s r : State) (d : Deed), s.firstTurn = (⟨7, d⟩, r) ∧ r.power = false ∧ ∀ l, d ≠ .event .deviceReset l :=
  ⟨{ power := false, agenda := [⟨7, .upset (.core 0) 1 .C⟩] }, _, .upset (.core 0) 1 .C, rfl, rfl, fun _ => nofun⟩

/-- EncodingIsExact: an instruction with words, and words that decode. -/
theorem witness_encoding : ∃ (i : Instr) (w0 w1 : BitVec 32), encode i ≠ [] ∧ decode w0 w1 = .ok i :=
  ⟨.addi .C 0 5 0 3, 0x00894003, 0, by decide +kernel⟩

/-- MemoryReadsBack and EveryStepKeepsMemoryCanonical: a memory in canonical form, and a step that stores to it. -/
theorem witness_memory : ∃ m n : SMap Byte, Memory.wf m = true ∧ Memory.wf n = true ∧ ∀ a, m.get 0 a = n.get 0 a :=
  ⟨[(3, 9), (7, 1)], [(3, 9), (7, 1)], by decide, by decide, fun _ => rfl⟩
theorem witness_canonical : ∃ s t : State, Memory.wf s.mem = true ∧ step s = .next t :=
  ⟨{ agenda := [⟨0, .event .thermalTrip 0⟩], mem := [(3, 9)] }, _, by decide +kernel, rfl⟩

/-! ### Events: single steps -/

/-- R61: the count in force is the largest of HOSTMIN, PWR and THERM, at most 56, from the next window on. -/
theorem test_throttle_window : let t := after (exec (.throttleWindow 3) { dies := [(3, { pulse := 63, hostmin := 3, pwr := 60 })] })
    (t.die 3).force = 56 ∧ t.now = 1 := by decide +kernel
/-- R380: 2,300 W is above LIMIT; the die with the greatest draw is slowed, the others are not. -/
theorem test_power_measure : let t := after (exec (.powerMeasure [700, 900, 700] [9, 9, 9, 9]) { State.reset with now := 7000 })
    (t.die 1).pwr = 9 ∧ (t.die 1).force = 0 ∧ (t.die 1).throt = true ∧ (t.die 0).pwr = 0 := by decide +kernel
theorem test_power_measure_early : (after (exec (.powerMeasure [700, 900, 700] [9, 9, 9, 9]) { State.reset with now := 6999 })).measured = 0 := by
  decide +kernel
theorem test_thermal_sense : let t := after (exec (.thermalSense 2 0) State.reset)
    (t.die 2).therm = 0 ∧ (t.die 2).throt = false := by decide +kernel
theorem test_thermal_trip : (after (exec .thermalTrip State.reset)).power = false := by decide +kernel

/-- Tables 21-6 and 21-7: links and ports. -/
theorem test_link_down : let t := after (exec (.linkDown 1) { links := [(1, { up := true, rate := 7, width := 16 })] })
    (t.links.get {} 1).up = false ∧ (t.links.get {} 1).downev = true ∧ (t.links.get {} 1).rate = 0 := by decide +kernel
theorem test_flit_retry_saturates : ((after (exec (.flitRetry 2) { spans := [(2, { retry := 65535 })] })).spans.get {} 2).retry = 65535 := by
  decide +kernel
theorem test_spanstat_read_clears : let t := after (exec (.spanstatRead 2) { stage := 5, spans := [(2, { retry := 9, peer := 3 })] })
    t.hostData = 9 + 3 * 2 ^ 18 ∧ (t.spans.get {} 2).retry = 0 := by decide +kernel

/-- R383, Table 21-10: bring-up goes on a stage; firmware whose signature is no number from 1 on is refused (R381). -/
theorem test_bringup : (after (exec (.bringupStage default) State.reset)).stage = 1 := by decide +kernel
theorem test_bringup_refused : let t := after (exec (.bringupStage { image := [], key := [], r := 0, s := 0 }) { stage := 1 })
    t.stage = 1 ∧ t.fwerr = true := by
  have h : ({ stage := 1 } : State).accepts { image := [], key := [], r := 0, s := 0 } = false := by
    unfold State.accepts ecdsaVerify
    simp only [Nat.lt_irrefl, decide_false, Bool.and_false, Bool.false_and]
  simp only [after, execBringupStage, exec, h]
  exact ⟨rfl, rfl⟩

/-- Before stage 5 a register write has no effect (R383); PWRCAP is clamped (R380). -/
theorem test_register_write_early : (after (exec (.registerWrite 0x210170 1000 .whole) State.reset)).pwrcap = 2200 := by decide +kernel
theorem test_register_write_clamps : (after (exec (.registerWrite 0x210170 700 .whole) { stage := 5 })).pwrcap = 800 := by decide +kernel
theorem test_register_write_clears : let t := after (exec (.registerWrite 0x200018 1 .whole) { unit0 {} with parts := [(0, { cverr := true, poolfull := true })] })
    (t.part 0).cverr = false ∧ (t.part 0).poolfull = true := by decide +kernel
theorem test_host_read_reserved : (after (exec (.hostRead (.bar0 0x20F400)) { stage := 5 })).hostData = 0 := by decide +kernel
theorem test_host_read_beyond : (after (exec (.hostRead (.bar4 (1120 * 2 ^ 20))) { stage := 5 })).hostData = BitVec.allOnes 64 := by decide +kernel

/-- HOST_WRITE of two bytes at D-stack address 2^39 - 2. -/
theorem test_host_write : let t := after (exec (.hostWrite (.bar2 (2 ^ 39 - 2)) 0xABCD 2) { stage := 5 })
    t.mem = [(keyOf 1 0 (2 ^ 39 - 2), 0xCD), (keyOf 1 0 (2 ^ 39 - 1), 0xAB)] := by decide +kernel

/-- A peer's AMOADD returns the old value. -/
theorem test_peer_amoadd : let t := after (exec (.peerRequest (.atomic 0 false) 8 5 0) { stage := 5, mem := [(keyOf 1 0 8, 7)] })
    t.peerData = 7 ∧ t.mem = [(keyOf 1 0 8, 12)] := by decide +kernel

/-- R363: a request for a core without work is refused with ERR. -/
theorem test_preempt_refused : ((after (exec (.preemptRequest 0 15) (slotted leaver))).part 0).preempt = 2 ^ 18 + 15 := by decide +kernel

/-- R46: a partition enabled over clusters 60 to 63; one that reaches cluster 64 has CFGERR. -/
theorem test_partition_enable : ((after (exec (.partitionEnable 1 (60 * 2 ^ 7 + 4 * 2 ^ 13)) { stage := 5 })).part 1).en = true := by decide +kernel
theorem test_partition_too_far : ((after (exec (.partitionEnable 1 (61 * 2 ^ 7 + 4 * 2 ^ 13)) { stage := 5 })).part 1).en = false := by
  decide +kernel

/-- R30: a tail that moves past the ring's free slots halts the queue with ERR 2. -/
theorem test_wqtail : ((after (exec (.wqtailWrite 9 20) (qState qOn []))).wq 9).err = 2 := by decide +kernel
theorem test_wqtail_fits : ((after (exec (.wqtailWrite 9 19) (qState qOn []))).wq 9).tail = 19 := by decide +kernel

/-- R160: FLTACK lets engine A go on where it was. -/
theorem test_fltack : let t := after (exec (.fltack 0 0xFFFFFFFF) (acked heldA [] [{ fault0 with seq := some 0xFFFFFFFF }] []))
    ((t.core 0).ctx.eng .A).hold = none ∧ ((t.core 0).ctx.eng .A).pc = 7 := by decide +kernel
theorem test_fltack_drop :
    ((after (exec (.fltack 0 (2 ^ 63)) (acked heldA [] [{ fault0 with seq := some 0 }] []))).core 0).ctx.a.hold = some (.trap 13 8) := by
  decide +kernel

/-- R351: DISCARD removes the terminal entry. -/
theorem test_discard : ((after (exec (.trpackDiscard 0 4) (acked { heldA with hold := some (.trap 10 1) } [(2, [terminal0])] [] [trapRead]))).core 0).ctx.queue 2
    = [] := by decide +kernel
theorem test_abort : ((after (exec (.trpackAbort 0 4) (acked heldA [] [] [{ trap0 with seq := some 4 }]))).core 0).work = none := by decide +kernel

/-- R354: the stall watchdog holds the work with machine check 5; R356: fenced work times out with machine check 6. -/
theorem test_core_stall : let t := after (exec (.coreStallWatchdog 0) { unit0 stalledCore with now := 700000, quiet := [(0, .C, .queue)] })
    (t.core 0).ctx.held = true ∧ (t.part 0).traps.map (fun r => (r.cls, r.cause)) = [(13, 5)] := by decide +kernel
theorem test_fenced_timeout : ((after (exec (.fencedWorkTimeout 0) { unit0 {} with cores := [], off := [fencedSeg], now := 700100 })).part 0).traps.map
    (fun r => (r.cls, r.cause)) = [(13, 6)] := by decide +kernel

/-- R162: nothing of the range is under way. -/
theorem test_tlbir_ack : (after (exec (.tlbirAck 0) { unit0 {} with invals := [inval0] })).invals = [] := by decide +kernel

/-- A PERFORM takes the oldest store of the outbound queue to memory. -/
theorem test_perform : let t := after (exec (.perform 0) { stage := 5, cores := [(0, { ob := [pending0] })] })
    t.mem = [(8, 1)] ∧ (t.core 0).ob = [] := by decide +kernel

end Sys2Proof.Machine
end

