-- ==== Sys2Proof/Tests/WitnessClauses.lean ====
section
/-! SUPPORT. States that meet the hypotheses of the further clauses of the statements about the KV store and placement. -/

namespace Sys2Proof.Machine

set_option Elab.async false

/-! #### The steps of a drain that meet a record -/

/-- The same context with a record r in slot 3, about slot 0 of page 0, whose entry has the position 4 and an expiry; the page's LIVE; the
context's LFP and KIDS, and its hold list. -/
def drainMem (r exp live lfp kids hold : Nat) : List (Nat × Nat) :=
  ((kvRecord 0x4000 1 8 3 0 noPage 0 lfp 0 0 0 ++ kvPool).map fun e =>
    if e.1 = 0x6018 then (e.1, 0) else if e.1 = 0x7000 then (e.1, noBlock * 2 ^ 32 + 1) else if e.1 = 0x4048 then (e.1, hold * 2 ^ 32 + kids) else e)
  ++ [(0x7008, r), (0x7040, noBlock * 2 ^ 32)] ++ ((kvPage exp).map fun e => if e.1 = 0x10000 then (e.1, live) else e)
def drainOf (r exp live lfp kids hold : Nat) : State :=
  { kvState 0 0 (drainMem r exp live lfp kids hold) with dies := [(0, { drains := [drain0] })] }

theorem drainOf_plain {r exp live lfp kids hold : Nat} (h : State.plainCheck { drainOf r exp live lfp kids hold with dies := [] } = true) :
    Plain (drainOf r exp live lfp kids hold) := by
  have p := Plain.of_check h
  have hd : ∀ d, (State.die (drainOf r exp live lfp kids hold) d).fenceWalk = 0 ∧ (State.die (drainOf r exp live lfp kids hold) d).nodes = []
      ∧ (State.die (drainOf r exp live lfp kids hold) d).replicas = [] :=
    SMap.get_of_all (P := fun x : Die => x.fenceWalk = 0 ∧ x.nodes = [] ∧ x.replicas = []) ⟨rfl, rfl, rfl⟩ (fun e he => by
      simp only [drainOf, List.mem_singleton] at he
      subst he
      exact ⟨rfl, rfl, rfl⟩)
  exact {
    stalled := p.stalled
    walkers := fun d => (hd d).1
    replicas := fun d => (hd d).2.2
    base := p.base
    handles := p.handles
    root := p.root
    node := p.node
    leaf := p.leaf
    nodes := fun d n hn => by rw [(hd d).2.1] at hn; cases hn
    tlb := fun cl t ht => p.tlb cl t (by cases cl <;> exact ht)
    events := p.events }

/-- What a step finds on the way to the record. -/
def drainCheck (s : State) (r : Nat) : Bool :=
  kvDrain.reach s && decide (kvDrain.fieldIn s fState = 1 ∧ kvDrain.fieldIn s fPin = 0 ∧ kvDrain.fieldIn s fWheel = 0x6000 ∧ kvDrain.fieldIn s fLogw = 3
    ∧ fieldOf (s.readM 0x6018 8) 31 0 = 0 ∧ kvDrain.fieldIn s fPool = 0x5000 ∧ s.readM 0x5008 8 = 0x7000 ∧ fieldOf (s.readM 0x7000 8) 2 0 = 1
    ∧ s.readM 0x7008 8 = r)

theorem Gives.block {x : Kv} {s : State} {a b : Nat} (h : x.plainIn s = true) (hv : x.va + 24 < 2 ^ 30) (hp : x.fieldIn s fPool = 0x5000)
    (hb : s.readM 0x5008 8 + 64 * b = a) : Gives (x.block b) s a s :=
  ((Gives.rd (f := fPool) h hv).val hp).bind ((Gives.load h (by decide)).bind ((Gives.pure _ _).val hb))

theorem Gives.recordFirst {x : Kv} {s : State} {n a k r : Nat} (hn : n ≠ 0) (hb : Gives (x.block 0) s a s) (hk : Gives (x.field a 2 0) s k s) (h : 0 < k)
    (hr : Gives (x.load (a + 8 + 8 * 0) 8) s r s) : Gives (x.recordAt n 0 0) s (some (r, 0, 0)) s := by
  obtain ⟨n, rfl⟩ := Nat.exists_eq_succ_of_ne_zero hn
  rw [Kv.recordAt, if_neg (by decide)]
  exact hb.bind (hk.bind (Gives.ite_true h (hr.bind (Gives.pure _ _))))

/-- The premises of a step that meets a record. -/
def drainMeets (s u5 : State) (r : Nat) : Prop := ∃ u1 u2 u3 u4, (s.die 0).drains = [drain0] ∧ kvDrain.rd fState s = .ok (1, u1)
  ∧ kvDrain.rd fPin u1 = .ok (0, u2) ∧ kvDrain.slotHead drain0.lo u2 = .ok (0x6018, u3) ∧ drain0.block = none ∧ kvDrain.field 0x6018 31 0 u3 = .ok (0, u4)
  ∧ kvDrain.recordAt (2 ^ 32) 0 drain0.doneRecs u4 = .ok (some (r, 0, 0), u5)

theorem drain_meets {s : State} {r : Nat} (p : Plain s) (hd : (s.die 0).drains = [drain0]) (h : drainCheck s r = true) :
    ∃ u5, drainMeets s u5 r ∧ Plain u5 ∧ Alike s u5 := by
  simp only [drainCheck, Bool.and_eq_true, decide_eq_true_eq] at h
  obtain ⟨hr, h1, h2, h3, h4, h5, h6, h7, h8, h9⟩ := h
  have hk : kvDrain.plainIn s = true := by
    simp only [Kv.reach, Bool.and_eq_true] at hr
    exact hr.1.1.1
  obtain ⟨u1, e1, p1, a1⟩ := ((Gives.rd (x := kvDrain) (f := fState) hk (by decide)).val h1).run p (Alike.refl _)
  obtain ⟨u2, e2, p2, a2⟩ := ((Gives.rd (x := kvDrain) (f := fPin) hk (by decide)).val h2).run p1 a1
  obtain ⟨u3, e3, p3, a3⟩ := (show Gives (kvDrain.slotHead 3) s 0x6018 s from
    ((Gives.rd (x := kvDrain) (f := fWheel) hk (by decide)).val h3).bind (((Gives.rd (x := kvDrain) (f := fLogw) hk (by decide)).val h4).bind
      (Gives.pure 0x6018 _))).run p2 a2
  obtain ⟨u4, e4, p4, a4⟩ := ((Gives.field (x := kvDrain) (va := 0x6018) hk (by decide)).val h5).run p3 a3
  obtain ⟨u5, e5, p5, a5⟩ := (Gives.recordFirst (x := kvDrain) (n := 2 ^ 32) (by decide) (Gives.block hk (by decide) h6 (by rw [h7]))
    ((Gives.field (x := kvDrain) (va := 0x7000) hk (by decide)).val h8) (by decide)
    ((Gives.load (x := kvDrain) (va := 0x7008) hk (by decide)).val h9)).run p4 a4
  exact ⟨u5, ⟨u1, u2, u3, u4, hd, e1, e2, e3, rfl, e4, e5⟩, p5, a5⟩

/-- A record of page 0, slot 0 as stale or not. -/
theorem Gives.staleOf {s : State} {r : Nat} {b : Bool} (h : kvDrain.reach s = true) (hr : fieldOf r 31 8 = 0 ∧ fieldOf r 7 2 = 0)
    (hp : s.readM (kvDrain.fieldIn s fPool) 8 = 0x10000)
    (hb : (decide (s.readM 0x10020 8 ≠ 0x4000) || !(BitVec.ofNat 64 (s.readM 0x10000 8)).getLsbD 0 || decide (s.readM 0x10080 4 ≠ fieldOf r 63 32)
      || decide (s.readM 0x10040 1 % 4 ≠ fieldOf r 1 0)) = b) : Gives (kvDrain.stale r) s b s := by
  have hk : kvDrain.plainIn s = true := by
    simp only [Kv.reach, Bool.and_eq_true] at h
    exact h.1.1.1
  unfold Kv.stale
  rw [hr.1, hr.2]
  apply ((Gives.page (pg := 0) h).val (w := 0x10000) (by rw [hp, Nat.zero_mul])).bind
  exact (Gives.load hk (by decide)).bind ((Gives.load hk (by decide)).bind ((Gives.load hk (by decide)).bind ((Gives.load hk (by decide)).bind
    ((Gives.pure _ _).val hb))))

/-- A stale record, the entry's expiry being another; and one of a later lap. -/
theorem witness_drain_stale : ∃ (s u5 u6 v : State) (r : Nat), drainMeets s u5 r ∧ kvDrain.stale r u5 = .ok (true, u6) ∧ kvDrain.count fNstale 1 u6 = .ok ((), v) := by
  obtain ⟨u5, e, p5, a5⟩ := drain_meets (s := drainOf (3 * 2 ^ 32) 9 1 0 0 noBlock) (r := 3 * 2 ^ 32) (drainOf_plain (by decide +kernel)) (by decide +kernel) (by decide +kernel)
  obtain ⟨u6, e6, p6, a6⟩ := (Gives.staleOf (b := true) (r := 3 * 2 ^ 32) (by decide +kernel) (by decide) (by decide +kernel) (by decide +kernel)).run p5 a5
  obtain ⟨v, e7, -⟩ := (Gives.count (x := kvDrain) (f := fNstale) (d := 1) (by decide +kernel) (by decide) (by decide +kernel)).run p6 a6
  exact ⟨_, u5, u6, v, _, e, e6, e7⟩
theorem witness_drain_lap : ∃ (s u5 u6 v : State) (r : Nat), drainMeets s u5 r ∧ kvDrain.stale r u5 = .ok (false, u6) ∧ drain0.lo < fieldOf r 63 32
    ∧ kvDrain.count fNlap 1 u6 = .ok ((), v) := by
  obtain ⟨u5, e, p5, a5⟩ := drain_meets (s := drainOf (11 * 2 ^ 32) 11 1 0 0 noBlock) (r := 11 * 2 ^ 32) (drainOf_plain (by decide +kernel)) (by decide +kernel) (by decide +kernel)
  obtain ⟨u6, e6, p6, a6⟩ := (Gives.staleOf (b := false) (r := 11 * 2 ^ 32) (by decide +kernel) (by decide) (by decide +kernel) (by decide +kernel)).run p5 a5
  obtain ⟨v, e7, -⟩ := (Gives.count (x := kvDrain) (f := fNlap) (d := 1) (by decide +kernel) (by decide) (by decide +kernel)).run p6 a6
  exact ⟨_, u5, u6, v, _, e, e6, by decide, e7⟩

/-- The premises of a step that meets an expired record. -/
def drainExpires (s u10 : State) (r kids w lfp : Nat) : Prop := ∃ u5 u6 u7 u8 u9, drainMeets s u5 r ∧ kvDrain.stale r u5 = .ok (false, u6)
  ∧ fieldOf r 63 32 ≤ drain0.lo ∧ kvDrain.rd fKids u6 = .ok (kids, u7) ∧ kvDrain.page (fieldOf r 31 8) u7 = .ok (0x10000, u8)
  ∧ kvDrain.load (0x10000 + 0x180 + 4 * fieldOf r 7 2) 4 u8 = .ok (w, u9) ∧ kvDrain.rd fLfp u9 = .ok (lfp, u10)

theorem drain_expires {s : State} {kids w lfp : Nat} (p : Plain s) (hd : (s.die 0).drains = [drain0]) (h : drainCheck s (3 * 2 ^ 32) = true)
    (hp : s.readM (kvDrain.fieldIn s fPool) 8 = 0x10000)
    (hb : (decide (s.readM 0x10020 8 ≠ 0x4000) || !(BitVec.ofNat 64 (s.readM 0x10000 8)).getLsbD 0 || decide (s.readM 0x10080 4 ≠ fieldOf (3 * 2 ^ 32) 63 32)
      || decide (s.readM 0x10040 1 % 4 ≠ fieldOf (3 * 2 ^ 32) 1 0)) = false)
    (hv : kvDrain.fieldIn s fKids = kids ∧ s.readM 0x10180 4 = w ∧ kvDrain.fieldIn s fLfp = lfp) :
    ∃ u10, drainExpires s u10 (3 * 2 ^ 32) kids w lfp ∧ Plain u10 ∧ Alike s u10 := by
  have hr : kvDrain.reach s = true := by
    simp only [drainCheck, Bool.and_eq_true] at h
    exact h.1
  have hk : kvDrain.plainIn s = true := by
    simp only [Kv.reach, Bool.and_eq_true] at hr
    exact hr.1.1.1
  obtain ⟨u5, e5, p5, a5⟩ := drain_meets p hd h
  obtain ⟨u6, e6, p6, a6⟩ := (Gives.staleOf (b := false) (r := 3 * 2 ^ 32) hr (by decide) hp hb).run p5 a5
  obtain ⟨u7, e7, p7, a7⟩ := ((Gives.rd (x := kvDrain) (f := fKids) hk (by decide)).val hv.1).run p6 a6
  obtain ⟨u8, e8, p8, a8⟩ := ((Gives.page (x := kvDrain) (pg := 0) hr).val (w := 0x10000) (by rw [hp, Nat.zero_mul])).run p7 a7
  obtain ⟨u9, e9, p9, a9⟩ := ((Gives.load (x := kvDrain) (va := 0x10180) (n := 4) hk (by decide)).val hv.2.1).run p8 a8
  obtain ⟨u10, e10, p10, a10⟩ := ((Gives.rd (x := kvDrain) (f := fLfp) hk (by decide)).val hv.2.2).run p9 a9
  exact ⟨u10, ⟨u5, u6, u7, u8, u9, e5, e6, by decide, e7, e8, e9, e10⟩, p10, a10⟩

/-- An expired record whose entry no child sees is reclaimed, its page keeping another entry. -/
theorem witness_drain_reclaim : ∃ (s u10 v : State) (r kids w lfp : Nat), drainExpires s u10 r kids w lfp ∧ ¬ (kids ≠ 0 ∧ w ≤ lfp)
    ∧ kvDrain.reclaim r u10 = .ok ((), v) := by
  obtain ⟨u10, e, p, a⟩ := drain_expires (s := drainOf (3 * 2 ^ 32) 3 3 0 0 noBlock) (kids := 0) (w := 4) (lfp := 0) (drainOf_plain (by decide +kernel)) (by decide +kernel)
    (by decide +kernel) (by decide +kernel) (by decide +kernel) (by decide +kernel)
  have g : ∃ t, Gives (kvDrain.reclaim (3 * 2 ^ 32)) (drainOf (3 * 2 ^ 32) 3 3 0 0 noBlock) () t := by
    apply Exists.intro
    unfold Kv.reclaim
    apply ((Gives.page (x := kvDrain) (pg := 0) (by decide +kernel)).val (w := 0x10000) (by decide +kernel)).bind
    apply (Gives.setField (x := kvDrain) (by decide +kernel) (by decide) (by decide +kernel)).bind
    apply (Gives.count (by decide +kernel) (by decide) (by decide +kernel)).bind
    apply (Gives.count (by decide +kernel) (by decide) (by decide +kernel)).bind
    apply ((Gives.load (by decide +kernel) (by decide)).val (w := 2) (by decide +kernel)).bind
    exact Gives.ite_false (by decide) (Gives.pure () _)
  obtain ⟨t, g⟩ := g
  obtain ⟨v, e', -⟩ := g.run p a
  exact ⟨_, u10, v, _, 0, 4, 0, e, by decide, e'⟩

/-- One whose entry a child sees, at the last position that it sees, joins the hold list. -/
theorem witness_drain_hold : ∃ (s u10 v : State) (r kids w lfp : Nat), drainExpires s u10 r kids w lfp ∧ kids ≠ 0 ∧ w = lfp
    ∧ kvDrain.hold r u10 = .ok ((), v) := by
  obtain ⟨u10, e, p, a⟩ := drain_expires (s := drainOf (3 * 2 ^ 32) 3 1 4 1 1) (kids := 1) (w := 4) (lfp := 4) (drainOf_plain (by decide +kernel)) (by decide +kernel)
    (by decide +kernel) (by decide +kernel) (by decide +kernel) (by decide +kernel)
  have g : ∃ t, Gives (kvDrain.hold (3 * 2 ^ 32)) (drainOf (3 * 2 ^ 32) 3 1 4 1 1) () t := by
    apply Exists.intro
    have hk : kvDrain.plainIn (drainOf (3 * 2 ^ 32) 3 1 4 1 1) = true := by decide +kernel
    have hb : Gives (kvDrain.block 1) (drainOf (3 * 2 ^ 32) 3 1 4 1 1) 0x7040 (drainOf (3 * 2 ^ 32) 3 1 4 1 1) :=
      Gives.block hk (by decide) (by decide +kernel) (by decide +kernel)
    unfold Kv.hold
    apply ((Gives.rd (f := fHold) hk (by decide)).val (w := 1) (by decide +kernel)).bind
    apply Gives.bind (v := ([] : List Nat))
    · exact hb.bind (((Gives.field hk (by decide)).val (w := 0) (by decide +kernel)).bind Gives.mapNil)
    apply Gives.ite_true (by decide)
    apply Gives.bind (v := noBlock)
    · exact hb.bind ((Gives.field hk (by decide)).val (w := noBlock) (by decide +kernel))
    apply hb.bind
    apply (Gives.store hk (by decide) (by decide +kernel)).bind
    exact Gives.forCons (Gives.store (by decide +kernel) (by decide) (by decide +kernel)) Gives.forNil
  obtain ⟨t, g⟩ := g
  obtain ⟨v, e', -⟩ := g.run p a
  exact ⟨_, u10, v, _, 1, 4, 4, e, by decide, rfl, e'⟩

/-! #### A group of a gather -/

theorem Plain.modCtx {s : State} (h : Plain s) {f : Ctx → Ctx} (hf : ∀ c, (f c).csr = c.csr) : Plain (s.modCtx f) := by
  unfold State.modCtx State.modCtxOf
  exact h.modCore _ _ ⟨rfl, rfl, (congrArg Csrs.evsel (hf _)).trans (h.events _)⟩

theorem Alike.modCtx {s u : State} (h : Alike s u) (f : Ctx → Ctx) : Alike (s.modCtx f) (u.modCtx f) where
  rest := by
    unfold State.modCtx State.modCtxOf State.modCore
    rw [h.rest]
  core k := by
    unfold State.modCtx State.modCtxOf State.modCore State.core
    rw [SMap.get_put, SMap.get_put, h.cur]
    have hc := h.core s.cur
    have hk := h.core k
    unfold State.core at hc hk
    split
    · rw [hc]
    · exact hk
  die d := h.die d
  ladle l := h.ladle l

theorem Gives.modCtx {s : State} {f : Ctx → Ctx} (hf : ∀ c, (f c).csr = c.csr) : Gives (modify fun s => s.modCtx f : Act Unit) s () (s.modCtx f) :=
  fun u p a => ⟨u.modCtx f, rfl, p.modCtx hf, a.modCtx f⟩

/-- A group of one entry, of one word of key and one of value, placed in two rings. -/
def groupFill (a b w : Nat) (d : List Byte) (c : Ctx) : Ctx :=
  let keys := ([d].map (·.take (4 * 1))).flatten ++ List.replicate (4 * 1 * 63) 0
  let vals := ([d].map (·.drop (4 * 1))).flatten ++ List.replicate (4 * (2 - 1) * 63) 0
  let pos := ([w].map fun w => toBytes w 4).flatten ++ List.replicate (4 * 63) 0xFF
  let c := ([a, b].zip [keys, vals, pos]).foldl (fun c (y : Nat × List Byte) => c.fillSlot y.1 y.2) c
  { c with rings := [a, b].eraseDups.foldl (fun m r => m.set {} r { m.get {} r with tail := (m.get {} r).tail + 1 }) c.rings }

theorem Ctx.setChunks_csr (c : Ctx) (l : List Nat) (d : List Byte) : (c.setChunks l d).csr = c.csr := by
  induction l generalizing c d with
  | nil => rfl
  | cons a r ih =>
    rw [Ctx.setChunks, ih]
    rfl

theorem groupFill_csr (a b w : Nat) (d : List Byte) (c : Ctx) : (groupFill a b w d c).csr = c.csr :=
  (Ctx.setChunks_csr ..).trans (Ctx.setChunks_csr ..)

theorem Gives.group {s : State} {x : Kv} {a b w addr : Nat} (hr : ([a, b].any fun r => decide ((s.ctx.ring r).free = 0)) = false) {d : List Byte}
    (hd : Gives (x.loadData addr 2) s d s) : Gives (gatherGroup x [a, b] 1 2 [⟨w, 0, addr⟩]) s () (s.modCtx (groupFill a b w d)) := by
  intro u p al
  obtain ⟨t, e, pt, at'⟩ := (Gives.mapCons (f := fun e : KvEntry => x.loadData e.addr 2) (a := (⟨w, 0, addr⟩ : KvEntry)) hd Gives.mapNil).run p al
  unfold gatherGroup
  rw [Act.bind_ok (Act.get_run u)]
  dsimp only
  rw [al.curCtx, hr, Act.bind_ok (Act.waitIf_false ..), Act.bind_ok e]
  exact ⟨_, rfl, pt.modCtx (groupFill_csr a b w d), at'.modCtx _⟩

theorem Gives.unpin {s : State} {f : Ctx → Ctx} (h : kv0.plainIn s = true) (h1 : kv0.fieldIn s fPin = 1) (h2 : s.readM 0x4050 8 = 2 ^ 32 + 3)
    (g : (s.writeN (0x4000 + 8 * 10) 8 3).tables = true) :
    Gives (kv0.count fPin (-1)) (s.modCtx f) () ((s.writeN (0x4000 + 8 * 10) 8 3).modCtx f) := by
  have e : putBits (BitVec.ofNat 64 (s.readM (kv0.va + 8 * fPin.dw) 8)) fPin.hi fPin.lo (((kv0.fieldIn s fPin : Nat) + (-1)) % (2 ^ 64 : Int)).toNat = 3 := by
    rw [h1, show s.readM (kv0.va + 8 * fPin.dw) 8 = 2 ^ 32 + 3 from h2]
    decide
  have k : kv0.plainIn (s.modCtx f) = true := h
  have r := Gives.count (x := kv0) (f := fPin) (d := -1) k (by decide) (by
    rw [show (s.modCtx f).readM (kv0.va + 8 * fPin.dw) 8 = s.readM (kv0.va + 8 * fPin.dw) 8 from rfl, show kv0.fieldIn (s.modCtx f) fPin = kv0.fieldIn s fPin from rfl, e]
    exact g)
  rw [show (s.modCtx f).readM (kv0.va + 8 * fPin.dw) 8 = s.readM (kv0.va + 8 * fPin.dw) 8 from rfl, show kv0.fieldIn (s.modCtx f) fPin = kv0.fieldIn s fPin from rfl, e] at r
  exact r

/-- A gather whose next group is of one entry: the only one, or the first of two. -/
def kvGathers (v : Nat) : State := ({ kvState 8 0 (kvRecord 0x4000 1 8 3 0 noPage 0 0 0 0 1 ++ kvPool ++ kvPage 9) with budget := some 1 } : State).modCtx
  fun c => { c with
    rings := [(0, { init := true, slot := 256, n := 4 }), (1, { init := true, base := 1024, slot := 256, n := 4 })]
    a := { c.a with prog := some { stage := 1, count := 0, data := [v, 1, 2, 1, 0x4000, 4, 0x10400] } } }

theorem kv_data (v : Nat) (h : kv0.plainIn (kvGathers v) = true) (h0 : (kvGathers v).readM 0x10400 4 = 10) (h1 : (kvGathers v).readM 0x10404 4 = 11) :
    Gives (kv0.loadData 0x10400 2) (kvGathers v) [10, 0, 0, 0, 11, 0, 0, 0] (kvGathers v) := by
  have g0 : Gives (kv0.load 0x10400 4) (kvGathers v) 10 (kvGathers v) := (Gives.load h (by decide)).val h0
  have g1 : Gives (kv0.load 0x10404 4) (kvGathers v) 11 (kvGathers v) := (Gives.load h (by decide)).val h1
  unfold Kv.loadData
  rw [show List.range 2 = [0, 1] from rfl]
  apply Gives.bind
  · exact Gives.mapCons (g0.bind (Gives.pure (toBytes 10 4) _)) (Gives.mapCons (g1.bind (Gives.pure (toBytes 11 4) _)) Gives.mapNil)
  exact Gives.val (Gives.pure _ _) rfl

/-- KvReadsComplete: a turn of one group, the last, after which PIN is lowered, and not the last. -/
theorem witness_kv_group : ∀ v ∈ [1, 65], ∃ (s w : State) (prog : Prog), s.cc.runnable .A = true ∧ s.cc.badPath ≠ some .A ∧ (s.ctx.eng .A).prog = some prog
    ∧ prog.fill = false ∧ prog.stage = 1 ∧ prog.data.headD 0 = v ∧ prog.data.getD 3 0 = 1 ∧ prog.count < (v + 63) / 64 ∧ s.budget = some 1
    ∧ (prog.count + 1 = (v + 63) / 64 ↔ v = 1)
    ∧ (let own := fun (a : Nat) => ({ cl := .coreA s.cur, part := s.work.part, asid := s.work.asid, va := a, core := true } : Kv)
       let pins := (prog.data.drop 4).take 1
       let group := ((gatherEntries (prog.data.drop (4 + 1))).drop (64 * prog.count)).take 64
       gatherGroup (own (pins.headD 0)) [(16 : BitVec 5).toNat - 16, (1 : BitVec 4).toNat] (prog.data.getD 1 0) (prog.data.getD 2 0) group s = .ok ((), w)
        ∧ ∃ y, (pins.forM fun a => (own a).count fPin (-1)) w = .ok ((), y)) := by
  intro v hv
  have h : ∀ v ∈ [1, 65], (kvGathers v).plainCheck = true ∧ kv0.plainIn (kvGathers v) = true ∧ (kvGathers v).readM 0x10400 4 = 10 ∧ (kvGathers v).readM 0x10404 4 = 11
      ∧ (kvGathers v).cc.runnable .A = true ∧ (kvGathers v).cc.badPath ≠ some .A ∧ 0 < (v + 63) / 64 ∧ (0 + 1 = (v + 63) / 64 ↔ v = 1)
      ∧ ([0, 1].any fun r => decide (((kvGathers v).ctx.ring r).free = 0)) = false
      ∧ (kvGathers v).cur = 0 ∧ (kvGathers v).work.part = 0 ∧ (kvGathers v).work.asid = 0
      ∧ ((kvGathers v).writeN (0x4000 + 8 * 10) 8 3).tables = true ∧ kv0.fieldIn (kvGathers v) fPin = 1 ∧ (kvGathers v).readM 0x4050 8 = 2 ^ 32 + 3 ∧ (kvGathers v).budget = some 1
      ∧ ((kvGathers v).ctx.eng .A).prog = some { stage := 1, count := 0, data := [v, 1, 2, 1, 0x4000, 4, 0x10400] } := by decide +kernel
  obtain ⟨h1, h2, h3, h4, h5, h6, h7, h8, h9, h10, h11, h12, h13, h14, h15, h16, h17⟩ := h v hv
  have g := Gives.group (s := kvGathers v) (x := kv0) (w := 4) h9 (kv_data v h2 h3 h4)
  obtain ⟨w, e, pw, aw⟩ := g.run (Plain.of_check h1) (Alike.refl _)
  have hx : ∀ a, ({ cl := .coreA (kvGathers v).cur, part := (kvGathers v).work.part, asid := (kvGathers v).work.asid, va := a, core := true } : Kv) = { kv0 with va := a } := by
    intro a
    rw [h10, h11, h12]
    rfl
  obtain ⟨y, e', -⟩ := (Gives.forCons (f := fun a => Kv.count ({ kv0 with va := a } : Kv) fPin (-1)) (a := 0x4000)
    (Gives.unpin (f := groupFill 0 1 4 [10, 0, 0, 0, 11, 0, 0, 0]) h2 h14 h15 h13) Gives.forNil).run pw aw
  refine ⟨kvGathers v, w, { stage := 1, count := 0, data := [v, 1, 2, 1, 0x4000, 4, 0x10400] }, h5, h6, h17, rfl, rfl, rfl, rfl, h7, h16, h8, ?_, ?_⟩
  · beta_reduce
    rw [hx]
    exact e
  · simp only [hx]
    exact ⟨y, e'⟩

/-- The placing of a group: the slots of two rings that lie apart. -/
theorem witness_kv_place : ∃ (s u : State) (x : Kv) (rings : List Nat) (kw ew : Nat) (l : List KvEntry) (rows : List (List Byte)),
    rings.length = 2 ∧ kw ≤ ew ∧ l.length ≤ 64 ∧ (∀ r ∈ rings, (s.ctx.ring r).free ≠ 0 ∧ (s.ctx.ring r).pitch % 16 = 0) ∧
    (l.mapM fun e => x.loadData e.addr ew) s = .ok (rows, u) ∧
    (let size := fun (j : Nat) => 256 * [kw, ew - kw, 1].getD j 0
     let place := fun (j o : Nat) => let r := u.ctx.ring (rings.getD j 0); r.byteAt r.tail.toNat o r.pitch r.span
     (∀ j o, j < rings.length → o < size j → o / 16 * 16 + 16 ≤ (u.ctx.ring (rings.getD j 0)).slot) ∧
     ∀ j o j' o', j < rings.length → o < size j → j' < rings.length → o' < size j' → place j o = place j' o' → j = j' ∧ o = o') := by
  have h : (kvGathers 1).plainCheck = true ∧ kv0.plainIn (kvGathers 1) = true ∧ (kvGathers 1).readM 0x10400 4 = 10 ∧ (kvGathers 1).readM 0x10404 4 = 11
    ∧ (∀ r ∈ [0, 1], ((kvGathers 1).ctx.ring r).free ≠ 0 ∧ ((kvGathers 1).ctx.ring r).pitch % 16 = 0)
    ∧ (∀ j, j < 2 → ((kvGathers 1).ctx.ring ([0, 1].getD j 0)) = { init := true, base := 1024 * j, slot := 256, n := 4 }) := by decide +kernel
  obtain ⟨h1, h2, h3, h4, h5, h6⟩ := h
  obtain ⟨u, e, -, au⟩ := (Gives.mapCons (f := fun e : KvEntry => kv0.loadData e.addr 2) (a := (⟨4, 0, 0x10400⟩ : KvEntry)) (kv_data 1 h2 h3 h4) Gives.mapNil).run
    (Plain.of_check h1) (Alike.refl _)
  have hs : ∀ j, j < [0, 1].length → 256 * [1, 2 - 1, 1].getD j 0 = 256 := by decide
  refine ⟨kvGathers 1, u, kv0, [0, 1], 1, 2, _, _, rfl, by decide, by decide, h5, e, ?_, ?_⟩
  · intro j o hj ho
    beta_reduce at ho
    rw [hs j hj] at ho
    rw [au.curCtx, h6 j hj]
    change o / 16 * 16 + 16 ≤ 256
    omega
  · intro j o j' o' hj ho hj' ho' he
    beta_reduce at ho ho' he
    rw [hs j hj] at ho
    rw [hs j' hj'] at ho'
    rw [au.curCtx, h6 j hj, h6 j' hj'] at he
    change 1024 * j + 256 * (0 % 4) + o = 1024 * j' + 256 * (0 % 4) + o' at he
    change j < 2 at hj
    change j' < 2 at hj'
    omega

/-! #### A Morton nest -/

/-- A loop nest of two dimensions, of 3 and 2, walked in Morton order, whose last iteration, of code 6, is behind a code that is none. -/
def recMorton : BitVec 1024 := 0x720000000101 + (0x800 <<< 64) + BitVec.ofNat 1024 ((3 + 2 * 2 ^ 32) * 2 ^ 192) + (3 <<< 896) + (5 <<< 960)

theorem morton_trips : recTrip recMorton 0 = 3 ∧ recTrip recMorton 1 = 2 ∧ Nat.clog 2 3 = 2 ∧ Nat.clog 2 2 = 1 :=
  ⟨by decide +kernel, by decide +kernel, by norm_num [Nat.clog], by norm_num [Nat.clog]⟩

theorem morton_at (code d : Nat) (hd : d < 2) :
    mortonAt 2 (recTrip recMorton) code d = if d = 0 then code % 2 + code / 4 % 2 * 2 else code / 2 % 2 := by
  obtain ⟨h0, h1, c3, c2⟩ := morton_trips
  obtain rfl | rfl : d = 0 ∨ d = 1 := by omega
  · simp [mortonAt, Finset.filter_insert, Finset.range_add_one, h0, h1, c2, c3, Finset.filter_singleton]
    omega
  · simp [mortonAt, Finset.filter_insert, Finset.range_add_one, h0, h1, c2, c3, Finset.filter_singleton]

/-- PlacementEventsComplete: the grant of that iteration, the walk having come to code 5. -/
def mortonState : State := { placer recMorton [] [] with queues := [(9, { qOn with front := [(3, recMorton)], walk := some { nest := 0, k := 5, code := 5 } })] }
theorem witness_grant_morton : ∃ (s u : State) (i : Image) (keys : List Nat) (code : Nat), (let w := s.wq 9
    (∀ e ∈ s.queues, s.frontBad e.2 = false) ∧ s.takes 0 = .queue 9 0 0 ∧ s.outranked 9 = false ∧ w.frontRec = some recMorton
      ∧ s.checkImage (dieOf 0) w.part w.asid (recCode recMorton) (recEntry recMorton) = (.ok i keys, u) ∧ recKind recMorton ≠ 2 ∧ recNdim recMorton ≤ 6
      ∧ recWalk recMorton = 2 ∧ recCount recMorton ≤ (w.walk.map (·.k)).getD 0 + 1 ∧ (w.walk.map (·.code)).getD 0 < code
      ∧ code < 2 ^ (∑ d ∈ Finset.range (recNdim recMorton), Nat.clog 2 (recTrip recMorton d)) ∧ mortonIn (recNdim recMorton) (recTrip recMorton) code
      ∧ ∀ c, (w.walk.map (·.code)).getD 0 ≤ c → c < code → ¬ mortonIn (recNdim recMorton) (recTrip recMorton) c) := by
  have h : (let s := mortonState
    (∀ e ∈ s.queues, s.frontBad e.2 = false) ∧ s.takes 0 = .queue 9 0 0 ∧ s.outranked 9 = false ∧ (s.wq 9).frontRec = some recMorton
      ∧ recCode recMorton = 0x800 ∧ recEntry recMorton = 0 ∧ (s.wq 9).part = 0 ∧ (s.wq 9).asid = 0 ∧ s.plainCheck = true
      ∧ s.readM 0x800 8 = 0x4A584349 ∧ s.readM 0x808 8 = 2 ^ 32 + 2 ∧ s.readM 0x810 8 = 0x1000 ∧ (∀ i < 5, s.readM (0x800 + 8 * (3 + i)) 8 = 0)
      ∧ recKind recMorton ≠ 2 ∧ recNdim recMorton = 2 ∧ recWalk recMorton = 2 ∧ recCount recMorton = 6
      ∧ (s.wq 9).walk = some { nest := 0, k := 5, code := 5 }) := by decide +kernel
  obtain ⟨h1, h2, h3, h4, h5, h6, h7, h8, h9, g1, g2, g3, g4, r1, r2, r3, r4, r5⟩ := h
  obtain ⟨t0, t1, c3, c2⟩ := morton_trips
  obtain ⟨u, e, -⟩ := image_plain h9 (dieOf 0) ⟨g1, g2, g3, g4⟩
  refine ⟨mortonState, u, imageOf800, [0x1000], 6, h1, h2, h3, h4, by rw [h5, h6, h7, h8]; exact e, r1, by rw [r2]; decide, r3, by rw [r4, r5]; decide,
    by rw [r5]; decide, ?_, ?_, ?_⟩
  · rw [r2, Finset.sum_range_succ, Finset.sum_range_one, t0, t1, c3, c2]
    decide
  · rw [r2]
    intro d hd
    rw [morton_at _ _ hd]
    obtain rfl | rfl : d = 0 ∨ d = 1 := by omega
    · rw [t0]; decide
    · rw [t1]; decide
  · rw [r2, r5]
    intro c h5 h6 hc
    obtain rfl : c = 5 := by change 5 ≤ c at h5; omega
    have := hc 0 (by decide)
    rw [morton_at _ _ (by decide), t0] at this
    exact absurd this (by decide)

/-- The walk's indices of each code are those of R44. -/
theorem test_morton_index : ∀ c < 8, mortonIndex 2 (recTrip recMorton) c
    = [mortonAt 2 (recTrip recMorton) c 0, mortonAt 2 (recTrip recMorton) c 1] := by
  intro c hc
  rw [morton_at _ _ (by decide), morton_at _ _ (by decide)]
  revert c
  decide +kernel

end Sys2Proof.Machine
end

section
/-! Bytes and single bits of words, as the record and register accesses of the queues use them. -/
namespace Sys2Proof

theorem length_toBytes (n v : Nat) : (toBytes v n).length = n := by
  induction n generalizing v with
  | zero => rfl
  | succ n ih => simp [toBytes, ih]

theorem getElem_toBytes (n v i : Nat) (h : i < (toBytes v n).length) : (toBytes v n)[i] = BitVec.ofNat 8 (v / 256 ^ i) := by
  induction n generalizing v i with
  | zero => simp [toBytes] at h
  | succ n ih =>
    cases i with
    | zero => simp [toBytes]
    | succ i => simp [toBytes, ih, Nat.div_div_eq_div_mul, pow_succ, mul_comm]

/-- Byte i of a word, as the little-endian split gives it. -/
theorem ofNat_div_eq_extract {w : Nat} (x : BitVec w) (i : Nat) : BitVec.ofNat 8 (x.toNat / 256 ^ i) = x.extractLsb' (8 * i) 8 := by
  apply BitVec.eq_of_toNat_eq
  rw [BitVec.extractLsb'_toNat, BitVec.toNat_ofNat, Nat.shiftRight_eq_div_pow, pow_mul]
  rfl

theorem getLsbD_putBits (v : Word) (n x j : Nat) (hn : n < 64) :
    (putBits v n n x).getLsbD j = if j = n then x.testBit 0 else v.getLsbD j := by
  by_cases hj : j < 64
  · simp only [putBits, Nat.sub_self, Nat.zero_add, BitVec.getLsbD_or, BitVec.getLsbD_and, BitVec.getLsbD_not, BitVec.getLsbD_shiftLeft,
      BitVec.getLsbD_ofNat, hj, decide_true, Bool.true_and, pow_one]
    by_cases h : j = n
    · subst h
      simp [hn]
    · by_cases g : j < n
      · simp [h, g]
      · obtain ⟨m, rfl⟩ : ∃ m, j = n + (m + 1) := ⟨j - n - 1, by omega⟩
        simp [Nat.testBit_succ]
  · rw [BitVec.getLsbD_of_ge _ _ (by omega), if_neg (by omega), BitVec.getLsbD_of_ge _ _ (by omega)]

/-- A field that does not hold the bit written is as it was. -/
theorem bits_putBits (v : Word) {n hi lo : Nat} (x : Nat) (hn : n < 64) (h : hi < n ∨ n < lo) (hl : lo ≤ hi) :
    bits (putBits v n n x) hi lo = bits v hi lo := by
  unfold bits
  congr 1
  apply BitVec.eq_of_getLsbD_eq
  intro i hi'
  rw [BitVec.getLsbD_extractLsb', BitVec.getLsbD_extractLsb', getLsbD_putBits _ _ _ _ hn, if_neg (by omega)]

theorem putBits_putBits (v : Word) (n x y : Nat) (hn : n < 64) : putBits (putBits v n n x) n n y = putBits v n n y := by
  apply BitVec.eq_of_getLsbD_eq
  intro i _
  simp only [getLsbD_putBits _ _ _ _ hn]
  split <;> rfl

end Sys2Proof
end

section
/-! Writes of global memory, and what the accesses of tundishes and of the placement loader change (R150 to R152, R186). -/
namespace Sys2Proof.Machine

/-! ### Writes of global memory -/

/-- A byte after a little-endian write. -/
theorem State.get_writeN (s : State) (key n v a : Nat) :
    (s.writeN key n v).mem.get 0 a = if key ≤ a ∧ a < key + n then BitVec.ofNat 8 (v / 256 ^ (a - key)) else s.mem.get 0 a := by
  change SMap.get (s.mem.setList 0 key (toBytes v n)) 0 a = _
  by_cases h : key ≤ a ∧ a < key + n
  · obtain ⟨i, rfl⟩ := Nat.exists_eq_add_of_le h.1
    rw [if_pos h, SMap.get_setList_in _ _ _ _ _ (by rw [length_toBytes]; omega), getElem_toBytes, Nat.add_sub_cancel_left]
  · rw [if_neg h, SMap.get_setList_out _ _ _ _ _ (by rw [length_toBytes]; omega)]

/-- The bytes of a word that a write has put to a location, and those around it. -/
theorem State.get_writeWord (s : State) {w : Nat} (key n a : Nat) (x : BitVec w) : (s.writeN key n x.toNat).mem.get 0 a
    = if key ≤ a ∧ a < key + n then x.extractLsb' (8 * (a - key)) 8 else s.mem.get 0 a := by
  rw [State.get_writeN, ofNat_div_eq_extract]

/-! ### What translation changes (R150 to R152) -/

/-- A property that everything a translation of a client may do leaves true: the notes of who waits and of the caches' use, the walkers'
nodes, A and D of an entry, the client's own cache, and its count of misses. -/
structure Keeps (cl : Client) (P : State → Prop) : Prop where
  notes : ∀ {u : State} (l : List Stalled) (n : Nat), P u → P { u with stalled := l, freeNo := n }
  node : ∀ {u : State} (d part asid level tag : Nat) (e : Word), P u → P (u.cacheNode d part asid level tag e)
  entry : ∀ {u : State} (entry acc : Nat), P u → P (u.touchEntry entry acc)
  cache : ∀ {u : State} (f : List Tlb → List Tlb), P u → P (u.modTlb cl f)
  count : ∀ {u : State} (k : Nat) (e : Option Eng), cl = .coreC k ∨ cl = .coreA k → P u → P (u.countOn k 0x0B e 1)

namespace Keeps
variable {cl : Client} {P : State → Prop} (kept : Keeps cl P)
include kept

theorem walkFrom (d part asid va level : Nat) : ∀ (node : Nat) {u : State}, P u → P (Machine.walkFrom d part asid va level node u).2 := by
  induction level with
  | zero =>
    intro node u h
    unfold Machine.walkFrom
    dsimp only
    repeat' split
    all_goals exact h
  | succ level ih =>
    intro node u h
    unfold Machine.walkFrom
    dsimp only
    iterate 6
      split
      · exact h
    exact ih _ (kept.node _ _ _ _ _ _ h)

theorem walk {u : State} (h : P u) (d part asid va : Nat) : P (u.walk d part asid va).2 := by
  unfold State.walk
  dsimp only
  iterate 4
    split
    · exact h
  exact kept.walkFrom _ _ _ _ _ _ (kept.node _ _ _ _ _ _ h)

theorem fill {u : State} (h : P u) (part asid va acc : Nat) : P (u.fill cl part asid va acc).2 := by
  unfold State.fill
  extract_lets v
  have hv : P v := by
    cases cl with
    | loader | tundish | shakeout | ladle => exact h
    | coreC => exact kept.count _ _ (.inl rfl) h
    | coreA => exact kept.count _ _ (.inr rfl) h
  clear_value v
  have hw := kept.walk hv (clientDie cl) part asid va
  revert hw
  cases v.walk (clientDie cl) part asid va with
  | mk a v =>
  intro hw
  cases a with
  | fail c l => exact hw
  | stall l e => exact hw
  | leaf t entry =>
    dsimp only
    split
    · exact hw
    · split
      · dsimp only
        exact kept.cache _ (kept.entry entry acc hw)
      · exact hw

theorem miss {u : State} (h : P u) (part asid va acc : Nat) : P (u.miss cl part asid va acc).2 := by
  unfold State.miss
  split
  · exact kept.fill h part asid va acc
  · exact h

/-- A property that is kept holds after a translation. -/
theorem translate {u : State} (h : P u) (part asid va acc : Nat) : P (u.translate cl part asid va acc).2 := by
  unfold State.translate
  split
  · exact h
  · split
    · dsimp only
      split
      · exact kept.notes _ u.freeNo h
      · split
        · split
          · exact kept.fill (kept.notes _ u.freeNo h) part asid va acc
          · exact h
        · exact h
    · split
      · split
        · exact kept.notes u.stalled _ h
        · exact kept.miss (kept.notes u.stalled _ h) part asid va acc
      · exact kept.miss h part asid va acc

end Keeps

/-- The executing core is the same one after a translation. -/
theorem Keeps.cur (cl : Client) (n : Nat) : Keeps cl fun u => u.cur = n where
  notes _ _ h := h
  node _ _ _ _ _ _ h := h
  entry _ _ h := by unfold State.touchEntry; split <;> exact h
  cache _ h := by cases cl <;> exact h
  count _ _ _ h := h

/-! ### What an access of a tundish or of the placement loader changes -/

/-- A client of translation that holds no translations of its own. -/
def cacheless : Client → Bool
  | .loader _ | .tundish _ | .shakeout _ => true
  | _ => false

/-- u is s after accesses of such clients: of the device, only what translation and the replicas' order of use may change. -/
def State.Looks (s u : State) : Prop :=
  u = { s with mem := u.mem, dies := u.dies, poison := u.poison, stalled := u.stalled, freeNo := u.freeNo, fills := u.fills }

namespace State.Looks
variable {s t u : State}

theorem refl (s : State) : s.Looks s := rfl

theorem trans (h : s.Looks t) (g : t.Looks u) : s.Looks u := by
  unfold State.Looks at *
  rw [g, h]

theorem cores (h : s.Looks u) : u.cores = s.cores := by rw [h]
theorem queues (h : s.Looks u) : u.queues = s.queues := by rw [h]
theorem parts (h : s.Looks u) : u.parts = s.parts := by rw [h]
theorem off (h : s.Looks u) : u.off = s.off := by rw [h]
theorem now (h : s.Looks u) : u.now = s.now := by rw [h]
theorem nests (h : s.Looks u) : u.nests = s.nests := by rw [h]
theorem groups (h : s.Looks u) : u.groups = s.groups := by rw [h]
theorem conds (h : s.Looks u) : u.conds = s.conds := by rw [h]
theorem cvs (h : s.Looks u) : u.cvs = s.cvs := by rw [h]
theorem core (h : s.Looks u) (k : Nat) : u.core k = s.core k := by rw [State.core, h.cores, State.core]
theorem wq (h : s.Looks u) (q : Nat) : u.wq q = s.wq q := by rw [State.wq, h.queues, State.wq]
theorem part (h : s.Looks u) (p : Nat) : u.part p = s.part p := by rw [State.part, h.parts, State.part]

theorem coreOfWork (h : s.Looks u) (id : Nat) : u.coreOfWork id = s.coreOfWork id := by
  rw [State.coreOfWork, h.cores, State.coreOfWork]

theorem validRecord (h : s.Looks u) (p : Nat) (r : BitVec 1024) : u.validRecord p r = s.validRecord p r := by
  simp only [State.validRecord, State.domainInside, State.cvOf, h.part, h.cvs]

theorem frontBad (h : s.Looks u) (w : WQ) : u.frontBad w = s.frontBad w := by
  simp only [State.frontBad, h.validRecord]

theorem useReplica (h : s.Looks u) (d key : Nat) : s.Looks (u.useReplica d key) := by
  unfold State.useReplica
  split
  · rw [State.Looks, h]; rfl
  · exact h

theorem writeN (h : s.Looks u) (key n v : Nat) : s.Looks (u.writeN key n v) := by rw [State.Looks, h]; rfl

theorem keeps {cl : Client} (hc : cacheless cl = true) (s : State) : Keeps cl s.Looks where
  notes _ _ h := by rw [State.Looks, h]
  node _ _ _ _ _ _ h := by rw [State.Looks, State.cacheNode, h]; rfl
  entry _ _ h := by
    unfold State.touchEntry
    split
    · rw [State.Looks, h]; rfl
    · exact h
  cache _ h := by
    cases cl with
    | loader | tundish | shakeout => exact h
    | coreC | coreA | ladle => cases hc
  count _ _ hk _ := by obtain rfl | rfl := hk <;> cases hc

theorem translate (h : s.Looks u) {cl : Client} (hc : cacheless cl = true) (part asid va acc : Nat) :
    s.Looks (u.translate cl part asid va acc).2 := (keeps hc s).translate h part asid va acc

/-- The state that a translation of such a client leaves. -/
theorem of_translate {cl : Client} {part asid va acc : Nat} {x : XRes} (h : s.translate cl part asid va acc = (x, u))
    (hc : cacheless cl = true) : s.Looks u := by
  have := (refl s).translate hc part asid va acc
  rwa [h] at this

theorem textKeys (d part asid n : Nat) : ∀ (va rest : Nat) {u : State}, s.Looks u → s.Looks (State.textKeys d part asid n va rest u).2 := by
  induction n with
  | zero => exact fun _ _ _ h => h
  | succ n ih =>
    intro va rest u h
    have ht := h.translate (cl := .loader d) rfl part asid va accExec
    unfold State.textKeys
    revert ht
    cases u.translate (.loader d) part asid va accExec with
    | mk a v =>
    intro ht
    cases a with
    | ok key =>
      have hr := ih (va + 4096) (rest - 4096) ht
      revert hr
      dsimp only
      cases State.textKeys d part asid n (va + 4096) (rest - 4096) v with
      | mk b z => cases b <;> exact id
    | fail c l => exact ht
    | stall l => exact ht

/-- The check of a code image (R16). -/
theorem checkImage (h : s.Looks u) (d part asid desc entry : Nat) : s.Looks (u.checkImage d part asid desc entry).2 := by
  have ht := h.translate (cl := .loader d) rfl part asid desc accRead
  unfold State.checkImage
  revert ht
  cases u.translate (.loader d) part asid desc accRead with
  | mk a v =>
  intro ht
  cases a with
  | fail c l => exact ht
  | stall l => exact ht
  | ok key =>
    dsimp only
    split
    · have hk := textKeys d part asid ((4 * bits (BitVec.ofNat 64 (v.readM (key + 8 * 1) 8)) 31 0 + 4095) / 4096)
        (BitVec.ofNat 64 (v.readM (key + 8 * 2) 8)).toNat (4 * bits (BitVec.ofNat 64 (v.readM (key + 8 * 1) 8)) 31 0) (ht.useReplica d key)
      revert hk
      cases State.textKeys d part asid _ _ _ _ with
      | mk b z => cases b <;> exact id
    · exact ht.useReplica d key

theorem of_checkImage {d part asid desc entry : Nat} {x : ImageRes} (h : s.checkImage d part asid desc entry = (x, u)) : s.Looks u := by
  have := (refl s).checkImage d part asid desc entry
  rwa [h] at this

end State.Looks

@[simp] theorem State.useReplica_mem (s : State) (d key : Nat) : (s.useReplica d key).mem = s.mem := by
  unfold State.useReplica
  split <;> rfl

end Sys2Proof.Machine
end

section
namespace Sys2Proof.Machine

/-! ### Reading a record, and the acts of Table 19-7 when nothing is left to publish -/

@[simp] theorem State.window_issued (s : State) (e : Eng) (p : BitVec 4) (n : Needs) (len va : Nat) :
    (s.issued e p n len).window va = s.window va := by
  simp only [State.window, State.redirect, State.work_issued, State.part, State.issued_parts]

/-- A read that can be served gives its bytes. -/
theorem coreRead_of_serves {s u : State} {p : BitVec 4} {len a n : Nat} {l : List Byte} (h : s.serves p len a n l u) :
    coreRead .C a n n (s.issued .C p {} len) = .ok (l, u) := by
  obtain ⟨key, t, hx, hpath, hpoison, rfl, rfl⟩ := h
  have hcur : t.cur = s.cur := by
    have kept := (Keeps.cur (.coreC s.cur) s.cur).translate (u := s.issued .C p {} len) rfl (s.issued .C p {} len).work.part
      (s.issued .C p {} len).work.asid (s.window a) accRead
    unfold State.reaches xlate xlateAs at hx
    revert hx kept
    cases (s.issued .C p {} len).translate (.coreC s.cur) _ _ _ _ with
    | mk x v =>
    cases x with
    | ok k => intro hx kept; cases hx; exact kept
    | fail c l => intro hx; cases hx
    | stall l => intro hx; cases hx
  have hx' : xlate (engClient (s.issued .C p {} len).cur .C) ((s.issued .C p {} len).window a) accRead n (s.issued .C p {} len) = .ok (key, t) := by
    rw [State.window_issued]
    exact hx
  unfold coreRead
  rw [Act.bind_ok (Act.get_run _), Act.bind_ok hx', Act.bind_ok (Act.get_run _), hpath, Act.bind_ok (Act.waitIf_false _ _), hcur, hpoison,
    Act.bind_ok (Act.poisonIf_false _ _ _), Act.bind_ok (Act.set_run _ _)]
  rfl

/-- The number that an instruction reads once, at its issue. -/
theorem readOnce_of_serves {s u : State} {p : BitVec 4} {len a n : Nat} {l : List Byte} (h : s.serves p len a n l u) :
    readOnce {} a n (s.issued .C p {} len) = .ok ((ofBytes l, { data := [ofBytes l] }), u) := by
  unfold readOnce
  dsimp only
  rw [Act.bind_ok (coreRead_of_serves h)]
  rfl

theorem checkAlign_of_dvd {a n : Nat} (h : a % n = 0) (s : State) : checkAlign a n s = .ok ((), s) := by
  simp [checkAlign, h]

theorem irrevocable_run {s : State} (h : s.work.spec = false) : irrevocable s = .ok ((), s) := by
  unfold irrevocable
  rw [Act.bind_ok (Act.get_run _), h]
  rfl

/-- Work that does not replay acts live. -/
theorem logged_live {s : State} (h : s.work.replay = none) (e : Eng) (kind : ActKind) (redo : BitVec 256 → Act Next)
    (live : Prog → Act Next) (pr : Prog) : logged e kind redo live pr s = live pr s := by
  unfold logged
  rw [Act.bind_ok (Act.get_run _), h]

/-- With nothing to publish or to perform, a release is over at once. -/
theorem releasing_run {s : State} (hsb : s.work.sb = []) (hob : s.cc.ob = []) {pr : Prog} (h : pr.stage = 0) (effect : Nat → Act Next) :
    releasing pr effect s = effect 0 s := by
  have hp : s.publishN s.cur 0 = (s, 0) := rfl
  unfold releasing publishing
  rw [Act.bind_ok (Act.get_run _)]
  simp only [h, hsb, hob, hp, List.length_nil, decide_true, if_true, Act.bind_ok (Act.set_run _ _), Nat.sub_self, Nat.add_zero, List.isEmpty_nil,
    Bool.and_self]

/-- A status is logged and written. -/
theorem finishStatus_run (kind : ActKind) (gd : BitVec 5) (n : Nat) (s : State) :
    finishStatus kind gd n 0 s = .ok (.seq, s.answers kind gd n) := by
  unfold finishStatus logEffect
  rw [Act.bind_ok (Act.modify_run _ _)]
  rfl

/-! ### WQPUSH -/

/-- The statuses of a push that meets neither an error nor the overflow state, in the order of Table 1-10, as the statement reads them:
n is the status, and t the state in which it is answered. -/
def State.pushEnds (u : State) (q : Nat) (r : BitVec 1024) (n : Nat) (t : State) : Prop :=
  if 32767 < q then n = 4 ∧ t = u
  else if (u.wq q).part ≠ u.work.part ∨ (u.wq q).deviceFed = false then n = 3 ∧ t = u
  else if (u.wq q).st = 0 then n = 1 ∧ t = u
  else if (u.wq q).st = 2 then n = 2 ∧ t = u
  else if u.validRecord u.work.part r = false then n = 5 ∧ t = u
  else n = 0 ∧ (u.wq q).ovf = false ∧ (u.wq q).held = [] ∧ u.enqueue q r = (t, .counted)

/-- Such a push is refused with its status, or its record joins the queue. -/
theorem State.pushEnds.cases {u t : State} {q n : Nat} {r : BitVec 1024} (h : u.pushEnds q r n t) :
    (u.refusePush q r = some n ∧ t = u) ∨
    (u.refusePush q r = none ∧ u.pushStatus q = none ∧ n = 0 ∧ (u.wq q).ovf = false ∧ (u.wq q).held = [] ∧ u.enqueue q r = (t, .counted)) := by
  unfold State.pushEnds at h
  unfold State.refusePush State.pushStatus
  simp only [Bool.not_eq_true', ← Bool.not_eq_true] at h ⊢
  by_cases h4 : 32767 < q
  · rw [if_pos h4] at h
    simp [if_pos h4, h]
  rw [if_neg h4] at h ⊢
  by_cases h3 : (u.wq q).part ≠ u.work.part ∨ ¬(u.wq q).deviceFed = true
  · rw [if_pos h3] at h
    simp only [if_pos h3, h, and_self, true_or]
  rw [if_neg h3] at h ⊢
  by_cases h1 : (u.wq q).st = 0
  · rw [if_pos h1] at h
    simp only [if_pos h1, h, and_self, true_or]
  rw [if_neg h1] at h ⊢
  by_cases h2 : (u.wq q).st = 2
  · rw [if_pos h2] at h
    simp only [if_pos h2, h, and_self, true_or]
  rw [if_neg h2] at h ⊢
  by_cases h5 : u.validRecord u.work.part r = true
  · rw [if_neg (not_not.2 h5)] at h
    simp [h5, h]
  · rw [if_pos h5] at h
    simp [h5, h]

/-- A record joins a queue that takes it. -/
theorem pushRecord_run {u t : State} {q : Nat} {r : BitVec 1024} (hs : u.pushStatus q = none) (ho : (u.wq q).ovf = false)
    (hh : (u.wq q).held = []) (he : u.enqueue q r = (t, .counted)) (gd : BitVec 5) :
    pushRecord q r gd 0 u = .ok (.seq, t.answers .wqpush gd 0) := by
  unfold pushRecord
  rw [Act.bind_ok (Act.get_run _)]
  simp only [hs, ho, hh, he, List.isEmpty_nil, Bool.not_true, Bool.or_self, Bool.false_eq_true, if_false, Act.bind_ok (Act.set_run _ _),
    finishStatus_run]

/-- An instruction of C that has retired is no held push. -/
theorem State.descheduleHeld_retired (s : State) (i : Instr) (p : BitVec 4) (n : Needs) :
    (s.retired i .C p n .seq).descheduleHeld = s.retired i .C p n .seq := by
  have hp : (s.retired i .C p n .seq).ctx.c.prog = none := by
    rw [State.ctx_retired]
    exact congrArg Engine.prog (Ctx.eng_retire_seq s.ctx .C _ _)
  unfold State.descheduleHeld
  simp only [hp, Option.any_none, Bool.false_and, Bool.false_eq_true, if_false]
  split <;> rfl

/-- A push by a core with nothing to publish that can complete at once. -/
theorem exec_wqpush {s u t : State} {p : BitVec 4} {gd ga gb : BitVec 5} {r : BitVec 1024} {n : Nat}
    (ready : Ready (.wqpush p gd ga gb) .C p {} s = true) (finds : s.finds p 1 (s.reg .C gb).toNat r u) (hu : u.unburdened)
    (ends : u.pushEnds (s.reg .C ga).toNat r n t) :
    exec (.wqpush p gd ga gb) s = .next ((t.answers .wqpush gd n).retired (.wqpush p gd ga gb) .C p {} .seq) := by
  obtain ⟨ha, l, hserves, rfl⟩ := finds
  obtain ⟨hspec, hreplay, hsb, hob⟩ := hu
  change execWqpush p gd ga gb s = _
  unfold execWqpush
  rw [issueOn_ready (n := fun _ => {}) (pre := pure ()) (x := ((), s)) ready rfl]
  simp only [show instrWords (.wqpush p gd ga gb) = 1 from rfl]
  rw [if_neg (by decide)]
  rw [Act.bind_ok (Act.get_run _)]
  simp only [State.reg_issued]
  rw [Act.bind_ok (checkAlign_of_dvd ha _), Act.bind_ok (readOnce_of_serves hserves), Act.bind_ok (irrevocable_run hspec), logged_live hreplay,
    Act.bind_ok (Act.get_run _)]
  simp only [if_true]
  have done : ∀ v : State, (s.concluded .C p {} 1 (.ok (.seq, v))).descheduleHeld = v.retired (.wqpush p gd ga gb) .C p {} .seq :=
    fun v => v.descheduleHeld_retired (.wqpush p gd ga gb) p {}
  obtain ⟨hr, rfl⟩ | ⟨hr, hs, rfl, ho, hh, he⟩ := ends.cases
  · simp only [hr, finishStatus_run, done]
  · simp only [hr]
    rw [releasing_run hsb hob rfl, pushRecord_run hs ho hh he, done]

/-! ### A record that joins a queue -/

/-- OVF as R37 has it at a depth, with the marks and the state of enabling given; between the marks it stays. -/
def overflow (en old : Bool) (hwm lwm depth : Nat) : Bool := if hwm ≤ depth ∧ en = true then true else if depth < lwm then false else old

/-- The overflow state is all that a look at the marks changes. -/
theorem WQ.watch_eq (w : WQ) : w.watch = { w with ovf := overflow w.en w.ovf w.hwm w.lwm w.depth } := by
  unfold WQ.watch overflow
  simp only [Bool.and_eq_true, decide_eq_true_eq]
  split
  · rfl
  · split <;> rfl

/-- The queue behind a record that has joined it. -/
def WQ.joined (w : WQ) (r : BitVec 1024) : WQ := { w with tail := w.tail + 1, pushed := w.pushed ++ [(w.tail, r)] }.watch

@[simp] theorem WQ.joined_tail (w : WQ) (r : BitVec 1024) : (w.joined r).tail = w.tail + 1 := by rw [WQ.joined, WQ.watch_eq]
@[simp] theorem WQ.joined_head (w : WQ) (r : BitVec 1024) : (w.joined r).head = w.head := by rw [WQ.joined, WQ.watch_eq]
@[simp] theorem WQ.joined_held (w : WQ) (r : BitVec 1024) : (w.joined r).held = w.held := by rw [WQ.joined, WQ.watch_eq]

/-- A record is counted only once it stands in its slot (R36). -/
theorem State.enqueue_counted {s t : State} {q : Nat} {r : BitVec 1024} (h : s.enqueue q r = (t, .counted)) :
    ∃ key u, s.translate (.tundish (s.wq q).home) (s.wq q).part (s.wq q).asid ((s.wq q).slotVa (s.wq q).tail) accWrite = (.ok key, u)
      ∧ t = (u.writeN key 128 r.toNat).modWQ q fun w => w.joined r := by
  unfold State.enqueue at h
  revert h
  dsimp only
  cases s.translate (.tundish (s.wq q).home) (s.wq q).part (s.wq q).asid ((s.wq q).slotVa (s.wq q).tail) accWrite with
  | mk x u =>
  cases x with
  | ok key =>
    intro h
    exact ⟨key, u, rfl, (congrArg Prod.fst h).symm⟩
  | fail c l => intro h; cases congrArg Prod.snd h
  | stall l => intro h; cases congrArg Prod.snd h

/-- What a record that joins a queue changes: its slot, and the queue's tail. -/
theorem State.enqueue_effect {s t : State} {q : Nat} {r : BitVec 1024} (h : s.enqueue q r = (t, .counted)) :
    ∃ key u, s.translate (.tundish (s.wq q).home) (s.wq q).part (s.wq q).asid ((s.wq q).slotVa (s.wq q).tail) accWrite = (.ok key, u)
      ∧ (∀ a, t.mem.get 0 a = if key ≤ a ∧ a < key + 128 then r.extractLsb' (8 * (a - key)) 8 else u.mem.get 0 a)
      ∧ t.wq q = (s.wq q).joined r ∧ (∀ j, j ≠ q → t.wq j = s.wq j) ∧ t.cores = s.cores ∧ t.off = s.off := by
  obtain ⟨key, u, hx, rfl⟩ := State.enqueue_counted h
  have looks := (State.Looks.of_translate hx rfl).writeN key 128 r.toNat
  refine ⟨key, u, hx, fun a => u.get_writeWord key 128 a r, ?_, fun j hj => ?_, looks.cores, looks.off⟩
  · rw [State.wq_modWQ_same, looks.wq]
  · rw [State.wq_modWQ, if_neg hj, looks.wq]

/-- Settles O21: a push ends as its queue and its record say, and a record that joins changes its slot alone. -/
theorem wqpushCompletes : Obligations.WqpushCompletes := by
  unfold Obligations.WqpushCompletes
  refine ⟨fun s u t p gd ga gb r n ready finds hu ends => exec_wqpush ready finds hu ends, fun s t q r h => ?_⟩
  obtain ⟨key, u, hx, hmem, hq, hother, -, -⟩ := State.enqueue_effect h
  exact ⟨key, u, hx, hmem, by rw [hq, WQ.joined_tail], by rw [hq, WQ.joined_head], hother⟩

end Sys2Proof.Machine
end

section
/-! What the end of held pushes, a halt and the passing of a record leave of the device (R24, R31, R38). -/
namespace Sys2Proof

/-- A listed entry that a search finds after a write is the written one, or the one that it found before, as long as the written entry
satisfies the test when the old one did. -/
theorem SMap.find?_put {α : Type} {m : SMap α} {d : α} {k : Nat} {a : α} {p : Nat × α → Bool} {e : Nat × α}
    (hp : p (k, m.get d k) = true → p (k, a) = true) (h : (m.put k a).find? p = some e) : e.1 = k ∨ m.find? p = some e := by
  induction m with
  | nil =>
    rw [SMap.put, List.find?_cons] at h
    split at h
    · exact .inl (by cases h; rfl)
    · cases h
  | cons x r ih =>
    obtain ⟨j, b⟩ := x
    simp only [SMap.put] at h
    split at h
    · rw [List.find?_cons] at h
      split at h
      · exact .inl (by cases h; rfl)
      · exact .inr h
    · split at h
      · rename_i _ hk
        subst hk
        rw [SMap.get, SMap.find_cons, if_pos rfl] at hp
        rw [List.find?_cons] at h ⊢
        split at h
        · exact .inl (by cases h; rfl)
        · rename_i hn
          have : p (k, b) = false := by
            by_contra hb
            rw [hp (by simpa using hb)] at hn
            cases hn
          exact .inr (by rw [this]; exact h)
      · rename_i hk
        rw [SMap.get, SMap.find_cons, if_neg (Ne.symm hk)] at hp
        rw [List.find?_cons] at h ⊢
        split at h
        · exact .inr h
        · exact ih hp h

namespace Machine

/-! ### The end of a push (R38, R39) -/

/-- C of the work whose push ends: the status is in gd, and the instruction is over. -/
theorem Ctx.endPush_eng_C (c : Ctx) (gd : BitVec 5) (n now : Nat) : ∃ l pc,
    (c.endPush gd n now).eng .C = { (c.eng .C).setReg gd (BitVec.ofNat 64 n) with loops := l, pc := pc, prog := none, passed := now } :=
  ⟨_, _, rfl⟩

theorem Ctx.endPush_prog (c : Ctx) (gd : BitVec 5) (n now : Nat) : ((c.endPush gd n now).eng .C).prog = none := rfl

theorem Ctx.endPush_reg_zero (c : Ctx) (gd : BitVec 5) (now : Nat) : ((c.endPush gd 0 now).eng .C).reg gd = 0 := by
  obtain ⟨l, pc, h⟩ := c.endPush_eng_C gd 0 now
  rw [h]
  change ((c.eng .C).setReg gd 0).reg gd = 0
  rw [Engine.reg_setReg]
  split
  · rfl
  · rw [if_pos rfl]

theorem Ctx.endPush_eng_A (c : Ctx) (gd : BitVec 5) (n now : Nat) : (c.endPush gd n now).eng .A = c.eng .A := rfl

theorem Ctx.endPush_spad (c : Ctx) (gd : BitVec 5) (n now : Nat) : (c.endPush gd n now).spad = c.spad := rfl

/-- What the end of its work's push leaves of a core: its memories, its translations and its other state, and the identity of the work. -/
structure Core.PushOver (c x : Core) : Prop where
  frame : x = { c with ctx := x.ctx, work := x.work, leaving := x.leaving }
  spad : x.ctx.spad = c.ctx.spad
  work : x.work.map (·.id) = c.work.map (·.id)

theorem Core.PushOver.refl (c : Core) : c.PushOver c := ⟨rfl, rfl, rfl⟩

theorem Core.PushOver.trans {c x y : Core} (h : c.PushOver x) (g : x.PushOver y) : c.PushOver y :=
  ⟨by rw [g.frame, h.frame], g.spad.trans h.spad, g.work.trans h.work⟩

theorem Core.PushOver.tag {c x : Core} (h : c.PushOver x) : x.tag = c.tag := by rw [h.frame]
theorem Core.PushOver.imem {c x : Core} (h : c.PushOver x) : x.imem = c.imem := by rw [h.frame]

theorem Work.logPush_id (w : Work) (c : Ctx) (n : Nat) : (w.logPush c n).id = w.id := by
  unfold Work.logPush
  split <;> rfl

/-- A test of a core's work by its identity alone. -/
theorem Core.PushOver.holds {c x : Core} (h : c.PushOver x) (id : Nat) : x.work.any (fun w => w.id = id) = c.work.any fun w => w.id = id := by
  have any_map : ∀ o : Option Work, (o.any fun w => decide (w.id = id)) = (o.map (·.id)).any fun n => decide (n = id) := fun o => by
    cases o <;> rfl
  rw [any_map, any_map, h.work]

/-- A core changed as the end of a push changes it: what a search for the holder of some work finds then. -/
theorem State.coreOfWork_modCore {s : State} {k : Nat} {f : Core → Core} (hf : (s.core k).PushOver (f (s.core k))) {id j : Nat}
    (h : (s.modCore k f).coreOfWork id = some j) : j = k ∨ s.coreOfWork id = some j := by
  unfold State.coreOfWork at *
  obtain ⟨e, he, rfl⟩ := Option.map_eq_some_iff.1 h
  have hp : ∀ a : Core, a = s.core k → (a.work.any fun w => decide (w.id = id)) = true →
      ((f (s.core k)).work.any fun w => decide (w.id = id)) = true := fun a ha hw => by rw [hf.holds, ← ha, hw]
  obtain hk | hk := SMap.find?_put (d := {}) (p := fun e : Nat × Core => e.2.work.any fun w => decide (w.id = id)) (hp _ rfl) he
  · exact .inl hk
  · exact .inr (by rw [hk]; rfl)

/-- u is s after pushes that were held have ended: only cores in M have changed, as such an end changes them, and work off every core that
was descheduled at its push. The queues, and which accesses wait, are left open. -/
structure State.PushesOver (M : Nat → Prop) (s u : State) : Prop where
  frame : u = { s with cores := u.cores, off := u.off, creation := u.creation, queues := u.queues, stalled := u.stalled }
  others : ∀ j, ¬ M j → u.core j = s.core j
  core : ∀ j, (s.core j).PushOver (u.core j)
  holder : ∀ {id j}, u.coreOfWork id = some j → M j ∨ s.coreOfWork id = some j
  segs : ∀ g ∈ s.off, g.st ≠ .push → g ∈ u.off

namespace State.PushesOver
variable {M : Nat → Prop} {s u : State}

theorem refl (s : State) : State.PushesOver M s s := ⟨rfl, fun _ _ => rfl, fun _ => .refl _, .inr, fun _ h _ => h⟩

/-- The queues and the accesses that wait may change besides. -/
theorem queues (h : State.PushesOver M s u) (l : SMap WQ) (w : List Stalled) : State.PushesOver M s { u with queues := l, stalled := w } :=
  ⟨by rw [h.frame], h.others, h.core, h.holder, h.segs⟩

theorem modWQ (h : State.PushesOver M s u) (q : Nat) (f : WQ → WQ) : State.PushesOver M s (u.modWQ q f) := h.queues _ u.stalled

theorem mem (h : State.PushesOver M s u) : u.mem = s.mem := by rw [h.frame]
theorem parts (h : State.PushesOver M s u) : u.parts = s.parts := by rw [h.frame]
theorem part (h : State.PushesOver M s u) (p : Nat) : u.part p = s.part p := by rw [State.part, h.parts, State.part]
theorem now (h : State.PushesOver M s u) : u.now = s.now := by rw [h.frame]
theorem groups (h : State.PushesOver M s u) : u.groups = s.groups := by rw [h.frame]

theorem modCore (h : State.PushesOver M s u) {k : Nat} (hk : M k) {f : Core → Core} (hf : (u.core k).PushOver (f (u.core k))) :
    State.PushesOver M s (u.modCore k f) where
  frame := by rw [h.frame]; rfl
  others j hj := by rw [State.core_modCore_ne _ _ (fun e => hj (by rw [e]; exact hk)), h.others j hj]
  core j := by
    rw [State.core_modCore]
    split
    · rename_i e
      subst e
      exact (h.core _).trans hf
    · exact h.core j
  holder g := by
    obtain rfl | g := State.coreOfWork_modCore hf g
    · exact .inl hk
    · exact h.holder g
  segs := h.segs

/-- One push ends, whose work is on a core of M or on none. -/
theorem endHeld (h : State.PushesOver M s u) (x : Held) (n : Nat) (hM : ∀ k, u.coreOfWork x.work = some k → M k) :
    State.PushesOver M s (u.endHeld x n) := by
  unfold State.endHeld
  split
  · rename_i k hk
    have count : State.PushesOver M s (if ((u.core k).work.map fun w => decide (w.log.length < 256)).getD false = true
        then u.countOn k 0x0C none 1 else u) := by
      split
      · exact h.modCore (f := fun c => { c with ctx := { c.ctx with csr := c.ctx.csr.count 0x0C none 1 } }) (hM k hk) ⟨rfl, rfl, rfl⟩
      · exact h
    refine count.modCore (hM k hk) ⟨rfl, ?_, ?_⟩
    · dsimp only
      split <;> rfl
    · dsimp only
      rw [Option.map_map]
      congr 1
      funext w
      exact w.logPush_id _ _
  · refine ⟨by rw [h.frame]; rfl, h.others, h.core, h.holder, fun g hg hst => ?_⟩
    refine List.mem_map.2 ⟨g, h.segs g hg hst, ?_⟩
    rw [if_neg fun e => hst e.2]

end State.PushesOver

/-- A push held by queue q is that of work on core j. -/
def State.holdsPushOf (s : State) (q j : Nat) : Prop := ∃ h ∈ (s.wq q).held, s.coreOfWork h.work = some j

/-- Every held push of a queue ends. -/
theorem State.endAllHeld_over {s u : State} {q : Nat} (h : State.PushesOver (s.holdsPushOf q) s u) (hw : (u.wq q).held = (s.wq q).held) (n : Nat) :
    State.PushesOver (s.holdsPushOf q) s (u.endAllHeld q n) := by
  unfold State.endAllHeld
  dsimp only
  rw [hw]
  have fold : ∀ l ⊆ (s.wq q).held, ∀ v, State.PushesOver (s.holdsPushOf q) s v →
      State.PushesOver (s.holdsPushOf q) s (l.foldl (fun s h => s.endHeld h n) v) := by
    intro l
    induction l with
    | nil => exact fun _ v hv => hv
    | cons x r ih =>
      intro hl v hv
      refine ih (fun y hy => hl (List.mem_cons_of_mem _ hy)) _ (hv.endHeld x n fun k hk => ?_)
      obtain hk | hk := hv.holder hk
      · exact hk
      · exact ⟨x, hl List.mem_cons_self, hk⟩
  exact fold _ (fun _ hx => hx) _ (h.modWQ q _)

/-- A halt leaves its queue's record counts, and ends its held pushes. -/
theorem State.haltQueue_over {s u : State} {q : Nat} (h : State.PushesOver (s.holdsPushOf q) s u) (hw : (u.wq q).held = (s.wq q).held) (err : Nat) :
    State.PushesOver (s.holdsPushOf q) s (u.haltQueue q err) := by
  refine State.endAllHeld_over ((h.queues u.queues _).modWQ q _) ?_ 2
  rw [State.wq_modWQ_same]
  exact hw

theorem State.endHeld_queues (s : State) (h : Held) (n : Nat) : (s.endHeld h n).queues = s.queues := by
  unfold State.endHeld
  split
  · dsimp only
    split <;> rfl
  · rfl

theorem State.endAllHeld_wq (s : State) (q n j : Nat) :
    (s.endAllHeld q n).wq j = if j = q then { s.wq q with held := [] } else s.wq j := by
  have fold : ∀ (l : List Held) (v : State), (l.foldl (fun s h => s.endHeld h n) v).queues = v.queues := by
    intro l
    induction l with
    | nil => exact fun _ => rfl
    | cons x r ih => exact fun v => (ih _).trans (v.endHeld_queues x n)
  unfold State.endAllHeld
  rw [State.wq, fold]
  exact State.wq_modWQ s q j _

/-- The queue that a halt leaves (Table 1-7). -/
def WQ.halted (w : WQ) (err : Nat) : WQ := { w with front := [], checked := false, st := 2, err, held := [] }

theorem State.haltQueue_wq (s : State) (q err j : Nat) : (s.haltQueue q err).wq j = if j = q then (s.wq q).halted err else s.wq j := by
  unfold State.haltQueue
  rw [State.endAllHeld_wq, State.wq_modWQ, State.wq_modWQ, if_pos rfl]
  split <;> rfl

/-! ### The passing of a record (R24, R31) -/

theorem WQ.pass_head (w : WQ) : w.pass.head = w.head + 1 := by rw [WQ.pass, WQ.watch_eq]
theorem WQ.pass_walk (w : WQ) : w.pass.walk = none := by rw [WQ.pass, WQ.watch_eq]
theorem WQ.pass_held (w : WQ) : w.pass.held = w.held := by rw [WQ.pass, WQ.watch_eq]

/-- What the check of a queue's front leaves of the device. -/
theorem State.checkFront_over {s u : State} {q : Nat} (h : State.PushesOver (s.holdsPushOf q) s u) (hw : (u.wq q).held = (s.wq q).held) :
    State.PushesOver (s.holdsPushOf q) s (u.checkFront q) := by
  unfold State.checkFront
  dsimp only
  split
  · exact h
  · split
    · exact State.haltQueue_over h hw 3
    · exact h.modWQ q _

theorem State.checkFront_wq (s : State) (q j : Nat) : (s.checkFront q).wq j = if j = q then
    (if s.frontBad (s.wq q) = true then (s.wq q).halted 3 else { s.wq q with checked := (s.wq q).checked || (s.wq q).frontRec.isSome })
    else s.wq j := by
  unfold State.checkFront
  dsimp only
  cases hr : (s.wq q).frontRec with
  | none =>
    have hb : s.frontBad (s.wq q) = false := by rw [State.frontBad, hr]
    simp only [Option.isNone_none, if_true, hb, Option.isSome_none, Bool.or_false, Bool.false_eq_true, if_false]
    split
    · rename_i e
      rw [e]
    · rfl
  | some r =>
    simp only [Option.isNone_some, Bool.false_eq_true, if_false, Option.isSome_some, Bool.or_true]
    by_cases hb : s.frontBad (s.wq q) = true
    · simp only [if_pos hb]
      exact State.haltQueue_wq s q 3 j
    · simp only [if_neg hb]
      exact State.wq_modWQ s q j _

theorem State.passRecord_over (s : State) (q : Nat) : State.PushesOver (s.holdsPushOf q) s (s.passRecord q) :=
  State.checkFront_over ((State.PushesOver.refl s).modWQ q _) (by rw [State.wq_modWQ_same, WQ.pass_held])

theorem State.passRecord_head (s : State) (q : Nat) : ((s.passRecord q).wq q).head = (s.wq q).head + 1 := by
  rw [State.passRecord, State.checkFront_wq, if_pos rfl, State.wq_modWQ_same, ← WQ.pass_head]
  split <;> rfl

theorem State.passRecord_walk (s : State) (q : Nat) : ((s.passRecord q).wq q).walk = none := by
  rw [State.passRecord, State.checkFront_wq, if_pos rfl, State.wq_modWQ_same, ← (s.wq q).pass_walk]
  split <;> rfl

/-- Without held pushes no work changes. -/
theorem State.passRecord_off {s : State} {q : Nat} (h : (s.wq q).held = []) : (s.passRecord q).off = s.off := by
  have halt : ((s.modWQ q WQ.pass).haltQueue q 3).off = s.off := by
    have hw : (((s.modWQ q WQ.pass).dropRingWaits q).wq q).held = [] := by
      change ((s.modWQ q WQ.pass).wq q).held = []
      rw [State.wq_modWQ_same, WQ.pass_held, h]
    unfold State.haltQueue State.endAllHeld
    rw [State.wq_modWQ_same]
    simp only [WQ.dropFront, hw]
    rfl
  unfold State.passRecord State.checkFront
  dsimp only
  split
  · rfl
  · split
    · exact halt
    · rfl

end Machine
end Sys2Proof
end

section
/-! The events of the work queues (R24 to R38). -/
namespace Sys2Proof.Machine

/-- t is s with queue q become x: no other queue and no byte of memory differs. -/
def State.SetsQueue (s : State) (q : Nat) (x : WQ) (t : State) : Prop := t.mem = s.mem ∧ t.wq q = x ∧ ∀ j, j ≠ q → t.wq j = s.wq j

namespace State.SetsQueue
variable {s t u : State} {q : Nat} {x y : WQ}

theorem refl (s : State) (q : Nat) : s.SetsQueue q (s.wq q) s := ⟨rfl, rfl, fun _ _ => rfl⟩

theorem modWQ (h : s.SetsQueue q x t) (f : WQ → WQ) : s.SetsQueue q (f x) (t.modWQ q f) := by
  obtain ⟨hm, hq, ho⟩ := h
  exact ⟨hm, by rw [State.wq_modWQ_same, hq], fun j hj => by rw [State.wq_modWQ, if_neg hj, ho j hj]⟩

/-- What neither memory nor the queues show may change besides. -/
theorem besides (h : s.SetsQueue q x t) (hm : u.mem = t.mem) (hq : u.queues = t.queues) : s.SetsQueue q x u := by
  obtain ⟨hmem, hx, ho⟩ := h
  exact ⟨hm.trans hmem, by rw [State.wq, hq]; exact hx, fun j hj => by rw [State.wq, hq]; exact ho j hj⟩

/-- The state before may be one that looks up translations. -/
theorem of_looks (hl : s.Looks u) (h : u.SetsQueue q x t) : t.mem = u.mem ∧ t.wq q = x ∧ ∀ j, j ≠ q → t.wq j = s.wq j := by
  obtain ⟨hm, hx, ho⟩ := h
  exact ⟨hm, hx, fun j hj => by rw [ho j hj, hl.wq]⟩

theorem endAllHeld (h : s.SetsQueue q x t) (n : Nat) : s.SetsQueue q { x with held := [] } (t.endAllHeld q n) := by
  obtain ⟨hm, hx, ho⟩ := h
  have ended := State.endAllHeld_over (State.PushesOver.refl t) rfl n (q := q)
  exact ⟨ended.mem.trans hm, by rw [State.endAllHeld_wq, if_pos rfl, hx], fun j hj => by rw [State.endAllHeld_wq, if_neg hj, ho j hj]⟩

theorem haltQueue (h : s.SetsQueue q x t) (err : Nat) : s.SetsQueue q (x.halted err) (t.haltQueue q err) :=
  ((h.besides (u := t.dropRingWaits q) rfl rfl).modWQ _).endAllHeld 2

theorem stir (h : s.SetsQueue q x t) : s.SetsQueue q x t.stir := h.besides rfl rfl

end State.SetsQueue

/-- The halt of a queue that holds no push. -/
theorem WQ.halted_eq {w : WQ} (h : w.held = []) (err : Nat) : w.halted err = { w with st := 2, err, front := [], checked := false } := by
  rw [WQ.halted, ← h]

@[simp] theorem State.stir_wq (s : State) (q : Nat) : s.stir.wq q = s.wq q := rfl

/-- A write of the host window to a device that is ready. -/
theorem atReady_ready {s : State} (h : s.stage = 5) (f : State → State) : atReady f s = .next (f s).stir := by rw [atReady, if_pos h]

theorem exec_wqtailWrite {s : State} (h : s.stage = 5) (q : Nat) (v : Word) : exec (.wqtailWrite q v) s = .next (s.writeTail q v).stir :=
  atReady_ready h (·.writeTail q v)

theorem exec_wqEnable {s : State} (h : s.stage = 5) (q : Nat) (v : Word) :
    exec (.wqEnable q v) s = .next (s.writeCfg q (putBits v 38 38 1)).stir := atReady_ready h (·.writeCfg q (putBits v 38 38 1))

theorem exec_wqDisable {s : State} (h : s.stage = 5) (q : Nat) (v : Word) :
    exec (.wqDisable q v) s = .next (s.writeCfg q (putBits v 38 38 0)).stir := atReady_ready h (·.writeCfg q (putBits v 38 38 0))

/-- OVF of an enabled queue at a depth, as R37 has it: set at HWM and above, clear below LWM, and between them as it was. -/
def marked (old : Bool) (hwm lwm depth : Nat) : Bool := if hwm ≤ depth then true else if depth < lwm then false else old

theorem overflow_enabled (old : Bool) (hwm lwm depth : Nat) : overflow true old hwm lwm depth = marked old hwm lwm depth := by
  simp [overflow, marked]

theorem WQ.watch_enabled {w : WQ} (en : w.en = true) : w.watch = { w with ovf := marked w.ovf w.hwm w.lwm w.depth } := by
  rw [WQ.watch_eq, en, overflow_enabled]

theorem isQueue_of_lt {q : Nat} (h : q < 32768) : isQueue q = true := decide_eq_true h

/-! ### Tail writes (R29, R30) -/

section tail
variable {s : State} {q : Nat} {v : Word} (ready : s.stage = 5) (hq : q < 32768) (en : (s.wq q).en = true) (host : (s.wq q).deviceFed = false)
include ready hq en host

theorem exec_wqtailWrite_fits (fits : ((v.setWidth 32 : BitVec 32) - (s.wq q).tail).toNat ≤ (s.wq q).size - (s.wq q).depth) :
    ∃ t, exec (.wqtailWrite q v) s = .next t ∧ s.SetsQueue q { s.wq q with
      tail := v.setWidth 32
      ovf := if v.setWidth 32 = (s.wq q).tail then (s.wq q).ovf
        else marked (s.wq q).ovf (s.wq q).hwm (s.wq q).lwm ((v.setWidth 32 : BitVec 32) - (s.wq q).head).toNat } t := by
  refine ⟨_, exec_wqtailWrite ready q v, State.SetsQueue.stir ?_⟩
  unfold State.writeTail
  simp only [isQueue_of_lt hq, en, host, Bool.not_true, Bool.false_eq_true, if_false, if_pos fits]
  by_cases same : (v.setWidth 32 : BitVec 32) = (s.wq q).tail
  · have zero : ((v.setWidth 32 : BitVec 32) - (s.wq q).tail).toNat = 0 := by rw [same, BitVec.sub_self]; rfl
    rw [if_pos zero, if_pos same, same]
    exact State.SetsQueue.refl s q
  · have moved : ((v.setWidth 32 : BitVec 32) - (s.wq q).tail).toNat ≠ 0 := fun h => same (by
      have : (v.setWidth 32 : BitVec 32) - (s.wq q).tail = 0#32 := BitVec.eq_of_toNat_eq h
      rwa [BitVec.sub_eq_iff_eq_add, BitVec.zero_add] at this)
    rw [if_neg moved, if_neg same]
    have h := (State.SetsQueue.refl s q).modWQ fun w => { w with tail := v.setWidth 32 }.watch
    rw [WQ.watch_enabled (w := { s.wq q with tail := v.setWidth 32 }) en] at h
    exact h

theorem exec_wqtailWrite_beyond (beyond : (s.wq q).size - (s.wq q).depth < ((v.setWidth 32 : BitVec 32) - (s.wq q).tail).toNat) :
    ∃ t, exec (.wqtailWrite q v) s = .next t ∧ s.SetsQueue q ((s.wq q).halted 2) t := by
  refine ⟨_, exec_wqtailWrite ready q v, State.SetsQueue.stir ?_⟩
  unfold State.writeTail
  simp only [isQueue_of_lt hq, en, host, Bool.not_true, Bool.false_eq_true, if_false, if_neg (not_le.2 beyond),
    if_neg (show ¬ ((v.setWidth 32 : BitVec 32) - (s.wq q).tail).toNat = 0 by omega)]
  exact (State.SetsQueue.refl s q).haltQueue 2

end tail

/-! ### Enabling and disabling (R27, R35) -/

/-- SIZE, HWM and LWM of a configuration lie within their limits, as R27 gives them. -/
theorem cfgValid_on (v : Word) : cfgValid (putBits v 38 38 1) = true ↔
    bits v 36 33 ≤ 12 ∧ 2 ≤ bits v 32 16 ∧ bits v 32 16 ≤ 2 ^ (bits v 36 33 + 4) ∧ 1 ≤ bits v 15 0 ∧ bits v 15 0 < bits v 32 16 := by
  simp only [cfgValid, bits_putBits v 1 (show 38 < 64 by omega) (show 36 < 38 ∨ 38 < 33 by omega) (by omega),
    bits_putBits v 1 (show 38 < 64 by omega) (show 32 < 38 ∨ 38 < 16 by omega) (by omega),
    bits_putBits v 1 (show 38 < 64 by omega) (show 15 < 38 ∨ 38 < 0 by omega) (by omega), Bool.and_eq_true, decide_eq_true_eq, and_assoc]

/-- The queue that an enable makes active. -/
def WQ.enabled (w : WQ) (v : Word) : WQ := { w with
  cfg := putBits v 38 38 1, st := 1, err := 0, headBad := false, dirty := false
  ovf := marked w.ovf (bits v 32 16) (bits v 15 0) w.depth }

/-- A queue with its new configuration, its head word written, goes into service: OVF is tested with the new marks. -/
theorem WQ.enabled_eq {w : WQ} (clean : w.dirty = false) (v : Word) :
    ({ w with cfg := putBits v 38 38 1, headBad := false, st := 1, err := 0 } : WQ).watch = w.enabled v := by
  have en : (putBits v 38 38 1).getLsbD 38 = true := by
    rw [getLsbD_putBits _ _ _ _ (by omega), if_pos rfl]
    rfl
  have hwm : bits (putBits v 38 38 1) 32 16 = bits v 32 16 := bits_putBits v 1 (by omega) (by omega) (by omega)
  have lwm : bits (putBits v 38 38 1) 15 0 = bits v 15 0 := bits_putBits v 1 (by omega) (by omega) (by omega)
  cases w
  subst clean
  simp only [WQ.watch_eq, WQ.enabled, WQ.en, WQ.hwm, WQ.lwm, WQ.depth, en, hwm, lwm, overflow_enabled]

/-- What a write of the head word comes to (R29, R33). -/
theorem State.writeHead_ok {s u : State} {q key : Nat}
    (h : s.translate (.tundish (s.wq q).home) (s.wq q).part (s.wq q).asid (s.wq q).heada.toNat accWrite = (.ok key, u)) :
    s.writeHead q = ((u.writeN key 8 (s.wq q).head.toNat).modWQ q fun w => { w with dirty := false, headBad := false }, .counted) := by
  unfold State.writeHead
  simp only [h]

theorem State.writeHead_fail {s u : State} {q c l : Nat}
    (h : s.translate (.tundish (s.wq q).home) (s.wq q).part (s.wq q).asid (s.wq q).heada.toNat accWrite = (.fail c l, u)) :
    s.writeHead q = ((u.addFault (queueFault (s.wq q) c l accWrite (s.wq q).heada.toNat 8)).modWQ q fun w => { w with headBad := true },
      .halted) := by
  unfold State.writeHead
  simp only [h]

/-- The bytes of a head index of 32 bits in a head word of 64. -/
theorem get_writeHead (u : State) (key : Nat) (i : BitVec 32) (a : Nat) : (u.writeN key 8 i.toNat).mem.get 0 a
    = if key ≤ a ∧ a < key + 8 then (BitVec.ofNat 64 i.toNat).extractLsb' (8 * (a - key)) 8 else u.mem.get 0 a := by
  rw [← State.get_writeWord, BitVec.toNat_ofNat, Nat.mod_eq_of_lt (by omega)]

section enable
variable {s : State} {q : Nat} {v : Word} (ready : s.stage = 5) (hq : q < 32768) 
include ready hq

/-- An enable of a disabled queue. -/
theorem exec_wqEnable_off (off : (s.wq q).en = false) : exec (.wqEnable q v) s = .next (s.enableQueue q (putBits v 38 38 1)).stir := by
  refine (exec_wqEnable ready q v).trans ?_
  unfold State.writeCfg
  simp only [isQueue_of_lt hq, off, Bool.not_true, Bool.false_eq_true, if_false, Bool.not_false, if_true, getLsbD_putBits _ _ _ _ (show 38 < 64 by omega),
    Nat.testBit_one_zero]

theorem exec_wqEnable_invalid (off : (s.wq q).en = false) (bad : cfgValid (putBits v 38 38 1) = false) :
    ∃ t, exec (.wqEnable q v) s = .next t ∧ s.SetsQueue q { s.wq q with cfg := putBits (putBits v 38 38 1) 38 38 0, err := 1 } t := by
  refine ⟨_, exec_wqEnable_off ready hq off, State.SetsQueue.stir ?_⟩
  rw [State.enableQueue, bad]
  exact (State.SetsQueue.refl s q).modWQ fun w => { w with cfg := putBits (putBits v 38 38 1) 38 38 0, err := 1 }

theorem exec_wqEnable_clean (off : (s.wq q).en = false) (valid : cfgValid (putBits v 38 38 1) = true) (clean : (s.wq q).dirty = false) :
    ∃ t, exec (.wqEnable q v) s = .next t ∧ s.SetsQueue q ((s.wq q).enabled v) t := by
  refine ⟨_, exec_wqEnable_off ready hq off, State.SetsQueue.stir ?_⟩
  have set := (((State.SetsQueue.refl s q).besides (u := s.dropQueueWaits q) rfl rfl).modWQ fun w =>
    { w with cfg := putBits v 38 38 1, headBad := false })
  have hd : (((s.dropQueueWaits q).modWQ q fun w => { w with cfg := putBits v 38 38 1, headBad := false }).wq q).dirty = false := by
    rw [set.2.1]
    exact clean
  rw [State.enableQueue, valid]
  simp only [Bool.not_true, Bool.false_eq_true, if_false, hd]
  have res := set.modWQ fun w => { w with st := 1, err := 0 }.watch
  rw [← WQ.enabled_eq clean]
  exact res

/-- The state in which an enable writes a head word that is owed. -/
def State.configured (s : State) (q : Nat) (v : Word) : State :=
  (s.dropQueueWaits q).modWQ q fun w => { w with cfg := putBits v 38 38 1, headBad := false }

omit ready hq in
theorem State.configured_sets (s : State) (q : Nat) (v : Word) :
    s.SetsQueue q { s.wq q with cfg := putBits v 38 38 1, headBad := false } (s.configured q v) :=
  ((State.SetsQueue.refl s q).besides (u := s.dropQueueWaits q) rfl rfl).modWQ _

omit ready hq in
theorem State.enableQueue_dirty (valid : cfgValid (putBits v 38 38 1) = true) (dirty : (s.wq q).dirty = true) :
    s.enableQueue q (putBits v 38 38 1) = match (s.configured q v).writeHead q with
      | (s, .counted) => s.modWQ q fun w => { w with st := 1, err := 0 }.watch
      | (s, .halted) => s.haltQueue q 4
      | (s, .later) => s := by
  have hd : ((s.configured q v).wq q).dirty = true := by
    rw [(s.configured_sets q v).2.1]
    exact dirty
  rw [State.enableQueue, valid]
  change (if ((s.configured q v).wq q).dirty = true then _ else _) = _
  rw [if_pos hd]
  rfl

theorem exec_wqEnable_owed (off : (s.wq q).en = false) (valid : cfgValid (putBits v 38 38 1) = true) (dirty : (s.wq q).dirty = true)
    {key : Nat} {u : State} (h : (s.configured q v).translate (.tundish ((s.configured q v).wq q).home) ((s.configured q v).wq q).part
      ((s.configured q v).wq q).asid (s.wq q).heada.toNat accWrite = (.ok key, u)) :
    ∃ t, exec (.wqEnable q v) s = .next t ∧ t.wq q = (s.wq q).enabled v ∧ (∀ j, j ≠ q → t.wq j = s.wq j) ∧
      ∀ a, t.mem.get 0 a = if key ≤ a ∧ a < key + 8 then (BitVec.ofNat 64 (s.wq q).head.toNat).extractLsb' (8 * (a - key)) 8 else u.mem.get 0 a := by
  obtain ⟨-, hr, hro⟩ := s.configured_sets q v
  have hh : ((s.configured q v).wq q).heada = (s.wq q).heada := by rw [hr]
  have looks := (State.Looks.of_translate h rfl).writeN key 8 (s.wq q).head.toNat
  refine ⟨_, exec_wqEnable_off ready hq off, ?_, fun j hj => ?_, fun a => ?_⟩
  all_goals rw [State.enableQueue_dirty valid dirty, State.writeHead_ok (by rw [hh]; exact h), hr]
  · rw [State.stir_wq, State.wq_modWQ_same, State.wq_modWQ_same, looks.wq, hr]
    exact WQ.enabled_eq (w := { s.wq q with dirty := false }) rfl v
  · rw [State.stir_wq, State.wq_modWQ, if_neg hj, State.wq_modWQ, if_neg hj, looks.wq, hro j hj]
  · exact get_writeHead u key _ a

theorem exec_wqEnable_fault (off : (s.wq q).en = false) (valid : cfgValid (putBits v 38 38 1) = true) (dirty : (s.wq q).dirty = true)
    {c l : Nat} {u : State} (h : (s.configured q v).translate (.tundish ((s.configured q v).wq q).home) ((s.configured q v).wq q).part
      ((s.configured q v).wq q).asid (s.wq q).heada.toNat accWrite = (.fail c l, u)) :
    ∃ t, exec (.wqEnable q v) s = .next t ∧ (∀ j, j ≠ q → t.wq j = s.wq j) ∧ t.mem = u.mem ∧
      t.wq q = ({ s.wq q with cfg := putBits v 38 38 1, headBad := true } : WQ).halted 4 := by
  obtain ⟨-, hr, hro⟩ := s.configured_sets q v
  have hh : ((s.configured q v).wq q).heada = (s.wq q).heada := by rw [hr]
  have looks := State.Looks.of_translate h rfl
  have set := ((((State.SetsQueue.refl u q).besides (u := u.addFault (queueFault ((s.configured q v).wq q) c l accWrite
    ((s.configured q v).wq q).heada.toNat 8)) rfl rfl).modWQ fun w => { w with headBad := true }).haltQueue 4).stir
  obtain ⟨hm, hx, ho⟩ := set
  refine ⟨_, exec_wqEnable_off ready hq off, ?_⟩
  rw [State.enableQueue_dirty valid dirty, State.writeHead_fail (by rw [hh]; exact h)]
  refine ⟨fun j hj => ?_, hm, ?_⟩
  · rw [ho j hj, looks.wq, hro j hj]
  · rw [hx, looks.wq, hr]

/-- The queue with CFGIGN as a write of v to its configuration sets it while EN is 1 (R27). -/
def WQ.ignores (w : WQ) (v : Word) : WQ := { w with cfgign := w.cfgign || decide (putBits w.cfg 38 38 0 ≠ putBits v 38 38 0) }

omit ready hq in
theorem State.SetsQueue.ignores (s : State) (q : Nat) (v : Word) : s.SetsQueue q ((s.wq q).ignores v)
    (if putBits (s.wq q).cfg 38 38 0 ≠ putBits v 38 38 0 then s.modWQ q fun w => { w with cfgign := true } else s) := by
  by_cases h : putBits (s.wq q).cfg 38 38 0 ≠ putBits v 38 38 0
  · rw [if_pos h, WQ.ignores, decide_eq_true h, Bool.or_true]
    exact (State.SetsQueue.refl s q).modWQ fun w => { w with cfgign := true }
  · rw [if_neg h, WQ.ignores, decide_eq_false h, Bool.or_false]
    exact State.SetsQueue.refl s q

theorem exec_wqEnable_on (on : (s.wq q).en = true) :
    ∃ t, exec (.wqEnable q v) s = .next t ∧ s.SetsQueue q ((s.wq q).ignores v) t := by
  refine ⟨_, exec_wqEnable ready q v, State.SetsQueue.stir ?_⟩
  unfold State.writeCfg
  simp only [isQueue_of_lt hq, on, Bool.not_true, Bool.false_eq_true, if_false, getLsbD_putBits _ _ _ _ (show 38 < 64 by omega),
    Nat.testBit_one_zero, if_true, putBits_putBits v 38 1 0 (by omega)]
  exact State.SetsQueue.ignores s q v

theorem exec_wqDisable_on (on : (s.wq q).en = true) : ∃ t, exec (.wqDisable q v) s = .next t ∧
    s.SetsQueue q { (s.wq q).ignores v with front := [], checked := false, cfg := putBits (s.wq q).cfg 38 38 0, st := 0, held := [] } t := by
  refine ⟨_, exec_wqDisable ready q v, State.SetsQueue.stir ?_⟩
  unfold State.writeCfg
  simp only [isQueue_of_lt hq, on, Bool.not_true, Bool.false_eq_true, if_false, getLsbD_putBits _ _ _ _ (show 38 < 64 by omega),
    Nat.zero_testBit, if_true, putBits_putBits v 38 0 0 (by omega)]
  exact (((State.SetsQueue.ignores s q v).besides (u := State.dropRingWaits _ q) rfl rfl).modWQ _).endAllHeld 1

end enable
end Sys2Proof.Machine
end

section
/-! The tundishes' own events: the head word, the front store and held pushes (R29 to R33, R38). -/
namespace Sys2Proof.Machine

/-! ### The head word (R29, R31, R33) -/

/-- A queue whose head word has been written; one whose enable waited for it goes into service. -/
theorem WQ.headWritten_eq {w : WQ} (good : w.headBad = false) :
    (if ({ w with dirty := false, headBad := false } : WQ).en && ({ w with dirty := false, headBad := false } : WQ).st = 0 then
      ({ w with dirty := false, headBad := false, st := 1, err := 0 } : WQ).watch else { w with dirty := false, headBad := false })
    = if w.en ∧ w.st = 0 then { w with dirty := false, st := 1, err := 0, ovf := marked w.ovf w.hwm w.lwm w.depth }
      else { w with dirty := false } := by
  have cond : (({ w with dirty := false, headBad := false } : WQ).en && ({ w with dirty := false, headBad := false } : WQ).st = 0)
    = (w.en && w.st = 0) := rfl
  by_cases c : w.en ∧ w.st = 0
  · rw [if_pos c, if_pos (cond.trans (by simp [c])), WQ.watch_enabled (w := { w with dirty := false, headBad := false, st := 1, err := 0 }) c.1]
    cases w
    subst good
    rfl
  · rw [if_neg c, if_neg (by rw [cond]; simpa using c)]
    cases w
    subst good
    rfl

section head
variable {s u : State} {q : Nat} (dirty : (s.wq q).dirty = true) (good : (s.wq q).headBad = false)
include dirty good

/-- A head word that is owed is written. -/
theorem exec_headWordWrite_ok {key : Nat}
    (h : s.translate (.tundish (s.wq q).home) (s.wq q).part (s.wq q).asid (s.wq q).heada.toNat accWrite = (.ok key, u)) :
    ∃ t, exec (.headWordWrite q) s = .next t ∧ (∀ j, j ≠ q → t.wq j = s.wq j)
      ∧ (∀ a, t.mem.get 0 a
        = if key ≤ a ∧ a < key + 8 then (BitVec.ofNat 64 (s.wq q).head.toNat).extractLsb' (8 * (a - key)) 8 else u.mem.get 0 a)
      ∧ t.wq q = if (s.wq q).en ∧ (s.wq q).st = 0 then
          { s.wq q with dirty := false, st := 1, err := 0, ovf := marked (s.wq q).ovf (s.wq q).hwm (s.wq q).lwm (s.wq q).depth }
        else { s.wq q with dirty := false } := by
  have looks := (State.Looks.of_translate h rfl).writeN key 8 (s.wq q).head.toNat
  have ex : exec (.headWordWrite q) s = .next (((u.writeN key 8 (s.wq q).head.toNat).modWQ q fun w => { w with dirty := false, headBad := false }).modWQ q
      fun w => if w.en && w.st = 0 then { w with st := 1, err := 0 }.watch else w).stir := by
    change execHeadWordWrite q s = _
    unfold execHeadWordWrite
    simp only [dirty, good, Bool.not_true, Bool.or_false, Bool.false_eq_true, if_false, State.writeHead_ok h]
  refine ⟨_, ex, fun j hj => ?_, fun a => get_writeHead u key _ a, ?_⟩
  · rw [State.stir_wq, State.wq_modWQ, if_neg hj, State.wq_modWQ, if_neg hj, looks.wq]
  · rw [State.stir_wq, State.wq_modWQ_same, State.wq_modWQ_same, looks.wq]
    exact WQ.headWritten_eq good

/-- A fault of the write is noted with ERR 4, and halts an enabled queue. -/
theorem exec_headWordWrite_fault {c l : Nat}
    (h : s.translate (.tundish (s.wq q).home) (s.wq q).part (s.wq q).asid (s.wq q).heada.toNat accWrite = (.fail c l, u)) :
    ∃ t, exec (.headWordWrite q) s = .next t ∧ (∀ j, j ≠ q → t.wq j = s.wq j) ∧ t.mem = u.mem
      ∧ t.wq q = if (s.wq q).en then ({ s.wq q with headBad := true } : WQ).halted 4 else { s.wq q with headBad := true, err := 4 } := by
  have looks := State.Looks.of_translate h rfl
  have set := (((State.SetsQueue.refl u q).besides (u := u.addFault (queueFault (s.wq q) c l accWrite (s.wq q).heada.toNat 8)) rfl rfl).modWQ
    fun w => { w with headBad := true })
  rw [looks.wq] at set
  have ex : ∀ v, (u.addFault (queueFault (s.wq q) c l accWrite (s.wq q).heada.toNat 8)).modWQ q (fun w => { w with headBad := true }) = v →
      exec (.headWordWrite q) s = .next (if (s.wq q).en then v.haltQueue q 4 else v.modWQ q fun w => { w with err := 4 }).stir := by
    rintro _ rfl
    change execHeadWordWrite q s = _
    unfold execHeadWordWrite
    simp only [dirty, good, Bool.not_true, Bool.or_false, Bool.false_eq_true, if_false, State.writeHead_fail h]
  by_cases en : (s.wq q).en = true
  · obtain ⟨hm, hx, ho⟩ := (set.haltQueue 4).stir
    simp only [if_pos en] at ex ⊢
    exact ⟨_, ex _ rfl, fun j hj => by rw [ho j hj, looks.wq], hm, hx⟩
  · obtain ⟨hm, hx, ho⟩ := (set.modWQ fun w => { w with err := 4 }).stir
    simp only [if_neg en] at ex ⊢
    exact ⟨_, ex _ rfl, fun j hj => by rw [ho j hj, looks.wq], hm, hx⟩

end head

/-- A head word that has faulted waits. -/
theorem exec_headWordWrite_waits {s : State} {q : Nat} (h : (s.wq q).headBad = true) : exec (.headWordWrite q) s = .next s := by
  change execHeadWordWrite q s = _
  unfold execHeadWordWrite
  simp only [h, Bool.or_true, if_true]

/-! ### The front store (R24, R32) -/

/-- The queue behind a copy of its next slot. -/
def WQ.refilled (w : WQ) (r : BitVec 1024) : WQ := { w with front := w.front ++ [(w.head + BitVec.ofNat 32 w.front.length, r)] }

/-- The next slot is copied, and a record that thereby reaches the front is checked. -/
theorem exec_frontRefill_ok {s u : State} {q key : Nat} (act : (s.wq q).active = true) (room : (s.wq q).front.length < 8)
    (more : (s.wq q).front.length < (s.wq q).depth) (slots : s.frontUsed (s.wq q).home < 1024)
    (h : s.translate (.tundish (s.wq q).home) (s.wq q).part (s.wq q).asid
      ((s.wq q).slotVa ((s.wq q).head + BitVec.ofNat 32 (s.wq q).front.length)) accRead = (.ok key, u)) :
    let x := (s.wq q).refilled (BitVec.ofNat 1024 (u.readM key 128))
    ∃ t, exec (.frontRefill q) s = .next t ∧ t.mem = u.mem ∧ (∀ j, j ≠ q → t.wq j = s.wq j)
      ∧ t.wq q = if u.frontBad x then x.halted 3 else { x with checked := (s.wq q).checked || x.frontRec.isSome } := by
  intro x
  have looks := (State.Looks.of_translate h rfl)
  have replica := (State.Looks.refl u).useReplica (s.wq q).home key
  have set := State.SetsQueue.modWQ (State.SetsQueue.besides (State.SetsQueue.refl u q) (u := u.useReplica (s.wq q).home key)
    (State.useReplica_mem u _ _) replica.queues) fun w => { w with front := w.front ++
      [((s.wq q).head + BitVec.ofNat 32 (s.wq q).front.length, BitVec.ofNat 1024 (u.readM key 128))] }
  rw [looks.wq] at set
  change u.SetsQueue q x _ at set
  have ex : exec (.frontRefill q) s = .next (((u.useReplica (s.wq q).home key).modWQ q fun w => { w with front := w.front ++
      [((s.wq q).head + BitVec.ofNat 32 (s.wq q).front.length, BitVec.ofNat 1024 (u.readM key 128))] }).checkFront q).stir := by
    change execFrontRefill q s = _
    unfold execFrontRefill
    simp only [act, decide_eq_false (show ¬ frontPerQueue ≤ _ from not_le.2 room), decide_eq_false (not_le.2 more), Bool.not_true, Bool.or_self,
      Bool.false_eq_true, if_false, if_neg (show ¬ frontSlots ≤ _ from not_le.2 slots), h]
  obtain ⟨hm, hx, ho⟩ := set
  have bad : State.frontBad _ x = u.frontBad x := (replica.frontBad x).trans rfl
  refine ⟨_, ex, ?_, fun j hj => ?_, ?_⟩
  · exact (State.checkFront_over (State.PushesOver.refl _) rfl).mem.trans hm
  · rw [State.stir_wq, State.checkFront_wq, if_neg hj, ho j hj, looks.wq]
  · rw [State.stir_wq, State.checkFront_wq, if_pos rfl, hx, ← bad]
    rfl

/-! ### Held pushes (R38) -/

theorem State.modWQ_congr {s : State} {q : Nat} {f g : WQ → WQ} (h : f (s.wq q) = g (s.wq q)) : s.modWQ q f = s.modWQ q g := by
  rw [State.modWQ, h, State.modWQ]

/-- The state in which a push that queue q has held ends with status 0, the pushes r being held still. -/
def State.pushEnded (u : State) (q : Nat) (h : Held) (r : List Held) : State := ((u.modWQ q fun w => { w with held := r }).endHeld h 0).stir

/-- The oldest held push of a queue is enqueued and ends, once the queue is out of the overflow state and below HWM. -/
theorem exec_heldPushEnqueue_ok {s u : State} {q : Nat} {h : Held} {r : List Held} (held : (s.wq q).held = h :: r) (act : (s.wq q).active = true)
    (out : (s.wq q).ovf = false) (below : (s.wq q).depth < (s.wq q).hwm) (he : s.enqueue q h.record = (u, .counted)) :
    exec (.heldPushEnqueue q) s = .next (u.pushEnded q h r) := by
  obtain ⟨-, -, -, -, hq, -⟩ := State.enqueue_effect he
  have hr : (u.modWQ q fun w => { w with held := w.held.drop 1 }) = u.modWQ q fun w => { w with held := r } :=
    State.modWQ_congr (by rw [show (u.wq q).held.drop 1 = r by rw [hq, WQ.joined_held, held]; rfl])
  change execHeldPushEnqueue q s = _
  unfold execHeldPushEnqueue
  simp only [held, act, out, decide_eq_false (not_le.2 below), Bool.not_true, Bool.or_self, Bool.false_eq_true, if_false, he, hr, State.pushEnded]

theorem State.endHeld_wq (s : State) (h : Held) (n j : Nat) : (s.endHeld h n).wq j = s.wq j := by
  rw [State.wq, State.endHeld_queues, State.wq]

theorem State.endHeld_mem (s : State) (h : Held) (n : Nat) : (s.endHeld h n).mem = s.mem := by
  unfold State.endHeld
  split
  · dsimp only
    split <;> rfl
  · rfl

/-- C of a core whose work's push ends. -/
theorem State.endHeld_eng_C (s : State) {h : Held} {k : Nat} (hk : s.coreOfWork h.work = some k) (n : Nat) :
    ∃ c : Ctx, ((s.endHeld h n).core k).ctx.eng .C = (c.endPush h.gd n s.now).eng .C := by
  unfold State.endHeld
  rw [hk]
  dsimp only
  rw [State.core_modCore_same]
  dsimp only
  split
  · exact ⟨_, rfl⟩
  · exact ⟨_, rfl⟩

/-- Work that was descheduled at its push is offered again. -/
theorem State.endHeld_off {s : State} {h : Held} (hk : s.coreOfWork h.work = none) (n : Nat) : ∃ m, s.endHeld h n = { s with
    creation := m, off := s.off.map fun g => if g.work.id = h.work ∧ g.st = .push then { g with
      st := .saved, work := { g.work with created := s.creation }, ctx := g.ctx.map fun c => c.endPush h.gd n s.now } else g } := by
  unfold State.endHeld
  rw [hk]
  exact ⟨_, rfl⟩

section push
variable {s u : State} {q : Nat} {h : Held} (he : s.enqueue q h.record = (u, .counted)) (r : List Held)
include he

/-- The queues behind a held push that has been enqueued. -/
theorem State.pushEnded_wq (j : Nat) : (u.pushEnded q h r).wq j = if j = q then { (s.wq q).joined h.record with held := r } else s.wq j := by
  obtain ⟨-, -, -, -, hq, ho, -⟩ := State.enqueue_effect he
  rw [State.pushEnded, State.stir_wq, State.endHeld_wq, State.wq_modWQ, hq]
  split
  · rfl
  · exact ho j (by assumption)

/-- The work of such a push goes on at once on its core. -/
theorem State.pushEnded_core {k : Nat} (hk : s.coreOfWork h.work = some k) :
    (((u.pushEnded q h r).core k).ctx.eng .C).reg h.gd = 0 ∧ (((u.pushEnded q h r).core k).ctx.eng .C).prog = none := by
  obtain ⟨-, -, -, -, -, -, hc, -⟩ := State.enqueue_effect he
  have hk' : (u.modWQ q fun w => { w with held := r }).coreOfWork h.work = some k := by rw [← hk, State.coreOfWork, State.coreOfWork, ← hc]; rfl
  obtain ⟨c, e⟩ := State.endHeld_eng_C _ hk' 0
  have e' : ((u.pushEnded q h r).core k).ctx.eng .C = _ := e
  rw [e']
  exact ⟨c.endPush_reg_zero _ _, c.endPush_prog _ _ _⟩

/-- Descheduled, it is offered again (R39). -/
theorem State.pushEnded_off (hk : s.coreOfWork h.work = none) {g : Seg} (hg : g ∈ s.off) (hid : g.work.id = h.work) (hst : g.st = .push) {c : Ctx}
    (hc : g.ctx = some c) : (u.pushEnded q h r).cores = u.cores ∧ ∃ g' ∈ (u.pushEnded q h r).off, ∃ c', g'.st = .saved ∧ g'.work.id = h.work
      ∧ g'.work.chain = g.work.chain ∧ g'.ctx = some c' ∧ (c'.eng .C).reg h.gd = 0 ∧ (c'.eng .C).prog = none ∧ c'.eng .A = c.eng .A
      ∧ c'.spad = c.spad := by
  obtain ⟨-, -, -, -, -, -, hcores, hoff⟩ := State.enqueue_effect he
  have hk' : (u.modWQ q fun w => { w with held := r }).coreOfWork h.work = none := by
    rw [← hk, State.coreOfWork, State.coreOfWork, ← hcores]; rfl
  obtain ⟨m, e⟩ := State.endHeld_off hk' 0
  rw [State.pushEnded, e]
  refine ⟨rfl, { g with st := .saved, work := { g.work with created := u.creation }, ctx := some (c.endPush h.gd 0 u.now) },
    List.mem_map.2 ⟨g, by rw [← hoff] at hg; exact hg, ?_⟩, c.endPush h.gd 0 u.now, rfl, hid, rfl, rfl, c.endPush_reg_zero _ _, c.endPush_prog _ _ _,
    c.endPush_eng_A _ _ _, c.endPush_spad _ _ _⟩
  rw [if_pos ⟨hid, hst⟩, hc]
  rfl

omit he in
theorem State.pushEnded_mem : (u.pushEnded q h r).mem = u.mem := State.endHeld_mem _ _ _

end push

/-- Settles O41: each event of a work queue does to its queue what the rules say, and to no other. -/
theorem queueEventsComplete : Obligations.QueueEventsComplete := by
  unfold Obligations.QueueEventsComplete
  intro s q v hq
  refine ⟨fun ready en host => ⟨fun fits => ?_, fun beyond held => ?_⟩, fun ready off => ⟨fun bad => ?_, fun fits clean => ?_, fun fits dirty r u hr =>
    ⟨fun key h => ?_, fun c l h held => ?_⟩⟩, fun ready on => ⟨exec_wqEnable_on ready hq on, fun held => ?_⟩, fun dirty good => ⟨fun key u h => ?_,
    fun c l u h held => ?_⟩, exec_headWordWrite_waits, fun key u act room more slots h => ?_, fun h r u k held act out below he hk => ?_,
    fun h r u g c held act out below he hk hg hid hst hc => ?_⟩
  · exact exec_wqtailWrite_fits ready hq en host fits
  · rw [← WQ.halted_eq held]
    exact exec_wqtailWrite_beyond ready hq en host beyond
  · exact exec_wqEnable_invalid ready hq off (by rw [← Bool.not_eq_true, cfgValid_on]; exact bad)
  · exact exec_wqEnable_clean ready hq off ((cfgValid_on v).2 fits) clean
  · subst hr
    exact exec_wqEnable_owed ready hq off ((cfgValid_on v).2 fits) dirty h
  · subst hr
    rw [← WQ.halted_eq (w := { s.wq q with cfg := putBits v 38 38 1, headBad := true }) held]
    exact exec_wqEnable_fault ready hq off ((cfgValid_on v).2 fits) dirty h
  · have h := exec_wqDisable_on ready hq on (v := v)
    rw [← held] at h
    exact h
  · exact exec_headWordWrite_ok dirty good h
  · rw [← WQ.halted_eq (w := { s.wq q with headBad := true }) held]
    exact exec_headWordWrite_fault dirty good h
  · obtain ⟨t, ex, hm, ho, hx⟩ := exec_frontRefill_ok act room more slots h
    refine ⟨t, ex, hm, ho, fun ok => ?_, fun bad held => ?_⟩
    · exact hx.trans (if_neg (by rw [Bool.not_eq_true]; exact ok))
    · rw [← WQ.halted_eq held]
      exact hx.trans (if_pos bad)
  · refine ⟨_, exec_heldPushEnqueue_ok held act out below he, State.pushEnded_mem r, ?_, ?_, fun j hj => ?_, State.pushEnded_core he r hk⟩
    · rw [State.pushEnded_wq he r, if_pos rfl]
    · rw [State.pushEnded_wq he r, if_pos rfl]
      exact WQ.joined_tail _ _
    · rw [State.pushEnded_wq he r, if_neg hj]
  · obtain ⟨hcores, g', hg', c', hst', hid', hchain, hctx, hreg, hprog, hA, hspad⟩ := State.pushEnded_off he r hk hg hid hst hc
    refine ⟨_, g', c', exec_heldPushEnqueue_ok held act out below he, State.pushEnded_mem r, hcores, ?_, ?_, fun j hj => ?_, hg', hst', hid', hchain,
      hctx, hreg, hprog, hA, hspad⟩
    · rw [State.pushEnded_wq he r, if_pos rfl]
    · rw [State.pushEnded_wq he r, if_pos rfl]
      exact WQ.joined_tail _ _
    · rw [State.pushEnded_wq he r, if_neg hj]

end Sys2Proof.Machine
end

section
/-! The operations that placement and the end of work share: work semaphores, the text of an image, the start of work on a core, and the
emptying of a core (R22, R23, R40, R65, R372). -/
namespace Sys2Proof.Machine

/-! ### Work semaphores (R23) -/

/-- Each semaphore of a mask is changed once, and no other. -/
theorem Part.get_modSems (p : Part) (mask : Word) (f : Word → Word) {n : Nat} (hn : n < 64) :
    (p.modSems mask f).wsem.get 0 n = if mask.getLsbD n = true then f (p.wsem.get 0 n) else p.wsem.get 0 n := by
  have fold : ∀ m, ((List.range m).foldl (fun (w : SMap Word) n => if mask.getLsbD n then w.set 0 n (f (w.get 0 n)) else w) p.wsem).get 0 n
      = if n < m ∧ mask.getLsbD n = true then f (p.wsem.get 0 n) else p.wsem.get 0 n := by
    intro m
    induction m with
    | zero => simp
    | succ m ih =>
      rw [List.range_succ, List.foldl_append, List.foldl_cons, List.foldl_nil]
      by_cases hm : n = m
      · subst hm
        by_cases hb : mask.getLsbD n = true
        · rw [if_pos hb, SMap.get_set_same, ih, if_neg (by omega), if_pos ⟨by omega, hb⟩]
        · rw [if_neg hb, ih, if_neg (by omega), if_neg fun h => hb h.2]
      · have hlt : (n < m + 1 ∧ mask.getLsbD n = true) ↔ (n < m ∧ mask.getLsbD n = true) := and_congr_left fun _ => by omega
        simp only [hlt]
        split
        · rw [SMap.get_set_ne _ _ _ hm, ih]
        · exact ih
  exact (fold 64).trans (by simp only [hn, true_and])

/-! ### The text of an image (R65, R66) -/

/-- The tag of an image's copy in instruction memory. -/
def Image.tag (i : Image) (part asid : Nat) : ImemTag := { part, asid, desc := i.desc, gen := i.gen, len := i.len, text := i.text }

theorem State.useReplica_frame (s : State) (d key : Nat) : s.useReplica d key = { s with dies := (s.useReplica d key).dies } := by
  unfold State.useReplica
  split <;> rfl

theorem State.useReplicas_frame (d : Nat) (keys : List Nat) : ∀ s : State,
    keys.foldl (fun s key => s.useReplica d key) s = { s with dies := (keys.foldl (fun s key => s.useReplica d key) s).dies } := by
  induction keys with
  | nil => exact fun _ => rfl
  | cons key r ih =>
    intro s
    rw [List.foldl_cons, ih, State.useReplica_frame]

section text
variable (s : State) (k part asid : Nat) (i : Image) (keys : List Nat)

/-- A core whose instruction memory holds an image. -/
theorem State.loadText_eq : ∃ dies, s.loadText k part asid i keys = { s with dies := dies, cores := (s.loadText k part asid i keys).cores } := by
  unfold State.loadText
  dsimp only
  split
  · exact ⟨_, rfl⟩
  · rw [State.useReplicas_frame]
    exact ⟨_, rfl⟩

theorem State.loadText_core (j : Nat) : (s.loadText k part asid i keys).core j =
    if j = k ∧ (s.core k).tag ≠ some (i.tag part asid) then
      { s.core k with imem := s.textWords i.len keys, marks := markWords (s.textWords i.len keys) i.len i.len 0, tag := some (i.tag part asid) }
    else s.core j := by
  unfold State.loadText
  change State.core (if (s.core k).tag = some (i.tag part asid) then _ else _) j = _
  by_cases h : (s.core k).tag = some (i.tag part asid)
  · rw [if_pos h, if_neg fun c => c.2 h]
  · rw [if_neg h, State.useReplicas_frame, State.core_modCore]
    by_cases hj : j = k
    · rw [if_pos hj, if_pos ⟨hj, h⟩]
      rfl
    · rw [if_neg hj, if_neg fun c => hj c.1]
      rfl

theorem State.loadText_ctx (j : Nat) : ((s.loadText k part asid i keys).core j).ctx = (s.core j).ctx := by
  rw [State.loadText_core]
  split
  · rename_i h
    rw [h.1]
  · rfl

theorem State.loadText_tag : ((s.loadText k part asid i keys).core k).tag = some (i.tag part asid) := by
  rw [State.loadText_core]
  split
  · rfl
  · rename_i h
    exact not_not.1 fun c => h ⟨rfl, c⟩

theorem State.loadText_imem : ((s.loadText k part asid i keys).core k).imem =
    if (s.core k).tag = some (i.tag part asid) then (s.core k).imem else s.textWords i.len keys := by
  rw [State.loadText_core]
  by_cases h : (s.core k).tag = some (i.tag part asid)
  · rw [if_pos h, if_neg fun c => c.2 h]
  · rw [if_neg h, if_pos ⟨rfl, h⟩]

theorem State.joinPhases_congr {s t : State} {k : Nat} {w : Work} (hg : t.groups = s.groups) (hp : (t.part w.part).phase = (s.part w.part).phase)
    (hc : (t.part w.part).cfg = (s.part w.part).cfg) : t.joinPhases k w = s.joinPhases k w := by
  simp only [State.joinPhases, State.phaseNumbers, Part.mdid, hg, hp, hc]

/-! ### The start of work on a core (R22, R41) -/

/-- Work as it is placed under an image at a time. -/
def Work.seated (w : Work) (i : Image) (now : Nat) : Work :=
  { w with gen := i.gen, len := i.len, text := i.text, place := w.place && w.spec, joined := now + 1 }

theorem startCtx_eng (old : Ctx) (w : Work) (now : Nat) (pn : SMap Nat) (e : Eng) :
    (startCtx old w now pn).eng e = { pc := w.entry, g := w.startRegs, passed := now } := by
  cases e <;> rfl

theorem State.seat_frame (w : Work) : ∃ dies due, s.seat k w i keys = { s with dies := dies, due := due, cores := (s.seat k w i keys).cores } := by
  obtain ⟨dies, h⟩ := s.loadText_eq k w.part w.asid i keys
  unfold State.seat
  rw [h]
  exact ⟨_, _, rfl⟩

omit i keys in
theorem State.refreshOf_core (j : Nat) : (s.refreshOf k).core j = s.core j := rfl

theorem State.seat_core_ne (w : Work) {j : Nat} (hj : j ≠ k) : (s.seat k w i keys).core j = s.core j := by
  unfold State.seat
  dsimp only
  rw [State.refreshOf_core, State.core_modCore_ne _ _ hj, State.loadText_core, if_neg fun c => hj c.1]

theorem State.seat_core (w : Work) : (s.seat k w i keys).core k = { (s.loadText k w.part w.asid i keys).core k with
    work := some (w.seated i s.now), ctx := startCtx (s.core k).ctx (w.seated i s.now) s.now (s.joinPhases k (w.seated i s.now)) } := by
  obtain ⟨dies, h⟩ := s.loadText_eq k w.part w.asid i keys
  have hn : (s.loadText k w.part w.asid i keys).now = s.now := by rw [h]
  have hj : (s.loadText k w.part w.asid i keys).joinPhases k (w.seated i s.now) = s.joinPhases k (w.seated i s.now) :=
    State.joinPhases_congr (by rw [h]) (by rw [h]; rfl) (by rw [h]; rfl)
  unfold State.seat
  dsimp only
  rw [State.refreshOf_core, State.core_modCore_same, hn, State.loadText_ctx, ← hj]
  rfl

end text

/-- An image that passes the check of R16. -/
theorem State.withImage_ok {s u : State} {k part asid desc entry : Nat} {i : Image} {keys : List Nat}
    (h : s.checkImage (dieOf k) part asid desc entry = (.ok i keys, u)) (bad : State → State) (good : State → Image → List Nat → State) :
    s.withImage k part asid desc entry bad good = (good u i keys).stir := by
  unfold State.withImage
  rw [h]

/-! ### The emptying of a core (R40, R101, R372) -/

theorem State.disarm_frame (s : State) (w : Work) : s.disarm w = { s with parts := (s.disarm w).parts } := rfl

theorem State.forget_frame (s : State) (w : Work) : s.forget w = { s with parts := (s.forget w).parts, sems := (s.forget w).sems } := rfl

theorem State.endRequest_frame (s : State) (k : Nat) :
    s.endRequest k = { s with parts := (s.endRequest k).parts, cores := (s.endRequest k).cores } := by
  unfold State.endRequest
  split
  · split <;> rfl
  · rfl

/-- A partition changed, but for its work semaphores. -/
theorem State.wsem_of_put {s u : State} (h : ∃ q x, u.parts = s.parts.put q x ∧ x.wsem = (s.part q).wsem) (p : Nat) :
    (u.part p).wsem = (s.part p).wsem := by
  obtain ⟨q, x, h, hx⟩ := h
  rw [State.part, h, SMap.get_put]
  split
  · rename_i e
    rw [hx, e]
  · rfl

theorem State.disarm_wsem (s : State) (w : Work) (p : Nat) : ((s.disarm w).part p).wsem = (s.part p).wsem :=
  State.wsem_of_put (by refine ⟨_, _, rfl, ?_⟩; rfl) p

theorem State.forget_wsem (s : State) (w : Work) (p : Nat) : ((s.forget w).part p).wsem = (s.part p).wsem :=
  State.wsem_of_put (by refine ⟨_, _, rfl, ?_⟩; rfl) p

theorem State.endRequest_wsem (s : State) (k p : Nat) : ((s.endRequest k).part p).wsem = (s.part p).wsem := by
  unfold State.endRequest
  split
  · split
    · exact State.wsem_of_put (by refine ⟨_, _, rfl, ?_⟩; rfl) p
    · rfl
  · rfl

theorem State.endRequest_core (s : State) (k : Nat) : ∃ b, (s.endRequest k).core k = { s.core k with preempt := b } := by
  unfold State.endRequest
  split
  · split
    · rw [State.core_modCore_same]
      exact ⟨_, rfl⟩
    · exact ⟨_, rfl⟩
  · exact ⟨_, rfl⟩

theorem State.endRequest_core_ne (s : State) {k j : Nat} (h : j ≠ k) : (s.endRequest k).core j = s.core j := by
  unfold State.endRequest
  split
  · split
    · rw [State.core_modCore_ne _ _ h]
      rfl
    · rfl
  · rfl

theorem State.vacate_frame (s : State) (k : Nat) :
    s.vacate k = { s with parts := (s.vacate k).parts, cores := (s.vacate k).cores, stalled := (s.vacate k).stalled } := by
  unfold State.vacate
  rw [State.endRequest_frame]
  rfl

theorem State.vacate_wsem (s : State) (k p : Nat) : ((s.vacate k).part p).wsem = (s.part p).wsem := State.endRequest_wsem s k p

/-- A vacated core keeps its scratchpad, its rings, its instruction memory and its caches. -/
theorem State.vacate_core (s : State) (k j : Nat) : (s.vacate k).core j = if j = k then (s.core k).emptied else s.core j := by
  have h : ∀ j, ((s.endRequest k).dropCoreWaits k).core j = (s.endRequest k).core j := fun _ => rfl
  rw [State.vacate, State.core_modCore]
  split
  · obtain ⟨b, e⟩ := s.endRequest_core k
    rw [h, e]
    rfl
  · rename_i hj
    rw [h, State.endRequest_core_ne _ hj]

end Sys2Proof.Machine
end

section
/-! The end of a piece of work, and the start of a conductor's (R23, R101, R338, R372). -/
namespace Sys2Proof.Machine

/-! ### The end of a piece of work -/

theorem State.settleNest_frame (s : State) (n : Nat) : ∃ nests parts, s.settleNest n = { s with nests, parts } := by
  unfold State.settleNest
  split
  · exact ⟨_, _, rfl⟩
  · split
    · dsimp only
      split
      · exact ⟨_, _, rfl⟩
      · exact ⟨_, _, rfl⟩
    · exact ⟨_, _, rfl⟩

theorem State.workOver_frame (s : State) (w : Work) (b : Bool) : ∃ nests parts conds, s.workOver w b = { s with nests, parts, conds } := by
  unfold State.workOver
  cases w.kind with
  | iteration n =>
    dsimp only
    split
    · exact ⟨_, _, _, rfl⟩
    · obtain ⟨nests, parts, h⟩ := State.settleNest_frame _ n
      rw [h]
      exact ⟨_, _, _, rfl⟩
  | segment => cases b <;> exact ⟨_, _, _, rfl⟩
  | conductor c => cases b <;> exact ⟨_, _, _, rfl⟩

/-- The end of a segment signals the semaphores of its SIGM (R23). -/
theorem State.workOver_wsem {w : Work} (h : w.kind = .segment) (s : State) {n : Nat} (hn : n < 64) :
    ((s.workOver w true).part w.part).wsem.get 0 n
      = if w.sigm.getLsbD n = true then semUp ((s.part w.part).wsem.get 0 n) else (s.part w.part).wsem.get 0 n := by
  have e : s.workOver w true = s.modPart w.part fun p => p.modSems w.sigm semUp := by
    unfold State.workOver
    rw [h]
    rfl
  rw [e, State.part_modPart_same, Part.get_modSems _ _ _ hn]

/-- The device after core k has been freed by work that is over. -/
def State.freed (s : State) (k : Nat) (w : Work) : State := (((s.disarm w).forget w).vacate k).workOver w true

theorem State.freed_frame (s : State) (k : Nat) (w : Work) : ∃ nests parts conds sems stalled,
    s.freed k w = { s with nests, parts, conds, sems, stalled, cores := (s.freed k w).cores } := by
  obtain ⟨nests, parts, conds, h⟩ := (((s.disarm w).forget w).vacate k).workOver_frame w true
  unfold State.freed
  rw [h, State.vacate_frame, State.forget_frame, State.disarm_frame]
  exact ⟨_, _, _, _, _, rfl⟩

theorem State.freed_core (s : State) (k : Nat) (w : Work) (j : Nat) : (s.freed k w).core j = if j = k then (s.core k).emptied else s.core j := by
  have h : (s.freed k w).core j = (((s.disarm w).forget w).vacate k).core j := by
    obtain ⟨nests, parts, conds, e⟩ := (((s.disarm w).forget w).vacate k).workOver_frame w true
    rw [State.freed, e]
    rfl
  rw [h, State.vacate_core]
  rfl

theorem State.freed_wsem {w : Work} (h : w.kind = .segment) (s : State) (k : Nat) {n : Nat} (hn : n < 64) :
    ((s.freed k w).part w.part).wsem.get 0 n
      = if w.sigm.getLsbD n = true then semUp ((s.part w.part).wsem.get 0 n) else (s.part w.part).wsem.get 0 n := by
  rw [State.freed, State.workOver_wsem h _ hn, State.vacate_wsem, State.forget_wsem, State.disarm_wsem]

/-- Work that has nothing left to publish or to perform retires. -/
theorem exec_workRetire {s : State} {k : Nat} {w : Work} (hw : (s.core k).work = some w) (hr : (s.core k).retires = true)
    (real : w.spec = false) (hsb : w.sb = []) (hob : (s.core k).ob = []) : exec (.workRetire k) s = .next (s.freed k w).stir := by
  have hp : s.publishN k 0 = (s, 0) := rfl
  change execWorkRetire k s = _
  unfold execWorkRetire
  simp only [hw, hr, real, hsb, hob, hp, List.length_nil, List.isEmpty_nil, Bool.not_true, Bool.false_eq_true, if_false, ne_eq, not_true_eq_false,
    decide_false, Bool.or_self, State.freed]

/-! ### The start of a conductor's work (R338) -/

/-- A conductor's registers as a write that starts it leaves them. -/
def Cond.starting (x : Cond) (v : Word) : Cond :=
  { x with asid := v.extractLsb' 48 16, part := v.extractLsb' 44 4, en := true, flt := false, waits := true }

/-- A field of a word that does not hold the bit written, as a bit vector. -/
theorem extract_putBits (v : Word) {n lo len : Nat} (x : Nat) (hn : n < lo) (hl : lo < 64) :
    (putBits v n n x).extractLsb' lo len = v.extractLsb' lo len := by
  apply BitVec.eq_of_getLsbD_eq
  intro i _
  rw [BitVec.getLsbD_extractLsb', BitVec.getLsbD_extractLsb', getLsbD_putBits _ _ _ _ (by omega), if_neg (by omega)]

theorem exec_conductorStart {s : State} {c : Nat} {v : Word} (ready : s.stage = 5) (hc : c < 8) (idle : (s.conds.get {} c).run = false) :
    exec (.conductorStart c v) s
      = .next ((({ s with conds := s.conds.put c ((s.conds.get {} c).starting v) } : State).startConductor c).stir) := by
  have en : (putBits v 0 0 1).getLsbD 0 = true := by
    rw [getLsbD_putBits _ _ _ _ (by omega), if_pos rfl]
    rfl
  refine (atReady_ready ready (·.writeCondctl c (putBits v 0 0 1))).trans ?_
  unfold State.writeCondctl
  simp only [if_neg (not_le.2 hc), en, idle, Bool.not_false, Bool.and_self, if_true, extract_putBits v 1 (show 0 < 48 by omega) (by omega),
    extract_putBits v 1 (show 0 < 44 by omega) (by omega), Cond.starting]

/-- The work that a conductor's record describes. -/
def conductorWork (r : BitVec 1024) (id part asid c : Nat) : Work := { workOf r id part asid none 7 0 with kind := .conductor c }

/-- The device as conductor c's work is about to be placed: WAITM has been taken, and RUN is 1. -/
def State.started (w : State) (c : Nat) (x : Cond) (r : BitVec 1024) : State :=
  { w.takeWaitm x.part.toNat r with workNo := w.workNo + 1, conds := w.conds.put c { x with run := true, flt := false, waits := false } }

/-- A start whose record is a valid segment and whose semaphores are ready places its work. -/
theorem State.startConductor_ok {s u w : State} {c key : Nat} {r : BitVec 1024} {i : Image} {keys : List Nat} {x : Cond}
    (hx : s.conds.get {} c = x) (waits : x.waits = true)
    (free : (s.core (1024 + c)).work = none) (sound : (s.core (1024 + c)).fenced = false) (untested : (s.core (1024 + c)).test = none)
    (ht : s.translate (.loader (dieOf (1024 + c))) x.part.toNat x.asid.toNat x.record.toNat accRead = (.ok key, u))
    (hr : r = BitVec.ofNat 1024 (u.readM key 128)) (kind : recKind r = 2) (real : recSpec r = false) (valid : u.validRecord x.part.toNat r = true)
    (sems : (u.part x.part.toNat).semsReady (recWaitm r) = true)
    (hi : (u.useReplica (dieOf (1024 + c)) key).checkImage (dieOf (1024 + c)) x.part.toNat x.asid.toNat (recCode r) (recEntry r) = (.ok i keys, w)) :
    s.startConductor c = ((w.started c x r).seat (1024 + c)
      (conductorWork r w.workNo x.part.toNat x.asid.toNat c) i keys).stir := by
  have looks := (State.Looks.refl u).useReplica (dieOf (1024 + c)) key
  have valid' : (u.useReplica (dieOf (1024 + c)) key).validRecord x.part.toNat r = true := by rw [looks.validRecord, valid]
  have sems' : ((u.useReplica (dieOf (1024 + c)) key).part x.part.toNat).semsReady (recWaitm r) = true := by rw [looks.part, sems]
  subst hr
  unfold State.startConductor
  simp only [hx, waits, free, sound, untested, Option.isSome_none, Bool.not_true, Bool.or_self, Bool.false_eq_true, if_false, ht, kind, real, valid',
    sems', ne_eq, not_true_eq_false, decide_false, State.withImage_ok hi]
  rfl

/-- Settles O43: what the end of work and a conductor's start leave of the cores, of memory and of the semaphores. -/
theorem workEndAndConductorStart : Obligations.WorkEndAndConductorStart := by
  unfold Obligations.WorkEndAndConductorStart
  intro s
  refine ⟨fun k w hw hr real hsb hob => ?_, fun c v key u r i keys w ready hc idle => ?_⟩
  · obtain ⟨_, _, _, _, _, frame⟩ := s.freed_frame k w
    refine ⟨_, exec_workRetire hw hr real hsb hob, ?_, ?_, by rw [frame]; rfl, fun j hj => ?_, fun hk n hn => State.freed_wsem hk s k hn⟩
    · exact congrArg Core.work ((s.freed_core k w k).trans (if_pos rfl))
    · exact congrArg (fun c => c.ctx.spad) ((s.freed_core k w k).trans (if_pos rfl))
    · exact (s.freed_core k w j).trans (if_neg hj)
  · intro k part asid x free sound untested ht hr kind real valid sems hi
    have ex := (exec_conductorStart ready hc idle (v := v)).trans (congrArg (fun t => Host.Outcome.next (State.stir t))
      (State.startConductor_ok (x := x) (SMap.get_put_same _ _ _ _) rfl free sound untested ht hr kind real valid sems hi))
    have looks := (((State.Looks.of_translate ht rfl).useReplica (dieOf k) key)).trans (State.Looks.of_checkImage hi)
    have hcore : ∀ j, (w.started c x r).core j = s.core j := looks.core
    have hnow : (w.started c x r).now = s.now := looks.now
    have hcond : (w.started c x r).conds.get {} c = { x with run := true, flt := false, waits := false } := SMap.get_put_same _ _ _ _
    obtain ⟨dies, due, frame⟩ := (w.started c x r).seat_frame k i keys (conductorWork r w.workNo part asid c)
    have placed := (w.started c x r).seat_core k i keys (conductorWork r w.workNo part asid c)
    refine ⟨_, (conductorWork r w.workNo part asid c).seated i (w.started c x r).now, ex, ?_, rfl, rfl, ?_, ?_, ?_, fun e => ?_, fun j hj => ?_⟩
    · exact congrArg Core.work placed
    · exact (congrArg (fun t : State => (t.conds.get {} c).run) frame).trans (congrArg Cond.run hcond)
    · exact (congrArg (fun t : State => (t.conds.get {} c).flt) frame).trans (congrArg Cond.flt hcond)
    · have hmem := congrArg State.mem frame
      exact hmem
    · refine (congrArg (fun c => c.ctx.eng e) placed).trans ((startCtx_eng _ _ _ _ e).trans ?_)
      rw [hnow]
      rfl
    · exact ((w.started c x r).seat_core_ne k i keys _ hj).trans (hcore j)

end Sys2Proof.Machine
end

section
/-! The walker: the indices that it hands out are those of R43, and in a Morton walk those of R44. -/
namespace Sys2Proof.Machine

/-! ### Row-major, column-major and serpentine walks (R43) -/

theorem splitIndex_length (t : Nat → Nat) (l : List Nat) (k : Nat) : (splitIndex t l k).length = l.length := by
  induction l generalizing k with
  | nil => rfl
  | cons d r ih => rw [splitIndex, List.length_cons, ih, List.length_cons]

/-- The digit of each dimension: the number divided by the trip counts of the faster ones. -/
theorem splitIndex_getElem (t : Nat → Nat) (l : List Nat) (k m : Nat) (h : m < (splitIndex t l k).length) :
    (splitIndex t l k)[m] = (l[m]'(by rwa [splitIndex_length] at h), k / ((l.take m).map t).prod % t (l[m]'(by rwa [splitIndex_length] at h))) := by
  induction l generalizing k m with
  | nil => simp [splitIndex] at h
  | cons d r ih =>
    cases m with
    | zero => simp [splitIndex]
    | succ m => simp [splitIndex, ih, Nat.div_div_eq_div_mul]

theorem reflect_length (serp : Bool) (t : Nat → Nat) (l : List (Nat × Nat)) (par : Nat) : (reflect serp t l par).length = l.length := by
  induction l generalizing par with
  | nil => rfl
  | cons d r ih => rw [reflect, List.length_cons, ih, List.length_cons]

/-- Each index counts down when the sum of those before it is odd, in a serpentine walk. -/
theorem reflect_getElem (serp : Bool) (t : Nat → Nat) (l : List (Nat × Nat)) (par m : Nat) (h : m < l.length) :
    (reflect serp t l par)[m]'(by rwa [reflect_length]) =
      if serp && (par + ((reflect serp t l par).take m).sum) % 2 = 1 then t l[m].1 - 1 - l[m].2 else l[m].2 := by
  induction l generalizing par m with
  | nil => simp at h
  | cons e r ih =>
    obtain ⟨d, c⟩ := e
    cases m with
    | zero => simp [reflect]
    | succ m =>
      simp only [reflect, List.getElem_cons_succ, List.take_succ_cons, List.sum_cons]
      rw [ih _ m (by simpa using h), Nat.add_assoc]
      rfl

theorem prod_map_range (t : Nat → Nat) (n : Nat) : ((List.range n).map t).prod = ∏ j ∈ Finset.range n, t j := by
  induction n with
  | zero => rfl
  | succ n ih => simp [List.range_succ, Finset.prod_range_succ, ih]

/-- How many iterations pass while index d of an iteration stays: the trip counts of the faster dimensions multiplied. -/
def indexStride (walk n : Nat) (t : Nat → Nat) (d : Nat) : Nat :=
  if walk = 1 then ∏ j ∈ Finset.range d, t j else ∏ j ∈ Finset.Ico (d + 1) n, t j

theorem prod_map_drop_range (t : Nat → Nat) (n d : Nat) : (((List.range n).drop d).map t).prod = ∏ j ∈ Finset.Ico d n, t j := by
  induction n with
  | zero => simp
  | succ n ih =>
    by_cases h : d ≤ n
    · rw [List.range_succ, List.drop_append_of_le_length (by simpa using h), Finset.prod_Ico_succ_top h, ← ih]
      simp
    · rw [List.drop_eq_nil_of_le (by simp; omega), Finset.Ico_eq_empty (by omega)]
      rfl

/-- The digits of an iteration number, in the order of the dimensions. -/
def walkDigits (walk n : Nat) (t : Nat → Nat) (k : Nat) : List (Nat × Nat) :=
  if walk = 1 then splitIndex t (List.range n) k else (splitIndex t (List.range n).reverse k).reverse

theorem walkDigits_length (walk n : Nat) (t : Nat → Nat) (k : Nat) : (walkDigits walk n t k).length = n := by
  rw [walkDigits]
  split <;> simp [splitIndex_length]

theorem walkDigits_getElem (walk n : Nat) (t : Nat → Nat) (k d : Nat) (h : d < n) :
    (walkDigits walk n t k)[d]'(by rwa [walkDigits_length]) = (d, k / indexStride walk n t d % t d) := by
  unfold walkDigits indexStride
  by_cases hw : walk = 1
  · simp only [if_pos hw, splitIndex_getElem, List.getElem_range, List.take_range, Nat.min_eq_left h.le, prod_map_range]
  · simp only [if_neg hw, List.getElem_reverse, splitIndex_getElem, splitIndex_length, List.length_reverse, List.length_range, List.getElem_range,
      List.take_reverse, List.map_reverse, List.prod_reverse, prod_map_drop_range, show n - 1 - (n - 1 - d) = d by omega,
      show n - (n - 1 - d) = d + 1 by omega]

theorem walkIndex_length (walk n : Nat) (t : Nat → Nat) (k : Nat) : (walkIndex walk n t k).length = n :=
  (reflect_length _ _ (walkDigits walk n t k) 0).trans (walkDigits_length walk n t k)

theorem walkIndex_getElem (walk n : Nat) (t : Nat → Nat) (k d : Nat) (h : d < n) :
    (walkIndex walk n t k)[d]'(by rwa [walkIndex_length]) =
      if walk = 3 ∧ ((walkIndex walk n t k).take d).sum % 2 = 1 then t d - 1 - k / indexStride walk n t d % t d
      else k / indexStride walk n t d % t d := by
  have e : walkIndex walk n t k = reflect (walk = 3) t (walkDigits walk n t k) 0 := rfl
  have hd : d < (walkDigits walk n t k).length := by rwa [walkDigits_length]
  simp only [e]
  rw [reflect_getElem _ _ _ _ _ hd, walkDigits_getElem walk n t k d h]
  simp

/-- The sum of the first entries of a list of numbers. -/
theorem sum_take_getD (l : List Nat) (d : Nat) : (l.take d).sum = ∑ j ∈ Finset.range d, l.getD j 0 := by
  induction d with
  | zero => simp
  | succ d ih =>
    rw [Finset.sum_range_succ, ← ih, List.take_add_one, List.sum_append, List.getD_eq_getElem?_getD]
    cases l[d]? <;> simp

/-! ### Morton walks (R44) -/

theorem mortonBits_eq_clog (t : Nat) : mortonBits t = Nat.clog 2 t := by
  rw [mortonBits, bitLength]
  by_cases h : t - 1 = 0
  · rw [if_pos h, Nat.clog_of_right_le_one (by omega)]
  · rw [if_neg h, Nat.log2_eq_log_two]
    refine le_antisymm ?_ (Nat.clog_le_of_le_pow ?_)
    · have := (Nat.lt_clog_iff_pow_lt (b := 2) (by omega) (x := t) (y := Nat.log 2 (t - 1))).2
        (lt_of_le_of_lt (Nat.pow_log_le_self 2 h) (by omega))
      omega
    · have := Nat.lt_pow_succ_log_self (b := 2) (by omega) (t - 1)
      omega

section morton
variable (n : Nat) (t : Nat → Nat)

/-- The dimensions that have a bit on a level of a Morton code, with the level. -/
def mortonRow (n b : Nat) : List (Nat × Nat) := ((List.range n).filter fun d => b < mortonBits (t d)).map fun d => (d, b)

/-- The bits of a Morton code up to a level, the lowest first. -/
def mortonPlaces (m : Nat) : List (Nat × Nat) := ((List.range m).map (mortonRow t n)).flatten

/-- The bits of one dimension among some bits that begin at a place, with their places. -/
def bitsOfDim (d k : Nat) (l : List (Nat × Nat)) : List ((Nat × Nat) × Nat) := (l.zipIdx k).filter fun x => x.1.1 = d

/-- The place of bit b of dimension d in a Morton code. -/
def mortonPlace (d b : Nat) : Nat := (∑ c ∈ Finset.range b, (mortonRow t n c).length) + (mortonRow t d b).length

theorem mortonRow_succ (b : Nat) : mortonRow t (n + 1) b = mortonRow t n b ++ if b < mortonBits (t n) then [(n, b)] else [] := by
  unfold mortonRow
  rw [List.range_succ, List.filter_append, List.map_append]
  by_cases h : b < mortonBits (t n) <;> simp [h]

theorem bitsOfDim_append (d k : Nat) (l m : List (Nat × Nat)) :
    bitsOfDim d k (l ++ m) = bitsOfDim d k l ++ bitsOfDim d (k + l.length) m := by
  unfold bitsOfDim
  rw [List.zipIdx_append, List.filter_append]

/-- On a level a dimension has at most one bit, behind those of the dimensions before it. -/
theorem bitsOfDim_mortonRow (d k b : Nat) : bitsOfDim d k (mortonRow t n b) =
    if d < n ∧ b < mortonBits (t d) then [((d, b), k + (mortonRow t d b).length)] else [] := by
  induction n with
  | zero => simp [mortonRow, bitsOfDim]
  | succ n ih =>
    rw [mortonRow_succ, bitsOfDim_append, ih]
    rcases Nat.lt_trichotomy d n with h | rfl | h
    · rw [show bitsOfDim d (k + (mortonRow t n b).length) (if b < mortonBits (t n) then [(n, b)] else []) = [] by
        split <;> simp [bitsOfDim, h.ne']]
      simp [h, Nat.lt_succ_of_lt h]
    · by_cases hb : b < mortonBits (t d) <;> simp [bitsOfDim, hb]
    · rw [show bitsOfDim d (k + (mortonRow t n b).length) (if b < mortonBits (t n) then [(n, b)] else []) = [] by
        split <;> simp [bitsOfDim, h.ne]]
      rw [if_neg (by omega), if_neg (by omega)]
      rfl

theorem mortonPlaces_succ (m : Nat) : mortonPlaces n t (m + 1) = mortonPlaces n t m ++ mortonRow t n m := by
  simp [mortonPlaces, List.range_succ]

theorem length_mortonPlaces (m : Nat) : (mortonPlaces n t m).length = ∑ c ∈ Finset.range m, (mortonRow t n c).length := by
  induction m with
  | zero => rfl
  | succ m ih => rw [mortonPlaces_succ, List.length_append, ih, Finset.sum_range_succ]

/-- The index of a dimension, gathered from the levels below one. -/
theorem mortonPlaces_foldl (code d m : Nat) (h : d < n) :
    (bitsOfDim d 0 (mortonPlaces n t m)).foldl (fun v x => v + code / 2 ^ x.2 % 2 * 2 ^ x.1.2) 0 =
      ∑ b ∈ (Finset.range m).filter (· < mortonBits (t d)), code / 2 ^ mortonPlace n t d b % 2 * 2 ^ b := by
  induction m with
  | zero => rfl
  | succ m ih =>
    rw [mortonPlaces_succ, bitsOfDim_append, List.foldl_append, ih, bitsOfDim_mortonRow, Finset.range_add_one, Finset.filter_insert,
      length_mortonPlaces, Nat.zero_add]
    by_cases hb : m < mortonBits (t d)
    · rw [if_pos ⟨h, hb⟩, if_pos hb, Finset.sum_insert (by simp)]
      exact Nat.add_comm _ _
    · rw [if_neg fun c => hb c.2, if_neg hb]
      rfl

theorem mortonRow_length (b : Nat) : (mortonRow t n b).length = ((Finset.range n).filter fun j => b < Nat.clog 2 (t j)).card := by
  simp only [mortonRow, List.length_map, mortonBits_eq_clog]
  rfl

theorem mortonIndex_length (code : Nat) : (mortonIndex n t code).length = n := by simp [mortonIndex]

/-- The walker's indices of a Morton code are those of R44, the trip counts having 32 bits. -/
theorem mortonIndex_getElem (code d : Nat) (h : d < n) (ht : t d ≤ 2 ^ 32) :
    (mortonIndex n t code)[d]'(by rwa [mortonIndex_length]) = mortonAt n t code d := by
  have hb : mortonBits (t d) ≤ 32 := by rw [mortonBits_eq_clog]; exact Nat.clog_le_of_le_pow ht
  have levels : (Finset.range 33).filter (· < mortonBits (t d)) = Finset.range (Nat.clog 2 (t d)) := by
    ext b
    rw [Finset.mem_filter, Finset.mem_range, Finset.mem_range, mortonBits_eq_clog] at *
    omega
  calc (mortonIndex n t code)[d]'(by rwa [mortonIndex_length])
      = (bitsOfDim d 0 (mortonPlaces n t 33)).foldl (fun v x => v + code / 2 ^ x.2 % 2 * 2 ^ x.1.2) 0 := by
        simp only [mortonIndex, List.getElem_map, List.getElem_range]
        rfl
    _ = _ := by
        rw [mortonPlaces_foldl n t code d 33 h, levels]
        simp only [mortonPlace, mortonRow_length]
        rfl

/-- The walker takes a code when its indices lie in range. -/
theorem mortonIndex_all (code : Nat) (ht : ∀ d, d < n → t d ≤ 2 ^ 32) :
    ((mortonIndex n t code).zipIdx.all fun x => decide (x.1 < t x.2)) = true ↔ mortonIn n t code := by
  simp only [List.all_eq_true, decide_eq_true_eq, List.forall_mem_zipIdx, mortonIndex_length, Nat.zero_add]
  exact forall₂_congr fun d hd => by rw [mortonIndex_getElem n t code d hd (ht d hd)]

/-- The walker finds the next code whose indices lie in range. -/
theorem mortonNext_eq (code : Nat) (ht : ∀ d, d < n → t d ≤ 2 ^ 32) (hin : mortonIn n t code) (fuel first : Nat)
    (hlo : first ≤ code) (hhi : code < first + fuel) (hnone : ∀ c, first ≤ c → c < code → ¬ mortonIn n t c) :
    mortonNext n t fuel first = code := by
  induction fuel generalizing first with
  | zero => omega
  | succ f ih =>
    rw [mortonNext]
    by_cases h : first = code
    · rw [if_pos ((mortonIndex_all n t first ht).2 (h ▸ hin)), h]
    · rw [if_neg fun a => (hnone first le_rfl (by omega)) ((mortonIndex_all n t first ht).1 a)]
      exact ih (first + 1) (by omega) (by omega) fun c hc => hnone c (by omega)

end morton

/-! ### The next iteration of a record (R43, R44) -/

theorem recTrip_le (r : BitVec 1024) (d : Nat) : recTrip r d ≤ 2 ^ 32 := (BitVec.isLt _).le

theorem nextIteration_walk (r : BitVec 1024) (w : Walk) : (nextIteration r w).2.k = w.k + 1 ∧ (nextIteration r w).2.nest = w.nest := by
  unfold nextIteration
  dsimp only
  split <;> exact ⟨rfl, rfl⟩

theorem nextIteration_length (r : BitVec 1024) (w : Walk) : (nextIteration r w).1.length = recNdim r := by
  unfold nextIteration
  dsimp only
  split
  · exact mortonIndex_length _ _ _
  · exact walkIndex_length _ _ _ _

/-- The walk hands out iteration k; in a Morton walk that of the first code in range, behind which it goes on. -/
theorem nextIteration_eq (r : BitVec 1024) (w : Walk) (code : Nat)
    (h : recWalk r = 2 → w.code ≤ code ∧ code < 2 ^ (∑ d ∈ Finset.range (recNdim r), Nat.clog 2 (recTrip r d))
      ∧ mortonIn (recNdim r) (recTrip r) code ∧ ∀ c, w.code ≤ c → c < code → ¬ mortonIn (recNdim r) (recTrip r) c) :
    iterationAt r w.k code (fun d => (nextIteration r w).1.getD d 0) ∧ (recWalk r = 2 → (nextIteration r w).2.code = code + 1) := by
  by_cases hw : recWalk r = 2
  · obtain ⟨hlo, hhi, hin, hnone⟩ := h hw
    have next : mortonNext (recNdim r) (recTrip r) (2 ^ ((List.range (recNdim r)).map fun d => mortonBits (recTrip r d)).sum) w.code = code := by
      refine mortonNext_eq _ _ code (fun d _ => recTrip_le r d) hin _ _ hlo ?_ hnone
      simp only [mortonBits_eq_clog]
      exact Nat.lt_add_left _ hhi
    have e : nextIteration r w = (mortonIndex (recNdim r) (recTrip r) code, { w with k := w.k + 1, code := code + 1 }) := by
      rw [nextIteration, if_pos hw, next]
    rw [e]
    refine ⟨⟨fun _ d hd => ?_, fun c => absurd hw c⟩, fun _ => rfl⟩
    dsimp only
    rw [← mortonIndex_getElem _ _ code d hd (recTrip_le r d)]
    exact List.getD_eq_getElem _ _ _
  · have e : nextIteration r w = (walkIndex (recWalk r) (recNdim r) (recTrip r) w.k, { w with k := w.k + 1 }) := by
      rw [nextIteration, if_neg hw]
    rw [e]
    refine ⟨⟨fun c => absurd c hw, fun _ d hd => ?_⟩, fun c => absurd c hw⟩
    have hd' : d < (walkIndex (recWalk r) (recNdim r) (recTrip r) w.k).length := by rwa [walkIndex_length]
    refine (List.getD_eq_getElem _ _ hd').trans ((walkIndex_getElem _ _ _ _ _ hd).trans ?_)
    rw [sum_take_getD]
    rfl

end Sys2Proof.Machine
end

section
/-! What a grant puts on a core: the words of the text, and the general registers of Table 1-4 (R22, R65, R66). -/
namespace Sys2Proof
open Machine

/-! ### The words of a text (R65) -/

theorem bytesAt_take (m : SMap Byte) (k n a : Nat) : (bytesAt m k (n + a)).take a = bytesAt m k a := by
  induction a generalizing k with
  | zero => rfl
  | succ a ih => rw [← Nat.add_assoc, bytesAt, bytesAt, List.take_succ_cons, ih]

theorem bytesAt_drop (m : SMap Byte) (k n a : Nat) : (bytesAt m k (n + a)).drop a = bytesAt m (k + a) n := by
  induction a generalizing k with
  | zero => rfl
  | succ a ih => rw [← Nat.add_assoc, bytesAt, List.drop_succ_cons, ih, Nat.add_assoc, Nat.add_comm 1]

theorem chunks_bytesAt (m : SMap Byte) (k w n : Nat) :
    chunks w (bytesAt m k (w * n)) n = (List.range n).map fun j => bytesAt m (k + w * j) w := by
  induction n generalizing k with
  | zero => rfl
  | succ n ih =>
    rw [chunks, Nat.mul_succ, bytesAt_take, bytesAt_drop, ih, List.range_succ_eq_map]
    simp [Nat.mul_succ, Nat.add_assoc, Nat.add_comm w]

/-- An entry of rows of one length set end to end. -/
theorem getD_flatten_map {α β : Type} (f : α → List β) (n : Nat) (hf : ∀ a, (f a).length = n) (l : List α) (a : α) (b : β) (j : Nat)
    (h : j < n * l.length) : (l.map f).flatten.getD j b = (f (l.getD (j / n) a)).getD (j % n) b := by
  induction l generalizing j with
  | nil => simp at h
  | cons x r ih =>
    have hn : 0 < n := Nat.pos_of_ne_zero fun c => by simp [c] at h
    rw [List.map_cons, List.flatten_cons]
    by_cases hj : j < n
    · rw [List.getD_append _ _ _ _ (by rwa [hf]), Nat.div_eq_of_lt hj, Nat.mod_eq_of_lt hj, List.getD_cons_zero]
    · obtain ⟨i, rfl⟩ := Nat.exists_eq_add_of_le (Nat.le_of_not_lt hj)
      rw [List.getD_append_right _ _ _ _ (by rw [hf]; omega), hf, Nat.add_sub_cancel_left, Nat.add_div_left _ hn, Nat.add_mod_left,
        List.getD_cons_succ]
      exact ih i (by rw [List.length_cons, Nat.mul_succ] at h; omega)

/-- Words set one after the other are a list of consecutive writes. -/
theorem foldl_set_eq_setList {α : Type} [DecidableEq α] (d : α) (l : List α) (m : SMap α) (k : Nat) :
    (l.foldl (fun (m : SMap α × Nat) w => (m.1.set d m.2 w, m.2 + 1)) (m, k)).1 = m.setList d k l := by
  induction l generalizing m k with
  | nil => rfl
  | cons a r ih => exact ih _ _

namespace Machine

/-- Word j of a text lies in page j / 1024. -/
theorem State.get_textWords (s : State) (len : Nat) (keys : List Nat) (j : Nat) (hj : j < len) (hl : len ≤ 1024 * keys.length) :
    (s.textWords len keys).get 0 j = BitVec.ofNat 32 (s.readM (keys.getD (j / 1024) 0 + 4 * (j % 1024)) 4) := by
  have page : ∀ k, (chunks 4 (s.bytesM k 4096) 1024).map (fun l => BitVec.ofNat 32 (ofBytes l))
      = (List.range 1024).map fun i => BitVec.ofNat 32 (s.readM (k + 4 * i) 4) := fun k => by
    rw [State.bytesM, chunks_bytesAt s.mem k 4 1024, List.map_map]
    rfl
  have len' : ((keys.map fun k => (List.range 1024).map fun i => BitVec.ofNat 32 (s.readM (k + 4 * i) 4)).flatten).length = 1024 * keys.length := by
    simp [Function.comp_def, Nat.mul_comm]
  unfold State.textWords
  simp only [page, foldl_set_eq_setList]
  have in' := SMap.get_setList_in
    ((keys.map fun k => (List.range 1024).map fun i => BitVec.ofNat 32 (s.readM (k + 4 * i) 4)).flatten.take len) [] 0 0 j
    (by rw [List.length_take, len']; omega)
  rw [Nat.zero_add] at in'
  rw [in', List.getElem_take, ← List.getD_eq_getElem _ 0, getD_flatten_map _ 1024 (by simp) keys 0 0 j (by omega),
    List.getD_eq_getElem _ _ (by simp; omega)]
  simp

theorem State.textWords_congr {s u : State} (h : u.mem = s.mem) (len : Nat) (keys : List Nat) : u.textWords len keys = s.textWords len keys := by
  simp only [State.textWords, State.bytesM, h]

/-- The pages of a text: one location each, or what kept the loader from one of them. -/
theorem State.textKeys_spec (d part asid n : Nat) : ∀ (va rest : Nat) {s u : State} {x : Except ImageRes (List Nat)},
    State.textKeys d part asid n va rest s = (x, u) →
      (∀ keys, x = .ok keys → keys.length = n) ∧ (∀ i keys, x ≠ .error (.ok i keys)) := by
  induction n with
  | zero =>
    intro va rest s u x h
    cases h
    exact ⟨fun keys h => by cases h; rfl, nofun⟩
  | succ n ih =>
    intro va rest s u x h
    unfold State.textKeys at h
    split at h
    · split at h
      · rename_i hr
        cases h
        exact ⟨fun keys h => by cases h; exact congrArg (· + 1) ((ih _ _ hr).1 _ rfl), nofun⟩
      · rename_i hr
        cases h
        exact ⟨nofun, fun i k e => (ih _ _ hr).2 i k e⟩
    · cases h
      exact ⟨nofun, nofun⟩
    · cases h
      exact ⟨nofun, nofun⟩

/-- The pages of a checked image hold its text. -/
theorem State.checkImage_len {s u : State} {d part asid desc entry : Nat} {i : Image} {keys : List Nat}
    (h : s.checkImage d part asid desc entry = (.ok i keys, u)) : i.len ≤ 1024 * keys.length := by
  unfold State.checkImage at h
  split at h
  · cases h
  · cases h
  · dsimp only at h
    split at h
    · split at h
      · rename_i hk
        cases h
        rw [(State.textKeys_spec _ _ _ _ _ _ hk).1 _ rfl]
        dsimp only
        omega
      · rename_i hk
        cases h
        exact absurd rfl ((State.textKeys_spec _ _ _ _ _ _ hk).2 _ _)
    · cases h

/-! ### The general registers at the start (Table 1-4) -/

theorem Work.startRegs_iter (w : Work) : w.startRegs.get 0 30 = BitVec.ofNat 64 w.iter := by
  rw [Work.startRegs, SMap.get_set_ne _ _ _ (by omega), SMap.get_set_same]

/-- The indices of an iteration stand from g24 on. -/
theorem Work.startRegs_idx (w : Work) (ha : w.args.length = 8) {d : Nat} (hd : d < 6) :
    w.startRegs.get 0 (24 + d) = if d < w.idx.length then BitVec.ofNat 64 (w.idx.getD d 0) else 0 := by
  rw [Work.startRegs, SMap.get_set_ne _ _ _ (by omega), SMap.get_set_ne _ _ _ (by omega)]
  split
  · rename_i h
    rw [SMap.get_setList_in _ _ _ _ _ (by rwa [List.length_map]), List.getElem_map, List.getD_eq_getElem _ _ h]
  · rw [SMap.get_setList_out _ _ _ _ _ (by rw [List.length_map]; omega), SMap.get_setList_out _ _ _ _ _ (by omega)]
    rfl

theorem recArgs_length (r : BitVec 1024) : (recArgs r).length = 8 := by simp [recArgs, upTo]

end Machine
end Sys2Proof
end

section
/-! The grant of a queue's front record: the device as its work is about to be placed, and the core after it (R23, R41 to R43). -/
namespace Sys2Proof.Machine

/-! ### The device before the placement -/

/-- z is s but for what precedes a placement: accesses of the loader, work semaphores, and the numbers of work and of nests. -/
structure State.Prepares (s z : State) : Prop where
  frame : z = { s with
    mem := z.mem, dies := z.dies, poison := z.poison, stalled := z.stalled, freeNo := z.freeNo, fills := z.fills, parts := z.parts
    workNo := z.workNo, nestNo := z.nestNo, nests := z.nests }
  parts : ∀ p, (z.part p).phase = (s.part p).phase ∧ (z.part p).cfg = (s.part p).cfg

namespace State.Prepares
variable {s z : State}

theorem cores (h : s.Prepares z) : z.cores = s.cores := by rw [h.frame]
theorem core (h : s.Prepares z) (j : Nat) : z.core j = s.core j := by rw [State.core, h.cores, State.core]
theorem wq (h : s.Prepares z) (q : Nat) : z.wq q = s.wq q := by rw [State.wq, h.frame, State.wq]
theorem now (h : s.Prepares z) : z.now = s.now := by rw [h.frame]
theorem groups (h : s.Prepares z) : z.groups = s.groups := by rw [h.frame]

theorem coreOfWork (h : s.Prepares z) (id : Nat) : z.coreOfWork id = s.coreOfWork id := by
  rw [State.coreOfWork, h.cores, State.coreOfWork]

theorem holdsPushOf (h : s.Prepares z) (q j : Nat) : z.holdsPushOf q j ↔ s.holdsPushOf q j := by
  simp only [State.holdsPushOf, h.wq, h.coreOfWork]

theorem of_looks (h : s.Looks z) : s.Prepares z := ⟨by rw [h], fun p => by rw [h.part]; exact ⟨rfl, rfl⟩⟩

theorem numbers (h : s.Prepares z) (dies : SMap Die) (workNo nestNo : Nat) (nests : SMap NestRec) :
    s.Prepares { z with dies, workNo, nestNo, nests } := ⟨by rw [h.frame], h.parts⟩

theorem takeWaitm (h : s.Prepares z) (part : Nat) (r : BitVec 1024) : s.Prepares (z.takeWaitm part r) where
  frame := by rw [State.takeWaitm, h.frame]; rfl
  parts p := by
    rw [State.takeWaitm, State.part_modPart]
    split
    · rename_i e
      subst e
      exact h.parts _
    · exact h.parts p

end State.Prepares

/-! ### The device after a placement -/

section seat
variable (v : State) (k : Nat) (w : Work) (i : Image) (keys : List Nat)

theorem State.seat_work : ((v.seat k w i keys).core k).work = some (w.seated i v.now) := by rw [State.seat_core]

theorem State.seat_eng (e : Eng) :
    ((v.seat k w i keys).core k).ctx.eng e = { pc := w.entry, g := (w.seated i v.now).startRegs, passed := v.now } := by
  rw [State.seat_core]
  exact startCtx_eng _ _ _ _ e

theorem State.seat_spad : ((v.seat k w i keys).core k).ctx.spad = (v.core k).ctx.spad := by
  rw [State.seat_core]
  rfl

theorem State.seat_pn : ((v.seat k w i keys).core k).ctx.csr.pn = v.joinPhases k (w.seated i v.now) := by
  rw [State.seat_core]
  rfl

theorem State.seat_tag : ((v.seat k w i keys).core k).tag = some (i.tag w.part w.asid) := by
  rw [State.seat_core]
  exact v.loadText_tag k w.part w.asid i keys

theorem State.seat_imem : ((v.seat k w i keys).core k).imem =
    if (v.core k).tag = some (i.tag w.part w.asid) then (v.core k).imem else v.textWords i.len keys := by
  rw [State.seat_core]
  exact v.loadText_imem k w.part w.asid i keys

theorem State.seat_mem : (v.seat k w i keys).mem = v.mem := by
  obtain ⟨_, _, h⟩ := v.seat_frame k i keys w
  rw [h]

theorem State.seat_off : (v.seat k w i keys).off = v.off := by
  obtain ⟨_, _, h⟩ := v.seat_frame k i keys w
  rw [h]

theorem State.seat_wq (q : Nat) : (v.seat k w i keys).wq q = v.wq q := by
  obtain ⟨_, _, h⟩ := v.seat_frame k i keys w
  rw [h]
  rfl

theorem State.seat_part (p : Nat) : (v.seat k w i keys).part p = v.part p := by
  obtain ⟨_, _, h⟩ := v.seat_frame k i keys w
  rw [h]
  rfl

end seat

/-- The phase numbers that a placement joins with are those of the device before it. -/
theorem State.joinPhases_over {s z v : State} {M : Nat → Prop} (hz : s.Prepares z) (hv : State.PushesOver M z v) (k : Nat) (w : Work) :
    v.joinPhases k w = s.joinPhases k w := by
  obtain ⟨hp, hc⟩ := hz.parts w.part
  exact State.joinPhases_congr (hv.groups.trans hz.groups) (by rw [hv.part, hp]) (by rw [hv.part, hc])

/-- A core of which no held push of the queue is stays as it was. -/
theorem State.core_over {s z v : State} {q j : Nat} (hz : s.Prepares z) (hv : State.PushesOver (z.holdsPushOf q) z v)
    (h : ∀ x ∈ (s.wq q).held, s.coreOfWork x.work ≠ some j) : v.core j = s.core j := by
  rw [hv.others j fun c => ?_, hz.core]
  obtain ⟨x, hx, hk⟩ := (hz.holdsPushOf q j).1 c
  exact h x hx hk

/-! ### The grant (R41 to R43) -/

/-- The device as queue q's record r, its image checked, takes the semaphores of its first grant, and work a number. -/
def State.granting (u : State) (k q p d : Nat) (w : WQ) (r : BitVec 1024) : State :=
  let v := u.movePointers k q p d
  let v := if w.walk.isNone then v.takeWaitm w.part r else v
  { v with workNo := v.workNo + 1 }

theorem State.Prepares.granting {s u : State} (h : s.Prepares u) (k q p d : Nat) (w : WQ) (r : BitVec 1024) :
    s.Prepares (u.granting k q p d w r) := by
  have moved : s.Prepares (u.movePointers k q p d) := h.numbers _ u.workNo u.nestNo u.nests
  unfold State.granting
  dsimp only
  split
  · exact (moved.takeWaitm w.part r).numbers _ _ _ _
  · exact moved.numbers _ _ _ _

theorem State.granting_mem (u : State) (k q p d : Nat) (w : WQ) (r : BitVec 1024) : (u.granting k q p d w r).mem = u.mem := by
  unfold State.granting
  cases w.walk <;> rfl

/-- At the record's first grant each semaphore of WAITM has lost 1 (R23). -/
theorem State.granting_wsem (u : State) (k q p d : Nat) (w : WQ) (r : BitVec 1024) {n : Nat} (hn : n < 64) :
    ((u.granting k q p d w r).part w.part).wsem.get 0 n = if w.walk = none ∧ (recWaitm r).getLsbD n = true
      then (u.part w.part).wsem.get 0 n - 1 else (u.part w.part).wsem.get 0 n := by
  unfold State.granting
  cases w.walk with
  | none =>
    have h := State.part_modPart_same (u.movePointers k q p d) w.part fun p => p.modSems (recWaitm r) fun v => v - 1
    simp only [true_and]
    exact (congrArg (fun p : Part => p.wsem.get 0 n) h).trans (Part.get_modSems _ _ _ hn)
  | some _ =>
    rw [if_neg nofun]
    rfl

/-- The walk of a record at a grant: it begins with a nest of its own. -/
def WQ.walkFrom (w : WQ) (nest : Nat) : Walk := w.walk.getD { nest }

theorem WQ.walkFrom_spec (w : WQ) (nest : Nat) : (w.walkFrom nest).k = (w.walk.map (·.k)).getD 0
    ∧ (w.walkFrom nest).code = (w.walk.map (·.code)).getD 0 ∧ ∀ z, w.walk = some z → (w.walkFrom nest).nest = z.nest := by
  unfold WQ.walkFrom
  cases w.walk with
  | none => exact ⟨rfl, rfl, nofun⟩
  | some x => exact ⟨rfl, rfl, fun z h => by cases h; rfl⟩

/-- A nest that a record's first grant begins. -/
def State.nestBegun (z : State) (w : WQ) (r : BitVec 1024) (p : Nat) : State :=
  if w.walk.isNone then { z with nestNo := z.nestNo + 1, nests := z.nests.put z.nestNo { part := w.part, record := r, prio := p } } else z

/-- A nest as one more of its iterations is handed out. -/
def State.nestOf (z : State) (w : WQ) (r : BitVec 1024) (n : Nat) : NestRec := z.nests.get { part := w.part, record := r } n

/-- One more iteration of a nest is placed. -/
def State.nestCounted (z : State) (w : WQ) (r : BitVec 1024) (nest : Nat) (last : Bool) : State :=
  { z with nests := z.nests.put nest { z.nestOf w r nest with live := (z.nestOf w r nest).live + 1, all := last } }

/-- The device after the walk of queue q's record has gone on behind an iteration. -/
def State.walked (z : State) (q : Nat) (last : Bool) (wk : Walk) : State :=
  if last then z.passRecord q else z.modWQ q fun w => { w with walk := some wk }

theorem State.walked_over (z : State) (q : Nat) (last : Bool) (wk : Walk) : State.PushesOver (z.holdsPushOf q) z (z.walked q last wk) := by
  unfold State.walked
  split
  · exact z.passRecord_over q
  · exact (State.PushesOver.refl z).modWQ q _

/-- Behind the last iteration the head moves on, behind another one the walk. -/
theorem State.walked_wq (z : State) (q : Nat) (wk : Walk) :
    ((z.walked q true wk).wq q).head = (z.wq q).head + 1 ∧ ((z.walked q true wk).wq q).walk = none ∧
      (z.walked q false wk).wq q = { z.wq q with walk := some wk } :=
  ⟨z.passRecord_head q, z.passRecord_walk q, z.wq_modWQ_same q fun w => { w with walk := some wk }⟩

/-- The work of a record that queue q hands out. -/
def grantedWork (r : BitVec 1024) (id q p : Nat) (w : WQ) : Work := workOf r id w.part w.asid (some q) p 0

/-- The record at queue q's front is a segment: x carries its queue's priority, and the head moves on. -/
structure State.PlacesSegment (s : State) (q p : Nat) (v : State) (x : Work) : Prop where
  kind : x.kind = .segment
  prio : x.prio = p
  head : (v.wq q).head = (s.wq q).head + 1

/-- The record at queue q's front is a loop nest, whose walk stands at wk: x is the next iteration, and the walk goes on behind it, after
the last one the head. -/
structure State.PlacesIteration (s : State) (q : Nat) (r : BitVec 1024) (v : State) (x : Work) (wk : Walk) : Prop where
  stands : ∃ n, wk = (s.wq q).walkFrom n
  idx : x.idx = (nextIteration r wk).1
  iter : x.iter = wk.k
  last : recCount r ≤ wk.k + 1 → (v.wq q).head = (s.wq q).head + 1 ∧ (v.wq q).walk = none
  next : wk.k + 1 < recCount r → v.wq q = { s.wq q with walk := some (nextIteration r wk).2 }

section grant
variable {s u : State} {k q p d : Nat} {r : BitVec 1024} {i : Image} {keys : List Nat}
  (hr : (s.wq q).frontRec = some r)
  (hi : s.checkImage (dieOf k) (s.wq q).part (s.wq q).asid (recCode r) (recEntry r) = (.ok i keys, u))
include hr hi

theorem State.grant_segment (h : recKind r = 2) : s.grant k q p d =
    (((u.granting k q p d (s.wq q) r).passRecord q).seat k (grantedWork r u.workNo q p (s.wq q)) i keys).stir := by
  unfold State.grant State.granting
  simp only [hr, State.withImage_ok hi, if_pos h]
  cases (s.wq q).walk <;> rfl

theorem State.grant_iteration (h : recKind r ≠ 2) :
    let z := u.granting k q p d (s.wq q) r
    let wk := (s.wq q).walkFrom z.nestNo
    let b := z.nestBegun (s.wq q) r p
    let last := decide (recCount r ≤ (nextIteration r wk).2.k)
    s.grant k q p d = (((b.nestCounted (s.wq q) r wk.nest last).walked q last (nextIteration r wk).2).seat k { grantedWork r u.workNo q p (s.wq q) with
      kind := .iteration wk.nest, prio := (b.nestOf (s.wq q) r wk.nest).prio, idx := (nextIteration r wk).1, iter := wk.k, sigm := 0 } i keys).stir := by
  unfold State.grant State.granting State.nestBegun State.nestCounted State.walked WQ.walkFrom
  simp only [hr, State.withImage_ok hi, if_neg h]
  generalize nextIteration r = next, recCount r = count
  cases (s.wq q).walk <;> rfl

omit hr hi in
theorem State.Prepares.nest {s z : State} (h : s.Prepares z) (w : WQ) (r : BitVec 1024) (p nest : Nat) (last : Bool) :
    s.Prepares ((z.nestBegun w r p).nestCounted w r nest last) := by
  unfold State.nestBegun
  split
  · exact h.numbers _ z.workNo _ _
  · exact h.numbers z.dies z.workNo z.nestNo _

omit hr hi in
theorem State.nestBegun_mem (z : State) (w : WQ) (nest : Nat) (last : Bool) : ((z.nestBegun w r p).nestCounted w r nest last).mem = z.mem := by
  unfold State.nestBegun
  split <;> rfl

omit hr hi in
theorem State.nestBegun_part (z : State) (w : WQ) (nest : Nat) (last : Bool) (n : Nat) :
    ((z.nestBegun w r p).nestCounted w r nest last).part n = z.part n := by
  unfold State.nestBegun
  split <;> rfl

/-- A grant places, on the device z in the state v, a work x of record r that queue q hands out under an image. -/
structure State.Grants (s u : State) (k q p d : Nat) (r : BitVec 1024) (i : Image) (keys : List Nat) (z v : State) (x : Work) : Prop where
  placed : s.grant k q p d = (v.seat k x i keys).stir
  before : s.Prepares z
  mem : z.mem = u.mem
  after : State.PushesOver (z.holdsPushOf q) z v
  wsem : ∀ n, n < 64 → (z.part (s.wq q).part).wsem.get 0 n = if (s.wq q).walk = none ∧ (recWaitm r).getLsbD n = true
    then (s.part (s.wq q).part).wsem.get 0 n - 1 else (s.part (s.wq q).part).wsem.get 0 n
  work : x = { grantedWork r u.workNo q p (s.wq q) with kind := x.kind, prio := x.prio, idx := x.idx, iter := x.iter, sigm := x.sigm }

omit hr in
theorem State.granting_wsem_of_check {n : Nat} (hn : n < 64) :
    ((u.granting k q p d (s.wq q) r).part (s.wq q).part).wsem.get 0 n = if (s.wq q).walk = none ∧ (recWaitm r).getLsbD n = true
      then (s.part (s.wq q).part).wsem.get 0 n - 1 else (s.part (s.wq q).part).wsem.get 0 n := by
  rw [State.granting_wsem _ _ _ _ _ _ _ hn, (State.Looks.of_checkImage hi).part]

/-- A segment is placed with the queue's priority, and the record passed. -/
theorem State.grants_segment (h : recKind r = 2) : ∃ z v x, s.Grants u k q p d r i keys z v x ∧ s.PlacesSegment q p v x := by
  have hz := (State.Prepares.of_looks (State.Looks.of_checkImage hi)).granting k q p d (s.wq q) r
  refine ⟨_, _, _, ⟨State.grant_segment hr hi h, hz, ?_, State.passRecord_over _ q, fun n => State.granting_wsem_of_check hi, rfl⟩, ⟨rfl, rfl, ?_⟩⟩
  · exact State.granting_mem _ _ _ _ _ _ _
  · rw [State.passRecord_head, hz.wq]

/-- An iteration is placed where the walk has come to, and the walk goes on behind it, the last time the head. -/
theorem State.grants_iteration (h : recKind r ≠ 2) : ∃ z v x wk, s.Grants u k q p d r i keys z v x ∧ s.PlacesIteration q r v x wk := by
  have hz := (State.Prepares.of_looks (State.Looks.of_checkImage hi)).granting k q p d (s.wq q) r
  have hb := fun nest last => hz.nest (s.wq q) r p nest last
  refine ⟨_, _, _, _, ⟨State.grant_iteration hr hi h, hb _ _, ?_, State.walked_over _ q _ _, fun n hn => ?_, rfl⟩,
    ⟨⟨_, rfl⟩, rfl, rfl, fun hl => ?_, fun hl => ?_⟩⟩
  · rw [State.nestBegun_mem, State.granting_mem]
  · rw [State.nestBegun_part, State.granting_wsem_of_check hi hn]
  · rw [decide_eq_true (by rwa [(nextIteration_walk r _).1])]
    obtain ⟨head, walk, -⟩ := State.walked_wq _ q _
    exact ⟨by rw [head, (hb _ _).wq], walk⟩
  · rw [decide_eq_false (by rw [(nextIteration_walk r _).1]; omega)]
    rw [(State.walked_wq _ q _).2.2, (hb _ _).wq]

end grant
/-- A grant places a segment, or the next iteration of a loop nest. -/
theorem State.grants {s u : State} {k q p d : Nat} {r : BitVec 1024} {i : Image} {keys : List Nat} (hr : (s.wq q).frontRec = some r)
    (hi : s.checkImage (dieOf k) (s.wq q).part (s.wq q).asid (recCode r) (recEntry r) = (.ok i keys, u)) :
    ∃ z v x, s.Grants u k q p d r i keys z v x ∧ (recKind r = 2 → s.PlacesSegment q p v x) ∧
      (recKind r ≠ 2 → ∃ wk, s.PlacesIteration q r v x wk) := by
  by_cases h : recKind r = 2
  · obtain ⟨z, v, x, hg, hs⟩ := State.grants_segment (p := p) (d := d) hr hi h
    exact ⟨z, v, x, hg, fun _ => hs, fun c => absurd h c⟩
  · obtain ⟨z, v, x, wk, hg, hs⟩ := State.grants_iteration (p := p) (d := d) hr hi h
    exact ⟨z, v, x, hg, fun c => absurd c h, fun _ => ⟨wk, hs⟩⟩

end Sys2Proof.Machine
end

section
/-! PLACEMENT_GRANT of a queue's front record: what it leaves of the device (R22, R23, R41 to R43, R56, R65, R70). -/
namespace Sys2Proof.Machine

/-- A core that is no conductor's, and no invalid record at a front: the core is granted what it takes. -/
theorem exec_placementGrant {s : State} {k : Nat} (hk : k < 1024) (valid : ∀ e ∈ s.queues, s.frontBad e.2 = false) :
    exec (.placementGrant k) s = match s.takes k with
      | .queue q p d => if s.outranked q then .next s else .next (s.grant k q p d)
      | .seg g => if g.st = .fresh then .next (s.placeSeg k g) else .next s
      | _ => .next s := by
  have hc : isConductor k = false := decide_eq_false (by omega)
  have hf : s.queues.find? (fun e => s.frontBad e.2) = none := List.find?_eq_none.2 fun e he => by rw [valid e he]; exact Bool.false_ne_true
  change execPlacementGrant k s = _
  unfold execPlacementGrant
  rw [hc, hf]
  rfl

/-- The words of a checked image's text, in a device whose memory is that of the check. -/
theorem State.get_textWords_of_check {s u v : State} {d part asid desc entry : Nat} {i : Image} {keys : List Nat}
    (h : s.checkImage d part asid desc entry = (.ok i keys, u)) (hm : v.mem = u.mem) {j : Nat} (hj : j < i.len) :
    (v.textWords i.len keys).get 0 j = BitVec.ofNat 32 (u.readM (keys.getD (j / 1024) 0 + 4 * (j % 1024)) 4) := by
  rw [State.textWords_congr hm, State.get_textWords _ _ _ _ hj (State.checkImage_len h)]

namespace State.Grants
variable {s u : State} {k q p d : Nat} {r : BitVec 1024} {i : Image} {keys : List Nat} {z v : State} {x : Work}
  (h : s.Grants u k q p d r i keys z v x)
include h

theorem entry : x.entry = recEntry r := by rw [h.work]; rfl
theorem args : x.args = recArgs r := by rw [h.work]; rfl
theorem queue : x.queue = some q := by rw [h.work]; rfl
theorem part : x.part = (s.wq q).part := by rw [h.work]; rfl
theorem asid : x.asid = (s.wq q).asid := by rw [h.work]; rfl

theorem now : v.now = s.now := h.after.now.trans h.before.now
theorem seat_mem : (v.seat k x i keys).mem = u.mem := by rw [State.seat_mem, h.after.mem, h.mem]

theorem seat_wsem {n : Nat} (hn : n < 64) : ((v.seat k x i keys).part (s.wq q).part).wsem.get 0 n =
    if (s.wq q).walk = none ∧ (recWaitm r).getLsbD n = true
      then (s.part (s.wq q).part).wsem.get 0 n - 1 else (s.part (s.wq q).part).wsem.get 0 n := by
  rw [State.seat_part, h.after.part, h.wsem n hn]

/-- Each other core is kept, unless the record's passing ends the push of its work. -/
theorem kept {j : Nat} (hj : j ≠ k) (hh : ∀ y ∈ (s.wq q).held, s.coreOfWork y.work ≠ some j) : (v.seat k x i keys).core j = s.core j := by
  rw [State.seat_core_ne _ _ _ _ _ hj, State.core_over h.before h.after hh]

theorem core_tag : (v.core k).tag = (s.core k).tag := by rw [(h.after.core k).tag, h.before.core]
theorem core_imem : (v.core k).imem = (s.core k).imem := by rw [(h.after.core k).imem, h.before.core]

theorem seat_spad : ((v.seat k x i keys).core k).ctx.spad = (s.core k).ctx.spad := by
  rw [State.seat_spad, (h.after.core k).spad, h.before.core]

theorem seat_work : ((v.seat k x i keys).core k).work = some (x.seated i s.now) := by rw [State.seat_work, h.now]

/-- Every engine is at the record's entry, with the start registers of Table 1-4. -/
theorem seat_eng (e : Eng) :
    ((v.seat k x i keys).core k).ctx.eng e = { pc := recEntry r, g := (x.seated i s.now).startRegs, passed := s.now } := by
  rw [State.seat_eng, h.now, h.entry]

theorem seat_pn : ((v.seat k x i keys).core k).ctx.csr.pn = s.joinPhases k (x.seated i s.now) := by
  rw [State.seat_pn, h.now, State.joinPhases_over h.before h.after]

theorem seat_tag : ((v.seat k x i keys).core k).tag = some (i.tag (s.wq q).part (s.wq q).asid) := by
  rw [State.seat_tag, h.part, h.asid]

/-- The text is in instruction memory, copied unless the core's tag says that it is there. -/
theorem seat_imem (hi : s.checkImage (dieOf k) (s.wq q).part (s.wq q).asid (recCode r) (recEntry r) = (.ok i keys, u)) {j : Nat} (hj : j < i.len) :
    ((v.seat k x i keys).core k).imem.get 0 j = if (s.core k).tag = some (i.tag (s.wq q).part (s.wq q).asid) then (s.core k).imem.get 0 j
      else BitVec.ofNat 32 (u.readM (keys.getD (j / 1024) 0 + 4 * (j % 1024)) 4) := by
  rw [State.seat_imem, h.core_tag, h.core_imem, h.part, h.asid]
  split
  · rfl
  · exact State.get_textWords_of_check hi (by rw [h.after.mem, h.mem]) hj

/-- Iteration number and indices in the registers of an engine (Table 1-4). -/
theorem regs (e : Eng) : (((v.seat k x i keys).core k).ctx.eng e).reg 30 = BitVec.ofNat 64 x.iter ∧ ∀ d, d < 6 →
    (((v.seat k x i keys).core k).ctx.eng e).reg (BitVec.ofNat 5 (24 + d)) = if d < x.idx.length then BitVec.ofNat 64 (x.idx.getD d 0) else 0 := by
  rw [State.seat_eng]
  refine ⟨(x.seated i v.now).startRegs_iter, fun d hd => ?_⟩
  have hn : (BitVec.ofNat 5 (24 + d)).toNat = 24 + d := by rw [BitVec.toNat_ofNat]; omega
  have h0 : BitVec.ofNat 5 (24 + d) ≠ 0 := fun c => by
    have := congrArg BitVec.toNat c
    rw [hn] at this
    exact absurd this (by simp)
  rw [Engine.reg, if_neg h0, hn]
  exact (x.seated i v.now).startRegs_idx (by rw [Work.seated, h.args, recArgs_length]) hd

end State.Grants

/-- What the registers and the queue show of an iteration, the walk's code being the next one in range. -/
theorem State.PlacesIteration.shows {s v : State} {q code : Nat} {r : BitVec 1024} {x : Work} {wk : Walk} (h : s.PlacesIteration q r v x wk)
    (hc : recWalk r = 2 → wk.code ≤ code ∧ code < 2 ^ (∑ d ∈ Finset.range (recNdim r), Nat.clog 2 (recTrip r d))
      ∧ mortonIn (recNdim r) (recTrip r) code ∧ ∀ c, wk.code ≤ c → c < code → ¬ mortonIn (recNdim r) (recTrip r) c) :
    x.idx.length = recNdim r ∧ iterationAt r wk.k code (fun d => x.idx.getD d 0) ∧
    (wk.k + 1 < recCount r → (v.wq q).head = (s.wq q).head ∧ ∃ y, (v.wq q).walk = some y ∧ y.k = wk.k + 1 ∧ y.nest = wk.nest
      ∧ (recWalk r = 2 → y.code = code + 1)) := by
  obtain ⟨index, next⟩ := nextIteration_eq r wk code hc
  obtain ⟨number, nest⟩ := nextIteration_walk r wk
  rw [h.idx]
  refine ⟨nextIteration_length r wk, index, fun hl => ?_⟩
  rw [h.next hl]
  exact ⟨rfl, _, rfl, number, nest, next⟩

end Sys2Proof.Machine
end

section
/-! NEST_EMPTY_RETIRE and SPEC_RECORD_MOVE: records that leave their queue without a grant (R19, R21, R329). -/
namespace Sys2Proof.Machine

/-! ### Empty nests (R19) -/

/-- The device after queue q's front record r, an empty nest, has retired. -/
def State.nestRetired (s : State) (q part : Nat) (r : BitVec 1024) : State :=
  ((s.takeWaitm part r).passRecord q).modPart part fun p => p.modSems (recSigm r) semUp

theorem exec_nestEmptyRetire {s : State} {q : Nat} {r : BitVec 1024} (hr : (s.wq q).frontRec = some r) (valid : s.frontBad (s.wq q) = false)
    (active : (s.wq q).active = true) (empty : recEmpty r = true) (met : s.waitmMet (s.wq q) r = true) (first : s.outranked q = false) :
    exec (.nestEmptyRetire q) s = .next (s.nestRetired q (s.wq q).part r).stir := by
  change execNestEmptyRetire q s = _
  unfold execNestEmptyRetire
  simp only [hr, valid, active, empty, met, first, Bool.not_false, Bool.and_self, Bool.false_eq_true, if_false, if_true]
  rfl

/-- A retired nest takes the semaphores of WAITM and signals those of SIGM. -/
theorem State.nestRetired_wsem (s : State) (q part : Nat) (r : BitVec 1024) {n : Nat} (hn : n < 64) :
    ((s.nestRetired q part r).part part).wsem.get 0 n =
      let c := (s.part part).wsem.get 0 n
      let c := if (recWaitm r).getLsbD n then c - 1 else c
      if (recSigm r).getLsbD n then semUp c else c := by
  rw [State.nestRetired, State.part_modPart_same, Part.get_modSems _ _ _ hn, (State.passRecord_over _ q).part, State.takeWaitm,
    State.part_modPart_same, Part.get_modSems _ _ _ hn]

/-! ### Speculative records (R21, R329) -/

/-- The segment of the pool that a speculative record becomes. -/
def State.pooled (s : State) (r : BitVec 1024) (part asid : Nat) (queue : Option Nat) (prio : Nat) (chain : List ChainEntry) : Seg :=
  { work := { workOf r s.workNo part asid queue prio s.creation with chain, place := true }, since := s.now }

/-- The chain of conditions of a speculative record that enters the pool: empty when its variable is resolved. -/
def specChain (s : State) (part key : Nat) (r : BitVec 1024) (cv : Cv) : List ChainEntry :=
  let site := spawnSite (recEntry r) (BitVec.ofNat 32 (s.readM (key + 4) 4))
  if cv.val.isSome then [] else [⟨recCv r, recSide r, (s.part part).factor (recProb r) site, site, false⟩]

theorem specChain_eq_nil (s : State) (part key : Nat) (r : BitVec 1024) (cv : Cv) : specChain s part key r cv = [] ↔ cv.val.isSome = true := by
  unfold specChain
  cases cv.val.isSome <;> simp

section spec
variable {s : State} {q : Nat} {r : BitVec 1024} {cv : Cv}
  (hr : (s.wq q).frontRec = some r) (valid : s.frontBad (s.wq q) = false) (active : (s.wq q).active = true) (kind : recKind r = 2)
  (spec : recSpec r = true) (hcv : s.cvOf (s.wq q).part (recCv r) = some cv) (room : s.poolRoom = true)
include hr valid active kind spec hcv room

/-- A record whose variable is resolved the other way is dropped. -/
theorem exec_specRecordMove_dropped (other : cv.val = some (!recSide r)) : exec (.specRecordMove q) s = .next (s.passRecord q).stir := by
  change execSpecRecordMove q s = _
  unfold execSpecRecordMove
  simp only [hr, valid, active, kind, spec, hcv, room, other, Bool.not_true, Bool.false_eq_true, if_false, if_true, ne_eq, not_true_eq_false,
    decide_false, Bool.or_self]

/-- A record that may still run moves into the pool. -/
theorem exec_specRecordMove_moved {key : Nat} {v : State} (other : cv.val ≠ some (!recSide r))
    (ht : s.translate (.tundish (s.wq q).home) (s.wq q).part (s.wq q).asid (recCode r) accRead = (.ok key, v)) :
    exec (.specRecordMove q) s = .next ((((v.useReplica (s.wq q).home key).enterPool r (s.wq q).part (s.wq q).asid (some q) (s.wq q).effPrio
      (specChain v (s.wq q).part key r cv)).passRecord q).stir) := by
  change execSpecRecordMove q s = _
  unfold execSpecRecordMove
  simp only [hr, valid, active, kind, spec, hcv, room, if_neg other, ht, Bool.not_true, Bool.false_eq_true, if_false, ne_eq, not_true_eq_false,
    decide_false, Bool.or_self]
  rfl

end spec

/-- The segment is in the pool, and the record has passed. -/
theorem State.passRecord_enterPool (s : State) (q : Nat) (r : BitVec 1024) (part asid : Nat) (queue : Option Nat) (prio : Nat)
    (chain : List ChainEntry) :
    let g := s.pooled r part asid queue prio chain
    let t := (s.enterPool r part asid queue prio chain).passRecord q
    g ∈ t.off ∧ ((s.wq q).held = [] → t.off = s.off ++ [g]) ∧ (t.wq q).head = (s.wq q).head + 1 ∧ t.mem = s.mem := by
  intro g t
  have hq : (s.enterPool r part asid queue prio chain).wq q = s.wq q := rfl
  have pass := (s.enterPool r part asid queue prio chain).passRecord_over q
  refine ⟨pass.segs g ?_ nofun, fun held => ?_, ?_, pass.mem⟩
  · exact List.mem_append_right _ List.mem_cons_self
  · exact State.passRecord_off (hq ▸ held)
  · rw [← hq]
    exact State.passRecord_head _ q

end Sys2Proof.Machine
end

section
/-! POOL_TAKE, PLACEMENT_GRANT of a segment and WORK_RESUME: work that is on no core comes to one (R16, R58, R59, R68, R365). -/
namespace Sys2Proof.Machine

/-! ### What a core takes -/

theorem exec_poolTake {s : State} {k : Nat} {g : Seg} (h : s.takes k = .pool g) : exec (.poolTake k) s = .next (s.placeSeg k g) := by
  change execPoolTake k s = _
  unfold execPoolTake
  rw [h]

/-- Only a free core takes anything. -/
theorem State.isFree_of_takes {s : State} {k : Nat} (h : s.takes k ≠ .none) : s.isFree k = true := by
  by_contra hn
  refine h ?_
  unfold State.takes
  rw [Bool.not_eq_true] at hn
  simp only [hn, Bool.not_false, if_true]

/-- Saved work comes back to the core that takes it, when no work of a fenced core waits for its replay. -/
theorem exec_workResume {s : State} {k : Nat} {g : Seg} (h : s.takes k = .seg g) (saved : g.st ≠ .fresh) (sound : ∀ y ∈ s.off, y.st ≠ .fenced) :
    exec (.workResume k) s = .next (s.placeSeg k g) := by
  have free : s.isFree k = true := State.isFree_of_takes (by rw [h]; exact nofun)
  have none : s.off.find? (fun g => g.st = .fenced && !g.ctx.any (·.held) && s.mayTake g.work k && s.lowestFree g.work = some k) = none :=
    List.find?_eq_none.2 fun y hy => by simp [sound y hy]
  change execWorkResume k s = _
  unfold execWorkResume
  simp only [free, none, h, if_neg saved, Bool.not_true, Bool.false_eq_true, if_false]

/-! ### The placement -/

/-- The device with some work off every core no longer. -/
def State.withoutWork (s : State) (id : Nat) : State := { s with off := s.off.filter fun x => x.work.id ≠ id }

theorem State.withoutWork_off (s : State) (id : Nat) : ∀ y ∈ (s.withoutWork id).off, y.work.id ≠ id := fun _ hy =>
  of_decide_eq_true (List.mem_filter.1 hy).2

/-- The work of a segment as it comes back to a core, n of its stores being in its slot. -/
def Seg.backWork (g : Seg) (i : Image) (n now : Nat) : Work :=
  { g.work with
    len := i.len, text := i.text, place := g.work.place && g.work.spec, sb := if g.slot.isSome then g.work.sb.take n else g.work.sb
    arrived := none, joined := now + 1 }

/-- The saved state of a segment, as its save slot holds it. -/
def Seg.backCtx (g : Seg) (u : State) (c : Ctx) : Ctx :=
  if g.slot.isSome then c.reloaded u ((u.part g.work.part).slotAddr (g.slot.getD 0)) else c

/-- A state that goes on at a time, having joined phases. -/
def Ctx.joined (c : Ctx) (now : Nat) (pn : SMap Nat) : Ctx :=
  let up := fun (e : Engine) => { e with passed := now }
  { c with c := up c.c, a := up c.a, x := up c.x, f := up c.f, csr := { c.csr with pn } }

theorem Ctx.joined_eng (c : Ctx) (now : Nat) (pn : SMap Nat) (e : Eng) : (c.joined now pn).eng e = { c.eng e with passed := now } := by
  cases e <;> rfl

/-- The device as a segment's slot has been freed, and its text is on core k. -/
def State.unslotted (u : State) (k : Nat) (g : Seg) (i : Image) (keys : List Nat) : State :=
  ((u.withoutWork g.work.id).modPart g.work.part fun p => { p with slots := p.slots.filter fun x => g.slot ≠ some x }).loadText k
    g.work.part g.work.asid i keys

/-- The device after a segment with saved state c has come back to core k. -/
def State.resumed (u : State) (k : Nat) (g : Seg) (c : Ctx) (i : Image) (keys : List Nat) : State :=
  let n := u.readM (keyOf 1 0 ((u.part g.work.part).slotAddr (g.slot.getD 0) + 0xFC0)) 8
  let v := u.unslotted k g i keys
  let w := g.backWork i n v.now
  (v.modCore k fun x => { x with work := some w, ctx := (g.backCtx u c).joined v.now (v.joinPhases k w) }).refreshOf k

section place
variable {s u : State} {k : Nat} {g : Seg} {i : Image} {keys : List Nat}
  (hi : s.checkImage (dieOf k) g.work.part g.work.asid g.work.desc g.work.entry = (.ok i keys, u))
include hi

/-- New work starts. -/
theorem State.placeSeg_new (h : g.ctx = none) : s.placeSeg k g = ((u.withoutWork g.work.id).seat k g.work i keys).stir := by
  unfold State.placeSeg
  simp only [State.withImage_ok hi, h]
  rfl

/-- Saved work whose image has not changed is restored. -/
theorem State.placeSeg_saved {c : Ctx} (h : g.ctx = some c) (same : i.gen = g.work.gen) (sound : g.st ≠ .fenced) :
    s.placeSeg k g = (u.resumed k g c i keys).stir := by
  unfold State.placeSeg
  simp only [State.withImage_ok hi, h, same, ne_eq, not_true_eq_false, if_false, if_neg sound]
  rfl

end place

/-! ### What a placement leaves -/

/-- Core k holds work id after a placement on the device u; the other cores and memory stay, and the work is off every core no longer. -/
structure State.Lands (u : State) (k id : Nat) (t : State) (x : Work) : Prop where
  work : (t.core k).work = some x
  others : ∀ j, j ≠ k → t.core j = u.core j
  same : x.id = id
  mem : t.mem = u.mem
  off : ∀ y ∈ t.off, y.work.id ≠ id

theorem State.seat_lands (u : State) (k : Nat) (g : Seg) (i : Image) (keys : List Nat) :
    State.Lands u k g.work.id ((u.withoutWork g.work.id).seat k g.work i keys) (g.work.seated i u.now) where
  work := State.seat_work _ k g.work i keys
  others _ hj := State.seat_core_ne _ k i keys g.work hj
  same := rfl
  mem := State.seat_mem _ k g.work i keys
  off := by
    rw [State.seat_off]
    exact u.withoutWork_off g.work.id

theorem State.unslotted_frame (u : State) (k : Nat) (g : Seg) (i : Image) (keys : List Nat) : ∃ dies parts,
    u.unslotted k g i keys = { u.withoutWork g.work.id with dies, parts, cores := (u.unslotted k g i keys).cores } := by
  obtain ⟨dies, h⟩ := State.loadText_eq _ k g.work.part g.work.asid i keys
  unfold State.unslotted
  rw [h]
  exact ⟨_, _, rfl⟩

theorem State.resumed_core_ne (u : State) {k j : Nat} (g : Seg) (c : Ctx) (i : Image) (keys : List Nat) (hj : j ≠ k) :
    (u.resumed k g c i keys).core j = u.core j := by
  unfold State.resumed State.unslotted
  rw [State.refreshOf_core, State.core_modCore_ne _ _ hj, State.loadText_core, if_neg fun h => hj h.1]
  rfl

/-- The core that saved work comes back to. -/
theorem State.resumed_core (u : State) (k : Nat) (g : Seg) (c : Ctx) (i : Image) (keys : List Nat) : ∃ n pn,
    ((u.resumed k g c i keys).core k).work = some (g.backWork i n u.now) ∧
    ((u.resumed k g c i keys).core k).ctx = (g.backCtx u c).joined u.now pn := by
  have hn : (u.unslotted k g i keys).now = u.now := by
    obtain ⟨_, _, h⟩ := u.unslotted_frame k g i keys
    rw [h]
    rfl
  unfold State.resumed
  dsimp only
  rw [State.refreshOf_core, State.core_modCore_same, hn]
  exact ⟨_, _, rfl, rfl⟩

theorem State.resumed_lands (u : State) (k : Nat) (g : Seg) (c : Ctx) (i : Image) (keys : List Nat) :
    ∃ x, State.Lands u k g.work.id (u.resumed k g c i keys) x := by
  obtain ⟨n, _, work, -⟩ := u.resumed_core k g c i keys
  obtain ⟨_, _, h⟩ := u.unslotted_frame k g i keys
  have hm : (u.resumed k g c i keys).mem = (u.unslotted k g i keys).mem := rfl
  have ho : (u.resumed k g c i keys).off = (u.unslotted k g i keys).off := rfl
  refine ⟨_, work, fun j hj => u.resumed_core_ne g c i keys hj, rfl, ?_, ?_⟩
  · rw [hm, h]
    rfl
  · rw [ho, h]
    exact u.withoutWork_off g.work.id

/-- Saved work goes on where it had come to. -/
theorem State.resumed_ctx (u : State) (k : Nat) (g : Seg) (c : Ctx) (i : Image) (keys : List Nat) :
    ((u.resumed k g c i keys).core k).ctx.spad = (g.backCtx u c).spad ∧
    ∀ e, ((u.resumed k g c i keys).core k).ctx.eng e = { (g.backCtx u c).eng e with passed := u.now } := by
  obtain ⟨_, pn, -, ctx⟩ := u.resumed_core k g c i keys
  rw [ctx]
  exact ⟨rfl, Ctx.joined_eng _ _ pn⟩

end Sys2Proof.Machine
end

section
/-! Placement as a whole (R19, R21, R23, R34, R41, R58, R70, R365). -/
namespace Sys2Proof.Machine

/-- Settles O42: what a grant, an empty nest, a speculative record and returning work leave of queues, cores, memory and semaphores. -/
theorem placementEventsComplete : Obligations.PlacementEventsComplete := by
  unfold Obligations.PlacementEventsComplete
  intro s k q p d r u i keys w tag placed kept
  refine ⟨fun hk valid takes ranked hr hi => ?_, ?_, ?_, ?_⟩
  · obtain ⟨z, v, x, h, segment, iteration⟩ := State.grants (p := p) (d := d) hr hi
    have ex : exec (.placementGrant k) s = .next (v.seat k x i keys).stir := by
      rw [exec_placementGrant hk valid, takes, ← h.placed]
      exact if_neg (by rw [ranked]; exact Bool.false_ne_true)
    have hq : (v.seat k x i keys).stir.wq q = v.wq q := v.seat_wq k x i keys q
    refine ⟨_, x.seated i s.now, ex, h.seat_work, fun j hj hh => h.kept hj hh, h.seat_mem, h.queue, h.part, h.asid, h.entry, h.args, rfl, rfl,
      h.seat_eng, h.seat_spad, h.seat_pn, fun hs => ?_, fun hs => ?_, fun n hn => h.seat_wsem hn, h.seat_tag, fun j hj => h.seat_imem hi hj, ?_⟩
    · obtain ⟨kind, prio, head⟩ := segment hs
      exact ⟨kind, prio, (congrArg WQ.head hq).trans head⟩
    · obtain ⟨wk, hw⟩ := iteration hs
      obtain ⟨n, rfl⟩ := hw.stands
      exact hw.iter.trans ((s.wq q).walkFrom_spec n).1
    · intro code hs hn it first hc
      obtain ⟨wk, hw⟩ := iteration hs
      obtain ⟨n, rfl⟩ := hw.stands
      obtain ⟨number, start, nest⟩ := (s.wq q).walkFrom_spec n
      have hit : it = ((s.wq q).walkFrom n).k := number.symm
      have hfirst : first = ((s.wq q).walkFrom n).code := start.symm
      rw [hfirst] at hc
      obtain ⟨length, index, next⟩ := hw.shows hc
      rw [hit, hq, ← length, ← hw.iter]
      refine ⟨⟨_, hw.iter ▸ index, h.regs⟩, fun hl => hw.last (hw.iter ▸ hl), fun hl => ?_⟩
      obtain ⟨head, y, hy, hk, hn, hcode⟩ := next (hw.iter ▸ hl)
      exact ⟨head, y, hy, hw.iter ▸ hk, fun z hz => hn.trans (nest z hz), hcode⟩
  · intro hr valid active empty met first
    have hz := (State.Prepares.of_looks (State.Looks.refl s)).takeWaitm w.part r
    have pass := (s.takeWaitm w.part r).passRecord_over q
    refine ⟨_, exec_nestEmptyRetire hr valid active empty met first, ?_, fun j hh => ?_, ?_, fun n hn => s.nestRetired_wsem q w.part r hn⟩
    · exact pass.mem
    · have core := State.core_over hz pass hh
      exact core
    · exact (State.passRecord_head _ q).trans (congrArg (fun w => w.head + 1) (hz.wq q))
  · intro cv hr valid active kind spec hcv room
    refine ⟨fun other => ⟨_, exec_specRecordMove_dropped hr valid active kind spec hcv room other, fun held => ?_, ?_⟩,
      fun key v other ht => ?_⟩
    · exact State.passRecord_off held
    · exact s.passRecord_head q
    · have looks := (State.Looks.of_translate ht rfl).useReplica w.home key
      obtain ⟨mem, off, head, hmem⟩ := (v.useReplica w.home key).passRecord_enterPool q r w.part w.asid (some q) w.effPrio (specChain v w.part key r cv)
      rw [looks.wq] at off head
      refine ⟨_, _, exec_specRecordMove_moved hr valid active kind spec hcv room other ht, mem, fun held => ?_, rfl, rfl, rfl,
        specChain_eq_nil _ _ _ _ _, head, ?_⟩
      · exact (off held).trans (by rw [looks.off])
      · exact hmem.trans (v.useReplica_mem _ _)
  · intro g takes hi lands fresh
    have looks := State.Looks.of_checkImage hi
    have land : ∀ {t x} {f : State → Prop}, State.Lands u k g.work.id t x → f t.stir → lands (.next t.stir) f := fun {t x f} h hf =>
      ⟨_, x, rfl, ⟨h.work, fun j hj => (h.others j hj).trans (looks.core j)⟩, h.same, h.mem, h.off, hf⟩
    have new : g.ctx = none → lands (.next (s.placeSeg k g)) fresh := fun hc => by
      rw [State.placeSeg_new hi hc]
      exact land (u.seat_lands k g i keys) fun e => congrArg Engine.pc (State.seat_eng _ k g.work i keys e)
    refine ⟨fun ht hc => ?_, fun ht hk valid hst hc => ?_, fun c ht hst sound hc same => ?_⟩
    · rw [exec_poolTake ht]
      exact new hc
    · rw [exec_placementGrant hk valid, ht]
      simp only [hst, if_true]
      exact new hc
    · have saved : g.st ≠ .fresh ∧ g.st ≠ .fenced := by
        obtain h | h := hst <;> rw [h] <;> exact ⟨nofun, nofun⟩
      rw [exec_workResume ht saved.1 sound, State.placeSeg_saved hi hc same saved.2]
      obtain ⟨x, hx⟩ := u.resumed_lands k g c i keys
      obtain ⟨spad, eng⟩ := u.resumed_ctx k g c i keys
      refine land hx ⟨spad, fun e => ?_⟩
      have he : ((u.resumed k g c i keys).stir.core k).ctx.eng e = _ := eng e
      rw [he]
      exact ⟨rfl, rfl, rfl⟩

end Sys2Proof.Machine
end

section
/-! The events of the package (R61, R62, R375 to R383): what each leaves of the dies, the links and the ports. -/
namespace Sys2Proof

/-! ### Maps listed over a range -/

/-- A map that lists a value for each key of a list. -/
theorem SMap.get_map_of_mem {α : Type} (d : α) (f : Nat → α) {l : List Nat} {k : Nat} (h : k ∈ l) : SMap.get (l.map fun j => (j, f j)) d k = f k := by
  induction l with
  | nil => cases h
  | cons j r ih =>
    rw [List.map_cons, SMap.get, SMap.find_cons]
    by_cases hj : j = k
    · rw [if_pos hj, hj]
      rfl
    · rw [if_neg hj]
      exact ih ((List.mem_cons.1 h).resolve_left fun e => hj e.symm)

namespace Machine

/-! ### The clock of a die (R62) -/

theorem State.tick_die (s : State) {d dt : Nat} (hd : d < 4) (hdt : dt ≠ 0) : (s.tick dt).die d = ((s.die d).advance dt).1 := by
  rw [State.tick, if_neg hdt]
  exact SMap.get_map_of_mem {} (fun d => ((s.die d).advance dt).1) (List.mem_range.2 hd)

theorem State.tick_now (s : State) (dt : Nat) : (s.tick dt).now = s.now + dt := by
  unfold State.tick
  split
  · rename_i h
    rw [h]
    rfl
  · rfl

theorem State.tick_mem (s : State) (dt : Nat) : (s.tick dt).mem = s.mem := by
  unfold State.tick
  split <;> rfl

/-- The rest of a window passes: the next one begins. -/
theorem Die.advance_rest {x : Die} (h : x.pulse < 64) : (x.advance (64 - x.pulse)).1 = x.boundary := by
  have whole : x.pulse + (64 - x.pulse) = 64 := Nat.add_sub_of_le h.le
  rw [Die.advance, whole]
  rfl

/-! ### The package power controller (R61, R380) -/

/-- A die after a measurement of the draws `w` under the limit `cap`, its controller aiming at a count. -/
def Die.regulated (cap : Nat) (w : List Nat) (aim : Nat → Nat) (d : Nat) (x : Die) : Die :=
  ({ x with pwr :=
      if w.sum ≤ cap then min x.pwr (aim d) else if w.getD d 0 = w.foldl max 0 then min 63 (max (x.pwr + 1) (aim d)) else x.pwr } : Die).note

theorem State.regulate_eq (s : State) (draw aim : List Nat) : s.regulate draw aim = (List.range 4).foldl
    (fun s d => s.modDie d (Die.regulated s.pwrcap ((draw ++ [0, 0, 0, 0]).take 4) (fun d => aim.getD d 0 % 64) d)) s := rfl

/-- Changes of dies, each of one, under the limit of the package. -/
theorem State.foldl_modDie_frame (f : Nat → Nat → Die → Die) (l : List Nat) : ∀ s : State,
    l.foldl (fun s d => s.modDie d (f s.pwrcap d)) s = { s with dies := (l.foldl (fun s d => s.modDie d (f s.pwrcap d)) s).dies } := by
  induction l with
  | nil => exact fun _ => rfl
  | cons d r ih => exact fun s => (ih (s.modDie d (f s.pwrcap d))).trans rfl

theorem State.foldl_modDie_die (f : Nat → Nat → Die → Die) (d : Nat) (l : List Nat) : ∀ s : State, l.Nodup →
    (l.foldl (fun s d => s.modDie d (f s.pwrcap d)) s).die d = if d ∈ l then f s.pwrcap d (s.die d) else s.die d := by
  induction l with
  | nil => exact fun _ _ => rfl
  | cons j r ih =>
    intro s h
    obtain ⟨fresh, h⟩ := List.nodup_cons.1 h
    rw [List.foldl_cons, ih _ h, State.die_modDie, State.modDie_pwrcap]
    by_cases hj : d = j
    · subst hj
      simp [fresh]
    · simp [hj]

theorem State.regulate_frame (s : State) (draw aim : List Nat) : s.regulate draw aim = { s with dies := (s.regulate draw aim).dies } := by
  rw [State.regulate_eq]
  exact State.foldl_modDie_frame (fun cap => Die.regulated cap _ _) _ s

theorem State.regulate_mem (s : State) (draw aim : List Nat) : (s.regulate draw aim).mem = s.mem := by rw [State.regulate_frame]
theorem State.regulate_cores (s : State) (draw aim : List Nat) : (s.regulate draw aim).cores = s.cores := by rw [State.regulate_frame]

theorem State.regulate_die (s : State) (draw aim : List Nat) {d : Nat} (hd : d < 4) : (s.regulate draw aim).die d =
    Die.regulated s.pwrcap ((draw ++ [0, 0, 0, 0]).take 4) (fun d => aim.getD d 0 % 64) d (s.die d) := by
  rw [State.regulate_eq]
  exact (State.foldl_modDie_die (fun cap => Die.regulated cap _ _) d _ s List.nodup_range).trans (if_pos (List.mem_range.2 hd))

/-- A die draws most exactly when no other draws more. -/
theorem getD_eq_foldl_max {w : List Nat} {d : Nat} (hd : d < w.length) : w.getD d 0 = w.foldl max 0 ↔ ∀ v ∈ w, v ≤ w.getD d 0 := by
  have here : w.getD d 0 ∈ w := by
    rw [List.getD_eq_getElem _ _ hd]
    exact List.getElem_mem hd
  obtain ⟨m, hm⟩ : ∃ m, w.max? = some m := Option.ne_none_iff_exists'.1 fun h => by
    rw [List.max?_eq_none_iff.1 h] at here
    cases here
  obtain ⟨mem, greatest⟩ := List.max?_eq_some_iff.1 hm
  rw [List.foldl_max, hm, Option.getD_some, max_eq_right (Nat.zero_le m)]
  exact ⟨fun h => h ▸ greatest, fun h => le_antisymm (greatest _ here) (h m mem)⟩

theorem Die.regulated_within {cap : Nat} {w : List Nat} (h : w.sum ≤ cap) (aim : Nat → Nat) (d : Nat) (x : Die) :
    (Die.regulated cap w aim d x).pwr = min x.pwr (aim d) := if_pos h

theorem Die.regulated_most {cap : Nat} {w : List Nat} {d : Nat} (h : cap < w.sum) (hd : d < w.length) (most : ∀ v ∈ w, v ≤ w.getD d 0)
    (aim : Nat → Nat) (x : Die) : (Die.regulated cap w aim d x).pwr = min 63 (max (x.pwr + 1) (aim d)) :=
  (if_neg h.not_ge).trans (if_pos ((getD_eq_foldl_max hd).2 most))

theorem Die.regulated_less {cap : Nat} {w : List Nat} {d : Nat} (h : cap < w.sum) (hd : d < w.length) (less : ∃ v ∈ w, w.getD d 0 < v)
    (aim : Nat → Nat) (x : Die) : (Die.regulated cap w aim d x).pwr = x.pwr :=
  (if_neg h.not_ge).trans (if_neg fun e => less.elim fun v hv => absurd ((getD_eq_foldl_max hd).1 e v hv.1) hv.2.not_ge)

theorem Die.regulated_frame (cap : Nat) (w : List Nat) (aim : Nat → Nat) (d : Nat) (x : Die) : Die.regulated cap w aim d x = { x with
    pwr := (Die.regulated cap w aim d x).pwr
    throt := x.throt || decide (0 < min (max (max x.hostmin (Die.regulated cap w aim d x).pwr) x.therm) 56) } := rfl

/-! ### What each event leaves -/

/-- A SpanasLink port goes down, and notes it (R378). -/
def State.portDown (s : State) (d : Nat) : State :=
  { s with spans := s.spans.put d { s.spans.get {} d with up := false, downev := true } }

section events
variable {s : State} {d n : Nat}

theorem exec_powerMeasure (h : s.measured + 7000 ≤ s.now) (draw aim : List Nat) :
    exec (.powerMeasure draw aim) s = .next (({ s with measured := s.now } : State).regulate draw aim) :=
  congrArg Host.Outcome.next (if_pos h)

theorem exec_thermalSense (h : d < 4) (n : Nat) :
    exec (.thermalSense d n) s = .next (s.modDie d fun x => ({ x with therm := n % 64 } : Die).note) := congrArg Host.Outcome.next (if_pos h)

theorem exec_linkDown (h : d < 2) (up : (s.links.get {} d).up = true) : exec (.linkDown d) s = .next
    ({ s with links := s.links.put d { s.links.get {} d with up := false, rate := 0, width := 0, downev := true } } : State).stir :=
  congrArg Host.Outcome.next (if_pos ⟨h, up⟩)

theorem exec_linkUp (h : d < 2) (low : 5 ≤ n) (high : n ≤ 7) {w : Nat} (hw : w ∈ [4, 8, 16]) : exec (.linkUp d n w) s = .next
    ({ s with links := s.links.put d { s.links.get {} d with up := true, rate := n, width := w } } : State).stir :=
  congrArg Host.Outcome.next (if_pos ⟨h, low, high, List.contains_iff_mem.2 hw⟩)

theorem exec_spanPortDown (h : d < 16) (up : (s.spans.get {} d).up = true) : exec (.spanPortDown d) s = .next
    (if (s.portDown d).routed (s.spans.get {} d).peer then s.portDown d
      else { s.portDown d with noRoute := s.noRoute.put (s.spans.get {} d).peer s.now }).stir :=
  if_pos ⟨h, up⟩

theorem exec_spanPortUp (h : d < 16) (hn : n < 2 ^ 14) : exec (.spanPortUp d n) s = .next
    ({ s with spans := s.spans.put d { s.spans.get {} d with up := true, peer := n }, lost := s.lost.filter fun r => r ≠ n } : State).stir := by
  change execSpanPortUp d n s = _
  rw [execSpanPortUp, if_pos h, Nat.mod_eq_of_lt hn]

theorem exec_peerRouteTimeout (route : s.routed n = false) (fresh : n ∉ s.lost) (late : s.noRoute.get 0 n + 1000 * 700 ≤ s.now) :
    exec (.peerRouteTimeout n) s = .next ({ s with lost := n :: s.lost } : State).stir :=
  congrArg Host.Outcome.next (if_pos (by simp [route, fresh]; exact late))

theorem exec_flitRetry (h : d < 16) : exec (.flitRetry d) s = .next
    { s with spans := s.spans.put d { s.spans.get {} d with retry := min ((s.spans.get {} d).retry + 1) 65535 } } :=
  congrArg Host.Outcome.next (if_pos h)

theorem exec_bringupStage (low : s.stage < 5) (good : s.fwerr = false) (other : s.stage ≠ 1) (fw : Firmware) :
    exec (.bringupStage fw) s = .next ({ s with stage := s.stage + 1 } : State).stir := by
  change execBringupStage fw s = _
  rw [execBringupStage, if_neg (by simp [good]), if_neg other, if_pos low]

theorem exec_bringupStage_firmware (good : s.fwerr = false) (at1 : s.stage = 1) (fw : Firmware) : exec (.bringupStage fw) s = .next
    (if s.accepts fw then
      ({ s with stage := 2, fwVersion := Config.imageVersion fw.image, fwDigest := sha512 fw.image } : State).stir
    else { s with fwerr := true }) := by
  change execBringupStage fw s = _
  rw [execBringupStage, if_neg (by simp [good]), if_pos at1]

end events

/-- Settles O53: each event of the package changes what its rule names, and no byte of global memory. -/
theorem packageEventsComplete : Obligations.PackageEventsComplete := by
  unfold Obligations.PackageEventsComplete
  intro s d n x l y goes
  refine ⟨fun hd hp => ?_, fun draw aim hd due => ?_, fun hd => ?_, rfl, fun hd up => ?_, fun hd low high w hw => ?_, fun hd up => ?_,
    fun hd hn => ?_, fun route fresh late => ?_, fun hd => ?_, ?_, fun fw low good => ⟨fun other => ?_, fun at1 => ?_⟩⟩
  · have begun : (s.tick (64 - x.pulse)).stir.die d = x.boundary := (s.tick_die hd (Nat.sub_pos_of_lt hp).ne').trans (Die.advance_rest hp)
    refine ⟨_, rfl, s.tick_mem _, s.tick_now _, ?_, ?_⟩
    · exact congrArg Die.pulse begun
    · exact congrArg Die.force begun
  · have die := State.regulate_die { s with measured := s.now } draw aim hd
    have width : d < ((draw ++ [0, 0, 0, 0]).take 4).length := by
      rw [List.length_take, List.length_append]
      simpa using hd
    refine ⟨_, exec_powerMeasure due draw aim, State.regulate_mem _ _ _, State.regulate_cores _ _ _, ?_⟩
    rw [die]
    exact ⟨Die.regulated_frame _ _ _ _ _, fun h => Die.regulated_within h _ _ _, fun h most => Die.regulated_most h width most _ _,
      fun h less => Die.regulated_less h width less _ _⟩
  · exact ⟨_, exec_thermalSense hd n, rfl, rfl, s.die_modDie_same d _⟩
  · exact ⟨_, exec_linkDown hd up, rfl, rfl, SMap.get_put_same _ _ _ _⟩
  · exact ⟨_, exec_linkUp hd low high hw, rfl, rfl, SMap.get_put_same _ _ _ _⟩
  · refine ⟨_, exec_spanPortDown hd up, ?_⟩
    split
    · rename_i route
      exact ⟨rfl, rfl, SMap.get_put_same _ _ _ _, fun none => absurd (route.symm.trans none) (by decide)⟩
    · exact ⟨rfl, rfl, SMap.get_put_same _ _ _ _, fun _ => SMap.get_put_same _ _ _ _⟩
  · exact ⟨_, exec_spanPortUp hd hn, rfl, rfl, SMap.get_put_same _ _ _ _, fun h => by simpa using (List.mem_filter.1 h).2⟩
  · exact ⟨_, exec_peerRouteTimeout route fresh late, rfl, rfl, rfl⟩
  · exact ⟨_, exec_flitRetry hd, rfl, rfl, SMap.get_put_same _ _ _ _⟩
  · exact ⟨_, rfl, rfl, rfl, rfl, rfl, rfl, rfl, rfl, rfl⟩
  · exact ⟨_, exec_bringupStage low good other fw, rfl, rfl, rfl⟩
  · refine ⟨_, exec_bringupStage_firmware good at1 fw, ?_⟩
    cases s.accepts fw with
    | true => exact ⟨rfl, rfl, rfl, good, rfl, rfl⟩
    | false => exact ⟨rfl, rfl, at1, rfl, rfl, rfl⟩

end Machine
end Sys2Proof
end

section
/-! The steps of the memory order: the perform step, the boundary of a domain, the lifting of the slip bound (R53, R75, R310, R313). -/
namespace Sys2Proof.Machine

@[simp] theorem State.stir_core (s : State) (k : Nat) : s.stir.core k = s.core k := rfl

theorem State.core_modCtxOf (s : State) (k j : Nat) (f : Ctx → Ctx) :
    (s.modCtxOf k f).core j = if j = k then { s.core k with ctx := f (s.core k).ctx } else s.core j := State.core_modCore s k j _

/-! ### The perform step (R310) -/

/-- What reaches a location depends on the ports, the lost peers and the time alone. -/
theorem State.lostPeer_modCore (s : State) (k : Nat) (f : Core → Core) (key : Nat) : (s.modCore k f).lostPeer key = s.lostPeer key := rfl

theorem State.performOldest_eq {s : State} {k : Nat} {st : Store} {r : List Store} (hob : (s.core k).ob = st :: r)
    (path : s.noPath st.key = false) (near : s.lostPeer st.key = false) :
    s.performOldest k = (s.modCore k fun c => { c with ob := r }).writeN st.key st.size st.data.toNat := by
  simp only [State.performOldest, hob, path, near, Bool.false_and, Bool.false_eq_true, if_false, State.perform, State.lostPeer_modCore]

theorem exec_perform {s : State} {k : Nat} {st : Store} {r : List Store} (hob : (s.core k).ob = st :: r)
    (path : s.noPath st.key = false) (near : s.lostPeer st.key = false) : exec (.perform k) s =
    .next ((((s.modCore k fun c => { c with ob := r }).writeN st.key st.size st.data.toNat).freeEnded k).stir) := by
  change execPerform k s = _
  rw [execPerform, if_neg (by simp [hob]), State.performOldest_eq hob path near]

theorem State.freeEnded_mem (s : State) (k : Nat) : (s.freeEnded k).mem = s.mem := by
  unfold State.freeEnded
  split
  · rw [State.vacate_frame]
  · rfl

theorem State.freeEnded_core_ne (s : State) {k j : Nat} (h : j ≠ k) : (s.freeEnded k).core j = s.core j := by
  unfold State.freeEnded
  split
  · rw [State.vacate_core, if_neg h]
  · rfl

theorem State.freeEnded_ob (s : State) (k : Nat) : ((s.freeEnded k).core k).ob = (s.core k).ob := by
  unfold State.freeEnded
  split
  · rw [State.vacate_core, if_pos rfl]
    rfl
  · rfl

/-! ### The boundary of a domain (R53, R313) -/

/-- A core that has taken the boundary of a domain: it goes on, sees the number, and refreshes. -/
structure State.Crossed (lvl n : Nat) (s : State) (k : Nat) : Prop where
  work : ∃ w, (s.core k).work = some w ∧ w.arrived = none
  due : k ∈ s.due
  number : (s.core k).ctx.csr.pn.get 0 lvl = n

/-- What the boundary leaves of the state beside its cores and their refreshes: traps may give the program counters after it (R367). -/
structure State.BoundaryOver (s t : State) : Prop where
  mem : t.mem = s.mem
  groups : t.groups = s.groups
  part : ∀ q, t.part q = { s.part q with traps := (t.part q).traps }

theorem State.BoundaryOver.refl (s : State) : s.BoundaryOver s := ⟨rfl, rfl, fun _ => rfl⟩

theorem State.BoundaryOver.trans {s t u : State} (h : s.BoundaryOver t) (g : t.BoundaryOver u) : s.BoundaryOver u :=
  ⟨g.mem.trans h.mem, g.groups.trans h.groups, fun q => by rw [g.part q, h.part q]⟩

theorem State.BoundaryOver.phaseOf {s t : State} (h : s.BoundaryOver t) (p lvl idx : Nat) : t.phaseOf p lvl idx = s.phaseOf p lvl idx := by
  rw [State.phaseOf, h.groups, h.part p]
  rfl

section cross
variable (lvl n : Nat) (s : State)

/-- The core that takes the boundary. -/
def Core.crossed (c : Core) (lvl n : Nat) : Core :=
  { c with
    work := c.work.map fun w => { w with arrived := none, watched := false }
    ctx := (let x := c.ctx.retire .C ((c.ctx.c.prog.map (·.pushes)).getD []) 1 .seq
            { x with csr := { x.csr with pn := x.csr.pn.set 0 lvl n } }) }

theorem State.crossBoundary_eq (k : Nat) : ∃ parts, State.crossBoundary lvl n s k =
    { (s.refreshOf k).modCore k (Core.crossed · lvl n) with parts := parts } ∧
    ∀ q, SMap.get parts {} q = { s.part q with traps := (SMap.get parts {} q).traps } := by
  unfold State.crossBoundary
  dsimp only
  split
  · rename_i w _
    refine ⟨_, rfl, fun q => ?_⟩
    rw [SMap.get_put]
    split
    · rename_i h
      subst h
      rfl
    · rfl
  · exact ⟨_, rfl, fun _ => rfl⟩

theorem State.crossBoundary_over (k : Nat) : s.BoundaryOver (State.crossBoundary lvl n s k) := by
  obtain ⟨parts, h, traps⟩ := State.crossBoundary_eq lvl n s k
  rw [h]
  exact ⟨rfl, rfl, traps⟩

theorem State.crossBoundary_core (k j : Nat) : (State.crossBoundary lvl n s k).core j = if j = k then (s.core k).crossed lvl n else s.core j := by
  obtain ⟨parts, h, -⟩ := State.crossBoundary_eq lvl n s k
  rw [h]
  exact SMap.get_put _ _ _ _ _

theorem State.crossBoundary_due (k : Nat) : (State.crossBoundary lvl n s k).due = k :: s.due.filter (· ≠ k) := by
  obtain ⟨parts, h, -⟩ := State.crossBoundary_eq lvl n s k
  rw [h]
  rfl

theorem Core.crossed_number (c : Core) : (c.crossed lvl n).ctx.csr.pn.get 0 lvl = n := SMap.get_set_same _ _ _ _

variable {lvl n s}

theorem State.Crossed.of_crossBoundary {k : Nat} {w : Work} (h : (s.core k).work = some w) :
    State.Crossed lvl n (State.crossBoundary lvl n s k) k where
  work := by
    rw [State.crossBoundary_core, if_pos rfl]
    exact ⟨_, congrArg (Option.map _) h, rfl⟩
  due := by simp [State.crossBoundary_due]
  number := by rw [State.crossBoundary_core, if_pos rfl, Core.crossed_number]

theorem State.Crossed.crossBoundary {k : Nat} (h : State.Crossed lvl n s k) (j : Nat) : State.Crossed lvl n (State.crossBoundary lvl n s j) k := by
  by_cases hj : k = j
  · subst hj
    obtain ⟨w, hw, -⟩ := h.work
    exact .of_crossBoundary hw
  · have core : (State.crossBoundary lvl n s j).core k = s.core k := by rw [State.crossBoundary_core, if_neg hj]
    exact ⟨by rw [core]; exact h.work, by simp [State.crossBoundary_due, hj, h.due], by rw [core]; exact h.number⟩

variable (lvl n s)

theorem State.crossBoundary_core_ne (k j : Nat) (h : j ≠ k) : (State.crossBoundary lvl n s k).core j = s.core j := by
  rw [State.crossBoundary_core, if_neg h]

theorem State.joinBoundary_core_ne (k j : Nat) (h : j ≠ k) : (State.joinBoundary lvl n s k).core j = s.core j := State.core_modCore_ne s _ h

theorem State.joinBoundary_core (k j : Nat) : (State.joinBoundary lvl n s k).core j = if j = k then { s.core k with
    ctx := { (s.core k).ctx with csr := { (s.core k).ctx.csr with pn := (s.core k).ctx.csr.pn.set 0 lvl n } } } else s.core j :=
  State.core_modCore s k j _

end cross

/-! ### All cores of the domain -/

/-- Steps that each change one core leave the others. -/
theorem State.foldl_core_kept {f : State → Nat → State} (one : ∀ s k j, j ≠ k → (f s k).core j = s.core j) {j : Nat} (l : List Nat) :
    ∀ s : State, j ∉ l → (l.foldl f s).core j = s.core j := by
  induction l with
  | nil => exact fun _ _ => rfl
  | cons k r ih =>
    intro s h
    obtain ⟨hk, hr⟩ := not_or.1 (mt List.mem_cons.2 h)
    rw [List.foldl_cons, ih _ hr, one s k j hk]

section all
variable {lvl n : Nat}

theorem State.crossAll_over (l : List Nat) : ∀ s : State, s.BoundaryOver (l.foldl (State.crossBoundary lvl n) s) := by
  induction l with
  | nil => exact .refl
  | cons k r ih => exact fun s => (State.crossBoundary_over lvl n s k).trans (ih _)

theorem State.Crossed.crossAll {k : Nat} (l : List Nat) : ∀ {s : State}, State.Crossed lvl n s k → State.Crossed lvl n (l.foldl (State.crossBoundary lvl n) s) k := by
  induction l with
  | nil => exact id
  | cons j r ih => exact fun h => ih (h.crossBoundary j)

theorem State.crossAll_crossed {k : Nat} (l : List Nat) : ∀ {s : State}, k ∈ l → (∃ w, (s.core k).work = some w) →
    State.Crossed lvl n (l.foldl (State.crossBoundary lvl n) s) k := by
  induction l with
  | nil => exact fun h => by cases h
  | cons j r ih =>
    intro s h hw
    by_cases hj : k = j
    · subst hj
      obtain ⟨w, hw⟩ := hw
      exact .crossAll r (.of_crossBoundary hw)
    · exact ih ((List.mem_cons.1 h).resolve_left hj) (by rw [State.crossBoundary_core, if_neg hj]; exact hw)

/-- Joining changes the number that a core sees alone. -/
theorem State.joinAll_frame (l : List Nat) : ∀ s : State, l.foldl (State.joinBoundary lvl n) s = { s with
    cores := (l.foldl (State.joinBoundary lvl n) s).cores } := by
  induction l with
  | nil => exact fun _ => rfl
  | cons k r ih => exact fun s => (ih (State.joinBoundary lvl n s k)).trans rfl

theorem State.joinAll_core {j : Nat} (l : List Nat) : ∀ s : State, ∃ pn, (l.foldl (State.joinBoundary lvl n) s).core j =
    { s.core j with ctx := { (s.core j).ctx with csr := { (s.core j).ctx.csr with pn := pn } } } ∧
    ∀ m, pn.get 0 m = if m = lvl ∧ j ∈ l then n else (s.core j).ctx.csr.pn.get 0 m := by
  induction l with
  | nil => exact fun s => ⟨_, rfl, fun m => (if_neg fun h => List.not_mem_nil h.2).symm⟩
  | cons k r ih =>
    intro s
    obtain ⟨pn, core, number⟩ := ih (State.joinBoundary lvl n s k)
    rw [List.foldl_cons, core]
    rw [State.joinBoundary_core] at number ⊢
    by_cases hj : j = k
    · subst hj
      rw [if_pos rfl] at number ⊢
      refine ⟨pn, rfl, fun m => ?_⟩
      rw [number, SMap.get_set]
      by_cases hm : m = lvl <;> simp [hm]
    · rw [if_neg hj] at number ⊢
      exact ⟨pn, rfl, fun m => by rw [number]; simp [hj]⟩

end all

theorem State.nextPhase_phaseOf (s : State) (p lvl idx : Nat) : (s.nextPhase p lvl idx).phaseOf p lvl idx = s.phaseOf p lvl idx + 1 := by
  unfold State.nextPhase
  dsimp only
  split
  · rename_i h
    subst h
    exact congrArg Group.p (SMap.get_put_same _ _ _ _)
  · rename_i h
    conv_lhs => rw [State.phaseOf, if_neg h, State.part_modPart_same]
    exact SMap.get_set_same _ _ _ _

theorem State.nextPhase_frame (s : State) (p lvl idx : Nat) : (s.nextPhase p lvl idx).mem = s.mem ∧ ∀ k, (s.nextPhase p lvl idx).core k = s.core k := by
  unfold State.nextPhase
  dsimp only
  split <;> exact ⟨rfl, fun _ => rfl⟩

theorem exec_phaseBoundary {s : State} {p lvl idx : Nat} (h : s.boundaryDue p lvl idx = true) :
    exec (.phaseBoundary p lvl idx) s = .next (s.boundary p lvl idx) := congrArg Host.Outcome.next (if_pos h)

theorem State.boundaryDue_of {s : State} {p lvl idx : Nat} (en : (s.part p).en = true) (low : 1 ≤ lvl) (high : lvl ≤ 4)
    (whole : lvl < 3 ∨ idx = 0) (some : s.activeCores p lvl idx ≠ []) (off : ∀ g ∈ s.off, s.activeOff p lvl idx g = false)
    (arrived : ∀ k ∈ s.activeCores p lvl idx, (s.core k).arrivedAt lvl = true) : s.boundaryDue p lvl idx = true := by
  have on : s.off.any (s.activeOff p lvl idx) = false := List.any_eq_false.2 fun g hg => by simp [off g hg]
  have all : ((s.activeCores p lvl idx).all fun k => (s.core k).arrivedAt lvl) = true := List.all_eq_true.2 arrived
  simp only [State.boundaryDue, en, low, high, on, all, decide_true, Bool.true_and, Bool.and_true, Bool.not_false, Bool.or_eq_true,
    decide_eq_true_eq, Bool.and_eq_true, Bool.not_eq_true', List.isEmpty_eq_false_iff]
  exact ⟨whole, .inr some⟩

/-- Work that has arrived is there. -/
theorem Core.work_of_arrivedAt {c : Core} {lvl : Nat} (h : c.arrivedAt lvl = true) : ∃ w, c.work = some w := by
  cases hw : c.work with
  | some w => exact ⟨w, rfl⟩
  | none => simp [Core.arrivedAt, Core.phaseAt, hw] at h

/-- What a boundary leaves: one more phase, seen by every member, and by who joins in its cycle. -/
theorem State.boundary_spec (s : State) (p lvl idx : Nat) : ∃ u : State, (s.nextPhase p lvl idx).BoundaryOver u ∧
    u = (s.activeCores p lvl idx).foldl (State.crossBoundary lvl (s.phaseOf p lvl idx + 1).toNat) (s.nextPhase p lvl idx) ∧
    s.boundary p lvl idx = ((s.joiners p lvl idx).foldl (State.joinBoundary lvl (s.phaseOf p lvl idx + 1).toNat) u).stir := by
  refine ⟨_, State.crossAll_over _ _, rfl, ?_⟩
  rw [State.boundary, State.nextPhase_phaseOf]

/-- Settles O44: the oldest store is performed; the boundary counts a phase and its members see it; the slip bound is lifted. -/
theorem orderingEventsComplete : Obligations.OrderingEventsComplete := by
  unfold Obligations.OrderingEventsComplete
  intro s
  refine ⟨fun k st r hob path near => ?_, fun p lvl idx en low high whole some off arrived => ?_, fun k locked fresh => ?_⟩
  · refine ⟨_, exec_perform hob path near, ?_, fun j hj => ?_, fun a => ?_⟩
    · refine (State.freeEnded_ob _ k).trans ?_
      rw [State.core, State.writeN_cores]
      exact congrArg Core.ob (State.core_modCore_same s k _)
    · refine (State.freeEnded_core_ne _ hj).trans ?_
      rw [State.core, State.writeN_cores]
      exact State.core_modCore_ne s _ hj
    · rw [State.stir_mem, State.freeEnded_mem]
      exact State.get_writeWord _ st.key st.size a st.data
  · have run := exec_phaseBoundary (State.boundaryDue_of en low high whole some off arrived)
    obtain ⟨mem, cores⟩ := s.nextPhase_frame p lvl idx
    obtain ⟨u, rest, hu, boundary⟩ := s.boundary_spec p lvl idx
    have frame := State.joinAll_frame (lvl := lvl) (n := (s.phaseOf p lvl idx + 1).toNat) (s.joiners p lvl idx) u
    have kept : ∀ k, k ∉ s.activeCores p lvl idx → u.core k = s.core k := fun k hk => by
      rw [hu, State.foldl_core_kept (State.crossBoundary_core_ne _ _) _ _ hk, cores]
    refine ⟨_, run, ?_, ?_, fun k hk => ?_, fun k hk hno => ?_, fun k hno hnj => ?_⟩
    · rw [boundary, frame]
      exact (rest.phaseOf p lvl idx).trans (s.nextPhase_phaseOf p lvl idx)
    · rw [boundary, frame]
      exact rest.mem.trans mem
    · have crossed := State.crossAll_crossed (lvl := lvl) (n := (s.phaseOf p lvl idx + 1).toNat) (s := s.nextPhase p lvl idx) _ hk
        (by rw [cores]; exact Core.work_of_arrivedAt (arrived k hk))
      rw [← hu] at crossed
      obtain ⟨w, hw, none⟩ := crossed.work
      obtain ⟨pn, core, number⟩ := State.joinAll_core (j := k) (lvl := lvl) (n := (s.phaseOf p lvl idx + 1).toNat) (s.joiners p lvl idx) u
      rw [boundary, State.stir_core, core]
      refine ⟨w, hw, none, ?_, ?_⟩
      · rw [frame]
        exact crossed.due
      · exact (number lvl).trans (by rw [crossed.number, ite_self])
    · obtain ⟨pn, core, number⟩ := State.joinAll_core (j := k) (lvl := lvl) (n := (s.phaseOf p lvl idx + 1).toNat) (s.joiners p lvl idx) u
      rw [kept k hno] at core number
      rw [boundary, State.stir_core, core]
      exact ⟨rfl, fun m => by simp only [number, hk, and_true]⟩
    · rw [boundary, State.stir_core, State.foldl_core_kept (State.joinBoundary_core_ne _ _) _ _ hnj, kept k hno]
  · have lift : exec (.slipBoundLift k) s = .next (s.modCtxOf k fun c => { c with csr := { c.csr with dl := true, lifted := c.trailing } }).stir :=
      if_pos (by rw [locked, fresh]; rfl)
    refine ⟨_, lift, rfl, ?_, fun j hj => ?_⟩
    · rw [State.stir_core, State.core_modCtxOf, if_pos rfl]
    · rw [State.stir_core, State.core_modCtxOf, if_neg hj]

end Sys2Proof.Machine
end

section
/-! The refresh at the end of a cycle (R310) and the boundary that makes it due (R53). -/
namespace Sys2Proof.Machine

/-- A core waits at a boundary of its cluster, alone in the active set, with its stores performed; no refresh is due. -/
def boundaryAhead : State :=
  { cores := [(0, { work := some { id := 1, arrived := some 1 }, ctx := { c := { prog := some { stage := 2, data := [1] } } } })]
    parts := [(0, { cfg := 64 <<< 13 ||| 1 })] }

/-- The next turn, in the same cycle, is that of the core's own control engine. -/
def ownTurn : Turn := ⟨0, .engine 0 .C none⟩

/-- The boundary occurs as the turn begins, and makes the refresh due that the engine would have to come behind. -/
theorem boundaryAhead_crossDue :
    boundaryAhead.crossDue.due = [0] ∧ boundaryAhead.crossDue.delay ownTurn = 1
      ∧ (boundaryAhead.crossDue.part ((boundaryAhead.crossDue.core 0).work.getD { id := 0 }).part).traps = []
      ∧ (boundaryAhead.crossDue.core 0).work.all fun w => !boundaryAhead.crossDue.watchPaused 0 w := by decide +kernel

/-- The delay of the turn was decided before: no time passes, and the refresh is still due. -/
theorem boundaryAhead_begin : boundaryAhead.delay ownTurn = 0 ∧ (boundaryAhead.begin ownTurn).due = [0] := by decide +kernel

/-- Refutes O16, in its clause about a turn before which time passes: the clause takes the delay of the turn after the boundaries that
are due, the device takes it before them, when no refresh was due yet. A boundary
then makes a core's refresh due, and the core's own engine acts ahead of it. -/
theorem not_fencesAndPhasesComplete : ¬ Obligations.FencesAndPhasesComplete := by
  unfold Obligations.FencesAndPhasesComplete
  rintro ⟨-, -, passes, -⟩
  obtain ⟨due, delay, traps, paused⟩ := boundaryAhead_crossDue
  have made := passes boundaryAhead ownTurn 0 due (by rw [delay]; decide) (fun _ _ _ _ h => by cases h) (by rw [traps]; exact fun _ h => by cases h)
    (fun w hw => by rw [hw] at paused; simpa using paused)
  exact absurd (made.2.symm.trans boundaryAhead_begin.2) (by decide)

end Sys2Proof.Machine
end

section
/-! The save slot of work that leaves its core (R363, R364, Table 19-8), and a tile that has no place in it. -/
namespace Sys2Proof.Machine

/-! ### What a save slot is left with -/

/-- The pieces of a save slot are written in order: the last one stands as it was written. -/
theorem State.writeSlot_last (s : State) (addr : Nat) {c : Ctx} {sb : List Store} {l : List (Nat × List Byte)} {o : Nat} {b : List Byte}
    (h : c.savedPieces sb = l ++ [(o, b)]) : ∃ u : State, s.writeSlot addr c sb = u.writeM (keyOf 1 0 (addr + o)) b := by
  unfold State.writeSlot
  dsimp only
  rw [h, List.foldl_append]
  exact ⟨_, rfl⟩

theorem State.get_writeM (s : State) (key : Nat) (b : List Byte) {i : Nat} (h : i < b.length) : (s.writeM key b).mem.get 0 (key + i) = b[i] :=
  SMap.get_setList_in b s.mem 0 key i h

theorem State.vacate_mem (s : State) (k : Nat) : (s.vacate k).mem = s.mem := by rw [State.vacate_frame]

/-- Of memory, work that leaves its core changes its save slot alone. -/
theorem State.leaveInto_mem {s : State} {k : Nat} {w : Work} (h : (s.core k).work = some w) (i : Nat) (st : OffState) :
    ∃ u : State, (s.leaveInto k i st).mem = (u.writeSlot ((s.part w.part).slotAddr i) (s.core k).ctx.saved w.sb).mem := by
  unfold State.leaveInto
  simp only [h, State.vacate_mem, State.modPart_mem]
  split
  · refine ⟨s.nextCreation.2, ?_⟩
    rw [show s.nextCreation.2.part w.part = s.part w.part from rfl]
  · exact ⟨s, rfl⟩

theorem exec_deschedule {s : State} {p k i : Nat} {c : Core} (first : firstWaiter (s.slotWaiters p) = some (k, c))
    (free : (s.part p).freeSlot = some i) : exec (.deschedule p) s = .next (s.leaveInto k i (c.leaving.getD .saved)).stir := by
  change execDeschedule p s = _
  simp only [execDeschedule, first, free]

/-- The elements of a tile as a save slot holds them. -/
def Tile.bytes (z : Tile) : List Byte := (upTo 4096 fun i => toBytes (z.z.get 0 i).toNat 4).flatten

/-- The tiles come last in a save slot. -/
theorem Ctx.savedPieces_of_tile {c : Ctx} {n : Nat} {z : Tile} (only : c.ar.tiles = [(n, z)]) (live : z.live = true) (sb : List Store) :
    ∃ l, c.savedPieces sb = l ++ [(0x100000 + 0x4000 * n, z.bytes)] := by
  have piece : (c.ar.tiles.filter fun t => t.2.live) = [(n, z)] := by
    rw [only]
    exact List.filter_cons_of_pos live
  unfold Ctx.savedPieces
  rw [piece]
  exact ⟨_, rfl⟩

/-- Rows of one length set end to end. -/
theorem length_flatten_upTo {α : Type} {w : Nat} {f : Nat → List α} (h : ∀ i, (f i).length = w) (n : Nat) : (upTo n f).flatten.length = n * w := by
  rw [upTo, List.length_flatten, List.map_map, show List.length ∘ f = fun _ => w from funext h, List.map_const', List.sum_replicate,
    List.length_range, smul_eq_mul]

theorem Tile.length_bytes (z : Tile) : z.bytes.length = 4096 * 4 := length_flatten_upTo (fun _ => length_toBytes 4 _) 4096

theorem Tile.bytes_getD (z : Tile) {j : Nat} (h : j < 4096 * 4) :
    z.bytes.getD j 0 = (toBytes (z.z.get 0 (j / 4)).toNat 4).getD (j % 4) 0 := by
  have row : j / 4 < (List.range 4096).length := by
    rw [List.length_range]
    omega
  rw [Tile.bytes, upTo, getD_flatten_map (fun i => toBytes (z.z.get 0 i).toNat 4) 4 (fun _ => length_toBytes 4 _) _ 0 0 j
    (by rwa [List.length_range, mul_comm]), List.getD_eq_getElem _ _ row, List.getElem_range]

theorem byte_eq_zero_of_ofBytes {f : Nat → Byte} {n : Nat} (h : ofBytes (upTo (n + 1) f) = 0) : f 0 = 0 := by
  rw [upTo, List.range_succ_eq_map, List.map_cons, ofBytes] at h
  exact BitVec.eq_of_toNat_eq (by rw [BitVec.ofNat_eq_ofNat, BitVec.toNat_zero]; omega)

/-- A slot of work without buffered stores counts none. -/
theorem State.slotHolds.count_zero {t : State} {addr : Nat} {c : Ctx} (h : t.slotHolds addr c []) : t.mem.get 0 (keyOf 1 0 (addr + 0xFC0)) = 0 := by
  obtain ⟨count, -⟩ := h
  have zero := byte_eq_zero_of_ofBytes (count.trans (Nat.zero_mod _))
  exact zero

/-! ### A tile beyond the slot -/

/-- The number of a tile whose place lies 2^47 bytes behind the start of its slot: at the start again, the tier being as large (R144). -/
def farTile : Nat := 2 ^ 33 - 64

/-- A core whose work, without buffered stores, waits for a save slot with one live tile, of that number: 1 is its element 1008. -/
def farTileCore : Core :=
  { work := some { id := 1 }, leaving := some .saved, ctx := { ar := { tiles := [(farTile, { z := [(1008, 1)], live := true })] } } }

/-- Its device, with one save slot, at the start of the D-stacks. -/
def farTileState : State := { cores := [(0, farTileCore)], parts := [(0, { savecfg := 1 })] }

theorem farTileState_waits : farTileState.slotWaiters 0 = [(0, farTileCore)] := by decide +kernel

/-- The tile's element stands where the slot has the number of buffered stores. -/
theorem farTileState_count : (farTileState.leaveInto 0 0 .saved).mem.get 0 (keyOf 1 0 (0 + 0xFC0)) = 1 := by
  obtain ⟨u, left⟩ := State.leaveInto_mem (s := farTileState) (k := 0) (w := { id := 1 }) rfl 0 .saved
  obtain ⟨l, pieces⟩ := Ctx.savedPieces_of_tile (c := farTileCore.ctx.saved) (n := farTile) (z := { z := [(1008, 1)], live := true }) rfl rfl []
  obtain ⟨v, written⟩ := State.writeSlot_last u 0 pieces
  have start : (farTileState.part 0).slotAddr 0 = 0 := by decide +kernel
  have wraps : keyOf 1 0 (0 + 0xFC0) = keyOf 1 0 (0 + (0x100000 + 0x4000 * farTile)) + 0xFC0 := by decide +kernel
  have inside : 0xFC0 < 4096 * 4 := by decide
  rw [left]
  change SMap.get (u.writeSlot ((farTileState.part 0).slotAddr 0) farTileCore.ctx.saved []).mem 0 _ = 1
  rw [start, written, wraps, State.get_writeM v _ _ (by rwa [Tile.length_bytes]), ← List.getD_eq_getElem _ 0, Tile.bytes_getD _ inside]
  decide +kernel

/-- Refutes O51, in its clause about DESCHEDULE: that the slot holds the number of buffered stores fails when the state has a live tile whose
number is so large, beyond the 128 of the array (R280), that its place in the slot wraps around the tier onto that number. The clause asks that
the numbers of the tiles differ, not that they lie below 128. -/
theorem not_hostRequestsComplete : ¬ Obligations.HostRequestsComplete := by
  unfold Obligations.HostRequestsComplete
  intro h
  obtain ⟨-, -, saves, -⟩ := h farTileState 0 0 (by decide)
  have first : firstWaiter (farTileState.slotWaiters 0) = some (0, farTileCore) := by rw [farTileState_waits]; rfl
  obtain ⟨-, leaves⟩ := saves 0 farTileCore { id := 1 } 0 rfl rfl rfl (by decide +kernel)
  obtain ⟨t, run, -, -, -, -, holds⟩ := leaves first
  have ran := exec_deschedule first (i := 0) (by decide +kernel)
  have kind : farTileCore.leaving.getD .saved = .saved := rfl
  have mem : t.mem = (farTileState.leaveInto 0 0 .saved).mem := by
    rw [Host.Outcome.next.inj (run.symm.trans ran), State.stir_mem, kind]
  have start : (farTileState.part 0).slotAddr 0 = 0 := by decide +kernel
  have zero := (holds (by decide +kernel) (by decide +kernel)).count_zero
  rw [start, mem, farTileState_count] at zero
  exact absurd zero (by decide)

end Sys2Proof.Machine
end

section
/-! Decoding and encoding undo each other (R70, R76, R79, R82 to R84): the words that a decoder's answer has are read off field by
field, and the lemmas of RoundTrip, one for each constructor, are put together. -/
namespace Sys2Proof

/-! ### A word and its fields -/

/-- A word holds a value in the field whose lowest bit is `lo`. -/
def Holds {k n : Nat} (w : BitVec k) (lo : Nat) (x : BitVec n) : Prop := w.extractLsb' lo n = x

theorem holds_append {k a b : Nat} {w : BitVec k} {lo : Nat} {x : BitVec a} {y : BitVec b} :
    Holds w lo (x ++ y) ↔ Holds w (lo + b) x ∧ Holds w lo y := by
  unfold Holds
  rw [← BitVec.extractLsb'_append_extractLsb'_eq_extractLsb' rfl]
  constructor
  · intro h
    have hx := congrArg (BitVec.extractLsb' b a) h
    have hy := congrArg (BitVec.extractLsb' 0 b) h
    rw [BitVec.extractLsb'_append_eq_left, BitVec.extractLsb'_append_eq_left] at hx
    rw [BitVec.extractLsb'_append_eq_right, BitVec.extractLsb'_append_eq_right] at hy
    exact ⟨hx, hy⟩
  · rintro ⟨rfl, rfl⟩
    rfl

theorem holds_iff {k n : Nat} {w : BitVec k} {lo : Nat} {x : BitVec n} : Holds w lo x ↔ w.extractLsb' lo n = x := Iff.rfl

theorem holds_extract {k : Nat} (w : BitVec k) (lo n : Nat) : Holds w lo (w.extractLsb' lo n) := rfl

/-- A field of zeros that the decoder reads in two parts. -/
theorem holds_zero_of_parts {w : BitVec 32} (h : Holds w 18 (0#14)) (g : Holds w 0 (0#18)) : Holds w 0 (0#32) :=
  holds_append (x := 0#14) (y := 0#18) |>.2 ⟨h, g⟩

/-! ### What a decoder answers -/

/-- The first `n` of two words are the words of an instruction. -/
def Spell (w0 w1 : BitVec 32) (n : Nat) (i : Instr) : Prop :=
  match encode i with
  | [x] => n = 1 ∧ Holds w0 0 x
  | [x, y] => n = 2 ∧ Holds w0 0 x ∧ Holds w1 0 y
  | _ => False

theorem Spell.encode_eq {w0 w1 : BitVec 32} {n : Nat} {i : Instr} (h : Spell w0 w1 n i) :
    encode i = if n = 1 then [w0] else [w0, w1] := by
  unfold Spell at h
  generalize encode i = l at h ⊢
  match l, h with
  | [x], ⟨hn, hx⟩ => rw [if_pos hn, ← hx, BitVec.extractLsb'_eq_self]
  | [x, y], ⟨hn, hx, hy⟩ => rw [if_neg (by omega), ← hx, ← hy, BitVec.extractLsb'_eq_self, BitVec.extractLsb'_eq_self]

/-- The instruction that a decoder answers, if it answers one, has a property. -/
def Answers (P : Instr → Prop) (r : Except Reject Instr) : Prop := ∀ i, r = .ok i → P i

section
variable {P : Instr → Prop} {i : Instr} {z y : Prop} [Decidable z] [Decidable y] {a b : Except Reject Instr}

theorem answers_ok : Answers P (.ok i) ↔ P i := ⟨fun h => h i rfl, fun h _ g => by cases g; exact h⟩
theorem answers_error (r : Reject) : Answers P (.error r) := nofun
theorem answers_ite : Answers P (if z then a else b) ↔ (z → Answers P a) ∧ (¬z → Answers P b) := by
  by_cases h : z <;> simp [h]
theorem answers_zeros : Answers P (zeros z i) ↔ (z → P i) := by simp [zeros, answers_ite, answers_ok, answers_error]
theorem answers_reserved : Answers P (reserved z) := by simp [reserved, answers_ite, answers_error]
theorem answers_shadowZeros : Answers P (shadowZeros y z i) ↔ (y → z → P i) := by
  simp [shadowZeros, answers_ite, answers_zeros, answers_reserved]

/-- A property that does not look at the fields. -/
theorem Answers.ite (ha : Answers P a) (hb : Answers P b) : Answers P (if z then a else b) := answers_ite.2 ⟨fun _ => ha, fun _ => hb⟩

end

/-! ### The five maps of the opcodes -/

theorem decodeShared_spells {t : Eng} {mj : Nat} {w0 : BitVec 32} (w1 : BitVec 32) (ht : Holds w0 30 t.tag)
    (hm : Holds w0 19 (BitVec.ofNat 7 mj)) :
    Answers (Spell w0 w1 (wordLength t mj)) (decodeShared t (w0.extractLsb' 26 4) mj w0 w1) := by
  unfold decodeShared
  split
  all_goals
    simp only [answers_ok, answers_error, answers_ite, answers_zeros, answers_reserved, encode, Spell, ← holds_iff, holds_append]
  all_goals simp +contextual [ht, hm, wordLength, holds_extract, -BitVec.extractLsb'_eq_self]

theorem decodeC_spells {mj : Nat} {w0 : BitVec 32} (w1 : BitVec 32) (ht : Holds w0 30 0#2)
    (hm : Holds w0 19 (BitVec.ofNat 7 mj)) :
    Answers (Spell w0 w1 (wordLength .C mj)) (decodeC (w0.extractLsb' 26 4) mj w0 w1) := by
  unfold decodeC
  split
  all_goals
    simp only [answers_ok, answers_error, answers_ite, answers_zeros, answers_reserved, encode, Spell, ← holds_iff, holds_append]
  all_goals simp +contextual [ht, hm, wordLength, holds_extract, -BitVec.extractLsb'_eq_self]

theorem decodeA_spells {mj : Nat} {w0 : BitVec 32} (w1 : BitVec 32) (ht : Holds w0 30 1#2)
    (hm : Holds w0 19 (BitVec.ofNat 7 mj)) :
    Answers (Spell w0 w1 (wordLength .A mj)) (decodeA (w0.extractLsb' 26 4) mj w0 w1) := by
  unfold decodeA
  split
  all_goals
    simp only [answers_error, answers_ite, answers_zeros, answers_shadowZeros, answers_reserved, encode, Spell,
      ← holds_iff, holds_append]
  all_goals simp +contextual [ht, hm, wordLength, holds_zero_of_parts, holds_extract, -BitVec.extractLsb'_eq_self]

theorem decodeX_spells {mj : Nat} {w0 : BitVec 32} (w1 : BitVec 32) (ht : Holds w0 30 2#2)
    (hm : Holds w0 19 (BitVec.ofNat 7 mj)) :
    Answers (Spell w0 w1 (wordLength .X mj)) (decodeX (w0.extractLsb' 26 4) mj w0 w1) := by
  unfold decodeX
  split
  all_goals
    simp only [answers_error, answers_ite, answers_zeros, answers_reserved, encode, Spell, ← holds_iff, holds_append]
  all_goals simp +contextual [ht, hm, wordLength, holds_extract, -BitVec.extractLsb'_eq_self]

theorem decodeF_spells {mj : Nat} {w0 : BitVec 32} (w1 : BitVec 32) (ht : Holds w0 30 3#2)
    (hm : Holds w0 19 (BitVec.ofNat 7 mj)) :
    Answers (Spell w0 w1 (wordLength .F mj)) (decodeF (w0.extractLsb' 26 4) mj w0 w1) := by
  unfold decodeF
  split
  all_goals
    simp only [answers_error, answers_ite, answers_zeros, answers_reserved, encode, Spell, ← holds_iff, holds_append]
  all_goals simp +contextual [ht, hm, wordLength, holds_extract, -BitVec.extractLsb'_eq_self]

theorem tag_engOf (t : BitVec 2) : (engOf t).tag = t := by
  revert t
  decide

/-- Encoding undoes decoding: the first words of two that decode spell the instruction. -/
theorem decode_spells (w0 w1 : BitVec 32) :
    Answers (Spell w0 w1 (wordLength (engOf (w0.extractLsb' 30 2)) (w0.extractLsb' 19 7).toNat)) (decode w0 w1) := by
  have ht : Holds w0 30 (engOf (w0.extractLsb' 30 2)).tag := (tag_engOf _).symm
  have hm : Holds w0 19 (BitVec.ofNat 7 (w0.extractLsb' 19 7).toNat) := by
    rw [BitVec.ofNat_toNat, BitVec.setWidth_eq]
    exact holds_extract w0 19 7
  unfold decode
  dsimp only
  generalize engOf (w0.extractLsb' 30 2) = t at ht
  split
  · exact decodeShared_spells w1 ht hm
  · cases t with
    | C => exact decodeC_spells w1 ht hm
    | A => exact decodeA_spells w1 ht hm
    | X => exact decodeX_spells w1 ht hm
    | F => exact decodeF_spells w1 ht hm

theorem encode_of_decode {w0 w1 : BitVec 32} {i : Instr} (h : decode w0 w1 = .ok i) :
    encode i = if wordLength (engOf (w0.extractLsb' 30 2)) (w0.extractLsb' 19 7).toNat = 1 then [w0] else [w0, w1] :=
  (decode_spells w0 w1 i h).encode_eq

/-! ### What follows an instruction -/

theorem wordLength_cases (t : Eng) (mj : Nat) : wordLength t mj = 1 ∨ wordLength t mj = 2 := by
  unfold wordLength
  split <;> split <;> simp

/-- Of the shared subset only LI looks at a second word. -/
theorem decodeShared_oneWord (t : Eng) (p : BitVec 4) {mj : Nat} (w0 w1 w : BitVec 32) (h : mj ≠ 0x3E) :
    decodeShared t p mj w0 w1 = decodeShared t p mj w0 w := by
  unfold decodeShared
  split <;> simp at h ⊢

/-- C's majors up to 0x5F do not look at a second word. -/
theorem decodeC_oneWord (p : BitVec 4) {mj : Nat} (w0 w1 w : BitVec 32) (h : mj ≤ 0x5F) :
    decodeC p mj w0 w1 = decodeC p mj w0 w := by
  unfold decodeC
  split <;> simp at h ⊢

theorem decode_oneWord {w0 : BitVec 32} (w1 w : BitVec 32)
    (h : wordLength (engOf (w0.extractLsb' 30 2)) (w0.extractLsb' 19 7).toNat = 1) : decode w0 w1 = decode w0 w := by
  unfold decode
  dsimp only
  unfold wordLength at h
  generalize engOf (w0.extractLsb' 30 2) = t at h
  split at h
  · rename_i hs
    rw [if_pos hs, if_pos hs]
    exact decodeShared_oneWord t _ w0 w1 w (fun g => by simp [g] at h)
  · rename_i hs
    rw [if_neg hs, if_neg hs]
    obtain ⟨rfl, hc⟩ : t = .C ∧ (w0.extractLsb' 19 7).toNat ≤ 0x5F := by
      by_contra g
      rw [if_neg g] at h
      cases h
    exact decodeC_oneWord _ w0 w1 w hc

theorem decodeWords_cons {w0 : BitVec 32} {ws : List (BitVec 32)} {i : Instr} (h : decode w0 (ws.headD 0) = .ok i) :
    decodeWords (w0 :: ws) = .ok (i, ws.drop (wordLength (engOf (w0.extractLsb' 30 2)) (w0.extractLsb' 19 7).toNat - 1)) := by
  unfold decodeWords
  simp only [h]

theorem decodeWords_of_decode {w0 w1 : BitVec 32} {i : Instr} (rest : List (BitVec 32)) (h : decode w0 w1 = .ok i) :
    decodeWords (encode i ++ rest) = .ok (i, rest) := by
  rw [encode_of_decode h]
  obtain hl | hl := wordLength_cases (engOf (w0.extractLsb' 30 2)) (w0.extractLsb' 19 7).toNat
  · rw [if_pos hl]
    exact (decodeWords_cons ((decode_oneWord _ w1 hl).trans h)).trans (by rw [hl]; rfl)
  · rw [if_neg (by omega)]
    exact (decodeWords_cons (ws := w1 :: rest) h).trans (by rw [hl]; rfl)

namespace Laws.RoundTrip

/-- Decoding undoes encoding, whatever the instruction. -/
theorem decode_encode (i : Instr) : Statement i :=
  Instr.rec (motive := Statement)
    nop done b call ret btk brkl beq bne blt bge blo bhs loop loopi add sub mul mulh andg org xorg shl shr sra slt sltn min
    max mov addi andi ori xori shli shri srai spl sps svra ldra waitt sigt qdrop li csrr csrw csrs csrc amoaddAcq amoaddRel
    amoaddAr amoandAcq amoandRel amoandAr amoorAcq amoorRel amoorAr amominAcq amominRel amominAr amomaxAcq amomaxRel amomaxAr
    amoswpAcq amoswpRel amoswpAr amocasAcq amocasRel amocasAr fenceAcq fenceRel phase trap eret wfe fadd fsub fmul fmin fmax
    feq flt fle fcvt wqpush spawn resolve cvnew cvfree yield mbsend mbrecv mbpoll nestw ngo nwait fmtq tlbir tlback ld st ffma
    spawnc ldq ldqTerm stq rinit radvHead radvTail rwaitHead rwaitTail swz gld gst lchain preft shdwDef shdwArm shdwFree publ
    astatEcur astatScur astatSetec astatSetsc astatRing astatSwait astatSsig astatSread astatSset astatChain kvw kvrn kvadv
    kvrwd kvfork kvend kvgath kvstat kvstatDrain vadd vsub vmul vfma vfms vmin vmax vabs vneg vand vor vxor vnot vshl vshr
    vsra vcmp vsel vmov vmovTerm vbcast viota vcvt vperm vnib vzip vunzip vslide vgath vscat vbmp vpopc vexp2 vlog2 vrcpa
    vrsqa vrsum vrmax vrmin vdraw vdmerge selinit selfeed seldrain selmrg vdotq vl2q mpush minv mpop bmz exts mloop zcnv
    zcnvTerm zcomp zcompTerm zclr zrd fprtTile fprtPass fprtEmit fsqa fscl fsclRng fmv fmvTerm fwait tileCommand ringAdvance
    wqtailWrite wqEnable wqDisable partitionEnable partitionDisable tierctlEnable fltack invcmdGo preemptRequest preemptSave
    deschedule conductorStart trpackRetry trpackAbort trpackDiscard trpackReserved attestRequest attestReportComplete
    spanstatRead registerWrite hostRead hostWrite frontRefill placementGrant nestEmptyRetire specRecordMove poolTake
    headWordWrite heldPushEnqueue workRetire workResume phaseBoundary slipBoundLift perform deliver chainStart copy ladleLoop
    cond semwait semaphoreTake semsig ladlePubl fprint ladleEnd walk migrationRetry migrationTimeout tlbirAck replication
    faultRecordWrite faultBatchClose shakeoutDrain trapRecordWrite selfTestComplete fencedWorkTimeout phaseWatchdog
    coreStallWatchdog patrolScrub wfeTimeout throttleWindow powerMeasure thermalSense thermalTrip linkDown linkUp spanPortDown
    peerRouteTimeout deviceReset bringupStage peerRequest spanPortUp flitRetry
    i

end Laws.RoundTrip

/-- Settles O56: each direction for every instruction, an answer's words read off the fields that the decoder looked at. -/
theorem encodingIsExact : Obligations.EncodingIsExact := by
  unfold Obligations.EncodingIsExact
  exact ⟨fun i rest h => decodeWords_of_decode rest (Laws.RoundTrip.decode_encode i h), fun _ _ _ h => encode_of_decode h⟩

end Sys2Proof
end

section
/-! What a turn does before anything acts leaves the package's power as it is (R380): the end of a cycle with its refreshes and
acknowledgements, the boundaries, time, and the misses that walkers serve. -/
namespace Sys2Proof.Machine

/-! ### Walks and translations -/

theorem State.foldl_power {α : Type} (l : List α) {f : State → α → State} (h : ∀ s x, (f s x).power = s.power) (s : State) :
    (l.foldl f s).power = s.power := by
  induction l generalizing s with
  | nil => rfl
  | cons x l ih => exact (ih _).trans (h s x)

@[simp] theorem State.touchEntry_power (s : State) (entry acc : Nat) : (s.touchEntry entry acc).power = s.power := by
  unfold State.touchEntry
  split <;> rfl

@[simp] theorem State.modTlb_power (s : State) (cl : Client) (f : List Tlb → List Tlb) : (s.modTlb cl f).power = s.power := by
  cases cl <;> rfl

theorem Keeps.power (cl : Client) (b : Bool) : Keeps cl fun u => u.power = b where
  notes _ _ h := h
  node _ _ _ _ _ _ h := h
  entry _ _ h := (State.touchEntry_power _ _ _).trans h
  cache _ h := (State.modTlb_power _ _ _).trans h
  count _ _ _ h := h

@[simp] theorem State.translate_power (s : State) (cl : Client) (part asid va acc : Nat) :
    (s.translate cl part asid va acc).2.power = s.power := (Keeps.power cl s.power).translate rfl part asid va acc

@[simp] theorem State.serveMiss_power (s : State) (x : Stalled) : (s.serveMiss x).power = s.power := by
  have h := (Keeps.power x.client s.power).fill (u := { s with stalled := s.stalled.filter fun y => y ≠ x }) rfl x.part x.asid x.va x.access
  unfold State.serveMiss
  split <;> rename_i he <;> rw [he] at h <;> exact h

@[simp] theorem State.serveMisses_power (s : State) : s.serveMisses.power = s.power := by
  refine State.foldl_power _ (fun s x => ?_) s
  split
  · exact s.serveMiss_power x
  · rfl

@[simp] theorem State.keepFills_power (s : State) (l : List (Nat × Nat)) : (s.keepFills l).power = s.power := by
  unfold State.keepFills
  exact State.foldl_power _ (fun s (x : Nat × Nat) => s.touchEntry_power x.1 x.2) s

/-! ### Time and boundaries -/

@[simp] theorem State.tick_power (s : State) (n : Nat) : (s.tick n).power = s.power := by
  unfold State.tick
  split <;> rfl

@[simp] theorem State.pauseWatchdogs_power (s : State) (n : Nat) : (s.pauseWatchdogs n).power = s.power := by
  unfold State.pauseWatchdogs
  dsimp only
  split <;> rfl

@[simp] theorem State.nextPhase_power (s : State) (p lvl idx : Nat) : (s.nextPhase p lvl idx).power = s.power := by
  unfold State.nextPhase
  dsimp only
  split <;> rfl

@[simp] theorem State.crossBoundary_power (lvl n : Nat) (s : State) (k : Nat) : (s.crossBoundary lvl n k).power = s.power := by
  unfold State.crossBoundary
  dsimp only
  split <;> rfl

@[simp] theorem State.boundary_power (s : State) (p lvl idx : Nat) : (s.boundary p lvl idx).power = s.power := by
  unfold State.boundary
  dsimp only
  refine (State.foldl_power (f := State.joinBoundary lvl _) _ (fun s k => rfl) _).trans ?_
  exact (State.foldl_power _ (State.crossBoundary_power lvl _) _).trans (s.nextPhase_power p lvl idx)

@[simp] theorem State.crossDue_power (s : State) : s.crossDue.power = s.power := by
  refine State.foldl_power _ (fun s x => ?_) s
  split
  · exact s.boundary_power _ _ _
  · rfl

/-! ### Work that leaves its core -/

@[simp] theorem State.addPin_power (cl : Client) (w : Work) (d : Nat) (s : State) (va : Nat) : (State.addPin cl w d s va).power = s.power := by
  have h := s.translate_power cl w.part w.asid (s.redirect w.part w.id none (va + 84)) accWrite
  unfold State.addPin
  split <;> rename_i he <;> rw [he] at h <;> exact h

theorem State.unpinAll_power (cl : Client) (w : Work) (l : List Nat) (s : State) : (l.foldl (State.unpin cl w) s).power = s.power :=
  State.foldl_power _ (State.addPin_power cl w _) s

@[simp] theorem State.perform_power (s : State) (t : Store) : (s.perform t).power = s.power := by
  unfold State.perform
  split <;> rfl

@[simp] theorem State.drainOb_power (s : State) (k : Nat) : (s.drainOb k).power = s.power :=
  State.foldl_power _ State.perform_power _

@[simp] theorem State.endRequest_power (s : State) (k : Nat) : (s.endRequest k).power = s.power := by
  unfold State.endRequest
  repeat' split
  all_goals rfl

@[simp] theorem State.vacate_power (s : State) (k : Nat) : (s.vacate k).power = s.power := s.endRequest_power k

@[simp] theorem State.endWork_power (s : State) (k : Nat) (rings : Bool) : (s.endWork k rings).power = s.power := by
  unfold State.endWork
  split
  · rfl
  · rename_i w _
    have pins : ∀ l : List Nat, (l.foldl (State.unpin (.coreA k) w) ((s.forget w).endRequest k)).power = s.power := fun l =>
      (State.unpinAll_power _ _ _ _).trans (State.endRequest_power _ k)
    extract_lets u v x
    have hx : x.power = s.power := pins _
    split
    · exact (x.vacate_power k).trans hx
    · exact hx

@[simp] theorem State.pruneCore_power (s : State) (k : Nat) (rings : Bool) : (s.pruneCore k rings).power = s.power := by
  unfold State.pruneCore
  split
  · rfl
  · exact State.endWork_power _ k rings

@[simp] theorem State.dropSeg_power (s : State) (g : Seg) : (s.dropSeg g).power = s.power :=
  (State.unpinAll_power _ _ _ _).trans (State.foldl_power _ State.perform_power s)

theorem State.freeBytes_power (n : Nat) : ∀ s : State, (s.freeBytes n).2.power = s.power := by
  induction n with
  | zero => exact fun s => rfl
  | succ n ih => exact fun s => ih _

@[simp] theorem State.writeSlot_power (s : State) (addr : Nat) (c : Ctx) (sb : List Store) : (s.writeSlot addr c sb).power = s.power := by
  unfold State.writeSlot
  refine (State.foldl_power _ ?_ _).trans (State.foldl_power _ ?_ s)
  · exact fun _ _ => rfl
  · exact fun s x => s.freeBytes_power x.2

@[simp] theorem State.leaveInto_power (s : State) (k i : Nat) (st : OffState) : (s.leaveInto k i st).power = s.power := by
  unfold State.leaveInto
  split
  all_goals
    extract_lets c x
    split
    · rfl
    · split
      rename_i he
      cases he
      extract_lets u v g
      have hu : u.power = s.power := State.writeSlot_power _ _ _ _
      clear_value u
      exact (State.vacate_power _ k).trans hu

@[simp] theorem State.startLeave_power (s : State) (k : Nat) (st : OffState) : (s.startLeave k st).power = s.power := by
  unfold State.startLeave
  dsimp only
  split
  · rfl
  · split
    · split
      · exact s.leaveInto_power k _ st
      · rfl
    · rfl

@[simp] theorem State.takeTrapWith_power (s : State) (k : Nat) (e : Eng) (cls cause : Nat) (val : Word) (f : TrapRec → TrapRec) :
    (s.takeTrapWith k e cls cause val f).power = s.power := by
  unfold State.takeTrapWith
  dsimp only
  split
  · rfl
  · split <;> rfl

@[simp] theorem State.afterDone_power (s : State) (e : Eng) : (s.afterDone e).power = s.power := by
  unfold State.afterDone
  dsimp only
  split
  · rfl
  · split
    · rfl
    · split
      · exact s.takeTrapWith_power _ e 10 3 0 id
      · split
        · exact s.startLeave_power _ _
        · rfl

/-! ### Acknowledged traps -/

@[simp] theorem State.settleNest_power (s : State) (n : Nat) : (s.settleNest n).power = s.power := by
  unfold State.settleNest
  repeat' split
  all_goals rfl

@[simp] theorem State.workOver_power (s : State) (w : Work) (retired : Bool) : (s.workOver w retired).power = s.power := by
  unfold State.workOver
  dsimp only
  split
  · split
    · rfl
    · exact State.settleNest_power _ _
  · split <;> rfl
  · split <;> rfl

@[simp] theorem State.abortWork_power (s : State) (id : Nat) : (s.abortWork id).power = s.power := by
  unfold State.abortWork
  dsimp only
  split
  · split
    · exact (State.workOver_power _ _ _).trans (State.pruneCore_power _ _ _)
    · rfl
  · split
    · exact (State.workOver_power _ _ _).trans (State.dropSeg_power _ _)
    · rfl

/-- An act that leaves the power as it is when it succeeds. -/
def PowerKept {α : Type} (x : Act α) : Prop := ∀ ⦃s t : State⦄ ⦃a : α⦄, x s = .ok (a, t) → t.power = s.power

theorem PowerKept.bind {α β : Type} {x : Act α} {f : α → Act β} (hx : PowerKept x) (hf : ∀ a, PowerKept (f a)) : PowerKept (x >>= f) := by
  intro s t b h
  rw [Act.bind_run] at h
  cases he : x s with
  | error r =>
    rw [he] at h
    cases h
  | ok y =>
    rw [he] at h
    exact (hf y.1 h).trans (hx he)

theorem PowerKept.pure {α : Type} (a : α) : PowerKept (Pure.pure a : Act α) := fun _ _ _ h => by
  cases h
  rfl

theorem PowerKept.get : PowerKept (MonadState.get : Act State) := fun _ _ _ h => by
  cases h
  rfl

theorem PowerKept.get_bind {β : Type} {f : State → Act β} (hf : ∀ s t b, f s s = .ok (b, t) → t.power = s.power) :
    PowerKept (MonadState.get >>= f : Act β) := fun s t b h => hf s t b h

theorem PowerKept.change {f : State → State} (h : ∀ s, (f s).power = s.power) : PowerKept (modify f : Act Unit) := fun _ _ _ g => by
  cases g
  exact h _

theorem PowerKept.waitIf (b : Bool) (w : Wait) : PowerKept (Machine.waitIf b w) := fun _ _ _ h => by
  cases b <;> cases h
  rfl

theorem PowerKept.poisonIf (b : Bool) (key : Nat) (v : Word) : PowerKept (Machine.poisonIf b key v) := fun _ _ _ h => by
  cases b <;> cases h
  rfl

theorem PowerKept.xlateAs (cl : Client) (part asid va acc extent : Nat) : PowerKept (Machine.xlateAs cl part asid va acc extent) := by
  intro s t a h
  have ht := s.translate_power cl part asid va acc
  unfold Machine.xlateAs at h
  split at h
  · rename_i he
    rw [he] at ht
    cases h
    exact ht
  · cases h
  · cases h

theorem State.useReplica_power (s : State) (d key : Nat) : (s.useReplica d key).power = s.power := by
  unfold State.useReplica
  split <;> rfl

theorem Kv.powerKept_key (x : Kv) (va acc n : Nat) : PowerKept (x.key va acc n) :=
  .bind .get fun _ => .xlateAs _ _ _ _ _ _

theorem Kv.powerKept_load (x : Kv) (va n : Nat) : PowerKept (x.load va n) := by
  refine .bind (x.powerKept_key va accRead n) fun key => .get_bind fun s t a h => ?_
  generalize (!x.dry && s.noPath key) = lost at h
  generalize (!x.dry && s.readPoisoned (clientDie x.cl) key n) = poison at h
  cases lost <;> cases poison <;> cases h
  exact s.useReplica_power _ _

theorem Kv.powerKept_store (x : Kv) (va n v : Nat) : PowerKept (x.store va n v) := by
  exact .bind (x.powerKept_key va accWrite n) fun key => .bind .get fun _ => .bind (.waitIf _ _) fun _ => .bind .get fun _ =>
    .bind (.poisonIf _ _ _) fun _ => .change fun _ => rfl

theorem Kv.powerKept_setField (x : Kv) (va hi lo v : Nat) : PowerKept (x.setField va hi lo v) :=
  .bind (x.powerKept_load va 8) fun _ => x.powerKept_store va 8 _

@[simp] theorem State.stopDrains_power (s : State) (d ctx asid part : Nat) : (s.stopDrains d ctx asid part).power = s.power := by
  unfold State.stopDrains
  split
  · extract_lets x u
    have hu : u.power = s.power := by
      dsimp only [u]
      split
      · rename_i he
        exact x.powerKept_setField _ _ _ _ he
      · exact s.keepFills_power _
    exact hu
  · rfl

@[simp] theorem State.rollback_power (s : State) (k : Nat) (w : Work) (cp : Checkpoint) : (s.rollback k w cp).power = s.power := by
  unfold State.rollback
  extract_lets pins waits u v x y z
  have hv : v.power = s.power := by
    dsimp only [v]
    split <;> exact s.drainOb_power k
  refine (State.foldl_power _ (State.addPin_power _ w 1) _).trans ?_
  refine (State.unpinAll_power _ w pins _).trans ?_
  exact hv

@[simp] theorem State.asCore_power (s : State) (k : Nat) {f : State → State} (h : ∀ u : State, (f u).power = u.power) :
    (s.asCore k f).power = s.power := h _

@[simp] theorem State.replay_power (s : State) (k : Nat) : (s.replay k).power = s.power := by
  unfold State.replay
  split
  · rfl
  · split
    · rfl
    · exact (State.afterDone_power _ .C).trans (State.rollback_power _ _ _ _)

@[simp] theorem State.recheck_power (s : State) (id : Nat) (e : Eng) : (s.recheck id e).power = s.power := by
  unfold State.recheck
  split
  · exact State.afterDone_power _ e
  · rfl

@[simp] theorem State.retryTrap_power (s : State) (t : TrapRec) : (s.retryTrap t).power = s.power := by
  unfold State.retryTrap
  split
  · dsimp only
    split
    · exact State.recheck_power _ _ _
    · rfl
  · rfl
  · split
    · split
      · exact s.replay_power _
      · rfl
    · rfl
  all_goals rfl

@[simp] theorem State.abortTrap_power (s : State) (t : TrapRec) : (s.abortTrap t).power = s.power := by
  unfold State.abortTrap
  split
  · exact s.abortWork_power _
  · exact s.abortWork_power _
  · exact s.abortWork_power _
  · rfl
  · exact s.stopDrains_power _ _ _ _
  · rfl

@[simp] theorem State.discardResidue_power (s : State) (t : TrapRec) : (s.discardResidue t).power = s.power := by
  unfold State.discardResidue
  split <;> rfl

@[simp] theorem State.actOn_power (s : State) (t : TrapRec) (act : Nat) : (s.actOn t act).power = s.power := by
  unfold State.actOn
  split
  · simp
  · split <;> simp

@[simp] theorem State.resumeAcks_power (s : State) (w : Work) : (s.resumeAcks w).power = s.power :=
  State.foldl_power _ (fun s t => s.actOn_power t _) _

/-! ### The beginning of a turn -/

@[simp] theorem State.takeRefreshes_power (s : State) : s.takeRefreshes.power = s.power :=
  State.foldl_power (f := State.takeRefresh) _ (fun _ _ => rfl) _

@[simp] theorem State.endCycle_power (s : State) : s.endCycle.power = s.power := by
  refine (State.foldl_power _ (fun s k => ?_) _).trans s.takeRefreshes_power
  split
  · exact s.resumeAcks_power _
  · rfl

@[simp] theorem State.begin_power (s : State) (t : Turn) : (s.begin t).power = s.power := by
  unfold State.begin
  extract_lets n u v x
  have hu : u.power = s.power := by
    dsimp only [u]
    split
    · rfl
    · exact s.crossDue_power
  have hv : v.power = u.power := by
    dsimp only [v]
    split
    · rfl
    · exact u.endCycle_power
  have hx : x.power = v.power := by simp only [x, State.serveMisses_power, State.pauseWatchdogs_power, State.tick_power]
  exact hx.trans (hv.trans hu)

end Sys2Proof.Machine
end

section
/-! A step, turn by turn and word by word (R70, R71, R86, R380). -/
namespace Sys2Proof.Machine

/-! ### The turn that a step takes -/

theorem step_eq_turn (s : State) : step s = s.firstTurn.2.turn s.firstTurn.1 := by
  unfold step State.firstTurn
  cases s.agenda <;> rfl

/-- With power, the deed of the turn acts once the turn has begun. -/
theorem State.turn_powered {r : State} (t : Turn) (h : r.power = true) : r.turn t = (r.begin t).act t.deed := by
  unfold State.turn
  dsimp only
  rw [State.begin_power, h, Bool.true_or, if_pos rfl]

/-- Without power the turn begins, and nothing but a reset acts (R380). -/
theorem State.turn_dark {r : State} {t : Turn} (h : r.power = false) (hd : ∀ l, t.deed ≠ .event .deviceReset l) :
    r.turn t = .next (r.begin t) := by
  unfold State.turn
  dsimp only
  rw [State.begin_power, h, Bool.false_or]
  split
  · exact absurd ‹_› (hd _)
  · exact if_neg Bool.false_ne_true

theorem step_powered {s r : State} {t : Turn} (hs : s.firstTurn = (t, r)) (h : r.power = true) : step s = (r.begin t).act t.deed := by
  rw [step_eq_turn, hs]
  exact State.turn_powered t h

theorem step_dark {s r : State} {t : Turn} (hs : s.firstTurn = (t, r)) (h : r.power = false)
    (hd : ∀ l, t.deed ≠ .event .deviceReset l) : step s = .next (r.begin t) := by
  rw [step_eq_turn, hs]
  exact State.turn_dark h hd

theorem State.act_event {s : State} {i : Instr} (l : Nat) (h : encode i = []) : s.act (.event i l) = exec i s :=
  if_pos (by rw [h]; rfl)

/-! ### What an engine finds -/

/-- The program counter at which an engine of the executing core fetches. -/
def State.fetchPc (s : State) (e : Eng) : Nat := ((s.ctx.eng e).prog.bind (·.home)).getD (s.ctx.eng e).pc

/-- The first word that an engine fetches. -/
def State.fetchWord (s : State) (e : Eng) : BitVec 32 := s.cc.imem.get 0 (s.fetchPc e)

/-- The engine that the first word is tagged for. -/
def State.fetchTag (s : State) (e : Eng) : Eng := engOf ((s.fetchWord e).extractLsb' 30 2)

/-- The length in words of what an engine fetches. -/
def State.fetchLen (s : State) (e : Eng) : Nat := wordLength (s.fetchTag e) (bits (s.fetchWord e) 25 19)

/-- What the two words at an engine's program counter decode to. -/
def State.fetchDecode (s : State) (e : Eng) : Except Reject Instr := decode (s.fetchWord e) (s.cc.imem.get 0 (s.fetchPc e + 1))

/-- What is found where two words decode to an instruction, or are rejected. -/
def Fetch.ofDecode : Except Reject Instr → Fetch
  | .ok i => .run i
  | .error r => .illegal r.cause

section
variable {s : State} {e : Eng} (hr : s.cc.runnable e = true)
include hr

theorem State.fetch_beyond (h : s.work.len ≤ s.fetchPc e) : s.fetch e = .illegal 6 := by
  refine (if_neg ?_).trans (if_pos h)
  rw [hr]
  exact Bool.false_ne_true

variable (hl : s.fetchPc e < s.work.len) (hw : s.cc.firstWord (s.fetchPc e) = true)
include hl hw

/-- At a first word of the text, that word says what is found. -/
theorem State.fetch_inside : s.fetch e =
    if s.fetchTag e ≠ e then .skip (s.fetchLen e)
    else if s.fetchLen e = 2 && s.work.len ≤ s.fetchPc e + 1 then .illegal (s.cc.halfCause (s.fetchPc e) (s.fetchWord e))
    else Fetch.ofDecode (s.fetchDecode e) := by
  refine (if_neg ?_).trans ((if_neg (Nat.not_le.2 hl)).trans ((if_neg ?_).trans ?_))
  · rw [hr]
    exact Bool.false_ne_true
  · change ¬(!s.cc.firstWord (s.fetchPc e)) = true
    rw [hw]
    exact Bool.false_ne_true
  · rfl

theorem State.fetch_other (h : s.fetchTag e ≠ e) : s.fetch e = .skip (s.fetchLen e) :=
  (State.fetch_inside hr hl hw).trans (if_pos h)

theorem State.fetch_half (ht : s.fetchTag e = e) (hn : s.fetchLen e = 2) (h : s.work.len ≤ s.fetchPc e + 1) :
    s.fetch e = .illegal (s.cc.halfCause (s.fetchPc e) (s.fetchWord e)) := by
  rw [State.fetch_inside hr hl hw, if_neg (by simp [ht]), if_pos (by simp [hn, h])]

variable (ht : s.fetchTag e = e) (hn : s.fetchPc e + s.fetchLen e ≤ s.work.len)
include ht hn

theorem State.fetch_ok {i : Instr} (h : s.fetchDecode e = .ok i) : s.fetch e = .run i := by
  rw [State.fetch_inside hr hl hw, if_neg (by simp [ht]), if_neg (by simp; omega), h, Fetch.ofDecode]

theorem State.fetch_error {r : Reject} (h : s.fetchDecode e = .error r) : s.fetch e = .illegal r.cause := by
  rw [State.fetch_inside hr hl hw, if_neg (by simp [ht]), if_neg (by simp; omega), h, Fetch.ofDecode]

end

/-! ### What an engine's turn does with it -/

section
variable {s : State} {e : Eng} (hn : e = .C → s.ngoDue = false)

theorem State.engineTurn_ngo (h : s.ngoDue = true) : s.engineTurn .C = .next s.endNgo := if_pos (by rw [h]; rfl)

include hn

theorem State.not_ngoTurn : ¬(e = .C && s.ngoDue) = true := by
  intro h
  obtain ⟨he, hd⟩ := Bool.and_eq_true_iff.1 h
  exact Bool.false_ne_true ((hn (of_decide_eq_true he)).symm.trans hd)

theorem State.engineTurn_run {i : Instr} (h : s.fetch e = .run i) : s.engineTurn e = exec i s := by
  refine (if_neg (State.not_ngoTurn hn)).trans ?_
  rw [h]

theorem State.engineTurn_skip {n : Nat} (h : s.fetch e = .skip n) : s.engineTurn e = .next (s.skip e n) := by
  refine (if_neg (State.not_ngoTurn hn)).trans ?_
  rw [h]

/-- C waits behind an NGO (log 38); every other engine, and C alone, takes the trap. -/
theorem State.engineTurn_illegal {c : Nat} (h : s.fetch e = .illegal c) :
    s.engineTurn e = .next (if e = .C ∧ s.ctx.ar.start.isSome = true then s.waitNote .C .array else s.illegal e c) := by
  refine (if_neg (State.not_ngoTurn hn)).trans ?_
  rw [h]
  by_cases hc : e = .C
  · simp [hc]
  · simp [hc]

end

/-- Settles O54: the turn that a step takes begins and its deed acts; an engine's turn does what its fetch finds. -/
theorem stepRunsDecodedInstruction : Obligations.StepRunsDecodedInstruction := by
  unfold Obligations.StepRunsDecodedInstruction
  intro s dt r
  refine ⟨fun k e n hs hp => ?_, fun i l hs hp hi => ?_, fun d hs hp hd => step_dark hs hp hd⟩
  · extract_lets v u pc w0 w1 len traps
    have hu : step s = u.engineTurn e := step_powered hs hp
    rw [hu]
    refine ⟨?_, fun hn hr => ⟨fun h => ?_, fun hl hw => ⟨fun i ht hlen hd => ?_, fun ht => ?_, fun c ht hlen hd => ?_,
      fun ht hlen h => ?_⟩⟩⟩
    · rintro rfl h
      exact State.engineTurn_ngo h
    · exact State.engineTurn_illegal hn (State.fetch_beyond hr h)
    · exact State.engineTurn_run hn (State.fetch_ok hr hl hw ht hlen hd)
    · exact State.engineTurn_skip hn (State.fetch_other hr hl hw ht)
    · exact State.engineTurn_illegal hn (State.fetch_error hr hl hw ht hlen hd)
    · exact State.engineTurn_illegal hn (State.fetch_half hr hl hw ht hlen h.ge)
  · exact (step_powered hs hp).trans (State.act_event l hi)

end Sys2Proof.Machine
end

section
/-! An illegal instruction never acts (R85, R86, R131): every meaning of an engine instruction issues on the engine that its first word
is tagged for, and issue checks the encoding before anything else. -/
namespace Sys2Proof.Machine

/-! ### What issue does with an illegal instruction -/

/-- A meaning that checks the encoding first, on engine `e`: an instruction that begins and is illegal traps. -/
def ChecksEncoding (e : Eng) (i : Instr) : Prop :=
  ∀ (s : State) (c : Nat), s.cc.runnable e = true → (s.ctx.eng e).prog = none → encodingCause i s.cc e = some c →
    exec i s = .next (s.illegal e c)

theorem issueOn_illegal {i : Instr} {e : Eng} {p : BitVec 4} {n : State → Needs} {pre : Act Unit} {body : Prog → Act Next} {s : State}
    {c : Nat} (hr : s.cc.runnable e = true) (hp : (s.ctx.eng e).prog = none) (hc : encodingCause i s.cc e = some c) :
    issueOn i e p n pre body s = s.illegal e c := by
  unfold issueOn
  rw [if_neg (by simp [hr]), hp]
  simp only [hc]

theorem checksEncoding_of_issue {e : Eng} {i : Instr}
    (h : ∀ s : State, ∃ p n pre body, exec i s = issue i e p n pre body s) : ChecksEncoding e i := by
  intro s c hr hp hc
  obtain ⟨p, n, pre, body, hi⟩ := h s
  exact hi.trans (congrArg _ (issueOn_illegal hr hp hc))

/-! ### WQPUSH, whose meaning looks at a held push behind its issue -/

theorem Ctx.unissue_of_noProg {c : Ctx} {e : Eng} (h : (c.eng e).prog = none) : c.unissue e = c := by
  unfold Ctx.unissue
  rw [h]

/-- An instruction that has not issued holds nothing to give up. -/
theorem State.ctx_giveUp_of_noProg {s : State} {e : Eng} (h : (s.ctx.eng e).prog = none) : (s.giveUp e).ctx = s.ctx := by
  unfold State.giveUp
  rw [h, if_neg (by simp), State.ctx_modCtx, Ctx.unissue_of_noProg h]

theorem Ctx.prog_enterLocal {c : Ctx} {e : Eng} (h : (c.eng e).prog = none) (cls cause : Nat) (val : Word) :
    ((c.enterLocal cls cause val).eng e).prog = none := by
  cases e with
  | C => rfl
  | A | X | F => exact h

/-- Taking a trap begins no instruction, whether it is taken locally or delivered. -/
theorem State.takeTrapWith_prog {s : State} {e : Eng} (h : (s.ctx.eng e).prog = none) (cls cause : Nat) (val : Word)
    (f : TrapRec → TrapRec) : ((s.takeTrapWith s.cur e cls cause val f).ctx.eng e).prog = none := by
  unfold State.takeTrapWith
  dsimp only
  split
  · exact h
  · split
    · change ((s.modCtx fun x => x.enterLocal cls cause val).ctx.eng e).prog = none
      rw [State.ctx_modCtx]
      exact Ctx.prog_enterLocal h cls cause val
    · change ((s.modCtx fun x => x.modEng e fun g => { g with hold := some (.trap cls cause) }).ctx.eng e).prog = none
      rw [State.ctx_modCtx, Ctx.eng_modEng_same]
      exact h

theorem State.giveUp_cur (s : State) (e : Eng) : (s.giveUp e).cur = s.cur := by
  unfold State.giveUp
  split <;> rfl

theorem State.illegal_prog {s : State} {e : Eng} (h : (s.ctx.eng e).prog = none) (c : Nat) : ((s.illegal e c).ctx.eng e).prog = none := by
  have hg : ((s.giveUp e).ctx.eng e).prog = none := by rw [State.ctx_giveUp_of_noProg h, h]
  have ht := State.takeTrapWith_prog hg 1 c (s.cc.wordAt (s.ctx.eng e).pc s.work.len) id
  rw [State.giveUp_cur] at ht
  exact ht

theorem State.descheduleHeld_of_noProg {s : State} (h : s.ctx.c.prog = none) : s.descheduleHeld = s := by
  unfold State.descheduleHeld
  rw [h]
  simp only [Option.any_none, Bool.false_and, Bool.false_eq_true, if_false]
  split <;> rfl

theorem wqpush_checksEncoding (p : BitVec 4) (gd ga gb : BitVec 5) : ChecksEncoding .C (.wqpush p gd ga gb) := by
  intro s c hr hp hc
  refine congrArg Host.Outcome.next ?_
  rw [issueOn_illegal hr hp hc]
  exact State.descheduleHeld_of_noProg (State.illegal_prog hp c)

/-! ### Every instruction that decodes -/

theorem decodeShared_checksEncoding (t : Eng) (p : BitVec 4) (mj : Nat) (w0 w1 : BitVec 32) :
    Answers (ChecksEncoding t) (decodeShared t p mj w0 w1) := by
  unfold decodeShared
  split
  all_goals repeat' apply Answers.ite
  all_goals simp (disch := exact fun _ => ⟨_, _, _, _, rfl⟩) only [answers_ok, answers_error, checksEncoding_of_issue]

theorem decodeC_checksEncoding (p : BitVec 4) (mj : Nat) (w0 w1 : BitVec 32) : Answers (ChecksEncoding .C) (decodeC p mj w0 w1) := by
  unfold decodeC
  split
  all_goals repeat' apply Answers.ite
  all_goals simp (disch := exact fun _ => ⟨_, _, _, _, rfl⟩) only [answers_ok, answers_error, wqpush_checksEncoding, checksEncoding_of_issue]

theorem decodeA_checksEncoding (p : BitVec 4) (mj : Nat) (w0 w1 : BitVec 32) : Answers (ChecksEncoding .A) (decodeA p mj w0 w1) := by
  unfold decodeA
  split
  all_goals repeat' apply Answers.ite
  all_goals simp (disch := exact fun _ => ⟨_, _, _, _, rfl⟩) only [answers_ok, answers_error, checksEncoding_of_issue]

theorem decodeX_checksEncoding (p : BitVec 4) (mj : Nat) (w0 w1 : BitVec 32) : Answers (ChecksEncoding .X) (decodeX p mj w0 w1) := by
  unfold decodeX
  split
  all_goals repeat' apply Answers.ite
  all_goals simp (disch := exact fun _ => ⟨_, _, _, _, rfl⟩) only [answers_ok, answers_error, checksEncoding_of_issue]

theorem decodeF_checksEncoding (p : BitVec 4) (mj : Nat) (w0 w1 : BitVec 32) : Answers (ChecksEncoding .F) (decodeF p mj w0 w1) := by
  unfold decodeF
  split
  all_goals repeat' apply Answers.ite
  all_goals simp (disch := exact fun _ => ⟨_, _, _, _, rfl⟩) only [answers_ok, answers_error, checksEncoding_of_issue]

theorem decode_checksEncoding (w0 w1 : BitVec 32) : Answers (ChecksEncoding (engOf (w0.extractLsb' 30 2))) (decode w0 w1) := by
  unfold decode
  dsimp only
  generalize engOf (w0.extractLsb' 30 2) = t
  split
  · exact decodeShared_checksEncoding t _ _ w0 w1
  · cases t with
    | C => exact decodeC_checksEncoding _ _ w0 w1
    | A => exact decodeA_checksEncoding _ _ w0 w1
    | X => exact decodeX_checksEncoding _ _ w0 w1
    | F => exact decodeF_checksEncoding _ _ w0 w1

/-- Every engine instruction is one that decodes from its own words, on the engine that they are tagged for. -/
theorem checksEncoding_of_instrEngine {i : Instr} {e : Eng} (h : instrEngine i = some e) : ChecksEncoding e i := by
  have hd : encode i ≠ [] → _ := Laws.RoundTrip.decode_encode i
  unfold instrEngine at h
  cases he : encode i with
  | nil =>
    rw [he] at h
    cases h
  | cons w0 ws =>
    rw [he] at h hd
    cases h
    exact decode_checksEncoding _ _ i (hd (List.cons_ne_nil w0 ws))

/-- Settles O20: whatever the engine instruction, its meaning checks the encoding first. -/
theorem illegalInstructionTraps : Obligations.IllegalInstructionTraps := by
  unfold Obligations.IllegalInstructionTraps
  exact fun s _ _ c h hr hp hc => checksEncoding_of_instrEngine h s c hr hp hc

end Sys2Proof.Machine
end

section
/-! What an instruction of the shared control subset leaves of its engine, said once for each way of going on (R71, R103 to R107). -/
namespace Sys2Proof.Machine

/-! ### Where an engine lands -/

/-- An engine that arrives at a word: ApplyLoopEnd has acted, and the hidden loops stand below (R106, R131). -/
theorem Ctx.eng_retire_arrive {c : Ctx} {e : Eng} {l : List (Nat × Nat)} {len : Nat} {nx : Next} {ls : List Loop} {pc : Nat}
    (h : ((c.unreserve l).pushTokens l).moveTo e len nx = ((c.unreserve l).pushTokens l).arrive e ls pc) :
    (c.retire e l len nx).eng e =
      { c.eng e with loops := (applyLoopEnd ls pc).1 ++ c.hiddenLoops e, pc := (applyLoopEnd ls pc).2, prog := none } := by
  rw [Ctx.eng_retire_same, h, Ctx.eng_arrive, if_pos rfl]
  cases e <;> rfl

/-- A taken branch lands with the loops popped that do not contain its target (R107). -/
theorem Ctx.eng_retire_branch (c : Ctx) (e : Eng) (l : List (Nat × Nat)) (len w : Nat) :
    (c.retire e l len (.branch w)).eng e =
      { c.eng e with
        loops := (applyLoopEnd (popOutside (c.seenLoops e) w) w).1 ++ c.hiddenLoops e
        pc := (applyLoopEnd (popOutside (c.seenLoops e) w) w).2, prog := none } :=
  Ctx.eng_retire_arrive (by cases e <;> rfl)

/-- An instruction that replaces the loops lands with them (R106, R108). -/
theorem Ctx.eng_retire_loops (c : Ctx) (e : Eng) (l : List (Nat × Nat)) (len : Nat) (ls : List Loop) (w : Nat) :
    (c.retire e l len (.loops ls w)).eng e =
      { c.eng e with loops := (applyLoopEnd ls w).1 ++ c.hiddenLoops e, pc := (applyLoopEnd ls w).2, prog := none } :=
  Ctx.eng_retire_arrive rfl

/-- CALL and RET neither pop nor check loops (R107). -/
theorem Ctx.eng_retire_jump (c : Ctx) (e : Eng) (l : List (Nat × Nat)) (len w : Nat) :
    (c.retire e l len (.jump w)).eng e = { c.eng e with pc := w, prog := none } := by
  cases e <;> rfl

/-! ### One-word instructions that complete -/

/-- Instruction i completes on engine e, which passes its one word and is then g; of the rest of the device only tokens and event counters
have changed. -/
def State.Leaves (s : State) (i : Instr) (e : Eng) (g : Engine) : Prop :=
  ∃ t, exec i s = .next t ∧ OnlyEngine e s t
    ∧ t.ctx.eng e = { g with wc := (s.ctx.eng e).wc + 1, prog := none, passed := s.now }

section leaves
variable {s : State} {i : Instr} {e : Eng} {p : BitVec 4} {n : Needs}

/-- An instruction that transfers control and changes nothing else, landing as `ls` and `pc` say. -/
theorem State.Leaves.of_landing {nx : Next} {ls : List Loop} {pc : Nat}
    (run : exec i s = .next ((s.issued e p n 1).retired i e p n nx))
    (land : ((s.issued e p n 1).ctx.retire e (n.allPushes e p) (instrWords i) nx).eng e =
      { (s.issued e p n 1).ctx.eng e with
        loops := (applyLoopEnd ls pc).1 ++ (s.issued e p n 1).ctx.hiddenLoops e, pc := (applyLoopEnd ls pc).2, prog := none }) :
    s.Leaves i e (s.arrives e ls pc) := by
  refine ⟨_, run, OnlyEngine.retired_issued s i e p n 1 nx, ?_⟩
  rw [State.ctx_retired, land, State.hiddenLoops_issued, State.eng_issued_same]
  rfl

theorem State.Leaves.of_branch {w : Nat} (run : exec i s = .next ((s.issued e p n 1).retired i e p n (.branch w))) :
    s.Leaves i e (s.arrives e (popOutside (s.ctx.seenLoops e) w) w) :=
  .of_landing run (by rw [Ctx.eng_retire_branch, State.seenLoops_issued])

theorem State.Leaves.of_loops {ls : List Loop} {w : Nat} (run : exec i s = .next ((s.issued e p n 1).retired i e p n (.loops ls w))) :
    s.Leaves i e (s.arrives e ls w) :=
  .of_landing run (Ctx.eng_retire_loops _ _ _ _ _ _)

theorem State.Leaves.of_seq (one : instrWords i = 1) (run : exec i s = .next ((s.issued e p n 1).retired i e p n .seq)) :
    s.Leaves i e (s.arrives e (s.ctx.seenLoops e) ((s.ctx.eng e).pc + 1)) :=
  .of_landing run (by rw [Ctx.eng_retire_seq, one, State.seenLoops_issued, State.eng_issued_same])

/-- An instruction that changes its engine by f, which moves neither program counter nor loops, and goes on at the next word. -/
theorem State.Leaves.of_change {f : Engine → Engine} {g : Engine} (one : instrWords i = 1)
    (run : exec i s = .next (((s.issued e p n 1).modCtx fun c => c.modEng e f).retired i e p n .seq))
    (loops : ∀ g, (f g).loops = g.loops) (pc : ∀ g, (f g).pc = g.pc)
    (change : { f { s.ctx.eng e with wc := (s.ctx.eng e).wc + 1, passed := s.now } with
        loops := s.nextLoops e 1, pc := s.nextPc e 1, prog := none }
      = { g with wc := (s.ctx.eng e).wc + 1, prog := none, passed := s.now }) : s.Leaves i e g := by
  refine ⟨_, run, OnlyEngine.retired s i e p n 1 .seq f, ?_⟩
  have h := s.eng_retired i e p n f loops pc
  rw [one, show (encode i).length = 1 from one, State.eng_issued_same] at h
  rw [h, ← change]
  rfl

/-- An instruction that changes its engine by f and jumps. -/
theorem State.Leaves.of_jump {f : Engine → Engine} {g : Engine} {w : Nat}
    (run : exec i s = .next (((s.issued e p n 1).modCtx fun c => c.modEng e f).retired i e p n (.jump w)))
    (change : { f { s.ctx.eng e with wc := (s.ctx.eng e).wc + 1, passed := s.now } with pc := w, prog := none }
      = { g with wc := (s.ctx.eng e).wc + 1, prog := none, passed := s.now }) : s.Leaves i e g := by
  refine ⟨_, run, OnlyEngine.retired s i e p n 1 (.jump w) f, ?_⟩
  rw [State.ctx_retired, Ctx.eng_retire_jump, State.ctx_modCtx, Ctx.eng_modEng_same, State.eng_issued_same, ← change]
  rfl

end leaves

/-! ### Registers (Table 4-7) -/

theorem bits_low_shift (v : Word) : bits v 5 0 = v.toNat % 64 := by simp [bits]

theorem flagWord_slt (a b : Word) : flagWord (a.slt b) = if a.toInt < b.toInt then 1 else 0 := by
  simp [flagWord, BitVec.slt_iff_toInt_lt]

theorem flagWord_ult (a b : Word) : flagWord (a.ult b) = if a.toNat < b.toNat then 1 else 0 := by
  simp [flagWord, BitVec.ult_iff_lt, BitVec.lt_def]

/-- The spill window is not touched by issue. -/
theorem State.spill_issued (s : State) (e : Eng) (p : BitVec 4) (n : Needs) (len : Nat) :
    ((s.issued e p n len).ctx.eng e).spill = (s.ctx.eng e).spill := by rw [State.eng_issued_same]

/-- Each shared instruction with a destination writes it with the result of Table 4-7, which issue does not change. -/
theorem exec_of_registerResult {s : State} {i : Instr} {e : Eng} {p : BitVec 4} {gd : BitVec 5} {v : Word}
    (h : registerResult s i = some (e, p, gd, v)) :
    ∃ f : State → Word, exec i s = writesReg i e p gd f s ∧ ∀ n len, f (s.issued e p n len) = v := by
  unfold registerResult at h
  split at h
  all_goals cases h
  all_goals refine ⟨_, rfl, fun n len => ?_⟩
  all_goals simp only [State.reg_issued, State.spill_issued, bits_low_shift, flagWord_slt, flagWord_ult, BitVec.slt_iff_toInt_lt, sext, mulHigh]

theorem writesReg_ready {i : Instr} {e : Eng} {p : BitVec 4} {s : State} (h : Ready i e p {} s = true) (gd : BitVec 5) (f : State → Word) :
    writesReg i e p gd f s = .next (((s.issued e p {} (instrWords i)).setReg e gd (f (s.issued e p {} (instrWords i)))).retired i e p {} .seq) :=
  issueSimple_ready h

/-- A write of a register changes the registers alone. -/
theorem Engine.setReg_frame (g : Engine) (r : BitVec 5) (v : Word) : g.setReg r v = { g with g := (g.setReg r v).g } := by
  unfold Engine.setReg
  split <;> rfl

/-- Settles O1: the result, formed after issue, is written, and what else there is of the engine is as at issue. -/
theorem sharedRegisterInstructionsComplete : Obligations.SharedRegisterInstructionsComplete := by
  unfold Obligations.SharedRegisterInstructionsComplete
  intro s i e p gd v result ready
  obtain ⟨f, run, value⟩ := exec_of_registerResult result
  rw [writesReg_ready ready, value] at run
  have eng := s.eng_retired i e p {} (·.setReg gd v) (fun g => by rw [Engine.setReg_frame]) (fun g => by rw [Engine.setReg_frame])
  rw [Engine.setReg_frame, State.eng_issued_same] at eng
  exact ⟨_, run, OnlyEngine.retired s i e p {} _ .seq (·.setReg gd v),
    fun r => (congrArg (·.reg r) eng).trans (Engine.reg_setReg _ _ _ _),
    ⟨congrArg (·.pc) eng, congrArg (·.loops) eng, congrArg (·.wc) eng, congrArg (·.prog) eng⟩,
    congrArg (·.ras) eng, congrArg (·.spill) eng⟩

/-! ### Control transfer -/

section control
variable {s : State} {t : Eng} {p : BitVec 4}

/-! Issue moves neither the program counter nor the return store. -/

theorem State.pc_issued (s : State) (e : Eng) (p : BitVec 4) (n : Needs) (len : Nat) :
    ((s.issued e p n len).ctx.eng e).pc = (s.ctx.eng e).pc := by rw [State.eng_issued_same]

theorem State.ras_issued (s : State) (e : Eng) (p : BitVec 4) (n : Needs) (len : Nat) :
    ((s.issued e p n len).ctx.eng e).ras = (s.ctx.eng e).ras := by rw [State.eng_issued_same]

theorem State.target_issued (s : State) (e : Eng) (p : BitVec 4) (n : Needs) (len : Nat) {w : Nat} (off : BitVec w) :
    (s.issued e p n len).target e off = ((s.ctx.eng e).pc + off.toInt).toNat := by
  rw [State.target, State.pc_issued]

/-- A compare-branch whose condition holds of its registers or not (R104). -/
theorem compareBranch_leaves {i : Instr} {gx gy : BitVec 5} {off : BitVec 9} {cond : Word → Word → Bool}
    (meaning : exec i s = compareBranch i t p gx gy off cond s) (one : instrWords i = 1) (ready : Ready i t p {} s = true) :
    s.Leaves i t (s.branchesTo t (cond (s.reg t gx) (s.reg t gy)) off.toInt) := by
  have run := meaning.trans (issueSimple_ready ready)
  rw [one, Act.bind_ok (Act.get_run _), State.reg_issued, State.reg_issued, State.target_issued] at run
  unfold State.branchesTo
  by_cases taken : cond (s.reg t gx) (s.reg t gy) = true
  · rw [if_pos taken] at run ⊢
    exact .of_branch run
  · rw [if_neg taken] at run ⊢
    exact .of_seq (p := p) (n := {}) one (run.trans (by rw [State.retired, one]; rfl))

theorem exec_b_leaves {off : BitVec 19} (ready : Ready (.b t p off) t p {} s = true) :
    s.Leaves (.b t p off) t (s.branchesTo t true off.toInt) := by
  have run : exec (.b t p off) s = _ := issueSimple_ready ready
  rw [Act.bind_ok (Act.get_run _), State.target_issued] at run
  exact .of_branch run

theorem exec_nop_leaves (ready : Ready (.nop t p) t p {} s = true) :
    s.Leaves (.nop t p) t (s.arrives t (s.ctx.seenLoops t) ((s.ctx.eng t).pc + 1)) :=
  .of_seq rfl (issueSimple_ready ready)

theorem exec_call_leaves {off : BitVec 19} (ready : Ready (.call t p off) t p {} s = true) (room : (s.ctx.eng t).ras.length < 16) :
    s.Leaves (.call t p off) t { s.ctx.eng t with
      pc := ((s.ctx.eng t).pc + off.toInt).toNat, ras := (s.ctx.eng t).ras ++ [((s.ctx.eng t).pc + 1) % 2 ^ 14] } := by
  have pre : trapIf (decide (16 ≤ (s.ctx.eng t).ras.length)) 3 1 0 s = .ok ((), s) := by
    rw [decide_eq_false (by omega), Act.trapIf_false]
  have run : exec (.call t p off) s = _ := issue_ready (n := fun _ => {}) ready pre
  rw [Act.bind_ok (Act.get_run _), Act.bind_ok (Act.set_run _ _), State.target_issued] at run
  exact .of_jump run rfl

theorem exec_ret_leaves {w : Nat} (ready : Ready (.ret t p) t p {} s = true) (last : (s.ctx.eng t).ras.getLast? = some w)
    (first : s.cc.firstWord w = true) :
    s.Leaves (.ret t p) t { s.ctx.eng t with pc := w, ras := (s.ctx.eng t).ras.dropLast } := by
  have pre : trapIf (s.ctx.eng t).ras.isEmpty 3 2 0 s = .ok ((), s) := by
    have some : (s.ctx.eng t).ras.isEmpty = false := by
      cases h : (s.ctx.eng t).ras with
      | nil => rw [h] at last; cases last
      | cons => rfl
    rw [some, Act.trapIf_false]
  have run : exec (.ret t p) s = _ := issue_ready (n := fun _ => {}) ready pre
  rw [Act.bind_ok (Act.get_run _)] at run
  simp only [State.ras_issued, last, Option.getD_some, State.firstWord_issued, first, Bool.not_true, Act.bind_ok (Act.trapIf_false _ _ _ _),
    Act.bind_ok (Act.set_run _ _)] at run
  exact .of_jump run rfl

theorem exec_brkl_leaves {l : Loop} {r : List Loop} (ready : Ready (.brkl t p) t p {} s = true) (seen : s.ctx.seenLoops t = l :: r) :
    s.Leaves (.brkl t p) t (s.arrives t r l.last) := by
  have pre : trapIf (s.ctx.seenLoops t).isEmpty 4 2 0 s = .ok ((), s) := by rw [seen]; rfl
  have run : exec (.brkl t p) s = _ := issue_ready (n := fun _ => {}) ready pre
  rw [Act.bind_ok (Act.get_run _), State.seenLoops_issued, seen] at run
  exact .of_loops run

/-- A hardware loop with a place for it, or with nothing to run, whose end word is a first word (R106, R108). -/
theorem hardwareLoop_leaves {i : Instr} {off : BitVec 9} {trip : State → Nat} {n : Nat} {g : Engine}
    (meaning : exec i s = hardwareLoop i t p off trip s) (one : instrWords i = 1) (ready : Ready i t p {} s = true)
    (before : trip s = n) (after : ∀ n' len, trip (s.issued t p n' len) = n) (h : s.loopsTo t n off.toInt = some g) : s.Leaves i t g := by
  unfold State.loopsTo at h
  dsimp only at h
  split at h
  case isFalse => cases h
  rename_i ok
  obtain ⟨room, first⟩ := ok
  have pre : trapIf (decide (4 ≤ (s.ctx.eng t).loops.length) && decide (trip s ≠ 0)) 4 1 0 s = .ok ((), s) := by
    have fits : (decide (4 ≤ (s.ctx.eng t).loops.length) && decide (trip s ≠ 0)) = false := by
      rw [before, Bool.and_eq_false_iff, decide_eq_false_iff_not, decide_eq_false_iff_not]
      omega
    rw [fits, Act.trapIf_false]
  have run := meaning.trans (issue_ready (n := fun _ => {}) ready pre)
  rw [one, Act.bind_ok (Act.get_run _)] at run
  simp only [State.pc_issued, State.target_issued, State.firstWord_issued, first, Bool.not_true, Act.bind_ok (Act.trapIf_false _ _ _ _),
    State.seenLoops_issued, after] at run
  cases h
  by_cases none : n = 0
  · rw [if_pos none] at run ⊢
    exact .of_loops run
  · rw [if_neg none] at run ⊢
    exact .of_loops run

/-! ### Spill memory and the return store -/

theorem exec_sps_leaves {gd : BitVec 5} {k : BitVec 14} (ready : Ready (.sps t p gd k) t p {} s = true) :
    s.Leaves (.sps t p gd k) t { s.arrives t (s.ctx.seenLoops t) ((s.ctx.eng t).pc + 1) with
      spill := (s.ctx.eng t).spill.set 0 k.toNat (s.reg t gd) } :=
  .of_change rfl (issueSimple_ready ready) (fun _ => rfl) (fun _ => rfl) rfl

theorem exec_svra_leaves {n : BitVec 5} {k : BitVec 14} (ready : Ready (.svra t p n k) t p {} s = true)
    (enough : n.toNat ≤ (s.ctx.eng t).ras.length) :
    s.Leaves (.svra t p n k) t { s.arrives t (s.ctx.seenLoops t) ((s.ctx.eng t).pc + 1) with
      spill := (s.ctx.eng t).spill.setList 0 k.toNat (((s.ctx.eng t).ras.take n.toNat).map fun a => BitVec.ofNat 64 (a % 2 ^ 14))
      ras := (s.ctx.eng t).ras.drop n.toNat } := by
  have pre : trapIf (decide ((s.ctx.eng t).ras.length < n.toNat)) 3 2 0 s = .ok ((), s) := by
    rw [decide_eq_false (by omega), Act.trapIf_false]
  exact .of_change rfl (issue_ready (n := fun _ => {}) ready pre) (fun _ => rfl) (fun _ => rfl) rfl

theorem exec_ldra_leaves {n : BitVec 5} {k : BitVec 14} (ready : Ready (.ldra t p n k) t p {} s = true)
    (room : (s.ctx.eng t).ras.length + n.toNat ≤ 16) :
    s.Leaves (.ldra t p n k) t { s.arrives t (s.ctx.seenLoops t) ((s.ctx.eng t).pc + 1) with
      ras := (upTo n.toNat fun i => bits ((s.ctx.eng t).spill.get 0 (k.toNat + i)) 13 0) ++ (s.ctx.eng t).ras } := by
  have pre : trapIf (decide (16 < (s.ctx.eng t).ras.length + n.toNat)) 3 1 0 s = .ok ((), s) := by
    rw [decide_eq_false (by omega), Act.trapIf_false]
  exact .of_change rfl (issue_ready (n := fun _ => {}) ready pre) (fun _ => rfl) (fun _ => rfl) rfl

end control

theorem bits_word (v : Word) : bits v 31 0 = v.toNat % 2 ^ 32 := by simp [bits]

theorem not_slt_eq (a b : Word) : (!a.slt b) = decide (b.toInt ≤ a.toInt) := by
  rw [BitVec.slt_eq_decide, ← decide_not, decide_eq_decide]
  exact not_lt

theorem not_ult_eq (a b : Word) : (!a.ult b) = decide (b.toNat ≤ a.toNat) := by
  rw [BitVec.ult_eq_decide, ← decide_not, decide_eq_decide]
  exact not_lt

/-- Each control or spill instruction that the rules let complete leaves the engine that they name. -/
theorem leaves_of_engineResult {s : State} {i : Instr} {e : Eng} {p : BitVec 4} {g : Engine} (h : engineResult s i = some (e, p, g))
    (ready : Ready i e p {} s = true) : s.Leaves i e g := by
  cases i with
  | nop t p => cases h; exact exec_nop_leaves ready
  | b t p off => cases h; exact exec_b_leaves ready
  | beq t p gx gy off => cases h; exact compareBranch_leaves rfl rfl ready
  | bne t p gx gy off => cases h; exact compareBranch_leaves rfl rfl ready
  | blt t p gx gy off => cases h; exact compareBranch_leaves (cond := fun x y => x.slt y) rfl rfl ready
  | bge t p gx gy off =>
    cases h
    rw [← not_slt_eq]
    exact compareBranch_leaves (cond := fun x y => !x.slt y) rfl rfl ready
  | blo t p gx gy off => cases h; exact compareBranch_leaves (cond := fun x y => x.ult y) rfl rfl ready
  | bhs t p gx gy off =>
    cases h
    rw [← not_ult_eq]
    exact compareBranch_leaves (cond := fun x y => !x.ult y) rfl rfl ready
  | call t p off =>
    obtain ⟨room, h⟩ := Option.ite_none_right_eq_some.1 h
    cases h
    exact exec_call_leaves ready room
  | ret t p =>
    unfold engineResult at h
    dsimp only at h
    split at h
    case h_2 => cases h
    obtain ⟨first, h⟩ := Option.ite_none_right_eq_some.1 h
    cases h
    exact exec_ret_leaves ready ‹_› first
  | brkl t p =>
    unfold engineResult at h
    dsimp only at h
    split at h
    case h_2 => cases h
    cases h
    exact exec_brkl_leaves ready ‹_›
  | loop t p ga off =>
    obtain ⟨g, loops, h⟩ := Option.map_eq_some_iff.1 h
    cases h
    exact hardwareLoop_leaves (trip := fun s => bits (s.reg e ga) 31 0) rfl rfl ready (bits_word _)
      (fun _ _ => by rw [State.reg_issued, bits_word]) loops
  | loopi t p n off =>
    obtain ⟨g, loops, h⟩ := Option.map_eq_some_iff.1 h
    cases h
    exact hardwareLoop_leaves (trip := fun _ => n.toNat) rfl rfl ready rfl (fun _ _ => rfl) loops
  | sps t p gd k => cases h; exact exec_sps_leaves ready
  | svra t p n k =>
    obtain ⟨enough, h⟩ := Option.ite_none_right_eq_some.1 h
    cases h
    exact exec_svra_leaves ready enough
  | ldra t p n k =>
    obtain ⟨room, h⟩ := Option.ite_none_right_eq_some.1 h
    cases h
    exact exec_ldra_leaves ready room
  | _ => cases h

/-- Settles O2: whatever the instruction, its engine lands where the rules say, and issue and retirement change nothing else. -/
theorem controlTransfersComplete : Obligations.ControlTransfersComplete := by
  unfold Obligations.ControlTransfersComplete
  exact fun s i e p g h ready => leaves_of_engineResult h ready

end Sys2Proof.Machine
end

section
/-! Checks that come before the waits of an instruction, and the waits for tokens (R92, R103, R108, R113, R294). -/
namespace Sys2Proof.Machine

/-! ### An instruction that begins, and does not issue -/

section begins
variable {i : Instr} {e : Eng} {p : BitVec 4} {n : State → Needs} {pre : Act Unit} {body : Prog → Act Next} {s : State}

@[simp] theorem State.keepFills_self (s : State) : s.keepFills s.fills = s := by
  rw [State.keepFills, List.drop_length]
  rfl

/-- An instruction whose check of the state fails stops before its waits (R92). -/
theorem issue_refused (run : s.cc.runnable e = true) (idle : (s.ctx.eng e).prog = none) (legal : encodingCause i s.cc e = none) {x : Stop}
    (refused : pre s = .error (x, s.fills)) : issue i e p n pre body s = .next (s.stopped e x) := by
  unfold issue issueOn
  rw [if_neg (by simp [run]), idle]
  simp only [legal, refused, State.keepFills_self]

/-- An instruction whose waits are not met is noted to wait, and takes nothing (R92). -/
theorem issue_waits (run : s.cc.runnable e = true) (idle : (s.ctx.eng e).prog = none) (legal : encodingCause i s.cc e = none)
    {x : Unit × State} (passes : pre s = .ok x) {w : Wait} (waits : gateWaits s.ctx e p (n s) = some w) :
    issue i e p n pre body s = .next (s.waitNote e w) := by
  unfold issue issueOn
  rw [if_neg (by simp [run]), idle]
  simp only [legal, passes, waits]

end begins

/-- A check that fails. -/
theorem trapIf_run {b : Bool} (h : b = true) (c n : Nat) (v : Word) (s : State) :
    trapIf b c n v s = .error (.trap c n v, s.fills) := by
  rw [h, Act.trapIf_true]

/-! ### Tiles (R294) -/

/-- A tile that is not HELD is cause 1 of F. -/
theorem needsHeld_error {s : State} {zt : BitVec 7} (h : (s.ctx.tile zt.toNat).st ≠ .held) :
    needsHeld zt s = .error (.trap 9 1 0, s.fills) := trapIf_run (decide_eq_true h) 9 1 0 s

theorem needsHeld_ok {s : State} {zt : BitVec 7} (h : (s.ctx.tile zt.toNat).st = .held) : needsHeld zt s = .ok ((), s) := by
  show trapIf (decide ((s.ctx.tile zt.toNat).st ≠ .held)) 9 1 0 s = _
  rw [decide_eq_false (not_not.2 h), Act.trapIf_false]

/-- Rows beyond row 63 are cause 2. -/
theorem needsRows_error {s : State} {gs : BitVec 5} {off n1 : BitVec 6} (h : 64 < s.row0 gs off + n1.toNat + 1) (k : Nat) :
    needsRows gs off n1 k s = .error (.trap 9 2 0, s.fills) :=
  trapIf_run (Bool.or_eq_true_iff.2 (.inr (decide_eq_true h))) 9 2 0 s

/-- The first check that fails is the one that traps. -/
theorem Act.bind_error {α β : Type} {x : Act α} {f : α → Act β} {s : State} {r : Stopped} (h : x s = .error r) : (x >>= f) s = .error r := by
  rw [Act.bind_run, h]

/-- Settles O3: each check fails before the waits, and its instruction stops there. -/
theorem limitChecksTrap : Obligations.LimitChecksTrap := by
  unfold Obligations.LimitChecksTrap
  refine ⟨fun s i e c n run idle legal limit => ?_, fun s p gs q zt ty rnd rel sb n1 off i hi run idle legal =>
    ⟨fun free => ?_, fun held rows hr => ?_⟩⟩
  · cases i with
    | call t p off =>
      obtain ⟨rfl, full, rfl, rfl⟩ := limit
      exact issue_refused run idle legal (trapIf_run (decide_eq_true full) 3 1 0 s)
    | ret t p =>
      obtain ⟨rfl, empty, rfl, rfl⟩ := limit
      exact issue_refused run idle legal (trapIf_run (List.isEmpty_iff.2 empty) 3 2 0 s)
    | brkl t p =>
      obtain ⟨rfl, none, rfl, rfl⟩ := limit
      exact issue_refused run idle legal (trapIf_run (List.isEmpty_iff.2 none) 4 2 0 s)
    | loop t p ga off =>
      obtain ⟨rfl, full, runs, rfl, rfl⟩ := limit
      refine issue_refused run idle legal (trapIf_run ?_ 4 1 0 s)
      rw [← bits_word] at runs
      simp [full, runs]
    | loopi t p k off =>
      obtain ⟨rfl, full, runs, rfl, rfl⟩ := limit
      refine issue_refused run idle legal (trapIf_run ?_ 4 1 0 s)
      simpa [full, ← BitVec.toNat_inj] using runs
    | svra t p k off =>
      obtain ⟨rfl, few, rfl, rfl⟩ := limit
      exact issue_refused run idle legal (trapIf_run (decide_eq_true few) 3 2 0 s)
    | ldra t p k off =>
      obtain ⟨rfl, many, rfl, rfl⟩ := limit
      exact issue_refused run idle legal (trapIf_run (decide_eq_true many) 3 1 0 s)
    | _ => exact limit.elim
  · have check := needsHeld_error free
    simp only [List.mem_cons, List.not_mem_nil, or_false] at hi
    obtain rfl | rfl | rfl | rfl | rfl := hi
    · exact issue_refused run idle legal (Act.bind_error check)
    · exact issue_refused run idle legal (Act.bind_error check)
    · exact issue_refused run idle legal check
    · exact issue_refused run idle legal check
    · exact issue_refused run idle legal check
  · have check : ∀ k, (do needsHeld zt; needsRows gs off n1 k : Act Unit) s = .error (.trap 9 2 0, s.fills) := fun k => by
      rw [Act.bind_ok (needsHeld_ok held)]
      exact needsRows_error rows k
    simp only [List.mem_cons, List.not_mem_nil, or_false] at hr
    obtain rfl | rfl := hr
    · exact issue_refused run idle legal (check _)
    · exact issue_refused run idle legal (check _)

end Sys2Proof.Machine
end

section
/-! Tokens: what the FIFOs and reservations hold after an instruction, and when one waits for them (R90 to R94, R114). -/
namespace Sys2Proof.Machine

/-! ### Sums over a list of tokens -/

theorem total_cons (x : Nat × Nat) (l : List (Nat × Nat)) (f : Nat) : total (x :: l) f = (if x.1 = f then x.2 else 0) + total l f := by
  unfold total
  by_cases h : x.1 = f
  · rw [List.filter_cons_of_pos (by simpa using h), if_pos h, List.map_cons, List.sum_cons]
  · rw [List.filter_cons_of_neg (by simpa using h), if_neg h, Nat.zero_add]

/-- A FIFO to which a list gives tokens is named in it. -/
theorem exists_mem_of_total_ne_zero {l : List (Nat × Nat)} {f : Nat} (h : total l f ≠ 0) : ∃ x ∈ l, x.1 = f := by
  by_contra none
  simp only [not_exists, not_and] at none
  refine h ?_
  rw [total, List.filter_eq_nil_iff.2 fun x hx => by simpa using none x hx]
  rfl

/-- What a FIFO holds after a list of tokens is pushed, or of places reserved. -/
theorem get_foldl_add (l : List (Nat × Nat)) (m : SMap Nat) (f : Nat) :
    (l.foldl (fun m x => m.set 0 x.1 (m.get 0 x.1 + x.2)) m).get 0 f = m.get 0 f + total l f := by
  induction l generalizing m with
  | nil => rfl
  | cons x l ih =>
    rw [List.foldl_cons, ih, SMap.get_set, total_cons]
    by_cases h : f = x.1
    · rw [if_pos h, if_pos h.symm, h, Nat.add_assoc]
    · rw [if_neg h, if_neg (Ne.symm h), Nat.zero_add]

/-- What a FIFO holds after a list of tokens is popped, or of places given back. -/
theorem get_foldl_sub (l : List (Nat × Nat)) (m : SMap Nat) (f : Nat) :
    (l.foldl (fun m x => m.set 0 x.1 (m.get 0 x.1 - x.2)) m).get 0 f = m.get 0 f - total l f := by
  induction l generalizing m with
  | nil => rfl
  | cons x l ih =>
    rw [List.foldl_cons, ih, SMap.get_set, total_cons]
    by_cases h : f = x.1
    · rw [if_pos h, if_pos h.symm, h, Nat.sub_sub]
    · rw [if_neg h, if_neg (Ne.symm h), Nat.zero_add]

/-! ### Issue and retirement -/

theorem Ctx.fifo_retire (c : Ctx) (e : Eng) (l : List (Nat × Nat)) (len : Nat) (nx : Next) (f : Nat) :
    (c.retire e l len nx).fifo.get 0 f = c.fifo.get 0 f + total l f := by
  obtain ⟨g, shape⟩ := c.retire_shape e l len nx
  rw [shape]
  exact get_foldl_add l c.fifo f

theorem Ctx.resv_retire (c : Ctx) (e : Eng) (l : List (Nat × Nat)) (len : Nat) (nx : Next) (f : Nat) :
    (c.retire e l len nx).resv.get 0 f = c.resv.get 0 f - total l f := by
  obtain ⟨g, shape⟩ := c.retire_shape e l len nx
  rw [shape]
  exact get_foldl_sub l c.resv f

theorem State.fifo_issued (s : State) (e : Eng) (p : BitVec 4) (n : Needs) (len f : Nat) :
    (s.issued e p n len).ctx.fifo.get 0 f = s.ctx.fifo.get 0 f - total (n.allPops e p) f := by
  rw [State.ctx_issued]
  cases e <;> exact get_foldl_sub _ _ f

theorem State.resv_issued (s : State) (e : Eng) (p : BitVec 4) (n : Needs) (len f : Nat) :
    (s.issued e p n len).ctx.resv.get 0 f = s.ctx.resv.get 0 f + total (n.allPushes e p) f := by
  rw [State.ctx_issued]
  cases e <;> exact get_foldl_add _ _ f

/-- The FIFOs hold the tokens that an instruction pops once its waits are met. -/
theorem Ctx.total_le_of_tokensReady {c : Ctx} {pops pushes : List (Nat × Nat)} (h : c.tokensReady pops pushes = true) (f : Nat) :
    total pops f ≤ c.fifo.get 0 f := by
  by_cases none : total pops f = 0
  · omega
  · obtain ⟨x, hx, rfl⟩ := exists_mem_of_total_ne_zero none
    rw [Ctx.tokensReady, Bool.and_eq_true] at h
    simpa using List.all_eq_true.1 h.1 x hx

/-- Too few tokens in a FIFO that is popped, or no room in one that is pushed to. -/
theorem Ctx.not_tokensReady {c : Ctx} {pops pushes : List (Nat × Nat)}
    (h : (∃ f, c.fifo.get 0 f < total pops f) ∨ ∃ f, 63 < c.fifo.get 0 f + c.resv.get 0 f + total pushes f ∧ total pushes f ≠ 0) :
    c.tokensReady pops pushes = false := by
  by_contra ready
  rw [Bool.not_eq_false] at ready
  obtain ⟨f, few⟩ | ⟨f, full, some⟩ := h
  · have := Ctx.total_le_of_tokensReady ready f
    omega
  · obtain ⟨x, hx, rfl⟩ := exists_mem_of_total_ne_zero some
    rw [Ctx.tokensReady, Bool.and_eq_true] at ready
    have := of_decide_eq_true (List.all_eq_true.1 ready.2 x hx)
    omega

/-- An instruction that can issue finds its tokens. -/
theorem tokensReady_of_ready {i : Instr} {e : Eng} {p : BitVec 4} {n : Needs} {s : State} (h : Ready i e p n s = true) :
    s.ctx.tokensReady (n.allPops e p) (n.allPushes e p) = true := by
  obtain ⟨-, -, -, gate, -⟩ := Ready.iff.1 h
  by_contra few
  rw [Bool.not_eq_true] at few
  unfold gateWaits at gate
  dsimp only at gate
  rw [few] at gate
  split at gate
  · cases gate
  · cases gate

/-- The wait of an instruction that needs tokens alone: behind an NGO that waits, C waits for the array (R141). -/
theorem gateWaits_tokens {c : Ctx} {e : Eng} {p : BitVec 4} {pops pushes : List (Nat × Nat)}
    (h : c.tokensReady (({ pops, pushes } : Needs).allPops e p) (({ pops, pushes } : Needs).allPushes e p) = false) :
    gateWaits c e p { pops, pushes } = some (if e = .C ∧ c.ar.start.isSome = true then .array else .token) := by
  unfold gateWaits
  dsimp only
  rw [h]
  by_cases behind : e = .C ∧ c.ar.start.isSome = true
  · rw [if_pos behind, if_pos (by simp [behind])]
  · rw [if_neg behind, if_neg (by simpa using behind)]
    rfl

/-! ### NOP, WAITT and SIGT -/

/-- These instructions need tokens alone, and do nothing beside moving them. -/
theorem exec_of_tokenResult {i : Instr} {e : Eng} {p : BitVec 4} {n : Needs} (h : tokenResult i = some (e, p, n)) :
    n = { pops := n.pops, pushes := n.pushes } ∧ instrWords i = 1
      ∧ ∀ s, exec i s = issue i e p (fun _ => n) (pure ()) (fun _ => pure .seq) s := by
  unfold tokenResult at h
  split at h
  all_goals cases h
  all_goals exact ⟨rfl, rfl, fun _ => rfl⟩

/-- Settles O4: what issue pops and reserves, retirement pushes and gives back; without its tokens an instruction is noted to wait. -/
theorem tokenInstructionsComplete : Obligations.TokenInstructionsComplete := by
  unfold Obligations.TokenInstructionsComplete
  refine ⟨fun s i e p n tokens ready => ?_, fun s i e p n tokens run idle legal few => ?_⟩
  · obtain ⟨-, one, meaning⟩ := exec_of_tokenResult tokens
    have done := (meaning s).trans (issue_ready (n := fun _ => n) (x := ((), s)) ready rfl)
    rw [one] at done
    have eng : ((s.issued e p n 1).retired i e p n .seq).ctx.eng e = { s.ctx.eng e with
        loops := s.nextLoops e 1, pc := s.nextPc e 1, wc := (s.ctx.eng e).wc + 1, prog := none, passed := s.now } := by
      rw [State.ctx_retired, Ctx.eng_retire_seq, one, State.seenLoops_issued, State.hiddenLoops_issued, State.eng_issued_same]
      rfl
    refine ⟨_, done.trans ?_, OnlyEngine.retired_issued s i e p n 1 .seq, ⟨congrArg (·.pc) eng, congrArg (·.loops) eng, congrArg (·.wc) eng,
      congrArg (·.prog) eng⟩, fun f => ?_, ?_⟩
    · rw [State.retired, one]
      rfl
    · have enough := Ctx.total_le_of_tokensReady (tokensReady_of_ready ready) f
      rw [State.ctx_retired, Ctx.fifo_retire, Ctx.resv_retire, State.fifo_issued, State.resv_issued]
      omega
    · obtain ⟨-, idle, -⟩ := Ready.iff.1 ready
      rw [eng, ← idle]
  · obtain ⟨only, -, meaning⟩ := exec_of_tokenResult tokens
    rw [only] at few
    rw [meaning]
    exact issue_waits run idle legal (x := ((), s)) rfl (by rw [only]; exact gateWaits_tokens (Ctx.not_tokensReady few))

end Sys2Proof.Machine
end

section
/-! BTK and QDROP: the entries that they take from a queue (R105, R115). -/
namespace Sys2Proof.Machine

theorem State.modCtx_congr {s : State} {f g : Ctx → Ctx} (h : f s.ctx = g s.ctx) : s.modCtx f = s.modCtx g :=
  congrArg (fun x : Ctx => ({ s with cores := s.cores.put s.cur { s.core s.cur with ctx := x } } : State)) h

/-- Removing the entries at the head of a queue leaves those behind them. -/
theorem State.popQueue_append {s : State} {q n : Nat} {gone rest : List Slot} (h : s.ctx.queue q = gone ++ rest) (count : gone.length = n) :
    s.popQueue q n = s.modCtx fun c => c.setQueue q rest :=
  State.modCtx_congr (by rw [h, ← count, List.drop_left])

/-! ### BTK -/

section btk
variable {s : State} {t : Eng} {p : BitVec 4} {q : BitVec 5} {off : BitVec 14} {x : Slot} {r : List Slot}
  (ready : Ready (.btk t p q off) t p { tests := [(q.toNat, 1)] } s = true) (queue : s.ctx.queue q.toNat = x :: r)
include ready queue

/-- A terminal head is removed, and the branch is taken. -/
theorem exec_btk_terminal (terminal : x.term = true) : exec (.btk t p q off) s = .next
    (((s.issued t p { tests := [(q.toNat, 1)] } 1).modCtx fun c => c.setQueue q.toNat r).retired (.btk t p q off) t p
      { tests := [(q.toNat, 1)] } (.branch ((s.ctx.eng t).pc + off.toInt).toNat)) := by
  have run : exec (.btk t p q off) s = _ := issue_ready (n := fun _ => { tests := [(q.toNat, 1)] }) (x := ((), s)) ready rfl
  rw [Act.bind_ok (Act.get_run _), State.queue_issued, queue, List.head?_cons, Option.map_some, Option.getD_some, if_pos terminal,
    Act.bind_ok (Act.set_run _ _), State.target_issued,
    State.popQueue_append (gone := [x]) (n := 1) (rest := r) ((State.queue_issued _ _ _ _ _ _).trans queue) rfl] at run
  exact run

/-- A data head stays, and the engine goes on. -/
theorem exec_btk_data (data : x.term = false) : exec (.btk t p q off) s = .next
    ((s.issued t p { tests := [(q.toNat, 1)] } 1).retired (.btk t p q off) t p { tests := [(q.toNat, 1)] } .seq) := by
  have run : exec (.btk t p q off) s = _ := issue_ready (n := fun _ => { tests := [(q.toNat, 1)] }) (x := ((), s)) ready rfl
  rw [Act.bind_ok (Act.get_run _), State.queue_issued, queue, List.head?_cons, Option.map_some, Option.getD_some,
    if_neg (by rw [data]; exact Bool.false_ne_true)] at run
  exact run

end btk

/-! ### QDROP -/

/-- With a count, that many entries go. -/
theorem dropRun_count (gone rest : List Slot) {budget : Nat} (enough : gone.length ≤ budget) :
    dropRun (gone ++ rest) (some gone.length) budget = (gone.length, true) := by
  induction gone generalizing budget with
  | nil => cases rest <;> rfl
  | cons x l ih =>
    obtain ⟨b, rfl⟩ := Nat.exists_eq_add_of_le' (Nat.one_le_of_lt enough)
    have step := ih (budget := b) (by simpa using enough)
    simp [dropRun, step]

/-- Without one, those through the first terminal entry go. -/
theorem dropRun_terminal {l : List Slot} (data : ∀ y ∈ l, y.term = false) {x : Slot} (terminal : x.term = true) (rest : List Slot) {budget : Nat}
    (enough : l.length < budget) : dropRun (l ++ x :: rest) none budget = (l.length + 1, true) := by
  induction l generalizing budget with
  | nil =>
    obtain ⟨b, rfl⟩ := Nat.exists_eq_add_of_le' (Nat.one_le_of_lt enough)
    simp [dropRun, terminal]
  | cons y l ih =>
    obtain ⟨b, rfl⟩ := Nat.exists_eq_add_of_le' (Nat.one_le_of_lt enough)
    have step := ih (fun z hz => data z (List.mem_cons_of_mem _ hz)) (budget := b) (by simpa using enough)
    simp [dropRun, data y List.mem_cons_self, step]

/-- The entries that QDROP discards are those that it is to discard, whatever stands filled behind them. -/
theorem dropRun_of_gone {k : BitVec 14} {gone : List Slot}
    (h : if k = 0 then ∃ l x, gone = l ++ [x] ∧ x.term = true ∧ ∀ y ∈ l, y.term = false else gone.length = k.toNat) (rest : List Slot) :
    dropRun (gone ++ rest) (if k = 0 then none else some k.toNat) (gone ++ rest).length = (gone.length, true) := by
  by_cases zero : k = 0
  · rw [if_pos zero] at h ⊢
    obtain ⟨l, x, rfl, terminal, data⟩ := h
    rw [List.append_assoc, List.length_append (as := l) (bs := [x])]
    exact dropRun_terminal data terminal rest (by simp)
  · rw [if_neg zero] at h ⊢
    rw [← h]
    exact dropRun_count gone rest (by simp)

theorem Ctx.filledRun_append {c : Ctx} {q : Nat} {gone rest : List Slot} (h : c.queue q = gone ++ rest) (full : ∀ x ∈ gone, x.full = true) :
    c.filledRun q = gone ++ rest.takeWhile (·.full) := by
  rw [Ctx.filledRun, h, List.takeWhile_append_of_pos full]

theorem exec_qdrop {s : State} {t : Eng} {p : BitVec 4} {q : BitVec 5} {k : BitVec 14} {gone rest : List Slot}
    (ready : Ready (.qdrop t p q k) t p {} s = true) (budget : s.budget = none) (queue : s.ctx.queue q.toNat = gone ++ rest)
    (full : ∀ x ∈ gone, x.full = true)
    (h : if k = 0 then ∃ l x, gone = l ++ [x] ∧ x.term = true ∧ ∀ y ∈ l, y.term = false else gone.length = k.toNat) :
    exec (.qdrop t p q k) s = .next
      (((s.issued t p {} 1).modCtx fun c => c.setQueue q.toNat rest).retired (.qdrop t p q k) t p {} .seq) := by
  have run : exec (.qdrop t p q k) s = _ := issue_ready (n := fun _ => {}) (x := ((), s)) ready rfl
  have issued : (s.issued t p {} 1).ctx.queue q.toNat = gone ++ rest := (State.queue_issued s t p {} 1 q.toNat).trans queue
  have dropped := dropRun_of_gone h (rest.takeWhile (·.full))
  rw [← Ctx.filledRun_append issued full] at dropped
  rw [show instrWords (.qdrop t p q k) = 1 from rfl, Act.bind_ok (Act.get_run _)] at run
  simp only [State.issued_budget, budget, Option.getD_none, if_true, dropped, Bool.not_true, Bool.and_false, Bool.false_and,
    Act.bind_ok (Act.waitIf_false _ _), Act.bind_ok (Act.set_run _ _), State.popQueue_append issued rfl] at run
  exact run

/-- Settles O5: BTK by its head; QDROP by the run of filled entries, of which the first are those that go. -/
theorem queueTestsComplete : Obligations.QueueTestsComplete := by
  unfold Obligations.QueueTestsComplete
  refine ⟨fun s t p q off x r ready queue => ?_, fun s t p q k gone rest ready budget queue full h => exec_qdrop ready budget queue full h⟩
  cases kind : x.term with
  | true => exact exec_btk_terminal ready queue kind
  | false => exact exec_btk_data ready queue kind

end Sys2Proof.Machine
end

section
/-! YIELD without a save slot (R335, R364), and a device whose cores are not listed in order. -/
namespace Sys2Proof.Machine

/-- YIELD looks for its save slot once it has issued: a segment that finds none goes on, and NOSLOT is set. -/
theorem exec_yield_noSlot {s : State} {p : BitVec 4} (ready : Ready (.yield p) .C p {} s = true) (segment : s.work.kind = .segment)
    (none : (s.issued .C p {} 1).slotFor s.work.part s.leaveNo = none) : exec (.yield p) s = .next
      (((s.issued .C p {} 1).modPart s.work.part fun q => { q with savecfg := putBits q.savecfg 16 16 1 }).retired (.yield p) .C p {} .seq) := by
  have run : exec (.yield p) s = _ := issueSimple_ready ready
  rw [show instrWords (.yield p) = 1 from rfl, Act.bind_ok (Act.get_run _)] at run
  simp only [State.work_issued, segment, State.issued_leaveNo, none, Option.isSome_none, Bool.false_eq_true, if_false,
    Act.bind_ok (Act.modify_run _ _)] at run
  exact run

/-- Work that begins to leave its core without a save slot takes its place among those that wait for one (R364). -/
theorem State.startLeave_noSlot {s : State} {k : Nat} {w : Work} (work : (s.core k).work = some w)
    (none : s.slotFor w.part s.leaveNo = none) (st : OffState) : (s.startLeave k st).leaveNo = s.leaveNo + 1 := by
  unfold State.startLeave
  simp only [work, none, State.modPart_leaveNo]

/-- A core whose segment replays while it waits for a save slot. -/
def replayingCore : Core := { work := some { id := 1, replay := some 0 }, leaving := some .saved }

/-- That core is core 0 of a device that lists core 1 before it, and whose partition 0 has two save slots, both free. -/
def unorderedState : State := { cores := [(1, {}), (0, replayingCore)], leaveNo := 1, parts := [(0, { savecfg := 2 })] }

/-- Before YIELD issues, its core has made one claim to the two slots. -/
theorem unorderedState_slot : (unorderedState.slotFor 0 1).isSome = true := by decide +kernel

/-- After its issue core 0 is listed twice, in its place in the order and where it stood, and its claim counts twice. -/
theorem unorderedState_noSlot : (unorderedState.issued .C 0 {} 1).slotFor 0 1 = none := by decide +kernel

theorem unorderedState_retired_noSlot : ((unorderedState.issued .C 0 {} 1).retire .C 0 {} 1 .seq).slotFor 0 1 = none := by decide +kernel

/-- Refutes O6, in its clause about YIELD with a save slot: the clause looks for the slot in the state before the issue, the instruction in
the state after it. In a state that lists its cores out of order the two differ, and the segment does not begin to leave its core. -/
theorem not_doneAndYieldComplete : ¬ Obligations.DoneAndYieldComplete := by
  unfold Obligations.DoneAndYieldComplete
  intro h
  obtain ⟨-, yields⟩ := h
  have ready : Ready (.yield 0) .C 0 {} unorderedState = true := by decide +kernel
  obtain ⟨leaves, -⟩ := yields unorderedState 0 ready
  have stays := exec_yield_noSlot ready rfl unorderedState_noSlot
  have same := congrArg State.leaveNo (Host.Outcome.next.inj ((leaves rfl unorderedState_slot).symm.trans stays))
  have work : (((unorderedState.issued .C 0 {} 1).retire .C 0 {} 1 .seq).core unorderedState.cur).work = replayingCore.work := by decide +kernel
  have begun := State.startLeave_noSlot work unorderedState_retired_noSlot .saved
  exact absurd (begun.symm.trans same) (by decide)

end Sys2Proof.Machine
end

section
/-! The CSR instructions of C (R128), and a TEPC that no instruction writes. -/
namespace Sys2Proof.Machine

/-- Settles O7: each of the four has the effect of its row on the state in which it has been counted; gd reads there as before the issue. -/
theorem csrInstructionsComplete : Obligations.CsrInstructionsComplete := by
  unfold Obligations.CsrInstructionsComplete
  intro s p gd n
  have operand : (s.issued .C p {} 1).reg .C gd = s.reg .C gd := State.reg_issued s .C .C p {} 1 gd
  dsimp only
  rw [← operand]
  exact ⟨fun ready => issueSimple_ready ready, fun ready => issueSimple_ready ready, fun ready => issueSimple_ready ready,
    fun ready => issueSimple_ready ready⟩

/-- A core whose TEPC lies beyond the 14 bits of its field: the model holds it as a number without a bound, as it does OFF and WIN. -/
def longTepcState : State := { cores := [(0, { ctx := { csr := { tepc := 2 ^ 14 } } })] }

/-- Refutes O8, in its last clause, which bounds OFF and WIN and not TEPC: bit 14 of register 0x011, of no kind, reads 1 before a write of 0
and 0 after it. -/
theorem not_csrWriteReadsBack : ¬ Obligations.CsrWriteReadsBack := by
  unfold Obligations.CsrWriteReadsBack
  intro h
  obtain ⟨-, -, -, fields⟩ := h longTepcState 0x011 0 rfl
  obtain ⟨-, -, others⟩ := fields (by decide) (by decide)
  exact absurd (others (by decide)) (by decide)

end Sys2Proof.Machine
end

section
/-! Scalar floating point (Table 5-3, R125 to R127). -/
namespace Sys2Proof.Machine

/-! ### Retirement at the next word -/

section next
variable {s u : State} {e : Eng} (pc : (u.ctx.eng e).pc = (s.ctx.eng e).pc) (seen : u.ctx.seenLoops e = s.ctx.seenLoops e)
  (hidden : u.ctx.hiddenLoops e = s.ctx.hiddenLoops e)
include pc seen hidden

/-- What is left of an engine that goes on at the next word, from the program counter and the loops of before. -/
theorem State.eng_retired_of_same (i : Instr) (p : BitVec 4) (n : Needs) : (u.retired i e p n .seq).ctx.eng e =
    { u.ctx.eng e with loops := s.nextLoops e (encode i).length, pc := s.nextPc e (encode i).length, prog := none } := by
  rw [State.ctx_retired, Ctx.eng_retire_seq, pc, seen, hidden]
  rfl

theorem Passed.of_retired (i : Instr) (p : BitVec 4) (n : Needs)
    (walk : (u.ctx.eng e).wc = (s.ctx.eng e).wc + BitVec.ofNat 32 (encode i).length) :
    Passed e (encode i).length (s.nextPc e (encode i).length) (s.nextLoops e (encode i).length) s (u.retired i e p n .seq) := by
  have eng := State.eng_retired_of_same pc seen hidden i p n
  exact ⟨congrArg (·.pc) eng, congrArg (·.loops) eng, (congrArg (·.wc) eng).trans walk, congrArg (·.prog) eng⟩

end next

/-! ### The result and the flags -/

theorem State.f32_issued (s : State) (e : Eng) (p : BitVec 4) (n : Needs) (len : Nat) (r : BitVec 5) : (s.issued e p n len).f32 r = s.f32 r := by
  rw [State.f32, State.reg_issued, State.f32]

/-- Of the CSRs issue touches only the event counters and the lifted bound. -/
theorem State.csr_issued (s : State) (e : Eng) (p : BitVec 4) (n : Needs) (len : Nat) : (s.issued e p n len).ctx.csr =
    { s.ctx.csr with evcnt := (s.issued e p n len).ctx.csr.evcnt, lifted := (s.issued e p n len).ctx.csr.lifted } := by
  obtain ⟨g, fi, re, cs, shape, csr⟩ := s.issued_shape e p n len
  rw [shape]
  exact csr

/-- The saturation mode is no counter. -/
theorem State.sat_issued (s : State) (e : Eng) (p : BitVec 4) (n : Needs) (len : Nat) : (s.issued e p n len).ctx.csr.sat = s.ctx.csr.sat := by
  rw [State.csr_issued]

/-- The core before the retirement: the issue's, the flags f raised and gd of C written with v. -/
def State.raised (s : State) (i : Instr) (p : BitVec 4) (gd : BitVec 5) (v : Word) (f : Flags) : State :=
  ((s.issued .C p {} (instrWords i)).raise f).setReg .C gd v

/-- C has executed such an instruction. -/
def State.floated (s : State) (i : Instr) (p : BitVec 4) (gd : BitVec 5) (v : Word) (f : Flags) : State :=
  (s.raised i p gd v f).retired i .C p {} .seq

theorem floatOp_ready {i : Instr} {p : BitVec 4} {s : State} (ready : Ready i .C p {} s = true) (gd : BitVec 5) (g : State → Nat × Flags) :
    floatOp i p gd g s = .next (s.floated i p gd (BitVec.ofNat 64 (g (s.issued .C p {} (instrWords i))).1) (g (s.issued .C p {} (instrWords i))).2) :=
  issueSimple_ready ready

theorem exec_fcvt {p : BitVec 4} {gd ga : BitVec 5} {src dst : BitVec 4} {s : State} (ready : Ready (.fcvt p gd ga src dst) .C p {} s = true) :
    let r := convertTy dst.toNat src.toNat ((s.reg .C ga).toNat % 2 ^ tyBits src.toNat) none s.ctx.csr.sat
    exec (.fcvt p gd ga src dst) s = .next (s.floated (.fcvt p gd ga src dst) p gd (extendTy dst.toNat r.1) r.2) := by
  have run : exec (.fcvt p gd ga src dst) s = _ := issueSimple_ready ready
  rw [Act.bind_ok (Act.get_run _), State.reg_issued, State.sat_issued] at run
  exact run

/-- An instruction whose result and flags are a function of the state after issue. -/
theorem exec_of_floatOp {s : State} {i : Instr} {p p' : BitVec 4} {gd gd' : BitVec 5} {g : State → Nat × Flags} {r : Nat × Flags} {v : Word} {f : Flags}
    (meaning : exec i s = floatOp i p' gd' g s) (value : g (s.issued .C p' {} (instrWords i)) = r)
    (h : floatResult.out p' gd' r = some (p, gd, v, f)) (ready : Ready i .C p {} s = true) : exec i s = .next (s.floated i p gd v f) := by
  simp only [floatResult.out, Option.some.injEq, Prod.mk.injEq] at h
  obtain ⟨rfl, rfl, rfl, rfl⟩ := h
  rw [meaning, floatOp_ready ready, value]

/-- Each floating-point instruction of C writes its result and raises its flags, which issue does not change. -/
theorem exec_of_floatResult {s : State} {i : Instr} {p : BitVec 4} {gd : BitVec 5} {v : Word} {f : Flags}
    (h : floatResult s i = some (p, gd, v, f)) (ready : Ready i .C p {} s = true) : exec i s = .next (s.floated i p gd v f) := by
  unfold floatResult at h
  split at h
  case h_1 | h_2 | h_3 | h_4 => exact exec_of_floatOp (by unfold exec; rfl) (by simp only [State.f32_issued]) h ready
  case h_5 | h_6 => exact exec_of_floatOp (by unfold exec; rfl) (by simp only [State.reg_issued, f32Of]) h ready
  case h_7 | h_8 => exact exec_of_floatOp (by unfold exec; rfl) (by simp only [State.f32_issued, bit]) h ready
  case h_9 => exact exec_of_floatOp (by unfold exec; rfl) (by simp only [State.f32_issued, bit, Bool.or_eq_true]) h ready
  case h_10 =>
    simp only [Option.some.injEq, Prod.mk.injEq] at h
    obtain ⟨rfl, rfl, rfl, rfl⟩ := h
    exact exec_fcvt ready
  case h_11 => cases h

/-! ### What is left of the core -/

section floated
variable (s : State) (i : Instr) (p : BitVec 4) (gd : BitVec 5) (v : Word) (f : Flags)

theorem State.ctx_raised : (s.raised i p gd v f).ctx =
    { (s.issued .C p {} (instrWords i)).ctx with
      c := ((s.issued .C p {} (instrWords i)).ctx.eng .C).setReg gd v, csr := (s.issued .C p {} (instrWords i)).ctx.csr.raise f } := by
  rw [State.raised, State.setReg, State.ctx_modCtx, State.raise, State.ctx_modCtx]
  rfl

theorem State.engC_raised : (s.raised i p gd v f).ctx.eng .C =
    { s.ctx.eng .C with g := ((s.ctx.eng .C).setReg gd v).g, wc := (s.ctx.eng .C).wc + BitVec.ofNat 32 (instrWords i), passed := s.now } := by
  have raised : (s.raised i p gd v f).ctx.eng .C = ((s.issued .C p {} (instrWords i)).ctx.eng .C).setReg gd v :=
    congrArg (·.c) (s.ctx_raised i p gd v f)
  rw [raised, State.eng_issued_same, Engine.setReg_frame]
  unfold Engine.setReg
  split <;> rfl

/-- The loops that C sees and those hidden depend on its loops, INH and the hidden count, which are as before. -/
theorem State.loops_raised : (s.raised i p gd v f).ctx.seenLoops .C = s.ctx.seenLoops .C
    ∧ (s.raised i p gd v f).ctx.hiddenLoops .C = s.ctx.hiddenLoops .C := by
  have loops : ((s.raised i p gd v f).ctx.eng .C).loops = (s.ctx.eng .C).loops := congrArg (·.loops) (s.engC_raised i p gd v f)
  have csr : (s.raised i p gd v f).ctx.csr = (s.issued .C p {} (instrWords i)).ctx.csr.raise f := congrArg (·.csr) (s.ctx_raised i p gd v f)
  constructor
  · rw [Ctx.seenLoops, loops, csr, State.csr_issued]
    rfl
  · rw [Ctx.hiddenLoops, loops, csr, State.csr_issued]
    rfl

theorem State.engC_floated : (s.floated i p gd v f).ctx.eng .C =
    { (s.raised i p gd v f).ctx.eng .C with loops := s.nextLoops .C (encode i).length, pc := s.nextPc .C (encode i).length, prog := none } := by
  obtain ⟨seen, hidden⟩ := s.loops_raised i p gd v f
  exact State.eng_retired_of_same (congrArg (·.pc) (s.engC_raised i p gd v f)) seen hidden i p {}

theorem State.reg_floated (r : BitVec 5) : (s.floated i p gd v f).reg .C r = if r = 0 then 0 else if r = gd then v else s.reg .C r := by
  have regs : (s.floated i p gd v f).reg .C r = ((s.ctx.eng .C).setReg gd v).reg r := by
    rw [State.reg, s.engC_floated i p gd v f, s.engC_raised i p gd v f]
    rfl
  rw [regs, Engine.reg_setReg]
  rfl

theorem Passed.floated : Passed .C (encode i).length (s.nextPc .C (encode i).length) (s.nextLoops .C (encode i).length) s
    (s.floated i p gd v f) := by
  obtain ⟨seen, hidden⟩ := s.loops_raised i p gd v f
  have eng := s.engC_raised i p gd v f
  exact Passed.of_retired (congrArg (·.pc) eng) seen hidden i p {} (congrArg (·.wc) eng)

theorem OnlyCore.floated : OnlyCore s (s.floated i p gd v f) :=
  OnlyCore.retired (((Within.issued s .C p {} (instrWords i)).modCtx _).modCtx _) i .C p {} .seq

/-- Of the state of the core what a retired floating-point instruction leaves otherwise. -/
theorem State.ctx_floated : ∃ c fi re, (s.floated i p gd v f).ctx =
    { s.ctx with c := c, fifo := fi, resv := re, csr := (s.issued .C p {} (instrWords i)).ctx.csr.raise f } := by
  obtain ⟨k, retired⟩ := (s.raised i p gd v f).ctx.retire_shape .C (({} : Needs).allPushes .C p) (instrWords i) .seq
  obtain ⟨g, fi, re, cs, issued, -⟩ := s.issued_shape .C p {} (instrWords i)
  have shape : (s.floated i p gd v f).ctx = _ := (State.ctx_retired _ i .C p {} .seq).trans retired
  rw [shape, s.ctx_raised, issued]
  exact ⟨_, _, _, rfl⟩

theorem State.csr_floated : (s.floated i p gd v f).ctx.csr = { s.ctx.csr with
    nv := s.ctx.csr.nv || f.nv, of := s.ctx.csr.of || f.of, uf := s.ctx.csr.uf || f.uf, nx := s.ctx.csr.nx || f.nx
    evcnt := (s.floated i p gd v f).ctx.csr.evcnt, lifted := (s.floated i p gd v f).ctx.csr.lifted } := by
  obtain ⟨c, fi, re, shape⟩ := s.ctx_floated i p gd v f
  rw [shape, State.csr_issued]
  rfl

end floated

/-- Settles O9: C has written the result and raised the flags, which are those of the operands before the issue. -/
theorem floatInstructionsComplete : Obligations.FloatInstructionsComplete := by
  unfold Obligations.FloatInstructionsComplete
  intro s i p gd v f result ready
  refine ⟨s.floated i p gd v f, exec_of_floatResult result ready, OnlyCore.floated s i p gd v f, s.reg_floated i p gd v f,
    Passed.floated s i p gd v f, ?_, s.csr_floated i p gd v f⟩
  obtain ⟨c, fi, re, shape⟩ := s.ctx_floated i p gd v f
  rw [shape]

end Sys2Proof.Machine
end

section
/-! Rounding to nearest even, and exact sums and products (R125, R229). -/
namespace Sys2Proof.Machine

/-! ### Rounding -/

/-- Whether rounding to nearest even takes the next integer: past the half, or at the half from an odd integer. -/
def roundsUp (m sh : Nat) : Prop := 2 ^ sh < 2 * (m % 2 ^ sh) ∨ (2 * (m % 2 ^ sh) = 2 ^ sh ∧ m / 2 ^ sh % 2 = 1)

theorem roundShift_up {m sh : Nat} (up : roundsUp m sh) : roundShift m sh none = (m / 2 ^ sh + 1, false) := by
  have pos : 0 < 2 ^ sh := Nat.two_pow_pos sh
  have rem : m % 2 ^ sh ≠ 0 := by unfold roundsUp at up; omega
  unfold roundsUp at up
  simp [roundShift, up, rem]

theorem roundShift_down {m sh : Nat} (down : ¬ roundsUp m sh) : roundShift m sh none = (m / 2 ^ sh, decide (m % 2 ^ sh = 0)) := by
  unfold roundsUp at down
  simp only [roundShift, down, decide_false, Bool.false_and, Bool.false_eq_true, if_false]

/-- The four properties of nearest even that O10 names. -/
theorem roundShift_nearest (m sh : Nat) :
    let i := (roundShift m sh none).1
    2 * (i * 2 ^ sh) ≤ 2 * m + 2 ^ sh ∧ 2 * m ≤ 2 * (i * 2 ^ sh) + 2 ^ sh
      ∧ (2 * (m % 2 ^ sh) = 2 ^ sh → i % 2 = 0)
      ∧ ((roundShift m sh none).2 = true ↔ i * 2 ^ sh = m) := by
  have pos : 0 < 2 ^ sh := Nat.two_pow_pos sh
  have split : m / 2 ^ sh * 2 ^ sh + m % 2 ^ sh = m := Nat.div_add_mod' m (2 ^ sh)
  have small : m % 2 ^ sh < 2 ^ sh := Nat.mod_lt m pos
  by_cases up : roundsUp m sh
  · have next : (m / 2 ^ sh + 1) * 2 ^ sh = m / 2 ^ sh * 2 ^ sh + 2 ^ sh := Nat.succ_mul _ _
    rw [roundShift_up up]
    unfold roundsUp at up
    dsimp only
    rw [next]
    refine ⟨by omega, by omega, fun _ => by omega, ?_⟩
    simp only [Bool.false_eq_true, false_iff]
    omega
  · rw [roundShift_down up]
    unfold roundsUp at up
    dsimp only
    rw [decide_eq_true_iff]
    refine ⟨by omega, by omega, fun _ => by omega, by omega⟩

/-! ### Sums and products -/

theorem toRat_fin (a : Bool) (m : Nat) (e : Int) : (Val.fin a m e).toRat = (if a then -1 else 1) * m * (2 : ℚ) ^ e := rfl

/-- The signed mantissa at a lower exponent stands for the same number. -/
theorem mantAt_toRat (a : Bool) (m : Nat) {e q : Int} (le : q ≤ e) : (mantAt a m e q : ℚ) * (2 : ℚ) ^ q = (Val.fin a m e).toRat := by
  have shift : (2 : ℚ) ^ (e - q).toNat * (2 : ℚ) ^ q = (2 : ℚ) ^ e := by
    rw [← zpow_natCast, Int.toNat_of_nonneg (by omega), ← zpow_add₀ (by norm_num), sub_add_cancel]
  rw [toRat_fin, ← shift]
  cases a <;> simp [mantAt, mul_assoc]

/-- An integer as a sign and a magnitude. -/
theorem toRat_of_int (x q : Int) : (Val.fin (x < 0) x.natAbs q).toRat = (x : ℚ) * (2 : ℚ) ^ q := by
  have abs : ((if x < 0 then -1 else 1 : Int)) * x.natAbs = x := by split <;> omega
  have cast : (if decide (x < 0) = true then -1 else 1 : ℚ) * (x.natAbs : ℚ) = (x : ℚ) := by
    rw [← congrArg (Int.cast : Int → ℚ) abs]
    push_cast
    simp only [decide_eq_true_eq, Nat.cast_natAbs, Int.cast_abs]
  rw [toRat_fin, cast]

theorem toRat_zero (a : Bool) (e : Int) : (Val.fin a 0 e).toRat = 0 := by simp [toRat_fin]

section finite
variable {x y : Val} (hx : x.isFin = true) (hy : y.isFin = true)
include hx hy

theorem Val.add_exact : (x.add y).1.toRat = x.toRat + y.toRat ∧ (x.add y).2 = false ∧ (x.add y).1.isFin = true := by
  match x, y, hx, hy with
  | .fin a m e, .fin b n f, _, _ =>
    have sum : ((mantAt a m e (min e f) + mantAt b n f (min e f) : Int) : ℚ) * (2 : ℚ) ^ min e f
        = (Val.fin a m e).toRat + (Val.fin b n f).toRat := by
      rw [Int.cast_add, add_mul, mantAt_toRat a m (min_le_left e f), mantAt_toRat b n (min_le_right e f)]
    unfold Val.add
    dsimp only
    split
    next zero =>
      rw [zero, Int.cast_zero, zero_mul] at sum
      exact ⟨(toRat_zero _ _).trans sum, rfl, rfl⟩
    next => exact ⟨(toRat_of_int _ _).trans sum, rfl, rfl⟩

theorem Val.mul_exact : (x.mul y).1.toRat = x.toRat * y.toRat ∧ (x.mul y).2 = false ∧ (x.mul y).1.isFin = true := by
  match x, y, hx, hy with
  | .fin a m e, .fin b n f, _, _ =>
    refine ⟨?_, rfl, rfl⟩
    have signs : (if (a != b) = true then -1 else 1 : ℚ) = (if a = true then -1 else 1) * (if b = true then -1 else 1) := by
      cases a <;> cases b <;> norm_num
    calc (Val.fin (a != b) (m * n) (e + f)).toRat
        = (if a = true then -1 else 1) * (if b = true then -1 else 1) * (m * n) * ((2 : ℚ) ^ e * (2 : ℚ) ^ f) := by
          rw [toRat_fin, signs, Nat.cast_mul, zpow_add₀ (by norm_num)]
      _ = (Val.fin a m e).toRat * (Val.fin b n f).toRat := by
          rw [toRat_fin, toRat_fin]
          ring

theorem Val.lt_iff_toRat : x.lt y = true ↔ x.toRat < y.toRat := by
  match x, y, hx, hy with
  | .fin a m e, .fin b n f, _, _ =>
    rw [← mantAt_toRat a m (min_le_left e f), ← mantAt_toRat b n (min_le_right e f),
      mul_lt_mul_iff_left₀ (by positivity : (0 : ℚ) < 2 ^ min e f), Int.cast_lt]
    exact decide_eq_true_iff

theorem Val.feq_iff_toRat : x.feq y = true ↔ x.toRat = y.toRat := by
  match x, y, hx, hy with
  | .fin a m e, .fin b n f, _, _ =>
    rw [← mantAt_toRat a m (min_le_left e f), ← mantAt_toRat b n (min_le_right e f),
      mul_left_inj' (by positivity : (2 : ℚ) ^ min e f ≠ 0), Int.cast_inj]
    exact decide_eq_true_iff

end finite

/-- The fused sum of finite values is the sum of their product. -/
theorem Val.fma_finite {x y z : Val} (hx : x.isFin = true) (hy : y.isFin = true) : x.fma y z = (x.mul y).1.add z := by
  obtain ⟨-, valid, -⟩ := Val.mul_exact hx hy
  unfold Val.fma
  rw [← Prod.mk.eta (p := x.mul y), valid]
  simp only [Bool.false_or]

/-- Settles O10: the half unit by cases on whether it rounds up; the rest by aligning both mantissas at the lesser exponent. -/
theorem arithmeticIsExactThenRounded : Obligations.ArithmeticIsExactThenRounded := by
  unfold Obligations.ArithmeticIsExactThenRounded
  refine ⟨roundShift_nearest, fun x y z hx hy hz => ?_⟩
  obtain ⟨sum, sumValid, -⟩ := Val.add_exact hx hy
  obtain ⟨product, productValid, finite⟩ := Val.mul_exact hx hy
  obtain ⟨fused, fusedValid, -⟩ := Val.add_exact finite hz
  rw [Val.fma_finite hx hy]
  exact ⟨sum, product, fused.trans (by rw [product]), sumValid, productValid, fusedValid, Val.lt_iff_toRat hx hy, Val.feq_iff_toRat hx hy⟩

end Sys2Proof.Machine
end

section
/-! Accesses of C that are not aligned (R119 to R121). -/
namespace Sys2Proof.Machine

theorem checkAlign_error {a n : Nat} (h : a % n ≠ 0) (s : State) : checkAlign a n s = .error (.trap 2 1 (BitVec.ofNat 64 a), s.fills) := by
  rw [checkAlign, decide_eq_true h, Act.trapIf_true]

/-- The width of a size code, as the model and the statements write it. -/
theorem sizeBytes_eq (sz : BitVec 4) : sizeBytes sz.toNat = accessWidth sz := by
  revert sz
  decide

/-- An instruction that is ready and whose body stops before it has translated leaves the stop alone. -/
theorem issue_stops {i : Instr} {p : BitVec 4} {n : State → Needs} {body : Prog → Act Next} {s : State} {x : Stop}
    (ready : Ready i .C p (n s) s = true) (stops : body {} (s.issued .C p (n s) (instrWords i)) = .error (x, s.fills)) :
    issue i .C p n (pure ()) body s = .next (s.stopped .C x) := by
  rw [issue_ready (x := ((), s)) ready rfl, stops, State.concluded_error, State.keepFills_self]

/-- Each atomic is the shared one with its function and its order. -/
theorem exec_of_amoOf {s : State} {i : Instr} {fn : Nat} {rel acq : Bool} {p : BitVec 4} {gd ga gb : BitVec 5} {w : BitVec 1}
    (h : amoOf i = some (fn, rel, acq, p, gd, ga, gb, w)) : exec i s = amo i fn rel acq p gd ga gb w s := by
  unfold amoOf at h
  split at h
  all_goals simp only [Option.some.injEq, Prod.mk.injEq, reduceCtorEq] at h
  all_goals
    obtain ⟨rfl, rfl, rfl, rfl, rfl, rfl, rfl, rfl⟩ := h
    unfold exec
    rfl

/-- The width in bytes of an atomic. -/
theorem amo_width (w : BitVec 1) : (if w = 1 then 32 else 64) / 8 = if w = 1 then 4 else 8 := by split <;> rfl

/-- Settles O13: each checks the alignment first. -/
theorem misalignedAccessTraps : Obligations.MisalignedAccessTraps := by
  unfold Obligations.MisalignedAccessTraps
  intro s p gd ga sz off
  refine ⟨fun misaligned ready => issue_stops (n := fun _ => {}) ready ?_, fun misaligned ready => issue_stops (n := fun _ => {}) ready ?_,
    fun i fn rel acq gd gb w amoI ready misaligned => ?_⟩
  · dsimp only
    rw [Act.bind_ok (Act.get_run _), State.reg_issued, sizeBytes_eq]
    exact Act.bind_error (checkAlign_error misaligned _)
  · dsimp only
    rw [Act.bind_ok (Act.get_run _), State.reg_issued, sizeBytes_eq]
    exact Act.bind_error (checkAlign_error misaligned _)
  · rw [exec_of_amoOf amoI]
    refine issue_stops (n := fun _ => {}) ready ?_
    dsimp only
    rw [Act.bind_ok (Act.get_run _), State.reg_issued, amo_width, Act.bind_error (checkAlign_error misaligned _), BitVec.ofNat_toNat,
      BitVec.setWidth_eq]
    rfl

end Sys2Proof.Machine
end

section
/-! What a translation of a core leaves as it was, and C's loads and stores (R120, R150, R309). -/
namespace Sys2Proof.Machine

/-! ### Translation -/

/-- x is the core c after translations: its cached translations and its event counters are all that may differ. -/
structure Core.Translated (c x : Core) : Prop where
  frame : x = { c with tlbC := x.tlbC, tlbA := x.tlbA, ctx := x.ctx }
  ctx : x.ctx = { c.ctx with csr := x.ctx.csr }
  csr : x.ctx.csr = { c.ctx.csr with evcnt := x.ctx.csr.evcnt }

theorem Core.Translated.refl (c : Core) : c.Translated c := ⟨rfl, rfl, rfl⟩

theorem Core.Translated.trans {c x y : Core} (h : c.Translated x) (g : x.Translated y) : c.Translated y :=
  ⟨by rw [g.frame, h.frame], by rw [g.ctx, h.ctx], by rw [g.csr, h.csr]⟩

/-- u is s after translations: beside the cores' caches and counters, of the device only A and D of entries, the caches of the dies and
the ladles, and the notes of who waits and of the fills may differ. -/
structure State.Translated (s u : State) : Prop where
  frame : u = { s with
    mem := u.mem, poison := u.poison, cores := u.cores, dies := u.dies, ladles := u.ladles, freeNo := u.freeNo, stalled := u.stalled
    fills := u.fills }
  core : ∀ k, (s.core k).Translated (u.core k)

namespace State.Translated
variable {s t u : State}

theorem refl (s : State) : s.Translated s := ⟨rfl, fun k => .refl (s.core k)⟩

theorem trans (h : s.Translated t) (g : t.Translated u) : s.Translated u :=
  ⟨by rw [g.frame, h.frame], fun k => (h.core k).trans (g.core k)⟩

/-- A change of one core of this kind. -/
theorem modCore (s : State) (k : Nat) (f : Core → Core) (hf : (s.core k).Translated (f (s.core k))) : s.Translated (s.modCore k f) where
  frame := rfl
  core j := by
    rw [State.core_modCore]
    split
    next same => rw [same]; exact hf
    next => exact .refl (s.core j)

theorem writeN (s : State) (key n v : Nat) : s.Translated (s.writeN key n v) := ⟨rfl, fun k => .refl (s.core k)⟩

theorem useReplica (s : State) (d key : Nat) : s.Translated (s.useReplica d key) := by
  unfold State.useReplica
  split
  · exact ⟨rfl, fun k => .refl (s.core k)⟩
  · exact refl s

theorem cache (s : State) (cl : Client) (f : List Tlb → List Tlb) : s.Translated (s.modTlb cl f) := by
  cases cl with
  | coreC k => exact modCore s k (fun c => { c with tlbC := f c.tlbC }) ⟨rfl, rfl, rfl⟩
  | coreA k => exact modCore s k (fun c => { c with tlbA := f c.tlbA }) ⟨rfl, rfl, rfl⟩
  | ladle l => exact ⟨rfl, fun k => .refl (s.core k)⟩
  | loader | tundish | shakeout => exact refl s

theorem keeps (cl : Client) (s : State) : Keeps cl s.Translated where
  notes l n h := h.trans ⟨rfl, fun k => .refl _⟩
  node d part asid level tag e h := h.trans ⟨rfl, fun k => .refl _⟩
  entry entry acc h := by
    refine h.trans ?_
    unfold State.touchEntry
    split
    · exact ⟨rfl, fun k => .refl _⟩
    · exact refl _
  cache f h := h.trans (State.Translated.cache _ cl f)
  count k e _ h := h.trans (modCore _ k (fun c => { c with ctx := { c.ctx with csr := c.ctx.csr.count 0x0B e 1 } }) ⟨rfl, rfl, rfl⟩)

theorem of_xlateAs {cl : Client} {part asid va acc ext key : Nat} (h : xlateAs cl part asid va acc ext s = .ok (key, u)) : s.Translated u := by
  have kept := (keeps cl s).translate (refl s) part asid va acc
  unfold xlateAs at h
  revert h kept
  cases s.translate cl part asid va acc with
  | mk x v =>
  cases x with
  | ok k =>
    intro h kept
    cases h
    exact kept
  | fail c l => intro h; cases h
  | stall l => intro h; cases h

theorem of_reaches {p : BitVec 4} {len va acc ext key : Nat} (h : s.reaches p len va acc ext key u) : (s.issued .C p {} len).Translated u :=
  of_xlateAs h

theorem of_serves {p : BitVec 4} {len a n : Nat} {l : List Byte} (h : s.serves p len a n l u) : (s.issued .C p {} len).Translated u := by
  obtain ⟨key, t, reached, -, -, -, rfl⟩ := h
  exact (of_reaches reached).trans (useReplica t _ _)

/-! What is the same after it. -/

section same
variable (h : s.Translated u)
include h

theorem cur : u.cur = s.cur := by rw [h.frame]
theorem now : u.now = s.now := by rw [h.frame]
theorem parts : u.parts = s.parts := by rw [h.frame]
theorem part (p : Nat) : u.part p = s.part p := by rw [State.part, h.parts, State.part]
theorem curCore : s.cc.Translated u.cc := by
  rw [State.cc, State.cc, h.cur]
  exact h.core s.cur
theorem coreWork (k : Nat) : (u.core k).work = (s.core k).work := by rw [(h.core k).frame]
theorem ccWork : u.cc.work = s.cc.work := by rw [h.curCore.frame]
theorem work : u.work = s.work := by rw [State.work, h.ccWork, State.work]
theorem ob : u.cc.ob = s.cc.ob := by rw [h.curCore.frame]
theorem eng (e : Eng) : u.ctx.eng e = s.ctx.eng e := by
  rw [State.ctx, h.curCore.ctx]
  cases e <;> rfl
theorem reg (e : Eng) (r : BitVec 5) : u.reg e r = s.reg e r := by rw [State.reg, h.eng, State.reg]
theorem lostPeer (key : Nat) : u.lostPeer key = s.lostPeer key := by rw [h.frame]; rfl
theorem noPath (key : Nat) : u.noPath key = s.noPath key := by rw [h.frame]; rfl

end same

end State.Translated

/-! ### Loads -/

theorem State.length_snapRead (s : State) (n : Nat) : ∀ key, (s.snapRead key n).length = n := by
  induction n with
  | zero => exact fun _ => rfl
  | succ n ih => exact fun key => congrArg (· + 1) (ih (key + 1))

theorem State.length_of_serves {s u : State} {p : BitVec 4} {len a n : Nat} {l : List Byte} (h : s.serves p len a n l u) : l.length = n := by
  obtain ⟨key, t, -, -, -, rfl, -⟩ := h
  exact t.length_snapRead n key

/-- The even codes below 6 are the signed ones, each of its own width. -/
theorem loadValue_eq {sz : BitVec 4} {l : List Byte} (len : l.length = accessWidth sz) :
    loadValue sz.toNat (ofBytes l) = extended (accessSigned sz) l := by
  unfold loadValue
  split
  next code =>
    obtain rfl : sz = 0 := BitVec.eq_of_toNat_eq code
    rw [extended, len]
    rfl
  next code =>
    obtain rfl : sz = 2 := BitVec.eq_of_toNat_eq code
    rw [extended, len]
    rfl
  next code =>
    obtain rfl : sz = 4 := BitVec.eq_of_toNat_eq code
    rw [extended, len]
    rfl
  next zero two four =>
    have unsigned : accessSigned sz = false := by
      simp only [accessSigned, Bool.or_eq_false_iff, decide_eq_false_iff_not]
      exact ⟨⟨fun h => zero (by rw [h]; rfl), fun h => two (by rw [h]; rfl)⟩, fun h => four (by rw [h]; rfl)⟩
    rw [unsigned]
    rfl

theorem exec_ld {s u : State} {p : BitVec 4} {gd ga : BitVec 5} {sz : BitVec 4} {off : BitVec 32} {l : List Byte}
    (ready : Ready (.ld p gd ga sz off) .C p {} s = true) (aligned : s.offAddr ga off % accessWidth sz = 0)
    (served : s.serves p 2 (s.offAddr ga off) (accessWidth sz) l u) :
    exec (.ld p gd ga sz off) s = .next ((u.setReg .C gd (extended (accessSigned sz) l)).retired (.ld p gd ga sz off) .C p {} .seq) := by
  have run : exec (.ld p gd ga sz off) s = _ := issueSimple_ready ready
  rw [Act.bind_ok (Act.get_run _), State.reg_issued, sizeBytes_eq] at run
  have at' : offAddr (s.reg .C ga) off = s.offAddr ga off := rfl
  have words : instrWords (.ld p gd ga sz off) = 2 := rfl
  simp only [at', words] at run
  rw [Act.bind_ok (checkAlign_of_dvd aligned _), Act.bind_ok (coreRead_of_serves served), loadValue_eq (State.length_of_serves served)] at run
  exact run

/-! ### Stores -/

/-- The change of a store buffer depends on what it makes of the work alone. -/
theorem State.modWork_congr {s : State} {f g : Work → Work} (h : f s.work = g s.work) : s.modWork f = s.modWork g := by
  have same : s.cc.work.map f = s.cc.work.map g := by
    cases held : s.cc.work with
    | none => rfl
    | some w =>
      rw [State.work, held] at h
      exact congrArg some h
  unfold State.modWork State.modWorkOf State.modCore
  change { s with cores := s.cores.put s.cur { s.cc with work := s.cc.work.map f } } = _
  rw [same]
  rfl

/-- A store of C that can be made joins the buffer. -/
theorem storeAppend_run {v u : State} {va n x key : Nat} (reached : xlate (.coreC v.cur) (v.windowNow va) accWrite n v = .ok (key, u))
    (near : v.lostPeer key = false) (room : v.work.sb.length < 16384) (free : (v.ctx.eng .C).stuck = false) :
    storeAppend .C va n x n v = .ok ((), u.modWork fun w => { w with sb := w.sb ++
      [{ va := v.windowNow va, key, size := n, data := BitVec.ofNat 256 x, eng := .C, pc := (v.ctx.eng .C).pc, part := w.part, asid := w.asid }] }) := by
  have open' : (decide (sbLimit ≤ v.work.sb.length) || (v.ctx.eng .C).stuck) = false := by
    rw [free, Bool.or_false, decide_eq_false_iff_not, sbLimit]
    omega
  unfold storeAppend
  rw [Act.bind_ok (Act.get_run _)]
  dsimp only
  rw [Act.bind_ok (show xlate (engClient v.cur .C) _ _ _ _ = _ from reached), near, Act.bind_ok (Act.poisonIf_false _ _ _), open',
    Act.bind_ok (Act.waitIf_false _ _)]
  rfl

@[simp] theorem State.windowNow_issued (s : State) (e : Eng) (p : BitVec 4) (n : Needs) (len va : Nat) :
    (s.issued e p n len).windowNow va = s.windowNow va := by
  simp only [State.windowNow, State.redirect, State.work_issued, State.part, State.issued_parts]

theorem exec_st {s u : State} {p : BitVec 4} {ga gb : BitVec 5} {sz : BitVec 4} {off : BitVec 32} {key : Nat}
    (ready : Ready (.st p ga gb sz off) .C p {} s = true) (aligned : s.offAddr ga off % accessWidth sz = 0)
    (reached : s.reaches p 2 (s.windowNow (s.offAddr ga off)) accWrite (accessWidth sz) key u) (near : u.lostPeer key = false)
    (room : s.work.sb.length < 16384) (free : (s.ctx.eng .C).stuck = false) :
    exec (.st p ga gb sz off) s = .next ((u.modWork fun w => { w with sb := w.sb ++
      [{ va := s.windowNow (s.offAddr ga off), key, size := accessWidth sz
         data := BitVec.ofNat 256 ((s.reg .C gb).toNat % 2 ^ (8 * accessWidth sz)), eng := .C, pc := (s.ctx.eng .C).pc
         part := u.work.part, asid := u.work.asid }] }).retired (.st p ga gb sz off) .C p {} .seq) := by
  have issue := State.Translated.of_reaches reached
  have pcs : ((s.issued .C p {} 2).ctx.eng .C).pc = (s.ctx.eng .C).pc := State.pc_issued s .C p {} 2
  have stores := storeAppend_run (v := s.issued .C p {} 2) (va := s.offAddr ga off) (n := accessWidth sz) (key := key) (u := u)
    (x := (s.reg .C gb).toNat % 2 ^ (8 * accessWidth sz)) (by rw [State.windowNow_issued]; exact reached) (by rw [← issue.lostPeer]; exact near)
    (by rw [State.work_issued]; exact room) (by rw [State.eng_issued_same]; exact free)
  rw [State.windowNow_issued, pcs] at stores
  have run : exec (.st p ga gb sz off) s = _ := issueSimple_ready ready
  rw [Act.bind_ok (Act.get_run _), State.reg_issued, State.reg_issued, sizeBytes_eq] at run
  have at' : offAddr (s.reg .C ga) off = s.offAddr ga off := rfl
  have words : instrWords (.st p ga gb sz off) = 2 := rfl
  simp only [at', words] at run
  rw [Act.bind_ok (checkAlign_of_dvd aligned _), Act.bind_ok (show storeAppend .C _ _ _ _ (s.issued .C p {} 2) = _ from stores)] at run
  rw [run]
  exact congrArg (fun t : State => Host.Outcome.next (t.retired (.st p ga gb sz off) .C p {} .seq)) (State.modWork_congr rfl)

/-! ### A core's own stores -/

theorem newest_append (l : List Store) (st : Store) (key : Nat) : newest (l ++ [st]) key = (st.byteAt key).or (newest l key) := by
  rw [newest, List.reverse_append, List.reverse_singleton, List.singleton_append, List.findSome?_cons]
  cases st.byteAt key <;> rfl

theorem State.work_modWork {s : State} (held : s.cc.work.isSome = true) (f : Work → Work) : (s.modWork f).work = f s.work := by
  obtain ⟨w, hw⟩ := Option.isSome_iff_exists.1 held
  rw [State.work, State.cc_modWork, State.work, hw]
  rfl

/-- The newest store that covers a byte is the one read. -/
theorem State.snapByte_append {s : State} (held : s.cc.work.isSome = true) (st : Store) (key : Nat) :
    (s.modWork fun w => { w with sb := w.sb ++ [st] }).snapByte key = (st.byteAt key).getD (s.snapByte key) := by
  have outbound : (s.modWork fun w => { w with sb := w.sb ++ [st] }).cc.ob = s.cc.ob := by rw [State.cc_modWork]
  unfold State.snapByte
  rw [State.work_modWork held, outbound]
  dsimp only
  rw [newest_append]
  cases st.byteAt key <;> rfl

/-- Settles O12: the load's bytes are those that the translation's location gives, and the store joins the buffer alone. -/
theorem loadsAndStoresComplete : Obligations.LoadsAndStoresComplete := by
  unfold Obligations.LoadsAndStoresComplete
  refine ⟨fun s u p gd ga sz off l ready aligned served => exec_ld ready aligned served,
    fun s u p ga gb sz off key ready aligned reached near room free => ⟨exec_st ready aligned reached near room free, fun a => ?_⟩,
    fun s st key held => ?_⟩
  · rfl
  · rw [State.snapByte_append held, Store.byteAt]
    split <;> rfl

end Sys2Proof.Machine
end

section
/-! An atomic on the line of the entry that maps it (R121, R150, R354). -/
namespace Sys2Proof.Machine

/-! ### The poison that an atomic meets -/

/-- An atomic that the target supports, on a path, meets the poison of the state in which it has issued, whatever its walk has written. -/
theorem exec_amo_of_poison {s u : State} {i : Instr} {fn : Nat} {rel acq : Bool} {p : BitVec 4} {gd ga gb : BitVec 5} {w : BitVec 1} {key : Nat}
    (amoI : amoOf i = some (fn, rel, acq, p, gd, ga, gb, w)) (ready : Ready i .C p {} s = true) (one : instrWords i = 1)
    (aligned : (s.reg .C ga).toNat % (if w = 1 then 4 else 8) = 0)
    (reached : s.reaches p 1 (s.windowNow (s.reg .C ga).toNat) accWrite (if w = 1 then 4 else 8) key u)
    (supported : (s.issued .C p {} 1).amoSupported key fn = true) (live : u.work.spec = false) (path : (s.issued .C p {} 1).noPath key = false)
    (poison : (s.issued .C p {} 1).poisoned key (if w = 1 then 4 else 8) = true) :
    exec i s = .next ((s.keepFills u.fills).stopped .C (.poison key (BitVec.ofNat 64 (s.reg .C ga).toNat))) := by
  rw [exec_of_amoOf amoI]
  unfold amo
  rw [issue_ready (x := ((), s)) ready rfl]
  dsimp only
  rw [one, amo_width, Act.bind_ok (Act.get_run _), State.reg_issued, State.windowNow_issued, Act.bind_ok (checkAlign_of_dvd aligned _),
    Act.bind_ok (show xlate (.coreC (s.issued .C p {} 1).cur) _ _ _ _ = _ from reached), supported, Bool.not_true,
    Act.bind_ok (Act.trapIf_false _ _ _ _), Act.bind_ok (irrevocable_run live), path, Act.bind_ok (Act.waitIf_false _ _), poison]
  rfl

/-! ### The state -/

/-- Core 0 with g1 = 8, in an address space whose first 2^30 bytes one entry at level 2 maps to the crucible. The entry, V, R, W and leaf
without A and D, is at location 0, in the line of location 8; its line is poisoned. -/
def selfMappedState : State :=
  { unit0 (cRegs 8 5 7) with
    mem := SMap.setList (SMap.setList [(0, 0x17)] 0 (2 * tierSpan) (toBytes plainRoot 8)) 0 (2 * tierSpan + 0x10000) [1], poison := [0] }

/-- The state in which a miss of C is served: the instruction has issued and the miss is counted. -/
def selfMappedMiss : State := (selfMappedState.issued .C 0 {} 1).countOn 0 0x0B (some .C) 1

/-- What the walk caches. -/
def selfMappedNodes : State := (selfMappedMiss.cacheNode 0 0 0 4 0 (BitVec.ofNat 64 plainRoot)).cacheNode 0 0 0 3 0 1

/-- The translation that the entry gives. -/
def selfMappedTlb : Tlb := leafTlb 0 0 8 2 0x17 false 0

/-- The state after the translation of a write at address 8: A and D of the entry are set, so that its line has been written and is clean. -/
def selfMappedAfter : State := (selfMappedNodes.touchEntry 0 accWrite).modTlb (.coreC 0) fun l =>
  { selfMappedTlb with d := true } :: l.filter fun x => !x.covers 0 0 8

theorem selfMapped_walk : selfMappedMiss.walk 0 0 0 8 = (.leaf selfMappedTlb 0, selfMappedNodes) := by
  have root : selfMappedMiss.rootOf 0 0 0 = BitVec.ofNat 64 plainRoot := by
    rw [rootOf_bare (by decide +kernel)]
    decide +kernel
  have node : walkFrom 0 0 0 8 3 (2 * tierSpan + 0x10000) (selfMappedMiss.cacheNode 0 0 0 4 0 (BitVec.ofNat 64 plainRoot))
      = walkFrom 0 0 0 8 2 0 selfMappedNodes :=
    walkFrom_next (e := 1) (by rw [cachedNode_none (by decide +kernel)]; decide +kernel) (by decide)
  have leaf : walkFrom 0 0 0 8 2 0 selfMappedNodes = (.leaf selfMappedTlb 0, selfMappedNodes) :=
    walkFrom_leaf (e := 0x17) (by rw [cachedNode_none (by decide +kernel)]; decide +kernel) (by decide)
  unfold State.walk
  rw [root, if_neg (by decide +kernel), if_neg (by decide), if_neg (by decide), if_neg (by decide)]
  exact node.trans leaf

theorem selfMapped_translate :
    (selfMappedState.issued .C 0 {} 1).translate (.coreC 0) 0 0 8 accWrite = (.ok 8, selfMappedAfter) := by
  have fill : (selfMappedState.issued .C 0 {} 1).fill (.coreC 0) 0 0 8 accWrite = (.ok 8, selfMappedAfter) := by
    have walk : State.walk (State.countOn (selfMappedState.issued .C 0 {} 1) 0 0x0B (some .C) 1) (clientDie (.coreC 0)) 0 0 8 = _ := selfMapped_walk
    unfold State.fill
    dsimp only
    rw [walk]
    dsimp only
    rw [if_neg (by decide), show selfMappedTlb.locate 8 = .ok 8 from by decide]
    rfl
  have waits : ((selfMappedState.issued .C 0 {} 1).stalled.find? fun x => x.client = .coreC 0 && x.va = 8 && x.part = 0 && x.asid = 0) = none := by
    decide +kernel
  have cached : (((selfMappedState.issued .C 0 {} 1).tlbOf (.coreC 0)).find? fun t => t.covers 0 0 8) = none := by decide +kernel
  unfold State.translate
  rw [if_neg (by decide), waits, cached]
  dsimp only
  unfold State.miss
  rw [if_pos (by decide +kernel), fill]

theorem selfMapped_reaches : selfMappedState.reaches 0 1 (selfMappedState.windowNow (selfMappedState.reg .C 1).toNat) accWrite 8 8 selfMappedAfter := by
  have at8 : selfMappedState.windowNow (selfMappedState.reg .C 1).toNat = 8 := by decide +kernel
  rw [at8]
  show xlateAs (.coreC 0) 0 0 8 accWrite 8 (selfMappedState.issued .C 0 {} 1) = _
  rw [xlateAs, selfMapped_translate]

/-! ### The refutation -/

/-- Where C stands after an outcome. -/
def pcAfter : Out → Nat
  | .next t => (t.ctx.eng .C).pc
  | _ => 0

/-- The atomic takes machine check 9, where it stands. -/
theorem selfMapped_stands : pcAfter (exec (.amoaddAcq 0 3 1 2 0) selfMappedState) = 4 := by
  rw [exec_amo_of_poison (s := selfMappedState) (u := selfMappedAfter) (key := 8) rfl (by decide +kernel) rfl (by decide +kernel) selfMapped_reaches
    (by decide +kernel) (by decide +kernel) (by decide +kernel) (by decide +kernel)]
  decide +kernel

/-- Refutes O14: the poison is looked at in the state before the walk, and the statement looks at it in the state that the walk leaves. Where
the location lies in the line of its own leaf entry, setting A and D there ends the poison, and the atomic takes machine check 9 all the same. -/
theorem not_atomicsComplete : ¬ Obligations.AtomicsComplete := by
  unfold Obligations.AtomicsComplete
  intro h
  have retires := (h selfMappedState selfMappedAfter (.amoaddAcq 0 3 1 2 0) 0 false true 0 3 1 2 0 8 rfl (by decide +kernel)
    (by decide +kernel) selfMapped_reaches (by decide +kernel) (by decide +kernel) (by decide +kernel)
    (State.unburdened_of (by decide +kernel))).1
  have goesOn := congrArg pcAfter retires
  rw [selfMapped_stands] at goesOn
  exact absurd goesOn (by decide +kernel)

end Sys2Proof.Machine
end

section
/-! Traps of engines, taken locally and delivered (R131, R348). -/
namespace Sys2Proof.Machine

/-! ### What is given up by an engine with no instruction in progress -/

theorem State.core_modCtx_self {s : State} {f : Ctx → Ctx} (h : f s.ctx = s.ctx) (k : Nat) : (s.modCtx f).core k = s.core k := by
  rw [State.modCtx, State.core_modCtxOf]
  split
  next same =>
    rw [same]
    exact congrArg (fun x => { s.core s.cur with ctx := x }) h
  next => rfl

theorem State.modCtxOf_giveUp (s : State) (e : Eng) (f : Ctx → Ctx) : (s.giveUp e).modCtxOf s.cur f = (s.giveUp e).modCtx f := by
  rw [State.modCtx, State.giveUp_cur]

section idle
variable {s : State} {e : Eng} (idle : (s.ctx.eng e).prog = none)
include idle

theorem State.giveUp_eq : s.giveUp e = s.modCtx fun c => c.unissue e := by rw [State.giveUp, idle, if_neg (by simp)]

theorem State.core_giveUp (k : Nat) : (s.giveUp e).core k = s.core k := by
  rw [State.giveUp_eq idle]
  exact State.core_modCtx_self (Ctx.unissue_of_noProg idle) k

theorem State.giveUp_mem : (s.giveUp e).mem = s.mem := by rw [State.giveUp_eq idle]; rfl
theorem State.giveUp_parts : (s.giveUp e).parts = s.parts := by rw [State.giveUp_eq idle]; rfl
theorem State.giveUp_now : (s.giveUp e).now = s.now := by rw [State.giveUp_eq idle]; rfl
theorem State.part_giveUp (p : Nat) : (s.giveUp e).part p = s.part p := by rw [State.part, State.giveUp_parts idle, State.part]

/-- A trap that the local handler takes. -/
theorem State.stopped_locally {w : Work} (held : s.cc.work = some w) {cls cause : Nat} (val : Word)
    (locally_ : s.cc.takesLocally w.len e cls cause = true) :
    s.stopped e (.trap cls cause val) = ((s.giveUp e).modCtx fun x => x.enterLocal cls cause val).stir := by
  have core : (s.giveUp e).core s.cur = s.cc := State.core_giveUp idle s.cur
  unfold State.stopped State.takeTrap State.takeTrapWith
  rw [core]
  simp only [held, locally_, if_true]
  rw [State.modCtxOf_giveUp]

/-- The record of a trap of an engine of the executing core. -/
def State.engineTrap (s : State) (w : Work) (e : Eng) (cls cause : Nat) (val : Word) : TrapRec :=
  { trapRecOf s.cur s.cc w (.engine w.id e) cls cause val with eng := engTag e }

/-- Any other trap is delivered. -/
theorem State.stopped_delivered {w : Work} (held : s.cc.work = some w) {cls cause : Nat} (val : Word)
    (delivered : s.cc.takesLocally w.len e cls cause = false) :
    s.stopped e (.trap cls cause val) =
      (((s.giveUp e).modCtx fun x => x.modEng e fun g => { g with hold := some (.trap cls cause) }).addTrap
        (s.engineTrap w e cls cause val)).stir := by
  have core : (s.giveUp e).core s.cur = s.cc := State.core_giveUp idle s.cur
  unfold State.stopped State.takeTrap State.takeTrapWith
  rw [core]
  simp only [held, delivered, Bool.false_eq_true, if_false]
  rw [State.modCtxOf_giveUp]
  rfl

end idle

/-! ### The place of a record -/

theorem drop_takeWhile_reverse {α : Type} (p : α → Bool) (l : List α) :
    (l.drop (l.length - (l.reverse.takeWhile p).length)).reverse = l.reverse.takeWhile p := by
  have le : (l.reverse.takeWhile p).length ≤ l.length := by
    have := (List.takeWhile_prefix (l := l.reverse) p).length_le
    rwa [List.length_reverse] at this
  rw [List.reverse_drop, Nat.sub_sub_self le]
  exact (List.prefix_iff_eq_take.1 (List.takeWhile_prefix p)).symm

/-- A record is placed behind all but those of its core's array of its cycle. -/
theorem placeTrap_joins (t : TrapRec) (l : List TrapRec) : t.joins l (placeTrap t l) := by
  refine ⟨_, _, (List.take_append_drop _ l).symm, rfl, fun y hy => ?_⟩
  rw [← List.mem_reverse, drop_takeWhile_reverse] at hy
  have after := List.mem_takeWhile_imp hy
  simp only [TrapRec.after, Bool.and_eq_true, decide_eq_true_eq, Option.isNone_iff_eq_none] at after
  obtain ⟨⟨⟨⟨⟨array, -⟩, since⟩, core⟩, -⟩, unwritten⟩ := after
  exact ⟨array, core, since, unwritten⟩

/-! A record that joins leaves the cores. -/

theorem State.stir_ctx (s : State) : s.stir.ctx = s.ctx := rfl
theorem State.ctx_addTrap (s : State) (t : TrapRec) : (s.addTrap t).ctx = s.ctx := rfl
theorem State.core_addTrap (s : State) (t : TrapRec) (k : Nat) : (s.addTrap t).core k = s.core k := rfl

theorem State.traps_addTrap (s : State) (t : TrapRec) :
    ((s.addTrap t).part t.part).traps = placeTrap { t with since := s.now } (s.part t.part).traps := by
  rw [State.addTrap, State.part_modPart_same]

/-! ### The two ways -/

theorem State.work_of_held {s : State} {w : Work} (held : s.cc.work = some w) : s.work = w := by rw [State.work, held]; rfl

/-- A trap of C enters the local handler. -/
theorem trap_enters {s : State} {w : Work} (held : s.cc.work = some w) (idle : (s.ctx.eng .C).prog = none) {cls cause : Nat} (val : Word)
    (locally_ : s.cc.takesLocally w.len .C cls cause = true) :
    let t := s.stopped .C (.trap cls cause val)
    t.ctx = s.ctx.enterLocal cls cause val ∧ t.mem = s.mem ∧ t.parts = s.parts ∧ ∀ k, k ≠ s.cur → t.core k = s.core k := by
  dsimp only
  rw [State.stopped_locally idle held val locally_]
  refine ⟨?_, State.giveUp_mem idle, State.giveUp_parts idle, fun k other => ?_⟩
  · rw [State.stir_ctx, State.ctx_modCtx, State.ctx_giveUp_of_noProg idle]
  · rw [State.stir_core, State.modCtx, State.core_modCtxOf, if_neg (by rw [State.giveUp_cur]; exact other), State.core_giveUp idle]

/-- The handler sees none of the loops of before. -/
theorem Ctx.seenLoops_enterLocal (c : Ctx) (cls cause : Nat) (val : Word) : (c.enterLocal cls cause val).seenLoops .C = [] := by
  have hidden : (c.enterLocal cls cause val).seenLoops .C = c.c.loops.take (c.c.loops.length - c.c.loops.length) := by
    rw [Ctx.seenLoops, if_pos ⟨rfl, rfl⟩]
    rfl
  rw [hidden, Nat.sub_self, List.take_zero]

/-- The engine is held, and its core's state otherwise stays. -/
theorem trap_holds {s : State} {w : Work} (held : s.cc.work = some w) {e : Eng} (idle : (s.ctx.eng e).prog = none) {cls cause : Nat} (val : Word)
    (delivered : s.cc.takesLocally w.len e cls cause = false) :
    let t := s.stopped e (.trap cls cause val)
    t.ctx = s.ctx.modEng e (fun g => { g with hold := some (.trap cls cause) }) ∧ t.mem = s.mem
      ∧ (t.part w.part).traps = placeTrap { s.engineTrap w e cls cause val with since := s.now } (s.part w.part).traps := by
  dsimp only
  rw [State.stopped_delivered idle held val delivered]
  refine ⟨?_, State.giveUp_mem idle, ?_⟩
  · rw [State.stir_ctx, State.ctx_addTrap, State.ctx_modCtx, State.ctx_giveUp_of_noProg idle]
  · have joined := State.traps_addTrap ((s.giveUp e).modCtx fun x => x.modEng e fun g => { g with hold := some (.trap cls cause) })
      (s.engineTrap w e cls cause val)
    rw [← State.giveUp_now idle, ← State.part_giveUp idle]
    exact joined

/-- Settles O18: the two branches of taking a trap, by an engine that has nothing to give up. -/
theorem trapsAreTaken : Obligations.TrapsAreTaken := by
  unfold Obligations.TrapsAreTaken
  refine ⟨fun s cls cause val holds idle enabled outside inside first low high notEret => ?_, fun s e cls cause val w held idle delivered => ?_⟩
  · obtain ⟨w, held⟩ := Option.isSome_iff_exists.1 holds
    rw [State.work_of_held held] at inside
    have locally_ : s.cc.takesLocally w.len .C cls cause = true := by
      simp only [Core.takesLocally, Bool.and_eq_true, decide_eq_true_eq, Bool.not_eq_true', Bool.and_eq_false_imp, beq_iff_eq, beq_eq_false_iff_ne]
      exact ⟨⟨⟨⟨⟨⟨⟨trivial, low⟩, high⟩, enabled⟩, outside⟩, inside⟩, first⟩, fun class2 cause4 => notEret ⟨class2, cause4⟩⟩
    obtain ⟨entered, mem, parts, others⟩ := trap_enters held idle val locally_
    dsimp only
    rw [entered]
    exact ⟨rfl, rfl, rfl, Ctx.seenLoops_enterLocal _ _ _ _, mem, parts, others⟩
  · obtain ⟨stays, mem, record⟩ := trap_holds held idle val delivered
    dsimp only
    rw [stays, record]
    refine ⟨Ctx.eng_modEng_same _ _ _, fun f other => ?_, mem, by cases e <;> rfl, _, placeTrap_joins _ _, rfl, rfl, rfl, by cases e <;> rfl, rfl, rfl⟩
    rw [Ctx.eng_modEng, if_neg other]

end Sys2Proof.Machine
end

section
/-! TRAP, ERET and WFE (R130 to R133). -/
namespace Sys2Proof.Machine

/-! ### TRAP and ERET -/

theorem exec_trap {s : State} {p : BitVec 4} {code : BitVec 14} (ready : Ready (.trap p code) .C p {} s = true) :
    exec (.trap p code) s = .next (s.stopped .C (.trap 5 code.toNat 0)) :=
  issue_stops (n := fun _ => {}) ready rfl

/-- ERET reads INH before its waits. -/
theorem exec_eret_outside {s : State} {p : BitVec 4} (ready : Ready (.eret p) .C p {} s = true) (outside : s.ctx.csr.inh = false) :
    exec (.eret p) s = .next (s.stopped .C (.trap 2 4 0)) := by
  obtain ⟨run, idle, legal, -⟩ := Ready.iff.1 ready
  exact issue_refused run idle legal (trapIf_run (by rw [outside]; rfl) 2 4 0 s)

theorem State.tepc_issued (s : State) (e : Eng) (p : BitVec 4) (n : Needs) (len : Nat) : (s.issued e p n len).ctx.csr.tepc = s.ctx.csr.tepc := by
  rw [State.csr_issued]

section inside
variable {s : State} {p : BitVec 4} (ready : Ready (.eret p) .C p {} s = true) (inside : s.ctx.csr.inh = true)
include ready inside

theorem exec_eret_of_inside : exec (.eret p) s = .next (s.concluded .C p {} 1 ((do
    trapIf (!(s.issued .C p {} 1).cc.firstWord (s.issued .C p {} 1).ctx.csr.tepc) 1 5
      ((s.issued .C p {} 1).cc.wordAt (s.issued .C p {} 1).ctx.c.pc (s.issued .C p {} 1).work.len)
    set ((s.issued .C p {} 1).modCtx Ctx.leaveLocal)
    return Next.loops ((s.issued .C p {} 1).ctx.hiddenLoops .C) (s.issued .C p {} 1).ctx.csr.tepc : Act Next) (s.issued .C p {} 1))) := by
  have passes : (do trapIf (!(← get).ctx.csr.inh) 2 4 : Act Unit) s = .ok ((), s) := by
    rw [Act.bind_ok (Act.get_run _), inside]
    rfl
  exact issue_ready (n := fun _ => {}) ready passes

theorem exec_eret_target (target : s.cc.firstWord s.ctx.csr.tepc = false) :
    exec (.eret p) s = .next (s.stopped .C (.trap 1 5 (s.cc.wordAt s.ctx.c.pc s.work.len))) := by
  have pc : (s.issued .C p {} 1).ctx.c.pc = s.ctx.c.pc := s.pc_issued .C p {} 1
  have word : (s.issued .C p {} 1).cc.wordAt s.ctx.c.pc s.work.len = s.cc.wordAt s.ctx.c.pc s.work.len := by
    rw [Core.wordAt, State.imem_issued, Core.wordAt]
  rw [exec_eret_of_inside ready inside, State.tepc_issued, State.firstWord_issued, target, State.work_issued, pc, word]
  rw [Act.bind_error (trapIf_run (b := !false) rfl 1 5 _ _), State.concluded_error, State.issued_fills, State.keepFills_self]

/-- The core after the return from the local handler. -/
def State.returned (s : State) (p : BitVec 4) : State :=
  ((s.issued .C p {} 1).modCtx Ctx.leaveLocal).retired (.eret p) .C p {} (.loops (s.ctx.hiddenLoops .C) s.ctx.csr.tepc)

theorem exec_eret (target : s.cc.firstWord s.ctx.csr.tepc = true) : exec (.eret p) s = .next (s.returned p) := by
  rw [exec_eret_of_inside ready inside, State.tepc_issued, State.firstWord_issued, target, State.hiddenLoops_issued]
  rfl

end inside

theorem OnlyCore.returned (s : State) (p : BitVec 4) : OnlyCore s (s.returned p) :=
  OnlyCore.retired ((Within.issued s .C p {} 1).modCtx _) (.eret p) .C p {} _

/-- C has gone to TEPC, and with INH clear it hides no loop. -/
theorem State.c_returned {s : State} {p : BitVec 4} (idle : s.ctx.c.prog = none) : (s.returned p).ctx.c = { s.ctx.c with
    loops := (applyLoopEnd (s.ctx.hiddenLoops .C) s.ctx.csr.tepc).1, pc := (applyLoopEnd (s.ctx.hiddenLoops .C) s.ctx.csr.tepc).2
    wc := s.ctx.c.wc + 1, passed := s.now } := by
  have unhidden : (s.issued .C p {} 1).ctx.leaveLocal.hiddenLoops .C = [] := by
    rw [Ctx.hiddenLoops, if_neg (by simp [Ctx.leaveLocal])]
  have eng : (s.issued .C p {} 1).ctx.c = { s.ctx.c with wc := s.ctx.c.wc + 1, passed := s.now } := s.eng_issued_same .C p {} 1
  have landed : (s.returned p).ctx.c = _ :=
    (congrArg (Ctx.eng · .C) (State.ctx_retired _ (.eret p) .C p {} _)).trans (Ctx.eng_retire_loops _ .C _ _ _ _)
  have left : (s.issued .C p {} 1).ctx.leaveLocal.eng .C = { (s.issued .C p {} 1).ctx.c with
    loops := (s.issued .C p {} 1).ctx.hiddenLoops .C, pc := (s.issued .C p {} 1).ctx.csr.tepc } := rfl
  rw [landed, State.ctx_modCtx, unhidden, List.append_nil, left, eng, ← idle]

theorem State.ctx_returned (s : State) (p : BitVec 4) : ∃ c fi re, (s.returned p).ctx =
    { s.ctx with c := c, fifo := fi, resv := re, csr := { (s.issued .C p {} 1).ctx.csr with inh := false, hidden := 0 } } := by
  obtain ⟨k, retired⟩ := ((s.issued .C p {} 1).ctx.leaveLocal).retire_shape .C (({} : Needs).allPushes .C p) 1
    (.loops (s.ctx.hiddenLoops .C) s.ctx.csr.tepc)
  obtain ⟨g, fi, re, cs, issued, -⟩ := s.issued_shape .C p {} 1
  rw [State.returned, State.ctx_retired, State.ctx_modCtx, show instrWords (.eret p) = 1 from rfl, retired, issued]
  exact ⟨_, _, _, rfl⟩

/-! ### WFE -/

/-- WFE that is over clears EVT and retires. -/
theorem exec_wfe {s : State} {p : BitVec 4} (ready : Ready (.wfe p) .C p {} s = true) (event : s.ctx.csr.evt = true) : exec (.wfe p) s = .next
    (((s.issued .C p {} 1).modCtx fun c => { c with csr := { c.csr with evt := false } }).retired (.wfe p) .C p {} .seq) := by
  have run : exec (.wfe p) s = _ := issue_ready (n := fun _ => {}) (pre := pure ()) (x := ((), s)) ready rfl
  have evt : (s.issued .C p {} 1).ctx.csr.evt = true := by rw [State.csr_issued]; exact event
  have isOver : ∀ n, (s.issued .C p {} 1).cc.wfeOver n = true := fun n => by
    rw [Core.wfeOver, show (s.issued .C p {} 1).cc.ctx.csr.evt = true from evt]
    rfl
  have words : instrWords (.wfe p) = 1 := rfl
  rw [Act.bind_ok (Act.get_run _)] at run
  simp only [words, isOver, if_true] at run
  exact run

/-- So does one whose time has run out. -/
theorem exec_wfe_timed {s : State} {p : BitVec 4} {pr : Prog} (run : s.cc.runnable .C = true) (sound : s.cc.badPath ≠ some .C)
    (waits : (s.ctx.eng .C).prog = some pr) (acts : pr.fill = false) (begun : pr.stage ≠ 0) (isOver : s.cc.wfeOver pr.mark = true) :
    exec (.wfe p) s = .next ((s.modCtx fun c => { c with csr := { c.csr with evt := false } }).retired (.wfe p) .C p {} .seq) := by
  have more : exec (.wfe p) s = .next (s.settle .C p {} 1 _) := congrArg Host.Outcome.next (issueOn_more (n := fun _ => {}) run waits acts)
  rw [State.settle_sound sound, Act.bind_ok (Act.get_run _)] at more
  dsimp only at more
  rw [if_neg begun, if_pos isOver] at more
  exact more

theorem Core.wfeOver_of_time {c : Core} {since : Nat} (limit : c.ctx.csr.tmo ≠ 0) (past : since + c.ctx.csr.tmo.toNat ≤ c.ctx.csr.cycle.toNat) :
    c.wfeOver since = true := by
  simp only [Core.wfeOver, decide_eq_true limit, decide_eq_true past, Bool.and_self, Bool.or_true, Bool.true_or]

/-- Settles O19: TRAP and ERET outside a handler stop, the others retire from the state in which they issue. -/
theorem trapEretWfeComplete : Obligations.TrapEretWfeComplete := by
  unfold Obligations.TrapEretWfeComplete
  refine ⟨fun s p => ⟨fun code ready => exec_trap ready, fun ready inside target => ?_, fun ready event => exec_wfe ready event,
    fun pr run sound waits acts begun limit past => exec_wfe_timed run sound waits acts (by rw [begun]; decide) (Core.wfeOver_of_time limit past)⟩,
    fun s p ready => ⟨fun outside => exec_eret_outside ready outside, fun inside target => exec_eret_target ready inside target⟩⟩
  obtain ⟨-, idle, -⟩ := Ready.iff.1 ready
  obtain ⟨c, fi, re, shape⟩ := s.ctx_returned p
  refine ⟨s.returned p, exec_eret ready inside target, OnlyCore.returned s p, State.c_returned idle, ?_, ?_⟩
  · rw [shape, State.csr_issued]
  · rw [shape]

end Sys2Proof.Machine
end

section
/-! TLBIR and TLBACK (R139, R140). -/
namespace Sys2Proof.Machine

/-! ### Where C goes on -/

/-- What of a core decides where C goes on: C itself, and the loops that the local handler hides. -/
structure Ctx.SameFlow (c d : Ctx) : Prop where
  engine : d.c = c.c
  inh : d.csr.inh = c.csr.inh
  hidden : d.csr.hidden = c.csr.hidden

theorem Ctx.SameFlow.refl (c : Ctx) : c.SameFlow c := ⟨rfl, rfl, rfl⟩

theorem Ctx.SameFlow.trans {c d x : Ctx} (h : c.SameFlow d) (g : d.SameFlow x) : c.SameFlow x :=
  ⟨g.engine.trans h.engine, g.inh.trans h.inh, g.hidden.trans h.hidden⟩

theorem Ctx.SameFlow.loops {c d : Ctx} (h : c.SameFlow d) : d.seenLoops .C = c.seenLoops .C ∧ d.hiddenLoops .C = c.hiddenLoops .C := by
  have loops : (d.eng .C).loops = (c.eng .C).loops := congrArg Engine.loops h.engine
  constructor
  · rw [Ctx.seenLoops, loops, h.inh, h.hidden, Ctx.seenLoops]
  · rw [Ctx.hiddenLoops, loops, h.inh, h.hidden, Ctx.hiddenLoops]

/-- An instruction that has changed nothing of the kind since it issued goes on at the next word. -/
theorem Passed.of_sameFlow {s u : State} {i : Instr} {p : BitVec 4} {n : Needs} (h : (s.issued .C p n (instrWords i)).ctx.SameFlow u.ctx) :
    Passed .C (encode i).length (s.nextPc .C (encode i).length) (s.nextLoops .C (encode i).length) s (u.retired i .C p n .seq) := by
  obtain ⟨seen, hidden⟩ := h.loops
  have eng : u.ctx.eng .C = { s.ctx.eng .C with wc := (s.ctx.eng .C).wc + BitVec.ofNat 32 (instrWords i), passed := s.now } :=
    Eq.trans (show u.ctx.eng .C = (s.issued .C p n (instrWords i)).ctx.eng .C from h.engine) (s.eng_issued_same .C p n (instrWords i))
  exact Passed.of_retired (by rw [eng]) (seen.trans (State.seenLoops_issued ..)) (hidden.trans (State.hiddenLoops_issued ..)) i p n (by rw [eng]; rfl)

/-! What retirement and a refresh that is due leave. -/

theorem State.retired_mem (t : State) (i : Instr) (e : Eng) (p : BitVec 4) (n : Needs) (nx : Next) : (t.retired i e p n nx).mem = t.mem := rfl
theorem State.retired_invals (t : State) (i : Instr) (e : Eng) (p : BitVec 4) (n : Needs) (nx : Next) : (t.retired i e p n nx).invals = t.invals := rfl
theorem State.retired_due (t : State) (i : Instr) (e : Eng) (p : BitVec 4) (n : Needs) (nx : Next) : (t.retired i e p n nx).due = t.due := rfl
theorem State.refresh_ctx (t : State) : t.refresh.ctx = t.ctx := rfl
theorem State.mem_due_refresh (t : State) : t.cur ∈ t.refresh.due := List.mem_cons_self

/-! ### The log -/

theorem logEffect_run (kind : ActKind) (result : Nat) (s : State) :
    logEffect .C kind (BitVec.ofNat 256 result) 0 s = .ok ((), s.logAct kind result) := rfl

theorem Ctx.SameFlow.logAct (u : State) (kind : ActKind) (result : Nat) : u.ctx.SameFlow (u.logAct kind result).ctx := by
  unfold State.logAct
  split
  · have kept : (u.modWork fun w => { w with log := w.log ++ [{ kind, pc := (u.ctx.eng .C).pc, result := BitVec.ofNat 256 result, pub := 0 }] }).ctx
        = u.ctx := by rw [State.ctx, State.cc_modWork, State.ctx]
    rw [State.ctx_countOn, kept]
    split <;> exact ⟨rfl, rfl, rfl⟩
  · rw [State.ctx_modCtx]
    exact ⟨rfl, rfl, rfl⟩

theorem State.logAct_mem (u : State) (kind : ActKind) (result : Nat) : (u.logAct kind result).mem = u.mem := by
  unfold State.logAct
  split <;> rfl

theorem State.logAct_invals (u : State) (kind : ActKind) (result : Nat) : (u.logAct kind result).invals = u.invals := by
  unfold State.logAct
  split <;> rfl

theorem State.logAct_cur (u : State) (kind : ActKind) (result : Nat) : (u.logAct kind result).cur = u.cur := by
  unfold State.logAct
  split <;> rfl

/-! ### Invalidation -/

/-- A change of every core of a map that leaves an unlisted one. -/
theorem SMap.get_mapValues {α : Type} (m : SMap α) (d : α) (f : α → α) (h : f d = d) (k : Nat) :
    SMap.get (m.map fun e => (e.1, f e.2)) d k = f (m.get d k) := by
  unfold SMap.get
  induction m with
  | nil => exact h.symm
  | cons e r ih =>
    obtain ⟨j, a⟩ := e
    simp only [List.map_cons, SMap.find_cons]
    split
    · rfl
    · exact ih

theorem State.core_invalidate (s : State) (v : Inval) (k : Nat) : (s.invalidate v).core k = { s.core k with
    tlbC := (s.core k).tlbC.filter fun t => !v.coversTlb t, tlbA := (s.core k).tlbA.filter fun t => !v.coversTlb t
    work := (s.core k).work.map v.markWork, ob := (s.core k).ob.map v.markStore } :=
  SMap.get_mapValues s.cores {} (fun c => { c with
    tlbC := c.tlbC.filter fun t => !v.coversTlb t, tlbA := c.tlbA.filter fun t => !v.coversTlb t
    work := c.work.map v.markWork, ob := c.ob.map v.markStore }) rfl k

/-- No core holds a covered translation. -/
theorem State.uncovered_invalidate (s : State) (v : Inval) (k : Nat) :
    ∀ x ∈ ((s.invalidate v).core k).tlbC ++ ((s.invalidate v).core k).tlbA, v.coversTlb x = false := by
  intro x hx
  rw [State.core_invalidate, List.mem_append, List.mem_filter, List.mem_filter] at hx
  obtain ⟨-, h⟩ | ⟨-, h⟩ := hx
  · exact Bool.not_eq_true' _ ▸ h
  · exact Bool.not_eq_true' _ ▸ h

theorem State.ctx_invalidate (s : State) (v : Inval) : (s.invalidate v).ctx = s.ctx := by
  rw [State.ctx, State.cc, State.core_invalidate]
  rfl

/-! ### The two instructions -/

section unburdened
variable {s : State} {p : BitVec 4} (free : s.unburdened)
include free

theorem State.unburdened_issued (n : Needs) (len : Nat) : (s.issued .C p n len).unburdened := by
  obtain ⟨spec, replay, sb, ob⟩ := free
  have ob' : (s.issued .C p n len).cc.ob = s.cc.ob := by rw [State.cc_issued]
  exact ⟨by rw [State.work_issued, spec], by rw [State.work_issued, replay], by rw [State.work_issued, sb], by rw [ob', ob]⟩

/-- What TLBIR leaves before it retires: the range, if there is one, is invalidated, and the act is logged. -/
def State.tlbirSent (u : State) (gd ga gb : BitVec 5) : State :=
  match invalRange (u.reg .C ga).toNat (u.reg .C gb).toNat with
  | none => u.logAct .tlbir 0
  | some (lo, hi) =>
    ({ u.invalidate { id := u.invNo, part := u.work.part, asid := bits (u.reg .C gd) 15 0, lo, hi, core := some u.cur }
      with invNo := u.invNo + 1 } : State).logAct .tlbir (u.invNo + 1)

theorem exec_tlbir {gd ga gb : BitVec 5} (few : s.openInvals s.cur < 16)
    (ready : Ready (.tlbir p gd ga gb) .C p { waits := [(false, .memory)] } s = true) : exec (.tlbir p gd ga gb) s = .next
    (((s.issued .C p { waits := [(false, .memory)] } 1).tlbirSent gd ga gb).retired (.tlbir p gd ga gb) .C p { waits := [(false, .memory)] } .seq) := by
  obtain ⟨spec, replay, sb, ob⟩ := State.unburdened_issued (p := p) free { waits := [(false, .memory)] } 1
  have needs : ({ waits := [(decide (16 ≤ s.openInvals s.cur), .memory)] } : Needs) = { waits := [(false, .memory)] } := by
    rw [decide_eq_false (by omega)]
  have run : exec (.tlbir p gd ga gb) s = _ :=
    issue_ready (n := fun s => { waits := [(decide (16 ≤ s.openInvals s.cur), .memory)] }) (pre := pure ()) (x := ((), s)) (needs ▸ ready) rfl
  have words : instrWords (.tlbir p gd ga gb) = 1 := rfl
  simp only [needs, words] at run
  rw [Act.bind_ok (irrevocable_run spec), logged_live replay, releasing_run sb ob rfl, Act.bind_ok (Act.get_run _)] at run
  rw [run, State.tlbirSent]
  cases invalRange ((s.issued .C p { waits := [(false, .memory)] } 1).reg .C ga).toNat
      ((s.issued .C p { waits := [(false, .memory)] } 1).reg .C gb).toNat with
  | none => rfl
  | some r => rfl

/-- TLBACK with no TLBIR of the core's to wait for. -/
theorem exec_tlback (acked : s.unacked s.cur = 0) (ready : Ready (.tlback p) .C p {} s = true) : exec (.tlback p) s = .next
    (((s.issued .C p {} 1).logAct .tlback 0).refresh.retired (.tlback p) .C p {} .seq) := by
  obtain ⟨spec, replay, -, -⟩ := State.unburdened_issued (p := p) free {} 1
  have none : (s.issued .C p {} 1).unacked (s.issued .C p {} 1).cur = 0 := acked
  have run : exec (.tlback p) s = _ := issue_ready (n := fun _ => {}) (pre := pure ()) (x := ((), s)) ready rfl
  have words : instrWords (.tlback p) = 1 := rfl
  simp only [words] at run
  rw [Act.bind_ok (irrevocable_run spec), logged_live replay, Act.bind_ok (Act.get_run _), if_pos none, Act.bind_ok (show logEffect .C .tlback 0 0 _ = _ from logEffect_run .tlback 0 _),
    Act.bind_ok (Act.modify_run _ _)] at run
  exact run

end unburdened

/-! ### What TLBIR has sent -/

section sent
variable (u : State) (gd ga gb : BitVec 5)

theorem State.tlbirSent_none (empty : (u.reg .C gb).toNat = 0 ∨ 2 ^ 52 ≤ (u.reg .C ga).toNat) : u.tlbirSent gd ga gb = u.logAct .tlbir 0 := by
  rw [State.tlbirSent, invalRange, if_pos empty]

/-- The invalidation of a TLBIR. -/
def State.tlbirInval (u : State) (gd ga gb : BitVec 5) : Inval where
  id := u.invNo
  part := u.work.part
  asid := bits (u.reg .C gd) 15 0
  lo := (u.reg .C ga).toNat
  hi := min ((u.reg .C ga).toNat + (u.reg .C gb).toNat) (2 ^ 52)
  core := some u.cur

theorem State.tlbirSent_some (range : ¬((u.reg .C gb).toNat = 0 ∨ 2 ^ 52 ≤ (u.reg .C ga).toNat)) : u.tlbirSent gd ga gb =
    ({ u.invalidate (u.tlbirInval gd ga gb) with invNo := u.invNo + 1 } : State).logAct .tlbir (u.invNo + 1) := by
  rw [State.tlbirSent, invalRange, if_neg range]
  rfl

theorem State.tlbirSent_mem : (u.tlbirSent gd ga gb).mem = u.mem := by
  by_cases empty : (u.reg .C gb).toNat = 0 ∨ 2 ^ 52 ≤ (u.reg .C ga).toNat
  · rw [u.tlbirSent_none gd ga gb empty, State.logAct_mem]
  · rw [u.tlbirSent_some gd ga gb empty, State.logAct_mem]
    rfl

theorem Ctx.SameFlow.tlbirSent : u.ctx.SameFlow (u.tlbirSent gd ga gb).ctx := by
  by_cases empty : (u.reg .C gb).toNat = 0 ∨ 2 ^ 52 ≤ (u.reg .C ga).toNat
  · rw [u.tlbirSent_none gd ga gb empty]
    exact Ctx.SameFlow.logAct u .tlbir 0
  · rw [u.tlbirSent_some gd ga gb empty]
    have same : ({ u.invalidate (u.tlbirInval gd ga gb) with invNo := u.invNo + 1 } : State).ctx = u.ctx := u.ctx_invalidate _
    rw [← same]
    exact Ctx.SameFlow.logAct _ _ _

end sent

/-- A change of a core that leaves its translations leaves every core's. -/
theorem State.tlbs_modCore (s : State) (j : Nat) {f : Core → Core} (hf : ∀ c, (f c).tlbC = c.tlbC ∧ (f c).tlbA = c.tlbA) (k : Nat) :
    ((s.modCore j f).core k).tlbC = (s.core k).tlbC ∧ ((s.modCore j f).core k).tlbA = (s.core k).tlbA := by
  rw [State.core_modCore]
  split
  next same => rw [same]; exact hf _
  next => exact ⟨rfl, rfl⟩

theorem State.tlbs_modCtx (s : State) (f : Ctx → Ctx) (k : Nat) :
    ((s.modCtx f).core k).tlbC = (s.core k).tlbC ∧ ((s.modCtx f).core k).tlbA = (s.core k).tlbA :=
  s.tlbs_modCore s.cur (f := fun c => { c with ctx := f c.ctx }) (fun _ => ⟨rfl, rfl⟩) k

/-- The log holds no translation. -/
theorem State.tlbs_logAct (u : State) (kind : ActKind) (result k : Nat) :
    ((u.logAct kind result).core k).tlbC = (u.core k).tlbC ∧ ((u.logAct kind result).core k).tlbA = (u.core k).tlbA := by
  unfold State.logAct
  split
  · obtain ⟨countedC, countedA⟩ := State.tlbs_modCore (u.modWork fun w =>
      { w with log := w.log ++ [{ kind, pc := (u.ctx.eng .C).pc, result := BitVec.ofNat 256 result, pub := 0 }] }) u.cur
      (f := fun c => { c with ctx := { c.ctx with csr := c.ctx.csr.count 0x0C none 1 } }) (fun _ => ⟨rfl, rfl⟩) k
    obtain ⟨loggedC, loggedA⟩ := State.tlbs_modCore u u.cur (f := fun c => { c with work := c.work.map fun w =>
      { w with log := w.log ++ [{ kind, pc := (u.ctx.eng .C).pc, result := BitVec.ofNat 256 result, pub := 0 }] } }) (fun _ => ⟨rfl, rfl⟩) k
    exact ⟨countedC.trans loggedC, countedA.trans loggedA⟩
  · exact u.tlbs_modCtx _ k

theorem State.tlbs_retired (u : State) (i : Instr) (p : BitVec 4) (n : Needs) (nx : Next) (k : Nat) :
    ((u.retired i .C p n nx).core k).tlbC = (u.core k).tlbC ∧ ((u.retired i .C p n nx).core k).tlbA = (u.core k).tlbA :=
  u.tlbs_modCtx (fun c => c.retire .C (n.allPushes .C p) (instrWords i) nx) k

/-- Once it has been sent and logged, no core holds a translation of the range. -/
theorem State.uncovered_tlbirSent (u : State) (gd ga gb : BitVec 5) (range : ¬((u.reg .C gb).toNat = 0 ∨ 2 ^ 52 ≤ (u.reg .C ga).toNat))
    (i : Instr) (p : BitVec 4) (n : Needs) (k : Nat) :
    ∀ x ∈ (((u.tlbirSent gd ga gb).retired i .C p n .seq).core k).tlbC ++ (((u.tlbirSent gd ga gb).retired i .C p n .seq).core k).tlbA,
      (u.tlbirInval gd ga gb).coversTlb x = false := by
  obtain ⟨retiredC, retiredA⟩ := (u.tlbirSent gd ga gb).tlbs_retired i p n .seq k
  obtain ⟨loggedC, loggedA⟩ :=
    ({ u.invalidate (u.tlbirInval gd ga gb) with invNo := u.invNo + 1 } : State).tlbs_logAct .tlbir (u.invNo + 1) k
  rw [retiredC, retiredA, u.tlbirSent_some gd ga gb range, loggedC, loggedA]
  exact u.uncovered_invalidate _ k

/-- Settles O17: what is sent is the range that R139 gives, and every core's caches are filtered by it. -/
theorem invalidationsComplete : Obligations.InvalidationsComplete := by
  unfold Obligations.InvalidationsComplete
  intro s p gd ga gb free few n start len
  have operand : ∀ r, (s.issued .C p n 1).reg .C r = s.reg .C r := State.reg_issued s .C .C p n 1
  refine ⟨fun ready => ⟨_, exec_tlbir free few ready, ?_, ?_, fun empty => ?_, fun nonempty inside => ?_⟩,
    fun ready acked => ⟨_, exec_tlback free acked ready, ?_, ?_, ?_⟩⟩
  · rw [State.retired_mem, State.tlbirSent_mem, State.issued_mem]
  · exact Passed.of_sameFlow (i := .tlbir p gd ga gb) (Ctx.SameFlow.tlbirSent (s.issued .C p n 1) gd ga gb)
  · rw [State.retired_invals, State.tlbirSent_none _ _ _ _ (by rw [operand, operand]; exact empty), State.logAct_invals, State.issued_invals]
  · have range : ¬(((s.issued .C p n 1).reg .C gb).toNat = 0 ∨ 2 ^ 52 ≤ ((s.issued .C p n 1).reg .C ga).toNat) := by
      rw [operand, operand]
      omega
    refine ⟨{ (s.issued .C p n 1).tlbirInval gd ga gb with
      keys := (s.issued .C p n 1).droppedKeys ((s.issued .C p n 1).tlbirInval gd ga gb) }, ?_, ?_, ?_, ?_, rfl, ?_, fun k => ?_⟩
    · exact congrArg Work.part (State.work_issued s .C p n 1)
    · exact congrArg (bits · 15 0) (operand gd)
    · exact congrArg BitVec.toNat (operand ga)
    · show min (_ + _) _ = _
      rw [operand, operand]
    · rw [State.retired_invals, State.tlbirSent_some _ _ _ _ range, State.logAct_invals]
      rfl
    · exact (s.issued .C p n 1).uncovered_tlbirSent gd ga gb range (.tlbir p gd ga gb) p n k
  · rw [State.retired_mem, State.refresh_mem, State.logAct_mem, State.issued_mem]
  · refine Passed.of_sameFlow (i := .tlback p) ?_
    rw [State.refresh_ctx]
    exact Ctx.SameFlow.logAct (s.issued .C p {} 1) .tlback 0
  · have due := State.mem_due_refresh ((s.issued .C p {} 1).logAct .tlback 0)
    rw [State.logAct_cur] at due
    rw [State.retired_due]
    exact due

end Sys2Proof.Machine
end

section
/-! MBSEND, MBRECV and MBPOLL (R134). -/
namespace Sys2Proof.Machine

/-! ### Ends and numbers -/

/-- The end other than m of a mailbox pair. -/
def otherEnd (m : Nat) : Nat := if m % 2 = 0 then m + 1 else m - 1

theorem receivingEnd_iff (k m : Nat) : receivingEnd k m = true ↔ k = 1024 + otherEnd m := by rw [receivingEnd, decide_eq_true_iff, otherEnd]
theorem sendingEnd_iff (k m : Nat) : sendingEnd k m = true ↔ k = 1024 + m := by rw [sendingEnd, decide_eq_true_iff]

theorem destination_eq (m : Nat) : (if m % 2 = 0 then 1024 + m + 1 else 1024 + m - 1) = 1024 + otherEnd m := by
  unfold otherEnd
  split <;> omega

/-- An instruction with nothing to wait for acts at once. -/
theorem mailboxWait_run {pr : Prog} (first : pr.stage = 0) (act : Prog → Act Next) :
    mailboxWait pr false act = act { pr with stage := 0, soft := false, undo := false } := by
  rw [mailboxWait, if_neg (by rw [first]; decide)]
  rfl

@[simp] theorem State.mbox_issued (s : State) (e : Eng) (p : BitVec 4) (n : Needs) (len m : Nat) : (s.issued e p n len).mbox m = s.mbox m := rfl

theorem State.Translated.mboxes {s u : State} (h : s.Translated u) : u.mboxes = s.mboxes := by rw [h.frame]
theorem State.Translated.mbox {s u : State} (h : s.Translated u) (m : Nat) : u.mbox m = s.mbox m := by rw [State.mbox, h.mboxes, State.mbox]

/-! The log and the event flag leave the rest of the core's work, and C. -/

theorem State.ccWork_logAct (u : State) (kind : ActKind) (n : Nat) : ∃ f : Work → List LogEntry,
    (u.logAct kind n).cc.work = u.cc.work.map fun w => { w with log := f w } := by
  unfold State.logAct
  split
  · refine ⟨fun w => w.log ++ [{ kind, pc := (u.ctx.eng .C).pc, result := BitVec.ofNat 256 n, pub := 0 }], ?_⟩
    have counted : ∀ v : State, (v.countOn v.cur 0x0C none 1).cc.work = v.cc.work := fun v =>
      (congrArg Core.work (State.cc_modCtx v fun c => { c with csr := c.csr.count 0x0C none 1 })).trans rfl
    exact (counted _).trans (congrArg Core.work (State.cc_modWork u _))
  · refine ⟨fun w => w.log, ?_⟩
    rw [State.cc_modCtx]
    exact Option.map_id'.symm

theorem State.work_logAct (u : State) (kind : ActKind) (n : Nat) : ∃ l, (u.logAct kind n).work = { u.work with log := l } := by
  obtain ⟨f, held⟩ := u.ccWork_logAct kind n
  rw [State.work, held, State.work]
  cases u.cc.work with
  | none => exact ⟨_, rfl⟩
  | some w => exact ⟨f w, rfl⟩

theorem State.engC_logAct (u : State) (kind : ActKind) (n : Nat) : (u.logAct kind n).ctx.eng .C = u.ctx.eng .C :=
  (Ctx.SameFlow.logAct u kind n).engine

theorem State.logAct_parts (u : State) (kind : ActKind) (n : Nat) : (u.logAct kind n).parts = u.parts := by
  unfold State.logAct
  split <;> rfl

theorem State.cc_setEvt (u : State) (k : Nat) : ∃ r : Csrs, (u.setEvt k).cc = { u.cc with ctx := { u.ctx with csr := r } } := by
  show ∃ r : Csrs, (u.modCtxOf k _).core u.cur = _
  rw [State.core_modCtxOf]
  split
  next same =>
    rw [← same]
    exact ⟨_, rfl⟩
  next => exact ⟨u.ctx.csr, rfl⟩

theorem State.work_setEvt (u : State) (k : Nat) : (u.setEvt k).work = u.work := by
  obtain ⟨r, core⟩ := u.cc_setEvt k
  rw [State.work, core, State.work]

theorem State.engC_setEvt (u : State) (k : Nat) : (u.setEvt k).ctx.eng .C = u.ctx.eng .C := by
  obtain ⟨r, core⟩ := u.cc_setEvt k
  rw [State.ctx, core]
  rfl

section status
variable {s : State} {p : BitVec 4} {gd ga gb : BitVec 5}

/-! ### MBPOLL, and the statuses -/

theorem exec_mbpoll (ready : Ready (.mbpoll p gd ga gb) .C p {} s = true) : exec (.mbpoll p gd ga gb) s = .next
    (((s.issued .C p {} 1).setReg .C gd
      (if (s.reg .C gb).toNat ≤ 7 ∧ s.cur = 1024 + otherEnd (s.reg .C gb).toNat then BitVec.ofNat 64 (s.mbox (s.reg .C gb).toNat).length
        else if (s.reg .C gb).toNat ≤ 7 ∧ s.cur = 1024 + (s.reg .C gb).toNat then BitVec.ofNat 64 (64 - (s.mbox (s.reg .C gb).toNat).length)
        else BitVec.allOnes 64)).retired (.mbpoll p gd ga gb) .C p {} .seq) := by
  have run : exec (.mbpoll p gd ga gb) s = _ := issueSimple_ready ready
  rw [Act.bind_ok (Act.get_run _), State.reg_issued] at run
  simp only [Bool.and_eq_true, decide_eq_true_eq, receivingEnd_iff, sendingEnd_iff, State.mbox_issued, State.issued_cur] at run
  exact run

theorem exec_mbsend_refused (ready : Ready (.mbsend p gd ga gb) .C p {} s = true) :
    (7 < (s.reg .C gb).toNat →
      exec (.mbsend p gd ga gb) s = .next (((s.issued .C p {} 1).setReg .C gd 2).retired (.mbsend p gd ga gb) .C p {} .seq)) ∧
    ((s.reg .C gb).toNat ≤ 7 → s.cur ≠ 1024 + (s.reg .C gb).toNat →
      exec (.mbsend p gd ga gb) s = .next (((s.issued .C p {} 1).setReg .C gd 1).retired (.mbsend p gd ga gb) .C p {} .seq)) := by
  have run : exec (.mbsend p gd ga gb) s = _ := issue_ready (n := fun _ => {}) (pre := pure ()) (x := ((), s)) ready rfl
  rw [Act.bind_ok (Act.get_run _), State.reg_issued] at run
  dsimp only at run
  refine ⟨fun high => ?_, fun low other => ?_⟩
  · rw [if_pos high] at run
    exact run
  · have notEnd : (!sendingEnd (s.issued .C p {} (instrWords (.mbsend p gd ga gb))).cur (s.reg .C gb).toNat) = true := by
      rw [Bool.not_eq_true', ← Bool.not_eq_true, sendingEnd_iff]
      exact other
    rw [if_neg (by omega), if_pos notEnd] at run
    exact run

theorem exec_mbrecv_refused (ready : Ready (.mbrecv p gd ga gb) .C p {} s = true) :
    (7 < (s.reg .C gb).toNat →
      exec (.mbrecv p gd ga gb) s = .next (((s.issued .C p {} 1).setReg .C gd 2).retired (.mbrecv p gd ga gb) .C p {} .seq)) ∧
    ((s.reg .C gb).toNat ≤ 7 → s.cur ≠ 1024 + otherEnd (s.reg .C gb).toNat →
      exec (.mbrecv p gd ga gb) s = .next (((s.issued .C p {} 1).setReg .C gd 1).retired (.mbrecv p gd ga gb) .C p {} .seq)) := by
  have run : exec (.mbrecv p gd ga gb) s = _ := issue_ready (n := fun _ => {}) (pre := pure ()) (x := ((), s)) ready rfl
  rw [Act.bind_ok (Act.get_run _), State.reg_issued] at run
  dsimp only at run
  refine ⟨fun high => ?_, fun low other => ?_⟩
  · rw [if_pos high] at run
    exact run
  · have notEnd : (!receivingEnd (s.issued .C p {} (instrWords (.mbrecv p gd ga gb))).cur (s.reg .C gb).toNat) = true := by
      rw [Bool.not_eq_true', ← Bool.not_eq_true, receivingEnd_iff]
      exact other
    rw [if_neg (by omega), if_pos notEnd] at run
    exact run

/-! ### MBSEND -/

theorem exec_mbsend {u : State} {l : List Byte} (ready : Ready (.mbsend p gd ga gb) .C p {} s = true) (low : (s.reg .C gb).toNat ≤ 7)
    (atEnd : s.cur = 1024 + (s.reg .C gb).toNat) (aligned : (s.reg .C ga).toNat % 32 = 0) (served : s.serves p 1 (s.reg .C ga).toNat 32 l u)
    (free : u.unburdened) (room : (s.mbox (s.reg .C gb).toNat).length < 64) : exec (.mbsend p gd ga gb) s = .next
      ((((({ u with mboxes := u.mboxes.set [] (s.reg .C gb).toNat (s.mbox (s.reg .C gb).toNat ++ [BitVec.ofNat 256 (ofBytes l)]) } : State).setEvt
        (1024 + otherEnd (s.reg .C gb).toNat)).logAct .mbsend 0).setReg .C gd 0).retired (.mbsend p gd ga gb) .C p {} .seq) := by
  obtain ⟨spec, replay, sb, ob⟩ := free
  have box : u.mbox (s.reg .C gb).toNat = s.mbox (s.reg .C gb).toNat := (State.Translated.of_serves served).mbox _
  have run : exec (.mbsend p gd ga gb) s = _ := issue_ready (n := fun _ => {}) (pre := pure ()) (x := ((), s)) ready rfl
  have words : instrWords (.mbsend p gd ga gb) = 1 := rfl
  have atEnd' : sendingEnd s.cur (s.reg .C gb).toNat = true := (sendingEnd_iff _ _).2 atEnd
  rw [Act.bind_ok (Act.get_run _), State.reg_issued] at run
  simp only [words, if_neg (show ¬ 7 < (s.reg .C gb).toNat by omega), State.issued_cur, atEnd', Bool.not_true, Bool.false_eq_true, if_false, State.mbox_issued,
    decide_eq_false (show ¬ 64 ≤ (s.mbox (s.reg .C gb).toNat).length by omega), State.reg_issued] at run
  rw [Act.bind_ok (checkAlign_of_dvd aligned _), Act.bind_ok (readOnce_of_serves served), Act.bind_ok (irrevocable_run spec), logged_live replay,
    mailboxWait_run rfl, releasing_run sb ob rfl, Act.bind_ok (Act.get_run _), box, destination_eq] at run
  exact run

/-! ### MBRECV -/

/-- The state in which a message that has been taken is appended: the mailbox holds the rest, the sender's event flag is set, and the act is
logged. -/
def State.mbTaken (u : State) (m : Nat) (x : BitVec 256) (rest : List (BitVec 256)) : State :=
  (({ u with mboxes := u.mboxes.set [] m rest } : State).setEvt (1024 + m)).logAct .mbrecv x.toNat

theorem State.work_mbTaken (u : State) (m : Nat) (x : BitVec 256) (rest : List (BitVec 256)) : ∃ l, (u.mbTaken m x rest).work = { u.work with log := l } := by
  obtain ⟨l, logged⟩ := State.work_logAct (({ u with mboxes := u.mboxes.set [] m rest } : State).setEvt (1024 + m)) .mbrecv x.toNat
  exact ⟨l, logged.trans (by rw [State.work_setEvt]; rfl)⟩

theorem State.engC_mbTaken (u : State) (m : Nat) (x : BitVec 256) (rest : List (BitVec 256)) : (u.mbTaken m x rest).ctx.eng .C = u.ctx.eng .C :=
  (State.engC_logAct _ _ _).trans (State.engC_setEvt { u with mboxes := u.mboxes.set [] m rest } (1024 + m))

theorem State.mbTaken_cur (u : State) (m : Nat) (x : BitVec 256) (rest : List (BitVec 256)) : (u.mbTaken m x rest).cur = u.cur :=
  State.logAct_cur _ _ _

theorem State.windowNow_mbTaken (u : State) (m : Nat) (x : BitVec 256) (rest : List (BitVec 256)) (va : Nat) :
    (u.mbTaken m x rest).windowNow va = u.windowNow va := by
  obtain ⟨l, work⟩ := u.work_mbTaken m x rest
  have parts : (u.mbTaken m x rest).parts = u.parts := State.logAct_parts _ _ _
  rw [State.windowNow, work, State.redirect, State.part, parts]
  rfl

theorem State.Translated.windowNow {s u : State} (h : s.Translated u) (va : Nat) : u.windowNow va = s.windowNow va := by
  rw [State.windowNow, h.work, State.redirect, h.part]
  rfl

theorem logEffect_message (x : BitVec 256) (s : State) : logEffect .C .mbrecv x 0 s = .ok ((), s.logAct .mbrecv x.toNat) := by
  have run := logEffect_run .mbrecv x.toNat s
  rwa [BitVec.ofNat_toNat, BitVec.setWidth_eq] at run

/-- The message joins the store buffer of a core that had nothing to publish. -/
theorem storeAppend_mbTaken {u w : State} {m key a : Nat} {x : BitVec 256} {rest : List (BitVec 256)} (empty : u.work.sb = [])
    (free : (u.ctx.eng .C).stuck = false) (reached : xlate (.coreC u.cur) (u.windowNow a) accWrite 32 (u.mbTaken m x rest) = .ok (key, w))
    (near : w.lostPeer key = false) : storeAppend .C a 32 x.toNat 32 (u.mbTaken m x rest) = .ok ((), w.modWork fun y =>
      { y with sb := y.sb ++ [{ va := u.windowNow a, key, size := 32, data := x, eng := .C, pc := (u.ctx.eng .C).pc, part := y.part, asid := y.asid }] }) := by
  obtain ⟨l, work⟩ := u.work_mbTaken m x rest
  have run := storeAppend_run (v := u.mbTaken m x rest) (va := a) (n := 32) (x := x.toNat) (key := key) (u := w)
    (by rw [State.mbTaken_cur, State.windowNow_mbTaken]; exact reached) (by rw [← (State.Translated.of_xlateAs reached).lostPeer]; exact near)
    (by rw [work, empty]; decide) (by rw [State.engC_mbTaken]; exact free)
  rw [State.windowNow_mbTaken, State.engC_mbTaken, BitVec.ofNat_toNat, BitVec.setWidth_eq] at run
  exact run

theorem exec_mbrecv {u w : State} {key key' : Nat} {x : BitVec 256} {rest : List (BitVec 256)} (ready : Ready (.mbrecv p gd ga gb) .C p {} s = true)
    (low : (s.reg .C gb).toNat ≤ 7) (atEnd : s.cur = 1024 + otherEnd (s.reg .C gb).toNat) (aligned : (s.reg .C ga).toNat % 32 = 0)
    (reached : s.reaches p 1 (s.windowNow (s.reg .C ga).toNat) accWrite 32 key u) (free : u.unburdened)
    (box : s.mbox (s.reg .C gb).toNat = x :: rest) (unstuck : s.ctx.c.stuck = false)
    (again : xlate (.coreC s.cur) (s.windowNow (s.reg .C ga).toNat) accWrite 32 (u.mbTaken (s.reg .C gb).toNat x rest) = .ok (key', w))
    (near : w.lostPeer key' = false) : exec (.mbrecv p gd ga gb) s = .next
      ((((w.modWork fun y => { y with sb := y.sb ++ [{ va := s.windowNow (s.reg .C ga).toNat, key := key', size := 32, data := x, eng := .C
                                                       pc := s.ctx.c.pc, part := y.part, asid := y.asid }] }).refresh).setReg .C gd 0).retired
        (.mbrecv p gd ga gb) .C p {} .seq) := by
  obtain ⟨spec, replay, sb, -⟩ := free
  have tr := State.Translated.of_reaches reached
  have window : u.windowNow (s.reg .C ga).toNat = s.windowNow (s.reg .C ga).toNat := (tr.windowNow _).trans (State.windowNow_issued ..)
  have cur : u.cur = s.cur := tr.cur
  have eng : u.ctx.eng .C = { s.ctx.eng .C with wc := (s.ctx.eng .C).wc + BitVec.ofNat 32 1, passed := s.now } := (tr.eng .C).trans (s.eng_issued_same ..)
  have stores := storeAppend_mbTaken (u := u) (a := (s.reg .C ga).toNat) sb (by rw [eng]; exact unstuck) (by rw [cur, window]; exact again) near
  rw [State.mbTaken, window, eng] at stores
  have run : exec (.mbrecv p gd ga gb) s = _ := issue_ready (n := fun _ => {}) (pre := pure ()) (x := ((), s)) ready rfl
  have words : instrWords (.mbrecv p gd ga gb) = 1 := rfl
  have atEnd' : receivingEnd s.cur (s.reg .C gb).toNat = true := (receivingEnd_iff _ _).2 atEnd
  rw [Act.bind_ok (Act.get_run _), State.reg_issued] at run
  simp only [words, if_neg (show ¬ 7 < (s.reg .C gb).toNat by omega), State.issued_cur, atEnd', Bool.not_true, Bool.false_eq_true, if_false, State.mbox_issued,
    box, List.isEmpty_cons, List.headD_cons, State.reg_issued, State.windowNow_issued] at run
  rw [Act.bind_ok (checkAlign_of_dvd aligned _), Act.bind_ok (show xlate (.coreC s.cur) _ _ _ _ = _ from reached), Act.bind_ok (irrevocable_run spec),
    logged_live replay, mailboxWait_run rfl, Act.bind_ok (Act.modify_run _ _)] at run
  rw [(tr.mbox _).trans ((State.mbox_issued ..).trans box), List.tail_cons, Act.bind_ok (logEffect_message ..),
    Act.bind_ok (show storeAppend .C _ 32 _ 32 _ = _ from stores), Act.bind_ok (Act.modify_run _ _)] at run
  exact run

end status

/-- Settles O24: each refusal by its own test, and each end's act as the release and the store buffer of an unburdened core have it. -/
theorem mailboxesComplete : Obligations.MailboxesComplete := by
  unfold Obligations.MailboxesComplete
  intro s p gd ga gb
  refine ⟨fun ready => ⟨(exec_mbsend_refused ready).1, (exec_mbsend_refused ready).2, fun u l low atEnd aligned served free room =>
      exec_mbsend ready low atEnd aligned served free room⟩,
    fun ready => ⟨(exec_mbrecv_refused ready).1, (exec_mbrecv_refused ready).2,
      fun u key x rest w key' low atEnd aligned reached free box unstuck again near =>
        exec_mbrecv ready low atEnd aligned reached free box unstuck again near⟩,
    fun ready => exec_mbpoll ready⟩

end Sys2Proof.Machine
end

section
/-! NESTW, NGO, NWAIT and FMTQ (R137, R138, R141). -/
namespace Sys2Proof.Machine

/-! ### What issue leaves of the array -/

theorem State.ar_issued (s : State) (e : Eng) (p : BitVec 4) (n : Needs) (len : Nat) : (s.issued e p n len).ctx.ar = s.ctx.ar := by
  obtain ⟨g, fi, re, cs, shape, -⟩ := s.issued_shape e p n len
  rw [shape]
  cases e <;> rfl

theorem State.tableValid_issued (s : State) (e : Eng) (p : BitVec 4) (n : Needs) (len : Nat) (t : SMap Word) :
    (s.issued e p n len).ctx.tableValid t = s.ctx.tableValid t := by
  have rings : ∀ r, (s.issued e p n len).ctx.ring r = s.ctx.ring r := fun r => by
    obtain ⟨g, fi, re, cs, shape, -⟩ := s.issued_shape e p n len
    rw [shape]
    cases e <;> rfl
  simp only [Ctx.tableValid, rings]

theorem MArray.open_iff (a : MArray) : a.open' = true ↔ a.nest = none ∧ a.hold = none := by
  simp only [MArray.open', Bool.and_eq_true, Option.isNone_iff_eq_none]

section control
variable {s : State} {p : BitVec 4}

/-! ### NESTW, NWAIT and FMTQ -/

theorem exec_nestw {gd ga gb : BitVec 5} (ready : Ready (.nestw p gd ga gb) .C p { overlaps := decide (p = 0) } s = true) :
    let beside : Needs := { overlaps := decide (p = 0) }
    let put := fun (t : SMap Word) =>
      (t.set 0 (2 * bits (s.reg .C gd) 3 0) (s.reg .C ga)).set 0 (2 * bits (s.reg .C gd) 3 0 + 1) (s.reg .C gb)
    exec (.nestw p gd ga gb) s = .next
      ((if isConductor s.cur then s.issued .C p beside 1
        else (s.issued .C p beside 1).modCtx fun c => { c with ar :=
          if c.ar.swapped then { c.ar with n0 := put c.ar.n0 } else { c.ar with n1 := put c.ar.n1 } }).retired
        (.nestw p gd ga gb) .C p beside .seq) := by
  have run : exec (.nestw p gd ga gb) s = _ :=
    issue_ready (n := fun _ => { overlaps := decide (p = 0) }) (pre := pure ()) (x := ((), s)) ready rfl
  rw [Act.bind_ok (Act.get_run _), State.reg_issued, State.reg_issued, State.reg_issued] at run
  exact run

theorem exec_nwait (ready : Ready (.nwait p) .C p { waits := [(false, .array)] } s = true) (idle : isConductor s.cur = true ∨ s.ctx.ar.idle = true) :
    exec (.nwait p) s =
      .next ((s.issued .C p { waits := [(false, .array)] } 1).retired (.nwait p) .C p { waits := [(false, .array)] } .seq) := by
  have needs : ({ waits := [(!isConductor s.cur && !s.ctx.ar.idle, .array)] } : Needs) = { waits := [(false, .array)] } := by
    obtain h | h := idle <;> rw [h, Bool.not_true] <;> simp
  have run : exec (.nwait p) s = _ := issue_ready (n := fun s => { waits := [(!isConductor s.cur && !s.ctx.ar.idle, .array)] }) (pre := pure ())
    (x := ((), s)) (needs ▸ ready) rfl
  rw [needs] at run
  exact run

theorem exec_fmtq {ga : BitVec 5} (ready : Ready (.fmtq p ga) .C p { waits := [(false, .format)] } s = true)
    (room : isConductor s.cur = true ∨ s.ctx.ar.fq.length < 16) :
    let n : Needs := { waits := [(false, .format)] }
    exec (.fmtq p ga) s = .next
      ((if isConductor s.cur then s.issued .C p n 1
        else (s.issued .C p n 1).modCtx fun c => { c with ar := { c.ar with fq := c.ar.fq ++ [s.reg .C ga] } }).retired
        (.fmtq p ga) .C p n .seq) := by
  have needs : ({ waits := [(!isConductor s.cur && decide (16 ≤ s.ctx.ar.fq.length), .format)] } : Needs) = { waits := [(false, .format)] } := by
    obtain h | h := room
    · rw [h]
      rfl
    · rw [decide_eq_false (show ¬ 16 ≤ s.ctx.ar.fq.length by omega), Bool.and_false]
  have run : exec (.fmtq p ga) s = _ := issue_ready
    (n := fun s => { waits := [(!isConductor s.cur && decide (16 ≤ s.ctx.ar.fq.length), .format)] }) (pre := pure ()) (x := ((), s)) (needs ▸ ready) rfl
  rw [needs, Act.bind_ok (Act.get_run _), State.reg_issued] at run
  exact run

/-! ### NGO -/

section ngo
variable (ready : Ready (.ngo p) .C p {} s = true)
include ready

theorem exec_ngo_conductor (conductor : isConductor s.cur = true) : exec (.ngo p) s = .next (s.stopped .C (.trap 2 3 0)) := by
  refine issue_stops (n := fun _ => {}) ready ?_
  rw [Act.bind_ok (Act.get_run _), Act.bind_error (trapIf_run (by exact conductor) 2 3 0 _)]
  rfl

theorem exec_ngo_of_core (core : isConductor s.cur = false) : exec (.ngo p) s = .next (s.concluded .C p {} 1 ((if s.ctx.ar.open' then do
    trapIf (!s.ctx.tableValid s.ctx.ar.shadow) 2 3
    set ((s.issued .C p {} 1).startNest s.cur)
    return .seq
  else do
    set ((s.issued .C p {} 1).awaitArray p)
    return .later : Act Next) (s.issued .C p {} 1))) := by
  have run : exec (.ngo p) s = _ := issue_ready (n := fun _ => {}) (pre := pure ()) (x := ((), s)) ready rfl
  have words : instrWords (.ngo p) = 1 := rfl
  simp only [words] at run
  rw [Act.bind_ok (Act.get_run _), State.issued_cur, core, Act.bind_ok (Act.trapIf_false _ _ _ _), State.ar_issued, State.tableValid_issued] at run
  exact run

theorem exec_ngo_invalid (core : isConductor s.cur = false) (nest : s.ctx.ar.nest = none) (hold : s.ctx.ar.hold = none)
    (invalid : s.ctx.tableValid s.ctx.ar.shadow = false) : exec (.ngo p) s = .next (s.stopped .C (.trap 2 3 0)) := by
  rw [exec_ngo_of_core ready core, if_pos ((MArray.open_iff _).2 ⟨nest, hold⟩), invalid,
    Act.bind_error (trapIf_run (b := !false) rfl 2 3 0 _), State.concluded_error, State.issued_fills, State.keepFills_self]

theorem exec_ngo_starts (core : isConductor s.cur = false) (nest : s.ctx.ar.nest = none) (hold : s.ctx.ar.hold = none)
    (valid : s.ctx.tableValid s.ctx.ar.shadow = true) :
    exec (.ngo p) s = .next (((s.issued .C p {} 1).startNest s.cur).retired (.ngo p) .C p {} .seq) := by
  rw [exec_ngo_of_core ready core, if_pos ((MArray.open_iff _).2 ⟨nest, hold⟩), valid, Bool.not_true, Act.bind_ok (Act.trapIf_false _ _ _ _),
    Act.bind_ok (Act.set_run _ _)]
  rfl

/-- The state in which an NGO waits for the array, C having gone on. -/
def State.ngoWaits (s : State) (p : BitVec 4) : State :=
  (((s.issued .C p {} 1).awaitArray p).modCtx fun c => c.moveTo .C 1 .later).stir

theorem exec_ngo_waits (core : isConductor s.cur = false) (busy : s.ctx.ar.nest.isSome = true ∨ s.ctx.ar.hold.isSome = true) :
    exec (.ngo p) s = .next (s.ngoWaits p) := by
  have closed : ¬ s.ctx.ar.open' = true := by
    rw [MArray.open_iff]
    rintro ⟨nest, hold⟩
    rw [nest, hold] at busy
    simp at busy
  rw [exec_ngo_of_core ready core, if_neg closed, Act.bind_ok (Act.set_run _ _)]
  rfl

end ngo

/-! ### The state of a waiting NGO -/

section waits
variable (s p)

theorem OnlyCore.stir {s u : State} (h : Within s u) : OnlyCore s u.stir := by
  have noted : u.stir = { u with cores := u.stir.cores, quiet := [], arrayQuiet := [] } := rfl
  refine ⟨fun a => ?_, ?_, fun k other => h.cores k other, h.core⟩
  · rw [noted, h.device]
  · rw [noted, h.device]

theorem OnlyCore.ngoWaits : OnlyCore s (s.ngoWaits p) := OnlyCore.stir (((Within.issued s .C p {} 1).modCtx _).modCtx _)

/-- The start that an NGO waits with: C as it was before the NGO. -/
def State.ngoStart (s : State) (p : BitVec 4) : Start :=
  { pc := s.ctx.c.pc, wc := s.ctx.c.wc, loops := s.ctx.c.loops, pops := (depPops .C p).map (·, 1), pushes := (depPushes .C p).map (·, 1) }

theorem State.ctx_awaitArray : ((s.issued .C p {} 1).awaitArray p).ctx =
    { (s.issued .C p {} 1).ctx with ar := { s.ctx.ar with start := some (s.ngoStart p) } } := by
  have eng : (s.issued .C p {} 1).ctx.c = { s.ctx.c with wc := s.ctx.c.wc + 1, passed := s.now } := s.eng_issued_same .C p {} 1
  have back : s.ctx.c.wc + 1 - 1 = s.ctx.c.wc := BitVec.add_sub_cancel _ _
  rw [State.awaitArray, State.ctx_modCtx]
  dsimp only [Ctx.modAr]
  rw [State.ar_issued, eng, back]
  rfl

theorem Ctx.SameFlow.awaitArray : (s.issued .C p {} 1).ctx.SameFlow ((s.issued .C p {} 1).awaitArray p).ctx := by
  rw [State.ctx_awaitArray]
  exact ⟨rfl, rfl, rfl⟩

/-- C has gone on to the next word. -/
theorem State.engC_ngoWaits : (s.ngoWaits p).ctx.eng .C = { s.ctx.c with
    loops := s.nextLoops .C 1, pc := s.nextPc .C 1, wc := s.ctx.c.wc + 1, passed := s.now } := by
  have flow := Ctx.SameFlow.awaitArray s p
  obtain ⟨seen, hidden⟩ := flow.loops
  have eng : ((s.issued .C p {} 1).awaitArray p).ctx.eng .C = { s.ctx.c with wc := s.ctx.c.wc + 1, passed := s.now } :=
    flow.engine.trans (s.eng_issued_same .C p {} 1)
  rw [State.ngoWaits, State.stir_ctx, State.ctx_modCtx, Ctx.moveTo, Ctx.eng_arrive, if_pos rfl, seen, hidden, State.seenLoops_issued,
    State.hiddenLoops_issued, eng]
  rfl

theorem Passed.ngoWaits {s : State} {p : BitVec 4} (idle : s.ctx.c.prog = none) : Passed .C 1 (s.nextPc .C 1) (s.nextLoops .C 1) s (s.ngoWaits p) := by
  have eng := s.engC_ngoWaits p
  exact ⟨congrArg Engine.pc eng, congrArg Engine.loops eng, congrArg Engine.wc eng, (congrArg Engine.prog eng).trans idle⟩

theorem State.ctx_ngoWaits : ∃ c, (s.ngoWaits p).ctx =
    { (s.issued .C p {} 1).ctx with c := c, ar := { s.ctx.ar with start := some (s.ngoStart p) } } := by
  obtain ⟨f, moved⟩ := (((s.issued .C p {} 1).awaitArray p).ctx).moveTo_shape .C 1 .later
  rw [State.ngoWaits, State.stir_ctx, State.ctx_modCtx, moved, State.ctx_awaitArray]
  exact ⟨_, rfl⟩

end waits

/-! ### The end of the wait -/

section due
variable {w : Start} (run : s.cc.runnable .C = true) (start : s.ctx.ar.start = some w) (nest : s.ctx.ar.nest = none)
  (hold : s.ctx.ar.hold = none)
include run start nest hold

theorem engineTurn_of_ngoDue : s.engineTurn .C = .next s.endNgo := by
  have due : s.ngoDue = true := by
    rw [State.ngoDue, run, start, (MArray.open_iff _).2 ⟨nest, hold⟩]
    rfl
  rw [State.engineTurn, due]
  rfl

/-- The state in which the wait is over. -/
def State.ngoEnds (s : State) (w : Start) : State := s.modCtx fun c => { c.unreserve w.pushes with ar := { c.ar with start := none } }

theorem engineTurn_ngo (valid : Bool) (table : s.ctx.tableValid s.ctx.ar.shadow = valid) : s.engineTurn .C = .next (if valid then
      ((((s.ngoEnds w).startNest s.cur).modCtx fun c => c.pushTokens w.pushes).stir)
    else (((s.ngoEnds w).modCtx fun c => { c.pushTokens w.pops with c := { c.c with pc := w.pc, wc := w.wc, loops := w.loops } }).takeTrap
      s.cur .C 2 3 0).stir) := by
  have table' : (s.ngoEnds w).ctx.tableValid (s.ngoEnds w).ctx.ar.shadow = valid := by
    rw [State.ngoEnds, State.ctx_modCtx]
    exact table
  rw [engineTurn_of_ngoDue run start nest hold, State.endNgo, start]
  change Host.Outcome.next (if (s.ngoEnds w).ctx.tableValid (s.ngoEnds w).ctx.ar.shadow = true then _ else _) = _
  rw [table']
  rfl

end due

end control

/-- Settles O25: each by its issue; the tokens of a waiting NGO are those that its issue has popped and reserved. -/
theorem matrixControlCompletes : Obligations.MatrixControlCompletes := by
  unfold Obligations.MatrixControlCompletes
  refine ⟨fun s p gd ga gb => ⟨fun ready => exec_nestw ready, fun ready core nest hold valid => exec_ngo_starts ready core nest hold valid,
    fun ready core busy => ⟨_, exec_ngo_waits ready core busy, OnlyCore.ngoWaits s p, ?_, ?_, fun f => ?_⟩,
    fun ready idle => exec_nwait ready idle, fun ready room => exec_fmtq ready room⟩,
    fun s p ready stops => ?_, fun s w run start nest hold => ⟨fun valid => ?_, fun invalid => ?_⟩⟩
  · obtain ⟨-, idle, -⟩ := Ready.iff.1 ready
    exact Passed.ngoWaits idle
  · obtain ⟨c, ctx⟩ := s.ctx_ngoWaits p
    rw [ctx]
    rfl
  · obtain ⟨c, ctx⟩ := s.ctx_ngoWaits p
    have popped := s.fifo_issued .C p {} 1 f
    have enough := Ctx.total_le_of_tokensReady (tokensReady_of_ready ready) f
    have pops : (depPops .C p).map (·, 1) = ({} : Needs).allPops .C p := (List.append_nil _).symm
    have pushes : (depPushes .C p).map (·, 1) = ({} : Needs).allPushes .C p := (List.append_nil _).symm
    rw [ctx, pops, pushes]
    dsimp only
    exact ⟨by omega, s.resv_issued .C p {} 1 f⟩
  · obtain conductor | ⟨nest, hold, invalid⟩ := stops
    · exact exec_ngo_conductor ready conductor
    · cases core : isConductor s.cur with
      | true => exact exec_ngo_conductor ready core
      | false => exact exec_ngo_invalid ready core nest hold invalid
  · exact engineTurn_ngo run start nest hold true valid
  · exact engineTurn_ngo run start nest hold false invalid

end Sys2Proof.Machine
end

section
/-! The end of a core's self-test: replay in place, and fencing (R354, R356 to R358). -/
namespace Sys2Proof.Machine

/-! ### Records that join -/

/-- A record is among those of its partition once it has joined. -/
theorem State.mem_traps_addTrap (s : State) (t : TrapRec) : { t with since := s.now } ∈ ((s.addTrap t).part t.part).traps := by
  rw [State.traps_addTrap]
  exact List.mem_append_right _ List.mem_cons_self

/-! ### What a rollback takes back -/

/-- u is s after work of core k has been taken back to its checkpoint: the core's outbound queue is performed, and beside what translation
may change only partitions, queues and semaphores may differ. -/
structure State.RolledBack (k : Nat) (s u : State) : Prop where
  frame : u = { s with
    mem := u.mem, poison := u.poison, cores := u.cores, dies := u.dies, ladles := u.ladles, freeNo := u.freeNo, stalled := u.stalled
    fills := u.fills, parts := u.parts, queues := u.queues, sems := u.sems }
  core : ({ s.core k with ob := [] } : Core).Translated (u.core k)

theorem State.RolledBack.translated {k : Nat} {s u v : State} (h : s.RolledBack k u) (g : u.Translated v) : s.RolledBack k v :=
  ⟨by rw [g.frame, h.frame], h.core.trans (g.core k)⟩

/-- Performing a core's stores leaves the cores, but for its empty queue. -/
theorem State.RolledBack.drainOb (s : State) (k : Nat) : s.RolledBack k (s.drainOb k) := by
  unfold State.drainOb
  refine List.foldlRecOn (motive := s.RolledBack k) _ _ ⟨rfl, ?_⟩ fun u h t _ => ?_
  · rw [State.core_modCore_same]
    exact .refl _
  · unfold State.perform
    split
    · exact h
    · exact h.translated (State.Translated.writeN u t.key t.size t.data.toNat)

/-- A change of the partitions, the queues, the semaphores and the notes of who waits. -/
theorem State.RolledBack.notes {k : Nat} {s u : State} (h : s.RolledBack k u) (parts : SMap Part) (queues : SMap WQ) (sems : SMap Sem)
    (stalled : List Stalled) : s.RolledBack k { u with parts := parts, queues := queues, sems := sems, stalled := stalled } :=
  ⟨by rw [h.frame], h.core⟩

theorem State.Translated.addPin (cl : Client) (w : Work) (d : Nat) (s : State) (va : Nat) : s.Translated (State.addPin cl w d s va) := by
  have kept := (State.Translated.keeps cl s).translate (State.Translated.refl s) w.part w.asid (s.redirect w.part w.id none (va + 84)) accWrite
  unfold State.addPin
  revert kept
  cases s.translate cl w.part w.asid (s.redirect w.part w.id none (va + 84)) accWrite with
  | mk x u =>
  intro kept
  cases x with
  | ok key => exact kept.trans (State.Translated.writeN u key 4 (u.readM key 4 + d))
  | fail | stall => exact kept

theorem State.RolledBack.addPins {k : Nat} {s u : State} (h : s.RolledBack k u) (cl : Client) (w : Work) (d : Nat) (l : List Nat) :
    s.RolledBack k (l.foldl (State.addPin cl w d) u) :=
  List.foldlRecOn (motive := s.RolledBack k) _ _ h fun v g va _ => g.translated (State.Translated.addPin cl w d v va)

theorem State.RolledBack.rollback (s : State) (k : Nat) (w : Work) (cp : Checkpoint) : s.RolledBack k (s.rollback k w cp) := by
  unfold State.rollback
  dsimp only
  refine State.RolledBack.addPins (State.RolledBack.addPins ?_ _ _ _ _) _ _ _ _
  have drained := State.RolledBack.drainOb s k
  split
  · exact drained.notes _ _ _ _
  · exact drained.notes _ _ _ _

/-! ### A core that passes -/

/-- A DONE ends nothing while an engine of the core is live. -/
theorem State.afterDone_live {s : State} {e : Eng} (live : s.cc.ctx.live ≠ []) : s.afterDone e = s := by
  simp [State.afterDone, live]

/-- The work that replays in place on a core (R358). -/
def Core.replaying (c : Core) (w : Work) (cp : Checkpoint) (now : Nat) : Core :=
  { c with
    ctx := cp.ctx.restored c.ctx.csr now, work := some (w.rewound cp)
    leaving := if c.leaving = some .push then (if c.preempt then some .saved else none) else c.leaving }

theorem Core.live_replaying (c : Core) (w : Work) (cp : Checkpoint) (now : Nat) : (c.replaying w cp now).ctx.live = cp.ctx.live := rfl

theorem State.replay_eq {s : State} {k : Nat} {w : Work} {cp : Checkpoint} (held : (s.core k).work = some w) (saved : w.ckpt = some cp)
    (live : cp.ctx.live ≠ []) :
    s.replay k = (s.rollback k w cp).modCore k fun c => c.replaying w cp (s.rollback k w cp).now := by
  unfold State.replay
  simp only [held, saved]
  have kept : ∀ u : State, (u.core k).ctx.live ≠ [] → u.asCore k (fun s => s.afterDone .C) = u := by
    intro u h
    have same := State.afterDone_live (s := { u with cur := k }) (e := .C) h
    simp only [State.asCore, same]
  refine kept _ ?_
  rw [State.core_modCore_same]
  exact live

/-- The core that replays is the rolled-back one, with its work at the checkpoint. -/
theorem State.core_replay {s : State} {k : Nat} {w : Work} {cp : Checkpoint} (held : (s.core k).work = some w) (saved : w.ckpt = some cp)
    (live : cp.ctx.live ≠ []) :
    ∃ c now, (s.replay k).core k = c.replaying w cp now ∧ ({ s.core k with ob := [] } : Core).Translated c := by
  rw [State.replay_eq held saved live, State.core_modCore_same]
  exact ⟨_, _, rfl, (State.RolledBack.rollback s k w cp).core⟩

/-- SELF_TEST_COMPLETE of a core that passes. -/
theorem passed_replays {s : State} {k cause since : Nat} {en : Eng} {w : Work} {cp : Checkpoint} (tested : (s.core k).test = some (cause, since, en))
    (held : (s.core k).work = some w) (saved : w.ckpt = some cp) (going : (s.core k).ending = false) (kept : (s.core k).ctx.csr.nrp = false)
    (live : cp.ctx.live ≠ []) : ∃ c now r, r.cls = 13 ∧ r.cause = cause ∧ r.info = true ∧ r ∈ ((s.testedCore k true).part w.part).traps
      ∧ (s.testedCore k true).core k = c.replaying w cp now ∧ ({ s.core k with test := none, ob := [] } : Core).Translated c := by
  let u := s.modCore k fun c => { c with test := none, fenced := c.fenced || !true }
  have core : u.core k = { s.core k with test := none } := by
    rw [State.core_modCore_same]
    simp
  obtain ⟨c, now, replays, rolled⟩ := State.core_replay (s := u) (k := k) (by rw [core]; exact held) saved live
  have run : s.testedCore k true = (u.replay k).addTrap { trapRecOf k ((u.replay k).core k) w .gone 13 cause 0 with
      info := true, test := 1, eng := engTag en, arr := decide (cause = 3) } := by
    unfold State.testedCore
    simp only [tested]
    rw [show (s.modCore k fun c => { c with test := none, fenced := c.fenced || !true }).core k = { s.core k with test := none } from core]
    simp only [held, going, kept]
    rfl
  rw [run]
  refine ⟨c, now, _, rfl, rfl, rfl, State.mem_traps_addTrap _ _, replays, ?_⟩
  rw [core] at rolled
  exact rolled

end Sys2Proof.Machine
end

section
/-! Errors, watchdogs and time limits (R133, R354, R356, R358). -/
namespace Sys2Proof.Machine

/-- SELF_TEST_COMPLETE once the device has come up. -/
theorem exec_selfTested {s : State} {k : Nat} (passed : Bool) (ready : s.stage = 5) :
    exec (.selfTestComplete (.core k) passed) s = .next (s.testedCore k passed).stir := by
  unfold exec execSelfTestComplete
  simp [ready]

/-! ### A core that fails -/

/-- A core whose self-test is over. -/
def Core.tested (c : Core) (passed : Bool) : Core := { c with test := none, fenced := c.fenced || !passed }

theorem State.testedCore_idle {s : State} {k : Nat} {x : Nat × Nat × Eng} {passed : Bool} (tested : (s.core k).test = some x)
    (idle : (s.core k).work = none) : s.testedCore k passed = s.modCore k (·.tested passed) := by
  unfold State.testedCore
  have core : (s.modCore k fun c => { c with test := none, fenced := c.fenced || !passed }).core k = (s.core k).tested passed :=
    State.core_modCore_same _ _ _
  have none : ((s.core k).tested passed).work = none := idle
  simp only [tested, core, none]
  rfl

theorem State.testedCore_failed {s : State} {k : Nat} {x : Nat × Nat × Eng} {w : Work} (tested : (s.core k).test = some x)
    (held : (s.core k).work = some w) (going : (s.core k).ending = false) (kept : (s.core k).ctx.csr.nrp = false) :
    s.testedCore k false = (s.modCore k (·.tested false)).fenceOut k x.1 x.2.2 := by
  unfold State.testedCore
  have core : (s.modCore k fun c => { c with test := none, fenced := c.fenced || !false }).core k = (s.core k).tested false :=
    State.core_modCore_same _ _ _
  have held' : ((s.core k).tested false).work = some w := held
  have going' : ((s.core k).tested false).ending = false := going
  have kept' : ((s.core k).tested false).ctx.csr.nrp = false := kept
  simp only [tested, core, held', going', kept']
  rfl

/-- The work that is fenced out stands behind all the rest, as of its checkpoint; its core holds none. -/
theorem State.fenceOut_leaves {s : State} {k cause : Nat} {e : Eng} {w : Work} {cp : Checkpoint} (held : (s.core k).work = some w)
    (saved : w.ckpt = some cp) : ∃ g c, (s.fenceOut k cause e).off = s.off ++ [g] ∧ g.st = .fenced ∧ g.work = w.rewound cp
      ∧ (s.fenceOut k cause e).core k = c.emptied ∧ ({ s.core k with ob := [] } : Core).Translated c := by
  have rolled := State.RolledBack.rollback s k w cp
  have off : (s.rollback k w cp).off = s.off := by rw [rolled.frame]
  obtain ⟨g, run, st, work⟩ : ∃ g : Seg, s.fenceOut k cause e
      = ({ s.rollback k w cp with off := (s.rollback k w cp).off ++ [g] } : State).vacate k ∧ g.st = .fenced ∧ g.work = w.rewound cp := by
    unfold State.fenceOut
    simp only [held, saved]
    exact ⟨_, rfl, rfl, rfl⟩
  refine ⟨g, (s.rollback k w cp).core k, ?_, st, work, ?_, rolled.core⟩
  · rw [run, State.vacate_frame, ← off]
  · rw [run, State.vacate_core, if_pos rfl]
    rfl

/-! ### SELF_TEST_COMPLETE -/

theorem selfTest_passes {s : State} {k cause since : Nat} {en : Eng} {w : Work} {cp : Checkpoint} (ready : s.stage = 5)
    (tested : (s.core k).test = some (cause, since, en)) (held : (s.core k).work = some w) (saved : w.ckpt = some cp)
    (going : (s.core k).ending = false) (kept : (s.core k).ctx.csr.nrp = false) (live : cp.ctx.live ≠ []) :
    ∃ t y, (∃ r ∈ (t.part w.part).traps, r.cls = 13 ∧ r.cause = cause ∧ r.info = true)
      ∧ exec (.selfTestComplete (.core k) true) s = .next t ∧ (t.core k).test = none ∧ (t.core k).fenced = (s.core k).fenced
      ∧ (t.core k).work = some y ∧ y.id = w.id ∧ y.sb = cp.sb ∧ y.snap = cp.snap ∧ (t.core k).ob = []
      ∧ (t.core k).ctx.csr.rcnt = ((s.core k).ctx.csr.rcnt + 1) % 2 ^ 32
      ∧ ∀ e, ((t.core k).ctx.eng e).pc = (cp.ctx.eng e).pc ∧ ((t.core k).ctx.eng e).g = (cp.ctx.eng e).g
          ∧ ((t.core k).ctx.eng e).hold = none := by
  obtain ⟨c, now, r, cls, of, info, joined, core, rolled⟩ := passed_replays tested held saved going kept live
  have core' : (s.testedCore k true).stir.core k = c.replaying w cp now := core
  refine ⟨(s.testedCore k true).stir, w.rewound cp, ⟨r, joined, cls, of, info⟩, exec_selfTested true ready, ?_⟩
  rw [core']
  refine ⟨?_, ?_, rfl, rfl, rfl, rfl, ?_, ?_, fun e => ?_⟩
  · change c.test = none
    rw [rolled.frame]
  · change c.fenced = _
    rw [rolled.frame]
  · change c.ob = []
    rw [rolled.frame]
  · change (c.ctx.csr.rcnt + 1) % 2 ^ 32 = _
    rw [rolled.csr]
  · cases e <;> exact ⟨rfl, rfl, rfl⟩

theorem selfTest_fences_idle {s : State} {k : Nat} {x : Nat × Nat × Eng} (ready : s.stage = 5) (tested : (s.core k).test = some x)
    (idle : (s.core k).work = none) : ∃ t, exec (.selfTestComplete (.core k) false) s = .next t
      ∧ t.core k = { s.core k with test := none, fenced := true } ∧ t.mem = s.mem := by
  refine ⟨_, exec_selfTested false ready, ?_, ?_⟩ <;> rw [State.testedCore_idle tested idle]
  · rw [State.stir_core, State.core_modCore_same, Core.tested, Bool.not_false, Bool.or_true]
  · rfl

theorem selfTest_fences {s : State} {k : Nat} {x : Nat × Nat × Eng} {w : Work} {cp : Checkpoint} (ready : s.stage = 5)
    (tested : (s.core k).test = some x) (held : (s.core k).work = some w) (saved : w.ckpt = some cp) (going : (s.core k).ending = false)
    (kept : (s.core k).ctx.csr.nrp = false) : ∃ t g, exec (.selfTestComplete (.core k) false) s = .next t ∧ (t.core k).fenced = true
      ∧ (t.core k).work = none ∧ t.off = s.off ++ [g] ∧ g.st = .fenced ∧ g.work.id = w.id ∧ g.work.sb = cp.sb := by
  have core : (s.modCore k (·.tested false)).core k = (s.core k).tested false := State.core_modCore_same _ _ _
  obtain ⟨g, c, off, st, work, left, rolled⟩ := State.fenceOut_leaves (s := s.modCore k (·.tested false)) (cause := x.1) (e := x.2.2)
    (by rw [core]; exact held) saved
  rw [← State.testedCore_failed tested held going kept] at off left
  have left' : (s.testedCore k false).stir.core k = c.emptied := left
  refine ⟨_, g, exec_selfTested false ready, ?_, ?_, off, st, by rw [work]; rfl, by rw [work]; rfl⟩
  · rw [left', Core.emptied]
    change c.fenced = true
    rw [rolled.frame, core, Core.tested]
    simp
  · rw [left']
    rfl

end Sys2Proof.Machine
end

section
/-! The watchdogs, the patrol scrub and the time limits (R133, R354, R356). -/
namespace Sys2Proof.Machine

/-! ### Records that join -/

/-- A record joins its partition's behind all but those of the array of the same cycle. -/
theorem State.joins_addTrap (s : State) (t : TrapRec) :
    TrapRec.joins { t with since := s.now } (s.part t.part).traps ((s.addTrap t).part t.part).traps := by
  rw [State.traps_addTrap]
  exact placeTrap_joins _ _

theorem subset_placeTrap (t : TrapRec) (l : List TrapRec) : l ⊆ placeTrap t l := by
  obtain ⟨before, behind, old, new, -⟩ := placeTrap_joins t l
  rw [new, old]
  exact List.append_subset.2 ⟨List.subset_append_left _ _, fun _ h => List.mem_append_right _ (List.mem_cons_of_mem _ h)⟩

/-- No record is lost when another joins. -/
theorem State.traps_subset_addTrap (s : State) (t : TrapRec) (p : Nat) : (s.part p).traps ⊆ ((s.addTrap t).part p).traps := by
  rw [State.addTrap, State.part_modPart]
  split
  case isTrue same =>
    rw [same]
    exact subset_placeTrap _ _
  case isFalse => exact List.Subset.refl _

/-! ### Fenced work that finds no core -/

theorem fencedWork_held {s : State} {k : Nat} {g : Seg}
    (found : s.off.find? (fun g => g.st = .fenced && g.core = some k && !g.ctx.any (·.held) && decide (g.since + 1000 * 700 ≤ s.now)) = some g) :
    ∃ t r, exec (.fencedWorkTimeout k) s = .next t ∧ TrapRec.joins r (s.part g.work.part).traps (t.part g.work.part).traps
      ∧ r.cls = 13 ∧ r.cause = 6 ∧ t.mem = s.mem ∧ ∀ y ∈ t.off, y.work.id = g.work.id → ∀ c, y.ctx = some c → c.held = true := by
  let r : TrapRec := { trapRecOf k g.asCore.2 g.work (.work g.work.id) 13 6 0 with test := 2, eng := g.eng, arr := decide (g.cause = 3) }
  let u := s.modCtxOfWork g.work.id fun c => { c with held := true }
  have run : exec (.fencedWorkTimeout k) s = .next (u.addTrap r).stir := by
    change execFencedWorkTimeout k s = _
    unfold execFencedWorkTimeout
    rw [show (s.off.find? fun g => g.st = .fenced && g.core = some k && !g.ctx.any (·.held) && decide (g.since + msTicks ≤ s.now)) = some g
      from found]
  refine ⟨_, _, run, State.joins_addTrap u r, rfl, rfl, rfl, ?_⟩
  intro y inside id c ctx
  obtain ⟨x, -, rfl⟩ : ∃ x ∈ s.off, (if x.work.id = g.work.id then { x with ctx := x.ctx.map fun c => { c with held := true } } else x) = y :=
    List.mem_map.1 inside
  split at id <;> rename_i same
  · rw [if_pos same] at ctx
    obtain ⟨c', -, rfl⟩ := Option.map_eq_some_iff.1 ctx
    rfl
  · exact absurd id same

/-! ### A machine check of the work of a core -/

theorem State.machineCheck_work {s : State} {k : Nat} {w : Work} (held : (s.core k).work = some w) (cause test : Nat) :
    s.machineCheck k cause test =
      (s.modCtxOf k fun x => { x with held := true }).addTrap { trapRecOf k (s.core k) w (.work w.id) 13 cause 0 with test } := by
  unfold State.machineCheck
  simp only [held]

theorem State.machineCheck_idle {s : State} {k : Nat} (idle : (s.core k).work = none) (cause test : Nat) : s.machineCheck k cause test = s := by
  unfold State.machineCheck
  simp only [idle]

theorem coreStall_held {s : State} {k : Nat} {w : Work} (held : (s.core k).work = some w) (going : (s.core k).ending = false)
    (sound : (s.core k).test = none) (watched : (s.core k).ctx.csr.wden = true) (free : (s.core k).ctx.isHeld = false)
    (live : (s.core k).ctx.live ≠ [])
    (stuck : ∀ e ∈ (s.core k).ctx.live, ((s.core k).ctx.eng e).passed + 1000 * 700 ≤ s.now
        ∧ ((∃ y, (k, e, y) ∈ s.quiet ∧ y ∉ [Wait.memory, .mailbox, .semaphore, .ladle, .event, .phase])
          ∨ ((s.core k).leaving.isSome = true ∧ (s.core k).runnable e = false ∧ (s.core k).ob = []))) :
    ∃ t r, exec (.coreStallWatchdog k) s = .next t ∧ (t.core k).ctx = { (s.core k).ctx with held := true } ∧ t.mem = s.mem
      ∧ TrapRec.joins r (s.part w.part).traps (t.part w.part).traps ∧ r.cls = 13 ∧ r.cause = 5 := by
  have all : (s.core k).ctx.live.all (fun e => decide (((s.core k).ctx.eng e).passed + msTicks ≤ s.now)
      && ((s.core k).leaving.isSome && !(s.core k).runnable e && (s.core k).ob.isEmpty
        || (s.quiet.filter fun q => q.1 = k).any fun q => q.2.1 = e && !q.2.2.permitted)) = true := by
    rw [List.all_eq_true]
    intro e inside
    obtain ⟨past, waits | ⟨leaves, stopped, empty⟩⟩ := stuck e inside
    · obtain ⟨y, noted, unpermitted⟩ := waits
      have refused : y.permitted = false := by
        cases y <;> simp_all [Wait.permitted]
      have waiting : (s.quiet.filter fun q => q.1 = k).any (fun q => q.2.1 = e && !q.2.2.permitted) = true :=
        List.any_eq_true.2 ⟨(k, e, y), List.mem_filter.2 ⟨noted, by simp⟩, by simp [refused]⟩
      rw [waiting, Bool.or_true, Bool.and_true]
      exact decide_eq_true past
    · rw [leaves, stopped, empty]
      rw [decide_eq_true (show ((s.core k).ctx.eng e).passed + msTicks ≤ s.now from past)]
      rfl
  have run : exec (.coreStallWatchdog k) s = .next (s.machineCheck k 5 0).stir := by
    change execCoreStallWatchdog k s = _
    unfold execCoreStallWatchdog
    have nonempty : (s.core k).ctx.live.isEmpty = false := by simpa using live
    dsimp only
    rw [if_pos]
    rw [held, going, sound, watched, free, nonempty, all]
    rfl
  rw [State.machineCheck_work held] at run
  refine ⟨_, _, run, ?_, rfl, State.joins_addTrap _ { trapRecOf k (s.core k) w (.work w.id) 13 5 0 with test := 0 }, rfl, rfl⟩
  rw [State.stir_core, State.core_addTrap, State.core_modCtxOf, if_pos rfl]

/-! ### The phase watchdog -/

/-- u is s once each core of l has met its machine check: its work is held, with a record of its own. -/
structure State.Checked (l : List Nat) (s u : State) : Prop where
  mem : u.mem = s.mem
  off : u.off = s.off
  work : ∀ k, (u.core k).work = (s.core k).work
  held : ∀ k, (u.core k).ctx.held = ((s.core k).ctx.held || decide (k ∈ l) && (s.core k).work.isSome)
  traps : ∀ p, (s.part p).traps ⊆ (u.part p).traps
  record : ∀ k ∈ l, ∀ w, (s.core k).work = some w → ∃ r ∈ (u.part w.part).traps, r.cls = 13 ∧ r.cause = 5 ∧ r.src = .work w.id

theorem State.Checked.machineCheck (s : State) (k : Nat) : State.Checked [k] s (s.machineCheck k 5 0) := by
  cases held : (s.core k).work with
  | none =>
    rw [State.machineCheck_idle held]
    refine ⟨rfl, rfl, fun _ => rfl, fun j => ?_, fun _ => List.Subset.refl _, fun j inside w h => ?_⟩
    · by_cases same : j = k
      · rw [same, held]
        simp
      · simp [same]
    · rw [List.mem_singleton.1 inside, held] at h
      exact nomatch h
  | some w =>
    rw [State.machineCheck_work held]
    have core : ∀ j, ((s.modCtxOf k fun x => { x with held := true }).addTrap
        { trapRecOf k (s.core k) w (.work w.id) 13 5 0 with test := 0 }).core j
          = if j = k then { s.core k with ctx := { (s.core k).ctx with held := true } } else s.core j := fun j =>
      (State.core_addTrap _ _ j).trans (State.core_modCtxOf s k j _)
    refine ⟨rfl, rfl, fun j => ?_, fun j => ?_, fun p => State.traps_subset_addTrap _ _ p, fun j inside v h => ?_⟩
    · rw [core]
      split <;> rename_i same
      · rw [same]
      · rfl
    · rw [core]
      split <;> rename_i same
      · rw [same, held]
        simp
      · simp [same]
    · rw [List.mem_singleton.1 inside, held] at h
      cases h
      exact ⟨_, State.mem_traps_addTrap _ { trapRecOf k (s.core k) w (.work w.id) 13 5 0 with test := 0 }, rfl, rfl, rfl⟩

theorem State.Checked.trans {l m : List Nat} {s t u : State} (h : State.Checked l s t) (g : State.Checked m t u) : State.Checked (l ++ m) s u := by
  refine ⟨g.mem.trans h.mem, g.off.trans h.off, fun k => (g.work k).trans (h.work k), fun k => ?_,
    fun p => List.Subset.trans (h.traps p) (g.traps p), fun k inside w held => ?_⟩
  · rw [g.held, h.held, h.work]
    simp only [List.mem_append, Bool.decide_or]
    cases (s.core k).ctx.held <;> cases (s.core k).work.isSome <;> simp
  · rcases List.mem_append.1 inside with inside | inside
    · obtain ⟨r, joined, is⟩ := h.record k inside w held
      exact ⟨r, g.traps _ joined, is⟩
    · exact g.record k inside w (by rw [h.work, held])

theorem State.Checked.foldl (l : List Nat) (s : State) : State.Checked l s (l.foldl (fun s k => s.machineCheck k 5 0) s) := by
  induction l generalizing s with
  | nil => exact ⟨rfl, rfl, fun _ => rfl, fun _ => by simp, fun _ => List.Subset.refl _, fun _ h => nomatch h⟩
  | cons k l ih => exact (State.Checked.machineCheck s k).trans (ih _)

/-- A note in the works of cores leaves the rest of the cores, memory and the partitions. -/
theorem State.modWorkOf_each (l : List Nat) (f : Work → Work) (s : State) :
    let u := l.foldl (fun s k => s.modWorkOf k f) s
    u.mem = s.mem ∧ u.parts = s.parts ∧ ∀ k, (u.core k).ctx = (s.core k).ctx := by
  refine List.foldlRecOn (motive := fun u : State => u.mem = s.mem ∧ u.parts = s.parts ∧ ∀ k, (u.core k).ctx = (s.core k).ctx) _ _
    ⟨rfl, rfl, fun _ => rfl⟩ fun u ⟨mem, parts, ctx⟩ k _ => ⟨mem, parts, fun j => ?_⟩
  rw [State.modWorkOf, State.core_modCore]
  split <;> rename_i same
  · rw [same]
    exact ctx k
  · exact ctx j

end Sys2Proof.Machine
end

section
/-! The watchdogs fire; the patrol scrub; a WFE that times out. -/
namespace Sys2Proof.Machine

/-! ### PHASE_WATCHDOG -/

/-- The members of a domain that have not arrived at its boundary. -/
def State.late (s : State) (p lvl idx : Nat) : List Nat :=
  (s.activeCores p lvl idx).filter fun k => !(s.core k).work.any fun w => w.arrived = some lvl

theorem State.Checked.addTrap {l : List Nat} {s u : State} (h : State.Checked l s u) (t : TrapRec) : State.Checked l s (u.addTrap t) := by
  have more := State.traps_subset_addTrap u t
  refine ⟨h.mem, h.off, h.work, h.held, fun p => List.Subset.trans (h.traps p) (more p), fun k inside w held => ?_⟩
  obtain ⟨r, joined, is⟩ := h.record k inside w held
  exact ⟨r, more _ joined, is⟩

/-- The watchdog checks the works that are late, and notes in the others that it has fired. -/
theorem State.watchdogFires_checks {s : State} {p lvl idx : Nat} (here : ∀ g ∈ s.off, s.activeOff p lvl idx g = false) :
    ∃ u, State.Checked (s.late p lvl idx) s u ∧ (s.watchdogFires p lvl idx).mem = u.mem ∧ (s.watchdogFires p lvl idx).parts = u.parts
      ∧ ∀ k, ((s.watchdogFires p lvl idx).core k).ctx = (u.core k).ctx := by
  have away : s.off.filter (s.activeOff p lvl idx) = [] := List.filter_eq_nil_iff.2 fun g inside => by simp [here g inside]
  have checked := State.Checked.foldl (s.late p lvl idx) s
  unfold State.watchdogFires
  simp only [away]
  split
  · split
    · exact ⟨_, checked.addTrap _, State.modWorkOf_each _ _ _⟩
    · exact ⟨_, checked, State.modWorkOf_each _ _ _⟩
  · exact ⟨_, checked, State.modWorkOf_each _ _ _⟩

/-- Nothing holds a domain's watchdog back when none of its members is held or under test. -/
theorem State.heldIn_none {s : State} {p lvl idx : Nat} (here : ∀ g ∈ s.off, s.activeOff p lvl idx g = false)
    (free : ∀ i ∈ s.activeCores p lvl idx, (s.core i).ctx.isHeld = false ∧ (s.core i).test = none) : s.heldIn p lvl idx = false := by
  unfold State.heldIn
  rw [Bool.or_eq_false_iff, List.any_eq_false, List.any_eq_false]
  refine ⟨fun k inside => ?_, fun g inside => by simp [here g inside]⟩
  obtain ⟨held, sound⟩ := free k inside
  simp [held, sound]

theorem Ctx.held_of_isHeld {c : Ctx} (free : c.isHeld = false) : c.held = false := by
  unfold Ctx.isHeld at free
  rw [Bool.or_eq_false_iff, Bool.or_eq_false_iff] at free
  exact free.1.1

theorem phaseWatchdog_fires {s : State} {p lvl idx j : Nat} {w : Work} (inside : j ∈ s.activeCores p lvl idx)
    (held : (s.core j).work = some w) (arrived : w.arrived = some lvl) (past : w.arrivedAt + 1000 * 700 ≤ s.now)
    (free : ∀ i ∈ s.activeCores p lvl idx, ∃ y, (s.core i).work = some y ∧ y.watched = false ∧ (s.core i).ctx.isHeld = false
      ∧ (s.core i).test = none) (here : ∀ g ∈ s.off, s.activeOff p lvl idx g = false) :
    exec (.phaseWatchdog p lvl idx) s = .next (s.watchdogFires p lvl idx).stir := by
  have paused : s.heldIn p lvl idx = false := State.heldIn_none here fun i inside => by
    obtain ⟨y, -, -, held, sound⟩ := free i inside
    exact ⟨held, sound⟩
  have due : ((((s.activeCores p lvl idx).map s.core).filterMap (·.work)).filter fun w => w.arrived = some lvl).any
      (fun w => decide (w.arrivedAt + msTicks ≤ s.now)) = true := by
    refine List.any_eq_true.2 ⟨w, List.mem_filter.2 ⟨?_, decide_eq_true arrived⟩, decide_eq_true past⟩
    exact List.mem_filterMap.2 ⟨s.core j, List.mem_map_of_mem inside, held⟩
  have fresh : ((((s.activeCores p lvl idx).map s.core).filterMap (·.work)).filter fun w => w.arrived = some lvl).any (·.watched) = false := by
    rw [List.any_eq_false]
    intro y filtered
    obtain ⟨c, mapped, of⟩ := List.mem_filterMap.1 (List.mem_of_mem_filter filtered)
    obtain ⟨i, inside, rfl⟩ := List.mem_map.1 mapped
    obtain ⟨z, held, unwatched, -⟩ := free i inside
    rw [held] at of
    cases of
    simp [unwatched]
  change execPhaseWatchdog p lvl idx s = _
  unfold execPhaseWatchdog
  dsimp only
  rw [due, fresh, paused]
  rfl

theorem phaseWatchdog_holds {s : State} {p lvl idx j : Nat} {w : Work} (inside : j ∈ s.activeCores p lvl idx)
    (held : (s.core j).work = some w) (arrived : w.arrived = some lvl) (past : w.arrivedAt + 1000 * 700 ≤ s.now)
    (free : ∀ i ∈ s.activeCores p lvl idx, ∃ y, (s.core i).work = some y ∧ y.watched = false ∧ (s.core i).ctx.isHeld = false
      ∧ (s.core i).test = none) (here : ∀ g ∈ s.off, s.activeOff p lvl idx g = false) :
    ∃ t, exec (.phaseWatchdog p lvl idx) s = .next t ∧ t.mem = s.mem
      ∧ ∀ i ∈ s.activeCores p lvl idx, let late := (s.core i).work.any (fun y => y.arrived = some lvl) = false
          (t.core i).ctx.held = decide late ∧ (late → ∃ y, (s.core i).work = some y ∧ ∃ r ∈ (t.part y.part).traps,
            r.cls = 13 ∧ r.cause = 5 ∧ r.src = .work y.id) := by
  obtain ⟨u, checked, mem, parts, ctx⟩ := State.watchdogFires_checks here
  refine ⟨_, phaseWatchdog_fires inside held arrived past free here, mem.trans checked.mem, fun i member => ?_⟩
  obtain ⟨y, holds, -, unheld, -⟩ := free i member
  have among : i ∈ s.late p lvl idx ↔ (s.core i).work.any (fun y => y.arrived = some lvl) = false := by
    simp [State.late, member]
  refine ⟨?_, fun late => ⟨y, holds, ?_⟩⟩
  · rw [State.stir_core, ctx, checked.held, Ctx.held_of_isHeld unheld, decide_eq_decide.2 among, Bool.false_or,
      Option.isSome_of_eq_some holds, Bool.and_true]
  · have record := checked.record i (among.2 late) y holds
    have part : (s.watchdogFires p lvl idx).stir.part y.part = u.part y.part := congrArg (·.get {} y.part) parts
    rw [part]
    exact record

/-! ### PATROL_SCRUB -/

theorem patrolScrub_poisons {s : State} {line : Nat} (tier : tierOfKey (64 * line) ≤ 1)
    (within : beyondTier (tierOfKey (64 * line)) (64 * line % 2 ^ 47) = false) (sound : line ∉ s.poison) :
    exec (.patrolScrub line true) s = .next ({ s with poison := line :: s.poison } : State).stir ∧
    exec (.patrolScrub line false) s = .next s := by
  refine ⟨?_, rfl⟩
  change execPatrolScrub line true s = _
  unfold execPatrolScrub
  dsimp only
  rw [decide_eq_true tier, show beyondTier (tierOfKey (64 * line)) (64 * line % tierSpan) = false from within, if_pos]
  simpa using sound

/-! ### WFE_TIMEOUT -/

/-- Only an engine that can run has an instruction to go on with. -/
theorem State.runnable_of_fetch {s : State} {e : Eng} {i : Instr} (run : s.fetch e = .run i) : s.cc.runnable e = true := by
  cases able : s.cc.runnable e with
  | true => rfl
  | false =>
    unfold State.fetch at run
    simp only [able] at run
    exact nomatch run

/-- WFE_TIMEOUT is the WFE's own end, on its core. -/
theorem exec_wfeTimeout {s : State} {k : Nat} {p : BitVec 4} {pr : Prog} (run : ({ s with cur := k } : State).fetch .C = .run (.wfe p))
    (waits : (s.core k).ctx.c.prog = some pr) (acts : pr.fill = false) (begun : pr.stage = 1) (isOver : (s.core k).wfeOver pr.mark = true)
    (sound : (s.core k).badPath ≠ some .C) :
    exec (.wfeTimeout k) s = .next { (({ s with cur := k } : State).modCtx fun c => { c with csr := { c.csr with evt := false } }).retired
      (.wfe p) .C p {} .seq with cur := s.cur } := by
  have ends := exec_wfe_timed (p := p) (State.runnable_of_fetch run) sound waits acts (by rw [begun]; decide) isOver
  change execWfe p { s with cur := k } = _ at ends
  change execWfeTimeout k s = _
  have begun' : ({ s with cur := k } : State).ctx.c.prog = some pr := waits
  have isOver' : ({ s with cur := k } : State).cc.wfeOver pr.mark = true := isOver
  unfold execWfeTimeout
  simp only [run, begun', isOver', if_true, ends]

theorem wfeTimeout_retires {s : State} {k : Nat} {p : BitVec 4} {pr : Prog} (run : ({ s with cur := k } : State).fetch .C = .run (.wfe p))
    (waits : (s.core k).ctx.c.prog = some pr) (acts : pr.fill = false) (begun : pr.stage = 1) (isOver : (s.core k).wfeOver pr.mark = true)
    (sound : (s.core k).badPath ≠ some .C) :
    ∃ t, exec (.wfeTimeout k) s = .next t ∧ t.cur = s.cur ∧ (t.core k).ctx.c.prog = none ∧ (t.core k).ctx.csr.evt = false
      ∧ (t.core k).ctx.c.pc = ({ s with cur := k } : State).nextPc .C 1 ∧ t.mem = s.mem := by
  refine ⟨_, exec_wfeTimeout run waits acts begun isOver sound, rfl, ?_⟩
  let u : State := { s with cur := k }
  let v := u.modCtx fun c => { c with csr := { c.csr with evt := false } }
  have same : v.ctx = { u.ctx with csr := { u.ctx.csr with evt := false } } := State.ctx_modCtx _ _
  have engine := State.eng_retired_of_same (s := u) (u := v) (e := .C) (by rw [same]; rfl) (by rw [same]; rfl) (by rw [same]; rfl) (.wfe p) p {}
  obtain ⟨f, shape⟩ := v.ctx.retire_shape .C (({} : Needs).allPushes .C p) 1 .seq
  have csr : (v.retired (.wfe p) .C p {} .seq).ctx.csr = { u.ctx.csr with evt := false } := by
    rw [State.ctx_retired, show instrWords (.wfe p) = 1 from rfl, shape, same]
    rfl
  exact ⟨congrArg (·.prog) engine, congrArg (·.evt) csr, congrArg (·.pc) engine, rfl⟩

/-- Settles O50: each event sets off what its rule names, whatever the rest of the state. -/
theorem errorEventsComplete : Obligations.ErrorEventsComplete := by
  unfold Obligations.ErrorEventsComplete
  intro s k
  refine ⟨fun cause since en w cp ready tested held saved going kept live _ _ => selfTest_passes ready tested held saved going kept live,
    fun x ready tested idle => selfTest_fences_idle ready tested idle,
    fun x w cp ready tested held saved going kept => selfTest_fences ready tested held saved going kept, fun g found => fencedWork_held found,
    fun p lvl idx j w inside held arrived past free here => phaseWatchdog_holds inside held arrived past free here,
    fun w held going sound watched free live stuck => coreStall_held held going sound watched free live stuck,
    fun line tier within sound => patrolScrub_poisons tier within sound,
    fun p pr run waits acts begun limit past sound => wfeTimeout_retires run waits acts begun (Core.wfeOver_of_time limit past) sound⟩

end Sys2Proof.Machine
end

section
/-! Translation as the device keeps it going: walks ahead of an access, and entries under migration (R151, R152). -/
namespace Sys2Proof.Machine

/-! ### The leaf that a walk finds -/

/-- The translation of a leaf covers the address that was walked for. -/
theorem covers_leafTlb (part asid va level : Nat) (e : Word) (group : Bool) (frame : Nat) :
    (leafTlb part asid va level e group frame).covers part asid va = true := by
  have size : 0 < (if group then 65536 else 2 ^ levelShift level) := by
    split
    · decide
    · exact Nat.two_pow_pos _
  have start : va / (if group then 65536 else 2 ^ levelShift level) * (if group then 65536 else 2 ^ levelShift level) ≤ va :=
    Nat.div_mul_le_self _ _
  have stop : va < va / (if group then 65536 else 2 ^ levelShift level) * (if group then 65536 else 2 ^ levelShift level)
      + (if group then 65536 else 2 ^ levelShift level) := Nat.lt_div_mul_add size
  unfold Tlb.covers
  rw [Bool.and_eq_true, Bool.and_eq_true, Bool.and_eq_true]
  exact ⟨⟨⟨decide_eq_true rfl, decide_eq_true rfl⟩, decide_eq_true start⟩, decide_eq_true stop⟩

/-- A result of a walk for an address: a leaf's translation covers it. -/
def WalkRes.Covers (part asid va : Nat) : WalkRes → Prop
  | .leaf t _ => t.covers part asid va = true
  | _ => True

theorem walkFrom_covers (d part asid va level : Nat) : ∀ (node : Nat) (s : State),
    (walkFrom d part asid va level node s).1.Covers part asid va := by
  induction level with
  | zero =>
    intro node s
    unfold walkFrom
    dsimp only
    iterate 5
      split
      · exact trivial
    split <;> exact covers_leafTlb _ _ _ _ _ _ _
  | succ level ih =>
    intro node s
    unfold walkFrom
    dsimp only
    iterate 4
      split
      · exact trivial
    split
    · exact covers_leafTlb _ _ _ _ _ _ _
    · split
      · exact trivial
      · exact ih _ _

theorem State.walk_covers (s : State) (d part asid va : Nat) : (s.walk d part asid va).1.Covers part asid va := by
  unfold State.walk
  dsimp only
  iterate 4
    split
    · exact trivial
  exact walkFrom_covers _ _ _ _ _ _ _

/-! ### WALK -/

/-- The change of a cache, in the cache itself. -/
theorem State.tlbOf_modTlb_same {cl : Client} (caches : cacheless cl = false) (s : State) (f : List Tlb → List Tlb) :
    (s.modTlb cl f).tlbOf cl = f (s.tlbOf cl) := by
  cases cl with
  | coreC k => exact congrArg (·.tlbC) (State.core_modCore_same s k _)
  | coreA k => exact congrArg (·.tlbA) (State.core_modCore_same s k _)
  | ladle l => exact (congrArg (·.tlb) (State.ladle_modLadle s l l _)).trans (by rw [if_pos rfl])
  | loader | tundish | shakeout => exact nomatch caches

/-- A fill enters the translation in its client's cache. -/
theorem State.fill_cached {s u : State} {cl : Client} {part asid va acc key : Nat} (filled : s.fill cl part asid va acc = (.ok key, u))
    (caches : cacheless cl = false) : ∃ x ∈ u.tlbOf cl, x.covers part asid va = true ∧ x.locate va = .ok key := by
  unfold State.fill at filled
  extract_lets v at filled
  clear_value v
  have covers := v.walk_covers (clientDie cl) part asid va
  revert filled covers
  cases v.walk (clientDie cl) part asid va with
  | mk r w =>
  cases r with
  | fail | stall => intro filled; exact nomatch filled
  | leaf t entry =>
    intro filled covers
    dsimp only at filled
    split at filled
    · exact nomatch filled
    · cases place : t.locate va with
      | fail | stall => rw [place] at filled; exact nomatch filled
      | ok k =>
        rw [place] at filled
        dsimp only at filled
        cases filled
        refine ⟨if acc = accWrite ∧ tierOfKey entry ≤ 1 then { t with d := true } else t, ?_, ?_, ?_⟩
        · rw [State.tlbOf_modTlb_same caches]
          exact List.mem_cons_self
        · split <;> exact covers
        · split <;> exact place

theorem walk_serves {s u : State} {cl : Client} {part asid key : Nat} {va : Word} {wr : Bool}
    (wanted : (part, asid, va.toNat, if wr then accWrite else accRead) ∈ s.wants cl) (within : va.toNat < 2 ^ 52)
    (free : s.walkerFree (clientDie cl) = true) (first : s.misses (clientDie cl) = [])
    (filled : s.fill cl part asid va.toNat (if wr then accWrite else accRead) = (.ok key, u)) :
    exec (.walk cl part asid va wr) s = .next u ∧ (∀ k e, (u.core k).ctx.eng e = (s.core k).ctx.eng e)
      ∧ (cacheless cl = false → ∃ x ∈ u.tlbOf cl, x.covers part asid va.toNat = true ∧ x.locate va.toNat = .ok key) := by
  refine ⟨?_, fun k e => ?_, State.fill_cached filled⟩
  · change execWalk cl part asid va wr s = _
    unfold execWalk State.miss
    have contained : (s.wants cl).contains (part, asid, va.toNat, if wr then accWrite else accRead) = true := by simpa using wanted
    dsimp only
    rw [contained, decide_eq_true within, free, first, List.isEmpty_nil, Bool.and_self, if_pos rfl, if_pos rfl, filled]
  · have kept : s.Translated (s.fill cl part asid va.toNat (if wr then accWrite else accRead)).2 :=
      (State.Translated.keeps cl s).fill (State.Translated.refl s) ..
    rw [filled] at kept
    rw [(kept.core k).ctx]
    cases e <;> rfl

end Sys2Proof.Machine
end

section
/-! Entries under migration, acknowledgements, replication (R145, R151, R162). -/
namespace Sys2Proof.Machine

/-! ### Elements of a list by their place -/

theorem dropAt_eq_eraseIdx {α : Type} (l : List α) (i : Nat) : dropAt l i = l.eraseIdx i := by
  induction l generalizing i with
  | nil => rfl
  | cons a r ih => cases i with
    | zero => rfl
    | succ i => exact congrArg _ (ih i)

theorem setAt_eq_modify {α : Type} (l : List α) (i : Nat) (f : α → α) : setAt l i f = l.modify i f := by
  induction l generalizing i with
  | nil => exact (List.modify_nil f i).symm
  | cons a r ih => cases i with
    | zero => rfl
    | succ i => exact congrArg _ (ih i)

theorem getElem?_setAt {α : Type} {l : List α} {i : Nat} {a : α} (f : α → α) (at_ : l[i]? = some a) : (setAt l i f)[i]? = some (f a) := by
  rw [setAt_eq_modify, List.getElem?_modify_eq, at_]
  rfl

theorem length_setAt {α : Type} (l : List α) (i : Nat) (f : α → α) : (setAt l i f).length = l.length := by
  rw [setAt_eq_modify, List.length_modify]

/-! ### Entries under migration -/

/-- With nothing parked, no store of a parked segment goes on. -/
theorem State.settleParked_none {s : State} (none : ∀ g ∈ s.off, g.st ≠ .parked) : s.settleParked = s := by
  have empty : (s.off.filter fun g => g.st = .parked && g.work.chain.isEmpty) = [] :=
    List.filter_eq_nil_iff.2 fun g inside => by simp [none g inside]
  rw [State.settleParked, empty]
  rfl

section migration
variable {s : State} {i : Nat} {x : Stalled} (at_ : s.stalled[i]? = some x) (going : x.expired = false) (walks : x.level ≠ noWalker)
include at_ going walks

theorem migrationRetry_goes (unparked : ∀ g ∈ s.off, g.st ≠ .parked) (resident : s.migrating x = none) :
    ∃ t, exec (.migrationRetry i) s = .next t ∧ t.stalled = s.stalled.eraseIdx i ∧ t.mem = s.mem ∧ t.cores = s.cores := by
  have run : exec (.migrationRetry i) s = .next (s.unstall i) := by
    change execMigrationRetry i s = _
    unfold execMigrationRetry
    simp only [at_, going, walks, resident, decide_false, Bool.or_self, Bool.false_eq_true, if_false]
  rw [State.unstall, State.settleParked_none (s := { s with stalled := dropAt s.stalled i }) unparked] at run
  exact ⟨_, run, dropAt_eq_eraseIdx _ _, rfl, rfl⟩

theorem migrationRetry_waits {e : Nat × Nat} (migrating : s.migrating x = some e) :
    exec (.migrationRetry i) s = .next (s.modStalled i fun x => x.found e s.now) := by
  change execMigrationRetry i s = _
  unfold execMigrationRetry
  simp only [at_, going, walks, migrating, decide_false, Bool.or_self, Bool.false_eq_true, if_false]

theorem migrationTimeout_expires (unparked : ∀ g ∈ s.off, g.st ≠ .parked) (migrating : s.migrating x = some (x.level, x.entry))
    (past : x.since + 64 * 700 ≤ s.now) :
    exec (.migrationTimeout i) s = .next (s.modStalled i fun x => { x with expired := true }).stir := by
  have late : ¬ s.now < x.since + migrationTicks := Nat.not_lt.2 past
  change execMigrationTimeout i s = _
  unfold execMigrationTimeout
  simp only [at_, going, walks, late, migrating, decide_false, Bool.or_self, Bool.false_eq_true, if_false, and_self, if_true]
  rw [State.settleParked_none (s := s.modStalled i fun x => { x with expired := true }) unparked]

end migration

/-! ### TLBIR_ACK -/

/-- No die holds a replica of a page of an acknowledged range. -/
theorem Die.uncovered_dropCovered (d : Die) (v : Inval) : ∀ r ∈ (d.dropCovered v).replicas, v.coversVa r.part r.asid r.va 4096 = false := by
  intro r inside
  obtain ⟨held, kept⟩ := List.mem_filter.1 inside
  rw [Bool.not_eq_true', hasFrame, List.any_eq_false] at kept
  cases covered : v.coversVa r.part r.asid r.va 4096 with
  | false => rfl
  | true => exact absurd (decide_eq_true rfl) (kept r (List.mem_filter.2 ⟨held, by rw [covered, Bool.true_or]⟩))

theorem tlbirAck_settles {s : State} {i : Nat} {x : Inval} (at_ : s.invals[i]? = some x) (settled : s.settled x = true) :
    ∃ t, exec (.tlbirAck i) s = .next t ∧ t.invals = s.invals.eraseIdx i ∧ t.mem = s.mem ∧ t.cores = s.cores
      ∧ (x.core = none → (s.part x.part).inv = some x.id → (t.part x.part).inv = none)
      ∧ ∀ e ∈ t.dies, ∀ r ∈ e.2.replicas, x.coversVa r.part r.asid r.va 4096 = false := by
  let gone : Inval := { x with keys := x.keys ++ (s.coveredReplicas x).map fun f => (4096 * f, 4096) }
  let u : State := { s with invals := dropAt s.invals i, dies := s.dies.map fun e => (e.1, e.2.dropCovered gone) }
  have uncovered : ∀ e ∈ u.dies, ∀ r ∈ e.2.replicas, x.coversVa r.part r.asid r.va 4096 = false := by
    intro e inside r held
    obtain ⟨d, -, rfl⟩ := List.mem_map.1 inside
    exact Die.uncovered_dropCovered d.2 gone r held
  have run : exec (.tlbirAck i) s = .next (match x.core with
      | none => u.modPart x.part fun p => if p.inv = some x.id then { p with inv := none } else p
      | some _ => u).stir := by
    change execTlbirAck i s = _
    unfold execTlbirAck
    simp only [at_, settled, if_true]
    rfl
  cases owner : x.core with
  | some k =>
    rw [owner] at run
    exact ⟨_, run, dropAt_eq_eraseIdx _ _, rfl, rfl, fun h => (nomatch h), uncovered⟩
  | none =>
    rw [owner] at run
    refine ⟨_, run, dropAt_eq_eraseIdx _ _, rfl, rfl, fun _ busy => ?_, uncovered⟩
    have part : (u.modPart x.part fun p => if p.inv = some x.id then { p with inv := none } else p).part x.part
        = { s.part x.part with inv := none } := by
      rw [State.part_modPart_same]
      exact if_pos busy
    exact congrArg (·.inv) part

/-! ### REPLICATION -/

/-- A die holds a page, and the notices that are left, once it has copied the page. -/
theorem State.die_replicated (s : State) (d : Nat) (f : Replica) (kept : List Replica → List Replica) :
    ((s.modDie d fun x => { x with replicas := kept x.replicas ++ [f] }).die d).notices = (s.die d).notices
      ∧ f ∈ ((s.modDie d fun x => { x with replicas := kept x.replicas ++ [f] }).die d).replicas := by
  rw [State.die_modDie_same]
  exact ⟨rfl, List.mem_append_right _ List.mem_cons_self⟩

theorem replication_copies {s : State} {d : Nat} {f : Replica} {rest : List Notice} (next : nextPage (s.die d).notices = some (f, rest))
    (same : (({ s with freeNo := s.freeNo + 1 } : State).replicable d f.part f.asid f.va).1 = some { f with layer := false }) :
    ∃ t, exec (.replication d) s = .next t ∧ (t.die d).notices = rest ∧ f ∈ (t.die d).replicas ∧ t.mem = s.mem ∧ t.cores = s.cores := by
  let kept (l : List Replica) := (if (Config.freeByte s.freeNo).getLsbD 0 then l.drop 1 else l).filter fun r => r.frame ≠ f.frame
  let u := ({ s with freeNo := s.freeNo + 1 } : State).modDie d fun x => { x with notices := rest }
  have notices : (u.die d).notices = rest := congrArg (·.notices) (State.die_modDie_same _ _ _)
  have run : exec (.replication d) s = .next ((if (({ s with freeNo := s.freeNo + 1 } : State).replicable d f.part f.asid f.va).2 then
      u.modPart f.part fun p => { p with tierctl := putBits p.tierctl 2 2 1 } else u).modDie d fun x => { x with
        replicas := kept x.replicas ++ [f] }).stir := by
    change execReplication d s = _
    unfold execReplication State.freeByte
    simp only [next, same, if_true]
    rfl
  split at run
  · obtain ⟨left, held⟩ := (u.modPart f.part fun p => { p with tierctl := putBits p.tierctl 2 2 1 }).die_replicated d f kept
    exact ⟨_, run, left.trans notices, held, rfl, rfl⟩
  · obtain ⟨left, held⟩ := u.die_replicated d f kept
    exact ⟨_, run, left.trans notices, held, rfl, rfl⟩

end Sys2Proof.Machine
end

section
/-! The layer schedule and the host's invalidations (R139, R154, R377). -/
namespace Sys2Proof.Machine

/-- A write of the window of a partition, to a device that is ready. -/
theorem atPart_ready {s : State} {p : Nat} (ready : s.stage = 5) (numbered : p < 16) (f : State → State) : atPart p f s = .next (f s).stir := by
  rw [atPart, if_pos numbered, atReady_ready ready]

/-! ### TIERCTL_ENABLE -/

/-- A bit above a field that is written is as it was. -/
theorem getLsbD_putBits_above (v : Word) {hi lo j : Nat} (x : Nat) (le : lo ≤ hi) (above : hi < j) :
    (putBits v hi lo x).getLsbD j = v.getLsbD j := by
  by_cases within : j < 64
  · have high : hi - lo + 1 ≤ j - lo := by omega
    have mask : (2 ^ (hi - lo + 1) - 1).testBit (j - lo) = false :=
      Nat.testBit_lt_two_pow (lt_of_lt_of_le (Nat.sub_one_lt (Nat.two_pow_pos _).ne') (Nat.pow_le_pow_right (by decide) high))
    have value : (x % 2 ^ (hi - lo + 1)).testBit (j - lo) = false :=
      Nat.testBit_lt_two_pow (lt_of_lt_of_le (Nat.mod_lt _ (Nat.two_pow_pos _)) (Nat.pow_le_pow_right (by decide) high))
    simp only [putBits, BitVec.getLsbD_or, BitVec.getLsbD_and, BitVec.getLsbD_not, BitVec.getLsbD_shiftLeft, BitVec.getLsbD_ofNat, mask, value,
      within, Bool.and_false, Bool.or_false, Bool.not_false, decide_true, Bool.and_self, Bool.and_true]
  · rw [BitVec.getLsbD_of_ge _ _ (Nat.not_lt.1 within), BitVec.getLsbD_of_ge _ _ (Nat.not_lt.1 within)]

/-- TIERCTL as an enable leaves it, by whether the schedule is valid. -/
def tierctlEnabled (old v : Word) (valid : Bool) : Word :=
  putBits (putBits (putBits (putBits (putBits v 0 0 1) 5 3 0) 2 2 (bit (old.getLsbD 2 && !(putBits v 0 0 1).getLsbD 2))) 1 1 (bit !valid)) 0 0
    (bit valid)

theorem bits_tierctlEnabled (old v : Word) (valid : Bool) : bits (tierctlEnabled old v valid) 63 6 = bits v 63 6 := by
  unfold bits tierctlEnabled
  congr 1
  refine BitVec.eq_of_getLsbD_eq fun i _ => ?_
  rw [BitVec.getLsbD_extractLsb', BitVec.getLsbD_extractLsb']
  iterate 5 rw [getLsbD_putBits_above _ _ (by omega) (by omega)]

theorem testBit_bit (b : Bool) : (bit b).testBit 0 = b := by cases b <;> rfl

theorem getLsbD_tierctlEnabled (old v : Word) (valid : Bool) :
    (tierctlEnabled old v valid).getLsbD 0 = valid ∧ (tierctlEnabled old v valid).getLsbD 1 = !valid := by
  unfold tierctlEnabled
  constructor
  · rw [getLsbD_putBits _ 0 _ 0 (by decide), if_pos rfl, testBit_bit]
  · rw [getLsbD_putBits _ 0 _ 1 (by decide), if_neg (by decide), getLsbD_putBits _ 1 _ 1 (by decide), if_pos rfl, testBit_bit]

/-- TIERCTL_ENABLE of a partition whose schedule is off takes what the header gives. -/
theorem exec_tierctlEnable {s : State} {p : Nat} (v : Word) (ready : s.stage = 5) (numbered : p < 16)
    (off : (s.part p).tierctl.getLsbD 0 = false) :
    exec (.tierctlEnable p v) s = .next (s.modPart p fun x => { x with
      tierctl := tierctlEnabled (s.part p).tierctl v (s.readSchedule p (bits v 63 6 * 64)).isSome
      sched := s.readSchedule p (bits v 63 6 * 64) }).stir := by
  have field : bits (putBits v 0 0 1) 63 6 = bits v 63 6 := bits_putBits v 1 (by decide) (by decide) (by decide)
  have enables : (putBits v 0 0 1).getLsbD 0 = true := by
    rw [getLsbD_putBits _ _ _ _ (by decide)]
    rfl
  refine (atPart_ready ready numbered _).trans ?_
  unfold State.writeTierctl
  simp only [enables, off, field, Bool.not_true, Bool.false_eq_true, if_false]
  cases s.readSchedule p (bits v 63 6 * 64) <;> rfl

theorem tierctlEnable_reads {s : State} {p : Nat} (v : Word) (ready : s.stage = 5) (numbered : p < 16)
    (off : (s.part p).tierctl.getLsbD 0 = false) :
    ∃ t, exec (.tierctlEnable p v) s = .next t ∧ t.mem = s.mem ∧ t.cores = s.cores ∧ (∀ j, j ≠ p → t.part j = s.part j)
      ∧ (t.part p).sched = s.readSchedule p (bits v 63 6 * 64) ∧ bits (t.part p).tierctl 63 6 = bits v 63 6
      ∧ (t.part p).tierctl.getLsbD 0 = (s.readSchedule p (bits v 63 6 * 64)).isSome
      ∧ (t.part p).tierctl.getLsbD 1 = (s.readSchedule p (bits v 63 6 * 64)).isNone := by
  let u := s.modPart p fun x => { x with
    tierctl := tierctlEnabled (s.part p).tierctl v (s.readSchedule p (bits v 63 6 * 64)).isSome
    sched := s.readSchedule p (bits v 63 6 * 64) }
  have part : u.part p = { s.part p with
      tierctl := tierctlEnabled (s.part p).tierctl v (s.readSchedule p (bits v 63 6 * 64)).isSome
      sched := s.readSchedule p (bits v 63 6 * 64) } := State.part_modPart_same _ _ _
  have others : ∀ j, j ≠ p → u.part j = s.part j := fun j other => (State.part_modPart s p j _).trans (if_neg other)
  refine ⟨u.stir, exec_tierctlEnable v ready numbered off, rfl, rfl, others, ?_⟩
  obtain ⟨en, err⟩ := getLsbD_tierctlEnabled (s.part p).tierctl v (s.readSchedule p (bits v 63 6 * 64)).isSome
  rw [show u.stir.part p = u.part p from rfl, part]
  exact ⟨rfl, bits_tierctlEnabled _ _ _, en, by rw [err, Option.not_isSome]⟩

/-! ### INVCMD_GO -/

/-- The invalidation that INVCMD asks for. -/
def State.invcmdInval (s : State) (p : Nat) (v : Word) (lo hi : Nat) : Inval :=
  { id := s.invNo, part := p, asid := bits v 63 48, lo, hi, core := none }

/-- A partition's INVCMD notes the address space. -/
def State.invcmdNoted (s : State) (p : Nat) (v : Word) : State := s.modPart p fun x => { x with invasid := (putBits v 0 0 1).extractLsb' 48 16 }

theorem State.part_invcmdNoted (s : State) (p : Nat) (v : Word) :
    (s.invcmdNoted p v).part p = { s.part p with invasid := (putBits v 0 0 1).extractLsb' 48 16 } := State.part_modPart_same _ _ _

theorem exec_invcmdGo {s : State} {p : Nat} (v : Word) (ready : s.stage = 5) (numbered : p < 16) (idle : (s.part p).inv = none) :
    exec (.invcmdGo p v) s = .next (match invalRange (s.part p).invstart.toNat (s.part p).invlen.toNat with
      | none => s.invcmdNoted p v
      | some (lo, hi) => ({ (s.invcmdNoted p v).invalidate (s.invcmdInval p v lo hi) with invNo := s.invNo + 1 } : State).modPart p
          fun x => { x with inv := some s.invNo }).stir := by
  have goes : (putBits v 0 0 1).getLsbD 0 = true := by
    rw [getLsbD_putBits _ _ _ _ (by decide)]
    rfl
  have field : bits (putBits v 0 0 1) 63 48 = bits v 63 48 := bits_putBits v 1 (by decide) (by decide) (by decide)
  have noted := s.part_invcmdNoted p v
  unfold State.invcmdNoted at noted
  refine (atPart_ready ready numbered _).trans ?_
  unfold State.writeInvcmd
  simp only [idle, goes, field, noted, Option.isSome_none, Bool.not_true, Bool.false_eq_true, if_false]
  rfl

theorem invcmdGo_invalidates {s : State} {p : Nat} (v : Word) (ready : s.stage = 5) (numbered : p < 16) (idle : (s.part p).inv = none) :
    let a := (s.part p).invstart.toNat
    let n := (s.part p).invlen.toNat
    ∃ t, exec (.invcmdGo p v) s = .next t ∧ t.mem = s.mem ∧ (∀ k e, (t.core k).ctx.eng e = (s.core k).ctx.eng e)
      ∧ (n = 0 ∨ 2 ^ 52 ≤ a → t.invals = s.invals ∧ (t.part p).inv = none)
      ∧ (n ≠ 0 → a < 2 ^ 52 → ∃ x : Inval, t.invals = s.invals ++ [x] ∧ x.part = p ∧ x.asid = bits v 63 48 ∧ x.lo = a
          ∧ x.hi = min (a + n) (2 ^ 52) ∧ x.core = none ∧ (t.part p).inv = some x.id
          ∧ ∀ k, ∀ e ∈ (t.core k).tlbC ++ (t.core k).tlbA, x.coversTlb e = false) := by
  intro a n
  have run := exec_invcmdGo v ready numbered idle
  by_cases empty : n = 0 ∨ 2 ^ 52 ≤ a
  · rw [invalRange, if_pos empty] at run
    refine ⟨_, run, rfl, fun _ _ => rfl, fun _ => ⟨rfl, ?_⟩, fun some within => absurd empty (not_or.2 ⟨some, Nat.not_le.2 within⟩)⟩
    exact (congrArg (·.inv) (s.part_invcmdNoted p v)).trans idle
  · rw [invalRange, if_neg empty] at run
    dsimp only at run
    let x := s.invcmdInval p v a (min (a + n) (2 ^ 52))
    let sent : State := { (s.invcmdNoted p v).invalidate x with invNo := s.invNo + 1 }
    have busy : ((sent.modPart p fun x => { x with inv := some s.invNo }).part p).inv = some s.invNo :=
      congrArg (·.inv) (State.part_modPart_same sent p fun x => { x with inv := some s.invNo })
    refine ⟨_, run, rfl, fun k e => ?_, fun none => absurd none empty, fun _ _ =>
      ⟨{ x with keys := (s.invcmdNoted p v).droppedKeys x }, rfl, rfl, rfl, rfl, rfl, rfl, busy, ?_⟩⟩
    · exact congrArg (·.ctx.eng e) ((s.invcmdNoted p v).core_invalidate x k)
    · exact (s.invcmdNoted p v).uncovered_invalidate x

/-- Settles O47: each event by what the walk, or the state, gives it. -/
theorem translationEventsComplete : Obligations.TranslationEventsComplete := by
  unfold Obligations.TranslationEventsComplete
  intro s p i v
  refine ⟨?_, fun x at_ going walks unparked => ⟨?_, ?_, ?_⟩,
    fun x at_ settled => tlbirAck_settles at_ settled, fun d f rest next same => replication_copies next same,
    fun ready numbered off => tierctlEnable_reads v ready numbered off,
    fun ready numbered idle => invcmdGo_invalidates v ready numbered idle⟩
  · intro cl part asid va wr key u acc wanted within free first filled
    obtain ⟨run, engines, cached⟩ := walk_serves wanted within free first filled
    refine ⟨run, engines, ?_⟩
    cases cl with
    | coreC | coreA | ladle => exact cached rfl
    | loader | tundish | shakeout => exact trivial
  · exact migrationRetry_goes at_ going walks unparked
  · intro lv en migrating
    exact ⟨_, migrationRetry_waits at_ going walks migrating, getElem?_setAt _ at_, length_setAt _ _ _, rfl, rfl⟩
  · intro migrating past
    exact ⟨_, migrationTimeout_expires at_ going walks unparked migrating past, getElem?_setAt _ at_, length_setAt _ _ _, rfl, rfl⟩

end Sys2Proof.Machine
end

section
/-! What a translation leaves of memory, and the addresses and address spaces that it refuses (R142, R147, R150). -/
namespace Sys2Proof.Machine

/-! ### A and D of an entry (R150) -/

/-- Of memory, u is s but for A of entries and, with a write, for D. -/
def State.Marked (acc : Nat) (s u : State) : Prop :=
  ∀ a, u.mem.get 0 a = s.mem.get 0 a ∨ u.mem.get 0 a = s.mem.get 0 a ||| 0x40 ∨ (acc = accWrite ∧ u.mem.get 0 a = s.mem.get 0 a ||| 0xC0)

theorem State.Marked.of_mem {acc : Nat} {s u : State} (same : u.mem = s.mem) : s.Marked acc u := fun a => .inl (by rw [same])

/-- A byte of memory read as a number. -/
theorem State.readM_one (s : State) (key : Nat) : BitVec.ofNat 8 (s.readM key 1) = s.mem.get 0 key := by
  simp [State.readM, numAt, bytesAt, ofBytes]

theorem State.Marked.of_touchEntry {acc : Nat} {s u : State} (same : u.mem = s.mem) (entry : Nat) : s.Marked acc (u.touchEntry entry acc) := by
  unfold State.touchEntry
  split
  · intro a
    dsimp only
    rw [State.get_writeN, State.readM_one, same]
    split
    · obtain rfl : a = entry := by omega
      rw [Nat.sub_self, pow_zero, Nat.div_one, BitVec.ofNat_toNat, BitVec.setWidth_eq]
      split
      case isTrue write => exact .inr (.inr ⟨write, by rw [BitVec.or_assoc]; rfl⟩)
      case isFalse => exact .inr (.inl (BitVec.or_zero))
    · exact .inl rfl
  · exact .of_mem same

/-- A walk writes nothing, and a fill marks its entry alone. -/
theorem State.Marked.of_fill {s u : State} (same : u.mem = s.mem) (cl : Client) (part asid va acc : Nat) :
    s.Marked acc (u.fill cl part asid va acc).2 := by
  unfold State.fill
  extract_lets v
  have counted : v.mem = s.mem := by cases cl <;> exact same
  clear_value v
  have walked := (v.walk_mem (clientDie cl) part asid va).trans counted
  revert walked
  cases v.walk (clientDie cl) part asid va with
  | mk r w =>
  intro walked
  cases r with
  | fail | stall => exact .of_mem walked
  | leaf t entry =>
    dsimp only
    split
    · exact .of_mem walked
    · split
      · intro a
        rw [State.modTlb_mem]
        exact State.Marked.of_touchEntry walked entry a
      · exact .of_mem walked

theorem State.Marked.of_miss {s u : State} (same : u.mem = s.mem) (cl : Client) (part asid va acc : Nat) :
    s.Marked acc (u.miss cl part asid va acc).2 := by
  unfold State.miss
  split
  · exact .of_fill same cl part asid va acc
  · exact .of_mem same

theorem State.Marked.of_translate (s : State) (cl : Client) (part asid va acc : Nat) : s.Marked acc (s.translate cl part asid va acc).2 := by
  unfold State.translate
  split
  · exact .of_mem rfl
  · split
    · dsimp only
      split
      · exact .of_mem rfl
      · split
        · split
          · refine .of_fill ?_ cl part asid va acc
            rfl
          · exact .of_mem rfl
        · exact .of_mem rfl
    · split
      · split
        · exact .of_mem rfl
        · refine .of_miss ?_ cl part asid va acc
          rfl
      · exact .of_miss rfl cl part asid va acc

/-- A translation within a step gives what the translation finds. -/
theorem translate_of_xlateAs {s u : State} {cl : Client} {part asid va acc ext key : Nat} (h : xlateAs cl part asid va acc ext s = .ok (key, u)) :
    s.translate cl part asid va acc = (.ok key, u) := by
  unfold xlateAs at h
  revert h
  cases s.translate cl part asid va acc with
  | mk x v =>
  intro h
  cases x with
  | ok => cases h; rfl
  | fail | stall => exact nomatch h

/-! ### Refusals (R142, R147) -/

theorem xlateAs_of_fail {s u : State} {cl : Client} {part asid va acc ext c l : Nat} (h : s.translate cl part asid va acc = (.fail c l, u)) :
    xlateAs cl part asid va acc ext s = .error (.xlate c l acc va ext, u.fills) := by
  unfold xlateAs
  rw [h]

theorem State.translate_beyond {s : State} {va : Nat} (beyond : 2 ^ 52 ≤ va) (cl : Client) (part asid acc : Nat) :
    s.translate cl part asid va acc = (.fail 3 0, s) := by
  unfold State.translate
  exact if_pos beyond

/-- A walk whose root descriptor is read from memory, and is not valid. -/
theorem State.walk_invalidRoot {s : State} {d part asid : Nat} (uncached : (s.die d).nodes = [])
    (within : bits (s.part part).ptbase 63 12 * 4096 + 8 * asid < tierSpan)
    (invalid : (BitVec.ofNat 64 (s.readM (keyOf 2 0 (bits (s.part part).ptbase 63 12 * 4096 + 8 * asid)) 8)).getLsbD 0 = false) (va : Nat) :
    s.walk d part asid va = (.fail 8 0, s) := by
  unfold State.walk
  rw [rootOf_bare uncached, if_neg (Nat.not_le.2 within), if_pos (by rw [invalid]; rfl)]

/-- A miss that a walker serves, whose address space has no valid root: the miss is counted, and no entry is marked. -/
theorem State.fill_invalidRoot {s : State} {cl : Client} {part asid : Nat} (uncached : (s.die (clientDie cl)).nodes = [])
    (within : bits (s.part part).ptbase 63 12 * 4096 + 8 * asid < tierSpan)
    (invalid : (BitVec.ofNat 64 (s.readM (keyOf 2 0 (bits (s.part part).ptbase 63 12 * 4096 + 8 * asid)) 8)).getLsbD 0 = false) (va acc : Nat) :
    ∃ u, s.fill cl part asid va acc = (.fail 8 0, u) ∧ u.fills = s.fills := by
  unfold State.fill
  extract_lets v
  obtain ⟨cores, counted⟩ : ∃ cores, v = { s with cores } := by
    cases cl <;> exact ⟨_, rfl⟩
  refine ⟨v, ?_, by rw [counted]⟩
  rw [State.walk_invalidRoot (s := v) (by rw [counted]; exact uncached) (by rw [counted]; exact within) (by rw [counted]; exact invalid)]

theorem State.translate_miss {s : State} {cl : Client} {va : Nat} (within : va < 2 ^ 52) (unstalled : ∀ x ∈ s.stalled, x.client ≠ cl)
    (unheld : s.tlbOf cl = []) (free : s.walkerFree (clientDie cl) = true) (first : s.misses (clientDie cl) = []) (part asid acc : Nat) :
    s.translate cl part asid va acc = s.fill cl part asid va acc := by
  have waits : (s.stalled.find? fun x => x.client = cl && x.va = va && x.part = part && x.asid = asid) = none :=
    List.find?_eq_none.2 fun x inside => by simp [unstalled x inside]
  unfold State.translate
  rw [if_neg (Nat.not_le.2 within), waits]
  dsimp only
  rw [unheld, List.find?_nil]
  dsimp only
  rw [State.miss, free, first, List.isEmpty_nil, Bool.and_self, if_pos rfl]

/-- Settles O15: of memory a fill marks its entry alone, and the two refusals come before anything is accessed. -/
theorem translationRules : Obligations.TranslationRules := by
  unfold Obligations.TranslationRules
  refine ⟨fun s u cl part asid va acc ext key run => ?_, fun s cl part asid va acc ext => ⟨fun beyond => ?_, ?_⟩⟩
  · have kept := State.Translated.of_xlateAs run
    have marked := State.Marked.of_translate s cl part asid va acc
    rw [translate_of_xlateAs run] at marked
    refine ⟨marked, fun k => ⟨(kept.core k).frame, ?_⟩, kept.frame⟩
    exact (kept.core k).ctx.trans (by rw [← (kept.core k).csr])
  · exact xlateAs_of_fail (State.translate_beyond beyond cl part asid acc)
  · intro within unstalled unheld free first uncached inside invalid
    obtain ⟨u, run, unmarked⟩ := State.fill_invalidRoot uncached inside invalid va acc
    rw [← State.translate_miss within unstalled unheld free first] at run
    rw [xlateAs_of_fail run, unmarked]

end Sys2Proof.Machine
end

section
/-! The fault ring and the trap ring: a record of 64 bytes, its message, and a ring without room (R157, R158, R349, R350, R375). -/
namespace Sys2Proof.Machine

/-! ### A record in its ring -/

/-- A byte of memory after a write of bytes. -/
theorem State.getD_writeM (s : State) (key : Nat) (b : List Byte) (a : Nat) :
    (s.writeM key b).mem.get 0 a = if key ≤ a ∧ a < key + b.length then b.getD (a - key) 0 else s.mem.get 0 a := by
  split
  case isTrue inside =>
    obtain ⟨i, rfl⟩ := Nat.exists_eq_add_of_le inside.1
    have within : i < b.length := by omega
    rw [State.get_writeM s key b within, Nat.add_sub_cancel_left, List.getD_eq_getElem _ _ within]
  case isFalse outside => exact SMap.get_setList_out b s.mem 0 key a (by omega)

/-- A record of eight doublewords has 64 bytes. -/
theorem length_recordBytes {l : List Word} (words : l.length = 8) : (recordBytes l).length = 64 := by
  rw [recordBytes, List.length_flatten, List.map_map, show List.length ∘ (fun w : Word => toBytes w.toNat 8) = fun _ => 8 from
    funext fun _ => length_toBytes 8 _, List.map_const', List.sum_replicate, words, smul_eq_mul]

/-- A record of eight doublewords is written at its place in the ring, the partition changes as it is told, and the vector is sent. -/
def State.recorded (s : State) (base cfg : Word) (i : BitVec 32) (l : List Word) (p : Nat) (change : Part → Part) (vec : Nat) : State :=
  (((State.writeRing64 base cfg i [l] s).modPart p change).sendMsi vec).stir

section recorded
variable (s : State) {base cfg : Word} {i : BitVec 32} {l : List Word} (p : Nat) (change : Part → Part) (vec : Nat)

/-- Of memory, the record's 64 bytes alone change. -/
theorem State.mem_recorded (words : l.length = 8) (fits : ringSlot base cfg i + 64 ≤ 2 ^ 47) (a : Nat) :
    (s.recorded base cfg i l p change vec).mem.get 0 a
      = if keyOf 2 0 (ringSlot base cfg i) ≤ a ∧ a < keyOf 2 0 (ringSlot base cfg i) + 64
        then (recordBytes l).getD (a - keyOf 2 0 (ringSlot base cfg i)) 0 else s.mem.get 0 a := by
  have named : ringSlot base cfg i < tierSpan := Nat.lt_of_lt_of_le (Nat.lt_add_of_pos_right (by decide)) fits
  have place : hostBus (ringSlot base cfg i) = keyOf 2 0 (ringSlot base cfg i) := if_pos named
  change (s.writeM (hostBus (ringSlot base cfg i)) (recordBytes l)).mem.get 0 a = _
  rw [place, State.getD_writeM, length_recordBytes words]

theorem State.part_recorded : (s.recorded base cfg i l p change vec).part p = change (s.part p) :=
  State.part_modPart_same (State.writeRing64 base cfg i [l] s) p change

/-- The message goes through function 0 while link 0 is up (R375), whatever the mask bit of its entry (log 84). -/
theorem State.msix_recorded : (s.recorded base cfg i l p change vec).msix
    = { fn := if (s.links.get {} 0).up then 0 else 1, vec, entry := s.msixTable.get 0 vec } :: s.msix := rfl

theorem State.cores_recorded : (s.recorded base cfg i l p change vec).cores = s.cores := rfl

end recorded

theorem FaultRec.length_words (f : FaultRec) (seq : BitVec 32) (range : Bool) (va extent count access : Nat) :
    (f.words seq range va extent count access).length = 8 := rfl

theorem TrapRec.length_words (r : TrapRec) (seq : BitVec 32) (ns : Nat) : (r.words seq ns).length = 8 := rfl

/-! ### FAULT_RECORD_WRITE -/

section fault
variable {s : State} {p : Nat} {f : FaultRec} (oldest : (s.part p).faults.find? (fun f => f.seq.isNone) = some f)
  (single : (s.part p).fmode = false)
include oldest single

theorem faultRecordWrite_writes (room : ringRoom (s.part p).fltcfg (s.part p).flthead (s.part p).flttail ≠ 0) :
    exec (.faultRecordWrite p) s = .next (s.recorded (s.part p).fltbase (s.part p).fltcfg (s.part p).flttail
      (f.words (s.part p).fseq false f.va f.extent 1 f.access) p (fun x => ({ x with
        faults := mapFirst (fun f => f.seq.isNone) (fun f => { f with seq := some x.fseq }) x.faults
        fseq := x.fseq + 1, flttail := x.flttail + 1 } : Part).sweepFaults) (bits (s.part p).fltcfg 19 9)) := by
  change execFaultRecordWrite p s = _
  unfold execFaultRecordWrite
  simp only [oldest, single, room, Bool.false_eq_true, if_false]
  rfl

theorem faultRecordWrite_waits (full : ringRoom (s.part p).fltcfg (s.part p).flthead (s.part p).flttail = 0) :
    exec (.faultRecordWrite p) s = .next (s.modPart p Part.fltFull).stir := by
  change execFaultRecordWrite p s = _
  unfold execFaultRecordWrite
  simp only [oldest, single, full, Bool.false_eq_true, if_false, if_true]

end fault

/-! ### FAULT_BATCH_CLOSE of one fault -/

/-- The range of one fault is its page (R158, log 77). -/
theorem rangeWords_one (f : FaultRec) (seq : BitVec 32) :
    rangeWords [f] seq = f.words seq true (f.va / 4096 * 4096) 4096 1 f.access := by
  change f.words seq true (f.va / 4096 * 4096) (f.va / 4096 * 4096 + 4096 - f.va / 4096 * 4096) 1 (0 ||| f.access) = _
  rw [Nat.add_sub_cancel_left, Nat.zero_or]

section batch
variable {x : Part} {f : FaultRec} (only : x.faults.filter (fun f => f.seq.isNone) = [f]) (loose : f.batched = false)
include only loose

theorem Part.unbatched_one : x.unbatched = [f] := by
  have unbatched : x.unbatched = (x.faults.filter fun f => f.seq.isNone).filter fun f => !f.batched := by
    rw [List.filter_filter]
    exact List.filter_congr fun _ _ => Bool.and_comm _ _
  rw [unbatched, only, List.filter_cons_of_pos (by rw [loose]; rfl), List.filter_nil]

theorem Part.batchDue_one {now : Nat} (ranged : x.fmode = true) (past : f.since + 20 * 700 ≤ now) : x.batchDue now = true := by
  unfold Part.batchDue
  rw [Part.unbatched_one only loose]
  dsimp only
  rw [ranged, decide_eq_true (show f.since + batchTicks ≤ now from past)]
  rfl

theorem Part.openBatch_one : x.openBatch = [f] := by
  unfold Part.openBatch
  rw [Part.unbatched_one only loose]
  dsimp only [List.head?_cons, Option.map_some, Option.getD_some]
  rw [List.filter_cons_of_pos (by simp)]
  rfl

/-- The batch that closes is of one range, of that fault (R157). -/
theorem Part.closeBatch_one (unclosed : x.batches = []) : x.closeBatch = { x with
    batches := [[[f.no]]], faults := x.faults.map fun y => if f.no = y.no then { y with batched := true } else y } := by
  unfold Part.closeBatch
  dsimp only
  rw [Part.openBatch_one only loose, unclosed]
  simp [sortBy, insertBy, ranges]

/-- The fault of the range, once it has been closed. -/
theorem Part.rangeFaults_closed (unclosed : x.batches = []) (distinct : ∀ y ∈ x.faults, y.no = f.no → y = f) :
    x.closeBatch.rangeFaults [f.no] = [{ f with batched := true }] := by
  have inside : f ∈ x.faults := List.mem_of_mem_filter (only ▸ List.mem_singleton_self f)
  have found : x.faults.find? (fun y => decide (y.no = f.no)) = some f := by
    cases look : x.faults.find? (fun y => decide (y.no = f.no)) with
    | none => exact absurd (decide_eq_true rfl) (List.find?_eq_none.1 look f inside)
    | some y => 
      have number : decide (y.no = f.no) = true := List.find?_some (p := fun y : FaultRec => decide (y.no = f.no)) look
      rw [distinct y (List.mem_of_find?_eq_some look) (of_decide_eq_true number)]
  have closed : x.closeBatch.faults.find? (fun y => decide (y.no = f.no)) = some { f with batched := true } := by
    rw [Part.closeBatch_one only loose unclosed, List.find?_map,
      show ((fun y : FaultRec => decide (y.no = f.no)) ∘ fun y => if f.no = y.no then { y with batched := true } else y)
        = fun y => decide (y.no = f.no) from funext fun y => by dsimp only [Function.comp]; split <;> rfl, found]
    simp
  unfold Part.rangeFaults
  rw [List.filterMap_cons_some (f := fun n => x.closeBatch.faults.find? fun y => decide (y.no = n)) closed, List.filterMap_nil]

end batch

theorem Part.writable_one {x : Part} (g : List Nat) (room : ringRoom x.fltcfg x.flthead x.flttail ≠ 0) : x.writable [g] = [g] := by
  have size : 0 < ringSize x.fltcfg := Nat.two_pow_pos _
  unfold Part.writable
  rw [if_pos (by rw [List.length_singleton]; omega), List.take_of_length_le (by rw [List.length_singleton]; omega)]

theorem Part.writable_full {x : Part} (g : List Nat) (full : ringRoom x.fltcfg x.flthead x.flttail = 0) : x.writable [g] = [] := by
  have size : 0 < ringSize x.fltcfg := Nat.two_pow_pos _
  unfold Part.writable
  rw [if_neg (by rw [List.length_singleton]; omega)]

section close
variable {s : State} {p : Nat} {f : FaultRec} (only : (s.part p).faults.filter (fun f => f.seq.isNone) = [f]) (loose : f.batched = false)
  (unclosed : (s.part p).batches = []) (ranged : (s.part p).fmode = true) (past : f.since + 20 * 700 ≤ s.now)
include only loose unclosed ranged past

theorem faultBatchClose_closes : exec (.faultBatchClose p) s = .next ((s.modPart p Part.closeBatch).writeBatch p).stir := by
  have due : (s.part p).batchDue s.now = true := Part.batchDue_one only loose ranged past
  have closed : ((s.modPart p Part.closeBatch).part p).batches.isEmpty = false := by
    rw [State.part_modPart_same, Part.closeBatch_one only loose unclosed]
    rfl
  change execFaultBatchClose p s = _
  unfold execFaultBatchClose
  simp only [due, if_true, closed, Bool.false_eq_true, if_false]

theorem faultBatchClose_writes (distinct : ∀ y ∈ (s.part p).faults, y.no = f.no → y = f)
    (room : ringRoom (s.part p).fltcfg (s.part p).flthead (s.part p).flttail ≠ 0) :
    ∃ change : Part → Part, exec (.faultBatchClose p) s = .next ((s.modPart p Part.closeBatch).recorded (s.part p).fltbase (s.part p).fltcfg
        (s.part p).flttail (f.words (s.part p).fseq true (f.va / 4096 * 4096) 4096 1 f.access) p change (bits (s.part p).fltcfg 19 9))
      ∧ ∀ x, (change x).flttail = x.flttail + 1 ∧ (change x).fseq = x.fseq + 1 := by
  have batches : ((s.part p).closeBatch).batches = [[[f.no]]] := by rw [Part.closeBatch_one only loose unclosed]
  have out : ((s.part p).closeBatch).writable [[f.no]] = [[f.no]] := Part.writable_one [f.no] room
  have words : rangeWords ((s.part p).closeBatch.rangeFaults [f.no]) ((s.part p).closeBatch.fseq + BitVec.ofNat 32 0)
      = f.words (s.part p).fseq true (f.va / 4096 * 4096) 4096 1 f.access := by
    rw [Part.rangeFaults_closed only loose unclosed distinct, rangeWords_one, BitVec.add_zero]
    rfl
  rw [faultBatchClose_closes only loose unclosed ranged past]
  unfold State.writeBatch
  simp only [State.part_modPart_same, batches, out, List.isEmpty_cons, Bool.false_eq_true, if_false, List.zipIdx_cons, List.zipIdx_nil,
    List.map_cons, List.map_nil, words]
  exact ⟨_, rfl, fun x => ⟨rfl, rfl⟩⟩

theorem faultBatchClose_waits (full : ringRoom (s.part p).fltcfg (s.part p).flthead (s.part p).flttail = 0) :
    exec (.faultBatchClose p) s = .next ((s.modPart p Part.closeBatch).modPart p Part.fltFull).stir := by
  have batches : ((s.part p).closeBatch).batches = [[[f.no]]] := by rw [Part.closeBatch_one only loose unclosed]
  have out : ((s.part p).closeBatch).writable [[f.no]] = [] := Part.writable_full [f.no] full
  rw [faultBatchClose_closes only loose unclosed ranged past]
  unfold State.writeBatch
  simp only [State.part_modPart_same, batches, out, List.isEmpty_nil, if_true]

end close

/-! ### TRAP_RECORD_WRITE -/

section trap
variable {s : State} {p : Nat} {r : TrapRec} (oldest : (s.part p).traps.find? (fun r => r.seq.isNone) = some r)
include oldest

theorem trapRecordWrite_writes (room : ringRoom (s.part p).trpcfg (s.part p).trphead (s.part p).trptail ≠ 0) :
    exec (.trapRecordWrite p) s = .next (s.recorded (s.part p).trpbase (s.part p).trpcfg (s.part p).trptail
      (r.words (s.part p).tseq s.ns) p (fun x => ({ x with
        traps := mapFirst (fun t => t.seq.isNone) (fun t => { t with seq := some x.tseq }) x.traps
        tseq := x.tseq + 1, trptail := x.trptail + 1 } : Part).sweepTraps) (bits (s.part p).trpcfg 19 9)) := by
  change execTrapRecordWrite p s = _
  unfold execTrapRecordWrite
  simp only [oldest, room, if_false]
  rfl

theorem trapRecordWrite_waits (full : ringRoom (s.part p).trpcfg (s.part p).trphead (s.part p).trptail = 0) :
    exec (.trapRecordWrite p) s = .next (s.modPart p fun x => { x with trpcfg := putBits x.trpcfg 8 8 1 }).stir := by
  change execTrapRecordWrite p s = _
  unfold execTrapRecordWrite
  simp only [oldest, full, if_true]

end trap

/-- Settles O48: each writer by whether its ring has room. -/
theorem recordEventsComplete : Obligations.RecordEventsComplete := by
  unfold Obligations.RecordEventsComplete
  intro s p
  refine ⟨fun f oldest single fits => ⟨fun room => ?_, fun full => ?_⟩,
    fun f only loose distinct unclosed ranged past fits => ⟨fun room => ?_, fun full => ?_⟩,
    fun r oldest fits => ⟨fun room => ?_, fun full => ?_⟩⟩
  · refine ⟨_, faultRecordWrite_writes oldest single room, s.mem_recorded p _ _ (f.length_words ..) fits, ?_, ?_,
      State.msix_recorded .., State.cores_recorded ..⟩
    all_goals
      rw [State.part_recorded]
      rfl
  · exact ⟨_, faultRecordWrite_waits oldest single full, rfl, rfl, s.part_modPart_same p Part.fltFull⟩
  · obtain ⟨change, run, advances⟩ := faultBatchClose_writes only loose unclosed ranged past distinct room
    have closed := (s.modPart p Part.closeBatch).part_recorded (base := (s.part p).fltbase) (cfg := (s.part p).fltcfg) (i := (s.part p).flttail)
      (l := f.words (s.part p).fseq true (f.va / 4096 * 4096) 4096 1 f.access) p change (bits (s.part p).fltcfg 19 9)
    rw [State.part_modPart_same] at closed
    obtain ⟨tail, seq⟩ := advances (s.part p).closeBatch
    exact ⟨_, run, (s.modPart p Part.closeBatch).mem_recorded p _ _ (f.length_words ..) fits, (congrArg (·.flttail) closed).trans tail,
      (congrArg (·.fseq) closed).trans seq, State.msix_recorded .., State.cores_recorded ..⟩
  · have part : (((s.modPart p Part.closeBatch).modPart p Part.fltFull).part p) = (s.part p).closeBatch.fltFull := by
      rw [State.part_modPart_same, State.part_modPart_same]
    refine ⟨_, faultBatchClose_waits only loose unclosed ranged past full, rfl, rfl, ?_, ?_, ?_, ?_⟩
    · exact (congrArg (·.batches) part).trans (congrArg (·.batches) (Part.closeBatch_one only loose unclosed))
    · exact congrArg (·.fltcfg) part
    · exact congrArg (·.flttail) part
    · exact congrArg (·.fseq) part
  · refine ⟨_, trapRecordWrite_writes oldest room, s.mem_recorded p _ _ (r.length_words ..) fits, ?_, ?_,
      State.msix_recorded .., State.cores_recorded ..⟩
    all_goals
      rw [State.part_recorded]
      rfl
  · exact ⟨_, trapRecordWrite_waits oldest full, rfl, rfl, s.part_modPart_same p fun x => { x with trpcfg := putBits x.trpcfg 8 8 1 }⟩

end Sys2Proof.Machine
end

section
/-! The field of a word that a write names, and the state of work that is on a core. -/
namespace Sys2Proof.Machine

/-! ### A field of a word -/

theorem getLsbD_putBits_below (v : Word) {hi lo j : Nat} (x : Nat) (below : j < lo) : (putBits v hi lo x).getLsbD j = v.getLsbD j := by
  simp only [putBits, BitVec.getLsbD_or, BitVec.getLsbD_and, BitVec.getLsbD_not, BitVec.getLsbD_shiftLeft, below, decide_true, Bool.not_true,
    Bool.and_false, Bool.false_and, Bool.or_false, Bool.not_false, Bool.and_true]
  by_cases within : j < 64
  · rw [decide_eq_true within, Bool.and_true]
  · rw [BitVec.getLsbD_of_ge _ _ (Nat.not_lt.1 within), Bool.false_and]

/-- What lies below a field that is written is as it was. -/
theorem setWidth_putBits (v : Word) {n hi lo : Nat} (x : Nat) (below : n ≤ lo) : (putBits v hi lo x).setWidth n = v.setWidth n := by
  apply BitVec.eq_of_getLsbD_eq
  intro i within
  rw [BitVec.getLsbD_setWidth, BitVec.getLsbD_setWidth, getLsbD_putBits_below _ _ (Nat.lt_of_lt_of_le within below)]

/-- A field that is written holds what was written. -/
theorem bits_putBits_same (v : Word) {hi lo : Nat} (x : Nat) (le : lo ≤ hi) (within : hi < 64) :
    bits (putBits v hi lo x) hi lo = x % 2 ^ (hi - lo + 1) := by
  have field : (putBits v hi lo x).extractLsb' lo (hi - lo + 1) = BitVec.ofNat (hi - lo + 1) x := by
    apply BitVec.eq_of_getLsbD_eq
    intro i inside
    have low : lo + i < 64 := by omega
    have high : i < 64 := by omega
    simp only [putBits, BitVec.getLsbD_extractLsb', BitVec.getLsbD_or, BitVec.getLsbD_and, BitVec.getLsbD_not, BitVec.getLsbD_shiftLeft,
      BitVec.getLsbD_ofNat, Nat.testBit_two_pow_sub_one, Nat.testBit_mod_two_pow, Nat.add_sub_cancel_left, Nat.not_lt.2 (Nat.le_add_right lo i),
      inside, low, high, decide_true, decide_false, Bool.not_false, Bool.not_true, Bool.true_and, Bool.and_false, Bool.false_or]
  rw [bits, field, BitVec.toNat_ofNat]

/-! ### Partitions, and the state of work -/

theorem State.modPart_congr {s : State} {p : Nat} {f g : Part → Part} (same : f (s.part p) = g (s.part p)) : s.modPart p f = s.modPart p g := by
  rw [State.modPart, State.modPart, same]

/-- A write of the host window to partition p of a device that is ready does what it does. -/
theorem atPart_next {s u : State} {p : Nat} {f : State → State} (ready : s.stage = 5) (numbered : p < 16) (run : f s = u) :
    atPart p f s = .next u.stir := by
  rw [atPart_ready ready numbered, run]

/-- The state of work that is on a core changes there. -/
theorem State.core_modCtxOfWork {s : State} {k : Nat} {w : Work} (held : (s.core k).work = some w) (f : Ctx → Ctx) :
    (s.modCtxOfWork w.id f).core k = { s.core k with ctx := f (s.core k).ctx } := by
  have changed := SMap.get_mapValues s.cores {} (fun c => if c.work.any (·.id = w.id) then { c with ctx := f c.ctx } else c) rfl k
  have mine : (s.core k).work.any (·.id = w.id) = true := by
    rw [held, Option.any_some]
    exact decide_eq_true rfl
  exact changed.trans (if_pos mine)

/-- Of work that is on a core, no save slot changes. -/
theorem State.off_modCtxOfWork {s : State} {id : Nat} (placed : ∀ g ∈ s.off, g.work.id ≠ id) (f : Ctx → Ctx) :
    (s.modCtxOfWork id f).off = s.off :=
  (List.map_congr_left fun g inside => if_neg (placed g inside)).trans (List.map_id' s.off)

/-- An engine that goes on from where it was held. -/
theorem Ctx.eng_unhold (c : Ctx) (e : Eng) (now : Nat) : (c.unhold e now).eng e = { c.eng e with hold := none, passed := now } :=
  Ctx.eng_modEng_same c e _

theorem Ctx.queue_unhold (c : Ctx) (e : Eng) (now q : Nat) : (c.unhold e now).queue q = c.queue q := by
  rw [Ctx.queue, Ctx.unhold, Ctx.queues_modEng, Ctx.queue]

/-- Engine e of core k goes on in t from where it was held in s, and memory is as it was. -/
def State.GoesOn (s t : State) (k : Nat) (e : Eng) : Prop :=
  ((t.core k).ctx.eng e).hold = none ∧ ((t.core k).ctx.eng e).pc = ((s.core k).ctx.eng e).pc ∧ ((t.core k).ctx.eng e).g = ((s.core k).ctx.eng e).g
    ∧ t.mem = s.mem

theorem State.GoesOn.of_unhold {s t : State} {k : Nat} {e : Eng} {c : Ctx} {now : Nat} (core : (t.core k).ctx = c.unhold e now)
    (same : c.eng e = (s.core k).ctx.eng e) (mem : t.mem = s.mem) : s.GoesOn t k e := by
  unfold State.GoesOn
  rw [core, Ctx.eng_unhold, same]
  exact ⟨rfl, rfl, rfl, mem⟩

end Sys2Proof.Machine
end

section
/-! FLTACK of a fault of an engine (R160). -/
namespace Sys2Proof.Machine

/-- A partition whose oldest fault has been acknowledged. -/
def State.faultsLeft (s : State) (p : Nat) (rest : List FaultRec) : State := s.modPart p fun x => { x with faults := rest }

theorem State.part_faultsLeft (s : State) (p : Nat) (rest : List FaultRec) : (s.faultsLeft p rest).part p = { s.part p with faults := rest } :=
  s.part_modPart_same p fun x => { x with faults := rest }

/-- FLTACK of the only record that is written. -/
theorem State.writeFltack_first {s : State} {p : Nat} {v : Word} {f : FaultRec} {rest : List FaultRec} (first : (s.part p).faults = f :: rest)
    (written : f.seq = some (v.setWidth 32)) (unwritten : ∀ y ∈ rest, y.seq = none) :
    s.writeFltack p v = (if v.getLsbD 63 then (s.faultsLeft p rest).discardSource f else (s.faultsLeft p rest).resumeSource f).settleParked := by
  have hit : (f.seq.any fun q => decide (diff32 q (v.setWidth 32) ≤ 0)) = true := by
    rw [written, Option.any_some, diff32, BitVec.sub_self]
    rfl
  have missed : ∀ y ∈ rest, (y.seq.any fun q => decide (diff32 q (v.setWidth 32) ≤ 0)) = false := fun y inside => by rw [unwritten y inside]; rfl
  have acknowledged : (s.part p).faults.filter (fun f => f.seq.any fun q => decide (diff32 q (v.setWidth 32) ≤ 0)) = [f] := by
    rw [first, List.filter_cons_of_pos (by exact hit), List.filter_eq_nil_iff.2 fun y inside => by rw [missed y inside]; exact Bool.false_ne_true]
  have left : (s.part p).faults.filter (fun f => !(f.seq.any fun q => decide (diff32 q (v.setWidth 32) ≤ 0))) = rest := by
    rw [first, List.filter_cons_of_neg (by simpa using hit), List.filter_eq_self]
    exact fun y inside => by rw [missed y inside]; rfl
  have parts : s.modPart p (fun x => { x with faults := x.faults.filter fun f => !(f.seq.any fun q => decide (diff32 q (v.setWidth 32) ≤ 0)) })
      = s.faultsLeft p rest := State.modPart_congr (by rw [left])
  unfold State.writeFltack
  dsimp only
  rw [acknowledged, parts]
  rfl

/-- A trap that joins leaves the faults. -/
theorem State.faults_addTrap (s : State) (t : TrapRec) (p : Nat) : ((s.addTrap t).part p).faults = (s.part p).faults := by
  rw [State.addTrap, State.part_modPart]
  split
  case isTrue same => rw [same]
  case isFalse => rfl

section fltack
variable {s : State} {p k : Nat} {w : Work} {v : Word} {e : Eng} {f : FaultRec} {rest : List FaultRec} (ready : s.stage = 5) (numbered : p < 16)
  (held : (s.core k).work = some w) (placed : ∀ g ∈ s.off, g.work.id ≠ w.id) (first : (s.part p).faults = f :: rest)
  (written : f.seq = some (v.setWidth 32)) (unwritten : ∀ y ∈ rest, y.seq = none) (source : f.src = .engine w.id e)
  (faulted : ((s.core k).ctx.eng e).hold = some .fault) (unparked : ∀ g ∈ s.off, g.st ≠ .parked)
include ready numbered held placed first written unwritten source faulted unparked

theorem fltack_resumes (kept : v.getLsbD 63 = false) :
    ∃ t, exec (.fltack p v) s = .next t ∧ (t.part p).faults = rest ∧ s.GoesOn t k e := by
  let f' : Ctx → Ctx := fun c => if (c.eng e).hold = some .fault then c.unhold e s.now else c
  let u := (s.faultsLeft p rest).modCtxOfWork w.id f'
  have off : u.off = s.off := State.off_modCtxOfWork (s := s.faultsLeft p rest) placed f'
  have run : s.writeFltack p v = u := by
    rw [State.writeFltack_first first written unwritten, if_neg (by rw [kept]; exact Bool.false_ne_true), State.resumeSource, source]
    exact State.settleParked_none (s := u) (by rw [off]; exact unparked)
  have core : (u.core k).ctx = (s.core k).ctx.unhold e s.now :=
    (congrArg (·.ctx) (State.core_modCtxOfWork (s := s.faultsLeft p rest) held f')).trans (if_pos faulted)
  refine ⟨u.stir, atPart_next ready numbered run, ?_, State.GoesOn.of_unhold core rfl rfl⟩
  exact congrArg (·.faults) (s.part_faultsLeft p rest)

theorem fltack_drops (found : s.coreOfWork w.id = some k) (mine : w.part = p) (dropped : v.getLsbD 63 = true) :
    ∃ t, exec (.fltack p v) s = .next t ∧ (t.part p).faults = rest ∧ ((t.core k).ctx.eng e).hold = some (.trap 13 8)
      ∧ ∃ r : TrapRec, r.joins (s.part p).traps (t.part p).traps ∧ r.cls = 13 ∧ r.cause = 8 ∧ r.val = 0 := by
  subst mine
  let f' : Ctx → Ctx := fun c => c.modEng e fun g => { g with hold := some (.trap 13 8) }
  let u := (s.faultsLeft w.part rest).modCtxOfWork w.id f'
  let r : TrapRec := { trapRecOf k (s.core k) w (.engine w.id e) 13 8 0 with eng := engTag e }
  have off : (u.addTrap r).off = s.off := State.off_modCtxOfWork (s := s.faultsLeft w.part rest) placed f'
  have look : (s.faultsLeft w.part rest).findWork w.id = some (k, s.core k) := by
    rw [State.findWork, show (s.faultsLeft w.part rest).coreOfWork w.id = some k from found]
    rfl
  have discard : (s.faultsLeft w.part rest).discardSource f = u.addTrap r := by
    unfold State.discardSource
    rw [source]
    dsimp only
    rw [look]
    dsimp only
    rw [if_neg (not_not_intro faulted), held]
    rfl
  have run : s.writeFltack w.part v = u.addTrap r := by
    rw [State.writeFltack_first first written unwritten, if_pos dropped, discard]
    exact State.settleParked_none (by rw [off]; exact unparked)
  have core : (u.core k).ctx = f' (s.core k).ctx := congrArg (·.ctx) (State.core_modCtxOfWork (s := s.faultsLeft w.part rest) held f')
  have part : u.part w.part = { s.part w.part with faults := rest } := s.part_faultsLeft w.part rest
  refine ⟨(u.addTrap r).stir, atPart_next ready numbered run, ?_, ?_, { r with since := s.now }, ?_, rfl, rfl, rfl⟩
  · exact (u.faults_addTrap r w.part).trans (congrArg (·.faults) part)
  · change ((u.core k).ctx.eng e).hold = _
    rw [core, Ctx.eng_modEng_same]
  · have joins := u.joins_addTrap r
    rw [show (u.part r.part).traps = (s.part w.part).traps from congrArg (·.traps) part] at joins
    exact joins

end fltack

end Sys2Proof.Machine
end

section
/-! TRPACK: an action at once, of a trap whose work is on a core, and one that waits for the work to resume (R351, R363). -/
namespace Sys2Proof.Machine

/-! ### What an acknowledgement finds -/

section trpack
variable {s : State} {p : Nat} {r : TrapRec} {rest : List TrapRec}

/-- Whether a record allows an action (Table 19-4). -/
def TrapRec.allows (r : TrapRec) (act : Nat) : Prop := act = 0 ∧ r.retryable ∨ act = 1 ∨ act = 2 ∧ r.cls = 10

/-- An action that the oldest record allows is taken; any other sets the error bit. -/
theorem State.writeTrpack_first {v : Word} (first : (s.part p).traps = r :: rest) (written : r.seq = some (v.setWidth 32)) (holds : r.info = false)
    (fresh : r.acked = none) (source : r.src ≠ .gone) :
    (r.allows (bits v 34 32) → s.writeTrpack p v = s.acknowledge p r (bits v 34 32))
      ∧ (¬ r.allows (bits v 34 32) → s.writeTrpack p v = s.modPart p fun x => { x with trpcfg := putBits x.trpcfg 20 20 1 }) := by
  have found : ((s.part p).traps.find? fun t => t.seq = some (v.setWidth 32) && !t.info && t.src ≠ .gone && t.acked.isNone) = some r := by
    rw [first, List.find?_cons_of_pos]
    simp [written, holds, fresh, source]
  unfold State.writeTrpack TrapRec.allows
  simp only [found]
  exact ⟨fun allowed => if_pos allowed, fun refused => if_neg refused⟩

/-- The write of an action that the oldest record allows. -/
theorem State.writeTrpack_acts {v : Word} {act : Nat} (first : (s.part p).traps = r :: rest) (written : r.seq = some (v.setWidth 32))
    (holds : r.info = false) (fresh : r.acked = none) (source : r.src ≠ .gone) (field : act < 8) (allowed : r.allows act) :
    s.writeTrpack p (putBits v 34 32 act) = s.acknowledge p r act := by
  have action : bits (putBits v 34 32 act) 34 32 = act := (bits_putBits_same v act (by decide) (by decide)).trans (Nat.mod_eq_of_lt field)
  have acts := (State.writeTrpack_first (v := putBits v 34 32 act) first (by rw [setWidth_putBits v act le_rfl]; exact written) holds fresh source).1
  rw [action] at acts
  exact acts allowed

/-- A partition whose oldest trap has been acknowledged. -/
def State.trapsLeft (s : State) (p : Nat) (rest : List TrapRec) : State := s.modPart p fun x => { x with traps := rest }

theorem State.part_trapsLeft (s : State) (p : Nat) (rest : List TrapRec) : (s.trapsLeft p rest).part p = { s.part p with traps := rest } :=
  s.part_modPart_same p fun x => { x with traps := rest }

theorem State.acknowledge_acts (first : (s.part p).traps = r :: rest) (unsaved : s.savedFor r = false) (act : Nat) :
    s.acknowledge p r act = (s.trapsLeft p rest).actOn r act := by
  have parts : s.modPart p (fun x => { x with traps := dropFirst (fun y => y.seq = r.seq) x.traps }) = s.trapsLeft p rest :=
    State.modPart_congr (by simp [first, dropFirst])
  rw [State.acknowledge, unsaved, if_neg Bool.false_ne_true, parts]

theorem State.acknowledge_notes (first : (s.part p).traps = r :: rest) (saved : s.savedFor r = true) (act : Nat) :
    s.acknowledge p r act = s.modPart p fun x => { x with traps := { r with acked := some act } :: rest } := by
  rw [State.acknowledge, saved, if_pos rfl]
  exact State.modPart_congr (by simp [first, mapFirst])

end trpack

/-- Work that is on a core, and in no save slot, is not saved. -/
theorem State.savedFor_placed {s : State} {r : TrapRec} {id : Nat} {e : Eng} (source : r.src = .engine id e) (placed : ∀ g ∈ s.off, g.work.id ≠ id) :
    s.savedFor r = false := by
  refine List.any_eq_false.2 fun g inside => ?_
  have other : r.of g.work.id = false := by
    rw [TrapRec.of, source]
    exact decide_eq_false (placed g inside).symm
  rw [other]
  simp

/-! ### RETRY and DISCARD of a trap of an engine -/

theorem State.retryTrap_engine {s : State} {r : TrapRec} {id : Nat} {e : Eng} (source : r.src = .engine id e) (passed : ¬ (r.cls = 10 ∧ r.cause = 3)) :
    s.retryTrap r = s.modCtxOfWork id fun c => c.unhold e s.now := by
  rw [State.retryTrap, source]
  exact if_neg passed

/-- The terminal entry at the head of the queue that an instruction would have popped or peeked is removed. -/
theorem Ctx.dropTerminal_head {c : Ctx} {q : Nat} {y : Slot} {es : List Slot} (queue : c.queue q = y :: es) (full : y.full = true)
    (term : y.term = true) (n : Nat) (rs : List (Nat × Nat)) : c.dropTerminal ((q, n + 1) :: rs) = c.setQueue q es := by
  have head : ((c.filledRun q).take (n + 1)).findIdx? (·.term) = some 0 := by
    rw [Ctx.filledRun, queue, List.takeWhile_cons_of_pos full, List.take_succ_cons, List.findIdx?_cons, if_pos term]
  rw [Ctx.dropTerminal, head, queue]
  rfl

theorem Ctx.eng_setQueue (c : Ctx) (q : Nat) (l : List Slot) (e : Eng) : (c.setQueue q l).eng e = c.eng e := by cases e <;> rfl

theorem Ctx.queue_setQueue (c : Ctx) (q : Nat) (l : List Slot) : (c.setQueue q l).queue q = l := SMap.get_set_same c.queues [] q l

/-! ### ABORT: the end of work that has nothing left to perform -/

/-- A core whose work is ended keeps of its state its scratchpad and its rings (R372). -/
def Core.ended (c : Core) : Core := { c with ctx := { spad := c.ctx.spad, rings := c.ctx.rings } }

section ends
variable {s : State} {k : Nat} {w : Work} (held : (s.core k).work = some w) (performed : (s.core k).ob = []) (unpinned : (s.core k).ctx.pins = [])
include held performed unpinned

theorem State.endWork_vacates : s.endWork k false = (((s.forget w).endRequest k).modCore k Core.ended).vacate k := by
  obtain ⟨b, core⟩ : ∃ b, ((s.forget w).endRequest k).core k = { s.core k with preempt := b } := (s.forget w).endRequest_core k
  unfold State.endWork
  simp only [held]
  rw [core, unpinned, List.foldl_nil, State.core_modCore_same, core, performed, List.isEmpty_nil, if_pos rfl]
  rfl

/-- The core is free at once. -/
theorem State.core_endWork (j : Nat) : (s.endWork k false).core j = if j = k then (s.core k).emptied else s.core j := by
  obtain ⟨b, core⟩ : ∃ b, ((s.forget w).endRequest k).core k = { s.core k with preempt := b } := (s.forget w).endRequest_core k
  rw [State.endWork_vacates held performed unpinned, State.vacate_core]
  split
  case isTrue =>
    rw [State.core_modCore_same, core]
    rfl
  case isFalse other =>
    rw [State.core_modCore_ne _ _ other, State.endRequest_core_ne _ other]
    rfl

theorem State.mem_endWork : (s.endWork k false).mem = s.mem := by
  rw [State.endWork_vacates held performed unpinned, State.vacate_mem, State.modCore_mem, State.endRequest_frame]
  rfl

/-- Work that is aborted leaves its core free, its rings as they were, and nothing else of the cores or of memory changes. -/
theorem State.abortWork_frees (found : s.coreOfWork w.id = some k) :
    (s.abortWork w.id).mem = s.mem ∧ ∀ j, (s.abortWork w.id).core j = if j = k then (s.core k).emptied else s.core j := by
  let u : State := { s with queues := s.queues.map fun e => (e.1, { e.2 with held := e.2.held.filter fun h => h.work ≠ w.id }) }
  let v := (u.freeTied w.id).disarm w
  have run : s.abortWork w.id = (v.endWork k false).workOver w false := by
    unfold State.abortWork
    dsimp only
    rw [show u.coreOfWork w.id = some k from found]
    dsimp only
    rw [show (u.core k).work = some w from held]
    dsimp only
    rw [State.pruneCore, show (u.core k).work = some w from held]
  obtain ⟨nests, parts, conds, frame⟩ := (v.endWork k false).workOver_frame w false
  rw [run, frame]
  exact ⟨State.mem_endWork (s := v) held performed unpinned, State.core_endWork (s := v) held performed unpinned⟩

end ends

/-! ### The four writes -/

section placed
variable {s : State} {p k : Nat} {w : Work} {v : Word} {e : Eng} {r : TrapRec} {rest : List TrapRec} (ready : s.stage = 5) (numbered : p < 16)
  (held : (s.core k).work = some w) (placed : ∀ g ∈ s.off, g.work.id ≠ w.id) (first : (s.part p).traps = r :: rest)
  (written : r.seq = some (v.setWidth 32)) (holds : r.info = false) (fresh : r.acked = none) (source : r.src = .engine w.id e)
include ready numbered held placed first written holds fresh source

omit ready numbered held in
/-- An action that the record allows is taken at once. -/
theorem State.writeTrpack_placed {act : Nat} (field : act < 8) (allowed : r.allows act) :
    s.writeTrpack p (putBits v 34 32 act) = (s.trapsLeft p rest).actOn r act := by
  rw [State.writeTrpack_acts first written holds fresh (by rw [source]; exact nofun) field allowed,
    State.acknowledge_acts first (State.savedFor_placed source placed)]

theorem trpackRetry_goesOn (precise : r.cls ≤ 12) (passed : ¬ (r.cls = 10 ∧ r.cause = 3)) :
    ∃ t, exec (.trpackRetry p v) s = .next t ∧ (t.part p).traps = rest ∧ s.GoesOn t k e := by
  have allowed : r.allows 0 := .inl ⟨rfl, by rw [TrapRec.retryable, decide_eq_true precise, Bool.true_or]⟩
  let u := (s.trapsLeft p rest).modCtxOfWork w.id fun c => c.unhold e s.now
  have run : s.writeTrpack p (putBits v 34 32 0) = u := by
    rw [State.writeTrpack_placed placed first written holds fresh source (by decide) allowed]
    exact State.retryTrap_engine source passed
  have core : (u.core k).ctx = (s.core k).ctx.unhold e s.now :=
    congrArg (·.ctx) (State.core_modCtxOfWork (s := s.trapsLeft p rest) held fun c => c.unhold e s.now)
  refine ⟨u.stir, atPart_next ready numbered run, congrArg (·.traps) (s.part_trapsLeft p rest), ?_⟩
  exact State.GoesOn.of_unhold core rfl rfl

theorem trpackDiscard_goesOn {q n : Nat} {rs : List (Nat × Nat)} {y : Slot} {es : List Slot} (cls : r.cls = 10) (cause : r.cause = 1)
    (reads : r.reads = (q, n + 1) :: rs) (queue : (s.core k).ctx.queue q = y :: es) (full : y.full = true) (term : y.term = true) :
    ∃ t, exec (.trpackDiscard p v) s = .next t ∧ (t.part p).traps = rest ∧ s.GoesOn t k e ∧ (t.core k).ctx.queue q = es := by
  let z := (s.trapsLeft p rest).modCtxOfWork w.id fun c => if r.cause = 1 then c.dropTerminal r.reads else c.dropResidue
  let u := z.modCtxOfWork w.id fun c => c.unhold e s.now
  have run : s.writeTrpack p (putBits v 34 32 2) = u := by
    rw [State.writeTrpack_placed placed first written holds fresh source (by decide) (.inr (.inr ⟨rfl, cls⟩))]
    have discard : (s.trapsLeft p rest).discardResidue r = z := by rw [State.discardResidue, source]
    change ((s.trapsLeft p rest).discardResidue r).retryTrap r = u
    rw [discard]
    exact State.retryTrap_engine source (by rw [cause]; simp)
  have dropped : z.core k = { s.core k with ctx := (s.core k).ctx.setQueue q es } := by
    refine (State.core_modCtxOfWork (s := s.trapsLeft p rest) held _).trans ?_
    rw [if_pos cause, reads]
    exact congrArg (fun c => { s.core k with ctx := c }) (Ctx.dropTerminal_head queue full term n rs)
  have core : (u.core k).ctx = ((s.core k).ctx.setQueue q es).unhold e s.now := by
    refine (congrArg (·.ctx) (State.core_modCtxOfWork (s := z) (by rw [dropped]; exact held) _)).trans ?_
    rw [dropped]
  refine ⟨u.stir, atPart_next ready numbered run, congrArg (·.traps) (s.part_trapsLeft p rest),
    State.GoesOn.of_unhold core (Ctx.eng_setQueue ..) rfl, ?_⟩
  exact (congrArg (·.queue q) core).trans ((Ctx.queue_unhold ..).trans (Ctx.queue_setQueue ..))

theorem trpackAbort_frees (found : s.coreOfWork w.id = some k) (performed : (s.core k).ob = []) (unpinned : (s.core k).ctx.pins = []) :
    ∃ t, exec (.trpackAbort p v) s = .next t ∧ (t.core k).work = none ∧ t.mem = s.mem ∧ (t.core k).ctx.rings = (s.core k).ctx.rings
      ∧ ∀ j, j ≠ k → t.core j = s.core j := by
  have run : s.writeTrpack p (putBits v 34 32 1) = (s.trapsLeft p rest).abortWork w.id := by
    rw [State.writeTrpack_placed placed first written holds fresh source (by decide) (.inr (.inl rfl))]
    change (s.trapsLeft p rest).abortTrap r = _
    rw [State.abortTrap, source]
  obtain ⟨mem, cores⟩ := State.abortWork_frees (s := s.trapsLeft p rest) held performed unpinned found
  have core : ((s.trapsLeft p rest).abortWork w.id).core k = (s.core k).emptied := (cores k).trans (if_pos rfl)
  refine ⟨_, atPart_next ready numbered run, congrArg (·.work) core, mem, congrArg (·.ctx.rings) core, fun j other => ?_⟩
  exact (cores j).trans (if_neg other)

omit held placed in
theorem trpackReserved_refuses (reserved : 3 ≤ bits v 34 32) : ∃ t, exec (.trpackReserved p v) s = .next t ∧ t.mem = s.mem ∧ t.cores = s.cores
    ∧ t.part p = { s.part p with trpcfg := putBits (s.part p).trpcfg 20 20 1 } := by
  have refused : ¬ r.allows (bits v 34 32) := by
    unfold TrapRec.allows
    omega
  have run := (State.writeTrpack_first first written holds fresh (by rw [source]; exact nofun)).2 refused
  exact ⟨_, atPart_next ready numbered ((congrArg (s.writeTrpack p) (if_neg (Nat.not_lt.2 reserved))).trans run), rfl, rfl,
    s.part_modPart_same p fun x => { x with trpcfg := putBits x.trpcfg 20 20 1 }⟩

end placed

/-! ### An action for work that is saved -/

/-- In t, action act of the oldest trap of partition p is noted, and nothing else of the device's partitions, cores, memory and saved work
has changed (log 114). -/
def State.Notes (s t : State) (p : Nat) (r : TrapRec) (rest : List TrapRec) (act : Nat) : Prop :=
  t.mem = s.mem ∧ t.cores = s.cores ∧ t.off = s.off
    ∧ t.part p = { s.part p with traps := { r with acked := some act } :: rest } ∧ ∀ j, j ≠ p → t.part j = s.part j

theorem writeTrpack_notes {s : State} {p act : Nat} {v : Word} {g : Seg} {r : TrapRec} {rest : List TrapRec} (ready : s.stage = 5) (numbered : p < 16)
    (inside : g ∈ s.off) (mine : r.of g.work.id = true) (unfenced : g.st ≠ .fenced) (unparked : g.st ≠ .parked)
    (first : (s.part p).traps = r :: rest) (written : r.seq = some (v.setWidth 32)) (holds : r.info = false) (fresh : r.acked = none)
    (source : r.src ≠ .gone) (field : act < 8) (allowed : r.allows act) :
    ∃ t, atPart p (·.writeTrpack p (putBits v 34 32 act)) s = .next t ∧ s.Notes t p r rest act := by
  have saved : s.savedFor r = true := List.any_eq_true.2 ⟨g, inside, by simp [mine, unfenced, unparked]⟩
  have run : s.writeTrpack p (putBits v 34 32 act) = s.modPart p fun x => { x with traps := { r with acked := some act } :: rest } := by
    rw [State.writeTrpack_acts first written holds fresh source field allowed, State.acknowledge_notes first saved]
  refine ⟨_, atPart_next ready numbered run, rfl, rfl, rfl,
    s.part_modPart_same p fun x => { x with traps := { r with acked := some act } :: rest }, fun j other => ?_⟩
  exact (s.part_modPart p j fun x => { x with traps := { r with acked := some act } :: rest }).trans (if_neg other)

/-- Settles O49: FLTACK by DROP; TRPACK by its action, and by where the work is. -/
theorem acknowledgementsComplete : Obligations.AcknowledgementsComplete := by
  unfold Obligations.AcknowledgementsComplete
  refine ⟨fun s p k w v e ready numbered held found placed => ⟨?_, ?_⟩, ?_⟩
  · intro f rest first written unwritten source mine faulted unparked
    cases dropped : v.getLsbD 63 with
    | false =>
      obtain ⟨t, run, left, goesOn⟩ := fltack_resumes ready numbered held placed first written unwritten source faulted unparked dropped
      exact ⟨t, run, left, fun _ => goesOn, nofun⟩
    | true =>
      obtain ⟨t, run, left, checked⟩ :=
        fltack_drops ready numbered held placed first written unwritten source faulted unparked found mine dropped
      exact ⟨t, run, left, nofun, fun _ => checked⟩
  · intro r rest first written holds fresh source
    exact ⟨trpackRetry_goesOn ready numbered held placed first written holds fresh source,
      fun q n rs y es => trpackDiscard_goesOn ready numbered held placed first written holds fresh source,
      trpackAbort_frees ready numbered held placed first written holds fresh source found,
      trpackReserved_refuses ready numbered first written holds fresh source⟩
  · intro s p v g r rest ready numbered inside mine unfenced unparked first written holds fresh source
    have notes : ∀ act < 8, r.allows act → ∃ t, atPart p (·.writeTrpack p (putBits v 34 32 act)) s = .next t ∧ s.Notes t p r rest act :=
      fun _ field allowed => writeTrpack_notes ready numbered inside mine unfenced unparked first written holds fresh source field allowed
    exact ⟨notes 1 (by decide) (.inr (.inl rfl)),
      fun precise => notes 0 (by decide) (.inl ⟨rfl, by rw [TrapRec.retryable, decide_eq_true precise, Bool.true_or]⟩),
      fun cls => notes 2 (by decide) (.inr (.inr ⟨rfl, cls⟩))⟩

end Sys2Proof.Machine
end

section
/-! Bytes and numbers, and pieces of a list: each way back (R8). -/
namespace Sys2Proof

theorem ofBytes_lt (l : List Byte) : ofBytes l < 256 ^ l.length := by
  induction l with
  | nil => exact Nat.one_pos
  | cons b r ih =>
    rw [ofBytes, List.length_cons, pow_succ']
    have := b.isLt
    omega

theorem ofBytes_toBytes (n v : Nat) : ofBytes (toBytes v n) = v % 256 ^ n := by
  induction n generalizing v with
  | zero => exact (Nat.mod_one v).symm
  | succ n ih => rw [toBytes, ofBytes, ih, BitVec.toNat_ofNat, show 2 ^ 8 = 256 from rfl, pow_succ' 256 n, Nat.mod_mul]

theorem toBytes_ofBytes (l : List Byte) : toBytes (ofBytes l) l.length = l := by
  induction l with
  | nil => rfl
  | cons b r ih =>
    have low : (b.toNat + 256 * ofBytes r) / 256 = ofBytes r := by
      have := b.isLt
      omega
    have first : BitVec.ofNat 8 (b.toNat + 256 * ofBytes r) = b := by
      apply BitVec.eq_of_toNat_eq
      rw [BitVec.toNat_ofNat]
      have := b.isLt
      omega
    rw [List.length_cons, ofBytes, toBytes, low, first, ih]

theorem toBytes_zero (n : Nat) : toBytes 0 n = List.replicate n 0 := by
  induction n with
  | zero => rfl
  | succ n ih => rw [toBytes, Nat.zero_div, ih, List.replicate_succ]; rfl

section chunks
variable {α : Type}

theorem length_chunks (w n : Nat) (l : List α) : (chunks w l n).length = n := by
  induction n generalizing l with
  | zero => rfl
  | succ n ih => rw [chunks, List.length_cons, ih]

theorem flatten_chunks (w n : Nat) (l : List α) (h : l.length = w * n) : (chunks w l n).flatten = l := by
  induction n generalizing l with
  | zero => exact (List.eq_nil_of_length_eq_zero h).symm
  | succ n ih =>
    rw [Nat.mul_succ] at h
    rw [chunks, List.flatten_cons, ih _ (by rw [List.length_drop]; omega), List.take_append_drop]

theorem length_of_mem_chunks (w n : Nat) (l : List α) (h : l.length = w * n) : ∀ x ∈ chunks w l n, x.length = w := by
  induction n generalizing l with
  | zero => exact fun _ hx => absurd hx List.not_mem_nil
  | succ n ih =>
    rw [Nat.mul_succ] at h
    intro x hx
    obtain rfl | hx := List.mem_cons.1 hx
    · rw [List.length_take]
      omega
    · exact ih _ (by rw [List.length_drop]; omega) x hx

end chunks

/-- A digit of a number in base b. -/
theorem ofDigits_div_mod {b : Nat} {l : List Nat} (small : ∀ x ∈ l, x < b) {i : Nat} (hi : i < l.length) :
    Nat.ofDigits b l / b ^ i % b = l[i] := by
  induction l generalizing i with
  | nil => exact absurd hi (Nat.not_lt_zero i)
  | cons x r ih =>
    have hx : x < b := small x List.mem_cons_self
    cases i with
    | zero => rw [Nat.ofDigits_cons, pow_zero, Nat.div_one, Nat.add_mul_mod_self_left, Nat.mod_eq_of_lt hx, List.getElem_cons_zero]
    | succ i =>
      rw [Nat.ofDigits_cons, pow_succ', ← Nat.div_div_eq_div_mul, Nat.add_mul_div_left _ _ (by omega), Nat.div_eq_of_lt hx, Nat.zero_add,
        ih (fun y hy => small y (List.mem_cons_of_mem x hy)) (Nat.lt_of_succ_lt_succ hi), List.getElem_cons_succ]

theorem lt_two_pow_bitLength (n : Nat) : n < 2 ^ bitLength n := by
  unfold bitLength
  split
  next zero => omega
  next => exact Nat.lt_log2_self

theorem bitLength_eq_zero {n : Nat} : bitLength n = 0 ↔ n = 0 := by
  unfold bitLength
  split
  next zero => exact ⟨fun _ => zero, fun _ => rfl⟩
  next pos => exact ⟨fun h => absurd h (Nat.succ_ne_zero _), fun h => absurd h pos⟩

end Sys2Proof
end

section
/-! Block compression: what the finishing engine encodes, the decoders decode (R177, R178, R296). -/
namespace Sys2Proof.Machine

/-! ### Elements -/

/-- A block's elements are of 1, 2 or 4 bytes (R177). -/
theorem vbcWidth_cases (ty : Nat) : vbcWidth ty = 8 ∨ vbcWidth ty = 16 ∨ vbcWidth ty = 32 := by
  unfold vbcWidth tyBits typeBits
  split <;> decide

/-- The elements of 256 bytes: as numbers, so many of the width, that give the bytes again. -/
structure BlockElements (w : Nat) (l : List Byte) (e : List Nat) : Prop where
  length : e.length = 2048 / w
  small : ∀ x ∈ e, x < 2 ^ w
  bytes : (e.map fun x => toBytes x (w / 8)).flatten = l

theorem BlockElements.of_bytes (ty : Nat) {l : List Byte} (h : l.length = 256) :
    BlockElements (vbcWidth ty) l ((chunks (vbcWidth ty / 8) l (2048 / vbcWidth ty)).map ofBytes) := by
  obtain ⟨whole, power⟩ : vbcWidth ty / 8 * (2048 / vbcWidth ty) = 256 ∧ 256 ^ (vbcWidth ty / 8) = 2 ^ vbcWidth ty := by
    obtain w | w | w := vbcWidth_cases ty <;> rw [w] <;> decide
  have pieces := length_of_mem_chunks (vbcWidth ty / 8) (2048 / vbcWidth ty) l (by rw [h, whole])
  refine ⟨by rw [List.length_map, length_chunks], ?_, ?_⟩
  · rw [List.forall_mem_map]
    intro c hc
    rw [← power, ← pieces c hc]
    exact ofBytes_lt c
  · have back : (chunks (vbcWidth ty / 8) l (2048 / vbcWidth ty)).map (fun c => toBytes (ofBytes c) (vbcWidth ty / 8))
        = chunks (vbcWidth ty / 8) l (2048 / vbcWidth ty) := by
      refine (List.map_congr_left fun c hc => ?_).trans (List.map_id' _)
      exact (congrArg (toBytes (ofBytes c)) (pieces c hc)).symm.trans (toBytes_ofBytes c)
    rw [List.map_map]
    exact (congrArg List.flatten back).trans (flatten_chunks _ _ l (by rw [h, whole]))

/-! ### Headers -/

/-- The 16 bytes of a header (Table 7-5). -/
def VbcHead.bytes (x : VbcHead) : List Byte := toBytes (x.k + 64 * x.kind + 2 ^ 32 * x.base) 16

/-- The headers that the encoder writes: K and BASE only where the kind uses them. -/
structure VbcHead.Valid (x : VbcHead) (ty : Nat) : Prop where
  kind : x.kind < 4
  base : x.base < 2 ^ vbcWidth ty
  unbased : x.kind ≤ 1 → x.base = 0
  unpacked : x.kind ≠ 3 → x.k = 0
  packed : x.kind = 3 → 0 < x.k ∧ x.k < vbcWidth ty

theorem VbcHead.Valid.read {x : VbcHead} {ty : Nat} (h : x.Valid ty) : vbcHead ty x.bytes = some x := by
  have width : vbcWidth ty ≤ 32 := by
    obtain w | w | w := vbcWidth_cases ty <;> rw [w] <;> decide
  have base32 : x.base < 2 ^ 32 := h.base.trans_le (Nat.pow_le_pow_right (by decide) width)
  have k64 : x.k < 64 := by
    by_cases three : x.kind = 3
    · have := (h.packed three).2
      omega
    · rw [h.unpacked three]
      decide
  have kind := h.kind
  have value : ofBytes x.bytes = x.k + 64 * x.kind + 2 ^ 32 * x.base := by
    rw [VbcHead.bytes, ofBytes_toBytes]
    exact Nat.mod_eq_of_lt (by norm_num at *; omega)
  obtain ⟨fk, fkind, fbase, fmid, fhigh⟩ : fieldOf (ofBytes x.bytes) 5 0 = x.k ∧ fieldOf (ofBytes x.bytes) 7 6 = x.kind
      ∧ fieldOf (ofBytes x.bytes) 63 32 = x.base ∧ fieldOf (ofBytes x.bytes) 31 8 = 0 ∧ fieldOf (ofBytes x.bytes) 127 64 = 0 := by
    rw [value]
    norm_num [fieldOf] at *
    omega
  have fits : ¬ 2 ^ vbcWidth ty ≤ x.base := Nat.not_le.2 h.base
  unfold vbcHead
  dsimp only
  rw [fk, fkind, fbase, fmid, fhigh]
  rw [if_neg (by simpa using fits), if_neg (by simpa using h.unbased), if_neg]
  by_cases three : x.kind = 3
  · obtain ⟨low, high⟩ := h.packed three
    rw [if_pos three]
    simp only [Bool.or_eq_true, decide_eq_true_eq]
    omega
  · rw [if_neg three]
    simpa using h.unpacked three

/-! ### The four kinds -/

/-- A block is read back from its encoding. -/
def ReadsBack (ty : Nat) (enc l : List Byte) : Prop :=
  ∃ h, vbcHead ty (enc.take 16) = some h ∧ enc.length = h.len ty ∧ h.data ty (enc.drop 16) = l

theorem ReadsBack.of_head {ty : Nat} {x : VbcHead} {p l : List Byte} (valid : x.Valid ty) (length : p.length = x.payload ty)
    (data : x.data ty p = l) : ReadsBack ty (x.bytes ++ p) l := by
  have head : x.bytes.length = 16 := length_toBytes 16 _
  refine ⟨x, ?_, ?_, ?_⟩
  · rw [List.take_left' head, valid.read]
  · rw [List.length_append, head, length, VbcHead.len]
  · rw [List.drop_left' head, data]

/-- Bytes as they are. -/
theorem ReadsBack.raw (ty : Nat) {l : List Byte} (h : l.length = 256) : ReadsBack ty (VbcHead.bytes ⟨0, 0, 0⟩ ++ l) l :=
  .of_head ⟨by simp, Nat.two_pow_pos _, by simp, by simp, by simp⟩ h rfl

theorem VbcHead.data_packed (ty k lo : Nat) (p : List Byte) : VbcHead.data ⟨3, k, lo⟩ ty p
    = (upTo (2048 / vbcWidth ty) fun i => toBytes ((lo + ofBytes p / 2 ^ (k * i) % 2 ^ k) % 2 ^ vbcWidth ty) (vbcWidth ty / 8)).flatten := rfl

section kinds
variable {ty : Nat} {l : List Byte} {e : List Nat} (elements : BlockElements (vbcWidth ty) l e)
include elements

/-- 256 bytes of zeros are a head alone. -/
theorem ReadsBack.zeros (zero : ∀ x ∈ e, x = 0) : ReadsBack ty (VbcHead.bytes ⟨1, 0, 0⟩) l := by
  rw [← List.append_nil (VbcHead.bytes _)]
  refine .of_head ⟨by simp, Nat.two_pow_pos _, by simp, by simp, by simp⟩ rfl ?_
  have whole : 2048 / vbcWidth ty * (vbcWidth ty / 8) = 256 := by
    obtain w | w | w := vbcWidth_cases ty <;> rw [w]
  rw [← elements.bytes, List.eq_replicate_of_mem zero, elements.length, List.map_replicate, toBytes_zero, List.flatten_replicate_replicate, whole]
  rfl

/-- Elements all alike are a head with the element. -/
theorem ReadsBack.alike {x : Nat} (small : x < 2 ^ vbcWidth ty) (same : ∀ y ∈ e, y = x) : ReadsBack ty (VbcHead.bytes ⟨2, 0, x⟩) l := by
  rw [← List.append_nil (VbcHead.bytes _)]
  refine .of_head ⟨by simp, small, by simp, by simp, by simp⟩ rfl ?_
  rw [← elements.bytes, List.eq_replicate_of_mem same, elements.length, List.map_replicate]
  rfl

/-- The differences from the least element, packed in k bits each. -/
theorem ReadsBack.packed {lo k : Nat} (pos : 0 < k) (less : k < vbcWidth ty) (low : ∀ x ∈ e, lo ≤ x) (near : ∀ x ∈ e, x - lo < 2 ^ k)
    (base : lo < 2 ^ vbcWidth ty) :
    ReadsBack ty (VbcHead.bytes ⟨3, k, lo⟩ ++ toBytes (e.foldr (fun x a => x - lo + 2 ^ k * a) 0) (16 * ((e.length * k + 127) / 128))) l := by
  refine .of_head ⟨by simp, base, by simp, by simp, fun _ => ⟨pos, less⟩⟩ ?_ ?_
  · rw [length_toBytes, elements.length]
    rfl
  have smallDigits : ∀ d ∈ e.map (· - lo), d < 2 ^ k := List.forall_mem_map.2 near
  have digits : e.foldr (fun x a => x - lo + 2 ^ k * a) 0 = Nat.ofDigits (2 ^ k) (e.map (· - lo)) := by
    rw [Nat.ofDigits_eq_foldr, List.foldr_map]
    rfl
  have fits : Nat.ofDigits (2 ^ k) (e.map (· - lo)) < 256 ^ (16 * ((e.length * k + 127) / 128)) := by
    refine (Nat.ofDigits_lt_base_pow_length (Nat.one_lt_two_pow pos.ne') smallDigits).trans_le ?_
    rw [List.length_map, ← pow_mul, show 256 = 2 ^ 8 from rfl, ← pow_mul]
    refine Nat.pow_le_pow_right (by decide) ?_
    rw [Nat.mul_comm k]
    omega
  have unpacked : ∀ i (h : i < e.length), (lo + Nat.ofDigits (2 ^ k) (e.map (· - lo)) / 2 ^ (k * i) % 2 ^ k) % 2 ^ vbcWidth ty = e[i] := by
    intro i h
    have digit := ofDigits_div_mod smallDigits (i := i) (by rwa [List.length_map])
    rw [pow_mul, digit, List.getElem_map, Nat.add_sub_cancel' (low _ (List.getElem_mem h)), Nat.mod_eq_of_lt (elements.small _ (List.getElem_mem h))]
  rw [VbcHead.data_packed, ofBytes_toBytes, digits, Nat.mod_eq_of_lt fits, ← elements.length, ← elements.bytes]
  refine congrArg List.flatten (List.ext_getElem (by simp [upTo]) fun i hi hi' => ?_)
  rw [List.length_map] at hi'
  simp only [upTo, List.getElem_map, List.getElem_range, unpacked i hi']

end kinds

/-! ### The least and the greatest element -/

theorem foldl_min_spec (x : Nat) (r : List Nat) : (x :: r).foldl min x ∈ x :: r ∧ ∀ y ∈ x :: r, (x :: r).foldl min x ≤ y := by
  have h : (x :: r).min? = some ((x :: r).foldl min x) := by rw [List.min?_cons', List.foldl_cons, min_self]
  exact List.min?_eq_some_iff.1 h

theorem foldl_max_spec (x : Nat) (r : List Nat) : (x :: r).foldl max x ∈ x :: r ∧ ∀ y ∈ x :: r, y ≤ (x :: r).foldl max x := by
  have h : (x :: r).max? = some ((x :: r).foldl max x) := by rw [List.max?_cons', List.foldl_cons, max_self]
  exact List.max?_eq_some_iff.1 h

/-- What the encoder makes of elements, the first of which is x. -/
theorem ReadsBack.of_elements {ty : Nat} {l : List Byte} {x : Nat} {r : List Nat} (elements : BlockElements (vbcWidth ty) l (x :: r))
    (length : l.length = 256) (enc : (chunks (vbcWidth ty / 8) l (2048 / vbcWidth ty)).map ofBytes = x :: r) : ReadsBack ty (vbcEncode ty l) l := by
  obtain ⟨loMem, lo⟩ := foldl_min_spec x r
  obtain ⟨hiMem, hi⟩ := foldl_max_spec x r
  unfold vbcEncode
  dsimp only
  rw [enc, List.headD_cons]
  split
  next zero => exact ReadsBack.zeros elements (by simpa using zero)
  split
  next same => exact ReadsBack.alike elements (elements.small x List.mem_cons_self) (by simpa using same)
  next differ =>
  split
  next less =>
    have wide := lt_two_pow_bitLength ((x :: r).foldl max x - (x :: r).foldl min x)
    refine ReadsBack.packed (lo := (x :: r).foldl min x) (k := bitLength ((x :: r).foldl max x - (x :: r).foldl min x)) elements ?_ ?_ lo
      (fun y hy => ?_) (elements.small _ loMem)
    · refine Nat.pos_of_ne_zero fun zero => differ ?_
      rw [bitLength_eq_zero] at zero
      rw [List.all_eq_true]
      intro y hy
      have := lo y hy
      have := hi y hy
      have := lo x List.mem_cons_self
      have := hi x List.mem_cons_self
      exact decide_eq_true (by omega)
    · have : 0 < vbcWidth ty := by obtain w | w | w := vbcWidth_cases ty <;> rw [w] <;> decide
      omega
    · have := hi y hy
      omega
  next => exact ReadsBack.raw ty length

theorem vbcEncode_readsBack (ty : Nat) {l : List Byte} (length : l.length = 256) : ReadsBack ty (vbcEncode ty l) l := by
  have elements := BlockElements.of_bytes ty length
  cases enc : (chunks (vbcWidth ty / 8) l (2048 / vbcWidth ty)).map ofBytes with
  | cons x r => exact ReadsBack.of_elements (enc ▸ elements) length enc
  | nil =>
    have none := elements.length
    rw [enc] at none
    obtain w | w | w := vbcWidth_cases ty <;> rw [w] at none <;> cases none

/-- Settles O40: what the encoder writes, of the four kinds, is read back. -/
theorem blocksRoundTrip : Obligations.BlocksRoundTrip := by
  unfold Obligations.BlocksRoundTrip
  exact fun ty _ _ length => vbcEncode_readsBack ty length

end Sys2Proof.Machine
end

section
/-! How an instruction of A that completes in its turn is run, and GLD and GST of plain scratchpad (R179). -/
namespace Sys2Proof.Machine

/-- An instruction of two words on A whose body goes on at the next word: what it leaves, retired. -/
theorem issue_completes {i : Instr} {p : BitVec 4} {n : State → Needs} {m : Needs} {body : Prog → Act Next} {s t : State} (needs : n s = m)
    (ready : Ready i .A p m s = true) (two : instrWords i = 2) (run : body {} (s.issued .A p m 2) = .ok (.seq, t)) :
    issue i .A p n (pure ()) body s = .next (t.retired i .A p m .seq) := by
  subst needs
  rw [issue_ready (x := ((), s)) ready rfl, two, run, State.retired, two]
  rfl

/-- Instruction i of A completes, whenever it is ready with its needs, with the effect f of what its issue has left. -/
def State.Completes (s : State) (i : Instr) (p : BitVec 4) (n : Needs) (f : State → State) : Prop :=
  Ready i .A p n s = true → exec i s = .next ((f (s.issued .A p n 2)).retired i .A p n .seq)

theorem State.Completes.of_body {s : State} {i : Instr} {p : BitVec 4} {n : State → Needs} {m : Needs} {f : State → State} {body : Prog → Act Next}
    (meaning : exec i s = issue i .A p n (pure ()) body s) (needs : n s = m) (two : instrWords i = 2)
    (run : body {} (s.issued .A p m 2) = .ok (.seq, f (s.issued .A p m 2))) : s.Completes i p m f :=
  fun ready => meaning.trans (issue_completes needs ready two run)

theorem trapIf_pass {b : Bool} (h : b = false) (c n : Nat) (v : Word) (s : State) : trapIf b c n v s = .ok ((), s) := by
  rw [h, Act.trapIf_false]

/-! ### Granules -/

/-- Granules that all move are moved in order, within a turn that may do them all. -/
theorem granules_run {n : Nat} {pr : Prog} {move : Nat → Act Unit} {act : State → Nat → Nat → Nat → Except Stopped State} {va : Nat} {at' : Nat → Nat}
    (same : ∀ i s, (move i s).map (·.2) = act s ((va + 16 * i) % 2 ^ 64) (at' i) (16 * (n - i))) (f : Nat) :
    ∀ {i : Nat} {s u : State}, n - i ≤ f → granulesFrom act va at' n (List.range' i (n - i)) s = .ok u → granules n pr move f i s = .ok (.seq, u) := by
  induction f with
  | zero =>
    intro i s u enough moved
    rw [Nat.le_zero.1 enough] at moved
    cases moved
    exact congrArg (fun x => Except.ok (x, s)) (if_pos (Nat.sub_eq_zero_iff_le.1 (Nat.le_zero.1 enough)))
  | succ f ih =>
    intro i s u enough moved
    unfold granules
    by_cases past : n ≤ i
    · rw [Nat.sub_eq_zero_of_le past] at moved
      cases moved
      rw [if_pos past]
    · rw [show n - i = n - (i + 1) + 1 by omega, List.range'_succ, granulesFrom, ← same i s] at moved
      rw [if_neg past]
      cases first : move i s with
      | error x => rw [first] at moved; cases moved
      | ok x =>
        rw [first] at moved
        exact ih (by omega) moved

/-- A copy whose addresses are aligned, and whose granules lie in scratchpad, passes its checks. -/
theorem copyCheck_run (r : Ring) {va o n : Nat} (aligned : va % 16 = 0) (aligned' : o % 16 = 0) (inside : o + 16 * n ≤ 786432) (s : State) :
    copyCheck r false va o n s = .ok ((), s) := by
  have bound : decide (spadSize < o + 16 * n) = false := decide_eq_false (Nat.not_lt.2 inside)
  unfold copyCheck
  rw [Act.bind_ok (trapIf_pass (by rw [aligned]; rfl) ..)]
  simp only [Bool.false_eq_true, if_false]
  rw [Act.bind_ok (trapIf_pass (by rw [aligned']; rfl) ..), trapIf_pass bound]

/-- GLD and GST of plain scratchpad, in a turn without a budget. -/
theorem bulkCopy_run {i : Instr} {p : BitVec 4} {gd ga gb : BitVec 5} {n : Nat} {pos : Ring → BitVec 32} {slots : Ring → Nat}
    {move : Nat → Nat → Nat → Act Unit} {act : State → Nat → Nat → Nat → Except Stopped State} {s u : State}
    (same : ∀ va a ext t, (move va a ext t).map (·.2) = act t va a ext)
    (ready : Ready i .A p { waits := [(false, .ring)] } s = true) (two : instrWords i = 2) (unlimited : s.budget = none)
    (aligned : (s.reg .A ga).toNat % 16 = 0) (aligned' : (s.reg .A gb).toNat % 16 = 0) (inside : (s.reg .A gb).toNat + 16 * n ≤ 786432)
    (moved : granulesFrom act (s.reg .A ga).toNat (fun i => (s.reg .A gb).toNat + 16 * i) n (List.range n)
      (s.issued .A p { waits := [(false, .ring)] } 2) = .ok u) :
    bulkCopy i p 0 gd ga gb n pos slots move s = .next (u.retired i .A p { waits := [(false, .ring)] } .seq) := by
  refine issue_completes (m := { waits := [(false, .ring)] }) rfl ready two ?_
  rw [Act.bind_ok (Act.get_run _)]
  simp only [State.reg_issued, if_true, show decide ((0 : BitVec 1) = 1) = false from rfl]
  rw [Act.bind_ok (copyCheck_run _ aligned aligned' inside _)]
  have share : State.share (s.issued .A p { waits := [(false, .ring)] } 2) n = max 1 n := by rw [State.share, State.issued_budget, unlimited]; rfl
  rw [share]
  rw [List.range_eq_range'] at moved
  exact granules_run (at' := fun i => (s.reg .A gb).toNat + 16 * i) (fun i t => same _ _ _ t) (max 1 n) (i := 0) (Nat.le_max_right 1 n) moved

/-- Settles O28: each granule's move is the one that the statement names, and the turn may do them all. -/
theorem bulkCopiesComplete : Obligations.BulkCopiesComplete := by
  unfold Obligations.BulkCopiesComplete
  intro s u p gd ga gb imm n va o unlimited aligned aligned' inside
  refine ⟨fun ready moved => ?_, fun ready moved => ?_⟩
  · change execGld p 0 gd ga gb imm s = _
    unfold execGld
    exact bulkCopy_run (act := State.loadsGranule) (fun _ _ _ _ => rfl) ready rfl unlimited aligned aligned' inside moved
  · change execGst p 0 gd ga gb imm s = _
    unfold execGst
    exact bulkCopy_run (act := State.storesGranule) (fun _ _ _ t => congrArg (Except.map (·.2)) (Act.bind_ok (Act.get_run t))) ready rfl unlimited
      aligned aligned' inside moved

end Sys2Proof.Machine
end

section
/-! PUBL, with an access that waits for a translation in the window of its handle (R183, log 113). -/
namespace Sys2Proof.Machine

/-- An access of a walker's client that waits within the window of handle 5. -/
def windowWaiter : Stalled := { client := .loader 0, part := 0, asid := 0, va := 0, access := accRead, level := 0, since := 0 }

/-- A core that may publish handle 5, of its own, while that access waits. -/
def waitingPublisher : State := { shadower (handle5 true) 64 0 5 with stalled := [windowWaiter] }

theorem waitingPublisher_unburdened : waitingPublisher.unburdened := by
  unfold State.unburdened
  decide +kernel

theorem waitingPublisher_ready : Ready (.publ 0 3) .A 0 {} waitingPublisher = true
    ∧ (waitingPublisher.reg .A 3).toNat ≤ 1023
    ∧ (waitingPublisher.part waitingPublisher.work.part).handles.find (waitingPublisher.reg .A 3).toNat
        = some { window := 0, twin := 0x10000, len := 0x10000, owner := waitingPublisher.work.id } := by decide +kernel

/-- The flip of PUBL lets that access begin afresh: it waits no more. -/
theorem publ_frees_windowWaiter : (match exec (.publ 0 3) waitingPublisher with | .next t => t.stalled | _ => [windowWaiter]) = [] := by
  decide +kernel

/-- Refutes O29, in its clause about PUBL: the flip also lets the accesses to the handle's window that wait for a translation begin afresh
(log 113), and the state that the clause names still has them. -/
theorem not_accessReleasesComplete : ¬ Obligations.AccessReleasesComplete := by
  unfold Obligations.AccessReleasesComplete
  rintro ⟨releases, -⟩
  obtain ⟨ready, number, handle⟩ := waitingPublisher_ready
  obtain ⟨publ, -⟩ := releases waitingPublisher 0 0 3 0 0 waitingPublisher_unburdened
  have frees := publ_frees_windowWaiter
  rw [publ _ ready number handle rfl rfl] at frees
  exact List.cons_ne_nil windowWaiter [] frees

end Sys2Proof.Machine
end

section
/-! What the instructions of A read is as before their issue, and a second change of a core's state joins the first. -/
namespace Sys2Proof

theorem SMap.put_put {α : Type} (m : SMap α) (k : Nat) (a b : α) : (m.put k a).put k b = m.put k b := by
  induction m with
  | nil => simp [SMap.put]
  | cons e r ih =>
    obtain ⟨j, x⟩ := e
    simp only [SMap.put]
    split
    next less => simp [SMap.put]
    next =>
      split
      next same => simp [SMap.put]
      next => simp [SMap.put, *]

namespace Machine

theorem State.modCore_modCore (s : State) (k : Nat) (f g : Core → Core) : (s.modCore k f).modCore k g = s.modCore k fun c => g (f c) := by
  rw [State.modCore, State.core_modCore_same, State.modCore, State.modCore, SMap.put_put]

theorem State.modCtx_modCtx (s : State) (f g : Ctx → Ctx) : (s.modCtx f).modCtx g = s.modCtx fun c => g (f c) :=
  State.modCore_modCore s s.cur (fun c => { c with ctx := f c.ctx }) fun c => { c with ctx := g c.ctx }

/-- A change of a core one of whose queues has lost its head. -/
theorem State.modCtx_popQueue {s : State} {q : Nat} {e : Slot} {rest : List Slot} (queue : s.ctx.queue q = e :: rest) (f : Ctx → Ctx) :
    (s.popQueue q 1).modCtx f = s.modCtx fun c => f (c.setQueue q rest) := by
  rw [State.popQueue_append (gone := [e]) (n := 1) queue rfl, State.modCtx_modCtx]

section issued
variable (s : State) (e : Eng) (p : BitVec 4) (n : Needs) (len : Nat)

@[simp] theorem State.ring_issued (q : Nat) : (s.issued e p n len).ctx.ring q = s.ctx.ring q := by rw [State.ctx_issued]; cases e <;> rfl
@[simp] theorem State.ringOf_issued (q : BitVec 5) : (s.issued e p n len).ctx.ringOf q = s.ctx.ringOf q := s.ring_issued e p n len _
@[simp] theorem State.ecur_issued : (s.issued e p n len).ctx.ecur = s.ctx.ecur := by rw [State.ctx_issued]; cases e <;> rfl
@[simp] theorem State.scur_issued : (s.issued e p n len).ctx.scur = s.ctx.scur := by rw [State.ctx_issued]; cases e <;> rfl
@[simp] theorem State.spad_issued : (s.issued e p n len).ctx.spad = s.ctx.spad := by rw [State.ctx_issued]; cases e <;> rfl
@[simp] theorem State.aAddr_issued {w : Nat} (g : BitVec 5) (off : BitVec w) : (s.issued e p n len).aAddr g off = s.aAddr g off := by
  rw [State.aAddr, State.reg_issued, State.aAddr]

theorem State.blockAt_issued (a ty : Nat) : (s.issued e p n len).ctx.blockAt a ty = s.ctx.blockAt a ty := by
  simp only [Ctx.blockAt, Ctx.spadBytes, State.spad_issued]

end issued

/-! ### Checks that pass -/

/-- Where scratchpad ends (R168), as the checks of its bound ask for it. -/
theorem inScratchpad {n : Nat} (h : n ≤ 786432) : decide (spadSize < n) = false := decide_eq_false (Nat.not_lt.2 h)

theorem Ring.holdsEntry_iff {r : Ring} {o n : Nat} : r.holdsEntry o n = true ↔
    r.init = true ∧ o % 16 = 0 ∧ 512 ≤ r.slot ∧ o % r.slot + 512 ≤ r.slot ∧ o / r.slot < r.n ∧ o / r.slot < n := by
  simp only [Ring.holdsEntry, Bool.and_eq_true, decide_eq_true_eq, and_assoc]

/-- An entry that a ring holds passes the checks of its place. -/
theorem entryCheck_run {r : Ring} {o n : Nat} (h : r.holdsEntry o n = true) (s : State) : entryCheck r o s = .ok ((), s) := by
  obtain ⟨init, aligned, wide, within, slot, -⟩ := Ring.holdsEntry_iff.1 h
  unfold entryCheck
  rw [Act.bind_ok (trapIf_pass (by rw [init]; rfl) ..), Act.bind_ok (trapIf_pass (by simp [aligned]) ..),
    Act.bind_ok (trapIf_pass (by simp [wide, within]) ..), trapIf_pass (by simpa using slot)]

/-- It waits for no slot. -/
theorem entryWaits_of_holds {r : Ring} {o n : Nat} (h : r.holdsEntry o n = true) : entryWaits r o n = false := by
  obtain ⟨-, -, -, -, -, there⟩ := Ring.holdsEntry_iff.1 h
  rw [entryWaits, decide_eq_false (Nat.not_le.2 there), Bool.and_false]

/-- A block that lies in scratchpad and is well formed is decoded. -/
theorem decodeSpad_run {s : State} {a ty : Nat} {x : List Byte × Nat} (h : s.ctx.blockAt a ty = some x) : decodeSpad a ty s = .ok (x, s) := by
  unfold Ctx.blockAt at h
  obtain ⟨low, h⟩ := Option.ite_none_right_eq_some.1 h
  cases head : vbcHead ty (s.ctx.spadBytes a 16) with
  | none => rw [head] at h; cases h
  | some y =>
    rw [head] at h
    obtain ⟨high, h⟩ := Option.ite_none_right_eq_some.1 h
    cases h
    unfold decodeSpad
    rw [Act.bind_ok (Act.get_run _), Act.bind_ok (trapIf_pass (inScratchpad low) ..), head]
    dsimp only
    rw [Act.bind_ok (trapIf_pass (inScratchpad high) ..)]
    rfl

end Machine
end Sys2Proof
end


section
/-! The queue, ring, cursor and status instructions of A (R170 to R176, R194). -/
namespace Sys2Proof.Machine

/-! ### LDQ and STQ (R174, R175) -/

/-- An entry that joins its queue as the cursor moves on. -/
theorem Ctx.push_ecur (c : Ctx) (q : BitVec 5) (l : List Byte) (x : Nat) :
    ({ c with ecur := x } : Ctx).push q.toNat (entryOf 32 (wideOf l)) = { c.entersQueue q l with ecur := x } := rfl

section queue
variable {s : State} {p : BitVec 4} {rg : BitVec 1} {gd ga q : BitVec 5} {xe xc : BitVec 1} {aty : BitVec 4} {imm : BitVec 18}

theorem ldq_ring (holds : (s.ctx.ring gd.toNat).holdsEntry (s.aAddr ga imm) (s.ctx.ring gd.toNat).filled = true) :
    s.Completes (.ldq p 1 gd ga q xe xc aty imm) p { frees := [(q.toNat, 1)], waits := [(false, .ring)] } fun t => t.modCtx fun c =>
      c.entersQueue q (c.chunksAt ((s.ctx.ring gd.toNat).chunkAddrs (s.ctx.ring gd.toNat).head (s.aAddr ga imm) 32)) := by
  refine .of_body (show _ = execLdq p 1 gd ga q xe xc aty imm s from rfl) (by dsimp only; rw [entryWaits_of_holds holds]; rfl) rfl ?_
  rw [Act.bind_ok (Act.get_run _)]
  simp only [if_true, State.ring_issued, State.aAddr_issued]
  rw [Act.bind_ok (entryCheck_run holds _)]
  rfl

theorem ldq_blocks {a : Nat} {b0 b1 : List Byte} {l0 l1 : Nat} (address : (if xc = 1 then s.ctx.ecur else s.aAddr ga imm) = a) (plain : rg ≠ 1) (aligned : a % 16 = 0)
    (first : s.ctx.blockAt a aty.toNat = some (b0, l0))
    (second : s.ctx.blockAt (a + l0) aty.toNat = some (b1, l1)) :
    s.Completes (.ldq p rg gd ga q 1 xc aty imm) p { frees := [(q.toNat, 1)], waits := [(false, .ring)] } fun t => t.modCtx fun c =>
      { c.entersQueue q (b0 ++ b1) with ecur := (a + l0 + l1) % 2 ^ 20 } := by
  refine .of_body (show _ = execLdq p rg gd ga q 1 xc aty imm s from rfl) (by dsimp only; rw [decide_eq_false plain]; rfl) rfl ?_
  rw [← State.blockAt_issued s .A p { frees := [(q.toNat, 1)], waits := [(false, .ring)] } 2] at first second
  rw [Act.bind_ok (Act.get_run _)]
  simp only [if_neg plain, if_true, State.ecur_issued, State.aAddr_issued, address]
  rw [Act.bind_ok (trapIf_pass (by rw [aligned]; rfl) ..), Act.bind_ok (decodeSpad_run first), Act.bind_ok (decodeSpad_run second)]
  rfl

theorem ldq_plain {a : Nat} (address : (if xc = 1 then s.ctx.ecur else s.aAddr ga imm) = a) (plain : rg ≠ 1) (unexpanded : xe ≠ 1) (aligned : a % 16 = 0)
    (inside : a + 512 ≤ 786432) :
    s.Completes (.ldq p rg gd ga q xe xc aty imm) p { frees := [(q.toNat, 1)], waits := [(false, .ring)] } fun t => t.modCtx fun c =>
      { c.entersQueue q (c.spadBytes a 512) with ecur := (a + 512) % 2 ^ 20 } := by
  refine .of_body (show _ = execLdq p rg gd ga q xe xc aty imm s from rfl) (by dsimp only; rw [decide_eq_false plain]; rfl) rfl ?_
  rw [Act.bind_ok (Act.get_run _)]
  simp only [if_neg plain, if_neg unexpanded, State.ecur_issued, State.aAddr_issued, address]
  rw [Act.bind_ok (trapIf_pass (by rw [aligned]; rfl) ..),
    Act.bind_ok (trapIf_pass (inScratchpad inside) ..)]
  simp only [Ctx.push_ecur]
  rfl

theorem ldqTerm_completes : s.Completes (.ldqTerm p q xe xc) p { frees := [(q.toNat, 1)] } fun t => t.modCtx fun c =>
    c.push q.toNat { full := true, term := true } :=
  .of_body (show _ = execLdqTerm p q xe xc s from rfl) rfl rfl rfl

/-- The bytes of an entry that STQ stores (R175). -/
def Slot.stored (e : Slot) : List Byte := (wideBytes e.data).take (16 * e.len)

theorem stq_ring {e : Slot} {rest : List Slot} (queue : s.ctx.queue q.toNat = e :: rest)
    (holds : (s.ctx.ring gd.toNat).holdsEntry (s.aAddr ga imm) (s.ctx.ring gd.toNat).free = true) :
    s.Completes (.stq p 1 gd ga q xc imm) p { reads := [(q.toNat, 1)], waits := [(false, .ring)] } fun t => t.modCtx fun c =>
      (c.setQueue q.toNat rest).setChunks ((s.ctx.ring gd.toNat).chunkAddrs (s.ctx.ring gd.toNat).tail (s.aAddr ga imm) e.len) e.stored := by
  refine .of_body (show _ = execStq p 1 gd ga q xc imm s from rfl) (by dsimp only; rw [entryWaits_of_holds holds]; rfl) rfl ?_
  rw [Act.bind_ok (Act.get_run _)]
  simp only [if_true, State.ring_issued, State.aAddr_issued, State.queue_issued, queue, List.head?_cons, Option.getD_some]
  rw [Act.bind_ok (entryCheck_run holds _)]
  rw [State.modCtx_popQueue ((State.queue_issued ..).trans queue)]
  rfl

theorem stq_plain {a : Nat} {e : Slot} {rest : List Slot} (queue : s.ctx.queue q.toNat = e :: rest)
    (address : (if xc = 1 then s.ctx.scur else s.aAddr ga imm) = a) (plain : rg ≠ 1)
    (aligned : a % 16 = 0) (inside : a + 16 * e.len ≤ 786432) :
    s.Completes (.stq p rg gd ga q xc imm) p { reads := [(q.toNat, 1)], waits := [(false, .ring)] } fun t => t.modCtx fun c =>
      { c.setQueue q.toNat rest with
        spad := c.spad.setList 0 a e.stored, scur := (a + 16 * e.len) % 2 ^ 20 } := by
  refine .of_body (show _ = execStq p rg gd ga q xc imm s from rfl) (by dsimp only; rw [decide_eq_false plain]; rfl) rfl ?_
  rw [Act.bind_ok (Act.get_run _)]
  simp only [if_neg plain, State.scur_issued, State.aAddr_issued, State.queue_issued, queue, List.head?_cons, Option.getD_some, address]
  rw [Act.bind_ok (trapIf_pass (by rw [aligned]; rfl) ..),
    Act.bind_ok (trapIf_pass (inScratchpad inside) ..)]
  rw [State.modCtx_popQueue ((State.queue_issued ..).trans queue)]
  rfl

end queue

/-! ### Rings (R170 to R172) -/

section ring
variable {s : State} {p : BitVec 4} {ga gb q : BitVec 5} {imm : BitVec 18}

/-- The checks of RADV and RWAIT pass on an initialised ring of so many slots. -/
theorem ringCheck_run {t : State} (init : (t.ctx.ringOf q).init = true) (within : imm.toNat ≤ (t.ctx.ringOf q).n) : ringCheck q imm t = .ok ((), t) := by
  unfold ringCheck
  rw [Act.bind_ok (Act.get_run _), Act.bind_ok (trapIf_pass (by rw [init]; rfl) ..), trapIf_pass (decide_eq_false (Nat.not_lt.2 within))]

theorem rinit_completes {pe : BitVec 1} {n1 : BitVec 10} (idle : s.ctx.ar.idle = true) (none : s.copyPending s.cur (q.toNat - 16) = false)
    (based : (s.reg .A ga).toNat % 64 = 0) (sized : (s.reg .A gb).toNat % 64 = 0) (least : 64 ≤ (s.reg .A gb).toNat) (most : (s.reg .A gb).toNat ≤ 65536)
    (inside : (s.reg .A ga).toNat + (s.reg .A gb).toNat * (n1.toNat + 1) ≤ 786432) :
    s.Completes (.rinit p ga gb q pe n1) p { waits := [(false, .array), (false, .ladle)] } fun t => t.modCtx fun c => c.setRing q
      { init := true, base := (s.reg .A ga).toNat, slot := (s.reg .A gb).toNat, n := n1.toNat + 1, pers := pe = 1, pitch := (s.reg .A gb).toNat } := by
  have geometry : (decide ((s.reg .A gb).toNat % 64 ≠ 0) || decide ((s.reg .A gb).toNat < 64) || decide (65536 < (s.reg .A gb).toNat)
      || decide (spadSize < (s.reg .A ga).toNat + (s.reg .A gb).toNat * (n1.toNat + 1))) = false := by
    rw [decide_eq_false (not_not.2 sized), decide_eq_false (Nat.not_lt.2 least), decide_eq_false (Nat.not_lt.2 most), inScratchpad inside]
    rfl
  refine .of_body (show _ = execRinit p ga gb q pe n1 s from rfl) (by rw [idle, none]; rfl) rfl ?_
  rw [Act.bind_ok (Act.get_run _)]
  simp only [State.reg_issued]
  rw [Act.bind_ok (trapIf_pass (by rw [based]; rfl) ..), Act.bind_ok (trapIf_pass geometry ..)]
  rfl

theorem radvHead_completes (init : (s.ctx.ringOf q).init = true) (within : imm.toNat ≤ (s.ctx.ringOf q).n) (filled : imm.toNat ≤ (s.ctx.ringOf q).filled) :
    s.Completes (.radvHead p q imm) p {} fun t => t.modCtx fun c =>
      c.setRing q { s.ctx.ringOf q with head := (s.ctx.ringOf q).head + imm.setWidth 32 } := by
  refine .of_body (show _ = execRadvHead p q imm s from rfl) rfl rfl ?_
  rw [Act.bind_ok (ringCheck_run (by rwa [State.ringOf_issued]) (by rwa [State.ringOf_issued])), Act.bind_ok (Act.get_run _)]
  simp only [State.ringOf_issued]
  rw [Act.bind_ok (trapIf_pass (decide_eq_false (Nat.not_lt.2 filled)) ..)]
  rfl

theorem radvTail_completes (init : (s.ctx.ringOf q).init = true) (within : imm.toNat ≤ (s.ctx.ringOf q).n) (free : imm.toNat ≤ (s.ctx.ringOf q).free) :
    s.Completes (.radvTail p q imm) p {} fun t => t.modCtx fun c =>
      c.setRing q { s.ctx.ringOf q with tail := (s.ctx.ringOf q).tail + imm.setWidth 32 } := by
  refine .of_body (show _ = execRadvTail p q imm s from rfl) rfl rfl ?_
  rw [Act.bind_ok (ringCheck_run (by rwa [State.ringOf_issued]) (by rwa [State.ringOf_issued])), Act.bind_ok (Act.get_run _)]
  simp only [State.ringOf_issued]
  rw [Act.bind_ok (trapIf_pass (decide_eq_false (Nat.not_lt.2 free)) ..)]
  rfl

/-- RWAIT of slots that are there. -/
theorem rwait_completes {i : Instr} {slots : Ring → Nat} (meaning : exec i s = ringWait i p q imm slots s) (two : instrWords i = 2)
    (init : (s.ctx.ringOf q).init = true) (within : imm.toNat ≤ (s.ctx.ringOf q).n) (there : imm.toNat ≤ slots (s.ctx.ringOf q)) :
    s.Completes i p { waits := [(false, .ring)] } id := by
  refine .of_body meaning (by dsimp only; rw [decide_eq_false (Nat.not_lt.2 there), Bool.and_false]) two ?_
  rw [Act.bind_ok (ringCheck_run (by rwa [State.ringOf_issued]) (by rwa [State.ringOf_issued]))]
  rfl

theorem swz_completes {span : BitVec 3} (init : (s.ctx.ringOf q).init = true) (granular : (s.reg .A ga).toNat % 16 = 0) (least : 16 ≤ (s.reg .A ga).toNat)
    (most : (s.reg .A ga).toNat ≤ (s.ctx.ringOf q).slot) (divides : (s.ctx.ringOf q).slot % (s.reg .A ga).toNat = 0)
    (whole : (s.reg .A ga).toNat % (16 * 2 ^ span.toNat) = 0) : s.Completes (.swz p ga q span) p {} fun t => t.modCtx fun c =>
      c.setRing q { s.ctx.ringOf q with pitch := (s.reg .A ga).toNat, span := span.toNat } := by
  refine .of_body (show _ = execSwz p ga q span s from rfl) rfl rfl ?_
  rw [Act.bind_ok (Act.get_run _)]
  simp only [State.ringOf_issued, State.reg_issued]
  rw [Act.bind_ok (trapIf_pass (by simp [init, granular, least, most, divides, whole]) ..)]
  rfl

end ring

/-! ### ASTAT (R194) -/

section astat
variable {s : State} {p : BitVec 4} {gd ga : BitVec 5}

theorem astatEcur_completes : s.Completes (.astatEcur p gd) p {} fun t => t.setReg .A gd (BitVec.ofNat 64 s.ctx.ecur) := by
  refine .of_body (show _ = execAstatEcur p gd s from rfl) rfl rfl ?_
  rw [Act.bind_ok (Act.get_run _), State.ecur_issued]
  rfl

theorem astatScur_completes : s.Completes (.astatScur p gd) p {} fun t => t.setReg .A gd (BitVec.ofNat 64 s.ctx.scur) := by
  refine .of_body (show _ = execAstatScur p gd s from rfl) rfl rfl ?_
  rw [Act.bind_ok (Act.get_run _), State.scur_issued]
  rfl

/-- A cursor value within scratchpad. -/
theorem cursorValue_run {t : State} (inside : bits (t.reg .A ga) 19 0 < 786432) : cursorValue ga t = .ok (bits (t.reg .A ga) 19 0, t) := by
  unfold cursorValue
  rw [Act.bind_ok (Act.get_run _), Act.bind_ok (trapIf_pass (decide_eq_false (show ¬ spadSize ≤ _ from Nat.not_le.2 inside)) ..)]
  rfl

theorem astatSetec_completes (inside : bits (s.reg .A ga) 19 0 < 786432) :
    s.Completes (.astatSetec p ga) p {} fun t => t.modCtx fun c => { c with ecur := bits (s.reg .A ga) 19 0 } := by
  refine .of_body (show _ = execAstatSetec p ga s from rfl) rfl rfl ?_
  rw [Act.bind_ok (cursorValue_run (by rwa [State.reg_issued])), State.reg_issued]
  rfl

theorem astatSetsc_completes (inside : bits (s.reg .A ga) 19 0 < 786432) :
    s.Completes (.astatSetsc p ga) p {} fun t => t.modCtx fun c => { c with scur := bits (s.reg .A ga) 19 0 } := by
  refine .of_body (show _ = execAstatSetsc p ga s from rfl) rfl rfl ?_
  rw [Act.bind_ok (cursorValue_run (by rwa [State.reg_issued])), State.reg_issued]
  rfl

theorem astatRing_completes {rk : BitVec 4} (init : (s.ctx.ring rk.toNat).init = true) :
    s.Completes (.astatRing p gd rk) p {} fun t => t.setReg .A gd ((s.ctx.ring rk.toNat).tail ++ (s.ctx.ring rk.toNat).head) := by
  refine .of_body (show _ = execAstatRing p gd rk s from rfl) rfl rfl ?_
  rw [Act.bind_ok (Act.get_run _)]
  simp only [State.ring_issued]
  rw [Act.bind_ok (trapIf_pass (by rw [init]; rfl) ..)]
  rfl

theorem clusterCheck_run {t : State} (h : isConductor t.cur = false) : clusterCheck t = .ok ((), t) := by
  unfold clusterCheck
  rw [Act.bind_ok (Act.get_run _), trapIf_pass h]

theorem astatSread_completes {sem : BitVec 8} (cluster : isConductor s.cur = false) :
    let x := s.sem (256 * (s.cur / 16) + sem.toNat)
    s.Completes (.astatSread p gd sem) p {} fun t => t.setReg .A gd
      (BitVec.ofNat 64 (x.count + (if x.poison then 65536 else 0) + (if x.ovf then 131072 else 0))) := by
  intro x
  refine .of_body (show _ = execAstatSread p gd sem s from rfl) rfl rfl ?_
  rw [Act.bind_ok (clusterCheck_run (t := s.issued .A p {} 2) cluster), Act.bind_ok (Act.get_run _)]
  have word : x.count + 2 ^ 16 * bit x.poison + 2 ^ 17 * bit x.ovf = x.count + (if x.poison then 65536 else 0) + (if x.ovf then 131072 else 0) := by
    cases x.poison <;> cases x.ovf <;> rfl
  rw [← word]
  rfl

theorem astatChain_completes : s.Completes (.astatChain p gd ga) p {} fun t => t.setReg .A gd
    (BitVec.ofNat 64 (if isConductor s.cur then 4 else s.chainState (s.reg .A ga))) := by
  refine .of_body (show _ = execAstatChain p gd ga s from rfl) rfl rfl ?_
  rw [Act.bind_ok (Act.get_run _), State.reg_issued]
  rfl

end astat

end Sys2Proof.Machine
end

section
/-! The shadow instructions and PREFT (R180, R182), and the access instructions as a whole. -/
namespace Sys2Proof.Machine

section shadow
variable {s : State} {p : BitVec 4} {gd ga gb : BitVec 5}

@[simp] theorem State.handle_issued (s : State) (e : Eng) (p : BitVec 4) (n : Needs) (len h : Nat) : (s.issued e p n len).handle h = s.handle h := by
  rw [State.handle, State.work_issued, State.handle]
  rfl

theorem handleCheck_run {h : Word} (numbered : h.toNat ≤ 1023) (t : State) : handleCheck h t = .ok ((), t) :=
  trapIf_pass (decide_eq_false (Nat.not_lt.2 numbered)) ..

/-- A window and a twin that overlap each other, or those of a handle (R182). -/
def shadowClash (w t len : Nat) (handles : SMap Handle) : Bool :=
  let clash := fun (a b n : Nat) => meets a (a + len) b n
  clash w t len || handles.any fun e => clash w e.2.window e.2.len || clash w e.2.twin e.2.len || clash t e.2.window e.2.len || clash t e.2.twin e.2.len

theorem shadowClash_eq_false {w t len : Nat} {handles : SMap Handle} (apart : meets w (w + len) t len = false)
    (free : handles.all (fun e => !meets w (w + len) e.2.window e.2.len && !meets w (w + len) e.2.twin e.2.len
      && !meets t (t + len) e.2.window e.2.len && !meets t (t + len) e.2.twin e.2.len) = true) : shadowClash w t len handles = false := by
  unfold shadowClash
  dsimp only
  rw [apart, Bool.false_or, List.any_eq_false]
  intro e he
  simpa [and_assoc] using List.all_eq_true.1 free e he

theorem shdwDef_completes {imm : BitVec 18} (numbered : (s.reg .A gd).toNat ≤ 1023) (new : s.handle (s.reg .A gd).toNat = none)
    (window : (s.reg .A ga).toNat % 65536 = 0) (twin : (s.reg .A gb).toNat % 65536 = 0)
    (apart : shadowClash (s.reg .A ga).toNat (s.reg .A gb).toNat (65536 * imm.toNat) (s.part s.work.part).handles = false) :
    s.Completes (.shdwDef p gd ga gb imm) p {} fun u => ({ u with handleNo := s.handleNo + 1 } : State).modPart s.work.part fun q => { q with
      handles := q.handles.put (s.reg .A gd).toNat
        { made := s.handleNo, window := (s.reg .A ga).toNat, twin := (s.reg .A gb).toNat, len := 65536 * imm.toNat, owner := s.work.id } } := by
  refine .of_body (show _ = execShdwDef p gd ga gb imm s from rfl) rfl rfl ?_
  rw [Act.bind_ok (Act.get_run _)]
  simp only [State.reg_issued, State.handle_issued, State.work_issued, new]
  rw [Act.bind_ok (handleCheck_run numbered _), Act.bind_ok (trapIf_pass (by rw [window, twin]; exact apart) ..)]
  rfl

theorem shdwArm_completes {x : Handle} (numbered : (s.reg .A gd).toNat ≤ 1023) (there : s.handle (s.reg .A gd).toNat = some x) (unarmed : x.armed = false) :
    s.Completes (.shdwArm p gd) p {} fun u => u.modPart s.work.part fun q =>
      { q with handles := q.handles.put (s.reg .A gd).toNat { x with armed := true, owner := s.work.id } } := by
  refine .of_body (show _ = execShdwArm p gd s from rfl) rfl rfl ?_
  rw [Act.bind_ok (Act.get_run _)]
  simp only [State.reg_issued, State.handle_issued, State.work_issued, there]
  rw [Act.bind_ok (handleCheck_run numbered _), Act.bind_ok (trapIf_pass unarmed ..)]
  rfl

theorem shdwFree_completes {x : Handle} (numbered : (s.reg .A gd).toNat ≤ 1023) (there : s.handle (s.reg .A gd).toNat = some x) (unarmed : x.armed = false)
    (own : x.owner = s.work.id) : s.Completes (.shdwFree p gd) p {} fun u => u.modPart s.work.part fun q =>
      { q with handles := q.handles.drop (s.reg .A gd).toNat } := by
  refine .of_body (show _ = execShdwFree p gd s from rfl) rfl rfl ?_
  rw [Act.bind_ok (Act.get_run _)]
  simp only [State.reg_issued, State.handle_issued, State.work_issued, there]
  rw [Act.bind_ok (handleCheck_run numbered _), Act.bind_ok (trapIf_pass (by simp [unarmed, own]) ..)]
  rfl

/-- A PREFT asks the tier controllers, and writes no memory. -/
theorem State.preftOn_mem (t : State) (part asid start len d : Nat) : (t.preftOn part asid start len d).mem = t.mem := by
  unfold State.preftOn
  split
  dsimp only
  split <;> rfl

theorem preft_mem (l : List Nat) (part asid start len : Nat) (t : State) : (l.foldl (fun t d => t.preftOn part asid start len d) t).mem = t.mem := by
  induction l generalizing t with
  | nil => rfl
  | cons d r ih => exact (ih _).trans (t.preftOn_mem part asid start len d)

theorem preft_completes {dies : BitVec 4} :
    let lo := (s.reg .A ga).toNat
    let hi := min (lo + (s.reg .A gb).toNat) (2 ^ 52)
    let len := if (s.reg .A gb).toNat = 0 ∨ hi ≤ lo then 0 else (hi + 4095) / 4096 * 4096 - lo / 4096 * 4096
    let on := (List.range 4).filter fun d => if dies = 0 then decide (d = dieOf s.cur) else dies.getLsbD d
    s.Completes (.preft p ga gb dies) p {} fun u => on.foldl (fun t d => t.preftOn s.work.part s.work.asid (lo / 4096 * 4096) len d) u := by
  intro lo hi len on
  refine .of_body (show _ = execPreft p ga gb dies s from rfl) rfl rfl ?_
  rw [Act.bind_ok (Act.get_run _)]
  simp only [State.reg_issued, State.work_issued]
  rfl

end shadow

/-- Each instruction that touches no memory completes where the rules let it act. -/
theorem completes_of_accessResult {s : State} {i : Instr} {p : BitVec 4} {n : Needs} {f : State → State} (h : accessResult s i = some (p, n, f)) :
    s.Completes i p n f := by
  cases i with
  | ldq p rg gd ga q xe xc aty imm =>
    unfold accessResult at h
    dsimp only at h
    split at h
    next ring =>
      subst ring
      obtain ⟨holds, h⟩ := Option.ite_none_right_eq_some.1 h
      cases h
      exact ldq_ring holds
    next plain =>
      generalize address : (if xc = 1 then s.ctx.ecur else (s.reg .A ga + imm.setWidth 64).toNat) = a at h
      obtain ⟨aligned, result⟩ := Option.ite_none_left_eq_some.1 h
      clear h
      by_cases expands : xe = 1
      · rw [if_pos expands] at result
        subst expands
        cases first : s.ctx.blockAt a aty.toNat with
        | none => rw [first] at result; cases result
        | some x =>
          rw [first] at result
          dsimp only at result
          cases second : s.ctx.blockAt (a + x.2) aty.toNat with
          | none => rw [second] at result; cases result
          | some y =>
            rw [second] at result
            cases result
            exact ldq_blocks address plain (not_not.1 aligned) first second
      · rw [if_neg expands] at result
        obtain ⟨inside, result⟩ := Option.ite_none_right_eq_some.1 result
        cases result
        exact ldq_plain address plain expands (not_not.1 aligned) inside
  | ldqTerm p q xe xc => cases h; exact ldqTerm_completes
  | stq p rg gd ga q xc imm =>
    unfold accessResult at h
    dsimp only at h
    split at h
    next => cases h
    next queue =>
      split at h
      next ring =>
        subst ring
        obtain ⟨holds, h⟩ := Option.ite_none_right_eq_some.1 h
        cases h
        exact stq_ring queue holds
      next plain =>
        obtain ⟨⟨aligned, inside⟩, h⟩ := Option.ite_none_right_eq_some.1 h
        cases h
        exact stq_plain queue rfl plain aligned inside
  | rinit p ga gb q pe n1 =>
    obtain ⟨⟨idle, none, based, sized, least, most, inside⟩, h⟩ := Option.ite_none_right_eq_some.1 h
    cases h
    exact rinit_completes idle none based sized least most inside
  | radvHead p q imm =>
    obtain ⟨⟨init, within, filled⟩, h⟩ := Option.ite_none_right_eq_some.1 h
    cases h
    exact radvHead_completes init within filled
  | radvTail p q imm =>
    obtain ⟨⟨init, within, free⟩, h⟩ := Option.ite_none_right_eq_some.1 h
    cases h
    exact radvTail_completes init within free
  | rwaitHead p q imm =>
    obtain ⟨⟨init, within, filled⟩, h⟩ := Option.ite_none_right_eq_some.1 h
    cases h
    exact rwait_completes (show _ = execRwaitHead p q imm s from rfl) rfl init within filled
  | rwaitTail p q imm =>
    obtain ⟨⟨init, within, free⟩, h⟩ := Option.ite_none_right_eq_some.1 h
    cases h
    exact rwait_completes (show _ = execRwaitTail p q imm s from rfl) rfl init within free
  | swz p ga q span =>
    obtain ⟨⟨init, granular, least, most, divides, whole⟩, h⟩ := Option.ite_none_right_eq_some.1 h
    cases h
    exact swz_completes init granular least most divides whole
  | astatEcur p gd => cases h; exact astatEcur_completes
  | astatScur p gd => cases h; exact astatScur_completes
  | astatSetec p ga =>
    obtain ⟨inside, h⟩ := Option.ite_none_right_eq_some.1 h
    cases h
    exact astatSetec_completes inside
  | astatSetsc p ga =>
    obtain ⟨inside, h⟩ := Option.ite_none_right_eq_some.1 h
    cases h
    exact astatSetsc_completes inside
  | astatRing p gd rk =>
    obtain ⟨init, h⟩ := Option.ite_none_right_eq_some.1 h
    cases h
    exact astatRing_completes init
  | astatSread p gd sem =>
    obtain ⟨cluster, h⟩ := Option.ite_none_left_eq_some.1 h
    cases h
    exact astatSread_completes (Bool.not_eq_true _ ▸ cluster)
  | astatChain p gd ga => cases h; exact astatChain_completes
  | _ => cases h

/-- The same for those that act on the partition; no byte of memory changes. -/
theorem completes_of_shadowResult {s : State} {i : Instr} {p : BitVec 4} {f : State → State} (h : shadowResult s i = some (p, f)) :
    s.Completes i p {} f ∧ (f (s.issued .A p {} 2)).mem = s.mem := by
  cases i with
  | shdwDef p gd ga gb imm =>
    obtain ⟨⟨numbered, new, window, twin, apart, free⟩, h⟩ := Option.ite_none_right_eq_some.1 h
    cases h
    exact ⟨shdwDef_completes numbered new window twin (shadowClash_eq_false (Bool.not_eq_true' _ ▸ apart) free), rfl⟩
  | shdwArm p gd =>
    unfold shadowResult at h
    dsimp only at h
    split at h
    next there =>
      obtain ⟨⟨numbered, unarmed⟩, h⟩ := Option.ite_none_right_eq_some.1 h
      cases h
      exact ⟨shdwArm_completes numbered there unarmed, rfl⟩
    next => cases h
  | shdwFree p gd =>
    unfold shadowResult at h
    dsimp only at h
    split at h
    next there =>
      obtain ⟨⟨numbered, unarmed, own⟩, h⟩ := Option.ite_none_right_eq_some.1 h
      cases h
      exact ⟨shdwFree_completes numbered there unarmed own, rfl⟩
    next => cases h
  | preft p ga gb dies => cases h; exact ⟨preft_completes, preft_mem ..⟩
  | _ => cases h

/-- Settles O27: each instruction's checks pass where the rules let it act, and it then has its effect. -/
theorem accessInstructionsComplete : Obligations.AccessInstructionsComplete := by
  unfold Obligations.AccessInstructionsComplete
  exact ⟨fun s i p n f result ready => completes_of_accessResult result ready,
    fun s i p f result ready => ⟨(completes_of_shadowResult result).1 ready, (completes_of_shadowResult result).2⟩⟩

end Sys2Proof.Machine
end

section
/-! What a ladle's accesses leave as it was (R150, R185). -/
namespace Sys2Proof.Machine

/-- What comes before in an act that ends well ended well. -/
theorem Act.bind_eq_ok {α β : Type} {x : Act α} {f : α → Act β} {s u : State} {b : β} (h : (x >>= f) s = .ok (b, u)) :
    ∃ a t, x s = .ok (a, t) ∧ f a t = .ok (b, u) := by
  cases first : x s with
  | error e => rw [Act.bind_error first] at h; cases h
  | ok y => exact ⟨y.1, y.2, rfl, (Act.bind_ok first).symm.trans h⟩

theorem waitIf_state {b : Bool} {w : Wait} {s t : State} {a : Unit} (h : waitIf b w s = .ok (a, t)) : t = s := by
  cases b with
  | false => cases h; rfl
  | true => cases h

theorem trapIf_state {b : Bool} {c n : Nat} {v : Word} {s t : State} {a : Unit} (h : trapIf b c n v s = .ok (a, t)) : t = s := by
  cases b with
  | false => cases h; rfl
  | true => cases h

/-- u is s after accesses of a ladle: beside the ladles' caches, of the device only A and D of entries, the caches of the dies, and the notes
of who waits and of the fills may differ. -/
structure State.LadleLooks (s u : State) : Prop where
  frame : u = { s with
    mem := u.mem, poison := u.poison, dies := u.dies, ladles := u.ladles, freeNo := u.freeNo, stalled := u.stalled, fills := u.fills }
  ladle : ∀ m, u.ladle m = { s.ladle m with tlb := (u.ladle m).tlb }

namespace State.LadleLooks
variable {s t u : State}

theorem refl (s : State) : s.LadleLooks s := ⟨rfl, fun _ => rfl⟩

theorem trans (h : s.LadleLooks t) (g : t.LadleLooks u) : s.LadleLooks u :=
  ⟨by rw [g.frame, h.frame], fun m => by rw [g.ladle, h.ladle]⟩

theorem cache (s : State) (l : Nat) (f : List Tlb → List Tlb) : s.LadleLooks (s.modTlb (.ladle l) f) where
  frame := rfl
  ladle m := by
    have changed : (s.modTlb (.ladle l) f).ladle m = if m = l then { s.ladle l with tlb := f (s.ladle l).tlb } else s.ladle m :=
      State.ladle_modLadle s l m _
    rw [changed]
    split
    next same => rw [same]
    next => rfl

theorem touchEntry (s : State) (entry acc : Nat) : s.LadleLooks (s.touchEntry entry acc) := by
  unfold State.touchEntry
  split
  · exact ⟨rfl, fun _ => rfl⟩
  · exact refl s

theorem keeps (l : Nat) (s : State) : Keeps (.ladle l) s.LadleLooks where
  notes _ _ h := h.trans ⟨rfl, fun _ => rfl⟩
  node _ _ _ _ _ _ h := h.trans ⟨rfl, fun _ => rfl⟩
  entry _ _ h := h.trans (touchEntry _ _ _)
  cache f h := h.trans (cache _ l f)
  count _ _ hk _ := by obtain hk | hk := hk <;> cases hk

theorem of_ladleXlate {l : Nat} {c : Chain} {va acc ext key : Nat} (h : ladleXlate l c va acc ext s = .ok (key, u)) : s.LadleLooks u := by
  have kept := (keeps l s).translate (refl s) c.part c.asid va acc
  unfold ladleXlate xlateAs at h
  revert h kept
  cases s.translate (.ladle l) c.part c.asid va acc with
  | mk x v =>
  cases x with
  | ok k =>
    intro h kept
    cases h
    exact kept
  | fail c l => intro h; cases h
  | stall l => intro h; cases h

theorem of_ladleTarget {l : Nat} {c : Chain} {va ext key : Nat} (h : ladleTarget l c va ext s = .ok (key, u)) : s.LadleLooks u := by
  unfold ladleTarget at h
  rw [Act.bind_ok (Act.get_run s)] at h
  obtain ⟨k, v, located, h⟩ := Act.bind_eq_ok h
  rw [Act.bind_ok (Act.get_run v)] at h
  obtain ⟨_, v', waited, h⟩ := Act.bind_eq_ok h
  rw [waitIf_state waited, Act.bind_ok (Act.get_run v)] at h
  obtain ⟨_, v', trapped, h⟩ := Act.bind_eq_ok h
  rw [trapIf_state trapped] at h
  cases h
  exact of_ladleXlate located

end State.LadleLooks
end Sys2Proof.Machine
end

section
/-! A step of a ladle: how a turn, and an entry that is no COPY, come to what they do (R185, R187). -/
namespace Sys2Proof.Machine

theorem waitIf_pass {b : Bool} (h : b = false) (w : Wait) (s : State) : waitIf b w s = .ok ((), s) := by
  rw [h, Act.waitIf_false]

/-- The state in which ladle l has come to the run r. -/
def State.runs (s : State) (l : Nat) (r : Run) : State := s.modLadle l fun x => { x with run := some r }

theorem setRun_run (l : Nat) (r : Run) (s : State) : setRun l r s = .ok ((), s.runs l r) := rfl

theorem State.ladle_runs (s : State) (l m : Nat) (r : Run) : (s.runs l r).ladle m = if m = l then { s.ladle l with run := some r } else s.ladle m :=
  State.ladle_modLadle s l m _

@[simp] theorem State.ladle_runs_same (s : State) (l : Nat) (r : Run) : (s.runs l r).ladle l = { s.ladle l with run := some r } :=
  State.ladle_modLadle_same s l _

@[simp] theorem State.stir_ladle (s : State) (l : Nat) : s.stir.ladle l = s.ladle l := rfl

@[simp] theorem State.stir_sem (s : State) (k : Nat) : s.stir.sem k = s.sem k := rfl

theorem State.sem_runs_stir (s : State) (l k : Nat) (r : Run) : (s.runs l r).stir.sem k = s.sem k := rfl

/-- A ladle that runs a chain, and is not stopped, takes the step. -/
theorem ladleTurn_run {s t : State} {l : Nat} {r : Run} (run : (s.ladle l).run = some r) (halted : (s.ladle l).halted = false)
    (fenced : (s.ladle l).fenced = false) (test : (s.ladle l).test = none) (abandoned : r.abandoned = false) (idx : Run → Nat) {act : Run → Act Unit}
    (acts : act r s = .ok ((), t)) : ladleTurn l idx act s = .next t.stir := by
  unfold ladleTurn
  dsimp only
  rw [run]
  dsimp only
  rw [halted, fenced, test, abandoned, acts]
  rfl

/-- At an entry of its OP, with no reserved bit set, an entry that is no COPY acts with its fields. -/
theorem plainEntry_run {s t : State} {l op : Nat} {r : Run} (here : s.atEntry l r op) {act : Run → (Nat → Word) → Act Unit}
    (acts : act r (s.entryDw r.chain r.idx) s = .ok ((), t)) : plainEntry l op act s = .next t.stir := by
  obtain ⟨run, halted, fenced, test, abandoned, copies, dropped, entry, reserved⟩ := here
  refine ladleTurn_run run halted fenced test abandoned _ ?_
  rw [Act.bind_ok (Act.get_run _), Act.bind_ok (waitIf_pass (by rw [entry, copies]; simp) _ _), dropped, reserved]
  exact acts

/-- With no fault discarded, the entry after one is the next, and nothing is published yet. -/
theorem Run.next_of_undropped {r : Run} (h : r.dropped = none) : r.next = { r with idx := r.idx + 1, publ := none } := by
  rw [Run.next, h]
  cases r
  cases h
  rfl

theorem State.atEntry.undropped {s : State} {l op : Nat} {r : Run} (here : s.atEntry l r op) : r.dropped = none := by
  obtain ⟨-, -, -, -, -, -, dropped, -⟩ := here
  exact dropped

/-- A state that has the ladle's run alone changed. -/
theorem State.ladleOnly.of_runs {s u : State} (ladles : u.ladles = s.ladles) (mem : u.mem = s.mem) (cores : u.cores = s.cores) (l : Nat) (r : Run) :
    s.ladleOnly (u.runs l r).stir l r := by
  have same : ∀ m, u.ladle m = s.ladle m := fun m => congrArg (fun x : SMap Ladle => x.get {} m) ladles
  refine ⟨?_, mem, cores, fun m hm => ?_⟩
  · rw [State.stir_ladle, State.ladle_runs_same, same]
  · rw [State.stir_ladle, State.ladle_runs, if_neg hm, same]

end Sys2Proof.Machine
end

section
/-! The start of a chain, its control entries and its end (R185 to R191). -/
namespace Sys2Proof.Machine

/-! ### CHAIN_START, LADLE_LOOP and COND -/

theorem exec_chainStart {s : State} {l : Nat} {c : Chain} {rest : List Chain} (idle : (s.ladle l).run = none) (fenced : (s.ladle l).fenced = false)
    (test : (s.ladle l).test = none) (halted : (s.ladle l).halted = false) (resume : (s.ladle l).resume = []) (queue : (s.ladle l).queue = c :: rest) :
    exec (.chainStart l) s = .next (s.modLadle l fun x => { x with run := some { chain := c, ordp := x.ordp, ordd := x.ordd }, queue := rest }).stir := by
  change execChainStart l s = _
  unfold execChainStart
  dsimp only
  rw [idle, fenced, test, halted, resume, queue]
  rfl

theorem toNat_ne_zero {w : Word} (h : w ≠ 0) : w.toNat ≠ 0 := fun z => h (BitVec.eq_of_toNat_eq z)

/-- No entry of a list of entries has one of two OPs. -/
theorem ops_without {n : Nat} {op : Nat → Option Nat} (plain : ∀ j, j < n → op j ≠ some 2 ∧ op j ≠ some 8) :
    ((upTo n fun j => (op j).getD 0).any fun o => o = 2 || o = 8) = false := by
  rw [List.any_eq_false, upTo, List.forall_mem_map]
  intro j hj
  obtain ⟨two, eight⟩ := plain j (List.mem_range.1 hj)
  cases at' : op j with
  | none => simp
  | some n =>
    rw [at'] at two eight
    simpa using And.intro (fun h => two (congrArg some h)) fun h => eight (congrArg some h)

section loop
variable {s : State} {l : Nat} {r : Run}

/-- Of LADLE_LOOP: that COUNT or BODY is 0, or its body passes the first entry or holds LOOP or END. -/
def State.loopMalformed (s : State) (r : Run) : Bool :=
  let body := (s.entryDw r.chain r.idx 2).toNat
  (s.entryDw r.chain r.idx 1).toNat = 0 || body = 0 || r.idx < body
    || (upTo body fun j => (s.entryOp r.chain (r.idx - body + j)).getD 0).any fun o => o = 2 || o = 8

theorem State.loopMalformed_eq_false (count : s.entryDw r.chain r.idx 1 ≠ 0)
    (body : s.entryDw r.chain r.idx 2 ≠ 0) (inside : (s.entryDw r.chain r.idx 2).toNat ≤ r.idx)
    (plain : ∀ j, j < (s.entryDw r.chain r.idx 2).toNat → s.entryOp r.chain (r.idx - (s.entryDw r.chain r.idx 2).toNat + j) ≠ some 2
      ∧ s.entryOp r.chain (r.idx - (s.entryDw r.chain r.idx 2).toNat + j) ≠ some 8) : s.loopMalformed r = false := by
  unfold State.loopMalformed
  dsimp only
  rw [ops_without plain]
  simp [toNat_ne_zero count, toNat_ne_zero body, inside]

/-- The count that a LADLE_LOOP has left. -/
def State.loopLeft (s : State) (r : Run) : Nat := (r.loops.find r.idx).getD (s.entryDw r.chain r.idx 1).toNat

theorem exec_ladleLoop_again (here : s.atEntry l r 2) (sound : s.loopMalformed r = false) (more : 1 < s.loopLeft r) :
    ∃ incs, exec (.ladleLoop l) s = .next (s.runs l { r.next with
      idx := r.idx - (s.entryDw r.chain r.idx 2).toNat, loops := r.loops.put r.idx (s.loopLeft r - 1), incs }).stir := by
  unfold State.loopMalformed at sound
  unfold State.loopLeft at more
  refine ⟨?incs, (show _ = execLadleLoop l s from rfl).trans (plainEntry_run here ?_)⟩
  rotate_left
  · rw [Act.bind_ok (Act.get_run s)]
    dsimp only at sound ⊢
    rw [sound, if_neg Bool.false_ne_true, if_pos more]
    exact setRun_run ..

theorem exec_ladleLoop_on (here : s.atEntry l r 2) (sound : s.loopMalformed r = false) (last : ¬1 < s.loopLeft r) :
    exec (.ladleLoop l) s = .next (s.runs l { r.next with loops := r.loops.drop r.idx }).stir := by
  unfold State.loopMalformed at sound
  unfold State.loopLeft at last
  refine (show _ = execLadleLoop l s from rfl).trans (plainEntry_run here ?_)
  rw [Act.bind_ok (Act.get_run s)]
  dsimp only at sound ⊢
  rw [sound, if_neg Bool.false_ne_true, if_neg last]
  exact setRun_run ..

/-- LADLE_LOOP of a sound body goes back over it, or on. -/
theorem exec_ladleLoop (here : s.atEntry l r 2) (sound : s.loopMalformed r = false) :
    ∃ y : Run, exec (.ladleLoop l) s = .next (s.runs l y).stir
      ∧ y.idx = (if 1 < s.loopLeft r then r.idx - (s.entryDw r.chain r.idx 2).toNat else r.idx + 1)
      ∧ y.loops.find r.idx = if 1 < s.loopLeft r then some (s.loopLeft r - 1) else none := by
  by_cases more : 1 < s.loopLeft r
  · rw [if_pos more, if_pos more]
    obtain ⟨incs, goes⟩ := exec_ladleLoop_again here sound more
    exact ⟨_, goes, rfl, SMap.find_put_same ..⟩
  · rw [if_neg more, if_neg more]
    exact ⟨_, exec_ladleLoop_on here sound more, rfl, (SMap.find_drop ..).trans (if_pos rfl)⟩

end loop

section cond
variable {s u : State} {l : Nat} {r : Run}

/-- COND's skip. -/
def condNext (f : Nat → Word) (r : Run) (d : List Byte) : Run := { r with
  publ := none
  idx := if condHolds (bits (f 0) 10 8) (BitVec.ofNat 64 (ofBytes d)) (f 2) then r.idx + 1 + (f 3).toNat else r.idx + 1 }

theorem cond_goes (undropped : r.dropped = none) (f : Nat → Word) (d : List Byte)
    (ends : ∀ j, j < (f 3).toNat → u.entryOp r.chain (r.idx + 1 + j) ≠ some 8) :
    (if condHolds (bits (f 0) 10 8) (BitVec.ofNat 64 (ofBytes d)) (f 2) then do
        let s ← get
        if (upTo (f 3).toNat fun j => s.entryOp r.chain (r.idx + 1 + j)).any (· = some 8) then malformed l r
        else setRun l { r.next with idx := r.idx + 1 + (f 3).toNat }
      else setRun l r.next : Act Unit) u = .ok ((), u.runs l (condNext f r d)) := by
  have passes : ((upTo (f 3).toNat fun j => u.entryOp r.chain (r.idx + 1 + j)).any (· = some 8)) = false := by
    rw [List.any_eq_false, upTo, List.forall_mem_map]
    intro j hj
    simpa using ends j (List.mem_range.1 hj)
  unfold condNext
  rw [Run.next_of_undropped undropped]
  split
  next holds =>
    rw [Act.bind_ok (Act.get_run u), passes, if_neg Bool.false_ne_true]
    exact setRun_run ..
  next => exact setRun_run ..

section
variable (here : s.atEntry l r 3) (cc : bits (s.entryDw r.chain r.idx 0) 10 8 ≤ 5) (skip : s.entryDw r.chain r.idx 3 ≠ 0)
  (aligned : (s.entryDw r.chain r.idx 1).toNat % 8 = 0)
include here cc skip aligned

theorem exec_cond_tier {d : List Byte} (tier : (s.entryDw r.chain r.idx 0).getLsbD 20 = false)
    (reads : ladleRead l r.chain (s.entryDw r.chain r.idx 1).toNat 8 8 s = .ok (d, u))
    (ends : ∀ j, j < (s.entryDw r.chain r.idx 3).toNat → u.entryOp r.chain (r.idx + 1 + j) ≠ some 8) :
    exec (.cond l) s = .next (u.runs l (condNext (s.entryDw r.chain r.idx) r d)).stir := by
  refine (show _ = execCond l s from rfl).trans (plainEntry_run here ?_)
  dsimp only
  rw [tier, if_neg (by simp [cc, aligned, toNat_ne_zero skip]), if_neg Bool.false_ne_true, Act.bind_ok reads]
  exact cond_goes here.undropped _ d ends

theorem exec_cond_spad (spad : (s.entryDw r.chain r.idx 0).getLsbD 20 = true) (inside : (s.entryDw r.chain r.idx 1).toNat + 8 ≤ 786432)
    (ends : ∀ j, j < (s.entryDw r.chain r.idx 3).toNat → s.entryOp r.chain (r.idx + 1 + j) ≠ some 8) :
    exec (.cond l) s = .next (s.runs l (condNext (s.entryDw r.chain r.idx) r
      ((s.core (ladleCore l (s.entryDw r.chain r.idx 0))).ctx.spadBytes (s.entryDw r.chain r.idx 1).toNat 8))).stir := by
  refine (show _ = execCond l s from rfl).trans (plainEntry_run here ?_)
  dsimp only
  rw [spad, if_neg (by simp [cc, aligned, toNat_ne_zero skip, spadSize, Nat.not_lt.2 inside]), if_pos rfl, Act.bind_ok (Act.get_run s), Act.bind_ok (Act.pure_run _ s)]
  exact cond_goes here.undropped _ _ ends

end

end cond

/-! ### The semaphores (R189) -/

section sems
variable {s : State} {l : Nat} {r : Run}

/-- The semaphore that a ladle's entry names. -/
def State.entrySem (s : State) (l : Nat) (r : Run) : Nat := semKey (l / 2) (bits (s.entryDw r.chain r.idx 1) 7 0)

/-- The oldest waiter takes where COUNT is enough. -/
theorem Sem.take_cons {x : Sem} {w : Waiter} {rest : List Waiter} (oldest : x.waiters = w :: rest) (enough : w.count ≤ x.count) :
    x.take = { x with count := x.count - w.count, waiters := rest, taken := x.taken ++ [(w, x.poison)] } := by
  rw [Sem.take, oldest]
  exact if_pos enough

/-- A waiter that arrives with nobody before it and enough COUNT takes. -/
theorem Sem.take_arrival {x : Sem} {w : Waiter} (alone : x.waiters = []) (clear : x.taken = []) (enough : w.count ≤ x.count) :
    ({ x with waiters := x.waiters ++ [w] } : Sem).take = { x with count := x.count - w.count, taken := [(w, x.poison)] } := by
  obtain ⟨count, poison, ovf, waiters, taken⟩ := x
  subst alone clear
  exact Sem.take_cons rfl enough

/-- A waiter arrives at a semaphore, and goes on once it has taken. -/
def State.waitsAndGoes (s : State) (k : Nat) (w : Waiter) : State :=
  (s.modSem k fun x => ({ x with waiters := x.waiters ++ [w] } : Sem).take).modSem k fun x => { x with taken := dropFirst (fun t => t.1 = w) x.taken }

theorem State.sem_waitsAndGoes {k : Nat} {w : Waiter} (alone : (s.sem k).waiters = []) (clear : (s.sem k).taken = []) (enough : w.count ≤ (s.sem k).count) :
    (s.waitsAndGoes k w).sem k = { s.sem k with count := (s.sem k).count - w.count } := by
  rw [State.waitsAndGoes, State.sem_modSem_same, State.sem_modSem_same, Sem.take_arrival alone clear enough]
  simp [dropFirst, clear]

theorem State.sem_waitsAndGoes_ne {k j : Nat} (w : Waiter) (h : j ≠ k) : (s.waitsAndGoes k w).sem j = s.sem j := by
  rw [State.waitsAndGoes, State.sem_modSem, if_neg h, State.sem_modSem, if_neg h]

/-- SEMWAIT with nobody before it and enough COUNT takes as it arrives, and goes on; POISON makes the chain bad. -/
theorem exec_semwait (here : s.atEntry l r 4) (count : bits (s.entryDw r.chain r.idx 1) 25 16 ≠ 0)
    (alone : (s.sem (s.entrySem l r)).waiters = []) (clear : (s.sem (s.entrySem l r)).taken = [])
    (enough : bits (s.entryDw r.chain r.idx 1) 25 16 ≤ (s.sem (s.entrySem l r)).count) :
    exec (.semwait l) s = .next ((s.waitsAndGoes (s.entrySem l r) (.ladle l (bits (s.entryDw r.chain r.idx 1) 25 16))).runs l
      (if (s.sem (s.entrySem l r)).poison then r.fail 3 r.idx else r).next).stir := by
  generalize me : Waiter.ladle l (bits (s.entryDw r.chain r.idx 1) 25 16) = w
  have arrives := Sem.take_arrival (w := w) alone clear (me ▸ enough)
  have absent : ((s.sem (s.entrySem l r)).waiters.contains w || (s.sem (s.entrySem l r)).taken.any fun t => t.1 = w) = false := by
    rw [alone, clear]
    rfl
  have took : (((s.modSem (s.entrySem l r) fun x => ({ x with waiters := x.waiters ++ [w] } : Sem).take).sem (s.entrySem l r)).taken.find? fun t => t.1 = w)
      = some (w, (s.sem (s.entrySem l r)).poison) := by
    rw [State.sem_modSem_same, arrives]
    simp
  refine (show _ = execSemwait l s from rfl).trans (plainEntry_run here ?_)
  unfold State.entrySem at absent took ⊢
  dsimp only
  rw [if_neg count, Act.bind_ok (Act.get_run s), me, absent, if_neg Bool.false_ne_true, took]
  rfl

theorem exec_semsig (here : s.atEntry l r 5) (count : bits (s.entryDw r.chain r.idx 1) 25 16 ≠ 0) :
    exec (.semsig l) s = .next ((s.modSem (s.entrySem l r) fun x => x.signal (bits (s.entryDw r.chain r.idx 1) 25 16) r.bad.isSome).runs l r.next).stir := by
  refine (show _ = execSemsig l s from rfl).trans (plainEntry_run here ?_)
  rw [if_neg count, Act.bind_ok (Act.modify_run _ s)]
  exact setRun_run ..

theorem exec_semaphoreTake {cl sem : Nat} {w : Waiter} {rest : List Waiter} (oldest : (s.sem (semKey cl sem)).waiters = w :: rest)
    (enough : w.count ≤ (s.sem (semKey cl sem)).count) : exec (.semaphoreTake cl sem) s = .next (s.modSem (semKey cl sem) Sem.take).stir := by
  have changes : ¬(s.sem (semKey cl sem)).take = s.sem (semKey cl sem) := by
    intro same
    have fewer : rest = (s.sem (semKey cl sem)).waiters := by
      rw [Sem.take_cons oldest enough] at same
      exact congrArg Sem.waiters same
    rw [oldest] at fewer
    simpa using congrArg List.length fewer
  exact if_neg changes

end sems

/-! ### LADLE_PUBL (R188, R190) -/

section publ
variable {s : State} {l : Nat} {r : Run}

theorem exec_ladlePubl_bad (here : s.atEntry l r 6) (bad : r.bad.isSome = true) : exec (.ladlePubl l) s = .next (s.runs l r.withhold.next).stir := by
  refine (show _ = execLadlePubl l s from rfl).trans (plainEntry_run here ?_)
  rw [Act.bind_ok (Act.get_run s)]
  dsimp only
  rw [if_pos bad]
  exact setRun_run ..

theorem exec_ladlePubl {k : Nat} {w : Work} (here : s.atEntry l r 6) (good : r.bad = none)
    (may : s.mayPublish r.chain.part r.chain.work (bits (s.entryDw r.chain r.idx 1) 9 0) = true) (place : s.coreOfWork r.chain.work = some k)
    (work : (s.core k).work = some w) (stored : w.sb = []) (performed : (s.core k).ob = []) (fresh : r.publ = none) :
    exec (.ladlePubl l) s = .next ((s.flip r.chain.part (bits (s.entryDw r.chain r.idx 1) 9 0)).runs l r.next).stir := by
  have nothing : (r.publ.getD (((s.core k).work.map (·.sb.length)).getD 0)) = 0 := by
    rw [fresh, work]
    exact congrArg List.length stored
  refine (show _ = execLadlePubl l s from rfl).trans (plainEntry_run here ?_)
  rw [Act.bind_ok (Act.get_run s)]
  dsimp only
  rw [good, may, place]
  dsimp only
  rw [nothing, State.publishN, performed]
  rfl

theorem State.find_handle_flip {part h : Nat} {y : Handle} (there : (s.part part).handles.find h = some y) :
    ((s.flip part h).part part).handles.find h = some { y with cur := !y.cur, armed := false } := by
  rw [State.flip, there]
  have changed := State.part_modPart_same s part fun p => { p with handles := p.handles.put h { y with cur := !y.cur, armed := false } }
  exact (congrArg (fun p : Part => p.handles.find h) changed).trans (SMap.find_put_same ..)

theorem State.flip_frame (part h : Nat) : (s.flip part h).ladles = s.ladles ∧ (s.flip part h).mem = s.mem ∧ (s.flip part h).cores = s.cores := by
  unfold State.flip
  split <;> exact ⟨rfl, rfl, rfl⟩

end publ

/-! ### LADLE_END (R185, R191) -/

section ends
variable {s u : State} {l : Nat} {r : Run}

theorem recordTarget_zero (l : Nat) (c : Chain) (s : State) : recordTarget l c 0 s = .ok (none, s) := rfl

theorem recordTarget_of_ladleTarget {c : Chain} {va key : Nat} (there : va ≠ 0) (target : ladleTarget l c va 64 s = .ok (key, u)) :
    recordTarget l c va s = .ok (some key, u) := by
  unfold recordTarget
  rw [if_neg there, Act.bind_ok target]
  rfl

/-- The state in which the chain of r, which ladle l runs, has ended. -/
def State.chainEnds (s : State) (l : Nat) (r : Run) : State :=
  ((s.modLadle l fun x => { x with run := none }).modLadle r.chain.lad fun x =>
    { x with ended := x.ended ++ [(r.chain.seq, r.bad.isSome)] }).setEvt r.chain.core

/-- The chain's record. -/
def Run.record (r : Run) : List Byte :=
  match r.bad with
  | none => completionRecord r.chain.seq r.idx 0 r.bytes {}
  | some (st, e) => completionRecord r.chain.seq e st r.bytes {}

theorem exec_ladleEnd {key : Option Nat} (here : s.atEntry l r 8) (aligned : (s.entryDw r.chain r.idx 1).toNat % 64 = 0)
    (target : recordTarget l r.chain (s.entryDw r.chain r.idx 1).toNat s = .ok (key, u)) :
    exec (.ladleEnd l) s = .next ((u.writeRecord key r.record).chainEnds l r).stir := by
  obtain ⟨run, halted, fenced, test, abandoned, copies, dropped, entry, reserved⟩ := here
  refine (show _ = execLadleEnd l s from rfl).trans (ladleTurn_run run halted fenced test abandoned _ ?_)
  rw [Act.bind_ok (Act.get_run s), Act.bind_ok (waitIf_pass (by rw [copies]; rfl) _ s), entry]
  dsimp only
  rw [dropped, reserved, if_neg (by decide), if_neg (by decide), if_neg (by simp), if_neg (by simp [aligned]), Act.bind_ok target]
  unfold Run.record
  cases r.bad <;> rfl

theorem State.ended_chainEnds (s : State) (l : Nat) (r : Run) :
    ((s.chainEnds l r).ladle r.chain.lad).ended = (s.ladle r.chain.lad).ended ++ [(r.chain.seq, r.bad.isSome)] := by
  change (((s.modLadle l fun x => { x with run := none }).modLadle r.chain.lad fun x =>
    { x with ended := x.ended ++ [(r.chain.seq, r.bad.isSome)] }).ladle r.chain.lad).ended = _
  rw [State.ladle_modLadle_same, State.ladle_modLadle]
  split
  next same => rw [same]
  next => rfl

theorem State.run_chainEnds (s : State) (l : Nat) (r : Run) : ((s.chainEnds l r).ladle l).run = none := by
  change (((s.modLadle l fun x => { x with run := none }).modLadle r.chain.lad fun x =>
    { x with ended := x.ended ++ [(r.chain.seq, r.bad.isSome)] }).ladle l).run = none
  rw [State.ladle_modLadle]
  split
  next same => rw [← same, State.ladle_modLadle_same]
  next => rw [State.ladle_modLadle_same]

theorem State.evt_chainEnds (s : State) (l : Nat) (r : Run) : ((s.chainEnds l r).core r.chain.core).ctx.csr.evt = true := by
  rw [State.chainEnds, State.setEvt, State.core_modCtxOf, if_pos rfl]

/-- How LADLE_END leaves the device. -/
theorem ladleEnd_ends {key : Option Nat} (here : s.atEntry l r 8) (aligned : (s.entryDw r.chain r.idx 1).toNat % 64 = 0)
    (target : recordTarget l r.chain (s.entryDw r.chain r.idx 1).toNat s = .ok (key, u)) (looks : s.LadleLooks u) :
    ∃ t, exec (.ladleEnd l) s = .next t ∧ t.mem = (u.writeRecord key r.record).mem ∧ (t.ladle l).run = none
      ∧ (t.ladle r.chain.lad).ended = (s.ladle r.chain.lad).ended ++ [(r.chain.seq, r.bad.isSome)] ∧ (t.core r.chain.core).ctx.csr.evt = true := by
  have ended : ((u.writeRecord key r.record).ladle r.chain.lad).ended = (s.ladle r.chain.lad).ended :=
    calc _ = (u.ladle r.chain.lad).ended := by cases key <;> rfl
      _ = _ := congrArg Ladle.ended (looks.ladle r.chain.lad)
  refine ⟨_, exec_ladleEnd here aligned target, rfl, ?_, ?_, ?_⟩
  · rw [State.stir_ladle, State.run_chainEnds]
  · rw [State.stir_ladle, State.ended_chainEnds, ended]
  · rw [State.stir_core, State.evt_chainEnds]

end ends

/-- Settles O45: each control entry acts with its fields, and of the rest of the device changes what it names. -/
theorem chainEntriesComplete : Obligations.ChainEntriesComplete := by
  unfold Obligations.ChainEntriesComplete
  intro s l r f next n key x
  refine ⟨?start, ?loop, ?condTier, ?condSpad, ?wait, ?sig, ?take, ?publ, ?ends⟩
  case start =>
    intro c rest idle fenced test halted resume queue
    exact ⟨_, exec_chainStart idle fenced test halted resume queue, rfl, by rw [State.stir_ladle, State.ladle_modLadle_same]⟩
  case loop =>
    intro here count body inside plain left
    obtain ⟨y, goes, idx, loops⟩ := exec_ladleLoop here (State.loopMalformed_eq_false count body inside plain)
    exact ⟨_, y, goes, .of_runs rfl rfl rfl l y, idx, loops⟩
  case condTier =>
    intro d u here cc skip aligned tier reads ends
    exact ⟨_, exec_cond_tier here cc skip aligned tier reads ends, rfl, by rw [State.stir_ladle, State.ladle_runs_same]; rfl⟩
  case condSpad =>
    intro here cc skip aligned spad inside ends d
    exact ⟨_, exec_cond_spad here cc skip aligned spad inside ends, .of_runs rfl rfl rfl l _⟩
  case wait =>
    intro here count alone clear enough
    refine ⟨_, exec_semwait here count alone clear enough, ?_, (State.sem_runs_stir ..).trans (State.sem_waitsAndGoes alone clear enough),
      fun j hj => (State.sem_runs_stir ..).trans (State.sem_waitsAndGoes_ne _ hj)⟩
    have undropped := here.undropped
    have goes : (if (s.sem key).poison then r.fail 3 r.idx else r).next
        = { next with bad := if (s.sem key).poison then some (r.bad.getD (3, r.idx)) else r.bad } := by
      split
      · exact Run.next_of_undropped undropped
      · exact Run.next_of_undropped undropped
    rw [← goes]
    exact .of_runs rfl rfl rfl l _
  case sig =>
    intro here count
    refine ⟨_, exec_semsig here count, ?_, fun j hj => (State.sem_runs_stir ..).trans ((State.sem_modSem s key j _).trans (if_neg hj)),
      (State.sem_runs_stir ..).trans (State.sem_modSem_same s key _)⟩
    rw [Run.next_of_undropped here.undropped]
    exact .of_runs rfl rfl rfl l _
  case take =>
    intro cl sem w rest oldest enough
    exact ⟨_, exec_semaphoreTake oldest enough, rfl, rfl, (State.stir_sem ..).trans ((State.sem_modSem_same s (semKey cl sem) _).trans (Sem.take_cons oldest enough))⟩
  case publ =>
    intro here h
    constructor
    · intro e bad
      refine ⟨_, exec_ladlePubl_bad here (bad ▸ rfl), rfl, ?_⟩
      rw [Run.next_of_undropped (show r.withhold.dropped = none from here.undropped), Run.withhold, bad]
      exact .of_runs rfl rfl rfl l _
    · intro k w y good there armed own place work stored performed fresh
      have may : s.mayPublish r.chain.part r.chain.work h = true := by
        rw [State.mayPublish, there]
        simp [armed, own]
      refine ⟨_, exec_ladlePubl here good may place work stored performed fresh, ?_, State.find_handle_flip there⟩
      obtain ⟨ladles, mem, cores⟩ := s.flip_frame r.chain.part h
      rw [Run.next_of_undropped here.undropped]
      exact .of_runs ladles mem cores l _
  case ends =>
    intro here ends
    constructor
    · intro zero
      have none' : (s.entryDw r.chain r.idx 1).toNat = 0 := congrArg BitVec.toNat zero
      exact ladleEnd_ends here (by rw [none']) (by rw [none']; exact recordTarget_zero ..) (.refl s)
    · intro key u named aligned target
      exact ladleEnd_ends here aligned (recordTarget_of_ladleTarget (toNat_ne_zero named) target) (.of_ladleTarget target)

end Sys2Proof.Machine
end

section
/-! Which step COPY and FPRINT take, and the beginning of an entry (R185, R187, R190). -/
namespace Sys2Proof.Machine

section steps
variable {s t : State} {l : Nat} {r : Run} {o : CopyOp}

/-- What a step that COPYs can take does. -/
def CopyStep.does (l : Nat) (r : Run) : CopyStep → Act Unit
  | .start => beginOp l r false
  | .move o => stepOp r o (moveData l r o)
  | .complete o => stepOp r o (completeOp l r o)

/-- Where the COPYs of a ladle have one step to take, COPY takes it. -/
theorem exec_copy_step (run : (s.ladle l).run = some r) (halted : (s.ladle l).halted = false) (fenced : (s.ladle l).fenced = false)
    (test : (s.ladle l).test = none) (abandoned : r.abandoned = false) {x : CopyStep} (only : s.copySteps r = [x])
    (acts : x.does l r s = .ok ((), t)) : exec (.copy l) s = .next t.stir := by
  have chosen : s.chooseStep r = (some x, s) := by rw [State.chooseStep, only]
  refine (show _ = execCopy l s from rfl).trans (ladleTurn_run run halted fenced test abandoned _ ?_)
  rw [Act.bind_ok (Act.get_run s), chosen]
  dsimp only
  rw [Act.bind_ok (Act.set_run s s)]
  cases x <;> exact acts

theorem stepOp_run {act : Act Unit} (acts : act s = .ok ((), t)) : stepOp r o act s = .ok ((), t) := by rw [stepOp, acts]

theorem exec_copy_start (here : s.atEntry l r 1) (begins : beginOp l r false s = .ok ((), t)) : exec (.copy l) s = .next t.stir := by
  obtain ⟨run, halted, fenced, test, abandoned, copies, -, entry, -⟩ := here
  exact exec_copy_step run halted fenced test abandoned (x := .start) (by simp [State.copySteps, entry, abandoned, copies]) begins

theorem exec_copy_move (here : s.atCopy l r o) (copy : o.fprint = false) (more : o.issued = false) (moves : moveData l r o s = .ok ((), t)) :
    exec (.copy l) s = .next t.stir := by
  obtain ⟨run, halted, fenced, test, abandoned, copies, -, -⟩ := here
  exact exec_copy_step run halted fenced test abandoned (x := .move o) (by simp [State.copySteps, copies, copy, more]) (stepOp_run moves)

theorem exec_copy_complete (here : s.atCopy l r o) (copy : o.fprint = false) (through : o.issued = true) (delivered : o.beats = 0)
    (completes : completeOp l r o s = .ok ((), t)) : exec (.copy l) s = .next t.stir := by
  obtain ⟨run, halted, fenced, test, abandoned, copies, -, apart⟩ := here
  exact exec_copy_step run halted fenced test abandoned (x := .complete o)
    (by simp [State.copySteps, copies, copy, through, delivered, apart through]) (stepOp_run completes)

theorem exec_fprint_start (here : s.atEntry l r 7) (begins : beginOp l r true s = .ok ((), t)) : exec (.fprint l) s = .next t.stir := by
  obtain ⟨run, halted, fenced, test, abandoned, copies, -, entry, -⟩ := here
  refine (show _ = execFprint l s from rfl).trans (ladleTurn_run run halted fenced test abandoned _ ?_)
  rw [copies]
  dsimp only [List.find?]
  rw [Act.bind_ok (Act.get_run s), Act.bind_ok (waitIf_pass (by rw [entry]; rfl) _ s)]
  exact begins

/-- At an FPRINT that has begun, FPRINT goes on with it, or completes it. -/
theorem exec_fprint_step (here : s.atCopy l r o) (fprint : o.fprint = true)
    (acts : (if o.issued then completeOp l r o else moveData l r o) s = .ok ((), t)) : exec (.fprint l) s = .next t.stir := by
  obtain ⟨run, halted, fenced, test, abandoned, copies, -, -⟩ := here
  refine (show _ = execFprint l s from rfl).trans (ladleTurn_run run halted fenced test abandoned _ ?_)
  have found : r.copies.find? (·.fprint) = some o := by rw [copies]; exact List.find?_cons_of_pos fprint
  rw [found]
  exact acts

theorem beginOp_run {op : Nat} {fprint : Bool} (here : s.atEntry l r op) (which : op = if fprint then 7 else 1) (good : r.bad = none)
    (sound : (if fprint then fprintMalformed (r.entryOp (s.entryDw r.chain r.idx) fprint)
      else copyMalformed (r.entryOp (s.entryDw r.chain r.idx) fprint)) = false) :
    beginOp l r fprint s = .ok ((), s.runs l { r with idx := r.idx + 1, publ := none, copies := [r.entryOp (s.entryDw r.chain r.idx) fprint] }) := by
  have undropped := here.undropped
  obtain ⟨-, -, -, -, -, copies, -, -, reserved⟩ := here
  subst which
  unfold beginOp
  rw [Act.bind_ok (Act.get_run s)]
  dsimp only
  rw [if_neg (by rw [good]; exact Bool.false_ne_true), if_neg (by rw [reserved, sound]; exact Bool.false_ne_true), Run.next_of_undropped undropped, copies]
  rfl

end steps

end Sys2Proof.Machine
end

section
/-! The 16 bytes of a step of a COPY or an FPRINT: where they come from, and where they go (R178, R186, R315). -/
namespace Sys2Proof.Machine

section reads
variable {s u : State} {l : Nat} {c : Chain} {o o' : CopyOp} {d : List Byte}

theorem sourceBytes_run {a n : Nat} (reads : s.sourceReads l c o a n d u) : sourceBytes l c o a n s = .ok (some d, u) := by
  unfold State.sourceReads at reads
  unfold sourceBytes
  split at reads
  next spad =>
    obtain ⟨inside, rfl, rfl⟩ := reads
    rw [if_pos spad, if_neg (show ¬spadSize < _ from Nat.not_lt.2 inside), Act.bind_ok (Act.get_run u)]
    rfl
  next tier =>
    obtain ⟨x, reads, rfl⟩ := reads
    rw [if_neg tier, Act.bind_ok reads]
    rfl

/-- Of a scratchpad, nothing beyond its end is read. -/
theorem sourceBytes_beyond {a n : Nat} (spad : o.dw0.getLsbD 20 = true) (beyond : 786432 < a + 16 * n) : sourceBytes l c o a n s = .ok (none, s) := by
  unfold sourceBytes
  rw [if_pos spad, if_pos (show spadSize < _ from beyond)]
  rfl

/-- What a COPY gives next is read so. -/
theorem nextData_run (copy : o.fprint = false) (gives : s.copyGives l c o o' d u) : nextData l c o s = .ok (some (o', d), u) := by
  unfold State.copyGives at gives
  unfold nextData
  dsimp only at gives
  split at gives
  next expands =>
    rw [if_pos (by rw [copy]; exact expands)]
    obtain ⟨used, rfl, rfl, rfl⟩ | ⟨fresh, h, x, y, t, head, shape, body, rfl, rfl⟩ := gives
    · rw [if_neg (by simpa using used)]
      rfl
    · rw [if_pos (by simp [fresh])]
      have block : nextBlock l c o s = .ok (some (x.data (bits o.dw0 28 25) y, x.len (bits o.dw0 28 25)), u) := by
        unfold nextBlock
        rw [Act.bind_ok (sourceBytes_run head)]
        dsimp only
        rw [shape]
        dsimp only
        rw [Act.bind_ok (sourceBytes_run body)]
        rfl
      rw [Act.bind_ok block]
      rfl
  next plain =>
    obtain ⟨reads, rfl⟩ := gives
    rw [if_neg (by rw [copy]; exact plain), Act.bind_ok (sourceBytes_run reads)]
    rfl

theorem nextData_of_reads (fprint : o.fprint = true) (reads : s.sourceReads l c o (o.src + o.off) 1 d u) :
    nextData l c o s = .ok (some (o, d), u) := by
  unfold nextData
  rw [if_neg (by simp [fprint]), Act.bind_ok (sourceBytes_run reads)]
  rfl

/-- A block that ends the COPY gives nothing. -/
theorem nextData_ends (copy : o.fprint = false) (ends : s.copyEnds l c o u) : nextData l c o s = .ok (none, u) := by
  obtain ⟨expands, fresh, ends⟩ := ends
  have block : nextBlock l c o s = .ok (none, u) := by
    unfold nextBlock
    obtain ⟨spad, beyond, rfl⟩ | ⟨h, head, bad | ⟨x, shape, spad, beyond⟩⟩ := ends
    · rw [Act.bind_ok (sourceBytes_beyond spad beyond)]
      rfl
    · rw [Act.bind_ok (sourceBytes_run head)]
      dsimp only
      rw [bad]
      rfl
    · rw [Act.bind_ok (sourceBytes_run head)]
      dsimp only
      rw [shape]
      dsimp only
      rw [Act.bind_ok (sourceBytes_beyond spad beyond)]
      rfl
  unfold nextData
  rw [if_pos (by rw [copy]; exact expands), if_pos (by simp [fresh]), Act.bind_ok block]
  rfl

/-- Reading leaves a COPY at its entry. -/
theorem State.copyGives.idx (gives : s.copyGives l c o o' d u) : o.idx = o'.idx := by
  unfold State.copyGives at gives
  dsimp only at gives
  split at gives
  · obtain ⟨-, rfl, -⟩ | ⟨-, h, x, y, t, -, -, -, rfl, -⟩ := gives <;> rfl
  · rw [gives.2]

theorem State.copyGives.beats (gives : s.copyGives l c o o' d u) : o'.beats = o.beats := by
  unfold State.copyGives at gives
  dsimp only at gives
  split at gives
  · obtain ⟨-, rfl, -⟩ | ⟨-, h, x, y, t, -, -, -, rfl, -⟩ := gives <;> rfl
  · rw [gives.2]

end reads

section writes
variable {u w : State} {l : Nat} {r : Run} {o : CopyOp} {d : List Byte} {key : Nat}

theorem writeBeat_spad (spad : o.dw0.getLsbD 21 = true) :
    writeBeat l r o d u = .ok (false, u.modCtxOf (ladleCore l o.dw0) fun c => c.setSpad
      (o.dst + if bits o.dw0 24 22 = 0 then o.off else swizzle o.off o.pitch (16 * 2 ^ bits o.dw0 24 22)) d) := by
  unfold writeBeat
  rw [if_pos spad]
  rfl

section tier
variable (tier : o.dw0.getLsbD 21 = false) (target : ladleTarget l r.chain (o.dst + o.off) (o.len - o.off) u = .ok (key, w))
include tier target

theorem writeBeat_near (near : dieOfKey key = some (l / 32) ∨ (dieOfKey key = none ∧ tierOfKey key ≠ 3)) :
    writeBeat l r o d u = .ok (false, w.writeM key d) := by
  unfold writeBeat
  rw [if_neg (by rw [tier]; exact Bool.false_ne_true), Act.bind_ok (Act.get_run u), Act.bind_ok target, Act.bind_ok (Act.get_run w)]
  dsimp only
  obtain own | ⟨host, apart⟩ := near
  · rw [own]
    dsimp only
    rw [if_pos rfl]
    rfl
  · rw [host]
    dsimp only
    rw [if_neg apart]
    rfl

/-- The beat that a COPY sends to another die or to a peer, when its flow stands at w. -/
def farBeat (w : State) (l : Nat) (r : Run) (o : CopyOp) (d : List Byte) (key va dest : Nat) (ordered : Bool) : Beat :=
  { ladle := l, dest, seq := w.flowSeq.get 0 (2 ^ 20 * l + dest), key, data := BitVec.ofNat 128 (ofBytes d), entry := o.idx
    lad := r.chain.lad, chain := r.chain.seq, ordered, va, part := r.chain.part, asid := r.chain.asid }

theorem writeBeat_far {dest : Nat} {ordered : Bool} (far : (dieOfKey key = some dest ∧ dest ≠ l / 32 ∧ ordered = r.ordd.getLsbD dest)
      ∨ (dieOfKey key = none ∧ tierOfKey key = 3 ∧ dest = 4 + peerOfKey key ∧ ordered = r.ordp)) :
    writeBeat l r o d u = .ok (true, { (w.flowNext l dest).2 with
      flows := w.flows ++ [farBeat w l r o d key (u.chainWindow r.chain (o.dst + o.off)) dest ordered] }) := by
  unfold writeBeat
  rw [if_neg (by rw [tier]; exact Bool.false_ne_true), Act.bind_ok (Act.get_run u), Act.bind_ok target, Act.bind_ok (Act.get_run w)]
  dsimp only
  obtain ⟨other, apart, rfl⟩ | ⟨peer, three, rfl, rfl⟩ := far
  · rw [other]
    dsimp only
    rw [if_neg apart]
    rfl
  · rw [peer]
    dsimp only
    rw [if_pos three]
    rfl

end tier

end writes

end Sys2Proof.Machine
end

section
/-! The steps of COPY and FPRINT, and the delivery of a beat (R185, R186, R191, R192, R315). -/
namespace Sys2Proof.Machine

/-! ### Bytes written -/

/-- A list of bytes written to a memory, byte by byte. -/
theorem SMap.get_setList_bytes (m : SMap Byte) (k a : Nat) (d : List Byte) :
    (m.setList 0 k d).get 0 a = if k ≤ a ∧ a < k + d.length then d.getD (a - k) 0 else m.get 0 a := by
  split
  next inside =>
    have within : a - k < d.length := by omega
    have h := SMap.get_setList_in d m 0 k (a - k) within
    rwa [Nat.add_sub_cancel' inside.1, ← List.getD_eq_getElem d 0 within] at h
  next outside => exact SMap.get_setList_out d m 0 k a (by omega)

/-! ### A step of 16 bytes (R186) -/

section moves
variable {s u v : State} {l : Nat} {r : Run} {o o' : CopyOp} {d : List Byte}

/-- A beat of a chain is counted on the core of its work, when that is on one. -/
def State.beatCounted (s : State) (c : Chain) : State :=
  match s.coreOfWork c.work with
  | some k => s.countOn k 0x09 none 1
  | none => s

theorem State.beatCounted_frame (s : State) (c : Chain) :
    (s.beatCounted c).mem = s.mem ∧ (s.beatCounted c).flows = s.flows ∧ (s.beatCounted c).flowSeq = s.flowSeq := by
  unfold State.beatCounted
  split <;> exact ⟨rfl, rfl, rfl⟩

theorem State.spad_beatCounted (s : State) (c : Chain) (k : Nat) : ((s.beatCounted c).core k).ctx.spad = (s.core k).ctx.spad := by
  unfold State.beatCounted
  split
  next j _ =>
    rw [State.countOn, State.core_modCtxOf]
    split
    next same => rw [same]
    next => rfl
  next => rfl

/-- A COPY that has gone on stands where it stood. -/
theorem mapFirst_only {n : Nat} {x : CopyOp} (same : o.idx = n) : mapFirst (fun y => y.idx = n) (fun _ => x) [o] = [x] := by
  simp [mapFirst, same]

/-- A COPY after a beat. -/
def CopyOp.moved (o o' : CopyOp) (d : List Byte) (flying : Bool) : CopyOp := { o' with
  fp := if o.fprint || o.dw0.getLsbD 19 then o.fp.absorbBytes (bits o.dw0 28 25) d else o.fp
  off := o.off + 16, issued := decide (o.len ≤ o.off + 16), beats := o.beats + bit flying }

theorem exec_copy_beat {flying : Bool} (here : s.atCopy l r o) (copy : o.fprint = false) (more : o.issued = false)
    (data : nextData l r.chain o s = .ok (some (o', d), u)) (same : o.idx = o'.idx) (writes : writeBeat l r o d u = .ok (flying, v)) :
    exec (.copy l) s = .next ((v.beatCounted r.chain).runs l { r with copies := [o.moved o' d flying] }).stir := by
  refine exec_copy_move here copy more ?_
  obtain ⟨-, -, -, -, -, copies, undropped, -⟩ := here
  unfold moveData CopyOp.moved
  dsimp only
  rw [if_neg (by rw [undropped]; exact (nomatch ·)), Act.bind_ok data]
  dsimp only
  rw [copy, if_neg Bool.false_ne_true, Act.bind_ok writes, if_pos Bool.not_false, Act.bind_ok (Act.modify_run _ v), copies,
    mapFirst_only same]
  exact setRun_run ..

theorem exec_fprint_move (here : s.atCopy l r o) (fprint : o.fprint = true) (more : o.issued = false)
    (data : nextData l r.chain o s = .ok (some (o', d), u)) (same : o.idx = o'.idx) :
    exec (.fprint l) s = .next (u.runs l { r with copies := [o.moved o' d false] }).stir := by
  refine exec_fprint_step here fprint ?_
  obtain ⟨-, -, -, -, -, copies, undropped, -⟩ := here
  rw [more, if_neg Bool.false_ne_true]
  unfold moveData CopyOp.moved
  dsimp only
  rw [if_neg (by rw [undropped]; exact (nomatch ·)), Act.bind_ok data]
  dsimp only
  rw [fprint, if_pos rfl, Act.bind_ok (Act.pure_run _ u), copies, mapFirst_only same]
  exact setRun_run ..

theorem CopyOp.moved_written (copy : o.fprint = false) (beats : o'.beats = o.beats) (d : List Byte) : o.moved o' d false = { o' with
    off := o.off + 16, issued := decide (o.len ≤ o.off + 16)
    fp := if o.dw0.getLsbD 19 then o.fp.absorbBytes (bits o.dw0 28 25) d else o.fp } := by
  rw [CopyOp.moved, copy, Bool.false_or, ← beats]
  rfl

theorem CopyOp.moved_flying (copy : o.fprint = false) (d : List Byte) : o.moved o' d true = { o' with
    off := o.off + 16, issued := decide (o.len ≤ o.off + 16)
    fp := if o.dw0.getLsbD 19 then o.fp.absorbBytes (bits o.dw0 28 25) d else o.fp
    beats := o.beats + 1 } := by
  rw [CopyOp.moved, copy, Bool.false_or]
  rfl

theorem CopyOp.moved_fprint (fprint : o.fprint = true) (d : List Byte) : o.moved o d false = { o with
    off := o.off + 16, issued := decide (o.len ≤ o.off + 16), fp := o.fp.absorbBytes (bits o.dw0 28 25) d } := by
  rw [CopyOp.moved, fprint, Bool.true_or, if_pos rfl]
  rfl

theorem Run.failOp_eq (r : Run) (status idx : Nat) : r.failOp status idx = { r with bad := r.failing status idx } := by
  unfold Run.failOp Run.failing
  cases r.bad with
  | none => rfl
  | some e =>
    dsimp only
    split <;> rfl

theorem exec_copy_malformed (here : s.atCopy l r o) (copy : o.fprint = false) (more : o.issued = false) (data : nextData l r.chain o s = .ok (none, u)) :
    exec (.copy l) s = .next (u.runs l { r with copies := [{ o with status := 4, issued := true }], bad := r.failing 4 o.idx }).stir := by
  refine exec_copy_move here copy more ?_
  obtain ⟨-, -, -, -, -, copies, undropped, -⟩ := here
  unfold moveData
  dsimp only
  rw [if_neg (by rw [undropped]; exact (nomatch ·)), Act.bind_ok data]
  dsimp only
  rw [Run.failOp_eq]
  dsimp only
  rw [copies, mapFirst_only rfl]
  exact setRun_run ..

end moves

/-! ### The end of a COPY and of an FPRINT (R191, R192) -/

section completes
variable {s u v : State} {l : Nat} {r : Run} {o : CopyOp}

theorem exec_fprint_compare {e : List Byte} (here : s.atCopy l r o) (fprint : o.fprint = true) (through : o.issued = true) (fine : o.status = 0)
    (compares : o.dw0.getLsbD 19 = true) (fresh : o.compared = false) (reads : ladleRead l r.chain o.exp 64 64 s = .ok (e, u)) :
    exec (.fprint l) s = .next (u.runs l { r with copies := [{ o with
      status := if (e.drop 16).take 32 = ([o.fp.nans, o.fp.maxmag.toNat, o.fp.sum.toNat, o.fp.sumsq.toNat].map fun v => toBytes v 8).flatten
        then 0 else 2
      compared := true }] }).stir := by
  refine exec_fprint_step here fprint ?_
  obtain ⟨-, -, -, -, abandoned, copies, undropped, -⟩ := here
  have must : o.mustCompare = true := by simp only [CopyOp.mustCompare, fprint, fine, compares, fresh]; rfl
  rw [if_pos through]
  unfold completeOp
  dsimp only
  rw [if_pos (by rw [must, abandoned]; rfl)]
  unfold compareExpected
  dsimp only
  rw [if_neg (by rw [undropped]; exact (nomatch ·)), Act.bind_ok reads, copies, mapFirst_only rfl]
  exact setRun_run ..

/-- What an entry that completes with status st in the state v leaves. -/
def State.completed (v : State) (l : Nat) (r : Run) (o : CopyOp) (key : Option Nat) (st : Nat) : State :=
  (v.writeRecord key (completionRecord r.chain.seq o.idx st o.off o.fp)).runs l { r with
    copies := [], bytes := r.bytes + if o.fprint then 0 else o.off
    bad := if st = 0 ∨ st = 6 then r.bad else r.failing st o.idx }

theorem completeOp_run {key : Option Nat} {st : Nat} (here : s.atCopy l r o) (compared : o.mustCompare = false)
    (target : recordTarget l r.chain o.recAddr s = .ok (key, u))
    (advances : (if !o.fprint && o.status = 0 && o.dw0.getLsbD 29 then advanceRing l o.dw0 u else (o.status, u)) = (st, v)) :
    completeOp l r o s = .ok ((), v.completed l r o key st) := by
  obtain ⟨-, -, -, -, abandoned, copies, undropped, -⟩ := here
  have left : dropFirst (fun (x : CopyOp) => x.idx = o.idx) r.copies = [] := by rw [copies]; simp [dropFirst]
  unfold completeOp
  dsimp only
  rw [if_neg (by rw [compared]; exact Bool.false_ne_true), if_neg (by rw [undropped]; exact (nomatch ·)),
    if_neg (by rw [abandoned]; exact Bool.false_ne_true), Act.bind_ok target, Act.bind_ok (Act.get_run u), advances, left]
  dsimp only
  rw [Act.bind_ok (Act.set_run u _), Run.failOp_eq]
  refine (setRun_run ..).trans ?_
  unfold State.completed
  by_cases counts : st = 0 ∨ st = 6
  · rw [if_pos (by simpa using counts), if_pos counts]
  · rw [if_neg (by simpa using counts), if_neg counts]

/-- The ring that a COPY advances can take it. -/
def State.ringTakes (s : State) (l : Nat) (dw0 : Word) : Prop :=
  let ring := (s.core (ladleCore l dw0)).ctx.ring (bits dw0 37 34)
  ring.init = true ∧ bits dw0 47 38 + 1 ≤ ring.free

/-- The advance. -/
def State.ringAdvanced (s : State) (l : Nat) (dw0 : Word) : State :=
  s.modCtxOf (ladleCore l dw0) fun c =>
    let ring := (s.core (ladleCore l dw0)).ctx.ring (bits dw0 37 34)
    { c with rings := c.rings.set {} (bits dw0 37 34) { ring with tail := ring.tail + BitVec.ofNat 32 (bits dw0 47 38 + 1) } }

theorem advanceRing_takes {dw0 : Word} (takes : u.ringTakes l dw0) : advanceRing l dw0 u = (0, u.ringAdvanced l dw0) := by
  obtain ⟨init, free⟩ := takes
  exact if_neg (by rw [init, decide_eq_false (Nat.not_lt.2 free)]; exact Bool.false_ne_true)

theorem advanceRing_refuses {dw0 : Word} (refuses : ¬u.ringTakes l dw0) : advanceRing l dw0 u = (8, u) := by
  refine if_pos ?_
  unfold State.ringTakes at refuses
  by_contra takes
  simp only [Bool.or_eq_true, Bool.not_eq_true', decide_eq_true_eq, not_or, Bool.not_eq_false, Nat.not_lt] at takes
  exact refuses takes

theorem State.ring_ringAdvanced (s : State) (l : Nat) (dw0 : Word) (j : Nat) :
    ((s.ringAdvanced l dw0).core (ladleCore l dw0)).ctx.ring j
      = if j = bits dw0 37 34 then
          let ring := (s.core (ladleCore l dw0)).ctx.ring (bits dw0 37 34)
          { ring with tail := ring.tail + BitVec.ofNat 32 (bits dw0 47 38 + 1) }
        else (s.core (ladleCore l dw0)).ctx.ring j := by
  rw [State.ringAdvanced, State.core_modCtxOf, if_pos rfl]
  exact SMap.get_set ..

theorem State.spad_ringAdvanced (s : State) (l : Nat) (dw0 : Word) :
    ((s.ringAdvanced l dw0).core (ladleCore l dw0)).ctx.spad = (s.core (ladleCore l dw0)).ctx.spad := by
  rw [State.ringAdvanced, State.core_modCtxOf, if_pos rfl]

theorem State.core_ringAdvanced_ne (s : State) {l k : Nat} {dw0 : Word} (h : k ≠ ladleCore l dw0) : (s.ringAdvanced l dw0).core k = s.core k := by
  rw [State.ringAdvanced, State.core_modCtxOf, if_neg h]

theorem State.run_runs (s : State) (l : Nat) (r : Run) : ((s.runs l r).stir.ladle l).run = some r := by
  rw [State.stir_ladle, State.ladle_runs_same]

theorem State.core_runs (s : State) (l k : Nat) (r : Run) : (s.runs l r).core k = s.core k := rfl

theorem State.core_writeRecord (s : State) (key : Option Nat) (d : List Byte) (k : Nat) : (s.writeRecord key d).core k = s.core k := by
  cases key <;> rfl

theorem State.core_completed (v : State) (l : Nat) (r : Run) (o : CopyOp) (key : Option Nat) (st k : Nat) :
    (v.completed l r o key st).stir.core k = v.core k := by
  rw [State.stir_core, State.completed, State.core_runs, State.core_writeRecord]

theorem State.mem_writeRecord (same : v.mem = u.mem) (key : Option Nat) (d : List Byte) : (v.writeRecord key d).mem = (u.writeRecord key d).mem := by
  cases key with
  | none => exact same
  | some a => exact congrArg (fun m : SMap Byte => m.setList 0 a d) same

theorem State.mem_completed (same : v.mem = u.mem) (l : Nat) (r : Run) (o : CopyOp) (key : Option Nat) (st : Nat) :
    (v.completed l r o key st).stir.mem = (u.writeRecord key (completionRecord r.chain.seq o.idx st o.off o.fp)).mem :=
  State.mem_writeRecord same key _

theorem State.run_completed (v : State) (l : Nat) (r : Run) (o : CopyOp) (key : Option Nat) (st : Nat) :
    ((v.completed l r o key st).stir.ladle l).run = some { r with
      copies := [], bytes := r.bytes + if o.fprint then 0 else o.off
      bad := if st = 0 ∨ st = 6 then r.bad else r.failing st o.idx } := by
  rw [State.stir_ladle, State.completed, State.ladle_runs_same]

end completes

/-! ### DELIVER (R315) -/

section deliver
variable {s : State} {i : Nat} {b : Beat}

/-- The state once beat i, which is b, has left its flow, and its COPY has one beat less in flight. -/
def State.beatGone (s : State) (i : Nat) (b : Beat) : State :=
  let done := fun (r : Run) =>
    if r.chain.named b.lad b.chain then
      { r with copies := mapFirst (fun o => o.idx = b.entry && o.beats ≠ 0) (fun o => { o with beats := o.beats - 1 }) r.copies }
    else r
  { s with
    flows := s.flows.eraseIdx i
    ladles := s.ladles.map fun e => (e.1, { e.2 with run := e.2.run.map done, resume := e.2.resume.map done }) }

theorem exec_deliver (flying : s.flows[i]? = some b) (path : s.noPath b.key = false) (near : s.lostPeer b.key = false)
    (turn : b.ordered = true → ∀ x ∈ s.flows, x.ladle = b.ladle → x.dest = b.dest → 0 ≤ diff32 x.seq b.seq) :
    exec (.deliver i) s = .next ((s.beatGone i b).writeN b.key 16 b.data.toNat).stir := by
  have mayGo : (b.ordered && s.flows.any fun x => x.ladle = b.ladle && x.dest = b.dest && diff32 x.seq b.seq < 0) = false := by
    cases ordered : b.ordered with
    | false => rfl
    | true =>
      rw [Bool.true_and, List.any_eq_false]
      intro x hx
      have := turn ordered x hx
      simp only [Bool.and_eq_true, decide_eq_true_eq, not_and, Int.not_lt, and_imp]
      exact this
  refine (show _ = execDeliver i s from rfl).trans ?_
  unfold execDeliver
  rw [flying]
  dsimp only
  rw [mayGo, path, near, dropAt_eq_eraseIdx]
  rfl

end deliver

/-! ### A COPY's step, by where it writes -/

section copies
variable {s u w : State} {l : Nat} {r : Run} {o o' : CopyOp} {d : List Byte} {key : Nat}

section
variable (here : s.atCopy l r o) (copy : o.fprint = false) (more : o.issued = false) (gives : s.copyGives l r.chain o o' d u)
include here copy more gives

theorem copy_to_spad (spad : o.dw0.getLsbD 21 = true) {place : Nat}
    (at' : place = o.dst + if bits o.dw0 24 22 = 0 then o.off else swizzle o.off o.pitch (16 * 2 ^ bits o.dw0 24 22)) :
    ∃ t, exec (.copy l) s = .next t ∧ (t.ladle l).run = some { r with copies := [o.moved o' d false] } ∧ t.mem = u.mem
      ∧ ∀ k a, (t.core k).ctx.spad.get 0 a = if k = ladleCore l o.dw0 ∧ place ≤ a ∧ a < place + d.length
          then d.getD (a - place) 0 else (u.core k).ctx.spad.get 0 a := by
  have writes := writeBeat_spad (u := u) (l := l) (r := r) (d := d) spad
  rw [← at'] at writes
  refine ⟨_, exec_copy_beat here copy more (nextData_run copy gives) gives.idx writes, State.run_runs .., ?_, fun k a => ?_⟩
  · exact (State.beatCounted_frame _ r.chain).1
  · rw [State.stir_core, State.core_runs, State.spad_beatCounted, State.core_modCtxOf, ite_and]
    by_cases own : k = ladleCore l o.dw0
    · rw [if_pos own, if_pos own, own]
      exact SMap.get_setList_bytes _ _ a d
    · rw [if_neg own, if_neg own]

section
variable (tier : o.dw0.getLsbD 21 = false) (target : ladleTarget l r.chain (o.dst + o.off) (o.len - o.off) u = .ok (key, w))
include tier target

theorem copy_near (near : dieOfKey key = some (l / 32) ∨ (dieOfKey key = none ∧ tierOfKey key ≠ 3)) :
    ∃ t, exec (.copy l) s = .next t ∧ (t.ladle l).run = some { r with copies := [o.moved o' d false] } ∧ t.flows = w.flows
      ∧ ∀ a, t.mem.get 0 a = if key ≤ a ∧ a < key + d.length then d.getD (a - key) 0 else w.mem.get 0 a := by
  obtain ⟨mem, flows, -⟩ := (w.writeM key d).beatCounted_frame r.chain
  refine ⟨_, exec_copy_beat here copy more (nextData_run copy gives) gives.idx (writeBeat_near tier target near), State.run_runs .., flows, fun a => ?_⟩
  exact (congrArg (fun m : SMap Byte => m.get 0 a) mem).trans (SMap.get_setList_bytes w.mem key a d)

theorem copy_far {dest : Nat} {ordered : Bool} (far : (dieOfKey key = some dest ∧ dest ≠ l / 32 ∧ ordered = r.ordd.getLsbD dest)
      ∨ (dieOfKey key = none ∧ tierOfKey key = 3 ∧ dest = 4 + peerOfKey key ∧ ordered = r.ordp)) :
    ∃ t, exec (.copy l) s = .next t ∧ (t.ladle l).run = some { r with copies := [o.moved o' d true] } ∧ t.mem = w.mem
      ∧ t.flows = w.flows ++ [farBeat w l r o d key (u.chainWindow r.chain (o.dst + o.off)) dest ordered]
      ∧ ∀ j, t.flowSeq.get 0 j = if j = 2 ^ 20 * l + dest then w.flowSeq.get 0 (2 ^ 20 * l + dest) + 1 else w.flowSeq.get 0 j := by
  obtain ⟨mem, flows, flowSeq⟩ := State.beatCounted_frame { (w.flowNext l dest).2 with
    flows := w.flows ++ [farBeat w l r o d key (u.chainWindow r.chain (o.dst + o.off)) dest ordered] } r.chain
  refine ⟨_, exec_copy_beat here copy more (nextData_run copy gives) gives.idx (writeBeat_far tier target far), State.run_runs .., mem, flows, fun j => ?_⟩
  exact (congrArg (fun m : SMap (BitVec 32) => m.get 0 j) flowSeq).trans (SMap.get_set ..)

end

end

/-- A COPY whose beats are delivered completes: its ring's advance, then its record. -/
theorem copy_completes {key : Option Nat} {v : State} {st : Nat} (here : s.atCopy l r o) (copy : o.fprint = false) (through : o.issued = true)
    (delivered : o.beats = 0) (target : recordTarget l r.chain o.recAddr s = .ok (key, u))
    (advances : (if !o.fprint && o.status = 0 && o.dw0.getLsbD 29 then advanceRing l o.dw0 u else (o.status, u)) = (st, v)) :
    exec (.copy l) s = .next (v.completed l r o key st).stir :=
  exec_copy_complete here copy through delivered (completeOp_run here (by rw [CopyOp.mustCompare, copy]; rfl) target advances)

end copies

/-- How a COPY's end leaves the device: its ring moves where it is due and can, status 8 where it is due and cannot. -/
theorem copy_ends {s u : State} {l : Nat} {r : Run} {o : CopyOp} {key : Option Nat} (here : s.atCopy l r o) (copy : o.fprint = false)
    (through : o.issued = true) (delivered : o.beats = 0) (target : recordTarget l r.chain o.recAddr s = .ok (key, u)) :
    let k := ladleCore l o.dw0
    let q := bits o.dw0 37 34
    let ring := (u.core k).ctx.ring q
    let n := bits o.dw0 47 38 + 1
    let due := o.status = 0 ∧ o.dw0.getLsbD 29 = true
    let can := ring.init = true ∧ n ≤ ring.free
    let st := if due ∧ ¬ can then 8 else o.status
    ∃ t, exec (.copy l) s = .next t
      ∧ (t.ladle l).run = some { r with
          copies := [], bytes := r.bytes + o.off, bad := if st = 0 ∨ st = 6 then r.bad else r.failing st o.idx }
      ∧ t.mem = (u.writeRecord key (completionRecord r.chain.seq o.idx st o.off o.fp)).mem
      ∧ (t.core k).ctx.ring q = (if due ∧ can then { ring with tail := ring.tail + BitVec.ofNat 32 n } else ring)
      ∧ (∀ j, j ≠ q → (t.core k).ctx.ring j = (u.core k).ctx.ring j) ∧ (t.core k).ctx.spad = (u.core k).ctx.spad
      ∧ ∀ j, j ≠ k → t.core j = u.core j := by
  intro k q ring n due can st
  have ended (v : State) (advances : (if !o.fprint && o.status = 0 && o.dw0.getLsbD 29 then advanceRing l o.dw0 u else (o.status, u)) = (st, v)) :
      exec (.copy l) s = .next (v.completed l r o key st).stir := copy_completes here copy through delivered target advances
  have run (v : State) := State.run_completed v l r o key st
  rw [copy, if_neg Bool.false_ne_true] at run
  by_cases hdue : due
  · have test : (!o.fprint && o.status = 0 && o.dw0.getLsbD 29) = true := by rw [copy, hdue.1, hdue.2]; rfl
    rw [if_pos test] at ended
    by_cases hcan : can
    · have fine : st = 0 := (if_neg fun h => h.2 hcan).trans hdue.1
      refine ⟨_, ended (u.ringAdvanced l o.dw0) (by rw [fine]; exact advanceRing_takes hcan), run _, ?_, ?_, fun j hj => ?_, ?_, fun j hj => ?_⟩
      · exact State.mem_completed (show (u.ringAdvanced l o.dw0).mem = u.mem from rfl) ..
      · rw [if_pos ⟨hdue, hcan⟩, State.core_completed]
        exact (State.ring_ringAdvanced ..).trans (if_pos rfl)
      · rw [State.core_completed]
        exact (State.ring_ringAdvanced ..).trans (if_neg hj)
      · rw [State.core_completed]
        exact State.spad_ringAdvanced ..
      · rw [State.core_completed]
        exact State.core_ringAdvanced_ne _ hj
    · have refused : st = 8 := if_pos ⟨hdue, hcan⟩
      refine ⟨_, ended u (by rw [refused]; exact advanceRing_refuses hcan), run u, ?_, ?_, fun j _ => ?_, ?_, fun j _ => ?_⟩
      · exact State.mem_completed rfl ..
      · rw [if_neg fun h => hcan h.2, State.core_completed]
      · rw [State.core_completed]
      · rw [State.core_completed]
      · rw [State.core_completed]
  · have test : (!o.fprint && o.status = 0 && o.dw0.getLsbD 29) = false := by
      rw [copy, Bool.not_false, Bool.true_and, Bool.eq_false_iff, ne_eq, Bool.and_eq_true, decide_eq_true_eq]
      exact hdue
    have same : st = o.status := if_neg fun h => hdue h.1
    rw [if_neg (by rw [test]; exact Bool.false_ne_true)] at ended
    refine ⟨_, ended u (by rw [same]), run u, ?_, ?_, fun j _ => ?_, ?_, fun j _ => ?_⟩
    · exact State.mem_completed rfl ..
    · rw [if_neg fun h => hdue h.1, State.core_completed]
    · rw [State.core_completed]
    · rw [State.core_completed]
    · rw [State.core_completed]

/-- An FPRINT without a comparison to make completes with its record. -/
theorem fprint_ends {s u : State} {l : Nat} {r : Run} {o : CopyOp} {key : Option Nat} (here : s.atCopy l r o) (fprint : o.fprint = true)
    (through : o.issued = true) (fine : o.status = 0) (compared : o.dw0.getLsbD 19 = false ∨ o.compared = true)
    (target : recordTarget l r.chain o.recAddr s = .ok (key, u)) : exec (.fprint l) s = .next (u.completed l r o key 0).stir := by
  have made : o.mustCompare = false := by
    rw [CopyOp.mustCompare]
    obtain h | h := compared
    · rw [h, Bool.and_false, Bool.false_and]
    · rw [h, Bool.not_true, Bool.and_false]
  refine exec_fprint_step here fprint ?_
  rw [if_pos through]
  exact completeOp_run here made target (by rw [fprint, if_neg (by exact Bool.false_ne_true), fine])

/-- Settles O46: each step reads its bytes, writes them where its entry says, and leaves the ladle's run as it goes on. -/
theorem copiesComplete : Obligations.CopiesComplete := by
  unfold Obligations.CopiesComplete
  intro s l r o now
  refine ⟨?start, ?move, ?malformed, ?ends, ?fprintStart, ?fprintMove, ?fprintCompare, ?fprintEnds, ?deliver⟩
  case start =>
    intro here good o sound
    exact ⟨_, exec_copy_start here (beginOp_run here rfl good sound), .of_runs rfl rfl rfl l _⟩
  case move =>
    intro o' d u here copy more gives span moved
    have written : o.moved o' d false = moved := CopyOp.moved_written copy gives.beats d
    have flying : o.moved o' d true = { moved with beats := o.beats + 1 } := CopyOp.moved_flying copy d
    constructor
    · intro spad place
      rw [← written]
      exact copy_to_spad here copy more gives spad rfl
    · intro key w tier target
      constructor
      · intro near
        rw [← written]
        exact copy_near here copy more gives tier target near
      · intro dest ordered far
        rw [← flying]
        obtain ⟨t, goes, run, mem, flows, flowSeq⟩ := copy_far here copy more gives tier target far
        exact ⟨t, _, goes, run, mem, flows, rfl, rfl, rfl, rfl, rfl, rfl, rfl, rfl, rfl, flowSeq⟩
  case malformed =>
    intro u here copy more ends
    exact ⟨_, exec_copy_malformed here copy more (nextData_ends copy ends), rfl, rfl, State.run_runs ..⟩
  case ends =>
    intro key u here copy through delivered target
    cases key with
    | none =>
      obtain ⟨unnamed, rfl⟩ := target
      obtain ⟨t, goes, run, mem, rest⟩ := copy_ends here copy through delivered (by rw [unnamed]; exact recordTarget_zero ..)
      exact ⟨t, goes, run, mem, rest⟩
    | some a =>
      obtain ⟨named, target⟩ := target
      obtain ⟨t, goes, run, mem, rest⟩ := copy_ends here copy through delivered (recordTarget_of_ladleTarget named target)
      exact ⟨t, goes, run, mem, rest⟩
  case fprintStart =>
    intro here good o sound
    exact ⟨_, exec_fprint_start here (beginOp_run here rfl good sound), .of_runs rfl rfl rfl l _⟩
  case fprintMove =>
    intro d u here fprint more reads
    rw [← CopyOp.moved_fprint fprint d]
    exact ⟨_, exec_fprint_move here fprint more (nextData_of_reads fprint reads) rfl, rfl, rfl, State.run_runs ..⟩
  case fprintCompare =>
    intro e u here fprint through fine compares fresh reads sums
    exact ⟨_, exec_fprint_compare here fprint through fine compares fresh reads, rfl, rfl, State.run_runs ..⟩
  case fprintEnds =>
    intro key u here fprint through fine compared named target
    refine ⟨_, fprint_ends here fprint through fine compared (recordTarget_of_ladleTarget named target), ?_, State.mem_completed rfl ..⟩
    rw [State.run_completed, if_pos (.inl rfl), if_pos fprint]
    rfl
  case deliver =>
    intro i b flying path near turn
    exact ⟨_, exec_deliver flying path near turn, rfl, rfl, fun a => State.get_writeWord (s.beatGone i b) b.key 16 a b.data⟩

end Sys2Proof.Machine
end

section
/-! What the accesses to the objects of the KV store leave as it was (R150, R206, R207). -/
namespace Sys2Proof.Machine

theorem poisonIf_state {b : Bool} {key : Nat} {v : Word} {s t : State} {a : Unit} (h : poisonIf b key v s = .ok (a, t)) : t = s := by
  cases b with
  | false => cases h; rfl
  | true => cases h

theorem State.Translated.keepFills (s : State) (l : List (Nat × Nat)) : s.Translated (s.keepFills l) := by
  unfold State.keepFills
  generalize l.drop s.fills.length = marks
  suffices kept : ∀ u, s.Translated u → s.Translated (marks.foldl (fun u x => u.touchEntry x.1 x.2) u) from kept s (.refl s)
  induction marks with
  | nil => exact fun _ h => h
  | cons x r ih => exact fun u h => ih _ ((State.Translated.keeps (.loader 0) s).entry x.1 x.2 h)

/-- An act that, where it ends well, has translated and written memory, and nothing else. -/
def Translates {α : Type} (a : Act α) : Prop := ∀ ⦃s t : State⦄ ⦃v : α⦄, a s = .ok (v, t) → s.Translated t

namespace Translates
variable {α β : Type}

theorem bind {a : Act α} {f : α → Act β} (h : Translates a) (g : ∀ v, Translates (f v)) : Translates (a >>= f) := fun _ _ _ run => by
  obtain ⟨v, t, first, rest⟩ := Act.bind_eq_ok run
  exact (h first).trans (g v rest)

theorem pure (v : α) : Translates (Pure.pure v : Act α) := fun s _ _ run => by
  cases run
  exact .refl s

theorem get : Translates (MonadState.get : Act State) := fun s _ _ run => by
  cases run
  exact .refl s

theorem get_bind {f : State → Act β} (h : ∀ s t b, f s s = .ok (b, t) → s.Translated t) : Translates (MonadState.get >>= f) :=
  fun s t b run => h s t b run

theorem stop (x : Stop) : Translates (Machine.stop x : Act α) := fun _ _ _ run => by cases run

theorem ite {c : Prop} [Decidable c] {a b : Act α} (h : Translates a) (g : Translates b) : Translates (if c then a else b) := by
  split
  · exact h
  · exact g

theorem mapM {f : α → Act β} (h : ∀ a, Translates (f a)) (l : List α) : Translates (l.mapM f) := by
  induction l with
  | nil => exact .pure []
  | cons a r ih =>
    rw [List.mapM_cons]
    exact (h a).bind fun _ => ih.bind fun _ => .pure _

end Translates

namespace Kv
variable (x : Kv)

theorem translates_key (va acc n : Nat) : Translates (x.key va acc n) := .get_bind fun _ _ _ run => .of_xlateAs run

theorem translates_load (va n : Nat) : Translates (x.load va n) :=
  (x.translates_key va accRead n).bind fun key => .get_bind fun s t v run => by
    obtain ⟨_, s₁, waited, run⟩ := Act.bind_eq_ok run
    obtain ⟨_, s₂, poison, run⟩ := Act.bind_eq_ok run
    rw [poisonIf_state poison, waitIf_state waited] at run
    cases run
    exact .useReplica s _ key

theorem translates_field (va hi lo : Nat) : Translates (x.field va hi lo) := (x.translates_load va 8).bind fun _ => .pure _

theorem translates_rd (f : RecField) : Translates (x.rd f) := x.translates_field _ f.hi f.lo

theorem translates_store (va n v : Nat) : Translates (x.store va n v) :=
  (x.translates_key va accWrite n).bind fun key => .bind .get fun _ => .bind (.ite (.stop _) (.pure ())) fun _ => .bind .get fun _ =>
    .bind (.ite (.stop _) (.pure ())) fun _ s _ _ run => by
      cases run
      exact .writeN s key n v

theorem translates_wr (f : RecField) (v : Nat) : Translates (x.wr f v) := (x.translates_load _ 8).bind fun _ => x.translates_store _ 8 _

/-- What a rehearsal leaves is the marks of its translations. -/
theorem translates_rehearse {α : Type} (act : Kv → Act α) : Translates (x.rehearse act) := fun s t _ run => by
  unfold Kv.rehearse at run
  split at run <;> cases run
  · exact .keepFills s _
  · exact .keepFills s _

theorem translates_badRecord : Translates x.badRecord :=
  (x.translates_load _ 8).bind fun _ => (x.translates_load _ 8).bind fun _ => (x.translates_load _ 8).bind fun _ =>
    (x.translates_load _ 8).bind fun _ => (x.translates_load _ 8).bind fun _ => .pure _

theorem translates_badPool : Translates x.badPool :=
  (x.translates_rd fPool).bind fun _ => .ite (.pure true) ((Translates.mapM (fun _ => x.translates_load _ 8) _).bind fun _ => .pure _)

theorem translates_checkOpen (states : List Nat) : Translates (x.checkOpen states) := by
  have formed : Translates x.checkFormed :=
    x.translates_badRecord.bind fun _ => x.translates_badPool.bind fun _ => .ite (.stop _) (.pure ())
  exact formed.bind fun _ => (x.translates_rd fState).bind fun _ => .ite (.stop _) (.pure ())

theorem translates_loadData (a words : Nat) : Translates (x.loadData a words) :=
  (Translates.mapM (fun _ => (x.translates_load _ 4).bind fun _ => .pure _) _).bind fun _ => .pure _

end Kv
end Sys2Proof.Machine
end

section
/-! How a KV instruction that acts live completes: its record's page, its rehearsal, its operation, its entry of the log (R198, R206,
Table 19-7). -/
namespace Sys2Proof.Machine

/-! ### Conditions that do not hold -/

namespace Kv
variable (x : Kv) {b : Bool} (h : b = false)
include h

theorem faultIf_pass (n : Nat) (s : State) : x.faultIf b n s = .ok ((), s) := by rw [h]; rfl
theorem trapIf_pass (n : Nat) (s : State) : x.trapIf b n s = .ok ((), s) := by rw [h]; rfl
theorem waitIf_pass (s : State) : x.waitIf b s = .ok ((), s) := by rw [h]; rfl

end Kv

/-! ### The context, and the log -/

theorem translates_kvOf (ga : BitVec 5) : Translates (kvOf ga) := .bind .get fun _ => .bind (.ite (.stop _) (.pure ())) fun _ => .pure _

theorem translates_kvWritable (ga : BitVec 5) : Translates (kvWritable ga) :=
  (translates_kvOf ga).bind fun x => (x.translates_key _ _ _).bind fun _ => .pure x

theorem logEffect_access (kind : ActKind) (n : Nat) (s : State) : logEffect .A kind (BitVec.ofNat 256 n) 0 s = .ok ((), s.logAccess kind n) := rfl

theorem logEffect_access_zero (kind : ActKind) (s : State) : logEffect .A kind 0 0 s = .ok ((), s.logAccess kind 0) := logEffect_access kind 0 s

/-- An operation without a result that has been rehearsed acts, and is logged. -/
theorem logged_operation {kind : ActKind} {redo : BitVec 256 → Act Next} {x : Kv} {act : Kv → Act Unit} {s t u : State}
    (replay : s.work.replay = none) (rehearsed : x.rehearse act s = .ok ((), t)) (acts : act x t = .ok ((), u)) :
    logged .A kind redo (fun _ => do
      x.rehearse act
      act x
      logEffect .A kind 0 0
      return .seq) {} s = .ok (.seq, u.logAccess kind 0) := by
  rw [logged_live replay, Act.bind_ok rehearsed, Act.bind_ok acts, Act.bind_ok (logEffect_access_zero kind u)]
  rfl

/-- An instruction of A that needs its dependence bits alone: what its body leaves, retired. -/
theorem issueSimple_completes {i : Instr} {p : BitVec 4} {body : Act Next} {s t : State} (ready : Ready i .A p {} s = true)
    (two : instrWords i = 2) (run : body (s.issued .A p {} 2) = .ok (.seq, t)) : issueSimple i .A p body s = .next (t.retired i .A p {} .seq) :=
  issue_completes (n := fun _ => {}) rfl ready two run

/-- The work is the same after translations behind its issue. -/
theorem State.Translated.issued_work {s t : State} {p : BitVec 4} (h : (s.issued .A p {} 2).Translated t) : t.work = s.work := by
  rw [h.work, State.work_issued]

/-- KVADV, KVRWD and KVEND: an operation that acts on its open context ends the instruction. -/
theorem kvAct_completes {i : Instr} {kind : ActKind} {p : BitVec 4} {ga : BitVec 5} {act : Kv → Act Unit} {states : List Nat} {x : Kv} {s u w : State}
    (meaning : exec i s = kvAct i kind p ga act s) (ready : Ready i .A p {} s = true) (two : instrWords i = 2)
    (opens : s.opens p ga act states x u) (acts : ∀ v, x.checkOpen states v = .ok ((), u) → act x v = .ok ((), w)) :
    exec i s = .next ((w.logAccess kind 0).retired i .A p {} .seq) := by
  obtain ⟨spec, replay, t, v, writable, rehearsed, opened⟩ := opens
  have live := State.Translated.issued_work (translates_kvWritable ga writable)
  refine meaning.trans (issueSimple_completes ready two ?_)
  rw [Act.bind_ok writable, Act.bind_ok (irrevocable_run (by rw [live, spec]))]
  exact logged_operation (by rw [live, replay]) rehearsed (acts v opened)

end Sys2Proof.Machine
end

section
/-! KVW and KVRN (R210, R211). -/
namespace Sys2Proof.Machine

/-! ### KVW -/

/-- A lifetime that is not 0 and does not run past the last position passes its check (R210). -/
theorem lifetime_passes {w life : Nat} (lives : life ≠ 0) (fits : life = 0xFFFFFFFF ∨ w + life ≤ 0xFFFFFFFE) :
    (decide (life = 0) || (decide (life ≠ permanent) && decide (0xFFFFFFFE < w + life))) = false := by
  rw [decide_eq_false lives, Bool.false_or, Bool.and_eq_false_iff, decide_eq_false_iff_not, decide_eq_false_iff_not]
  exact fits.imp (fun forever => not_not.2 forever) Nat.not_lt.2

theorem kvw_completes {p : BitVec 4} {gd ga gb : BitVec 5} {imm : BitVec 18} {x : Kv} {act : Kv → Act Unit} {s t t' u : State}
    (ready : Ready (.kvw p gd ga gb imm) .A p {} s = true) (replay : s.work.replay = none) (aligned : (s.reg .A ga).toNat % 128 = 0)
    (aligned' : s.aAddr gd imm % 16 = 0) (operation : Kv.write (s.aAddr gd imm) (bits (s.reg .A gb) 31 0) (bits (s.reg .A gb) 63 32) = act)
    (writable : kvWritable ga (s.issued .A p {} 2) = .ok (x, t)) (rehearsed : x.rehearse act t = .ok ((), t')) (acts : act x t' = .ok ((), u)) :
    exec (.kvw p gd ga gb imm) s = .next ((u.logAccess .kvw 0).retired (.kvw p gd ga gb imm) .A p {} .seq) := by
  subst operation
  change execKvw p gd ga gb imm s = _
  refine issueSimple_completes ready rfl ?_
  rw [Act.bind_ok (Act.get_run _)]
  simp only [State.reg_issued, State.aAddr_issued]
  rw [Act.bind_ok (Machine.trapIf_pass (by simp [aligned, aligned']) ..), Act.bind_ok writable]
  exact logged_operation (by rw [State.Translated.issued_work (translates_kvWritable ga writable), replay]) rehearsed acts

/-! ### KVRN -/

theorem kvrn_completes {p : BitVec 4} {gd ga gb : BitVec 5} {states : List Nat} {x : Kv} {s u w : State} {n : Nat}
    (ready : Ready (.kvrn p gd ga gb) .A p {} s = true) (opens : s.opens p ga (Kv.renew (bits (s.reg .A gb) 31 0) (bits (s.reg .A gb) 63 32)) states x u)
    (acts : ∀ v, x.checkOpen states v = .ok ((), u) → Kv.renew (bits (s.reg .A gb) 31 0) (bits (s.reg .A gb) 63 32) x v = .ok (n, w)) :
    exec (.kvrn p gd ga gb) s
      = .next (((w.logAccess .kvrn n).setReg .A gd (BitVec.ofNat 64 n)).retired (.kvrn p gd ga gb) .A p {} .seq) := by
  obtain ⟨spec, replay, t, v, writable, rehearsed, opened⟩ := opens
  have live := State.Translated.issued_work (translates_kvWritable ga writable)
  change execKvrn p gd ga gb s = _
  refine issueSimple_completes ready rfl ?_
  rw [Act.bind_ok writable, Act.bind_ok (irrevocable_run (by rw [live, spec])), logged_live (by rw [live, replay])]
  rw [Act.bind_ok rehearsed, Act.bind_ok (acts v opened), Act.bind_ok (logEffect_access .kvrn n w)]
  rfl

/-- An own live entry gets another expiry, and is filed again under it. -/
def Kv.refile (x : Kv) (e : Nat) (k : KvSlot) : Act Nat := do
  let a ← x.page k.pg
  x.store (a + 0x80 + 4 * k.s) 4 e
  if e ≠ permanent then x.file e (filing e k.pg k.s (← x.load (a + 0x40 + k.s) 1))
  return 0

/-- The entry of a view that KVRN looks for, copied with another expiry. -/
def Kv.copyEntry (x : Kv) (w commit e : Nat) (l : List KvEntry) : Act Nat :=
  match l.find? fun k => k.w = w && commit ≤ k.exp with
  | none => return 1
  | some k => do
    x.addEntry fChead fCtail w e (← x.loadData k.addr (← x.rd fEw))
    return 0

section renew
variable {x : Kv} {w e commit : Nat} {s u u1 u2 u3 t : State} (opened : x.checkOpen [1] s = .ok ((), u))
  (committed : x.rd fCommit u = .ok (commit, u1)) (valid : commit ≤ e)
include opened committed valid

/-- KVRN of an own live entry. -/
theorem Kv.renew_own {y : KvSlot} {kids lfp : Nat} (found : x.find w commit u1 = .ok (some y, u2)) (children : x.rd fKids u2 = .ok (kids, u3))
    (last : x.rd fLfp u3 = .ok (lfp, t)) :
    Kv.renew w e x s = if kids ≠ 0 ∧ w ≤ lfp then .ok (2, t) else if e = y.exp then .ok (0, t) else x.refile e y t := by
  unfold Kv.renew
  rw [Act.bind_ok opened, Act.bind_ok committed, Act.bind_ok (x.faultIf_pass (decide_eq_false (Nat.not_lt.2 valid)) ..), Act.bind_ok found]
  dsimp only
  rw [Act.bind_ok children, Act.bind_ok last]
  simp only [Bool.and_eq_true, decide_eq_true_eq]
  split
  · rfl
  · split <;> rfl

/-- KVRN where the context has no such entry. -/
theorem Kv.renew_parent {parent f : Nat} (none : x.find w commit u1 = .ok (none, u2)) (above : x.rd fParent u2 = .ok (parent, u3))
    (fork : x.rd fForkpos u3 = .ok (f, t)) :
    Kv.renew w e x s = if parent = 0 ∨ f < w then .ok (1, t)
      else (Kv.view { x with va := parent } 65536 >>= fun v => x.copyEntry w commit e v.1) t := by
  unfold Kv.renew
  rw [Act.bind_ok opened, Act.bind_ok committed, Act.bind_ok (x.faultIf_pass (decide_eq_false (Nat.not_lt.2 valid)) ..), Act.bind_ok none]
  dsimp only
  rw [Act.bind_ok above, Act.bind_ok fork]
  simp only [Bool.or_eq_true, decide_eq_true_eq]
  split <;> rfl

end renew

/-- Settles O30: each instruction's operation meets, one after the other, the reads and writes that the statement names. -/
theorem kvWritesComplete : Obligations.KvWritesComplete := by
  unfold Obligations.KvWritesComplete
  constructor
  · intro s t t' u1 u2 u3 u4 u5 u6 u7 u8 p gd ga gb imm x ew commit rwb hd a w life ready replay aligned aligned' writable rehearsed opened width
      inside committed head above new bound within lives fits added moved counted
    refine kvw_completes ready replay aligned aligned' rfl writable rehearsed ?_
    have position : (decide (w < commit) || decide ((w : Int) ≤ hd)) = false := by simp [above, new]
    change Kv.write a w life x t' = _
    unfold Kv.write
    rw [Act.bind_ok opened, Act.bind_ok width, Act.bind_ok (x.trapIf_pass (inScratchpad inside) ..), Act.bind_ok committed, Act.bind_ok head,
      Act.bind_ok (x.faultIf_pass position ..), Act.bind_ok bound, Act.bind_ok (x.faultIf_pass (decide_eq_false (Nat.not_le.2 within)) ..),
      Act.bind_ok (x.faultIf_pass (lifetime_passes lives fits) ..), Act.bind_ok (Act.get_run u5)]
    refine (Act.bind_ok added).trans ?_
    rw [Act.bind_ok moved, counted]
  · intro s u u1 u2 u3 p gd ga gb x commit k w e done ready opens committed valid found
    have ends : ∀ {n t}, (∀ v, x.checkOpen [1] v = .ok ((), u) → Kv.renew w e x v = .ok (n, t)) → done t n := kvrn_completes ready opens
    constructor
    · rintro kids lfp y u4 t rfl children last
      have own := fun v opened => Kv.renew_own (s := v) (e := e) opened committed valid found children last
      refine ⟨fun seen below => ends fun v opened => ?_, fun free same => ends fun v opened => ?_, fun a u5 u6 free differs page stored =>
        ⟨fun forever => ends fun v opened => ?_, fun g u7 dies loaded filed => ends fun v opened => ?_⟩⟩
      · rw [own v opened, if_pos ⟨seen, below⟩]
      · rw [own v opened, if_neg (by omega), if_pos same]
      · rw [own v opened, if_neg (by omega), if_neg differs, Kv.refile, Act.bind_ok page, Act.bind_ok stored,
          if_neg (not_not.2 (show e = permanent from forever))]
        rfl
      · rw [own v opened, if_neg (by omega), if_neg differs, Kv.refile, Act.bind_ok page, Act.bind_ok stored,
          if_pos (show e ≠ permanent from dies), Act.bind_ok loaded]
        exact Act.bind_ok filed
    · rintro parent f t rfl above fork
      have parents := fun v opened => Kv.renew_parent (s := v) (e := e) opened committed valid found above fork
      refine ⟨fun none => ends fun v opened => ?_, fun l y d ew u4 u5 u6 u7 some below view =>
        ⟨fun none => ends fun v opened => ?_, fun there width data added => ends fun v opened => ?_⟩⟩
      · rw [parents v opened, if_pos none]
      · rw [parents v opened, if_neg (by omega), Act.bind_ok view, Kv.copyEntry, none]
        rfl
      · rw [parents v opened, if_neg (by omega), Act.bind_ok view, Kv.copyEntry, there]
        dsimp only
        rw [Act.bind_ok width, Act.bind_ok data, Act.bind_ok added]
        rfl

end Sys2Proof.Machine
end

section
/-! KVADV, KVRWD and the drains of the shakeout engines (R212 to R214). -/
namespace Sys2Proof.Machine

/-! ### KVADV and KVRWD -/

/-- The executing core is the same one throughout an operation's accesses. -/
theorem State.opens_cur {α : Type} {s u : State} {p : BitVec 4} {ga : BitVec 5} {act : Kv → Act α} {states : List Nat} {x : Kv}
    (h : s.opens p ga act states x u) : u.cur = s.cur := by
  obtain ⟨-, -, t, v, writable, rehearsed, opened⟩ := h
  rw [(x.translates_checkOpen states opened).cur, (x.translates_rehearse act rehearsed).cur, (translates_kvWritable ga writable).cur, State.issued_cur]

section operations
variable {x : Kv} {commit : Nat} {s u u1 : State} (opened : x.checkOpen [1] s = .ok ((), u)) (committed : x.rd fCommit u = .ok (commit, u1))
include opened committed

theorem Kv.advance_same : Kv.advance commit x s = .ok ((), u1) := by
  unfold Kv.advance
  rw [Act.bind_ok opened, Act.bind_ok committed, Act.bind_ok (x.faultIf_pass (decide_eq_false (Nat.lt_irrefl commit)) ..), if_neg (Nat.lt_irrefl commit)]
  rfl

theorem Kv.advance_further {c d pool key : Nat} {u2 u3 u4 u5 : State} (further : commit < c) (die : x.rd fSdie u1 = .ok (d, u2))
    (room : (u2.die d).drains.length < 4096) (names : x.rd fPool u2 = .ok (pool, u3)) (located : x.key pool accRead 64 u3 = .ok (key, u4))
    (written : x.wr fCommit c u4 = .ok ((), u5)) :
    Kv.advance c x s = .ok ((), u5.modDie d fun y => { y with drains := y.drains ++
      [{ ctx := x.va, lo := commit, hi := c, part := x.part, asid := x.asid, core := u5.cur % 1024, pool := key }] }) := by
  have waits : decide (drainLimit ≤ (u2.die d).drains.length) = false := decide_eq_false (Nat.not_le.2 room)
  unfold Kv.advance
  rw [Act.bind_ok opened, Act.bind_ok committed, Act.bind_ok (x.faultIf_pass (decide_eq_false (by omega)) ..), if_pos further, Act.bind_ok die,
    Act.bind_ok (Act.get_run u2), Act.bind_ok (x.waitIf_pass waits u2), Act.bind_ok names, Act.bind_ok located, Act.bind_ok written]
  rfl

theorem Kv.rewindTo_above {h : Nat} {hd : Int} {u2 : State} (from_ : commit ≤ h) (head : x.hd u1 = .ok (hd, u2)) (above : hd ≤ h) :
    Kv.rewindTo h x s = .ok ((), u2) := by
  unfold Kv.rewindTo
  rw [Act.bind_ok opened, Act.bind_ok committed, Act.bind_ok (x.faultIf_pass (decide_eq_false (by omega)) ..), Act.bind_ok head, if_neg (by omega)]
  rfl

theorem Kv.rewindTo_below {h : Nat} {hd : Int} {u2 u3 u4 u5 : State} (from_ : commit ≤ h) (head : x.hd u1 = .ok (hd, u2)) (below : (h : Int) < hd)
    (still : x.rd fPin u2 = .ok (0, u3)) (left : x.rewind h (2 ^ 32) u3 = .ok ((), u4)) (moved : x.wr fHead h u4 = .ok ((), u5)) :
    Kv.rewindTo h x s = .ok ((), u5) := by
  unfold Kv.rewindTo
  rw [Act.bind_ok opened, Act.bind_ok committed, Act.bind_ok (x.faultIf_pass (decide_eq_false (by omega)) ..), Act.bind_ok head, if_pos below,
    Act.bind_ok still, Act.bind_ok (x.waitIf_pass (b := decide (0 ≠ 0)) rfl u3), Act.bind_ok left, moved]

end operations

/-! ### The turn of a drain -/

/-- The requests of a die once the first has taken a step: its new progress, or nothing more of it. -/
def drainsAfter (x : Option Drain) (l : List Drain) : List Drain :=
  match x with
  | some q => setAt l 0 fun _ => q
  | none => dropAt l 0

/-- The first request of a die, not halted, takes the turn when its step is done. -/
theorem exec_shakeoutDrain {s t : State} {d : Nat} {q : Drain} {r : List Drain} {x : Option Drain} (queue : (s.die d).drains = q :: r)
    (goes : q.halted = false) (steps : drainStep d q s = .ok (x, t)) :
    exec (.shakeoutDrain d) s = .next (t.modDie d fun y => { y with drains := drainsAfter x y.drains }).stir := by
  have turn : s.drainTurn d 0 q = some (t.modDie d fun y => { y with drains := drainsAfter x y.drains }).stir := by
    unfold State.drainTurn
    rw [steps]
    cases x <;> rfl
  change execShakeoutDrain d s = _
  unfold execShakeoutDrain
  simp only [queue, List.zipIdx_cons, List.findSome?_cons, goes, heldBack, List.take_zero, List.any_nil, Bool.or_self, Bool.false_eq_true, if_false,
    turn, Option.getD_some]

/-! ### The step of a drain (R213) -/

/-- The context of a request, as the shakeout engine of die d acts on it. -/
def Drain.kv (q : Drain) (d : Nat) : Kv := { cl := .shakeout d, part := q.part, asid := q.asid, va := q.ctx, core := false }

/-- A step at record r, at place i of block b of the request's slot. -/
def Kv.drainRecord (x : Kv) (q : Drain) (r b i : Nat) : Act (Option Drain) := do
  let q := { q with block := some b, doneRecs := i + 1 }
  if ← x.stale r then
    x.count fNstale 1
    return some q
  else if fieldOf r 63 32 ≤ q.lo then
    if (← x.rd fKids) ≠ 0
        && decide ((← x.load ((← x.page (fieldOf r 31 8)) + 0x180 + 4 * fieldOf r 7 2) 4) ≤ (← x.rd fLfp)) then x.hold r
    else x.reclaim r
    return some q
  else
    x.count fNlap 1
    return some { q with kept := q.kept ++ [r] }

/-- A step past the last record of the slot with head h. -/
def Kv.endSlot (x : Kv) (q : Drain) (h : Nat) : Act (Option Drain) := do
  x.pack h (← x.blocksFrom (2 ^ 32) (← x.field h 31 0)) q.kept
  x.wr fDrained (q.lo + 1)
  return if q.lo + 1 < q.hi then some { q with lo := q.lo + 1, block := none, doneRecs := 0, kept := [] } else none

theorem drainStep_closed {d st : Nat} {q : Drain} {s u : State} (state : (q.kv d).rd fState s = .ok (st, u)) (closed : st = 0 ∨ st = 3) :
    drainStep d q s = .ok (none, u) := by
  unfold drainStep
  rw [← Drain.kv, Act.bind_ok state, if_pos (by simpa using closed)]
  rfl

/-- A drain of a context in which no gather is in flight comes to a record of its slot, or past the last one. -/
theorem drainStep_open {d st h b : Nat} {q : Drain} {y : Option (Nat × Nat × Nat)} {s u1 u2 u3 u4 u5 : State}
    (state : (q.kv d).rd fState s = .ok (st, u1)) (notClosed : st ≠ 0) (notBroken : st ≠ 3) (still : (q.kv d).rd fPin u1 = .ok (0, u2))
    (slot : (q.kv d).slotHead q.lo u2 = .ok (h, u3))
    (block : q.block.elim ((q.kv d).field h 31 0 u3 = .ok (b, u4)) fun c => b = c ∧ u4 = u3)
    (record : (q.kv d).recordAt (2 ^ 32) b q.doneRecs u4 = .ok (y, u5)) :
    drainStep d q s = (y.elim ((q.kv d).endSlot q h) fun e => (q.kv d).drainRecord q e.1 e.2.1 e.2.2) u5 := by
  unfold drainStep
  rw [← Drain.kv, Act.bind_ok state, if_neg (by simp [notClosed, notBroken]), Act.bind_ok still,
    Act.bind_ok (show waitIf (decide (0 ≠ 0)) .memory u2 = .ok ((), u2) from rfl), Act.bind_ok slot]
  have from_ : ∀ {next : Nat → Act (Option Drain)}, (match q.block with
      | some c => pure c >>= next
      | none => (q.kv d).field h 31 0 >>= next) u3 = next b u4 := by
    intro next
    cases begun : q.block with
    | none =>
      rw [begun] at block
      exact Act.bind_ok block
    | some c =>
      rw [begun] at block
      obtain ⟨rfl, rfl⟩ := block
      rfl
  refine from_.trans ((Act.bind_ok record).trans ?_)
  cases y <;> rfl

/-- Settles O31: each operation and each step by the reads that the statement names, one after the other. -/
theorem kvPositionsComplete : Obligations.KvPositionsComplete := by
  unfold Obligations.KvPositionsComplete
  refine ⟨?advance, ?rewind, ?turn, ?step⟩
  case advance =>
    intro s u u1 p ga gb x commit c done ready opens committed
    have ends : ∀ {t}, (∀ v, x.checkOpen [1] v = .ok ((), u) → Kv.advance c x v = .ok ((), t)) → done t := kvAct_completes rfl ready rfl opens
    constructor
    · intro same
      exact ends fun v opened => same ▸ Kv.advance_same opened committed
    · intro d u2 pool u3 key u4 u5 further die room names located written
      have cur : u5.cur = s.cur := by
        rw [(x.translates_wr _ _ written).cur, (x.translates_key _ _ _ located).cur, (x.translates_rd _ names).cur, (x.translates_rd _ die).cur,
          (x.translates_rd _ committed).cur, State.opens_cur opens]
      rw [← cur]
      exact ends fun v opened => Kv.advance_further opened committed further die room names located written
  case rewind =>
    intro s u u1 u2 p ga gb x commit hd h done ready opens committed from_ head
    have ends : ∀ {t}, (∀ v, x.checkOpen [1] v = .ok ((), u) → Kv.rewindTo h x v = .ok ((), t)) → done t := kvAct_completes rfl ready rfl opens
    exact ⟨fun above => ends fun v opened => Kv.rewindTo_above opened committed from_ head above, fun u3 u4 u5 below still left moved =>
      ends fun v opened => Kv.rewindTo_below opened committed from_ head below still left moved⟩
  case turn =>
    intro s t d q r x queue goes steps same
    refine ⟨_, exec_shakeoutDrain queue goes steps, rfl, ?_⟩
    change ((t.modDie d fun y => { y with drains := drainsAfter x y.drains }).die d).drains = _
    rw [State.die_modDie_same, same, queue]
    cases x <;> rfl
  case step =>
    intro s d q x
    refine ⟨fun st u state closed => drainStep_closed state closed, fun st h b y u1 u2 u3 u4 u5 state notClosed notBroken still slot block record => ?_⟩
    have steps := drainStep_open state notClosed notBroken still slot (by revert block; cases q.block <;> exact id) record
    constructor
    · rintro r c i rfl q'
      refine ⟨fun u6 v stale counted => ?_, fun u6 v fresh later counted => ?_, fun kids a w lfp u6 u7 u8 u9 u10 v fresh expired children page loaded last
        filed => ?_⟩
      all_goals refine steps.trans ?_
      · refine (Act.bind_ok stale).trans ?_
        rw [if_pos rfl]
        exact Act.bind_ok counted
      · refine (Act.bind_ok fresh).trans ?_
        rw [if_neg (by exact Bool.false_ne_true), if_neg (Nat.not_le.2 later)]
        exact Act.bind_ok counted
      · refine (Act.bind_ok fresh).trans ?_
        rw [if_neg (by exact Bool.false_ne_true), if_pos expired]
        refine (Act.bind_ok children).trans ((Act.bind_ok page).trans ((Act.bind_ok loaded).trans ((Act.bind_ok last).trans ?_)))
        simp only [Bool.and_eq_true, decide_eq_true_eq]
        split at filed
        next seen =>
          rw [if_pos seen]
          exact Act.bind_ok filed
        next unseen =>
          rw [if_neg unseen]
          exact Act.bind_ok filed
    · rintro c l u6 u7 u8 v rfl chain blocks packed moved
      exact steps.trans ((Act.bind_ok chain).trans ((Act.bind_ok blocks).trans ((Act.bind_ok packed).trans ((Act.bind_ok moved).trans rfl))))

end Sys2Proof.Machine
end

section
/-! KVFORK and KVEND (R208, R209). -/
namespace Sys2Proof.Machine

/-! ### KVFORK -/

/-- What KVFORK asks of the parent y of a context x, beside its state (R208). -/
def Kv.mayParent (x y : Kv) : Act Bool := do
  let c ← y.rd fCommit
  let d ← y.rd fDepth
  let w ← y.rd fEw
  let w' ← x.rd fEw
  let k ← y.rd fKw
  let k' ← x.rd fKw
  return decide (c ≠ 0 ∧ d < 8 ∧ w = w' ∧ k = k')

/-- What KVFORK writes of a context x and of its parent y. -/
def Kv.forkFrom (x y : Kv) (pva : Nat) : Act Unit := do
  let c ← y.rd fCommit
  x.wr fParent pva
  x.wr fForkpos (c - 1)
  x.wr fDepth ((← y.rd fDepth) + 1)
  x.wr fCommit (c - 1 + 1)
  x.wr fHead (c - 1)
  x.wr fDrained (c - 1 + 1)
  y.count fKids 1
  y.wr fLfp (max (← y.rd fLfp) (c - 1))
  x.wr fState 1

/-- The state with one more open context. -/
def State.withOpen (s : State) (x : Kv) : State := { s with kvOpen := s.kvOpen ++ [(x.part, x.asid, x.va)] }

theorem Kv.fork_root {x : Kv} {s u v : State} (sound : x.wellFormed s = .ok (true, u)) (room : u.kvOpen.length < 65536)
    (opened : x.wr fState 1 u = .ok ((), v)) : Kv.fork 0 x s = .ok ((), v.withOpen x) := by
  have limit : decide (openLimit ≤ u.kvOpen.length) = false := decide_eq_false (Nat.not_le.2 room)
  unfold Kv.fork
  rw [Act.bind_ok sound]
  dsimp only
  rw [if_neg (by decide), if_neg (by decide), Act.bind_ok (Act.get_run u), Act.bind_ok (x.faultIf_pass limit _ u), if_neg (by decide), Act.bind_ok opened]
  rfl

theorem Kv.fork_child {x y : Kv} {pva : Nat} {s u1 u2 u3 v : State} (there : pva ≠ 0) (parent : y = { x with va := pva })
    (sound : x.wellFormed s = .ok (true, u1)) (live : y.checkOpen [1] u1 = .ok ((), u2)) (may : x.mayParent y u2 = .ok (true, u3))
    (room : u3.kvOpen.length < 65536) (forks : x.forkFrom y pva u3 = .ok ((), v)) : Kv.fork pva x s = .ok ((), v.withOpen x) := by
  subst parent
  have limit : decide (openLimit ≤ u3.kvOpen.length) = false := decide_eq_false (Nat.not_le.2 room)
  unfold Kv.mayParent at may
  obtain ⟨c, v1, commit, may⟩ := Act.bind_eq_ok may
  obtain ⟨d, v2, depth, may⟩ := Act.bind_eq_ok may
  obtain ⟨w, v3, width, may⟩ := Act.bind_eq_ok may
  obtain ⟨w', v4, width', may⟩ := Act.bind_eq_ok may
  obtain ⟨k, v5, keys, may⟩ := Act.bind_eq_ok may
  obtain ⟨k', v6, keys', may⟩ := Act.bind_eq_ok may
  unfold Kv.fork
  rw [Act.bind_ok sound]
  dsimp only
  rw [if_neg (by decide), if_pos there, Act.bind_ok live]
  rw [Act.bind_ok commit, Act.bind_ok depth, Act.bind_ok width, Act.bind_ok width', Act.bind_ok keys, Act.bind_ok keys']
  obtain ⟨asked, rfl⟩ := Prod.mk.inj (Except.ok.inj may)
  obtain ⟨below, shallow, same, same'⟩ := of_decide_eq_true asked
  have allowed : (decide (c = 0) || decide (8 ≤ d) || decide (w ≠ w') || decide (k ≠ k')) = false := by simp [below, shallow, same, same']
  rw [Act.bind_ok (x.faultIf_pass allowed _ v6), Act.bind_ok (Act.get_run v6), Act.bind_ok (x.faultIf_pass limit _ v6), if_pos there]
  have tail : (x.forkFrom { x with va := pva } pva >>= fun _ => x.opened) v6 = .ok ((), v.withOpen x) := Act.bind_ok forks
  unfold Kv.forkFrom at tail
  simp only [bind_assoc] at tail
  exact tail

/-- The location of the parent's record, of a context that has a parent. -/
def Kv.parentKey (x : Kv) (pva : Nat) : Act Unit :=
  if pva ≠ 0 then do
    let _ ← Kv.key { x with va := pva } pva accWrite 128
  else return ()

theorem Kv.translates_parentKey (x : Kv) (pva : Nat) : Translates (x.parentKey pva) :=
  .ite ((Kv.translates_key _ pva accWrite 128).bind fun _ => .pure ()) (.pure ())

theorem kvfork_completes {p : BitVec 4} {ga gb : BitVec 5} {x : Kv} {s t t' t'' u : State} (ready : Ready (.kvfork p ga gb) .A p {} s = true)
    (spec : s.work.spec = false) (replay : s.work.replay = none) (aligned : (s.reg .A ga).toNat % 128 = 0)
    (aligned' : (s.reg .A gb).toNat % 128 = 0) (writable : kvWritable ga (s.issued .A p {} 2) = .ok (x, t))
    (located : x.parentKey (s.reg .A gb).toNat t = .ok ((), t')) (rehearsed : x.rehearse (Kv.fork (s.reg .A gb).toNat) t' = .ok ((), t''))
    (acts : Kv.fork (s.reg .A gb).toNat x t'' = .ok ((), u)) :
    exec (.kvfork p ga gb) s = .next ((u.logAccess .kvfork 0).retired (.kvfork p ga gb) .A p {} .seq) := by
  have live : t'.work = s.work :=
    State.Translated.issued_work ((translates_kvWritable ga writable).trans (x.translates_parentKey _ located))
  have goes : irrevocable t' = .ok ((), t') := irrevocable_run (by rw [live, spec])
  have ends := logged_operation (kind := .kvfork) (redo := fun _ => pure .seq) (by rw [live, replay]) rehearsed acts
  change execKvfork p ga gb s = _
  refine issueSimple_completes ready rfl ?_
  rw [Act.bind_ok (Machine.trapIf_pass (by simp [aligned, aligned']) ..), Act.bind_ok writable]
  unfold Kv.parentKey at located
  split at located
  next there =>
    obtain ⟨key, v, at_, rest⟩ := Act.bind_eq_ok located
    cases rest
    rw [if_pos there, Act.bind_ok at_]
    exact (Act.bind_ok goes).trans ends
  next none =>
    cases located
    rw [if_neg none]
    exact (Act.bind_ok goes).trans ends

/-! ### KVEND -/

/-- KVEND of an open context with children makes it a zombie; any other ends. -/
theorem Kv.finish_run {x : Kv} {st kids : Nat} {s u u1 u2 u3 : State} (opened : x.checkOpen [1, 3] s = .ok ((), u))
    (still : x.rd fPin u = .ok (0, u1)) (state : x.rd fState u1 = .ok (st, u2)) (children : x.rd fKids u2 = .ok (kids, u3)) :
    Kv.finish x s = (if st = 1 ∧ kids ≠ 0 then x.wr fState 2 else x.endNow 65536) u3 := by
  unfold Kv.finish
  rw [Act.bind_ok opened, Act.bind_ok still, Act.bind_ok (x.waitIf_pass (b := decide (0 ≠ 0)) rfl u1), Act.bind_ok state, Act.bind_ok children]
  simp only [Bool.and_eq_true, decide_eq_true_eq]
  rfl

/-- Settles O32: a fork by what its parent's record allows, an end by whether the context has children. -/
theorem kvForkAndEndComplete : Obligations.KvForkAndEndComplete := by
  unfold Obligations.KvForkAndEndComplete
  constructor
  · intro s t t' u u1 p ga gb x pva y done ready spec replay aligned aligned' writable
    constructor
    · intro root rehearsed sound room opened
      have located : x.parentKey pva t = .ok ((), t) := by rw [Kv.parentKey, if_neg (not_not.2 root)]; rfl
      refine kvfork_completes ready spec replay aligned aligned' writable located rehearsed ?_
      change Kv.fork pva x t' = _
      rw [root]
      exact Kv.fork_root sound room opened
    · intro k u2 u3 u4 u5 there key rehearsed sound live may room forks
      have located : x.parentKey pva t = .ok ((), u2) := by rw [Kv.parentKey, if_pos there]; exact Act.bind_ok key
      exact kvfork_completes ready spec replay aligned aligned' writable located rehearsed (Kv.fork_child there rfl sound live may room forks)
  · intro s u u1 u2 u3 v p ga x st kids done ready opens still state children
    have ends : (∀ w, x.checkOpen [1, 3] w = .ok ((), u) → Kv.finish x w = .ok ((), v)) → done := kvAct_completes rfl ready rfl opens
    refine ⟨fun open_ parent written => ends fun w opened => ?_, fun ending ended => ends fun w opened => ?_⟩
    · rw [Kv.finish_run opened still state children, if_pos ⟨open_, parent⟩, written]
    · rw [Kv.finish_run opened still state children, if_neg (by omega), ended]

end Sys2Proof.Machine
end

section
/-! KVGATH, KVSTAT and KVSTAT.drain, as far as no group is placed (R215 to R217). -/
namespace Sys2Proof.Machine

theorem State.Translated.ring {s u : State} (h : s.Translated u) (r : Nat) : u.ctx.ring r = s.ctx.ring r := by
  rw [State.ctx, h.curCore.ctx]
  rfl

/-! ### KVSTAT -/

theorem kvstat_completes {p : BitVec 4} {gd ga : BitVec 5} {n : BitVec 4} {x : Kv} {v : Nat} {s t u : State}
    (ready : Ready (.kvstat p gd ga n) .A p {} s = true) (names : kvOf ga (s.issued .A p {} 2) = .ok (x, t))
    (loaded : x.load (x.va + 8 * n.toNat) 8 t = .ok (v, u)) :
    exec (.kvstat p gd ga n) s = .next ((u.setReg .A gd (BitVec.ofNat 64 v)).retired (.kvstat p gd ga n) .A p {} .seq) := by
  change execKvstat p gd ga n s = _
  refine issueSimple_completes ready rfl ?_
  rw [Act.bind_ok names, Act.bind_ok loaded]
  rfl

theorem kvstatDrain_completes {p : BitVec 4} {gd ga : BitVec 5} {x : Kv} {c w v : Nat} {s t u u1 u2 u3 : State}
    (ready : Ready (.kvstatDrain p gd ga) .A p {} s = true) (names : kvOf ga (s.issued .A p {} 2) = .ok (x, t))
    (drained : x.rd fDrained t = .ok (c, u)) (committed : x.rd fCommit u = .ok (c, u1)) (state : x.rd fState u1 = .ok (w, u2))
    (loaded : x.load (x.va + 80) 8 u2 = .ok (v, u3)) :
    exec (.kvstatDrain p gd ga) s = .next ((u3.setReg .A gd (BitVec.ofNat 64 v)).retired (.kvstatDrain p gd ga) .A p {} .seq) := by
  change execKvstatDrain p gd ga s = _
  refine issueSimple_completes ready rfl ?_
  rw [Act.bind_ok names, Act.bind_ok (Act.get_run t), Act.bind_ok drained, Act.bind_ok committed, Act.bind_ok state]
  simp only [ne_eq, not_true_eq_false, decide_false, Bool.false_and]
  rw [Act.bind_ok (Act.waitIf_false ..), Act.bind_ok loaded]
  rfl

/-! ### A gather of nothing -/

/-- The selection where no entry is live at the position: nothing is pinned, and no entry named. -/
theorem Kv.select_none {x : Kv} {key val pos kw ew commit : Nat} {l : List KvEntry × List Nat} {s u u1 u2 u3 u4 : State}
    (opened : x.checkOpen [1] s = .ok ((), u)) (keys : x.rd fKw u = .ok (kw, u1)) (width : x.rd fEw u1 = .ok (ew, u2))
    (keySlot : 256 * kw ≤ (u2.ctx.ring key).slot) (valueSlot : 256 * (ew - kw) ≤ (u2.ctx.ring val).slot)
    (committed : x.rd fCommit u2 = .ok (commit, u3)) (above : commit ≤ pos) (seen : x.view 65536 u3 = .ok (l, u4))
    (none : ∀ e ∈ l.1, ¬ (e.w ≤ pos ∧ pos ≤ e.exp)) : Kv.select key val pos x s = .ok ([0, kw, ew, l.2.length] ++ l.2, u4) := by
  have slots : (decide ((u2.ctx.ring key).slot < 256 * kw) || decide ((u2.ctx.ring val).slot < 256 * (ew - kw))) = false := by
    simp [keySlot, valueSlot]
  have empty : (l.1.filter fun e => decide (e.w ≤ pos) && decide (pos ≤ e.exp)) = [] :=
    List.filter_eq_nil_iff.2 fun e he => by simpa using none e he
  unfold Kv.select
  rw [Act.bind_ok opened, Act.bind_ok keys, Act.bind_ok width, Act.bind_ok (Act.get_run u2),
    Act.bind_ok (x.trapIf_pass slots ..), Act.bind_ok committed, Act.bind_ok (x.faultIf_pass (decide_eq_false (Nat.not_lt.2 above)) ..)]
  refine (Act.bind_ok seen).trans ?_
  simp only [empty, List.foldr_nil]
  cases x.dry <;> simp

/-- The checks of a gather's rings, before any wait. -/
theorem gatherRings_pass {s : State} {rings : List Nat} {pp : BitVec 1} {pr : BitVec 4} (init : ∀ r ∈ rings, (s.ctx.ring r).init = true)
    (position : pp = 1 → 256 ≤ (s.ctx.ring pr.toNat).slot) :
    (rings.any (fun r => !(s.ctx.ring r).init) || (decide (pp = 1) && decide ((s.ctx.ring pr.toNat).slot < 256))) = false := by
  simpa using ⟨init, position⟩

/-- The address of a context that an instruction has named is aligned. -/
theorem aligned_of_kvOf {ga : BitVec 5} {x : Kv} {s t : State} (h : kvOf ga s = .ok (x, t)) : (s.reg .A ga).toNat % 128 = 0 := by
  unfold kvOf at h
  rw [Act.bind_ok (Act.get_run s)] at h
  obtain ⟨_, _, passed, -⟩ := Act.bind_eq_ok h
  by_contra off
  rw [decide_eq_true off] at passed
  cases passed

theorem kvOf_of_aligned {ga : BitVec 5} {s : State} (aligned : (s.reg .A ga).toNat % 128 = 0) : ∃ x, kvOf ga s = .ok (x, s) := by
  unfold kvOf
  rw [Act.bind_ok (Act.get_run s), Act.bind_ok (Machine.trapIf_pass (by simp [aligned]) ..)]
  exact ⟨_, rfl⟩

section gather
variable {p : BitVec 4} {gd ga gb q : BitVec 5} {vr : BitVec 4} {pp : BitVec 1} {pr : BitVec 4}

/-- A gather that selects nothing completes as it issues. -/
theorem kvgath_nothing {x : Kv} {s t t' u : State} {data : List Nat} (ready : Ready (.kvgath p gd ga gb q vr pp pr) .A p {} s = true)
    (writable : kvWritable ga (s.issued .A p {} 2) = .ok (x, t))
    (rehearsed : x.rehearse (Kv.select (q.toNat - 16) vr.toNat (bits (s.reg .A gb) 31 0)) t = .ok ((), t'))
    (init : ∀ r ∈ gatherRings q vr pp pr, (s.ctx.ring r).init = true) (position : pp = 1 → 256 ≤ (s.ctx.ring pr.toNat).slot)
    (selects : Kv.select (q.toNat - 16) vr.toNat (bits (s.reg .A gb) 31 0) x t' = .ok (data, u)) (none : data.headD 0 = 0) :
    exec (.kvgath p gd ga gb q vr pp pr) s = .next ((u.setReg .A gd 0).retired (.kvgath p gd ga gb q vr pp pr) .A p {} .seq) := by
  obtain ⟨y, names⟩ : ∃ y, kvOf ga s = .ok (y, s) := by
    obtain ⟨_, _, named, -⟩ := Act.bind_eq_ok writable
    exact kvOf_of_aligned (by rw [← State.reg_issued s .A .A p {} 2]; exact aligned_of_kvOf named)
  have checks := Machine.trapIf_pass (gatherRings_pass init position) 6 5 0 s
  refine (issue_ready (n := fun _ => {}) (x := ((), s)) ready ?checks).trans ?_
  case checks =>
    rw [Act.bind_ok (Act.get_run s), Act.bind_ok names]
    exact checks
  rw [show instrWords (.kvgath p gd ga gb q vr pp pr) = 2 from rfl, Act.bind_ok (Act.get_run _), if_pos rfl, Act.bind_ok writable,
    State.reg_issued, Act.bind_ok rehearsed, Act.bind_ok selects, if_pos none]
  rfl

/-! ### Granules of a turn -/

/-- With no granule left, a turn does none. -/
theorem granules_past {n i : Nat} (past : n ≤ i) (pr : Prog) (act : Nat → Act Unit) (f : Nat) (s : State) :
    granules n pr act f i s = .ok (.seq, s) := by
  cases f with
  | zero => exact congrArg (fun x => Except.ok (x, s)) (if_pos past)
  | succ f => exact if_pos past

/-- A turn that may do one granule does it, and stops there unless it was the last. -/
theorem granules_one {n i : Nat} {pr : Prog} {act : Nat → Act Unit} {s t : State} (more : i < n) (acts : act i s = .ok ((), t)) :
    granules n pr act 1 i s = .ok (if n ≤ i + 1 then .seq else .more { pr with stage := 1, count := i + 1, soft := true }, t) := by
  unfold granules
  rw [if_neg (Nat.not_le.2 more), acts]
  rfl

/-! ### A gather in progress -/

/-- The context at a, as the executing core's access engine acts on it. -/
def State.kvHere (s : State) (a : Nat) : Kv := { cl := .coreA s.cur, part := s.work.part, asid := s.work.asid, va := a, core := true }

/-- The contexts that a gather has pinned, and the entries of its group g. -/
def Prog.pins (prog : Prog) : List Nat := (prog.data.drop 4).take (prog.data.getD 3 0)
def Prog.group (prog : Prog) (g : Nat) : List KvEntry := ((gatherEntries (prog.data.drop (4 + prog.data.getD 3 0))).drop (64 * g)).take 64

/-- What a turn of a gather makes of what its granules left: the end lowers PIN. -/
def gatherEnd (s : State) (gd : BitVec 5) (prog : Prog) : Next → Act Next
  | .seq => do
    prog.pins.forM fun a => (s.kvHere a).count fPin (-1)
    setReg .A gd (BitVec.ofNat 64 (prog.data.headD 0))
    return .seq
  | nx => return nx

/-- What the end of the gather leaves, PIN being lowered from the state w on. -/
theorem gatherEnd_run {s w y : State} {prog : Prog} (unpinned : (prog.pins.forM fun a => (s.kvHere a).count fPin (-1)) w = .ok ((), y)) :
    gatherEnd s gd prog .seq w = .ok (.seq, y.setReg .A gd (BitVec.ofNat 64 (prog.data.headD 0))) := by
  change (prog.pins.forM (fun a => (s.kvHere a).count fPin (-1)) >>= fun _ => _) w = _
  rw [Act.bind_ok unpinned]
  rfl

variable {s w : State} {prog : Prog} (runs : s.cc.runnable .A = true) (sound : s.cc.badPath ≠ some .A)
  (begun : (s.ctx.eng .A).prog = some prog) (acts : prog.fill = false) (stage : prog.stage = 1)
include runs sound begun acts stage

theorem kvgath_turn : exec (.kvgath p gd ga gb q vr pp pr) s = .next (s.concluded .A p {} 2
    ((granules ((prog.data.headD 0 + 63) / 64) prog (fun g => gatherGroup (s.kvHere (prog.pins.headD 0)) (gatherRings q vr pp pr)
      (prog.data.getD 1 0) (prog.data.getD 2 0) (prog.group g)) (s.share ((prog.data.headD 0 + 63) / 64)) prog.count >>= gatherEnd s gd prog) s)) := by
  refine congrArg Host.Outcome.next ((issueOn_more runs begun acts).trans ?_)
  rw [State.settle_sound sound, show instrWords (.kvgath p gd ga gb q vr pp pr) = 2 from rfl, Act.bind_ok (Act.get_run s), if_neg (by omega)]
  rfl

/-- A gather whose groups are placed lowers PIN and completes. -/
theorem kvgath_placed {y : State} (past : (prog.data.headD 0 + 63) / 64 ≤ prog.count)
    (unpinned : (prog.pins.forM fun a => (s.kvHere a).count fPin (-1)) s = .ok ((), y)) :
    exec (.kvgath p gd ga gb q vr pp pr) s
      = .next ((y.setReg .A gd (BitVec.ofNat 64 (prog.data.headD 0))).retired (.kvgath p gd ga gb q vr pp pr) .A p {} .seq) := by
  rw [kvgath_turn runs sound begun acts stage, Act.bind_ok (granules_past past ..), gatherEnd_run unpinned]
  rfl

section oneGroup
variable (more : prog.count < (prog.data.headD 0 + 63) / 64) (budget : s.budget = some 1)
  (placed : gatherGroup (s.kvHere (prog.pins.headD 0)) (gatherRings q vr pp pr) (prog.data.getD 1 0) (prog.data.getD 2 0) (prog.group prog.count) s
    = .ok ((), w))
include more budget placed

/-- A turn that places the last group completes the gather. -/
theorem kvgath_lastGroup {y : State} (last : prog.count + 1 = (prog.data.headD 0 + 63) / 64)
    (unpinned : (prog.pins.forM fun a => (s.kvHere a).count fPin (-1)) w = .ok ((), y)) :
    exec (.kvgath p gd ga gb q vr pp pr) s
      = .next ((y.setReg .A gd (BitVec.ofNat 64 (prog.data.headD 0))).retired (.kvgath p gd ga gb q vr pp pr) .A p {} .seq) := by
  have share : s.share ((prog.data.headD 0 + 63) / 64) = 1 := by rw [State.share, budget]; rfl
  rw [kvgath_turn runs sound begun acts stage, share, Act.bind_ok (granules_one more placed), if_pos last.ge, gatherEnd_run unpinned]
  rfl

/-- A turn that places another group leaves the gather at the next. -/
theorem kvgath_nextGroup (next : prog.count + 1 < (prog.data.headD 0 + 63) / 64) :
    exec (.kvgath p gd ga gb q vr pp pr) s = .next (w.modCtx fun c => c.modEng .A fun e =>
      { e with prog := some (({ prog with stage := 1, count := prog.count + 1, soft := true } : Prog).taken .A p {} 2) }).stir := by
  have share : s.share ((prog.data.headD 0 + 63) / 64) = 1 := by rw [State.share, budget]; rfl
  rw [kvgath_turn runs sound begun acts stage, share, Act.bind_ok (granules_one more placed), if_neg (Nat.not_le.2 next)]
  rfl

end oneGroup
end gather

end Sys2Proof.Machine
end

section
/-! Rows of one length set end to end, and duplicates left out of a fold: what a group of a gather is made of (R216). -/
namespace Sys2Proof

section rows
variable {β : Type} {l : List (List β)} {w : Nat} (uniform : ∀ r ∈ l, r.length = w)
include uniform

theorem length_flatten_of_uniform : l.flatten.length = w * l.length := by
  rw [List.length_flatten, List.eq_replicate_of_mem (l := l.map List.length) (a := w) (by simpa using uniform), List.sum_replicate, List.length_map,
    smul_eq_mul, mul_comm]

theorem getD_flatten_of_uniform (b : β) {j : Nat} (h : j < w * l.length) : l.flatten.getD j b = (l.getD (j / w) []).getD (j % w) b := by
  have wide : 0 < w := Nat.pos_of_ne_zero fun none => by simp [none] at h
  have row : j / w < l.length := Nat.div_lt_of_lt_mul h
  have rows := getD_flatten_map (Subtype.val : { r : List β // r.length = w } → List β) w (·.2) (l.attachWith _ uniform)
    ⟨List.replicate w b, List.length_replicate⟩ b j (by rwa [List.length_attachWith])
  rw [List.attachWith_map_subtype_val] at rows
  rw [rows, List.getD_eq_getElem (List.attachWith ..) _ (by rwa [List.length_attachWith]), List.getElem_attachWith, List.getD_eq_getElem l _ row]

end rows

/-- Rows of w bytes, filled up to 64 rows. -/
def fillRows (l : List (List Byte)) (w : Nat) (pad : Byte) : List Byte := l.flatten ++ List.replicate (w * (64 - l.length)) pad

section fillRows
variable {l : List (List Byte)} {w : Nat} {pad : Byte} (uniform : ∀ r ∈ l, r.length = w)
include uniform

theorem getD_fillRows {o : Nat} (h : o < 64 * w) :
    (fillRows l w pad).getD o 0 = if o / w < l.length then (l.getD (o / w) []).getD (o % w) 0 else pad := by
  have wide : 0 < w := by omega
  rw [fillRows]
  split
  next row =>
    have within : o < w * l.length := by
      rw [mul_comm]
      exact (Nat.div_lt_iff_lt_mul wide).1 row
    rw [List.getD_append _ _ _ _ (by rwa [length_flatten_of_uniform uniform]), getD_flatten_of_uniform uniform 0 within]
  next past =>
    have beyond : w * l.length ≤ o := by
      rw [mul_comm]
      exact (Nat.le_div_iff_mul_le wide).1 (Nat.le_of_not_lt past)
    rw [List.getD_append_right _ _ _ _ (by rwa [length_flatten_of_uniform uniform]), length_flatten_of_uniform uniform, List.getD_replicate]
    rw [Nat.mul_sub]
    omega

theorem length_fillRows (few : l.length ≤ 64) : (fillRows l w pad).length = 64 * w := by
  rw [fillRows, List.length_append, length_flatten_of_uniform uniform, List.length_replicate, ← Nat.mul_add, Nat.add_sub_cancel' few, mul_comm]

end fillRows

/-- A change at every key of a list, once where a key stands twice. -/
theorem SMap.get_foldl_eraseDups {α : Type} [DecidableEq α] (d : α) (f : α → α) (l : List Nat) (m : SMap α) (k : Nat) :
    (l.eraseDups.foldl (fun m r => m.set d r (f (m.get d r))) m).get d k = if k ∈ l then f (m.get d k) else m.get d k := by
  match l with
  | [] => rfl
  | a :: r =>
    rw [List.eraseDups_cons, List.foldl_cons, SMap.get_foldl_eraseDups d f (r.filter fun b => !b == a)]
    by_cases same : k = a
    · subst same
      simp
    · simp [SMap.get_set_ne _ _ _ same, same]
termination_by l.length
decreasing_by
  exact Nat.lt_succ_of_le (List.length_filter_le _ r)

end Sys2Proof
end

section
/-! A group of a gather in the slots of its rings: through Swizzle, byte by byte (R171, R216). -/
namespace Sys2Proof.Machine

/-! ### Chunks of scratchpad -/

theorem Ctx.setChunks_frame (l : List Nat) (c : Ctx) (d : List Byte) : c.setChunks l d = { c with spad := (c.setChunks l d).spad } := by
  induction l generalizing c d with
  | nil => rfl
  | cons a r ih =>
    rw [Ctx.setChunks, ih]
    rfl

/-- Bytes that no chunk holds are left. -/
theorem Ctx.get_setChunks_out {l : List Nat} {a : Nat} (out : ∀ x ∈ l, ∀ b, b < 16 → a ≠ x + b) (c : Ctx) (d : List Byte) :
    (c.setChunks l d).spad.get 0 a = c.spad.get 0 a := by
  induction l generalizing c d with
  | nil => rfl
  | cons x r ih =>
    rw [Ctx.setChunks, ih fun y hy => out y (List.mem_cons_of_mem x hy)]
    refine SMap.get_setList_out _ _ _ _ _ (Decidable.byContradiction fun inside => ?_)
    rw [List.length_take] at inside
    exact out x List.mem_cons_self (a - x) (by omega) (by omega)

/-- A byte of a chunk, where chunks lie apart. -/
theorem Ctx.get_setChunks_in {l : List Nat} (apart : l.Pairwise fun x y => ∀ b, b < 16 → ∀ b', b' < 16 → x + b ≠ y + b') (c : Ctx) {d : List Byte}
    (whole : d.length = 16 * l.length) {i b : Nat} (hi : i < l.length) (hb : b < 16) :
    (c.setChunks l d).spad.get 0 (l[i] + b) = d.getD (16 * i + b) 0 := by
  induction l generalizing c d i with
  | nil => exact absurd hi (Nat.not_lt_zero i)
  | cons x r ih =>
    obtain ⟨first, rest⟩ := List.pairwise_cons.1 apart
    rw [List.length_cons, Nat.mul_succ] at whole
    rw [Ctx.setChunks]
    cases i with
    | zero =>
      rw [List.getElem_cons_zero, Ctx.get_setChunks_out fun y hy b' hb' => first y hy b hb b' hb', Ctx.setSpad]
      rw [SMap.get_setList_in _ _ _ _ _ (by rw [List.length_take]; omega), List.getElem_take, List.getD_eq_getElem _ _ (by omega)]
      simp
    | succ i =>
      rw [List.getElem_cons_succ, ih rest _ (by rw [List.length_drop]; omega) (Nat.lt_of_succ_lt_succ hi)]
      simp only [List.getD_eq_getElem?_getD, List.getElem?_drop]
      congr 2
      omega

/-! ### A slot filled through Swizzle -/

/-- Where the byte at offset o of the slot at TAIL lies. -/
def Ring.place (r : Ring) (o : Nat) : Nat := r.byteAt r.tail.toNat o r.pitch r.span

/-- Swizzle moves chunks of 16 bytes, the bytes of one staying together. -/
theorem swizzle_chunk {pitch : Nat} (whole : pitch % 16 = 0) (span i b : Nat) (hb : b < 16) :
    swizzle (16 * i + b) pitch span = swizzle (16 * i) pitch span + b := by
  unfold swizzle
  split
  · rfl
  · obtain ⟨k, rfl⟩ := Nat.dvd_of_mod_eq_zero whole
    have row : (16 * i + b) / (16 * k) = 16 * i / (16 * k) := by
      rw [← Nat.div_div_eq_div_mul, ← Nat.div_div_eq_div_mul, show (16 * i + b) / 16 = 16 * i / 16 by omega]
    have column : (16 * i + b) % (16 * k) / 16 = 16 * i % (16 * k) / 16 := by
      rw [Nat.mod_mul_right_div_self, Nat.mod_mul_right_div_self, show (16 * i + b) / 16 = 16 * i / 16 by omega]
    rw [row, column]
    dsimp only
    omega

namespace Ring
variable {r : Ring}

theorem place_chunk (whole : r.pitch % 16 = 0) (i b : Nat) (hb : b < 16) : r.place (16 * i + b) = r.place (16 * i) + b := by
  rw [Ring.place, Ring.place, Ring.byteAt, Ring.byteAt, swizzle_chunk whole _ _ _ hb, ← Nat.add_assoc]

theorem chunkAddrs_tail {m : Nat} (inside : ∀ i, i < m → 16 * i + 16 ≤ r.slot) : r.chunkAddrs r.tail 0 m = upTo m fun i => r.place (16 * i) := by
  refine List.map_congr_left fun i hi => ?_
  have within := inside i (List.mem_range.1 hi)
  dsimp only
  rw [Nat.zero_add, Nat.div_eq_of_lt (by omega), Nat.mod_eq_of_lt (by omega)]
  rfl

end Ring

section fillSlot
variable {c : Ctx} {n : Nat} {d : List Byte} (whole : d.length % 16 = 0) (inside : ∀ o, o < d.length → o / 16 * 16 + 16 ≤ (c.ring n).slot)
  (pitch : (c.ring n).pitch % 16 = 0)

theorem Ctx.fillSlot_frame : c.fillSlot n d = { c with spad := (c.fillSlot n d).spad } := Ctx.setChunks_frame _ c d

theorem Ctx.ring_fillSlot (k : Nat) : (c.fillSlot n d).ring k = c.ring k := by
  rw [Ctx.fillSlot_frame]
  rfl

include whole inside

theorem Ctx.fillSlot_chunks : c.fillSlot n d = c.setChunks (upTo (d.length / 16) fun i => (c.ring n).place (16 * i)) d := by
  rw [Ctx.fillSlot, Ring.chunkAddrs_tail fun i hi => ?_]
  have := inside (16 * i) (by omega)
  omega

include pitch

theorem Ctx.get_fillSlot_out {a : Nat} (out : ∀ o, o < d.length → a ≠ (c.ring n).place o) : (c.fillSlot n d).spad.get 0 a = c.spad.get 0 a := by
  rw [Ctx.fillSlot_chunks whole inside]
  refine Ctx.get_setChunks_out (fun x hx b hb => ?_) c d
  obtain ⟨i, hi, rfl⟩ := List.mem_map.1 hx
  rw [← Ring.place_chunk pitch i b hb]
  have := List.mem_range.1 hi
  exact out (16 * i + b) (by omega)

theorem Ctx.get_fillSlot_in (apart : ∀ o o', o < d.length → o' < d.length → (c.ring n).place o = (c.ring n).place o' → o = o') {o : Nat}
    (ho : o < d.length) : (c.fillSlot n d).spad.get 0 ((c.ring n).place o) = d.getD o 0 := by
  have chunks : (upTo (d.length / 16) fun i => (c.ring n).place (16 * i)).Pairwise fun x y => ∀ b, b < 16 → ∀ b', b' < 16 → x + b ≠ y + b' := by
    refine List.pairwise_map.2 (List.pairwise_lt_range.imp_of_mem fun {i j} hi hj less b hb b' hb' same => ?_)
    rw [← Ring.place_chunk pitch i b hb, ← Ring.place_chunk pitch j b' hb'] at same
    have := List.mem_range.1 hi
    have := List.mem_range.1 hj
    have := apart _ _ (by omega) (by omega) same
    omega
  have length : (upTo (d.length / 16) fun i => (c.ring n).place (16 * i)).length = d.length / 16 := by simp [upTo]
  have byte := Ctx.get_setChunks_in chunks c (d := d) (by omega) (i := o / 16) (b := o % 16) (by omega) (Nat.mod_lt o (by decide))
  have at_ : 16 * (o / 16) + o % 16 = o := by omega
  have place : (upTo (d.length / 16) fun i => (c.ring n).place (16 * i))[o / 16] + o % 16 = (c.ring n).place o := by
    simp only [upTo, List.getElem_map, List.getElem_range]
    rw [← Ring.place_chunk pitch _ _ (Nat.mod_lt o (by decide)), at_]
  rw [Ctx.fillSlot_chunks whole inside, ← place, byte, at_]

end fillSlot

/-! ### Several slots, one after the other -/

/-- The parts of a group placed, each in its ring. -/
def Ctx.fillParts (c : Ctx) (parts : List (Nat × List Byte)) : Ctx := parts.foldl (fun c y => c.fillSlot y.1 y.2) c

/-- Where the byte at offset o of part j lies. -/
def Ctx.partPlace (c : Ctx) (parts : List (Nat × List Byte)) (j o : Nat) : Nat := (c.ring (parts.getD j (0, [])).1).place o

/-- What a part asks of its ring: whole chunks, within the slot, and a pitch of whole chunks. -/
structure Ctx.Fits (c : Ctx) (y : Nat × List Byte) : Prop where
  whole : y.2.length % 16 = 0
  inside : ∀ o, o < y.2.length → o / 16 * 16 + 16 ≤ (c.ring y.1).slot
  pitch : (c.ring y.1).pitch % 16 = 0

section parts
variable {parts : List (Nat × List Byte)}

theorem Ctx.fillParts_frame (c : Ctx) : c.fillParts parts = { c with spad := (c.fillParts parts).spad } := by
  induction parts generalizing c with
  | nil => rfl
  | cons y r ih =>
    change (c.fillSlot y.1 y.2).fillParts r = { c with spad := ((c.fillSlot y.1 y.2).fillParts r).spad }
    rw [ih, Ctx.fillSlot_frame]

theorem Ctx.Fits.after_fillSlot {c : Ctx} {y : Nat × List Byte} (h : c.Fits y) (n : Nat) (d : List Byte) : (c.fillSlot n d).Fits y where
  whole := h.whole
  inside := by rw [Ctx.ring_fillSlot]; exact h.inside
  pitch := by rw [Ctx.ring_fillSlot]; exact h.pitch

theorem Ctx.partPlace_fillSlot (c : Ctx) (n : Nat) (d : List Byte) (j o : Nat) : (c.fillSlot n d).partPlace parts j o = c.partPlace parts j o := by
  rw [Ctx.partPlace, Ctx.ring_fillSlot, Ctx.partPlace]

/-- Bytes that no part reaches are left. -/
theorem Ctx.get_fillParts_out {c : Ctx} {a : Nat} (fits : ∀ y ∈ parts, c.Fits y)
    (out : ∀ j o, o < (parts.getD j (0, [])).2.length → a ≠ c.partPlace parts j o) : (c.fillParts parts).spad.get 0 a = c.spad.get 0 a := by
  induction parts generalizing c with
  | nil => rfl
  | cons y r ih =>
    obtain ⟨whole, inside, pitch⟩ := fits y List.mem_cons_self
    refine (ih (fun z hz => (fits z (List.mem_cons_of_mem y hz)).after_fillSlot _ _) fun j o ho => ?_).trans
      (Ctx.get_fillSlot_out whole inside pitch fun o ho => out 0 o ho)
    rw [Ctx.partPlace_fillSlot]
    exact out (j + 1) o ho

/-- A byte of a part, where the places of all parts' bytes differ. -/
theorem Ctx.get_fillParts_in {c : Ctx} (fits : ∀ y ∈ parts, c.Fits y)
    (apart : ∀ j o j' o', o < (parts.getD j (0, [])).2.length → o' < (parts.getD j' (0, [])).2.length →
      c.partPlace parts j o = c.partPlace parts j' o' → j = j' ∧ o = o') {j o : Nat} (ho : o < (parts.getD j (0, [])).2.length) :
    (c.fillParts parts).spad.get 0 (c.partPlace parts j o) = (parts.getD j (0, [])).2.getD o 0 := by
  induction parts generalizing c j with
  | nil => exact absurd ho (Nat.not_lt_zero o)
  | cons y r ih =>
    obtain ⟨whole, inside, pitch⟩ := fits y List.mem_cons_self
    have fits' : ∀ z ∈ r, (c.fillSlot y.1 y.2).Fits z := fun z hz => (fits z (List.mem_cons_of_mem y hz)).after_fillSlot _ _
    cases j with
    | zero =>
      refine (Ctx.get_fillParts_out fits' fun j' o' ho' same => ?_).trans
        (Ctx.get_fillSlot_in whole inside pitch (fun o o' ho ho' same => (apart 0 o 0 o' ho ho' same).2) ho)
      rw [Ctx.partPlace_fillSlot] at same
      exact Nat.succ_ne_zero j' (apart 0 o (j' + 1) o' ho ho' same).1.symm
    | succ j =>
      have later := ih fits' (fun j o j' o' ho ho' same => by
        rw [Ctx.partPlace_fillSlot, Ctx.partPlace_fillSlot] at same
        obtain ⟨same, same'⟩ := apart (j + 1) o (j' + 1) o' ho ho' same
        exact ⟨Nat.succ.inj same, same'⟩) ho
      rwa [Ctx.partPlace_fillSlot] at later

end parts

/-! ### The group -/

/-- Every result of a list of acts has what each act's result has. -/
theorem Act.mapM_results {α β : Type} {f : α → Act β} {P : β → Prop} (each : ∀ a s t v, f a s = .ok (v, t) → P v) {l : List α} {s t : State}
    {r : List β} (run : l.mapM f s = .ok (r, t)) : r.length = l.length ∧ ∀ v ∈ r, P v := by
  induction l generalizing s r with
  | nil =>
    cases run
    exact ⟨rfl, fun v hv => absurd hv List.not_mem_nil⟩
  | cons a l ih =>
    rw [List.mapM_cons] at run
    obtain ⟨v, u, first, run⟩ := Act.bind_eq_ok run
    obtain ⟨rest, w, others, run⟩ := Act.bind_eq_ok run
    cases run
    obtain ⟨length, has⟩ := ih others
    exact ⟨congrArg Nat.succ length, List.forall_mem_cons.2 ⟨each a s u v first, has⟩⟩

/-- An entry's data are its words' bytes. -/
theorem Kv.length_loadData {x : Kv} {a words : Nat} {s t : State} {d : List Byte} (h : x.loadData a words s = .ok (d, t)) : d.length = 4 * words := by
  unfold Kv.loadData at h
  obtain ⟨l, u, read, h⟩ := Act.bind_eq_ok h
  cases h
  obtain ⟨length, uniform⟩ := Act.mapM_results (P := fun r => r.length = 4) (fun i s t v word => by
    obtain ⟨n, u, -, word⟩ := Act.bind_eq_ok word
    cases word
    exact length_toBytes 4 n) read
  rw [length_flatten_of_uniform uniform, length, List.length_range]

/-- The bytes of part j of a group: keys, values, write positions. -/
def partData (kw ew : Nat) (l : List KvEntry) (rows : List (List Byte)) : List (List Byte) :=
  [fillRows (rows.map (·.take (4 * kw))) (4 * kw) 0, fillRows (rows.map (·.drop (4 * kw))) (4 * (ew - kw)) 0,
    fillRows (l.map fun e => toBytes e.w 4) 4 0xFF]

/-- The parts of a group, each with its ring. -/
def groupParts (rings : List Nat) (kw ew : Nat) (l : List KvEntry) (rows : List (List Byte)) : List (Nat × List Byte) :=
  rings.zip (partData kw ew l rows)

/-- The core once a group's parts are placed and TAIL of every ring has moved on. -/
def Ctx.groupPlaced (c : Ctx) (rings : List Nat) (parts : List (Nat × List Byte)) : Ctx :=
  let c := c.fillParts parts
  { c with rings := rings.eraseDups.foldl (fun m r => m.set {} r { m.get {} r with tail := (m.get {} r).tail + 1 }) c.rings }

theorem Ctx.ring_groupPlaced (c : Ctx) (rings : List Nat) (parts : List (Nat × List Byte)) (r : Nat) :
    (c.groupPlaced rings parts).ring r = if r ∈ rings then { c.ring r with tail := (c.ring r).tail + 1 } else c.ring r := by
  have rings' : (c.fillParts parts).rings = c.rings := by rw [Ctx.fillParts_frame]
  refine (SMap.get_foldl_eraseDups ({} : Ring) (fun x => { x with tail := x.tail + 1 }) rings (c.fillParts parts).rings r).trans ?_
  rw [rings']
  rfl

theorem gatherGroup_run {x : Kv} {rings : List Nat} {kw ew : Nat} {l : List KvEntry} {rows : List (List Byte)} {s u : State}
    (free : ∀ r ∈ rings, (s.ctx.ring r).free ≠ 0) (read : (l.mapM fun e => x.loadData e.addr ew) s = .ok (rows, u)) :
    gatherGroup x rings kw ew l s = .ok ((), u.modCtx fun c => c.groupPlaced rings (groupParts rings kw ew l rows)) := by
  have room : (rings.any fun r => decide ((s.ctx.ring r).free = 0)) = false := by simpa using free
  obtain ⟨length, -⟩ := Act.mapM_results (P := fun _ => True) (fun _ _ _ _ _ => trivial) read
  unfold gatherGroup
  rw [Act.bind_ok (Act.get_run s), room, Act.bind_ok (Act.waitIf_false ..), Act.bind_ok read, Act.modify_run]
  simp only [groupParts, partData, fillRows, List.length_map, length]
  rfl

/-! ### What the parts hold -/

/-- The bytes of an entry of part j of a group. -/
def partWidth (kw ew j : Nat) : Nat := 4 * [kw, ew - kw, 1].getD j 0

/-- The byte at offset o of part j of a group. -/
def groupByte (kw ew : Nat) (l : List KvEntry) (rows : List (List Byte)) (j o : Nat) : Byte :=
  let w := partWidth kw ew j
  if o / w < l.length then
    (if j = 0 then (rows.getD (o / w) []).getD (o % w) 0
      else if j = 1 then (rows.getD (o / w) []).getD (4 * kw + o % w) 0
      else (toBytes (l.getD (o / w) default).w 4).getD (o % w) 0)
  else if j = 2 then 0xFF else 0

section parts
variable {rings : List Nat} {kw ew : Nat} {l : List KvEntry} {rows : List (List Byte)}

theorem groupParts_getD {j : Nat} (three : rings.length ≤ 3) (hj : j < rings.length) :
    (groupParts rings kw ew l rows).getD j (0, []) = (rings.getD j 0, (partData kw ew l rows).getD j []) := by
  have there : j < (partData kw ew l rows).length := Nat.lt_of_lt_of_le hj three
  rw [groupParts, List.getD_eq_getElem _ _ (by rw [List.length_zip]; omega), List.getElem_zip, List.getD_eq_getElem _ _ hj,
    List.getD_eq_getElem _ _ there]

theorem lt_of_lt_groupParts {j o : Nat} (ho : o < ((groupParts rings kw ew l rows).getD j (0, [])).2.length) : j < rings.length := by
  by_contra past
  rw [List.getD_eq_default _ _ (by rw [groupParts, List.length_zip]; omega)] at ho
  exact Nat.not_lt_zero o ho

variable (narrow : kw ≤ ew) (length : rows.length = l.length) (wide : ∀ r ∈ rows, r.length = 4 * ew)
include narrow length wide

theorem length_partData (few : l.length ≤ 64) {j : Nat} (hj : j < 3) : ((partData kw ew l rows).getD j []).length = 64 * partWidth kw ew j := by
  obtain rfl | rfl | rfl : j = 0 ∨ j = 1 ∨ j = 2 := by omega
  · exact length_fillRows (by simpa using fun r hr => by have := wide r hr; omega) (by rw [List.length_map]; omega)
  · exact length_fillRows (by simpa using fun r hr => by have := wide r hr; omega) (by rw [List.length_map]; omega)
  · exact length_fillRows (by simp [length_toBytes]) (by rw [List.length_map]; omega)

theorem getD_partData {j o : Nat} (hj : j < 3) (ho : o < 64 * partWidth kw ew j) :
    ((partData kw ew l rows).getD j []).getD o 0 = groupByte kw ew l rows j o := by
  have within : o % partWidth kw ew j < partWidth kw ew j := Nat.mod_lt o (by omega)
  unfold groupByte
  dsimp only
  obtain rfl | rfl | rfl : j = 0 ∨ j = 1 ∨ j = 2 := by omega
  · refine (getD_fillRows (w := 4 * kw) (by simpa using fun r hr => by have := wide r hr; omega) ho).trans ?_
    rw [List.length_map, length]
    refine if_congr Iff.rfl ?_ rfl
    rw [if_pos rfl, show ([] : List Byte) = [].take (4 * kw) from List.take_nil.symm, List.getD_map]
    rw [List.getD_eq_getElem?_getD, List.getElem?_take, if_pos (show o % (4 * kw) < 4 * kw from within), ← List.getD_eq_getElem?_getD, List.take_nil]
    rfl
  · refine (getD_fillRows (w := 4 * (ew - kw)) (by simpa using fun r hr => by have := wide r hr; omega) ho).trans ?_
    rw [List.length_map, length]
    refine if_congr Iff.rfl ?_ rfl
    rw [if_neg (by decide), if_pos rfl, show ([] : List Byte) = [].drop (4 * kw) from List.drop_nil.symm, List.getD_map]
    rw [List.getD_eq_getElem?_getD, List.getElem?_drop, ← List.getD_eq_getElem?_getD, List.drop_nil]
    rfl
  · refine (getD_fillRows (w := 4) (by simp [length_toBytes]) ho).trans ?_
    rw [List.length_map]
    refine if_ctx_congr Iff.rfl (fun row => ?_) fun _ => rfl
    rw [if_neg (by decide), if_neg (by decide), List.getD_eq_getElem (l.map _) _ (by rwa [List.length_map]), List.getElem_map,
      List.getD_eq_getElem _ default row]
    rfl

end parts

/-- Where the byte at offset o of part j of a group lies. -/
def Ctx.groupPlace (c : Ctx) (rings : List Nat) (j o : Nat) : Nat := (c.ring (rings.getD j 0)).place o

/-- The core once a group is placed: every part's bytes where Swizzle puts them, the rest of scratchpad as before, and TAIL of every ring one
further on. -/
theorem Ctx.groupPlaced_spec {c : Ctx} {rings : List Nat} {kw ew : Nat} {l : List KvEntry} {rows : List (List Byte)} (three : rings.length ≤ 3)
    (narrow : kw ≤ ew) (few : l.length ≤ 64) (length : rows.length = l.length) (wide : ∀ r ∈ rows, r.length = 4 * ew)
    (pitch : ∀ r ∈ rings, (c.ring r).pitch % 16 = 0)
    (inside : ∀ j o, j < rings.length → o < 64 * partWidth kw ew j → o / 16 * 16 + 16 ≤ (c.ring (rings.getD j 0)).slot)
    (apart : ∀ j o j' o', j < rings.length → o < 64 * partWidth kw ew j → j' < rings.length → o' < 64 * partWidth kw ew j' →
      c.groupPlace rings j o = c.groupPlace rings j' o' → j = j' ∧ o = o') :
    (∀ j o, j < rings.length → o < 64 * partWidth kw ew j →
      (c.groupPlaced rings (groupParts rings kw ew l rows)).spad.get 0 (c.groupPlace rings j o) = groupByte kw ew l rows j o)
    ∧ ∀ a, (∀ j o, j < rings.length → o < 64 * partWidth kw ew j → a ≠ c.groupPlace rings j o) →
      (c.groupPlaced rings (groupParts rings kw ew l rows)).spad.get 0 a = c.spad.get 0 a := by
  have bytes : ∀ j, j < rings.length → ((groupParts rings kw ew l rows).getD j (0, [])).2.length = 64 * partWidth kw ew j := fun j hj => by
    rw [groupParts_getD three hj, length_partData narrow length wide few (by omega)]
  have place : ∀ j o, j < rings.length → c.partPlace (groupParts rings kw ew l rows) j o = c.groupPlace rings j o := fun j o hj => by
    rw [Ctx.partPlace, groupParts_getD three hj, Ctx.groupPlace]
  have fits : ∀ y ∈ groupParts rings kw ew l rows, c.Fits y := by
    intro y hy
    obtain ⟨j, hj, rfl⟩ := List.mem_iff_getElem.1 hy
    have there : j < rings.length := Nat.lt_of_lt_of_le hj (by rw [groupParts, List.length_zip]; exact Nat.min_le_left ..)
    have bytes := bytes j there
    rw [List.getD_eq_getElem _ _ hj] at bytes
    have ring : ((groupParts rings kw ew l rows)[j]).1 = rings.getD j 0 := by
      rw [← List.getD_eq_getElem _ (0, []) hj, groupParts_getD three there]
    refine ⟨by rw [bytes, partWidth]; omega, fun o ho => ?_, ?_⟩
    · rw [ring]
      exact inside j o there (by rwa [bytes] at ho)
    · exact pitch _ (List.of_mem_zip hy).1
  constructor
  · intro j o hj ho
    rw [← place j o hj, ← getD_partData narrow length wide (Nat.lt_of_lt_of_le hj three) ho]
    refine (Ctx.get_fillParts_in fits (fun j o j' o' ho ho' same => ?_) (by rwa [bytes j hj])).trans (by rw [groupParts_getD three hj])
    have hj := lt_of_lt_groupParts ho
    have hj' := lt_of_lt_groupParts ho'
    rw [place j o hj, place j' o' hj'] at same
    exact apart j o j' o' hj (by rwa [bytes j hj] at ho) hj' (by rwa [bytes j' hj'] at ho') same
  · intro a out
    refine Ctx.get_fillParts_out fits fun j o ho => ?_
    have hj := lt_of_lt_groupParts ho
    rw [place j o hj]
    exact out j o hj (by rwa [bytes j hj] at ho)

/-- A change of the executing core is a change to what it becomes. -/
theorem State.modCtx_const (s : State) (f : Ctx → Ctx) : s.modCtx f = s.modCtx fun _ => (s.modCtx f).ctx := by
  rw [State.ctx_modCtx]
  rfl

/-- Settles O33: a gather by what it has still to place, a group by its parts, the two readers of the record by their reads. -/
theorem kvReadsComplete : Obligations.KvReadsComplete := by
  unfold Obligations.KvReadsComplete
  constructor
  · intro s t t' u u1 u2 p gd ga gb q vr pr n pp x v g rings
    refine ⟨?nothing, ?progress, kvstat_completes, fun c w u3 => kvstatDrain_completes⟩
    case nothing =>
      intro kw ew commit l u3 u4 ready writable rehearsed opened init position keys width keySlot valueSlot committed above seen none
      have same : ∀ r, u2.ctx.ring r = s.ctx.ring r := fun r => by
        rw [(x.translates_rd _ width).ring, (x.translates_rd _ keys).ring, (x.translates_checkOpen _ opened).ring,
          (x.translates_rehearse _ rehearsed).ring, (translates_kvWritable ga writable).ring, State.ring_issued]
      exact kvgath_nothing ready writable rehearsed init position
        (Kv.select_none opened keys width (by rwa [same]) (by rwa [same]) committed above seen none) rfl
    case progress =>
      rintro prog np runs sound begun acts stage rfl rfl own pins group ends
      refine ⟨fun past y unpinned => kvgath_placed runs sound begun acts stage past unpinned, fun w more budget placed =>
        ⟨fun last y unpinned => kvgath_lastGroup runs sound begun acts stage more budget placed last unpinned, fun next =>
          kvgath_nextGroup runs sound begun acts stage more budget placed next⟩⟩
  · intro s u x rings kw ew l rows count narrow few free read size place byte inside apart
    obtain ⟨length, wide⟩ := Act.mapM_results (fun _ _ _ _ => Kv.length_loadData) read
    have same := (Translates.mapM (fun e : KvEntry => x.translates_loadData e.addr ew) l read).ring
    have sizes : ∀ j, size j = 64 * partWidth kw ew j := fun j => by
      change 256 * _ = 64 * (4 * _)
      omega
    simp only [sizes] at inside apart ⊢
    obtain ⟨bytes, frame⟩ := Ctx.groupPlaced_spec (c := u.ctx) (rings := rings) (by omega) narrow few length wide
      (fun r hr => by rw [same]; exact (free r hr).2) inside apart
    refine ⟨_, gatherGroup_run (fun r hr => (free r hr).1) read, State.modCtx_const .., ?_⟩
    rw [State.ctx_modCtx]
    exact ⟨bytes, frame, u.ctx.ring_groupPlaced rings _⟩

end Sys2Proof.Machine
end

section
/-! Integer elements: an exact result wrapped, or clamped with SAT (R221, R245). -/
namespace Sys2Proof.Machine

theorem tyBits_pos (ty : Nat) : 0 < tyBits ty := by
  unfold tyBits typeBits
  split <;> decide

theorem encInt_cast (w : Nat) (i : Int) : (encInt w i : Int) = i % (2 ^ w : Nat) := by
  rw [Nat.cast_pow, Nat.cast_ofNat]
  exact Int.toNat_of_nonneg (Int.emod_nonneg i (by positivity))

theorem encInt_lt (w : Nat) (i : Int) : encInt w i < 2 ^ w := by
  have small : (encInt w i : Int) < (2 ^ w : Nat) := encInt_cast w i ▸ Int.emod_lt_of_pos i (by positivity)
  exact_mod_cast small

/-- The encoding of an integer of the type stands for that integer. -/
theorem intOf_encInt {ty : Nat} {i : Int} (low : intMin ty ≤ i) (high : i ≤ intMax ty) : intOf ty (encInt (tyBits ty) i) = i := by
  have pos := tyBits_pos ty
  unfold intOf
  unfold intMin at low
  unfold intMax at high
  split_ifs at low high ⊢ with signed
  · have half : ((2 ^ tyBits ty : Nat) : Int) = 2 ^ (tyBits ty - 1) * 2 := by
      rw [Nat.cast_pow, Nat.cast_ofNat, ← pow_succ, Nat.sub_add_cancel pos]
    rw [BitVec.toInt_ofNat', encInt_cast, Int.emod_bmod]
    exact Int.bmod_eq_of_le_mul_two (by omega) (by omega)
  · rw [encInt_cast, Nat.cast_pow, Nat.cast_ofNat]
    exact Int.emod_eq_of_lt low (by omega)

theorem intMin_le_intMax (ty : Nat) : intMin ty ≤ intMax ty := by
  have whole : (1 : Int) ≤ 2 ^ tyBits ty := one_le_pow₀ (by decide)
  have half : (1 : Int) ≤ 2 ^ (tyBits ty - 1) := one_le_pow₀ (by decide)
  unfold intMin intMax
  split <;> omega

/-- Settles O36: the result is the encoding of the exact integer, wrapped or clamped; one that is clamped stands for itself. -/
theorem integerElementsWrapOrSaturate : Obligations.IntegerElementsWrapOrSaturate := by
  unfold Obligations.IntegerElementsWrapOrSaturate
  intro ty g f a b c int exact
  have integer : isIntTy ty = true := decide_eq_true int
  have result (sat : Bool) : arith ty sat f g a b c = (intResult ty sat exact, {}) := if_pos integer
  rw [result, result]
  refine ⟨?_, encInt_lt _ _, intOf_encInt (le_max_left _ _) (max_le (intMin_le_intMax ty) (min_le_left _ _)), rfl, rfl⟩
  exact (congrArg (· % _) (encInt_cast _ _)).trans (by rw [Nat.cast_pow, Nat.cast_ofNat, Int.emod_emod, if_neg Bool.false_ne_true])

end Sys2Proof.Machine
end

section
/-! Reading an encoding and rounding what it stands for (R224, R225, R229). -/
namespace Sys2Proof.Machine

section format
variable (f : Fmt)

/-- The magnitude of an encoding, and whether its sign bit is set. -/
def Fmt.mag (v : Nat) : Nat := v % 2 ^ (f.w - 1)
def Fmt.isNeg (v : Nat) : Bool := v / 2 ^ (f.w - 1) % 2 = 1

theorem Fmt.sign_add_mag {v : Nat} (pos : 0 < f.w) (hv : v < 2 ^ f.w) : f.sign (f.isNeg v) + f.mag v = v := by
  have whole : 2 ^ f.w = 2 ^ (f.w - 1) * 2 := by rw [← pow_succ, Nat.sub_add_cancel pos]
  have top : v / 2 ^ (f.w - 1) < 2 := Nat.div_lt_of_lt_mul (by omega)
  have split : v / 2 ^ (f.w - 1) * 2 ^ (f.w - 1) + v % 2 ^ (f.w - 1) = v := Nat.div_add_mod' _ _
  unfold Fmt.sign Fmt.isNeg Fmt.mag
  obtain zero | one := Nat.le_one_iff_eq_zero_or_eq_one.1 (Nat.le_of_lt_succ top)
  · rw [zero] at split ⊢
    simpa using split
  · rw [one] at split ⊢
    simpa using split

/-- What an encoding that is no NaN stands for: an infinity, a subnormal number or zero, or a normal number. -/
theorem Fmt.decode_cases (v : Nat) (number : (f.decode v).isNan = false) :
    (f.hasInf = true ∧ f.mag v = f.maxEnc + 1 ∧ f.decode v = .inf (f.isNeg v)) ∨
    (f.mag v ≤ f.maxEnc ∧ f.mag v < 2 ^ f.m ∧ f.decode v = .fin (f.isNeg v) (f.mag v) (f.emin - f.m)) ∨
    (f.mag v ≤ f.maxEnc ∧ ∃ x, f.mag v / 2 ^ f.m = x + 1 ∧
      f.decode v = .fin (f.isNeg v) (f.mag v % 2 ^ f.m + 2 ^ f.m) (f.emin - f.m + x)) := by
  unfold Fmt.mag Fmt.isNeg
  unfold Fmt.decode at number ⊢
  dsimp only at number ⊢
  split_ifs at number ⊢ with past infinite least
  · simp only [Bool.and_eq_true, decide_eq_true_eq] at infinite
    exact .inl ⟨infinite.1, infinite.2, rfl⟩
  · exact nomatch number
  · exact .inr (.inl ⟨by omega, (Nat.div_eq_zero_iff_lt (by positivity)).1 least, rfl⟩)
  · exact .inr (.inr ⟨by omega, _, (Nat.sub_add_cancel (Nat.pos_of_ne_zero least)).symm, rfl⟩)

/-- A number whose mantissa needs no shift is encoded by its exponent and its mantissa, in any mode. -/
theorem Fmt.round_unshifted {m x : Nat} (mode : Mode) (sat neg : Bool) (nonzero : m ≠ 0)
    (place : max ((Nat.log2 m : Int) + x) f.m = f.m + x) (within : x * 2 ^ f.m + m ≤ f.maxEnc) :
    f.round mode sat (.fin neg m (f.emin - f.m + x)) = (f.sign neg + (x * 2 ^ f.m + m), {}) := by
  have quantum : max (log2Val m (f.emin - f.m + x) - f.m) (f.emin - f.m) = f.emin - f.m + x := by
    unfold log2Val
    omega
  have shift : roundTo m (f.emin - f.m + x) (f.emin - f.m + x) mode = (m, true) := by
    rw [roundTo, if_pos le_rfl, sub_self, Int.toNat_zero, pow_zero, Nat.mul_one]
  simp only [Fmt.round, quantum, shift, add_sub_cancel_left, Int.toNat_natCast, if_neg nonzero, if_neg (Nat.not_lt.2 within)]
  rfl

/-- An encoding that is no NaN is the rounding of what it stands for. -/
theorem Fmt.round_decode {v : Nat} (pos : 0 < f.w) (hv : v < 2 ^ f.w) (number : (f.decode v).isNan = false) (mode : Mode) (sat : Bool) :
    f.round mode sat (f.decode v) = (v, {}) := by
  have join := f.sign_add_mag pos hv
  obtain ⟨inf, mag, value⟩ | ⟨within, small, value⟩ | ⟨within, x, exponent, value⟩ := f.decode_cases v number
  · rw [value, Fmt.round, if_pos inf, ← mag, join]
  · rw [value]
    by_cases zero : f.mag v = 0
    · rw [zero, Nat.add_zero] at join
      rw [zero, Fmt.round, if_pos rfl, join]
    · have log : Nat.log2 (f.mag v) < f.m := (Nat.log2_lt zero).2 small
      have rounded := f.round_unshifted (x := 0) mode sat (f.isNeg v) zero (by omega) (by omega)
      rwa [Nat.cast_zero, Int.add_zero, Nat.zero_mul, Nat.zero_add, join] at rounded
  · have rest : f.mag v % 2 ^ f.m < 2 ^ f.m := Nat.mod_lt _ (by positivity)
    have mantissa : x * 2 ^ f.m + (f.mag v % 2 ^ f.m + 2 ^ f.m) = f.mag v := by
      have split := Nat.div_add_mod' (f.mag v) (2 ^ f.m)
      rw [exponent, Nat.succ_mul] at split
      omega
    have log : Nat.log2 (f.mag v % 2 ^ f.m + 2 ^ f.m) = f.m := by
      rw [Nat.log2_eq_iff (by omega), pow_succ]
      omega
    rw [value, f.round_unshifted mode sat _ (by omega) (by omega) (by omega), mantissa, join]

end format

/-- Settles O11: infinity by its encoding, and a number because its mantissa needs no shift. -/
theorem formatsRoundTrip : Obligations.FormatsRoundTrip := by
  unfold Obligations.FormatsRoundTrip
  intro f known v hv number mode sat
  have pos : 0 < f.w := by
    have widths : ∀ f ∈ formats, 0 < f.w := by decide
    exact widths f known
  exact f.round_decode pos hv number mode sat

end Sys2Proof.Machine
end

section
/-! Elements of vector registers: a group is the list of its elements, and an operation acts on each of them (R238, R245). -/
namespace Sys2Proof.Machine

/-! ### Element by element -/

theorem getD_tail (l : List Nat) (k : Nat) : l.tail.getD k 0 = l.getD (k + 1) 0 := by cases l <;> rfl

/-- The first element, then the others. -/
theorem each_cons (on : Nat → Bool) (f : Nat → Nat → Nat → Nat × Flags) (i o : Nat) (os a b c : List Nat) :
    each on f i (o :: os) a b c =
      let r := f (a.getD 0 0) (b.getD 0 0) (c.getD 0 0)
      let rest := each on f (i + 1) os a.tail b.tail c.tail
      ((if on i then r.1 else o) :: rest.1, (if on i then r.2 else {}).or rest.2) := by
  rw [each, List.headD_eq_getD, List.headD_eq_getD, List.headD_eq_getD]
  dsimp only
  split <;> rfl

/-- Element k of what an operation leaves, whose first element is numbered i. -/
theorem getElem?_each (on : Nat → Bool) (f : Nat → Nat → Nat → Nat × Flags) (i : Nat) (old a b c : List Nat) (k : Nat) :
    (each on f i old a b c).1[k]? =
      (old[k]?).map fun o => if on (i + k) then (f (a.getD k 0) (b.getD k 0) (c.getD k 0)).1 else o := by
  induction old generalizing i a b c k with
  | nil => rfl
  | cons o os ih =>
    rw [each_cons]
    cases k with
    | zero => rfl
    | succ k =>
      rw [List.getElem?_cons_succ, ih, getD_tail, getD_tail, getD_tail, Nat.add_right_comm]
      rfl

theorem length_each (on : Nat → Bool) (f : Nat → Nat → Nat → Nat × Flags) (i : Nat) (old a b c : List Nat) :
    (each on f i old a b c).1.length = old.length := by
  induction old generalizing i a b c with
  | nil => rfl
  | cons o os ih =>
    rw [each_cons]
    exact congrArg (· + 1) (ih ..)

/-! ### Flags gathered -/

theorem Flags.or_assoc (a b c : Flags) : (a.or b).or c = a.or (b.or c) := by simp only [Flags.or, Bool.or_assoc]
theorem Flags.or_none (a : Flags) : a.or {} = a := by simp only [Flags.or, Bool.or_false]

theorem flagsOver_zero (on : Nat → Bool) (f : Nat → Flags) : flagsOver 0 on f = {} := rfl

theorem flagsOver_succ (n : Nat) (on : Nat → Bool) (f : Nat → Flags) :
    flagsOver (n + 1) on f = if on n then (flagsOver n on f).or (f n) else flagsOver n on f := by
  rw [flagsOver, List.range_succ, List.foldl_append]
  rfl

/-- The flags of the first element, then those of the others. -/
theorem flagsOver_succ_first (n : Nat) (on : Nat → Bool) (f : Nat → Flags) :
    flagsOver (n + 1) on f = (if on 0 then f 0 else {}).or (flagsOver n (fun k => on (k + 1)) fun k => f (k + 1)) := by
  induction n with
  | zero =>
    rw [flagsOver_succ, flagsOver_zero, flagsOver_zero, Flags.or_none]
    rfl
  | succ n ih =>
    rw [flagsOver_succ, ih, flagsOver_succ n]
    split
    next => rw [Flags.or_assoc]
    next => rfl

/-- Elements past the last active one raise nothing. -/
theorem flagsOver_of_le {A n : Nat} (more : A ≤ n) {on : Nat → Bool} (below : ∀ j, on j = true → j < A) (f : Nat → Flags) :
    flagsOver n on f = flagsOver A on f := by
  induction n, more using Nat.le_induction with
  | base => rfl
  | succ n le ih => rw [flagsOver_succ, if_neg fun act => Nat.not_lt.2 le (below n act), ih]

theorem flagsOver_none (A : Nat) (on : Nat → Bool) : (flagsOver A on fun _ => {}) = {} := by
  induction A with
  | zero => rfl
  | succ A ih => rw [flagsOver_succ, ih, Flags.or_none, ite_self]

/-- The flags that an operation raises are those of the elements on which it acts. -/
theorem flags_each (on : Nat → Bool) (f : Nat → Nat → Nat → Nat × Flags) (i : Nat) (old a b c : List Nat) :
    (each on f i old a b c).2 =
      flagsOver old.length (fun k => on (i + k)) fun k => (f (a.getD k 0) (b.getD k 0) (c.getD k 0)).2 := by
  induction old generalizing i a b c with
  | nil => rfl
  | cons o os ih =>
    have numbers : (fun k => on (i + 1 + k)) = fun k => on (i + (k + 1)) := by
      funext k
      rw [Nat.add_assoc, Nat.add_comm 1 k]
    rw [List.length_cons, flagsOver_succ_first, each_cons]
    simp only [ih, numbers, getD_tail, Nat.add_zero]

/-! ### Registers and their elements -/

theorem toNat_ofNat_of_lt {k x : Nat} (small : x < 2 ^ k) : (BitVec.ofNat k x).toNat = x := by
  rw [BitVec.toNat_ofNat, Nat.mod_eq_of_lt small]

theorem length_unpack (w : Nat) (r : Wide) : (unpack w r).length = epr w := by simp only [unpack, upTo, List.length_map, List.length_range, epr]

theorem unpack_lt {w : Nat} {r : Wide} : ∀ x ∈ unpack w r, x < 2 ^ w := by
  intro x hx
  obtain ⟨j, -, rfl⟩ := List.mem_map.1 hx
  exact BitVec.isLt _

/-- A register made of elements has those elements, cut to their width. -/
theorem unpack_pack {w : Nat} {l : List Nat} (length : l.length = epr w) : unpack w (pack w l) = l.map (· % 2 ^ w) := by
  have digits : l.foldr (fun x a => x % 2 ^ w + 2 ^ w * a) 0 = Nat.ofDigits (2 ^ w) (l.map (· % 2 ^ w)) := by
    rw [Nat.ofDigits_eq_foldr, List.foldr_map]
    rfl
  have small : ∀ x ∈ l.map (· % 2 ^ w), x < 2 ^ w := by
    intro x hx
    obtain ⟨y, -, rfl⟩ := List.mem_map.1 hx
    exact Nat.mod_lt _ (by positivity)
  refine List.ext_getElem (by rw [length_unpack, List.length_map, length]) fun j hj hj' => ?_
  rw [length_unpack, epr] at hj
  have room : w * j + w ≤ 4096 := by
    rw [← Nat.mul_succ]
    exact (Nat.mul_le_mul_left w hj).trans (Nat.mul_div_le 4096 w)
  have below : Nat.ofDigits (2 ^ w) (l.map (· % 2 ^ w)) < 2 ^ 4096 := by
    have wide : 1 < 2 ^ w := Nat.one_lt_two_pow (by rintro rfl; omega)
    refine (Nat.ofDigits_lt_base_pow_length wide small).trans_le ?_
    rw [List.length_map, length, ← pow_mul]
    have fits : w * epr w ≤ 4096 := Nat.mul_div_le 4096 w
    exact pow_le_pow_right₀ one_le_two fits
  have value : (pack w l).toNat = Nat.ofDigits (2 ^ w) (l.map (· % 2 ^ w)) := by
    rw [pack, digits]
    exact toNat_ofNat_of_lt below
  simp only [unpack, upTo, List.getElem_map, List.getElem_range, BitVec.extractLsb'_toNat, value]
  rw [Nat.shiftRight_eq_div_pow, pow_mul, ofDigits_div_mod small hj', List.getElem_map]

theorem length_elems (w : Nat) (l : List Wide) : (elems w l).length = l.length * epr w := by
  have same : List.length ∘ unpack w = fun _ => epr w := funext (length_unpack w)
  rw [elems, List.length_flatten, List.map_map, same, List.map_const', List.sum_replicate, smul_eq_mul]

theorem elems_lt {w : Nat} {l : List Wide} : ∀ x ∈ elems w l, x < 2 ^ w := by
  intro x hx
  obtain ⟨r, hr, hx⟩ := List.mem_flatten.1 hx
  obtain ⟨v, -, rfl⟩ := List.mem_map.1 hr
  exact unpack_lt x hx

theorem length_regsOf (w n : Nat) (l : List Nat) : (regsOf w n l).length = n := by rw [regsOf, List.length_map, length_chunks]

/-- A group made of elements has those elements, cut to their width. -/
theorem elems_regsOf {w n : Nat} {l : List Nat} (length : l.length = n * epr w) : elems w (regsOf w n l) = l.map (· % 2 ^ w) := by
  have whole : l.length = 4096 / w * n := length.trans (Nat.mul_comm ..)
  have pieces : ∀ x ∈ chunks (4096 / w) l n, (unpack w ∘ pack w) x = x.map (· % 2 ^ w) := fun x hx =>
    unpack_pack (length_of_mem_chunks _ _ _ whole x hx)
  rw [elems, regsOf, List.map_map, List.map_congr_left pieces, ← List.map_flatten, flatten_chunks _ _ _ whole]

theorem seqLane_lt (w : Nat) (l : List Wide) (j : Nat) : seqLane w l j < 2 ^ w := BitVec.isLt _

/-- Element j of a group, counted in sequential order; past its end it reads 0. -/
theorem getD_elems {w : Nat} (pos : 0 < epr w) (l : List Wide) (j : Nat) : (elems w l).getD j 0 = seqLane w l j := by
  induction l generalizing j with
  | nil => simp [elems, seqLane, lane]
  | cons r rs ih =>
    have split : elems w (r :: rs) = unpack w r ++ elems w rs := rfl
    by_cases first : j < epr w
    · rw [split, List.getD_append _ _ _ _ (by rwa [length_unpack]), seqLane, lane, Nat.div_eq_of_lt first, Nat.mod_eq_of_lt first,
        List.getD_eq_getElem _ _ (by rwa [length_unpack])]
      simp only [unpack, upTo, List.getElem_map, List.getElem_range]
      rfl
    · obtain ⟨k, rfl⟩ := Nat.exists_eq_add_of_le (Nat.le_of_not_lt first)
      rw [split, List.getD_append_right _ _ _ _ (by rw [length_unpack]; omega), length_unpack, Nat.add_sub_cancel_left, ih, seqLane, seqLane,
        Nat.add_div_left _ pos, Nat.add_mod_left]
      rfl

/-- Element j of a group made of elements. -/
theorem seqLane_regsOf {w n : Nat} (pos : 0 < epr w) {l : List Nat} (length : l.length = n * epr w) (j : Nat) :
    seqLane w (regsOf w n l) j = l.getD j 0 % 2 ^ w := by
  rw [← getD_elems pos, elems_regsOf length]
  exact (congrArg (List.getD _ j) (Nat.zero_mod _).symm).trans (List.getD_map l 0 (· % 2 ^ w))

/-- A group whose active elements are computed anew from those of three others. -/
theorem seqLane_each {w : Nat} (pos : 0 < epr w) (on : Nat → Bool) (f : Nat → Nat → Nat → Nat × Flags) (old : List Wide) (a b c : List Nat)
    {j : Nat} (inside : j < old.length * epr w) :
    seqLane w (regsOf w old.length (each on f 0 (elems w old) a b c).1) j =
      if on j then (f (a.getD j 0) (b.getD j 0) (c.getD j 0)).1 % 2 ^ w else seqLane w old j := by
  rw [seqLane_regsOf pos (by rw [length_each, length_elems]), List.getD_eq_getElem?_getD, getElem?_each, Nat.zero_add,
    List.getElem?_eq_getElem (by rwa [length_elems]), Option.map_some, Option.getD_some]
  split
  next => rfl
  next => rw [Nat.mod_eq_of_lt (elems_lt _ (List.getElem_mem _)), ← getD_elems pos, List.getD_eq_getElem _ _ (by rwa [length_elems])]

end Sys2Proof.Machine
end

section
/-! What an X instruction does that acts: its sources are read and popped, its body forms the result, and the destination is written
(R92, R96, R240, R243). -/
namespace Sys2Proof

theorem SMap.get_cons {α : Type} (j : Nat) (a : α) (r : SMap α) (d : α) (k : Nat) :
    SMap.get ((j, a) :: r) d k = if j = k then a else r.get d k := by
  rw [SMap.get, SMap.find_cons]
  split <;> rfl

namespace Machine

/-! ### The entries that are popped -/

/-- A core once each load queue has lost as many entries as a plan takes. -/
def State.popAll (s : State) (m : SMap Nat) : State := m.foldl (fun s e => s.popQueue e.1 e.2) s

theorem State.ctx_popAll (s : State) (m : SMap Nat) : ∃ qs, (s.popAll m).ctx = { s.ctx with queues := qs } := by
  induction m generalizing s with
  | nil => exact ⟨_, rfl⟩
  | cons e r ih =>
    obtain ⟨qs, rest⟩ := ih (s.popQueue e.1 e.2)
    refine ⟨qs, rest.trans ?_⟩
    rw [State.popQueue, State.ctx_modCtx]
    rfl

@[simp] theorem State.xu_popAll (s : State) (m : SMap Nat) : (s.popAll m).ctx.xu = s.ctx.xu := by
  obtain ⟨qs, shape⟩ := s.ctx_popAll m
  rw [shape]

@[simp] theorem State.csr_popAll (s : State) (m : SMap Nat) : (s.popAll m).ctx.csr = s.ctx.csr := by
  obtain ⟨qs, shape⟩ := s.ctx_popAll m
  rw [shape]

@[simp] theorem State.reg_popAll (s : State) (m : SMap Nat) (e : Eng) (r : BitVec 5) : (s.popAll m).reg e r = s.reg e r := by
  obtain ⟨qs, shape⟩ := s.ctx_popAll m
  rw [State.reg, shape]
  cases e <;> rfl

theorem Ctx.queue_setQueue_if (c : Ctx) (q k : Nat) (l : List Slot) : (c.setQueue q l).queue k = if k = q then l else c.queue k :=
  SMap.get_set ..

theorem State.queue_popAll (s : State) {m : SMap Nat} (canonical : m.wf 0 = true) (q : Nat) :
    (s.popAll m).ctx.queue q = (s.ctx.queue q).drop (m.get 0 q) := by
  induction m generalizing s with
  | nil => rfl
  | cons e r ih =>
    obtain ⟨j, a⟩ := e
    obtain ⟨-, later, canonical⟩ := SMap.wf_cons.1 canonical
    have popped : (s.popQueue j a).ctx.queue q = if q = j then (s.ctx.queue j).drop a else s.ctx.queue q := by
      rw [State.popQueue, State.ctx_modCtx, Ctx.queue_setQueue_if]
    have rest : (s.popAll ((j, a) :: r)).ctx.queue q = ((s.popQueue j a).popAll r).ctx.queue q := rfl
    rw [rest, ih _ canonical, popped, SMap.get_cons]
    by_cases here : q = j
    · subst here
      have last : SMap.get r 0 q = 0 := by rw [SMap.get, SMap.find_of_lt later]; rfl
      rw [if_pos rfl, if_pos rfl, last, List.drop_zero]
    · rw [if_neg here, if_neg (Ne.symm here)]

/-! ### Where the sources come from -/

/-- Registers at a place. -/
def Place.size : Place → Nat
  | .regs _ n => n
  | .entries _ _ n => n

/-- A plan's places are as large as its operands. -/
theorem sizes_planSources (l : List XOperand) (m : SMap Nat) : (planSources l m).1.map Place.size = l.map (·.n) := by
  induction l generalizing m with
  | nil => rfl
  | cons o r ih =>
    rw [planSources]
    dsimp only
    split_ifs <;> exact congrArg (_ :: ·) (ih _)

theorem wf_planSources (l : List XOperand) {m : SMap Nat} (canonical : m.wf 0 = true) : (planSources l m).2.wf 0 = true := by
  induction l generalizing m with
  | nil => exact canonical
  | cons o r ih =>
    rw [planSources]
    dsimp only
    split_ifs
    · exact ih canonical
    · exact ih (SMap.wf_set _ _ canonical)
    · exact ih canonical

/-- Only load queues are popped. -/
theorem planSources_takes_loads (l : List XOperand) (m : SMap Nat) {q : Nat} (store : 4 ≤ q) : (planSources l m).2.get 0 q = m.get 0 q := by
  induction l generalizing m with
  | nil => rfl
  | cons o r ih =>
    rw [planSources]
    dsimp only
    split_ifs
    · exact ih m
    · exact (ih _).trans (SMap.get_set_ne m 0 _ (by omega))
    · exact ih m

theorem Ctx.length_registersAt {c : Ctx} {x : Place} (held : ∀ r ∈ readsOf [x], r.2 ≤ (c.queue r.1).length) :
    (c.registersAt x).length = x.size := by
  cases x with
  | regs b n => simp [Ctx.registersAt, upTo, Place.size]
  | entries q pos n =>
    have filled : pos + n ≤ (c.queue q).length := held (q, pos + n) List.mem_cons_self
    simp only [Ctx.registersAt, Place.size, List.length_map, List.length_take, List.length_drop]
    omega

/-- An instruction that waits for nothing finds its reads in the queues. -/
theorem reads_of_gateWaits {c : Ctx} {p : BitVec 4} {n : Needs} (free : gateWaits c .X p n = none) :
    ∀ r ∈ n.reads, r.2 ≤ (c.queue r.1).length := by
  intro r read
  by_contra short
  have run : (c.filledRun r.1).length ≤ (c.queue r.1).length := List.Sublist.length_le (List.takeWhile_sublist _)
  have blocked : ((n.reads ++ n.tests).all fun x => decide (x.2 ≤ (c.filledRun x.1).length)) = false := by
    rw [List.all_eq_false]
    exact ⟨r, List.mem_append_left _ read, by rw [decide_eq_true_eq]; omega⟩
  unfold gateWaits at free
  rw [blocked] at free
  simp only [reduceCtorEq, decide_false, Bool.false_and, Bool.false_eq_true, if_false, Bool.not_false, if_true] at free
  split at free <;> cases free

/-- The sources of an X instruction that is ready are as many registers as it names. -/
theorem XSem.length_sources {x : XSem} {s : State} {i : Instr} {p : BitVec 4} (ready : Ready i .X p (x.needs s) s = true) :
    (x.sources s).map List.length = (x.srcs (x.count s)).map (·.n) := by
  obtain ⟨-, -, -, free, -⟩ := Ready.iff.1 ready
  rw [XSem.sources, List.map_map, ← sizes_planSources _ []]
  refine List.map_congr_left fun y place => Ctx.length_registersAt fun r read => reads_of_gateWaits free r ?_
  obtain ⟨z, hz, found⟩ := List.mem_filterMap.1 read
  rw [List.mem_singleton] at hz
  exact List.mem_filterMap.2 ⟨y, place, hz ▸ found⟩

/-! ### The run of an X instruction -/

/-- What the body of an X instruction finds. -/
def XSem.args (x : XSem) (s : State) : XArgs := { A := x.count s, on := x.on s, srcs := x.sources s, old := x.before s }

/-- What is left when its result r is written. -/
def XSem.written (x : XSem) (s : State) (r : List Wide) (u : State) : State :=
  match x.dst (x.count s) with
  | some o => u.modCtx fun c => c.writeDst o x.term r
  | none => u

theorem XOperand.pushQueue_isSome (o : XOperand) : o.pushQueue.isSome = decide (40 ≤ o.code.toNat) := by
  unfold XOperand.pushQueue
  split <;> simp_all

theorem XSem.run_ok {x : XSem} {s u : State} {r : List Wide}
    (body : x.body (x.args s) (s.popAll (planSources (x.srcs (x.count s)) []).2) = .ok (r, u)) : x.run s = .ok ((), x.written s r u) := by
  unfold XSem.args at body
  unfold XSem.run XSem.written
  rw [Act.bind_ok (Act.get_run s)]
  dsimp only
  rw [Act.bind_ok (Act.set_run _ _)]
  cases dst : x.dst (x.count s) with
  | none =>
    have before : x.before s = [] := by rw [XSem.before, dst]
    rw [before] at body
    exact Act.bind_ok body
  | some o =>
    have before : x.before s = if o.pushQueue.isSome then List.replicate o.n 0 else s.ctx.registersAt (.regs o.code.toNat o.n) := by
      rw [XSem.before, dst]
      simp only [XOperand.pushQueue_isSome, decide_eq_true_eq]
      rfl
    rw [before] at body
    exact Act.bind_ok body

section issued
variable (s : State) (e : Eng) (p : BitVec 4) (n : Needs) (len : Nat)

@[simp] theorem State.xu_issued : (s.issued e p n len).ctx.xu = s.ctx.xu := by rw [State.ctx_issued]; cases e <;> rfl
theorem State.queues_issued : (s.issued e p n len).ctx.queues = s.ctx.queues := by rw [State.ctx_issued]; cases e <;> rfl

theorem XSem.count_issued (x : XSem) : x.count (s.issued e p n len) = x.count s := by
  simp only [XSem.count, Ctx.active, State.xu_issued]

theorem Ctx.registersAt_issued (y : Place) : (s.issued e p n len).ctx.registersAt y = s.ctx.registersAt y := by
  cases y <;> simp only [Ctx.registersAt, State.xu_issued, State.queue_issued]

theorem XSem.args_issued (x : XSem) : x.args (s.issued e p n len) = x.args s := by
  have on : x.on (s.issued e p n len) = x.on s := by
    funext j
    simp only [XSem.on, XSem.count_issued, Ctx.topMask, State.xu_issued]
  have sources : x.sources (s.issued e p n len) = x.sources s := by
    simp only [XSem.sources, XSem.count_issued]
    exact List.map_congr_left fun y _ => Ctx.registersAt_issued ..
  have before : x.before (s.issued e p n len) = x.before s := by
    simp only [XSem.before, XSem.count_issued, State.xu_issued]
  rw [XSem.args, on, sources, before, XSem.count_issued]
  rfl

end issued

/-- The state in which the body of an X instruction acts: it has issued, and its sources are popped. -/
def XSem.begun (x : XSem) (s : State) (i : Instr) (p : BitVec 4) : State :=
  (s.issued .X p (x.needs s) (instrWords i)).popAll (planSources (x.srcs (x.count s)) []).2

theorem XSem.reg_begun (x : XSem) (s : State) (i : Instr) (p : BitVec 4) (e : Eng) (r : BitVec 5) : (x.begun s i p).reg e r = s.reg e r := by
  rw [XSem.begun, State.reg_popAll, State.reg_issued]

/-- An X instruction that is ready, and whose body succeeds, retires with its result written. -/
theorem xIssue_ready {i : Instr} {p : BitVec 4} {x : XSem} {s u : State} {r : List Wide} (ready : Ready i .X p (x.needs s) s = true)
    (check : x.check s = .ok ((), s)) (body : x.body (x.args s) (x.begun s i p) = .ok (r, u)) :
    xIssue i p x s = .next ((x.written s r u).retired i .X p (x.needs s) .seq) := by
  have run : x.run (s.issued .X p (x.needs s) (instrWords i)) = .ok ((), x.written s r u) := by
    have ran := x.run_ok (s := s.issued .X p (x.needs s) (instrWords i)) (r := r) (u := u) (by rw [x.args_issued, x.count_issued]; exact body)
    rw [ran, XSem.written, x.count_issued]
    rfl
  rw [xIssue, issue_ready ready check, Act.bind_ok run]
  rfl

/-- Every vector instruction issues its description. -/
theorem exec_of_vectorInstr {s : State} {i : Instr} {p : BitVec 4} {x : XSem} (instr : vectorInstr s i = some (p, x)) :
    exec i s = xIssue i p x s := by
  unfold vectorInstr at instr
  split at instr
  case h_6 =>
    unfold bodyInstr at instr
    split at instr
    case h_47 => cases instr
    all_goals
      cases instr
      unfold exec
      rfl
  all_goals
    cases instr
    unfold exec
    rfl

/-! ### What is left of the core -/

section retired
variable (u : State) (i : Instr) (e : Eng) (p : BitVec 4) (n : Needs) (nx : Next)

theorem State.queues_retired : (u.retired i e p n nx).ctx.queues = u.ctx.queues := by
  obtain ⟨f, shape⟩ := u.ctx.retire_shape e (n.allPushes e p) (instrWords i) nx
  rw [State.ctx_retired, shape]
  cases e <;> rfl

theorem State.xu_retired : (u.retired i e p n nx).ctx.xu = u.ctx.xu := by
  obtain ⟨f, shape⟩ := u.ctx.retire_shape e (n.allPushes e p) (instrWords i) nx
  rw [State.ctx_retired, shape]
  cases e <;> rfl

theorem State.csr_retired : (u.retired i e p n nx).ctx.csr = u.ctx.csr := by
  obtain ⟨f, shape⟩ := u.ctx.retire_shape e (n.allPushes e p) (instrWords i) nx
  rw [State.ctx_retired, shape]
  cases e <;> rfl

end retired

theorem Ctx.queue_pushes (c : Ctx) (q : Nat) (term : Bool) (l : List Wide) (k : Nat) :
    (l.foldl (fun c d => c.push q { full := true, term, data := d }) c).queue k =
      if k = q then c.queue q ++ l.map fun d => { full := true, term, data := d } else c.queue k := by
  induction l generalizing c with
  | nil =>
    rw [List.map_nil, List.append_nil]
    split
    next here => rw [here]; rfl
    next => rfl
  | cons d r ih =>
    rw [List.foldl_cons, ih, Ctx.push, Ctx.queue_setQueue, Ctx.queue_setQueue_if, List.map_cons, List.append_assoc]
    split <;> rfl

theorem Ctx.pushes_frame (c : Ctx) (q : Nat) (term : Bool) (l : List Wide) :
    ∃ qs, l.foldl (fun c d => c.push q { full := true, term, data := d }) c = { c with queues := qs } := by
  induction l generalizing c with
  | nil => exact ⟨_, rfl⟩
  | cons d r ih =>
    obtain ⟨qs, rest⟩ := ih (c.push q { full := true, term, data := d })
    exact ⟨qs, rest⟩

section written
variable (x : XSem) (s : State) (r : List Wide) (u : State)

theorem XSem.csr_written : (x.written s r u).ctx.csr = u.ctx.csr := by
  unfold XSem.written
  split
  next o dst =>
    rw [State.ctx_modCtx, Ctx.writeDst]
    split
    next q push =>
      obtain ⟨qs, frame⟩ := u.ctx.pushes_frame q x.term r
      rw [frame]
    next => rfl
  next => rfl

/-- Load queues are not pushed to. -/
theorem XSem.queue_written {q : Nat} (load : q < 4) : (x.written s r u).ctx.queue q = u.ctx.queue q := by
  unfold XSem.written
  split
  next o dst =>
    rw [State.ctx_modCtx, Ctx.writeDst]
    split
    next k push =>
      unfold XOperand.pushQueue at push
      split at push
      next => cases push; rw [Ctx.queue_pushes, if_neg (by omega)]
      next => cases push
    next => rfl
  next => rfl

variable {x s} {o : XOperand} (dst : x.dst (x.count s) = some o)
include dst

theorem XSem.queue_written_push (push : 40 ≤ o.code.toNat) : (x.written s r u).ctx.queue (o.code.toNat - 36) =
    u.ctx.queue (o.code.toNat - 36) ++ r.map fun d => { full := true, term := x.term, data := d } := by
  rw [XSem.written, dst]
  dsimp only
  rw [State.ctx_modCtx, Ctx.writeDst, XOperand.pushQueue, if_pos push]
  exact (Ctx.queue_pushes ..).trans (if_pos rfl)

theorem XSem.v_written (named : ¬ 40 ≤ o.code.toNat) {j : Nat} (inside : j < r.length) :
    (x.written s r u).ctx.xu.v.get 0 (o.code.toNat + j) = r.getD j 0 := by
  rw [XSem.written, dst]
  dsimp only
  rw [State.ctx_modCtx, Ctx.writeDst, XOperand.pushQueue, if_neg named]
  exact (SMap.get_setList_in _ _ _ _ _ inside).trans (List.getD_eq_getElem _ _ inside).symm

end written

/-- An X instruction whose body forms the registers r and raises the flags f, and pops and pushes nothing itself, gives these. -/
theorem XSem.gives_of_body {x : XSem} {s u : State} {i : Instr} {p : BitVec 4} {r : List Wide} {f : Flags} (data : x.term = false)
    (size : ∀ o, x.dst (x.count s) = some o → r.length = o.n) (queues : u.ctx.queues = (x.begun s i p).ctx.queues)
    (flags : u.ctx.csr = (x.begun s i p).ctx.csr.raise f) : x.gives s ((x.written s r u).retired i .X p (x.needs s) .seq) r f := by
  have canonical := wf_planSources (x.srcs (x.count s)) (SMap.wf_nil 0)
  have popped (q : Nat) : u.ctx.queue q = (s.ctx.queue q).drop ((planSources (x.srcs (x.count s)) []).2.get 0 q) := by
    rw [Ctx.queue, queues, ← State.queue_issued s .X p (x.needs s) (instrWords i) q]
    exact State.queue_popAll _ canonical q
  have retired (q : Nat) : ((x.written s r u).retired i .X p (x.needs s) .seq).ctx.queue q = (x.written s r u).ctx.queue q := by
    rw [Ctx.queue, State.queues_retired]
    rfl
  refine ⟨fun o dst => ⟨size o dst, ?_⟩, fun q load => ?_, ?_⟩
  · split
    next push =>
      rw [retired, XSem.queue_written_push r u dst push, popped, planSources_takes_loads _ _ (by omega), SMap.get_nil, List.drop_zero, data]
    next named =>
      intro j inside
      rw [State.xu_retired, XSem.v_written r u dst named (by rwa [size o dst])]
  · rw [retired, XSem.queue_written x s r u load, popped]
  · rw [State.gathers, State.csr_retired, XSem.csr_written, flags, XSem.begun, State.csr_popAll, State.csr_issued]
    rfl

end Machine
end Sys2Proof
end

section
/-! Element-wise instructions (Tables 11-4, 11-5 and 12-2, R245 to R248, R265). -/
namespace Sys2Proof.Machine

theorem epr_typeBits_pos (ty : BitVec 4) : 0 < epr (typeBits ty) := by
  unfold typeBits
  split <;> decide

theorem le_groupSize_mul_epr {w : Nat} (pos : 0 < epr w) (A : Nat) : A ≤ groupSize w A * epr w := by
  have whole : A ≤ (A + epr w - 1) / epr w * epr w := by
    have split := Nat.div_add_mod' (A + epr w - 1) (epr w)
    have rest := Nat.mod_lt (A + epr w - 1) pos
    omega
  exact whole.trans (Nat.mul_le_mul_right _ (le_max_right _ _))

theorem XSem.lt_count_of_on {x : XSem} {s : State} {j : Nat} (on : x.on s j = true) : j < x.count s :=
  of_decide_eq_true ((Bool.and_eq_true _ _).mp on).1

theorem XSem.length_before {x : XSem} {s : State} {o : XOperand} (dst : x.dst (x.count s) = some o) : (x.before s).length = o.n := by
  rw [XSem.before, dst]
  dsimp only
  split
  next => exact List.length_replicate
  next => rw [upTo, List.length_map, List.length_range]

/-- That an instruction completes with the elements and the flags that f names. -/
def XSem.CompletesWith (x : XSem) (s : State) (i : Instr) (w : Nat) (f : Nat → Nat × Flags) : Prop :=
  ∃ t l, exec i s = .next t ∧ x.gives s t l (flagsOver (x.count s) (x.on s) fun j => (f j).2)
    ∧ ∀ j, j < l.length * epr w → seqLane w l j = if x.on s j then (f j).1 % 2 ^ w else seqLane w (x.before s) j

/-- It does when its body replaces the active elements of its destination, raises their flags, and changes no queue. -/
theorem XSem.completesWith_of_body {x : XSem} {s u : State} {i : Instr} {p : BitVec 4} {w : Nat} {f : Nat → Nat × Flags}
    (instr : vectorInstr s i = some (p, x)) (ready : Ready i .X p (x.needs s) s = true) (check : x.check s = .ok ((), s)) (data : x.term = false)
    {l : List Nat} (body : x.body (x.args s) (x.begun s i p) = .ok (regsOf w (x.before s).length l, u))
    (queues : u.ctx.queues = (x.begun s i p).ctx.queues)
    (flags : u.ctx.csr = (x.begun s i p).ctx.csr.raise (flagsOver (x.count s) (x.on s) fun j => (f j).2))
    (values : ∀ j, j < (x.before s).length * epr w →
      seqLane w (regsOf w (x.before s).length l) j = if x.on s j then (f j).1 % 2 ^ w else seqLane w (x.before s) j) :
    x.CompletesWith s i w f := by
  refine ⟨_, _, (exec_of_vectorInstr instr).trans (xIssue_ready ready check body), XSem.gives_of_body data ?_ queues flags, ?_⟩
  · intro o' dst'
    rw [length_regsOf, XSem.length_before dst']
  · rwa [length_regsOf]

theorem Csrs.raise_none (r : Csrs) : r.raise {} = r := by simp only [Csrs.raise, Bool.or_false]
theorem State.ctx_raise (s : State) (f : Flags) : (s.raise f).ctx = { s.ctx with csr := s.ctx.csr.raise f } := State.ctx_modCtx s _
theorem State.queues_raise (s : State) (f : Flags) : (s.raise f).ctx.queues = s.ctx.queues := by rw [State.ctx_raise]
theorem State.csr_raise (s : State) (f : Flags) : (s.raise f).ctx.csr = s.ctx.csr.raise f := by rw [State.ctx_raise]

/-- The flags of an operation over a group that has room for the active elements are those of the active elements. -/
theorem flags_each_active {x : XSem} {s : State} {old : List Nat} (room : x.count s ≤ old.length) (g : Nat → Nat → Nat → Nat × Flags)
    (a b c : List Nat) : (each (x.on s) g 0 old a b c).2 =
      flagsOver (x.count s) (x.on s) fun j => (g (a.getD j 0) (b.getD j 0) (c.getD j 0)).2 := by
  rw [flags_each]
  simp only [Nat.zero_add]
  exact flagsOver_of_le room (fun j on => XSem.lt_count_of_on on) _

section elementwise
variable {vd : BitVec 6} {srcs : List (BitVec 6)} {ex : BitVec 3} {mk : BitVec 1} {ty : BitVec 4} {g : Nat → Nat → Nat → Nat × Flags}
  {s : State} {i : Instr} {p : BitVec 4}

/-- An operation on the elements of three groups acts on each active element. -/
theorem elementwise_completesWith (instr : vectorInstr s i = some (p, elementwise vd srcs ex mk ty g))
    (ready : Ready i .X p ((elementwise vd srcs ex mk ty g).needs s) s = true) (check : (elementwise vd srcs ex mk ty g).check s = .ok ((), s))
    {f : Nat → Nat × Flags} (same : ∀ j, let at' := fun k => seqLane (typeBits ty) (((elementwise vd srcs ex mk ty g).sources s).getD k []) j
      g (at' 0) (at' 1) (at' 2) = f j) :
    (elementwise vd srcs ex mk ty g).CompletesWith s i (typeBits ty) f := by
  have pos := epr_typeBits_pos ty
  have room : (elementwise vd srcs ex mk ty g).count s ≤ (elems (typeBits ty) ((elementwise vd srcs ex mk ty g).before s)).length := by
    rw [length_elems, XSem.length_before (x := elementwise vd srcs ex mk ty g) rfl]
    exact le_groupSize_mul_epr pos _
  have value (j : Nat) : g ((elems (typeBits ty) ((elementwise vd srcs ex mk ty g).args s).a).getD j 0)
      ((elems (typeBits ty) ((elementwise vd srcs ex mk ty g).args s).b).getD j 0)
      ((elems (typeBits ty) ((elementwise vd srcs ex mk ty g).args s).c).getD j 0) = f j := by
    rw [getD_elems pos, getD_elems pos, getD_elems pos]
    exact same j
  refine XSem.completesWith_of_body (u := State.raise _ _) instr ready check rfl rfl (State.queues_raise ..) ?_ fun j inside => ?_
  · rw [State.csr_raise]
    exact congrArg _ ((flags_each_active room ..).trans (congrArg (flagsOver _ _) (funext fun j => congrArg _ (value j))))
  · refine (seqLane_each pos _ _ _ _ _ _ inside).trans (if_congr Iff.rfl ?_ rfl)
    rw [value]

end elementwise

end Sys2Proof.Machine
end

section
/-! The values of Tables 11-4, 11-5 and 12-2. -/
namespace Sys2Proof.Machine

/-! ### Integers and floats -/

theorem tyBits_toNat (ty : BitVec 4) : tyBits ty.toNat = typeBits ty := by rw [tyBits, BitVec.ofNat_toNat, BitVec.setWidth_eq]

theorem encInt_eq (w : Nat) (i : Int) : encInt w i = (i % (2 ^ w : Nat)).toNat := by
  rw [encInt, Nat.cast_pow, Nat.cast_ofNat]

theorem operated_int {ty : BitVec 4} (int : isIntTy ty.toNat = true) (sat : BitVec 1) (i : Int) (v : Val × Bool) :
    operated ty sat i v = (intResult ty.toNat (sat = 1) i, {}) := by
  simp only [operated, if_pos int, intResult, encInt_eq, tyBits_toNat, decide_eq_true_eq]

theorem arith_eq_operated (ty : BitVec 4) (sat : BitVec 1) (f : Val → Val → Val → Val × Bool) (g : Int → Int → Int → Int) (a b c : Nat) :
    arith ty.toNat (sat = 1) f g a b c = operated ty sat (g (intOf ty.toNat a) (intOf ty.toNat b) (intOf ty.toNat c))
      (f ((fmtOf ty.toNat).decode a) ((fmtOf ty.toNat).decode b) ((fmtOf ty.toNat).decode c)) := by
  by_cases int : isIntTy ty.toNat = true
  · rw [arith, if_pos int, operated_int int]
  · rw [arith, if_neg int, operated, if_neg int]

theorem minElem_eq (ty a b : Nat) : minmaxElem ty false a b =
    if isIntTy ty then (if intOf ty a < intOf ty b then a else b, {}) else (fmtOf ty).minmax false a b := by
  simp only [minmaxElem, bne_iff_ne, ne_eq, decide_eq_false_iff_not, not_not]

theorem maxElem_eq (ty a b : Nat) : minmaxElem ty true a b =
    if isIntTy ty then (if intOf ty a < intOf ty b then b else a, {}) else (fmtOf ty).minmax true a b := by
  simp only [minmaxElem, bne_iff_ne, ne_eq, decide_eq_true_eq, ite_not]

theorem signElem_eq_quietOr (ty : BitVec 4) (f : Nat → Nat) (a : Nat) : signElem ty.toNat f a = quietOr ty a (f a) := rfl

theorem absElem_eq (ty : BitVec 4) (sat : BitVec 1) (a : Nat) : absElem ty.toNat (sat = 1) a =
    if isIntTy ty.toNat then operated ty sat (intOf ty.toNat a).natAbs ((fmtOf ty.toNat).decode a, false)
    else quietOr ty a (a % 2 ^ (typeBits ty - 1)) := by
  rw [absElem, signElem_eq_quietOr, tyBits_toNat]
  exact if_ctx_congr Iff.rfl (fun int => (operated_int int ..).symm) fun _ => rfl

theorem negElem_eq (ty : BitVec 4) (sat : BitVec 1) (a : Nat) : negElem ty.toNat (sat = 1) a =
    if isIntTy ty.toNat then operated ty sat (-(intOf ty.toNat a)) ((fmtOf ty.toNat).decode a, false)
    else quietOr ty a (a ^^^ 2 ^ (typeBits ty - 1)) := by
  rw [negElem, signElem_eq_quietOr, tyBits_toNat]
  exact if_ctx_congr Iff.rfl (fun int => (operated_int int ..).symm) fun _ => rfl

/-! ### Shifts (R246) -/

theorem shiftElem_left (w a n : Nat) : shiftElem 0 w a n = a * 2 ^ n % 2 ^ w := by
  rw [shiftElem]
  split
  next far => exact (Nat.mod_eq_zero_of_dvd (Dvd.dvd.mul_left (pow_dvd_pow 2 far) a)).symm
  next => rfl

theorem shiftElem_right {w a : Nat} (small : a < 2 ^ w) (n : Nat) : shiftElem 1 w a n = a / 2 ^ n := by
  rw [shiftElem]
  split
  next far => exact (Nat.div_eq_of_lt (small.trans_le (Nat.pow_le_pow_right Nat.two_pos far))).symm
  next => rfl

/-- A shift by the width or more leaves copies of the sign bit. -/
theorem shiftElem_arithmetic (w a n : Nat) : shiftElem 2 w a n = ((BitVec.ofNat w a).sshiftRight n).toNat := by
  change ((BitVec.ofNat w a).sshiftRight (min n w)).toNat = _
  obtain near | far := Nat.le_total n w
  · rw [Nat.min_eq_left near]
  · rw [Nat.min_eq_right far]
    congr 1
    refine BitVec.eq_of_getLsbD_eq fun i inside => ?_
    rw [BitVec.getLsbD_sshiftRight, BitVec.getLsbD_sshiftRight, if_neg (by omega), if_neg (by omega)]

/-! ### Operations on the elements of up to three groups -/

section num
variable {s : State} {i : Instr} {p p' : BitVec 4} {x : XSem} {w : Nat} {f : Nat → Nat × Flags} {vd : BitVec 6} {ex : BitVec 3} {mk : BitVec 1}
  {ty : BitVec 4} (instr : vectorInstr s i = some (p, x)) (ready : Ready i .X p (x.needs s) s = true) (check : x.check s = .ok ((), s))
include instr ready check

theorem completesWith_num {srcs : List (BitVec 6)} {g : Nat → Nat → Nat → Nat × Flags}
    {h : Nat → Nat → Nat → (Nat → Int) → (Nat → Val) → Nat × Flags} (meaning : vectorInstr s i = some (p', elementwise vd srcs ex mk ty g))
    (named : elementResult.num (x.sources s) ty h = some (w, f))
    (same : ∀ a b c, a < 2 ^ typeBits ty → g a b c = h a b c (intOf ty.toNat) (fmtOf ty.toNat).decode) : x.CompletesWith s i w f := by
  cases meaning.symm.trans instr
  cases named
  exact elementwise_completesWith instr ready check fun j => same _ _ _ (seqLane_lt ..)

/-- A shift takes its amounts from a second group, or from the instruction. -/
theorem completesWith_shift {kind : Nat} {im : BitVec 1} {n va vb : BitVec 6} {h : Nat → Nat → Nat × Flags}
    (meaning : vectorInstr s i = some (p', shiftSem kind im n vd va vb ex mk ty))
    (named : elementResult.num (x.sources s) ty (fun a b _ _ _ => h a (if im = 1 then n.toNat else b)) = some (w, f))
    (same : ∀ a n, a < 2 ^ typeBits ty → (shiftElem kind (typeBits ty) a n, {}) = h a n) : x.CompletesWith s i w f := by
  rw [shiftSem] at meaning
  split at meaning
  next fixed => exact completesWith_num instr ready check meaning named fun a b c small => (same a _ small).trans (by rw [if_pos fixed])
  next free => exact completesWith_num instr ready check meaning named fun a b c small => (same a _ small).trans (by rw [if_neg free])

end num

/-! ### VBCAST and VIOTA (R248) -/

section fills
variable {s : State} {p : BitVec 4} {gs : BitVec 5} {vd : BitVec 6} {ex : BitVec 3} {mk : BitVec 1} {ty : BitVec 4}

theorem vbcast_completesWith {lf : BitVec 1} {j : BitVec 13} {va : BitVec 6}
    (ready : Ready (.vbcast p gs lf j vd va ex mk ty) .X p ((semVbcast gs lf j vd va ex mk ty).needs s) s = true)
    (check : (semVbcast gs lf j vd va ex mk ty).check s = .ok ((), s)) :
    (semVbcast gs lf j vd va ex mk ty).CompletesWith s (.vbcast p gs lf j vd va ex mk ty) (typeBits ty) fun _ =>
      (if lf = 1 then seqLane (typeBits ty) (((semVbcast gs lf j vd va ex mk ty).sources s).getD 0 []) j.toNat
        else (s.reg .X gs).toNat % 2 ^ typeBits ty, {}) := by
  have pos := epr_typeBits_pos ty
  refine XSem.completesWith_of_body (p := p) (u := XSem.begun _ _ _ _) rfl ready check rfl rfl rfl ?_ fun k inside => ?_
  · rw [flagsOver_none, Csrs.raise_none]
  · refine (seqLane_each pos _ _ _ _ _ _ inside).trans (if_congr Iff.rfl ?_ rfl)
    rw [XSem.reg_begun, getD_elems pos]
    rfl

theorem viota_completesWith {step : BitVec 14} (ready : Ready (.viota p gs step vd ex mk ty) .X p ((semViota gs step vd ex mk ty).needs s) s = true)
    (check : (semViota gs step vd ex mk ty).check s = .ok ((), s)) :
    (semViota gs step vd ex mk ty).CompletesWith s (.viota p gs step vd ex mk ty) (typeBits ty) fun j =>
      ((((s.reg .X gs).toInt + j * step.toInt) % (2 ^ typeBits ty : Nat)).toNat, {}) := by
  have pos := epr_typeBits_pos ty
  refine XSem.completesWith_of_body (p := p) (u := XSem.begun _ _ _ _) rfl ready check rfl rfl rfl ?_ fun k inside => ?_
  · rw [flagsOver_none, Csrs.raise_none]
  · refine (seqLane_each pos _ _ _ _ _ _ inside).trans (if_ctx_congr Iff.rfl (fun on => ?_) fun _ => rfl)
    have active : k < (semViota gs step vd ex mk ty).count s := XSem.lt_count_of_on on
    rw [XSem.reg_begun, upTo, List.getD_eq_getElem _ _ (by rwa [List.length_map, List.length_range]), List.getElem_map, List.getElem_range, encInt_eq]

end fills

end Sys2Proof.Machine
end

section
/-! VCMP (Table 11-5, R247). -/
namespace Sys2Proof.Machine

/-! ### What a legal condition compares -/

theorem isSome_foldl {f : Option Nat → Nat → Option Nat} (keeps : ∀ a c, (f (some a) c).isSome = true) (l : List Nat) :
    ∀ a : Nat, (l.foldl f (some a)).isSome = true := by
  induction l with
  | nil => exact fun _ => rfl
  | cons c r ih =>
    intro a
    obtain ⟨b, next⟩ := Option.isSome_iff_exists.1 (keeps a c)
    rw [List.foldl_cons, next]
    exact ih b

theorem Illegal.least_eq_none {l : List Nat} (none : Illegal.least l = none) : l = [] := by
  cases l with
  | nil => rfl
  | cons c r =>
    have found : (Illegal.least (c :: r)).isSome = true := isSome_foldl (fun _ _ => rfl) r c
    rw [none] at found
    cases found

/-- An instruction that is ready has no field that earns a cause. -/
theorem secondWord_of_ready {i : Instr} {e : Eng} {p : BitVec 4} {n : Needs} {s : State} (ready : Ready i e p n s = true) :
    Illegal.secondWord i = [] := by
  obtain ⟨-, -, legal, -⟩ := Ready.iff.1 ready
  rw [encodingCause, encodingCauseAt] at legal
  split at legal
  next => cases legal
  next none => exact (List.append_eq_nil_iff.1 (Illegal.least_eq_none none)).2

theorem condition_of_ready {p : BitVec 4} {cc : BitVec 3} {vd va vb : BitVec 6} {ex : BitVec 3} {mk : BitVec 1} {ty : BitVec 4} {n : Needs}
    {s : State} (ready : Ready (.vcmp p cc vd va vb ex mk ty) .X p n s = true) : Illegal.condition cc vb ty = [] :=
  (List.append_eq_nil_iff.1 (secondWord_of_ready ready)).2

theorem Illegal.types_eq_nil {ok : Bool} (legal : Illegal.types ok = []) : ok = true := by
  cases ok
  · cases legal
  · rfl

theorem eq_of_isFA {ty : BitVec 4} : isFA ty = true → ty = 12 ∨ ty = 13 ∨ ty = 14 := by
  revert ty
  decide

/-- A condition that compares takes integers or floats, `.un` floats alone. -/
theorem type_of_condition {cc : BitVec 3} {vb : BitVec 6} {ty : BitVec 4} (legal : Illegal.condition cc vb ty = []) (compares : cc ≠ 7) :
    (isIntTy ty.toNat = true ∧ cc ≠ 6) ∨ (ty = 12 ∨ ty = 13 ∨ ty = 14) := by
  unfold Illegal.condition at legal
  split at legal
  next bit => exact absurd (BitVec.eq_of_toNat_eq bit) compares
  next => exact .inr (eq_of_isFA (Illegal.types_eq_nil (List.append_eq_nil_iff.1 legal).2))
  next ordered =>
    obtain int | float := (Bool.or_eq_true _ _).mp (Illegal.types_eq_nil (List.append_eq_nil_iff.1 legal).2)
    · exact .inl ⟨int, by rintro rfl; exact ordered rfl⟩
    · exact .inr (eq_of_isFA float)

/-! ### Integers as exact values -/

theorem mantAt_ofInt (i : Int) : mantAt (decide (i < 0)) i.natAbs 0 0 = i := by
  unfold mantAt
  rw [sub_self, Int.toNat_zero, pow_zero, Nat.mul_one]
  dsimp only
  split
  next neg => have := of_decide_eq_true neg; omega
  next pos => have := of_decide_eq_false (Bool.eq_false_iff.2 pos); omega

theorem Val.lt_ofInt (x y : Int) : (Val.ofInt x).lt (.ofInt y) = decide (x < y) := by
  simp only [Val.ofInt, Val.lt, min_self, mantAt_ofInt]

theorem Val.feq_ofInt (x y : Int) : (Val.ofInt x).feq (.ofInt y) = decide (x = y) := by
  simp only [Val.ofInt, Val.feq, min_self, mantAt_ofInt]

theorem decodeTy_int {ty : BitVec 4} (int : isIntTy ty.toNat = true) {v : Nat} (small : v < 2 ^ typeBits ty) :
    decodeTy ty.toNat v = .ofInt (intOf ty.toNat v) := by
  rw [decodeTy, if_pos int, intOf, tyBits_toNat, Nat.mod_eq_of_lt small]

theorem decodeTy_float {ty : BitVec 4} (float : ty = 12 ∨ ty = 13 ∨ ty = 14) {v : Nat} (small : v < 2 ^ typeBits ty) :
    decodeTy ty.toNat v = (fmtOf ty.toNat).decode v := by
  have plain : isIntTy ty.toNat = false ∧ ty.toNat ≠ 11 := by
    obtain rfl | rfl | rfl := float <;> decide
  rw [decodeTy, if_neg (by rw [plain.1]; decide), if_neg plain.2, tyBits_toNat, Nat.mod_eq_of_lt small]

theorem compared_cases {cc : BitVec 3} : cc ≠ 7 → cc = 6 ∨ cc = 0 ∨ cc = 1 ∨ cc = 2 ∨ cc = 3 ∨ cc = 4 ∨ cc = 5 := by
  revert cc
  decide

/-- A legal condition other than `.bit` holds of two elements when it holds of the values that they stand for. -/
theorem condElem_eq_holdsCond {cc : BitVec 3} {vb : BitVec 6} {ty : BitVec 4} (legal : Illegal.condition cc vb ty = []) (compares : cc ≠ 7)
    {a b : Nat} (ha : a < 2 ^ typeBits ty) (hb : b < 2 ^ typeBits ty) :
    condElem cc.toNat ty.toNat a b = holdsCond cc (decodeTy ty.toNat a) (decodeTy ty.toNat b) := by
  obtain ⟨int, ordered⟩ | float := type_of_condition legal compares
  · rw [condElem, if_pos int, decodeTy_int int ha, decodeTy_int int hb]
    have quiet (x : Int) : (Val.ofInt x).isSig = false ∧ (Val.ofInt x).isNan = false := ⟨rfl, rfl⟩
    obtain rfl | rfl | rfl | rfl | rfl | rfl | rfl := compared_cases compares
    · exact absurd rfl ordered
    all_goals
      simp only [holdsCond, Val.lt_ofInt, Val.feq_ofInt, quiet]
      simp [le_iff_lt_or_eq, eq_comm]
  · have plain : isIntTy ty.toNat = false := by obtain rfl | rfl | rfl := float <;> rfl
    rw [condElem, if_neg (by rw [plain]; decide), decodeTy_float float ha, decodeTy_float float hb]
    obtain rfl | rfl | rfl | rfl | rfl | rfl | rfl := compared_cases compares <;> rfl

/-! ### The elements that a condition makes -/

theorem bit_eq_one {b : Bool} : bit b = 1 ↔ b = true := by cases b <;> decide

section vcmp
variable {s : State} {p : BitVec 4} {cc : BitVec 3} {vd va vb : BitVec 6} {ex : BitVec 3} {mk : BitVec 1} {ty : BitVec 4}

/-- Whether the condition holds of elements j of its sources, and the flags that this raises. -/
def conditionAt (cc : BitVec 3) (ty : BitVec 4) (src : List (List Wide)) (j : Nat) : Bool × Flags :=
  if cc = 7 then (seqLane 1 (src.getD 0 []) j = 1, {})
  else holdsCond cc (decodeTy ty.toNat (seqLane (typeBits ty) (src.getD 0 []) j)) (decodeTy ty.toNat (seqLane (typeBits ty) (src.getD 1 []) j))

/-- The model's list of conditions, and its flags: as many as the elements of the first source, one for each active element. -/
theorem condList_eq {x : XSem} (legal : Illegal.condition cc vb ty = [])
    (room : cc ≠ 7 → x.count s ≤ ((x.sources s).getD 0 []).length * epr (typeBits ty)) :
    (∀ j, x.on s j = true → ((condList cc ty (x.args s)).1.getD j 0 = 1 ↔ (conditionAt cc ty (x.sources s) j).1 = true))
      ∧ (condList cc ty (x.args s)).2 = flagsOver (x.count s) (x.on s) fun j => (conditionAt cc ty (x.sources s) j).2 := by
  have pos := epr_typeBits_pos ty
  by_cases bitmap : cc = 7
  · rw [condList, if_pos bitmap]
    simp only [conditionAt, if_pos bitmap, flagsOver_none, getD_elems (w := 1) (by decide), decide_eq_true_eq]
    exact ⟨fun j _ => Iff.rfl, trivial⟩
  · have value (j : Nat) : condElem cc.toNat ty.toNat ((elems (typeBits ty) (x.args s).a).getD j 0) ((elems (typeBits ty) (x.args s).b).getD j 0)
        = conditionAt cc ty (x.sources s) j := by
      rw [getD_elems pos, getD_elems pos, conditionAt, if_neg bitmap]
      exact condElem_eq_holdsCond legal bitmap (seqLane_lt ..) (seqLane_lt ..)
    have length : (elems (typeBits ty) (x.args s).a).length = ((x.sources s).getD 0 []).length * epr (typeBits ty) := length_elems ..
    rw [condList, if_neg bitmap]
    dsimp only
    refine ⟨fun j on => ?_, ?_⟩
    · have inside := (XSem.lt_count_of_on on).trans_le (room bitmap)
      rw [List.getD_eq_getElem?_getD, getElem?_each, Nat.zero_add, List.getElem?_eq_getElem (by rwa [List.length_map, length]), Option.map_some,
        Option.getD_some, if_pos (show (x.args s).on j = true from on), ← value j]
      exact bit_eq_one
    · refine (flags_each_active (by rw [List.length_map, length]; exact room bitmap) ..).trans (congrArg (flagsOver _ _) (funext fun j => ?_))
      rw [← value j]

theorem vcmp_completesWith (ready : Ready (.vcmp p cc vd va vb ex mk ty) .X p ((semVcmp cc vd va vb ex mk ty).needs s) s = true)
    (check : (semVcmp cc vd va vb ex mk ty).check s = .ok ((), s)) :
    (semVcmp cc vd va vb ex mk ty).CompletesWith s (.vcmp p cc vd va vb ex mk ty) (typeBits ty) fun j =>
      let r := conditionAt cc ty ((semVcmp cc vd va vb ex mk ty).sources s) j
      (if r.1 then 2 ^ typeBits ty - 1 else 0, r.2) := by
  have pos := epr_typeBits_pos ty
  have room (compares : cc ≠ 7) : (semVcmp cc vd va vb ex mk ty).count s ≤
      (((semVcmp cc vd va vb ex mk ty).sources s).getD 0 []).length * epr (typeBits ty) := by
    have first : (((semVcmp cc vd va vb ex mk ty).sources s).getD 0 []).length =
        (((semVcmp cc vd va vb ex mk ty).sources s).map List.length).getD 0 0 := (List.getD_map _ [] List.length).symm
    have groups : (semVcmp cc vd va vb ex mk ty).srcs = fun A => [⟨va, groupSize (typeBits ty) A, 1⟩, ⟨vb, groupSize (typeBits ty) A, 1⟩] :=
      funext fun A => if_neg compares
    rw [first, XSem.length_sources ready, groups]
    exact le_groupSize_mul_epr pos _
  obtain ⟨holds, flags⟩ := condList_eq (x := semVcmp cc vd va vb ex mk ty) (condition_of_ready ready) room
  refine XSem.completesWith_of_body (p := p) (u := State.raise _ _) rfl ready check rfl rfl (State.queues_raise ..) ?_ fun k inside => ?_
  · rw [State.csr_raise]
    exact congrArg _ flags
  · refine (seqLane_each pos _ _ _ _ _ _ inside).trans (if_ctx_congr Iff.rfl (fun on => ?_) fun _ => rfl)
    refine congrArg (· % 2 ^ typeBits ty) ((List.getD_map _ 0 fun b => if b = 1 then 2 ^ typeBits ty - 1 else 0).trans ?_)
    exact if_congr (holds k on) rfl rfl

end vcmp

end Sys2Proof.Machine
end

section
/-! The special inputs of Tables 12-2 and 12-3, and element-wise instructions as a whole. -/
namespace Sys2Proof.Machine

/-! ### Special inputs of 2^x and log2 x (Table 12-2, R265) -/

section special
variable {f : Fmt} {v : Nat}

theorem exp2Elem_nan {sig : Bool} (nan : f.decode v = .nan sig) : exp2Elem f v = f.round none false (.nan sig) := by rw [exp2Elem, nan]
theorem log2Elem_nan {sig : Bool} (nan : f.decode v = .nan sig) : log2Elem f v = f.round none false (.nan sig) := by rw [log2Elem, nan]

theorem exp2Elem_inf {neg : Bool} (inf : f.decode v = .inf neg) :
    exp2Elem f v = f.round none false (if neg then .fin false 0 0 else .inf false) := by rw [exp2Elem, inf]
theorem log2Elem_negInf (inf : f.decode v = .inf true) : log2Elem f v = ((f.nan).getD 0, { nv := true }) := by
  rw [log2Elem, inf]
  rfl
theorem log2Elem_inf (inf : f.decode v = .inf false) : log2Elem f v = f.round none false (.inf false) := by
  rw [log2Elem, inf]
  rfl

theorem exp2Elem_zero {neg : Bool} {e : Int} (zero : f.decode v = .fin neg 0 e) : exp2Elem f v = f.round none false (.fin false 1 0) := by
  have nothing : mantAt neg 0 e (min e 0) = 0 := by
    rw [mantAt, Nat.zero_mul]
    cases neg <;> rfl
  rw [exp2Elem, zero]
  dsimp only
  rw [nothing, Int.zero_emod, if_pos rfl, Int.zero_ediv]
  rfl

theorem log2Elem_zero {neg : Bool} {e : Int} (zero : f.decode v = .fin neg 0 e) : log2Elem f v = f.round none false (.inf true) := by
  rw [log2Elem, zero]
  exact if_pos rfl

theorem log2Elem_neg {m : Nat} {e : Int} (neg : f.decode v = .fin true m e) (nonzero : m ≠ 0) :
    log2Elem f v = ((f.nan).getD 0, { nv := true }) := by
  rw [log2Elem, neg]
  exact (if_neg nonzero).trans (if_pos rfl)

end special

/-- The formats of the special functions (R244): each has NaNs and infinities, and a negative infinity is read back. -/
theorem specialFormat_spec {f : Fmt} (known : f ∈ [fmtF32, fmtF16, fmtBf16]) :
    f ∈ formats ∧ (∃ c, f.nan = some c) ∧ f.hasInf = true ∧ f.decode (f.round none false (.inf true)).1 = .inf true := by
  simp only [List.mem_cons, List.not_mem_nil, or_false] at known
  obtain rfl | rfl | rfl := known <;> exact ⟨by decide, ⟨_, rfl⟩, rfl, by decide⟩

theorem Fmt.round_nan {f : Fmt} {c : Nat} (canonical : f.nan = some c) (mode : Mode) (sat sig : Bool) :
    f.round mode sat (.nan sig) = ((f.nan).getD 0, { nv := sig }) := by
  rw [Fmt.round, canonical]
  rfl

/-! ### The instructions -/

/-- Every element-wise instruction completes with the elements that its tables name. -/
theorem completesWith_of_elementResult {s : State} {i : Instr} {p : BitVec 4} {x : XSem} {w : Nat} {f : Nat → Nat × Flags}
    (instr : vectorInstr s i = some (p, x)) (ready : Ready i .X p (x.needs s) s = true) (check : x.check s = .ok ((), s))
    (named : elementResult s (x.sources s) i = some (w, f)) : x.CompletesWith s i w f := by
  unfold elementResult at named
  split at named
  case h_1 | h_2 | h_3 | h_4 | h_5 => exact completesWith_num instr ready check rfl named fun a b c _ => arith_eq_operated ..
  case h_6 => exact completesWith_num instr ready check rfl named fun a b c _ => minElem_eq ..
  case h_7 => exact completesWith_num instr ready check rfl named fun a b c _ => maxElem_eq ..
  case h_8 => exact completesWith_num instr ready check rfl named fun a b c _ => absElem_eq ..
  case h_9 => exact completesWith_num instr ready check rfl named fun a b c _ => negElem_eq ..
  case h_10 | h_11 | h_12 | h_13 | h_18 | h_19 | h_22 | h_23 | h_24 | h_25 =>
    exact completesWith_num instr ready check rfl named fun a b c _ => rfl
  case h_14 => exact completesWith_shift instr ready check rfl named fun a n _ => congrArg (·, _) (shiftElem_left ..)
  case h_15 => exact completesWith_shift instr ready check rfl named fun a n small => congrArg (·, _) (shiftElem_right small n)
  case h_16 => exact completesWith_shift instr ready check rfl named fun a n _ => congrArg (·, _) (shiftElem_arithmetic ..)
  case h_17 =>
    cases (show some _ = some (p, x) from instr)
    cases named
    exact vcmp_completesWith ready check
  case h_20 =>
    cases (show some _ = some (p, x) from instr)
    cases named
    exact vbcast_completesWith ready check
  case h_21 =>
    cases (show some _ = some (p, x) from instr)
    cases named
    exact viota_completesWith ready check
  case h_26 => cases named

/-- Settles O35: lists element by element, instructions by the list that each leaves, and special inputs by their values. -/
theorem elementwiseValues : Obligations.ElementwiseValues := by
  unfold Obligations.ElementwiseValues
  refine ⟨fun on f old a b c i => ?_, fun w n l _ length small => ?_, fun s i p x w f instr named ready check =>
    completesWith_of_elementResult instr ready check named, fun f known v hv => ?_, ?_⟩
  · rw [getElem?_each, Nat.zero_add]
  · refine ⟨(elems_regsOf length).trans ?_, length_regsOf w n l⟩
    exact (List.map_congr_left fun x hx => Nat.mod_eq_of_lt (small x hx)).trans (List.map_id l)
  · obtain ⟨format, ⟨c, canonical⟩, infinite, negative⟩ := specialFormat_spec known
    refine ⟨fun sig nan => ?_, fun inf => ⟨?_, log2Elem_negInf inf⟩, fun inf => ?_, fun neg e zero => ⟨?_, ?_, ?_⟩,
      fun m e neg nonzero => log2Elem_neg neg nonzero⟩
    · rw [exp2Elem_nan nan, log2Elem_nan nan, Fmt.round_nan canonical]
      exact ⟨rfl, rfl⟩
    · rw [exp2Elem_inf inf]
      rfl
    · have same := formatsRoundTrip f format v hv (by rw [inf]; rfl) none false
      rw [inf] at same
      rw [exp2Elem_inf inf, log2Elem_inf inf]
      exact ⟨same, same⟩
    · rw [exp2Elem_zero zero]
    · rw [log2Elem_zero zero, Fmt.round, if_pos infinite]
    · rw [log2Elem_zero zero, negative]
  · decide +kernel

end Sys2Proof.Machine
end
